-- ==== Sys2Proof/Word.lean ====
section
/-! DEFINITION. The word types of the machine (R2, R4): bytes, 32-bit register words and 64-bit words. -/

namespace Sys2Proof

/-- A byte of memory (R2). -/
abbrev Byte := BitVec 8

/-- A register word of 32 bits (R27). -/
abbrev Word := BitVec 32

/-- A 64-bit word: a pair vN:vN+1, an address, a PC (R26, R54). -/
abbrev DWord := BitVec 64

/-- A layout record of 64 bytes (R195). -/
abbrev LayoutBits := BitVec 512

end Sys2Proof
end

