-- ==== Sys2Proof/Machine/Bits.lean ====
section
/-! DEFINITION. Bit fields, sign extension and byte order (R1, R2). -/

namespace Sys2Proof.Machine

/-- Bits [lo + n - 1 : lo] of a number (R1). -/
def field (w lo n : Nat) : Nat := w / 2 ^ lo % 2 ^ n

/-- Bit [k] of a number (R1). -/
def bitOf (w k : Nat) : Bool := decide (w / 2 ^ k % 2 = 1)

/-- The n-bit number x read in two's complement (R4). -/
def signed (n x : Nat) : Int := if x % 2 ^ n < 2 ^ (n - 1) then (x % 2 ^ n : Nat) else (x % 2 ^ n : Nat) - (2 ^ n : Nat)

/-- The low n bits of an integer (R55: wrap). -/
def wrapTo (n : Nat) (x : Int) : Nat := (x % ((2 ^ n : Nat) : Int)).toNat

/-- The n-bit pattern x sign-extended to a 64-bit word. -/
def sext64 (n x : Nat) : DWord := BitVec.ofInt 64 (signed n x)

/-- A word sign-extended to 64 bits. -/
def sextWord (w : Word) : DWord := w.signExtend 64

/-- The number whose least significant byte comes first (R2). -/
def ofBytes : List Byte → Nat
  | [] => 0
  | b :: bs => b.toNat + 256 * ofBytes bs

/-- The n bytes of a number, least significant first (R2). -/
def toBytes : Nat → Nat → List Byte
  | 0, _ => []
  | n + 1, w => BitVec.ofNat 8 w :: toBytes n (w / 256)

/-- A record built of (lowest bit, value) pairs (R1). -/
def pack : List (Nat × Nat) → Nat
  | [] => 0
  | (lo, v) :: r => v * 2 ^ lo + pack r

/-- One for true, zero for false, as a field of a record. -/
def bit (b : Bool) : Nat := if b then 1 else 0

/-- The pair of 32-bit words as one 64-bit word: lo holds bits [31:0] (R54). -/
def pair (lo hi : Word) : DWord := hi ++ lo

/-- Bits [31:0] of a 64-bit word (R54). -/
def lo32 (x : DWord) : Word := x.setWidth 32

/-- Bits [63:32] of a 64-bit word (R54). -/
def hi32 (x : DWord) : Word := (x >>> 32).setWidth 32

/-- The positions of the bits that are 1 in a 64-bit mask, ascending. -/
def maskBits (m : DWord) : List Nat := (List.range 64).filter (fun k => m.getLsbD k)

/-- The 64-bit mask with the bits at the given positions. -/
def maskOf (ps : List Nat) : DWord := ps.foldl (fun m p => m ||| (1#64 <<< p)) 0#64

/-- The entry of a list at a position, or a default. -/
def nth {α : Type} (xs : List α) (k : Nat) (dflt : α) : α := xs.getD k dflt

/-- Association list: the value at a key. -/
def alookup {α β : Type} [DecidableEq α] (xs : List (α × β)) (k : α) : Option β :=
  match xs with
  | [] => none
  | (k', v) :: r => if k' = k then some v else alookup r k

/-- Association list in key order: set a key's value (keys of type Nat, ascending). -/
def ainsert {β : Type} (xs : List (Nat × β)) (k : Nat) (v : β) : List (Nat × β) :=
  match xs with
  | [] => [(k, v)]
  | (k', v') :: r => if k < k' then (k, v) :: (k', v') :: r else if k = k' then (k, v) :: r else (k', v') :: ainsert r k v

/-- Association list: drop a key. -/
def aerase {β : Type} (xs : List (Nat × β)) (k : Nat) : List (Nat × β) := xs.filter (fun e => e.1 != k)

/-- The number whose 32-bit words are given, lowest first (R54). -/
def joinWords : List Word → Nat
  | [] => 0
  | w :: ws => w.toNat + 2 ^ 32 * joinWords ws

/-- The n words of a number, lowest first (R54). -/
def splitWords : Nat → Nat → List Word
  | 0, _ => []
  | n + 1, x => BitVec.ofNat 32 x :: splitWords n (x / 2 ^ 32)

end Sys2Proof.Machine
end

