-- ==== Sys2Proof/Config.lean ====
section
/-! DEFINITION. What one device fixes (R10, R12, R14, R16) and the free values: constants with no body, so that no proof can see
what they are (R6, and the choices the spec leaves to the device). -/

namespace Sys2Proof.Config

/-- Undefined values of R6, one for each value of the counter State.nfree. -/
opaque freeWord : Nat → BitVec 32
opaque freeByte : Nat → BitVec 8
opaque freeAcc : Nat → BitVec 128

/-- Choices that the machine of R247 and the device leave open (R44, R50, R251), one for each value of the counter. -/
opaque freeBool : Nat → Bool
opaque freeNat : Nat → Nat

/-- Whether a fetch sees the bytes that a store has replaced since its launch began (R84): free values drawn, and the place in the instruction. -/
opaque freeFetch : Nat → Nat → Bool

/-- How many acquires a release store in a buffer may be passed by (R254): some finite number. -/
opaque acquireLimit : Nat

/-- What the host answers for a page that the launch unit or Mboelaor reaches, through ATS or after a page request (R207, R297, R332), by PASID, time and page: the
frame of 4 KiB in host memory and whether it may be written, or nothing. -/
opaque hostAnswer : (pasid time page : Nat) → Option (Nat × Bool)

/-- What a host agent stores next (R247, R261): context, the agent, address in the context's host memory, bytes, whether it releases, and whether the data are poisoned (R388). -/
opaque hostArrival : Nat → Option (Nat × Nat × Nat × List Byte × Bool × Bool)

/-- Nanoseconds of device reference time and core-cycles of residence that a step takes (R227, R302; no figure is promised, R7; DESIGN CHOICE, log 7). -/
opaque elapsedNs : Nat → Nat
opaque elapsedCycles : Nat → Nat

/-- The memory cipher of an encrypted page under a key, for the unit of 256 bytes with this number (R199, R287): unit in, unit out. -/
opaque encipher : (key : List Byte) → (unit : Nat) → (bytes : List Byte) → List Byte
opaque decipher : (key : List Byte) → (unit : Nat) → (bytes : List Byte) → List Byte

/-- The key that Mboelaor reserves for the chrysalis records of an encrypted context (R380). -/
opaque recordKey : (ctx : Nat) → List Byte

/-- The security engine's algorithms (R363 to R370): digests, keys, signatures and checks. -/
opaque digest384 : List Byte → BitVec 384
opaque deriveKey : (secret label : List Byte) → BitVec 384
opaque ecdsaValid : (key msg sig : List Byte) → Bool
opaque lmsValid : (key msg sig : List Byte) → Bool
opaque ecdsaSign : (key : BitVec 384) → (msg : List Byte) → List Byte
opaque nonce256 : Nat → BitVec 256

/-- secp384r1 ECDHE and AES-256-GCM of SPDM sessions (R367): the device's ephemeral keys, the point that it sends for one, the secret shared with the point received, and an
answer sealed under a session's secret as its message of this number. -/
opaque ecdhKey : Nat → BitVec 384
opaque ecdhPublic : (key : BitVec 384) → List Byte
opaque ecdhShared : (key : BitVec 384) → (point : List Byte) → BitVec 384
opaque gcmSeal : (secret : BitVec 384) → (number : Nat) → (what : String) → (vals : List Nat) → List Byte

/-- The context that a sharing token names (R336, R348), and the devices that MIGRATE can name, with their feature vectors (R357). -/
opaque tokenCtx : Nat → Nat
opaque peerPresent : Nat → Bool
opaque peerFeatures : Nat → Nat

/-- The version of the translator (R356). -/
opaque translatorVersion : BitVec 32

/-- What one device holds: the bits of its fuse bank (R361), the images in its boot flash (copies A and B of stage 1, stages 2 and 3, R363), the
digest of its boot ROM (R366), and the cores that fail the self-test of stage 2 at a boot (R393). -/
opaque fuseBits : BitVec 2272
opaque flashImage : Nat → List Byte
opaque romDigest : BitVec 384
opaque selfTest : Nat → List Nat

/-- The microcode revision of a stage-2 image (R366), the public keys of a slot (R361, R370), the message that an owner-key command signs (R362),
Onzil's root with its certificate of a DeviceID key, and the X.509 certificate that the key of one layer makes of the next layer's alias key, whose TcbInfo extension carries
the stage's measurement (R365, R367); each key is named by the secret that it is derived from. -/
opaque microcodeOf : List Byte → BitVec 32
opaque slotKeys : BitVec 384 → List Byte × List Byte
opaque ownkeyMessage : (add : Bool) → (slot : BitVec 2) → (digest : BitVec 384) → (auth : BitVec 3) → List Byte
opaque rootCert : (deviceKey : BitVec 384) → List Byte
opaque certify : (issuer subject measurement : BitVec 384) → List Byte

/-- The set of an L2 slice that a line belongs to (R270 gives the number of sets, and no rule for choosing one; DESIGN CHOICE, log 9). -/
opaque l2Set : Nat → Nat

/-- Lane width W (R12). -/
def lanes : Nat := 64

/-- Bytes of device memory: 2304 GiB (R16, R17). -/
def deviceBytes : Nat := 2304 * 2 ^ 30

/-- Bytes of the fast tier: 768 GiB (R16). -/
def fastBytes : Nat := 768 * 2 ^ 30

/-- Clusters of a C-die, cores of a cluster as built, C-dies (R10). -/
def clusters : Nat := 40
def clusterCores : Nat := 8
def dies : Nat := 4
def dieCores : Nat := clusters * clusterCores

/-- Strand slots of a core, entries of its form file, and lane-vectors of a partition (R14). -/
def strandSlots : Nat := 64
def formEntries : Nat := 16384
def partLanes : Nat := 256

end Sys2Proof.Config
end

