-- ==== Sys2Proof/Syntax.lean ====
section
/-! DEFINITION. The instructions and events of the opcode table: one constructor of `Instr` per row (R96, R143, R162, R194, R224;
spec/95_what_each_step_holds.md for the rows that are events of the device's other agents). -/

namespace Sys2Proof

/-- Integer element types, scheme I, codes 0 to 7 (R90). -/
inductive IntTy where
  | i32 | n32 | i16 | n16 | i8 | n8 | i64 | n64
  deriving DecidableEq, Repr

/-- Width types, scheme W (R91). -/
inductive WTy where
  | w32 | w16 | w8 | w64
  deriving DecidableEq, Repr

/-- Rounding modes, codes 0 to 3 (R62). -/
inductive Rnd where
  | rn | rz | rd | ru
  deriving DecidableEq, Repr

/-- Real types without a rounding modifier (R92). -/
inductive RealTy where
  | f32 | bf16 | t32 | t16 | t8
  deriving DecidableEq, Repr

/-- Real type with its rounding, scheme F: tapered types always round with round_tapered (R92). -/
inductive RealMod where
  | f32 (r : Rnd) | bf16 (r : Rnd) | t32 | t16 | t8
  deriving DecidableEq, Repr

/-- Conditions of the compare schemes (R93). -/
inductive Cond where
  | eq | ne | lt | ge
  deriving DecidableEq, Repr

/-- Types of scheme CI (R93). -/
inductive CiTy where
  | i32 | n32 | i64 | n64
  deriving DecidableEq, Repr

/-- Types of scheme CF (R93). -/
inductive CfTy where
  | f32 | bf16 | t16 | t8
  deriving DecidableEq, Repr

/-- Memory sizes, scheme M (R94). -/
inductive MemSz where
  | n8 | i8 | n16 | i16 | b32 | b64 | b128
  deriving DecidableEq, Repr

/-- Sizes of scratch accesses (R97). -/
inductive ScrSz where
  | b32 | b64 | b128
  deriving DecidableEq, Repr

/-- Full-empty qualifiers of LDS (R97, R176). -/
inductive LdsQual where
  | plain | wait | take
  deriving DecidableEq, Repr

/-- Full-empty qualifiers of STS (R97, R176). -/
inductive StsQual where
  | plain | fill | set
  deriving DecidableEq, Repr

/-- CVT type codes 0 to 12 (R95). -/
inductive CvtTy where
  | i8 | i16 | i32 | i64 | n8 | n16 | n32 | n64 | f32 | bf16 | t8 | t16 | t32
  deriving DecidableEq, Repr

/-- Scopes, codes 0 to 4 (R97, R246). -/
inductive Scope where
  | team | gang | die | dev | sys
  deriving DecidableEq, Repr

/-- Atomic operations, codes 0 to 6 (R97, R179). -/
inductive AtOp where
  | add | and | or | xor | min | max | swap
  deriving DecidableEq, Repr

/-- SHFL modes, codes 0 to 3 (R97, R137). -/
inductive ShflMode where
  | up | down | xor | idx
  deriving DecidableEq, Repr

/-- Reduction operations, codes 0 to 10 (R97, R139). -/
inductive RedOp where
  | add | min | max | minu | maxu | and | or | xor | fadd | fmin | fmax
  deriving DecidableEq, Repr

/-- Fence kinds (R97, R191). -/
inductive FenceKind where
  | rel | acq | sc
  deriving DecidableEq, Repr

/-- MRD target formats, codes 0 to 6 (R97, R218). -/
inductive MrdFmt where
  | t8 | t16 | t32 | f32 | bf16 | i32 | i8
  deriving DecidableEq, Repr

/-- The guard field G: unguarded, or an entry of the predicate stack and its negation (R85). -/
inductive Guard where
  | none
  | q (neg : Bool) (depth : BitVec 3)
  deriving DecidableEq, Repr

/-- The common header less the length: run boundary B and guard G (R85). -/
structure Hdr where
  b : Bool
  g : Guard
  deriving DecidableEq, Repr

/-- A register field of the compact layout (R86). -/
abbrev R6 := BitVec 6

/-- A register field of the full layouts (R87). -/
abbrev R11 := BitVec 11

/-- Operand b: a register, or the literal of the 96-bit layout (R88). -/
inductive Src where
  | reg (r : R11)
  | lit (w : Word)
  deriving DecidableEq, Repr

/-- Who makes a system call: a control program of a context, or the host driver's BAR 0 mailbox on behalf of a context (R348). -/
structure Caller where
  ctx : Nat
  mailbox : Bool
  deriving DecidableEq, Repr

/-- Answer of the host to an ATS translation request (R332). -/
structure AtsAnswer where
  hostAddr : Nat
  size : Nat
  read : Bool
  write : Bool
  deriving DecidableEq, Repr

/-- Response codes of the page request interface (R333). -/
inductive PriCode where
  | success | invalidRequest | responseFailure
  deriving DecidableEq, Repr

/-- Control registers that have no row of their own (R279, R283, R301). -/
inductive CtrlReg where
  | swpctl (bdie : Nat)
  | queueCfg (die q : Nat)
  deriving DecidableEq, Repr

/-- Where an SPDM message arrived: PCIe DOE, or an Ethernet datagram with its sequence number; and, where it came as a secured message, the session under whose key it
opened (R367). -/
inductive SpdmPort where
  | doe (session : Option Nat)
  | eth (seq : BitVec 16) (session : Option Nat)
  deriving DecidableEq, Repr

/-- KEY_EXCHANGE (R367): the number of the session to open, and the requester's point. -/
structure ExchangeMsg where
  id : Nat
  exchange : List Byte
  deriving DecidableEq, Repr

/-- FINISH (R367): the number of the session, and the requester's verify data. -/
structure FinishMsg where
  id : Nat
  verify : List Byte
  deriving DecidableEq, Repr

/-- What a READ or WRITE observation command names (R396); READ also takes the account of a launch (R402) and the drop counter of a ring (R401). -/
inductive ObsTarget where
  | reg (r : R11)
  | mem (va : Nat)
  | account (launch : Nat)
  | drops (trace : Bool)
  deriving DecidableEq, Repr

/-- Where an ECC error arises (R386, R388, R391, R392). -/
inductive ErrLoc where
  | line (pa : Nat)
  | regWord (sid reg index : Nat)
  | scratchWord (launch team off : Nat)
  | wbufWord (core off : Nat)
  | accWord (launch team slot elem : Nat)
  | l1Line (core pa : Nat)
  | strandState (sid : Nat)
  | chrysalis (launch team : Nat)
  | l2Line (slice pa : Nat)
  | cacheLine (bdie pa : Nat)
  deriving DecidableEq, Repr

/-- An owner-key command to the security engine (R362). -/
structure OwnkeyCmd where
  slot : BitVec 2
  digest : BitVec 384
  auth : BitVec 3
  signer : BitVec 2
  ecpub : List Byte
  lmspub : List Byte
  ecSig : List Byte
  lmsSig : List Byte
  deriving DecidableEq, Repr

/-- One constructor per row of the opcode table. The header h stands first; operands follow in the order d, a, b, c, then the modifiers. -/
inductive Instr where
  -- Integer arithmetic, immediates and moves (R121)
  | add (h : Hdr) (d a b : R6)
  | addFull (h : Hdr) (d a : R11) (b : Src) (t : IntTy) (sat : Bool)
  | sub (h : Hdr) (d a b : R6)
  | subFull (h : Hdr) (d a : R11) (b : Src) (t : IntTy) (sat : Bool)
  | mul (h : Hdr) (d a b : R6)
  | mulFull (h : Hdr) (d a : R11) (b : Src) (t : IntTy) (sat : Bool)
  | mulh (h : Hdr) (d a b : R6)
  | mulhFull (h : Hdr) (d a : R11) (b : Src) (uns : Bool)
  | mad (h : Hdr) (d a b : R6)
  | madFull (h : Hdr) (d a : R11) (b : Src) (c : R11) (t : IntTy)
  | neg (h : Hdr) (d a : R6)
  | negFull (h : Hdr) (d a : R11) (t : IntTy) (sat : Bool)
  | abs (h : Hdr) (d a : R6)
  | absFull (h : Hdr) (d a : R11) (t : IntTy) (sat : Bool)
  | min (h : Hdr) (d a b : R6)
  | minFull (h : Hdr) (d a : R11) (b : Src) (t : IntTy)
  | max (h : Hdr) (d a b : R6)
  | maxFull (h : Hdr) (d a : R11) (b : Src) (t : IntTy)
  | div (h : Hdr) (d a b : R6)
  | divFull (h : Hdr) (d a : R11) (b : Src) (t : IntTy) (sat : Bool)
  | rem (h : Hdr) (d a b : R6)
  | remFull (h : Hdr) (d a : R11) (b : Src) (t : IntTy) (sat : Bool)
  | addk (h : Hdr) (d a k : R6)
  | addkFull (h : Hdr) (d a k : R11) (t : IntTy) (sat : Bool)
  | shlk (h : Hdr) (d a k : R6)
  | shlkFull (h : Hdr) (d a k : R11) (t : WTy)
  | shrk (h : Hdr) (d a k : R6)
  | shrkFull (h : Hdr) (d a k : R11) (t : WTy)
  | sark (h : Hdr) (d a k : R6)
  | sarkFull (h : Hdr) (d a k : R11) (t : WTy)
  -- Logic, shifts and bit fields (R124)
  | and (h : Hdr) (d a b : R6)
  | andFull (h : Hdr) (d a : R11) (b : Src)
  | or (h : Hdr) (d a b : R6)
  | orFull (h : Hdr) (d a : R11) (b : Src)
  | xor (h : Hdr) (d a b : R6)
  | xorFull (h : Hdr) (d a : R11) (b : Src)
  | not (h : Hdr) (d a : R6)
  | notFull (h : Hdr) (d a : R11)
  | andn (h : Hdr) (d a b : R6)
  | andnFull (h : Hdr) (d a : R11) (b : Src)
  | shl (h : Hdr) (d a b : R6)
  | shlFull (h : Hdr) (d a : R11) (b : Src) (t : WTy)
  | shr (h : Hdr) (d a b : R6)
  | shrFull (h : Hdr) (d a : R11) (b : Src) (t : WTy)
  | sar (h : Hdr) (d a b : R6)
  | sarFull (h : Hdr) (d a : R11) (b : Src) (t : WTy)
  | rot (h : Hdr) (d a b : R6)
  | rotFull (h : Hdr) (d a : R11) (b : Src) (t : WTy)
  | clz (h : Hdr) (d a : R6)
  | clzFull (h : Hdr) (d a : R11) (t : WTy)
  | popc (h : Hdr) (d a : R6)
  | popcFull (h : Hdr) (d a : R11) (t : WTy)
  | brev (h : Hdr) (d a : R6)
  | brevFull (h : Hdr) (d a : R11) (t : WTy)
  | bext (h : Hdr) (d a b : R6)
  | bextFull (h : Hdr) (d a : R11) (b : Src) (c : R11)
  | bins (h : Hdr) (d a b : R6)
  | binsFull (h : Hdr) (d a : R11) (b : Src) (c : R11)
  -- Compare, test, select and moves (R126, R121)
  | cmp (h : Hdr) (a b : R6)
  | cmpFull (h : Hdr) (a : R11) (b : Src) (c : Cond) (t : CiTy)
  | cmpk (h : Hdr) (a k : R6)
  | cmpkFull (h : Hdr) (a k : R11) (c : Cond) (t : CiTy)
  | fcmp (h : Hdr) (a b : R6)
  | fcmpFull (h : Hdr) (a : R11) (b : Src) (c : Cond) (t : CfTy)
  | test (h : Hdr) (a b : R6)
  | testFull (h : Hdr) (a : R11) (b : Src)
  | sel (h : Hdr) (d a b : R6)
  | selFull (h : Hdr) (d a : R11) (b : Src) (neg : Bool) (q : BitVec 3)
  | mov (h : Hdr) (d a : R6)
  | movFull (h : Hdr) (d a : R11) (wide : Bool)
  | movk (h : Hdr) (d k : R6)
  | movkFull (h : Hdr) (d k : R11)
  -- Real arithmetic (R128)
  | fadd (h : Hdr) (d a b : R6)
  | faddFull (h : Hdr) (d a : R11) (b : Src) (m : RealMod)
  | fsub (h : Hdr) (d a b : R6)
  | fsubFull (h : Hdr) (d a : R11) (b : Src) (m : RealMod)
  | fmul (h : Hdr) (d a b : R6)
  | fmulFull (h : Hdr) (d a : R11) (b : Src) (m : RealMod)
  | fma (h : Hdr) (d a b : R6)
  | fmaFull (h : Hdr) (d a : R11) (b : Src) (c : R11) (m : RealMod)
  | fmin (h : Hdr) (d a b : R6)
  | fminFull (h : Hdr) (d a : R11) (b : Src) (t : RealTy)
  | fmax (h : Hdr) (d a b : R6)
  | fmaxFull (h : Hdr) (d a : R11) (b : Src) (t : RealTy)
  | fneg (h : Hdr) (d a : R6)
  | fnegFull (h : Hdr) (d a : R11) (t : RealTy)
  | fabs (h : Hdr) (d a : R6)
  | fabsFull (h : Hdr) (d a : R11) (t : RealTy)
  | fcps (h : Hdr) (d a b : R6)
  | fcpsFull (h : Hdr) (d a : R11) (b : Src) (bf : Bool)
  | rcp (h : Hdr) (d a : R11) (bf : Bool)
  | sqrt (h : Hdr) (d a : R11) (bf : Bool)
  | rsq (h : Hdr) (d a : R11) (bf : Bool)
  | ex2 (h : Hdr) (d a : R11) (bf : Bool)
  | lg2 (h : Hdr) (d a : R11) (bf : Bool)
  | frnd (h : Hdr) (d a : R11) (m : RealMod)
  | cvt (h : Hdr) (d a : R11) (dst src : CvtTy) (sat : Bool) (r : Rnd)
  | dp4 (h : Hdr) (d a : R11) (b : Src) (c : R11) (uns : Bool)
  -- Predicate stack (R134)
  | qdup (h : Hdr) (a : BitVec 3)
  | qnot (h : Hdr) (a : BitVec 3)
  | qand (h : Hdr) (a b : BitVec 3)
  | qor (h : Hdr) (a b : BitVec 3)
  | qxor (h : Hdr) (a b : BitVec 3)
  | qdrop (h : Hdr) (k : R11)
  -- Cross-lane (R136)
  | ballot (h : Hdr) (d : R11) (q : BitVec 3)
  | shfl (h : Hdr) (d a : R11) (b : Src) (m : ShflMode)
  | red (h : Hdr) (d a : R11) (o : RedOp)
  | scan (h : Hdr) (d a : R11) (o : RedOp)
  | bcast (h : Hdr) (d a : R11) (b : Src)
  | form (h : Hdr) (d a : R11)
  -- Memory, scratchpad, atomics and queues (R162)
  | ld (h : Hdr) (d a k : R11) (z : MemSz) (nt : Bool)
  | st (h : Hdr) (a : R11) (b : Src) (k : R11) (z : MemSz) (nt : Bool)
  | lda (h : Hdr) (d a k : R11) (wide : Bool) (s : Scope)
  | stl (h : Hdr) (a : R11) (b : Src) (k : R11) (wide : Bool) (s : Scope)
  | cst (h : Hdr) (d a : R11) (b : Src) (wide : Bool) (q : BitVec 3)
  | lds (h : Hdr) (d a k : R11) (z : ScrSz) (f : LdsQual)
  | sts (h : Hdr) (a : R11) (b : Src) (k : R11) (z : ScrSz) (f : StsQual)
  | ats (h : Hdr) (d a : R11) (b : Src) (o : AtOp)
  | atGlobal (h : Hdr) (d a : R11) (b : Src) (o : AtOp) (home : Bool)
  | cas (h : Hdr) (d a : R11) (b : Src) (c : R11) (home : Bool)
  | atc (h : Hdr) (d a : R11) (b : Src) (c : R11)
  | qpop (h : Hdr) (d a : R11)
  | qpush (h : Hdr) (a : R11) (b : Src)
  | fence (h : Hdr) (k : FenceKind) (s : Scope)
  | pref (h : Hdr) (a k : R11)
  -- Control flow, rejoin and waiting (R143)
  | nop (h : Hdr)
  | br (h : Hdr) (off : Word)
  | call (h : Hdr) (off : Word)
  | brw (h : Hdr) (w : BitVec 4) (level : R11) (off : Word)
  | ret (h : Hdr)
  | exit (h : Hdr)
  | enrol (h : Hdr) (j : BitVec 4)
  | joinw (h : Hdr) (j : BitVec 4) (lo hi : R11)
  | bar (h : Hdr) (gang : Bool) (k : BitVec 4)
  | waitc (h : Hdr) (l s c t : R11)
  | yieldI (h : Hdr)
  | wbind (h : Hdr) (w : BitVec 4) (s : BitVec 5)
  | brx (h : Hdr) (a : R11)
  -- Stream engines, matrix unit, layout records (R194)
  | seFill (h : Hdr) (s : BitVec 5) (b : Src) (e : BitVec 2)
  | seDrain (h : Hdr) (s : BitVec 5) (b : Src) (e : BitVec 2)
  | seFillw (h : Hdr) (s : BitVec 5) (b : Src) (e : BitVec 2)
  | seAdv (h : Hdr) (s : BitVec 5) (b : Src) (e : BitVec 2)
  | mfence (h : Hdr)
  | mloop (h : Hdr) (m : BitVec 3) (f : R11) (w : Src) (slot : BitVec 5) (ksteps : BitVec 6) (incA incB : Bool)
  | mwait (h : Hdr) (m : BitVec 3)
  | mrd (h : Hdr) (d : R11) (m : BitVec 3) (b : Src) (r : Rnd) (blk : BitVec 6) (f : MrdFmt) (sat : Bool)
  | mclr (h : Hdr) (m : BitVec 3)
  | safept (h : Hdr) (mask : BitVec 8)
  | dld (h : Hdr) (s : BitVec 5) (a k : R11)
  | dst (h : Hdr) (s : BitVec 5) (a k : R11)
  -- Tasks, moult, traps and special registers (R224)
  | sread (h : Hdr) (d sel : R11)
  | trap (h : Hdr) (k : R11)
  | bkpt (h : Hdr) (k : R11)
  | launch (h : Hdr) (a : R11) (b : Src)
  | moult (h : Hdr) (a : R11) (b : Src)
  | cbrk (h : Hdr) (d a : R11) (b : Src) (cond : BitVec 3) (all : Bool) (n : BitVec 2)
  -- Finishing and waiting (events)
  | operationFinish (op : Nat)
  | waitcSatisfied (sid : Nat)
  | mwaitSatisfied (sid : Nat)
  | exitWaitDone (sid : Nat)
  | granuleServe (sid : Nat)
  | moultSucceed (launch team : Nat)
  | yieldExpiry (sid : Nat)
  | runLimit (core part port : Nat)
  | strandUrgent (sid : Nat)
  | opportunisticMerge (a b : Nat)
  | strandUnbench (sid : Nat)
  -- Stream engines and the matrix unit at their own steps
  | engineFill (core e : Nat)
  | engineDrain (core e : Nat)
  | engineFillw (core e : Nat)
  | enginePageServiced (core e : Nat) (ok : Bool)
  | matrixMloopExec (core : Nat)
  | mrdReadoutDone (op : Nat)
  | mclrDone (op : Nat)
  -- Dispatch and the launch unit
  | dispatchPass (die : Nat)
  | kick (q : Nat) (tail : Word)
  | cdone (q : Nat) (n : Word)
  | completionWrite (q : Nat)
  | launchComplete (launch : Nat)
  | continuationTake (bdie : Nat)
  | launchIntake (op : Nat)
  -- Packets and the base dies
  | rdPacket (slice : Nat) (tag : BitVec 10) (pa : Nat) (wide : Bool) (key : BitVec 10)
  | wrPacket (slice : Nat) (tag : BitVec 10) (pa : Nat) (mask : List Bool) (data : List Byte) (key : BitVec 10)
  | atPacket (op : Nat)
  | atcPacket (op : Nat)
  | swpPacket (bdie : Nat) (tag : BitVec 10) (group slot : Nat) (pin : Bool)
  | swapComplete (bdie group : Nat)
  | swapEpoch (bdie : Nat)
  -- Ordering and translation
  | bufferDrain (entry : Nat)
  | tableWalkDone (die ctx page : Nat)
  | invalidate (die ctx lo hi : Nat)
  | invalidateComplete (die : Nat)
  | atsCompletion (ctx page : Nat) (ans : AtsAnswer)
  | atsInvalidateRequest (pasid va size : Nat)
  | priResponse (ctx page : Nat) (code : PriCode)
  -- Service of stops and control registers
  | stopSelect (w : DWord)
  | write (reg : R11) (value : Word)
  | faultConsumed (ctx : Nat) (n : Word)
  | hmaskWrite (bdie k : Nat) (v : DWord)
  | registerWrite (r : CtrlReg) (v : DWord)
  -- Pre-emption and time slices
  | preemptRequest (launch team : Nat)
  | safeptTimeout (launch team : Nat)
  | teamRestore (launch team : Nat)
  | sliceExpiry (ctx : Nat)
  | sliceOverrunKill (ctx : Nat)
  -- Calls of the resident system (R348)
  | ecallLaunch (c : Caller) (addr q : Nat)
  | qcreate (c : Caller) (ring k cring prio quantum : Nat)
  | qdestroy (c : Caller) (q : Nat)
  | qparam (c : Caller) (q prio quantum byplim : Nat)
  | taskset (c : Caller) (id addr : Nat)
  | hqcreate (c : Caller) (k : Nat)
  | hqdestroy (c : Caller) (handle : Nat)
  | map (c : Caller) (addr size flags key : Nat)
  | unmap (c : Caller) (addr size : Nat)
  | share (c : Caller) (addr size token : Nat)
  | keyset (c : Caller) (handle addr flags : Nat)
  | window (c : Caller) (addr size hq flags : Nat)
  | features (c : Caller)
  | slice (c : Caller) (us : Nat)
  | hmask (c : Caller) (addr : Nat)
  | l2mode (c : Caller) (pmap : Nat)
  | pchreset (c : Caller)
  | migrate (c : Caller) (id device : Nat)
  | ctxparam (c : Caller) (ctx addr : Nat)
  | unknownCall (c : Caller) (num : Nat)
  -- Boot, service level and links
  | flitCrcFail (link : Nat) (retrained : Bool)
  -- Remote memory windows
  | rdmaWrite (conn rkey va : Nat) (data : List Byte)
  | rdmaWriteWithImmediate (conn rkey va : Nat) (data : List Byte) (imm : Word)
  | rdmaRead (conn rkey va len : Nat)
  | rdmaInvalidRequest (conn : Nat)
  -- Observation
  | attach (ctx : Nat) (sampleK traceK : Option Nat) (period : Nat)
  | detach (ctx : Nat)
  | halt (ctx launch : Nat) (team : Option Nat)
  | debugResume (ctx stop : Nat)
  | step (ctx stop : Nat)
  | read (ctx stop : Nat) (t : ObsTarget)
  | debugWrite (ctx stop : Nat) (t : ObsTarget) (value : Word)
  | dump (ctx launch : Nat)
  | sample (core part : Nat)
  -- Errors and the rest
  | reservedInstruction (check : Nat)
  | instructionFetchFault (cause level : Nat)
  | storageError (loc : ErrLoc) (correctable : Bool)
  | stopRingConsumed (ctx : Nat) (n : Word)
  | contextDestroy (ctx : Nat)
  | bundleLoad (ctx : Nat) (pasid : BitVec 20) (file : List Byte)
  -- Security engine, boot, SPDM and power, and the actions on a stop (last, since compiled code numbers at most 245 constructors with fields)
  | resume
  | skip
  | kill
  | unlockReq
  | coldReset
  | fullService
  | ownkeyAdd (c : OwnkeyCmd)
  | ownkeyRevoke (c : OwnkeyCmd)
  | minsvnRaise (stage svn : Nat)
  | unlock (token : List Byte)
  | getVersion (p : SpdmPort)
  | getCapabilities (p : SpdmPort)
  | negotiateAlgorithms (p : SpdmPort)
  | getDigests (p : SpdmPort)
  | getCertificate (p : SpdmPort) (slot : Nat)
  | challenge (p : SpdmPort) (slot : Nat) (nonce : BitVec 256)
  | getMeasurements (p : SpdmPort) (index : Nat)
  | keyExchange (p : SpdmPort) (session : ExchangeMsg)
  | finish (p : SpdmPort) (session : FinishMsg)
  | endSession (p : SpdmPort) (session : Nat)
  | spdmUnsupported (p : SpdmPort) (code : Nat)
  | recoveryImage (img : List Byte)
  | hostStageImage (img : List Byte)
  | clockAndVoltageChange (block mhz mv mw : Nat)
  deriving DecidableEq, Repr

end Sys2Proof
end

