-- ==== Sys2Proof/Machine/State.lean ====
section
/-! DEFINITION. The state of the machine, all of it plain data (R26, R247 and the rules each field cites), the reasons a step can
stop, and the state right after reset. -/

namespace Sys2Proof.Machine

/-! ### Registers, predicate entries and strands (R26 to R31) -/

/-- The forms of a v register (R27): U, A (base and stride), X (one value per present index, in ascending order). -/
inductive VForm where
  | u (x : Word)
  | a (base stride : Word)
  | x (vals : List Word)
  deriving DecidableEq, Repr

/-- The forms of a q entry (R27): U, C (cut point; sense at or above, or below), X. -/
inductive QForm where
  | u (b : Bool)
  | c (cut : Nat) (above : Bool)
  | x (vals : List Bool)
  deriving DecidableEq, Repr

/-- Roles of a kernel (R22, R113). -/
inductive Role where
  | mx | ep | gn
  deriving DecidableEq, Repr

/-- A walk register (R147). -/
structure Walk where
  bound : Bool
  n : Nat
  ext : List Nat
  str : List DWord
  c : List Nat
  e : List Bool
  deriving DecidableEq, Repr

/-- Classes of outstanding operations (R155). -/
inductive OpClass where
  | l | s | c | t
  deriving DecidableEq, Repr

/-- Access of one index, or of the indices that share it, waiting at a granule (R177). -/
structure GranItem where
  idxs : List Nat
  launch : Nat
  team : Nat
  off : Nat
  size : Nat
  data : List Byte
  pois : Bool
  deriving DecidableEq, Repr

/-- What a full-empty access does at a granule (R176). -/
inductive GranOp where
  | wait | take | fill
  deriving DecidableEq, Repr

/-- A full-empty instruction that is being served (R177): what is left, and the words read so far. -/
structure GranWait where
  op : GranOp
  dest : Nat
  words : Nat
  len : Nat
  oid : Nat
  order : Nat
  items : List GranItem
  got : List (Nat × List Word)
  pois : List Nat
  deriving DecidableEq, Repr

/-- What an instruction that waits under R310 needs before it issues again: the results of registers, of the predicate stack and of layout slots (R157,
R182, R198), room for one more operation of a class, and for a tag entry (R155, R374), in an engine's queue, in the matrix queue or among the walks of
its die (R200, R211, R329). -/
structure Need where
  regs : List Nat
  stack : Bool
  slots : List Nat
  room : Option (OpClass × Bool)
  engine : Option Nat
  matrix : Bool
  walk : Bool
  deriving DecidableEq, Repr

/-- What a blocked strand waits for (R313). -/
inductive Wait where
  /-- R153: arrived at team or gang barrier k -/
  | bar (gang : Bool) (k : Nat)
  /-- R47: arrived at JOINW jN with its live range -/
  | join (j lo hi : Nat)
  /-- R241: the JOINW is complete, and the members of this group merge when their team is placed -/
  | rejoin (group lo hi : Nat)
  /-- R156 -/
  | waitc (l s c t : Nat)
  /-- R216 -/
  | mwait (m : Nat)
  /-- R177 -/
  | granule (g : GranWait)
  /-- R235: the wait before arrival, then the arrival, with operands a and b and the length of the MOULT -/
  | moultWait (a b : Word) (len : Nat)
  | moult (a b : Word) (len : Nat)
  /-- R150 -/
  | exitWait
  /-- R158: left when the count of issue slots reaches this one, or another strand of the partition has issued a run -/
  | yieldHold (slot : Nat)
  /-- R310: the instruction issues again when its condition has cleared -/
  | stall (need : Need)
  /-- R165, R329: a walk of this 4 KiB page is in progress -/
  | walk (page : Nat)
  /-- R332: an ATS translation of this page is in progress -/
  | ats (page : Nat)
  deriving DecidableEq, Repr

/-- Ready, blocked, or parked by the stop with this ticket (R313, R378). -/
inductive Status where
  | ready
  | blocked (w : Wait)
  | parked (ticket : Nat)
  deriving DecidableEq, Repr

/-- A strand: the state of R26 and what R39 to R41, R155, R158, R173, R227, R309 and R407 add. -/
structure Strand where
  sid : Nat
  lk : Nat
  team : Option Nat
  role : Role
  pc : DWord
  first : Nat
  count : Nat
  mask : Option DWord
  stamp : Int
  enrol : List Nat
  regs : List (Nat × VForm)
  undef : Option Nat
  /-- poisoned words, by register and index, and those of them whose poison came from memory (R388, R390) -/
  poison : List (Nat × Nat)
  origin : List (Nat × Nat)
  /-- registers written since the last save or restore; none: every one is dirty (R383) -/
  dirty : Option (List Nat)
  qs : List QForm
  walks : List Walk
  calls : List DWord
  ops : List Nat
  latch : Option Word
  views : List (Word × Nat)
  status : Status
  halted : Option Nat
  stepping : Bool
  benched : Bool
  pending : Bool
  core : Nat
  part : Nat
  replay : Option (Nat × Nat × Nat)
  urgent : Bool
  /-- slots on which the strand has issued tile operations (R407) -/
  tileIssued : List Nat
  /-- writes of finished stream commands that a WAITC has not yet covered (R259) -/
  copied : List Nat
  /-- indices that an EXIT has retired while the strand still waits (R150) -/
  husk : List Nat
  deriving DecidableEq, Repr

/-! ### Reports, stops and outstanding operations -/

/-- A report (R376), less PHASE, which is fixed when the report is written. iform: 0 range, 1 window mask, 2 none. -/
structure Report where
  cls : Nat
  kind : Nat
  cause : Nat
  iform : Nat
  launch : Nat
  ticket : Nat
  tsize : Nat
  pc : Nat
  opc : Nat
  addr : Nat
  first : Nat
  countM1 : Nat
  mask : Nat
  info : Nat
  info2 : Nat
  snap : Nat
  coord : List Nat
  slot : Nat
  engine : Nat
  access : Nat
  deriving DecidableEq, Repr

/-- What a resumed attributed stop goes on with (R378): past the observing instruction, or the arrival of a MOULT, or an EXIT. -/
inductive After where
  | advance (len : Nat)
  | moult (a b : Word) (len : Nat)
  | exit
  deriving DecidableEq, Repr

/-- An action on a stop (R378). -/
inductive StopAct where
  | resume | skip | kill
  | write (reg : R11) (value : Word)
  deriving DecidableEq, Repr

/-- An open stop (R378). Its pieces are the strands parked with its ticket. team: that of its strand (R400); deferred: actions that take effect when its team, which is saved,
is restored (R394). -/
structure Stop where
  ticket : Nat
  ctx : Nat
  lk : Nat
  team : Option Nat
  kind : Nat
  cause : Nat
  attributed : Bool
  len : Nat
  after : After
  addr : Nat
  deferred : List StopAct
  deriving DecidableEq, Repr

/-- A kind of location (R247): device memory, host memory, the scratchpad of a team. -/
inductive Space where
  | dev
  | host (ctx : Nat)
  | scr (lk team : Nat)
  deriving DecidableEq, Repr

/-- A load that an operation still has to perform (R251): one of 16 bytes is two, of 8 bytes each (R163). sext: sign extension of sizes 1 and 2. word: the
place among the result's words of the first word loaded. acq: the scope of an LDA. -/
structure LoadTodo where
  idxs : List Nat
  space : Space
  addr : Nat
  size : Nat
  sext : Bool
  word : Nat
  acq : Option Scope
  deriving DecidableEq, Repr

/-- A store that an operation still has to enter in its core's buffer (R249). release: the scope of an STL. -/
structure StoreTodo where
  idxs : List Nat
  space : Space
  addr : Nat
  bytes : List Byte
  release : Option Scope
  deriving DecidableEq, Repr

/-- An atomic of one index still to be performed (R179), with its virtual address (R409). home: a B-die performs it (R181). -/
structure AtTodo where
  idx : Nat
  space : Space
  addr : Nat
  va : Nat
  home : Bool
  b : Word
  c : Word
  task : Word
  arg : Word
  deriving DecidableEq, Repr

/-- What an atomic does to the old value (R179, R182). -/
inductive AtKind where
  | op (o : AtOp) | cas | atc
  deriving DecidableEq, Repr

/-- What an outstanding operation still has to do or to deliver (R155, R374). -/
inductive OpBody where
  /-- A result for registers dest to dest + words - 1 (none: nothing), and a truth value to push (R182, R188): values found so far -/
  | result (dest : Option Nat) (words : Nat) (vals : List (Nat × List Word)) (pois : List Nat) (loads : List LoadTodo)
      (atom : Option (AtKind × List AtTodo)) (push : List (Nat × Bool)) (pushes : Bool)
  /-- Stores that have not entered the core's buffer yet (R249); with none left, an operation with nothing left to do -/
  | stores (left : List StoreTodo)
  /-- DLD: the layout slot, where its 64 bytes lie and at which virtual address (R198, R376), and the pieces of 8 bytes that have been loaded: place, bytes, poison -/
  | dld (slot : Nat) (space : Space) (addr va : Nat) (got : List (Nat × List Byte × Bool))
  /-- LAUNCH: task id and argument (R232), and the time of its issue (R402) -/
  | launch (task arg : Word) (t0 : Nat)
  /-- A command of engine e (R200) -/
  | engine (e : Nat)
  /-- A command of the matrix unit on slot m, and m + 1 when wide (R211), with the n registers from dest that it will write (R219) -/
  | tile (m : Nat) (wide : Bool) (dest : Option Nat) (n : Nat)
  /-- An ATC whose atomics are performed: the values to push, none once they are, and then only the queueing of its tasks is left (R182, R308) -/
  | cont (push : Option (List (Nat × Bool)))
  deriving DecidableEq, Repr

/-- A setting of an STS `.set` that is still to be made (R177, R258): the indices that name the granule, and the team whose scratchpad holds it. -/
structure SetTodo where
  idxs : List Nat
  team : Nat
  gran : Nat
  deriving DecidableEq, Repr

/-- An outstanding operation and its tag entry (R155, R374): the indices for which it acts, less those that have their results; done when finished; faults:
those not yet delivered, in the order raised; dead: the indices at which a merge has made its destinations undefined (R48); sets: the settings that an
STS `.set` makes behind its stores (R258). -/
structure Op where
  oid : Nat
  cls : OpClass
  pc : DWord
  lk : Nat
  team : Option Nat
  core : Nat
  part : Nat
  idxs : List Nat
  body : OpBody
  done : Bool
  faults : List Report
  dead : List Nat
  sets : List SetTodo
  deriving DecidableEq, Repr

/-! ### Launches, gangs and teams -/

/-- A role record of a descriptor (R113). -/
structure RoleRec where
  role : Role
  budget : Nat
  firstw : Nat
  countw : Nat
  entry : Nat
  deriving DecidableEq, Repr

/-- A kernel descriptor as read at acceptance (R113), with the layout records that DMASK names (R297). -/
structure Kernel where
  kdesc : Nat
  numver : Nat
  tsize : Nat
  gangm1 : Nat
  acc : Nat
  scratch : Nat
  featreq : Nat
  code : Nat
  roles : List RoleRec
  layout : List (Nat × LayoutBits)
  deriving DecidableEq, Repr

/-- A comparator (R231). -/
structure Cmp where
  armed : Bool
  cond : Nat
  all : Bool
  reg : Nat
  comparand : Word
  deriving DecidableEq, Repr

/-- A tile: its elements that are not 0, its status word fields, poisoned elements, and what is undefined: elements whose sum passed the
bound of R78 or whose operands no MFENCE covers (R214), or every element (R215). -/
structure Tile where
  elems : List (Nat × BitVec 128)
  tag : Nat
  rw : Bool
  nar : Bool
  pois : List Nat
  passed : List Nat
  undef : Bool
  /-- written since the last save or restore (R383) -/
  dirty : Bool
  deriving DecidableEq, Repr

/-- A team (R14, R20, R45, R153, R195, R231, R302, R379). -/
structure Team where
  lk : Nat
  num : Nat
  kernel : Kernel
  core : Nat
  /-- partition of each window's sheaf (R305) -/
  sheafPart : List Nat
  /-- lane-vectors reserved for each window (R15) -/
  lanes : List Nat
  /-- bytes of scratchpad held: those of the kernel with which the team was placed, whatever its successors name (R237, R312) -/
  held : Nat
  /-- physical accumulator slots held (R305) -/
  accSlots : List Nat
  scratch : List (Nat × Byte)
  full : List Nat
  scratchPois : List Nat
  /-- blocks of 1 KiB of scratch written since the last save or restore (R383) -/
  dirtyBlocks : List Nat
  layout : List LayoutBits
  tiles : List Tile
  cmps : List Cmp
  barParity : List Bool
  slot : Nat
  charge : Nat
  adv : Int
  preempt : Bool
  /-- `time` of the pre-emption request (R220, R341) -/
  reqAt : Nat
  /-- scratch writes and fills that the team's last MFENCE covers (R214) -/
  fenced : List Nat
  /-- a moult that has matched and waits for engine and tile operations (R235): the successor and the inheritance word -/
  moulting : Option (Kernel × Word)
  /-- how far a pre-emption has come (R220, R379): stopped at a safe point with this mask -/
  stopMask : Option Nat
  saved : Bool
  tileSaved : Nat
  gen : Nat
  /-- the slot count at the save (R381), and `time` then -/
  stampBase : Nat
  savedAt : Nat
  /-- the chrysalis record (R380): its physical address and the bytes that it has room for, 0 for none; and an uncorrectable error in it that a restore has not found yet (R392) -/
  record : Nat
  recordRoom : Nat
  recordLost : Bool
  /-- the strands whose entries the record holds, in order: where they are the same, items that are not dirty keep their lines (R383) -/
  recordSids : List Nat
  /-- the weight buffer as it was last saved with the teams of the team's core, its poisoned words, and the writes to it (R214, R221) -/
  wsave : List (Nat × Byte)
  wsavePois : List Nat
  wsaveLog : List (Nat × Nat × Nat)
  placed : Bool
  ended : Bool
  deriving DecidableEq, Repr

/-- A gang record (R300), with the visits that failed (R307). -/
structure Gang where
  lk : Nat
  num : Nat
  die : Nat
  firstTeam : Nat
  ntm1 : Nat
  queue : Nat
  bypass : Nat
  state : Nat
  ctx : Nat
  hint : Nat
  age : Nat
  failed : Nat
  deriving DecidableEq, Repr

/-- Where a launch came from (R298, R308, R347). -/
inductive Source where
  | user (uq : Nat)
  | ecall
  | cont (old arg : Word)
  | task (arg : Word)
  deriving DecidableEq, Repr

/-- The wall-time account of a launch (R402): T0 and the five durations. -/
structure Account where
  t0 : Nat
  dur : List Nat
  deriving DecidableEq, Repr

/-- A launch (R295 to R299, R225, R347, R357). -/
structure Launch where
  lk : Nat
  id : Nat
  ctx : Nat
  utag : Nat
  nocompl : Bool
  queue : Nat
  grid : Nat
  hintBase : Nat
  hintStr : Int
  presets : List (Nat × Word)
  kernel : Kernel
  features : Nat
  numver : Nat
  src : Source
  recAddr : Nat
  spill : Nat
  seed : Nat
  begun : Bool
  killed : Bool
  status : Nat
  tstart : Nat
  faults : Nat
  beginSeq : Nat
  /-- grants of the context at acceptance (R323) -/
  gprof : Bool
  gmig : Bool
  acq : List Nat
  complete : Bool
  tend : Nat
  /-- the device to which MIGRATE moves it (R357) -/
  moving : Option Nat
  /-- slots of the spill pool, for an image that spills, and its bytes (R355) -/
  slots : Option Nat
  poolBytes : Nat
  account : Account
  deriving DecidableEq, Repr

/-! ### Cores -/

/-- A translation as a TLB holds it (R329, R332). -/
structure Trans where
  host : Bool
  base : Nat
  size : Nat
  w : Bool
  x : Bool
  keyid : Nat
  level : Nat
  mig : Bool
  deriving DecidableEq, Repr

/-- A TLB entry (R329). -/
structure TlbEntry where
  ctx : Nat
  page : Nat
  tr : Trans
  deriving DecidableEq, Repr

/-- The answer of a walk (R327): a translation, a fault (cause and level of R328), or a protection fault of R332. -/
inductive TransRes where
  | ok (t : Trans)
  | fault (cause level : Nat)
  | noPasid
  | noDevice (pa : Nat)
  /-- an entry of the walk, of this level, is poisoned (R372) -/
  | poisoned (level : Nat)
  deriving DecidableEq, Repr

/-- A stream command (R200). -/
inductive SeKind where
  | fill | drain | fillw
  deriving DecidableEq, Repr

/-- What an engine waits for at a page: its walk, an ATS answer, or the service of an engine page request (R207, R329, R332). -/
inductive EngWait where
  | walk | ats | service
  deriving DecidableEq, Repr

/-- The progress of a stream command that has started (R201 to R203, R259): elements of the box left, by linear box index; the image that a DRAIN has read, with
its poison; whether it has all of it; what it has written; the first faulting element with its report; and elements of encrypted units whose request has been
sent to their B-die (R274, R287). -/
structure SeProg where
  left : List Nat
  image : List (Nat × List Byte × Bool)
  writing : Bool
  ids : List Nat
  fault : Option (Nat × Report)
  sent : List Nat
  deriving DecidableEq, Repr

/-- A queued stream command with its snapshot (R200) and observed set (R259). -/
structure SeCmd where
  oid : Nat
  kind : SeKind
  lk : Nat
  team : Nat
  ctx : Nat
  record : LayoutBits
  slot : Nat
  woff : Nat
  obs : List Nat
  rels : List Nat
  /-- the page it waits for, and what answers (R207, R331) -/
  waiting : Option (Nat × EngWait)
  /-- faults that were answered for pages -/
  answers : List (Nat × TransRes)
  /-- the key-table entry as read at the start of the command (R335): key id, and whether the command may use it; none: no entry -/
  key : Option (Nat × Bool)
  /-- how far it has come; none: it has not started -/
  prog : Option SeProg
  deriving DecidableEq, Repr

/-- Work of the matrix unit (R211, R217, R218). seen: the writes that its reads observe (R214); clash: the tile was busy (R215). -/
inductive MxCmd where
  | mloop (oid lk team m : Nat) (fmt w : Word) (record : LayoutBits) (slot ksteps : Nat) (seen : List Nat) (clash : Bool)
  | mrd (oid lk team m : Nat) (rnd : Rnd) (blk : Nat) (f : MrdFmt) (sat : Bool) (reg : Option Nat) (addr : Nat) (clash : Bool)
  | mclr (oid lk team m : Nat) (clash : Bool)
  deriving DecidableEq, Repr

/-- An issue port's run (R309, R310): its strand, its instructions so far, the slot count at which it took the port, and that at which its next instruction reached issue,
where that instruction waits for the result of a class-l operation. -/
structure Run where
  sid : Nat
  len : Nat
  slots : Nat
  waits : Option Nat
  deriving DecidableEq, Repr

/-- A partition (R309): the runs that hold its two ports. -/
structure Part where
  ports : List (Option Run)
  deriving DecidableEq, Repr

/-- A line of a core's L1 (R266): its number, and its dirty bytes, none where it is clean (R291). -/
structure L1Line where
  line : Nat
  mask : DWord
  deriving DecidableEq, Repr

/-- A core (R14, R204, R266, R268, R329, R386). misses: the lines that its outstanding-miss registers hold. evicted: translations that have left its TLB, of which
accesses may still be on their way (R330). -/
structure Core where
  num : Nat
  ctx : Option Nat
  parts : List Part
  wbuf : List (Nat × Byte)
  wbufPois : List Nat
  /-- writes to the weight buffer, oldest first: identity, offset, length (R214) -/
  wlog : List (Nat × Nat × Nat)
  engines : List (List SeCmd)
  mq : List MxCmd
  l1 : List L1Line
  misses : List Nat
  tlb : List TlbEntry
  evicted : List TlbEntry
  failed : Bool
  corrected : Nat
  deriving DecidableEq, Repr

/-! ### The ordering machine (R247) -/

/-- Who wrote a store (R247). -/
inductive Writer where
  | index (lk i : Nat)
  | engine (core lk team : Nat)
  /-- an agent of the host, for a context (R247, R261) -/
  | host (ctx agent : Nat)
  /-- a remote write on a connection (R262, R359) -/
  | peer (ctx conn : Nat)
  /-- the resident system, for a context -/
  | system (ctx : Nat)
  deriving DecidableEq, Repr

/-- A scope as a release record keeps it (R246, R408): its code, context and the index ranges (launch, first, last) in it. -/
structure ScopeSet where
  scope : Scope
  ctx : Nat
  members : List (Nat × Nat × Nat)
  deriving DecidableEq, Repr

/-- A release record (R, S) (R247). -/
structure RelRec where
  set : List Nat
  scope : ScopeSet
  deriving DecidableEq, Repr

/-- A store: in the buffer of a core or of a host agent (buf), or at its home with its place in machine order (seq) and the bytes it replaced (R84). passes: acquires of its
location that have passed it by while it was a release in a buffer (R254). -/
structure Store where
  id : Nat
  space : Space
  addr : Nat
  bytes : List Byte
  pois : Bool
  writer : Writer
  buf : Option Nat
  seq : Nat
  old : List Byte
  rel : Option RelRec
  passes : Nat
  deriving DecidableEq, Repr

/-- A store that a host agent is to make in the host memory of a context (R247, R261). -/
structure HostStore where
  id : Nat
  ctx : Nat
  agent : Nat
  addr : Nat
  bytes : List Byte
  release : Bool
  /-- its TLP carries the EP bit (R388) -/
  ep : Bool
  deriving DecidableEq, Repr

/-- Part of an observed set O(i): the stores observed by the indices first to last of a launch (R247). -/
structure ObsEntry where
  lk : Nat
  lo : Nat
  hi : Nat
  store : Nat
  deriving DecidableEq, Repr

/-- The release record of the indices lo to hi of a launch (R247). -/
structure RelEntry where
  lk : Nat
  lo : Nat
  hi : Nat
  rel : RelRec
  deriving DecidableEq, Repr

/-- A load that a later FENCE `.acq` acquires (R255): the indices, the store whose value they read (0: none, the initial value), and the location. -/
structure ReadEntry where
  lk : Nat
  lo : Nat
  hi : Nat
  store : Nat
  space : Space
  addr : Nat
  size : Nat
  deriving DecidableEq, Repr

/-- A FENCE `.sc` step (R247, R255). -/
structure FenceStep where
  lk : Nat
  idx : Nat
  scope : ScopeSet
  obs : List Nat
  deriving DecidableEq, Repr

/-- The setting of a granule with its record (R258, R259): granule address within a team's scratchpad. -/
structure GranSet where
  lk : Nat
  team : Nat
  gran : Nat
  writer : Writer
  rel : RelRec
  deriving DecidableEq, Repr

/-! ### Translation (R325 to R333) -/

/-- A walk in progress on a die (R329), with the cores and strands that wait. -/
structure WalkReq where
  die : Nat
  ctx : Nat
  page : Nat
  cores : List Nat
  sids : List Nat
  deriving DecidableEq, Repr

/-- What a walk or an ATS request answered for an instruction that waits to issue again (R165, R329). -/
structure WalkRes where
  sid : Nat
  page : Nat
  res : TransRes
  deriving DecidableEq, Repr

/-- A table pointer in the walk cache of a die (R329): the level of the entry that holds it, the block of addresses that the entry covers, and the next table. -/
structure WalkEntry where
  die : Nat
  ctx : Nat
  level : Nat
  block : Nat
  ptr : Nat
  deriving DecidableEq, Repr

/-- An invalidation in progress (R330), and the ATS Invalidate Request that it serves, if one (R333). -/
structure Inval where
  die : Nat
  ctx : Nat
  lo : Nat
  hi : Nat
  req : Option Nat
  deriving DecidableEq, Repr

/-- An ATS Invalidate Request of the host whose completion is still to be returned (R333). -/
structure AtsInval where
  id : Nat
  pasid : Nat
  addr : Nat
  size : Nat
  deriving DecidableEq, Repr

/-- An ATS translation request (R332), with the cores and strands that wait. -/
structure AtsReq where
  ctx : Nat
  page : Nat
  level : Nat
  cores : List Nat
  sids : List Nat
  deriving DecidableEq, Repr

/-- A page request to the host (R333); the oldest 512 have been sent (R332). -/
structure PriReq where
  ctx : Nat
  page : Nat
  write : Bool
  deriving DecidableEq, Repr

/-! ### The machine -/

/-- A hardware queue of a context (R187): its number, capacity 2^k, and its entries, oldest first, each with the record of its append. -/
structure HwQueue where
  num : Nat
  k : Nat
  entries : List (Word × RelRec)
  deriving DecidableEq, Repr

/-- A translated image that a context has: the address of its descriptor, its key, the feature vector in the key, and the bytes of a spill slot,
0 for none (R354 to R356). -/
structure Image where
  kdesc : Nat
  key : BitVec 384
  features : Nat
  spill : Nat
  deriving DecidableEq, Repr

/-- An image in the cache of Mboelaor (R356): its key, its code, and the pages of 64 KiB that hold it. -/
structure CachedImage where
  key : BitVec 384
  code : List Byte
  pages : List Nat
  deriving DecidableEq, Repr

/-- A context: its record (R323) and what Mboelaor and the device keep for it (R297, R335, R340, R344, R351, R352, R377). -/
structure Ctx where
  num : Nat
  valid : Bool
  priv : Bool
  gmig : Bool
  gprof : Bool
  part : Nat
  prio : Nat
  gobs : Bool
  pasid : Nat
  root : Nat
  keytab : Nat
  keyn : Nat
  tasknm1 : Nat
  slice : Nat
  tasktab : Nat
  queuetab : Nat
  backing : Nat
  faultq : Nat
  launchCtr : Nat
  launched : Bool
  faultN : Nat
  consumed : Nat
  waiting : List Report
  hqs : List HwQueue
  /-- pages of 4 KiB that Mboelaor can make resident: virtual page, physical page (R289, R331) -/
  backed : List (Nat × Nat)
  /-- pages of 4 KiB that the host has answered for and not invalidated since: page, frame in host memory, whether it may be written (R332) -/
  hostPages : List (Nat × Nat × Bool)
  /-- its gangs are not placed: it has been sliced out (R340) -/
  held : Bool
  /-- `time` at which its slice began (R340) -/
  sliceFrom : Nat
  /-- the priority and the slice that are in effect until that slice ends (R323) -/
  prioAt : Nat
  sliceAt : Nat
  /-- members of its bundle: type and bytes (R351) -/
  members : List (Nat × List Byte)
  /-- descriptors of kernels that have no usable code form (R352) -/
  unusable : List Nat
  images : List Image
  /-- where Mboelaor maps next what it places itself (R355) -/
  vaNext : Nat
  deriving DecidableEq, Repr

/-- A launch queue of a C-die: its register, deficit and advance (R301, R303), and the launches accepted into it that have not begun. -/
structure QueueReg where
  q : Nat
  en : Bool
  prio : Nat
  byplim : Nat
  ctx : Nat
  quantum : Nat
  d : Int
  a : Int
  accepted : List Nat
  deriving DecidableEq, Repr

/-- A C-die's dispatcher: queues, the next AGE, the waiting gang and the cluster held for it (R300, R307). -/
structure Die where
  num : Nat
  queues : List QueueReg
  age : Nat
  waitGang : Option (Nat × Nat)
  held : Option Nat
  deriving DecidableEq, Repr

/-- A debugger attached to a context (R396): its rings of records, each a number of slot and record, with counts written, consumed
and dropped (R397, R401), stop records that wait for room, the stops of SOURCE 1 that are open (R230), and the period
of its samples in issue slots, with the partitions, by core and number, whose sample is due (R399). -/
structure Attach where
  ctx : Nat
  stopRing : List (Nat × Nat)
  stopN : Nat
  stopConsumed : Nat
  stopWaiting : List Nat
  nextStop : Nat
  bkpts : List Nat
  sampleK : Option Nat
  sampleRing : List Nat
  sampleDrops : Nat
  traceK : Option Nat
  traceRing : List Nat
  traceDrops : Nat
  period : Nat
  due : List (Nat × Nat)
  deriving DecidableEq, Repr

/-- A team's chrysalis record that DUMP holds until it is resumed (R396). -/
structure Dump where
  ctx : Nat
  stop : Nat
  lk : Nat
  deriving DecidableEq, Repr

/-- L2 mode: shared, or private with the partition of each die (R272, R273). -/
structure L2Mode where
  shared : Bool
  map : List Nat
  deriving DecidableEq, Repr

/-- A request that waits behind a line that is away (R286): a use of the line that makes some bytes dirty, or the home atomic of an operation. -/
inductive L2Req where
  | use (mask : DWord)
  | home (oid : Nat)
  deriving DecidableEq, Repr

/-- A line of an L2 slice (R270, R286): its slice, line number, mask of dirty bytes, away, and the requests that wait for it, oldest first. -/
structure L2Line where
  slice : Nat
  line : Nat
  mask : DWord
  away : Bool
  queue : List L2Req
  deriving DecidableEq, Repr

/-- What a packet asks (R274): of an L2 slice, a read of a line, a write of some of its bytes, or the atomics of an operation, with the line's dirty bytes; of a
stream engine, a read or a write of an encrypted unit of 256 bytes under its key id, for an element of its command. -/
inductive PacketKind where
  | rd
  | wr (mask : DWord)
  | atom (oid : Nat) (mask : DWord)
  | engine (elem keyid : Nat) (write : Bool)
  deriving DecidableEq, Repr

/-- A packet that an L2 slice, or a stream engine, sends to a B-die (R274): its source, its tag, none while all 1024 of the source are in use there, and the physical address
of its line or unit. -/
structure Packet where
  slice : Nat
  tag : Option Nat
  pa : Nat
  kind : PacketKind
  deriving DecidableEq, Repr

/-! ### B-dies (R274 to R286, R308) -/

/-- A remap entry (R282): local group, FAST, BUSY, PIN and the three counts. -/
structure Remap where
  group : Nat
  fast : Nat
  busy : Bool
  pin : Bool
  cnt : List Nat
  deriving DecidableEq, Repr

/-- A filled entry of a continuation queue (R182, R308), with the atomic that filled it and what its task acquires (R260). -/
structure ContEntry where
  ctx : Nat
  task : Word
  old : Word
  arg : Word
  pc : Nat
  oid : Nat
  addr : Nat
  t0 : Nat
  acq : List Nat
  deriving DecidableEq, Repr

/-- A swap in progress (R284, R285): the group, the slot that comes in, and the tag of the SWP that asked for it. -/
structure Swap where
  group : Nat
  slot : Nat
  reply : Option Nat
  deriving DecidableEq, Repr

/-- A B-die: mask registers (R279), SWPCTL (R283), remap entries that differ from their reset value, swaps in progress (R284), lines of the memory-side cache with their dirty bit (R275), the continuation queue (R308), the pseudo-channel counters
(R278), and the time at which the epoch ends. -/
structure BDie where
  num : Nat
  hmask : List Nat
  swpctl : Nat
  remap : List Remap
  swaps : List Swap
  lines : List (Nat × Bool)
  contq : List ContEntry
  pch : List (Nat × Word)
  epochEnd : Nat
  deriving DecidableEq, Repr

/-! ### Host interface (R344 to R347, R359) -/

/-- A completion record that waits for room in its ring (R347), less TEND, which is the time of writing. -/
structure CompRec where
  utag : Nat
  id : Nat
  status : Nat
  faults : Nat
  tstart : Nat
  lk : Nat
  deriving DecidableEq, Repr

/-- A user queue (R344 to R347). -/
structure UserQ where
  q : Nat
  ctx : Nat
  ring : Nat
  k : Nat
  cring : Nat
  tail : Nat
  head : Nat
  stopped : Bool
  cdone : Nat
  cnext : Nat
  waiting : List CompRec
  deriving DecidableEq, Repr

/-- A remote memory window (R359). -/
structure Window where
  rkey : Nat
  ctx : Nat
  addr : Nat
  size : Nat
  hq : Nat
  read : Bool
  write : Bool
  deriving DecidableEq, Repr

/-! ### Security engine and boot (R361 to R370) -/

/-- A key in the AES engines: its key id, the context it is assigned to, and the key (R335). -/
structure KeyRec where
  id : Nat
  ctx : Nat
  key : List Byte
  deriving DecidableEq, Repr

/-- The fuse bank (R361). -/
structure Fuses where
  devid : BitVec 128
  lcs : BitVec 4
  ownmode : BitVec 2
  revoke : BitVec 4
  auth : BitVec 12
  slots : List (BitVec 384)
  minsvn : List (BitVec 64)
  uds : BitVec 384
  deriving DecidableEq, Repr

/-- How far boot has come (R363, R368). awaiting: the flash holds no stage 3, and the host is to supply it. -/
inductive Boot where
  | off | recovery | halted (stage : Nat) | awaiting | seedling | full | fatal
  deriving DecidableEq, Repr

/-- An SPDM session (R367): its number, the secret that secp384r1 ECDHE gave both sides, the points that they exchanged, the secured answers sent in it, and whether FINISH has
completed it. -/
structure Session where
  id : Nat
  secret : BitVec 384
  points : List Byte
  sent : Nat
  done : Bool
  deriving DecidableEq, Repr

/-- The security engine (R335, R362 to R370): fuses, boot flash (copies A and B of stage 1, stages 2 and 3), the code at BAR 0 offset 0x0 and the fatal code at 0x4, the measurements M0 to M3, the SVN of the stages that booted, CDI2 and CDI3,
the alias keys of the stages that run and the certificates from Onzil's root to the last of them (R365), the debug word, the nonce of the last unlock request and how many were made, the debug word of an
unlock whose kill waits for a save (R371), keys held by the AES engines with their contexts, open SPDM
sessions and whether version and algorithms are negotiated, cores recorded as failed since the boot, and, of earlier boots, the clusters whose spare is in use and the cores that are gone (R393). -/
structure Sec where
  fuses : Fuses
  flashA : List Byte
  flashB : List Byte
  flash2 : List Byte
  flash3 : List Byte
  boot : Boot
  bootCode : Nat
  fatalCode : Nat
  meas : List (BitVec 384)
  svns : List Nat
  microcode : Word
  cdi2 : BitVec 384
  cdi3 : BitVec 384
  aliases : List (BitVec 384)
  certs : List (List Byte)
  debugWord : Nat
  unlocking : Option Nat
  nonce : Option (BitVec 256)
  nonces : Nat
  keys : List KeyRec
  sessions : List Session
  versioned : Bool
  negotiated : Bool
  failedCores : List Nat
  spared : List Nat
  gone : List Nat
  deriving DecidableEq, Repr

/-- Telemetry of a power block (R19, R403; DESIGN CHOICE, log 57): block 0 to 4, power in mW, clock in MHz, voltage in mV, time below nominal clock in
ns. -/
structure Telemetry where
  block : Nat
  mw : Nat
  mhz : Nat
  mv : Nat
  below : Nat
  deriving DecidableEq, Repr

/-- An answer that leaves the device. -/
inductive Out where
  | call (ret : Int)
  | text (what : String) (vals : List Nat)
  deriving DecidableEq, Repr

/-- A kind of storage with its own error counters (R386). -/
inductive Storage where
  | xRegs | scratchpad | formFile | strandSlots | l1 | weights | accumulators | l2 | sideCache | hbm | capacity | links
  deriving DecidableEq, Repr

/-- The count of corrected errors of one block (R386): a core, an L2 slice, a B-die or a link, and a storage of it. -/
structure ErrCount where
  storage : Storage
  block : Nat
  count : Nat
  deriving DecidableEq, Repr

/-- The state of the machine. -/
structure State where
  /-- events that come next, in order (DESIGN CHOICE, log 1) -/
  agenda : List Instr
  /-- core, partition and port to issue from next, in order (DESIGN CHOICE, log 1) -/
  sched : List (Nat × Nat × Nat)
  /-- whether the next step issues an instruction or takes an event (DESIGN CHOICE, log 1) -/
  issuePhase : Bool
  evPtr : Nat
  /-- free values drawn so far (DESIGN CHOICE, log 2) -/
  nfree : Nat
  /-- the strand whose instruction is being performed (DESIGN CHOICE, log 1) -/
  cur : Option Nat
  /-- the next identity of a strand, operation, store or enrolment (DESIGN CHOICE, log 1) -/
  nextId : Nat
  /-- what has left the device (DESIGN CHOICE, log 1) -/
  out : List Out
  /-- an access named a physical address that the device does not have (R16) -/
  badAddr : Option Nat
  /-- what the machine chooses next where the rules leave it a choice, in order; with none listed, the first possibility (DESIGN CHOICE, log 1) -/
  choices : List Nat
  /-- stores that host agents are to make (R247, R261; DESIGN CHOICE, log 1) -/
  hostStores : List HostStore
  /-- privileged calls that wait for the device to be ready for them (R273, R281) -/
  pendingCalls : List Instr
  /-- device reference time in ns (R227) -/
  time : Nat
  /-- issue slots that every partition has counted: two in each cycle (R309) -/
  slots : Nat
  /-- places in machine order taken so far (R247) -/
  drainSeq : Nat
  strands : List Strand
  ops : List Op
  teams : List Team
  gangs : List Gang
  launches : List Launch
  cores : List Core
  dies : List Die
  /-- device memory, by physical address (R16) -/
  mem : List Host.Cell
  /-- poisoned 64-byte lines (R388) -/
  memPois : List Nat
  /-- host memory, for each context by the address its translation answers (R332) -/
  hostMem : List (Nat × List Host.Cell)
  /-- words of host memory that the host answers with the EP bit (R388): context, address in units of 4 bytes -/
  hostPois : List (Nat × Nat)
  stores : List Store
  obs : List ObsEntry
  rels : List RelEntry
  reads : List ReadEntry
  fences : List FenceStep
  gsets : List GranSet
  walkReqs : List WalkReq
  walkRes : List WalkRes
  walkCache : List WalkEntry
  invals : List Inval
  atsReqs : List AtsReq
  atsInvals : List AtsInval
  priReqs : List PriReq
  ctxs : List Ctx
  stops : List Stop
  nextTicket : Nat
  /-- the stop selector (R378): ticket and context; and the status bits of offset 0x2018 -/
  selTicket : Nat
  selCtx : Nat
  stopNone : Bool
  stopRefused : Bool
  attaches : List Attach
  dumps : List Dump
  l2 : L2Mode
  l2lines : List L2Line
  /-- packets of the L2 slices that no B-die has served yet, oldest first (R274) -/
  packets : List Packet
  bdies : List BDie
  userqs : List UserQ
  windows : List Window
  /-- translated images (R356) -/
  images : List CachedImage
  sec : Sec
  telemetry : List Telemetry
  /-- corrected errors of each block (R386) -/
  corrected : List ErrCount
  /-- pages of 64 KiB that Mboelaor has given out: of the two capacity slots, of the fast slot, and for its own tables; pages given back; and the
  further mappings of shared pages (R277, R336); and chrysalis records of teams that have retired, by address and bytes (R380) -/
  allocated : Nat
  allocatedFast : Nat
  sysPages : Nat
  freePages : List Nat
  shared : List (Nat × Nat)
  oldRecords : List (Nat × Nat)
  deriving DecidableEq, Repr

/-- Why the machine stops. -/
inductive Fault where
  /-- Raised by every access whose translation names a physical address that the device does not have (R16, R276): the model stops
  where the spec gives no effect; safe. -/
  | noDeviceAddress (pa : Nat)
  deriving DecidableEq, Repr

/-- Why the machine refuses. -/
inductive Refusal where
  /-- Raised by an arm of exec that has no meaning yet; safe. -/
  | notModelled (mnemonic : String)
  /-- Raised by exec of an instruction of the instruction set when no strand is issuing: no such step exists; safe. -/
  | noIssuingStrand
  deriving DecidableEq, Repr

/-- The fuse bank of the device (R361), whose bits are the device's own; LCS holds one of its four values (DESIGN CHOICE, log 6). -/
def Fuses.device : Fuses :=
  let w := Config.fuseBits
  { devid := w.extractLsb' 0 128, lcs := BitVec.ofNat 4 (1 + (w.extractLsb' 128 2).toNat), ownmode := w.extractLsb' 132 2, revoke := w.extractLsb' 136 4
    auth := w.extractLsb' 140 12, slots := [w.extractLsb' 160 384, w.extractLsb' 544 384, w.extractLsb' 928 384, w.extractLsb' 1312 384]
    minsvn := [w.extractLsb' 1696 64, w.extractLsb' 1760 64, w.extractLsb' 1824 64], uds := w.extractLsb' 1888 384 }

/-- The security engine before its boot ROM has run: the fuses and the flash hold what they hold, and the rest is 0 (DESIGN CHOICE, log 3). -/
def Sec.reset : Sec :=
  { fuses := Fuses.device, flashA := Config.flashImage 0, flashB := Config.flashImage 1, flash2 := Config.flashImage 2, flash3 := Config.flashImage 3
    boot := .off, bootCode := 0, fatalCode := 0, meas := [], svns := [], microcode := 0, cdi2 := 0, cdi3 := 0, aliases := [], certs := [], debugWord := 0, unlocking := none, nonce := none, nonces := 0
    keys := [], sessions := [], versioned := false, negotiated := false, failedCores := [], spared := [], gone := [] }

/-- The machine right after reset: nothing has been launched, no context exists, memory lists nothing; the boot ROM runs next (R363). Registers
that the spec gives no reset value hold 0 (DESIGN CHOICE, log 3); the clock of telemetry reads 850 MHz for blocks 0 and 1, 2000 MHz for the X-die and 0 for the HBM and the
B-die blocks (DESIGN CHOICE, log 57). -/
def State.reset : State :=
  { agenda := [], sched := [], issuePhase := false, evPtr := 0, nfree := 0, cur := none, nextId := 1, out := [], badAddr := none, choices := [], hostStores := [], pendingCalls := [], time := 0, slots := 0, drainSeq := 0
    strands := [], ops := [], teams := [], gangs := [], launches := [], cores := [], dies := [], mem := [], memPois := [], hostMem := [], hostPois := [], stores := []
    obs := [], rels := [], reads := [], fences := [], gsets := [], walkReqs := [], walkRes := [], walkCache := [], invals := [], atsReqs := [], atsInvals := [], priReqs := []
    ctxs := [], stops := [], nextTicket := 1, selTicket := 0, selCtx := 0, stopNone := false, stopRefused := false, attaches := [], dumps := []
    l2 := ⟨true, [0, 0, 0, 0]⟩, l2lines := [], packets := [], bdies := [], userqs := [], windows := [], images := [], sec := Sec.reset
    telemetry := (List.range 5).map (fun b => ⟨b, 0, if b ≤ 1 then 850 else if b = 4 then 2000 else 0, 0, 0⟩), corrected := [], allocated := 0, allocatedFast := 0, sysPages := 0, freePages := [], shared := [], oldRecords := [] }

abbrev Res := Host.Outcome State Fault Refusal

end Sys2Proof.Machine
end

