-- ==== Sys2Proof/Machine/Forms.lean ====
section
/-! DEFINITION. Presence, the canonical forms, and what a change of presence does to a strand (R25 to R37, R43, R45). -/

namespace Sys2Proof.Machine

/-- The present indices of a strand in ascending order (R26): its range, or the marked indices of its window. -/
def present (st : Strand) : List Nat :=
  match st.mask with
  | none => List.range' st.first st.count
  | some m => (maskBits m).map (fun p => st.first / 64 * 64 + p)

/-- Ascending indices without a gap (R26). -/
def contiguous (is : List Nat) : Bool :=
  match is with
  | [] => true
  | i :: _ => decide (is = List.range' i is.length)

/-- Every element equals x. -/
def allEq {α : Type} [DecidableEq α] (x : α) (xs : List α) : Bool := xs.all (fun y => decide (y = x))

/-- The value of a form A register at index i (R27). -/
def affine (b s : Word) (first i : Nat) : Word := b + s * BitVec.ofNat 32 (i - first)

/-- classify_v of R28 over the present indices is, with their values vs. -/
def classifyV (is : List Nat) (vs : List Word) : VForm :=
  match vs with
  | [] => .u 0
  | v :: rest =>
    if allEq v rest then .u v
    else if contiguous is then
      let s := rest.headD v - v
      if decide (vs = is.map (affine v s (is.headD 0))) then .a v s else .x vs
    else .x vs

/-- Length of the leading run of x. -/
def leading (x : Bool) : List Bool → Nat
  | [] => 0
  | b :: bs => if b = x then leading x bs + 1 else 0

/-- classify_q of R28. -/
def classifyQ (is : List Nat) (ps : List Bool) : QForm :=
  match ps with
  | [] => .u false
  | p :: rest =>
    if allEq p rest then .u p
    else if contiguous is && allEq (!p) (ps.drop (leading p ps)) then .c (is.headD 0 + leading p ps) (!p)
    else .x ps

/-- The values of a v form at the indices is, whose first is the strand's first (R27). -/
def valsV (is : List Nat) : VForm → List Word
  | .u x => is.map (fun _ => x)
  | .a b s => is.map (affine b s (is.headD 0))
  | .x vs => vs

/-- The truth values of a q form at the indices is (R27). -/
def valsQ (is : List Nat) : QForm → List Bool
  | .u b => is.map (fun _ => b)
  | .c k above => is.map (fun i => if above then decide (k ≤ i) else decide (i < k))
  | .x bs => bs

/-- The form of a register: written, undefined after a merge (R6, R48), or U 0 (R29). -/
def vform (st : Strand) (r : Nat) : VForm :=
  match alookup st.regs r with
  | some f => f
  | none => match st.undef with
    | some seed => .u (Config.freeWord (seed + r))
    | none => .u 0

/-- The values of register vr at the present indices (R27). -/
def regVals (st : Strand) (r : Nat) : List Word := valsV (present st) (vform st r)

/-- The form of entry qk (R27). -/
def qform (st : Strand) (k : Nat) : QForm := nth st.qs k (.u false)

/-- The truth values of entry qk at the present indices. -/
def qVals (st : Strand) (k : Nat) : List Bool := valsQ (present st) (qform st k)

/-- Registers have been written: their dirty bits are set (R383). -/
def markDirty (d : Option (List Nat)) (rs : List Nat) : Option (List Nat) := d.map (fun l => rs.foldl (fun a r => if a.contains r then a else a ++ [r]) l)

/-- Set a register's form; the clear of its poison is the writer's part (R389). -/
def setForm (st : Strand) (r : Nat) (f : VForm) : Strand := { st with regs := ainsert st.regs r f, dirty := markDirty st.dirty [r] }

/-- A form is X (R31). -/
def isXV : VForm → Bool
  | .x _ => true | _ => false
def isXQ : QForm → Bool
  | .x _ => true | _ => false

/-- A strand is compact: no X form and contiguous presence (R31). -/
def hasX (st : Strand) : Bool := st.regs.any (fun e => isXV e.2) || st.qs.any isXQ
def compact (st : Strand) : Bool := !hasX st && contiguous (present st)

/-- The elements of xs, aligned with is, at the indices that keep. -/
def selectAt {α : Type} (is : List Nat) (xs : List α) (keep : List Nat) : List α :=
  ((is.zip xs).filter (fun e => keep.contains e.1)).map (fun e => e.2)

/-- A form re-expressed over the kept indices (R28). -/
def restrictV (is keep : List Nat) (f : VForm) : VForm :=
  match f with
  | .u x => .u x
  | _ => classifyV keep (selectAt is (valsV is f) keep)
def restrictQ (is keep : List Nat) (f : QForm) : QForm :=
  match f with
  | .u b => .u b
  | _ => classifyQ keep (selectAt is (valsQ is f) keep)

/-- Attach to the window's sheaf when a form is X or the presence has gaps; detach otherwise (R31). is: the present indices. -/
def settleMask (is : List Nat) (st : Strand) : Strand :=
  { st with mask := if hasX st || !contiguous is then some (maskOf (is.map (fun i => i % 64))) else none }

/-- Whether index i reads a poisoned word in register r: an X register has a word of its own at each index; one of U or A form has its form-file word,
which every index reads (R388, R389). -/
def poisonedAt (st : Strand) (r i : Nat) : Bool := st.poison.contains (r, i) || (!isXV (vform st r) && st.poison.any (fun e => e.1 == r))

/-- The poison of a strand, that of a form-file word at every index that reads it (R389). -/
def wholePoison (st : Strand) : List (Nat × Nat) :=
  if st.poison.isEmpty then []
  else (((st.poison.map (fun e => e.1)).eraseDups).flatMap (fun r => (present st).map (fun i => (r, i)))).filter (fun e => poisonedAt st e.1 e.2)

/-- The strand with its poison as its forms hold it. -/
def evenPoison (st : Strand) : Strand := let ps := wholePoison st; { st with poison := ps, origin := st.origin.filter (fun e => ps.any (fun p => p.1 == e.1)) }

/-- Whether the poison that index i reads in register r came from memory (R390). -/
def fromMemory (st : Strand) (r i : Nat) : Bool := st.origin.contains (r, i) || (!isXV (vform st r) && st.origin.any (fun e => e.1 == r))

/-- The strand over some of its indices, every item of R26 inherited and re-expressed (R28, R36, R43); every item of what is a strand of its own from now on is dirty (R383).
A parked piece of a CST, all of whose indices are elements, goes on at the place of its own first element (R173; DEDUCED, log 90). -/
def restrict (st : Strand) (keep : List Nat) : Strand :=
  let is := present st
  let lo := keep.headD 0
  settleMask keep
    { st with
      first := lo
      count := keep.getLastD 0 + 1 - lo
      regs := st.regs.map (fun e => (e.1, restrictV is keep e.2))
      qs := st.qs.map (restrictQ is keep)
      poison := (wholePoison st).filter (fun e => keep.contains e.2)
      replay := st.replay.map (fun r => (r.1 + is.countP (fun i => decide (i < lo)), r.2))
      dirty := none }

/-- The maximal runs of contiguous indices (R36, R166). -/
def runsOf : List Nat → List (List Nat)
  | [] => []
  | i :: is =>
    match runsOf is with
    | (j :: js) :: rs => if j = i + 1 then (i :: j :: js) :: rs else [i] :: (j :: js) :: rs
    | rs => [i] :: rs

/-- Indices grouped by a key, in order of first appearance. -/
def groupsBy (key : Nat → Nat) : List Nat → List (List Nat)
  | [] => []
  | i :: is =>
    let gs := groupsBy key is
    match gs.find? (fun g => g.headD 0 |> fun h => decide (key h = key i) && !g.isEmpty) with
    | some _ => (i :: (gs.filter (fun g => decide (key (g.headD 0) = key i))).flatten) :: gs.filter (fun g => !decide (key (g.headD 0) = key i))
    | none => [i] :: gs

/-- A form-only register would need X (R35, R36). budget: the role's register budget. -/
def formOnlyX (budget : Nat) (st : Strand) : Bool := st.regs.any (fun e => decide (budget ≤ e.1) && isXV e.2)

/-- The strands that hold some of a strand's indices (R36, R43, R166): runs when it is compact; on its sheaf one strand, or one for
each run where a form-only register would need X. -/
def pieces (budget : Nat) (st : Strand) (keep : List Nat) : List Strand :=
  if keep.isEmpty then []
  else if st.mask.isNone then (runsOf keep).map (restrict st)
  else
    let p := restrict st keep
    if formOnlyX budget p && !contiguous keep then (runsOf keep).map (restrict st) else [p]

/-- The windows of R25, in ascending order: the indices of a strand cut at every window boundary (R37). -/
def windowsOf (is : List Nat) : List (List Nat) := groupsBy (fun i => i / 64) is

/-- Whether the indices lie in one window (R25). -/
def oneWindow (is : List Nat) : Bool := is.all (fun i => decide (i / 64 = is.headD 0 / 64))

end Sys2Proof.Machine
end

