-- ==== Sys2Proof/Machine/Ops.lean ====
section
/-! DEFINITION. The named operations over the state: its tables, memory bytes, free values, reports and stops (taking a trap and
returning from one), and the registers of a strand. -/

namespace Sys2Proof.Machine

/-! ### Memory in canonical form (R2, R16) -/

/-- What an unlisted address reads as (DESIGN CHOICE, log 4). -/
def unlisted : Byte := 0

/-- Read one byte. -/
def memGet (m : List Host.Cell) (a : Nat) : Byte :=
  match m with
  | [] => unlisted
  | (k, v) :: r => if k = a then v else memGet r a

/-- Write one byte, keeping the canonical form. -/
def memPut (m : List Host.Cell) (a : Nat) (b : Byte) : List Host.Cell :=
  match m with
  | [] => if b = unlisted then [] else [(a, b)]
  | (k, v) :: r =>
    if a < k then (if b = unlisted then (k, v) :: r else (a, b) :: (k, v) :: r)
    else if a = k then (if b = unlisted then r else (a, b) :: r)
    else (k, v) :: memPut r a b

/-- The canonical form: addresses strictly rising from above lo, no cell that reads as an unlisted one. -/
def memWf (lo : Option Nat) (m : List Host.Cell) : Bool :=
  match m with
  | [] => true
  | (k, v) :: r => (match lo with | none => true | some l => decide (l < k)) && decide (v ≠ unlisted) && memWf (some k) r

/-- Memory.wf: the canonical form of a memory. -/
def Memory.wf (m : List Host.Cell) : Bool := memWf none m

/-- Read n bytes, lowest address first (R2). -/
def memGets (m : List Host.Cell) (a n : Nat) : List Byte := (List.range n).map (fun k => memGet m (a + k))

/-- Write bytes from an address up (R2). -/
def memPuts (m : List Host.Cell) (a : Nat) : List Byte → List Host.Cell
  | [] => m
  | b :: bs => memPuts (memPut m a b) (a + 1) bs

/-! ### The tables of the state -/

/-- Replace the entries of a list that satisfy p. -/
def updWhere {α : Type} (p : α → Bool) (f : α → α) (xs : List α) : List α := xs.map (fun x => if p x then f x else x)

def strandOf (s : State) (sid : Nat) : Option Strand := s.strands.find? (fun t => t.sid == sid)
def updStrand (s : State) (sid : Nat) (f : Strand → Strand) : State := { s with strands := updWhere (fun t => t.sid == sid) f s.strands }
def putStrand (s : State) (st : Strand) : State := updStrand s st.sid (fun _ => st)
def dropStrand (s : State) (sid : Nat) : State := { s with strands := s.strands.filter (fun t => t.sid != sid) }

def opOf (s : State) (oid : Nat) : Option Op := s.ops.find? (fun o => o.oid == oid)
def updOp (s : State) (oid : Nat) (f : Op → Op) : State := { s with ops := updWhere (fun o => o.oid == oid) f s.ops }

def teamOf (s : State) (lk num : Nat) : Option Team := s.teams.find? (fun t => t.lk == lk && t.num == num)
def updTeam (s : State) (lk num : Nat) (f : Team → Team) : State :=
  { s with teams := updWhere (fun t => t.lk == lk && t.num == num) f s.teams }

def launchOf (s : State) (lk : Nat) : Option Launch := s.launches.find? (fun l => l.lk == lk)
def updLaunch (s : State) (lk : Nat) (f : Launch → Launch) : State := { s with launches := updWhere (fun l => l.lk == lk) f s.launches }

def ctxOf (s : State) (c : Nat) : Option Ctx := s.ctxs.find? (fun x => x.num == c)
def updCtx (s : State) (c : Nat) (f : Ctx → Ctx) : State := { s with ctxs := updWhere (fun x => x.num == c) f s.ctxs }

/-- A partition and a core at reset (R14, DESIGN CHOICE, log 3). -/
def Part.fresh : Part := ⟨[none, none]⟩
def Core.fresh (n : Nat) : Core := ⟨n, none, List.replicate 4 Part.fresh, [], [], [], List.replicate 4 [], [], [], [], [], [], false, 0⟩
def coreOf (s : State) (n : Nat) : Core := (s.cores.find? (fun c => c.num == n)).getD (Core.fresh n)
def putCore (s : State) (c : Core) : State :=
  if s.cores.any (fun x => x.num == c.num) then { s with cores := updWhere (fun x => x.num == c.num) (fun _ => c) s.cores }
  else { s with cores := s.cores ++ [c] }
def partOf (s : State) (core part : Nat) : Part := nth (coreOf s core).parts part Part.fresh
def putPart (s : State) (core part : Nat) (p : Part) : State :=
  let c := coreOf s core
  putCore s { c with parts := c.parts.set part p }

/-- The die of a core (R10). -/
def dieOfCore (core : Nat) : Nat := core / Config.dieCores

def Die.fresh (n : Nat) : Die := ⟨n, [], 0, none, none⟩
def dieOf (s : State) (n : Nat) : Die := (s.dies.find? (fun d => d.num == n)).getD (Die.fresh n)
def putDie (s : State) (d : Die) : State :=
  if s.dies.any (fun x => x.num == d.num) then { s with dies := updWhere (fun x => x.num == d.num) (fun _ => d) s.dies }
  else { s with dies := s.dies ++ [d] }

/-- A C-die runs: in seedling service C-die 0 alone (R368). -/
def dieRuns (s : State) (d : Nat) : Bool := s.sec.boot != .seedling || d == 0

/-- The dies of an isolation partition in ascending order (R272, R323). -/
def mapDies (s : State) (p : Nat) : List Nat :=
  (List.range Config.dies).filter (fun d => if s.l2.shared then decide (p = 0) else decide (nth s.l2.map d 0 = p))

/-- Those of them that run. -/
def partitionDies (s : State) (p : Nat) : List Nat := (mapDies s p).filter (dieRuns s)

/-! ### Free values (DESIGN CHOICE, log 2) -/

def draw (s : State) : State := { s with nfree := s.nfree + 1 }
def freeBool (s : State) : Bool × State := (Config.freeBool s.nfree, draw s)

/-- The machine's next choice among n possibilities (DESIGN CHOICE, log 1). -/
def choose (s : State) (n : Nat) : Nat × State := (s.choices.headD 0 % max 1 n, { s with choices := s.choices.drop 1 })

/-- A fresh identity (DESIGN CHOICE, log 1). -/
def fresh (s : State) : Nat × State := (s.nextId, { s with nextId := s.nextId + 1 })

/-! ### Launch and team facts -/

/-- The kernel a strand runs (R35, R113): its team's, or its launch's before the placement cut. -/
def kernelOf (s : State) (lk : Nat) (team : Option Nat) : Option Kernel :=
  match team.bind (teamOf s lk) with
  | some t => some t.kernel
  | none => (launchOf s lk).map (fun l => l.kernel)

def tsizeOf (s : State) (lk : Nat) : Nat := ((launchOf s lk).map (fun l => l.kernel.tsize)).getD 64
def gridOf (s : State) (lk : Nat) : Nat := ((launchOf s lk).map (fun l => l.grid)).getD 0
def ctxOfLaunch (s : State) (lk : Nat) : Nat := ((launchOf s lk).map (fun l => l.ctx)).getD 0
def launchId (s : State) (lk : Nat) : Nat := ((launchOf s lk).map (fun l => l.id)).getD 0

/-- Number of indices of a team: the last team may be partial (R20). -/
def teamCount (s : State) (lk num : Nat) : Nat := min (tsizeOf s lk) (gridOf s lk - num * tsizeOf s lk)

/-- Teams of a grid (R225). -/
def teamsOfGrid (grid tsize : Nat) : Nat := (grid + tsize - 1) / tsize

/-- Teams of a gang, fewer for a final partial gang, and the rank of a team (R174, R225). -/
def gangWidth (k : Kernel) : Nat := k.gangm1 + 1
def gangTeams (s : State) (lk team : Nat) : List Nat :=
  match launchOf s lk with
  | none => [team]
  | some l =>
    let w := gangWidth l.kernel
    let g := team / w
    (List.range' (g * w) w).filter (fun t => decide (t < teamsOfGrid l.grid l.kernel.tsize))

/-- The record of a role: the first of its KIND. R113 and R114 do not refuse a descriptor that names one KIND in two records; the strands of both then take
the first record's budget (DESIGN CHOICE, log 69). -/
def roleRecOf (k : Kernel) (r : Role) : Option RoleRec := k.roles.find? (fun x => x.role == r)

/-- The PC at which a role starts (R113): a PC has bits [1:0] equal to 0 (R82), whatever CODE is (DESIGN CHOICE, log 73). -/
def entryPc (k : Kernel) (r : RoleRec) : Nat := (k.code + r.entry) % 2 ^ 64 / 4 * 4

/-- Registers beyond the budget that the strands of an image which spills have for the words on their way to and from the spill area (R355; DESIGN CHOICE, log 84). -/
def spillTemps : Nat := 60

/-- Register budget of a strand's role (R35); of an image that spills, with the registers through which its LDs and STs go (R355). -/
def budgetOf (s : State) (st : Strand) : Nat :=
  match kernelOf s st.lk st.team with
  | none => 0
  | some k => ((roleRecOf k st.role).map (fun r => r.budget)).getD 0 +
    if (launchOf s st.lk).any (fun l => l.slots.isSome && l.kernel.kdesc == k.kdesc) then spillTemps else 0

/-- The partition a strand issues from (R37, R38): that of the sheaf of its lowest window; as it is before the placement cut. -/
def homePart (s : State) (st : Strand) : Nat :=
  match st.team.bind (teamOf s st.lk) with
  | some t => nth t.sheafPart ((st.first - t.num * t.kernel.tsize) / 64) st.part
  | none => st.part

/-! ### Strands in the tables -/

/-- Put strands in the place of one. A single one keeps the identity; several get fresh ones (so the run of the old one ends, R100). -/
def assignIds (s : State) : List Strand → List Strand × State
  | [] => ([], s)
  | st :: r =>
    let (n, s1) := fresh s
    let (rs, s2) := assignIds s1 r
    ({ st with sid := n } :: rs, s2)

def replaceStrand (s : State) (sid : Nat) (new : List Strand) : List Nat × State :=
  match new with
  | [st] => ([sid], putStrand s { st with sid := sid, part := homePart s st })
  | _ =>
    let (new', s1) := assignIds s new
    let new'' := new'.map (fun st => { st with part := homePart s st })
    (new''.map (fun st => st.sid), { s1 with strands := s1.strands.flatMap (fun t => if t.sid == sid then new'' else [t]) })

/-- The count of issue slots, which is one for every partition: each has two slots in a cycle (R309; DEDUCED, log 54). -/
def slotNow (s : State) : Int := s.slots

/-- Unblock a strand: ready, with the current slot count as its stamp (R309). -/
def unblock (s : State) (st : Strand) : Strand := { st with status := .ready, stamp := slotNow s, urgent := false }
def unblockSid (s : State) (sid : Nat) : State := updStrand s sid (fun st => unblock s st)

/-- Block the strand (R313): it is not ready, so not urgent either (R311); the run ends (R100). -/
def blockOn (s : State) (sid : Nat) (w : Wait) : State := updStrand s sid (fun st => { st with status := .blocked w, urgent := false })

/-- Advance a strand's PC. -/
def advance (s : State) (sid : Nat) (len : Nat) : State := updStrand s sid (fun st => { st with pc := st.pc + BitVec.ofNat 64 len })

/-- End the run of the issuing strand (R100). -/
def endRun (s : State) : State := { s with cur := none }

/-! ### Trace records (R400) -/

/-- A trace record in the ring of a context, for a launch of this identifier; a full ring drops it and counts the drop (R401). -/
def traceIn (s : State) (c id ev team arg : Nat) : State :=
  { s with attaches := updWhere (fun a => a.ctx == c && a.traceK.isSome) (fun a =>
      if a.traceRing.length < 2 ^ a.traceK.getD 0 then
        { a with traceRing := a.traceRing ++ [pack [(0, ev), (32, id), (64, team), (128, arg), (192, s.time % 2 ^ 64)]] }
      else { a with traceDrops := a.traceDrops + 1 }) s.attaches }

def traceRecord (s : State) (lk ev team arg : Nat) : State := traceIn s (ctxOfLaunch s lk) (launchId s lk) ev team arg

/-- The team field of a trace record where no team is meant (R400). -/
def noTeam : Nat := 2 ^ 32 - 1

/-! ### Reports (R376, R377) -/

def Report.blank : Report := ⟨1, 0, 0, 2, 0, 0, 0, 0, 0, 0, 0, 0, 0, 0, 0, 0, [], 0, 0, 0⟩

/-- The 2048 bits of a report (R376). -/
def reportBits (r : Report) (phase : Nat) : Nat :=
  pack [(0, r.cls), (8, r.kind), (16, r.cause), (24, phase), (25, r.iform), (32, r.launch % 2 ^ 32), (64, r.ticket % 2 ^ 32), (96, r.tsize % 2 ^ 16),
    (128, r.pc % 2 ^ 64), (192, r.opc % 2 ^ 64), (256, r.addr % 2 ^ 64), (320, r.first % 2 ^ 32), (352, r.countM1 % 2 ^ 32), (384, r.mask % 2 ^ 64),
    (448, r.info % 2 ^ 32), (480, r.info2 % 2 ^ 32), (512, r.snap % 2 ^ 512),
    (1024, pack ((List.range 5).map (fun k => (32 * k, nth r.coord k 0 % 2 ^ 32)))), (1184, r.slot % 2 ^ 8), (1192, r.engine % 4), (1200, r.access % 2 ^ 8)]

/-- The named set of a report (R376): a range, a mask where all lie in one window, or one entry for each run (DEDUCED, log 12). -/
def nameSets (is : List Nat) : List (Nat × Nat × Nat × Nat) :=
  if is.isEmpty then [(2, 0, 0, 0)]
  else if contiguous is then [(0, is.headD 0, is.length - 1, 0)]
  else if oneWindow is then [(1, is.headD 0 / 64 * 64, 0, (maskOf (is.map (fun i => i % 64))).toNat)]
  else (runsOf is).map (fun r => (0, r.headD 0, r.length - 1, 0))

/-- A report for each named set. -/
def withNames (r : Report) (is : List Nat) : List Report :=
  (nameSets is).map (fun n => { r with iform := n.1, first := n.2.1, countM1 := n.2.2.1, mask := n.2.2.2 })

/-- Write a report to its slot of the fault queue, as one write (R377). -/
def writeReport (s : State) (c : Nat) (r : Report) : State :=
  match ctxOf s c with
  | none => s
  | some x =>
    let n := x.faultN
    let s1 := { s with mem := memPuts s.mem (x.faultq + 256 * (n % 4096)) (toBytes 256 (reportBits r ((n / 4096 + 1) % 2))) }
    updCtx s1 c (fun x => { x with faultN := n + 1 })

/-- Whether the ring has room for the next report (R377). -/
def ringRoom (x : Ctx) : Bool := decide ((x.faultN + 2 ^ 32 - x.consumed % 2 ^ 32) % 2 ^ 32 < 4096)

/-- Enter a report in the fault queue of a context, in the order raised; it waits while the ring is full (R377). -/
def enqueueReport (s : State) (c : Nat) (r : Report) : State :=
  match ctxOf s c with
  | none => s
  | some x => if ringRoom x && x.waiting.isEmpty then writeReport s c r else updCtx s c (fun x => { x with waiting := x.waiting ++ [r] })

/-- A report of a strand at its PC (R376). -/
def reportOf (s : State) (st : Strand) (kind cause : Nat) : Report :=
  { Report.blank with kind := kind, cause := cause, launch := launchId s st.lk, tsize := tsizeOf s st.lk, pc := st.pc.toNat }

/-! ### Taking a trap (R373, R378) -/

/-- A ticket: non-zero, unique among the open stops (R378); which one is the model's choice (DESIGN CHOICE, log 5). -/
def ticketFrom (stops : List Stop) : Nat → Nat → Nat
  | 0, t => t
  | k + 1, t =>
    let t' := if t % 2 ^ 32 = 0 then 1 else t % 2 ^ 32
    if stops.any (fun x => x.ticket == t') then ticketFrom stops k (t' + 1) else t'

/-- Take a trap: the pieces park at their PC with the ticket of a new stop, and each report enters the fault queue (R373, R378). The
saved state is the parked strand itself; the run ends (R100). -/
def raiseStop (s : State) (lk : Nat) (sids : List Nat) (kind cause cls len : Nat) (after : After) (rs : List Report) : State :=
  let t := ticketFrom s.stops (s.stops.length + 1) s.nextTicket
  let c := ctxOfLaunch s lk
  let team := (s.strands.find? (fun st => sids.contains st.sid)).bind (fun st => st.team)
  let s1 := { s with
    stops := s.stops ++ [⟨t, c, lk, team, kind, cause, cls == 2, len, after, ((rs.head?).map (fun r => r.addr)).getD 0, []⟩]
    nextTicket := t + 1
    strands := s.strands.map (fun st => if sids.contains st.sid then { st with status := .parked t } else st) }
  let s2 := updLaunch s1 lk (fun l => { l with faults := l.faults + rs.length })
  let s3 := rs.foldl (fun a r => enqueueReport a c { r with cls := cls, ticket := t }) s2
  endRun (traceRecord s3 lk 7 (team.getD noTeam) t)

/-- A precise trap of the whole strand before any effect (R373). -/
def trapWhole (s : State) (st : Strand) (len : Nat) (r : Report) : State :=
  raiseStop s st.lk [st.sid] r.kind r.cause 1 len (.advance len) (withNames r (present st))

/-- partial_fault of R166: the indices F park at this PC, in their own strands; the identities of the strands that hold the rest. -/
def partialFault (s : State) (st : Strand) (F : List Nat) (len : Nat) (r : Report) : List Nat × State :=
  let is := present st
  let rest := is.filter (fun i => !F.contains i)
  let B := budgetOf s st
  let bad := pieces B st (is.filter (fun i => F.contains i))
  let good := pieces B st rest
  let (ids, s1) := replaceStrand s st.sid (bad ++ good)
  let badIds := ids.take bad.length
  (ids.drop bad.length, raiseStop s1 st.lk badIds r.kind r.cause 1 len (.advance len) (withNames r (is.filter (fun i => F.contains i))))

/-- Split off several groups of indices, each with its own report and ticket, in the order of the groups, and give the strands that hold the rest (R166, R394). On return the parked
strands stand at this PC. -/
def parkGroups (s : State) (st : Strand) (gs : List (List Nat × Report)) (len : Nat) : List Nat × State :=
  if gs.isEmpty then ([st.sid], s)
  else
    let B := budgetOf s st
    let of := fun (is : List Nat) => pieces B st ((present st).filter (fun i => is.contains i))
    let good := pieces B st ((present st).filter (fun i => !gs.any (fun g => g.1.contains i)))
    let (ids, s1) := replaceStrand s st.sid (gs.flatMap (fun g => of g.1) ++ good)
    gs.foldl (fun (acc : List Nat × State) g =>
      let n := (of g.1).length
      (acc.1.drop n, raiseStop acc.2 st.lk (acc.1.take n) g.2.kind g.2.cause 1 len (.advance len) (withNames g.2 ((present st).filter (fun i => g.1.contains i))))) (ids, s1)

/-- Run a meaning on each of some strands in turn. -/
def eachStrand (s : State) (ids : List Nat) (f : State → Strand → State) : State :=
  ids.foldl (fun a id => match strandOf a id with | some st => f a st | none => a) s

/-- Split off the faulting indices if there are any, then go on with the others. -/
def withoutFaulting (s : State) (st : Strand) (F : List Nat) (len : Nat) (r : Report) (f : State → Strand → State) : State :=
  if F.isEmpty then f s st
  else
    let (ids, s1) := partialFault s st F len r
    eachStrand s1 ids f

/-! ### Debugger stops (R397) -/

/-- The state a stop record gives of its strand, and the match of SOURCE 2 (R397, R398). -/
def stopRecordBits (s : State) (st : Strand) (id source comp code wpc : Nat) (hits : List Nat) (total : Nat) : Nat :=
  let run := (runsOf hits).headD []
  let onSheaf := st.mask.isSome
  let mf := if hits.isEmpty then 0 else if onSheaf then hits.headD 0 / 64 * 64 else hits.headD 0
  pack [(0, source), (8, comp), (10, bit (onSheaf && !hits.isEmpty)), (11, bit (!onSheaf && decide (run.length < hits.length))), (16, code % 2 ^ 16),
    (32, launchId s st.lk), (64, id % 2 ^ 32), (96, tsizeOf s st.lk % 2 ^ 16), (128, st.pc.toNat), (192, wpc % 2 ^ 64), (256, st.first % 2 ^ 32),
    (288, (st.count - 1) % 2 ^ 32), (320, (st.mask.getD 0#64).toNat), (384, mf % 2 ^ 32), (416, if onSheaf || hits.isEmpty then 0 else (run.length - 1) % 2 ^ 32),
    (448, if onSheaf then (maskOf (hits.map (fun i => i % 64))).toNat else 0), (512, total % 2 ^ 32)]

/-- The ring has room for the next stop record (R401). -/
def stopRoom (a : Attach) : Bool := decide ((a.stopN + 2 ^ 32 - a.stopConsumed % 2 ^ 32) % 2 ^ 32 < 1024)

/-- A strand that stops, or whose PC moves without its issue, leaves the ports that its run holds (R100, R309). -/
def leavePorts (s : State) (sid : Nat) : State :=
  { s with cores := s.cores.map (fun c => { c with parts := c.parts.map (fun p => { p with ports := p.ports.map (fun r => r.filter (fun x => x.sid != sid)) }) }) }

/-- The halt itself: the strand leaves its port, and its run ends. -/
def haltStrand (s : State) (st : Strand) (id : Nat) : State :=
  endRun (traceRecord (updStrand (leavePorts s st.sid) st.sid (fun st => { st with halted := some id, stepping := false })) st.lk 7 (st.team.getD noTeam) id)

/-- Whether the debug port is open for halting and stepping any strand (0), or for device memory and registers (1) (R366, R370). -/
def portOpen (s : State) (k : Nat) : Bool := bitOf s.sec.debugWord 0 && bitOf s.sec.debugWord (8 + k)

/-- Halt a strand for the debugger of its context: its stop identifier and its record, which waits while the ring is full (R397, R401). A strand that is halted keeps its stop, and a
halt through the debug port, where no debugger is attached, has an identifier and no record (R370; DESIGN CHOICE, log 96). -/
def debugHalt (s : State) (sid source comp code wpc : Nat) (hits : List Nat) (total : Nat) : State :=
  match strandOf s sid with
  | none => s
  | some st =>
    let c := ctxOfLaunch s st.lk
    if st.halted.isSome then s
    else match s.attaches.find? (fun a => a.ctx == c) with
    | none => if portOpen s 0 then haltStrand { s with nextId := s.nextId + 1 } st (2 ^ 32 + s.nextId) else s
    | some a =>
      let id := a.nextStop
      let rec' := stopRecordBits s st id source comp code wpc hits total
      let a' := if stopRoom a && a.stopWaiting.isEmpty
        then { a with nextStop := id + 1, stopRing := ainsert a.stopRing (a.stopN % 1024) rec', stopN := a.stopN + 1 }
        else { a with nextStop := id + 1, stopWaiting := a.stopWaiting ++ [rec'] }
      haltStrand { s with attaches := updWhere (fun x => x.ctx == c) (fun _ => a') s.attaches } st id

/-- Close a debugger's stop (R400). -/
def closeHalt (s : State) (st : Strand) (action : Nat) : State := traceRecord s st.lk 8 (st.team.getD noTeam) action

/-- Of strands that are halted, one for each stop: the pieces of a strand share its stop (R397). -/
def heldStops (xs : List Strand) : List Strand := xs.foldl (fun a st => if st.halted.isNone || a.any (fun x => x.halted == st.halted) then a else a ++ [st]) []

/-- Strands of one launch have gone, and with them their halts: each stop that no strand holds any more is closed (R400). -/
def closeHalts (s : State) (gone : List Strand) (action : Nat) : State :=
  (heldStops gone).foldl (fun a st => if a.strands.any (fun x => x.halted == st.halted && ctxOfLaunch a x.lk == ctxOfLaunch a st.lk) then a else closeHalt a st action) s

/-- A launch whose teams stay off the device: dumped and not yet resumed (R396), or on its way to another device (R357). -/
def frozen (s : State) (lk : Nat) : Bool := s.dumps.any (fun d => d.lk == lk) || ((launchOf s lk).bind (fun l => l.moving)).isSome

/-- A strand's team has stopped for its pre-emption, or is saved: no wait of it ends until it is restored (R379, R384). -/
def stopped (s : State) (st : Strand) : Bool := (st.team.bind (teamOf s st.lk)).any (fun t => t.saved || t.stopMask.isSome)

/-- Whether a debugger is attached to the context of a launch (R230). -/
def attached (s : State) (lk : Nat) : Bool := s.attaches.any (fun a => a.ctx == ctxOfLaunch s lk)

/-! ### Waiting for results (R100, R157, R310) -/

/-- Registers whose result is outstanding for a strand, and whether a push is (R157, R182): not those that a merge has made undefined (R48). -/
def outstanding (s : State) (st : Strand) : List Op := s.ops.filter (fun o => st.ops.contains o.oid && !o.done)
def pendingRegs (s : State) (st : Strand) : List Nat :=
  ((outstanding s st).filter (fun o => o.idxs.any (fun i => (present st).contains i && !o.dead.contains i))).flatMap (fun o => match o.body with
    | .result (some d) n _ _ _ _ _ _ => List.range' d n
    | .tile _ _ (some d) n => List.range' d n
    | _ => [])
def pendingPush (s : State) (st : Strand) : Bool :=
  ((outstanding s st).filter (fun o => o.idxs.any (present st).contains)).any (fun o => match o.body with
    | .result _ _ _ _ _ _ _ p => p
    | .cont p => p.isSome
    | _ => false)
/-- The layout slots that a DLD is still loading (R198). -/
def pendingSlots (s : State) (st : Strand) : List Nat :=
  (outstanding s st).flatMap (fun o => match o.body with | .dld d _ _ _ _ => [d] | _ => [])

/-- Operations of a class in the strand's set that have not finished (R155, R156). -/
def opCount (s : State) (st : Strand) (c : OpClass) : Nat := ((outstanding s st).filter (fun o => o.cls == c)).length

/-- Add an operation to the strand's set (R155, R374). -/
def addOp (s : State) (st : Strand) (c : OpClass) (idxs : List Nat) (body : OpBody) (done : Bool) : Nat × State :=
  let (oid, s1) := fresh s
  let s2 := { s1 with ops := s1.ops ++ [⟨oid, c, st.pc, st.lk, st.team, st.core, st.part, idxs, body, done, [], [], []⟩] }
  (oid, updStrand s2 st.sid (fun x => { x with ops := x.ops ++ [oid] }))

/-- An asynchronous operation that still has its tag entry: it has not finished, or a fault of it has not been delivered (R374). -/
def hasEntry (o : Op) : Bool :=
  (!o.done || !o.faults.isEmpty) && (match o.body with
    | .engine _ | .tile _ _ _ _ | .dld _ _ _ _ _ | .launch _ _ _ | .cont _ => true | .result _ _ _ _ _ (some (.atc, _)) _ _ => true | _ => false)

/-- The tag entries that the strands of a core hold now, those that several share once; a saved team has left its core (R374). -/
def entriesOn (s : State) (core : Nat) : Nat :=
  let here := s.strands.filter (fun x => x.core == core && !(x.team.bind (teamOf s x.lk)).any (fun t => t.saved))
  (s.ops.filter (fun o => hasEntry o && here.any (fun x => x.ops.contains o.oid))).length

/-- Whether one more operation of the class fits (R155) and, for an asynchronous one, a tag entry of the core is free (R374). -/
def roomFor (s : State) (st : Strand) (c : OpClass) (async : Bool) : Bool := decide (opCount s st c < 2047) && (!async || decide (entriesOn s st.core < 2048))

/-! ### Waiting at issue (R310) -/

/-- Nothing is needed. -/
def Need.none : Need := ⟨[], false, [], Option.none, Option.none, false, false⟩

/-- Commands that an engine's queue and the matrix queue hold at most (R200, R211), and walks in progress of a die (R329). -/
def engineRoom (s : State) (core e : Nat) : Bool := decide ((nth (coreOf s core).engines e []).length < 32)
def matrixRoom (s : State) (core : Nat) : Bool := decide (((coreOf s core).mq.filter (fun c => match c with | .mloop .. => true | _ => false)).length < 8)
def walkRoom (s : State) (core : Nat) : Bool := decide ((s.walkReqs.filter (fun w => w.die == dieOfCore core)).length < 512)

/-- Whether what an instruction needs to issue is there (R155, R157, R182, R198, R200, R211, R329, R374). -/
def needMet (s : State) (st : Strand) (n : Need) : Bool :=
  !n.regs.any (pendingRegs s st).contains && !(n.stack && pendingPush s st) && !n.slots.any (pendingSlots s st).contains &&
    (match n.room with | some (c, async) => roomFor s st c async | none => true) && (match n.engine with | some e => engineRoom s st.core e | none => true) &&
    (!n.matrix || matrixRoom s st.core) && (!n.walk || walkRoom s st.core)

/-- Wait under R310: the instruction issues again when what it needs is there. -/
def stallStrand (s : State) (sid : Nat) (n : Need) : State := endRun (blockOn s sid (.stall n))

/-- Strands whose condition has cleared are ready again (R310). -/
def wakeStalls (s : State) : State :=
  { s with strands := s.strands.map (fun st => match st.status with | .blocked (.stall n) => if needMet s st n then unblock s st else st | _ => st) }

end Sys2Proof.Machine
end

