-- ==== Sys2Proof/Machine/Cut.lean ====
section
/-! DEFINITION. The placement cut, tillering and the writing of a result (R35, R37, R39, R40, R231, R300). -/

namespace Sys2Proof.Machine

/-- Number of present indices (R26). -/
def presentCount (st : Strand) : Nat :=
  match st.mask with | none => st.count | some m => (maskBits m).length

/-- Present indices of a strand in [lo, lo + n). -/
def overlap (st : Strand) (lo n : Nat) : Nat :=
  match st.mask with
  | none => min (st.first + st.count) (lo + n) - max st.first lo
  | some _ => (present st).countP (fun i => decide (lo ≤ i) && decide (i < lo + n))

/-- Indices of a team that have not retired (R153): those that strands still hold. -/
def aliveIn (s : State) (lk team : Nat) : Nat :=
  let ts := tsizeOf s lk
  (s.strands.filter (fun st => st.lk == lk)).foldl (fun a st => a + overlap st (team * ts) ts) 0

/-- Form the gang record of a team when its first team meets its cut (R300). -/
def formGang (s : State) (lk team : Nat) : State :=
  match launchOf s lk with
  | none => s
  | some l =>
    let w := gangWidth l.kernel
    let g := team / w
    if s.gangs.any (fun x => x.lk == lk && x.num == g) then s
    else
      let ds := partitionDies s (((ctxOf s l.ctx).map (fun c => c.part)).getD 0)
      let pos := ds.findIdx (fun d => d == l.seed)
      let die := nth ds ((pos + g) % max ds.length 1) l.seed
      let dd := dieOf s die
      let hint : Nat := if l.hintBase = 0 then 0 else wrapTo 64 ((l.hintBase : Int) + l.hintStr * (g : Int))
      putDie { s with gangs := s.gangs ++ [⟨lk, g, die, g * w, (gangTeams s lk team).length - 1, l.queue, 0, 0, l.ctx, hint, dd.age, 0⟩] }
        { dd with age := dd.age + 1 }

/-- The teams whose indices a contiguous strand holds. -/
def teamsSpanned (s : State) (st : Strand) : List Nat :=
  let ts := max (tsizeOf s st.lk) 1
  List.range' (st.first / ts) ((st.first + st.count - 1) / ts + 1 - st.first / ts)

/-- One piece of the placement cut: a team strand where its team is placed, else a pending range (R39, R40). -/
def cutPiece (s : State) (st : Strand) (t : Nat) : Strand :=
  let ts := tsizeOf s st.lk
  let p := restrict st ((present st).filter (fun i => decide (i / max ts 1 = t)))
  match teamOf s st.lk t with
  | some tm => if tm.placed then { p with team := some t, core := tm.core, pending := false } else { p with team := some t, pending := true }
  | none => { p with team := some t, pending := true }

/-- A strand is divided on team boundaries, at the same PC, and each gang's record is formed (R39): the pieces, and the state. -/
def cutByTeam (s : State) (st : Strand) : List Nat × State :=
  let ts := teamsSpanned s st
  let s1 := ts.foldl (fun a t => formGang a st.lk t) s
  replaceStrand s1 st.sid (ts.map (cutPiece s1 st))

/-- The placement cut of R39. -/
def placementCut (s : State) (st : Strand) : State := endRun (cutByTeam s st).2

/-- Cut at every window boundary (R37). -/
def tiller (s : State) (st : Strand) : List Nat × State := replaceStrand s st.sid ((windowsOf (present st)).map (restrict st))

/-- The comparator test of R231. -/
def cmpTest (c : Cmp) (v : Word) : Bool :=
  match c.cond with
  | 0 => v == c.comparand
  | 1 => v != c.comparand
  | 2 => decide (v.toInt < c.comparand.toInt)
  | 3 => decide (c.comparand.toInt ≤ v.toInt)
  | 4 => decide (v.toNat < c.comparand.toNat)
  | 5 => decide (c.comparand.toNat ≤ v.toNat)
  | _ => false

/-- After an instruction that wrote registers: the lowest comparator that matches halts the whole writing strand (R231, R398). -/
def comparators (s : State) (sid : Nat) (wrote : List Nat) (pc : Nat) : State :=
  match strandOf s sid with
  | none => s
  | some st =>
    match st.team.bind (teamOf s st.lk) with
    | none => s
    | some t =>
      let is := present st
      let hits := fun (c : Cmp) => ((is.zip (regVals st c.reg)).filter (fun e => cmpTest c e.2)).map (fun e => e.1)
      let hit := fun (c : Cmp) => c.armed && wrote.contains c.reg && (if c.all then (hits c).length == is.length else !(hits c).isEmpty)
      match t.cmps.findIdx? hit with
      | none => s
      | some n =>
        let c := nth t.cmps n ⟨false, 0, false, 0, 0⟩
        let h := hits c
        debugHalt s sid 2 n 0 pc h (h.countP (fun i => !poisonedAt st c.reg i))

/-- A result: registers with their values at the present indices, the eight entries of the stack if it is written, the poisoned words
among those written, and the indices at which registers were written. -/
structure Result where
  regs : List (Nat × List Word)
  stack : Option (List (List Bool))
  pois : List (Nat × Nat)
  acted : List Nat
  deriving DecidableEq, Repr

/-- Whether registers were written at any index (R37, R42). -/
def Result.wrote (r : Result) : Bool := !r.acted.isEmpty

/-- The part of a result that falls on some of the indices. -/
def Result.on (r : Result) (is keep : List Nat) : Result :=
  { r with
    regs := r.regs.map (fun e => (e.1, selectAt is e.2 keep))
    stack := r.stack.map (fun q => q.map (fun c => selectAt is c keep))
    pois := r.pois.filter (fun e => keep.contains e.2)
    acted := r.acted.filter keep.contains }

/-- The lowest index whose value differs from the first (R375). -/
def differsAt (is : List Nat) (vs : List Word) : Nat :=
  (((is.zip vs).find? (fun e => e.2 != vs.headD 0)).map (fun e => e.1)).getD 0

/-- A strand with a result in its registers, in canonical form. -/
def Result.into (r : Result) (st : Strand) : Strand :=
  let is := present st
  evenPoison (settleMask is { st with
    regs := r.regs.foldl (fun a e => ainsert a e.1 (classifyV is e.2)) st.regs
    qs := (r.stack.map (fun q => q.map (classifyQ is))).getD st.qs
    poison := st.poison.filter (fun e => !(r.regs.any (fun f => f.1 == e.1))) ++ r.pois
    dirty := markDirty st.dirty (r.regs.map (fun e => e.1)) })

/-- Whether some of a result classifies as X at the present indices (R28). -/
def Result.needsX (r : Result) (is : List Nat) : Bool :=
  r.regs.any (fun e => isXV (classifyV is e.2)) || (r.stack.getD []).any (fun c => isXQ (classifyQ is c))

/-- The forms of a result leave X in a form-only register, or X in one register of a 64-bit pair of which one is form-only; each register of a result of four words stands on its own
(R35). -/
def xFormOnly (budget : Nat) (fs : List (Nat × VForm)) : Bool :=
  fs.any (fun e => isXV e.2 && decide (budget ≤ e.1)) || (fs.length == 2 && fs.any (fun e => isXV e.2) && fs.any (fun e => decide (budget ≤ e.1)))

/-- Write a result that needs no further cut: the form-only trap first (R35), then the canonical forms, the PC, the comparators. Where only the X-capable half
of a pair classifies as X, the report names the form-only half, and INFO2 holds the lowest index at which that half differs from its first value, 0 where
none does (DESIGN CHOICE, log 71). -/
def writeResult (s : State) (st : Strand) (r : Result) (len : Nat) : State :=
  let is := present st
  let fs := r.regs.map (fun e => (e.1, classifyV is e.2))
  let qs := r.stack.map (fun q => q.map (classifyQ is))
  let B := budgetOf s st
  if xFormOnly B fs then
    let bad := ((fs.find? (fun e => isXV e.2 && decide (B ≤ e.1))).orElse (fun _ => fs.find? (fun e => decide (B ≤ e.1)))).map (fun e => e.1)
    let reg := bad.getD 0
    trapWhole s st len { reportOf s st 4 0 with info := reg, info2 := differsAt is ((alookup r.regs reg).getD []) }
  else
    let st1 := { st with
      regs := fs.foldl (fun a e => ainsert a e.1 e.2) st.regs
      qs := qs.getD st.qs
      poison := st.poison.filter (fun e => !(fs.any (fun f => f.1 == e.1))) ++ r.pois
      dirty := if r.wrote then markDirty st.dirty (fs.map (fun e => e.1)) else st.dirty
      pc := st.pc + BitVec.ofNat 64 len }
    let s1 := putStrand s (settleMask is st1)
    if r.wrote then comparators s1 st.sid (fs.map (fun e => e.1)) st.pc.toNat else s1

/-- A result would leave X in a form-only register, or in a pair of which one is form-only (R35). -/
def Result.formOnly (r : Result) (budget : Nat) (is : List Nat) : Bool :=
  xFormOnly budget (r.regs.map (fun e => (e.1, classifyV is e.2)))

/-- Write a result, and with it what the instruction does to the strand besides: neither where the trap of R35 comes, which precedes every effect (R373). -/
def writeThen (adv : Strand → Strand) (s : State) (st : Strand) (r : Result) (len : Nat) : State :=
  writeResult s (if r.formOnly (budgetOf s st) (present st) then st else adv st) r len

/-- Write a result (R37): over a compact strand that needs X, the placement cut comes first (the instruction issues again in the team
strands), then tillering, and each piece writes its own part. The form-only trap of R35 is that of each piece whose own value is X, after the cuts (DESIGN
CHOICE, log 70). -/
def commit (s : State) (st : Strand) (r : Result) (len : Nat) : State :=
  let is := present st
  let needX := r.regs.any (fun e => isXV (classifyV is e.2)) || (r.stack.getD []).any (fun c => isXQ (classifyQ is c))
  if needX && st.mask.isNone then
    if st.team.isNone then placementCut s st
    else if oneWindow is then writeResult s st r len
    else
      let (ids, s1) := tiller s st
      endRun (eachStrand s1 ids (fun a p => writeResult a p (r.on is (present p)) len))
  else writeResult s st r len

/-- The same for an instruction that also changes its strand, as `writeThen` gives. -/
def commitThen (adv : Strand → Strand) (s : State) (st : Strand) (r : Result) (len : Nat) : State :=
  let is := present st
  if r.needsX is && st.mask.isNone then
    if st.team.isNone then placementCut s st
    else if oneWindow is then writeThen adv s st r len
    else
      let (ids, s1) := tiller s st
      endRun (eachStrand s1 ids (fun a p => writeThen adv a p (r.on is (present p)) len))
  else writeThen adv s st r len

/-- Steps 1 to 3 of R37 for an instruction that takes them whatever its result (R135, R145, R188): the placement cut, or tillering, or on. -/
def asIfX (s : State) (st : Strand) (f : State → Strand → State) : State :=
  if st.mask.isSome then f s st
  else if st.team.isNone then placementCut s st
  else if oneWindow (present st) then f s st
  else
    let (ids, s1) := tiller s st
    endRun (eachStrand s1 ids f)

end Sys2Proof.Machine
end

