-- ==== Sys2Proof/Machine/Operands.lean ====
section
/-! DEFINITION. Operand forms, guards and the frame that every register instruction shares (R85, R88, R89, R116, R117, R390). -/

namespace Sys2Proof.Machine

/-- An operand: n registers from r up, read as one number, lowest word first (R54); a literal, U over the strand (R88); or a q entry
read as 0 or 1, negated or not. -/
inductive Opnd where
  | v (r n : Nat)
  | lit (x : Nat)
  | q (depth : Nat) (neg : Bool)
  deriving DecidableEq, Repr

/-- Registers that an operand reads. -/
def Opnd.regs : Opnd → List Nat
  | .v r n => List.range' r n
  | _ => []

/-- An operand that reads the predicate stack. -/
def Opnd.readsQ : Opnd → Bool
  | .q _ _ => true | _ => false

/-- Columns to rows. -/
def rows {α : Type} (n : Nat) (dflt : α) (cols : List (List α)) : List (List α) := (List.range n).map (fun k => cols.map (fun c => nth c k dflt))

/-- The values of an operand at the present indices (R27, R88). -/
def opndVals (st : Strand) : Opnd → List Nat
  | .v r n => (rows (presentCount st) 0 ((List.range' r n).map (regVals st))).map joinWords
  | .lit x => (present st).map (fun _ => x)
  | .q k neg => (qVals st k).map (fun b => bit (b != neg))

/-- Guard flags at the present indices, before anything is pushed or popped (R85). -/
def guardFlags (st : Strand) (g : Guard) : List Bool :=
  match g with
  | .none => (present st).map (fun _ => true)
  | .q neg k => (qVals st k.toNat).map (fun b => b != neg)

/-- The guard over the strand: U true (or unguarded), U false, or not U (R42, R51). -/
def guardU (st : Strand) (g : Guard) : Option Bool :=
  match g with
  | .none => some true
  | .q neg k => match qform st k.toNat with | .u b => some (b != neg) | _ => none

def guardReads : Guard → Bool
  | .none => false | _ => true

/-- Indices at which the instruction acts (R116). -/
def acting (st : Strand) (g : Guard) : List Nat := ((present st).zip (guardFlags st g)).filterMap (fun e => if e.2 then some e.1 else none)

/-- Run on the issuing strand (DESIGN CHOICE, log 1); the machine stops where an access named an address that the device does not have. -/
def finish (s : State) : Res :=
  match s.badAddr with
  | some pa => .fault (.noDeviceAddress pa)
  | none => .next s

def onCur (s : State) (f : Strand → State) : Res :=
  match s.cur.bind (strandOf s) with
  | none => .refused .noIssuingStrand
  | some st => finish (f st)

/-- Whether a register or the stack that the instruction reads or writes has a result outstanding (R100, R157, R182). -/
def mustWait (s : State) (st : Strand) (rs : List Nat) (q : Bool) : Bool :=
  rs.any (fun r => (pendingRegs s st).contains r) || (q && pendingPush s st)

/-- Wait for the results of registers, and of the stack (R100, R157, R310). -/
def waitFor (s : State) (sid : Nat) (rs : List Nat) (q : Bool) : State := stallStrand s sid { Need.none with regs := rs, stack := q }

/-- Acting indices at which one of the registers read holds a poisoned word (R389, R390). -/
def consumed (st : Strand) (g : Guard) (rs : List Nat) : List Nat :=
  if st.poison.isEmpty then [] else (acting st g).filter (fun i => rs.any (fun r => poisonedAt st r i))

/-- ACCESS of the report of a consumed register word (R376). -/
def poisonAccess : Nat := 7 + 8 * 4

/-- CAUSE of the report of an index that consumes poisoned words of some registers: 2 where all of them came from memory, 1 where an error arose in a register (R375, R390; DESIGN CHOICE,
log 97). -/
def poisonCause (st : Strand) (rs : List Nat) (i : Nat) : Nat := if rs.any (fun r => poisonedAt st r i && !fromMemory st r i) then 1 else 2

/-- The reports of consumed register words, one for each cause, in ascending order of the lowest index (R375, R376, R390, R394). -/
def poisonGroups (s : State) (st : Strand) (rs F : List Nat) : List (List Nat × Report) :=
  let of := fun (c : Nat) => F.filter (fun i => poisonCause st rs i == c)
  let group : Nat → List (List Nat × Report) := fun c => if (of c).isEmpty then [] else [(of c, { reportOf s st 15 c with access := poisonAccess })]
  if (of 2).headD 0 < (of 1).headD 0 && !(of 2).isEmpty then group 2 ++ group 1 else group 1 ++ group 2

/-- Park the indices that consume poison, if there are any, then go on with the others (R390). -/
def withoutPoison (s : State) (st : Strand) (rs F : List Nat) (len : Nat) (f : State → Strand → State) : State :=
  if F.isEmpty then f s st
  else
    let (ids, s1) := parkGroups s st (poisonGroups s st rs F) len
    eachStrand s1 ids f

/-- The frame of R116 up to the reading of operands: wait for results, park the indices that consume poison, then go on. -/
def regFrame (h : Hdr) (len : Nat) (srcs : List Opnd) (dests : List Nat) (stack : Bool) (f : State → Strand → State) (s : State) : Res :=
  onCur s fun st =>
    let rs := srcs.flatMap Opnd.regs
    if mustWait s st (rs ++ dests) (stack || guardReads h.g || srcs.any Opnd.readsQ) then waitFor s st.sid (rs ++ dests) (stack || guardReads h.g || srcs.any Opnd.readsQ)
    else withoutPoison s st rs (consumed st h.g rs) len f

/-- Poison that a guarded write leaves in its destinations: that of the old values where the guard is false (R389). -/
def keptPoison (st : Strand) (g : Guard) (dests : List Nat) : List (Nat × Nat) :=
  if st.poison.isEmpty then [] else st.poison.filter (fun e => dests.contains e.1 && !(acting st g).contains e.2)

/-- Values for n destination registers from d up, the old ones where the guard is false (R42, R116). -/
def guardedWrite (st : Strand) (g : Guard) (d n : Nat) (vals : List Nat) : Result :=
  let old := rows (presentCount st) 0 ((List.range' d n).map (regVals st))
  let new := ((guardFlags st g).zip (vals.zip old)).map (fun e => if e.1 then splitWords n e.2.1 else e.2.2)
  { regs := (List.range n).map (fun k => (d + k, new.map (fun r => nth r k 0)))
    stack := none, pois := keptPoison st g (List.range' d n), acted := acting st g }

/-- A register instruction whose result at an index is a function of the operands there (R116). -/
def vop (h : Hdr) (len d n : Nat) (srcs : List Opnd) (g : List Nat → Nat) (s : State) : Res :=
  regFrame h len srcs (List.range' d n) false (fun s st =>
    commit s st (guardedWrite st h.g d n ((rows (presentCount st) 0 (srcs.map (opndVals st))).map g)) len) s

/-- Operand b: a register group of n words, or the literal, extended to 64 bits where the element has 64 (R88). -/
def srcOpnd (b : Src) (n : Nat) (sgn : Bool) : Opnd :=
  match b with
  | .reg r => .v r.toNat n
  | .lit w => .lit (if n = 2 && sgn then (w.signExtend 64).toNat else w.toNat)

/-- Length in bytes: 8 for the full layout, 12 with a literal (R82). -/
def srcLen (b : Src) : Nat := match b with | .reg _ => 8 | .lit _ => 12

end Sys2Proof.Machine
end

