-- ==== Sys2Proof/Machine/Ordering.lean ====
section
/-! DEFINITION. The abstract ordering machine (R245 to R263, R408): homes, core buffers, observed sets, release records, fences. -/

namespace Sys2Proof.Machine

/-! ### Homes (R247) -/

/-- The bytes at a location's home. -/
def homeBytes (s : State) (sp : Space) (a n : Nat) : List Byte :=
  match sp with
  | .dev => memGets s.mem a n
  | .host c => memGets ((alookup s.hostMem c).getD []) a n
  | .scr lk t => memGets (((teamOf s lk t).map (fun x => x.scratch)).getD []) a n

/-- Add to a list without repeats. -/
def insertNat (xs : List Nat) (x : Nat) : List Nat := if xs.contains x then xs else xs ++ [x]

/-- Set the bytes at a location's home; blocks of scratch become dirty (R383). -/
def setHome (s : State) (sp : Space) (a : Nat) (bs : List Byte) : State :=
  match sp with
  | .dev => { s with mem := memPuts s.mem a bs }
  | .host c => { s with hostMem := ainsert s.hostMem c (memPuts ((alookup s.hostMem c).getD []) a bs) }
  | .scr lk t => updTeam s lk t (fun x => { x with
      scratch := memPuts x.scratch a bs, dirtyBlocks := (List.range' (a / 1024) ((a + bs.length + 1023) / 1024 - a / 1024)).foldl insertNat x.dirtyBlocks })

/-- Words of 4 bytes that n bytes at an address touch. -/
def wordsOf (a n : Nat) : List Nat := List.range' (a / 4) ((a + n + 3) / 4 - a / 4)

/-- Whether the bytes at the home are poisoned: a 64-byte line of device memory, a word of host memory that its TLP marks with EP, a 32-bit word of scratch (R386, R388). -/
def homePoison (s : State) (sp : Space) (a n : Nat) : Bool :=
  match sp with
  | .dev => s.memPois.any (fun l => decide (a < (l + 1) * 64) && decide (l * 64 < a + n))
  | .host c => (wordsOf a n).any (fun w => s.hostPois.contains (c, w))
  | .scr lk t => (((teamOf s lk t).map (fun x => x.scratchPois)).getD []).any (fun w => decide (a < (w + 1) * 4) && decide (w * 4 < a + n))

/-- Poison the home of n bytes, by the EP bit where it is the host's, or, for a whole clean word of scratch or of host memory, clear it (R388, R389; DEDUCED, log 13). -/
def setHomePoison (s : State) (sp : Space) (a n : Nat) (p : Bool) : State :=
  match sp with
  | .dev => if p then { s with memPois := (List.range' (a / 64) ((a + n - 1) / 64 + 1 - a / 64)).foldl insertNat s.memPois } else s
  | .host c =>
      if p then { s with hostPois := ((wordsOf a n).map (fun w => (c, w))).foldl (fun l e => if l.contains e then l else l ++ [e]) s.hostPois }
      else { s with hostPois := s.hostPois.filter (fun e => !(e.1 == c && decide (a ≤ e.2 * 4) && decide (e.2 * 4 + 4 ≤ a + n))) }
  | .scr lk t => updTeam s lk t (fun x =>
      if p then { x with scratchPois := (List.range' (a / 4) ((a + n - 1) / 4 + 1 - a / 4)).foldl insertNat x.scratchPois }
      else if x.scratchPois.isEmpty then x
      else { x with scratchPois := x.scratchPois.filter (fun w => !(decide (a ≤ w * 4) && decide (w * 4 + 4 ≤ a + n))) })

/-- Write bytes at the home at once, outside any buffer: the next store of the coherence order (R247, R257, R259, R262). -/
def appendHome (s : State) (sp : Space) (a : Nat) (bs : List Byte) (pois : Bool) (w : Writer) (rel : Option RelRec) : Nat × State :=
  let (id, s1) := fresh s
  let seq := s1.drainSeq + 1
  let s2 := { s1 with drainSeq := seq, stores := s1.stores ++ [⟨id, sp, a, bs, pois, w, none, seq, homeBytes s1 sp a bs.length, rel, 0⟩] }
  (id, setHomePoison (setHome s2 sp a bs) sp a bs.length pois)

/-! ### Observed sets and records (R247) -/

/-- O(i) (R247). -/
def obsOf (s : State) (lk i : Nat) : List Nat :=
  (s.obs.filter (fun e => e.lk == lk && decide (e.lo ≤ i) && decide (i ≤ e.hi))).map (fun e => e.store)

/-- Whether O(i) holds a store. -/
def observes (s : State) (lk i id : Nat) : Bool :=
  s.obs.any (fun e => e.lk == lk && e.store == id && decide (e.lo ≤ i) && decide (i ≤ e.hi))

/-- Ranges of ascending indices. -/
def rangesOf (is : List Nat) : List (Nat × Nat) := (runsOf is).map (fun r => (r.headD 0, r.getLastD 0))

/-- Add stores to the observed sets of some indices. -/
def addObs (s : State) (lk : Nat) (is ids : List Nat) : State :=
  let rs := rangesOf is
  { s with obs := ids.foldl (fun acc id => rs.foldl (fun acc r =>
      if acc.any (fun e => e.lk == lk && e.store == id && decide (e.lo ≤ r.1) && decide (r.2 ≤ e.hi)) then acc else acc ++ [⟨lk, r.1, r.2, id⟩]) acc) s.obs }

/-- The stores that some index of a set of ranges observes. -/
def obsUnion (s : State) (lk : Nat) (is : List Nat) : List Nat :=
  (s.obs.filter (fun e => e.lk == lk && is.any (fun i => decide (e.lo ≤ i) && decide (i ≤ e.hi)))).foldl (fun a e => insertNat a e.store) []

/-- The release record of an index (R247): the newest entry that covers it. -/
def relOf (s : State) (lk i : Nat) : Option RelRec :=
  (s.rels.find? (fun e => e.lk == lk && decide (e.lo ≤ i) && decide (i ≤ e.hi))).map (fun e => e.rel)
def setRel (s : State) (lk i : Nat) (r : RelRec) : State := { s with rels := ⟨lk, i, i, r⟩ :: s.rels.filter (fun e => !(e.lk == lk && e.lo == i && e.hi == i)) }

/-- Index ranges of the strands that satisfy p. -/
def strandRanges (s : State) (p : Strand → Bool) : List (Nat × Nat × Nat) :=
  (s.strands.filter p).map (fun t => (t.lk, t.first, t.first + t.count - 1))

/-- The indices of a team as a range. -/
def teamRange (s : State) (lk t : Nat) : Nat × Nat × Nat := (lk, t * tsizeOf s lk, t * tsizeOf s lk + tsizeOf s lk - 1)

/-- The indices of a context that are placed on a die, retired ones of a placed team among them, and those of its pre-placement strands there: of a launch that
has met no cut, every index (R246). -/
def dieRanges (s : State) (c die : Nat) : List (Nat × Nat × Nat) :=
  (s.teams.filter (fun t => ctxOfLaunch s t.lk == c && t.placed && dieOfCore t.core == die)).map (fun t => teamRange s t.lk t.num) ++
  strandRanges s (fun t => ctxOfLaunch s t.lk == c && !t.pending && t.team.isNone && dieOfCore t.core == die) ++
  (s.launches.filter (fun l => l.ctx == c && l.begun && l.seed == die && !s.gangs.any (fun g => g.lk == l.lk))).map (fun l => (l.lk, 0, l.grid - 1))

/-- A scope as seen at this step from an index of a launch, of a team if it has one, on a core (R246): each contains those
above it, die scope the team and the gang of an index that has been cut and is not placed yet. Before the placement cut gang scope is team scope (R408). -/
def scopeAt (s : State) (lk : Nat) (team : Option Nat) (core : Nat) (sc : Scope) : ScopeSet :=
  let c := ctxOfLaunch s lk
  let seedMates := strandRanges s (fun t => t.lk == lk && t.team.isNone && t.core == core)
  let gang := match team with | some t => (gangTeams s lk t).map (teamRange s lk) | none => seedMates
  { scope := if sc = .gang && team.isNone then .team else sc, ctx := c
    members := match sc with
      | .team => (match team with | some t => [teamRange s lk t] | none => seedMates)
      | .gang => gang
      | .die => let d := dieRanges s c (dieOfCore core); d ++ gang.filter (fun m => !d.contains m)
      | .dev | .sys => (s.launches.filter (fun l => l.ctx == c)).map (fun l => (l.lk, 0, l.grid - 1)) }

/-- A scope as seen from a strand. -/
def scopeOf (s : State) (st : Strand) (sc : Scope) : ScopeSet := scopeAt s st.lk st.team st.core sc

/-- Index i of a launch is in a scope. -/
def inScope (sc : ScopeSet) (lk i : Nat) : Bool := sc.members.any (fun m => m.1 == lk && decide (m.2.1 ≤ i) && decide (i ≤ m.2.2))

/-- A writer is in a scope (R246): an index; an engine by the team whose command it serves; host agents and peers at sys only. -/
def writerIn (s : State) (sc : ScopeSet) (w : Writer) : Bool :=
  match w with
  | .index lk i => inScope sc lk i
  | .engine _ lk t => inScope sc lk (t * tsizeOf s lk)
  | .host c _ => sc.scope == .sys && sc.ctx == c
  | .peer c _ => sc.scope == .sys && sc.ctx == c
  | .system c => sc.scope == .sys && sc.ctx == c

/-- Wider than team (R250, R408). -/
def wide (sc : ScopeSet) : Bool := sc.scope != .team

/-! ### Stores and drains (R249, R250) -/

/-- Two byte ranges of one space meet. -/
def meets (sp : Space) (a n : Nat) (e : Store) : Bool := e.space == sp && decide (a < e.addr + e.bytes.length) && decide (e.addr < a + n)

/-- Entries of a core's buffer, oldest first (R247). -/
def bufferOf (s : State) (core : Nat) : List Store := s.stores.filter (fun e => e.buf == some core)

/-- The entries that R250 requires to drain before e. -/
def drainsFirst (buf : List Store) (e : Store) : List Nat :=
  (buf.filter (fun o => (decide (o.id < e.id) && meets e.space e.addr e.bytes.length o) ||
    (match e.rel with | some r => wide r.scope && r.set.contains o.id | none => false))).map (fun o => o.id)

/-- Whether R250 lets an entry drain now. -/
def canDrain (s : State) (e : Store) : Bool :=
  match e.buf with
  | none => false
  | some c => (drainsFirst (bufferOf s c) e).isEmpty

/-- Drain one entry: appended to the coherence order of its location (R250). -/
def drainOne (s : State) (id : Nat) : State :=
  match s.stores.find? (fun e => e.id == id && e.buf.isSome) with
  | none => s
  | some e =>
    let seq := s.drainSeq + 1
    let s1 := { s with drainSeq := seq
                       stores := updWhere (fun x => x.id == id) (fun x => { x with buf := none, seq := seq, old := homeBytes s e.space e.addr e.bytes.length }) s.stores }
    setHomePoison (setHome s1 e.space e.addr e.bytes) e.space e.addr e.bytes.length e.pois

/-- Entries and all that must drain first, within fuel rounds. -/
def drainClosure (buf : List Store) : Nat → List Nat → List Nat
  | 0, ids => ids
  | k + 1, ids => drainClosure buf k ((buf.filter (fun e => ids.contains e.id)).foldl (fun a e => (drainsFirst buf e).foldl insertNat a) ids)

/-- Drain entries of a core's buffer, with those that R250 requires first, in the order in which they entered. -/
def drainThese (s : State) (core : Nat) (ids : List Nat) : State :=
  let buf := bufferOf s core
  let all := drainClosure buf buf.length (ids.filter (fun i => buf.any (fun e => e.id == i)))
  ((buf.filter (fun e => all.contains e.id)).map (fun e => e.id)).foldl drainOne s

/-- Drain the buffered entries of a core that satisfy p. -/
def drainWhere (s : State) (core : Nat) (p : Store → Bool) : State := drainThese s core (((bufferOf s core).filter p).map (fun e => e.id))

/-- A store by indices of a launch, which write through this one entry, enters the buffer of a core with a record (R249); the writer is the highest of them (R169). -/
def enterAt (s : State) (lk core : Nat) (is : List Nat) (sp : Space) (a : Nat) (bs : List Byte) (pois : Bool) (rel : Option RelRec) : State :=
  let (id, s1) := fresh s
  addObs { s1 with stores := s1.stores ++ [⟨id, sp, a, bs, pois, .index lk (is.getLastD 0), some core, 0, [], rel, 0⟩] } lk is [id]

/-- A store by indices of a strand. -/
def enterStore (s : State) (st : Strand) (is : List Nat) (sp : Space) (a : Nat) (bs : List Byte) (pois : Bool) (rel : Option RelRec) : State :=
  enterAt s st.lk st.core is sp a bs pois rel

/-! ### Host agents (R247, R261) -/

/-- The buffer of a host agent of a context; those of host agents stand beside those of the cores. -/
def hostBuffer (c agent : Nat) : Nat := Config.dies * Config.dieCores + (c + agent) * (c + agent + 1) / 2 + agent

/-- Sys scope as a host agent of a context gives it (R246). -/
def hostScope (s : State) (c : Nat) : ScopeSet := ⟨.sys, c, (s.launches.filter (fun l => l.ctx == c)).map (fun l => (l.lk, 0, l.grid - 1))⟩

/-- A host agent's store enters the agent's buffer; where it releases, it carries every store that the agent has made (R247, R261). -/
def enterHostStore (s : State) (h : HostStore) : State :=
  let mine := (s.stores.filter (fun e => e.writer == .host h.ctx h.agent)).map (fun e => e.id)
  { s with
    hostStores := s.hostStores.filter (fun x => x.id != h.id)
    stores := s.stores ++ [⟨h.id, .host h.ctx, h.addr, h.bytes, h.ep, .host h.ctx h.agent, some (hostBuffer h.ctx h.agent), 0, [],
      if h.release then some ⟨mine, hostScope s h.ctx⟩ else none, 0⟩] }

/-- A host agent's stores enter its buffer in the order in which the agent makes them (R249, R261). -/
def hostNext (s : State) (h : HostStore) : Bool := s.hostStores.find? (fun x => x.ctx == h.ctx && x.agent == h.agent) == some h

/-- Every entry in the buffers of a context's host agents drains, each buffer in its order (R250, R261). -/
def drainHost (s : State) (c : Nat) : State :=
  ((s.stores.filter (fun e => e.buf.isSome && (match e.writer with | .host x _ => x == c | _ => false))).map (fun e => e.id)).foldl drainOne s

/-! ### Loads and acquires (R251, R252) -/

/-- The newest store at home that covers a byte. -/
def newestHome (s : State) (sp : Space) (a : Nat) : Option Nat :=
  ((s.stores.filter (fun e => e.buf.isNone && meets sp a 1 e)).foldl (fun (b : Option Store) e => match b with
    | none => some e
    | some x => if x.seq ≤ e.seq then some e else b) none).map (fun e => e.id)

/-- The newest entry of a buffer that covers a byte. -/
def newestEntry (es : List Store) (a : Nat) : Option Store := (es.filter (fun e => decide (e.addr ≤ a) && decide (a < e.addr + e.bytes.length))).getLast?

/-- What a load by indices is on a core finds (R251): the bytes, whether poisoned, and the stores read. -/
structure Loaded where
  bytes : List Byte
  pois : Bool
  from_ : List Nat
  deriving DecidableEq, Repr

/-- The load of R251 over n bytes, with the choice between the buffer and the home made where the machine has it. -/
def loadWith (s : State) (core : Nat) (useBuf : Bool) (sp : Space) (a n : Nat) : Loaded :=
  let es := if useBuf then (bufferOf s core).filter (meets sp a n) else []
  let home := homeBytes s sp a n
  let per := (List.range n).map (fun k => match newestEntry es (a + k) with
    | some e => (nth e.bytes (a + k - e.addr) 0, e.pois, some e.id)
    | none => (nth home k 0, homePoison s sp (a + k) 1, newestHome s sp (a + k)))
  { bytes := per.map (fun x => x.1), pois := per.any (fun x => x.2.1)
    from_ := per.foldl (fun acc x => match x.2.2 with | some id => insertNat acc id | none => acc) [] }

/-- Perform a load of the indices is of a launch on a core (R251): the result, with the observed sets and the loads that a fence acquires. -/
def performLoad (s : State) (lk core : Nat) (is : List Nat) (sp : Space) (a n : Nat) : Loaded × State :=
  let es := (bufferOf s core).filter (meets sp a n)
  let must := es.any (fun e => is.any (fun i => observes s lk i e.id))
  let (b, s1) := if es.isEmpty || must then (!es.isEmpty, s) else freeBool s
  let r := loadWith s1 core b sp a n
  let s2 := addObs s1 lk is r.from_
  (r, { s2 with reads := (if r.from_.isEmpty then [0] else r.from_).foldl (fun acc id =>
    (rangesOf is).foldl (fun acc x => acc ++ [⟨lk, x.1, x.2, id, sp, a, n⟩]) acc) s2.reads })

/-- The acquire of R252 by index i at scope sc of the store with this identity. -/
def acquire (s : State) (lk i : Nat) (sc : ScopeSet) (id : Nat) : State :=
  match s.stores.find? (fun e => e.id == id) with
  | none => s
  | some w =>
    match w.rel with
    | none => s
    | some r => if inScope r.scope lk i && writerIn s sc w.writer then addObs s lk [i] r.set else s

def acquireAll (s : State) (lk : Nat) (is : List Nat) (sc : ScopeSet) (ids : List Nat) : State :=
  is.foldl (fun a i => ids.foldl (fun b id => acquire b lk i sc id) a) s

/-- A record whose release is an event and not a store: each index acquires its set where the scopes hold each other (R258, R260). -/
def acquireRecord (s : State) (lk : Nat) (is : List Nat) (sc : ScopeSet) (w : Writer) (r : RelRec) : State :=
  if writerIn s sc w then addObs s lk (is.filter (inScope r.scope lk)) r.set else s

/-- The release record of index i at a scope (R253). -/
def releaseRec (s : State) (st : Strand) (i : Nat) (sc : Scope) : RelRec := ⟨obsOf s st.lk i, scopeOf s st sc⟩

/-- Releases of n bytes at a location that still stand in a buffer, made at a scope that holds index i by a writer in scope sc (R254). -/
def passedBy (s : State) (lk i : Nat) (sc : ScopeSet) (sp : Space) (a n : Nat) : List Store :=
  s.stores.filter (fun e => e.buf.isSome && meets sp a n e && (match e.rel with | some r => inScope r.scope lk i && writerIn s sc e.writer | none => false))

/-- An acquire of a location by an index passes by the releases of it that stand in buffers (R254). -/
def passBy (s : State) (lk i : Nat) (sc : ScopeSet) (sp : Space) (a n : Nat) : State :=
  let ids := (passedBy s lk i sc sp a n).map (fun e => e.id)
  if ids.isEmpty then s else { s with stores := updWhere (fun x => ids.contains x.id) (fun x => { x with passes := x.passes + 1 }) s.stores }

/-- A release that has been passed by often enough drains (R254). -/
def drainPassed (s : State) : State :=
  (s.stores.filter (fun e => e.buf.isSome && decide (Config.acquireLimit < e.passes))).foldl (fun a e => drainThese a (e.buf.getD 0) [e.id]) s

/-! ### Fences (R255, R256) -/

/-- FENCE `.rel` of one index. -/
def fenceRel (st : Strand) (sc : Scope) (s : State) (i : Nat) : State := setRel s st.lk i (releaseRec s st i sc)

/-- The stores that loads of i before the fence returned. -/
def readsOf (s : State) (lk i : Nat) : List Nat :=
  (s.reads.filter (fun e => e.lk == lk && decide (e.lo ≤ i) && decide (i ≤ e.hi))).foldl (fun a e => insertNat a e.store) []

/-- What a fence acquires for one index, at a scope: the stores that those loads returned (R252, R255). The acquires are of the loads' locations (R254). -/
def fenceAcquire (s : State) (st : Strand) (sc : ScopeSet) (i : Nat) : State :=
  let s1 := (s.reads.filter (fun e => e.lk == st.lk && decide (e.lo ≤ i) && decide (i ≤ e.hi))).foldl (fun a e => passBy a st.lk i sc e.space e.addr e.size) s
  acquireAll s1 st.lk [i] sc (readsOf s st.lk i)

/-- FENCE `.acq` of one index. -/
def fenceAcq (st : Strand) (sc : Scope) (s : State) (i : Nat) : State := fenceAcquire s st (scopeOf s st sc) i

/-- fence_sc of R255 for one index. -/
def fenceSc (st : Strand) (sc : Scope) (s : State) (i : Nat) : State :=
  let S := scopeOf s st sc
  let s1 := if wide S then drainWhere s st.core (fun e => observes s st.lk i e.id) else s
  let s2 := s1.fences.foldl (fun a f => if inScope S f.lk f.idx && inScope f.scope st.lk i then addObs a st.lk [i] f.obs else a) s1
  let s3 := fenceAcquire s2 st S i
  let r := releaseRec s3 st i sc
  { setRel s3 st.lk i r with fences := s3.fences ++ [⟨st.lk, i, S, r.set⟩] }

/-- The action of a fence kind for one index. -/
def fenceStep (k : FenceKind) (st : Strand) (sc : Scope) (s : State) (i : Nat) : State :=
  match k with
  | .rel => fenceRel st sc s i
  | .acq => fenceAcq st sc s i
  | .sc => fenceSc st sc s i

/-! ### Atomics (R257) -/

/-- One atomic of index i on the word at a location: every entry of the core's buffer for the word drains, the home value is read and the
new value appended to the coherence order (none: not written, a CAS that fails). It is no release (R257). -/
def atomicStep (s : State) (lk core i : Nat) (sp : Space) (a : Nat) (f : Word → Option Word) : Word × Bool × State :=
  let s1 := drainWhere s core (meets sp a 4)
  let old := BitVec.ofNat 32 (ofBytes (homeBytes s1 sp a 4))
  let pois := homePoison s1 sp a 4
  let seen := (List.range 4).filterMap (fun k => newestHome s1 sp (a + k))
  let s2 := addObs s1 lk [i] seen
  match f old with
  | none => (old, pois, s2)
  | some v =>
    let (id, s3) := appendHome s2 sp a (toBytes 4 v.toNat) pois (.index lk i) none
    (old, pois, addObs s3 lk [i] [id])

end Sys2Proof.Machine
end

