-- ==== Sys2Proof/Machine/Caches.lean ====
section
/-! DEFINITION. The caches and what they ask of the base dies (R266 to R268, R270 to R275, R278, R282, R283, R286, R288): tags only, since the bytes
of every location are those of R247, and the organisation of the caches changes nothing but time and the `pch.N` counters (R265). -/

namespace Sys2Proof.Machine

/-! ### B-dies in the tables (R276, R277, R280, R283) -/

/-- The linear masks of power-on (R280). -/
def linearMasks : List Nat := (List.range 6).map (fun k => 2 ^ (8 + k))

/-- A B-die at power-on (R277, R280, R283, R308). -/
def BDie.fresh (n : Nat) : BDie := ⟨n, linearMasks, 0, [], [], [], [], [], 0⟩
def bdieOf (s : State) (n : Nat) : BDie := (s.bdies.find? (fun b => b.num == n)).getD (BDie.fresh n)
def putBdie (s : State) (b : BDie) : State :=
  if s.bdies.any (fun x => x.num == b.num) then { s with bdies := updWhere (fun x => x.num == b.num) (fun _ => b) s.bdies }
  else { s with bdies := s.bdies ++ [b] }

/-- Congruence groups of the device and of a B-die (R276). -/
def groupsAll : Nat := 12582912
def groupsDie : Nat := 786432

/-- The B-die, group-local number and slot of a physical address (R276). -/
def homeOf (pa : Nat) : Nat × Nat × Nat :=
  let p := pa / 65536
  let g := p % groupsAll
  (g / groupsDie, g % groupsDie, p / groupsAll)

/-- The remap entry of a group, as it is at reset where none is listed (R277). -/
def remapOf (b : BDie) (g : Nat) : Remap := (b.remap.find? (fun r => r.group == g)).getD ⟨g, 0, false, false, [0, 0, 0]⟩
def putRemap (b : BDie) (r : Remap) : BDie :=
  let rest := b.remap.filter (fun x => x.group != r.group)
  { b with remap := if r = ⟨r.group, 0, false, false, [0, 0, 0]⟩ then rest else rest ++ [r] }

/-- Where a slot's frame lies (R277): in the fast frame of its group, or, the other two slots in ascending order, in its two capacity frames; with
the stack-local address, or that in the B-die's capacity memory, of the byte at a physical address. -/
def frameOf (b : BDie) (pa : Nat) : Bool × Nat :=
  let (_, g, slot) := homeOf pa
  let fast := (remapOf b g).fast
  if slot = fast then (true, g * 65536 + pa % 65536)
  else
    let rank := slot - if fast < slot then 1 else 0
    (false, g * 131072 + rank * 65536 + pa % 65536)

/-! ### DRAM and the memory-side cache (R275, R278, R282 to R284) -/

/-- Parity of the ones of a number below 2^n. -/
def parityOf (n x : Nat) : Bool := (List.range n).foldl (fun b k => b != bitOf x k) false

/-- The pseudo-channel of a stack-local address of the fast frame (R278). -/
def pchAt (masks : List Nat) (f : Nat) : Nat := (List.range 6).foldl (fun a k => a + if parityOf 41 (f &&& nth masks k 0) then 2 ^ k else 0) 0

/-- Count n DRAM requests to a pseudo-channel (R278). -/
def countPch (b : BDie) (p n : Nat) : BDie := { b with pch := ainsert b.pch p (((alookup b.pch p).getD 0) + BitVec.ofNat 32 n) }

/-- Count one 64-byte DRAM request: for its slot, and for its pseudo-channel where it goes to the fast frame (R278, R282). -/
def countRequest (b : BDie) (pa : Nat) : BDie :=
  let (_, g, slot) := homeOf pa
  let r := remapOf b g
  let b1 := putRemap b { r with cnt := r.cnt.set slot (min 255 (nth r.cnt slot 0 + 1)) }
  let f := frameOf b pa
  if f.1 then countPch b1 (pchAt b.hmask f.2) 1 else b1

/-- A swap of a group begins (R284): BUSY is set, dirty lines of the cache that belong to the group go to DRAM (R275), and its traffic in the fast frame is counted:
the frame of 64 KiB is read and written once, 2 requests for each of its 1024 lines (R278, R291). -/
def startSwap (b : BDie) (g slot : Nat) (reply : Option Nat) : BDie :=
  let inGroup := fun (l : Nat) => (homeOf (l * 64)).1 == b.num && (homeOf (l * 64)).2.1 == g
  let b1 := (b.lines.filter (fun l => inGroup l.1 && l.2)).foldl (fun a l => countRequest a (l.1 * 64)) b
  let b2 := (List.range 256).foldl (fun a u => countPch a (pchAt a.hmask (g * 65536 + 256 * u)) 8) b1
  { putRemap b2 { remapOf b2 g with busy := true } with
    lines := b2.lines.map (fun l => if inGroup l.1 then (l.1, false) else l), swaps := b2.swaps ++ [⟨g, slot, reply⟩] }

/-- One 64-byte DRAM request to a page; a swap starts where the counts then ask for it (R283). -/
def dramRequest (b0 : BDie) (pa : Nat) : BDie :=
  let b := countRequest b0 pa
  let (_, g, slot) := homeOf pa
  let r := remapOf b g
  let thresh := max 1 (field b.swpctl 8 8)
  if bitOf b.swpctl 0 && !r.pin && !r.busy && slot ≠ r.fast && decide (nth r.cnt r.fast 0 + thresh ≤ nth r.cnt slot 0) && decide (b.swaps.length < 4) then
    startSwap b g slot none
  else b

/-- A line leaves the memory-side cache; a dirty one is a DRAM write (R275, R278). -/
def dropLine (b : BDie) (l : Nat × Bool) : BDie :=
  let b1 := { b with lines := b.lines.filter (fun x => x.1 != l.1) }
  if l.2 then dramRequest b1 (l.1 * 64) else b1

/-- Lines that the memory-side cache holds at most: 16 MiB (R275). -/
def sideLines : Nat := 262144

/-- The lines of the memory-side cache leave it where a free choice says so (DESIGN CHOICE, log 42). -/
def evict (s : State) (b : BDie) : BDie × State :=
  b.lines.foldl (fun (acc : BDie × State) l =>
    let (leave, s1) := freeBool acc.2
    (if leave then dropLine acc.1 l else acc.1, s1)) (b, s)

/-- One line is read or written at its B-die: served by the cache where it holds the line, else by DRAM for a read; and the cache then holds it
(R275), a full one in place of its oldest line. A whole line that is written needs no read; a write-back counts as one of a whole line (DEDUCED, log 10). -/
def touchLine (s : State) (line : Nat) (write whole : Bool) : State :=
  let n := (homeOf (line * 64)).1
  let b := bdieOf s n
  let here := b.lines.find? (fun l => l.1 == line)
  let b1 := if here.isSome || (write && whole) then b else dramRequest b (line * 64)
  let dirty := write || (here.map (fun l => l.2)).getD false
  let (b2, s1) := evict s { b1 with lines := b1.lines.filter (fun l => l.1 != line) }
  let b3 := (b2.lines.take (b2.lines.length + 1 - sideLines)).foldl dropLine b2
  putBdie s1 { b3 with lines := b3.lines ++ [(line, dirty)] }

/-! ### Packets of the L2 slices (R274, R275) -/

/-- Tags of host-homed lines lie beyond those of the device (R288). -/
def hostTag : Nat := 2 ^ 58

/-- The line of a location that L1 and L2 cache. -/
def lineTag (sp : Space) (a : Nat) : Option Nat :=
  match sp with
  | .dev => some (a / 64)
  | .host c => some (hostTag * (c + 1) + a / 64)
  | .scr _ _ => none

/-- A tag that no outstanding request of a slice to a B-die has, unless all 1024 are in use (R274). -/
def freeTag (s : State) (slice bdie : Nat) : Option Nat :=
  let used := (s.packets.filter (fun p => p.slice == slice && (homeOf p.pa).1 == bdie)).filterMap (fun p => p.tag)
  if 1024 ≤ used.length then none else (List.range (used.length + 1)).find? (fun k => !used.contains k)

/-- A slice sends a request for a line, or holds it back for want of a tag; a host-homed line goes to the host instead (R274, R288). -/
def sendPacket (s : State) (slice line : Nat) (kind : PacketKind) : State :=
  if line < hostTag then { s with packets := s.packets ++ [⟨slice, freeTag s slice (homeOf (line * 64)).1, line * 64, kind⟩] } else s

/-- The first of some packets that wants a tag takes this one. -/
def giveTag (tag : Option Nat) (wants : Packet → Bool) : List Packet → List Packet
  | [] => []
  | x :: xs => if wants x then { x with tag := tag } :: xs else x :: giveTag tag wants xs

/-- A request has its reply: its tag goes to the oldest request of the slice to the B-die that wants one (R274). -/
def closePacket (s : State) (p : Packet) : State :=
  { s with packets := giveTag p.tag (fun x => x.slice == p.slice && (homeOf x.pa).1 == (homeOf p.pa).1 && x.tag.isNone) (s.packets.erase p) }

/-- The lines that a packet names: the four of an encrypted unit, or one (R274). -/
def Packet.lines (p : Packet) : List Nat := match p.kind with | .engine _ _ _ => List.range' (p.pa / 64) 4 | _ => [p.pa / 64]

/-- The oldest packet that names a line which this one names (R275). -/
def oldestWith (s : State) (p : Packet) : Option Packet := s.packets.find? (fun x => x.lines.any p.lines.contains)

/-- A B-die may serve a packet: it has been sent, and no older one of its lines waits (R275). -/
def servable (s : State) (p : Packet) : Bool := p.tag.isSome && oldestWith s p == some p

/-- The source of an engine's packets, beyond the numbers of the L2 slices (R274). -/
def engineSource (core e : Nat) : Nat := 2048 + 4 * core + e

/-- A B-die serves a read or a write; one of an engine names the four lines of its unit. -/
def servePacket (s : State) (p : Packet) : State :=
  match p.kind with
  | .engine _ _ w => (List.range 4).foldl (fun a k => touchLine a (p.pa / 64 + k) w true) (closePacket s p)
  | .rd => touchLine (closePacket s p) (p.pa / 64) false true
  | .wr m => touchLine (closePacket s p) (p.pa / 64) true (m == BitVec.allOnes 64)
  | .atom _ _ => s

/-! ### L2 (R270, R271, R286) -/

/-- The L2 slice that is a line's home (R271). -/
def homeSlice (s : State) (part pa : Nat) : Nat :=
  let f := field pa 6 11 ^^^ field pa 17 11 ^^^ field pa 28 11 ^^^ field pa 39 3
  if s.l2.shared then f
  else
    let ds := mapDies s part
    let k := f % (512 * max 1 ds.length)
    512 * nth ds (k / 512) 0 + k % 512

/-- The isolation partition of the context that a core serves (R272). -/
def corePart (s : State) (core : Nat) : Nat := (((coreOf s core).ctx.bind (ctxOf s)).map (fun x => x.part)).getD 0

/-- The L2 line of a slice. -/
def l2Is (sl line : Nat) (e : L2Line) : Bool := e.slice == sl && e.line == line

/-- A line is used in its home slice, with the bytes that become dirty: it becomes the most recent of its set; a missing one is fetched, and takes the place of the
least recent of a full set, which is written back if dirty. A request for a line that is away waits behind it (R286). A line that is away takes none of the 16 ways of its set, which the
spec leaves open (DESIGN CHOICE, log 103). -/
def l2UseAt (sl : Nat) (mask : DWord) (s : State) (line : Nat) : State :=
  match s.l2lines.find? (l2Is sl line) with
  | some e =>
    if e.away then { s with l2lines := updWhere (l2Is sl line) (fun x => { x with queue := x.queue ++ [.use mask] }) s.l2lines }
    else { s with l2lines := s.l2lines.filter (fun x => !l2Is sl line x) ++ [{ e with mask := e.mask ||| mask }] }
  | none =>
    let ways := s.l2lines.filter (fun e => e.slice == sl && Config.l2Set e.line % 256 == Config.l2Set line % 256 && !e.away)
    let s1 := match (if 16 ≤ ways.length then ways.head? else none) with
      | none => s
      | some v =>
        let s0 := { s with l2lines := s.l2lines.filter (fun x => !l2Is v.slice v.line x) }
        if v.mask = 0 then s0 else sendPacket s0 sl v.line (.wr v.mask)
    let s2 := sendPacket s1 sl line .rd
    { s2 with l2lines := s2.l2lines ++ [⟨sl, line, mask, false, []⟩] }

def l2Use (part : Nat) (mask : DWord) (s : State) (line : Nat) : State := l2UseAt (homeSlice s part (line % hostTag * 64)) mask s line

/-- Take lines out of their slices, the dirty ones written back (R273, R287, R292). -/
def dropL2 (s : State) (p : L2Line → Bool) : State :=
  let gone := s.l2lines.filter p
  (gone.filter (fun e => e.mask != 0)).foldl (fun a e => sendPacket a e.slice e.line (.wr e.mask)) { s with l2lines := s.l2lines.filter (fun e => !p e) }

/-- home_atomic_at_slice of R286: the line leaves the slice, its dirty bytes go with the request, and it is away until the reply; where it is away already the
request waits. -/
def l2HomeAt (sl oid : Nat) (s : State) (line : Nat) : State :=
  match s.l2lines.find? (l2Is sl line) with
  | some e =>
    if e.away then { s with l2lines := updWhere (l2Is sl line) (fun x => { x with queue := x.queue ++ [.home oid] }) s.l2lines }
    else sendPacket { s with l2lines := s.l2lines.filter (fun x => !l2Is sl line x) ++ [⟨sl, line, 0, true, []⟩] } sl line (.atom oid e.mask)
  | none => sendPacket { s with l2lines := s.l2lines ++ [⟨sl, line, 0, true, []⟩] } sl line (.atom oid 0)

def l2Home (part oid : Nat) (s : State) (line : Nat) : State := l2HomeAt (homeSlice s part (line % hostTag * 64)) oid s line

/-- The reply to a home atomic: the B-die keeps the merged line in the memory-side cache, the line is no longer away, and the requests that waited go on in their
order (R286). -/
def l2Back (sl : Nat) (s : State) (line : Nat) : State :=
  let s1 := if line < hostTag then touchLine s line true false else s
  match s.l2lines.find? (fun e => l2Is sl line e && e.away) with
  | none => s1
  | some e =>
    e.queue.foldl (fun a q => match q with | .use m => l2UseAt sl m a line | .home oid => l2HomeAt sl oid a line)
      { s1 with l2lines := s1.l2lines.filter (fun x => !l2Is sl line x) }

/-! ### L1 (R266 to R268) -/

/-- Write back the dirty lines of a core's L1 that satisfy p (R267). -/
def writeBackL1 (core : Nat) (p : Nat → Bool) (s : State) : State :=
  let c := coreOf s core
  let out := c.l1.filter (fun e => e.mask != 0 && p e.line)
  if out.isEmpty then s
  else
    let s1 := putCore s { c with l1 := c.l1.map (fun e => if p e.line then { e with mask := 0 } else e) }
    out.foldl (fun a e => l2Use (corePart a core) e.mask a e.line) s1

/-- Every clean line of a core's L1 becomes invalid (R267). -/
def cleanL1 (core : Nat) (s : State) : State :=
  let c := coreOf s core
  putCore s { c with l1 := c.l1.filter (fun e => e.mask != 0) }

/-- The lines that a core's outstanding-miss registers still wait for: those whose reads no B-die has answered (R268). -/
def missesNow (s : State) (c : Core) : List Nat := c.misses.filter (fun l => s.packets.any (fun p => p.pa == l * 64 && p.kind == .rd))

/-- A miss of a core takes a register. -/
def noteMiss (core line : Nat) (s : State) : State :=
  let c := coreOf s core
  let out := missesNow s c
  putCore s { c with misses := if s.packets.any (fun p => p.pa == line * 64 && p.kind == .rd) then insertNat out line else out }

/-- A line is used in a core's L1, with the bytes that become dirty: its superblock becomes the most recent of its set; where it is missing it is allocated, in
place of the least recent of eight, and the missing line is fetched from L2 (R266). -/
def l1Use (core : Nat) (mask : DWord) (s : State) (line : Nat) : State :=
  let c := coreOf s core
  let sb := line / 4
  let mine := c.l1.filter (fun e => e.line / 4 == sb)
  let others := c.l1.filter (fun e => e.line / 4 != sb)
  if mine.any (fun e => e.line == line) then
    putCore s { c with l1 := others ++ mine.map (fun e => if e.line == line then { e with mask := e.mask ||| mask } else e) }
  else
    let supers := (others.filter (fun e => e.line / 4 % 64 == sb % 64)).foldl (fun a e => insertNat a (e.line / 4)) []
    let victim := if mine.isEmpty && decide (8 ≤ supers.length) then supers.head? else none
    let isVictim := fun (e : L1Line) => some (e.line / 4) == victim
    let s1 := putCore s { c with l1 := others.filter (fun e => !isVictim e) ++ mine ++ [⟨line, mask⟩] }
    let s2 := (others.filter (fun e => isVictim e && e.mask != 0)).foldl (fun a e => l2Use (corePart a core) e.mask a e.line) s1
    noteMiss core line (l2Use (corePart s2 core) 0 s2 line)

/-- The bytes of a line that n bytes from an address up are. -/
def byteMask (a n : Nat) : DWord := BitVec.ofNat 64 ((2 ^ n - 1) * 2 ^ (a % 64))

/-- The lines that some accesses touch, with the bytes that n written bytes at each make dirty. -/
def linesOf (n : Nat) (locs : List (Nat × Space × Nat)) : List (Nat × DWord) :=
  locs.foldl (fun acc l => match lineTag l.2.1 l.2.2 with
    | none => acc
    | some line => let m := byteMask l.2.2 n
      if acc.any (fun e => e.1 == line) then updWhere (fun e => e.1 == line) (fun e => (e.1, e.2 ||| m)) acc else acc ++ [(line, m)]) []

/-- Accesses of an instruction to global memory, which write n bytes each, or none (R266, R268): a `.nt` access that misses L1 is served from L2. -/
def cacheUse (core : Nat) (nt : Bool) (n : Nat) (s : State) (locs : List (Nat × Space × Nat)) : State :=
  (linesOf n locs).foldl (fun a e =>
    if nt && !(coreOf a core).l1.any (fun x => x.line == e.1) then l2Use (corePart a core) e.2 a e.1 else l1Use core e.2 a e.1) s

/-- A bulk transfer fetches every line of each superblock that it touches (R266). -/
def bulkUse (core : Nat) (n : Nat) (s : State) (locs : List (Nat × Space × Nat)) : State :=
  let ls := linesOf n locs
  let sbs := ls.foldl (fun a l => insertNat a (l.1 / 4)) []
  let s1 := sbs.foldl (fun a sb => (List.range 4).foldl (fun b k => l1Use core 0 b (4 * sb + k)) a) s
  if n = 0 then s1 else ls.foldl (fun a e => l1Use core e.2 a e.1) s1

/-- An atomic at L2: the core's dirty bytes of the line are written back, and the line is used in its slice (R267, R286). -/
def atomicUse (core : Nat) (s : State) (e : Nat × DWord) : State := l2Use (corePart s core) e.2 (writeBackL1 core (fun l => l == e.1) s) e.1

/-- The home atomic of an operation leaves its core (R267, R286). -/
def homeUse (core oid : Nat) (s : State) (e : Nat × DWord) : State := l2Home (corePart s core) oid (writeBackL1 core (fun l => l == e.1) s) e.1

/-- A release wider than team writes back the core's dirty lines; at sys scope the dirty host-homed lines of the L2 slices follow them (R267, R288). -/
def releaseL1 (core : Nat) (sc : ScopeSet) (s : State) : State :=
  if !wide sc then s
  else
    let s1 := writeBackL1 core (fun _ => true) s
    if sc.scope = .sys then { s1 with l2lines := s1.l2lines.map (fun e => if hostTag ≤ e.line then { e with mask := 0 } else e) } else s1

/-- An acquire wider than team drops the core's clean lines; at sys scope the clean host-homed lines of the L2 slices too (R267, R288). -/
def acquireL1 (core : Nat) (sc : ScopeSet) (s : State) : State :=
  if !wide sc then s
  else
    let s1 := cleanL1 core s
    if sc.scope = .sys then { s1 with l2lines := s1.l2lines.filter (fun e => !(decide (hostTag ≤ e.line) && e.mask == 0 && !e.away)) } else s1

end Sys2Proof.Machine
end

