-- ==== Sys2Proof/Machine/IntArith.lean ====
section
/-! DEFINITION. Integer arithmetic on element patterns (R54-R59, R122-R125, R133, R179). An element of width w is a number below 2^w. -/

namespace Sys2Proof.Machine

/-- Element width in bits (R90). -/
def intWidth : IntTy → Nat
  | .i32 | .n32 => 32
  | .i16 | .n16 => 16
  | .i8 | .n8 => 8
  | .i64 | .n64 => 64

/-- Signed element type (R4). -/
def intSigned : IntTy → Bool
  | .i32 | .i16 | .i8 | .i64 => true
  | _ => false

/-- The element occupies a pair of registers (R54). -/
def intWide (t : IntTy) : Bool := intWidth t == 64

/-- Element width of scheme W (R91). -/
def wWidth : WTy → Nat
  | .w32 => 32 | .w16 => 16 | .w8 => 8 | .w64 => 64

/-- The integer an element stands for (R4). -/
def intVal (sg : Bool) (w x : Nat) : Int := if sg then signed w x else (x % 2 ^ w : Nat)

/-- The least value of an element type (R55). -/
def intMin (sg : Bool) (w : Nat) : Int := if sg then -((2 ^ (w - 1) : Nat) : Int) else 0

/-- The greatest value of an element type (R55). -/
def intMax (sg : Bool) (w : Nat) : Int := if sg then ((2 ^ (w - 1) : Nat) : Int) - 1 else ((2 ^ w : Nat) : Int) - 1

/-- Clamp to the range of the element type (R55). -/
def clampTo (sg : Bool) (w : Nat) (z : Int) : Int :=
  if z < intMin sg w then intMin sg w else if intMax sg w < z then intMax sg w else z

/-- Narrow an exact result: wrap, or clamp with .sat (R55). -/
def narrow (sg sat : Bool) (w : Nat) (z : Int) : Nat := wrapTo w (if sat then clampTo sg w z else z)

/-- Sub-element j of width w of a register pattern (R57). -/
def subElem (w j x : Nat) : Nat := field x (w * j) w

/-- A register pattern of n sub-elements of width w (R57). -/
def joinElems (w n : Nat) (f : Nat → Nat) : Nat := (List.range n).foldl (fun acc j => acc + f j % 2 ^ w * 2 ^ (w * j)) 0

/-- Number of sub-elements of width w in the operand: one of 64 bits in a pair, else as many as fill 32 bits (R57, R90). -/
def elemCount (w : Nat) : Nat := if w = 64 then 1 else 32 / w

/-- A two-operand element function applied to every sub-element (R57). -/
def mapElems2 (w : Nat) (f : Nat → Nat → Nat) (x y : Nat) : Nat :=
  joinElems w (elemCount w) (fun j => f (subElem w j x) (subElem w j y))

/-- A one-operand element function applied to every sub-element (R57). -/
def mapElems1 (w : Nat) (f : Nat → Nat) (x : Nat) : Nat := joinElems w (elemCount w) (fun j => f (subElem w j x))

/-- ADD, SUB, MUL of one element (R122). -/
def elAdd (t : IntTy) (sat : Bool) (x y : Nat) : Nat :=
  narrow (intSigned t) sat (intWidth t) (intVal (intSigned t) (intWidth t) x + intVal (intSigned t) (intWidth t) y)
def elSub (t : IntTy) (sat : Bool) (x y : Nat) : Nat :=
  narrow (intSigned t) sat (intWidth t) (intVal (intSigned t) (intWidth t) x - intVal (intSigned t) (intWidth t) y)
def elMul (t : IntTy) (sat : Bool) (x y : Nat) : Nat :=
  narrow (intSigned t) sat (intWidth t) (intVal (intSigned t) (intWidth t) x * intVal (intSigned t) (intWidth t) y)

/-- ADDK of one element: the immediate is an integer, wrapped to the element or clamped after the exact sum (R121, R122).
The immediate is sign-extended and reduced modulo 2^w, so an n type reads it as an unsigned element (R104). -/
def elAddk (t : IntTy) (sat : Bool) (k : Int) (x : Nat) : Nat := elAdd t sat x (wrapTo (intWidth t) k)

/-- MULH: bits [63:32] of the exact product (R55, R122). -/
def elMulh (uns : Bool) (x y : Nat) : Nat := wrapTo 32 (intVal (!uns) 32 x * intVal (!uns) 32 y / (2 ^ 32 : Nat))

/-- MAD: wrap(a × b + c) (R122). -/
def elMad (t : IntTy) (x y z : Nat) : Nat :=
  wrapTo (intWidth t) (intVal (intSigned t) (intWidth t) x * intVal (intSigned t) (intWidth t) y + intVal (intSigned t) (intWidth t) z)

/-- NEG and ABS of one element (R55, R122). -/
def elNeg (t : IntTy) (sat : Bool) (x : Nat) : Nat := narrow (intSigned t) sat (intWidth t) (-(intVal (intSigned t) (intWidth t) x))
def elAbs (t : IntTy) (sat : Bool) (x : Nat) : Nat :=
  narrow (intSigned t) sat (intWidth t) (let v := intVal (intSigned t) (intWidth t) x; if v < 0 then -v else v)

/-- MIN and MAX by the order of the type (R122). -/
def elMin (t : IntTy) (x y : Nat) : Nat := if intVal (intSigned t) (intWidth t) y < intVal (intSigned t) (intWidth t) x then y else x
def elMax (t : IntTy) (x y : Nat) : Nat := if intVal (intSigned t) (intWidth t) x < intVal (intSigned t) (intWidth t) y then y else x

/-- DIV: truncation toward zero, with the edge cases of R56. -/
def elDiv (t : IntTy) (sat : Bool) (x y : Nat) : Nat :=
  let w := intWidth t
  let b := intVal (intSigned t) w y
  if b = 0 then wrapTo w (-1) else narrow (intSigned t) sat w ((intVal (intSigned t) w x).tdiv b)

/-- REM: the sign of the dividend; a zero divisor gives the dividend (R56). -/
def elRem (t : IntTy) (x y : Nat) : Nat :=
  let w := intWidth t
  let b := intVal (intSigned t) w y
  if b = 0 then x % 2 ^ w else wrapTo w ((intVal (intSigned t) w x).tmod b)

/-- The shifts of R58. -/
def shiftLeft (w x n : Nat) : Nat := if w ≤ n then 0 else x * 2 ^ n % 2 ^ w
def shiftRightLogical (w x n : Nat) : Nat := if w ≤ n then 0 else x % 2 ^ w / 2 ^ n
def shiftRightArith (w x n : Nat) : Nat :=
  if w ≤ n then (if signed w x < 0 then 2 ^ w - 1 else 0) else wrapTo w (signed w x / ((2 ^ n : Nat) : Int))
def rotateLeft (w x n : Nat) : Nat :=
  let k := n % w
  (x % 2 ^ w * 2 ^ k % 2 ^ w) ||| (x % 2 ^ w / 2 ^ (w - k))

/-- Leading zero bits, w for 0 (R124). -/
def elClz (w x : Nat) : Nat := if x % 2 ^ w = 0 then w else w - 1 - (x % 2 ^ w).log2

/-- Number of one bits (R124). -/
def elPopc (w x : Nat) : Nat := (List.range w).countP (fun k => bitOf x k)

/-- Bit reversal (R124). -/
def elBrev (w x : Nat) : Nat := (List.range w).foldl (fun acc k => acc + bit (bitOf x k) * 2 ^ (w - 1 - k)) 0

/-- BEXT (R125). -/
def bext (x pos len : Nat) : Nat := if 32 ≤ pos ∨ len = 0 then 0 else x / 2 ^ pos % 2 ^ (min len 32)

/-- BINS (R125). -/
def bins (base x pos len : Nat) : Nat :=
  if 32 ≤ pos ∨ len = 0 then base
  else
    let n := min len (32 - pos)
    base - field base pos n * 2 ^ pos + x % 2 ^ n * 2 ^ pos

/-- DP4 (R133). -/
def dp4 (uns : Bool) (x y z : Nat) : Nat :=
  wrapTo 32 ((List.range 4).foldl (fun s j => s + intVal (!uns) 8 (subElem 8 j x) * intVal (!uns) 8 (subElem 8 j y)) ((z : Nat) : Int))

/-- The truth of a condition on two integers (R59, R93). -/
def condHolds (c : Cond) (x y : Int) : Bool :=
  match c with
  | .eq => decide (x = y) | .ne => decide (x ≠ y) | .lt => decide (x < y) | .ge => decide (y ≤ x)

/-- Compare type: width and signedness (R93). -/
def ciWidth : CiTy → Nat
  | .i32 | .n32 => 32 | .i64 | .n64 => 64
def ciSigned : CiTy → Bool
  | .i32 | .i64 => true | .n32 | .n64 => false

/-- CMP of two patterns (R127). -/
def cmpInt (c : Cond) (t : CiTy) (x y : Nat) : Bool := condHolds c (intVal (ciSigned t) (ciWidth t) x) (intVal (ciSigned t) (ciWidth t) y)

/-- The operations of AT and ATS: the new value from the old value and b (R179). -/
def atNew (o : AtOp) (old b : Word) : Word :=
  match o with
  | .add => old + b | .and => old &&& b | .or => old ||| b | .xor => old ^^^ b
  | .min => if b.toInt < old.toInt then b else old
  | .max => if old.toInt < b.toInt then b else old
  | .swap => b

end Sys2Proof.Machine
end

