-- ==== Sys2Proof/Machine/Perform.lean ====
section
/-! DEFINITION. The performing of what an instruction has left outstanding: loads, home atomics and stores, in the order that the rules give one index
(R163, R169, R180 to R182, R249 to R251, R257, R286, R308). -/

namespace Sys2Proof.Machine

/-- A release by events wider than team: the buffered members of the set drain first, and the core's dirty lines are written back (R250, R260, R267). -/
def publish (s : State) (core : Nat) (r : RelRec) : State := if wide r.scope then releaseL1 core r.scope (drainThese s core r.set) else s

/-! ### Loads (R168, R251) -/

/-- Sign or zero extension of a loaded value to register words (R168). -/
def extendLoad (size : Nat) (sx : Bool) (bs : List Byte) : List Word :=
  let x := ofBytes bs
  if 4 ≤ size then splitWords (size / 4) x
  else if sx then [BitVec.ofNat 32 (wrapTo 32 (signed (8 * size) x))] else [BitVec.ofNat 32 x]

/-- Words found for an index, from place k on, beside those it has (R163). -/
def putWords (k : Nat) (ws : List Word) (vals : List (Nat × List Word)) (i : Nat) : List (Nat × List Word) :=
  let old := (alookup vals i).getD []
  let row := (List.range (max (k + ws.length) old.length)).map (fun j => if k ≤ j && decide (j < k + ws.length) then nth ws (j - k) 0 else nth old j 0)
  if vals.any (fun e => e.1 == i) then updWhere (fun e => e.1 == i) (fun e => (e.1, row)) vals else vals ++ [(i, row)]

/-- The team of an index of an operation at this step: that of the strand that holds it (R408). -/
def teamNow (s : State) (o : Op) (i : Nat) : Option Nat :=
  match s.strands.find? (fun t => t.lk == o.lk && (present t).contains i) with
  | some t => t.team
  | none => o.team

/-- A scope as an index of an operation has it at this step (R408). -/
def scopeNow (s : State) (o : Op) (i : Nat) (sc : Scope) : ScopeSet := scopeAt s o.lk (teamNow s o i) o.core sc

/-- The cores on which indices of an operation are at this step. -/
def coresNow (s : State) (o : Op) : List Nat := ((s.strands.filter (fun t => t.lk == o.lk && (present t).any o.idxs.contains)).map (fun t => t.core)).foldl insertNat [o.core]

/-- The acquire of an LDA by each of its indices, at the step of its read (R171, R252, R254, R408), which drops the core's clean lines (R267). -/
def acquireTodo (s : State) (o : Op) (t : LoadTodo) (from_ : List Nat) : State :=
  match t.acq with
  | none => s
  | some sc => t.idxs.foldl (fun a i =>
      let S := scopeNow a o i sc
      acquireL1 o.core S (acquireAll (passBy a o.lk i S t.space t.addr t.size) o.lk [i] S from_)) s

/-- Perform one outstanding load of an operation. -/
def performTodo (s : State) (o : Op) (t : LoadTodo) : State :=
  let (r, s0) := performLoad s o.lk o.core t.idxs t.space t.addr t.size
  let s1 := acquireTodo s0 o t r.from_
  let ws := extendLoad t.size t.sext r.bytes
  updOp s1 o.oid (fun o => match o.body with
    | .result d n vals ps ls am pu p =>
      { o with body := .result d n (t.idxs.foldl (putWords t.word ws) vals) (if r.pois then ps ++ t.idxs else ps) (ls.filter (fun x => x != t)) am pu p }
    | _ => o)

/-- The pieces of 8 bytes of a DLD that are left to load (R163, R198). -/
def dldLeft (o : Op) : List LoadTodo :=
  match o.body with
  | .dld _ sp a _ got => ((List.range 8).filter (fun k => (alookup got k).isNone)).map (fun k => ⟨o.idxs, sp, a + 8 * k, 8, false, k, none⟩)
  | _ => []

/-- Perform one load of a DLD (R198). -/
def performPiece (s : State) (o : Op) (t : LoadTodo) : State :=
  let (r, s1) := performLoad s o.lk o.core t.idxs t.space t.addr t.size
  updOp s1 o.oid (fun o => match o.body with | .dld d sp a va got => { o with body := .dld d sp a va (ainsert got t.word (r.bytes, r.pois)) } | _ => o)

/-- The record that a DLD has loaded, with its poison, once it has all of it. -/
def dldRecord (o : Op) : Option (LayoutBits × Bool) :=
  match o.body with
  | .dld _ _ _ _ got =>
    ((List.range 8).mapM (fun k => alookup got k)).map (fun ps => (BitVec.ofNat 512 (ofBytes (ps.flatMap (fun p => p.1))), ps.any (fun p => p.2)))
  | _ => none

/-- Perform those loads of an operation that satisfy p. -/
def performLoadsOf (s : State) (p : LoadTodo → Bool) (oid : Nat) : State :=
  match opOf s oid with
  | none => s
  | some o => match o.body with
    | .result _ _ _ _ ls _ _ _ => (ls.filter p).foldl (fun a t => performTodo a o t) s
    | .dld .. => ((dldLeft o).filter p).foldl (fun a t => performPiece a o t) s
    | _ => s

/-! ### Atomics (R179 to R182, R257, R286) -/

/-- What an atomic writes, if it writes (R179, R182). -/
def atWrite (k : AtKind) (b c old : Word) : Option Word :=
  match k with
  | .op o => some (atNew o old b)
  | .cas => if old = b then some c else none
  | .atc => some (old + c)

/-- Perform atomics in ascending index order (R180, R257): the old values and their poison. -/
def performAts (s : State) (lk core : Nat) (k : AtKind) (ts : List AtTodo) : List (Nat × List Word) × List Nat × State :=
  ts.foldl (fun acc t =>
    let (old, p, s1) := atomicStep acc.2.2 lk core t.idx t.space t.addr (atWrite k t.b t.c)
    (acc.1 ++ [(t.idx, [old])], if p then acc.2.1 ++ [t.idx] else acc.2.1, s1)) ([], [], s)

/-- The entries of the continuation queues that an ATC has filled (R308). -/
def contLeft (s : State) (oid : Nat) : Bool := s.bdies.any (fun b => b.contq.any (fun e => e.oid == oid))

/-- One ATC at its home: refused while all 2048 entries hold something, else performed, with a release at device scope; the entry is filled
where the compare succeeds (R182, R184, R260). Answers whether it was refused. On a poisoned word nothing is compared: the sum stays poisoned, the entry is freed, and the ATC has an
attributed report (R372, R388; DEDUCED, log 112). -/
def atcAtHome (s : State) (o : Op) (t : AtTodo) : Bool × State :=
  let home := (homeOf t.addr).1
  if 2048 ≤ (bdieOf s home).contq.length then (true, s)
  else
    let r : RelRec := ⟨obsOf s o.lk t.idx, scopeAt s o.lk o.team o.core .dev⟩
    let s1 := publish s o.core r
    let (old, sick, s2) := atomicStep s1 o.lk o.core t.idx t.space t.addr (fun v => some (v + t.c))
    if sick then
      (false, updOp s2 o.oid (fun x => { x with faults := x.faults ++ [{ Report.blank with
        cls := 2, kind := 15, cause := 2, launch := launchId s o.lk, tsize := tsizeOf s o.lk, pc := o.pc.toNat, addr := t.va }] }))
    else if old = t.b then
      let all := (s2.stores.filter (fun e => e.buf.isNone)).map (fun e => e.id)
      let b := bdieOf s2 home
      (false, putBdie s2 { b with contq := b.contq ++ [⟨ctxOfLaunch s o.lk, t.task, old, t.arg, o.pc.toNat, o.oid, t.va, s.time, all.foldl insertNat r.set⟩] })
    else (false, s2)

/-- Perform those atomics of an operation that satisfy p; the statuses of an ATC are complete with the last (R182). -/
def performAtoms (s : State) (oid : Nat) (p : AtTodo → Bool) : State :=
  match opOf s oid with
  | none => s
  | some o => match o.body with
    | .result d n vals ps ls (some (k, ts)) pu pushes =>
      let left := ts.filter (fun t => !p t)
      if k = .atc then
        let r := (ts.filter p).foldl (fun (acc : List (Nat × Bool) × State) t =>
          let (refused, a) := atcAtHome acc.2 o t
          (acc.1 ++ [(t.idx, refused)], a)) (pu, s)
        updOp r.2 oid (fun o => { o with body := if left.isEmpty then .cont (some r.1) else .result d n vals ps ls (some (k, left)) r.1 pushes })
      else
        let (vs, qs, s1) := performAts s o.lk o.core k (ts.filter p)
        updOp s1 oid (fun o => { o with body := .result d n (vals ++ vs) (ps ++ qs) ls (if left.isEmpty then none else some (k, left)) pu pushes })
    | _ => s

/-- The lines that some atomics of global memory name, with the words of them that they write. -/
def atomLines (ts : List AtTodo) : List (Nat × DWord) := linesOf 4 (ts.map (fun t => (t.idx, t.space, t.addr)))

/-! ### Packets (R274, R275, R286) -/

/-- A B-die serves a packet; one with atomics performs those of its line, and its reply brings the line back. -/
def serve (s : State) (p : Packet) : State :=
  match p.kind with
  | .atom oid _ => l2Back p.slice (closePacket (performAtoms s oid (fun t => t.space == .dev && t.addr / 64 == p.pa / 64)) p) (p.pa / 64)
  | _ => servePacket s p

/-- Packets on their way, and requests that wait behind lines that are away. -/
def inFlight (s : State) : Nat := s.packets.length + s.l2lines.foldl (fun a e => a + e.queue.length) 0

/-- The packet itself, or, where it is held back for want of a tag, one of its source's that is there, whose reply frees a tag (R274). -/
def sentBefore (s : State) (p : Packet) : Packet :=
  if p.tag.isSome then p
  else (s.packets.find? (fun x => x.slice == p.slice && (homeOf x.pa).1 == (homeOf p.pa).1 && servable s x)).getD p

/-- Serve the packets of a line in their order, within fuel, those of a whole unit after what came before them at its other lines; one that has no tag waits for the reply to another (R274,
R275). -/
def settleLine (pa : Nat) : Nat → State → State
  | 0, s => s
  | k + 1, s => match s.packets.find? (fun p => p.lines.contains (pa / 64)) with
    | none => s
    | some p => settleLine pa k (serve s (sentBefore s ((oldestWith s p).getD p)))

/-- What a load returns has been read: every packet of its line that came before it is served (R275, R278). -/
def settleAt (s : State) (sp : Space) (a : Nat) : State := if sp = .dev then settleLine (a / 64 * 64) (inFlight s) s else s

/-- Every packet on its way is served. -/
def settlePackets (s : State) : State := (List.range (inFlight s)).foldl (fun a _ => match a.packets.head? with | some p => serve a (sentBefore a p) | none => a) s

/-- The home atomics of an operation are performed: what came before them at their lines first, then they (R169, R249). -/
def forceAtoms (s : State) (oid : Nat) : State :=
  match opOf s oid with
  | some o => (match o.body with
    | .result _ _ _ _ _ (some (_, ts)) _ _ => performAtoms (ts.foldl (fun a t => settleAt a t.space t.addr) s) oid (fun _ => true)
    | _ => s)
  | none => s

/-- The atomics of an operation that no B-die performs: each location's are performed together (R180). -/
def performOwn (s : State) (oid : Nat) : State :=
  match opOf s oid with
  | some o => (match o.body with
    | .result _ _ _ _ _ (some (_, ts)) _ _ => if ts.all (fun t => t.home) then s else performAtoms ((ts.filter (fun t => !t.home)).foldl (fun a t => settleAt a t.space t.addr) s) oid (fun t => !t.home)
    | _ => s)
  | none => s

/-! ### Stores (R169, R171, R249) -/

/-- A store that was left enters its core's buffer: it carries the record of its highest index, or that index's release; the release of each index of an STL becomes
the index's record (DEDUCED, log 15). -/
def enterTodo (s : State) (o : Op) (t : StoreTodo) : State :=
  let rel := match t.release with
    | none => relOf s o.lk (t.idxs.getLastD 0)
    | some sc => some ⟨obsOf s o.lk (t.idxs.getLastD 0), scopeNow s o (t.idxs.getLastD 0) sc⟩
  let s1 := enterAt (match t.release with | some sc => releaseL1 o.core (scopeNow s o (t.idxs.getLastD 0) sc) s | none => s) o.lk o.core t.idxs t.space t.addr t.bytes false rel
  let s2 := match t.release with
    | none => s1
    | some sc => t.idxs.foldl (fun a i => setRel a o.lk i ⟨obsOf s o.lk i, scopeNow s o i sc⟩) s1
  updOp s2 o.oid (fun o => match o.body with | .stores left => { o with body := .stores (left.filter (fun x => x != t)) } | _ => o)

/-- Of the stores of an instruction, those that may enter next: where two meet, the earlier, of a lower index, is first (R169). -/
def enterable : List StoreTodo → List StoreTodo
  | [] => []
  | t :: r => t :: (enterable r).filter (fun x => !(x.space == t.space && decide (x.addr < t.addr + t.bytes.length) && decide (t.addr < x.addr + x.bytes.length)))

/-! ### In the order of an index (R249, R251) -/

/-- The scope of a granule's setting or acquire, for an index of a team: team for the own scratchpad, gang for a sibling's (R178, R258). -/
def granScope (own : Option Nat) (team : Nat) : Scope := if own = some team then .team else .gang

def granFull (s : State) (lk team g : Nat) : Bool := ((teamOf s lk team).map (fun t => t.full.contains g)).getD false
def setFull (s : State) (lk team g : Nat) (full : Bool) : State :=
  updTeam s lk team (fun t => { t with full := if full then insertNat t.full g else t.full.filter (fun x => x != g) })

/-- Set a granule full with the release record of its setting (R258). -/
def fillGranule (s : State) (lk team g : Nat) (w : Writer) (r : RelRec) : State :=
  { setFull s lk team g true with gsets := ⟨lk, team, g, w, r⟩ :: s.gsets.filter (fun x => !(x.lk == lk && x.team == team && x.gran == g)) }

/-- Indices fill a granule on a core, with the record of every one of them; the release goes before, where its scope is wider than team (R177, R250, R258). -/
def fillBy (s : State) (lk core : Nat) (own : Option Nat) (is : List Nat) (team g : Nat) : State :=
  let r : RelRec := ⟨obsUnion s lk is, scopeAt s lk own core (granScope own team)⟩
  fillGranule (publish s core r) lk team g (.index lk (is.getLastD 0)) r

/-- Make one setting of an operation (R258). -/
def performSet (s : State) (o : Op) (t : SetTodo) : State :=
  updOp (fillBy s o.lk o.core o.team t.idxs t.team t.gran) o.oid (fun o => { o with sets := o.sets.filter (fun x => x != t) })

/-- Two sets of indices meet. -/
def meet (xs ys : List Nat) : Bool := xs.any ys.contains

/-- With some indices go those that share with them a store or a setting that is left, from the newest operation down. -/
def sharers (os : List Op) (is : List Nat) : List Nat :=
  os.foldr (fun o is => match o.body with
    | .stores left => (left.map (fun t => t.idxs) ++ o.sets.map (fun t => t.idxs)).foldl (fun a is => if meet is a then is.foldl insertNat a else a) is
    | _ => is) is

/-- Perform, of one operation, what is left of some indices. -/
def performOp (is : List Nat) (s : State) (oid : Nat) : State :=
  match opOf s oid with
  | none => s
  | some o => match o.body with
    | .stores left =>
      let s1 := (left.filter (fun t => meet t.idxs is)).foldl (fun a t => enterTodo a o t) s
      (o.sets.filter (fun t => meet t.idxs is)).foldl (fun a t => performSet a o t) s1
    | .result _ _ _ _ _ (some (_, ts)) _ _ => if ts.any (fun t => is.contains t.idx) then forceAtoms s oid else s
    | _ => performLoadsOf s (fun t => meet t.idxs is) oid

/-- Operations of a launch before one of them that some indices still have a part in, oldest first. -/
def opsBefore (s : State) (lk bound : Nat) (is : List Nat) : List Op :=
  s.ops.filter (fun o => o.lk == lk && decide (o.oid < bound) && !o.done && meet o.idxs is)

/-- Everything of some indices of a launch that comes before an operation is performed (R249, R251, R255). -/
def performFor (s : State) (lk : Nat) (is : List Nat) (bound : Nat) : State :=
  let all := sharers (s.ops.filter (fun o => o.lk == lk && decide (o.oid < bound))) is
  ((opsBefore s lk bound all).map (fun o => o.oid)).foldl (performOp all) s

/-- Perform all that a strand has outstanding before an access that must follow it. -/
def performLoads (s : State) (st : Strand) : State := if st.ops.isEmpty then s else performFor s st.lk (present st) s.nextId

/-- The stores and atomics of a strand that are left enter before an instruction that must come after them, each in the order of its indices (R208, R214, R259). -/
def performStores (s : State) (st : Strand) : State :=
  let left := s.ops.filter (fun o => o.lk == st.lk && !o.done && meet o.idxs (present st) && (match o.body with
    | .stores l => !l.isEmpty || !o.sets.isEmpty
    | .result _ _ _ _ _ am _ _ => am.isSome
    | _ => false))
  match left.getLast? with
  | some o => performFor s st.lk (present st) (o.oid + 1)
  | none => s

/-- Whether an operation has left, of one of the indices, a store or an atomic that meets a location, or an acquire, which orders every later access (R252). -/
def writesAt (sp : Space) (a n : Nat) (is : List Nat) (o : Op) : Bool :=
  match o.body with
  | .stores left => left.any (fun t => t.space == sp && decide (a < t.addr + t.bytes.length) && decide (t.addr < a + n) && meet t.idxs is)
  | .result _ _ _ _ _ (some (_, ts)) _ _ => ts.any (fun t => t.space == sp && decide (a < t.addr + 4) && decide (t.addr < a + n) && is.contains t.idx)
  | .result _ _ _ _ ls none _ _ => ls.any (fun t => t.acq.isSome && meet t.idxs is)
  | _ => false

/-- Before a load: the earlier accesses of the same location by the same index (R169, R251). -/
def performSame (s : State) (lk : Nat) (sp : Space) (a n : Nat) (is : List Nat) : State :=
  let os := s.ops.filter (fun o => o.lk == lk && !o.done && meet o.idxs is)
  if os.any (writesAt sp a n is) then performFor s lk is s.nextId
  else (os.map (fun o => o.oid)).foldl (performLoadsOf · (fun t => t.space == sp && decide (a < t.addr + t.size) && decide (t.addr < a + n) && meet t.idxs is)) s

end Sys2Proof.Machine
end

