-- ==== Sys2Proof/Machine/Join.lean ====
section
/-! DEFINITION. Merging, retirement, barriers, and the delivery of attributed faults (R45 to R50, R150, R153 to R156, R241, R243, R303,
R373, R407). -/

namespace Sys2Proof.Machine

/-! ### Merging (R48, R50, R241) -/

/-- The value of each merged index, from the member that holds it. -/
def mergeVals {α : Type} (dflt : α) (ia : List Nat) (xa : List α) (ib : List Nat) (xb : List α) (p : List Nat) : List α :=
  p.map (fun i => match alookup (ia.zip xa) i with
    | some v => v
    | none => (alookup (ib.zip xb) i).getD dflt)

/-- Ascending union of two disjoint ascending lists. -/
def mergeIdx : List Nat → List Nat → List Nat
  | [], ys => ys
  | xs, [] => xs
  | x :: xs, ys => if ys.all (fun y => decide (x < y)) then x :: mergeIdx xs ys else (ys.filter (fun y => decide (y < x))) ++ x :: mergeIdx xs (ys.filter (fun y => decide (x < y)))
termination_by structural xs => xs

/-- The later view of a slot (R407). -/
def laterView (a b : Word × Nat) : Word × Nat := if a.2 < b.2 then b else a

/-- The greater of the members' latches, or the one that is set (R227). -/
def mergeLatch : Option Word → Option Word → Option Word
  | none, y => y
  | x, none => x
  | some x, some y => some (if x.toNat ≤ y.toNat then y else x)

/-- Outcome of an attempt to merge: the merged strand; a failure (R49); a placement cut first (R241). -/
inductive MergeRes where
  | ok (st : Strand)
  | fail
  | cut
  deriving DecidableEq, Repr

/-- The presence of two strands may be joined: in one window, or adjacent with no gap (R48). -/
def joinable (a b : Strand) : Bool :=
  let p := mergeIdx (present a) (present b)
  oneWindow p || (contiguous p && decide ((present a).getLastD 0 + 1 = (present b).headD 0))

/-- try_merge of R48. live: the v registers merged; the others become undefined U values with this seed, or, with none, the registers of
both are all live (R50). Members before placement whose joined presence has a gap take the placement cut as those whose values need X do, since a strand before its cut has
contiguous presence (R26, R40; DEDUCED, log 86). -/
def tryMerge (budget : Nat) (live : List Nat) (seed : Option Nat) (a b : Strand) : MergeRes :=
  let ia := present a
  let ib := present b
  let p := mergeIdx ia ib
  if !joinable a b || a.team != b.team || a.enrol != b.enrol || a.walks != b.walks || a.calls != b.calls then .fail
  else
    let rs := live.map (fun r => (r, classifyV p (mergeVals 0 ia (regVals a r) ib (regVals b r) p)))
    let qs := (List.range 8).map (fun k => classifyQ p (mergeVals false ia (qVals a k) ib (qVals b k) p))
    let needX := rs.any (fun e => isXV e.2) || qs.any isXQ
    if (needX || !contiguous p) && a.team.isNone then .cut
    else if needX && !oneWindow p then .fail
    else if rs.any (fun e => isXV e.2 && decide (budget ≤ e.1)) then .fail
    else
      let lo := p.headD 0
      .ok (evenPoison (settleMask p { a with
        first := lo, count := p.getLastD 0 + 1 - lo
        stamp := if a.stamp ≤ b.stamp then a.stamp else b.stamp
        regs := rs.foldl (fun acc e => ainsert acc e.1 e.2) []
        undef := seed
        poison := (wholePoison a ++ wholePoison b).filter (fun e => live.contains e.1)
        origin := a.origin ++ b.origin
        dirty := none
        qs := qs
        ops := b.ops.foldl insertNat a.ops
        latch := mergeLatch a.latch b.latch
        views := (a.views.zip b.views).map (fun e => laterView e.1 e.2)
        tileIssued := b.tileIssued.foldl insertNat a.tileIssued
        copied := b.copied.foldl insertNat a.copied
        benched := false, urgent := a.urgent || b.urgent
        stepping := a.stepping || b.stepping }))

/-- merge_group of R48 over members in ascending order of first: the strands that go on, or none where the cut of R241 comes first. -/
def mergeGroup (budget : Nat) (live : List Nat) (seed : Option Nat) : Strand → List Strand → Option (List Strand)
  | cur, [] => some [cur]
  | cur, s :: rest =>
    match tryMerge budget live seed cur s with
    | .ok m => mergeGroup budget live seed m rest
    | .fail => (mergeGroup budget live seed s rest).map (fun r => cur :: r)
    | .cut => none

/-- Insert a strand in ascending order of its first index. -/
def insertByFirst (st : Strand) : List Strand → List Strand
  | [] => [st]
  | x :: xs => if st.first ≤ x.first then st :: x :: xs else x :: insertByFirst st xs
def sortByFirst (xs : List Strand) : List Strand := xs.foldr insertByFirst []

/-! ### Delivery of attributed faults (R156, R373, R378) -/

/-- The indices that a report of a strand names: the present ones, or those that its EXIT has retired (R150). -/
def namedBy (st : Strand) : List Nat := if st.husk.isEmpty then present st else st.husk

/-- The undelivered faults of finished operations in the strand's set, oldest by issue first (R156). -/
def undelivered (s : State) (st : Strand) : List Op := s.ops.filter (fun o => st.ops.contains o.oid && o.done && !o.faults.isEmpty)

/-- Forget finished operations: they leave every set that holds them (R155). -/
def dropOps (s : State) (ids : List Nat) : State :=
  wakeStalls { s with
    ops := s.ops.filter (fun o => !ids.contains o.oid)
    strands := s.strands.map (fun t => if t.ops.any ids.contains then { t with ops := t.ops.filter (fun o => !ids.contains o) } else t) }

/-- Deliver faults at an observing instruction: one stop for the strand, one report for each fault (R156, R373, R378). -/
def deliver (s : State) (st : Strand) (os : List Op) (after : After) : State :=
  let rs := os.flatMap (fun o => o.faults.flatMap (fun r => withNames { r with opc := st.pc.toNat } (namedBy st)))
  let k := ((os.flatMap (fun o => o.faults)).head?).getD Report.blank
  raiseStop (dropOps s (os.map (fun o => o.oid))) st.lk [st.sid] k.kind k.cause 2 (match after with | .advance n => n | .moult _ _ n => n | .exit => 8) after rs

/-- The status word of a tile: RW in [0], TAG in [3:1], NAR in [4] (R210). -/
def statusWord (t : Tile) : Word := BitVec.ofNat 32 (pack [(0, bit t.rw), (1, t.tag), (4, bit t.nar)])

/-- A slot's status word as it stands (R407). -/
def slotStatus (s : State) (st : Strand) (m : Nat) : Word :=
  match st.team.bind (teamOf s st.lk) with
  | some t => (t.tiles[m]?).elim 0 statusWord
  | none => 0

/-- Take the views of some slots (R407). -/
def takeViews (s : State) (st : Strand) (slots : List Nat) : Strand :=
  { st with views := (List.range 8).map (fun m => if slots.contains m then (slotStatus s st m, s.time) else nth st.views m (0, 0)) }

/-- Slots that a tile operation is on (R75, R211). -/
def tileSlots : OpBody → List Nat
  | .tile m wide _ _ => if wide then [m, m + 1] else [m]
  | _ => []

/-- Tile slots with an operation of the strand still outstanding. -/
def tilesBusy (s : State) (st : Strand) : List Nat := (outstanding s st).flatMap (fun o => tileSlots o.body)

/-- The slots whose views a WAITC sets: those on which the strand has issued tile operations, with all of them finished (R407). -/
def finishedSlots (s : State) (st : Strand) : List Nat := st.tileIssued.filter (fun m => !(tilesBusy s st).contains m)

/-- The completion of a WAITC: views, the engine writes that it covers, none where its field c is 2047 (R156, R259, R407), faults (R156), and the PC. -/
def waitcComplete (s : State) (st : Strand) (c : Nat) : State :=
  let covers := decide (c < 2047)
  let st1 := { takeViews s st (finishedSlots s st) with copied := if covers then [] else st.copied }
  let s2 := addObs (putStrand s (unblock s st1)) st.lk (present st) (if covers then st.copied else [])
  let fs := undelivered s st
  if fs.isEmpty then advance s2 st.sid 8 else deliver s2 (unblock s st1) fs (.advance 8)

/-- Whether the counts of a WAITC are met; a field of 2047 never waits, even where a merged set holds more (R156, R161). -/
def waitcMet (s : State) (st : Strand) (l sc c t : Nat) : Bool :=
  let met := fun (k : OpClass) (n : Nat) => decide (2047 ≤ n) || decide (opCount s st k ≤ n)
  met .l l && met .s sc && met .c c && met .t t

/-! ### Retirement of teams (R45, R153, R303) -/

/-- Charge of a team, rounded up to core-cycles (R302). -/
def chargeUp (t : Team) : Int := ((t.charge + 1023) / 1024 : Nat)

/-- retire of R303: the queue is refunded what placement took and charged what the team used. -/
def retireTeam (s : State) (lk num : Nat) : State :=
  match teamOf s lk num with
  | none => s
  | some t =>
    if t.ended || !t.placed then s
    else
      let g := s.gangs.find? (fun g => g.lk == lk && decide (g.firstTeam ≤ num) && decide (num ≤ g.firstTeam + g.ntm1))
      let c := chargeUp t
      -- its chrysalis record, if it has one, is over (R380)
      let s0 := if t.recordRoom = 0 then s else { s with oldRecords := s.oldRecords ++ [(t.record, t.recordRoom)] }
      let s1 := updTeam s0 lk num (fun t => { t with ended := true, record := 0, recordRoom := 0 })
      let s2 := match g with
        | none => s1
        | some g =>
          let d := dieOf s1 g.die
          putDie s1 { d with queues := updWhere (fun q => q.q == g.queue) (fun q => { q with d := q.d + t.adv - c, a := q.a + (c - q.a) / 8 }) d.queues }
      traceRecord s2 lk 3 num (c.toNat % 2 ^ 64)

/-- A team whose strands are all gone has ended (R45). -/
def endTeams (s : State) (lk : Nat) (team : Option Nat) : State :=
  match team with
  | none => s
  | some t => if s.strands.any (fun x => x.lk == lk && x.team == some t) then s else retireTeam s lk t

/-! ### Barriers and rejoins (R47, R48, R153, R154, R243) -/

/-- Strands blocked at a barrier of a team or gang. -/
def atBar (s : State) (lk : Nat) (ts : List Nat) (gang : Bool) (k : Nat) : List Strand :=
  s.strands.filter (fun st => st.lk == lk && (match st.team with | some t => ts.contains t | none => false) && st.status == .blocked (.bar gang k))

/-- Release a barrier when every index that has not retired has arrived (R153); the released indices acquire every arrival (R154, R260). One at which a stopped or saved team waits
completes after its restoration (R160). -/
def tryBar (s : State) (lk team : Nat) (gang : Bool) (k : Nat) : State :=
  let ts := if gang then gangTeams s lk team else [team]
  let ws := atBar s lk ts gang k
  let arrived := ws.foldl (fun a st => a + presentCount st) 0
  let expected := ts.foldl (fun a t => a + aliveIn s lk t) 0
  if ws.isEmpty || decide (arrived ≠ expected) || ws.any (stopped s) then s
  else
    let is := ws.flatMap present
    let os := ws.foldl (fun a st => (obsUnion s lk (present st)).foldl insertNat a) []
    let s1 := ws.foldl (fun a st => advance (unblockSid a st.sid) st.sid 8) s
    -- at a gang's barrier the acquire is wider than team (R267)
    let s2 := (if gang then ws else []).foldl (fun a st => acquireL1 st.core (scopeOf a st .gang) a) (addObs s1 lk is os)
    ts.foldl (fun a t => updTeam a lk t (fun x => { x with barParity := updAt x.barParity (k + if gang then 16 else 0) })) s2
where
  /-- Flip the generation parity of a barrier (R381). -/
  updAt (xs : List Bool) (n : Nat) : List Bool := xs.set n (!(nth xs n false))

/-- Whether a strand has arrived at a JOINW: blocked there, with no live result outstanding (R47, R243). -/
def arrivedJoin (s : State) (st : Strand) (j : Nat) : Bool :=
  match st.status with
  | .blocked (.join j' lo hi) => decide (j' = j) && !(pendingRegs s st).any (fun r => decide (lo ≤ r) && decide (r ≤ hi)) && !pendingPush s st && st.halted.isNone
  | _ => false

/-- The members of a strand's enrolment in jN (R46): once it is past its placement cut, those of its team, pending ranges among them. The cut of one strand divides the
enrolment by team: strands that are still before their cut are then members with each other alone (DEDUCED, log 86). -/
def membersOf (s : State) (st : Strand) (j : Nat) : List Strand :=
  let e := nth st.enrol j 0
  if e = 0 then [st]
  else s.strands.filter (fun t => t.lk == st.lk && t.team == st.team && nth t.enrol j 0 == e && decide (0 < presentCount t))

/-- The live registers of a JOINW (R48). -/
def liveOf (st : Strand) : List Nat :=
  match st.status with
  | .blocked (.join _ lo hi) | .blocked (.rejoin _ lo hi) => List.range' lo (hi + 1 - lo)
  | _ => []

/-- What an operation still has to deliver at the indices of a merged strand was for registers that the merge has made undefined, since a JOINW waits for the live ones: they keep
their undefined values (R47, R48; DESIGN CHOICE, log 87). -/
def forgetDead (s : State) (m : Strand) : State :=
  { s with ops := s.ops.map (fun o => if m.ops.contains o.oid then { o with dead := (present m).foldl insertNat o.dead } else o) }

/-- Merge arrived members that stand at one PC: each strand that goes on continues after the JOINW, and its indices acquire every arrived index's set at team scope
(R48, R260). A member that does not merge keeps every register (R49). None where the cut of R241 comes first. The stamp is that of the release from the JOINW, which R309
gives for the unblocked strand; the older age of R48 is that of the merge before it (DEDUCED, log 88). -/
def mergeMembers (s : State) (os : List Nat) (group : List Strand) : Option State :=
  match sortByFirst group with
  | [] => some s
  | g :: gs =>
    (mergeGroup (budgetOf s g) (liveOf g) (some s.nfree) g gs).map (fun out =>
      let gone := (g :: gs).filter (fun st => !out.any (fun o => o.sid == st.sid))
      let s2 := gone.foldl (fun a st => dropStrand a st.sid) { s with nfree := s.nfree + 2048 }
      out.foldl (fun a o =>
        let o' := unblock a { o with pc := o.pc + 8, part := homePart a o }
        addObs (putStrand (if (g :: gs).contains o then a else forgetDead a o) o') o.lk (present o') os) s2)

/-- The join has completed for the strands of one team (R241): they merge now, or, where their team has still to be placed, when it is. -/
def rejoinTeam (os : List Nat) (s : State) (group : List Strand) : State :=
  if group.any (fun st => st.pending) then
    let (n, s1) := fresh s
    group.foldl (fun a st => addObs (putStrand a { st with status := match st.status with
      | .blocked (.join _ lo hi) => .blocked (.rejoin n lo hi) | x => x }) st.lk (present st) os) s1
  else (mergeMembers s os group).getD s

/-- Groups of strands of one team. -/
def groupByTeam (xs : List Strand) : List (List Strand) :=
  xs.foldr (fun st gs => if gs.any (fun g => g.any (fun t => t.team == st.team)) then gs.map (fun g => if g.any (fun t => t.team == st.team) then st :: g else g)
    else [st] :: gs) []

/-- Release one group of arrived members that stand at one PC (R48). Where a merge before placement would give an X form, the placement cut comes first, and the merge is
then tried in each team (R241). -/
def releaseGroup (s : State) (os : List Nat) (group : List Strand) : State :=
  match mergeMembers s os group with
  | some t => t
  | none =>
    let r := group.foldl (fun (acc : List Nat × State) st => let (ids, a) := cutByTeam acc.2 st; (acc.1 ++ ids, a)) ([], s)
    (groupByTeam (r.1.filterMap (strandOf r.2))).foldl (rejoinTeam os) r.2

/-- A join that has completed is finished in a team once the team is placed, none of the members there is halted, and the team has not stopped (R241, R396). -/
def tryRejoin (s : State) (lk team n : Nat) : State :=
  let ms := s.strands.filter (fun st => st.lk == lk && st.team == some team && (match st.status with | .blocked (.rejoin m _ _) => m == n | _ => false))
  if ms.any (fun st => st.pending || st.halted.isSome || stopped s st) then s else (mergeMembers s [] ms).getD s

/-- The joins that wait for a team's placement are finished (R241). -/
def finishRejoins (s : State) (lk team : Nat) : State :=
  let here := s.strands.filter (fun st => st.lk == lk && st.team == some team && !st.pending)
  let ns := here.foldl (fun a st => match st.status with | .blocked (.rejoin n _ _) => insertNat a n | _ => a) []
  ns.foldl (fun a n => tryRejoin a lk team n) s

/-- Groups of strands at equal PCs. -/
def groupByPc (xs : List Strand) : List (List Strand) :=
  xs.foldr (fun st gs => if gs.any (fun g => g.any (fun t => t.pc == st.pc)) then gs.map (fun g => if g.any (fun t => t.pc == st.pc) then st :: g else g) else [st] :: gs) []

/-- Complete the JOINW of a strand if every member of its enrolment has arrived (R47); that of a stopped or saved team completes after its restoration (R52). -/
def tryJoin (s : State) (st : Strand) (j : Nat) : State :=
  let ms := membersOf s st j
  if ms.all (fun m => arrivedJoin s m j && !stopped s m) then
    let os := ms.foldl (fun a m => (obsUnion s st.lk (present m)).foldl insertNat a) []
    (groupByPc ms).foldl (fun a g => releaseGroup a os g) s
  else s

/-- Complete every JOINW of a launch that can complete. -/
def wakeJoins (s : State) (lk : Nat) : State :=
  (s.strands.filter (fun st => st.lk == lk)).foldl (fun a st =>
    match strandOf a st.sid with
    | some x => (match x.status with
      | .blocked (.join j _ _) => tryJoin a x j
      | .blocked (.rejoin n _ _) => (match x.team with | some t => tryRejoin a x.lk t n | none => a)
      | _ => a)
    | none => a) s

/-- Release every barrier of a team and of its gang that is complete. -/
def wakeBars (s : State) (lk team : Nat) : State :=
  (List.range 16).foldl (fun a k => tryBar (tryBar a lk team false k) lk team true k) s

/-- After an arrival, a retirement, a re-enrolment or a placement: barriers and rejoins of the strand's team (R47, R52, R153). -/
def wakeTeam (s : State) (lk : Nat) (team : Option Nat) : State :=
  let s1 := match team with | some t => (gangTeams s lk t).foldl (fun a x => wakeBars a lk x) s | none => s
  wakeJoins s1 lk

/-! ### Exit (R45, R150) -/

/-- The strand of an EXIT that retires all its indices: none present, no enrolment, waiting as `waitc 0, 0, 0, 0` would (R45, R150). -/
def huskOf (st : Strand) : Strand :=
  { st with husk := namedBy st, count := 0, mask := none, regs := [], poison := [], origin := [], enrol := List.replicate 16 0, status := .blocked .exitWait }

/-- The end of that wait: faults are delivered with the EXIT as the observing instruction, else the slot is released (R150). -/
def exitDone (s : State) (st : Strand) : State :=
  let fs := undelivered s st
  if fs.isEmpty then endTeams (dropStrand s st.sid) st.lk st.team
  else deliver (putStrand s (unblock s st)) (unblock s st) fs .exit

/-- Retire indices of a strand (R45). wait: an EXIT waits before the slot is released (R150); a kill does not (R378). -/
def retire (s : State) (st : Strand) (gone : List Nat) (len : Nat) (wait : Bool) : State :=
  let rest := (present st).filter (fun i => !gone.contains i)
  let s1 :=
    if rest.isEmpty then
      if wait then
        let h := huskOf st
        let s2 := putStrand s h
        if waitcMet s2 h 0 0 0 0 then exitDone s2 h else s2
      else endTeams (dropStrand s st.sid) st.lk st.team
    else (replaceStrand s st.sid ((pieces (budgetOf s st) st rest).map (fun p => { p with pc := p.pc + BitVec.ofNat 64 len }))).2
  wakeTeam s1 st.lk st.team

end Sys2Proof.Machine
end

