-- ==== Sys2Proof/Machine/Layout.lean ====
section
/-! DEFINITION. Layout records: their fields, the box they describe and the checks at issue (R195 to R197, R205), and the frames of
collective, strand-wide and team-scoped instructions (R39, R51, R96). -/

namespace Sys2Proof.Machine

/-! ### Fields of a layout record (R195) -/

def recF (r : LayoutBits) (lo n : Nat) : Nat := field r.toNat lo n
def recBase (r : LayoutBits) : Nat := recF r 0 64
/-- Extent of dimension k; 0 acts as 1. -/
def recExt (r : LayoutBits) (k : Nat) : Nat := max 1 (recF r (64 + 24 * k) 24)
def recNdim (r : LayoutBits) : Nat := recF r 448 3
def recEsz (r : LayoutBits) : Nat := 2 ^ recF r 451 2
/-- Byte stride of dimension k, signed; dimension 0 has the element size. -/
def recStr (r : LayoutBits) (k : Nat) : Int := if k = 0 then (recEsz r : Int) else signed 36 (recF r (184 + 36 * (k - 1)) 36)
def recBox (r : LayoutBits) (k : Nat) : Nat := recF r (328 + 8 * k) 8
def recBc (r : LayoutBits) (k : Nat) : Nat := recF r (368 + 16 * k) 16
def recConv (r : LayoutBits) : Nat := recF r 453 2
def recRbase (r : LayoutBits) : Nat := recF r 456 14
def recRslot (r : LayoutBits) : Nat := recF r 470 14
def recRcntm1 (r : LayoutBits) : Nat := recF r 484 3
def recRnext (r : LayoutBits) : Nat := recF r 487 3
def recFeu (r : LayoutBits) : Bool := bitOf r.toNat 490
def recKey (r : LayoutBits) : Nat := recF r 496 16

/-- Replace bits [lo + n - 1 : lo] of a record. -/
def recSet (r : LayoutBits) (lo n v : Nat) : LayoutBits := BitVec.ofNat 512 (r.toNat - field r.toNat lo n * 2 ^ lo + v % 2 ^ n * 2 ^ lo)

/-- Element size after conversion (R196). -/
def recEszOut (r : LayoutBits) : Nat := match recConv r with | 0 => recEsz r | 3 => 1 | _ => 2

/-- Number of elements of the box and the size of its image (R196). -/
def boxCount (r : LayoutBits) : Nat := (List.range 5).foldl (fun a k => a * (recBox r k + 1)) 1
def imageSize (r : LayoutBits) : Nat := boxCount r * recEszOut r

/-- The ring slot's start in scratch (R201, R211). -/
def ringStart (r : LayoutBits) (slot : Nat) : Nat := 16 * (recRbase r + slot * recRslot r)

/-- The coordinates of the element with a linear box index, 0 in dimensions at or above NDIM (R196). -/
def boxCoord (r : LayoutBits) (n : Nat) : List Nat :=
  ((List.range 5).foldl (fun (a : Nat × List Nat) k =>
    (a.1 / (recBox r k + 1), a.2 ++ [if k < recNdim r then recBc r k * (recBox r k + 1) + a.1 % (recBox r k + 1) else 0])) (n, [])).2

/-- The element lies in range (R196). -/
def inRange (r : LayoutBits) (cs : List Nat) : Bool := (List.range (recNdim r)).all (fun k => decide (nth cs k 0 < recExt r k))

/-- Its global address (R196). -/
def elemAddr (r : LayoutBits) (cs : List Nat) : Nat :=
  wrapTo 64 ((List.range (recNdim r)).foldl (fun a k => a + ((nth cs k 0 : Nat) : Int) * recStr r k) (recBase r : Int))

/-- The first failing item of R197, 0 for none. ring: the command uses the ring; drain: it is an SE.DRAIN. -/
def recordCheck (r : LayoutBits) (scratch : Nat) (ring drain : Bool) : Nat :=
  if recNdim r > 5 || recF r 451 2 = 3 || recF r 455 1 ≠ 0 || recF r 491 5 ≠ 0 then 1
  else if (List.range 5).any (fun k => decide (recNdim r ≤ k) && recBox r k != 0) then 2
  else if recBase r % recEsz r ≠ 0 || (List.range (recNdim r)).any (fun k => recStr r k % (recEsz r : Int) != 0) then 3
  else if recConv r ≠ 0 && recF r 451 2 ≠ (if recConv r = 1 then 1 else 2) then 4
  else if ring && (recRslot r = 0 || decide (recRcntm1 r < recRnext r) || decide (scratch < ringStart r (recRcntm1 r + 1)) ||
      decide (recRslot r * 16 < imageSize r)) then 5
  else if drain && recConv r ≠ 0 then 6
  else 0

/-- A precise trap of an instruction that names a layout slot: the report carries the record, the slot and the engine (R376). -/
def recTrap (s : State) (st : Strand) (len : Nat) (r : LayoutBits) (slot engine : Nat) (rep : Report) : State :=
  trapWhole s st len { rep with snap := r.toNat, slot := slot, engine := engine }

/-- An illegal-instruction report of R406. -/
def illegal (s : State) (st : Strand) (check item slot : Nat) : Report := { reportOf s st 1 0 with info := check + 2 ^ 8 * item + 2 ^ 16 * slot }

/-- The layout slot of a strand's team (R195). -/
def slotRec (s : State) (st : Strand) (d : Nat) : LayoutBits :=
  match st.team.bind (teamOf s st.lk) with | some t => nth t.layout d 0 | none => 0
def setSlot (s : State) (st : Strand) (d : Nat) (r : LayoutBits) : State :=
  match st.team with | some t => updTeam s st.lk t (fun x => { x with layout := x.layout.set d r }) | none => s

/-- A slot as an instruction of a strand reads it: while a DLD of another strand loads it, each byte is the old or the new one (R198). -/
def readSlot (s : State) (st : Strand) (d : Nat) : LayoutBits × State :=
  let old := slotRec s st d
  match s.ops.find? (fun o => !o.done && o.lk == st.lk && o.team == st.team && !(st.ops.contains o.oid) && (match o.body with | .dld x _ _ _ _ => x == d | _ => false)) with
  | none => (old, s)
  | some o =>
    let s1 := performLoadsOf s (fun _ => true) o.oid
    match (opOf s1 o.oid).bind dldRecord with
    | some (new, _) =>
      (BitVec.ofNat 512 (ofBytes ((List.range 64).map (fun k =>
        BitVec.ofNat 8 (field (if Config.freeBool (s1.nfree + k) then new.toNat else old.toNat) (8 * k) 8)))), { s1 with nfree := s1.nfree + 64 })
    | _ => (old, s1)

/-- SE.ADV of R205: BC_DIM moves by STEP modulo 2^16. -/
def advRec (r : LayoutBits) (b : Word) : LayoutBits :=
  if b = 0 then r
  else
    let k := field b.toNat 0 3
    recSet r (368 + 16 * k) 16 (wrapTo 16 ((recBc r k : Int) + signed 16 (field b.toNat 16 16)))

/-- The failing item of an advance word (R205, R406): 1 DIM, 2 reserved bits, 0 none. -/
def advCheck (b : Word) : Nat := if b = 0 then 0 else if field b.toNat 0 3 > 4 then 1 else if field b.toNat 3 13 ≠ 0 then 2 else 0

/-- RNEXT steps around the ring (R201, R211). -/
def stepRing (r : LayoutBits) : LayoutBits := recSet r 487 3 ((recRnext r + 1) % (recRcntm1 r + 1))

/-! ### Frames (R39, R51, R96, R98) -/

/-- A collective or strand-wide instruction: the collective-guard trap under a guard that is not U; nothing but the PC under U false; the
placement cut where it is team-scoped; the wait for operand results; the consumption of poison by the whole strand (R389). -/
def strandFrame (h : Hdr) (len : Nat) (rs : List Nat) (teamScoped stack : Bool) (f : State → Strand → State) (s : State) : Res :=
  onCur s fun st =>
    if mustWait s st [] (stack || guardReads h.g) then waitFor s st.sid [] (stack || guardReads h.g)
    else match guardU st h.g with
      | none => trapWhole s st len (reportOf s st 3 0)
      | some false => advance s st.sid len
      | some true =>
        if teamScoped && st.team.isNone then placementCut s st
        else if mustWait s st rs false then waitFor s st.sid rs false
        else withoutPoison s st rs (consumed st .none rs) len f

/-- The frame of JOINW and WAITC, which end the run whether or not they wait, under a U false guard too (R151, R156). -/
def waitFrame (h : Hdr) (f : State → Strand → State) (s : State) : Res :=
  onCur s fun st =>
    if mustWait s st [] (guardReads h.g) then waitFor s st.sid [] (guardReads h.g)
    else match guardU st h.g with
      | none => trapWhole s st 8 (reportOf s st 3 0)
      | some false => endRun (advance s st.sid 8)
      | some true => endRun (f s st)

/-- A U operand of a collective instruction: its value, or none where the register is A or X. -/
def uReg (st : Strand) (r : Nat) : Option Word := match vform st r with | .u x => some x | _ => none
def uSrc (st : Strand) (b : Src) : Option Word := match b with | .lit w => some w | .reg r => uReg st r.toNat
def srcRegs (b : Src) : List Nat := match b with | .lit _ => [] | .reg r => [r.toNat]

/-- The operand-form trap (R375): INFO 1 for operand a, 2 for b. -/
def formTrap (s : State) (st : Strand) (len which : Nat) : State := trapWhole s st len { reportOf s st 5 0 with info := which }

end Sys2Proof.Machine
end

