-- ==== Sys2Proof/Machine/Control.lean ====
section
/-! DEFINITION. Control flow, rejoin and waiting (R143 to R161). -/

namespace Sys2Proof.Machine

/-! ### Transfers (R43, R144) -/

/-- A transfer taken at the flagged indices: the whole strand moves, or stays, or is split; onTake changes the strand that takes it. -/
def transfer (s : State) (st : Strand) (taken : List Bool) (target : DWord) (len : Nat) (onTake : Strand → Strand) : State :=
  let is := present st
  let yes := (is.zip taken).filterMap (fun e => if e.2 then some e.1 else none)
  if yes.isEmpty then advance s st.sid len
  else if yes.length = is.length then putStrand s { onTake st with pc := target }
  else
    let no := is.filter (fun i => !yes.contains i)
    let B := budgetOf s st
    let a := (pieces B st yes).map (fun p => { onTake p with pc := target })
    let b := (pieces B st no).map (fun p => { p with pc := p.pc + BitVec.ofNat 64 len })
    endRun (replaceStrand s st.sid (sortByFirst (a ++ b))).2

/-- The PC-relative target (R83). -/
def relTarget (st : Strand) (off : Word) : DWord := st.pc + sextWord off

/-- The frame of a transfer: only the guard is read. -/
def transferFrame (h : Hdr) (f : State → Strand → State) (s : State) : Res :=
  onCur s fun st => if mustWait s st [] (guardReads h.g) then waitFor s st.sid [] (guardReads h.g) else f s st

/-- BR (R144). -/
def execBr (h : Hdr) (off : Word) (s : State) : Res :=
  transferFrame h (fun s st => transfer s st (guardFlags st h.g) (relTarget st off) 12 id) s

/-- The trap of a call stack for the indices that would call or return (R146); the others go on. -/
def callTrap (s : State) (st : Strand) (h : Hdr) (len info : Nat) : State :=
  withoutFaulting s st (acting st h.g) len { reportOf s st 8 0 with info := info } (fun s p => advance s p.sid len)

/-- CALL (R146): pushes PC + 12 in the strand that transfers. -/
def execCall (h : Hdr) (off : Word) (s : State) : Res :=
  transferFrame h (fun s st =>
    if 8 ≤ st.calls.length then callTrap s st h 12 1
    else transfer s st (guardFlags st h.g) (relTarget st off) 12 (fun p => { p with calls := (st.pc + 12) :: p.calls })) s

/-- RET (R146): pops the newest return address in the strand that returns. -/
def execRet (h : Hdr) (s : State) : Res :=
  transferFrame h (fun s st =>
    match st.calls with
    | [] => callTrap s st h 8 2
    | ra :: _ => transfer s st (guardFlags st h.g) ra 8 (fun p => { p with calls := p.calls.drop 1 })) s

/-- A walk that was never bound: the spec gives its counts, extents and strides no values (DESIGN CHOICE, log 76). -/
def Walk.unbound : Walk := ⟨false, 0, [1, 1, 1, 1, 1], [0, 0, 0, 0, 0], [0, 0, 0, 0, 0], [false, false, false, false, false]⟩
/-- A walk of a strand (R147). -/
def walkOf (st : Strand) (w : Nat) : Walk := nth st.walks w Walk.unbound

/-- BRW (R149): taken where the guard holds when the walk is bound and e[level] is 0. -/
def execBrw (h : Hdr) (w : BitVec 4) (level : R11) (off : Word) (s : State) : Res :=
  transferFrame h (fun s st =>
    let k := walkOf st w.toNat
    let own := k.bound && !(nth k.e level.toNat true)
    transfer s st ((guardFlags st h.g).map (fun b => b && own)) (relTarget st off) 12 id) s

/-- Put a strand on its window's sheaf with its range as presence (R37 step 3). -/
def attach (st : Strand) : Strand := { st with mask := some (maskOf ((present st).map (fun i => i % 64))) }

/-- The children of a BRX in one window: one for each distinct target, and one, at the next instruction, for the indices that do not transfer, which is a child of its own
even where a target is the next instruction (R145). -/
def brxSplit (g : Guard) (a : Nat) (s : State) (st : Strand) : State :=
  let st := attach st
  let is := present st
  let tg := (is.zip ((guardFlags st g).zip (regVals st a))).map (fun e => (e.1, if e.2.1 then st.pc + sextWord e.2.2 else st.pc + 8))
  let act := acting st g
  let pcOf := fun i => (alookup tg i).getD 0
  let gs := groupsBy (fun i => 2 * (pcOf i).toNat + bit (act.contains i)) is
  let B := budgetOf s st
  let kids := gs.flatMap (fun g => (pieces B st g).map (fun p => { p with pc := pcOf (g.headD 0) }))
  endRun (replaceStrand s st.sid (sortByFirst kids)).2

/-- BRX (R145). -/
def execBrx (h : Hdr) (a : R11) (s : State) : Res :=
  regFrame h 8 [.v a.toNat 1] [] false (fun s st =>
    let is := present st
    let tg := (is.zip ((guardFlags st h.g).zip (regVals st a.toNat))).filterMap (fun e => if e.2.1 then some (e.1, st.pc + sextWord e.2.2) else none)
    match tg.find? (fun e => e.2.toNat % 4 != 0) with
    | some e => trapWhole s st 8 { reportOf s st 1 0 with info := 16, info2 := e.1 }
    | none =>
      match tg with
      | [] => advance s st.sid 8
      | t :: ts =>
        if ts.all (fun e => e.2 == t.2) then transfer s st (guardFlags st h.g) t.2 8 id
        else asIfX s st (brxSplit h.g a.toNat)) s

/-- EXIT (R45, R150). -/
def execExit (h : Hdr) (s : State) : Res :=
  transferFrame h (fun s st =>
    let act := acting st h.g
    if act.isEmpty then advance s st.sid 8
    else
      let s1 := retire s st act 8 true
      if (strandOf s1 st.sid).any (fun x => x.status == .ready) then s1 else endRun s1) s

/-- NOP (R158). -/
def execNop (_h : Hdr) (s : State) : Res := onCur s fun st => advance s st.sid 8

/-! ### Enrolment, rejoin, barriers, waits -/

/-- ENROL (R46, R151): a fresh identifier; those who wait on the old enrolment go on without this strand (R52). -/
def execEnrol (h : Hdr) (j : BitVec 4) (s : State) : Res :=
  strandFrame h 8 [] false false (fun s st =>
    let (e, s1) := fresh s
    let s2 := updStrand s1 st.sid (fun x => { x with enrol := x.enrol.set j.toNat e, pc := x.pc + 8 })
    wakeTeam s2 st.lk st.team) s

/-- JOINW (R47, R151): arrives and blocks; the join completes when every member has arrived. -/
def execJoinw (h : Hdr) (j : BitVec 4) (lo hi : R11) (s : State) : Res :=
  waitFrame h (fun s st => wakeTeam (blockOn (performLoads s st) st.sid (.join j.toNat lo.toNat hi.toNat)) st.lk st.team) s

/-- BAR (R153, R154): every present index arrives with its release; the strand blocks. -/
def execBar (h : Hdr) (gang : Bool) (k : BitVec 4) (s : State) : Res :=
  strandFrame h 8 [] true false (fun s st =>
    let s1 := performLoads s st
    let s2 := if gang then (present st).foldl (fun a i => publish a st.core (releaseRec a st i .gang)) s1 else s1
    endRun (wakeTeam (blockOn s2 st.sid (.bar gang k.toNat)) st.lk st.team)) s

/-- WAITC (R156): ends the run, and completes at once where the counts are met. -/
def execWaitc (h : Hdr) (l sc c t : R11) (s : State) : Res :=
  waitFrame h (fun s st =>
    if waitcMet s st l.toNat sc.toNat c.toNat t.toNat then waitcComplete s st c.toNat
    else blockOn s st.sid (.waitc l.toNat sc.toNat c.toNat t.toNat)) s

/-- YIELD (R158): held until 64 issue slots of the partition have passed, or another strand has issued a run (DEDUCED, log 54). -/
def execYieldI (h : Hdr) (s : State) : Res :=
  strandFrame h 8 [] false false (fun s st =>
    endRun (blockOn (advance s st.sid 8) st.sid (.yieldHold (s.slots + 64)))) s

/-- The walk that a record binds (R148): extents and strides below its count; extent 1, stride 0 elsewhere. WBIND has no check: a record with a reserved NDIM of 6 or 7
binds its five dimensions, with that count, and one with the reserved ESIZE takes strides of 8 bytes (DESIGN CHOICE, log 76). -/
def bindWalk (r : LayoutBits) : Walk :=
  let n := recNdim r
  { bound := true, n := n
    ext := (List.range 5).map (fun k => if k < n then recExt r k else 1)
    str := (List.range 5).map (fun k => if k < n then BitVec.ofInt 64 (recStr r k) else 0)
    c := List.replicate 5 0, e := List.replicate 5 false }

/-- WBIND (R148). -/
def execWbind (h : Hdr) (w : BitVec 4) (d : BitVec 5) (s : State) : Res :=
  strandFrame h 8 [] true false (fun s st =>
    if (pendingSlots s st).contains d.toNat then stallStrand s st.sid { Need.none with slots := [d.toNat] }
    else
      let (r, s1) := readSlot s st d.toNat
      updStrand s1 st.sid (fun x => { x with walks := x.walks.set w.toNat (bindWalk r), pc := x.pc + 8 })) s

/-! ### Events of waiting -/

/-- EXIT_WAIT_DONE: the wait of a final EXIT ends when every operation has finished (R150). -/
def execExitWaitDone (sid : Nat) (s : State) : Res :=
  finish (match strandOf s sid with
    | some st => if st.status == .blocked .exitWait && waitcMet s st 0 0 0 0 && st.halted.isNone && !stopped s st then exitDone s st else s
    | none => s)

/-- YIELD_EXPIRY: the hold of a YIELD ends when its 64 issue slots have passed (R158). -/
def execYieldExpiry (sid : Nat) (s : State) : Res :=
  finish (updStrand s sid (fun st => match st.status with | .blocked (.yieldHold n) => if n ≤ s.slots then { st with status := .ready } else st | _ => st))

/-- Strands of a partition that YIELD holds back are ready again: another strand has issued a run (R158). -/
def releaseHolds (s : State) (core part sid : Nat) : State :=
  { s with strands := s.strands.map (fun st =>
      if st.core == core && st.part == part && st.sid != sid then (match st.status with | .blocked (.yieldHold _) => { st with status := .ready } | _ => st) else st) }

/-- The run of a port ends: the port is free, its strand, if ready, takes the current slot count as its stamp, and strands that YIELD holds back are ready again
(R158, R309). -/
def freePort (s : State) (core part port sid : Nat) : State :=
  let p := partOf s core part
  let s1 := releaseHolds (putPart s core part { p with ports := p.ports.set port none }) core part sid
  updStrand s1 sid (fun st => if st.status == .ready then { st with stamp := slotNow s, urgent := false } else st)

/-- A run has held its port for 64 cycles, or its next instruction has waited at issue for 32 (R310): two slots count a cycle (R309). -/
def overdue (s : State) (r : Run) : Bool := decide (r.slots + 2 * 64 ≤ s.slots) || r.waits.any (fun w => decide (w + 2 * 32 ≤ s.slots))

/-- The ends of the runs that have come to a limit of R310. -/
def runsDue (s : State) : List Instr :=
  s.cores.flatMap (fun c => ((List.range c.parts.length).zip c.parts).flatMap (fun p => ((List.range p.2.ports.length).zip p.2.ports).flatMap (fun r =>
    if r.2.any (overdue s) then [Instr.runLimit c.num p.1 r.1] else [])))

/-- RUN_LIMIT: a run that has come to a limit of R310 ends; every boundary of steps is one of instructions (R100, R310). -/
def execRunLimit (core part port : Nat) (s : State) : Res :=
  finish (
    match nth (partOf s core part).ports port none with
    | none => s
    | some r => if overdue s r then freePort s core part port r.sid else s)

/-- A ready strand has waited 2048 issue slots of its partition since its stamp, at this count of slots (R311). -/
def waitedLong (slots : Nat) (st : Strand) : Bool := st.status == .ready && decide (st.stamp + 2048 ≤ slots)

/-- STRAND_URGENT: a strand that has waited 2048 slots of its partition since its stamp becomes urgent (R311). -/
def execStrandUrgent (sid : Nat) (s : State) : Res :=
  finish (updStrand s sid (fun st =>
    if waitedLong s.slots st then { st with urgent := true } else st))

/-- A strand is in a run: it holds a port (R100). -/
def inRun (s : State) (st : Strand) : Bool := s.cur == some st.sid || (partOf s st.core st.part).ports.any (fun r => r.any (fun x => x.sid == st.sid))

/-- OPPORTUNISTIC_MERGE: two expanded strands on one sheaf, both ready, at equal PCs, with equal enrolments, walks and calls, merge
with every register, at a run boundary of both (R50); those of a stopped or saved team stay as they were saved (R379). -/
def execOpportunisticMerge (a b : Nat) (s : State) : Res :=
  finish (match strandOf s a, strandOf s b with
    | some x, some y =>
      let live := (x.regs ++ y.regs).foldl (fun acc e => insertNat acc e.1) []
      if a ≠ b && x.lk == y.lk && x.team == y.team && x.mask.isSome && y.mask.isSome && x.first / 64 == y.first / 64 && x.status == .ready &&
          y.status == .ready && x.pc == y.pc && x.halted.isNone && y.halted.isNone && x.undef == y.undef && x.role == y.role && x.replay.isNone && y.replay.isNone &&
          !inRun s x && !inRun s y && !stopped s x && (outstanding s x).isEmpty && (outstanding s y).isEmpty then
        let (p, q) := if x.first ≤ y.first then (x, y) else (y, x)
        match tryMerge (budgetOf s p) live p.undef p q with
        | .ok m => dropStrand (putStrand s m) q.sid
        | _ => s
      else s
    | _, _ => s)

end Sys2Proof.Machine
end

