-- ==== Sys2Proof/Machine/Flags.lean ====
section
/-! DEFINITION. The predicate stack as a destination (R119). -/

namespace Sys2Proof.Machine

/-- The eight entries of one index after a push (R119). -/
def pushAt (old : List Bool) (v : Bool) : List Bool := v :: old.take 7

/-- The eight entries of one index after a pop of n (R119). -/
def popAt (old : List Bool) (n : Nat) : List Bool := (List.range 8).map (fun k => if k + n ≤ 7 then nth old (k + n) false else false)

/-- The stack column by column, after f at the indices that act (R119). -/
def stackWrite (st : Strand) (flags : List Bool) (f : Nat → List Bool → List Bool) : List (List Bool) :=
  let old := rows (presentCount st) false ((List.range 8).map (qVals st))
  let new := ((List.range old.length).zip (flags.zip old)).map (fun e => if e.2.1 then f e.1 e.2.2 else e.2.2)
  (List.range 8).map (fun k => new.map (fun r => nth r k false))

/-- The result that pushes vals at the acting indices. -/
def pushResult (st : Strand) (flags : List Bool) (vals : List Bool) : Result :=
  { regs := [], stack := some (stackWrite st flags (fun k old => pushAt old (nth vals k false))), pois := [], acted := [] }

/-- An instruction that pushes a truth value computed at each index (R119, R127, R134). -/
def pushOp (h : Hdr) (len : Nat) (srcs : List Opnd) (p : List Nat → Bool) (s : State) : Res :=
  regFrame h len srcs [] true (fun s st =>
    commit s st (pushResult st (guardFlags st h.g) ((rows (presentCount st) 0 (srcs.map (opndVals st))).map p)) len) s

/-- An instruction that pops n entries (R119, R134). -/
def popOp (h : Hdr) (len n : Nat) (s : State) : Res :=
  regFrame h len [] [] true (fun s st =>
    commit s st { regs := [], stack := some (stackWrite st (guardFlags st h.g) (fun _ old => popAt old n)), pois := [], acted := [] } len) s

end Sys2Proof.Machine
end

