-- ==== Sys2Proof/Machine/Integer.lean ====
section
/-! DEFINITION. Integer arithmetic, moves, logic, shifts, bit fields, compare, test, select and the predicate stack (R121 to R127,
R133, R134): one meaning for each row, over the shared frame of R116. A compact row is the full one with fn 0 (R86). -/

namespace Sys2Proof.Machine

/-- Words of an element of type t: a pair for 64 bits (R54). -/
def intWords (t : IntTy) : Nat := if intWide t then 2 else 1
def wWords (t : WTy) : Nat := if t = .w64 then 2 else 1
def ciWords (t : CiTy) : Nat := if ciWidth t = 64 then 2 else 1

/-- The operand at a position of the row. -/
def arg (xs : List Nat) (k : Nat) : Nat := nth xs k 0

/-- A signed immediate of n bits (R89). -/
def immS {n : Nat} (k : BitVec n) : Int := k.toInt

/-- Two-operand integer operation over sub-elements (R57, R121). -/
def int2 (h : Hdr) (len : Nat) (d a : Nat) (b : Opnd) (t : IntTy) (f : Nat → Nat → Nat) (s : State) : Res :=
  vop h len d (intWords t) [.v a (intWords t), b] (fun x => mapElems2 (intWidth t) f (arg x 0) (arg x 1)) s

/-- One-operand integer operation over sub-elements. -/
def int1 (h : Hdr) (len : Nat) (d a : Nat) (t : IntTy) (f : Nat → Nat) (s : State) : Res :=
  vop h len d (intWords t) [.v a (intWords t)] (fun x => mapElems1 (intWidth t) f (arg x 0)) s

/-- Operand b of an integer operation of type t (R88). -/
def intSrc (b : Src) (t : IntTy) : Opnd := srcOpnd b (intWords t) (intSigned t)

/-- ADD (R122), compact. -/
def execAdd (h : Hdr) (d a b : R6) (s : State) : Res := int2 h 4 d.toNat a.toNat (.v b.toNat 1) .i32 (elAdd .i32 false) s

/-- ADD (R122), full. -/
def execAddFull (h : Hdr) (d a : R11) (b : Src) (t : IntTy) (sat : Bool) (s : State) : Res := int2 h (srcLen b) d.toNat a.toNat (intSrc b t) t (elAdd t sat) s

/-- SUB (R122), compact. -/
def execSub (h : Hdr) (d a b : R6) (s : State) : Res := int2 h 4 d.toNat a.toNat (.v b.toNat 1) .i32 (elSub .i32 false) s

/-- SUB (R122), full. -/
def execSubFull (h : Hdr) (d a : R11) (b : Src) (t : IntTy) (sat : Bool) (s : State) : Res := int2 h (srcLen b) d.toNat a.toNat (intSrc b t) t (elSub t sat) s

/-- MUL (R122), compact. -/
def execMul (h : Hdr) (d a b : R6) (s : State) : Res := int2 h 4 d.toNat a.toNat (.v b.toNat 1) .i32 (elMul .i32 false) s

/-- MUL (R122), full. -/
def execMulFull (h : Hdr) (d a : R11) (b : Src) (t : IntTy) (sat : Bool) (s : State) : Res := int2 h (srcLen b) d.toNat a.toNat (intSrc b t) t (elMul t sat) s

/-- DIV (R56, R122), compact. -/
def execDiv (h : Hdr) (d a b : R6) (s : State) : Res := int2 h 4 d.toNat a.toNat (.v b.toNat 1) .i32 (elDiv .i32 false) s

/-- DIV (R56, R122), full. -/
def execDivFull (h : Hdr) (d a : R11) (b : Src) (t : IntTy) (sat : Bool) (s : State) : Res := int2 h (srcLen b) d.toNat a.toNat (intSrc b t) t (elDiv t sat) s

/-- REM (R56, R122), compact. -/
def execRem (h : Hdr) (d a b : R6) (s : State) : Res := int2 h 4 d.toNat a.toNat (.v b.toNat 1) .i32 (elRem .i32) s

/-- REM (R56, R122), full; `.sat` changes nothing. -/
def execRemFull (h : Hdr) (d a : R11) (b : Src) (t : IntTy) (_sat : Bool) (s : State) : Res := int2 h (srcLen b) d.toNat a.toNat (intSrc b t) t (elRem t) s

/-- MIN (R122), compact. -/
def execMin (h : Hdr) (d a b : R6) (s : State) : Res := int2 h 4 d.toNat a.toNat (.v b.toNat 1) .i32 (elMin .i32) s

/-- MIN (R122), full. -/
def execMinFull (h : Hdr) (d a : R11) (b : Src) (t : IntTy) (s : State) : Res := int2 h (srcLen b) d.toNat a.toNat (intSrc b t) t (elMin t) s

/-- MAX (R122), compact. -/
def execMax (h : Hdr) (d a b : R6) (s : State) : Res := int2 h 4 d.toNat a.toNat (.v b.toNat 1) .i32 (elMax .i32) s

/-- MAX (R122), full. -/
def execMaxFull (h : Hdr) (d a : R11) (b : Src) (t : IntTy) (s : State) : Res := int2 h (srcLen b) d.toNat a.toNat (intSrc b t) t (elMax t) s

/-- MULH (R122), compact. -/
def execMulh (h : Hdr) (d a b : R6) (s : State) : Res := int2 h 4 d.toNat a.toNat (.v b.toNat 1) .i32 (elMulh false) s

/-- MULH (R122), full. -/
def execMulhFull (h : Hdr) (d a : R11) (b : Src) (uns : Bool) (s : State) : Res := int2 h (srcLen b) d.toNat a.toNat (srcOpnd b 1 false) .i32 (elMulh uns) s

/-- MAD over sub-elements (R122). -/
def mad3 (h : Hdr) (len d a : Nat) (b : Opnd) (c : Nat) (t : IntTy) (s : State) : Res :=
  vop h len d (intWords t) [.v a (intWords t), b, .v c (intWords t)] (fun x =>
    joinElems (intWidth t) (elemCount (intWidth t)) (fun j =>
      elMad t (subElem (intWidth t) j (arg x 0)) (subElem (intWidth t) j (arg x 1)) (subElem (intWidth t) j (arg x 2)))) s

/-- MAD, compact: c is d (R86). -/
def execMad (h : Hdr) (d a b : R6) (s : State) : Res := mad3 h 4 d.toNat a.toNat (.v b.toNat 1) d.toNat .i32 s

/-- MAD, full. -/
def execMadFull (h : Hdr) (d a : R11) (b : Src) (c : R11) (t : IntTy) (s : State) : Res := mad3 h (srcLen b) d.toNat a.toNat (intSrc b t) c.toNat t s

/-- NEG (R122), compact. -/
def execNeg (h : Hdr) (d a : R6) (s : State) : Res := int1 h 4 d.toNat a.toNat .i32 (elNeg .i32 false) s

/-- NEG (R122), full. -/
def execNegFull (h : Hdr) (d a : R11) (t : IntTy) (sat : Bool) (s : State) : Res := int1 h 8 d.toNat a.toNat t (elNeg t sat) s

/-- ABS (R122), compact. -/
def execAbs (h : Hdr) (d a : R6) (s : State) : Res := int1 h 4 d.toNat a.toNat .i32 (elAbs .i32 false) s

/-- ABS (R122), full. -/
def execAbsFull (h : Hdr) (d a : R11) (t : IntTy) (sat : Bool) (s : State) : Res := int1 h 8 d.toNat a.toNat t (elAbs t sat) s

/-- ADDK (R121, R122), compact. -/
def execAddk (h : Hdr) (d a k : R6) (s : State) : Res := int1 h 4 d.toNat a.toNat .i32 (elAddk .i32 false (immS k)) s

/-- ADDK (R121, R122), full. -/
def execAddkFull (h : Hdr) (d a k : R11) (t : IntTy) (sat : Bool) (s : State) : Res := int1 h 8 d.toNat a.toNat t (elAddk t sat (immS k)) s

/-- A shift by an immediate, the same for every sub-element (R124). -/
def shiftk (h : Hdr) (len d a k : Nat) (t : WTy) (f : Nat → Nat → Nat → Nat) (s : State) : Res :=
  vop h len d (wWords t) [.v a (wWords t)] (fun x => mapElems1 (wWidth t) (fun e => f (wWidth t) e k) (arg x 0)) s

/-- A shift by an operand: for 64 bits the amount is one register, read unsigned; else each sub-element of b is an amount (R124). -/
def shift2 (h : Hdr) (len d a : Nat) (b : Opnd) (t : WTy) (f : Nat → Nat → Nat → Nat) (s : State) : Res :=
  vop h len d (wWords t) [.v a (wWords t), b] (fun x =>
    if t = .w64 then f 64 (arg x 0) (arg x 1) else mapElems2 (wWidth t) (f (wWidth t)) (arg x 0) (arg x 1)) s

/-- A bit count or reversal of each sub-element (R124). -/
def bits1 (h : Hdr) (len d a : Nat) (t : WTy) (f : Nat → Nat → Nat) (s : State) : Res :=
  vop h len d (wWords t) [.v a (wWords t)] (fun x => mapElems1 (wWidth t) (f (wWidth t)) (arg x 0)) s

/-- SHLK (R58, R124), compact. -/
def execShlk (h : Hdr) (d a k : R6) (s : State) : Res := shiftk h 4 d.toNat a.toNat k.toNat .w32 shiftLeft s

/-- SHLK (R58, R124), full. -/
def execShlkFull (h : Hdr) (d a k : R11) (t : WTy) (s : State) : Res := shiftk h 8 d.toNat a.toNat k.toNat t shiftLeft s

/-- SHRK (R58, R124), compact. -/
def execShrk (h : Hdr) (d a k : R6) (s : State) : Res := shiftk h 4 d.toNat a.toNat k.toNat .w32 shiftRightLogical s

/-- SHRK (R58, R124), full. -/
def execShrkFull (h : Hdr) (d a k : R11) (t : WTy) (s : State) : Res := shiftk h 8 d.toNat a.toNat k.toNat t shiftRightLogical s

/-- SARK (R58, R124), compact. -/
def execSark (h : Hdr) (d a k : R6) (s : State) : Res := shiftk h 4 d.toNat a.toNat k.toNat .w32 shiftRightArith s

/-- SARK (R58, R124), full. -/
def execSarkFull (h : Hdr) (d a k : R11) (t : WTy) (s : State) : Res := shiftk h 8 d.toNat a.toNat k.toNat t shiftRightArith s

/-- A bitwise operation on 32 bits (R124). -/
def logic2 (h : Hdr) (len d a : Nat) (b : Opnd) (f : Nat → Nat → Nat) (s : State) : Res :=
  vop h len d 1 [.v a 1, b] (fun x => f (arg x 0) (arg x 1)) s
/-- a AND NOT b of two 32-bit patterns. -/
def andNot (x y : Nat) : Nat := x &&& (2 ^ 32 - 1 - y)

/-- AND (R124), compact. -/
def execAnd (h : Hdr) (d a b : R6) (s : State) : Res := logic2 h 4 d.toNat a.toNat (.v b.toNat 1) (· &&& ·) s

/-- AND (R124), full. -/
def execAndFull (h : Hdr) (d a : R11) (b : Src) (s : State) : Res := logic2 h (srcLen b) d.toNat a.toNat (srcOpnd b 1 false) (· &&& ·) s

/-- OR (R124), compact. -/
def execOr (h : Hdr) (d a b : R6) (s : State) : Res := logic2 h 4 d.toNat a.toNat (.v b.toNat 1) (· ||| ·) s

/-- OR (R124), full. -/
def execOrFull (h : Hdr) (d a : R11) (b : Src) (s : State) : Res := logic2 h (srcLen b) d.toNat a.toNat (srcOpnd b 1 false) (· ||| ·) s

/-- XOR (R124), compact. -/
def execXor (h : Hdr) (d a b : R6) (s : State) : Res := logic2 h 4 d.toNat a.toNat (.v b.toNat 1) (· ^^^ ·) s

/-- XOR (R124), full. -/
def execXorFull (h : Hdr) (d a : R11) (b : Src) (s : State) : Res := logic2 h (srcLen b) d.toNat a.toNat (srcOpnd b 1 false) (· ^^^ ·) s

/-- ANDN (R124), compact. -/
def execAndn (h : Hdr) (d a b : R6) (s : State) : Res := logic2 h 4 d.toNat a.toNat (.v b.toNat 1) andNot s

/-- ANDN (R124), full. -/
def execAndnFull (h : Hdr) (d a : R11) (b : Src) (s : State) : Res := logic2 h (srcLen b) d.toNat a.toNat (srcOpnd b 1 false) andNot s

/-- NOT (R124), compact. -/
def execNot (h : Hdr) (d a : R6) (s : State) : Res := vop h 4 d.toNat 1 [.v a.toNat 1] (fun x => 2 ^ 32 - 1 - arg x 0) s

/-- NOT (R124), full. -/
def execNotFull (h : Hdr) (d a : R11) (s : State) : Res := vop h 8 d.toNat 1 [.v a.toNat 1] (fun x => 2 ^ 32 - 1 - arg x 0) s

/-- SHL (R58, R124), compact. -/
def execShl (h : Hdr) (d a b : R6) (s : State) : Res := shift2 h 4 d.toNat a.toNat (.v b.toNat 1) .w32 shiftLeft s

/-- SHL (R58, R124), full. -/
def execShlFull (h : Hdr) (d a : R11) (b : Src) (t : WTy) (s : State) : Res := shift2 h (srcLen b) d.toNat a.toNat (srcOpnd b 1 false) t shiftLeft s

/-- SHR (R58, R124), compact. -/
def execShr (h : Hdr) (d a b : R6) (s : State) : Res := shift2 h 4 d.toNat a.toNat (.v b.toNat 1) .w32 shiftRightLogical s

/-- SHR (R58, R124), full. -/
def execShrFull (h : Hdr) (d a : R11) (b : Src) (t : WTy) (s : State) : Res := shift2 h (srcLen b) d.toNat a.toNat (srcOpnd b 1 false) t shiftRightLogical s

/-- SAR (R58, R124), compact. -/
def execSar (h : Hdr) (d a b : R6) (s : State) : Res := shift2 h 4 d.toNat a.toNat (.v b.toNat 1) .w32 shiftRightArith s

/-- SAR (R58, R124), full. -/
def execSarFull (h : Hdr) (d a : R11) (b : Src) (t : WTy) (s : State) : Res := shift2 h (srcLen b) d.toNat a.toNat (srcOpnd b 1 false) t shiftRightArith s

/-- ROT (R58, R124), compact. -/
def execRot (h : Hdr) (d a b : R6) (s : State) : Res := shift2 h 4 d.toNat a.toNat (.v b.toNat 1) .w32 rotateLeft s

/-- ROT (R58, R124), full. -/
def execRotFull (h : Hdr) (d a : R11) (b : Src) (t : WTy) (s : State) : Res := shift2 h (srcLen b) d.toNat a.toNat (srcOpnd b 1 false) t rotateLeft s

/-- CLZ (R124), compact. -/
def execClz (h : Hdr) (d a : R6) (s : State) : Res := bits1 h 4 d.toNat a.toNat .w32 elClz s

/-- CLZ (R124), full. -/
def execClzFull (h : Hdr) (d a : R11) (t : WTy) (s : State) : Res := bits1 h 8 d.toNat a.toNat t elClz s

/-- POPC (R124), compact. -/
def execPopc (h : Hdr) (d a : R6) (s : State) : Res := bits1 h 4 d.toNat a.toNat .w32 elPopc s

/-- POPC (R124), full. -/
def execPopcFull (h : Hdr) (d a : R11) (t : WTy) (s : State) : Res := bits1 h 8 d.toNat a.toNat t elPopc s

/-- BREV (R124), compact. -/
def execBrev (h : Hdr) (d a : R6) (s : State) : Res := bits1 h 4 d.toNat a.toNat .w32 elBrev s

/-- BREV (R124), full. -/
def execBrevFull (h : Hdr) (d a : R11) (t : WTy) (s : State) : Res := bits1 h 8 d.toNat a.toNat t elBrev s

/-- BEXT and BINS on their three operands (R125). -/
def bext3 (h : Hdr) (len d a : Nat) (b : Opnd) (c : Nat) (s : State) : Res :=
  vop h len d 1 [.v a 1, b, .v c 1] (fun x => bext (arg x 0) (arg x 1) (arg x 2)) s
def bins3 (h : Hdr) (len d a : Nat) (b : Opnd) (c : Nat) (s : State) : Res :=
  vop h len d 1 [.v a 1, b, .v c 1] (fun x => bins (arg x 2) (arg x 0) (field (arg x 1) 0 16) (field (arg x 1) 16 16)) s

/-- BEXT, compact: c is d (R86, R125). -/
def execBext (h : Hdr) (d a b : R6) (s : State) : Res := bext3 h 4 d.toNat a.toNat (.v b.toNat 1) d.toNat s

/-- BEXT, full (R125). -/
def execBextFull (h : Hdr) (d a : R11) (b : Src) (c : R11) (s : State) : Res := bext3 h (srcLen b) d.toNat a.toNat (srcOpnd b 1 false) c.toNat s

/-- BINS, compact: c is d (R86, R125). -/
def execBins (h : Hdr) (d a b : R6) (s : State) : Res := bins3 h 4 d.toNat a.toNat (.v b.toNat 1) d.toNat s

/-- BINS, full (R125). -/
def execBinsFull (h : Hdr) (d a : R11) (b : Src) (c : R11) (s : State) : Res := bins3 h (srcLen b) d.toNat a.toNat (srcOpnd b 1 false) c.toNat s

/-- CMP: pushes a C b at each index (R59, R127). -/
def cmp2 (h : Hdr) (len a : Nat) (b : Opnd) (c : Cond) (t : CiTy) (s : State) : Res :=
  pushOp h len [.v a (ciWords t), b] (fun x => cmpInt c t (arg x 0) (arg x 1)) s

/-- CMP, compact: `.eq.i32` (R126). -/
def execCmp (h : Hdr) (a b : R6) (s : State) : Res := cmp2 h 4 a.toNat (.v b.toNat 1) .eq .i32 s

/-- CMP, full. -/
def execCmpFull (h : Hdr) (a : R11) (b : Src) (c : Cond) (t : CiTy) (s : State) : Res := cmp2 h (srcLen b) a.toNat (srcOpnd b (ciWords t) (ciSigned t)) c t s

/-- CMPK, compact. -/
def execCmpk (h : Hdr) (a k : R6) (s : State) : Res := cmp2 h 4 a.toNat (.lit (wrapTo 32 (immS k))) .eq .i32 s

/-- CMPK, full: k is sign-extended to the compare width (R126). -/
def execCmpkFull (h : Hdr) (a k : R11) (c : Cond) (t : CiTy) (s : State) : Res := cmp2 h 8 a.toNat (.lit (wrapTo (ciWidth t) (immS k))) c t s

/-- TEST: pushes (a AND b) ≠ 0 (R127). -/
def test2 (h : Hdr) (len a : Nat) (b : Opnd) (s : State) : Res := pushOp h len [.v a 1, b] (fun x => (arg x 0 &&& arg x 1) != 0) s

/-- TEST, compact. -/
def execTest (h : Hdr) (a b : R6) (s : State) : Res := test2 h 4 a.toNat (.v b.toNat 1) s

/-- TEST, full. -/
def execTestFull (h : Hdr) (a : R11) (b : Src) (s : State) : Res := test2 h (srcLen b) a.toNat (srcOpnd b 1 false) s

/-- SEL: a where the entry, negated or not, is true, else b (R127). -/
def sel2 (h : Hdr) (len d a : Nat) (b : Opnd) (neg : Bool) (k : Nat) (s : State) : Res :=
  vop h len d 1 [.q k neg, .v a 1, b] (fun x => if arg x 0 = 1 then arg x 1 else arg x 2) s

/-- SEL, compact: on q0 (R126). -/
def execSel (h : Hdr) (d a b : R6) (s : State) : Res := sel2 h 4 d.toNat a.toNat (.v b.toNat 1) false 0 s

/-- SEL, full. -/
def execSelFull (h : Hdr) (d a : R11) (b : Src) (neg : Bool) (q : BitVec 3) (s : State) : Res := sel2 h (srcLen b) d.toNat a.toNat (srcOpnd b 1 false) neg q.toNat s

/-- MOV (R122), compact. -/
def execMov (h : Hdr) (d a : R6) (s : State) : Res := vop h 4 d.toNat 1 [.v a.toNat 1] (fun x => arg x 0) s

/-- MOV (R122), full. -/
def execMovFull (h : Hdr) (d a : R11) (wide : Bool) (s : State) : Res := vop h 8 d.toNat (bit wide + 1) [.v a.toNat (bit wide + 1)] (fun x => arg x 0) s

/-- MOVK (R122), compact. -/
def execMovk (h : Hdr) (d k : R6) (s : State) : Res := vop h 4 d.toNat 1 [] (fun _ => wrapTo 32 (immS k)) s

/-- MOVK (R122), full. -/
def execMovkFull (h : Hdr) (d k : R11) (s : State) : Res := vop h 8 d.toNat 1 [] (fun _ => wrapTo 32 (immS k)) s

/-- DP4 (R133). -/
def execDp4 (h : Hdr) (d a : R11) (b : Src) (c : R11) (uns : Bool) (s : State) : Res := vop h (srcLen b) d.toNat 1 [.v a.toNat 1, srcOpnd b 1 false, .v c.toNat 1] (fun x => dp4 uns (arg x 0) (arg x 1) (arg x 2)) s

/-- QDUP (R134). -/
def execQdup (h : Hdr) (a : BitVec 3) (s : State) : Res := pushOp h 8 [.q a.toNat false] (fun x => arg x 0 = 1) s

/-- QNOT (R134). -/
def execQnot (h : Hdr) (a : BitVec 3) (s : State) : Res := pushOp h 8 [.q a.toNat true] (fun x => arg x 0 = 1) s

/-- QAND (R134). -/
def execQand (h : Hdr) (a b : BitVec 3) (s : State) : Res := pushOp h 8 [.q a.toNat false, .q b.toNat false] (fun x => (arg x 0 &&& arg x 1) = 1) s

/-- QOR (R134). -/
def execQor (h : Hdr) (a b : BitVec 3) (s : State) : Res := pushOp h 8 [.q a.toNat false, .q b.toNat false] (fun x => (arg x 0 ||| arg x 1) = 1) s

/-- QXOR (R134). -/
def execQxor (h : Hdr) (a b : BitVec 3) (s : State) : Res := pushOp h 8 [.q a.toNat false, .q b.toNat false] (fun x => (arg x 0 ^^^ arg x 1) = 1) s

/-- QDROP (R134). -/
def execQdrop (h : Hdr) (k : R11) (s : State) : Res := popOp h 8 k.toNat s

end Sys2Proof.Machine
end

