-- ==== Sys2Proof/Machine/Real.lean ====
section
/-! DEFINITION. IEEE binary32 and bfloat16 (R60-R66, R129, R130) and the tapered formats (R67-R72): exact values and one rounding. -/

namespace Sys2Proof.Machine

/-- A real operand or exact result: NaN (or NaR), an infinity, or m × 2^e with a sign (a zero keeps its sign). -/
inductive RVal where
  | nan
  | inf (neg : Bool)
  | fin (neg : Bool) (m : Nat) (e : Int)
  deriving DecidableEq, Repr

/-- 2^k for an integer k ≥ 0, and 1 below. -/
def pow2 (k : Int) : Nat := 2 ^ k.toNat

/-- The signed integer m with its sign. -/
def signedOf (neg : Bool) (m : Nat) : Int := if neg then -(m : Int) else m

/-- Exact product (R61). The sign of an infinite or zero product is the exclusive or. -/
def RVal.mul : RVal → RVal → RVal
  | .nan, _ => .nan
  | _, .nan => .nan
  | .inf s, .inf t => .inf (s != t)
  | .inf s, .fin t m _ => if m = 0 then .nan else .inf (s != t)
  | .fin s m _, .inf t => if m = 0 then .nan else .inf (s != t)
  | .fin s m e, .fin t n f => .fin (s != t) (m * n) (e + f)

/-- Exact sum. A sum that is exactly zero is +0, or -0 under .rd, unless both addends are zeros of one sign (R129). -/
def RVal.add (rd : Bool) : RVal → RVal → RVal
  | .nan, _ => .nan
  | _, .nan => .nan
  | .inf s, .inf t => if s = t then .inf s else .nan
  | .inf s, .fin _ _ _ => .inf s
  | .fin _ _ _, .inf t => .inf t
  | .fin s m e, .fin t n f =>
    let g := if e ≤ f then e else f
    let z := signedOf s (m * pow2 (e - g)) + signedOf t (n * pow2 (f - g))
    if z = 0 then .fin (if m = 0 ∧ n = 0 ∧ s = t then s else rd) 0 0
    else .fin (decide (z < 0)) z.natAbs g

/-- Negation of an exact value. -/
def RVal.neg : RVal → RVal
  | .nan => .nan
  | .inf s => .inf (!s)
  | .fin s m e => .fin (!s) m e

/-- The rounding step: whether a magnitude with integer part k and remainder r of den is rounded up (R62). -/
def roundsUp (mode : Rnd) (neg : Bool) (k r den : Nat) : Bool :=
  match mode with
  | .rn => decide (den < 2 * r) || (decide (2 * r = den) && decide (k % 2 = 1))
  | .rz => false
  | .rd => neg && decide (0 < r)
  | .ru => !neg && decide (0 < r)

/-- floor(log2(n / d)) for n, d > 0. -/
def ilog2 (n d : Nat) : Int :=
  let k : Int := (n.log2 : Int) - (d.log2 : Int)
  if d * pow2 k ≤ n * pow2 (-k) then k else k - 1

/-- Overflow by the mode (R61): infinity, or the largest finite magnitude. fb is the number of fraction bits. -/
def overflowBits (fb : Nat) (mode : Rnd) (neg : Bool) : Nat :=
  let toInf : Bool := match mode with
    | .rn => true | .rz => false | .rd => neg | .ru => !neg
  if toInf then 255 * 2 ^ fb else 255 * 2 ^ fb - 1

/-- The magnitude bits of (n / d) > 0 rounded once to the binary format with fb fraction bits (R61, R62). -/
def roundMag (fb : Nat) (mode : Rnd) (neg : Bool) (n d : Nat) : Nat :=
  let e := ilog2 n d
  let lo : Int := -126 - (fb : Int)
  let q := if e - (fb : Int) < lo then lo else e - (fb : Int)
  let num := n * pow2 (-q)
  let den := d * pow2 q
  let k := num / den + bit (roundsUp mode neg (num / den) (num % den) den)
  -- a carry out of the significand moves the exponent by one, which this sum does by itself
  let mag : Int := (q - lo) * ((2 ^ fb : Nat) : Int) + (k : Int)
  if ((255 * 2 ^ fb : Nat) : Int) ≤ mag then overflowBits fb mode neg else mag.toNat

/-- The canonical quiet NaN (R63). -/
def canonNan (fb : Nat) : Nat := 255 * 2 ^ fb + 2 ^ (fb - 1)

/-- Sign bit of the format with fb fraction bits. -/
def signBit (fb : Nat) : Nat := 2 ^ (fb + 8)

/-- Round an exact value once to a binary format (R61). -/
def roundBin (fb : Nat) (mode : Rnd) : RVal → Nat
  | .nan => canonNan fb
  | .inf s => bit s * signBit fb + 255 * 2 ^ fb
  | .fin s m e => bit s * signBit fb + (if m = 0 then 0 else roundMag fb mode s (m * pow2 e) (pow2 (-e)))

/-- Read a binary format (R60). -/
def readBin (fb x : Nat) : RVal :=
  let s := bitOf x (fb + 8)
  let e := field x fb 8
  let f := x % 2 ^ fb
  if e = 255 then (if f = 0 then .inf s else .nan)
  else if e = 0 then .fin s f (-126 - (fb : Int))
  else .fin s (2 ^ fb + f) ((e : Int) - 127 - (fb : Int))

/-- Integer square root: the largest r below 2^bits with r × r ≤ n. -/
def isqrt : Nat → Nat → Nat → Nat
  | 0, _, r => r
  | k + 1, n, r => isqrt k n (if (r + 2 ^ k) * (r + 2 ^ k) ≤ n then r + 2 ^ k else r)

/-- RCP, correctly rounded (R65). -/
def rcpBin (fb x : Nat) : Nat :=
  match readBin fb x with
  | .nan => canonNan fb
  | .inf s => bit s * signBit fb
  | .fin s m e =>
    if m = 0 then bit s * signBit fb + 255 * 2 ^ fb
    else bit s * signBit fb + roundMag fb .rn s (pow2 (-e)) (m * pow2 e)

/-- SQRT, correctly rounded: the root to 160 binary places and a sticky bit below it (R65). -/
def sqrtBin (fb x : Nat) : Nat :=
  match readBin fb x with
  | .nan => canonNan fb
  | .inf s => if s then canonNan fb else 255 * 2 ^ fb
  | .fin s m e =>
    if m = 0 then bit s * signBit fb
    else if s then canonNan fb
    else
      let n := m * pow2 (e + 320)
      let r := isqrt 260 n 0
      roundMag fb .rn false (2 * r + bit (r * r != n)) (2 ^ 161)

/-- RSQ, correctly rounded: the root of the reciprocal to 160 places and a sticky bit (R65). -/
def rsqBin (fb x : Nat) : Nat :=
  match readBin fb x with
  | .nan => canonNan fb
  | .inf s => if s then canonNan fb else 0
  | .fin s m e =>
    if m = 0 then bit s * signBit fb + 255 * 2 ^ fb
    else if s then canonNan fb
    else
      let num := pow2 (320 - e)
      let den := m
      let r := isqrt 260 (num / den) 0
      roundMag fb .rn false (2 * r + bit (r * r * den != num)) (2 ^ 161)

/-- One more binary digit of 2^f: the running root of 2 and the product, each as a pair of bounds in units of 2^-128. -/
structure PowAcc where
  rlo : Nat
  rhi : Nat
  plo : Nat
  phi : Nat

/-- Bounds of 2^f for the fraction f with binary digits fs, most significant first, in units of 2^-128. -/
def powBounds : List Bool → PowAcc → PowAcc
  | [], a => a
  | b :: bs, a =>
    let rlo := isqrt 130 (a.rlo * 2 ^ 128) 0
    let rhi := isqrt 130 (a.rhi * 2 ^ 128) 0 + 1
    powBounds bs
      { rlo := rlo, rhi := rhi
        plo := if b then a.plo * rlo / 2 ^ 128 else a.plo
        phi := if b then a.phi * rhi / 2 ^ 128 + 1 else a.phi }

/-- The exact choice between two neighbouring magnitudes for 2^(x / 2^k): whether 2^(x / 2^k) exceeds c / 2^j. -/
def powExceeds (x : Int) (k c j : Nat) : Bool :=
  decide (c ^ (2 ^ k) * pow2 (-x) < pow2 x * 2 ^ (j * 2 ^ k))

/-- The value m × 2^e of a finite magnitude pattern. -/
def magNum (fb x : Nat) : Nat × Int :=
  match readBin fb (x % signBit fb) with
  | .fin _ m e => (m, e)
  | _ => (0, 0)

/-- EX2, correctly rounded (R65): bounds first, and the exact comparison with the midpoint where the bounds round differently. -/
def ex2Bin (fb x : Nat) : Nat :=
  match readBin fb x with
  | .nan => canonNan fb
  | .inf s => if s then 0 else 255 * 2 ^ fb
  | .fin s m e =>
    let z := signedOf s m
    if 0 ≤ e then
      (if 128 ≤ z * pow2 e then 255 * 2 ^ fb else if z * pow2 e < -300 then 0
       else roundMag fb .rn false (pow2 (z * pow2 e)) (pow2 (-(z * pow2 e))))
    else
      let k := (-e).toNat
      let i := z / ((2 ^ k : Nat) : Int)
      let f := (z % ((2 ^ k : Nat) : Int)).toNat
      if 128 ≤ i then 255 * 2 ^ fb
      else if i < -300 then 0
      else if f = 0 then roundMag fb .rn false (pow2 i) (pow2 (-i))
      else
        let digits := (List.range (min k 64)).map (fun j => bitOf f (k - 1 - j))
        let a := powBounds digits ⟨2 * 2 ^ 128, 2 * 2 ^ 128, 2 ^ 128, 2 ^ 128⟩
        let phi := if k ≤ 64 then a.phi else a.phi + a.phi / 2 ^ 64 + 1
        let lo := roundMag fb .rn false (a.plo * pow2 i) (2 ^ 128 * pow2 (-i))
        let hi := roundMag fb .rn false (phi * pow2 i) (2 ^ 128 * pow2 (-i))
        if lo = hi then lo
        else
          let (ml, el) := magNum fb lo
          let (mh, eh) := magNum fb hi
          let g := (if el ≤ eh then el else eh)
          let c := ml * pow2 (el - g) + mh * pow2 (eh - g)
          -- the midpoint is c × 2^(g - 1), and g - 1 < 0 for every binary32 and bfloat16 magnitude in reach of a fraction
          if powExceeds z k (c * pow2 (g - 1)) (1 - g).toNat then hi else lo

/-- Binary digits of log2 of y, y in [1, 2) given by bounds in units of 2^-256: the digits found, and their number. -/
def logDigits : Nat → Nat → Nat → Nat → Nat → Nat × Nat
  | 0, _, _, acc, n => (acc, n)
  | k + 1, lo, hi, acc, n =>
    let l2 := lo * lo / 2 ^ 256
    let h2 := hi * hi / 2 ^ 256 + 1
    if 2 * 2 ^ 256 ≤ l2 then logDigits k (l2 / 2) (h2 / 2 + 1) (2 * acc + 1) (n + 1)
    else if h2 < 2 * 2 ^ 256 then logDigits k l2 h2 (2 * acc) (n + 1)
    else (acc, n)

/-- LG2, correctly rounded (R65): bounds first, and the exact comparison x^(2^j) with 2^c where they round differently. -/
def lg2Bin (fb x : Nat) : Nat :=
  match readBin fb x with
  | .nan => canonNan fb
  | .inf s => if s then canonNan fb else 255 * 2 ^ fb
  | .fin s m e =>
    if m = 0 then signBit fb + 255 * 2 ^ fb
    else if s then canonNan fb
    else
      let ip : Int := (m.log2 : Int) + e
      if m = 2 ^ m.log2 then roundBin fb .rn (.fin (decide (ip < 0)) ip.natAbs 0)
      else
        let y := m * 2 ^ 256 / 2 ^ m.log2
        let (acc, n) := logDigits 120 y y 0 0
        let t : Int := ip * ((2 ^ n : Nat) : Int) + (acc : Int)
        -- log2 x lies strictly between t / 2^n and (t + 1) / 2^n
        let neg := decide (t < 0)
        let near := if neg then (t + 1).natAbs else t.natAbs
        let far := if neg then t.natAbs else (t + 1).natAbs
        let lo := if near = 0 then 0 else roundMag fb .rn neg near (2 ^ n)
        let hi := roundMag fb .rn neg far (2 ^ n)
        let sgn := bit neg * signBit fb
        if lo = hi then sgn + lo
        else
          let (ml, el) := magNum fb lo
          let (mh, eh) := magNum fb hi
          let g := (if el ≤ eh then el else eh)
          let c := ml * pow2 (el - g) + mh * pow2 (eh - g)
          let j := (1 - g).toNat
          -- magnitude above the midpoint c / 2^j: x^(2^j) > 2^c for a positive logarithm, 2^c × x^(2^j) < 1 for a negative one
          let above := if neg then decide ((m * pow2 e) ^ (2 ^ j) * 2 ^ c < pow2 (-e) ^ (2 ^ j))
                       else decide (2 ^ c * pow2 (-e) ^ (2 ^ j) < (m * pow2 e) ^ (2 ^ j))
          sgn + (if above then hi else lo)

/-- A finite value rounded to an integer under the mode (R66, R130). -/
def roundInt (mode : Rnd) (neg : Bool) (m : Nat) (e : Int) : Int :=
  let num := m * pow2 e
  let den := pow2 (-e)
  signedOf neg (num / den + bit (roundsUp mode neg (num / den) (num % den) den))

/-- FRND on a binary format (R130). -/
def frndBin (fb : Nat) (mode : Rnd) (x : Nat) : Nat :=
  match readBin fb x with
  | .nan => canonNan fb
  | .inf s => roundBin fb .rn (.inf s)
  | .fin s m e => roundBin fb .rn (.fin s (roundInt mode s m e).natAbs 0)

/-- MIN and MAX of R64: the other operand for one NaN, −0 below +0. -/
def minBin (fb : Nat) (x y : Nat) (wantMax : Bool) : Nat :=
  match readBin fb x, readBin fb y with
  | .nan, .nan => canonNan fb
  | .nan, _ => y
  | _, .nan => x
  | _, _ =>
    -- the order of sign and magnitude patterns
    let key := fun v : Nat => if bitOf v (fb + 8) then -((v % signBit fb : Nat) : Int) - 1 else ((v % signBit fb : Nat) : Int)
    if wantMax then (if key x < key y then y else x) else (if key y < key x then y else x)

/-- Ordered comparison of R64. -/
def cmpBin (fb : Nat) (c : Cond) (x y : Nat) : Bool :=
  match readBin fb x, readBin fb y with
  | .nan, _ => decide (c = .ne)
  | _, .nan => decide (c = .ne)
  | _, _ =>
    let key := fun v : Nat => signedOf (bitOf v (fb + 8)) (v % signBit fb)
    condHolds c (key x) (key y)

/-! ### Tapered formats -/

/-- Length of the run of bits equal to r at positions p - 1 downward (R67). -/
def runLength (x : Nat) (r : Bool) : Nat → Nat
  | 0 => 0
  | p + 1 => if bitOf x p = r then runLength x r p + 1 else 0

/-- Read an n-bit tapered pattern (R67, R68). -/
def readTapered (n x : Nat) : RVal :=
  let p := x % 2 ^ n
  if p = 0 then .fin false 0 0
  else if p = 2 ^ (n - 1) then .nan
  else
    let s := bitOf p (n - 1)
    let q := if s then 2 ^ n - p else p
    let r := bitOf q (n - 2)
    let m := runLength q r (n - 1)
    let k : Int := if r then (m : Int) - 1 else -(m : Int)
    let left := n - 1 - (m + 1)
    let bits := q % 2 ^ left
    let ex := if 2 ≤ left then bits / 2 ^ (left - 2) else if left = 1 then 2 * bits else 0
    let fw := left - 2
    .fin s (2 ^ fw + bits % 2 ^ fw) (4 * k + (ex : Int) - (fw : Int))

/-- round_tapered of an exact value to n bits (R69). -/
def roundTapered (n : Nat) : RVal → Nat
  | .nan => 2 ^ (n - 1)
  | .inf _ => 2 ^ (n - 1)
  | .fin s m e =>
    if m = 0 then 0
    else
      let top : Int := 4 * ((n : Int) - 2)
      let l := m.log2
      let v : Int := (l : Int) + e
      let p :=
        if top ≤ v then 2 ^ (n - 1) - 1
        else if v < -top ∨ (v = -top ∧ m = 2 ^ l) then 1
        else
          let k := v / 4
          let ex := (v % 4).toNat
          let rl := if 0 ≤ k then k.toNat + 2 else 1 + (-k).toNat
          let rv := if 0 ≤ k then (2 ^ (k.toNat + 1) - 1) * 2 else 1
          let str := (rv * 4 + ex) * 2 ^ l + (m - 2 ^ l)
          let len := rl + 2 + l
          if len ≤ n - 1 then str * 2 ^ (n - 1 - len)
          else
            let sh := len - (n - 1)
            let q := str / 2 ^ sh
            let rest := str % 2 ^ sh
            if 2 ^ (sh - 1) < rest ∨ (rest = 2 ^ (sh - 1) ∧ q % 2 = 1) then q + 1 else q
      if s then (2 ^ n - p) % 2 ^ n else p

/-! ### Real types as instructions name them -/

/-- Element width of a real type (R4). -/
def realWidth : RealTy → Nat
  | .f32 | .t32 => 32 | .bf16 | .t16 => 16 | .t8 => 8

/-- The value of an element of a real type. -/
def readReal : RealTy → Nat → RVal
  | .f32, x => readBin 23 x
  | .bf16, x => readBin 7 x
  | .t32, x => readTapered 32 x
  | .t16, x => readTapered 16 x
  | .t8, x => readTapered 8 x

/-- One rounding to a real type (R61, R69). -/
def roundReal : RealTy → Rnd → RVal → Nat
  | .f32, r, v => roundBin 23 r v
  | .bf16, r, v => roundBin 7 r v
  | .t32, _, v => roundTapered 32 v
  | .t16, _, v => roundTapered 16 v
  | .t8, _, v => roundTapered 8 v

/-- A tapered type (R67). -/
def isTapered : RealTy → Bool
  | .f32 | .bf16 => false | _ => true

/-- The type and the rounding of a scheme F modifier (R92). -/
def modTy : RealMod → RealTy
  | .f32 _ => .f32 | .bf16 _ => .bf16 | .t32 => .t32 | .t16 => .t16 | .t8 => .t8
def modRnd : RealMod → Rnd
  | .f32 r => r | .bf16 r => r | _ => .rn

/-- FADD, FSUB, FMUL, FMA of one element (R129). -/
def elFadd (m : RealMod) (x y : Nat) : Nat :=
  roundReal (modTy m) (modRnd m) ((readReal (modTy m) x).add (decide (modRnd m = .rd)) (readReal (modTy m) y))
def elFsub (m : RealMod) (x y : Nat) : Nat :=
  roundReal (modTy m) (modRnd m) ((readReal (modTy m) x).add (decide (modRnd m = .rd)) (readReal (modTy m) y).neg)
def elFmul (m : RealMod) (x y : Nat) : Nat :=
  roundReal (modTy m) (modRnd m) ((readReal (modTy m) x).mul (readReal (modTy m) y))
def elFma (m : RealMod) (x y z : Nat) : Nat :=
  roundReal (modTy m) (modRnd m) (((readReal (modTy m) x).mul (readReal (modTy m) y)).add (decide (modRnd m = .rd)) (readReal (modTy m) z))

/-- FMIN and FMAX (R64, R71). -/
def elFminmax (t : RealTy) (wantMax : Bool) (x y : Nat) : Nat :=
  match t with
  | .f32 => minBin 23 x y wantMax
  | .bf16 => minBin 7 x y wantMax
  | _ =>
    let w := realWidth t
    if x = 2 ^ (w - 1) ∨ y = 2 ^ (w - 1) then 2 ^ (w - 1)
    else if wantMax then (if signed w x < signed w y then y else x) else (if signed w y < signed w x then y else x)

/-- FNEG and FABS (R63, R70, R129). -/
def elFneg (t : RealTy) (x : Nat) : Nat :=
  let w := realWidth t
  if isTapered t then (2 ^ w - x % 2 ^ w) % 2 ^ w
  else if bitOf x (w - 1) then x - 2 ^ (w - 1) else x + 2 ^ (w - 1)
def elFabs (t : RealTy) (x : Nat) : Nat :=
  let w := realWidth t
  if isTapered t then (if bitOf x (w - 1) then (2 ^ w - x % 2 ^ w) % 2 ^ w else x)
  else x % 2 ^ (w - 1)

/-- FCPS: a with the sign bit of b (R63). -/
def elFcps (w x y : Nat) : Nat := x % 2 ^ (w - 1) + bit (bitOf y (w - 1)) * 2 ^ (w - 1)

/-- FRND (R130). -/
def elFrnd (m : RealMod) (x : Nat) : Nat :=
  match m with
  | .f32 r => frndBin 23 r x
  | .bf16 r => frndBin 7 r x
  | _ =>
    match readReal (modTy m) x with
    | .fin s k e => roundReal (modTy m) .rn (.fin s (roundInt .rn s k e).natAbs 0)
    | v => roundReal (modTy m) .rn v

/-- FCMP on two elements (R64, R71, R127). -/
def cmpReal (c : Cond) (t : CfTy) (x y : Nat) : Bool :=
  match t with
  | .f32 => cmpBin 23 c x y
  | .bf16 => cmpBin 7 c (x % 2 ^ 16) (y % 2 ^ 16)
  | .t16 => condHolds c (signed 16 x) (signed 16 y)
  | .t8 => condHolds c (signed 8 x) (signed 8 y)

/-! ### Conversion -/

/-- Integer types among the CVT types: signedness and width (R95). -/
def cvtInt : CvtTy → Option (Bool × Nat)
  | .i8 => some (true, 8) | .i16 => some (true, 16) | .i32 => some (true, 32) | .i64 => some (true, 64)
  | .n8 => some (false, 8) | .n16 => some (false, 16) | .n32 => some (false, 32) | .n64 => some (false, 64)
  | _ => none

/-- Real types among the CVT types (R95). -/
def cvtReal : CvtTy → Option RealTy
  | .f32 => some .f32 | .bf16 => some .bf16 | .t8 => some .t8 | .t16 => some .t16 | .t32 => some .t32
  | _ => none

/-- Width of a CVT type (R95). -/
def cvtWidth : CvtTy → Nat
  | .i8 | .n8 | .t8 => 8
  | .i16 | .n16 | .bf16 | .t16 => 16
  | .i32 | .n32 | .f32 | .t32 => 32
  | .i64 | .n64 => 64

/-- A real value converted to an integer type: rounded under the mode, then always clamped; NaN and NaR give 0 (R66, R72). -/
def realToInt (r : Rnd) (sg : Bool) (w : Nat) : RVal → Nat
  | .nan => 0
  | .inf s => wrapTo w (if s then intMin sg w else intMax sg w)
  | .fin s m e => wrapTo w (clampTo sg w (roundInt r s m e))

/-- CVT of element a: the destination element (R59, R66, R72, R132). -/
def cvtElem (dst src : CvtTy) (sat : Bool) (r : Rnd) (x : Nat) : Nat :=
  match cvtInt src, cvtInt dst, cvtReal src, cvtReal dst with
  | some (sg, w), some (dg, dw), _, _ => narrow dg sat dw (intVal sg w x)
  | some (sg, w), none, _, some t =>
    let z := intVal sg w x
    roundReal t r (.fin (decide (z < 0)) z.natAbs 0)
  | none, some (dg, dw), some t, _ => realToInt r dg dw (readReal t (x % 2 ^ realWidth t))
  | none, none, some t, some u => roundReal u r (readReal t (x % 2 ^ realWidth t))
  | _, _, _, _ => 0

/-- The register pattern CVT writes: sub-element 0, sign-extended for i8 and i16, zero above otherwise (R131). -/
def cvtWrite (dst : CvtTy) (y : Nat) : Nat :=
  match dst with
  | .i8 => wrapTo 32 (signed 8 y)
  | .i16 => wrapTo 32 (signed 16 y)
  | _ => y

end Sys2Proof.Machine
end

