-- ==== Sys2Proof/Machine/RealInst.lean ====
section
/-! DEFINITION. Real arithmetic and conversion (R128 to R132): one meaning for each row, over the shared frame of R116. -/

namespace Sys2Proof.Machine

/-- Sub-elements of a real type (R57). -/
def realCount (t : RealTy) : Nat := 32 / realWidth t

/-- Two, one and three operand real operations over sub-elements (R128). -/
def real2 (h : Hdr) (len d a : Nat) (b : Opnd) (t : RealTy) (f : Nat → Nat → Nat) (s : State) : Res :=
  vop h len d 1 [.v a 1, b] (fun x => mapElems2 (realWidth t) f (arg x 0) (arg x 1)) s
def real1 (h : Hdr) (len d a : Nat) (t : RealTy) (f : Nat → Nat) (s : State) : Res :=
  vop h len d 1 [.v a 1] (fun x => mapElems1 (realWidth t) f (arg x 0)) s
def fma3 (h : Hdr) (len d a : Nat) (b : Opnd) (c : Nat) (m : RealMod) (s : State) : Res :=
  vop h len d 1 [.v a 1, b, .v c 1] (fun x =>
    joinElems (realWidth (modTy m)) (realCount (modTy m)) (fun j =>
      elFma m (subElem (realWidth (modTy m)) j (arg x 0)) (subElem (realWidth (modTy m)) j (arg x 1)) (subElem (realWidth (modTy m)) j (arg x 2)))) s

/-- FADD, compact: `.f32.rn` (R128, R129). -/
def execFadd (h : Hdr) (d a b : R6) (s : State) : Res := real2 h 4 d.toNat a.toNat (.v b.toNat 1) .f32 (elFadd (.f32 .rn)) s

/-- FADD, full. -/
def execFaddFull (h : Hdr) (d a : R11) (b : Src) (m : RealMod) (s : State) : Res := real2 h (srcLen b) d.toNat a.toNat (srcOpnd b 1 false) (modTy m) (elFadd m) s

/-- FSUB, compact: `.f32.rn` (R128, R129). -/
def execFsub (h : Hdr) (d a b : R6) (s : State) : Res := real2 h 4 d.toNat a.toNat (.v b.toNat 1) .f32 (elFsub (.f32 .rn)) s

/-- FSUB, full. -/
def execFsubFull (h : Hdr) (d a : R11) (b : Src) (m : RealMod) (s : State) : Res := real2 h (srcLen b) d.toNat a.toNat (srcOpnd b 1 false) (modTy m) (elFsub m) s

/-- FMUL, compact: `.f32.rn` (R128, R129). -/
def execFmul (h : Hdr) (d a b : R6) (s : State) : Res := real2 h 4 d.toNat a.toNat (.v b.toNat 1) .f32 (elFmul (.f32 .rn)) s

/-- FMUL, full. -/
def execFmulFull (h : Hdr) (d a : R11) (b : Src) (m : RealMod) (s : State) : Res := real2 h (srcLen b) d.toNat a.toNat (srcOpnd b 1 false) (modTy m) (elFmul m) s

/-- FMA, compact: c is d (R86, R129). -/
def execFma (h : Hdr) (d a b : R6) (s : State) : Res := fma3 h 4 d.toNat a.toNat (.v b.toNat 1) d.toNat (.f32 .rn) s

/-- FMA, full. -/
def execFmaFull (h : Hdr) (d a : R11) (b : Src) (c : R11) (m : RealMod) (s : State) : Res := fma3 h (srcLen b) d.toNat a.toNat (srcOpnd b 1 false) c.toNat m s

/-- FMIN, compact (R64). -/
def execFmin (h : Hdr) (d a b : R6) (s : State) : Res := real2 h 4 d.toNat a.toNat (.v b.toNat 1) .f32 (elFminmax .f32 false) s

/-- FMIN, full (R64, R71). -/
def execFminFull (h : Hdr) (d a : R11) (b : Src) (t : RealTy) (s : State) : Res := real2 h (srcLen b) d.toNat a.toNat (srcOpnd b 1 false) t (elFminmax t false) s

/-- FMAX, compact (R64). -/
def execFmax (h : Hdr) (d a b : R6) (s : State) : Res := real2 h 4 d.toNat a.toNat (.v b.toNat 1) .f32 (elFminmax .f32 true) s

/-- FMAX, full (R64, R71). -/
def execFmaxFull (h : Hdr) (d a : R11) (b : Src) (t : RealTy) (s : State) : Res := real2 h (srcLen b) d.toNat a.toNat (srcOpnd b 1 false) t (elFminmax t true) s

/-- FNEG, compact (R129). -/
def execFneg (h : Hdr) (d a : R6) (s : State) : Res := real1 h 4 d.toNat a.toNat .f32 (elFneg .f32) s

/-- FNEG, full (R129). -/
def execFnegFull (h : Hdr) (d a : R11) (t : RealTy) (s : State) : Res := real1 h 8 d.toNat a.toNat t (elFneg t) s

/-- FABS, compact (R129). -/
def execFabs (h : Hdr) (d a : R6) (s : State) : Res := real1 h 4 d.toNat a.toNat .f32 (elFabs .f32) s

/-- FABS, full (R129). -/
def execFabsFull (h : Hdr) (d a : R11) (t : RealTy) (s : State) : Res := real1 h 8 d.toNat a.toNat t (elFabs t) s

/-- FCPS, compact (R129). -/
def execFcps (h : Hdr) (d a b : R6) (s : State) : Res := real2 h 4 d.toNat a.toNat (.v b.toNat 1) .f32 (elFcps 32) s

/-- FCPS, full (R129). -/
def execFcpsFull (h : Hdr) (d a : R11) (b : Src) (bf : Bool) (s : State) : Res := real2 h (srcLen b) d.toNat a.toNat (srcOpnd b 1 false) (if bf then .bf16 else .f32) (elFcps (if bf then 16 else 32)) s

/-- A special function of f32, or of both bf16 sub-elements (R65). -/
def special (h : Hdr) (d a : R11) (bf : Bool) (f : Nat → Nat → Nat) (s : State) : Res :=
  real1 h 8 d.toNat a.toNat (if bf then .bf16 else .f32) (f (if bf then 7 else 23)) s

/-- RCP (R65). -/
def execRcp (h : Hdr) (d a : R11) (bf : Bool) (s : State) : Res := special h d a bf rcpBin s

/-- SQRT (R65). -/
def execSqrt (h : Hdr) (d a : R11) (bf : Bool) (s : State) : Res := special h d a bf sqrtBin s

/-- RSQ (R65). -/
def execRsq (h : Hdr) (d a : R11) (bf : Bool) (s : State) : Res := special h d a bf rsqBin s

/-- EX2 (R65). -/
def execEx2 (h : Hdr) (d a : R11) (bf : Bool) (s : State) : Res := special h d a bf ex2Bin s

/-- LG2 (R65). -/
def execLg2 (h : Hdr) (d a : R11) (bf : Bool) (s : State) : Res := special h d a bf lg2Bin s

/-- FRND (R130). -/
def execFrnd (h : Hdr) (d a : R11) (m : RealMod) (s : State) : Res := real1 h 8 d.toNat a.toNat (modTy m) (elFrnd m) s

/-- FCMP on sub-element 0 (R64, R71, R127). -/
def fcmp2 (h : Hdr) (len a : Nat) (b : Opnd) (c : Cond) (t : CfTy) (s : State) : Res :=
  pushOp h len [.v a 1, b] (fun x => cmpReal c t (arg x 0) (arg x 1)) s

/-- FCMP, compact: `.eq.f32` (R126). -/
def execFcmp (h : Hdr) (a b : R6) (s : State) : Res := fcmp2 h 4 a.toNat (.v b.toNat 1) .eq .f32 s

/-- FCMP, full. -/
def execFcmpFull (h : Hdr) (a : R11) (b : Src) (c : Cond) (t : CfTy) (s : State) : Res := fcmp2 h (srcLen b) a.toNat (srcOpnd b 1 false) c t s

/-- Words of a CVT type (R131). -/
def cvtWords (t : CvtTy) : Nat := if cvtWidth t = 64 then 2 else 1

/-- CVT (R131, R132). -/
def execCvt (h : Hdr) (d a : R11) (dst src : CvtTy) (sat : Bool) (r : Rnd) (s : State) : Res := vop h 8 d.toNat (cvtWords dst) [.v a.toNat (cvtWords src)] (fun x => cvtWrite dst (cvtElem dst src sat r (arg x 0))) s

end Sys2Proof.Machine
end

