-- ==== Sys2Proof/Machine/CrossLane.lean ====
section
/-! DEFINITION. Cross-lane instructions and FORM (R135 to R141). -/

namespace Sys2Proof.Machine

/-- The participants of a cross-lane instruction, each with its operands (R135). -/
def partsOf (st : Strand) (g : Guard) (srcs : List Opnd) : List (Nat × List Nat) :=
  let is := present st
  ((is.zip (guardFlags st g)).zip (rows is.length 0 (srcs.map (opndVals st)))).filterMap (fun e => if e.1.2 then some (e.1.1, e.2) else none)

/-- The participants that hold a poisoned word which enters a result (R142, R390). uses: of the participants, the operands (by number) and the indices whose values
enter. The word of a U or A register is read at every index that acts, where any of them reads it (R389). -/
def enterPoisoned (st : Strand) (g : Guard) (srcs : List Opnd) (uses : Nat → List (Nat × List Nat) → List (Nat × Nat)) : List Nat :=
  if st.poison.isEmpty then []
  else
    let used := uses (st.first / 64 * 64) (partsOf st g srcs)
    (acting st g).filter (fun i => ((List.range srcs.length).zip srcs).any (fun k => k.2.regs.any (fun r => poisonedAt st r i &&
      (used.contains (k.1, i) || (!isXV (vform st r) && used.any (fun u => u.1 == k.1))))))

/-- The participants that consume a poisoned word park, and the others execute over themselves: a strand for each run, where a compact strand is cut (R390). What a result takes
in the place of a parked participant's value, as R137 and R140 give, may be a poisoned word in its turn. A participant that has parked takes no part in the result of the others
(DESIGN CHOICE, log 85). -/
def overSound (rs : List Nat) (uses : State → Strand → List Nat) (len : Nat) (f : State → Strand → State) : Nat → State → Strand → State
  | 0, s, st => f s st
  | k + 1, s, st => withoutPoison s st rs (uses s st) len (overSound rs uses len f k)

/-- The frame of R135: no participant under a U false guard; else steps 1 to 3 of R37 first, then the result over the participants.
f: base of the window and participants give the result at each participant. -/
def crossOp (h : Hdr) (len d n : Nat) (srcs : List Opnd) (uses : Nat → List (Nat × List Nat) → List (Nat × Nat))
    (f : Nat → List (Nat × List Nat) → List Nat) (s : State) : Res :=
  onCur s fun st =>
    let rs := srcs.flatMap Opnd.regs ++ List.range' d n
    let q := guardReads h.g || srcs.any Opnd.readsQ
    if mustWait s st rs q then waitFor s st.sid rs q
    else if guardU st h.g = some false then commit s st { regs := [], stack := none, pois := [], acted := [] } len
    else asIfX s st (fun s st =>
      overSound (srcs.flatMap Opnd.regs) (fun _ st => enterPoisoned st h.g srcs uses) len (fun s st =>
        let parts := partsOf st h.g srcs
        let vals := f (st.first / 64 * 64) parts
        -- the values are aligned with the participants; the others keep theirs
        let full := (present st).map (fun i => nth vals (parts.findIdx (fun p => p.1 == i)) 0)
        writeResult s st (guardedWrite st h.g d n full) len) (if st.poison.isEmpty then 0 else presentCount st) s st)

/-- Every operand of every participant enters a result (R138, R139). -/
def allEnter (n : Nat) (_base : Nat) (parts : List (Nat × List Nat)) : List (Nat × Nat) := parts.flatMap (fun p => (List.range n).map (fun k => (k, p.1)))

/-- The operand row of the participant at a position, if there is one (R135). -/
def atPos (base : Nat) (parts : List (Nat × List Nat)) (p : Int) : Option (List Nat) :=
  if p < 0 then none else if (Config.lanes : Int) ≤ p then none else (parts.find? (fun e => ((e.1 : Int) == (base : Int) + p))).map (fun e => e.2)

/-- The source position of a participant of SHFL (R137). -/
def shflSrc (m : ShflMode) (base : Nat) (e : Nat × List Nat) : Int :=
  let p := e.1 - base
  let b := arg e.2 1
  match m with
  | .up => (p : Int) - b | .down => (p : Int) + b | .xor => ((p ^^^ b : Nat) : Int) | .idx => b

/-- SHFL (R137). -/
def shflAt (m : ShflMode) (base : Nat) (parts : List (Nat × List Nat)) : List Nat :=
  parts.map (fun e => arg ((atPos base parts (shflSrc m base e)).getD e.2) 0)

/-- What enters a result of SHFL: operand b of every participant, and operand a of every source (R137, R142). -/
def shflUses (m : ShflMode) (base : Nat) (parts : List (Nat × List Nat)) : List (Nat × Nat) :=
  parts.flatMap (fun e => [(1, e.1), (0, if (atPos base parts (shflSrc m base e)).isSome then base + (shflSrc m base e).toNat else e.1)])

/-- BALLOT (R138): entry q of each participant, as 0 or 1, gathered into a mask. -/
def ballotMask (base : Nat) (parts : List (Nat × List Nat)) : Nat := parts.foldl (fun a e => a + arg e.2 0 * 2 ^ (e.1 - base)) 0

/-- The operations of RED and SCAN on 32-bit patterns, with their identities (R139). -/
def redOp (o : RedOp) (x y : Nat) : Nat :=
  match o with
  | .add => (x + y) % 2 ^ 32
  | .min => elMin .i32 x y | .max => elMax .i32 x y
  | .minu => elMin .n32 x y | .maxu => elMax .n32 x y
  | .and => x &&& y | .or => x ||| y | .xor => x ^^^ y
  | .fadd => elFadd (.f32 .rn) x y
  | .fmin => elFminmax .f32 false x y | .fmax => elFminmax .f32 true x y
def redId : RedOp → Nat
  | .add => 0 | .min => 0x7FFFFFFF | .max => 0x80000000 | .minu => 0xFFFFFFFF | .maxu => 0
  | .and => 0xFFFFFFFF | .or => 0 | .xor => 0 | .fadd => 0x80000000 | .fmin => canonNan 23 | .fmax => canonNan 23

/-- The table t of R139 before the steps. -/
def redStart (o : RedOp) (base : Nat) (parts : List (Nat × List Nat)) : List Nat :=
  (List.range Config.lanes).map (fun (p : Nat) => match atPos base parts (p : Int) with | some r => arg r 0 | none => redId o)

/-- The steps of RED, s = 2^0, 2^1, … below the lane width (R139). -/
def redSteps (o : RedOp) (t : List Nat) : List Nat :=
  (List.range 6).foldl (fun t k => (List.range Config.lanes).map (fun p =>
    if p % 2 ^ (k + 1) = 0 then redOp o (nth t p 0) (nth t (p + 2 ^ k) 0) else nth t p 0)) t

/-- The steps of SCAN, each reading the previous step (R139). -/
def scanSteps (o : RedOp) (t : List Nat) : List Nat :=
  (List.range 6).foldl (fun u k => (List.range Config.lanes).map (fun p =>
    if 2 ^ k ≤ p then redOp o (nth u (p - 2 ^ k) 0) (nth u p 0) else nth u p 0)) t

/-- BCAST (R140): the value of a at position b(f) of the lowest participant f, or a(f). -/
def bcastAt (base : Nat) (parts : List (Nat × List Nat)) : List Nat :=
  let f := (parts.head?).map (fun e => e.2)
  let own := arg (f.getD []) 0
  let v := match atPos base parts (arg (f.getD []) 1) with | some r => arg r 0 | none => own
  parts.map (fun _ => v)

/-- What enters the result of BCAST: operand b of the lowest participant, and operand a of the source (R140, R142). -/
def bcastUses (base : Nat) (parts : List (Nat × List Nat)) : List (Nat × Nat) :=
  match parts with
  | [] => []
  | f :: _ => [(1, f.1), (0, if (atPos base parts (arg f.2 1)).isSome then base + arg f.2 1 else f.1)]

/-- BALLOT (R138). -/
def execBallot (h : Hdr) (d : R11) (q : BitVec 3) (s : State) : Res :=
  crossOp h 8 d.toNat 2 [.q q.toNat false] (allEnter 1) (fun base parts => parts.map (fun _ => ballotMask base parts)) s

/-- SHFL (R137). -/
def execShfl (h : Hdr) (d a : R11) (b : Src) (m : ShflMode) (s : State) : Res :=
  crossOp h (srcLen b) d.toNat 1 [.v a.toNat 1, srcOpnd b 1 false] (shflUses m) (shflAt m) s

/-- RED (R139). -/
def execRed (h : Hdr) (d a : R11) (o : RedOp) (s : State) : Res :=
  crossOp h 8 d.toNat 1 [.v a.toNat 1] (allEnter 1) (fun base parts =>
    let t := redSteps o (redStart o base parts)
    parts.map (fun _ => nth t 0 0)) s

/-- SCAN (R139). -/
def execScan (h : Hdr) (d a : R11) (o : RedOp) (s : State) : Res :=
  crossOp h 8 d.toNat 1 [.v a.toNat 1] (allEnter 1) (fun base parts =>
    let t := scanSteps o (redStart o base parts)
    parts.map (fun e => nth t (e.1 - base) 0)) s

/-- BCAST (R140). -/
def execBcast (h : Hdr) (d a : R11) (b : Src) (s : State) : Res :=
  crossOp h (srcLen b) d.toNat 1 [.v a.toNat 1, srcOpnd b 1 false] bcastUses bcastAt s

/-- The code of a form (R141). -/
def formCode : VForm → Nat
  | .u _ => 0 | .a _ _ => 1 | .x _ => 2

/-- FORM (R141): the code of the form of a over the participants; finding it takes no cut. Where a guard leaves a destination that needs X, that write takes the
cuts of R37 as any guarded write does (R42), and the code stays that of the participants before them: the strands that a placement cut leaves keep it
(DESIGN CHOICE, log 78). -/
def execForm (h : Hdr) (d a : R11) (s : State) : Res :=
  regFrame h 8 [.v a.toNat 1] [d.toNat] false (fun s st =>
    let act := acting st h.g
    let code := match st.replay with
      | some r => r.1
      | none => formCode (classifyV act (selectAt (present st) (regVals st a.toNat) act))
    let r := guardedWrite st h.g d.toNat 1 ((present st).map (fun _ => code))
    if st.mask.isNone && st.team.isNone && r.regs.any (fun e => isXV (classifyV (present st) e.2)) then placementCut s { st with replay := some (code, 0, 0) }
    else commit s { st with replay := none } r 8) s

end Sys2Proof.Machine
end

