-- ==== Sys2Proof/Machine/Translate.lean ====
section
/-! DEFINITION. Translation: the walk, TLBs, walk caches, misses, invalidations and host translations (R163, R165, R207, R325 to R333, R342). -/

namespace Sys2Proof.Machine

/-- Size of the page that a leaf maps (R325). -/
def leafSize (level : Nat) (s64 : Bool) : Nat :=
  match level with
  | 1 => if s64 then 65536 else 4096
  | 2 => 2 ^ 21
  | _ => 2 ^ 30

/-- An entry of this level is malformed (R326, R327). -/
def pteBad (e l : Nat) : Bool :=
  let ty := field e 1 2
  field e 7 5 != 0 || field e 42 12 != 0 || ty == 3 || (ty == 0 && l == 1) || (ty != 0 && l == 4) ||
    (ty == 1 && field e 12 30 * 4096 % leafSize l (bitOf e 5) != 0)

/-- The address of the entry of level l for a virtual address in the table at t (R325). -/
def entryAt (va l t : Nat) : Nat := t + 8 * field va (12 + 9 * (l - 1)) 9

/-- The walk of R327 from the table at t over the levels given. A poisoned entry ends it, since nothing may depend on it unreported (R372; DEDUCED, log 114). -/
def walkLevels (s : State) (va : Nat) : List Nat → Nat → TransRes
  | [], _ => .fault 2 1
  | l :: ls, t =>
    let ea := entryAt va l t
    if Config.deviceBytes ≤ ea then .noDevice ea
    else if homePoison s .dev ea 8 then .poisoned l
    else
      let e := ofBytes (memGets s.mem ea 8)
      let ty := field e 1 2
      let pa := field e 12 30 * 4096
      let sz := leafSize l (bitOf e 5)
      if !bitOf e 0 then .fault 1 l
      else if pteBad e l then .fault 2 l
      else if ty = 0 then walkLevels s va ls pa
      else if ty = 2 then .ok ⟨true, 0, leafSize l false, bitOf e 3, false, 0, l, bitOf e 6⟩
      else .ok ⟨false, pa, sz, bitOf e 3, bitOf e 4, field e 54 10, l, false⟩

/-- walk of R327 in a context. -/
def walk (s : State) (c va : Nat) : TransRes :=
  if 2 ^ 48 ≤ va then .fault 3 0
  else match ctxOf s c with
    | none => .fault 1 4
    | some x => walkLevels s va [4, 3, 2, 1] x.root

/-! ### The translation engine of a die (R329) -/

/-- The levels of a walk below an entry of level l, highest first; the root stands for level 5. -/
def levelsBelow (l : Nat) : List Nat := (List.range' 1 (l - 1)).reverse

/-- The block of addresses that an entry of a level covers (R325). -/
def blockAt (l va : Nat) : Nat := va / 2 ^ (12 + 9 * (l - 1))

/-- Where a walk starts: at the pointer of the lowest level that the die's walk cache holds for the address, else at the root. -/
def walkStart (s : State) (die c va root : Nat) : Nat × Nat :=
  (([2, 3, 4].findSome? (fun l => s.walkCache.find? (fun e => e.die == die && e.ctx == c && e.level == l && e.block == blockAt l va))).map
    (fun e => (e.level, e.ptr))).getD (5, root)

/-- The entries that a walk reads: level, address, and the next table where the entry is a pointer to one. -/
def walkReads (s : State) (va : Nat) : List Nat → Nat → List (Nat × Nat × Option Nat)
  | [], _ => []
  | l :: ls, t =>
    let ea := entryAt va l t
    if Config.deviceBytes ≤ ea then []
    else
      let e := ofBytes (memGets s.mem ea 8)
      if bitOf e 0 && field e 1 2 == 0 && !pteBad e l && !homePoison s .dev ea 8 then (l, ea, some (field e 12 30 * 4096)) :: walkReads s va ls (field e 12 30 * 4096)
      else [(l, ea, none)]

/-- Entries that a walk cache holds at most. -/
def walkCacheSize : Nat := 4096

/-- A pointer enters the walk cache of its die, in place of the oldest one of a full cache (DESIGN CHOICE, log 3). -/
def cachePointer (w : List WalkEntry) (e : WalkEntry) : List WalkEntry :=
  if w.contains e then w
  else
    let mine := w.filter (fun x => x.die == e.die)
    (if walkCacheSize ≤ mine.length then w.erase (mine.headD e) else w) ++ [e]

/-- The walk of a translation engine: R327 from the walk cache on, reading entries through L2 like loads, and keeping the pointers that it finds. -/
def engineWalk (s : State) (die c va : Nat) : TransRes × State :=
  if 2 ^ 48 ≤ va then (.fault 3 0, s)
  else match ctxOf s c with
    | none => (.fault 1 4, s)
    | some x =>
      let (l, t) := walkStart s die c va x.root
      let rs := walkReads s va (levelsBelow l) t
      let s1 := rs.foldl (fun a r => l2Use x.part 0 a (r.2.1 / 64)) s
      (walkLevels s va (levelsBelow l) t,
       { s1 with walkCache := rs.foldl (fun w r => match r.2.2 with | some p => cachePointer w ⟨die, c, r.1, blockAt r.1 va, p⟩ | none => w) s1.walkCache })

/-- The first address that a translation covers. -/
def transStart (va : Nat) (t : Trans) : Nat := va / t.size * t.size

/-- The TLB entry of a core for an address (R329). -/
def tlbLookup (s : State) (core c va : Nat) : Option Trans :=
  ((coreOf s core).tlb.find? (fun e => e.ctx == c && decide (e.page * 4096 ≤ va) && decide (va < e.page * 4096 + e.tr.size))).map (fun e => e.tr)

/-- Enter a translation into a core's TLB of 8 ways of 128 sets, the set by the page number mod 128: the oldest entry of the set leaves when it is full (R329; DESIGN CHOICE, logs 3 and 108). What leaves
is remembered for the accesses that it has served (R330). -/
def tlbInsert (s : State) (core c va : Nat) (t : Trans) : State :=
  let x := coreOf s core
  let e : TlbEntry := ⟨c, transStart va t / 4096, t⟩
  let old := x.tlb.filter (fun o => !(o.ctx == c && o.page == e.page))
  let same := old.filter (fun o => o.page % 128 == e.page % 128)
  let old' := if 8 ≤ same.length then old.erase (same.headD e) else old
  let gone := (x.tlb.filter (fun o => !(old' ++ [e]).contains o)).filter (fun o => !x.evicted.contains o)
  putCore s { x with tlb := old' ++ [e], evicted := x.evicted ++ gone }

/-- What an access to a location is answered (R163, R167). -/
inductive AccRes where
  | ok (sp : Space) (a : Nat)
  | miss (page : Nat)
  | fault (kind cause info : Nat)
  | bad (pa : Nat)
  deriving DecidableEq, Repr

/-- What a translation gives an access of n bytes: permissions, and keys for stores and atomics (R167, R332). -/
def checkTrans (c va n : Nat) (store : Bool) : TransRes → AccRes
  | .fault k l => .fault 11 k l
  | .noPasid => .fault 12 5 0
  | .noDevice pa => .bad pa
  | .poisoned l => .fault 15 2 l
  | .ok t =>
    if store && !t.w then .fault 12 1 0
    else if t.host then .ok (.host c) (t.base + va % t.size)
    else if store && t.keyid ≠ 0 then .fault 12 2 0
    else if Config.deviceBytes < t.base + va % t.size + n then .bad (t.base + va % t.size)
    else .ok .dev (t.base + va % t.size)

/-- The translation at hand for a strand: what its walk answered, or its core's TLB (R165, R329). -/
def transOf (s : State) (st : Strand) (va : Nat) : Option TransRes :=
  match s.walkRes.find? (fun r => r.sid == st.sid && r.page == va / 4096) with
  | some r => some r.res
  | none => (tlbLookup s st.core (ctxOfLaunch s st.lk) va).map .ok

/-- Whether a launch has the migration grant (R289, R323). -/
def migGrant (s : State) (lk : Nat) : Bool := ((launchOf s lk).map (fun l => l.gmig)).getD false

/-- One access of a strand (R163, R165). -/
def accessOf (s : State) (st : Strand) (va n : Nat) (store : Bool) : AccRes :=
  if va % n ≠ 0 then .fault 13 0 0
  else if 2 ^ 48 ≤ va then .fault 11 3 0
  else match transOf s st va with
    | none => .miss (va / 4096)
    | some (.ok t) => if t.host && t.mig && migGrant s st.lk then .fault 11 5 t.level else checkTrans (ctxOfLaunch s st.lk) va n store (.ok t)
    | some r => checkTrans (ctxOfLaunch s st.lk) va n store r

/-! ### Misses (R165, R329) -/

/-- A miss joins the walk of its page on its die, or begins one; none while all 512 are in use. The strand, if one waits, is named. -/
def askWalk (s : State) (core c page : Nat) (sid : Option Nat) : Option State :=
  let isIt := fun (r : WalkReq) => r.die == dieOfCore core && r.ctx == c && r.page == page
  let who := sid.toList
  if s.walkReqs.any isIt then
    some { s with walkReqs := updWhere isIt (fun r => { r with cores := insertNat r.cores core, sids := who.foldl insertNat r.sids }) s.walkReqs }
  else if walkRoom s core then some { s with walkReqs := s.walkReqs ++ [⟨dieOfCore core, c, page, [core], who⟩] }
  else none

/-- A miss of a strand: it waits for the walk; it stalls while all 512 are in use. -/
def startWalk (s : State) (st : Strand) (page : Nat) : State :=
  match askWalk s st.core (ctxOfLaunch s st.lk) page (some st.sid) with
  | some s1 => endRun (blockOn s1 st.sid (.walk page))
  | none => stallStrand s st.sid { Need.none with walk := true }

/-- Forget what walks answered for a strand whose instruction has issued. -/
def dropRes (s : State) (sid : Nat) : State := { s with walkRes := s.walkRes.filter (fun r => r.sid != sid) }

/-- Strands that wait for a page translate again. -/
def retryWalk (s : State) (sids : List Nat) : State :=
  sids.foldl (fun a sid => match strandOf a sid with
    | some st => (match st.status with | .blocked (.walk _) | .blocked (.ats _) => unblockSid a sid | _ => a)
    | none => a) s

/-- Unblock the strands that wait for a page, with the answer. -/
def answerWalk (s : State) (sids : List Nat) (page : Nat) (r : TransRes) : State :=
  wakeStalls (retryWalk { s with walkRes := s.walkRes ++ sids.map (fun sid => ⟨sid, page, r⟩) } sids)

/-! ### Engines (R207, R331) -/

/-- Change those commands of the engines that satisfy p. -/
def mapCmds (s : State) (p : Core → SeCmd → Bool) (f : SeCmd → SeCmd) : State :=
  { s with cores := s.cores.map (fun k => { k with engines := k.engines.map (updWhere (p k) f) }) }

/-- Faults that Mboelaor serves before the engine meets them (R207, R289). -/
def serviceable : TransRes → Bool
  | .fault 1 _ | .fault 4 _ | .fault 5 _ => true
  | _ => false

/-- What the answer for its page does to a command: it goes on with the translation or meets the fault, or raises an engine page request (R207). -/
def answerCmd (page : Nat) (r : TransRes) (cmd : SeCmd) : SeCmd :=
  match r with
  | .ok _ => { cmd with waiting := none, answers := aerase cmd.answers page }
  | r => { cmd with waiting := if serviceable r then some (page, .service) else none, answers := ainsert cmd.answers page r }

/-- A page request to the host (R289, R333). -/
def askHost (s : State) (c page : Nat) (write : Bool) : State :=
  if s.priReqs.any (fun r => r.ctx == c && r.page == page) then s else { s with priReqs := s.priReqs ++ [⟨c, page, write⟩] }

/-- The page requests that have been sent: 512 at most (R332). -/
def sentPages (s : State) : List PriReq := s.priReqs.take 512

/-- Engines that wait at a page get the answer; a page that the host has to bring is asked of it (R207, R289, R333). -/
def answerEngines (s : State) (c page : Nat) (p : Core → SeCmd → Bool) (r : TransRes) : State :=
  let hit := fun (k : Core) (cmd : SeCmd) => cmd.ctx == c && p k cmd
  let cmds := s.cores.flatMap (fun k => k.engines.flatMap (fun q => q.filter (hit k)))
  let s1 := mapCmds s hit (answerCmd page r)
  match r with
  | .fault 4 _ | .fault 5 _ => if cmds.isEmpty then s1 else askHost s1 c page (cmds.any (fun cmd => cmd.kind == .drain))
  | _ => s1

/-! ### The end of a walk, and the host's answer (R327 to R329, R332) -/

/-- Engines of a die that wait for the walk of a page. -/
def atWalk (die page : Nat) (k : Core) (cmd : SeCmd) : Bool := dieOfCore k.num == die && cmd.waiting == some (page, .walk)

/-- A walk met a host leaf: what has the migration grant takes the fault of R289; the rest asks the host, unless the context has no PASID (R332). The first
holds of a context without a PASID too (DESIGN CHOICE, log 109). -/
def hostLeaf (s : State) (q : WalkReq) (t : Trans) : State :=
  let moves := fun (sid : Nat) => t.mig && migGrant s (((strandOf s sid).map (fun st => st.lk)).getD 0)
  let s1 := answerEngines (answerWalk s (q.sids.filter moves) q.page (.fault 5 t.level)) q.ctx q.page
    (fun k cmd => atWalk q.die q.page k cmd && t.mig && migGrant s cmd.lk) (.fault 5 t.level)
  let sids := q.sids.filter (fun sid => !moves sid)
  if ((ctxOf s1 q.ctx).map (fun x => x.pasid)).getD 0 = 0 then answerEngines (answerWalk s1 sids q.page .noPasid) q.ctx q.page (atWalk q.die q.page) .noPasid
  else if sids.isEmpty && !s1.cores.any (fun k => k.engines.any (fun e => e.any (fun cmd => cmd.ctx == q.ctx && atWalk q.die q.page k cmd))) then s1
  else
    let s2 := sids.foldl (fun a sid => match strandOf a sid with
      | some st => if st.status == .blocked (.walk q.page) then blockOn a sid (.ats q.page) else a
      | none => a) s1
    let s3 := mapCmds s2 (fun k cmd => cmd.ctx == q.ctx && atWalk q.die q.page k cmd) (fun cmd => { cmd with waiting := some (q.page, .ats) })
    let isIt := fun (r : AtsReq) => r.ctx == q.ctx && r.page == q.page
    if s3.atsReqs.any isIt then
      { s3 with atsReqs := updWhere isIt (fun r => { r with cores := q.cores.foldl insertNat r.cores, sids := sids.foldl insertNat r.sids }) s3.atsReqs }
    else { s3 with atsReqs := s3.atsReqs ++ [⟨q.ctx, q.page, t.level, q.cores, sids⟩] }

/-- TABLE_WALK_DONE: a walk ends with a translation, a fault for what waits, or an ATS request for a host leaf (R327 to R329, R331, R332). -/
def execTableWalkDone (die c page : Nat) (s : State) : Res :=
  finish (match s.walkReqs.find? (fun r => r.die == die && r.ctx == c && r.page == page) with
    | none => s
    | some q =>
      let (r, s1) := engineWalk { s with walkReqs := s.walkReqs.filter (fun r => !(r.die == die && r.ctx == c && r.page == page)) } die c (page * 4096)
      match r with
      | .noDevice pa => { s1 with badAddr := some pa }
      | .ok t =>
        if t.host then wakeStalls (hostLeaf s1 q t)
        else answerEngines (answerWalk (q.cores.foldl (fun a k => tlbInsert a k c (page * 4096) t) s1) q.sids page r) c page (atWalk die page) r
      | r => answerEngines (answerWalk s1 q.sids page r) c page (atWalk die page) r)

/-- The translation that an ATS completion gives under a host leaf: for at most the size that the completion states, within the leaf, and with the permission
of both (R328, R332). -/
def hostTrans (leaf : Trans) (va : Nat) (ans : AtsAnswer) : Trans :=
  let size := max 4096 ans.size
  let part := min size leaf.size
  ⟨true, ans.hostAddr / size * size + va % size / part * part, part, ans.write && leaf.w, false, 0, leaf.level, leaf.mig⟩

/-- What the host has answered for a page of a context is kept until it is invalidated (R330, R332). -/
def keepHostPage (s : State) (c page frame : Nat) (write : Bool) : State := updCtx s c (fun x => { x with hostPages := ainsert x.hostPages page (frame, write) })

/-- ATS_COMPLETION: the host's answer enters the TLBs, or is a host_absent fault (R328, R332); where the tables have changed meanwhile what waits translates again
(R330, R342). -/
def execAtsCompletion (c page : Nat) (ans : AtsAnswer) (s : State) : Res :=
  finish (match s.atsReqs.find? (fun r => r.ctx == c && r.page == page) with
    | none => s
    | some q =>
      let s1 := { s with atsReqs := s.atsReqs.filter (fun r => !(r.ctx == c && r.page == page)) }
      let waits := fun (_ : Core) (cmd : SeCmd) => cmd.waiting == some (page, .ats)
      match walk s1 c (page * 4096) with
      | .ok leaf =>
        if !leaf.host then mapCmds (retryWalk s1 q.sids) (fun k cmd => cmd.ctx == c && waits k cmd) (fun cmd => { cmd with waiting := none })
        else
          let r := if ans.read then TransRes.ok (hostTrans leaf (page * 4096) ans) else .fault 4 leaf.level
          let s2 := match r with
            | .ok t => q.cores.foldl (fun a k => tlbInsert a k c (page * 4096) t) (keepHostPage s1 c page ((t.base + page * 4096 % t.size) / 4096) ans.write)
            | _ => s1
          answerEngines (answerWalk s2 q.sids page r) c page waits r
      | _ => mapCmds (retryWalk s1 q.sids) (fun k cmd => cmd.ctx == c && waits k cmd) (fun cmd => { cmd with waiting := none }))

/-! ### Invalidation (R330, R333, R342) -/

/-- Ranges of addresses meet. -/
def rangesMeet (lo hi a b : Nat) : Bool := decide (lo ≤ b) && decide (a ≤ hi)

/-- A TLB entry of a range of a context. -/
def entryMeets (c lo hi : Nat) (e : TlbEntry) : Bool := e.ctx == c && rangesMeet lo hi (e.page * 4096) (e.page * 4096 + e.tr.size - 1)

/-- Drop every cached translation of a range of a context on a die, with what the host has answered for it; walks of the range start again (R330, R332, R342). -/
def dropRange (s : State) (die c lo hi : Nat) : State :=
  { s with
    ctxs := updWhere (fun x => x.num == c) (fun x => { x with hostPages := x.hostPages.filter (fun p => !rangesMeet lo hi (p.1 * 4096) (p.1 * 4096 + 4095)) }) s.ctxs
    cores := s.cores.map (fun k => if dieOfCore k.num == die then
      { k with tlb := k.tlb.filter (fun e => !entryMeets c lo hi e), evicted := k.evicted.filter (fun e => !entryMeets c lo hi e) } else k)
    walkCache := s.walkCache.filter (fun e => !(e.die == die && e.ctx == c &&
      rangesMeet lo hi (e.block * 2 ^ (12 + 9 * (e.level - 1))) (e.block * 2 ^ (12 + 9 * (e.level - 1)) + 2 ^ (12 + 9 * (e.level - 1)) - 1)))
    walkRes := s.walkRes.filter (fun r => !(rangesMeet lo hi (r.page * 4096) (r.page * 4096 + 4095) &&
      (match strandOf s r.sid with | some st => dieOfCore st.core == die && ctxOfLaunch s st.lk == c | none => true))) }

/-- The memory that translations of a range of a context have given the cores of a die (R330). -/
def cachedRanges (s : State) (die c lo hi : Nat) : List (Space × Nat × Nat) :=
  (s.cores.filter (fun k => dieOfCore k.num == die)).flatMap (fun k =>
    ((k.tlb ++ k.evicted).filter (entryMeets c lo hi)).map (fun e => (if e.tr.host then .host c else .dev, e.tr.base, e.tr.size)))

/-- n bytes at a location lie in one of some ranges of memory, in part. -/
def inRanges (rs : List (Space × Nat × Nat)) (sp : Space) (a n : Nat) : Bool :=
  rs.any (fun r => r.1 == sp && decide (a < r.2.1 + r.2.2) && decide (r.2.1 < a + n))

/-- Whether what an operation has left accesses one of some ranges. -/
def opTouches (rs : List (Space × Nat × Nat)) (o : Op) : Bool :=
  match o.body with
  | .result _ _ _ _ ls am _ _ => ls.any (fun t => inRanges rs t.space t.addr t.size) || (am.map (fun x => x.2.any (fun t => inRanges rs t.space t.addr 4))).getD false
  | .stores left => left.any (fun t => inRanges rs t.space t.addr t.bytes.length)
  | .dld .. => (dldLeft o).any (fun t => inRanges rs t.space t.addr t.size)
  | _ => false

/-- Accesses that used a translation of a range reach their home: what is outstanding is performed, with what comes before it, and buffered entries drain (R330). -/
def settleAccesses (s : State) (die c lo hi : Nat) : State :=
  let rs := cachedRanges s die c lo hi
  let mine := fun (core : Nat) => dieOfCore core == die && (coreOf s core).ctx == some c
  let s1 := (s.ops.filter (fun o => !o.done && mine o.core && opTouches rs o)).foldl (fun a o => performFor a o.lk o.idxs (o.oid + 1)) s
  ((s1.cores.filter (fun k => mine k.num)).map (fun k => k.num)).foldl (fun a core => drainWhere a core (fun e => inRanges rs e.space e.addr e.bytes.length)) s1

/-- The condition of R330 on a die: the accesses are settled, every dirty L1 line of the range's pages is written back, whichever context's core holds it, and the
translations dropped. The entries of the range may have changed already and a page be mapped for other contexts too, so every dirty line of the die's cores is written back (DESIGN
CHOICE, log 113). -/
def invalidateDie (s : State) (die c lo hi : Nat) : State :=
  let s1 := settleAccesses s die c lo hi
  dropRange (((s1.cores.filter (fun k => dieOfCore k.num == die)).map (fun k => k.num)).foldl (fun a n => writeBackL1 n (fun _ => true) a) s1) die c lo hi

/-- INVALIDATE: a command written to the invalidate register of a die (R330). -/
def execInvalidate (die c lo hi : Nat) (s : State) : Res := finish { s with invals := s.invals ++ [⟨die, c, lo, hi, none⟩] }

/-- ATS Invalidate Requests with no die left to report are answered (R333). -/
def answerAtsInvals (s : State) : State :=
  let ready := s.atsInvals.filter (fun q => !s.invals.any (fun i => i.req == some q.id))
  { s with atsInvals := s.atsInvals.filter (fun q => s.invals.any (fun i => i.req == some q.id))
           out := s.out ++ ready.map (fun q => .text "ATS invalidate completion" [q.pasid, q.addr, q.size]) }

/-- INVALIDATE_COMPLETE: the engine of a die reports completion of its oldest invalidation, when R330's conditions hold there; the last die's lets the device
return the Invalidate Completion of a host's request (R333). -/
def execInvalidateComplete (die : Nat) (s : State) : Res :=
  finish (match s.invals.find? (fun i => i.die == die) with
    | none => s
    | some i =>
      let s1 := invalidateDie s die i.ctx i.lo i.hi
      let s2 := { s1 with invals := s1.invals.erase i }
      if i.req.isNone then { s2 with out := s2.out ++ [.text "invalidate complete" [die, i.ctx, i.lo, i.hi]] } else answerAtsInvals s2)

/-- ATS_INVALIDATE_REQUEST: acts as the invalidation of R330 for the contexts of a PASID, on every die (R333). The host has at most 32 outstanding, which is the
Invalidate Queue Depth; the device takes no further one (R332). -/
def execAtsInvalidateRequest (pasid va size : Nat) (s : State) : Res :=
  finish (
    if 32 ≤ s.atsInvals.length then s
    else
      let cs := (s.ctxs.filter (fun c => c.valid && c.pasid == pasid)).map (fun c => c.num)
      let (id, s1) := fresh s
      answerAtsInvals { s1 with
        atsInvals := s1.atsInvals ++ [⟨id, pasid, va, size⟩]
        invals := s1.invals ++ cs.flatMap (fun c => (List.range Config.dies).map (fun d => ⟨d, c, va, va + size - 1, some id⟩)) })

end Sys2Proof.Machine
end

