-- ==== Sys2Proof/Machine/Memory.lean ====
section
/-! DEFINITION. Global memory, scratchpad, atomics and fences (R162 to R186, R191 to R193), and the finishing of operations (R155). -/

namespace Sys2Proof.Machine

/-! ### Accesses of a strand (R163 to R167) -/

/-- The address of an access at each present index: (vA:vA+1 + k) modulo 2^64 (R163). -/
def addresses (st : Strand) (a : Nat) (k : Int) : List Nat := (opndVals st (.v a 2)).map (fun (x : Nat) => wrapTo 64 ((x : Int) + k))

/-- The address is U over the strand (R164). -/
def addrU (st : Strand) (a : Nat) : Bool := (uReg st a).isSome && (uReg st (a + 1)).isSome

/-- A fault of some indices: kind, cause, INFO, the address of the lowest (R376), and the address at each. -/
structure AccFault where
  kind : Nat
  cause : Nat
  info : Nat
  addr : Nat
  idxs : List Nat
  pages : List Nat
  deriving DecidableEq, Repr

/-- Gather the faults, one entry for each kind and cause, in ascending order of the lowest index (R394). -/
def gatherFaults : List (Nat × Nat × AccRes) → List AccFault
  | [] => []
  | (i, va, .fault k c f) :: r =>
    let gs := gatherFaults r
    match gs.find? (fun g => g.kind == k && g.cause == c) with
    | some g => ⟨k, c, f, va, i :: g.idxs, va :: g.pages⟩ :: gs.filter (fun x => !(x.kind == k && x.cause == c))
    | none => ⟨k, c, f, va, [i], [va]⟩ :: gs
  | _ :: r => gatherFaults r

/-- A report that a page is not there asks the host for it, where the host has it: host_absent, and the first step of a migration (R289, R333). -/
def askFor (s : State) (st : Strand) (kind cause va access : Nat) : State :=
  if kind = 11 && (cause = 4 || cause = 5) then askHost s (ctxOfLaunch s st.lk) (va / 4096) (access % 8 != 1) else s

/-- Split off every group of faulting indices, each with its own report and ticket, and give the strands that hold the rest (R166, R394).
On return the parked strands stand at this PC. -/
def parkFaults (s : State) (st : Strand) (fs : List AccFault) (len access : Nat) : List Nat × State :=
  let r := parkGroups s st (fs.map (fun f =>
    (f.idxs, { reportOf s st f.kind f.cause with addr := f.addr, info := f.info, access := if f.kind = 15 then poisonAccess else access }))) len
  (r.1, fs.foldl (fun a f => f.pages.foldl (fun a va => askFor a st f.kind f.cause va access) a) r.2)

/-- The accesses of the acting indices: a miss makes the strand wait, the indices that consume a poisoned word of rs or whose access faults are split off, and each strand of the rest goes
on with the locations of its acting indices. What walks have answered serves this issue alone (R166, R342, R390, R394). access: the ACCESS field of a report. -/
def withAccesses (s : State) (st : Strand) (rs act : List Nat) (va : Nat → Nat) (res : State → Strand → Nat → AccRes) (len access : Nat)
    (f : State → Strand → List (Nat × Space × Nat) → State) : State :=
  let F := if st.poison.isEmpty then [] else act.filter (fun i => rs.any (fun r => poisonedAt st r i))
  let as := act.map (fun i => if F.contains i then (i, 0, AccRes.fault 15 (poisonCause st rs i) 0) else (i, va i, res s st (va i)))
  match as.find? (fun r => match r.2.2 with | .miss _ | .bad _ => true | _ => false) with
  | some (_, _, .miss p) => startWalk s st p
  | some (_, _, .bad pa) => { s with badAddr := some pa }
  | _ =>
    let locs := as.filterMap (fun r => match r.2.2 with | .ok sp a => some (r.1, sp, a) | _ => none)
    let (ids, s1) := parkFaults (dropRes s st.sid) st (gatherFaults as) len access
    ids.foldl (fun a id => match strandOf a id with
      | some p => f a p (locs.filter (fun l => (present p).contains l.1))
      | none => a) s1

/-- The address of index i of a strand's access, given the addresses at the present indices. -/
def atIdx (is : List Nat) (xs : List Nat) (i : Nat) : Nat := (alookup (is.zip xs) i).getD 0

/-- Group the accesses that are one: a U address is made once for the strand (R164). -/
def groupLocs (u : Bool) (locs : List (Nat × Space × Nat)) : List (List Nat × Space × Nat) :=
  match locs with
  | [] => []
  | (i, sp, a) :: r => if u then [((i :: r.map (fun l => l.1)), sp, a)] else ((i, sp, a) :: r).map (fun l => ([l.1], l.2.1, l.2.2))

/-- The frame of a memory instruction: results outstanding, then the meaning, which consumes the address and data registers where it makes its accesses. -/
def memFrame (h : Hdr) (rs dests : List Nat) (stack : Bool) (f : State → Strand → State) (s : State) : Res :=
  onCur s fun st =>
    if mustWait s st (rs ++ dests) (stack || guardReads h.g) then waitFor s st.sid (rs ++ dests) (stack || guardReads h.g)
    else f s st

/-- The form-only trap before an access (R35, R193): which value would differ is not known, so INFO2 is a free value (DESIGN CHOICE, log 14). -/
def formOnlyTrap (s : State) (st : Strand) (len d n : Nat) : State :=
  let B := budgetOf s st
  trapWhole (draw s) st len { reportOf s st 4 0 with info := max d B, info2 := if B < d + n then (Config.freeWord s.nfree).toNat else 0 }

/-- Whether n destination registers from d up may take any form (R35, R193). -/
def capable (s : State) (st : Strand) (d n : Nat) : Bool := decide (d + n ≤ budgetOf s st)

/-- A load that passes the check of R193 before its access: of a strand of one present index, or from a U address. -/
def passes (st : Strand) (u : Bool) : Bool := presentCount st == 1 || u

/-- The values of n registers from d up at the present indices with those that have been found for some indices. -/
def arrived (st : Strand) (d n : Nat) (vals : List (Nat × List Word)) : List (Nat × List Word) :=
  (List.range n).map (fun k =>
    (d + k, ((present st).zip (regVals st (d + k))).map (fun e => match alookup vals e.1 with | some ws => nth ws k 0 | none => e.2)))

/-- The result of a load from a U address, where a guard leaves indices with their old values: one that would leave X in a form-only destination traps, and no access has been made
(R35, R193). The value is found in the step of the issue (DESIGN CHOICE, log 79). before: the state before the load; t: the state in which it has been issued. -/
def orTrap (before : State) (st : Strand) (len d n : Nat) (vals : List (Nat × List Word)) (t : State) : State :=
  let r : Result := ⟨arrived st d n vals, none, [], []⟩
  if r.formOnly (budgetOf before st) (present st) then writeResult before st r len else t

/-- The check of a load from a U address that a guard keeps from some indices. -/
def checkLoad (before : State) (st : Strand) (g : Guard) (u : Bool) (d n len : Nat) (t : State) : State :=
  if capable before st d n || !u || (acting st g).length = presentCount st || (acting st g).isEmpty then t
  else match t.ops.getLast? with
    | none => t
    | some o =>
      let t1 := performLoadsOf t (fun _ => true) o.oid
      match opOf t1 o.oid with
      | some o1 => (match o1.body with | .result _ _ vals _ _ _ _ _ => orTrap before st len d n vals t1 | _ => t)
      | none => t

/-- Wait for room for one more operation of a class (R155, R310, R374). -/
def waitRoom (s : State) (sid : Nat) (k : OpClass) (async : Bool) : State := stallStrand s sid { Need.none with room := some (k, async) }

/-- An A address of stride s of its low register (R164). -/
def addrA (st : Strand) (a : Nat) : Bool := (match vform st a with | .a _ _ => true | _ => false) && (uReg st (a + 1)).isSome

/-- What an LD or ST asks of the caches: an A address is one bulk transfer (R164, R266, R268). n: bytes written, 0 for a load. -/
def touch (st : Strand) (a : Nat) (nt : Bool) (n : Nat) (s : State) (locs : List (Nat × Space × Nat)) : State :=
  if addrA st a && !nt then bulkUse st.core n s locs else cacheUse st.core nt n s locs

/-- Bytes and extension of a memory size (R94, R168). -/
def szBytes : MemSz → Nat
  | .n8 | .i8 => 1 | .n16 | .i16 => 2 | .b32 => 4 | .b64 => 8 | .b128 => 16
def szSigned : MemSz → Bool
  | .i8 | .i16 => true | _ => false
/-- Registers of a value of n bytes. -/
def bytesRegs (n : Nat) : Nat := max 1 (n / 4)

/-- ACCESS of a report: 1 load, 2 store, 3 atomic; the size above (R376). -/
def accessCode (kind n : Nat) : Nat := kind + 8 * n

/-- The accesses of a load of n bytes: one of 16 bytes is two of 8 (R163). acq: the scope of an LDA. -/
def loadTodos (n : Nat) (sx u : Bool) (acq : Option Scope) (locs : List (Nat × Space × Nat)) : List LoadTodo :=
  (groupLocs u locs).flatMap (fun g =>
    if n = 16 then [⟨g.1, g.2.1, g.2.2, 8, sx, 0, acq⟩, ⟨g.1, g.2.1, g.2.2 + 8, 8, sx, 2, acq⟩] else [⟨g.1, g.2.1, g.2.2, n, sx, 0, acq⟩])

/-- Issue a load: its operation is added, its loads are performed later (R155, R165, R168, R251). -/
def issueLoad (d : Option Nat) (n : Nat) (sx : Bool) (u : Bool) (acq : Option Scope) (len : Nat) (s : State) (st : Strand) (locs : List (Nat × Space × Nat)) : State :=
  let todo := loadTodos n sx u acq locs
  let s1 := todo.foldl (fun a t => performSame a st.lk t.space t.addr t.size t.idxs) s
  if locs.isEmpty then advance s1 st.sid len
  else
    let (_, s2) := addOp s1 st .l (locs.map (fun l => l.1)) (.result d (bytesRegs n) [] [] todo none [] false) false
    advance s2 st.sid len

/-- LD (R168). -/
def execLd (h : Hdr) (d a k : R11) (z : MemSz) (nt : Bool) (s : State) : Res :=
  let n := szBytes z
  let w := bytesRegs n
  memFrame h [a.toNat, a.toNat + 1] (List.range' d.toNat w) false (fun s st =>
    let act := acting st h.g
    let u := addrU st a.toNat
    if act.isEmpty then advance s st.sid 8
    else if !capable s st d.toNat w && !passes st u then formOnlyTrap s st 8 d.toNat w
    else if !roomFor s st .l false then waitRoom s st.sid .l false
    else
      let va := atIdx (present st) (addresses st a.toNat (immS k))
      withAccesses s st [a.toNat, a.toNat + 1] act va (fun s st x => accessOf s st x n false) 8 (accessCode 1 n) (fun s st locs =>
        checkLoad s st h.g u d.toNat w 8 (issueLoad (some d.toNat) n (szSigned z) u none 8 (touch st a.toNat nt 0 s locs) st locs))) s

/-- The n bytes that a store of a strand writes at each present index (R168, R170). -/
def storeData (st : Strand) (b : Src) (n : Nat) (i : Nat) : List Byte :=
  match b with
  | .lit w => toBytes n w.toNat
  | .reg r => toBytes n (atIdx (present st) (opndVals st (.v r.toNat (bytesRegs n))) i)

/-- Data registers of a store. -/
def storeRegs (b : Src) (n : Nat) : List Nat := match b with | .lit _ => [] | .reg r => List.range' r.toNat (bytesRegs n)

/-- The stores of an instruction, in ascending index order, so that the highest index's value stands (R169); one of 16 bytes is two of 8 (R163). -/
def storeTodos (gs : List (List Nat × Space × Nat)) (data : Nat → List Byte) (rel : Option Scope) : List StoreTodo :=
  gs.flatMap (fun g =>
    let bs := data (g.1.getLastD 0)
    if bs.length = 16 then [⟨g.1, g.2.1, g.2.2, bs.take 8, rel⟩, ⟨g.1, g.2.1, g.2.2 + 8, bs.drop 8, rel⟩] else [⟨g.1, g.2.1, g.2.2, bs, rel⟩])

/-- Issue stores, with the settings that follow them: their operation is added, and they enter the buffer at once, or at steps of their own (R155, R248, R249, R258). -/
def issueStores (s : State) (st : Strand) (is : List Nat) (todo : List StoreTodo) (sets : List SetTodo) : State :=
  let (oid, s0) := addOp s st .s is (.stores todo) false
  let s1 := updOp s0 oid (fun o => { o with sets := sets })
  let (k, s2) := choose s1 2
  if k = 0 then performFor s2 st.lk is (oid + 1) else s2

/-- The stores of a strand at some locations, if there are any, and the advance past the instruction. -/
def storeLocs (st : Strand) (len : Nat) (gs : List (List Nat × Space × Nat)) (data : Nat → List Byte) (rel : Option Scope) (sets : List SetTodo) (s : State) : State :=
  advance (if gs.isEmpty then s else issueStores s st (gs.flatMap (fun g => g.1)) (storeTodos gs data rel) sets) st.sid len

/-- ST (R168 to R170). -/
def execSt (h : Hdr) (a : R11) (b : Src) (k : R11) (z : MemSz) (nt : Bool) (s : State) : Res :=
  let n := szBytes z
  memFrame h ([a.toNat, a.toNat + 1] ++ storeRegs b n) [] false (fun s st =>
    let va := atIdx (present st) (addresses st a.toNat (immS k))
    if (acting st h.g).isEmpty then advance s st.sid (srcLen b)
    else if !roomFor s st .s false then waitRoom s st.sid .s false
    else withAccesses s st ([a.toNat, a.toNat + 1] ++ storeRegs b n) (acting st h.g) va (fun s st x => accessOf s st x n true) (srcLen b) (accessCode 2 n) (fun s st locs =>
      storeLocs st (srcLen b) (groupLocs (addrU st a.toNat) locs) (storeData st b n) none [] (touch st a.toNat nt n s locs))) s

/-- LDA (R171, R252): its loads are performed like any others, each with the acquire of its indices. -/
def execLda (h : Hdr) (d a k : R11) (wide : Bool) (sc : Scope) (s : State) : Res :=
  let n := if wide then 8 else 4
  let w := n / 4
  memFrame h [a.toNat, a.toNat + 1] (List.range' d.toNat w) false (fun s st =>
    let act := acting st h.g
    let u := addrU st a.toNat
    if act.isEmpty then advance s st.sid 8
    else if !capable s st d.toNat w && !passes st u then formOnlyTrap s st 8 d.toNat w
    else if !roomFor s st .l false then waitRoom s st.sid .l false
    else
      let va := atIdx (present st) (addresses st a.toNat (immS k))
      withAccesses s st [a.toNat, a.toNat + 1] act va (fun s st x => accessOf s st x n false) 8 (accessCode 1 n) (fun s st locs =>
        checkLoad s st h.g u d.toNat w 8 (issueLoad (some d.toNat) n false u (some sc) 8 (touch st a.toNat false 0 s locs) st locs))) s

/-- STL (R171, R249): each entry carries the release of its index, and the release of each index becomes its record. -/
def execStl (h : Hdr) (a : R11) (b : Src) (k : R11) (wide : Bool) (sc : Scope) (s : State) : Res :=
  let n := if wide then 8 else 4
  memFrame h ([a.toNat, a.toNat + 1] ++ storeRegs b n) [] false (fun s st =>
    let va := atIdx (present st) (addresses st a.toNat (immS k))
    if (acting st h.g).isEmpty then advance s st.sid (srcLen b)
    else if !roomFor s st .s false then waitRoom s st.sid .s false
    else withAccesses s st ([a.toNat, a.toNat + 1] ++ storeRegs b n) (acting st h.g) va (fun s st x => accessOf s st x n true) (srcLen b) (accessCode 2 n) (fun s st locs =>
      storeLocs st (srcLen b) (groupLocs (addrU st a.toNat) locs) (storeData st b n) (some sc) [] (touch st a.toNat false n s locs))) s

/-! ### Compress-store (R172, R173) -/

/-- What a CST writes to d at its acting indices (R172). -/
def cstResult (st : Strand) (g : Guard) (d cnt : Nat) : Result := guardedWrite st g d 1 ((present st).map (fun _ => cnt))

/-- The indices that a CST selects: those at which it acts where the entry is true (R172). -/
def cstSelect (st : Strand) (g : Guard) (q : Nat) : List Nat :=
  ((present st).zip (qVals st q)).filterMap (fun e => if e.2 && (acting st g).contains e.1 then some e.1 else none)

/-- The elements of a CST, by rank, in runs of consecutive ranks: what one replay record can go on with (R173). -/
def rankRuns : List (Nat × Nat) → List (List (Nat × Nat))
  | [] => []
  | e :: es =>
    match rankRuns es with
    | (x :: xs) :: rs => if x.1 = e.1 + 1 then (e :: x :: xs) :: rs else [e] :: (x :: xs) :: rs
    | rs => [e] :: rs

/-- The strands that park for some elements of a CST, each with the replay record of its own first element (R24, R173; DEDUCED, log 90). -/
def cstParked (budget : Nat) (st : Strand) (j0 cnt base : Nat) (es : List (Nat × Nat)) : List Strand :=
  (rankRuns es).flatMap (fun r => (pieces budget st (r.map (fun e => e.2))).map (fun p =>
    { p with replay := some (j0 + ((r.find? (fun e => e.2 == (present p).headD 0)).map (fun e => e.1)).getD 0, cnt, base) }))

/-- The elements of a CST of one strand, its cuts and the trap of R35 behind it: what it stores up to the first fault, and d. An element whose data word is poisoned parks, and the
others keep their places (R390). A replay goes on from its record (R173). The parked indices have d with the others, unless the replay is still to read d as data: then when it
ends. Each report has INFO by R375, the count of elements written, where the table of R264 gives the level (DEDUCED, log 77). -/
def cstStores (h : Hdr) (d a : Nat) (b : Src) (n q : Nat) (s : State) (st : Strand) : State :=
  let len := srcLen b
  let sel := cstSelect st h.g q
  match acting st h.g with
  | [] => advance s st.sid len
  | i0 :: _ =>
    let j0 := (st.replay.map (fun r => r.1)).getD 0
    let cnt := (st.replay.map (fun r => r.2.1)).getD sel.length
    let base := (st.replay.map (fun r => r.2.2)).getD (atIdx (present st) (addresses st a 0) i0)
    let res := cstResult st h.g d cnt
    let va := fun (k : Nat) => wrapTo 64 ((base : Int) + n * (j0 + k : Nat))
    let (sick, sound) := ((List.range sel.length).zip sel).partition (fun e => (storeRegs b n).any (fun r => poisonedAt st r e.2))
    let rs := sound.map (fun e => (e.2, va e.1, accessOf s st (va e.1) n true))
    match rs.find? (fun r => match r.2.2 with | .miss _ | .bad _ => true | _ => false) with
    | some (_, _, .miss p) => startWalk s st p
    | some (_, _, .bad pa) => { s with badAddr := some pa }
    | _ =>
      let okN := (rs.takeWhile (fun r => match r.2.2 with | .ok _ _ => true | _ => false)).length
      let good := (rs.take okN).filterMap (fun r => match r.2.2 with | .ok sp x => some (r.1, sp, x) | _ => none)
      let gs := good.map (fun g => ([g.1], g.2))
      let s0 := (if st.mask.isNone then bulkUse st.core n (dropRes s st.sid) good else cacheUse st.core false n (dropRes s st.sid) good)
      let s1 := if gs.isEmpty then (addOp s0 st .s (present st) (.stores []) false).2 else issueStores s0 st (good.map (fun g => g.1)) (storeTodos gs (storeData st b n) none) []
      -- the strand as the operation stands in its set
      let held := { st with ops := ((strandOf s1 st.sid).map (fun x => x.ops)).getD st.ops }
      if okN = sel.length then writeResult s1 { held with replay := none } res len
      else
        let late := sound.drop okN
        let (ki, co, ad) := match (rs.drop okN).head? with
          | some (_, va, .fault ki co _) => (ki, co, va)
          | _ => (11, 1, base)
        let B := budgetOf s1 st
        let reads := (storeRegs b n).contains d
        let parked := if reads then held else res.into held
        let groups := cstGroups s1 st (storeRegs b n) (j0 + okN) sick late { reportOf s1 st ki co with addr := ad, info := j0 + okN, access := accessCode 2 n }
        let bads := groups.map (fun g => (cstParked B parked j0 cnt base g.1, g.2, g.1.map (fun e => e.2)))
        let F := (sick ++ late).map (fun e => e.2)
        let goods := (pieces B (res.into { held with replay := none }) ((present st).filter (fun i => !F.contains i))).map (fun p => { p with pc := p.pc + BitVec.ofNat 64 len })
        let (ids, s2) := replaceStrand s1 st.sid (bads.flatMap (fun g => g.1) ++ goods)
        let (rest, s3) := bads.foldl (fun (acc : List Nat × State) g =>
          (acc.1.drop g.1.length, raiseStop acc.2 st.lk (acc.1.take g.1.length) g.2.1.kind g.2.1.cause 1 len (.advance len) (withNames g.2.1 g.2.2))) (ids, s2)
        let s4 := if late.isEmpty then s3 else askFor s3 st ki co ad (accessCode 2 n)
        (if reads then rest else ids).foldl (fun a id => comparators a id (if (strandOf a id).any (fun x => (present x).any res.acted.contains) then [d] else []) st.pc.toNat) s4
where
  /-- The groups of elements that park, those of poisoned data by cause and those from the first fault on, in ascending order of the lowest index (R390, R394). -/
  cstGroups (s : State) (st : Strand) (rs : List Nat) (done : Nat) (sick late : List (Nat × Nat)) (r : Report) : List (List (Nat × Nat) × Report) :=
    let gs := (poisonGroups s st rs (sick.map (fun e => e.2))).map (fun g => (sick.filter (fun e => g.1.contains e.2), { g.2 with info := done }))
    let first := fun (g : List (Nat × Nat) × Report) => (g.1.headD (0, 0)).2
    if late.isEmpty then gs else (gs.filter (fun g => first g < (late.headD (0, 0)).2)) ++ (late, r) :: gs.filter (fun g => !(decide (first g < (late.headD (0, 0)).2)))

/-- CST of one strand after the cuts: the trap of R35 comes before any store. -/
def cstOn (h : Hdr) (d a : Nat) (b : Src) (n q : Nat) (s : State) (st : Strand) : State :=
  let cnt := (st.replay.map (fun r => r.2.1)).getD (cstSelect st h.g q).length
  if (cstResult st h.g d cnt).needsX (present st) && decide (budgetOf s st ≤ d) then writeResult s st (cstResult st h.g d cnt) (srcLen b)
  else cstStores h d a b n q s st

/-- CST (R172, R173): where d would need X, the cuts of R37 come first, and each strand makes its own packing. -/
def execCst (h : Hdr) (d a : R11) (b : Src) (wide : Bool) (q : BitVec 3) (s : State) : Res :=
  let n := if wide then 8 else 4
  let len := srcLen b
  onCur s fun st =>
    let rs := [a.toNat, a.toNat + 1, d.toNat] ++ storeRegs b n
    if mustWait s st rs true then waitFor s st.sid rs true
    else
      -- the address word is read at the lowest acting index (R172, R389)
      let bad := if st.replay.isNone then ((acting st h.g).take 1).filter (fun i => poisonedAt st a.toNat i || poisonedAt st (a.toNat + 1) i) else []
      withoutPoison s st [a.toNat, a.toNat + 1] bad len (fun s st =>
        if (acting st h.g).isEmpty then advance s st.sid len
        else if !roomFor s st .s false then waitRoom s st.sid .s false
        else
          let cnt := (st.replay.map (fun r => r.2.1)).getD (cstSelect st h.g q.toNat).length
          if (cstResult st h.g d.toNat cnt).needsX (present st) then asIfX s st (cstOn h d.toNat a.toNat b n q.toNat)
          else cstOn h d.toNat a.toNat b n q.toNat s st)

/-! ### Scratchpad (R174 to R178) -/

/-- The scratch location of an access of n bytes at a scratch address (R174). -/
def scratchAt (s : State) (st : Strand) (x n : Nat) : AccRes :=
  if x % n ≠ 0 then .fault 13 0 0
  else match st.team with
    | none => .fault 14 0 x
    | some t =>
      let size := fun (u : Nat) => ((teamOf s st.lk u).map (fun y => y.kernel.scratch)).getD 0
      if x + n ≤ size t then .ok (.scr st.lk t) x
      else
        let k := (x - 0x1000000) / 0x40000
        let o := (x - 0x1000000) % 0x40000
        let sib := (gangTeams s st.lk t)[k]?
        match sib with
        | some u => if 0x1000000 ≤ x && k < 8 && o + n ≤ size u then .ok (.scr st.lk u) o else .fault 14 0 x
        | none => .fault 14 0 x

/-- The scratch address at each present index: (vA + k) modulo 2^32 (R174). -/
def scratchAddrs (st : Strand) (a : Nat) (k : Int) : List Nat := (opndVals st (.v a 1)).map (fun (x : Nat) => wrapTo 32 ((x : Int) + k))

def scrBytes : ScrSz → Nat
  | .b32 => 4 | .b64 => 8 | .b128 => 16

/-- Acquire the setting of a granule, at the scope that the granule has for the reader (R178, R252, R258; DEDUCED, log 93); wider than team, the core's clean lines
go (R267). -/
def acquireGranule (s : State) (st : Strand) (is : List Nat) (lk team g : Nat) : State :=
  let S := scopeOf s st (granScope st.team team)
  match s.gsets.find? (fun x => x.lk == lk && x.team == team && x.gran == g) with
  | some x => acquireL1 st.core S (acquireRecord s st.lk is S x.writer x.rel)
  | none => acquireL1 st.core S s

/-- Whether a granule access comes first among the blocked accesses that wait for the same state of the granule (R177; DEDUCED, log 26). An access that waits
    for the other state waits on, whatever its place. -/
def firstInLine (s : State) (op : GranOp) (order lk team g : Nat) : Bool :=
  !(s.strands.any (fun t => match t.status with
    | .blocked (.granule w) => decide (w.order < order) && (w.op == .fill) == (op == .fill) && w.items.any (fun i => i.launch == lk && i.team == team && i.off / 16 == g)
    | _ => false))

/-- The granules that an access still waits on. -/
def granulesOf (w : GranWait) : List (Nat × Nat × Nat) := (w.items.map (fun i => (i.launch, i.team, i.off / 16))).eraseDups

/-- Serve one granule for all the items of an instruction that name it (R177, R258). -/
def serveOne (s : State) (st : Strand) (w : GranWait) (gr : Nat × Nat × Nat) : GranWait × State :=
  let (lk, team, g) := gr
  let (mine, rest) := w.items.partition (fun i => i.launch == lk && i.team == team && i.off / 16 == g)
  let ready := (granFull s lk team g == (w.op != .fill)) && firstInLine s w.op w.order lk team g
  if !ready then (w, s)
  else
    let is := mine.flatMap (fun i => i.idxs)
    match w.op with
    | .fill =>
      -- the entry's bytes reach the granule's home, then the granule is set full with the record (O, S)
      let s1 := mine.foldl (fun a i => enterStore a st i.idxs (.scr lk team) i.off i.data i.pois (relOf a st.lk (i.idxs.getLastD 0))) s
      ({ w with items := rest }, fillBy s1 st.lk st.core st.team is team g)
    | op =>
      let s0 := acquireGranule s st is lk team g
      let r := mine.foldl (fun (acc : List (Nat × List Word) × List Nat × State) i =>
        let (ld, s1) := performLoad acc.2.2 st.lk st.core i.idxs (.scr lk team) i.off i.size
        (acc.1 ++ i.idxs.map (fun x => (x, splitWords w.words (ofBytes ld.bytes))), if ld.pois then acc.2.1 ++ i.idxs else acc.2.1, s1)) ([], [], s0)
      let s2 := if op == .take then setFull r.2.2 lk team g false else r.2.2
      ({ w with items := rest, got := w.got ++ r.1, pois := w.pois ++ r.2.1 }, s2)

/-- Serve what can be served of a strand's full-empty instruction, all of it or one granule, since each is a step (R177, R248, R258). -/
def serveSome (s : State) (st : Strand) (w : GranWait) : GranWait × State :=
  let gs := granulesOf w
  let (k, s1) := if gs.length ≤ 1 then (0, s) else choose s (gs.length + 1)
  (if k = 0 then gs else (gs.drop (k - 1)).take 1).foldl (fun (acc : GranWait × State) g => serveOne acc.2 st acc.1 g) (w, s1)

/-- Serve a strand's full-empty instruction; it completes when nothing is left (R177). -/
def serveStrand (s : State) (st : Strand) (w : GranWait) : State :=
  let r := serveSome s st w
  if r.1.items.isEmpty then
    let s1 := advance (unblockSid r.2 st.sid) st.sid w.len
    -- the values of a `.wait` or `.take` are known here, and a form-only destination that they would leave in X traps before the access (R35, R193)
    if w.op != .fill then orTrap (unblockSid s st.sid) (unblock s st) w.len w.dest w.words r.1.got
      (addOp s1 st .l (r.1.got.map (fun e => e.1)) (.result (some w.dest) w.words r.1.got r.1.pois [] none [] false) false).2
    else (addOp s1 st .s [] (.stores []) false).2
  else updStrand r.2 st.sid (fun x => { x with status := .blocked (.granule r.1) })

/-- Begin a full-empty access: it waits, and is served at once where its granules are ready (R176, R177). -/
def beginGranule (s : State) (st : Strand) (w : GranWait) : State :=
  let (n, s1) := fresh s
  let w' := { w with order := n }
  let s2 := endRun (blockOn s1 st.sid (.granule w'))
  match strandOf s2 st.sid with
  | some x => serveStrand s2 x w'
  | none => s2

/-- GRANULE_SERVE: a blocked full-empty instruction is served as its granules come into the required state (R177, R258), that of a stopped or saved team after its restoration (R192,
R384). -/
def execGranuleServe (sid : Nat) (s : State) : Res :=
  finish (match strandOf s sid with
    | some st => (match st.status with | .blocked (.granule w) => if stopped s st then s else serveStrand s st w | _ => s)
    | none => s)

/-- Team of a scratch space. -/
def spaceTeam : Space → Nat × Nat
  | .scr lk t => (lk, t) | _ => (0, 0)

/-- LDS (R176). With a guard that is false at every index it makes no access, and its run goes on (DESIGN CHOICE, log 91). -/
def execLds (h : Hdr) (d a k : R11) (z : ScrSz) (f : LdsQual) (s : State) : Res :=
  let n := scrBytes z
  let w := n / 4
  memFrame h [a.toNat] (List.range' d.toNat w) false (fun s st =>
    let act := acting st h.g
    let u := (uReg st a.toNat).isSome
    if act.isEmpty then advance s st.sid 8
    else if st.team.isNone then placementCut s st
    else if !capable s st d.toNat w && !passes st u then formOnlyTrap s st 8 d.toNat w
    else if !roomFor s st .l false then waitRoom s st.sid .l false
    else
      let va := atIdx (present st) (scratchAddrs st a.toNat (immS k))
      withAccesses s st [a.toNat] act va (fun s st x => scratchAt s st x n) 8 (accessCode 1 n) (fun s st locs =>
        match f with
        | .plain => checkLoad s st h.g u d.toNat w 8 (issueLoad (some d.toNat) n false u none 8 s st locs)
        | q =>
          let op : GranOp := if q = .take then .take else .wait
          if locs.isEmpty then advance s st.sid 8
          else beginGranule (performLoads s st) st ⟨op, d.toNat, w, 8, 0, 0,
            (groupLocs u locs).map (fun g => ⟨g.1, (spaceTeam g.2.1).1, (spaceTeam g.2.1).2, g.2.2, n, [], false⟩), [], []⟩)) s

/-- The settings of an STS `.set`: the granules that its accesses name, each with every index that names it (R177, R258). -/
def setTodos (gs : List (List Nat × Space × Nat)) : List SetTodo :=
  ((gs.map (fun g => ((spaceTeam g.2.1).2, g.2.2 / 16))).eraseDups).map (fun n =>
    ⟨(gs.filter (fun g => ((spaceTeam g.2.1).2, g.2.2 / 16) == n)).flatMap (fun g => g.1), n.1, n.2⟩)

/-- STS (R176); where its guard is false at every index, as LDS (log 91). -/
def execSts (h : Hdr) (a : R11) (b : Src) (k : R11) (z : ScrSz) (f : StsQual) (s : State) : Res :=
  let n := scrBytes z
  memFrame h ([a.toNat] ++ storeRegs b n) [] false (fun s st =>
    let act := acting st h.g
    let u := (uReg st a.toNat).isSome
    if act.isEmpty then advance s st.sid (srcLen b)
    else if st.team.isNone then placementCut s st
    else if !roomFor s st .s false then waitRoom s st.sid .s false
    else
      let va := atIdx (present st) (scratchAddrs st a.toNat (immS k))
      withAccesses s st (a.toNat :: storeRegs b n) act va (fun s st x => scratchAt s st x n) (srcLen b) (accessCode 2 n) (fun s st locs =>
        let gs := groupLocs u locs
        match f with
        | .plain => storeLocs st (srcLen b) gs (storeData st b n) none [] s
        | .set => storeLocs st (srcLen b) gs (storeData st b n) none (setTodos gs) s
        | .fill =>
          if locs.isEmpty then advance s st.sid (srcLen b)
          else beginGranule (performLoads s st) st ⟨.fill, 0, 0, srcLen b, 0, 0,
            gs.map (fun g => ⟨g.1, (spaceTeam g.2.1).1, (spaceTeam g.2.1).2, g.2.2, n, storeData st b n (g.1.getLastD 0), false⟩), [], []⟩)) s

/-! ### Atomics (R179 to R186) -/

/-- The atomics of a strand's acting indices. home: those of device memory go to their B-die (R181, R186). -/
def atTodos (st : Strand) (home : Bool) (b c : Opnd) (locs : List (Nat × Space × Nat)) : List AtTodo :=
  locs.map (fun l => ⟨l.1, l.2.1, l.2.2, 0, home && l.2.1 == .dev, BitVec.ofNat 32 (atIdx (present st) (opndVals st b) l.1),
    BitVec.ofNat 32 (atIdx (present st) (opndVals st c) l.1), 0, 0⟩)

/-- Issue atomics: those for a B-die leave for it; the others are performed at L2, over the host link or at the scratchpad, at once or at steps of their own
(R155, R181, R186, R248). -/
def issueAtoms (s : State) (st : Strand) (dest : Option Nat) (n : Nat) (k : AtKind) (ts : List AtTodo) (pushes : Bool) : State :=
  let (oid, s1) := addOp (performLoads s st) st .l (ts.map (fun t => t.idx)) (.result dest n [] [] [] (some (k, ts)) [] pushes) (false)
  let s2 := (atomLines (ts.filter (fun t => t.home))).foldl (homeUse st.core oid) s1
  let s3 := (atomLines (ts.filter (fun t => !t.home))).foldl (atomicUse st.core) s2
  let (c, s4) := choose s3 2
  if c = 0 then performOwn s4 oid else s4

/-- An atomic that returns the old value (R179 to R181). -/
def atomicInst (h : Hdr) (len : Nat) (d : Nat) (rs : List Nat) (scratch home : Bool) (k : AtKind) (b c : Opnd) (va : Strand → List Nat)
    (res : State → Strand → Nat → AccRes) (s : State) : Res :=
  memFrame h rs [d] false (fun s st =>
    let act := acting st h.g
    if act.isEmpty then advance s st.sid len
    else if scratch && st.team.isNone then placementCut s st
    else if !capable s st d 1 && presentCount st != 1 then formOnlyTrap s st len d 1
    else if !roomFor s st .l false then waitRoom s st.sid .l false
    else
      withAccesses s st rs act (atIdx (present st) (va st)) res len (accessCode 3 4) (fun s st locs =>
        advance (if locs.isEmpty then s else issueAtoms s st (some d) 1 k (atTodos st home b c locs) false) st.sid len)) s

/-- ATS (R179). -/
def execAts (h : Hdr) (d a : R11) (b : Src) (o : AtOp) (s : State) : Res :=
  atomicInst h (srcLen b) d.toNat (a.toNat :: srcRegs b) true false (.op o) (srcOpnd b 1 false) (.lit 0) (fun st => scratchAddrs st a.toNat 0)
    (fun s st x => scratchAt s st x 4) s

/-- An access by an atomic: a host-homed page carries only the operations that PCIe AtomicOps have (R186). -/
def atAccess (hostOk : Bool) (s : State) (st : Strand) (x : Nat) : AccRes :=
  match accessOf s st x 4 true with
  | .ok (.host c) a => if hostOk then .ok (.host c) a else .fault 12 4 0
  | r => r

/-- AT (R179, R181, R186). -/
def execAtGlobal (h : Hdr) (d a : R11) (b : Src) (o : AtOp) (home : Bool) (s : State) : Res :=
  atomicInst h (srcLen b) d.toNat (a.toNat :: (a.toNat + 1) :: srcRegs b) false home (.op o) (srcOpnd b 1 false) (.lit 0) (fun st => addresses st a.toNat 0)
    (atAccess (o = .add || o = .swap)) s

/-- CAS (R179, R186). -/
def execCas (h : Hdr) (d a : R11) (b : Src) (c : R11) (home : Bool) (s : State) : Res :=
  atomicInst h (srcLen b) d.toNat (a.toNat :: (a.toNat + 1) :: c.toNat :: srcRegs b) false home .cas (srcOpnd b 1 false) (.v c.toNat 1)
    (fun st => addresses st a.toNat 0) (atAccess true) s

/-- ATC (R182 to R185): the atomics go to their home B-dies; the stack is written when every reply has returned. -/
def execAtc (h : Hdr) (d a : R11) (b : Src) (c : R11) (s : State) : Res :=
  let len := srcLen b
  memFrame h ([d.toNat, d.toNat + 1, a.toNat, a.toNat + 1, c.toNat] ++ srcRegs b) [] true (fun s st =>
    let act := acting st h.g
    if act.isEmpty then advance s st.sid len
    else if !roomFor s st .l true then waitRoom s st.sid .l true
    else
      withAccesses s st ([d.toNat, d.toNat + 1, a.toNat, a.toNat + 1, c.toNat] ++ srcRegs b) act (atIdx (present st) (addresses st a.toNat 0)) (atAccess false) len (accessCode 3 4) (fun s st locs =>
        let is := present st
        let ts := (atTodos st true (srcOpnd b 1 false) (.v c.toNat 1) locs).map (fun t =>
          { t with va := atIdx is (addresses st a.toNat 0) t.idx, task := BitVec.ofNat 32 (atIdx is (opndVals st (.v d.toNat 1)) t.idx), arg := BitVec.ofNat 32 (atIdx is (opndVals st (.v (d.toNat + 1) 1)) t.idx) })
        advance (if ts.isEmpty then s else issueAtoms s st none 0 .atc ts true) st.sid len)) s

/-- A packet with the atomics of an operation is served: in its turn at its line (R180, R181, R274). -/
def servePackets (oid : Nat) (s : State) : State :=
  match s.packets.find? (fun p => match p.kind with | .atom o _ => o == oid | _ => false) with
  | some p => if servable s p then serve s p else s
  | none => s

/-- AT_PACKET: the home performs the atomics of an AT or CAS `.home` on one line (R180, R181, R274). -/
def execAtPacket (oid : Nat) (s : State) : Res := finish (servePackets oid s)

/-! ### Fences and prefetch (R170, R191) -/

/-- FENCE (R191, R255). -/
def execFence (h : Hdr) (k : FenceKind) (sc : Scope) (s : State) : Res :=
  strandFrame h 8 [] false false (fun s st =>
    let S := scopeOf s st sc
    let s1 := (present st).foldl (fenceStep k st sc) (if k = .acq then performLoads s st else releaseL1 st.core S (performLoads s st))
    advance (if k = .rel then s1 else acquireL1 st.core S s1) st.sid 8) s

/-- A line that a PREF asks for: it allocates as a miss would, and is dropped while the core's 16 outstanding-miss registers are all in use (R268). -/
def prefetchLine (core : Nat) (s : State) (line : Nat) : State :=
  let c := coreOf s core
  if c.l1.any (fun x => x.line == line) || decide ((missesNow s c).length < 16) then l1Use core 0 s line else s

/-- PREF (R165, R170): it translates as any access does, and starts a fill of the lines; an address that would fault, or a poisoned one, does nothing. -/
def execPref (h : Hdr) (a k : R11) (s : State) : Res :=
  onCur s fun st =>
    let rs := [a.toNat, a.toNat + 1]
    if mustWait s st rs (guardReads h.g) then waitFor s st.sid rs (guardReads h.g)
    else
      let va := atIdx (present st) (addresses st a.toNat (immS k))
      let act := (acting st h.g).filter (fun i => !rs.any (fun r => poisonedAt st r i))
      let xs := act.map (fun i => (i, accessOf s st (va i) 1 false))
      match xs.findSome? (fun x => match x.2 with | .miss p => some p | _ => none) with
      | some p => startWalk s st p
      | none =>
        let locs := xs.filterMap (fun x => match x.2 with | .ok sp y => some (x.1, sp, y) | _ => none)
        advance ((linesOf 0 locs).foldl (fun a l => prefetchLine st.core a l.1) (dropRes s st.sid)) st.sid 8

/-! ### Finishing an operation (R33, R100, R155) -/

/-- Write a result that has arrived into a strand, at its present indices among those of the operation (R33, R36, R37). ps: the poisoned words, by
place and index. True when the strand has taken it. -/
def landResult (s : State) (st : Strand) (d n : Nat) (vals : List (Nat × List Word)) (ps : List (Nat × Nat)) (push : Option (List (Nat × Bool)))
    (pc : Nat) (mem : Bool) : Bool × State :=
  let is := present st
  let at' := fun i => alookup vals i
  let regs := arrived st d n vals
  let stack := push.map (fun p => stackWrite st (is.map (fun i => (alookup p i).isSome)) (fun k old => pushAt old ((alookup p (nth is k 0)).getD false)))
  let r : Result := ⟨regs, stack, (st.poison.filter (fun e => decide (d ≤ e.1) && decide (e.1 < d + n) && (at' e.2).isNone)) ++
    (ps.filter (fun e => decide (e.1 < n) && is.contains e.2)).map (fun e => (d + e.1, e.2)), is.filter (fun i => (at' i).isSome)⟩
  let needX := r.needsX is
  let put := fun (s : State) (p : Strand) (r : Result) =>
    let ip := present p
    let p2 := r.into { p with origin := p.origin.filter (fun e => !(decide (d ≤ e.1) && decide (e.1 < d + n) && (at' e.2).isSome)) ++
      (if mem then (ps.filter (fun e => decide (e.1 < n) && ip.contains e.2)).map (fun e => (d + e.1, e.2)) else []) }
    -- a form-only register that would hold X cuts the strand at its gaps (R36)
    let (ids, s1) := if formOnlyX (budgetOf s p2) p2 && !contiguous ip then replaceStrand s p.sid ((runsOf ip).map (restrict p2)) else ([p.sid], putStrand s p2)
    ids.foldl (fun a id => comparators a id (if (strandOf a id).any (fun x => (present x).any r.acted.contains) then r.regs.map (fun e => e.1) else []) pc) s1
  if needX && st.mask.isNone && (st.team.isNone || st.pending) then (false, if st.team.isNone then placementCut s st else s)
  else if needX && st.mask.isNone && !oneWindow is then
    let (ids, s1) := tiller s st
    (true, ids.foldl (fun a id => match strandOf a id with | some p => put a p (r.on is (present p)) | none => a) s1)
  else (true, put s st r)

/-- Holders of an operation. -/
def holders (s : State) (oid : Nat) : List Strand := s.strands.filter (fun t => t.ops.contains oid)

/-- Mark an operation finished: it leaves every set, or stays as a tag entry until its fault is delivered (R155, R374). -/
def endOp (s : State) (oid : Nat) : State :=
  match opOf s oid with
  | none => s
  | some o => wakeStalls (if o.faults.isEmpty then dropOps s [oid] else updOp s oid (fun o => { o with done := true }))

/-- The holders at which values or pushes of an operation arrive. -/
def landsAt (s : State) (o : Op) (vals : List (Nat × List Word)) (push : Option (List (Nat × Bool))) : List Strand :=
  (holders s o.oid).filter (fun x => (present x).any (fun i => (alookup vals i).isSome || ((push.getD []).any (fun e => e.1 == i))))

/-- A strand has what an operation delivers: the operation leaves its set, and its indices the operation (R155). -/
def taken (s : State) (oid : Nat) (st : Strand) : State :=
  updOp (updStrand s st.sid (fun t => { t with ops := t.ops.filter (fun o => o != oid) })) oid (fun o => { o with idxs := o.idxs.filter (fun i => !(present st).contains i) })

/-- Deliver an arrived result to one of the strands that hold it. One that takes its placement cut first, or is still to be placed, takes the result later (R33, R241). -/
def landOne (o : Op) (d : Option Nat) (n : Nat) (vals : List (Nat × List Word)) (ps : List (Nat × Nat)) (push : Option (List (Nat × Bool))) (s : State)
    (x : Strand) : State :=
  match strandOf s x.sid with
  | none => s
  | some y =>
    let r := landResult (taken s o.oid y) { y with ops := y.ops.filter (fun k => k != o.oid) } (d.getD 0) (if d.isSome then n else 0) vals ps push o.pc.toNat (o.cls != .t)
    if r.1 then r.2
    else if y.team.isNone then (landResult s y (d.getD 0) (if d.isSome then n else 0) vals ps push o.pc.toNat (o.cls != .t)).2
    else s

/-- Deliver an arrived result to every strand that holds it and can take it, in ascending order of first (R398); the operation finishes when none is left that waits for it
(R33, R155). What a merge has made undefined stays so (R48). -/
def landAll (s : State) (o : Op) (d : Option Nat) (n : Nat) (vals : List (Nat × List Word)) (ps : List (Nat × Nat)) (push : Option (List (Nat × Bool))) : State :=
  let vals := vals.filter (fun e => !o.dead.contains e.1)
  let ps := ps.filter (fun e => !o.dead.contains e.2)
  let s1 := (sortByFirst (landsAt s o vals push)).foldl (landOne o d n vals ps push) s
  if (landsAt s1 o vals push).isEmpty then wakeJoins (endOp s1 o.oid) o.lk else wakeJoins (wakeStalls s1) o.lk

end Sys2Proof.Machine
end

