-- ==== Sys2Proof/Machine/Stream.lean ====
section
/-! DEFINITION. Layout slots and stream engines (R195 to R208): SE, DLD and DST, and the steps of the engines. -/

namespace Sys2Proof.Machine

/-- The frame of an instruction that names layout slot d: it stalls while a DLD of its strand loads the slot (R198), and reads the record. -/
def slotFrame (h : Hdr) (len : Nat) (rs : List Nat) (d : Nat) (f : State → Strand → LayoutBits → State) (s : State) : Res :=
  strandFrame h len rs true false (fun s st =>
    if (pendingSlots s st).contains d then stallStrand s st.sid { Need.none with slots := [d] }
    else
      let (r, s1) := readSlot s st d
      f s1 st r) s

/-- SCRATCH of the running kernel (R113). -/
def scratchOf (s : State) (st : Strand) : Nat := ((kernelOf s st.lk st.team).map (fun k => k.scratch)).getD 0

/-! ### SE (R200 to R205) -/

/-- The stores that the release records of some indices name (R259). -/
def relUnion (s : State) (lk : Nat) (is : List Nat) : List Nat :=
  is.foldl (fun a i => match relOf s lk i with | some r => r.set.foldl insertNat a | none => a) []

/-- The queue of an engine of a core (R200). -/
def engineQ (c : Core) (e : Nat) : List SeCmd := nth c.engines e []

/-- Set the queue of an engine. -/
def setEngineQ (s : State) (core e : Nat) (q : List SeCmd) : State :=
  let c := coreOf s core
  putCore s { c with engines := c.engines.set e q }

/-- Queue a command with its snapshot and observed sets: the strand's stores come before it in program order (R200, R208, R259). -/
def queueCmd (s : State) (st : Strand) (oid : Nat) (k : SeKind) (r : LayoutBits) (d woff e : Nat) : State :=
  let s := performStores s st
  let is := present st
  let cmd : SeCmd := { oid := oid, kind := k, lk := st.lk, team := st.team.getD 0, ctx := ctxOfLaunch s st.lk, record := r, slot := d, woff := woff
                       obs := if k = .drain then obsUnion s st.lk is else [], rels := relUnion s st.lk is, waiting := none, answers := [], key := none, prog := none }
  setEngineQ s st.core e (engineQ (coreOf s st.core) e ++ [cmd])

/-- SE: the checks of R200, R197 and the command's own, then the update of the slot, the operation and the command. none: SE.ADV. -/
def seIssue (h : Hdr) (kind : Option SeKind) (d : BitVec 5) (b : Src) (e : BitVec 2) (s : State) : Res :=
  let len := srcLen b
  slotFrame h len (srcRegs b) d.toNat (fun s st r =>
    let trap := fun rep => recTrap s st len r d.toNat e.toNat rep
    match uSrc st b with
    | none => trap { reportOf s st 5 0 with info := 2 }
    | some v =>
      let ring := kind == some .fill || kind == some .drain
      let item := recordCheck r (scratchOf s st) ring (kind == some .drain)
      let adv := if kind == some .fillw then 0 else advCheck v
      if item ≠ 0 then trap (illegal s st 11 item d.toNat)
      else if adv ≠ 0 then trap (illegal s st 14 adv d.toNat)
      else if kind == some .fillw && (v.toNat % 16 != 0 || decide (524288 < v.toNat + imageSize r)) then trap (illegal s st 15 0 d.toNat)
      else match kind with
        | none => if !roomFor s st .c false then waitRoom s st.sid .c false else advance (setSlot s st d.toNat (advRec r v)) st.sid len
        | some k =>
          if !roomFor s st .c true || !engineRoom s st.core e.toNat then stallStrand s st.sid { Need.none with room := some (.c, true), engine := some e.toNat }
          else
            let (oid, s1) := addOp s st .c (present st) (.engine e.toNat) false
            let s2 := queueCmd s1 st oid k r d.toNat v.toNat e.toNat
            advance (if ring then setSlot s2 st d.toNat (advRec (stepRing r) v) else s2) st.sid len) s

/-- SE.FILL (R201). -/
def execSeFill (h : Hdr) (d : BitVec 5) (b : Src) (e : BitVec 2) (s : State) : Res := seIssue h (some .fill) d b e s

/-- SE.DRAIN (R202). -/
def execSeDrain (h : Hdr) (d : BitVec 5) (b : Src) (e : BitVec 2) (s : State) : Res := seIssue h (some .drain) d b e s

/-- SE.FILLW (R203). -/
def execSeFillw (h : Hdr) (d : BitVec 5) (b : Src) (e : BitVec 2) (s : State) : Res := seIssue h (some .fillw) d b e s

/-- SE.ADV (R205): its operation of class c finishes at once. -/
def execSeAdv (h : Hdr) (d : BitVec 5) (b : Src) (e : BitVec 2) (s : State) : Res := seIssue h none d b e s

/-! ### DLD and DST (R198) -/

/-- DLD and DST up to the access: a U address, a multiple of 64, translated as one access of the strand. -/
def slotAccess (h : Hdr) (d : BitVec 5) (a k : R11) (store : Bool) (f : State → Strand → LayoutBits → Space → Nat → Nat → State) (s : State) : Res :=
  slotFrame h 8 [a.toNat, a.toNat + 1] d.toNat (fun s st r =>
    match uReg st a.toNat, uReg st (a.toNat + 1) with
    | some lo, some hi =>
      let va := wrapTo 64 (((pair lo hi).toNat : Int) + immS k)
      let acc := accessCode (if store then 2 else 1) 0
      match accessOf s st va 64 store with
      | .miss p => startWalk s st p
      | .bad pa => { s with badAddr := some pa }
      | .fault kd c i => askFor (recTrap (dropRes s st.sid) st 8 r d.toNat 0 { reportOf s st kd c with info := i, addr := va, access := acc }) st kd c va acc
      | .ok sp pa => f (dropRes s st.sid) st r sp pa va
    | _, _ => recTrap s st 8 r d.toNat 0 { reportOf s st 5 0 with info := 1 }) s

/-- DLD: an operation of class l that will load the slot. -/
def execDld (h : Hdr) (d : BitVec 5) (a k : R11) (s : State) : Res :=
  slotAccess h d a k false (fun s st _ sp pa va =>
    if !roomFor s st .l true then waitRoom s st.sid .l true
    else advance (addOp (performSame (cacheUse st.core false 0 s [(0, sp, pa)]) st.lk sp pa 64 (present st)) st .l (present st) (.dld d.toNat sp pa va []) false).2 st.sid 8) s

/-- The stores of a DST: 8 bytes each (R163). -/
def dstTodos (is : List Nat) (sp : Space) (pa : Nat) (r : LayoutBits) : List StoreTodo :=
  (List.range 8).map (fun k => ⟨is, sp, pa + 8 * k, ((toBytes 64 r.toNat).drop (8 * k)).take 8, none⟩)

/-- DST: the slot as it stands at issue is stored by the strand's indices. -/
def execDst (h : Hdr) (d : BitVec 5) (a k : R11) (s : State) : Res :=
  slotAccess h d a k true (fun s st r sp pa _ =>
    if !roomFor s st .s false then waitRoom s st.sid .s false
    else advance (issueStores (cacheUse st.core false 64 s [(0, sp, pa)]) st (present st) (dstTodos (present st) sp pa r) []) st.sid 8) s

/-! ### Translation and keys of an engine (R199, R207, R331, R335) -/

/-- The key-table entry of a handle (R334, R335): its key id, and whether the command may use it; none: it names no entry, or one that is poisoned (R372;
DEDUCED, log 114). -/
def readKey (s : State) (c h : Nat) (write : Bool) : Option (Nat × Bool) :=
  if h = 0 then some (0, true)
  else match ctxOf s c with
    | none => none
    | some x =>
      if x.keyn ≤ h || homePoison s .dev (x.keytab + 8 * h) 8 then none
      else
        let e := ofBytes (memGets s.mem (x.keytab + 8 * h) 8)
        let k := field e 0 10
        some (k, k != 0 && s.sec.keys.any (fun r => r.id == k && r.ctx == c) && bitOf e (if write then 17 else 16))

/-- What an engine's access of one element is answered. -/
inductive EngAcc where
  | ok (sp : Space) (a keyid : Nat)
  | fault (kind cause info : Nat)
  | miss (page : Nat)
  | bad (pa : Nat)
  deriving DecidableEq, Repr

/-- Permissions and keys of an element's access (R199, R332, R335). -/
def engCheck (cmd : SeCmd) (va n : Nat) (store : Bool) (t : Trans) : EngAcc :=
  let pa := t.base + va % t.size
  if store && !t.w then .fault 12 1 0
  else match cmd.key with
    | none => .fault 12 3 0
    | some (k, ok) =>
      if t.keyid ≠ k || (t.keyid != 0 && !ok) then .fault 12 3 0
      else if t.host then .ok (.host cmd.ctx) pa 0
      else if Config.deviceBytes < pa + n then .bad pa
      else .ok .dev pa t.keyid

/-- One element of a command (R207, R331): the fault that was answered for its page, or the core's translation; a page that is not at hand needs a walk. -/
def engAccess (s : State) (core : Nat) (cmd : SeCmd) (va n : Nat) (store : Bool) : EngAcc :=
  match alookup cmd.answers (va / 4096) with
  | some (.fault c l) => .fault 11 c l
  | some .noPasid => .fault 12 5 0
  | some (.noDevice pa) => .bad pa
  | some (.poisoned l) => .fault 15 2 l
  | _ => match (tlbLookup s core cmd.ctx va).filter (fun t => !(t.host && t.mig && migGrant s cmd.lk)) with
    | some t => engCheck cmd va n store t
    | none => .miss (va / 4096)

/-- The key under a key id in the AES engines (R335). -/
def keyUnder (s : State) (keyid : Nat) : List Byte := ((s.sec.keys.find? (fun r => r.id == keyid)).map (fun r => r.key)).getD []

/-- The plaintext of a 256-byte unit under a key id (R199, R287). -/
def plainUnit (s : State) (keyid u : Nat) : List Byte :=
  let c := memGets s.mem (u * 256) 256
  if keyid = 0 then c else (List.range 256).map (fun k => nth (Config.decipher (keyUnder s keyid) u c) k 0)

/-- Bytes that an engine reads, and their poison. -/
def engRead (s : State) (sp : Space) (a n keyid : Nat) : List Byte × Bool :=
  (if keyid = 0 then homeBytes s sp a n else ((plainUnit s keyid (a / 256)).drop (a % 256)).take n, homePoison s sp a n)

/-- Bytes that an engine writes at their home; in an encrypted unit by read, merge and re-cipher (R199). -/
def engWrite (s : State) (w : Writer) (sp : Space) (a : Nat) (bs : List Byte) (keyid : Nat) : Nat × State :=
  if keyid = 0 then appendHome s sp a bs false w none
  else
    let u := a / 256
    let old := plainUnit s keyid u
    let new := old.take (a % 256) ++ bs ++ old.drop (a % 256 + bs.length)
    let c := Config.encipher (keyUnder s keyid) u new
    appendHome s sp (u * 256) ((List.range 256).map (fun k => nth c k 0)) false w none

/-! ### The steps of an engine (R201 to R203, R206, R207, R259) -/

/-- An element of a command: linear box index, coordinates, address, and how its access is answered (none: out of range). -/
structure Elem where
  n : Nat
  coord : List Nat
  va : Nat
  acc : Option EngAcc
  deriving DecidableEq, Repr

/-- The element of a command's box at a linear box index (R196). -/
def elemOf (s : State) (core : Nat) (cmd : SeCmd) (store : Bool) (n : Nat) : Elem :=
  let cs := boxCoord cmd.record n
  let va := elemAddr cmd.record cs
  ⟨n, cs, va, if inRange cmd.record cs then some (engAccess s core cmd va (recEsz cmd.record) store) else none⟩

/-- Conversion on the way in (R206). -/
def convertIn (conv : Nat) (bs : List Byte) : List Byte :=
  let x := ofBytes bs
  match conv with
  | 0 => bs
  | 1 => toBytes 2 (cvtElem .t16 .bf16 false .rn x)
  | 2 => toBytes 2 (cvtElem .t16 .f32 false .rn x)
  | _ => toBytes 1 (cvtElem .t8 .f32 false .rn x)

/-- A fault of one element: the element, KIND, CAUSE and INFO. -/
abbrev ElemFault := Elem × Nat × Nat × Nat

/-- The attributed report of a command's first faulting element (R207, R376). -/
def engReport (s : State) (cmd : SeCmd) (e : Nat) (f : ElemFault) (store : Bool) : Report :=
  { Report.blank with
    cls := 2, kind := f.2.1, cause := f.2.2.1, info := f.2.2.2, launch := launchId s cmd.lk, tsize := tsizeOf s cmd.lk
    pc := ((opOf s cmd.oid).map (fun o => o.pc.toNat)).getD 0, addr := f.1.va, snap := cmd.record.toNat, coord := f.1.coord, slot := cmd.slot, engine := e
    access := accessCode (if store then 6 else 5) (recEsz cmd.record) }

/-- The value of each element of a FILL or FILLW, or its fault. -/
def fillValue (s : State) (r : LayoutBits) (x : Elem) : Sum (List Byte) ElemFault :=
  match x.acc with
  | none => .inl (List.replicate (recEszOut r) 0)
  | some (.ok sp a k) =>
    let (bs, p) := engRead s sp a (recEsz r) k
    if p then .inr (x, 15, 2, 0) else .inl (convertIn (recConv r) bs)
  | some (.fault kd c i) => .inr (x, kd, c, i)
  | _ => .inr (x, 11, 1, 0)

/-- Granules of a region of scratch, rounded out (R201). -/
def granules (a n : Nat) : List Nat := List.range' (a / 16) ((a + n + 15) / 16 - a / 16)

/-- A command finishes: its writes are the holders' to observe at their WAITC (R259), and its fault is attributed (R207). -/
def finishCmd (s : State) (core e : Nat) (cmd : SeCmd) (ids : List Nat) (fault : Option Report) : State :=
  let s1 := setEngineQ s core e ((engineQ (coreOf s core) e).drop 1)
  let s2 := { s1 with strands := s1.strands.map (fun t => if t.ops.contains cmd.oid then { t with copied := t.copied ++ ids } else t) }
  endOp (updOp s2 cmd.oid (fun o => { o with faults := o.faults ++ fault.toList })) cmd.oid

/-- Change the head of an engine's queue. -/
def setHead (s : State) (core e : Nat) (f : SeCmd → SeCmd) : State :=
  match engineQ (coreOf s core) e with
  | [] => s
  | c :: r => setEngineQ s core e (f c :: r)

/-- Whether every granule of a region is in the state asked for. -/
def allGranules (s : State) (lk team : Nat) (gs : List Nat) (full : Bool) : Bool := gs.all (fun g => granFull s lk team g == full)

/-- What an element asks of the caches: part of a bulk transfer (R266). -/
def engTouch (s : State) (core : Nat) (x : Elem) (store : Bool) (n : Nat) : State :=
  match x.acc with
  | some (.ok sp a k) => if k = 0 then bulkUse core (if store then n else 0) s [(0, sp, a)] else s
  | _ => s

/-- A command starts: its key entry is read, and the members of the issuing indices' release records drain (R259, R335). -/
def startCmd (s : State) (core e : Nat) (cmd : SeCmd) (store : Bool) : State :=
  setHead (drainThese s core cmd.rels) core e (fun c => { c with
    key := readKey s cmd.ctx (recKey cmd.record) store, prog := some ⟨List.range (boxCount cmd.record), [], false, [], none, []⟩ })

/-- The progress of a command. -/
def progOf (cmd : SeCmd) : SeProg := cmd.prog.getD ⟨[], [], false, [], none, []⟩

/-- An element of the head command is done: what it wrote, and its fault; the fault of the first faulting element stands (R207). -/
def elemDone (s : State) (core e n : Nat) (ids : List Nat) (fault : Option Report) : State :=
  setHead s core e (fun c =>
    let p := progOf c
    { c with prog := some { p with
        left := p.left.filter (fun k => k != n), ids := p.ids ++ ids
        fault := match p.fault, fault with | some (m, r), some f => if n < m then some (n, f) else some (m, r) | none, some f => some (n, f) | x, none => x } })

/-- The request for an element of an encrypted unit goes to its B-die directly, with a tag and the key id, and the unit's lines leave L2 before a write; while all the tags of the engine there are
in use none is sent (R274, R287). -/
def sendUnit (s : State) (core e : Nat) (x : Elem) (a keyid : Nat) (store : Bool) : State :=
  let lines := (List.range 4).map (fun j => 4 * (a / 256) + j)
  let s1 := settlePackets (if store then dropL2 s (fun e => lines.contains e.line) else s)
  let src := engineSource core e
  match freeTag s1 src (homeOf a).1 with
  | none => s1
  | some t => setHead { s1 with packets := s1.packets ++ [⟨src, some t, a / 256 * 256, .engine x.n keyid store⟩] } core e (fun c =>
      { c with prog := some { progOf c with sent := x.n :: (progOf c).sent } })

/-- Whether the reply to the request for an element is still to come. -/
def unitAway (s : State) (core e n : Nat) : Bool :=
  s.packets.any (fun p => p.slice == engineSource core e && (match p.kind with | .engine m _ _ => m == n | _ => false))

/-- One element of the head command: where its page is not at hand the engine waits for the walk (R207, R329). -/
def withElem (core e : Nat) (store : Bool) (f : State → SeCmd → Elem → State) (s : State) (n : Nat) : State :=
  match engineQ (coreOf s core) e with
  | [] => s
  | cmd :: _ =>
    if cmd.waiting.isSome || s.badAddr.isSome then s
    else
      let x := elemOf s core cmd store n
      match x.acc with
      | some (.miss p) =>
        (match askWalk s core cmd.ctx p none with
         | some s1 => setHead s1 core e (fun c => { c with waiting := some (p, .walk) })
         | none => s)
      | some (.bad pa) => { s with badAddr := some pa }
      | some (.ok _ a k) =>
        if k = 0 then f s cmd x
        else if !(progOf cmd).sent.contains n then sendUnit s core e x a k store
        else if unitAway s core e n then s
        else f s cmd x
      | _ => f s cmd x

/-- Elements that the head command moves in one step: all that are left, in ascending order, or one of them (R201, R248, R259). -/
def moveElems (core e : Nat) (store : Bool) (f : State → SeCmd → Elem → State) (s : State) : State :=
  match engineQ (coreOf s core) e with
  | [] => s
  | cmd :: _ =>
    let left := (progOf cmd).left
    let (k, s1) := choose s (left.length + 1)
    (if k = 0 then left else [nth left (k - 1) 0]).foldl (withElem core e store f) s1

/-- The head command of a kind, once it has started and, before its first element, found what it waits for. -/
def engineStep (s : State) (core e : Nat) (kind : SeKind) (store : Bool) (ready : State → SeCmd → Bool) (run : State → State) : State :=
  match engineQ (coreOf s core) e with
  | [] => s
  | cmd :: _ =>
    if cmd.kind != kind || cmd.waiting.isSome then s
    else
      let s1 := if cmd.prog.isSome then s else startCmd s core e cmd store
      let begun := cmd.prog.any (fun p => p.writing || decide (p.left.length < boxCount cmd.record))
      if !begun && !ready s1 cmd then s1 else run s1

/-- Where the head command has no element left, go on. -/
def whenMoved (core e : Nat) (f : SeCmd → State → State) (s : State) : State :=
  match engineQ (coreOf s core) e with
  | cmd :: _ => if (progOf cmd).left.isEmpty then f cmd s else s
  | [] => s

/-- The start and length of a command's image in scratch. -/
def imageAt (cmd : SeCmd) : Nat × Nat := (ringStart cmd.record (recRnext cmd.record), imageSize cmd.record)

/-- The granules of a command's image (R201). -/
def imageGranules (cmd : SeCmd) : List Nat := granules (imageAt cmd).1 (imageAt cmd).2

/-- One element moves into scratch, or into the weight buffer: its value is written, or its fault kept (R201, R203). -/
def fillElem (core e : Nat) (write : SeCmd → Nat → List Byte → State → Nat × State) (s : State) (cmd : SeCmd) (x : Elem) : State :=
  let s1 := engTouch s core x false 0
  match fillValue s1 cmd.record x with
  | .inl bs => let (id, s2) := write cmd x.n bs s1; elemDone s2 core e x.n [id] none
  | .inr f => elemDone s1 core e x.n [] (some (engReport s cmd e f false))

/-- Writes of addresses and lengths cover n bytes at an address. A word that a command has written whole is no longer poisoned (R389; DEDUCED, log 13). -/
def coveredBy (ws : List (Nat × Nat)) (a n : Nat) : Bool := (List.range n).all (fun k => ws.any (fun w => decide (w.1 ≤ a + k) && decide (a + k < w.1 + w.2)))

/-- The end of a FILL: the granules become full as one event with the record of its writes, unless an element faulted (R201, R259). -/
def endFill (core e : Nat) (cmd : SeCmd) (s : State) : State :=
  let p := progOf cmd
  let r : RelRec := ⟨p.ids, ⟨.team, cmd.ctx, [teamRange s cmd.lk cmd.team]⟩⟩
  let ws := (s.stores.filter (fun e => p.ids.contains e.id)).map (fun e => (e.addr, e.bytes.length))
  let s0 := updTeam s cmd.lk cmd.team (fun t => { t with scratchPois := t.scratchPois.filter (fun w => !coveredBy ws (4 * w) 4) })
  let s1 := if recFeu cmd.record && p.fault.isNone then (imageGranules cmd).foldl (fun a g => fillGranule a cmd.lk cmd.team g (.engine core cmd.lk cmd.team) r) s0 else s0
  finishCmd s1 core e cmd p.ids (p.fault.map (fun f => f.2))

/-- ENGINE_FILL (R201): waits for empty granules, and moves the box into scratch. -/
def execEngineFill (core e : Nat) (s : State) : Res :=
  finish (engineStep s core e .fill false (fun s cmd => !recFeu cmd.record || allGranules s cmd.lk cmd.team (imageGranules cmd) false) (fun s =>
    whenMoved core e (endFill core e) (moveElems core e false (fillElem core e (fun cmd n bs a =>
      appendHome a (.scr cmd.lk cmd.team) ((imageAt cmd).1 + recEszOut cmd.record * n) bs false (.engine core cmd.lk cmd.team) none)) s)))

/-- A DRAIN reads one element of its image, as a load would for an index that holds its observed set (R259), in which stands what filled the granules. -/
def drainRead (core e : Nat) (s : State) (cmd : SeCmd) (n : Nat) : State :=
  let sp : Space := .scr cmd.lk cmd.team
  let sz := recEsz cmd.record
  let a := (imageAt cmd).1 + sz * n
  let acq := if recFeu cmd.record then (s.gsets.filter (fun g => g.lk == cmd.lk && g.team == cmd.team && (imageGranules cmd).contains g.gran)).flatMap (fun g => g.rel.set) else []
  let es := (bufferOf s core).filter (meets sp a sz)
  let (b, s1) := if es.isEmpty || es.any (fun x => (acq ++ cmd.obs).contains x.id) then (!es.isEmpty, s) else freeBool s
  let r := loadWith s1 core b sp a sz
  setHead s1 core e (fun c => { c with prog := some { progOf c with
    left := (progOf c).left.filter (fun k => k != n), image := (progOf c).image ++ [(n, r.bytes, r.pois)] } })

/-- Reads of the image that the head command makes in one step. -/
def readImage (core e : Nat) (s : State) : State :=
  match engineQ (coreOf s core) e with
  | [] => s
  | cmd :: _ =>
    let left := (progOf cmd).left
    let (k, s1) := choose s (left.length + 1)
    (if k = 0 then left else [nth left (k - 1) 0]).foldl (fun a n => drainRead core e a cmd n) s1

/-- The image has been read: its granules become empty, and the elements in range are to be written (R202). -/
def imageRead (core e : Nat) (cmd : SeCmd) (s : State) : State :=
  let s1 := if recFeu cmd.record then (imageGranules cmd).foldl (fun a g => setFull a cmd.lk cmd.team g false) s else s
  setHead s1 core e (fun c => { c with prog := some { progOf c with
    writing := true, sent := [], left := (List.range (boxCount cmd.record)).filter (fun n => inRange cmd.record (boxCoord cmd.record n)) } })

/-- One element of a DRAIN is written at its home; scratch that was poisoned is a fault (R202, R391). -/
def drainElem (core e : Nat) (s : State) (cmd : SeCmd) (x : Elem) : State :=
  let v := (alookup (progOf cmd).image x.n).getD ([], false)
  match x.acc with
  | some (.ok sp a k) =>
    if v.2 then elemDone s core e x.n [] (some (engReport s cmd e (x, 15, 2, 0) true))
    else
      let (id, s1) := engWrite (engTouch s core x true v.1.length) (.engine core cmd.lk cmd.team) sp a v.1 k
      elemDone s1 core e x.n [id] none
  | some (.fault kd c i) => elemDone s core e x.n [] (some (engReport s cmd e (x, kd, c, i) true))
  | _ => elemDone s core e x.n [] none

/-- ENGINE_DRAIN (R202): waits for full granules, reads the image, empties the granules, and writes every in-range element at its home. -/
def execEngineDrain (core e : Nat) (s : State) : Res :=
  finish (engineStep s core e .drain true (fun s cmd => !recFeu cmd.record || allGranules s cmd.lk cmd.team (imageGranules cmd) true) (fun s =>
    let writing := fun (a : State) => (engineQ (coreOf a core) e).head?.any (fun c => (progOf c).writing)
    let s1 := if writing s then s else whenMoved core e (imageRead core e) (readImage core e s)
    if writing s1 then whenMoved core e (fun cmd a => finishCmd a core e cmd (progOf cmd).ids ((progOf cmd).fault.map (fun f => f.2))) (moveElems core e true (drainElem core e) s1)
    else s1))

/-- An element reaches the weight buffer (R203). -/
def writeWeights (core a : Nat) (bs : List Byte) (s : State) : Nat × State :=
  let (id, s1) := fresh s
  let c := coreOf s1 core
  (id, putCore s1 { c with
    wbuf := memPuts c.wbuf a bs, wlog := c.wlog ++ [(id, a, bs.length)] })

/-- The end of a FILLW. -/
def endFillw (core e : Nat) (cmd : SeCmd) (s : State) : State :=
  let p := progOf cmd
  let c := coreOf s core
  let ws := (c.wlog.filter (fun w => p.ids.contains w.1)).map (fun w => w.2)
  finishCmd (putCore s { c with wbufPois := c.wbufPois.filter (fun w => !coveredBy ws (8 * w) 8) }) core e cmd p.ids (p.fault.map (fun f => f.2))

/-- ENGINE_FILLW (R203): moves a box into the weight buffer. -/
def execEngineFillw (core e : Nat) (s : State) : Res :=
  finish (engineStep s core e .fillw false (fun _ _ => true) (fun s =>
    whenMoved core e (endFillw core e)
      (moveElems core e false (fillElem core e (fun cmd n bs a => writeWeights core (cmd.woff + recEszOut cmd.record * n) bs a)) s)))

end Sys2Proof.Machine
end

