-- ==== Sys2Proof/Machine/Matrix.lean ====
section
/-! DEFINITION. The matrix unit (R73 to R79, R209 to R219, R407): MLOOP, MFENCE, MWAIT, MRD, MCLR, and the steps of the unit. -/

namespace Sys2Proof.Machine

/-! ### Format words and tiles (R75, R209 to R213) -/

/-- Fields of the format word (R209). -/
def fmtIn (f : Word) : Nat := field f.toNat 0 3
def fmtCb (f : Word) : Bool := bitOf f.toNat 3
def fmtTake (f : Word) : Bool := bitOf f.toNat 4

/-- The TAG that inputs set (R210, R211), the K of a step, the element size, and the bytes of B that a step uses (R212). -/
def inTag (i : Nat) : Nat := match i with | 0 => 1 | 1 => 2 | _ => 4
def inK (i : Nat) : Nat := if i = 1 then 24 else 48
def inSize (i : Nat) : Nat := if i = 1 then 2 else 1
def bytesB (f : Word) : Nat := if fmtIn f = 3 then 768 else if fmtCb f then (if fmtIn f = 1 then 800 else 1552) else 3072

/-- Slots that an operation with these inputs uses (R75). -/
def inSlots (i m : Nat) : List Nat := if i = 1 then [m, m + 1] else [m]

/-- A tile at team start, and after MCLR (R210, R217). -/
def Tile.clear : Tile := ⟨[], 0, false, false, [], [], false, true⟩

def tileOf (t : Team) (m : Nat) : Tile := nth t.tiles m Tile.clear
/-- Change a tile, whose slot becomes dirty (R383). -/
def updTile (s : State) (lk team m : Nat) (f : Tile → Tile) : State :=
  updTeam s lk team (fun t => { t with tiles := (List.range t.tiles.length).map (fun k => if k = m then { f (nth t.tiles k Tile.clear) with dirty := true } else nth t.tiles k Tile.clear) })

/-- Slot m is in ACC of the running kernel (R113). -/
def inAcc (s : State) (st : Strand) (m : Nat) : Bool := bitOf (((kernelOf s st.lk st.team).map (fun k => k.acc)).getD 0) m

/-- The strand's team, with what a team that is not there would hold. -/
def teamTag (s : State) (st : Strand) (m : Nat) : Nat := ((st.team.bind (teamOf s st.lk)).map (fun t => (tileOf t m).tag)).getD 0

/-- Commands of the unit that are outstanding on some slots of a team (R215): their operations. -/
def tileOpsOn (s : State) (lk : Nat) (team : Option Nat) (ms : List Nat) : List Op :=
  s.ops.filter (fun o => !o.done && o.lk == lk && o.team == team && (tileSlots o.body).any ms.contains)

/-- The kind of accumulator that an outstanding MLOOP adds to, none for another command. -/
def loopTag (q : List MxCmd) (oid : Nat) : Option Nat :=
  q.findSome? (fun c => match c with | .mloop o _ _ _ f _ _ _ _ _ _ => if o = oid then some (inTag (fmtIn f)) else none | _ => none)

/-- A tile becomes undefined (R215): whether it holds NaR is not known either. -/
def undefTile (s : State) (lk team m : Nat) : State :=
  let (b, s1) := freeBool s
  updTile s1 lk team m (fun t => { t with undef := true, nar := if t.tag = 0 || t.tag = 4 then t.nar else b })

/-- Mark the tiles of an operation that meets a busy tile (R215). tag: the kind of an MLOOP, which may meet its like. -/
def clashAt (s : State) (st : Strand) (ms : List Nat) (tag : Option Nat) : Bool :=
  (tileOpsOn s st.lk st.team ms).any (fun o => tag.isNone || loopTag (coreOf s st.core).mq o.oid != tag)
/-- A command that shares its tile with a clash: what it leaves in the tile, or reads, is undefined too. -/
def MxCmd.clashed (hit : Nat → Bool) : MxCmd → MxCmd
  | .mloop o l t m f w r d k sn c => .mloop o l t m f w r d k sn (c || hit o)
  | .mrd o l t m r b f sat reg a c => .mrd o l t m r b f sat reg a (c || hit o)
  | .mclr o l t m c => .mclr o l t m (c || hit o)
def markClash (s : State) (st : Strand) (ms : List Nat) (clash : Bool) : State :=
  if !clash then s
  else
    let c := coreOf s st.core
    let hit := fun (o : Nat) => (tileOpsOn s st.lk st.team ms).any (fun x => x.oid == o)
    ms.foldl (fun a m => undefTile a st.lk (st.team.getD 0) m) (putCore s { c with mq := c.mq.map (MxCmd.clashed hit) })

/-- Add a tile operation and its command: the strand remembers the slots for its next view (R407), and the operation joins what later
instructions ordered after it must wait for (R208, R216). -/
def queueTile (s : State) (st : Strand) (body : OpBody) (cmd : Nat → MxCmd) : State :=
  let (oid, s1) := addOp s st .t (present st) body false
  let c := coreOf s1 st.core
  let s2 := putCore s1 { c with mq := c.mq ++ [cmd oid] }
  addObs (updStrand s2 st.sid (fun t => { t with tileIssued := (tileSlots body).foldl insertNat t.tileIssued })) st.lk (present st) [oid]

/-- The first failing item of R213 after the record's own checks, 0 for none. -/
def mloopCheck (s : State) (st : Strand) (m : Nat) (f w : Word) (r : LayoutBits) (ksteps : Nat) : Nat :=
  let i := fmtIn f
  if 3 < i || field f.toNat 5 27 ≠ 0 || (i = 3 && fmtCb f) then 1
  else if (i = 1 && m % 2 = 1) || (inSlots i m).any (fun k => !inAcc s st k) then 2
  else if teamTag s st m ≠ 0 && teamTag s st m ≠ inTag i || (i = 1 && teamTag s st (m + 1) ≠ 0 && teamTag s st (m + 1) ≠ 3) then 3
  else if (recBox r 0 + 1) * recEszOut r ≠ 48 * ksteps || recBox r 1 ≠ 63 || recBox r 2 ≠ 0 || recBox r 3 ≠ 0 || recBox r 4 ≠ 0 ||
      recEszOut r ≠ inSize i || (2 ≤ i && recConv r ≠ 0) then 4
  else if w.toNat % 16 ≠ 0 || 524288 < w.toNat + ksteps * bytesB f then 5
  else 0

/-- MLOOP at issue (R211, R213). The lowest present value that the report of a format divergence gives is that of the lowest present index (R375; DEDUCED, log 28). -/
def execMloop (h : Hdr) (m : BitVec 3) (f : R11) (w : Src) (d : BitVec 5) (ksteps : BitVec 6) (incA incB : Bool) (s : State) : Res :=
  let len := srcLen w
  slotFrame h len (f.toNat :: srcRegs w) d.toNat (fun s st r =>
    let trap := fun rep => recTrap s st len r d.toNat 0 rep
    match uReg st f.toNat, uSrc st w with
    | none, _ =>
      let vs := regVals st f.toNat
      trap { reportOf s st 6 0 with info := (vs.headD 0).toNat, info2 := ((vs.find? (fun x => x != vs.headD 0)).getD 0).toNat }
    | _, none => trap { reportOf s st 5 0 with info := 2 }
    | some fv, some wv =>
      let k := ksteps.toNat
      let item := recordCheck r (scratchOf s st) true false
      let own := mloopCheck s st m.toNat fv wv r k
      if item ≠ 0 then trap (illegal s st 11 item d.toNat)
      else if own ≠ 0 then trap (illegal s st 12 own d.toNat)
      else if !roomFor s st .t true || !matrixRoom s st.core then stallStrand s st.sid { Need.none with room := some (.t, true), matrix := true }
      else
        let i := fmtIn fv
        let team := st.team.getD 0
        let ms := inSlots i m.toNat
        let clash := clashAt s st ms (some (inTag i))
        let s1 := markClash s st ms clash
        let s2 := if incA then setSlot s1 st d.toNat (stepRing r) else s1
        let s3 := updTile s2 st.lk team m.toNat (fun t => { t with tag := inTag i })
        let s4 := if i = 1 then updTile s3 st.lk team (m.toNat + 1) (fun t => { t with tag := 3 }) else s3
        let seen := ((teamOf s st.lk team).map (fun t => t.fenced)).getD []
        let s5 := queueTile s4 st (.tile m.toNat (i = 1) none 0) (fun oid => .mloop oid st.lk team m.toNat fv wv r d.toNat k seen clash)
        match incB, w with
        | true, .reg v =>
          (match strandOf s5 st.sid with
          | some x => writeResult s5 x { regs := [(v.toNat, (present x).map (fun _ => wv + BitVec.ofNat 32 (k * bytesB fv)))], stack := none, pois := [], acted := present x } len
          | none => s5)
        | _, _ => advance s5 st.sid len) s

/-- MFENCE (R214, R259): the writes that are ordered before it are observed by the team's later MLOOPs; the scratch entries among them
drain. -/
def execMfence (h : Hdr) (s : State) : Res :=
  strandFrame h 8 [] true false (fun s st =>
    let team := st.team.getD 0
    let s0 := performStores s st
    let seen := obsUnion s0 st.lk (present st)
    let s1 := drainWhere s0 st.core (fun e => e.space == .scr st.lk team && seen.contains e.id)
    advance (updTeam s1 st.lk team (fun t => { t with fenced := seen.foldl insertNat t.fenced })) st.sid 8) s

/-- Tile operations on a slot that an MWAIT of the strand waits for: those ordered before it (R208, R216). -/
def mwaitOps (s : State) (st : Strand) (m : Nat) : List Op :=
  let seen := obsUnion s st.lk (present st)
  (tileOpsOn s st.lk st.team [m]).filter (fun o => seen.contains o.oid || st.ops.contains o.oid)

/-- The end of an MWAIT (R216): the view of the slot, then the faults of the strand's own operations that name it. -/
def mwaitComplete (s : State) (st : Strand) (m : Nat) : State :=
  let st1 := unblock s (takeViews s st [m])
  let s1 := putStrand s st1
  let fs := (undelivered s st).filter (fun o => match o.body with | .tile k _ _ _ => k == m | _ => false)
  if fs.isEmpty then advance s1 st.sid 8 else deliver s1 st1 fs (.advance 8)

/-- MWAIT (R216): ends the run. -/
def execMwait (h : Hdr) (m : BitVec 3) (s : State) : Res :=
  strandFrame h 8 [] true false (fun s st =>
    if !inAcc s st m.toNat then trapWhole s st 8 (illegal s st 17 m.toNat 0)
    else if (mwaitOps s st m.toNat).isEmpty then endRun (mwaitComplete s st m.toNat)
    else endRun (blockOn s st.sid (.mwait m.toNat))) s

/-- MWAIT_SATISFIED (R216). -/
def execMwaitSatisfied (sid : Nat) (s : State) : Res :=
  finish (match strandOf s sid with
    | some st => (match st.status with
      | .blocked (.mwait m) => if (mwaitOps s st m).isEmpty && st.halted.isNone && !stopped s st then mwaitComplete s st m else s
      | _ => s)
    | none => s)

/-- MCLR at issue (R217). -/
def execMclr (h : Hdr) (m : BitVec 3) (s : State) : Res :=
  strandFrame h 8 [] true false (fun s st =>
    if !inAcc s st m.toNat then trapWhole s st 8 (illegal s st 17 m.toNat 0)
    else if !roomFor s st .t true then waitRoom s st.sid .t true
    else
      let clash := clashAt s st [m.toNat] none
      let s1 := markClash s st [m.toNat] clash
      advance (queueTile s1 st (.tile m.toNat false none 0) (fun oid => .mclr oid st.lk (st.team.getD 0) m.toNat clash)) st.sid 8) s

/-! ### MRD (R218, R219) -/

/-- Width of a target's elements, registers of a block, and rows in a register (R218). -/
def mrdBits : MrdFmt → Nat
  | .t32 | .f32 | .i32 => 32 | .t16 | .bf16 => 16 | .t8 | .i8 => 8
def mrdRegs (f : MrdFmt) : Nat := mrdBits f / 4
def mrdRows (f : MrdFmt) : Nat := 32 / mrdBits f

/-- The failing item of R218 on the tile, 0 for none (R406; DEDUCED, log 29). -/
def mrdCheck (s : State) (st : Strand) (m : Nat) : Nat :=
  if !inAcc s st m then 1
  else if teamTag s st m = 3 then 2
  else if teamTag s st m = 2 && (!(decide (m + 1 < 8) && inAcc s st (m + 1)) || (teamTag s st (m + 1) ≠ 3 && teamTag s st (m + 1) ≠ 0)) then 2
  else 0

/-- Queue the read-out, and pass through steps 1 to 3 of R37 in register mode (R219; DEDUCED, log 19). -/
def mrdIssue (s : State) (st : Strand) (m d : Nat) (r : Rnd) (blk : Nat) (f : MrdFmt) (sat : Bool) (reg : Bool) (addr len : Nat) : State :=
  let wide := teamTag s st m == 2
  let ms := if wide then [m, m + 1] else [m]
  let clash := clashAt s st ms none
  let s1 := markClash s st ms clash
  let dest := if reg then some d else none
  let s2 := queueTile s1 st (.tile m wide dest (if reg then mrdRegs f else 0)) (fun oid => .mrd oid st.lk (st.team.getD 0) m r blk f sat dest addr clash)
  match strandOf s2 st.sid with
  | none => s2
  | some x => if reg then asIfX s2 x (fun a p => advance a p.sid len) else advance s2 st.sid len

/-- MRD at issue. Where b is not U and the tile is out of order besides, the operand-form trap comes first (R218; DEDUCED, log 29). -/
def execMrd (h : Hdr) (d : R11) (m : BitVec 3) (b : Src) (r : Rnd) (blk : BitVec 6) (f : MrdFmt) (sat : Bool) (s : State) : Res :=
  let len := srcLen b
  strandFrame h len (srcRegs b) true false (fun s st =>
    let own := mrdCheck s st m.toNat
    let n := mrdRegs f
    match uSrc st b with
    | none => formTrap s st len 2
    | some v =>
      if own ≠ 0 then trapWhole s st len (illegal s st 13 own 0)
      else if v = 0x80000000 then
        if 2048 < d.toNat + n then trapWhole s st len (illegal s st 13 4 0)
        else if !capable s st d.toNat n then formOnlyTrap s st len d.toNat n
        else if mustWait s st (List.range' d.toNat n) false || !roomFor s st .t true then
          stallStrand s st.sid { Need.none with regs := List.range' d.toNat n, room := some (.t, true) }
        else mrdIssue s st m.toNat d.toNat r blk.toNat f sat true 0 len
      else if 2 ^ 31 ≤ v.toNat then trapWhole s st len (illegal s st 13 3 0)
      else
        let size := 64 * mrdBits f
        let bad := trapWhole s st len { reportOf s st 14 0 with info := v.toNat, addr := v.toNat }
        if v.toNat % 16 ≠ 0 then bad
        else match scratchAt s st v.toNat 1, scratchAt s st (v.toNat + size - 1) 1 with
          | .ok sp _, .ok sp' _ =>
            if sp ≠ sp' then bad
            else if !roomFor s st .t true then waitRoom s st.sid .t true
            else mrdIssue s st m.toNat d.toNat r blk.toNat f sat false v.toNat len
          | _, _ => bad) s

/-! ### Operands of an MLOOP (R73, R212, R214) -/

/-- An operand element as read: its value, scaled to an integer (none: NaR); whether it is poisoned; whether the MLOOP observes its bytes;
whether it is the reserved tern code. -/
structure MxRead where
  val : Option Int
  pois : Bool
  seen : Bool
  res : Bool
  deriving DecidableEq, Repr

/-- A tapered pattern times 2^sh (R68, R77). -/
def tapInt (n sh x : Nat) : Option Int :=
  match readTapered n x with
  | .fin sg m e => some (signedOf sg (m * pow2 (e + sh)))
  | _ => none

/-- The value of a multiplier element of the given inputs (R75). -/
def mxVal (i x : Nat) : Option Int := match i with | 0 => tapInt 8 24 x | 1 => tapInt 16 56 x | _ => some (signed 8 x)

/-- The value of a tern code (R73). -/
def ternVal (c : Nat) : Int := match c with | 1 => 1 | 3 => -1 | _ => 0

/-- A write of a byte of scratch that has been issued and has not reached the scratchpad: in a core's buffer, or not yet there (R214, R215). -/
def onItsWay (s : State) (sp : Space) (a : Nat) : Bool :=
  s.stores.any (fun e => e.buf.isSome && meets sp a 1 e) ||
    s.ops.any (fun o => !o.done && (match o.body with
      | .stores l => l.any (fun t => t.space == sp && decide (t.addr ≤ a) && decide (a < t.addr + t.bytes.length))
      | .result _ _ _ _ _ (some (_, ts)) _ _ => ts.any (fun t => t.space == sp && decide (t.addr ≤ a) && decide (a < t.addr + 4))
      | _ => false))

/-- Element A at an offset of the team's scratch: the MLOOP observes it when the newest write of each byte is among those seen, and none is on its way. -/
def readA (s : State) (lk team : Nat) (seen : List Nat) (i a : Nat) : MxRead :=
  let sp : Space := .scr lk team
  let z := inSize i
  { val := mxVal i (ofBytes (homeBytes s sp a z)), pois := homePoison s sp a z, res := false
    seen := (List.range z).all (fun k => !onItsWay s sp (a + k) && (match newestHome s sp (a + k) with | none => true | some id => seen.contains id)) }

/-- Bytes of the weight buffer: value, poison, and whether the newest write of each is seen. -/
def readW (c : Core) (seen : List Nat) (a n : Nat) : Nat × Bool × Bool :=
  (ofBytes (memGets c.wbuf a n), (List.range n).any (fun k => c.wbufPois.contains ((a + k) / 8)),
   (List.range n).all (fun k => match c.wlog.reverse.find? (fun w => decide (w.2.1 ≤ a + k) && decide (a + k < w.2.1 + w.2.2)) with | none => true | some w => seen.contains w.1))

/-- Element B(step, k, n) (R212). -/
def readB (c : Core) (seen : List Nat) (f w : Word) (st k n : Nat) : MxRead :=
  let i := fmtIn f
  let base := w.toNat + st * bytesB f
  let e := k * 64 + n
  let z := inSize i
  if i = 3 then
    let (x, p, o) := readW c seen (base + 4 * (e / 16)) 4
    let code := field x (2 * (e % 16)) 2
    ⟨some (ternVal code), p, o, code = 2⟩
  else if fmtCb f then
    let (x, p, o) := readW c seen (base + 16 * z + e / 2) 1
    let (y, p', o') := readW c seen (base + z * field x (4 * (e % 2)) 4) z
    ⟨mxVal i y, p || p', o && o', false⟩
  else
    let (x, p, o) := readW c seen (base + e * z) z
    ⟨mxVal i x, p, o, false⟩

/-! ### Accumulation (R77, R78) -/

/-- What the products of an MLOOP bring to one element: their sums above and below 0, NaR, and NaR from bytes that the MLOOP observes, poison, undefined. -/
structure Dot where
  pos : Int
  neg : Int
  nar : Bool
  sure : Bool
  pois : Bool
  undef : Bool
  deriving DecidableEq, Repr

/-- One product. -/
def Dot.step (d : Dot) (a b : MxRead) : Dot :=
  let d1 := { d with
    pois := d.pois || a.pois || b.pois, undef := d.undef || !a.seen || !b.seen, sure := d.sure || (a.seen && a.val.isNone) || (b.seen && b.val.isNone) }
  match a.val, b.val with
  | some x, some y => if 0 ≤ x * y then { d1 with pos := d1.pos + x * y } else { d1 with neg := d1.neg + x * y }
  | _, _ => { d1 with nar := true }

/-- The dot product of row r and column n. -/
def dotOf (s : State) (c : Core) (lk team : Nat) (seen : List Nat) (f w : Word) (a0 ksteps r n : Nat) : Dot :=
  let i := fmtIn f
  (List.range ksteps).foldl (fun d st => (List.range (inK i)).foldl (fun d k =>
    d.step (readA s lk team seen i (a0 + r * 48 * ksteps + (st * inK i + k) * inSize i)) (readB c seen f w st k n)) d) ⟨0, 0, false, false, false, false⟩

/-- An element of an accumulator held in one slot, or in two (R75). -/
def accBits (lo hi : Tile) (wide : Bool) (e : Nat) : Nat :=
  ((alookup lo.elems e).getD 0).toNat + if wide then ((alookup hi.elems e).getD 0).toNat * 2 ^ 128 else 0

/-- The new pattern of an element, and whether its true sum may have passed the bound (R77, R78; DEDUCED, log 33). -/
def accumulate (q wide : Bool) (old : Nat) (d : Dot) : Nat × Bool :=
  let w := if wide then 256 else 128
  if q then
    if old = 2 ^ (w - 1) || d.nar then (2 ^ (w - 1), false)
    else
      let n := signed w old
      (wrapTo w (n + d.pos + d.neg), decide ((2 ^ (w - 1) : Int) ≤ n + d.pos) || decide (n + d.neg ≤ -(2 ^ (w - 1) : Int)))
  else (wrapTo 128 (signed 128 old + d.pos + d.neg), false)

/-- Write a pattern to an element of a tile; an element that is 0 is not listed. -/
def setElem (es : List (Nat × BitVec 128)) (e x : Nat) : List (Nat × BitVec 128) := if x % 2 ^ 128 = 0 then aerase es e else ainsert es e (BitVec.ofNat 128 x)

/-- The matrix unit is there: in seedling service it is not, and commands that have been queued wait for full service (R368; DESIGN CHOICE, log 110). -/
def matrixUnit (s : State) : Bool := s.sec.boot != .seedling

/-- The granules of the A region (R211). -/
def regionA (r : LayoutBits) (ksteps : Nat) : List Nat := granules (ringStart r (recRnext r)) (3072 * ksteps)

/-- The end of a command of the unit. -/
def finishMx (s : State) (core oid : Nat) (fault : Option Report) : State :=
  let c := coreOf s core
  let s1 := putCore s { c with mq := c.mq.filter (fun x => match x with | .mloop o .. | .mrd o .. | .mclr o .. => o != oid) }
  endOp (updOp s1 oid (fun o => { o with faults := o.faults ++ fault.toList })) oid

/-- The elements of a tile that are undefined (R78, R214, R215). -/
def undefElems (t : Tile) : List Nat := if t.undef then List.range 4096 else t.passed

/-- An element of a Q tile holds the accumulator NaR, which stays whatever is added (R77). -/
def holdsNar (q wide : Bool) (lo hi : Tile) (e : Nat) : Bool :=
  q && !(undefElems lo).contains e && !(wide && (undefElems hi).contains e) && decide (accBits lo hi wide e = 2 ^ ((if wide then 256 else 128) - 1))

/-- Elements that are undefined after an MLOOP: those that were, and those whose sum passes the bound or has operands that the MLOOP does not observe; but a NaR operand
that it does observe makes an element NaR whatever it held, and one that holds NaR keeps it (R77, R78, R214). -/
def openAfter (q wide : Bool) (lo hi : Tile) (ds : List (Nat × Dot)) : List Nat :=
  let old := undefElems lo ++ (if wide then undefElems hi else [])
  (ds.filter (fun e => (old.contains e.1 || e.2.undef || (accumulate q wide (accBits lo hi wide e.1) e.2).2) && !(q && e.2.sure) && !holdsNar q wide lo hi e.1)).map (fun e => e.1)

/-- Tiles after an MLOOP: both slots of a Q256 tile, or the one slot; RW and NAR are those of mT alone (R210, R211, R391). -/
def loopTiles (q wide : Bool) (lo hi : Tile) (ds : List (Nat × Dot)) (rw nar : Bool) : Tile × Tile :=
  let news := ds.map (fun e => (e.1, (accumulate q wide (accBits lo hi wide e.1) (if e.2.sure then { e.2 with nar := true } else e.2)).1))
  let open' := openAfter q wide lo hi ds
  let upd := fun (t : Tile) (sh : Nat) =>
    { t with
      elems := news.foldl (fun a e => setElem a e.1 (e.2 / 2 ^ sh)) t.elems
      passed := open', undef := false
      pois := (ds.filter (fun e => e.2.pois)).foldl (fun a e => insertNat a e.1) t.pois }
  ({ upd lo 0 with rw := lo.rw || rw, nar := nar }, if wide then upd hi 128 else hi)

/-- NAR after an MLOOP (R210): 1 where some element is certain to be NaR; else a free value where some element is undefined. -/
def narAfter (q wide : Bool) (lo hi : Tile) (ds : List (Nat × Dot)) (free : Bool) : Bool :=
  let open' := openAfter q wide lo hi ds
  let nars := ds.filter (fun e => (accumulate q wide (accBits lo hi wide e.1) (if e.2.sure then { e.2 with nar := true } else e.2)).1 = 2 ^ ((if wide then 256 else 128) - 1))
  q && (nars.any (fun e => !open'.contains e.1) || (!open'.isEmpty && free))

/-- The report of an MLOOP whose operands are poisoned (R376, R391): the first element of the A region that is, with its coordinates and an engine's read of its size; where the weights alone
are, the coordinates are 0 (DESIGN CHOICE, log 92). -/
def loopReport (s : State) (oid lk team i : Nat) (r : LayoutBits) (d ksteps : Nat) : Report :=
  let bad := (List.range (64 * (48 * ksteps / inSize i))).find? (fun n =>
    homePoison s (.scr lk team) (ringStart r (recRnext r) + n * inSize i) (inSize i))
  { Report.blank with
    cls := 2, kind := 15, cause := 4, launch := launchId s lk, tsize := tsizeOf s lk, pc := ((opOf s oid).map (fun o => o.pc.toNat)).getD 0
    snap := r.toNat, slot := d, coord := (bad.map (boxCoord r)).getD [0, 0, 0, 0, 0], access := accessCode 5 (inSize i) }

/-- MATRIX_MLOOP_EXEC: the first MLOOP in issue order on a core. It waits for the granules of a TAKE, forms its products, and empties them
(R211); poisoned operands poison the elements and raise an attributed report (R391). -/
def execMatrixMloopExec (core : Nat) (s : State) : Res :=
  finish (if !matrixUnit s then s else match (coreOf s core).mq.findSome? (fun c => match c with | .mloop o lk t m f w r d k sn cl => some (o, lk, t, m, f, w, r, d, k, sn, cl) | _ => none) with
    | none => s
    | some (oid, lk, team, m, f, w, r, d, k, seen0, clash) =>
      let gs := regionA r k
      if fmtTake f && !allGranules s lk team gs true then s
      else
        let got := if fmtTake f then (s.gsets.filter (fun g => g.lk == lk && g.team == team && gs.contains g.gran)).flatMap (fun g => g.rel.set) else []
        let seen := got.foldl insertNat seen0
        let s1 := drainWhere s core (fun e => e.space == .scr lk team && got.contains e.id)
        match teamOf s1 lk team with
        | none => finishMx s1 core oid none
        | some t =>
          let i := fmtIn f
          let wide := decide (i = 1)
          let q := decide (i ≤ 1)
          let lo := tileOf t m
          let hi := tileOf t (m + 1)
          let c := coreOf s1 core
          let ds := (List.range 4096).map (fun e => (e, dotOf s1 c lk team seen f w (ringStart r (recRnext r)) k (e / 64) (e % 64)))
          -- a reserved code in bytes that the MLOOP does not observe may be met or not (R74, R214)
          let codes := fun (p : MxRead → Bool) => (List.range k).any (fun st => (List.range 3072).any (fun e => p (readB c seen f w st (e / 64) (e % 64))))
          let rw := decide (i = 3) && (codes (fun x => x.res && x.seen) || (codes (fun x => !x.seen) && Config.freeBool (s1.nfree + 1)))
          let (lo', hi') := loopTiles q wide lo hi ds rw (narAfter q wide lo hi ds (Config.freeBool s1.nfree))
          let s2 := updTile (draw (draw s1)) lk team m (fun _ => { lo' with undef := clash })
          let s3 := if wide then updTile s2 lk team (m + 1) (fun _ => { hi' with undef := clash }) else s2
          let s4 := if fmtTake f then gs.foldl (fun a g => setFull a lk team g false) s3 else s3
          let pois := ds.any (fun e => e.2.pois)
          finishMx s4 core oid (if pois then some (loopReport s1 oid lk team i r d k) else none))

/-- MCLR_DONE: the tile is cleared with its status word (R217), or undefined where another operation met it while it was busy (R215). -/
def execMclrDone (oid : Nat) (s : State) : Res :=
  finish (if !matrixUnit s then s else match s.cores.findSome? (fun c => c.mq.findSome? (fun x => match x with | .mclr o lk t m cl => if o = oid then some (c.num, lk, t, m, cl) else none | _ => none)) with
    | none => s
    | some (core, lk, team, m, clash) => finishMx (updTile s lk team m (fun _ => { Tile.clear with undef := clash })) core oid none)

/-! ### Read-out (R79, R219) -/

/-- One element converted to the target (R79): tag of the tile, pattern. -/
def mrdElem (f : MrdFmt) (r : Rnd) (sat : Bool) (tag x : Nat) : Nat :=
  if tag = 0 then 0
  else
    let w := if tag = 2 then 256 else 128
    let fr : Int := match tag with | 1 => 48 | 2 => 112 | _ => 0
    let nar := tag ≠ 4 && decide (x % 2 ^ w = 2 ^ (w - 1))
    let n := signed w x
    let v : RVal := if nar then .nan else .fin (decide (n < 0)) n.natAbs (-fr)
    let int := fun (b : Nat) => if nar then 0 else narrow true sat b (roundInt r (decide (n < 0)) n.natAbs (-fr))
    match f with
    | .t8 => roundTapered 8 v | .t16 => roundTapered 16 v | .t32 => roundTapered 32 v
    | .f32 => roundBin 23 r v | .bf16 => roundBin 7 r v
    | .i32 => int 32 | .i8 => int 8

/-- The pattern of an element as a read-out finds it: a free value where it is undefined (R6, R78, R214). -/
def mrdPattern (seed : Nat) (lo hi : Tile) (wide : Bool) (e : Nat) : Nat :=
  let u := fun (t : Tile) => (undefElems t).contains e
  if u lo || (wide && u hi) then
    (Config.freeAcc (seed + 2 * e)).toNat + if wide then (Config.freeAcc (seed + 2 * e + 1)).toNat * 2 ^ 128 else 0
  else accBits lo hi wide e

/-- MRD_READOUT_DONE: registers are written at the present indices (R219), or scratch, whose granules become full as one event. -/
def execMrdReadoutDone (oid : Nat) (s : State) : Res :=
  finish (if !matrixUnit s then s else match s.cores.findSome? (fun c => c.mq.findSome? (fun x => match x with
      | .mrd o lk t m r b f sat reg a cl => if o = oid then some (c.num, lk, t, m, r, b, f, sat, reg, a, cl) else none | _ => none)), opOf s oid with
    | some (core, lk, team, m, r, blk, f, sat, reg, addr, clash), some o =>
      match teamOf s lk team with
      | none => finishMx s core oid none
      | some t =>
        let lo := tileOf t m
        let hi := tileOf t (m + 1)
        let wide := lo.tag == 2
        let el := fun (row n : Nat) =>
          let e := (8 * blk + row) * 64 + n
          -- what is read from a tile that was busy is itself undefined (R215)
          if clash || lo.undef || (wide && hi.undef) then (Config.freeAcc (s.nfree + 2 * e)).toNat % 2 ^ mrdBits f
          else mrdElem f r sat lo.tag (mrdPattern s.nfree lo hi wide e)
        let bad := fun (row n : Nat) => lo.pois.contains ((8 * blk + row) * 64 + n) || (wide && hi.pois.contains ((8 * blk + row) * 64 + n))
        let s0 := { s with nfree := s.nfree + 8192 }
        match reg with
        | some d =>
          let word := fun (i j : Nat) => joinElems (mrdBits f) (mrdRows f) (fun e => el (mrdRows f * j + e) (i % 64))
          let vals := o.idxs.map (fun i => (i, (List.range (mrdRegs f)).map (fun j => BitVec.ofNat 32 (word i j))))
          let ps := (List.range (mrdRegs f)).flatMap (fun j => (o.idxs.filter (fun i =>
            (List.range (mrdRows f)).any (fun e => bad (mrdRows f * j + e) (i % 64)))).map (fun i => (j, i)))
          -- landAll finishes the operation where every holder has taken the words
          let s1 := landAll s0 o (some d) (mrdRegs f) vals ps none
          if (opOf s1 oid).isSome then s1 else finishMx s1 core oid none
        | none =>
          let z := mrdBits f / 8
          let size := 512 * z
          let own := decide (addr + size ≤ t.kernel.scratch)
          let owner := if own then team else nth (gangTeams s0 lk team) ((addr - 0x1000000) / 0x40000) team
          let sp : Space := .scr lk owner
          let off := if own then addr else (addr - 0x1000000) % 0x40000
          let bs := (List.range 512).flatMap (fun k => toBytes z (el (k / 64) (k % 64)))
          let w : Writer := .engine core lk team
          let (id, s1) := appendHome s0 sp off bs false w none
          let s2 := (List.range 512).foldl (fun a k => if bad (k / 64) (k % 64) then setHomePoison a sp (off + k * z) z true else a) s1
          let rr : RelRec := ⟨[id], ⟨.team, ctxOfLaunch s lk, [teamRange s lk team]⟩⟩
          finishMx ((granules off size).foldl (fun a g => fillGranule a lk owner g w rr) s2) core oid none
    | _, _ => s)

end Sys2Proof.Machine
end

