-- ==== Sys2Proof/Machine/Pages.lean ====
section
/-! DEFINITION. What the resident system does with physical pages and page tables: giving out pages, mapping, unmapping, and bringing a page in (R207,
R276, R277, R289, R325 to R328, R336, R348, R368). -/

namespace Sys2Proof.Machine

/-! ### Physical pages (R276, R277, R368) -/

/-- The n-th page of 64 KiB of an order that spreads pages over the 16 B-dies, slot 0 first (R277): its number. -/
def pageNumber (n : Nat) : Nat := n / 16 / groupsDie * groupsAll + n % 16 * groupsDie + n / 16 % groupsDie

/-- Whether Mboelaor runs (R368). -/
def serving (s : State) : Bool := s.sec.boot == .seedling || s.sec.boot == .full

/-- Set the bytes of a physical range to 0: storage that passes to a context is cleared. -/
def clearRange (s : State) (a n : Nat) : State := { s with mem := s.mem.filter (fun c => !(decide (a ≤ c.1) && decide (c.1 < a + n))) }

/-- A cleared page of 64 KiB for a context (DESIGN CHOICE, log 43): one given back, else the next of the fast slot in full service, else the next of the capacity
slots; in seedling service from the capacity slots only (R368). The pages of Mboelaor's own tables lie at the end of the last slot. -/
def allocPage (s : State) : Option (Nat × State) :=
  let full := s.sec.boot == .full
  match s.freePages.find? (fun p => full || decide (groupsAll ≤ p)) with
  | some p => some (p * 65536, clearRange { s with freePages := s.freePages.erase p } (p * 65536) 65536)
  | none =>
    if full && decide (s.allocatedFast < groupsAll) then
      let p := pageNumber s.allocatedFast * 65536
      some (p, clearRange { s with allocatedFast := s.allocatedFast + 1 } p 65536)
    else if s.allocated + 16 * s.sysPages + 16 < 2 * groupsAll then
      let p := pageNumber (groupsAll + s.allocated) * 65536
      some (p, clearRange { s with allocated := s.allocated + 1 } p 65536)
    else none

/-- n contiguous bytes for Mboelaor's own tables, cleared. -/
def allocSys (s : State) (n : Nat) : Option (Nat × State) :=
  let k := (n + 65535) / 65536
  if s.allocated + 16 * (s.sysPages + k) < 2 * groupsAll then
    let a := Config.deviceBytes - 65536 * (s.sysPages + k)
    some (a, clearRange { s with sysPages := s.sysPages + k } a (65536 * k))
  else none

/-- A page of a context is given back, unless it is still mapped elsewhere (R336). -/
def releasePage (s : State) (pa : Nat) : State :=
  let p := pa / 65536
  match alookup s.shared p with
  | some (n + 1) => { s with shared := if n = 0 then aerase s.shared p else ainsert s.shared p n }
  | _ => { s with freePages := s.freePages ++ [p] }

/-! ### Page tables (R325, R326) -/

/-- The address of the level-1 entry that a walk of a virtual address reads, if the tables above it are in place (R325 to R328). -/
def leafEntry (s : State) (va : Nat) : List Nat → Nat → Option Nat
  | [], _ => none
  | l :: ls, t =>
    let ea := t + 8 * field va (12 + 9 * (l - 1)) 9
    let e := ofBytes (memGets s.mem ea 8)
    if homePoison s .dev ea 8 then none
    else if l = 1 then some ea else if bitOf e 0 && field e 1 2 = 0 then leafEntry s va ls (field e 12 30 * 4096) else none

/-- An entry of a page table. -/
def pte (s : State) (ea : Nat) : Nat := ofBytes (memGets s.mem ea 8)
def setPte (s : State) (ea e : Nat) : State := { s with mem := memPuts s.mem ea (toBytes 8 e) }

/-- A device leaf (R326). -/
def leafBits (pa : Nat) (w x s64 : Bool) (keyid : Nat) : Nat := 1 + 2 + 8 * bit w + 16 * bit x + 32 * bit s64 + pa + 2 ^ 54 * keyid

/-- The level-1 entry for an address, with the tables above it made where they are missing; none where a larger leaf stands there or no
memory is left. -/
def makeTables (va : Nat) : List Nat → Nat → State → Option (Nat × State)
  | [], t, s => some (t + 8 * field va 12 9, s)
  | l :: ls, t, s =>
    let ea := t + 8 * field va (12 + 9 * (l - 1)) 9
    let e := pte s ea
    if homePoison s .dev ea 8 then none
    else if bitOf e 0 then (if field e 1 2 = 0 then makeTables va ls (field e 12 30 * 4096) s else none)
    else match allocSys s 4096 with
      | none => none
      | some (p, s1) => makeTables va ls p (setPte s1 ea (1 + p))

/-- Map one page of a context: 4 KiB, or 64 KiB as 16 identical entries (R326). -/
def mapOne (root va e : Nat) (s64 : Bool) (s : State) : Option State :=
  (List.range (if s64 then 16 else 1)).foldl (fun (acc : Option State) k =>
    acc.bind (fun s => (makeTables (va + 4096 * k) [4, 3, 2] root s).map (fun r => setPte r.2 r.1 e))) (some s)

/-- The device leaves that a context's tables map: virtual address, size and physical address of each (R325, R326). -/
def leavesFrom (s : State) : List Nat → Nat → Nat → List (Nat × Nat × Nat)
  | [], _, _ => []
  | l :: ls, t, va =>
    let size := 2 ^ (12 + 9 * (l - 1))
    (List.range 512).flatMap (fun k =>
      let e := pte s (t + 8 * k)
      if !bitOf e 0 then []
      else if field e 1 2 = 0 then leavesFrom s ls (field e 12 30 * 4096) (va + k * size)
      else if field e 1 2 = 1 then [(va + k * size, size, field e 12 30 * 4096 + if bitOf e 5 then k % 16 * 4096 else 0)]
      else [])

/-- The host leaves of a context's tables: virtual address, size, W and MIG of each (R326). -/
def hostLeavesFrom (s : State) : List Nat → Nat → Nat → List (Nat × Nat × Bool × Bool)
  | [], _, _ => []
  | l :: ls, t, va =>
    let size := 2 ^ (12 + 9 * (l - 1))
    (List.range 512).flatMap (fun k =>
      let e := pte s (t + 8 * k)
      if !bitOf e 0 then []
      else if field e 1 2 = 0 then hostLeavesFrom s ls (field e 12 30 * 4096) (va + k * size)
      else if field e 1 2 = 2 then [(va + k * size, size, bitOf e 3, bitOf e 6)]
      else [])

/-- A host leaf of level 1 (R326). -/
def hostLeafBits (w mig : Bool) : Nat := 1 + 4 + 8 * bit w + 64 * bit mig

/-- The bytes of a context's device memory that are not 0, each after its virtual address. -/
def contextImage (s : State) (x : Ctx) : List Nat :=
  let ls := leavesFrom s [4, 3, 2, 1] x.root 0
  s.mem.flatMap (fun c => (ls.filter (fun l => decide (l.2.2 ≤ c.1) && decide (c.1 < l.2.2 + l.2.1))).flatMap (fun l => [l.1 + (c.1 - l.2.2), c.2.toNat]))

/-- A range of pages is free: no entry maps it, and none is held for a page in backing storage (R328). -/
def rangeFree (s : State) (x : Ctx) (va size : Nat) : Bool :=
  (List.range' (va / 4096) (size / 4096)).all (fun p =>
    (alookup x.backed p).isNone && (match walk s x.num (p * 4096) with | .ok _ => false | .fault 1 _ => true | _ => false))

/-- Map pages of fresh memory over a range (R348). -/
def mapRange (root step : Nat) (w x s64 : Bool) (keyid : Nat) : Nat → Nat → State → Option State
  | 0, _, s => some s
  | n + 1, va, s =>
    (allocPage s).bind (fun a => (mapOne root va (leafBits a.1 w x s64 keyid) s64 a.2).bind (mapRange root step w x s64 keyid n (va + step)))

/-- The invalidation of a range of a context on every die, as Mboelaor waits for it after a table write (R330). -/
def invalidateAll (s : State) (c lo hi : Nat) : State := (List.range Config.dies).foldl (fun a d => invalidateDie a d c lo hi) s

/-- The entries of the pages of a range, where every page has one of level 1 and no page of 64 KiB is cut (R348). -/
def rangeEntries (s : State) (x : Ctx) (addr size : Nat) : Option (List (Nat × Nat × Trans)) :=
  (List.range' (addr / 4096) (size / 4096)).mapM (fun p => match walk s x.num (p * 4096), leafEntry s (p * 4096) [4, 3, 2, 1] x.root with
    | .ok t, some ea =>
      let lo := p * 4096 / t.size * t.size
      if t.level = 1 && decide (addr ≤ lo) && decide (lo + t.size ≤ addr + size) then some (p * 4096, ea, t) else none
    | _, _ => none)

/-- Unmap the pages of a range: the entries are cleared, the translations invalidated, and the pages given back (R330, R348). -/
def unmapRange (s : State) (x : Ctx) (addr size : Nat) : Option State :=
  (rangeEntries s x addr size).map (fun es =>
    let s1 := es.foldl (fun a e => setPte a e.2.1 0) s
    let s2 := invalidateAll s1 x.num addr (addr + size - 1)
    (es.filter (fun e => !e.2.2.host && e.1 % e.2.2.size == 0)).foldl (fun a e => releasePage a e.2.2.base) s2)

/-! ### Bringing a page in (R207, R289) -/

/-- Mboelaor makes a page of its backing storage resident: the leaf entry that it kept with V = 0 becomes valid (R207, R289, R328). -/
def makeResident (s : State) (c page : Nat) : State :=
  match ctxOf s c with
  | none => s
  | some x =>
    match alookup x.backed page, leafEntry s (page * 4096) [4, 3, 2, 1] x.root with
    | some pp, some ea =>
      let e := ofBytes (memGets s.mem ea 8)
      if bitOf e 0 then s
      else
        let e' := e - field e 12 30 * 4096 + pp * 4096 + 1
        updCtx { s with mem := memPuts s.mem ea (toBytes 8 e') } c (fun x => { x with backed := aerase x.backed page })
    | _, _ => s

/-- A host leaf above level 1 gives way to a table of 512 leaves with its bits, so that a page of 4 KiB can move alone; each level is split in turn (DESIGN CHOICE,
log 80). None where no memory is left. -/
def splitLeaf (va : Nat) : List Nat → Nat → State → Option State
  | [], _, s => some s
  | l :: ls, t, s =>
    let ea := t + 8 * field va (12 + 9 * (l - 1)) 9
    let e := pte s ea
    if l = 1 then some s
    else if bitOf e 0 && field e 1 2 = 0 then splitLeaf va ls (field e 12 30 * 4096) s
    else if bitOf e 0 && field e 1 2 = 2 then
      (allocSys s 4096).bind (fun r => splitLeaf va ls r.1 (setPte ((List.range 512).foldl (fun a k => setPte a (r.1 + 8 * k) e) r.2) ea (1 + r.1)))
    else some s

/-- The host's frame of a page: the one that the host has answered for it, or else answers now; a free value (R289, R332; DEDUCED, log 16). -/
def hostFrame (s : State) (x : Ctx) (page : Nat) : Nat :=
  match alookup x.hostPages page with
  | some p => p.1
  | none => ((Config.hostAnswer x.pasid s.time page).map (fun a => a.1)).getD page

/-- A page of a host leaf with MIG, obtained from the host, moves to a device page with its poison, and the tables of a context with the migration grant map it there (R289,
R388). -/
def migratePage (s : State) (c page : Nat) : State :=
  match ctxOf s c, walk s c (page * 4096) with
  | some x, .ok t =>
    if !t.host || !t.mig then s
    else match (splitLeaf (page * 4096) [4, 3, 2, 1] x.root s).bind allocPage with
      | none => s
      | some (pp, s1) => match leafEntry s1 (page * 4096) [4, 3, 2, 1] x.root with
        | none => s
        | some ea =>
          let lo := page * 4096 / t.size * t.size
          let s2 := invalidateAll (setPte s1 ea 0) c lo (lo + t.size - 1)
          let from_ := hostFrame s x page * 4096
          let sick := (List.range 64).filter (fun k => homePoison s2 (.host c) (from_ + 64 * k) 64)
          setPte { s2 with mem := memPuts s2.mem pp (homeBytes s2 (.host c) from_ 4096), memPois := (sick.map (fun k => pp / 64 + k)).foldl insertNat s2.memPois } ea (leafBits pp t.w false false 0)
  | _, _ => s

end Sys2Proof.Machine
end

