-- ==== Sys2Proof/Machine/Kernel.lean ====
section
/-! DEFINITION. Kernel descriptors and launch records (R113, R114, R295, R297), their reading through a context's translations, and the
placement of teams on cores (R15, R305). -/

namespace Sys2Proof.Machine

/-! ### Reads and writes through a context's translations (R207, R297) -/

/-- The launch unit or Mboelaor asks the host for a page under a host leaf, through ATS or the page request of R207, unless the host has answered for it before (R297,
R332); the answer is a free value (DEDUCED, log 16). A page with MIG of a context with the migration grant does not go through ATS: it migrates (R289, R333). -/
def askPage (s : State) (c page : Nat) : State :=
  match ctxOf s c, walk s c (page * 4096) with
  | some x, .ok t =>
    if !t.host then s
    else if t.mig && x.gmig then migratePage s c page
    else if x.pasid = 0 || (alookup x.hostPages page).isSome then s
    else match Config.hostAnswer x.pasid s.time page with
      | some (frame, write) => keepHostPage s c page frame write
      | none => s
  | _, _ => s

/-- A location of a context's address space as the launch unit and Mboelaor reach it, with whether it may be written: a host page as the host has answered for it (R332). -/
def vTrans (s : State) (c va : Nat) : Option (Space × Nat × Bool) :=
  match walk s c (va % 2 ^ 64) with
  | .ok t =>
    if t.host then ((ctxOf s c).bind (fun x => alookup x.hostPages (va / 4096))).map (fun p => (.host c, p.1 * 4096 + va % 4096, p.2 && t.w))
    else if t.base + va % t.size < Config.deviceBytes then some (.dev, t.base + va % t.size, true) else none
  | _ => none

/-- Bring in the pages of a range (R297). -/
def bringIn (s : State) (c va n : Nat) : State :=
  (List.range' (va / 4096) ((va + n - 1) / 4096 + 1 - va / 4096)).foldl (fun a p => askPage (makeResident a c p) c p) s

/-- Read n bytes at a virtual address of a context; none where they cannot be read, or are poisoned (R372; DEDUCED, log 114). -/
def vRead (s : State) (c va n : Nat) : Option (List Byte) × State :=
  let s1 := bringIn s c va n
  ((List.range n).mapM (fun k => ((vTrans s1 c (va + k)).filter (fun l => !homePoison s1 l.1 l.2.1 1)).map (fun l => nth (homeBytes s1 l.1 l.2.1 1) 0 0)), s1)

/-- The parts of a range of addresses that lie in pages of 4 KiB of their own, each with its bytes. -/
def pageParts (va : Nat) (bs : List Byte) : List (Nat × List Byte) :=
  (List.range' (va / 4096) ((va + bs.length - 1) / 4096 + 1 - va / 4096)).map (fun p =>
    let lo := max va (p * 4096)
    (lo, (bs.drop (lo - va)).take ((p + 1) * 4096 - lo)))

/-- Write bytes at a virtual address of a context: each page's as one write of the device; none where a page cannot be written. -/
def vWrite (s : State) (c va : Nat) (bs : List Byte) (w : Writer) (rel : Option RelRec) : Option Nat × State :=
  let s1 := bringIn s c va bs.length
  match (pageParts va bs).mapM (fun p => (vTrans s1 c p.1).bind (fun l => if l.2.2 then some (l, p.2) else none)) with
  | some ps => ps.foldl (fun (acc : Option Nat × State) p => let (id, a) := appendHome acc.2 p.1.1 p.1.2.1 p.2 false w rel; (some id, a)) (none, s1)
  | none => (none, s1)

/-! ### Descriptors (R113) -/

/-- A role record of 64 bits. -/
def parseRole (x : Nat) : RoleRec :=
  { role := (match field x 0 2 with | 1 => .mx | 2 => .ep | _ => .gn), budget := field x 8 9, firstw := field x 20 4, countw := field x 24 5, entry := field x 32 32 }

/-- A descriptor of 512 bits with its layout records. -/
def parseKernel (kdesc x : Nat) (layout : List (Nat × LayoutBits)) : Kernel :=
  { kdesc := kdesc, numver := field x 16 8, tsize := field x 32 11, gangm1 := field x 48 3, acc := field x 56 8, scratch := field x 64 32
    featreq := field x 128 64, code := field x 192 64, layout := layout
    roles := (List.range (min 3 (field x 24 2))).map (fun k => parseRole (field x (320 + 64 * k) 64)) }

/-- Slots that DMASK names. -/
def dmaskSlots (x : Nat) : List Nat := (List.range 32).filter (fun k => bitOf x (96 + k))

/-- Read a descriptor: 1 it cannot be read, 2 a layout record cannot be read, else the raw descriptor and its kernel. -/
def readKernel (s : State) (c kdesc : Nat) : Sum Nat (Nat × Kernel) × State :=
  match vRead s c kdesc 64 with
  | (none, s1) => (.inl 1, s1)
  | (some bs, s1) =>
    let x := ofBytes bs
    let laytab := field x 256 64
    let r := (dmaskSlots x).foldl (fun (acc : Option (List (Nat × LayoutBits)) × State) k =>
      match acc.1 with
      | none => acc
      | some ls => match vRead acc.2 c (laytab + 64 * k) 64 with
        | (some b, a) => (some (ls ++ [(k, BitVec.ofNat 512 (ofBytes b))]), a)
        | (none, a) => (none, a)) (some [], s1)
    match r with
    | (none, s2) => (.inl 2, s2)
    | (some ls, s2) => (.inr (x, parseKernel kdesc x ls), s2)

/-- The role that holds a window of the team (R22), and the window's budget. -/
def roleOfWindow (k : Kernel) (w : Nat) : Option RoleRec := k.roles.find? (fun r => decide (r.firstw ≤ w) && decide (w < r.firstw + r.countw))
def windowBudget (k : Kernel) (w : Nat) : Nat := ((roleOfWindow k w).map (fun r => r.budget)).getD 0
def windowCount (k : Kernel) : Nat := k.tsize / 64

/-! ### Room on a core (R14, R15, R305) -/

/-- What is free on a core. -/
structure Room where
  core : Nat
  foreign : Bool
  slots : Nat
  scratch : Nat
  acc : List Nat
  lanes : List Nat
  deriving DecidableEq, Repr

/-- An empty core (R14). -/
def Room.empty (core : Nat) : Room := ⟨core, false, Config.strandSlots, 262144, List.range 8, List.replicate 4 Config.partLanes⟩

/-- The position of the greatest value, the lowest on a tie. -/
def argMax (xs : List Nat) : Nat := ((List.range xs.length).foldl (fun b k => if nth xs b 0 < nth xs k 0 then k else b) 0)

/-- The partitions of the sheaves in ascending window order, each to the one with the most free lane-vectors (R114, R305). -/
def sheaves (k : Kernel) (lanes : List Nat) : Option (List Nat × List Nat) :=
  (List.range (windowCount k)).foldl (fun acc w => acc.bind (fun a =>
    let p := argMax a.2
    let b := windowBudget k w
    if nth a.2 p 0 < b then none else some (a.1 ++ [p], a.2.set p (nth a.2 p 0 - b)))) (some ([], lanes))

/-- Physical accumulator slots for an ACC set: a pair of named slots 2j and 2j + 1 takes an even and odd physical pair (R75, R305); the
slots in the order of the names. -/
def accAlloc (acc : Nat) (free : List Nat) : Option (List Nat) :=
  let pairs := (List.range 4).filter (fun j => bitOf acc (2 * j) && bitOf acc (2 * j + 1))
  let singles := (List.range 8).filter (fun k => bitOf acc k && !pairs.contains (k / 2))
  let p := pairs.foldl (fun (st : Option (List Nat × List Nat)) _ => st.bind (fun a =>
    match (List.range 4).find? (fun j => a.2.contains (2 * j) && a.2.contains (2 * j + 1)) with
    | some j => some (a.1 ++ [2 * j, 2 * j + 1], a.2.filter (fun x => x / 2 != j))
    | none => none)) (some ([], free))
  (singles.foldl (fun (st : Option (List Nat × List Nat)) _ => st.bind (fun a => match a.2 with | x :: r => some (a.1 ++ [x], r) | [] => none)) p).map (fun a => a.1)

/-- A place for one team on a core: its core, sheaf partitions and accumulator slots, and the room left. -/
def fitTeam (k : Kernel) (r : Room) : Option ((Nat × List Nat × List Nat) × Room) :=
  if r.foreign || decide (r.slots < k.roles.length) || decide (r.scratch < k.scratch) then none
  else match sheaves k r.lanes, accAlloc k.acc r.acc with
    | some (ps, lanes), some as =>
      some ((r.core, ps, as), { r with slots := r.slots - k.roles.length, scratch := r.scratch - k.scratch, acc := r.acc.filter (fun x => !as.contains x), lanes := lanes })
    | _, _ => none

/-- Teams in rank order, each on the lowest-numbered core that it still fits (R305). -/
def fitTeams (k : Kernel) : Nat → List Room → Option (List (Nat × List Nat × List Nat))
  | 0, _ => some []
  | n + 1, rs =>
    match rs.findSome? (fun r => fitTeam k r) with
    | none => none
    | some (a, r') => (fitTeams k n (rs.map (fun r => if r.core = r'.core then r' else r))).map (fun l => a :: l)

/-- The cores of a cluster that are enabled (R10, R393). -/
def clusterOf (s : State) (die cl : Nat) : List Nat :=
  (List.range' (die * Config.dieCores + cl * Config.clusterCores) Config.clusterCores).filter (fun n => !(coreOf s n).failed)

/-- Check 7 of R114: the gang fits on some cluster of an empty device. -/
def fitsEmpty (s : State) (k : Kernel) : Bool :=
  (List.range Config.dies).any (fun d => (List.range Config.clusters).any (fun cl => (fitTeams k (k.gangm1 + 1) ((clusterOf s d cl).map Room.empty)).isSome))

/-- The failing checks of R114. A CODE that is not a multiple of 4 is named by none of them: the model accepts it, and every PC of the kernel has then its low bits
(DESIGN CHOICE, log 73). -/
def descFails (s : State) (x : Nat) (k : Kernel) (features : Nat) : List Nat :=
  let recs := (List.range 3).map (fun j => field x (320 + 64 * j) 64)
  let n := field x 24 2
  let used := recs.take n
  let c1 := field x 0 16 ≠ 1 || field x 26 6 ≠ 0 || field x 43 5 ≠ 0 || field x 51 5 ≠ 0 ||
    recs.any (fun r => field r 2 6 != 0 || field r 17 3 != 0 || field r 29 3 != 0)
  let c4 := k.tsize < 64 || 1024 < k.tsize || k.tsize % 64 ≠ 0 || n = 0 || used.any (fun r => field r 0 2 = 0) || (recs.drop n).any (fun r => r != 0) ||
    (k.roles.foldl (fun (a : Option Nat) r => a.bind (fun w => if r.firstw = w && 1 ≤ r.countw && r.countw ≤ 16 then some (w + r.countw) else none)) (some 0)) ≠ some (k.tsize / 64) ||
    k.roles.any (fun r => decide (256 < r.budget) || r.entry % 4 != 0)
  let c5 := 1024 < (List.range (windowCount k)).foldl (fun a w => a + windowBudget k w) 0 || (sheaves k (List.replicate 4 Config.partLanes)).isNone
  ([(1, c1), (2, decide (k.numver ≠ 1)), (3, decide (k.featreq &&& features ≠ k.featreq)), (4, c4), (5, c5),
    (6, decide (k.scratch % 16 ≠ 0) || decide (262144 < k.scratch)), (7, !fitsEmpty s k)].filter (fun c => c.2)).map (fun c => c.1)

/-- The failing check of R114 with the lowest number, 0 for none (DESIGN CHOICE, log 99). -/
def descCheck (s : State) (x : Nat) (k : Kernel) (features : Nat) : Nat := (descFails s x k features).headD 0

/-! ### Launch records (R295) -/

/-- A launch record as read. clean: every reserved bit is 0, but for QUEUE, which is reserved outside the task table. -/
structure LaunchRec where
  lver : Nat
  queue : Nat
  valid : Bool
  nocompl : Bool
  utag : Nat
  kdesc : Nat
  grid : Nat
  hintBase : Nat
  hintStr : Int
  presets : List (Nat × Word)
  clean : Bool
  deriving DecidableEq, Repr

def parseLaunch (x : Nat) : LaunchRec :=
  let ps := (List.range 8).map (fun k => field x (512 + 64 * k) 64)
  { lver := field x 0 16, queue := field x 16 8, valid := bitOf x 24, nocompl := bitOf x 25, utag := field x 32 32, kdesc := field x 64 64
    grid := field x 128 32 + 1, hintBase := field x 192 64, hintStr := signed 32 (field x 256 32)
    presets := (ps.filter (fun p => bitOf p 15)).map (fun p => (field p 0 11, BitVec.ofNat 32 (field p 16 32)))
    clean := field x 26 6 = 0 && field x 160 32 = 0 && field x 288 224 = 0 && ps.all (fun p => field p 11 4 = 0 && field p 48 16 = 0) }

/-- How many entries the task table of a context has (R350). -/
def taskN (x : Ctx) : Nat := x.tasknm1 + 1
/-- Entry id of that table, 0 where an error has poisoned it, so that it is no entry (R350, R372; DEDUCED, log 114). -/
def taskEntry (s : State) (x : Ctx) (id : Nat) : Nat :=
  if homePoison s .dev (x.tasktab + 128 * id) 128 then 0 else ofBytes (memGets s.mem (x.tasktab + 128 * id) 128)

end Sys2Proof.Machine
end

