-- ==== Sys2Proof/Machine/System.lean ====
section
/-! DEFINITION. Special registers, software traps, breakpoints, comparators, LAUNCH and MOULT (R224 to R240, R407). -/

namespace Sys2Proof.Machine

/-! ### SREAD (R225 to R228, R149, R407) -/

/-- walk_off of R149: the offset, and the walk after it. -/
def walkCarry (ext : List Nat) : Nat → Nat → List Nat → List Bool → List Nat × List Bool
  | 0, _, c, e => (c, e)
  | n + 1, k, c, e =>
    let v := (nth c k 0 + 1) % 2 ^ 32
    if v < nth ext k 1 then (c.set k v, e)
    else if k = 4 then (if v = nth ext 4 1 then (c.set 4 0, e.set 4 true) else (c.set 4 v, e))
    else walkCarry ext n (k + 1) (c.set k 0) (e.set k true)
def walkOff (w : Walk) : Word × Walk :=
  if !w.bound then (0, w)
  else
    let off : Int := (List.range 5).foldl (fun a k => a + ((nth w.c k 0 : Nat) : Int) * (nth w.str k 0).toInt) 0
    let (c, e) := walkCarry w.ext 5 0 w.c (List.replicate 5 false)
    (BitVec.ofNat 32 (wrapTo 32 off), { w with c := c, e := e })

/-- The pseudo-channel counter with a number (R225, R228, R278). -/
def pchOf (s : State) (n : Nat) : Word := (((s.bdies.find? (fun b => b.num == n / 64)).bind (fun b => alookup b.pch (n % 64)))).getD 0

/-- Team number of an index (R25). -/
def teamIdx (s : State) (st : Strand) (i : Nat) : Nat := i / max 1 (tsizeOf s st.lk)

/-- Whether SREAD of a selector is team-scoped over this strand before its cut (R39, R226). -/
def sreadCuts (s : State) (st : Strand) (sel : Nat) : Bool :=
  st.team.isNone && (sel == 0xC || sel == 0x22 || ((sel == 1 || sel == 2 || sel == 9) && decide (1 < (teamsSpanned s st).length)))

/-- The role code of a strand (R225). -/
def roleCode : Role → Nat
  | .mx => 1 | .ep => 2 | .gn => 3

/-- The values of a special register at the present indices, and the strand after the read. -/
def sreadVals (s : State) (st : Strand) (sel : Nat) : List Word × Strand :=
  let is := present st
  let u := fun (x : Nat) => (is.map (fun _ => BitVec.ofNat 32 x), st)
  let l := launchOf s st.lk
  let lf := fun (f : Launch → Nat) => (l.map f).getD 0
  let t := st.team.bind (teamOf s st.lk)
  let gang := gangTeams s st.lk (teamIdx s st st.first)
  let perIdx := fun (f : Nat → Nat) => (is.map (fun i => BitVec.ofNat 32 (f i)), st)
  if 0x400 ≤ sel then u (if (l.map (fun l => l.gprof)).getD false then (pchOf s (sel - 0x400)).toNat else 0)
  else if 0x180 ≤ sel then u (nth st.views (sel - 0x180) (0, 0)).1.toNat
  else if 0x100 ≤ sel then
    let n := (sel - 0x100) / 8
    let w := walkOf st n
    if sel % 8 = 0 then
      let (off, w') := walkOff w
      (is.map (fun _ => off), { st with walks := st.walks.set n w' })
    else u (nth w.c (sel % 8 - 1) 0)
  else match sel with
    | 0x00 => u Config.lanes
    | 0x01 => perIdx (fun i => i % max 1 (tsizeOf s st.lk))
    | 0x02 => perIdx (teamIdx s st)
    | 0x03 => u (launchId s st.lk)
    | 0x04 => perIdx id
    | 0x05 => u st.first
    | 0x06 => u st.count
    | 0x07 => u (tsizeOf s st.lk)
    | 0x08 => u (teamsOfGrid (gridOf s st.lk) (max 1 (tsizeOf s st.lk)))
    | 0x09 => perIdx (fun i => teamIdx s st i - (gangTeams s st.lk (teamIdx s st i)).headD 0)
    | 0x0A => u gang.length
    | 0x0B => u (roleCode st.role)
    | 0x0C => u ((t.map (fun t => t.slot)).getD 0)
    | 0x0D => u (field (lf (fun l => l.spill)) 0 32)
    | 0x0E => u (field (lf (fun l => l.spill)) 32 32)
    | 0x10 => u (field (lf (fun l => l.features)) 0 32)
    | 0x11 => u (field (lf (fun l => l.features)) 32 32)
    | 0x12 => u (lf (fun l => l.numver))
    | 0x18 => u (lf (fun l => match l.src with | .cont old _ => old.toNat | _ => 0))
    | 0x19 => u (lf (fun l => match l.src with | .cont _ a => a.toNat | .task a => a.toNat | _ => 0))
    | 0x1A => u (lf (fun l => match l.src with | .cont _ _ => 1 | .task _ => 2 | _ => 0))
    | 0x20 => (is.map (fun _ => BitVec.ofNat 32 s.time), { st with latch := some (BitVec.ofNat 32 (s.time / 2 ^ 32)) })
    | 0x21 => u ((st.latch.getD (BitVec.ofNat 32 (s.time / 2 ^ 32))).toNat)
    | 0x22 => u ((t.map (fun t => t.charge / 1024)).getD 0)
    | _ => u 0

/-- Whether a result needs X over a strand (R37). -/
def needsX (st : Strand) (r : Result) : Bool := r.regs.any (fun e => isXV (classifyV (present st) e.2))

/-- SREAD (R225): read once at issue, written under R42; nothing advances under a U false guard. -/
def execSread (h : Hdr) (d sel : R11) (s : State) : Res :=
  regFrame h 8 [] [d.toNat] false (fun s st =>
    if guardU st h.g = some false then advance s st.sid 8
    else if sreadCuts s st sel.toNat then placementCut s st
    else
      let (vals, st') := sreadVals s st sel.toNat
      commitThen (fun p => { p with walks := st'.walks, latch := st'.latch }) s st (guardedWrite st h.g d.toNat 1 (vals.map (fun w => w.toNat))) 8) s

/-! ### TRAP, BKPT, CBRK (R229 to R231) -/

/-- TRAP (R229): the acting indices stop; the others go on. -/
def execTrap (h : Hdr) (k : R11) (s : State) : Res :=
  regFrame h 8 [] [] false (fun s st =>
    withoutFaulting s st (acting st h.g) 8 { reportOf s st 10 0 with info := k.toNat } (fun s p => advance s p.sid 8)) s

/-- BKPT (R230): while a debugger is attached, the acting part halts before it. -/
def execBkpt (h : Hdr) (k : R11) (s : State) : Res :=
  regFrame h 8 [] [] false (fun s st =>
    let act := acting st h.g
    if !attached s st.lk || act.isEmpty then advance s st.sid 8
    else
      let B := budgetOf s st
      let bad := pieces B st act
      let good := pieces B st ((present st).filter (fun i => !act.contains i))
      let (ids, s1) := replaceStrand s st.sid (bad ++ good)
      let s2 := eachStrand s1 (ids.drop bad.length) (fun a p => advance a p.sid 8)
      (ids.take bad.length).foldl (fun a id =>
        let a1 := debugHalt a id 1 0 k.toNat 0 [] 0
        { a1 with attaches := updWhere (fun x => x.ctx == ctxOfLaunch s st.lk) (fun x => { x with bkpts := x.bkpts ++ (((strandOf a1 id).bind (fun t => t.halted)).toList) }) a1.attaches }) s2) s

/-- CBRK (R231). -/
def execCbrk (h : Hdr) (d a : R11) (b : Src) (cond : BitVec 3) (all : Bool) (n : BitVec 2) (s : State) : Res :=
  let len := srcLen b
  strandFrame h len (if cond = 7 then [] else srcRegs b) true false (fun s st =>
    if mustWait s st [d.toNat] false then waitFor s st.sid [d.toNat] false
    else match (if cond = 7 then some 0 else uSrc st b) with
    | none => formTrap s st len 2
    | some v =>
      let on := attached s st.lk
      let s1 := writeResult s st { regs := [(d.toNat, (present st).map (fun _ => if on then 1 else 0))], stack := none, pois := [], acted := present st } len
      if on then updTeam s1 st.lk (st.team.getD 0) (fun t => { t with cmps := t.cmps.set n.toNat ⟨cond != 7, cond.toNat, all, a.toNat, v⟩ }) else s1) s

/-! ### LAUNCH (R232, R233) -/

/-- LAUNCH: one operation of class s, finished when the launch unit has queued the request. -/
def execLaunch (h : Hdr) (a : R11) (b : Src) (s : State) : Res :=
  let len := srcLen b
  strandFrame h len (a.toNat :: srcRegs b) false false (fun s st =>
    match uReg st a.toNat, uSrc st b with
    | none, _ => formTrap s st len 1
    | _, none => formTrap s st len 2
    | some task, some arg =>
      if !roomFor s st .s true then waitRoom s st.sid .s true
      else advance (addOp (performLoads s st) st .s (present st) (.launch task arg s.time) false).2 st.sid len) s

/-! ### MOULT (R234 to R238) -/

/-- Fields of the inheritance word (R234). -/
def inhAcc (b : Word) : Nat := field b.toNat 0 8
def inhFirst (b : Word) : Nat := 16 * field b.toNat 8 7
def inhCount (b : Word) : Nat := 16 * field b.toNat 15 7
def inhScratch (b : Word) : Nat := 1024 * field b.toNat 22 10

/-- check_shape of R236: the number of the first failing check, or the successor. -/
def checkShape (s : State) (lk team : Nat) (a b : Word) : Sum Nat Kernel × State :=
  match launchOf s lk, teamOf s lk team with
  | some l, some t =>
    match ctxOf s l.ctx with
    | none => (.inl 1, s)
    | some x =>
      let e := parseLaunch (taskEntry s x a.toNat)
      if taskN x ≤ a.toNat || !e.valid || e.kdesc % 64 ≠ 0 then (.inl 1, s)
      else match readKernel s l.ctx e.kdesc with
        | (.inl _, s1) => (.inl 2, s1)
        | (.inr (raw, k), s1) =>
          let p := t.kernel
          let n :=
            if (descFails s1 raw k l.features).any (fun c => c != 5 && c != 7) then 2
            else if 256 < field b.toNat 22 10 || 128 < field b.toNat 8 7 + field b.toNat 15 7 then 3
            else if k.numver ≠ p.numver || k.tsize ≠ p.tsize || k.gangm1 ≠ p.gangm1 then 4
            else if (List.range (windowCount p)).any (fun w => decide (windowBudget p w < windowBudget k w)) then 5
            else if p.scratch < k.scratch || k.acc &&& p.acc ≠ k.acc then 6
            else if inhCount b ≠ 0 && k.roles.any (fun r => decide (r.budget < inhFirst b + inhCount b)) then 7
            else if k.scratch < inhScratch b then 8
            else if inhAcc b &&& k.acc ≠ inhAcc b then 9
            else 0
          (if n = 0 then .inr k else .inl n, s1)
  | _, _ => (.inl 1, s)

/-- Strands of a team that have arrived at a MOULT. -/
def atMoult (s : State) (lk team : Nat) : List (Strand × Word × Word × Nat) :=
  (s.strands.filter (fun st => st.lk == lk && st.team == some team && st.halted.isNone)).filterMap (fun st => match st.status with
    | .blocked (.moult a b len) => some (st, a, b, len) | _ => none)

/-- One moult report and one stop for each arrived strand (R235). -/
def moultFail (s : State) (xs : List (Strand × Word × Word × Nat)) (check : Nat) : State :=
  xs.foldl (fun a x =>
    raiseStop a x.1.lk [x.1.sid] 9 0 1 x.2.2.2 (.advance x.2.2.2) (withNames { reportOf a x.1 9 0 with info := check } (present x.1))) s

/-- Every index of the team that has not retired has arrived at a MOULT (R235). -/
def allAtMoult (s : State) (lk team : Nat) : Bool :=
  let xs := atMoult s lk team
  !xs.isEmpty && decide (xs.foldl (fun n y => n + presentCount y.1) 0 = aliveIn s lk team)

/-- When every index that has not retired has arrived: the comparison of the operands, and check_shape (R235). A team that is to be saved, or is saved, arrives when
it has been restored (R239). -/
def tryMoult (s : State) (lk team : Nat) : State :=
  let xs := atMoult s lk team
  if (teamOf s lk team).any (fun t => t.moulting.isSome || t.preempt || t.saved) then s
  else match xs with
    | [] => s
    | x :: _ =>
      if !allAtMoult s lk team then s
      else if xs.any (fun y => y.2.1 != x.2.1 || y.2.2.1 != x.2.2.1) then moultFail s xs 10
      else match checkShape s lk team x.2.1 x.2.2.1 with
        | (.inl n, s1) => moultFail s1 xs n
        | (.inr k, s1) => updTeam s1 lk team (fun t => { t with moulting := some (k, x.2.2.1) })

/-- The arrival of a strand whose wait has ended (R235). -/
def arriveMoult (s : State) (st : Strand) (a b : Word) (len : Nat) : State :=
  tryMoult (blockOn s st.sid (.moult a b len)) st.lk (st.team.getD 0)

/-- The end of the wait before an arrival: what a WAITC does, and then the arrival, unless a fault is delivered (R156, R239). -/
def moultWaitDone (s : State) (st : Strand) (a b : Word) (len : Nat) : State :=
  let st1 := { takeViews s st (finishedSlots s st) with copied := [] }
  let s1 := addObs (putStrand s st1) st.lk (present st) st.copied
  let fs := undelivered s st
  if fs.isEmpty then arriveMoult s1 st1 a b len else deliver (putStrand s1 (unblock s st1)) (unblock s st1) fs (.moult a b len)

/-- MOULT (R235). -/
def execMoult (h : Hdr) (a : R11) (b : Src) (s : State) : Res :=
  let len := srcLen b
  strandFrame h len (a.toNat :: srcRegs b) true false (fun s st =>
    match uReg st a.toNat, uSrc st b with
    | none, _ => formTrap s st len 1
    | _, none => formTrap s st len 2
    | some x, some y =>
      let s1 := performLoads s st
      endRun (if waitcMet s1 st 0 0 0 0 then moultWaitDone s1 st x y len else blockOn s1 st.sid (.moultWait x y len))) s

/-- WAITC_SATISFIED: the wait of a blocked strand ends when its counts are met (R156); so does the wait of a MOULT (R235). -/
def execWaitcSatisfied (sid : Nat) (s : State) : Res :=
  finish (match strandOf s sid with
    | some st => (match st.status with
      | .blocked (.waitc l sc c t) => if waitcMet s st l sc c t && st.halted.isNone && !stopped s st then waitcComplete s st c else s
      | .blocked (.moultWait a b len) => if waitcMet s st 0 0 0 0 && st.halted.isNone && !stopped s st then moultWaitDone s st a b len else s
      | _ => s)
    | none => s)

/-! ### Starting a team's strands (R29, R39, R296) -/

/-- A strand at its start: every v register U 0 but for the presets, every q entry U false, no walk, call or enrolment. -/
def newStrand (sid lk : Nat) (team : Option Nat) (role : Role) (pc first count core part : Nat) (stamp : Int) (presets : List (Nat × Word)) : Strand :=
  { sid := sid, lk := lk, team := team, role := role, pc := BitVec.ofNat 64 pc, first := first, count := count, mask := none, stamp := stamp
    enrol := List.replicate 16 0, regs := presets.foldl (fun a p => ainsert a p.1 (.u p.2)) [], undef := none, poison := [], origin := [], dirty := none
    qs := List.replicate 8 (.u false), walks := List.replicate 16 Walk.unbound, calls := [], ops := [], latch := none
    views := List.replicate 8 (0, 0), status := .ready, halted := none, stepping := false, benched := false, pending := false, core := core, part := part
    replay := none, urgent := false, tileIssued := [], copied := [], husk := [] }

/-- The strands of a team, one for each role that holds one of its indices, at the role entries (R39). -/
def roleStrands (s : State) (lk team : Nat) (k : Kernel) (core : Nat) (pending : Bool) (presets : List (Nat × Word)) : List Strand × State :=
  k.roles.foldl (fun (acc : List Strand × State) r =>
    let n := teamCount acc.2 lk team
    let lo := 64 * r.firstw
    let cnt := min (64 * r.countw) (n - lo)
    if cnt = 0 then acc
    else
      let (sid, s1) := fresh acc.2
      let st := { newStrand sid lk (some team) r.role (entryPc k r) (team * k.tsize + lo) cnt core 0 0 presets with pending := pending }
      let st1 := { st with part := homePart s1 st }
      (acc.1 ++ [{ st1 with stamp := slotNow s1 }], s1)) ([], s)

/-- A strand whose forms need X takes its window's sheaf, tillered where it spans several (R37). -/
def settleStart (s : State) (st : Strand) : List Strand × State :=
  let is := present st
  if !hasX st then ([st], s)
  else if oneWindow is then ([settleMask is st], s)
  else
    let r := assignIds s ((windowsOf is).map (restrict st))
    (r.1.map (fun p => { p with part := homePart s p }), r.2)

/-! ### succeed (R237, R238) -/

/-- The word of an inherited register at an index: the predecessor's, or an undefined value where the index had retired. -/
def inherited (s : State) (olds : List Strand) (seed r i : Nat) : Word :=
  match olds.find? (fun o => (present o).contains i) with
  | some o => atWord o r i
  | none => Config.freeWord (seed + r * 1024 + i % 1024)
where
  /-- A register's value at one present index. -/
  atWord (o : Strand) (r i : Nat) : Word := (alookup ((present o).zip (regVals o r)) i).getD 0

/-- Give a successor's strand its inherited registers, their poison, and its views (R237, R389, R407). -/
def inherit (s : State) (olds : List Strand) (seed : Nat) (t : Team) (b : Word) (st : Strand) : Strand :=
  let is := present st
  let rs := List.range' (inhFirst b) (inhCount b)
  { st with
    regs := rs.foldl (fun a r => ainsert a r (classifyV is (is.map (inherited s olds seed r)))) st.regs
    poison := olds.flatMap (fun o => o.poison.filter (fun e => rs.contains e.1 && is.contains e.2))
    origin := olds.flatMap (fun o => o.origin.filter (fun e => rs.contains e.1 && is.contains e.2))
    views := (List.range 8).map (fun m => if bitOf (inhAcc b) m then (statusWord (tileOf t m), s.time) else (0, 0)) }

/-- The 32 layout slots at the start of a team (R114). -/
def startLayout (k : Kernel) : List LayoutBits := (List.range 32).map (fun d => (alookup k.layout d).getD 0)

/-- Comparators at the start of a team (R231). -/
def noCmps : List Cmp := List.replicate 4 ⟨false, 0, false, 0, 0⟩

/-- The entries that the indices of a team have in its core's buffer. -/
def teamEntries (s : State) (t : Team) : List Store :=
  let lo := t.num * t.kernel.tsize
  (bufferOf s t.core).filter (fun e => match e.writer with | .index l i => l == t.lk && decide (lo ≤ i) && decide (i < lo + t.kernel.tsize) | _ => false)

/-- succeed of R237. It drains nothing (R260): what the predecessor's entries would write to scratch that becomes 0 goes with the rest of it; its other entries stay, and
the successor has observed them. -/
def succeed (s0 : State) (lk team : Nat) (k : Kernel) (b : Word) : State :=
  match teamOf s0 lk team with
  | none => s0
  | some t =>
    let keep := inhScratch b
    let wiped := ((teamEntries s0 t).filter (fun e => e.space == .scr lk team && decide (keep ≤ e.addr))).map (fun e => e.id)
    let s := { s0 with stores := s0.stores.filter (fun e => !wiped.contains e.id) }
    let olds := s.strands.filter (fun st => st.lk == lk && st.team == some team && st.husk.isEmpty)
    let lo := team * t.kernel.tsize
    let all := List.range' lo (teamCount s lk team)
    let mine := (teamEntries s t).map (fun e => e.id)
    let os := mine.foldl insertNat (obsUnion s lk all)
    let seed := s.nfree
    let s1 := { s with nfree := s.nfree + 2 ^ 21, strands := s.strands.filter (fun st => !(olds.any (fun o => o.sid == st.sid))),
                       gsets := s.gsets.filter (fun g => !(g.lk == lk && g.team == team && decide (keep ≤ g.gran * 16))) }
    let s2 := updTeam s1 lk team (fun t => { t with
      kernel := k
      scratch := t.scratch.filter (fun c => decide (c.1 < keep)), full := t.full.filter (fun g => decide (g * 16 < keep))
      scratchPois := t.scratchPois.filter (fun w => decide (w * 4 < keep))
      dirtyBlocks := (List.range' (keep / 1024) ((t.held + 1023) / 1024 - keep / 1024)).foldl insertNat t.dirtyBlocks
      tiles := (List.range 8).map (fun m => if bitOf (inhAcc b) m then tileOf t m else Tile.clear)
      layout := startLayout k, cmps := noCmps, moulting := none })
    let (news, s3) := roleStrands s2 lk team k t.core false []
    let s4 := news.foldl (fun a st =>
      let (ps, a1) := settleStart a (inherit s olds seed t b st)
      { a1 with strands := a1.strands ++ ps }) s3
    traceRecord (addObs s4 lk all os) lk 4 team k.kdesc

/-- Engine and tile operations of a team that have not finished (R235, R220). -/
def teamBusy (s : State) (lk team : Nat) : Bool := s.ops.any (fun o => !o.done && o.lk == lk && o.team == some team && (o.cls == .c || o.cls == .t))

/-- MOULT_SUCCEED: the arrivals are compared and checked if they have not been, and the successor starts once the team's engine and tile
operations have finished (R235, R237); where a strand of the team is halted at its MOULT, once it has been resumed (R396). -/
def execMoultSucceed (lk team : Nat) (s : State) : Res :=
  finish (
    let s1 := tryMoult s lk team
    match (teamOf s1 lk team).bind (fun t => t.moulting) with
    | some (k, b) => if teamBusy s1 lk team || (teamOf s1 lk team).any (fun t => t.preempt || t.saved) || s1.strands.any (fun st => st.lk == lk && st.team == some team && st.halted.isSome) then s1 else succeed s1 lk team k b
    | none => s1)

end Sys2Proof.Machine
end

