-- ==== Sys2Proof/Machine/Finish.lean ====
section
/-! DEFINITION. The finishing of operations, drains, the packet of an ATC, and hardware queues (R155, R182 to R190, R250, R308, R374). -/

namespace Sys2Proof.Machine

/-! ### OPERATION_FINISH (R155, R374) -/

/-- A DLD has its record: the slot is written, or the poison of the record is an attributed fault (R198, R391). -/
def finishDld (s : State) (o : Op) (slot : Nat) (r : LayoutBits) (pois : Bool) : State :=
  let va := match o.body with | .dld _ _ _ va _ => va | _ => 0
  if pois then
    let rep : Report := { Report.blank with kind := 15, cause := 2, launch := launchId s o.lk, tsize := tsizeOf s o.lk, pc := o.pc.toNat, addr := va, slot := slot, access := 1, snap := r.toNat }
    endOp (updOp s o.oid (fun o => { o with faults := o.faults ++ [rep] })) o.oid
  else
    let s1 := match o.team with
      | some t => updTeam s o.lk t (fun x => { x with layout := x.layout.set slot r })
      | none => s
    endOp s1 o.oid

/-- The loads of an operation that are left: all of them, or one, which its B-die has served first (R248, R251, R275). -/
def finishLoads (s : State) (oid : Nat) (left : List LoadTodo) : State :=
  let (k, s1) := choose s (left.length + 1)
  let ts := if k = 0 then left else (left.drop (k - 1)).take 1
  performLoadsOf (ts.foldl (fun a t => settleAt a t.space t.addr) s1) (fun t => ts.contains t) oid

/-- The stores of an operation that are left: all of them, or one that may enter next, after what its indices have left before the operation (R248, R249). -/
def finishStores (s : State) (o : Op) (left : List StoreTodo) : State :=
  let next := enterable left
  let (k, s1) := choose s (next.length + 1)
  if k = 0 then performFor s1 o.lk o.idxs (o.oid + 1)
  else (next.drop (k - 1)).take 1 |>.foldl (fun a t => enterTodo (performFor a o.lk t.idxs o.oid) o t) s1

/-- The settings behind the stores of an STS `.set`: all of them, or one (R177, R248, R258). -/
def finishSets (s : State) (o : Op) : State :=
  if o.sets.isEmpty then s else
  let (k, s1) := choose s (o.sets.length + 1)
  (if k = 0 then o.sets else (o.sets.drop (k - 1)).take 1).foldl (fun a t => performSet a o t) s1

/-- The atomics of an operation that no B-die performs: all of them, or those of one location (R180, R248). -/
def finishAtoms (s : State) (oid : Nat) (ts : List AtTodo) : State :=
  let own := ts.filter (fun t => !t.home)
  let (k, s1) := choose s (own.length + 1)
  if k = 0 then performOwn s1 oid
  else (own.drop (k - 1)).take 1 |>.foldl (fun a t => performAtoms (settleAt a t.space t.addr) oid (fun x => !x.home && x.space == t.space && x.addr == t.addr)) s1

/-- Deliver what an operation has, where it has all of it. -/
def deliverOp (s : State) (o : Op) : State :=
  match o.body with
  | .result d n vals ps [] none push pushes => landAll s o d n vals (ps.flatMap (fun i => (List.range n).map (fun k => (k, i)))) (if pushes then some push else none)
  | .stores [] => if o.sets.isEmpty then wakeJoins (endOp s o.oid) o.lk else s
  | .dld slot .. => (match dldRecord o with | some (r, p) => wakeJoins (finishDld s o slot r p) o.lk | none => s)
  | _ => s

/-- OPERATION_FINISH: what an outstanding operation has left to do of itself, and its delivery (R33, R155). Operations of the engines, the
matrix unit and the launch unit finish at those units' own steps, and those of the homes at theirs. The status of an ATC is pushed when the replies have returned; its operation
finishes when its tasks are queued too (R182, R308). -/
def execOperationFinish (oid : Nat) (s : State) : Res :=
  finish (match opOf s oid with
    | none => s
    | some o =>
      if o.done then s
      else
        let deliver := fun (a : State) => match opOf a oid with | some x => deliverOp a x | none => a
        match o.body with
        | .result _ _ _ _ (t :: ts) _ _ _ => deliver (finishLoads s oid (t :: ts))
        | .result _ _ _ _ [] (some (_, ts)) _ _ => deliver (finishAtoms s oid ts)
        | .stores (t :: ts) => deliver (finishStores s o (t :: ts))
        | .stores [] => deliver (finishSets s o)
        | .dld .. => deliver (finishLoads s oid (dldLeft o))
        | .cont (some push) => pushStatus s o push
        | .cont none => if contLeft s oid then s else wakeJoins (endOp s oid) o.lk
        | _ => deliver s)
where
  /-- The statuses of an ATC are pushed; then only the queueing of its tasks is left. -/
  pushStatus (s : State) (o : Op) (push : List (Nat × Bool)) : State :=
    let s1 := (landsAt s o [] (some push)).foldl (pushOne o push) s
    if (landsAt s1 o [] (some push)).any (fun x => (present x).any o.idxs.contains && ((opOf s1 o.oid).any (fun y => (present x).any y.idxs.contains))) then wakeJoins (wakeStalls s1) o.lk
    else
      let s2 := updOp s1 o.oid (fun o => { o with body := .cont none })
      if contLeft s2 o.oid then wakeJoins (wakeStalls s2) o.lk else wakeJoins (endOp s2 o.oid) o.lk
  /-- One holder takes its statuses; the operation stays in its set (R155). -/
  pushOne (o : Op) (push : List (Nat × Bool)) (s : State) (x : Strand) : State :=
    match strandOf s x.sid, opOf s o.oid with
    | some y, some p =>
      if !(present y).any p.idxs.contains then s
      else
        let s0 := updOp s o.oid (fun o => { o with idxs := o.idxs.filter (fun i => !(present y).contains i) })
        let r := landResult s0 y 0 0 [] [] (some push) o.pc.toNat false
        if r.1 then r.2 else if y.team.isNone then (landResult s y 0 0 [] [] (some push) o.pc.toNat false).2 else s
    | _, _ => s

/-! ### BUFFER_DRAIN (R249, R250, R261) -/

/-- BUFFER_DRAIN: an entry of a core's buffer that nothing must precede drains to its home (R250); the store of a host agent enters the agent's buffer first
(R247, R261). -/
def execBufferDrain (entry : Nat) (s : State) : Res :=
  finish (match s.hostStores.find? (fun h => h.id == entry) with
    | some h => if hostNext s h then enterHostStore s h else s
    | none => match s.stores.find? (fun e => e.id == entry) with
      | some e => if canDrain s e then drainOne s entry else s
      | none => s)

/-! ### ATC_PACKET (R182, R184, R260, R286) -/

/-- ATC_PACKET: the atomics of an ATC on one line are performed at their home in ascending index order; the replies carry performed or refused (R182, R308). -/
def execAtcPacket (oid : Nat) (s : State) : Res := finish (servePackets oid s)

/-! ### Hardware queues (R187 to R190) -/

/-- The queue that a handle names in the context of a launch (R187). -/
def hqOf (s : State) (c : Nat) (h : Word) : Option HwQueue :=
  if 65536 ≤ h.toNat then none else (ctxOf s c).bind (fun x => x.hqs.find? (fun q => q.num == h.toNat))
def putHq (s : State) (c : Nat) (q : HwQueue) : State := updCtx s c (fun x => { x with hqs := updWhere (fun y => y.num == q.num) (fun _ => q) x.hqs })

/-- The frame of a queue instruction: a U handle that names a queue of the context (R187). -/
def queueFrame (h : Hdr) (len : Nat) (a : R11) (rs dests : List Nat) (f : State → Strand → HwQueue → State) (s : State) : Res :=
  strandFrame h len (a.toNat :: rs) false true (fun s st =>
    if mustWait s st dests false then waitFor s st.sid dests false
    else match uReg st a.toNat with
      | none => formTrap s st len 1
      | some hd => match hqOf s (ctxOfLaunch s st.lk) hd with
        | none => trapWhole s st len { reportOf s st 7 0 with info := hd.toNat }
        | some q => f s st q) s

/-- The batch of a QPOP by one strand (R188, R190): the oldest entries to the present indices in ascending order, acquired at device scope. -/
def popBatch (d qnum : Nat) (s : State) (st : Strand) : State :=
  match hqOf s (ctxOfLaunch s st.lk) (BitVec.ofNat 32 qnum) with
  | none => s
  | some q =>
    if !capable s st d 1 && presentCount st != 1 then formOnlyTrap s st 8 d 1
    else if !roomFor s st .l false then waitRoom s st.sid .l false
    else
      let s1 := performLoads s st
      let is := present st
      let got := is.zip q.entries
      let s2 := putHq s1 (ctxOfLaunch s st.lk) { q with entries := q.entries.drop got.length }
      let s3 := got.foldl (fun a e => acquireRecord a st.lk [e.1] (scopeOf a st .dev) (.index st.lk e.1) e.2.2) s2
      let push := is.map (fun i => (i, got.any (fun e => e.1 == i)))
      -- an acquire at device scope (R267)
      let (_, s4) := addOp (acquireL1 st.core (scopeOf s3 st .dev) s3) st .l is (.result (some d) 1 (got.map (fun e => (e.1, [e.2.1]))) [] [] none push true) false
      advance s4 st.sid 8

/-- QPOP (R188): a compact strand of more than 64 indices first passes through steps 1 to 3 of R37. -/
def execQpop (h : Hdr) (d a : R11) (s : State) : Res :=
  queueFrame h 8 a [] [d.toNat] (fun s st q =>
    if 64 < presentCount st then asIfX s st (popBatch d.toNat q.num) else popBatch d.toNat q.num s st) s

/-- QPUSH (R189): appends as one batch what the queue has room for; each entry carries its index's release at device scope (R190). -/
def execQpush (h : Hdr) (a : R11) (b : Src) (s : State) : Res :=
  let len := srcLen b
  queueFrame h len a (srcRegs b) [] (fun s st q =>
    if !roomFor s st .s false then waitRoom s st.sid .s false
    else
      let s1 := performLoads s st
      let is := present st
      let vals := (opndVals st (srcOpnd b 1 false)).map (BitVec.ofNat 32)
      let room := 2 ^ q.k - q.entries.length
      let r := ((is.zip vals).take room).foldl (fun (acc : List (Word × RelRec) × State) e =>
        let rel := releaseRec acc.2 st e.1 .dev
        (acc.1 ++ [(e.2, rel)], publish acc.2 st.core rel)) ([], s1)
      let s2 := putHq r.2 (ctxOfLaunch s st.lk) { q with entries := q.entries ++ r.1 }
      let (_, s3) := addOp s2 st .s is (.stores []) false
      match strandOf s3 st.sid with
      | some x => commit s3 x (pushResult x (is.map (fun _ => true)) ((List.range is.length).map (fun k => decide (k < room)))) len
      | none => s3) s

end Sys2Proof.Machine
end

