-- ==== Sys2Proof/Machine/Resident.lean ====
section
/-! DEFINITION. The spill pool that the resident system makes for an image (R355). -/

namespace Sys2Proof.Machine

/-- Teams of a kernel that an empty core holds at once; fuel. -/
def coreHolds (k : Kernel) : Nat → Room → Nat
  | 0, _ => 0
  | n + 1, r => match fitTeam k r with | some (_, r') => 1 + coreHolds k n r' | none => 0

/-- Teams of a kernel that a partition holds resident at once (R355). -/
def partitionHolds (s : State) (part : Nat) (k : Kernel) : Nat :=
  (mapDies s part).foldl (fun a d => (List.range Config.clusters).foldl (fun a cl =>
    (clusterOf s d cl).foldl (fun a core => a + coreHolds k Config.strandSlots (Room.empty core)) a) a) 0

/-- Map the spill pool of an image, in one block of 4 GiB of addresses: its base, slots and bytes; no slot where no memory is left. -/
def makePool (s : State) (x : Ctx) (k : Kernel) (slotBytes : Nat) : (Nat × Nat × Nat) × State :=
  let p := partitionHolds s x.part k
  let size := (p * slotBytes + 65535) / 65536 * 65536
  let base := if x.vaNext / 2 ^ 32 = (x.vaNext + size) / 2 ^ 32 then x.vaNext else (x.vaNext / 2 ^ 32 + 1) * 2 ^ 32
  match mapRange x.root 65536 true false true 0 (size / 65536) base s with
  | some s1 => ((base, p, size), updCtx s1 x.num (fun y => { y with vaNext := base + size }))
  | none => ((0, 0, 0), s)

/-- Free the spill pool of a launch (R355). -/
def freePool (s : State) (l : Launch) : State :=
  if l.poolBytes = 0 then s else ((ctxOf s l.ctx).bind (fun x => unmapRange s x l.spill l.poolBytes)).getD s

end Sys2Proof.Machine
end

