-- ==== Sys2Proof/Machine/Launch.lean ====
section
/-! DEFINITION. The launch unit: acceptance of launch records, user queues, tasks, completion (R261, R295 to R298, R308, R317, R344 to R347,
R369, R402, R409). -/

namespace Sys2Proof.Machine

/-! ### Feature vectors (R356, R369) -/

/-- The full-service vector and the part of it that seedling supports. -/
def fullFeatures : Nat := 0x04FF
def seedFeatures : Nat := 0x04B2

/-- The vector that a launch pins at acceptance (R369): 0 while it waits for full service (DESIGN CHOICE, log 48). -/
def pinned (s : State) (featreq : Nat) : Nat :=
  if s.sec.boot = .full then fullFeatures else if featreq &&& seedFeatures = featreq then seedFeatures else 0

/-- The vector that a launch of an image pins: that of the image's key, once the device has it (R357, R369). -/
def pinnedImage (s : State) (i : Image) : Nat := if s.sec.boot = .full || i.features &&& seedFeatures = i.features then i.features else 0

/-! ### Faults of operations (R155, R374) -/

/-- A fault of an operation joins those that it has not delivered yet (R156). -/
def addFault (s : State) (oid : Nat) (r : Report) : State := updOp s oid (fun o => { o with faults := o.faults ++ [r] })

/-! ### Completion records (R347) -/

/-- Hand a completion record to its queue, in the order in which launches finish (R347). -/
def queueCompletion (s : State) (q : Nat) (r : CompRec) : State :=
  { s with userqs := updWhere (fun u => u.q == q) (fun u => { u with waiting := u.waiting ++ [r] }) s.userqs }

/-- A launch refused before it got an identifier: its completion record has STATUS 1 (R297, R317, R347; DEDUCED, log 37). -/
def refusedCompletion (s : State) (q utag : Nat) (nocompl : Bool) : State :=
  if nocompl then s else queueCompletion s q ⟨utag, 0, 1, 1, s.time, 0⟩

/-- The 256 bits of a completion record (R347). -/
def completionBits (r : CompRec) (phase tend : Nat) : Nat :=
  pack [(0, r.utag % 2 ^ 32), (32, r.id), (64, r.status), (72, phase), (96, min r.faults (2 ^ 32 - 1)), (128, r.tstart % 2 ^ 64), (192, tend % 2 ^ 64)]

/-! ### Acceptance (R297, R298) -/

/-- Pending teams of queue q on a die: every team of the gang records that are pending there, cut already or not, retired or not (R298; DESIGN CHOICE, log 107). -/
def pendingTeams (s : State) (die q : Nat) : Nat :=
  (s.gangs.filter (fun g => g.die == die && g.queue == q && g.state == 0)).foldl (fun a g => a + g.ntm1 + 1) 0

/-- The first die whose queue q holds the fewest pending teams (R298). -/
def seedDie (s : State) (c q : Nat) : Nat :=
  match partitionDies s (((ctxOf s c).map (fun x => x.part)).getD 0) with
  | [] => 0
  | d :: ds => ds.foldl (fun b x => if pendingTeams s x q < pendingTeams s b q then x else b) d

/-- Two enabled presets name one register (R297). -/
def presetsClash (ps : List (Nat × Word)) : Bool := !(ps.map (fun p => p.1)).Nodup

/-- The checks of R297 in the order of the codes of R409, those of R114 last, or the kernel (DESIGN CHOICE, log 99). task: the record is an entry of the task table. -/
def checkLaunch (s : State) (c : Nat) (r : LaunchRec) (task : Bool) : Sum Nat Kernel × State :=
  if r.lver ≠ 1 || !r.valid || !r.clean || (!task && r.queue != 0) then (.inl 1, s)
  else if r.kdesc % 64 ≠ 0 then (.inl 2, s)
  else match readKernel s c r.kdesc with
    | (.inl 1, s1) => (.inl 2, s1)
    | (.inl _, s1) => (.inl (if presetsClash r.presets then 3 else 4), s1)
    | (.inr (raw, k), s1) =>
      if presetsClash r.presets then (.inl 3, s1)
      else if ((ctxOf s1 c).map (fun x => x.unusable.contains r.kdesc)).getD false then (.inl 6, s1)
      else
        let n := descCheck s1 raw k fullFeatures
        (if n = 0 then .inr k else .inl (10 + n), s1)

/-- The next launch identifier of a context: wrapping, never 0, never that of a live launch (R297). -/
def nextLaunchId (live : List Nat) : Nat → Nat → Nat
  | 0, n => n
  | k + 1, n => if n = 0 || live.contains n then nextLaunchId live k ((n + 1) % 2 ^ 32) else n

/-- Accept a launch: its identifier and the state with it (R297, R298, R400, R402). -/
def acceptLaunch (s : State) (c : Nat) (r : LaunchRec) (k : Kernel) (q : Nat) (src : Source) (addr t0 : Nat) (acq : List Nat) : Nat × State :=
  match ctxOf s c with
  | none => (0, s)
  | some x =>
    let live := (s.launches.filter (fun l => l.ctx == c && !l.complete)).map (fun l => l.id)
    let id := nextLaunchId live (live.length + 2) ((x.launchCtr + 1) % 2 ^ 32)
    let image := x.images.find? (fun i => i.kdesc == k.kdesc)
    let (pool, s0) := match image with
      | some i => if i.spill = 0 then ((0, 0, 0), s) else makePool s x k i.spill
      | none => ((0, 0, 0), s)
    let (lk, s1) := fresh s0
    let seed := seedDie s1 c q
    let l : Launch := {
      lk := lk, id := id, ctx := c, utag := r.utag, nocompl := r.nocompl, queue := q, grid := r.grid, hintBase := r.hintBase, hintStr := r.hintStr
      presets := r.presets, kernel := k, features := (image.map (pinnedImage s)).getD (pinned s1 k.featreq), numver := k.numver, src := src, recAddr := addr, spill := pool.1, seed := seed, begun := false
      killed := false, status := 0, tstart := s.time, faults := 0, beginSeq := 0, gprof := x.gprof, gmig := x.gmig, acq := acq, complete := false, tend := 0, moving := none
      slots := if (image.map (fun i => i.spill)).getD 0 = 0 then none else some pool.2.1, poolBytes := pool.2.2
      account := ⟨t0, [s.time - t0, 0, 0, 0, 0]⟩ }
    let s2 := updCtx { s1 with launches := s1.launches ++ [l] } c (fun x => { x with launchCtr := id, launched := true })
    let d := dieOf s2 seed
    let s3 := putDie s2 { d with queues := updWhere (fun y => y.q == q) (fun y => { y with accepted := y.accepted ++ [lk] }) d.queues }
    (id, traceRecord s3 lk 1 noTeam q)

/-- A launch fault report (R409). -/
def launchFault (code info2 addr snap : Nat) : Report := { Report.blank with cls := 3, kind := 16, info := code, info2 := info2, addr := addr, snap := snap }

/-- A record from a user queue or a LAUNCH call: accepted, or refused with a CLASS 3 report and its completion record (R297, R346, R348). -/
def takeRecord (s : State) (c q x addr : Nat) (src : Source) (t0 : Nat) (acq : List Nat) : Nat × State :=
  let r := parseLaunch x
  match checkLaunch s c r false with
  | (.inr k, s1) => acceptLaunch s1 c r k q src addr t0 acq
  | (.inl n, s1) => (0, refusedCompletion (enqueueReport s1 c (launchFault n r.utag addr 0)) q r.utag r.nocompl)

/-- Whether a launch queue belongs to a context (R298, R348). -/
def ownsQueue (s : State) (c q : Nat) : Bool := s.userqs.any (fun u => u.q == q && u.ctx == c)

/-- A task of a context: a code of R409 with what its completion record would need, or the record and its kernel (R308, R317, R350). -/
def checkTask (s : State) (c : Nat) (id : Nat) : Sum (Nat × Option LaunchRec) (LaunchRec × Kernel) × State :=
  match ctxOf s c with
  | none => (.inl (5, none), s)
  | some x =>
    let r := parseLaunch (taskEntry s x id)
    if taskN x ≤ id || !r.valid then (.inl (5, none), s)
    else if !ownsQueue s c r.queue then (.inl (5, none), s)
    else match checkLaunch s c r true with
      | (.inr k, s1) => (.inr (r, k), s1)
      | (.inl n, s1) => (.inl (n, some r), s1)

/-- Queue a task, or fault the operation that asked for it (R183, R232, R308, R317). -/
def takeTask (s : State) (c oid : Nat) (task : Word) (src : Source) (addr snap pc t0 : Nat) (acq : List Nat) : State :=
  match checkTask s c task.toNat with
  | (.inr (r, k), s1) => (acceptLaunch s1 c r k r.queue src addr t0 acq).2
  | (.inl (n, r?), s1) =>
    let lk := ((opOf s1 oid).map (fun o => o.lk)).getD 0
    let s2 := addFault s1 oid { launchFault n task.toNat addr snap with cls := 2, pc := pc, launch := launchId s1 lk, tsize := tsizeOf s1 lk }
    match r? with
    | some r => refusedCompletion s2 r.queue r.utag r.nocompl
    | none => s2

/-- Room in the launch unit's intake of 8192 records (R308, R377). -/
def intakeRoom (s : State) : Bool :=
  let tasks := (s.launches.filter (fun l => !l.begun && !l.complete && (match l.src with | .cont _ _ | .task _ => true | _ => false))).length
  let held := s.ctxs.foldl (fun a x => a + (x.waiting.filter (fun r => r.cls == 3)).length) 0
  decide (tasks + held < 8192)

/-! ### Events of the launch unit -/

/-- The 1024 bits of the record in a ring slot (R344, R346); a slot that cannot be read holds no valid record. -/
def ringRecord (s : State) (u : UserQ) (n : Nat) : Nat × State :=
  match vRead s u.ctx (u.ring + 128 * (n % 2 ^ u.k)) 128 with
  | (some bs, s1) => (ofBytes bs, s1)
  | (none, s1) => (0, s1)

/-- Take the records from HEAD on (R346). -/
def takeRecords (q : Nat) : Nat → State → State
  | 0, s => s
  | n + 1, s =>
    match s.userqs.find? (fun u => u.q == q) with
    | none => s
    | some u =>
      let (x, s1) := ringRecord s u u.head
      let (_, s2) := takeRecord s1 u.ctx q x (u.ring + 128 * (u.head % 2 ^ u.k)) (.user q) s.time []
      takeRecords q n { s2 with userqs := updWhere (fun u => u.q == q) (fun u => { u with head := (u.head + 1) % 2 ^ 32 }) s2.userqs }

/-- KICK (R346): a release by the host agent that writes it, so that what the context's host agents have stored is at its home when the launch unit reads
(R250, R261). -/
def execKick (q : Nat) (tail : Word) (s0 : State) : Res :=
  finish (match s0.userqs.find? (fun u => u.q == q) with
    | none => s0
    | some u =>
      let s := drainHost s0 u.ctx
      let adv := (tail.toNat + 2 ^ 32 - u.tail) % 2 ^ 32
      if u.stopped || adv = 0 || 2 ^ 31 ≤ adv then s
      else if 2 ^ u.k < (tail.toNat + 2 ^ 32 - u.head) % 2 ^ 32 then
        enqueueReport { s with userqs := updWhere (fun u => u.q == q) (fun u => { u with stopped := true }) s.userqs } u.ctx
          { Report.blank with cls := 4, kind := 17, info := q }
      else takeRecords q adv { s with userqs := updWhere (fun u => u.q == q) (fun u => { u with tail := tail.toNat }) s.userqs })

/-- CDONE (R345, R347). -/
def execCdone (q : Nat) (n : Word) (s : State) : Res :=
  finish { s with userqs := updWhere (fun u => u.q == q) (fun u => { u with cdone := n.toNat }) s.userqs }

/-- A read of 4 bytes in the kick page of a queue: HEAD, CNEXT, and 0 at every other offset (R345). -/
def kickRead (s : State) (q offset : Nat) : Word :=
  match s.userqs.find? (fun u => u.q == q) with
  | none => 0
  | some u => if offset = 4 then BitVec.ofNat 32 u.head else if offset = 12 then BitVec.ofNat 32 u.cnext else 0

/-- A write of 4 bytes in the kick page of a queue: KICK, CDONE; one at another offset is ignored (R345). -/
def kickWrite (q offset : Nat) (x : Word) (s : State) : Res := if offset = 0 then execKick q x s else if offset = 8 then execCdone q x s else finish s

/-- Stores of a launch (R261). -/
def storesOf (s : State) (lk : Nat) : List Store :=
  s.stores.filter (fun e => match e.writer with | .index l _ => l == lk | .engine _ l _ => l == lk | _ => false)

/-- The oldest waiting record of a queue is written as one write, where the ring has room, by a release at sys scope of every store of the launch (R261, R347,
R400). -/
def writeCompletion (q : Nat) (s : State) : State :=
  match s.userqs.find? (fun u => u.q == q) with
  | none => s
  | some u => match u.waiting with
    | [] => s
    | r :: rest =>
      if 2 ^ u.k ≤ (u.cnext + 2 ^ 32 - u.cdone) % 2 ^ 32 then s
      else
        let bits := completionBits r ((u.cnext / 2 ^ u.k + 1) % 2) s.time
        let rel : RelRec := ⟨(storesOf s r.lk).map (fun e => e.id), hostScope s u.ctx⟩
        let s1 := (vWrite s u.ctx (u.cring + 32 * (u.cnext % 2 ^ u.k)) (toBytes 32 bits) (.system u.ctx) (some rel)).2
        let s2 := { s1 with userqs := updWhere (fun u => u.q == q) (fun u => { u with waiting := rest, cnext := (u.cnext + 1) % 2 ^ 32 }) s1.userqs }
        traceIn (if r.id = 0 then s2 else updLaunch s2 r.lk (fun l => { l with tend := s.time })) u.ctx r.id 9 noTeam r.status

/-- Every waiting record of a queue for which the ring has room is written (R347). -/
def writeCompletions (s : State) (q : Nat) : State :=
  (List.range (((s.userqs.find? (fun u => u.q == q)).map (fun u => u.waiting.length)).getD 0)).foldl (fun a _ => writeCompletion q a) s

/-- COMPLETION_WRITE. -/
def execCompletionWrite (q : Nat) (s : State) : Res := finish (writeCompletion q s)

/-- Whether a launch has ended: every index has retired and every operation has finished (R261, R321). -/
def launchEnded (s : State) (l : Launch) : Bool :=
  (l.begun || l.killed) && !l.complete && !s.strands.any (fun t => t.lk == l.lk) && !s.ops.any (fun o => o.lk == l.lk && !o.done)

/-- A launch that has ended completes: every entry of it drains, the dirty host-homed lines of its cores are written back, its resources are free, and its
completion record waits to be written (R261, R288). -/
def completeLaunch (lk : Nat) (s : State) : State :=
  match launchOf s lk with
  | none => s
  | some l =>
    if !launchEnded s l then s
    else
      let cores := (storesOf s lk).foldl (fun a e => match e.buf with | some c => insertNat a c | none => a) []
      let s1 := cores.foldl (fun a c => drainWhere a c (fun e => match e.writer with | .index l _ => l == lk | .engine _ l _ => l == lk | _ => false)) s
      let s1 := (s1.cores.filter (fun k => k.ctx == some l.ctx)).foldl (fun a k => releaseL1 k.num (hostScope s l.ctx) a) s1
      let s2 := { s1 with
        teams := s1.teams.filter (fun t => t.lk != lk), gangs := s1.gangs.filter (fun g => g.lk != lk)
        ops := s1.ops.filter (fun o => o.lk != lk), obs := s1.obs.filter (fun e => e.lk != lk), rels := s1.rels.filter (fun e => e.lk != lk)
        reads := s1.reads.filter (fun e => e.lk != lk), gsets := s1.gsets.filter (fun e => e.lk != lk)
        dies := s1.dies.map (fun d => { d with queues := d.queues.map (fun y => { y with accepted := y.accepted.filter (fun k => k != lk) }) }) }
      let s3 := updLaunch (freePool s2 l) lk (fun l => { l with complete := true, tend := s.time })
      if l.nocompl then s3 else queueCompletion s3 l.queue ⟨l.utag, l.id, l.status, l.faults, l.tstart, lk⟩

/-- LAUNCH_COMPLETE. -/
def execLaunchComplete (lk : Nat) (s : State) : Res := finish (completeLaunch lk s)

/-- CONTINUATION_TAKE: the launch unit takes the oldest filled entry of a B-die, validates it, and queues the launch or raises its fault (R183,
R184, R308). -/
def execContinuationTake (bdie : Nat) (s : State) : Res :=
  finish (match (bdieOf s bdie).contq with
    | [] => s
    | e :: rest =>
      if !intakeRoom s then s
      else takeTask (putBdie s { bdieOf s bdie with contq := rest }) e.ctx e.oid e.task (.cont e.old e.arg) e.addr e.old.toNat e.pc e.t0 e.acq)

/-- LAUNCH_INTAKE: the launch unit queues the task of a LAUNCH, whose release takes place here, or raises its fault (R232, R233, R260). -/
def execLaunchIntake (oid : Nat) (s : State) : Res :=
  finish (match opOf s oid with
    | none => s
    | some o => match o.body with
      | .launch task arg t0 =>
        if o.done || !intakeRoom s then s
        else
          let r : RelRec := ⟨obsUnion s o.lk o.idxs, scopeAt s o.lk o.team o.core .dev⟩
          let s1 := (coresNow s o).foldl (fun a c => publish a c r) s
          wakeJoins (endOp (takeTask s1 (ctxOfLaunch s o.lk) oid task (.task arg) 0 arg.toNat o.pc.toNat t0 r.set) oid) o.lk
      | _ => s)

end Sys2Proof.Machine
end

