-- ==== Sys2Proof/Machine/Scheduler.lean ====
section
/-! DEFINITION. The dispatchers: beginning launches, picking and placing gangs (R299 to R307, R316, R324, R337). -/

namespace Sys2Proof.Machine

/-! ### Room on the cores (R14, R305, R324) -/

/-- A strand stands on a core: it is placed and not saved; one that is benched stays there (R38, R41). -/
def standsOn (s : State) (core : Nat) (st : Strand) : Bool :=
  st.core == core && !st.pending && (match st.team.bind (teamOf s st.lk) with | some t => t.placed && !t.saved | none => true)

/-- It holds one of the core's strand slots (R38, R41). -/
def holdsSlot (s : State) (core : Nat) (st : Strand) : Bool := standsOn s core st && !st.benched

/-- A placed team of a core, less those that are ignored. -/
def teamsOn (s : State) (core : Nat) (gone : List (Nat × Nat)) : List Team :=
  s.teams.filter (fun t => t.core == core && t.placed && !t.saved && !gone.contains (t.lk, t.num))

/-- A team of the gang of a team has not ended, were some teams retired: its scratch stays (R174). -/
def gangAlive (s : State) (gone : List (Nat × Nat)) (t : Team) : Bool :=
  s.teams.any (fun x => x.lk == t.lk && !x.ended && !gone.contains (x.lk, x.num) && decide (x.num / gangWidth t.kernel = t.num / gangWidth t.kernel))

/-- A core holds a team or a strand of another context, benched ones among them, were some teams retired (R305, R324). -/
def foreignOn (s : State) (c : Nat) (gone : List (Nat × Nat)) (core : Nat) : Bool :=
  (teamsOn s core gone).any (fun t => !t.ended && ctxOfLaunch s t.lk != c) ||
    s.strands.any (fun st => standsOn s core st && ctxOfLaunch s st.lk != c && (match st.team with | some t => !gone.contains (st.lk, t) | none => true))

/-- What is free on a core for a gang of a context, were some teams retired (R305, R307). -/
def roomOf (s : State) (c : Nat) (gone : List (Nat × Nat)) (core : Nat) : Room :=
  let live := (teamsOn s core gone).filter (fun t => !t.ended)
  { core := core
    foreign := foreignOn s c gone core
    slots := Config.strandSlots - (s.strands.filter (fun st => holdsSlot s core st && (match st.team with | some t => !gone.contains (st.lk, t) | none => true))).length
    scratch := 262144 - ((teamsOn s core []).filter (gangAlive s gone)).foldl (fun a t => a + t.held) 0
    acc := (List.range 8).filter (fun k => !live.any (fun t => t.accSlots.contains k))
    lanes := (List.range 4).map (fun p => Config.partLanes -
      live.foldl (fun a t => a + ((t.sheafPart.zip t.lanes).filter (fun e => e.1 == p)).foldl (fun a e => a + e.2) 0) 0) }

/-- Whether the gang of a kernel fits on a cluster, were some teams retired. -/
def fitsCluster (s : State) (die c : Nat) (k : Kernel) (n : Nat) (gone : List (Nat × Nat)) (cl : Nat) : Option (List (Nat × List Nat × List Nat)) :=
  fitTeams k n ((clusterOf s die cl).map (roomOf s c gone))

/-! ### Placement (R306, R337) -/

/-- The lowest number that no other placed, unretired team of the launch holds (R225). -/
def lowestSlot (used : List Nat) : Nat := ((List.range (used.length + 1)).find? (fun k => !used.contains k)).getD 0

/-- A core takes teams of a context: where it changes context, its storages are cleared or written back (R204, R306, R337). -/
def claimCore (s : State) (core c : Nat) : State :=
  let k := coreOf s core
  if k.ctx = some c then s
  else
    let s1 := writeBackL1 core (fun _ => true) (drainWhere s core (fun _ => true))
    let k := coreOf s1 core
    putCore s1 { k with ctx := some c, wbuf := [], wbufPois := [], wlog := [], l1 := [] }

/-- A team at its placement: zero scratch, empty granules, clear tiles, the launch's layout records (R114, R175, R210, R231, R306). What the weight
buffer then holds is kept for it (R204), so that its MLOOPs observe those writes without a wait of their own (R214). -/
def freshTeam (s : State) (l : Launch) (num : Nat) (pl : Nat × List Nat × List Nat) (adv : Int) : Team :=
  { lk := l.lk, num := num, kernel := l.kernel, core := pl.1, sheafPart := pl.2.1, lanes := (List.range (windowCount l.kernel)).map (windowBudget l.kernel)
    held := l.kernel.scratch, accSlots := pl.2.2, scratch := [], full := [], scratchPois := [], dirtyBlocks := List.range ((l.kernel.scratch + 1023) / 1024), layout := startLayout l.kernel, tiles := List.replicate 8 Tile.clear, cmps := noCmps
    barParity := List.replicate 32 false
    slot := lowestSlot ((s.teams.filter (fun t => t.lk == l.lk && t.placed && !t.ended)).map (fun t => t.slot))
    charge := 0, adv := adv, preempt := false, reqAt := 0, fenced := (coreOf s pl.1).wlog.map (fun w => w.1), moulting := none, stopMask := none, saved := false, tileSaved := 0, gen := 0, stampBase := 0, savedAt := 0, record := 0, recordRoom := 0, recordLost := false, recordSids := [], wsave := [], wsavePois := [], wsaveLog := []
    placed := true, ended := false }

/-- Give the waits of a strand that has been divided to its parts: walks and translations answer them all. -/
def inheritWaits (s : State) (sid : Nat) (ids : List Nat) : State :=
  let f := fun (xs : List Nat) => if xs.contains sid then xs.filter (fun x => x != sid) ++ ids else xs
  { s with
    walkReqs := s.walkReqs.map (fun r => { r with sids := f r.sids })
    atsReqs := s.atsReqs.map (fun r => { r with sids := f r.sids })
    walkRes := s.walkRes.flatMap (fun r => if r.sid == sid then ids.map (fun i => { r with sid := i }) else [r]) }

/-- What some indices have left on a core is performed, and every entry of its buffer that they observe drains, so that a move changes no value (R249, R251, R263). -/
def leaveCore (s : State) (lk core : Nat) (is : List Nat) : State :=
  drainWhere (performFor s lk is s.nextId) core (fun e => is.any (fun i => observes s lk i e.id) || (match e.writer with | .index l i => l == lk && is.contains i | _ => false))

/-- Move a strand to its team's core: its indices leave the old one, and it is ready with the slot count there (R39, R249, R309). -/
def moveStrand (s : State) (sid : Nat) : State :=
  match strandOf s sid with
  | none => s
  | some st => match st.team.bind (teamOf s st.lk) with
    | none => s
    | some t =>
      let s0 := leavePorts s sid
      let s1 := if st.core = t.core then s0 else leaveCore s0 st.lk st.core (present st)
      match strandOf s1 sid with
      | none => s1
      | some st =>
        let st1 := { st with core := t.core, pending := false, benched := false, urgent := false, stamp := slotNow s1 }
        putStrand s1 { st1 with part := homePart s1 st1 }

/-- Hand the indices of a placed team over to it: its pending ranges, and those that pre-placement strands still hold; and the joins that waited for it are finished
(R39, R241, R316). -/
def handOver (s : State) (lk team : Nat) : State :=
  let ts := max 1 (tsizeOf s lk)
  let s1 := (s.strands.filter (fun st => st.lk == lk && st.team.isNone && decide (0 < overlap st (team * ts) ts))).foldl (fun a st =>
    let is := present st
    let mine := is.filter (fun i => decide (i / ts = team))
    let rest := is.filter (fun i => decide (i / ts ≠ team))
    let ps := (pieces (budgetOf a st) st mine).map (fun p => { p with team := some team, pending := true }) ++ pieces (budgetOf a st) st rest
    let (ids, a1) := replaceStrand a st.sid (sortByFirst ps)
    inheritWaits a1 st.sid ids) s
  finishRejoins (((s1.strands.filter (fun st => st.lk == lk && st.team == some team && st.pending)).map (fun st => st.sid)).foldl moveStrand s1) lk team

/-- A context holds cores of its partition: placed teams, or pre-placement strands. -/
def holdsCores (s : State) (c : Nat) : Bool :=
  s.teams.any (fun t => ctxOfLaunch s t.lk == c && t.placed && !t.ended && !t.saved) ||
    s.strands.any (fun st => ctxOfLaunch s st.lk == c && st.team.isNone && !st.pending)

/-- The slice of a context begins: a change of its PRIO or SLICE takes effect (R323, R340). -/
def beginSlice (s : State) (c : Nat) : State := updCtx s c (fun x => { x with held := false, sliceFrom := s.time, prioAt := x.prio, sliceAt := x.slice })

/-- A context takes cores: where it holds none, the time for which it has held them begins (R340). -/
def takeCores (s : State) (c : Nat) : State := if holdsCores s c then s else beginSlice s c

/-- The indices of a task start with an acquire at device scope on a core (R260, R267). -/
def acquireStart (core : Nat) (s : State) (l : Launch) (team : Option Nat) : State :=
  if l.acq.isEmpty then s else acquireL1 core (scopeAt s l.lk team core .dev) s

/-- GANG_PLACE (R306): every team is allocated before any of them starts. -/
def placeGang (s : State) (g : Gang) (die cl : Nat) (places : List (Nat × List Nat × List Nat)) (adv : Int) : State :=
  match launchOf s g.lk with
  | none => s
  | some l =>
    let nums := List.range' g.firstTeam (g.ntm1 + 1)
    let s1 := places.foldl (fun a p => acquireStart p.1 (claimCore a p.1 g.ctx) l none) (takeCores s g.ctx)
    let s2 := (nums.zip places).foldl (fun a e => { a with teams := a.teams.filter (fun t => !(t.lk == g.lk && t.num == e.1)) ++ [freshTeam a l e.1 e.2 adv] }) s1
    let s3 := { s2 with gangs := updWhere (fun x => x.lk == g.lk && x.num == g.num) (fun x => { x with state := 1, failed := 0 }) s2.gangs }
    let d := dieOf s3 die
    let s4 := if d.waitGang = some (g.lk, g.num) then putDie s3 { d with waitGang := none, held := none } else s3
    let s5 := nums.foldl (fun a t => handOver a g.lk t) s4
    -- a team whose indices had all retired receives its storage and no strand, and has ended (R300)
    let s6 := nums.foldl (fun a t => endTeams a g.lk (some t)) s5
    nums.foldl (fun a t => wakeTeam a g.lk (some t)) (traceRecord s6 g.lk 2 g.firstTeam (pack [(0, cl), (32, (places.headD (0, [], [])).1)]))

/-! ### The dispatcher (R303, R304, R307) -/

/-- Insertion sort by a key, ascending and stable. -/
def insertOn {α : Type} (key : α → Nat) (x : α) : List α → List α
  | [] => [x]
  | y :: ys => if key x ≤ key y then x :: y :: ys else y :: insertOn key x ys
def sortOn {α : Type} (key : α → Nat) (xs : List α) : List α := xs.foldr (insertOn key) []

/-- Whether the launch of a gang was killed, or it or its context does not run now (R340, R357, R378, R396). -/
def gangHeld (s : State) (g : Gang) : Bool :=
  frozen s g.lk || ((launchOf s g.lk).map (fun l => l.killed)).getD true || ((ctxOf s g.ctx).map (fun x => x.held)).getD true

/-- The pending gangs of a queue of a die, oldest first (R300, R304). -/
def pendingGangs (s : State) (die q : Nat) : List Gang :=
  sortOn (fun g => g.age) (s.gangs.filter (fun g => g.die == die && g.queue == q && g.state == 0 && !gangHeld s g))

/-- probe of R304: the hint's line is valid in its home slice, and not away (R286); a translation miss misses, and no cache state changes. -/
def probe (s : State) (die : Nat) (g : Gang) : Bool :=
  let hit := (s.cores.filter (fun k => dieOfCore k.num == die)).findSome? (fun k =>
    (k.tlb.find? (fun e => e.ctx == g.ctx && decide (e.page * 4096 ≤ g.hint) && decide (g.hint < e.page * 4096 + e.tr.size))).map (fun e => e.tr))
  match hit with
  | none => false
  | some t =>
    match lineTag (if t.host then .host g.ctx else .dev) (t.base + g.hint % t.size) with
    | none => false
    | some line => s.l2lines.any (fun l => !l.away && l2Is (homeSlice s (((ctxOf s g.ctx).map (fun x => x.part)).getD 0) (line % hostTag * 64)) line l)

/-- pick of R304: the gang, with the bypass counts after it, whether or not it is then placed (DEDUCED, log 36). -/
def pick (s : State) (die : Nat) (q : QueueReg) : Option (Gang × State) :=
  let c := (pendingGangs s die q.q).take 8
  match c with
  | [] => none
  | o :: _ =>
    if q.byplim = 0 || q.byplim ≤ o.bypass then some (o, s)
    else match c.find? (fun g => g.hint != 0 && probe s die g) with
      | none => some (o, s)
      | some g =>
        let older := c.filter (fun h => decide (h.age < g.age))
        some (g, { s with gangs := s.gangs.map (fun h => if older.any (fun x => x.lk == h.lk && x.num == h.num) then { h with bypass := h.bypass + 1 } else h) })

/-- A gang all of whose indices have retired before placement is dropped (R300), and no cluster is held for one that no longer waits (R307, R316). -/
def dropDead (s : State) : State :=
  let s1 := { s with gangs := s.gangs.map (fun (g : Gang) =>
      if g.state == 0 && (List.range' g.firstTeam (g.ntm1 + 1)).all (fun t => aliveIn s g.lk t == 0) then { g with state := 2 } else g) }
  { s1 with dies := s1.dies.map (fun (d : Die) =>
      if d.waitGang.any (fun w => !s1.gangs.any (fun g => g.die == d.num && g.lk == w.1 && g.num == w.2 && g.state == 0)) then { d with waitGang := none, held := none } else d) }

/-- The smallest number of resident teams of a cluster whose retirement would let the gang be placed there (R307). -/
def teamsInWay (s : State) (die : Nat) (g : Gang) (k : Kernel) (cl : Nat) : Option Nat :=
  let ts := (clusterOf s die cl).flatMap (fun c => (teamsOn s c []).map (fun t => (t.lk, t.num)))
  (List.range (ts.length + 1)).find? (fun n => (ts.sublistsLen n).any (fun gone => (fitsCluster s die g.ctx k (g.ntm1 + 1) gone cl).isSome))

/-- Mark waiting the oldest gang of a die that has failed on 16 successive visits, unless one waits there already, and hold a cluster for it (R307). -/
def markWaiting (s : State) (die : Nat) : State :=
  let d := dieOf s die
  match d.waitGang, (sortOn (fun g => g.age) (s.gangs.filter (fun g => g.die == die && g.state == 0 && decide (16 ≤ g.failed)))).head? with
  | none, some g =>
    (match (launchOf s g.lk).map (fun l => (List.range Config.clusters).filterMap (fun cl => (teamsInWay s die g l.kernel cl).map (fun n => (n, cl)))) with
    | some (x :: xs) => putDie s { d with waitGang := some (g.lk, g.num), held := some (xs.foldl (fun b y => if y.1 < b.1 then y else b) x).2 }
    | _ => s)
  | _, _ => s

/-- place of R305: the first cluster of the die in ascending order that takes every team, but for one held for another gang. Answers whether it did. -/
def place (s : State) (die : Nat) (g : Gang) (adv : Int) : Bool × State :=
  match launchOf s g.lk with
  | none => (false, s)
  | some l =>
    let d := dieOf s die
    let free := (List.range Config.clusters).filter (fun cl => d.held != some cl || d.waitGang == some (g.lk, g.num))
    -- an image that spills has a slot of its pool for each placed team (R355)
    let used := (s.teams.filter (fun t => t.lk == g.lk && t.placed && !t.ended)).length
    let free := match l.slots with | some p => if used + g.ntm1 + 1 ≤ p then free else [] | none => free
    match free.findSome? (fun cl => (fitsCluster s die g.ctx l.kernel (g.ntm1 + 1) [] cl).map (fun p => (cl, p))) with
    | some (cl, p) => (true, placeGang s g die cl p adv)
    | none => (false, s)

def queueOf (s : State) (die q : Nat) : Option QueueReg := (dieOf s die).queues.find? (fun x => x.q == q)
def updQueue (s : State) (die q : Nat) (f : QueueReg → QueueReg) : State :=
  let d := dieOf s die
  putDie s { d with queues := updWhere (fun x => x.q == q) f d.queues }

/-- What a visit of a queue has done: whether it has placed a gang, and the gang that it failed to place, if any. -/
abbrev Visit := Bool × Option (Nat × Nat)

/-- While the deficit is positive, pick and place (R303); fuel: the pending gangs. -/
def serveQueue (die q : Nat) : Nat → Bool → State → Visit × State
  | 0, b, s => ((b, none), s)
  | n + 1, b, s =>
    match queueOf s die q with
    | none => ((b, none), s)
    | some x =>
      if x.d ≤ 0 then ((b, none), s)
      else match pick s die x with
        | none => ((b, none), s)
        | some (g, s1) =>
          let (ok, s2) := place s1 die g x.a
          if !ok then ((b, some (g.lk, g.num)), s2) else serveQueue die q n true (updQueue s2 die q (fun y => { y with d := y.d - x.a * ((g.ntm1 : Int) + 1) }))

/-- After a visit of a queue, each gang of it has the number of successive visits on which it failed (R307). -/
def countFailed (s : State) (die q : Nat) (f : Option (Nat × Nat)) : State :=
  { s with gangs := updWhere (fun g => g.die == die && g.queue == q && g.state == 0) (fun g => { g with failed := if f = some (g.lk, g.num) then g.failed + 1 else 0 }) s.gangs }

/-- The visit of a queue in a pass (R303). Gangs of a context that does not run now are pending, and are not picked (R340). -/
def visitQueue (s : State) (die q : Nat) : Bool × State :=
  if !s.gangs.any (fun g => g.die == die && g.queue == q && g.state == 0) then (false, updQueue s die q (fun y => { y with d := 0 }))
  else
    let r := serveQueue die q (pendingGangs s die q).length false (updQueue s die q (fun y => { y with d := min (y.d + max 1 y.quantum) (max 1 y.quantum) }))
    (r.1.1, markWaiting (countFailed r.2 die q r.1.2) die)

/-- The visits of one priority class (R303). -/
def visitClass (s : State) (die p : Nat) : Bool × State :=
  let qs := sortOn id (((dieOf s die).queues.filter (fun x => x.en && x.prio == p)).map (fun x => x.q))
  qs.foldl (fun acc q => let (b, s1) := visitQueue acc.2 die q; (acc.1 || b, s1)) (false, s)

/-! ### Beginning a launch (R39, R296, R298, R299) -/

/-- Whether a core may take the grid strand of a context: a free strand slot and nothing of another context (R299, R324). -/
def seedCoreOk (s : State) (c core : Nat) : Bool :=
  let r := roomOf s c [] core
  !(coreOf s core).failed && !r.foreign && decide (0 < r.slots)

/-- The partition of a core with the fewest ready strands (R299). -/
def calmPart (s : State) (core : Nat) : Nat :=
  let n := fun p => (s.strands.filter (fun st => standsOn s core st && st.part == p && st.status == .ready && st.halted.isNone)).length
  (List.range 4).foldl (fun b p => if n p < n b then p else b) 0

/-- A launch begins: its grid strand starts on a seed core, or every team is pending and the gangs form. -/
def beginLaunch (s : State) (die : Nat) (l : Launch) : State :=
  let start := fun (s : State) => updLaunch s l.lk (fun l => { l with begun := true, beginSeq := s.drainSeq })
  let acquireTask := fun (s : State) => { s with obs := s.obs ++ l.acq.map (fun id => (⟨l.lk, 0, l.grid - 1, id⟩ : ObsEntry)) }
  match l.kernel.roles with
  | [r] =>
    (match (List.range' (die * Config.dieCores) Config.dieCores).find? (seedCoreOk s l.ctx) with
    | none => s
    | some core =>
      let s0 := acquireStart core (claimCore (acquireTask (start (takeCores s l.ctx))) core l.ctx) l none
      let (sid, s1) := fresh s0
      let p := calmPart s1 core
      { s1 with strands := s1.strands ++ [newStrand sid l.lk none r.role (entryPc l.kernel r) 0 l.grid core p (slotNow s1) l.presets] })
  | _ =>
    (List.range (teamsOfGrid l.grid l.kernel.tsize)).foldl (fun a t =>
      let (sts, a1) := roleStrands a l.lk t l.kernel (die * Config.dieCores) true l.presets
      formGang { a1 with strands := a1.strands ++ sts } l.lk t) (acquireTask (start s))

/-- The launch that a queue of a die begins next, in the order of acceptance of its context and queue (R298; DEDUCED, log 38), if its vector is pinned (R369). -/
def nextLaunch (s : State) (q : QueueReg) : Option Launch :=
  if !q.en then none
  else (q.accepted.head?).bind (fun lk => (launchOf s lk).bind (fun l =>
    let older := s.launches.any (fun x => x.ctx == l.ctx && x.queue == l.queue && !x.begun && !x.complete && !x.killed && decide (x.lk < lk))
    if l.killed || older || frozen s l.lk || l.features = 0 || ((ctxOf s l.ctx).map (fun x => x.held)).getD true then none else some l))

/-- Begin the launches of one queue of a die, in their order, while they can begin; fuel. -/
def beginQueue (die q : Nat) : Nat → State → State
  | 0, s => s
  | n + 1, s =>
    match (queueOf s die q).bind (nextLaunch s) with
    | none => s
    | some l =>
      let s1 := beginLaunch s die l
      if ((launchOf s1 l.lk).map (fun x => x.begun)).getD false then
        beginQueue die q n (updQueue s1 die q (fun q => { q with accepted := q.accepted.filter (fun k => k != l.lk) }))
      else s1

/-- Begin every launch that a die can begin: a queue whose next launch finds no seed core holds no other queue back (R298, R299). -/
def beginLaunches (s : State) (die : Nat) : State := ((dieOf s die).queues.map (fun q => q.q)).foldl (fun a q => beginQueue die q s.launches.length a) s

/-- DISPATCH_PASS: launches begin, and one pass of dispatch visits the classes from 3 down until one has placed a gang (R299, R303). -/
def execDispatchPass (die : Nat) (s : State) : Res :=
  finish (
    if !dieRuns s die then s
    else
    let s1 := dropDead (beginLaunches s die)
    ([3, 2, 1, 0].foldl (fun (acc : Bool × State) p => if acc.1 then acc else visitClass acc.2 die p) (false, s1)).2)

end Sys2Proof.Machine
end

