-- ==== Sys2Proof/Machine/BDies.lean ====
section
/-! DEFINITION. The base dies: packets, the memory-side cache, pseudo-channel counters, masks and swaps (R274 to R286, R301). -/

namespace Sys2Proof.Machine

/-! ### Packets (R274, R287) -/

/-- Lines of a request of 64 or 256 bytes. -/
def packetLines (pa : Nat) (wide : Bool) : List Nat := if wide then List.range' (pa / 256 * 4) 4 else [pa / 64]

/-- The packet of a slice with this tag that a B-die has still to serve (R274). -/
def packetOf (s : State) (slice : Nat) (tag : BitVec 10) (pa : Nat) (k : PacketKind → Bool) : Option Packet :=
  s.packets.find? (fun p => p.slice == slice && p.tag == some tag.toNat && p.pa == pa && k p.kind)

/-- A request for some lines waits its turn: those that came before it at the lines are served first (R275). -/
def settleLines (s : State) (ls : List Nat) : State := ls.foldl (fun a l => settleLine (l * 64) (inFlight a) a) s

/-- Adjacent pieces of bytes joined into runs. -/
def byteRuns : List (Nat × List Byte) → List (Nat × List Byte)
  | [] => []
  | (a, bs) :: r =>
    match byteRuns r with
    | (a', bs') :: t => if a' = a + bs.length then (a, bs ++ bs') :: t else (a, bs) :: (a', bs') :: t
    | [] => [(a, bs)]

/-- RD_PACKET: a read that a slice of the model has sent is served, when its turn at the line has come; any other is answered with data, or poison (R274, R275,
R388). -/
def execRdPacket (slice : Nat) (tag : BitVec 10) (pa : Nat) (wide : Bool) (key : BitVec 10) (s : State) : Res :=
  finish (
    if Config.deviceBytes ≤ pa then { s with badAddr := some pa }
    else match packetOf s slice tag pa (fun k => match k with | .rd => true | .engine _ _ w => !w | _ => false) with
      | some p => if servable s p then servePacket s p else s
      | none =>
        let ls := packetLines pa wide
        let s1 := ls.foldl (fun a l => touchLine a l false false) (settleLines s ls)
        let bs := if key = 0 then ls.flatMap (fun l => memGets s1.mem (l * 64) 64) else plainUnit s1 key.toNat (pa / 256)
        let bad := ls.any (fun l => s1.memPois.contains l)
        { s1 with
          out := s1.out ++ [if bad then .text "RD reply: poison" [tag.toNat] else .text "RD reply: data" (tag.toNat :: bs.map (fun b => b.toNat))] })

/-- WR_PACKET: a write-back that a slice of the model has sent is served, when its turn at the line has come; else the bytes that the mask names are written at their
home; under a key id the unit is enciphered (R274, R275, R287). -/
def execWrPacket (slice : Nat) (tag : BitVec 10) (pa : Nat) (mask : List Bool) (data : List Byte) (key : BitVec 10) (s : State) : Res :=
  finish (
    if Config.deviceBytes ≤ pa then { s with badAddr := some pa }
    else match packetOf s slice tag pa (fun k => match k with | .wr _ => true | .engine _ _ w => w | _ => false) with
      | some p => if servable s p then servePacket s p else s
      | none =>
        let wide := decide (64 < data.length)
        let base := if wide then pa / 256 * 256 else pa / 64 * 64
        let ls := packetLines pa wide
        let s1 := ls.foldl (fun a l => touchLine a l true (mask.all id)) (settleLines s ls)
        let bytes := if key = 0 then data else Config.encipher (keyUnder s key.toNat) (pa / 256) data
        let named := ((List.range bytes.length).zip (mask.zip bytes)).filterMap (fun e => if e.2.1 || key != 0 then some (base + e.1, [e.2.2]) else none)
        -- L2 is part of the home (R247): a write-back of bytes that stand there already is no new store
        let new := named.filter (fun e => [memGet s1.mem e.1] != e.2)
        let s2 := (byteRuns new).foldl (fun a r => (appendHome a .dev r.1 r.2 false (.system 0) none).2) s1
        { s2 with out := s2.out ++ [.text "WR acknowledged" [tag.toNat]] })

/-! ### Swaps (R282 to R285) -/

/-- SWAP_COMPLETE: the occupants have changed places: FAST is rewritten and BUSY clears, and a SWP that asked for the swap is answered (R284, R285). -/
def execSwapComplete (bdie group : Nat) (s : State) : Res :=
  finish (
    let b := bdieOf s bdie
    match b.swaps.find? (fun w => w.group == group) with
    | none => s
    | some w =>
      let b1 := putRemap { b with swaps := b.swaps.filter (fun w => w.group != group) } { remapOf b group with fast := w.slot, busy := false }
      putBdie { s with out := s.out ++ w.reply.toList.map (fun t => .text "SWP done" [t]) } b1)

/-- SWP_PACKET: a named slot is placed in the fast frame, and PIN set or cleared; the reply follows the swap. Busy, with no effect, while a swap of the group is in
progress (R285). Slot 3, which does not occur, and in seedling service, which uses capacity memory alone (R368), a slot that would have to move are answered in the same way (DESIGN
CHOICE, log 81). -/
def execSwpPacket (bdie : Nat) (tag : BitVec 10) (group slot : Nat) (pin : Bool) (s : State) : Res :=
  finish (
    let b := bdieOf s bdie
    let r := remapOf b group
    if r.busy || 2 < slot || (s.sec.boot == .seedling && r.fast ≠ slot) then { s with out := s.out ++ [.text "SWP busy" [tag.toNat]] }
    else
      let b1 := putRemap b { r with pin := pin }
      if r.fast = slot then putBdie { s with out := s.out ++ [.text "SWP done" [tag.toNat]] } b1
      else putBdie s (startSwap b1 group slot (some tag.toNat)))

/-- SWAP_EPOCH: at the end of an epoch every count is halved, and the next begins (R283). -/
def execSwapEpoch (bdie : Nat) (s : State) : Res :=
  finish (
    let b := bdieOf s bdie
    if s.time < b.epochEnd then s
    else
      let b1 := b.remap.foldl (fun a r => putRemap a { r with cnt := r.cnt.map (fun n => n / 2) }) b
      putBdie s { b1 with epochEnd := s.time + 1000 * max 1 (field b.swpctl 16 16) })

/-! ### Control registers (R279, R283, R301) -/

/-- Whether a mask may be written to HMASKk (R279). -/
def maskOk (k v : Nat) : Bool :=
  field v 0 8 == 0 && field v 41 23 == 0 && (List.range 6).all (fun j => bitOf v (8 + j) == (j == k))

/-- HMASK_WRITE: a refused write leaves every mask unchanged (R279). -/
def execHmaskWrite (bdie k : Nat) (v : DWord) (s : State) : Res :=
  finish (
    let b := bdieOf s bdie
    if k < 6 && maskOk k v.toNat then putBdie s { b with hmask := b.hmask.set k v.toNat } else s)

/-- A launch queue's register at creation; the advance Q / 4 is rounded down, which R303 does not say (R301, R303; DESIGN CHOICE, log 106). -/
def QueueReg.fresh (q c prio quantum : Nat) : QueueReg := ⟨q, true, prio, 16, c, quantum, 0, (max 1 quantum / 4 : Nat), []⟩

/-- A read of 8 bytes of a die's dispatcher: the configuration register of a launch queue from offset 0x1000 up, its deficit from 0x1800 up, and 0 where no queue has been created
(R301). -/
def dispatcherRead (s : State) (die offset : Nat) : DWord :=
  match queueOf s die (offset % 0x800 / 8) with
  | none => 0
  | some x =>
    if offset / 0x800 = 2 then BitVec.ofNat 64 (pack [(0, bit x.en), (1, x.prio), (8, x.byplim), (16, x.ctx), (32, x.quantum)])
    else if offset / 0x800 = 3 then BitVec.ofInt 64 x.d
    else 0

/-- REGISTER_WRITE: SWPCTL of a B-die, or the configuration register of a launch queue of a die; reserved bits read 0
(R283, R301). A write of SWPCTL begins an epoch of its own, as R283 gives the length of one and not where it begins (DESIGN CHOICE, log 104). -/
def execRegisterWrite (r : CtrlReg) (v : DWord) (s : State) : Res :=
  finish (match r with
    | .swpctl n =>
      let b := bdieOf s n
      putBdie s { b with swpctl := bit (bitOf v.toNat 0 && s.sec.boot == .full) + 2 ^ 8 * field v.toNat 8 24, epochEnd := s.time + 1000 * max 1 (field v.toNat 16 16) }
    | .queueCfg die q =>
      let set := fun (x : QueueReg) => { x with
        en := bitOf v.toNat 0, prio := field v.toNat 1 2, byplim := field v.toNat 8 8, ctx := field v.toNat 16 12, quantum := field v.toNat 32 32 }
      if (queueOf s die q).isSome then updQueue s die q set
      else
        let d := dieOf s die
        putDie s { d with queues := d.queues ++ [set (QueueReg.fresh q (field v.toNat 16 12) 0 (field v.toNat 32 32))] })

end Sys2Proof.Machine
end

