-- ==== Sys2Proof/WellFormed.lean ====
section
/-! DEFINITION. Which terms of `Instr` are instructions of Iteloc: the alignment of register groups (R54, R89), the pairs of CVT (R132), the sizes
that a literal may store (R162), and the reserved literals and sub-fields (R96, R213, R218, R225). An event is always well formed. -/

namespace Sys2Proof

/-- The even register of a pair vN:vN+1 (R89). -/
def pairReg (r : R11) : Bool := r.toNat % 2 == 0

/-- The first register of a group vN to vN+3 (R89). -/
def groupReg (r : R11) : Bool := r.toNat % 4 == 0

/-- A register operand, aligned as its bytes ask (R89). -/
def sizedReg (bytes : Nat) (r : R11) : Bool := if bytes = 16 then groupReg r else if bytes = 8 then pairReg r else true

/-- Operand b: a literal, or a register aligned as its bytes ask. -/
def sizedSrc (bytes : Nat) : Src → Bool
  | .reg r => sizedReg bytes r
  | .lit _ => true

/-- A literal stores 4 bytes at most (R162). -/
def litStores (bytes : Nat) : Src → Bool
  | .reg _ => true
  | .lit _ => decide (bytes ≤ 4)

/-- Bytes of an element of scheme I (R90): 8 for a pair. -/
def intBytes : IntTy → Nat
  | .i64 | .n64 => 8 | _ => 4

/-- Bytes of an element of scheme W (R91). -/
def wBytes : WTy → Nat
  | .w64 => 8 | _ => 4

/-- Bytes of an operand of scheme CI (R93). -/
def ciBytes : CiTy → Nat
  | .i64 | .n64 => 8 | _ => 4

/-- Bytes of the registers of a memory size (R94). -/
def memBytes : MemSz → Nat
  | .b64 => 8 | .b128 => 16 | _ => 4

/-- Bytes of a scratch access (R97). -/
def scrSzBytes : ScrSz → Nat
  | .b32 => 4 | .b64 => 8 | .b128 => 16

/-- A CVT type that is an integer, its width and whether it is signed (R95). -/
def cvtInt : CvtTy → Option (Nat × Bool)
  | .i8 => some (8, true) | .i16 => some (16, true) | .i32 => some (32, true) | .i64 => some (64, true)
  | .n8 => some (8, false) | .n16 => some (16, false) | .n32 => some (32, false) | .n64 => some (64, false)
  | _ => none

/-- Bytes of a CVT operand (R131). -/
def cvtBytes : CvtTy → Nat
  | .i64 | .n64 => 8 | _ => 4

/-- The destination range contains the source range (R59). -/
def rangeHolds (d s : Nat × Bool) : Bool :=
  match d.2, s.2 with
  | true, true | false, false => decide (s.1 ≤ d.1)
  | true, false => decide (s.1 < d.1)
  | false, true => false

/-- Tapered types (R95). -/
def cvtTapered : CvtTy → Bool
  | .t8 | .t16 | .t32 => true | _ => false

/-- The rounding codes that CVT accepts for a pair: whether codes other than 0 (R132); none: the pair is reserved. -/
def cvtRounds (d s : CvtTy) : Option Bool :=
  if d = s then none
  else match cvtInt d, cvtInt s with
    | some _, some _ => some false
    | some _, none => some true
    | none, some _ => if cvtTapered d then some false else some true
    | none, none =>
      if cvtTapered d then some false
      else some (d == .bf16)

/-- The pair, the rounding code and `.sat` that CVT accepts (R132). -/
def cvtOk (d s : CvtTy) (sat : Bool) (r : Rnd) : Bool :=
  (match cvtRounds d s with
    | none => false
    | some any => any || r == .rn) &&
  (!sat || (match cvtInt d, cvtInt s with
    | some x, some y => !rangeHolds x y
    | _, _ => false))

/-- MRD: a block of 0 to 7, no rounding code with a tapered target, `.sat` only to integers (R218). -/
def mrdTapered : MrdFmt → Bool
  | .t8 | .t16 | .t32 => true | _ => false
def mrdInt : MrdFmt → Bool
  | .i32 | .i8 => true | _ => false
def mrdOk (r : Rnd) (blk : BitVec 6) (f : MrdFmt) (sat : Bool) : Bool :=
  decide (blk.toNat ≤ 7) && (!mrdTapered f || r == .rn) && (!sat || mrdInt f)

/-- The selectors of R225. -/
def selectorOk (n : Nat) : Bool :=
  decide (n ≤ 0xE) || (decide (0x10 ≤ n) && decide (n ≤ 0x12)) || (decide (0x18 ≤ n) && decide (n ≤ 0x1A)) || (decide (0x20 ≤ n) && decide (n ≤ 0x22)) ||
    (decide (0x100 ≤ n) && decide (n < 0x180) && decide (n % 8 < 6)) || (decide (0x180 ≤ n) && decide (n < 0x188)) || decide (0x400 ≤ n)

/-- A branch offset (R96). -/
def offsetOk (w : Word) : Bool := w.toNat % 4 == 0

/-- A literal with a type that a pair carries needs no alignment; a register does. -/
def Instr.wellFormed : Instr → Bool
  | .addFull _ d a b t _ | .subFull _ d a b t _ | .mulFull _ d a b t _ | .divFull _ d a b t _ | .remFull _ d a b t _ =>
    sizedReg (intBytes t) d && sizedReg (intBytes t) a && sizedSrc (intBytes t) b
  | .minFull _ d a b t | .maxFull _ d a b t => sizedReg (intBytes t) d && sizedReg (intBytes t) a && sizedSrc (intBytes t) b
  | .madFull _ d a b c t => sizedReg (intBytes t) d && sizedReg (intBytes t) a && sizedSrc (intBytes t) b && sizedReg (intBytes t) c
  | .negFull _ d a t _ | .absFull _ d a t _ => sizedReg (intBytes t) d && sizedReg (intBytes t) a
  | .addkFull _ d a _ t _ => sizedReg (intBytes t) d && sizedReg (intBytes t) a
  | .shlkFull _ d a _ t | .shrkFull _ d a _ t | .sarkFull _ d a _ t => sizedReg (wBytes t) d && sizedReg (wBytes t) a
  | .shlFull _ d a _ t | .shrFull _ d a _ t | .sarFull _ d a _ t | .rotFull _ d a _ t => sizedReg (wBytes t) d && sizedReg (wBytes t) a
  | .clzFull _ d a t | .popcFull _ d a t | .brevFull _ d a t => sizedReg (wBytes t) d && sizedReg (wBytes t) a
  | .cmpFull _ a b _ t => sizedReg (ciBytes t) a && sizedSrc (ciBytes t) b
  | .cmpkFull _ a _ _ t => sizedReg (ciBytes t) a
  | .movFull _ d a wide => !wide || (pairReg d && pairReg a)
  | .cvt _ d a td ts sat r => cvtOk td ts sat r && sizedReg (cvtBytes td) d && sizedReg (cvtBytes ts) a
  | .qdrop _ k => decide (1 ≤ k.toNat) && decide (k.toNat ≤ 8)
  | .ballot _ d _ => pairReg d
  | .ld _ d a _ z _ => pairReg a && sizedReg (memBytes z) d
  | .st _ a b _ z _ => pairReg a && sizedSrc (memBytes z) b && litStores (memBytes z) b
  | .lda _ d a _ wide _ => pairReg a && (!wide || pairReg d)
  | .stl _ a b _ wide _ => pairReg a && sizedSrc (if wide then 8 else 4) b && litStores (if wide then 8 else 4) b
  | .cst _ _ a b wide _ => pairReg a && sizedSrc (if wide then 8 else 4) b && litStores (if wide then 8 else 4) b
  | .lds _ d _ _ z _ => sizedReg (scrSzBytes z) d
  | .sts _ _ b _ z _ => sizedSrc (scrSzBytes z) b && litStores (scrSzBytes z) b
  | .atGlobal _ _ a _ _ _ => pairReg a
  | .cas _ _ a _ _ _ => pairReg a
  | .atc _ d a _ _ => pairReg d && pairReg a
  | .pref _ a _ => pairReg a
  | .br _ off | .call _ off => offsetOk off
  | .brw _ _ level off => decide (level.toNat ≤ 4) && offsetOk off
  | .mloop _ _ _ w _ ks _ incB => decide (ks.toNat ≠ 0) && !(incB && (match w with | .lit _ => true | .reg _ => false))
  | .mrd _ _ _ _ r blk f sat => mrdOk r blk f sat
  | .dld _ _ a _ => pairReg a
  | .dst _ _ a _ => pairReg a
  | .sread _ _ k => selectorOk k.toNat
  | .cbrk _ _ _ _ cond _ _ => decide (cond.toNat ≠ 6)
  | _ => true

end Sys2Proof
end

