-- ==== Sys2Proof/Decode.lean ====
section
/-! DEFINITION. Decoding of instruction bytes (R82 to R99) and encoding. The checks of R98 stand in their order, each with its number. -/

namespace Sys2Proof

open Sys2Proof.Machine (bitOf field bit ofBytes toBytes)

/-- Layouts (R82). -/
inductive Layout where
  | compact | full | lit
  deriving DecidableEq, Repr

/-- The fields of an instruction (R85 to R88): e is B, g is the guard field, bb is operand field b. Where a layout lacks a field it holds 0. -/
structure Fields where
  lay : Layout
  e : Bool
  g : Nat
  op : Nat
  d : Nat
  a : Nat
  bb : Nat
  c : Nat
  fn : Nat
  lit : Nat
  deriving DecidableEq, Repr

/-- Why bytes are no instruction: the checks of R98, by the numbers of R406, and bytes that are missing. -/
inductive Reject where
  | reservedLength | reservedGuard | reservedOp | literalRefused | literalMissing | literalAndB | reservedFn | badField | misaligned | reservedValue
  | truncated
  deriving DecidableEq, Repr

/-- The check number of R98 (0: bytes are missing). -/
def Reject.number : Reject → Nat
  | .reservedLength => 1 | .reservedGuard => 2 | .reservedOp => 3 | .literalRefused => 4 | .literalMissing => 5 | .literalAndB => 6
  | .reservedFn => 7 | .badField => 8 | .misaligned => 9 | .reservedValue => 10 | .truncated => 0

/-- What decoding answers. -/
inductive Decoded where
  | ok (i : Instr) (len : Nat)
  | reject (r : Reject)
  deriving DecidableEq, Repr

/-! ### Codes of the modifiers (R62, R90 to R97) -/

def intTy (n : Nat) : IntTy := match n % 8 with | 0 => .i32 | 1 => .n32 | 2 => .i16 | 3 => .n16 | 4 => .i8 | 5 => .n8 | 6 => .i64 | _ => .n64
def intCode : IntTy → Nat | .i32 => 0 | .n32 => 1 | .i16 => 2 | .n16 => 3 | .i8 => 4 | .n8 => 5 | .i64 => 6 | .n64 => 7
def wTy (n : Nat) : WTy := match n % 8 with | 0 => .w32 | 2 => .w16 | 4 => .w8 | _ => .w64
def wCode : WTy → Nat | .w32 => 0 | .w16 => 2 | .w8 => 4 | .w64 => 6
def rndOf (n : Nat) : Rnd := match n % 4 with | 0 => .rn | 1 => .rz | 2 => .rd | _ => .ru
def rndCode : Rnd → Nat | .rn => 0 | .rz => 1 | .rd => 2 | .ru => 3
def realTy (n : Nat) : RealTy := match n with | 0 => .f32 | 4 => .bf16 | 8 => .t32 | 9 => .t16 | _ => .t8
def realCode : RealTy → Nat | .f32 => 0 | .bf16 => 4 | .t32 => 8 | .t16 => 9 | .t8 => 10
def realMod (n : Nat) : RealMod := if n < 4 then .f32 (rndOf n) else if n < 8 then .bf16 (rndOf n) else if n = 8 then .t32 else if n = 9 then .t16 else .t8
def realModCode : RealMod → Nat | .f32 r => rndCode r | .bf16 r => 4 + rndCode r | .t32 => 8 | .t16 => 9 | .t8 => 10
def condOf (n : Nat) : Cond := match n % 4 with | 0 => .eq | 1 => .ne | 2 => .lt | _ => .ge
def condCode : Cond → Nat | .eq => 0 | .ne => 1 | .lt => 2 | .ge => 3
def ciTy (n : Nat) : CiTy := match n % 4 with | 0 => .i32 | 1 => .n32 | 2 => .i64 | _ => .n64
def ciCode : CiTy → Nat | .i32 => 0 | .n32 => 1 | .i64 => 2 | .n64 => 3
def cfTy (n : Nat) : CfTy := match n % 4 with | 0 => .f32 | 1 => .bf16 | 2 => .t16 | _ => .t8
def cfCode : CfTy → Nat | .f32 => 0 | .bf16 => 1 | .t16 => 2 | .t8 => 3
def memSz (n : Nat) : MemSz := match n % 8 with | 0 => .n8 | 1 => .i8 | 2 => .n16 | 3 => .i16 | 4 => .b32 | 5 => .b64 | _ => .b128
def memCode : MemSz → Nat | .n8 => 0 | .i8 => 1 | .n16 => 2 | .i16 => 3 | .b32 => 4 | .b64 => 5 | .b128 => 6
def scrSz (n : Nat) : ScrSz := match n % 4 with | 0 => .b32 | 1 => .b64 | _ => .b128
def scrCode : ScrSz → Nat | .b32 => 0 | .b64 => 1 | .b128 => 2
def ldsQual (n : Nat) : LdsQual := match n / 4 with | 0 => .plain | 1 => .wait | _ => .take
def ldsCode : LdsQual → Nat | .plain => 0 | .wait => 1 | .take => 2
def stsQual (n : Nat) : StsQual := match n / 4 with | 0 => .plain | 1 => .fill | _ => .set
def stsCode : StsQual → Nat | .plain => 0 | .fill => 1 | .set => 2
def scopeAt (n : Nat) : Scope := match n % 8 with | 0 => .team | 1 => .gang | 2 => .die | 3 => .dev | _ => .sys
def scopeCode : Scope → Nat | .team => 0 | .gang => 1 | .die => 2 | .dev => 3 | .sys => 4
def atOf (n : Nat) : AtOp := match n % 8 with | 0 => .add | 1 => .and | 2 => .or | 3 => .xor | 4 => .min | 5 => .max | _ => .swap
def atCode : AtOp → Nat | .add => 0 | .and => 1 | .or => 2 | .xor => 3 | .min => 4 | .max => 5 | .swap => 6
def shflOf (n : Nat) : ShflMode := match n with | 0 => .up | 1 => .down | 2 => .xor | _ => .idx
def shflCode : ShflMode → Nat | .up => 0 | .down => 1 | .xor => 2 | .idx => 3
def redOf (n : Nat) : RedOp :=
  match n with | 0 => .add | 1 => .min | 2 => .max | 3 => .minu | 4 => .maxu | 5 => .and | 6 => .or | 7 => .xor | 8 => .fadd | 9 => .fmin | _ => .fmax
def redCode : RedOp → Nat
  | .add => 0 | .min => 1 | .max => 2 | .minu => 3 | .maxu => 4 | .and => 5 | .or => 6 | .xor => 7 | .fadd => 8 | .fmin => 9 | .fmax => 10
def fenceKind (n : Nat) : FenceKind := match n / 5 with | 0 => .rel | 1 => .acq | _ => .sc
def fenceCode : FenceKind → Nat | .rel => 0 | .acq => 1 | .sc => 2
def mrdFmt (n : Nat) : MrdFmt := match n % 8 with | 0 => .t8 | 1 => .t16 | 2 => .t32 | 3 => .f32 | 4 => .bf16 | 5 => .i32 | _ => .i8
def mrdCode : MrdFmt → Nat | .t8 => 0 | .t16 => 1 | .t32 => 2 | .f32 => 3 | .bf16 => 4 | .i32 => 5 | .i8 => 6
def cvtTy (n : Nat) : CvtTy :=
  match n % 32 with
  | 0 => .i8 | 1 => .i16 | 2 => .i32 | 3 => .i64 | 4 => .n8 | 5 => .n16 | 6 => .n32 | 7 => .n64 | 8 => .f32 | 9 => .bf16 | 10 => .t8 | 11 => .t16 | _ => .t32
def cvtTyCode : CvtTy → Nat
  | .i8 => 0 | .i16 => 1 | .i32 => 2 | .i64 => 3 | .n8 => 4 | .n16 => 5 | .n32 => 6 | .n64 => 7 | .f32 => 8 | .bf16 => 9 | .t8 => 10 | .t16 => 11 | .t32 => 12

/-! ### The opcode map (R89, R96) -/

/-- Kinds of operand fields (R89): lit is the literal of the 96-bit form only; kEngine, kMrd, kMask and kCbrk are immediates with sub-fields. -/
inductive Kind where
  | no | v | vn | q | j | w | s | m | n | k | lit | kEngine | kMrd | kMask | kCbrk
  deriving DecidableEq, Repr

/-- Schemes of the modifier field (R90 to R97). -/
inductive Scheme where
  | zero | any | iSat | iPlain | mulh | dp4 | w | mov | f | fPlain | fShort | cvt | shfl | red | mem | memSt | ordered | orderedSt | cst | scr | scrSt
  | ats | at | cas | fence | bar | se | mloop | mrd
  deriving DecidableEq, Repr

/-- A row of the opcode map. -/
structure OpRow where
  d : Kind
  a : Kind
  b : Kind
  c : Kind
  fn : Scheme
  deriving DecidableEq, Repr

/-- The opcode map (R96): none for a reserved op. -/
def opRow (op : Nat) : Option OpRow :=
  match op with
  | 0x01 => some ⟨.v, .v, .v, .no, .iSat⟩
  | 0x02 => some ⟨.v, .v, .v, .no, .iSat⟩
  | 0x03 => some ⟨.v, .v, .v, .no, .iSat⟩
  | 0x04 => some ⟨.v, .v, .v, .no, .mulh⟩
  | 0x05 => some ⟨.v, .v, .v, .v, .iPlain⟩
  | 0x06 => some ⟨.v, .v, .no, .no, .iSat⟩
  | 0x07 => some ⟨.v, .v, .no, .no, .iSat⟩
  | 0x08 => some ⟨.v, .v, .v, .no, .iPlain⟩
  | 0x09 => some ⟨.v, .v, .v, .no, .iPlain⟩
  | 0x0A => some ⟨.v, .v, .v, .no, .iSat⟩
  | 0x0B => some ⟨.v, .v, .v, .no, .iSat⟩
  | 0x0C => some ⟨.v, .v, .no, .k, .iSat⟩
  | 0x0D => some ⟨.v, .v, .no, .k, .w⟩
  | 0x0E => some ⟨.v, .v, .no, .k, .w⟩
  | 0x0F => some ⟨.v, .v, .no, .k, .w⟩
  | 0x10 => some ⟨.v, .v, .v, .no, .zero⟩
  | 0x11 => some ⟨.v, .v, .v, .no, .zero⟩
  | 0x12 => some ⟨.v, .v, .v, .no, .zero⟩
  | 0x13 => some ⟨.v, .v, .no, .no, .zero⟩
  | 0x14 => some ⟨.v, .v, .v, .no, .zero⟩
  | 0x15 => some ⟨.v, .v, .v, .no, .w⟩
  | 0x16 => some ⟨.v, .v, .v, .no, .w⟩
  | 0x17 => some ⟨.v, .v, .v, .no, .w⟩
  | 0x18 => some ⟨.v, .v, .v, .no, .w⟩
  | 0x19 => some ⟨.v, .v, .no, .no, .w⟩
  | 0x1A => some ⟨.v, .v, .no, .no, .w⟩
  | 0x1B => some ⟨.v, .v, .no, .no, .w⟩
  | 0x1C => some ⟨.v, .v, .v, .v, .zero⟩
  | 0x1D => some ⟨.v, .v, .v, .v, .zero⟩
  | 0x20 => some ⟨.no, .v, .v, .no, .any⟩
  | 0x21 => some ⟨.no, .v, .no, .k, .any⟩
  | 0x22 => some ⟨.no, .v, .v, .no, .any⟩
  | 0x23 => some ⟨.no, .v, .v, .no, .zero⟩
  | 0x24 => some ⟨.v, .v, .v, .no, .any⟩
  | 0x25 => some ⟨.v, .v, .no, .no, .mov⟩
  | 0x26 => some ⟨.v, .no, .no, .k, .zero⟩
  | 0x30 => some ⟨.v, .v, .v, .no, .f⟩
  | 0x31 => some ⟨.v, .v, .v, .no, .f⟩
  | 0x32 => some ⟨.v, .v, .v, .no, .f⟩
  | 0x33 => some ⟨.v, .v, .v, .v, .f⟩
  | 0x34 => some ⟨.v, .v, .v, .no, .fPlain⟩
  | 0x35 => some ⟨.v, .v, .v, .no, .fPlain⟩
  | 0x36 => some ⟨.v, .v, .no, .no, .fPlain⟩
  | 0x37 => some ⟨.v, .v, .no, .no, .fPlain⟩
  | 0x38 => some ⟨.v, .v, .v, .no, .fShort⟩
  | 0x40 => some ⟨.v, .v, .no, .no, .fShort⟩
  | 0x41 => some ⟨.v, .v, .no, .no, .fShort⟩
  | 0x42 => some ⟨.v, .v, .no, .no, .fShort⟩
  | 0x43 => some ⟨.v, .v, .no, .no, .fShort⟩
  | 0x44 => some ⟨.v, .v, .no, .no, .fShort⟩
  | 0x46 => some ⟨.v, .v, .no, .no, .f⟩
  | 0x48 => some ⟨.v, .v, .no, .k, .cvt⟩
  | 0x50 => some ⟨.v, .v, .v, .v, .dp4⟩
  | 0x60 => some ⟨.no, .q, .no, .no, .zero⟩
  | 0x61 => some ⟨.no, .q, .no, .no, .zero⟩
  | 0x62 => some ⟨.no, .q, .q, .no, .zero⟩
  | 0x63 => some ⟨.no, .q, .q, .no, .zero⟩
  | 0x64 => some ⟨.no, .q, .q, .no, .zero⟩
  | 0x65 => some ⟨.no, .no, .no, .k, .zero⟩
  | 0x66 => some ⟨.v, .q, .no, .no, .zero⟩
  | 0x67 => some ⟨.v, .v, .v, .no, .shfl⟩
  | 0x68 => some ⟨.v, .v, .no, .no, .red⟩
  | 0x69 => some ⟨.v, .v, .no, .no, .red⟩
  | 0x6A => some ⟨.v, .v, .v, .no, .zero⟩
  | 0x6B => some ⟨.v, .v, .no, .no, .zero⟩
  | 0x80 => some ⟨.v, .v, .no, .k, .mem⟩
  | 0x81 => some ⟨.no, .v, .v, .k, .memSt⟩
  | 0x82 => some ⟨.v, .v, .no, .k, .ordered⟩
  | 0x83 => some ⟨.no, .v, .v, .k, .orderedSt⟩
  | 0x84 => some ⟨.v, .v, .v, .no, .cst⟩
  | 0x85 => some ⟨.v, .v, .no, .k, .scr⟩
  | 0x86 => some ⟨.no, .v, .v, .k, .scrSt⟩
  | 0x87 => some ⟨.v, .v, .v, .no, .ats⟩
  | 0x88 => some ⟨.v, .v, .v, .no, .at⟩
  | 0x89 => some ⟨.v, .v, .v, .v, .cas⟩
  | 0x8A => some ⟨.v, .v, .v, .v, .zero⟩
  | 0x8B => some ⟨.v, .v, .no, .no, .zero⟩
  | 0x8C => some ⟨.no, .v, .v, .no, .zero⟩
  | 0x8D => some ⟨.no, .no, .no, .no, .fence⟩
  | 0x8E => some ⟨.no, .v, .no, .k, .zero⟩
  | 0xA0 => some ⟨.no, .no, .no, .no, .zero⟩
  | 0xA1 => some ⟨.no, .no, .lit, .no, .zero⟩
  | 0xA2 => some ⟨.no, .w, .lit, .k, .zero⟩
  | 0xA3 => some ⟨.no, .no, .lit, .no, .zero⟩
  | 0xA4 => some ⟨.no, .no, .no, .no, .zero⟩
  | 0xA5 => some ⟨.no, .no, .no, .no, .zero⟩
  | 0xA6 => some ⟨.j, .no, .no, .no, .zero⟩
  | 0xA7 => some ⟨.j, .vn, .vn, .no, .zero⟩
  | 0xA8 => some ⟨.no, .no, .no, .k, .bar⟩
  | 0xA9 => some ⟨.n, .n, .n, .n, .zero⟩
  | 0xAA => some ⟨.no, .no, .no, .no, .zero⟩
  | 0xAB => some ⟨.w, .s, .no, .no, .zero⟩
  | 0xAC => some ⟨.no, .v, .no, .no, .zero⟩
  | 0xB0 => some ⟨.no, .s, .v, .kEngine, .se⟩
  | 0xB1 => some ⟨.no, .no, .no, .no, .zero⟩
  | 0xB2 => some ⟨.m, .v, .v, .k, .mloop⟩
  | 0xB3 => some ⟨.m, .no, .no, .no, .zero⟩
  | 0xB4 => some ⟨.v, .m, .v, .kMrd, .mrd⟩
  | 0xB5 => some ⟨.m, .no, .no, .no, .zero⟩
  | 0xB6 => some ⟨.no, .no, .no, .kMask, .zero⟩
  | 0xB7 => some ⟨.s, .v, .no, .k, .zero⟩
  | 0xB8 => some ⟨.s, .v, .no, .k, .zero⟩
  | 0xC0 => some ⟨.v, .no, .no, .k, .zero⟩
  | 0xC1 => some ⟨.no, .no, .no, .k, .zero⟩
  | 0xC2 => some ⟨.no, .no, .no, .k, .zero⟩
  | 0xC3 => some ⟨.no, .v, .v, .no, .zero⟩
  | 0xC4 => some ⟨.no, .v, .v, .no, .zero⟩
  | 0xC5 => some ⟨.v, .vn, .v, .kCbrk, .zero⟩
  | _ => none

/-- A field's value is one of its kind (R89): unused high bits and unused fields are 0. The bits of a `k` field that its row lists nothing for count as such unused
bits, check 8, and the fields a and b of a CBRK with cond 7 may hold any register or literal, since its row lists them (DESIGN CHOICE, log 74). -/
def kindOk (k : Kind) (x : Nat) : Bool :=
  match k with
  | .no | .lit => x == 0
  | .v | .vn | .n | .k => true
  | .q | .m => decide (x < 8)
  | .j | .w => decide (x < 16)
  | .s => decide (x < 32)
  | .kEngine => decide (x < 4)
  | .kMrd => field x 6 3 == 0
  | .kMask => decide (x < 256)
  | .kCbrk => decide (x < 64)

/-- The codes of scheme F (R92). -/
def realFn (n : Nat) : Bool := decide (n < 8) || n == 8 || n == 9 || n == 10

/-- A modifier value is assigned (R90 to R97, R123, R132, R162, R218): check 7. So is a type pair of CVT in its field c (R95: DESIGN CHOICE, log 74). -/
def fnOk (f : Fields) : Scheme → Bool
  | .zero => f.fn == 0
  | .any | .iSat => true
  | .iPlain => decide (f.fn < 8)
  | .mulh => decide (f.fn < 2)
  | .dp4 => f.fn == 4 || f.fn == 5
  | .w => f.fn == 0 || f.fn == 2 || f.fn == 4 || f.fn == 6
  | .mov => f.fn == 0 || f.fn == 6
  | .f => realFn f.fn
  | .fPlain => f.fn == 0 || f.fn == 4 || f.fn == 8 || f.fn == 9 || f.fn == 10
  | .fShort => f.fn == 0 || f.fn == 4
  | .cvt => decide (f.fn < 4) && decide (field f.c 0 5 ≤ 12) && decide (field f.c 5 5 ≤ 12) &&
      cvtOk (cvtTy (f.c / 32)) (cvtTy f.c) (bitOf f.c 10) (rndOf f.fn)
  | .shfl => decide (f.fn < 4)
  | .red => decide (f.fn ≤ 10)
  | .mem => f.fn % 8 != 7
  | .memSt => f.fn % 8 != 7 && (f.lay != .lit || decide (f.fn % 8 ≤ 4))
  | .ordered => decide (f.fn % 8 < 5)
  | .orderedSt => decide (f.fn % 8 < 5) && (f.lay != .lit || decide (f.fn < 8))
  | .cst => f.lay != .lit || decide (f.fn < 8)
  | .scr => f.fn % 4 != 3 && decide (f.fn < 12)
  | .scrSt => f.fn % 4 != 3 && decide (f.fn < 12) && (f.lay != .lit || f.fn % 4 == 0)
  | .ats => decide (f.fn < 7)
  | .at => f.fn % 8 != 7
  | .cas => f.fn % 8 == 0
  | .fence => decide (f.fn < 15)
  | .bar => decide (f.fn < 2)
  | .se | .mloop => decide (f.fn < 4)
  | .mrd => f.fn % 8 != 7 && (decide (f.fn < 8) || f.fn % 8 == 5 || f.fn % 8 == 6)

/-- Every register group is aligned (R54, R89): check 9. -/
def alignedOk (f : Fields) : Bool :=
  let al := fun (bytes x : Nat) => if bytes = 16 then x % 4 == 0 else if bytes = 8 then x % 2 == 0 else true
  let i := intBytes (intTy f.fn)
  let w := wBytes (wTy f.fn)
  let ci := ciBytes (ciTy f.fn)
  let wd := if 8 ≤ f.fn then 8 else 4
  if f.op ∈ [0x01, 0x02, 0x03, 0x05, 0x06, 0x07, 0x08, 0x09, 0x0A, 0x0B] then al i f.d && al i f.a && al i f.bb && al i f.c
  else if f.op = 0x0C then al i f.d && al i f.a
  else if f.op ∈ [0x0D, 0x0E, 0x0F, 0x15, 0x16, 0x17, 0x18, 0x19, 0x1A, 0x1B, 0x25] then al w f.d && al w f.a
  else if f.op = 0x20 then al ci f.a && al ci f.bb
  else if f.op = 0x21 then al ci f.a
  else if f.op = 0x48 then al (cvtBytes (cvtTy (f.c / 32))) f.d && al (cvtBytes (cvtTy f.c)) f.a
  else if f.op = 0x66 then al 8 f.d
  else if f.op = 0x80 then al 8 f.a && al (memBytes (memSz f.fn)) f.d
  else if f.op = 0x81 then al 8 f.a && al (memBytes (memSz f.fn)) f.bb
  else if f.op = 0x82 then al 8 f.a && al wd f.d
  else if f.op = 0x83 || f.op = 0x84 then al 8 f.a && al wd f.bb
  else if f.op = 0x85 then al (scrSzBytes (scrSz f.fn)) f.d
  else if f.op = 0x86 then al (scrSzBytes (scrSz f.fn)) f.bb
  else if f.op = 0x8A then al 8 f.d && al 8 f.a
  else if f.op ∈ [0x88, 0x89, 0x8E, 0xB7, 0xB8] then al 8 f.a
  else true

/-- No literal and no sub-field of an immediate holds a reserved value (R96, R213, R218, R225, R231): check 10. -/
def valueOk (f : Fields) : Bool :=
  match f.op with
  | 0x65 => decide (1 ≤ f.c) && decide (f.c ≤ 8)
  | 0xA1 | 0xA3 => f.lit % 4 == 0
  | 0xA2 => f.lit % 4 == 0 && decide (f.c ≤ 4)
  | 0xA8 => decide (f.c < 16)
  | 0xB2 => f.c % 64 != 0 && (f.lay != .lit || decide (f.fn < 2))
  | 0xB4 => decide (f.c % 64 ≤ 7) && (decide (3 ≤ f.fn % 8) || field f.c 9 2 == 0)
  | 0xC0 => selectorOk f.c
  | 0xC5 => f.c % 8 != 6
  | _ => true

/-! ### Building the instruction -/

def r6 (n : Nat) : R6 := BitVec.ofNat 6 n
def r11 (n : Nat) : R11 := BitVec.ofNat 11 n

/-- The guard of R85. -/
def guardOf (g : Nat) : Guard := if g < 16 then .none else .q (bitOf g 3) (BitVec.ofNat 3 g)

/-- Operand b: the literal of the 96-bit layout, or a register (R88). -/
def Fields.src (f : Fields) : Src := if f.lay = .lit then .lit (BitVec.ofNat 32 f.lit) else .reg (r11 f.bb)

/-- The instruction of a compact word whose checks have passed. -/
def buildCompact (f : Fields) (h : Hdr) : Option Instr :=
  match f.op with
  | 0x01 => some (.add h (r6 f.d) (r6 f.a) (r6 f.bb))
  | 0x02 => some (.sub h (r6 f.d) (r6 f.a) (r6 f.bb))
  | 0x03 => some (.mul h (r6 f.d) (r6 f.a) (r6 f.bb))
  | 0x04 => some (.mulh h (r6 f.d) (r6 f.a) (r6 f.bb))
  | 0x05 => some (.mad h (r6 f.d) (r6 f.a) (r6 f.bb))
  | 0x06 => some (.neg h (r6 f.d) (r6 f.a))
  | 0x07 => some (.abs h (r6 f.d) (r6 f.a))
  | 0x08 => some (.min h (r6 f.d) (r6 f.a) (r6 f.bb))
  | 0x09 => some (.max h (r6 f.d) (r6 f.a) (r6 f.bb))
  | 0x0A => some (.div h (r6 f.d) (r6 f.a) (r6 f.bb))
  | 0x0B => some (.rem h (r6 f.d) (r6 f.a) (r6 f.bb))
  | 0x0C => some (.addk h (r6 f.d) (r6 f.a) (r6 f.c))
  | 0x0D => some (.shlk h (r6 f.d) (r6 f.a) (r6 f.c))
  | 0x0E => some (.shrk h (r6 f.d) (r6 f.a) (r6 f.c))
  | 0x0F => some (.sark h (r6 f.d) (r6 f.a) (r6 f.c))
  | 0x10 => some (.and h (r6 f.d) (r6 f.a) (r6 f.bb))
  | 0x11 => some (.or h (r6 f.d) (r6 f.a) (r6 f.bb))
  | 0x12 => some (.xor h (r6 f.d) (r6 f.a) (r6 f.bb))
  | 0x13 => some (.not h (r6 f.d) (r6 f.a))
  | 0x14 => some (.andn h (r6 f.d) (r6 f.a) (r6 f.bb))
  | 0x15 => some (.shl h (r6 f.d) (r6 f.a) (r6 f.bb))
  | 0x16 => some (.shr h (r6 f.d) (r6 f.a) (r6 f.bb))
  | 0x17 => some (.sar h (r6 f.d) (r6 f.a) (r6 f.bb))
  | 0x18 => some (.rot h (r6 f.d) (r6 f.a) (r6 f.bb))
  | 0x19 => some (.clz h (r6 f.d) (r6 f.a))
  | 0x1A => some (.popc h (r6 f.d) (r6 f.a))
  | 0x1B => some (.brev h (r6 f.d) (r6 f.a))
  | 0x1C => some (.bext h (r6 f.d) (r6 f.a) (r6 f.bb))
  | 0x1D => some (.bins h (r6 f.d) (r6 f.a) (r6 f.bb))
  | 0x20 => some (.cmp h (r6 f.a) (r6 f.bb))
  | 0x21 => some (.cmpk h (r6 f.a) (r6 f.c))
  | 0x22 => some (.fcmp h (r6 f.a) (r6 f.bb))
  | 0x23 => some (.test h (r6 f.a) (r6 f.bb))
  | 0x24 => some (.sel h (r6 f.d) (r6 f.a) (r6 f.bb))
  | 0x25 => some (.mov h (r6 f.d) (r6 f.a))
  | 0x26 => some (.movk h (r6 f.d) (r6 f.c))
  | 0x30 => some (.fadd h (r6 f.d) (r6 f.a) (r6 f.bb))
  | 0x31 => some (.fsub h (r6 f.d) (r6 f.a) (r6 f.bb))
  | 0x32 => some (.fmul h (r6 f.d) (r6 f.a) (r6 f.bb))
  | 0x33 => some (.fma h (r6 f.d) (r6 f.a) (r6 f.bb))
  | 0x34 => some (.fmin h (r6 f.d) (r6 f.a) (r6 f.bb))
  | 0x35 => some (.fmax h (r6 f.d) (r6 f.a) (r6 f.bb))
  | 0x36 => some (.fneg h (r6 f.d) (r6 f.a))
  | 0x37 => some (.fabs h (r6 f.d) (r6 f.a))
  | 0x38 => some (.fcps h (r6 f.d) (r6 f.a) (r6 f.bb))
  | _ => none

/-- The instruction of a full word whose checks have passed. -/
def buildFull (f : Fields) (h : Hdr) : Option Instr :=
  match f.op with
  | 0x01 => some (.addFull h (r11 f.d) (r11 f.a) f.src (intTy f.fn) (bitOf f.fn 3))
  | 0x02 => some (.subFull h (r11 f.d) (r11 f.a) f.src (intTy f.fn) (bitOf f.fn 3))
  | 0x03 => some (.mulFull h (r11 f.d) (r11 f.a) f.src (intTy f.fn) (bitOf f.fn 3))
  | 0x04 => some (.mulhFull h (r11 f.d) (r11 f.a) f.src (bitOf f.fn 0))
  | 0x05 => some (.madFull h (r11 f.d) (r11 f.a) f.src (r11 f.c) (intTy f.fn))
  | 0x06 => some (.negFull h (r11 f.d) (r11 f.a) (intTy f.fn) (bitOf f.fn 3))
  | 0x07 => some (.absFull h (r11 f.d) (r11 f.a) (intTy f.fn) (bitOf f.fn 3))
  | 0x08 => some (.minFull h (r11 f.d) (r11 f.a) f.src (intTy f.fn))
  | 0x09 => some (.maxFull h (r11 f.d) (r11 f.a) f.src (intTy f.fn))
  | 0x0A => some (.divFull h (r11 f.d) (r11 f.a) f.src (intTy f.fn) (bitOf f.fn 3))
  | 0x0B => some (.remFull h (r11 f.d) (r11 f.a) f.src (intTy f.fn) (bitOf f.fn 3))
  | 0x0C => some (.addkFull h (r11 f.d) (r11 f.a) (r11 f.c) (intTy f.fn) (bitOf f.fn 3))
  | 0x0D => some (.shlkFull h (r11 f.d) (r11 f.a) (r11 f.c) (wTy f.fn))
  | 0x0E => some (.shrkFull h (r11 f.d) (r11 f.a) (r11 f.c) (wTy f.fn))
  | 0x0F => some (.sarkFull h (r11 f.d) (r11 f.a) (r11 f.c) (wTy f.fn))
  | 0x10 => some (.andFull h (r11 f.d) (r11 f.a) f.src)
  | 0x11 => some (.orFull h (r11 f.d) (r11 f.a) f.src)
  | 0x12 => some (.xorFull h (r11 f.d) (r11 f.a) f.src)
  | 0x13 => some (.notFull h (r11 f.d) (r11 f.a))
  | 0x14 => some (.andnFull h (r11 f.d) (r11 f.a) f.src)
  | 0x15 => some (.shlFull h (r11 f.d) (r11 f.a) f.src (wTy f.fn))
  | 0x16 => some (.shrFull h (r11 f.d) (r11 f.a) f.src (wTy f.fn))
  | 0x17 => some (.sarFull h (r11 f.d) (r11 f.a) f.src (wTy f.fn))
  | 0x18 => some (.rotFull h (r11 f.d) (r11 f.a) f.src (wTy f.fn))
  | 0x19 => some (.clzFull h (r11 f.d) (r11 f.a) (wTy f.fn))
  | 0x1A => some (.popcFull h (r11 f.d) (r11 f.a) (wTy f.fn))
  | 0x1B => some (.brevFull h (r11 f.d) (r11 f.a) (wTy f.fn))
  | 0x1C => some (.bextFull h (r11 f.d) (r11 f.a) f.src (r11 f.c))
  | 0x1D => some (.binsFull h (r11 f.d) (r11 f.a) f.src (r11 f.c))
  | 0x20 => some (.cmpFull h (r11 f.a) f.src (condOf (f.fn / 4)) (ciTy f.fn))
  | 0x21 => some (.cmpkFull h (r11 f.a) (r11 f.c) (condOf (f.fn / 4)) (ciTy f.fn))
  | 0x22 => some (.fcmpFull h (r11 f.a) f.src (condOf (f.fn / 4)) (cfTy f.fn))
  | 0x23 => some (.testFull h (r11 f.a) f.src)
  | 0x24 => some (.selFull h (r11 f.d) (r11 f.a) f.src (bitOf f.fn 3) (BitVec.ofNat 3 f.fn))
  | 0x25 => some (.movFull h (r11 f.d) (r11 f.a) (bitOf f.fn 1))
  | 0x26 => some (.movkFull h (r11 f.d) (r11 f.c))
  | 0x30 => some (.faddFull h (r11 f.d) (r11 f.a) f.src (realMod f.fn))
  | 0x31 => some (.fsubFull h (r11 f.d) (r11 f.a) f.src (realMod f.fn))
  | 0x32 => some (.fmulFull h (r11 f.d) (r11 f.a) f.src (realMod f.fn))
  | 0x33 => some (.fmaFull h (r11 f.d) (r11 f.a) f.src (r11 f.c) (realMod f.fn))
  | 0x34 => some (.fminFull h (r11 f.d) (r11 f.a) f.src (realTy f.fn))
  | 0x35 => some (.fmaxFull h (r11 f.d) (r11 f.a) f.src (realTy f.fn))
  | 0x36 => some (.fnegFull h (r11 f.d) (r11 f.a) (realTy f.fn))
  | 0x37 => some (.fabsFull h (r11 f.d) (r11 f.a) (realTy f.fn))
  | 0x38 => some (.fcpsFull h (r11 f.d) (r11 f.a) f.src (bitOf f.fn 2))
  | 0x40 => some (.rcp h (r11 f.d) (r11 f.a) (bitOf f.fn 2))
  | 0x41 => some (.sqrt h (r11 f.d) (r11 f.a) (bitOf f.fn 2))
  | 0x42 => some (.rsq h (r11 f.d) (r11 f.a) (bitOf f.fn 2))
  | 0x43 => some (.ex2 h (r11 f.d) (r11 f.a) (bitOf f.fn 2))
  | 0x44 => some (.lg2 h (r11 f.d) (r11 f.a) (bitOf f.fn 2))
  | 0x46 => some (.frnd h (r11 f.d) (r11 f.a) (realMod f.fn))
  | 0x48 => some (.cvt h (r11 f.d) (r11 f.a) (cvtTy (f.c / 32)) (cvtTy f.c) (bitOf f.c 10) (rndOf f.fn))
  | 0x50 => some (.dp4 h (r11 f.d) (r11 f.a) f.src (r11 f.c) (bitOf f.fn 0))
  | 0x60 => some (.qdup h (BitVec.ofNat 3 f.a))
  | 0x61 => some (.qnot h (BitVec.ofNat 3 f.a))
  | 0x62 => some (.qand h (BitVec.ofNat 3 f.a) (BitVec.ofNat 3 f.bb))
  | 0x63 => some (.qor h (BitVec.ofNat 3 f.a) (BitVec.ofNat 3 f.bb))
  | 0x64 => some (.qxor h (BitVec.ofNat 3 f.a) (BitVec.ofNat 3 f.bb))
  | 0x65 => some (.qdrop h (r11 f.c))
  | 0x66 => some (.ballot h (r11 f.d) (BitVec.ofNat 3 f.a))
  | 0x67 => some (.shfl h (r11 f.d) (r11 f.a) f.src (shflOf f.fn))
  | 0x68 => some (.red h (r11 f.d) (r11 f.a) (redOf f.fn))
  | 0x69 => some (.scan h (r11 f.d) (r11 f.a) (redOf f.fn))
  | 0x6A => some (.bcast h (r11 f.d) (r11 f.a) f.src)
  | 0x6B => some (.form h (r11 f.d) (r11 f.a))
  | 0x80 => some (.ld h (r11 f.d) (r11 f.a) (r11 f.c) (memSz f.fn) (bitOf f.fn 3))
  | 0x81 => some (.st h (r11 f.a) f.src (r11 f.c) (memSz f.fn) (bitOf f.fn 3))
  | 0x82 => some (.lda h (r11 f.d) (r11 f.a) (r11 f.c) (bitOf f.fn 3) (scopeAt f.fn))
  | 0x83 => some (.stl h (r11 f.a) f.src (r11 f.c) (bitOf f.fn 3) (scopeAt f.fn))
  | 0x84 => some (.cst h (r11 f.d) (r11 f.a) f.src (bitOf f.fn 3) (BitVec.ofNat 3 f.fn))
  | 0x85 => some (.lds h (r11 f.d) (r11 f.a) (r11 f.c) (scrSz f.fn) (ldsQual f.fn))
  | 0x86 => some (.sts h (r11 f.a) f.src (r11 f.c) (scrSz f.fn) (stsQual f.fn))
  | 0x87 => some (.ats h (r11 f.d) (r11 f.a) f.src (atOf f.fn))
  | 0x88 => some (.atGlobal h (r11 f.d) (r11 f.a) f.src (atOf f.fn) (bitOf f.fn 3))
  | 0x89 => some (.cas h (r11 f.d) (r11 f.a) f.src (r11 f.c) (bitOf f.fn 3))
  | 0x8A => some (.atc h (r11 f.d) (r11 f.a) f.src (r11 f.c))
  | 0x8B => some (.qpop h (r11 f.d) (r11 f.a))
  | 0x8C => some (.qpush h (r11 f.a) f.src)
  | 0x8D => some (.fence h (fenceKind f.fn) (scopeAt (f.fn % 5)))
  | 0x8E => some (.pref h (r11 f.a) (r11 f.c))
  | 0xA0 => some (.nop h)
  | 0xA1 => some (.br h (BitVec.ofNat 32 f.lit))
  | 0xA3 => some (.call h (BitVec.ofNat 32 f.lit))
  | 0xA2 => some (.brw h (BitVec.ofNat 4 f.a) (r11 f.c) (BitVec.ofNat 32 f.lit))
  | 0xA4 => some (.ret h)
  | 0xA5 => some (.exit h)
  | 0xA6 => some (.enrol h (BitVec.ofNat 4 f.d))
  | 0xA7 => some (.joinw h (BitVec.ofNat 4 f.d) (r11 f.a) (r11 f.bb))
  | 0xA8 => some (.bar h (bitOf f.fn 0) (BitVec.ofNat 4 f.c))
  | 0xA9 => some (.waitc h (r11 f.d) (r11 f.a) (r11 f.bb) (r11 f.c))
  | 0xAA => some (.yieldI h)
  | 0xAB => some (.wbind h (BitVec.ofNat 4 f.d) (BitVec.ofNat 5 f.a))
  | 0xAC => some (.brx h (r11 f.a))
  | 0xB0 => some (match f.fn with
    | 0 => .seFill h (BitVec.ofNat 5 f.a) f.src (BitVec.ofNat 2 f.c)
    | 1 => .seDrain h (BitVec.ofNat 5 f.a) f.src (BitVec.ofNat 2 f.c)
    | 2 => .seFillw h (BitVec.ofNat 5 f.a) f.src (BitVec.ofNat 2 f.c)
    | _ => .seAdv h (BitVec.ofNat 5 f.a) f.src (BitVec.ofNat 2 f.c))
  | 0xB1 => some (.mfence h)
  | 0xB2 => some (.mloop h (BitVec.ofNat 3 f.d) (r11 f.a) f.src (BitVec.ofNat 5 (f.c / 64)) (BitVec.ofNat 6 f.c) (bitOf f.fn 0) (bitOf f.fn 1))
  | 0xB3 => some (.mwait h (BitVec.ofNat 3 f.d))
  | 0xB5 => some (.mclr h (BitVec.ofNat 3 f.d))
  | 0xB4 => some (.mrd h (r11 f.d) (BitVec.ofNat 3 f.a) f.src (rndOf (f.c / 512)) (BitVec.ofNat 6 f.c) (mrdFmt f.fn) (bitOf f.fn 3))
  | 0xB6 => some (.safept h (BitVec.ofNat 8 f.c))
  | 0xB7 => some (.dld h (BitVec.ofNat 5 f.d) (r11 f.a) (r11 f.c))
  | 0xB8 => some (.dst h (BitVec.ofNat 5 f.d) (r11 f.a) (r11 f.c))
  | 0xC0 => some (.sread h (r11 f.d) (r11 f.c))
  | 0xC1 => some (.trap h (r11 f.c))
  | 0xC2 => some (.bkpt h (r11 f.c))
  | 0xC3 => some (.launch h (r11 f.a) f.src)
  | 0xC4 => some (.moult h (r11 f.a) f.src)
  | 0xC5 => some (.cbrk h (r11 f.d) (r11 f.a) f.src (BitVec.ofNat 3 f.c) (bitOf f.c 3) (BitVec.ofNat 2 (f.c / 16)))
  | _ => none

/-- An imm6 extended to 11 bits, signed for ADDK, CMPK and MOVK (R86, R96). -/
def imm6 (op x : Nat) : Nat := if (op = 0x0C || op = 0x21 || op = 0x26) && 32 ≤ x then x + 1984 else x

/-- A compact word as the full instruction that it is (R86). -/
def widen (row : OpRow) (f : Fields) : Fields :=
  if f.lay = .compact then
    { f with c := (match row.c with | .v => f.d | .k => imm6 f.op f.bb | _ => 0), bb := if row.c = .k then 0 else f.bb }
  else f

/-- The fields of a word of a layout, as they stand in it (R86 to R88). -/
def rawFields (lay : Layout) (w : Nat) : Fields :=
  match lay with
  | .compact => ⟨.compact, bitOf w 2, field w 3 5, field w 8 6, field w 14 6, field w 20 6, field w 26 6, 0, 0, 0⟩
  | lay => ⟨lay, bitOf w 2, field w 3 5, field w 8 8, field w 16 11, field w 27 11, field w 38 11, field w 49 11, field w 60 4,
      if lay = .lit then field w 64 32 else 0⟩

/-- Checks 2 to 10 of R98 in their order, and the instruction. -/
def decodeFields (raw : Fields) : Reject ⊕ Instr :=
  if 0 < raw.g && raw.g < 16 then .inl .reservedGuard
  else match opRow raw.op with
    | none => .inl .reservedOp
    | some row =>
      let f := widen row raw
      if f.lay = .lit && row.b != .v && row.b != .lit then .inl .literalRefused
      else if f.lay != .lit && row.b = .lit then .inl .literalMissing
      else if f.lay = .lit && f.bb != 0 then .inl .literalAndB
      else if !fnOk f row.fn then .inl .reservedFn
      else if !(kindOk row.d f.d && kindOk row.a f.a && kindOk row.b f.bb && kindOk row.c f.c) then .inl .badField
      else if !alignedOk f then .inl .misaligned
      else if !valueOk f then .inl .reservedValue
      else match (if f.lay = .compact then buildCompact f ⟨f.e, guardOf f.g⟩ else buildFull f ⟨f.e, guardOf f.g⟩) with
        | some i => .inr i
        | none => .inl .reservedOp

/-- The layout that bits [1:0] of the first word name (R82). -/
def layoutOf (w : Nat) : Option Layout := match w % 4 with | 0 => some .compact | 1 => some .full | 2 => some .lit | _ => none

/-- Bytes of a layout (R82). -/
def Layout.bytes : Layout → Nat
  | .compact => 4 | .full => 8 | .lit => 12

/-- Decode the bytes from an instruction's first byte on (R82, R98). -/
def decode (bs : List Byte) : Decoded :=
  if bs.length < 4 then .reject .truncated
  else match layoutOf (ofBytes (bs.take 4)) with
    | none => .reject .reservedLength
    | some lay =>
      if bs.length < lay.bytes then .reject .truncated
      else match decodeFields (rawFields lay (ofBytes (bs.take lay.bytes))) with
        | .inl r => .reject r
        | .inr i => .ok i lay.bytes

/-- The instruction that the table's word names: its bytes as the device stores them, zero above nbits. -/
def decodeTableWord (nbits w : Nat) : Option Instr :=
  match decode (toBytes 12 (w % 2 ^ nbits)) with
  | .ok i _ => some i
  | .reject _ => none

/-! ### Encoding (R85 to R88) -/

/-- The guard field of R85. -/
def guardCode : Guard → Nat
  | .none => 0
  | .q neg k => 16 + 8 * bit neg + k.toNat

def compactWord (h : Hdr) (op d a b : Nat) : Fields := ⟨.compact, h.b, guardCode h.g, op, d, a, b, 0, 0, 0⟩
def fullWord (h : Hdr) (op d a b c fn : Nat) : Fields := ⟨.full, h.b, guardCode h.g, op, d, a, b, c, fn, 0⟩
def litWord (h : Hdr) (op a c lit : Nat) : Fields := ⟨.lit, h.b, guardCode h.g, op, 0, a, 0, c, 0, lit⟩
def srcWord (h : Hdr) (op d a : Nat) (b : Src) (c fn : Nat) : Fields :=
  match b with
  | .reg r => ⟨.full, h.b, guardCode h.g, op, d, a, r.toNat, c, fn, 0⟩
  | .lit w => ⟨.lit, h.b, guardCode h.g, op, d, a, 0, c, fn, w.toNat⟩

/-- The fields of an instruction (a word of zeros, which no instruction has, for an event). -/
def encodeFields : Instr → Fields
  | .add h d a b => compactWord h 0x01 d.toNat a.toNat b.toNat
  | .sub h d a b => compactWord h 0x02 d.toNat a.toNat b.toNat
  | .mul h d a b => compactWord h 0x03 d.toNat a.toNat b.toNat
  | .mulh h d a b => compactWord h 0x04 d.toNat a.toNat b.toNat
  | .mad h d a b => compactWord h 0x05 d.toNat a.toNat b.toNat
  | .neg h d a => compactWord h 0x06 d.toNat a.toNat 0
  | .abs h d a => compactWord h 0x07 d.toNat a.toNat 0
  | .min h d a b => compactWord h 0x08 d.toNat a.toNat b.toNat
  | .max h d a b => compactWord h 0x09 d.toNat a.toNat b.toNat
  | .div h d a b => compactWord h 0x0A d.toNat a.toNat b.toNat
  | .rem h d a b => compactWord h 0x0B d.toNat a.toNat b.toNat
  | .addk h d a k => compactWord h 0x0C d.toNat a.toNat k.toNat
  | .shlk h d a k => compactWord h 0x0D d.toNat a.toNat k.toNat
  | .shrk h d a k => compactWord h 0x0E d.toNat a.toNat k.toNat
  | .sark h d a k => compactWord h 0x0F d.toNat a.toNat k.toNat
  | .and h d a b => compactWord h 0x10 d.toNat a.toNat b.toNat
  | .or h d a b => compactWord h 0x11 d.toNat a.toNat b.toNat
  | .xor h d a b => compactWord h 0x12 d.toNat a.toNat b.toNat
  | .not h d a => compactWord h 0x13 d.toNat a.toNat 0
  | .andn h d a b => compactWord h 0x14 d.toNat a.toNat b.toNat
  | .shl h d a b => compactWord h 0x15 d.toNat a.toNat b.toNat
  | .shr h d a b => compactWord h 0x16 d.toNat a.toNat b.toNat
  | .sar h d a b => compactWord h 0x17 d.toNat a.toNat b.toNat
  | .rot h d a b => compactWord h 0x18 d.toNat a.toNat b.toNat
  | .clz h d a => compactWord h 0x19 d.toNat a.toNat 0
  | .popc h d a => compactWord h 0x1A d.toNat a.toNat 0
  | .brev h d a => compactWord h 0x1B d.toNat a.toNat 0
  | .bext h d a b => compactWord h 0x1C d.toNat a.toNat b.toNat
  | .bins h d a b => compactWord h 0x1D d.toNat a.toNat b.toNat
  | .cmp h a b => compactWord h 0x20 0 a.toNat b.toNat
  | .cmpk h a k => compactWord h 0x21 0 a.toNat k.toNat
  | .fcmp h a b => compactWord h 0x22 0 a.toNat b.toNat
  | .test h a b => compactWord h 0x23 0 a.toNat b.toNat
  | .sel h d a b => compactWord h 0x24 d.toNat a.toNat b.toNat
  | .mov h d a => compactWord h 0x25 d.toNat a.toNat 0
  | .movk h d k => compactWord h 0x26 d.toNat 0 k.toNat
  | .fadd h d a b => compactWord h 0x30 d.toNat a.toNat b.toNat
  | .fsub h d a b => compactWord h 0x31 d.toNat a.toNat b.toNat
  | .fmul h d a b => compactWord h 0x32 d.toNat a.toNat b.toNat
  | .fma h d a b => compactWord h 0x33 d.toNat a.toNat b.toNat
  | .fmin h d a b => compactWord h 0x34 d.toNat a.toNat b.toNat
  | .fmax h d a b => compactWord h 0x35 d.toNat a.toNat b.toNat
  | .fneg h d a => compactWord h 0x36 d.toNat a.toNat 0
  | .fabs h d a => compactWord h 0x37 d.toNat a.toNat 0
  | .fcps h d a b => compactWord h 0x38 d.toNat a.toNat b.toNat
  | .addFull h d a b t sat => srcWord h 0x01 d.toNat a.toNat b 0 (intCode t + 8 * bit sat)
  | .subFull h d a b t sat => srcWord h 0x02 d.toNat a.toNat b 0 (intCode t + 8 * bit sat)
  | .mulFull h d a b t sat => srcWord h 0x03 d.toNat a.toNat b 0 (intCode t + 8 * bit sat)
  | .mulhFull h d a b u => srcWord h 0x04 d.toNat a.toNat b 0 (bit u)
  | .madFull h d a b c t => srcWord h 0x05 d.toNat a.toNat b c.toNat (intCode t)
  | .negFull h d a t sat => fullWord h 0x06 d.toNat a.toNat 0 0 (intCode t + 8 * bit sat)
  | .absFull h d a t sat => fullWord h 0x07 d.toNat a.toNat 0 0 (intCode t + 8 * bit sat)
  | .minFull h d a b t => srcWord h 0x08 d.toNat a.toNat b 0 (intCode t)
  | .maxFull h d a b t => srcWord h 0x09 d.toNat a.toNat b 0 (intCode t)
  | .divFull h d a b t sat => srcWord h 0x0A d.toNat a.toNat b 0 (intCode t + 8 * bit sat)
  | .remFull h d a b t sat => srcWord h 0x0B d.toNat a.toNat b 0 (intCode t + 8 * bit sat)
  | .addkFull h d a k t sat => fullWord h 0x0C d.toNat a.toNat 0 k.toNat (intCode t + 8 * bit sat)
  | .shlkFull h d a k t => fullWord h 0x0D d.toNat a.toNat 0 k.toNat (wCode t)
  | .shrkFull h d a k t => fullWord h 0x0E d.toNat a.toNat 0 k.toNat (wCode t)
  | .sarkFull h d a k t => fullWord h 0x0F d.toNat a.toNat 0 k.toNat (wCode t)
  | .andFull h d a b => srcWord h 0x10 d.toNat a.toNat b 0 0
  | .orFull h d a b => srcWord h 0x11 d.toNat a.toNat b 0 0
  | .xorFull h d a b => srcWord h 0x12 d.toNat a.toNat b 0 0
  | .notFull h d a => fullWord h 0x13 d.toNat a.toNat 0 0 0
  | .andnFull h d a b => srcWord h 0x14 d.toNat a.toNat b 0 0
  | .shlFull h d a b t => srcWord h 0x15 d.toNat a.toNat b 0 (wCode t)
  | .shrFull h d a b t => srcWord h 0x16 d.toNat a.toNat b 0 (wCode t)
  | .sarFull h d a b t => srcWord h 0x17 d.toNat a.toNat b 0 (wCode t)
  | .rotFull h d a b t => srcWord h 0x18 d.toNat a.toNat b 0 (wCode t)
  | .clzFull h d a t => fullWord h 0x19 d.toNat a.toNat 0 0 (wCode t)
  | .popcFull h d a t => fullWord h 0x1A d.toNat a.toNat 0 0 (wCode t)
  | .brevFull h d a t => fullWord h 0x1B d.toNat a.toNat 0 0 (wCode t)
  | .bextFull h d a b c => srcWord h 0x1C d.toNat a.toNat b c.toNat 0
  | .binsFull h d a b c => srcWord h 0x1D d.toNat a.toNat b c.toNat 0
  | .cmpFull h a b cc t => srcWord h 0x20 0 a.toNat b 0 (4 * condCode cc + ciCode t)
  | .cmpkFull h a k cc t => fullWord h 0x21 0 a.toNat 0 k.toNat (4 * condCode cc + ciCode t)
  | .fcmpFull h a b cc t => srcWord h 0x22 0 a.toNat b 0 (4 * condCode cc + cfCode t)
  | .testFull h a b => srcWord h 0x23 0 a.toNat b 0 0
  | .selFull h d a b neg q => srcWord h 0x24 d.toNat a.toNat b 0 (8 * bit neg + q.toNat)
  | .movFull h d a wd => fullWord h 0x25 d.toNat a.toNat 0 0 (6 * bit wd)
  | .movkFull h d k => fullWord h 0x26 d.toNat 0 0 k.toNat 0
  | .faddFull h d a b m => srcWord h 0x30 d.toNat a.toNat b 0 (realModCode m)
  | .fsubFull h d a b m => srcWord h 0x31 d.toNat a.toNat b 0 (realModCode m)
  | .fmulFull h d a b m => srcWord h 0x32 d.toNat a.toNat b 0 (realModCode m)
  | .fmaFull h d a b c m => srcWord h 0x33 d.toNat a.toNat b c.toNat (realModCode m)
  | .fminFull h d a b t => srcWord h 0x34 d.toNat a.toNat b 0 (realCode t)
  | .fmaxFull h d a b t => srcWord h 0x35 d.toNat a.toNat b 0 (realCode t)
  | .fnegFull h d a t => fullWord h 0x36 d.toNat a.toNat 0 0 (realCode t)
  | .fabsFull h d a t => fullWord h 0x37 d.toNat a.toNat 0 0 (realCode t)
  | .fcpsFull h d a b bf => srcWord h 0x38 d.toNat a.toNat b 0 (4 * bit bf)
  | .rcp h d a bf => fullWord h 0x40 d.toNat a.toNat 0 0 (4 * bit bf)
  | .sqrt h d a bf => fullWord h 0x41 d.toNat a.toNat 0 0 (4 * bit bf)
  | .rsq h d a bf => fullWord h 0x42 d.toNat a.toNat 0 0 (4 * bit bf)
  | .ex2 h d a bf => fullWord h 0x43 d.toNat a.toNat 0 0 (4 * bit bf)
  | .lg2 h d a bf => fullWord h 0x44 d.toNat a.toNat 0 0 (4 * bit bf)
  | .frnd h d a m => fullWord h 0x46 d.toNat a.toNat 0 0 (realModCode m)
  | .cvt h d a td ts sat r => fullWord h 0x48 d.toNat a.toNat 0 (cvtTyCode td * 32 + cvtTyCode ts + 1024 * bit sat) (rndCode r)
  | .dp4 h d a b c u => srcWord h 0x50 d.toNat a.toNat b c.toNat (4 + bit u)
  | .qdup h a => fullWord h 0x60 0 a.toNat 0 0 0
  | .qnot h a => fullWord h 0x61 0 a.toNat 0 0 0
  | .qand h a b => fullWord h 0x62 0 a.toNat b.toNat 0 0
  | .qor h a b => fullWord h 0x63 0 a.toNat b.toNat 0 0
  | .qxor h a b => fullWord h 0x64 0 a.toNat b.toNat 0 0
  | .qdrop h k => fullWord h 0x65 0 0 0 k.toNat 0
  | .ballot h d a => fullWord h 0x66 d.toNat a.toNat 0 0 0
  | .shfl h d a b m => srcWord h 0x67 d.toNat a.toNat b 0 (shflCode m)
  | .red h d a o => fullWord h 0x68 d.toNat a.toNat 0 0 (redCode o)
  | .scan h d a o => fullWord h 0x69 d.toNat a.toNat 0 0 (redCode o)
  | .bcast h d a b => srcWord h 0x6A d.toNat a.toNat b 0 0
  | .form h d a => fullWord h 0x6B d.toNat a.toNat 0 0 0
  | .ld h d a k z nt => fullWord h 0x80 d.toNat a.toNat 0 k.toNat (memCode z + 8 * bit nt)
  | .st h a b k z nt => srcWord h 0x81 0 a.toNat b k.toNat (memCode z + 8 * bit nt)
  | .lda h d a k wd sc => fullWord h 0x82 d.toNat a.toNat 0 k.toNat (8 * bit wd + scopeCode sc)
  | .stl h a b k wd sc => srcWord h 0x83 0 a.toNat b k.toNat (8 * bit wd + scopeCode sc)
  | .cst h d a b wd q => srcWord h 0x84 d.toNat a.toNat b 0 (8 * bit wd + q.toNat)
  | .lds h d a k z ql => fullWord h 0x85 d.toNat a.toNat 0 k.toNat (scrCode z + 4 * ldsCode ql)
  | .sts h a b k z ql => srcWord h 0x86 0 a.toNat b k.toNat (scrCode z + 4 * stsCode ql)
  | .ats h d a b o => srcWord h 0x87 d.toNat a.toNat b 0 (atCode o)
  | .atGlobal h d a b o hm => srcWord h 0x88 d.toNat a.toNat b 0 (atCode o + 8 * bit hm)
  | .cas h d a b c hm => srcWord h 0x89 d.toNat a.toNat b c.toNat (8 * bit hm)
  | .atc h d a b c => srcWord h 0x8A d.toNat a.toNat b c.toNat 0
  | .qpop h d a => fullWord h 0x8B d.toNat a.toNat 0 0 0
  | .qpush h a b => srcWord h 0x8C 0 a.toNat b 0 0
  | .fence h kd sc => fullWord h 0x8D 0 0 0 0 (5 * fenceCode kd + scopeCode sc)
  | .pref h a k => fullWord h 0x8E 0 a.toNat 0 k.toNat 0
  | .nop h => fullWord h 0xA0 0 0 0 0 0
  | .br h off => litWord h 0xA1 0 0 off.toNat
  | .call h off => litWord h 0xA3 0 0 off.toNat
  | .brw h wk level off => litWord h 0xA2 wk.toNat level.toNat off.toNat
  | .ret h => fullWord h 0xA4 0 0 0 0 0
  | .exit h => fullWord h 0xA5 0 0 0 0 0
  | .enrol h j => fullWord h 0xA6 j.toNat 0 0 0 0
  | .joinw h j lo hi => fullWord h 0xA7 j.toNat lo.toNat hi.toNat 0 0
  | .bar h gang k => fullWord h 0xA8 0 0 0 k.toNat (bit gang)
  | .waitc h l sc c t => fullWord h 0xA9 l.toNat sc.toNat c.toNat t.toNat 0
  | .yieldI h => fullWord h 0xAA 0 0 0 0 0
  | .wbind h wk sl => fullWord h 0xAB wk.toNat sl.toNat 0 0 0
  | .brx h a => fullWord h 0xAC 0 a.toNat 0 0 0
  | .seFill h sl b e => srcWord h 0xB0 0 sl.toNat b e.toNat 0
  | .seDrain h sl b e => srcWord h 0xB0 0 sl.toNat b e.toNat 1
  | .seFillw h sl b e => srcWord h 0xB0 0 sl.toNat b e.toNat 2
  | .seAdv h sl b e => srcWord h 0xB0 0 sl.toNat b e.toNat 3
  | .mfence h => fullWord h 0xB1 0 0 0 0 0
  | .mloop h m fr b sl ks ia ib => srcWord h 0xB2 m.toNat fr.toNat b (64 * sl.toNat + ks.toNat) (bit ia + 2 * bit ib)
  | .mwait h m => fullWord h 0xB3 m.toNat 0 0 0 0
  | .mclr h m => fullWord h 0xB5 m.toNat 0 0 0 0
  | .mrd h d m b r blk ft sat => srcWord h 0xB4 d.toNat m.toNat b (512 * rndCode r + blk.toNat) (mrdCode ft + 8 * bit sat)
  | .safept h mask => fullWord h 0xB6 0 0 0 mask.toNat 0
  | .dld h sl a k => fullWord h 0xB7 sl.toNat a.toNat 0 k.toNat 0
  | .dst h sl a k => fullWord h 0xB8 sl.toNat a.toNat 0 k.toNat 0
  | .sread h d k => fullWord h 0xC0 d.toNat 0 0 k.toNat 0
  | .trap h k => fullWord h 0xC1 0 0 0 k.toNat 0
  | .bkpt h k => fullWord h 0xC2 0 0 0 k.toNat 0
  | .launch h a b => srcWord h 0xC3 0 a.toNat b 0 0
  | .moult h a b => srcWord h 0xC4 0 a.toNat b 0 0
  | .cbrk h d a b cond all n => srcWord h 0xC5 d.toNat a.toNat b (cond.toNat + 8 * bit all + 16 * n.toNat) 0
  | _ => ⟨.compact, false, 0, 0, 0, 0, 0, 0, 0, 0⟩

/-- The word that fields make (R86 to R88). -/
def Fields.word (f : Fields) : Nat :=
  match f.lay with
  | .compact => 4 * bit f.e + 2 ^ 3 * f.g + 2 ^ 8 * f.op + 2 ^ 14 * f.d + 2 ^ 20 * f.a + 2 ^ 26 * f.bb
  | lay => (if lay = .lit then 2 else 1) + 4 * bit f.e + 2 ^ 3 * f.g + 2 ^ 8 * f.op + 2 ^ 16 * f.d + 2 ^ 27 * f.a + 2 ^ 38 * f.bb + 2 ^ 49 * f.c + 2 ^ 60 * f.fn +
      2 ^ 64 * f.lit

/-- The bytes of an instruction, lowest address first (R2, R82). -/
def encode (i : Instr) : List Byte := toBytes (encodeFields i).lay.bytes (encodeFields i).word

/-- The instructions of the instruction set, as against the events of the table: those that have an encoding. -/
def Instr.encodable (i : Instr) : Bool := (encodeFields i).op != 0

end Sys2Proof
end

