-- ==== Sys2Proof/Machine/Service.lean ====
section
/-! DEFINITION. Instruction fetch, stops and their service, kills, storage errors (R82, R84, R289, R328, R333, R342, R377, R378, R386 to R393). -/

namespace Sys2Proof.Machine

/-! ### Instruction fetch (R82, R84, R328) -/

/-- The byte of code at a virtual address of a strand's context: its device address, or the cause and level of the fault. A host leaf, or a leaf
that permits no fetch, has no code of R328: cause 0 (DESIGN CHOICE, log 58). -/
def fetchAddr (s : State) (c va : Nat) : Sum (Nat × Nat) Nat :=
  match walk s c va with
  | .ok t => if t.host || !t.x || Config.deviceBytes ≤ t.base + va % t.size then .inl (0, t.level) else .inr (t.base + va % t.size)
  | .fault k l => .inl (k, l)
  | .noPasid => .inl (0, 0)
  | .noDevice _ => .inl (0, 0)
  | .poisoned l => .inl (0, l)

/-- A byte of code (R84): where a store has replaced it since the launch began, the old one, or the new. -/
def codeByte (s : State) (beginSeq : Nat) (old : Bool) (pa : Nat) : Byte :=
  let later := (s.stores.filter (fun e => e.space == .dev && e.buf.isNone && decide (beginSeq < e.seq) && decide (e.addr ≤ pa) && decide (pa < e.addr + e.bytes.length)))
  match later with
  | [] => memGet s.mem pa
  | e :: es =>
    let first := es.foldl (fun b x => if x.seq < b.seq then x else b) e
    if old then nth first.old (pa - first.addr) 0 else memGet s.mem pa

/-- The bytes from the PC on, as many as can be fetched of twelve, and the fault that stopped the fetch. A poisoned line cannot be fetched (R372, R388;
DESIGN CHOICE, log 89). old: which bytes, by their place, are those from before a store. -/
def fetchFrom (s : State) (c beginSeq pc : Nat) (old : Nat → Bool) : Nat → Nat → List Byte × Option (Nat × Nat)
  | 0, _ => ([], none)
  | k + 1, i =>
    match fetchAddr s c ((pc + i) % 2 ^ 64) with
    | .inl f => ([], some f)
    | .inr pa =>
      if s.memPois.contains (pa / 64) then ([], some (0, 0))
      else
        let (bs, f) := fetchFrom s c beginSeq pc old k (i + 1)
        (codeByte s beginSeq (old i) pa :: bs, f)

/-- The length that the first byte of an instruction gives (R82); a reserved length counts 4 bytes (DESIGN CHOICE, log 17). -/
def lengthAt (bs : List Byte) : Nat :=
  match bs with
  | [] => 0
  | b :: _ => match b.toNat % 4 with | 1 => 8 | 2 => 12 | _ => 4

/-- A fetch sees the old bytes or the new ones, and of an instruction of 96 bits the bytes after the first word may be a mixture (R84). -/
def fetch (s : State) (st : Strand) : List Byte × Option (Nat × Nat) :=
  let bytes := fetchFrom s (ctxOfLaunch s st.lk) (((launchOf s st.lk).map (fun l => l.beginSeq)).getD 0) st.pc.toNat
  let one := bytes (fun _ => Config.freeFetch s.nfree 0) 12 0
  if lengthAt one.1 = 12 then bytes (fun i => Config.freeFetch s.nfree (if i < 4 then 0 else i)) 12 0 else one

/-- RESERVED_INSTRUCTION: the trap of R98 with the number of the check that failed (R99, R406). -/
def execReservedInstruction (check : Nat) (s : State) : Res :=
  onCur s fun st => trapWhole s st (lengthAt (fetch s st).1) (illegal s st check 0 0)

/-- INSTRUCTION_FETCH_FAULT: no part of the instruction takes effect (R82, R328); its INFO is the level (DEDUCED, log 31). -/
def execInstructionFetchFault (cause level : Nat) (s : State) : Res :=
  onCur s fun st =>
    let got := (fetch s st).1.length
    trapWhole s st 0 { reportOf s st 2 cause with info := level, addr := (st.pc.toNat + got) % 2 ^ 64, access := accessCode 4 4 }

/-! ### Bringing a page in (R207, R289) -/

/-- The service of an engine page request at a page ends: the command translates again, or meets the fault (R207). -/
def servedCmd (page : Nat) (ok : Bool) (c : SeCmd) : SeCmd := { c with waiting := none, answers := if ok then aerase c.answers page else c.answers }

/-- Whether a page request for a page is before the host (R333). -/
def askedHost (s : State) (c page : Nat) : Bool := s.priReqs.any (fun r => r.ctx == c && r.page == page)

/-- ENGINE_PAGE_SERVICED: the control cores have served an engine page request: the command goes on, or meets the fault. A page that the host has been asked for is
served with the host's response (R207, R289, R333). -/
def execEnginePageServiced (core e : Nat) (ok : Bool) (s : State) : Res :=
  finish (match engineQ (coreOf s core) e with
    | [] => s
    | cmd :: _ => match cmd.waiting with
      | some (page, .service) =>
        if askedHost s cmd.ctx page then s else setHead (if ok then makeResident s cmd.ctx page else s) core e (servedCmd page ok)
      | _ => s)

/-! ### Stops (R378) -/

/-- Close a stop (R378, R400). -/
def closeStop (s : State) (t : Stop) (action : Nat) : State :=
  traceRecord { s with stops := s.stops.filter (fun x => x.ticket != t.ticket) } t.lk 8 (t.team.getD noTeam) action

def piecesOf (s : State) (t : Stop) : List Strand := s.strands.filter (fun st => st.status == .parked t.ticket)

/-- One piece goes on after an attributed stop (R239, R378); one that is halted keeps its halt, and an EXIT then completes when it ends (R405). -/
def goOn (s : State) (st : Strand) (a : After) : State :=
  match a with
  | .advance n => putStrand s (unblock s { st with pc := st.pc + BitVec.ofNat 64 n })
  | .moult a b n => arriveMoult (putStrand s (unblock s st)) (unblock s st) a b n
  | .exit => if st.halted.isSome then putStrand s { st with status := .blocked .exitWait } else wakeTeam (endTeams (dropStrand s st.sid) st.lk st.team) st.lk st.team

/-- Resume: the instruction replays, or, for a software trap or an attributed stop, what follows goes on. A page that was not resident has
been served first (R207). -/
def resumeStop (s : State) (t : Stop) : State :=
  let s0 := if t.kind = 11 && t.cause = 1 then makeResident s t.ctx (t.addr / 4096) else s
  closeStop ((piecesOf s0 t).foldl (fun a st =>
    if t.attributed then goOn a st t.after
    else if t.kind = 10 then putStrand a (unblock a { st with pc := st.pc + 8 })
    else putStrand a (unblock a st)) s0) t 0

/-- Skip: the instruction has no effect at the indices of a precise stop. -/
def skipStop (s : State) (t : Stop) : State :=
  if t.attributed then closeStop ((piecesOf s t).foldl (fun a st => goOn a st t.after) s) t 1
  else closeStop ((piecesOf s t).foldl (fun a st => putStrand a (unblock a { st with pc := st.pc + BitVec.ofNat 64 t.len, replay := none })) s) t 1

/-- Kill: the indices retire as by EXIT, without its wait; the launch ends with STATUS 2 (R347). -/
def killStop (s : State) (t : Stop) : State :=
  let s1 := (piecesOf s t).foldl (fun a st => wakeTeam (endTeams (dropStrand a st.sid) st.lk st.team) st.lk st.team) s
  closeStop (updLaunch (closeHalts s1 (piecesOf s t) 2) t.lk (fun l => { l with status := if l.status = 0 then 2 else l.status })) t 2

/-- Write: a U value into a register at every index of the stop, its poison cleared; the stop stays open. -/
def writeStop (s : State) (t : Stop) (reg : R11) (v : Word) : State :=
  { s with strands := s.strands.map (fun st =>
      if st.status == .parked t.ticket && st.husk.isEmpty then
        settleMask (present st) { setForm st reg.toNat (.u v) with poison := st.poison.filter (fun e => e.1 != reg.toNat) }
      else st) }

/-- A change to an open stop. -/
def updStop (s : State) (t : Stop) (f : Stop → Stop) : State := { s with stops := updWhere (fun x => x.ticket == t.ticket) f s.stops }

/-- The effect of an action on a stop (R378). -/
def actStop (s : State) (t : Stop) : StopAct → State
  | .resume => resumeStop s t
  | .skip => skipStop s t
  | .kill => killStop s t
  | .write r v => writeStop s t r v

/-- An action on a stop takes effect, where its team is not saved, and else when the team is restored (R394). -/
def serveStop (a : StopAct) (s : State) (t : Stop) : State :=
  if (piecesOf s t).any (fun st => (st.team.bind (teamOf s st.lk)).any (fun x => x.saved)) then updStop s t (fun x => { x with deferred := x.deferred ++ [a] }) else actStop s t a

/-- The actions that waited for a team take effect (R394). -/
def serveDeferred (s : State) : State :=
  (s.stops.filter (fun t => !t.deferred.isEmpty && !(piecesOf s t).any (fun st => (st.team.bind (teamOf s st.lk)).any (fun x => x.saved)))).foldl (fun a t =>
    t.deferred.foldl (fun b x => actStop b { t with deferred := [] } x) (updStop a t (fun x => { x with deferred := [] }))) s

/-- A stop is open to the stop selector: no action that closes it waits for its team. -/
def selectable (t : Stop) : Bool := t.deferred.all (fun a => match a with | .write _ _ => true | _ => false)

/-- STOP_SELECT: the stop selector (R378). -/
def execStopSelect (w : DWord) (s : State) : Res :=
  finish { s with selTicket := field w.toNat 0 32, selCtx := field w.toNat 32 12 }

/-- An action written for the selected stop (R378); the status bits are those of the last action (DEDUCED, log 61). -/
def actOn (a : StopAct) (s : State) : Res :=
  finish (match s.stops.find? (fun t => t.ticket == s.selTicket && t.ctx == s.selCtx && selectable t) with
    | none => { s with stopNone := true }
    | some t =>
      if a = .skip && t.kind = 2 then { s with stopNone := false, stopRefused := true }
      else { serveStop a { s with stopNone := false } t with stopRefused := false })

/-- RESUME (R378). -/
def execResume (s : State) : Res := actOn .resume s

/-- SKIP (R378): not accepted for a stop of KIND 2. -/
def execSkip (s : State) : Res := actOn .skip s

/-- KILL (R378). -/
def execKill (s : State) : Res := actOn .kill s

/-- WRITE (R378). -/
def execWrite (reg : R11) (value : Word) (s : State) : Res := actOn (.write reg value) s

/-- Write waiting reports while the ring has room (R377). -/
def writeWaiting (c : Nat) : Nat → State → State
  | 0, s => s
  | n + 1, s =>
    match ctxOf s c with
    | none => s
    | some x => match x.waiting with
      | [] => s
      | r :: rest => if ringRoom x then writeWaiting c n (writeReport (updCtx s c (fun x => { x with waiting := rest })) c r) else s

/-- FAULT_CONSUMED: Mboelaor's count of consumed reports of a context (R377). -/
def execFaultConsumed (c : Nat) (n : Word) (s : State) : Res :=
  finish (writeWaiting c (((ctxOf s c).map (fun x => x.waiting.length)).getD 0) (updCtx s c (fun x => { x with consumed := n.toNat })))

/-- The open stops for which the host was asked for a page: host_absent and migrate faults (R289, R333). -/
def stopsAt (s : State) (c page : Nat) : List Stop :=
  s.stops.filter (fun t => t.ctx == c && t.kind == 11 && (t.cause == 4 || t.cause == 5) && t.addr / 4096 == page)

/-- PRI_RESPONSE to a request that has been sent (R332): on success a page with MIG migrates, and the strands parked for the page resume, and engines go on; otherwise
engines meet the fault, and the context's policy, which a free choice stands for, kills the strands or leaves the fault with the control program (R207, R289, R333;
DESIGN CHOICE, log 18). -/
def execPriResponse (c page : Nat) (code : PriCode) (s : State) : Res :=
  finish (
    if !(sentPages s).any (fun r => r.ctx == c && r.page == page) then s
    else
      let s1 := { s with priReqs := s.priReqs.filter (fun r => !(r.ctx == c && r.page == page)) }
      let served := fun (ok : Bool) (a : State) => mapCmds a (fun _ cmd => cmd.ctx == c && cmd.waiting == some (page, .service)) (servedCmd page ok)
      match code with
      | .success =>
        let moves := (stopsAt s1 c page).any (fun t => t.cause == 5) ||
          s1.cores.any (fun k => k.engines.any (fun q => q.any (fun cmd => cmd.ctx == c && cmd.waiting == some (page, .service) && (match alookup cmd.answers page with
            | some (.fault 5 _) => true | _ => false))))
        (stopsAt s1 c page).foldl (serveStop .resume) (served true (if moves then migratePage s1 c page else s1))
      | _ =>
        let (kills, s2) := freeBool (served false s1)
        if kills then (stopsAt s2 c page).foldl (serveStop .kill) s2 else s2)

/-! ### Kills (R342, R347, R360, R370) -/

/-- The trace of the stops of a launch that a kill closes: those of faults and those of the debugger (R378, R400). -/
def traceClosed (s : State) (lk : Nat) : State :=
  let s1 := (s.stops.filter (fun t => t.lk == lk)).foldl (fun a t => traceRecord a lk 8 (t.team.getD noTeam) 2) s
  (heldStops (s.strands.filter (fun st => st.lk == lk))).foldl (fun a st => closeHalt a st 2) s1

/-- Every strand, pending range, gang and command of a launch goes; its stops close without further reports; it ends with this status; what waited for the room of its
operations issues again (R310). -/
def killLaunch (status : Nat) (s0 : State) (lk : Nat) : State :=
  match launchOf s0 lk with
  | none => s0
  | some l =>
    if l.complete then s0
    else
      let s := traceClosed s0 lk
      let s1 := { s with
        strands := s.strands.filter (fun t => t.lk != lk), ops := s.ops.filter (fun o => o.lk != lk), stops := s.stops.filter (fun t => t.lk != lk)
        gangs := updWhere (fun g => g.lk == lk && g.state == 0) (fun g => { g with state := 2 }) s.gangs
        cores := s.cores.map (fun k => { k with
          engines := k.engines.map (fun q => q.filter (fun c => c.lk != lk))
          mq := k.mq.filter (fun x => match x with | .mloop _ l _ _ _ _ _ _ _ _ _ => l != lk | .mrd _ l _ _ _ _ _ _ _ _ _ => l != lk | .mclr _ l _ _ _ => l != lk) })
        dies := s.dies.map (fun d => { d with
          queues := d.queues.map (fun y => { y with accepted := y.accepted.filter (fun k => k != lk) })
          waitGang := if (d.waitGang.map (fun g => g.1)) = some lk then none else d.waitGang
          held := if (d.waitGang.map (fun g => g.1)) = some lk then none else d.held }) }
      let s2 := updLaunch s1 lk (fun l => { l with killed := true, status := status })
      wakeStalls (((s2.teams.filter (fun t => t.lk == lk)).map (fun t => t.num)).foldl (fun a t => retireTeam a lk t) s2)

/-- Every launch of a context that has not ended is killed (R342). -/
def killContext (status : Nat) (s : State) (c : Nat) : State :=
  ((s.launches.filter (fun l => l.ctx == c && !l.complete)).map (fun l => l.lk)).foldl (killLaunch status) s

/-- CONTEXT_DESTROY: everything of the context is killed, its launches complete with a failure status, its queues and translations go, and VALID is
cleared (R323, R342, R347; DEDUCED, log 39). -/
def execContextDestroy (c : Nat) (s : State) : Res :=
  finish (match ctxOf s c with
    | none => s
    | some x =>
      if !x.valid then s
      else
        let lks := (s.launches.filter (fun l => l.ctx == c && !l.complete)).map (fun l => l.lk)
        let s1 := lks.foldl (fun a lk => completeLaunch lk a) (killContext 3 s c)
        let s2 := ((s1.userqs.filter (fun u => u.ctx == c)).map (fun u => u.q)).foldl writeCompletions s1
        let s3 := invalidateAll s2 c 0 (2 ^ 48 - 1)
        updCtx { s3 with
          userqs := s3.userqs.filter (fun u => u.ctx != c), windows := s3.windows.filter (fun w => w.ctx != c), attaches := s3.attaches.filter (fun a => a.ctx != c)
          dumps := s3.dumps.filter (fun d => d.ctx != c), atsReqs := s3.atsReqs.filter (fun r => r.ctx != c), priReqs := s3.priReqs.filter (fun r => r.ctx != c)
          hostStores := s3.hostStores.filter (fun h => h.ctx != c), walkReqs := s3.walkReqs.filter (fun r => r.ctx != c)
          dies := s3.dies.map (fun d => { d with queues := d.queues.filter (fun y => y.ctx != c) })
          bdies := s3.bdies.map (fun b => { b with contq := b.contq.filter (fun e => e.ctx != c) })
          cores := s3.cores.map (fun k => if k.ctx = some c then { k with ctx := none } else k)
          sec := { s3.sec with keys := s3.sec.keys.filter (fun k => k.ctx != c) } } c
          (fun x => { x with valid := false, hqs := [], waiting := [], backed := [], hostPages := [], members := [], unusable := [], images := [], root := 0, keytab := 0, keyn := 0, pasid := 0 }))

/-! ### Errors in storage and links (R386 to R393) -/

/-- The memory behind a B-die that holds a line: HBM4E, or the capacity tier (R386). -/
def lineStorage (s : State) (pa : Nat) : Storage × Nat :=
  let n := (homeOf pa).1
  (if (frameOf (bdieOf s n) pa).1 then .hbm else .capacity, n)

/-- The core where an error arises. -/
def errCore (s : State) : ErrLoc → Option Nat
  | .regWord sid _ _ | .strandState sid => (strandOf s sid).map (fun t => t.core)
  | .scratchWord lk t _ | .accWord lk t _ _ => (teamOf s lk t).map (fun t => t.core)
  | .wbufWord c _ | .l1Line c _ => some c
  | .line _ | .chrysalis _ _ | .l2Line _ _ | .cacheLine _ _ => none

/-- The storage and the block in which an error arises (R386). -/
def errBlock (s : State) (loc : ErrLoc) : Storage × Nat :=
  let core := (errCore s loc).getD 0
  match loc with
  | .line pa => lineStorage s pa
  | .regWord sid r _ => (if (strandOf s sid).any (fun st => isXV (vform st r)) then .xRegs else .formFile, core)
  | .scratchWord _ _ _ => (.scratchpad, core)
  | .wbufWord _ _ => (.weights, core)
  | .accWord _ _ _ _ => (.accumulators, core)
  | .l1Line _ _ => (.l1, core)
  | .strandState _ => (.strandSlots, core)
  | .chrysalis lk t => lineStorage s (((teamOf s lk t).map (fun x => x.record)).getD 0)
  | .l2Line slice _ => (.l2, slice)
  | .cacheLine n _ => (.sideCache, n)

/-- One more corrected error of a block (R386). -/
def countError (s : State) (b : Storage × Nat) : State :=
  let is := fun (e : ErrCount) => e.storage == b.1 && e.block == b.2
  { s with corrected := if s.corrected.any is then updWhere is (fun e => { e with count := e.count + 1 }) s.corrected else s.corrected ++ [⟨b.1, b.2, 1⟩] }

/-- A corrected error is counted; a core whose count passes Mboelaor's threshold, which is not stated, is recorded as failed (R386, R393; DESIGN CHOICE, log 41). -/
def corrected (s : State) (loc : ErrLoc) : State :=
  let s1 := countError s (errBlock s loc)
  match errCore s loc with
  | none => s1
  | some c =>
    let x := coreOf s1 c
    let (fails, s2) := freeBool (putCore s1 { x with corrected := x.corrected + 1 })
    if fails then { s2 with sec := { s2.sec with failedCores := insertNat s2.sec.failedCores c } } else s2

/-- An uncorrectable error in a strand's own state: a precise report, and the indices are killed (R392). -/
def strandLost (s : State) (st : Strand) : State :=
  let c := ctxOfLaunch s st.lk
  let s1 := (withNames (reportOf s st 15 3) (present st)).foldl (fun a r => enqueueReport a c r) s
  let s2 := updLaunch s1 st.lk (fun l => { l with faults := l.faults + 1, status := if l.status = 0 then 2 else l.status })
  wakeTeam (endTeams (closeHalts (dropStrand s2 st.sid) [st] 2) st.lk st.team) st.lk st.team

/-- An uncorrectable error (R388, R391, R392): the word is poisoned where it lies. One in the chrysalis record of a saved team is found when the team is restored. -/
def uncorrected (s : State) (loc : ErrLoc) : State :=
  match loc with
  | .line pa | .l2Line _ pa | .cacheLine _ pa => { s with memPois := insertNat s.memPois (pa / 64) }
  | .regWord sid reg i => updStrand s sid (fun st =>
      let is := match vform st reg with | .x _ => (present st).filter (fun k => k == i) | _ => present st
      { st with
        poison := st.poison ++ (is.map (fun k => (reg, k))).filter (fun e => !st.poison.contains e)
        origin := st.origin.filter (fun e => !(e.1 == reg && (is.contains e.2 || !isXV (vform st reg)))) })
  | .scratchWord lk t off => updTeam s lk t (fun x => { x with scratchPois := insertNat x.scratchPois (off / 4) })
  | .wbufWord c off => let k := coreOf s c; putCore s { k with wbufPois := insertNat k.wbufPois (off / 8) }
  | .accWord lk t m e => updTeam s lk t (fun x => { x with tiles := x.tiles.set m { tileOf x m with pois := insertNat (tileOf x m).pois e } })
  | .l1Line c pa => { s with stores := s.stores.map (fun e => if e.buf == some c && e.space == .dev && decide (e.addr / 64 ≤ pa / 64) &&
      decide (pa / 64 ≤ (e.addr + e.bytes.length - 1) / 64) then { e with pois := true } else e) }
  | .strandState sid => (match strandOf s sid with | some st => strandLost s st | none => s)
  | .chrysalis lk t => (match teamOf s lk t with | some x => if x.saved then updTeam s lk t (fun y => { y with recordLost := true }) else s | none => s)

/-- STORAGE_ERROR (R386, R388). -/
def execStorageError (loc : ErrLoc) (correctable : Bool) (s : State) : Res := finish (if correctable then corrected s loc else uncorrected s loc)

/-- FLIT_CRC_FAIL: retried, or the link retrained and its flits resent, with no value changed; a link that fails retraining halts the device with a
fatal error until a cold reset (R387). -/
def execFlitCrcFail (link : Nat) (retrained : Bool) (s : State) : Res :=
  finish (
    let s1 := countError s (.links, link)
    if retrained then s1
    else { draw s1 with sec := { s1.sec with boot := .fatal, fatalCode := Config.freeNat s1.nfree }, out := s1.out ++ [.text "fatal link error" [link]] })

/-- STOP_RING_CONSUMED: the debugger's count of consumed stop records; waiting records are written while the ring has room (R397, R401). -/
def execStopRingConsumed (c : Nat) (n : Word) (s : State) : Res :=
  finish { s with attaches := updWhere (fun a => a.ctx == c) (fun a => fill { a with stopConsumed := n.toNat } a.stopWaiting) s.attaches }
where
  /-- Write the waiting records that fit. -/
  fill (a : Attach) : List Nat → Attach
    | [] => { a with stopWaiting := [] }
    | r :: rest => if stopRoom a then fill { a with stopRing := ainsert a.stopRing (a.stopN % 1024) r, stopN := a.stopN + 1 } rest else { a with stopWaiting := r :: rest }

end Sys2Proof.Machine
end

