-- ==== Sys2Proof/Machine/Preempt.lean ====
section
/-! DEFINITION. Safe points, pre-emption, the chrysalis record, restoration and time slices (R220, R221, R263, R340, R341, R379 to R385). -/

namespace Sys2Proof.Machine

/-! ### The bits of the chrysalis record (R381, R382) -/

/-- A gang record (R300). -/
def gangBits (s : State) (g : Gang) : Nat :=
  pack [(0, launchId s g.lk), (32, g.firstTeam), (64, g.ntm1), (72, g.queue), (80, g.bypass), (88, g.state), (96, g.ctx), (128, g.hint), (192, g.age % 2 ^ 64)]

/-- STAMPBASE of a team: the slot count at its save, or now. -/
def stampBase (s : State) (t : Team) : Nat := if t.saved then t.stampBase else s.slots

/-- The header (R381). -/
def headerBits (s : State) (t : Team) : Nat :=
  let ss := s.strands.filter (fun st => st.lk == t.lk && st.team == some t.num)
  let count := fun (p : Strand → Bool) => (ss.filter p).foldl (fun a st => a + presentCount st) 0
  -- a gang barrier counts the indices of every team of the gang (R153)
  let gs := s.strands.filter (fun st => st.lk == t.lk && st.team.any (gangTeams s t.lk t.num).contains)
  let bar := fun (k : Nat) => ((if 16 ≤ k then gs else ss).filter (fun st => st.status == .blocked (.bar (decide (16 ≤ k)) (k % 16)))).foldl (fun a st => a + presentCount st) 0 +
    2 ^ 15 * bit (nth t.barParity k false)
  let atM := count (fun st => match st.status with | .blocked (.moult _ _ _) => true | _ => false)
  let g := (s.gangs.find? (fun g => g.lk == t.lk && decide (g.firstTeam ≤ t.num) && decide (t.num ≤ g.firstTeam + g.ntm1))).map (gangBits s)
  pack [(0, launchId s t.lk), (32, t.num), (64, t.kernel.kdesc), (128, g.getD 0), (384, stampBase s t), (448, ss.length), (480, t.gen),
    (512, pack ((List.range 32).map (fun k => (16 * k, bar k)))), (1024, atM + 2 ^ 31 * bit (decide (0 < atM))),
    (1056, pack ((List.range 4).map (fun k => let c := nth t.cmps k ⟨false, 0, false, 0, 0⟩
      (64 * k, pack [(0, bit c.armed), (1, c.cond), (4, bit c.all), (5, c.reg), (32, c.comparand.toNat)])))),
    (1312, t.charge / 1024 % 2 ^ 64), (1376, t.tileSaved), (1384, (BitVec.ofInt 64 t.adv).toNat)]

/-- The scratch address by which a strand names a granule, its own team's or a sibling's (R174, R382). -/
def granuleAddr (s : State) (st : Strand) (i : GranItem) : Nat :=
  i.off / 16 * 16 + if st.team == some i.team then 0 else 0x1000000 + 0x40000 * ((gangTeams s st.lk (st.team.getD 0)).findIdx (fun t => t == i.team))

/-- STATE and WAIT of a strand, with its arguments (R382). -/
def waitCode (s : State) (st : Strand) : Nat × Nat × Nat :=
  match st.status with
  | .parked _ => (2, 0, 0)
  | .ready => (if st.benched then 4 else 0, 0, 0)
  | .blocked w => (1, (match w with
      | .bar gang k => (1, k + if gang then 16 else 0)
      | .join j _ _ => (2, j) | .waitc _ _ _ _ => (3, 0) | .mwait m => (4, m) | .granule g => (5, ((g.items.head?).map (granuleAddr s st)).getD 0)
      | .moult _ _ _ | .moultWait _ _ _ => (6, 0) | .yieldHold _ => (7, 0) | .exitWait => (3, 0) | .rejoin _ _ _ => (2, 0) | .stall _ | .walk _ | .ats _ => (8, 0)))

/-- An entry of the predicate stack over the present indices is (R382). -/
def qBits (is : List Nat) : QForm → Nat
  | .u b => 4 * bit b
  | .c k above => 1 + 4 * bit above + 2 ^ 32 * k
  | .x bs => 2 + 2 ^ 64 * (maskOf ((is.zip bs).filterMap (fun e => if e.2 then some (e.1 % 64) else none))).toNat

/-- A walk (R382). -/
def walkBits (w : Walk) : Nat :=
  pack [(0, bit w.bound), (1, w.n), (32, pack ((List.range 5).map (fun k => (32 * k, nth w.ext k 1)))), (192, pack ((List.range 5).map (fun k => (64 * k, (nth w.str k 0#64).toNat)))),
    (512, pack ((List.range 5).map (fun k => (32 * k, nth w.c k 0)))), (672, pack ((List.range 5).map (fun k => (k, bit (nth w.e k false)))))]

/-- A strand entry (R382); base: STAMPBASE; lo: the team's first index. -/
def strandBits (s : State) (base lo : Nat) (st : Strand) : Nat :=
  let w := waitCode s st
  let (j, n, a) := st.replay.getD (0, 0, 0)
  let lim := match st.status with | .blocked (.waitc l s c t) => pack [(0, l), (11, s), (22, c), (33, t)] | _ => 0
  pack [(0, st.pc.toNat), (64, st.first), (96, (st.count - 1) % 2 ^ 32), (128, (st.mask.getD 0#64).toNat), (192, (BitVec.ofInt 64 (st.stamp - base)).toNat),
    (256, bit st.mask.isSome), (257, if st.halted.isSome then 3 else w.1), (260, w.2.1), (264, st.calls.length), (268, (st.first - lo) / 64),
    (272, w.2.2), (304, match st.status with | .parked k => k | _ => 0), (336, j), (368, n), (400, pack ((List.range 16).map (fun k => (32 * k, nth st.enrol k 0)))),
    (912, pack ((List.range 8).map (fun k => (64 * k, (nth st.calls k 0#64).toNat)))), (1424, pack ((List.range 8).map (fun k => (128 * k, qBits (present st) (qform st k))))),
    (2448, lim), (2492, a % 2 ^ 64), (2556, (st.latch.getD 0).toNat), (2588, bit st.latch.isSome),
    (2592, pack ((List.range 8).map (fun m => (32 * m, (nth st.views m (0, 0)).1.toNat)))), (2848, pack ((List.range 8).map (fun m => (64 * m, (nth st.views m (0, 0)).2)))),
    (4096, pack ((List.range 16).map (fun k => (1024 * k, walkBits (walkOf st k)))))]

/-- A strand's register map (R382): the form of each register, 2 bits; then the content of each U or A register, 64 bits: base in [31:0], stride as a signed number in
[62:32], poison in [63] (DESIGN CHOICE, log 21). What a merge has left undefined is a U form with a free value (R6, R48). -/
def regMapBits (st : Strand) : Nat × Nat :=
  ((List.range 2048).filter (fun r => (alookup st.regs r).isSome || st.undef.isSome)).foldl (fun (a : Nat × Nat) r =>
    let p := 2 ^ 63 * bit (st.poison.any (fun q => q.1 == r))
    match vform st r with
    | .u x => (a.1 + 2 ^ (2 * r), a.2 + (x.toNat + p) * 2 ^ (64 * r))
    | .a x d => (a.1 + 2 * 2 ^ (2 * r), a.2 + (x.toNat + 2 ^ 32 * (d.toNat % 2 ^ 31) + p) * 2 ^ (64 * r))
    | .x _ => (a.1 + 3 * 2 ^ (2 * r), a.2)) (0, 0)

/-- A lane-vector of a window's sheaf: its 64 words, and its poison mask (R34, R380). -/
def sheafBits (ss : List Strand) (win r : Nat) : Nat × Nat :=
  (ss.filter (fun st => st.mask.isSome && st.first / 64 == win)).foldl (fun (a : Nat × Nat) st =>
    match vform st r with
    | .x vals => (((present st).zip vals).foldl (fun n e => n + e.2.toNat * 2 ^ (32 * (e.1 % 64))) a.1,
        a.2 + (maskOf ((st.poison.filter (fun q => q.1 == r)).map (fun q => q.2 % 64))).toNat)
    | _ => a) (0, 0)

/-- A saved tile: its status word and its 4096 elements, where it holds one that is undefined a free value (R6, R210, R380). -/
def tileBits (s : State) (t : Tile) : Nat :=
  pack ((65536 * 8, (statusWord t).toNat) :: (List.range 4096).map (fun e =>
    (128 * e, if (undefElems t).contains e then (Config.freeAcc (s.nfree + e)).toNat else ((alookup t.elems e).getD 0).toNat)))

/-- What a section of a chrysalis record holds (R380): state, a strand with its register map, the lane-vectors of a window, the scratchpad, or a tile. -/
inductive RecKind where
  | state
  | strand (sid : Nat)
  | sheaf (window : Nat)
  | scratch
  | tile (m : Nat)
  deriving DecidableEq, Repr

/-- A section of a chrysalis record: what it holds, its bytes as a number, how many they are, and which of them belong to poisoned words. -/
structure RecSection where
  kind : RecKind
  value : Nat
  size : Nat
  pois : List Nat
  deriving DecidableEq, Repr

/-- The size of a section, which begins at a multiple of 256 bytes (R380). -/
def RecSection.room (x : RecSection) : Nat := (x.size + 255) / 256 * 256

/-- The chrysalis record of a team, section by section (R380). A pending report names its issuing strand by its place in the strand table, in the field of the ticket that it does not
have yet (DESIGN CHOICE, log 21). -/
def recordSections (s : State) (t : Team) : List RecSection :=
  let ss := s.strands.filter (fun st => st.lk == t.lk && st.team == some t.num)
  let base := stampBase s t
  ⟨.state, headerBits s t, 512, []⟩ ::
    ss.map (fun st => ⟨.strand st.sid, pack [(0, strandBits s base (t.num * t.kernel.tsize) st), (20480, (regMapBits st).1), (24576, (regMapBits st).2)], 19456, []⟩) ++
    (List.range (windowCount t.kernel)).map (fun w =>
      let n := windowBudget t.kernel w
      let lane := fun r => sheafBits ss (t.num * windowCount t.kernel + w) r
      ⟨.sheaf (t.num * windowCount t.kernel + w), pack ((List.range n).flatMap (fun r => [(2048 * r, (lane r).1), (2048 * n + 64 * r, (lane r).2)])), 264 * n, []⟩) ++
    [⟨.scratch, pack [(0, ofBytes (memGets t.scratch 0 t.kernel.scratch)), (8 * t.kernel.scratch, pack (t.full.map (fun g => (g, 1))))], t.kernel.scratch + t.kernel.scratch / 128,
      t.scratchPois.map (fun w => 4 * w)⟩] ++
    ((List.range 8).filter (bitOf t.tileSaved)).map (fun m => ⟨.tile m, tileBits s (tileOf t m), 65540, (tileOf t m).pois.map (fun e => 16 * e)⟩) ++
    [⟨.state, pack ((List.range 32).map (fun k => (512 * k, (nth t.layout k 0).toNat))), 2048, []⟩] ++
    ((List.range ss.length).zip ss).flatMap (fun e => (undelivered s e.2).flatMap (fun o => o.faults.map (fun r => ⟨.state, reportBits { r with ticket := e.1 } 0, 256, []⟩)))

/-- The record as the numbers of its sections. -/
def chrysalis (s : State) (t : Team) : List Nat := (recordSections s t).map (fun x => x.value)

/-- Sections with the offset at which each begins in the record. -/
def placedAt : Nat → List RecSection → List (Nat × RecSection)
  | _, [] => []
  | a, x :: xs => (a, x) :: placedAt (a + x.room) xs

/-- Where a record of n bytes is kept, in memory that no context's tables map: where the last one was, if it has the room, or where one is that is over, or in new pages (R380). -/
def recordPlace (s : State) (t : Team) (n : Nat) : Option (Nat × Nat × State) :=
  if n ≤ t.recordRoom then some (t.record, t.recordRoom, s)
  else match s.oldRecords.find? (fun r => decide (n ≤ r.2)) with
    | some r => some (r.1, r.2, { s with oldRecords := s.oldRecords.erase r })
    | none => (allocSys s n).map (fun r => (r.1, (n + 65535) / 65536 * 65536, r.2))

/-- The bytes of a record as memory holds them: enciphered by units of 256 bytes under the key that Mboelaor reserves for a context with encrypted pages (R380). -/
def recordBytes (s : State) (c a : Nat) (xs : List RecSection) : List Byte :=
  let plain := xs.flatMap (fun x => toBytes x.room x.value)
  if s.sec.keys.any (fun k => k.ctx == c) then
    (List.range (plain.length / 256)).flatMap (fun u =>
      let e := Config.encipher (Config.recordKey c) (a / 256 + u) ((plain.drop (256 * u)).take 256)
      (List.range 256).map (fun k => nth e k 0))
  else plain

/-- A register of a strand has been written since the last save or restore (R383). -/
def regDirty (st : Strand) (r : Nat) : Bool := (st.dirty.map (fun d => d.contains r)).getD true

/-- The dirty bit of a lane-vector of a window's sheaf: that of the register of some strand that holds its X form there (R383; DEDUCED, log 116). -/
def laneDirty (ss : List Strand) (win r : Nat) : Bool := ss.any (fun st => st.mask.isSome && st.first / 64 == win && isXV (vform st r) && regDirty st r)

/-- A line of a section, by where it begins there, holds items alone that are not dirty: register words of a strand, lane-vectors with their poison masks, or blocks of scratch. A save writes every
other field (R383). ss: the strands of the team; blocks: its dirty blocks of scratch. -/
def cleanLine (ss : List Strand) (t : Team) (x : RecSection) (off : Nat) : Bool :=
  match x.kind with
  | .strand sid => decide (3072 ≤ off) && (List.range' ((off - 3072) / 8) 8).all (fun r => (ss.filter (fun st => st.sid == sid)).all (fun st => !regDirty st r))
  | .sheaf w =>
    let n := x.size / 264
    if off < 256 * n then !laneDirty ss w (off / 256) else (List.range' ((off - 256 * n) / 8) 8).all (fun r => !laneDirty ss w r)
  | .scratch => decide (off + 64 ≤ t.kernel.scratch) && !t.dirtyBlocks.contains (off / 1024)
  | .state | .tile _ => false

/-- The lines of a record of sections that begins at a which this save leaves as an earlier one wrote them: those of items that are not dirty, where the record lies where it did, with the same
strands (R383). -/
def keptLines (ss : List Strand) (t : Team) (a : Nat) (xs : List RecSection) : List Nat :=
  if t.recordRoom = 0 || t.record ≠ a || t.recordSids ≠ ss.map (fun st => st.sid) then []
  else (placedAt a xs).flatMap (fun e => ((List.range (e.2.room / 64)).filter (fun k => cleanLine ss t e.2 (64 * k))).map (fun k => e.1 / 64 + k))

/-- The record of a saved team is written: every field of its state, and the items that are dirty; the lines of other items keep what an earlier save left there, their poison with it
(R383). A poisoned word of scratch or of a tile poisons its line (R391). was: the machine as the save began, with its dirty bits. -/
def storeRecord (was s : State) (lk num : Nat) : State :=
  match teamOf s lk num, teamOf was lk num with
  | some t, some t0 =>
    let xs := recordSections s t
    let n := xs.foldl (fun a x => a + x.room) 0
    match recordPlace s t n with
    | none => s
    | some (a, room, s1) =>
      let ss := was.strands.filter (fun st => st.lk == lk && st.team == some num)
      let kept := keptLines ss t0 a xs
      let bytes := recordBytes s1 (ctxOfLaunch s lk) a xs
      let sick := ((placedAt a xs).flatMap (fun e => e.2.pois.map (fun o => (e.1 + o) / 64))).filter (fun l => !kept.contains l)
      { updTeam s1 lk num (fun t => { t with record := a, recordRoom := room, recordSids := ss.map (fun st => st.sid) }) with
        mem := ((List.range (n / 64)).filter (fun k => !kept.contains (a / 64 + k))).foldl (fun m k => memPuts m (a + 64 * k) ((bytes.drop (64 * k)).take 64)) s1.mem
        memPois := sick.foldl insertNat (s1.memPois.filter (fun l => kept.contains l || !(decide (a / 64 ≤ l) && decide (l < (a + n) / 64)))) }
  | _, _ => s

/-- The entries of a launch in the buffers drain, and those that its indices have observed (R263). -/
def drainLaunch (s : State) (lk : Nat) : State :=
  let es := s.stores.filter (fun e => e.buf.isSome && ((match e.writer with | .index l _ => l == lk | .engine _ l _ => l == lk | _ => false) || s.obs.any (fun o => o.lk == lk && o.store == e.id)))
  es.foldl (fun a e => drainThese a (e.buf.getD 0) [e.id]) s

/-- What a launch keeps where it goes (R357): its vector, its image's key, and its completion queue. -/
def keptOf (s : State) (l : Launch) : List Nat :=
  let image := ((ctxOf s l.ctx).bind (fun x => x.images.find? (fun i => i.kdesc == l.kernel.kdesc))).map (fun i => i.key.toNat)
  [l.features, image.getD 0] ++ ((s.userqs.find? (fun u => u.q == l.queue && u.ctx == l.ctx)).map (fun u => [u.cring, u.k, u.cnext, u.cdone])).getD []

/-- The record of a launch that moves: its grid, hints, user tag, presets and account, and whether it has begun (R295, R357, R402). -/
def launchVals (l : Launch) : List Nat :=
  [l.id, l.utag, bit l.nocompl, l.grid, l.hintBase, (BitVec.ofInt 64 l.hintStr).toNat, l.kernel.kdesc, l.numver, l.recAddr, l.spill, l.seed, bit l.begun, l.status, l.tstart, l.faults,
   bit l.gprof, bit l.gmig, l.account.t0] ++ l.account.dur ++ l.presets.flatMap (fun p => [p.1, p.2.toNat])

/-- The release records of a launch's indices and the records of its granules' settings, as they leave: whose they are, and the scope (R247, R258, R263). -/
def relVals (s : State) (lk : Nat) : List Nat :=
  let scope := fun (r : RelRec) => (match r.scope.scope with | .team => 0 | .gang => 1 | .die => 2 | .dev => 3 | .sys => 4) ::
    (r.scope.members.filter (fun m => m.1 == lk)).flatMap (fun m => [m.2.1, m.2.2])
  (s.rels.filter (fun e => e.lk == lk)).flatMap (fun e => e.lo :: e.hi :: scope e.rel) ++ (s.gsets.filter (fun e => e.lk == lk)).flatMap (fun e => e.team :: e.gran :: scope e.rel)

/-- The host leaves of the tables of a launch's context, as they leave (R326, R357). -/
def hostVals (s : State) (c : Nat) : List Nat :=
  ((ctxOf s c).map (fun x => (hostLeavesFrom s [4, 3, 2, 1] x.root 0).flatMap (fun p => [p.1, p.2.1, bit p.2.2.1, bit p.2.2.2]))).getD []

/-- A launch that is moving has every team saved, and no operation of the strands that no team has is outstanding: its buffered entries drain, and its records leave over the
Ethernet ports with the memory of its context, and nothing of it stays (R263, R357). -/
def departIfSaved (s0 : State) (lk : Nat) : State :=
  match launchOf s0 lk with
  | some l => (match l.moving with
    | some dev =>
      let s := drainLaunch s0 lk
      if l.complete || s.teams.any (fun t => t.lk == lk && t.placed && !t.ended && !t.saved) || s.ops.any (fun o => o.lk == lk && !o.done) then s0
      else
        let loose := s.strands.filter (fun st => st.lk == lk && (st.pending || st.team.isNone))
        let recs := (s.teams.filter (fun t => t.lk == lk && !t.ended)).flatMap (chrysalis s) ++
          loose.flatMap (fun st => [strandBits s s.slots st.first st, (regMapBits st).1, (regMapBits st).2])
        updLaunch { s with
          out := s.out ++ [.text "launch moves to device" (dev :: l.id :: recs), .text "launch record" (launchVals l), .text "release records" (relVals s lk),
            .text "what the launch keeps" (keptOf s l), .text "host pages of the context" (hostVals s l.ctx), .text "memory of the context" (((ctxOf s l.ctx).map (contextImage s)).getD [])]
          strands := s.strands.filter (fun t => t.lk != lk), ops := s.ops.filter (fun o => o.lk != lk), teams := s.teams.filter (fun t => t.lk != lk)
          gangs := s.gangs.filter (fun g => g.lk != lk), gsets := s.gsets.filter (fun e => e.lk != lk), rels := s.rels.filter (fun e => e.lk != lk), stops := s.stops.filter (fun t => t.lk != lk)
          dies := s.dies.map (fun d => { d with queues := d.queues.map (fun y => { y with accepted := y.accepted.filter (fun k => k != lk) }) }) } lk
          (fun l => { l with complete := true, tend := s.time })
    | none => s0)
  | none => s0

/-- What follows a save: a dump returns the record, and a moving launch leaves when its last team is saved (R357, R396). -/
def afterSave (s : State) (lk num : Nat) : State :=
  let s1 := if s.dumps.any (fun d => d.lk == lk) then
    (match teamOf s lk num with | some t => { s with out := s.out ++ [.text "chrysalis record" (chrysalis s t)] } | none => s) else s
  departIfSaved s1 lk

/-! ### Stopping and saving a team (R220, R379) -/

/-- The strands of a team. -/
def ofTeam (lk num : Nat) (st : Strand) : Bool := st.lk == lk && st.team == some num

/-- Every operation of a team has finished, in every class, those among them that its indices issued before its placement (R379). -/
def teamQuiet (s : State) (lk num : Nat) : Bool :=
  !s.ops.any (fun o => !o.done && ((o.lk == lk && o.team == some num) || s.strands.any (fun st => ofTeam lk num st && st.ops.contains o.oid)))

/-- What a strand is saved as: a wait for a translation is one that issues again (R342, R382), and nothing is dirty (R383). -/
def savedStrand (st : Strand) : Strand := { st with dirty := some [], status := match st.status with | .blocked (.walk _) | .blocked (.ats _) => .blocked (.stall Need.none) | x => x }

/-- Walks and translations answer some strands no more: what they wait for they ask again (R342). -/
def forgetWalks (s : State) (sids : List Nat) : State :=
  let f := fun (xs : List Nat) => xs.filter (fun x => !sids.contains x)
  { s with walkReqs := s.walkReqs.map (fun r => { r with sids := f r.sids }), atsReqs := s.atsReqs.map (fun r => { r with sids := f r.sids })
           walkRes := s.walkRes.filter (fun r => !sids.contains r.sid) }

/-- TEAM_SAVE: what the team's indices have buffered or observed in the core's buffer drains, the tiles that the mask does not name are lost, and the team leaves its
core; the weight buffer is saved as it stands now for every saved team of the core (R220, R221, R263, R379 to R383). -/
def saveTeam (s : State) (lk num mask : Nat) : State :=
  match teamOf s lk num with
  | none => s
  | some t =>
    let s1 := drainWhere (leaveCore s lk t.core (List.range' (num * t.kernel.tsize) t.kernel.tsize)) t.core (fun e => match e.writer with
      | .engine _ l n => l == lk && n == num | _ => false)
    let c := coreOf s1 t.core
    let s2 := forgetWalks { s1 with strands := updWhere (ofTeam lk num) savedStrand s1.strands } ((s1.strands.filter (ofTeam lk num)).map (fun st => st.sid))
    let s3 := updTeam s2 lk num (fun t => { t with
      saved := true, preempt := false, stopMask := none, tileSaved := mask, gen := t.gen + 1, stampBase := s.slots, savedAt := s.time
      dirtyBlocks := [], tiles := (List.range 8).map (fun k => { (if bitOf mask k then tileOf t k else Tile.clear) with dirty := false }) })
    let mates := fun (x : Team) => x.saved && x.core == t.core && ctxOfLaunch s x.lk == ctxOfLaunch s lk && decide (t.reqAt ≤ x.savedAt)
    let ts := updWhere mates (fun x => { x with wsave := c.wbuf, wsavePois := c.wbufPois, wsaveLog := c.wlog }) s3.teams
    afterSave (traceRecord (storeRecord s { s3 with teams := ts } lk num) lk 5 num (t.gen + 1)) lk num

/-- Save a team that has stopped and whose operations have finished. -/
def saveIfReady (s : State) (lk num : Nat) : State :=
  match teamOf s lk num with
  | some t => (match t.stopMask with | some m => if !t.saved && teamQuiet s lk num then saveTeam s lk num m else s | none => s)
  | none => s

/-- SAFEPT (R220): with a pre-emption of the team pending, it stops the team. -/
def execSafept (h : Hdr) (mask : BitVec 8) (s : State) : Res :=
  strandFrame h 8 [] true false (fun s st =>
    let team := st.team.getD 0
    let s1 := advance s st.sid 8
    match teamOf s1 st.lk team with
    | some t => if t.preempt && t.stopMask.isNone then endRun (saveIfReady (updTeam s1 st.lk team (fun t => { t with stopMask := some (mask.toNat &&& t.kernel.acc) })) st.lk team) else s1
    | none => s1) s

/-- Request the pre-emption of every team of a gang (R316, R340, R379). -/
def requestGang (s : State) (lk team : Nat) : State :=
  (gangTeams s lk team).foldl (fun a t => updTeam a lk t (fun x =>
    if x.placed && !x.ended && !x.saved && !x.preempt then { x with preempt := true, reqAt := s.time } else x)) s

/-- PREEMPT_REQUEST: a gang is pre-empted as a whole; a team that no strand can bring to a safe point waits for the time limit (R220, R316, R379). -/
def execPreemptRequest (lk team : Nat) (s : State) : Res := finish (requestGang s lk team)

/-- SAFEPT_TIMEOUT: 50 µs after the request a team that has met no safe point is stopped at instruction boundaries, with all eight tiles to be
saved; a stopped team is saved once its operations have finished (R220, R379). -/
def execSafeptTimeout (lk team : Nat) (s : State) : Res :=
  finish (match teamOf s lk team with
    | none => s
    | some t =>
      if t.saved || !t.preempt then s
      else
        let s1 := if t.stopMask.isNone && decide (t.reqAt + 50000 ≤ s.time) then updTeam s lk team (fun t => { t with stopMask := some 255 }) else s
        saveIfReady s1 lk team)

/-! ### Restoring (R221, R316, R384) -/

/-- The saved teams that must come back together: those of a team's gang, and those that shared a core with one of them (R221, R316). -/
def together (s : State) (c : Nat) : Nat → List Team → List Team
  | 0, ts => ts
  | n + 1, ts =>
    let more := s.teams.filter (fun t => t.placed && !t.ended && ctxOfLaunch s t.lk == c &&
      ts.any (fun x => (x.lk == t.lk && x.num / gangWidth x.kernel == t.num / gangWidth t.kernel) ||
        (x.core == t.core && t.saved && decide (x.reqAt ≤ t.savedAt) && decide (t.reqAt ≤ x.savedAt))))
    if more.length ≤ ts.length then ts else together s c n more

/-- The core of another cluster that stands where a core stands in its own. -/
def sameSeat (core die cl : Nat) : Nat := die * Config.dieCores + cl * Config.clusterCores + core % Config.clusterCores

/-- Whether a set of teams fits a cluster that is not held for a waiting gang, each on the same seat, with its own partitions and accumulator slots; a seat holds no
other team, since its weight buffer is to be theirs (R221, R305, R307; DEDUCED, log 20). -/
def fitsSeats (s : State) (c : Nat) (ts : List Team) (die cl : Nat) : Bool :=
  (dieOf s die).held != some cl && (ts.map (fun t => t.core)).all (fun core =>
    let here := ts.filter (fun t => t.core == core)
    let seat := sameSeat core die cl
    let r := roomOf s c [] seat
    let need := fun p => here.foldl (fun a t => a + ((t.sheafPart.zip t.lanes).filter (fun e => e.1 == p)).foldl (fun a e => a + e.2) 0) 0
    !(coreOf s seat).failed && !r.foreign && (teamsOn s seat []).all (fun t => t.ended) && decide (here.foldl (fun a t => a + t.kernel.roles.length) 0 ≤ r.slots) &&
      decide (here.foldl (fun a t => a + t.held) 0 ≤ r.scratch) && here.all (fun t => t.accSlots.all r.acc.contains) &&
      (List.range 4).all (fun p => decide (need p ≤ nth r.lanes p 0)))

/-- The poison that a line of a record brings when it is loaded: a line of words poisons them, and one of any other state loses the record (R388, R391, R392). off: where the line
begins in its section. -/
def loadLine (lk num : Nat) (x : RecSection) (off : Nat) (s : State) : Option State :=
  let add := fun (r : Nat) (is : List Nat) (es : List (Nat × Nat)) => (is.map (fun i => (r, i))).foldl (fun a e => if a.contains e then a else a ++ [e]) es
  let words := fun (a : State) (sid r : Nat) (is : List Nat) => updStrand a sid (fun st => { st with poison := add r is st.poison, origin := add r is st.origin })
  match x.kind with
  | .state => none
  | .strand sid => if off < 3072 then none else
      some ((List.range' ((off - 3072) / 8) 8).foldl (fun a r => match (strandOf a sid).filter (fun st => !isXV (vform st r)) with
        | some st => words a sid r (present st)
        | none => a) s)
  | .sheaf w =>
    if 256 * (x.size / 264) ≤ off then none
    else
      let r := off / 256
      let is := List.range' (64 * w + off % 256 / 4) 16
      some ((s.strands.filter (fun st => st.lk == lk && st.team == some num && st.mask.isSome && st.first / 64 == w && isXV (vform st r))).foldl
        (fun a st => words a st.sid r ((present st).filter is.contains)) s)
  | .scratch => some (updTeam s lk num (fun t => if t.kernel.scratch ≤ off then t else { t with scratchPois := (List.range' (off / 4) 16).foldl insertNat t.scratchPois }))
  | .tile m =>
    if 65536 ≤ off then none
    else some (updTeam s lk num (fun t => { t with tiles := t.tiles.set m { tileOf t m with pois := (List.range' (off / 16) 4).foldl insertNat (tileOf t m).pois } }))

/-- The record of a team is loaded with the poison of its lines; none where an error loses it (R384, R392). -/
def loadRecord (s : State) (t : Team) : Option State :=
  if t.recordLost then none
  else if t.recordRoom = 0 then some s
  else (placedAt t.record (recordSections s t)).foldl (fun (a : Option State) e =>
    (s.memPois.filter (fun l => decide (e.1 ≤ 64 * l) && decide (64 * l < e.1 + e.2.room))).foldl (fun b l => b.bind (loadLine t.lk t.num e.2 (64 * l - e.1))) a) (some s)

/-- An uncorrectable error is found in a record when it is to be restored: one report, and the team's launch ends with STATUS 2 (R372, R392; DESIGN CHOICE, log 98). -/
def recordFault (s : State) (t : Team) : State :=
  let is := ((s.strands.filter (ofTeam t.lk t.num)).flatMap present).mergeSort (fun a b => decide (a ≤ b))
  let r := { Report.blank with kind := 15, cause := 3, launch := launchId s t.lk, tsize := tsizeOf s t.lk }
  let s1 := (withNames r is).foldl (fun a r => enqueueReport a (ctxOfLaunch s t.lk) r) s
  killLaunch 2 (updLaunch s1 t.lk (fun l => { l with faults := l.faults + 1 })) t.lk

/-- One team comes back on its new core: its strands keep the order of their stamps, and every wait is taken up again (R384). -/
def restoreTeam (s : State) (t : Team) (die cl : Nat) : State :=
  let seat := sameSeat t.core die cl
  let c := ctxOfLaunch s t.lk
  let s1 := claimCore s seat c
  let k := coreOf s1 seat
  let s2 := putCore s1 { k with wbuf := t.wsave, wbufPois := t.wsavePois, wlog := t.wsaveLog }
  let s3 := updTeam s2 t.lk t.num (fun x => { x with saved := false, core := seat, dirtyBlocks := [], tiles := x.tiles.map (fun y => { y with dirty := false }) })
  -- every stamp moves by one offset; a strand that became ready while it was saved is the youngest (R309, R384)
  let s4 := { s3 with strands := updWhere (ofTeam t.lk t.num) (fun st =>
    { st with core := seat, dirty := some [], stamp := min (slotNow s3) (st.stamp - t.stampBase + slotNow s3) }) s3.strands }
  traceRecord s4 t.lk 6 t.num seat

/-- TEAM_RESTORE: the gang and all that shared its cores come back together, on the first cluster that they fit, or not at all; the context's
slice begins (R221, R316, R340, R384). -/
def execTeamRestore (lk team : Nat) (s : State) : Res :=
  finish (match teamOf s lk team with
    | none => s
    | some t =>
      let c := ctxOfLaunch s lk
      let ts := together s c s.teams.length [t]
      if !t.saved || ts.any (fun x => !x.saved || frozen s x.lk) then s
      else
        let ds := partitionDies s (((ctxOf s c).map (fun x => x.part)).getD 0)
        match (ds.flatMap (fun d => (List.range Config.clusters).map (fun cl => (d, cl)))).find? (fun p => fitsSeats s c ts p.1 p.2) with
        | none => s
        | some (d, cl) =>
          match ts.filter (fun x => (loadRecord s x).isNone) with
          | x :: xs => (x :: xs).foldl recordFault s
          | [] =>
            let s1 := takeCores s c
            let s2 := ts.foldl (fun a x => restoreTeam ((loadRecord a x).getD a) x d cl) s1
            ts.foldl (fun a x => wakeTeam a x.lk (some x.num)) (wakeStalls (serveDeferred s2)))

/-! ### Time slices (R340, R341, R385) -/

/-- A context has work that waits in its partition and that a turn could bring on: a pending gang of a queue with EN set, a launch that has not begun, or saved teams, none of a launch
whose teams stay off the device (R301, R340, R357, R396). -/
def hasPending (s : State) (c : Nat) : Bool :=
  s.gangs.any (fun g => g.ctx == c && g.state == 0 && !frozen s g.lk && (queueOf s g.die g.queue).any (fun q => q.en)) ||
    s.launches.any (fun l => l.ctx == c && !l.begun && !l.complete && !l.killed && !frozen s l.lk) ||
    s.teams.any (fun t => ctxOfLaunch s t.lk == c && t.saved && !t.ended && !frozen s t.lk)

/-- A strand that is halted or parked. -/
def stands (t : Strand) : Bool := t.halted.isSome || (match t.status with | .parked _ => true | _ => false)

/-- Every strand of a context is halted, parked, or blocked where only such strands could release it, one of them at least halted or parked: the slicer skips it. A granule is
set by no other while no operation of the context is outstanding (R340, R385). -/
def idleContext (s : State) (c : Nat) : Bool :=
  let ss := s.strands.filter (fun t => ctxOfLaunch s t.lk == c)
  ss.any stands && ss.all (fun t => stands t || (match t.status with
    | .blocked (.bar _ _) | .blocked (.join _ _ _) | .blocked (.moult _ _ _) => true
    | .blocked (.granule _) => !s.ops.any (fun o => ctxOfLaunch s o.lk == c && !o.done)
    | _ => false))

/-- The priority of a context that is in effect: a change waits for its next slice boundary (R323). -/
def prioNow (s : State) (x : Ctx) : Nat := if x.sliceFrom + 1000 * x.sliceAt ≤ s.time then x.prio else x.prioAt

/-- No pending work of a context can be placed as things stand: no gang fits a cluster, no launch finds a seed core, no saved team its seat; none of it is placed while the
context waits for its next slice (R299, R305, R340). -/
def cannotPlace (s : State) (y : Ctx) : Bool :=
  let ds := partitionDies s y.part
  y.held || !(
    s.gangs.any (fun g => g.ctx == y.num && g.state == 0 && ((launchOf s g.lk).map (fun l =>
      (List.range Config.clusters).any (fun cl => (fitsCluster s g.die g.ctx l.kernel (g.ntm1 + 1) [] cl).isSome))).getD false) ||
    s.launches.any (fun l => l.ctx == y.num && !l.begun && !l.complete && !l.killed && (List.range' (l.seed * Config.dieCores) Config.dieCores).any (seedCoreOk s y.num)) ||
    s.teams.any (fun t => ctxOfLaunch s t.lk == y.num && t.saved && !t.ended &&
      ds.any (fun d => (List.range Config.clusters).any (fun cl => fitsSeats s y.num (together s y.num s.teams.length [t]) d cl))))

/-- The contexts for which a context that holds cores of the partition gives them up: at the end of its slice those of equal or higher priority with pending work,
and before it those of higher priority whose work cannot be placed (R340). -/
def rivals (s : State) (x : Ctx) : List Ctx :=
  let spent := decide (x.sliceFrom + 1000 * x.sliceAt ≤ s.time)
  if !holdsCores s x.num then []
  else s.ctxs.filter (fun y => y.valid && y.num != x.num && y.part == x.part && hasPending s y.num && !idleContext s y.num &&
    ((decide (prioNow s x < prioNow s y) && cannotPlace s y) || (spent && decide (prioNow s x ≤ prioNow s y))))

/-- Of contexts that wait, the one whose slice is next: of the highest priority, and of these the one whose last slice began first (R340; DESIGN CHOICE, log 82). -/
def nextOf (s : State) (ys : List Ctx) : Option Ctx :=
  ys.foldl (fun (b : Option Ctx) z => match b with
    | none => some z
    | some x => if prioNow s x < prioNow s z || (prioNow s x = prioNow s z && z.sliceFrom < x.sliceFrom) then some z else b) none

/-- A context is in its slice: it waits for none, and has cores of its partition, or work for them while the time of its slice lasts (R340; DESIGN CHOICE, log 82). -/
def inSlice (s : State) (x : Ctx) : Bool :=
  x.valid && !x.held && !idleContext s x.num && (holdsCores s x.num || (hasPending s x.num && decide (s.time < x.sliceFrom + 1000 * x.sliceAt)))

/-- The context of a partition whose slice begins because no context there is in one (R340). -/
def nextTurn (s : State) (part : Nat) : Option Ctx :=
  let xs := s.ctxs.filter (fun x => x.part == part)
  if xs.any (inSlice s) then none else nextOf s (xs.filter (fun x => x.valid && x.held && hasPending s x.num && !idleContext s x.num))

/-- SLICE_EXPIRY: the pre-emption of every team of the context is requested, its gangs wait for its next slice, and the slice of the next context begins. Of a context
that waits, the next slice begins where no context of its partition is in one. A pre-placement strand, which no record holds, goes on where it is (R340;
DESIGN CHOICE, log 82). -/
def execSliceExpiry (c : Nat) (s : State) : Res :=
  finish (match ctxOf s c with
    | none => s
    | some x =>
      if x.held then (if (nextTurn s x.part).any (fun y => y.num == c) then beginSlice s c else s)
      else match nextOf s (rivals s x) with
        | none => s
        | some next =>
          let s1 := (s.teams.filter (fun t => ctxOfLaunch s t.lk == c)).foldl (fun a t => requestGang a t.lk t.num) s
          beginSlice (updCtx s1 c (fun x => { x with held := true })) next.num)

/-- A team of a context that has stopped for pre-emption has waited 10 ms more for an operation (R341). -/
def overrun (s : State) (c : Nat) : Bool :=
  s.teams.any (fun t => ctxOfLaunch s t.lk == c && t.preempt && t.stopMask.isSome && !t.saved && teamBusy s t.lk t.num && decide (t.reqAt + 10050000 ≤ s.time))

/-- SLICE_OVERRUN_KILL: the context is killed, and the kill is reported (R341, R375). -/
def execSliceOverrunKill (c : Nat) (s : State) : Res :=
  finish (if overrun s c then enqueueReport (killContext 2 s c) c { Report.blank with cls := 4, kind := 18, info := 1 } else s)

end Sys2Proof.Machine
end

