-- ==== Sys2Proof/Machine/Calls.lean ====
section
/-! DEFINITION. The calls of the resident system (R273, R281, R292, R323, R334 to R336, R344, R348 to R350, R356, R357, R359, R360). -/

namespace Sys2Proof.Machine

/-! ### The frame of a call (R348) -/

/-- The answer of a call leaves the device. -/
def answer (s : State) (r : Int) : State := { s with out := s.out ++ [.call r] }

/-- A call: while Mboelaor runs, on behalf of a context that exists; a privileged one by a privileged context or through the mailbox only. A call
with an error changes nothing. -/
def called (priv : Bool) (c : Caller) (s : State) (f : Ctx → Int × State) : Res :=
  if !serving s then .next s
  else match ctxOf s c.ctx with
    | none => .next (answer s (-2))
    | some x =>
      if !x.valid then .next (answer s (-2))
      else if priv && !x.priv && !c.mailbox then .next (answer s (-4))
      else
        let (r, t) := f x
        if r < 0 then .next (answer s r) else finish (answer t r)

/-- Whether a context may make a privileged call now (R348). -/
def mayCall (c : Caller) (s : State) : Bool := serving s && (ctxOf s c.ctx).any (fun x => x.valid && (x.priv || c.mailbox))

/-- A call waits until the device is ready for it, and is made then (R273, R281); one that has been made, or has failed, waits no more. -/
def pend (i : Instr) (s : State) : State := if s.pendingCalls.contains i then s else { s with pendingCalls := s.pendingCalls ++ [i] }
def unpend (i : Instr) (s : State) : State := { s with pendingCalls := s.pendingCalls.filter (fun x => x != i) }

/-! ### Launches and queues (R298, R301, R344, R346, R360) -/

/-- LAUNCH, 0x00. -/
def execEcallLaunch (c : Caller) (addr q : Nat) (s : State) : Res :=
  called false c s fun _ =>
    if !ownsQueue s c.ctx q then (-2, s)
    else match vRead s c.ctx addr 128 with
      | (none, _) => (-2, s)
      | (some bs, s1) =>
        let (id, s2) := takeRecord s1 c.ctx q (ofBytes bs) addr .ecall s.time []
        (id, s2)

/-- Every page of a range is memory of the context (R344). -/
def inMemory (s : State) (c va n : Nat) : Bool :=
  decide (va + n ≤ 2 ^ 48) && (List.range' (va / 4096) ((va + n - 1) / 4096 + 1 - va / 4096)).all (fun p => (vTrans (askPage (makeResident s c p) c p) c (p * 4096)).isSome)

/-- The first of n numbers from k up that satisfies p. -/
def firstFrom (p : Nat → Bool) : Nat → Nat → Option Nat
  | 0, _ => none
  | n + 1, k => if p k then some k else firstFrom p n (k + 1)

/-- The lowest number below a bound that satisfies p. -/
def lowest (n : Nat) (p : Nat → Bool) : Option Nat := firstFrom p n 0

/-- QCREATE, 0x01. -/
def execQcreate (c : Caller) (ring k cring prio quantum : Nat) (s : State) : Res :=
  called false c s fun x =>
    if k < 2 || 16 < k || 3 < prio || 2 ^ 32 ≤ quantum || ring % (128 * 2 ^ k) ≠ 0 || cring % (32 * 2 ^ k) ≠ 0 ||
        !inMemory s c.ctx ring (128 * 2 ^ k) || !inMemory s c.ctx cring (32 * 2 ^ k) then (-2, s)
    else match lowest 256 (fun q => !s.userqs.any (fun u => u.q == q)) with
      | none => (-3, s)
      | some q =>
        let s1 := { s with userqs := s.userqs ++ [⟨q, c.ctx, ring, k, cring, 0, 0, false, 0, 0, []⟩] }
        (q, (mapDies s x.part).foldl (fun a d =>
          let y := dieOf a d
          putDie a { y with queues := y.queues.filter (fun z => z.q != q) ++ [QueueReg.fresh q c.ctx prio quantum] }) s1)

/-- End the launches of a context that satisfy p, with this status: each is killed and completes, and the completion records are written while
their rings have room (R342, R360). -/
def endLaunches (status : Nat) (s : State) (p : Launch → Bool) : State :=
  let ls := s.launches.filter (fun l => !l.complete && p l)
  let s1 := (ls.map (fun l => l.lk)).foldl (killLaunch status) s
  let s2 := ls.foldl (fun a l => completeLaunch l.lk a) s1
  (ls.map (fun l => l.queue)).foldl writeCompletions s2

/-- QDESTROY, 0x02: the records that wait are written as far as the ring has room (R347). -/
def execQdestroy (c : Caller) (q : Nat) (s : State) : Res :=
  called false c s fun _ =>
    if !ownsQueue s c.ctx q then (-2, s)
    else
      let s1 := writeCompletions (endLaunches 3 s (fun l => l.ctx == c.ctx && l.queue == q)) q
      (0, { s1 with
        userqs := s1.userqs.filter (fun u => u.q != q)
        dies := s1.dies.map (fun d => { d with queues := d.queues.filter (fun y => y.q != q) }) })

/-- QPARAM, 0x03. -/
def execQparam (c : Caller) (q prio quantum byplim : Nat) (s : State) : Res :=
  called false c s fun x =>
    if !ownsQueue s c.ctx q || 3 < prio || 2 ^ 32 ≤ quantum || 255 < byplim then (-2, s)
    else (0, (mapDies s x.part).foldl (fun a d => updQueue a d q (fun y => { y with prio := prio, quantum := quantum, byplim := byplim })) s)

/-- TASKSET, 0x04 (R350). -/
def execTaskset (c : Caller) (id addr : Nat) (s : State) : Res :=
  called false c s fun x =>
    if taskN x ≤ id then (-2, s)
    else
      let at' := x.tasktab + 128 * id
      if addr = 0 then
        let e := taskEntry s x id
        (0, { s with mem := memPuts s.mem at' (toBytes 128 (e - 2 ^ 24 * bit (bitOf e 24))) })
      else match vRead s c.ctx addr 128 with
        | (none, _) => (-2, s)
        | (some bs, s1) => if !ownsQueue s c.ctx (parseLaunch (ofBytes bs)).queue then (-2, s) else (0, { s1 with mem := memPuts s1.mem at' bs })

/-- HQCREATE, 0x05 (R187). -/
def execHqcreate (c : Caller) (k : Nat) (s : State) : Res :=
  called false c s fun x =>
    if k < 4 || 20 < k then (-2, s)
    else match lowest 65536 (fun n => !x.hqs.any (fun q => q.num == n)) with
      | none => (-3, s)
      | some n => (n, updCtx s c.ctx (fun x => { x with hqs := x.hqs ++ [⟨n, k, []⟩] }))

/-- HQDESTROY, 0x06. -/
def execHqdestroy (c : Caller) (handle : Nat) (s : State) : Res :=
  called false c s fun x =>
    if !x.hqs.any (fun q => q.num == handle) then (-2, s)
    else (0, updCtx s c.ctx (fun x => { x with hqs := x.hqs.filter (fun q => q.num != handle) }))

/-! ### Memory (R326, R330, R334 to R336) -/

/-- The key id that a handle of MAP stands for: 0 for handle 0, else one assigned to the context (R334, R335). -/
def mapKey (s : State) (x : Ctx) (h : Nat) : Option Nat :=
  if h = 0 then some 0
  else if x.keyn ≤ h then none
  else
    let k := field (pte s (x.keytab + 8 * h)) 0 10
    if k ≠ 0 && s.sec.keys.any (fun r => r.id == k && r.ctx == x.num) then some k else none

/-- MAP, 0x07: frames and error codes are the model's choice (DESIGN CHOICE, logs 43, 44). -/
def execMap (c : Caller) (addr size flags key : Nat) (s : State) : Res :=
  called false c s fun x =>
    let s64 := bitOf flags 2
    let step := if s64 then 65536 else 4096
    if addr % step ≠ 0 || size % step ≠ 0 || size = 0 || 2 ^ 48 < addr + size || 8 ≤ flags || !rangeFree s x addr size then (-2, s)
    else match mapKey s x key with
      | none => (-2, s)
      | some kid => match mapRange x.root step (bitOf flags 0) (bitOf flags 1) s64 kid (size / step) addr s with
        | none => (-3, s)
        | some s1 => (0, s1)

/-- UNMAP, 0x08: the entries are cleared, the translations invalidated, and the pages given back. -/
def execUnmap (c : Caller) (addr size : Nat) (s : State) : Res :=
  called false c s fun x =>
    if addr % 4096 ≠ 0 || size % 4096 ≠ 0 || size = 0 || 2 ^ 48 < addr + size then (-2, s)
    else match unmapRange (bringIn s c.ctx addr size) x addr size with
      | none => (-2, s)
      | some s1 => (0, s1)

/-- SHARE, 0x09: pages of key id 0 are mapped at the same addresses of the context that the token names (R336; DESIGN CHOICE, log 22). -/
def execShare (c : Caller) (addr size token : Nat) (s : State) : Res :=
  called false c s fun x =>
    if addr % 4096 ≠ 0 || size % 4096 ≠ 0 || size = 0 || 2 ^ 48 < addr + size then (-2, s)
    else
    let s := bringIn s c.ctx addr size
    match rangeEntries s x addr size, ctxOf s (Config.tokenCtx token) with
      | some es, some y =>
        if !y.valid || y.num = c.ctx || !rangeFree s y addr size then (-2, s)
        -- no line is cached in two partitions (R272)
        else if y.part ≠ x.part then (-4, s)
        else if es.any (fun e => e.2.2.host || e.2.2.keyid != 0) then (-4, s)
        else
          let r := es.foldl (fun (acc : Option State) e => acc.bind (fun a =>
            (mapOne y.root e.1 (pte s e.2.1) false a).map (fun a =>
              let p := e.2.2.base / 65536
              if e.1 % e.2.2.size = 0 then { a with shared := ainsert a.shared p (((alookup a.shared p).getD 0) + 1) } else a))) (some s)
          match r with
          | none => (-3, s)
          | some s1 => (0, s1)
      | _, _ => (-2, s)

/-- Bytes of a key (AES-256 in XTS mode, R287; PRESUMED, log 23). -/
def keyBytes : Nat := 64

/-- KEYSET, 0x0A: a key id is assigned to the context, the key is loaded, and the entry of the handle written (R334, R335); not while debug is
unlocked (R370). -/
def execKeyset (c : Caller) (handle addr flags : Nat) (s : State) : Res :=
  called false c s fun x =>
    if s.sec.debugWord ≠ 0 then (-4, s)
    else if handle = 0 || x.keyn ≤ handle || 4 ≤ flags then (-2, s)
    else match vRead s c.ctx addr keyBytes, lowest 1024 (fun k => k != 0 && !s.sec.keys.any (fun r => r.id == k)) with
      | (none, _), _ => (-2, s)
      | (some _, _), none => (-3, s)
      | (some bs, s1), some k =>
        (0, setPte { s1 with sec := { s1.sec with keys := s1.sec.keys ++ [⟨k, c.ctx, bs⟩] } } (x.keytab + 8 * handle) (k + 2 ^ 16 * flags))

/-! ### Windows, features, slices (R340, R356, R359) -/

/-- WINDOW, 0x0B: in full service only, with the lowest free remote key (DESIGN CHOICE, log 45). -/
def execWindow (c : Caller) (addr size hq flags : Nat) (s : State) : Res :=
  called false c s fun x =>
    if size = 0 || 2 ^ 48 < addr + size || 4 ≤ flags || !x.hqs.any (fun q => q.num == hq) then (-2, s)
    else if s.sec.boot ≠ .full then (-3, s)
    else
      let key := ((List.range (s.windows.length + 1)).find? (fun k => !s.windows.any (fun w => w.rkey == k + 1))).getD 0 + 1
      (key, { s with windows := s.windows ++ [⟨key, c.ctx, addr, size, hq, bitOf flags 0, bitOf flags 1⟩] })

/-- FEATURES, 0x0C: the vector of full service, or of seedling service (R356, R368). -/
def execFeatures (c : Caller) (s : State) : Res :=
  called false c s fun _ => (if s.sec.boot = .full then fullFeatures else seedFeatures, s)

/-- SLICE, 0x0D: the change takes effect at the next slice boundary (R323). -/
def execSlice (c : Caller) (us : Nat) (s : State) : Res :=
  called false c s fun _ => if us < 100 || 1000000 < us then (-2, s) else (0, updCtx s c.ctx (fun x => { x with slice := us }))

/-! ### Privileged calls -/

/-- A context is resident on some dies: a strand or a team of it stands there. -/
def anyResident (s : State) (dies : List Nat) : Bool :=
  s.strands.any (fun t => dies.contains (dieOfCore t.core) && standsOn s t.core t) ||
    s.teams.any (fun t => t.placed && !t.ended && !t.saved && dies.contains (dieOfCore t.core))

/-- Write back and drop every line of the L1s of some cores, and of some L2 slices (R273, R292): the caches are cold. -/
def flushCaches (s : State) (die slice : Nat → Bool) : State :=
  let cs := (s.cores.filter (fun k => die (dieOfCore k.num))).map (fun k => k.num)
  let s1 := cs.foldl (fun a n => let b := writeBackL1 n (fun _ => true) a; putCore b { coreOf b n with l1 := [] }) s
  settlePackets (dropL2 s1 (fun l => slice l.slice))

/-- The DRAM of every B-die is idle: no swap is in progress, and no request of a slice is on its way (R281). -/
def dramIdle (s : State) : Bool := s.bdies.all (fun b => b.swaps.isEmpty) && s.packets.isEmpty

/-- A memory-side cache is written back and emptied, the new masks stand, and then no request has been counted (R292). With EN set these write-backs are requests as any others, and may start
a swap that is still BUSY when the call returns (R283; DESIGN CHOICE, log 105). -/
def reMask (ms : List Nat) (b : BDie) : BDie := { b.lines.foldl dropLine b with hmask := ms, lines := [], pch := [] }

/-- HMASK, 0x40: at a context boundary of the whole device, refused with a context resident (R291), and waiting for the DRAM to be idle; the caches are written back and
invalidated, the frames keep every byte, and the counters are then set to 0 (R279, R281, R292; DEDUCED, log 11). -/
def execHmask (c : Caller) (addr : Nat) (s0 : State) : Res :=
  let s := unpend (.hmask c addr) s0
  if mayCall c s && !anyResident s (List.range Config.dies) && !dramIdle s then finish (pend (.hmask c addr) s)
  else called true c s fun _ =>
    match vRead s c.ctx addr 48 with
    | (none, _) => (-2, s)
    | (some bs, s1) =>
      let ms := (List.range 6).map (fun k => field (ofBytes bs) (64 * k) 64)
      if anyResident s (List.range Config.dies) then (-5, s)
      else if !(List.range 6).all (fun k => maskOk k (nth ms k 0)) then (-2, s)
      else (0, (List.range 16).foldl (fun a n => putBdie a (reMask ms (bdieOf a n))) (flushCaches s1 (fun _ => true) (fun _ => true)))

/-- The partition map of L2MODE: bit [8] chooses private mode, and bits [2d+1:2d] then give the partition of C-die d (R272; DESIGN CHOICE, log 24). -/
def mapOf (pmap : Nat) : Option L2Mode :=
  let ps := (List.range Config.dies).map (fun d => field pmap (2 * d) 2)
  if 512 ≤ pmap then none
  else if bitOf pmap 8 then some ⟨false, ps⟩
  else if pmap = 0 then some ⟨true, [0, 0, 0, 0]⟩
  else none

/-- The dies that share a die's partition under a mode (R272). -/
def partners (m : L2Mode) (d : Nat) : List Nat := (List.range Config.dies).filter (fun e => m.shared || nth m.map e 0 == nth m.map d 0)

/-- The dies that a change of mode affects: those whose partition has another number or other dies, so that home slices change (R271, R273). -/
def affectedBy (old new : L2Mode) : List Nat :=
  (List.range Config.dies).filter (fun d => new.shared != old.shared || nth new.map d 0 != nth old.map d 0 || partners new d != partners old d)

/-- The partition of a context under a mode: 0 in shared mode (R323); in private mode the one it has, or that of die 0 where no die bears its number
(DESIGN CHOICE, log 83). -/
def partUnder (m : L2Mode) (part : Nat) : Nat := if m.shared then 0 else if m.map.contains part then part else m.map.headD 0

/-- Something of a context is on the device: a strand, pending ranges among them, a team, or an engine command (R323). -/
def onDevice (s : State) (c : Nat) : Bool :=
  s.strands.any (fun t => ctxOfLaunch s t.lk == c && (t.pending || standsOn s t.core t)) ||
    s.teams.any (fun t => ctxOfLaunch s t.lk == c && t.placed && !t.ended && !t.saved) || s.cores.any (fun k => k.engines.any (fun q => q.any (fun x => x.ctx == c)))

/-- Whether the mode may change now: no context is resident on an affected die or has a gang pending there, and what changes partition has nothing on the device. -/
def l2Ready (s : State) (m : L2Mode) : Bool :=
  let dies := affectedBy s.l2 m
  !anyResident s dies && !s.gangs.any (fun g => g.state == 0 && dies.contains g.die) && s.ctxs.all (fun x => x.part == partUnder m x.part || !onDevice s x.num)

/-- After a change of partitions each queue has its register on every die of its context's partition, as it stood, or a copy that owes nothing; launches that had
not begun go to the first of those dies where theirs is none (R298, R303). -/
def rehomeQueue (s : State) (u : UserQ) : State :=
  let mine := mapDies s (((ctxOf s u.ctx).map (fun x => x.part)).getD 0)
  match (s.dies.flatMap (fun d => d.queues)).find? (fun y => y.q == u.q) with
  | none => s
  | some reg =>
    let lost := (s.dies.filter (fun d => !mine.contains d.num)).flatMap (fun d => (d.queues.filter (fun y => y.q == u.q)).flatMap (fun y => y.accepted))
    let s1 := { s with dies := s.dies.map (fun d => if mine.contains d.num then d else { d with queues := d.queues.filter (fun y => y.q != u.q) }) }
    let s2 := mine.foldl (fun a d => if (queueOf a d u.q).isSome then a else let x := dieOf a d; putDie a { x with queues := x.queues ++ [{ reg with d := 0, accepted := [] }] }) s1
    match mine with
    | [] => s2
    | d :: _ => lost.foldl (fun a lk => updLaunch a lk (fun l => { l with seed := d })) (updQueue s2 d u.q (fun y => { y with accepted := y.accepted ++ lost }))

/-- L2MODE, 0x41: it waits until no context is resident on an affected die; the slices are written back and invalidated, and the map is set (R273). -/
def execL2mode (c : Caller) (pmap : Nat) (s0 : State) : Res :=
  let s := unpend (.l2mode c pmap) s0
  if mayCall c s && (mapOf pmap).any (fun m => !l2Ready s m) then finish (pend (.l2mode c pmap) s)
  else called true c s fun _ =>
    match mapOf pmap with
    | none => (-2, s)
    | some m =>
      let dies := affectedBy s.l2 m
      let s1 := { flushCaches s dies.contains (fun x => dies.contains (x / 512)) with l2 := m, ctxs := s.ctxs.map (fun (x : Ctx) => { x with part := partUnder m x.part }) }
      (0, s1.userqs.foldl rehomeQueue s1)

/-- PCHRESET, 0x42: every `pch.N` is 0. -/
def execPchreset (c : Caller) (s : State) : Res :=
  called true c s fun _ => (0, { s with bdies := s.bdies.map (fun b => { b with pch := [] }) })

/-- MIGRATE, 0x43: a launch of the calling context goes, by pre-emption, to a device whose vector contains the one that it pins; it is busy while the launch is
on its way (R348, R357, R360; DEDUCED, log 47). -/
def execMigrate (c : Caller) (id device : Nat) (s : State) : Res :=
  called true c s fun _ =>
    match s.launches.find? (fun l => l.ctx == c.ctx && l.id == id && !l.complete && !l.killed) with
    | none => (-2, s)
    | some l =>
      if l.moving.isSome then (-5, s)
      else if s.windows.any (fun w => w.ctx == c.ctx) then (-5, s)
      else if !Config.peerPresent device || Config.peerFeatures device &&& l.features ≠ l.features then (-2, s)
      else
        let s1 := updLaunch s l.lk (fun l => { l with moving := some device })
        let s2 := (s1.teams.filter (fun t => t.lk == l.lk)).foldl (fun a t => requestGang a t.lk t.num) s1
        (0, departIfSaved s2 l.lk)

/-- CTXPARAM, 0x44 (R323, R349). -/
def execCtxparam (c : Caller) (ctx addr : Nat) (s : State) : Res :=
  called true c s fun _ =>
    match ctxOf s ctx, vRead s c.ctx addr 16 with
    | some y, (some bs, s1) =>
      let p := ofBytes bs
      let slice := field p 32 32
      let tn := field p 16 16
      if !y.valid || field p 6 10 ≠ 0 || field p 64 64 ≠ 0 || (slice ≠ 0 && (slice < 100 || 1000000 < slice)) then (-2, s)
      else if bitOf p 0 && !c.mailbox then (-4, s)
      else if tn ≠ y.tasknm1 && y.launched then (-5, s)
      else (0, updCtx s1 ctx (fun y => { y with
        priv := bitOf p 0, prio := field p 1 2, gmig := bitOf p 0 && bitOf p 3, gprof := bitOf p 4, gobs := bitOf p 5, tasknm1 := tn
        slice := if slice = 0 then y.slice else slice }))
    | _, _ => (-2, s)

/-- Every other number. -/
def execUnknownCall (c : Caller) (_num : Nat) (s : State) : Res := called false c s fun _ => (-1, s)

end Sys2Proof.Machine
end

