-- ==== Sys2Proof/Machine/Bundle.lean ====
section
/-! DEFINITION. Loading a bundle: its members, ELF files, the code form of each kernel, and the Borust translator (R99, R109 to R113, R351 to R356). -/

namespace Sys2Proof.Machine

/-! ### Bytes of a file -/

/-- n bytes of a file from an offset, as a number. -/
def at' (f : List Byte) (o n : Nat) : Nat := ofBytes ((f.drop o).take n)
def cut (f : List Byte) (o n : Nat) : List Byte := (f.drop o).take n

/-- The bytes of a name, up to its end. -/
def nameAt (f : List Byte) (o : Nat) : List Byte := (f.drop o).takeWhile (fun b => b != 0)

/-! ### The container (R351) -/

/-- A member of a bundle: its type, and its bytes. -/
abbrev Member := Nat × List Byte

/-- The members of a bundle, where the header and the member table are as R351 states. -/
def bundleMembers (f : List Byte) : Option (List Member) :=
  let n := at' f 6 2
  let tab := at' f 8 8
  if at' f 0 4 ≠ 0x4C44424E || at' f 4 2 ≠ 1 || n = 0 || 4096 < n || at' f 16 48 ≠ 0 || f.length < tab + 32 * n then none
  else
    let ms := (List.range n).mapM (fun k =>
      let e := tab + 32 * k
      let o := at' f (e + 8) 8
      let sz := at' f (e + 16) 8
      let ty := at' f e 1
      if (ty ≠ 1 && ty ≠ 2) || at' f (e + 1) 7 ≠ 0 || at' f (e + 24) 8 ≠ 0 || f.length < o + sz then none else some (ty, cut f o sz))
    ms.bind (fun ms => if (ms.filter (fun m => m.1 == 1)).length = 1 then some ms else none)

/-! ### ELF files (R109, R110) -/

/-- The ident bytes of R109, an executable, and its machine. -/
def elfOk (f : List Byte) (machine : Nat) : Bool :=
  at' f 0 8 == 0x00010102464C457F && at' f 16 2 == 2 && at' f 18 2 == machine

/-- The fields of e_flags of an IOF file: IREV and NUMVER (R109). -/
def irev (f : List Byte) : Nat := at' f 48 1
def fileNumver (f : List Byte) : Nat := at' f 49 1

/-- A section: type, flags, address, offset, size, link, and its name. -/
structure Section where
  ty : Nat
  flags : Nat
  addr : Nat
  off : Nat
  size : Nat
  link : Nat
  name : List Byte
  deriving DecidableEq, Repr

/-- The sections of a file. -/
def sections (f : List Byte) : List Section :=
  let base := at' f 40 8
  let strs := at' f (base + 64 * at' f 62 2 + 24) 8
  (List.range (at' f 60 2)).map (fun k =>
    let h := base + 64 * k
    ⟨at' f (h + 4) 4, at' f (h + 8) 8, at' f (h + 16) 8, at' f (h + 24) 8, at' f (h + 32) 8, at' f (h + 40) 4, nameAt f (strs + at' f h 4)⟩)

/-- A part of a file that is loaded: address, bytes, and whether the pages are writable and hold Iteloc code. -/
structure Piece where
  addr : Nat
  bytes : List Byte
  w : Bool
  x : Bool
  deriving DecidableEq, Repr

/-- The parts of an IOF image: its sections with ALLOC (R110). -/
def iofPieces (f : List Byte) : List Piece :=
  ((sections f).filter (fun c => bitOf c.flags 1 && c.size != 0)).map (fun c =>
    ⟨c.addr, if c.ty = 8 then List.replicate c.size 0 else cut f c.off c.size, bitOf c.flags 0, bitOf c.flags 2⟩)

/-- The parts of a control program: its loaded segments. -/
def elfPieces (f : List Byte) : List Piece :=
  ((List.range (at' f 56 2)).filter (fun k => at' f (at' f 32 8 + 56 * k) 4 == 1)).map (fun k =>
    let h := at' f 32 8 + 56 * k
    let b := cut f (at' f (h + 8) 8) (at' f (h + 32) 8)
    ⟨at' f (h + 16) 8, b ++ List.replicate (at' f (h + 40) 8 - b.length) 0, bitOf (at' f (h + 4) 4) 1, false⟩)

/-! ### Loading into a context -/

/-- A page of 4 KiB of a context is mapped, with at least these permissions: R110 lets sections of different flags share a page, and the page then has W where one of them
has WRITE and X where one has EXECINSTR (DESIGN CHOICE, log 75). -/
def ensurePage (root c va : Nat) (w x : Bool) (s : State) : Option State :=
  match walk s c va, leafEntry s va [4, 3, 2, 1] root with
  | .ok t, some ea =>
    let e := pte s ea
    some (setPte s ea (e + 8 * bit (w && !t.w) + 16 * bit (x && !t.x)))
  | _, _ => (allocPage s).bind (fun a => mapOne root va (leafBits a.1 w x false 0) false a.2)

/-- Write the bytes of a part at their home. -/
def putBytes (c va : Nat) (bs : List Byte) (s : State) : State :=
  ((List.range bs.length).zip bs).foldl (fun a e => match vTrans a c (va + e.1) with | some l => setHome a l.1 l.2.1 [e.2] | none => a) s

/-- Load a part into a context. -/
def loadPiece (root c : Nat) (p : Piece) (s : State) : Option State :=
  ((List.range' (p.addr / 4096) ((p.addr + p.bytes.length + 4095) / 4096 - p.addr / 4096)).foldl (fun (acc : Option State) k =>
    acc.bind (ensurePage root c (4096 * k) p.w p.x)) (some s)).map (putBytes c p.addr p.bytes)

def loadPieces (root c : Nat) (ps : List Piece) (s : State) : Option State := ps.foldl (fun acc p => acc.bind (loadPiece root c p)) (some s)

/-! ### Borust modules (R353) -/

/-- A segment of a module: its body, its live registers, its kind and its successors. -/
structure Seg where
  body : Nat
  len : Nat
  livein : Nat
  kind : Nat
  s1 : Nat
  s2 : Nat
  deriving DecidableEq, Repr

/-- A module: its bytes, the bytes of its kernel's name, and its fields. -/
structure Module where
  bytes : List Byte
  name : List Byte
  tsize : Nat
  nreg : Nat
  scratch : Nat
  featreq : Nat
  segs : List Seg
  deriving DecidableEq, Repr

/-- The successors of a segment, by its kind. -/
def Seg.succs (g : Seg) : List Nat := match g.kind with | 2 => [] | 1 => [g.s1, g.s2] | _ => [g.s1]

/-- The module at an offset of a section's bytes, and where it ends (DEDUCED, log 56); none where a rule of R353 is broken in its tables. -/
def parseModule (sec strs : List Byte) (o : Nat) : Nat × Option Module :=
  let n := at' sec (o + 12) 4
  let raw := (List.range (min n sec.length)).map (fun k =>
    let h := o + 32 + 32 * k
    ((⟨at' sec h 4, at' sec (h + 4) 4, at' sec (h + 8) 1, field (at' sec (h + 9) 1) 0 4, at' sec (h + 16) 4, at' sec (h + 20) 4⟩ : Seg),
      field (at' sec (h + 9) 1) 4 4 == 0 && at' sec (h + 10) 6 == 0 && at' sec (h + 24) 8 == 0))
  let segs := raw.map (fun e => e.1)
  let stop := segs.foldl (fun a g => max a (g.body + g.len)) (32 + 32 * n)
  let m : Module := ⟨cut sec o stop, nameAt strs (at' sec o 4), at' sec (o + 4) 2, at' sec (o + 6) 2, at' sec (o + 8) 4, at' sec (o + 16) 8, segs⟩
  let ok := n ≠ 0 && n = segs.length && o + stop ≤ sec.length && m.tsize % 64 = 0 && decide (64 ≤ m.tsize) && decide (m.tsize ≤ 1024) && decide (1 ≤ m.nreg) && decide (m.nreg ≤ 256) &&
    at' sec (o + 24) 8 = 0 && m.scratch % 16 = 0 && raw.all (fun e => e.2) &&
    segs.all (fun g => g.body % 4 == 0 && decide (g.kind ≤ 3) && decide (g.livein ≤ m.nreg) && g.succs.all (fun x => decide (x < n)))
  (o + max 32 stop, if ok then some m else none)

/-- The modules of a section, each after the one before it on a boundary of 8; fuel. -/
def parseModules (sec strs : List Byte) : Nat → Nat → List (Nat × Option Module)
  | 0, _ => []
  | n + 1, o =>
    if sec.length ≤ o then []
    else
      let r := parseModule sec strs o
      (at' sec o 4, r.2) :: parseModules sec strs n ((r.1 + 7) / 8 * 8)

/-- The ops that a body may hold (R353). -/
def borustOp (f : Fields) : Bool :=
  (decide (1 ≤ f.op) && decide (f.op ≤ 0x50)) || [0x80, 0x81, 0x82, 0x83, 0x85, 0x86, 0x87, 0x88, 0x89, 0x8D, 0x8E, 0xC1].contains f.op ||
    (f.op == 0xC0 && ((decide (1 ≤ f.c) && decide (f.c ≤ 0xA)) || (decide (0x10 ≤ f.c) && decide (f.c ≤ 0x12))))

/-- The registers that an instruction of a body names: first register and number of words of each operand. -/
def operandRegs (row : OpRow) (f : Fields) : List (Nat × Nat) :=
  let i := intBytes (intTy f.fn)
  let w := wBytes (wTy f.fn)
  let ci := ciBytes (ciTy f.fn)
  let wd := if 8 ≤ f.fn then 8 else 4
  let (d, a, b) : Nat × Nat × Nat :=
    if f.op ∈ [0x01, 0x02, 0x03, 0x05, 0x06, 0x07, 0x08, 0x09, 0x0A, 0x0B, 0x0C] then (i, i, i)
    else if f.op ∈ [0x0D, 0x0E, 0x0F, 0x15, 0x16, 0x17, 0x18, 0x19, 0x1A, 0x1B, 0x25] then (w, w, 4)
    else if f.op = 0x20 || f.op = 0x21 then (4, ci, ci)
    else if f.op = 0x48 then (cvtBytes (cvtTy (f.c / 32)), cvtBytes (cvtTy f.c), 4)
    else if f.op = 0x80 || f.op = 0x81 then (memBytes (memSz f.fn), 8, memBytes (memSz f.fn))
    else if f.op = 0x82 || f.op = 0x83 then (wd, 8, wd)
    else if f.op = 0x85 || f.op = 0x86 then (scrSzBytes (scrSz f.fn), 4, scrSzBytes (scrSz f.fn))
    else if f.op = 0x88 || f.op = 0x89 || f.op = 0x8E then (4, 8, 4)
    else (4, 4, 4)
  (if row.d = .v then [(f.d, (d + 3) / 4)] else []) ++ (if row.a = .v then [(f.a, (a + 3) / 4)] else []) ++
    (if row.b = .v && f.lay != .lit then [(f.bb, (b + 3) / 4)] else []) ++ (if row.c = .v then [(f.c, if f.op = 0x05 then i / 4 else 1)] else [])

/-- Every register that an instruction names lies below a bound (R353). -/
def regsBelow (n : Nat) (f : Fields) : Bool :=
  match opRow f.op with
  | none => false
  | some row => (operandRegs row f).all (fun r => decide (r.1 + r.2 ≤ n))

/-- A body is a sequence of instructions that R353 allows; fuel. -/
def bodyOk (nreg : Nat) : Nat → List Byte → Bool
  | _, [] => true
  | 0, _ => false
  | n + 1, bs => match decode bs with
    | .reject _ => false
    | .ok i len =>
      let f := encodeFields i
      let wide := match opRow f.op with | some row => widen row f | none => f
      !f.e && f.g == 0 && borustOp f && regsBelow nreg wide && bodyOk nreg n (bs.drop len)

/-! ### The translator (R354) -/

/-- The header of an unguarded instruction, and of one guarded by q0. -/
def plain : Hdr := ⟨false, .none⟩
def onQ0 : Hdr := ⟨false, .q false 0⟩

/-- Incoming edges of a segment, the launch counting as one into segment 0. -/
def edgesInto (m : Module) (k : Nat) : Nat := (m.segs.flatMap Seg.succs).count k + if k = 0 then 1 else 0

/-- The JOINW that a joining segment begins with. -/
def joinLine (m : Module) (k : Nat) (g : Seg) : List Byte :=
  if edgesInto m k < 2 then []
  else if g.livein = 0 then encode (.joinw plain 0 1 0) else encode (.joinw plain 0 0 (BitVec.ofNat 11 (g.livein - 1)))

/-! Registers that spill (R355): a read is an LD of the register's word, a write an ST there. The words pass through registers beyond the budget, which the strands of such an
image have for this (DESIGN CHOICE, log 84). -/

/-- Whether the registers of a module spill, and the budget of its image (R355). -/
def spills (m : Module) : Bool := decide (1024 < m.nreg * m.tsize / 64)
def imageBudget (m : Module) : Nat := if spills m then 65536 / m.tsize else m.nreg
def slotBytes (m : Module) : Nat := if spills m then (m.nreg - imageBudget m) * m.tsize * 4 else 0

/-- The registers of the spill code, from t up: the address pair, the address in the slot, a temporary, and, from t + 4 on, those for operands. -/
def tempBase (m : Module) : Nat := (imageBudget m + 3) / 4 * 4

/-- The address of the thread's first word in the team's slot, S + 4 × thread (R225, R355). -/
def spillHead (m : Module) (t : Nat) : List Byte :=
  let b := BitVec.ofNat 11 (t + 2)
  let x := BitVec.ofNat 11 (t + 3)
  ([.sread plain x 0x00C, .mulFull plain x x (.lit (BitVec.ofNat 32 (slotBytes m))) .i32 false, .sread plain b 0x00D, .addFull plain b b (.reg x) .i32 false,
    .sread plain x 0x001, .mulFull plain x x (.lit 4) .i32 false, .addFull plain b b (.reg x) .i32 false, .sread plain (BitVec.ofNat 11 (t + 1)) 0x00E] : List Instr).flatMap encode

/-- The address of the word of register r, at S + 4 × ((r − B) × TSIZE + thread) (R355). -/
def wordAddr (m : Module) (t r : Nat) : Instr :=
  .addFull plain (BitVec.ofNat 11 t) (BitVec.ofNat 11 (t + 2)) (.lit (BitVec.ofNat 32 (4 * (r - imageBudget m) * m.tsize))) .i32 false

/-- Register k takes the value of virtual register r, and gives it: by an LD and an ST of its word, or, where r has a register, by a move. -/
def readReg (m : Module) (t r k : Nat) : List Byte :=
  (if imageBudget m ≤ r then [wordAddr m t r, .ld plain (BitVec.ofNat 11 k) (BitVec.ofNat 11 t) 0 .b32 false]
    else [.movFull plain (BitVec.ofNat 11 k) (BitVec.ofNat 11 r) false]).flatMap encode
def writeReg (m : Module) (t r k : Nat) : List Byte :=
  (if imageBudget m ≤ r then [wordAddr m t r, .st plain (BitVec.ofNat 11 t) (.reg (BitVec.ofNat 11 k)) 0 .b32 false]
    else [.movFull plain (BitVec.ofNat 11 r) (BitVec.ofNat 11 k) false]).flatMap encode

/-- At the start of the kernel, where every register still holds a U value, the words of the registers that spill get the values with which they begin (R29, R295). -/
def spillStart (m : Module) : List Byte :=
  if spills m then spillHead m 2040 ++ (List.range' (imageBudget m) (m.nreg - imageBudget m)).flatMap (fun r => writeReg m 2040 r r) else []

/-- Ranges of registers meet. -/
def regsMeet (a b : Nat × Nat) : Bool := decide (a.1 < b.1 + b.2) && decide (b.1 < a.1 + a.2)

/-- Operands that overlap move as one: ranges of registers with no two that meet. -/
def clusters (rs : List (Nat × Nat)) : List (Nat × Nat) :=
  rs.foldl (fun cs r =>
    let (hit, rest) := cs.partition (regsMeet r)
    let lo := hit.foldl (fun a c => min a c.1) r.1
    let hi := hit.foldl (fun a c => max a (c.1 + c.2)) (r.1 + r.2)
    (lo, hi - lo) :: rest) []

/-- A place among the registers for operands for each range that has a register beyond the budget, with its alignment (R54). -/
def places (B t : Nat) (cs : List (Nat × Nat)) : List ((Nat × Nat) × Nat) :=
  ((cs.filter (fun c => decide (B < c.1 + c.2))).foldl (fun (acc : Nat × List ((Nat × Nat) × Nat)) c =>
    let k := (acc.1 + 3) / 4 * 4 + c.1 % 4
    (k + c.2, acc.2 ++ [(c, k)])) (t + 4, [])).2

/-- A register after its range has moved. -/
def moved (ps : List ((Nat × Nat) × Nat)) (r : Nat) : Nat :=
  match ps.find? (fun p => decide (p.1.1 ≤ r) && decide (r < p.1.1 + p.1.2)) with
  | some p => p.2 + (r - p.1.1)
  | none => r

/-- One instruction of a body in an image that spills, given its fields: reads, the instruction, and the writes of its destination. -/
def spillInstr (m : Module) (row : OpRow) (f : Fields) : List Byte :=
  let t := tempBase m
  let rs := operandRegs row f
  let dest := if row.d = .v then rs.take 1 else []
  let ps := places (imageBudget m) t (clusters rs)
  let words := ps.flatMap (fun p => (List.range p.1.2).map (fun j => (p.1.1 + j, p.2 + j)))
  let go (kind : Kind) (r : Nat) : Nat := if kind = .v then moved ps r else r
  let f' : Fields := ⟨if f.lay = .compact then .full else f.lay, f.e, f.g, f.op, go row.d f.d, go row.a f.a, if f.lay = .lit then f.bb else go row.b f.bb, go row.c f.c, f.fn, f.lit⟩
  words.flatMap (fun w => readReg m t w.1 w.2) ++ toBytes f'.lay.bytes f'.word ++
    (words.filter (fun w => dest.any (fun r => decide (r.1 ≤ w.1) && decide (w.1 < r.1 + r.2)))).flatMap (fun w => writeReg m t w.1 w.2)

/-- The instructions of a body in an image that spills; fuel. -/
def spillBody (m : Module) : Nat → List Byte → List Byte
  | 0, _ => []
  | n + 1, bs => match decode bs with
    | .reject _ => []
    | .ok i len =>
      let f := encodeFields i
      match opRow f.op with
      | none => []
      | some row =>
        let w := widen row f
        (if regsBelow (imageBudget m) w then bs.take len else spillInstr m row w) ++ spillBody m n (bs.drop len)

/-- The instructions of a segment's body in the image. -/
def segBody (m : Module) (g : Seg) : List Byte :=
  let bs := cut m.bytes g.body g.len
  if spills m then spillHead m (tempBase m) ++ spillBody m (g.len / 4 + 1) bs else bs

/-- Bytes of the image of a segment: JOINW 8, body, and 24, 12, 8 or 20 for its end. -/
def segBytes (m : Module) (k : Nat) (g : Seg) : Nat :=
  (joinLine m k g).length + (segBody m g).length + (match g.kind with | 1 => 24 | 2 => 8 | 3 => 20 | _ => 12)

/-- The offset of a segment's image from the kernel's first byte, after ENROL j0 and the start of the spill area. -/
def segStart (m : Module) (k : Nat) : Nat :=
  ((List.range k).zip m.segs).foldl (fun a e => a + segBytes m e.1 e.2) (8 + (spillStart m).length)

/-- A branch from one offset to another. -/
def branch (h : Hdr) (src dst : Nat) : List Byte := encode (.br h (BitVec.ofInt 32 ((dst : Int) - src)))

/-- The image of a segment. -/
def segCode (m : Module) (k : Nat) (g : Seg) : List Byte :=
  let head := joinLine m k g ++ segBody m g
  let at0 := segStart m k + head.length
  head ++ (match g.kind with
    | 1 => branch onQ0 at0 (segStart m g.s1) ++ branch plain (at0 + 12) (segStart m g.s2)
    | 2 => encode (.exit plain)
    | 3 => encode (.bar plain false 0) ++ branch plain (at0 + 8) (segStart m g.s1)
    | _ => branch plain at0 (segStart m g.s1))

/-- The code of an image; none where a body breaks R353. -/
def translate (m : Module) : Option (List Byte) :=
  if !m.segs.all (fun g => bodyOk m.nreg (g.len / 4 + 1) (cut m.bytes g.body g.len)) then none
  else some (encode (.enrol plain 0) ++ spillStart m ++ ((List.range m.segs.length).zip m.segs).flatMap (fun e => segCode m e.1 e.2))

/-- The descriptor of an image: one GN role (R113, R354). Its NUMVER is 1, whatever the file's own descriptor requires of a kernel whose native code cannot be used (R80; DESIGN CHOICE,
log 102). -/
def imageDesc (m : Module) (code : Nat) : List Byte :=
  toBytes 64 (pack [(0, 1), (16, 1), (24, 1), (32, m.tsize), (64, m.scratch), (128, m.featreq), (192, code),
    (320, pack [(0, 3), (8, imageBudget m), (24, m.tsize / 64)])])

/-- The key of an image (R356). -/
def imageKey (s : State) (m : Module) (features : Nat) : BitVec 384 :=
  Config.digest384 (toBytes 48 (Config.digest384 m.bytes).toNat ++ toBytes 4 Config.translatorVersion.toNat ++ toBytes 8 features ++
    toBytes 4 s.sec.microcode.toNat ++ toBytes 1 1)

/-! ### The code form of each kernel (R352) -/

/-- The descriptors of an IOF image: address and CODE (R113). -/
def descriptors (f : List Byte) : List (Nat × Nat) :=
  ((sections f).filter (fun c => c.ty == 0x70000001)).flatMap (fun c =>
    (List.range (c.size / 64)).map (fun k => (c.addr + 64 * k, at' f (c.off + 64 * k + 24) 8)))

/-- The global STT_FUNC symbols of a file, which are the names of its kernels (R108): name and value. -/
def kernelSymbols (f : List Byte) : List (List Byte × Nat) :=
  let ss := sections f
  (ss.filter (fun c => c.ty == 2)).flatMap (fun c =>
    let strs := (ss[c.link]?.map (fun x => x.off)).getD 0
    ((List.range (c.size / 24)).filter (fun k => at' f (c.off + 24 * k + 4) 1 == 0x12)).map (fun k =>
      (nameAt f (strs + at' f (c.off + 24 * k) 4), at' f (c.off + 24 * k + 8) 8)))

/-- The values of the kernels with a name. -/
def symbolValues (f : List Byte) (name : List Byte) : List Nat := ((kernelSymbols f).filter (fun k => k.1 == name)).map (fun k => k.2)

/-- The names of the kernels with a value: a kernel's name has its CODE (R108, R113). -/
def namesOf (f : List Byte) (value : Nat) : List (List Byte) := ((kernelSymbols f).filter (fun k => k.2 == value && k.1 != [])).map (fun k => k.1)

/-- The versions that the descriptors of a file require (R113). -/
def numvers (f : List Byte) : List Nat :=
  ((sections f).filter (fun c => c.ty == 0x70000001)).flatMap (fun c => (List.range (c.size / 64)).map (fun k => at' f (c.off + 64 * k + 2) 1))

/-- An IOF image (R109): its machine, no entry, reserved flags 0, and, where it has descriptors, a NUMVER that is the highest of theirs. -/
def iofOk (f : List Byte) : Bool :=
  elfOk f 0x8A1D && at' f 24 8 == 0 && at' f 50 2 == 0 && ((numvers f).isEmpty || (numvers f).foldl max 0 == fileNumver f)

/-- Whether the device's revision runs the native code of a file, and the file has code at an address (R99, R109, R352). -/
def nativeRuns (f : List Byte) (code : Nat) : Bool :=
  irev f == 1 && (sections f).any (fun c => bitOf c.flags 1 && bitOf c.flags 2 && decide (c.addr ≤ code) && decide (code < c.addr + c.size))

/-- The modules of an IOF image. -/
def modulesOf (f : List Byte) : List (Nat × Option Module) :=
  let ss := sections f
  let strs := ((ss.find? (fun c => c.name == (".strtab".toUTF8.toList.map (fun b => BitVec.ofNat 8 b.toNat)))).map (fun c => cut f c.off c.size)).getD []
  (ss.filter (fun c => c.ty == 0x70000003)).flatMap (fun c => let b := cut f c.off c.size; parseModules b strs b.length 0)

/-- Cleared pages of 64 KiB. -/
def allocPages : Nat → State → Option (List Nat × State)
  | 0, s => some ([], s)
  | n + 1, s => (allocPage s).bind (fun a => (allocPages n a.2).map (fun r => (a.1 :: r.1, r.2)))

/-- The image of a module for a feature vector: that of the cache where its key is there, else a new one, which the cache then holds (R356). -/
def imageFor (m : Module) (features : Nat) (s : State) : Option (CachedImage × State) :=
  let key := imageKey s m features
  match s.images.find? (fun i => i.key == key) with
  | some i => some (i, s)
  | none => (translate m).bind (fun code => (allocPages ((code.length + 65535) / 65536) s).map (fun r =>
      let i : CachedImage := ⟨key, code, r.1⟩
      (i, { r.2 with
        mem := ((List.range r.1.length).zip r.1).foldl (fun mem p => memPuts mem p.2 ((code.drop (65536 * p.1)).take 65536)) r.2.mem, images := r.2.images ++ [i] })))

/-- Map the pages of an image read-only at an address of a context (R356); the cache keeps them when they are unmapped. -/
def mapImage (root va : Nat) (i : CachedImage) (s : State) : Option State :=
  ((List.range i.pages.length).zip i.pages).foldl (fun (acc : Option State) p => acc.bind (fun a =>
    (mapOne root (va + 65536 * p.1) (leafBits p.2 false true true 0) true a).map (fun a =>
      { a with shared := ainsert a.shared (p.2 / 65536) (((alookup a.shared (p.2 / 65536)).getD 0) + 1) }))) (some s)

/-- A kernel of a bundle is resolved: the address of its descriptor, and its name (R351). -/
def resolved (kdesc : Nat) (name : List Byte) (s : State) : State := { s with out := s.out ++ [.text "kernel" (kdesc :: name.map (fun b => b.toNat))] }

/-- Place the image of a module in a context (DESIGN CHOICE, log 55), for the vector that its launches are to pin (R357, R369): the pages of its code, then its descriptor, unless the file's own descriptor stands for it (R354 to
R356). -/
def placeImage (root c : Nat) (m : Module) (own : Option Nat) (s : State) : Option State :=
  let features := if s.sec.boot = .full || m.featreq &&& seedFeatures ≠ m.featreq then fullFeatures else seedFeatures
  match ctxOf s c, imageFor m features s with
  | some x, some (i, s1) =>
    let va := x.vaNext
    let kdesc := own.getD (va + 65536 * i.pages.length)
    ((mapImage root va i s1).bind (loadPiece root c ⟨kdesc, imageDesc m va, false, false⟩)).map (fun a =>
      updCtx (resolved kdesc m.name a) c
        (fun x => { x with vaNext := va + 65536 * (i.pages.length + 1), images := x.images ++ [⟨kdesc, i.key, features, slotBytes m⟩] }))
  | _, _ => none

/-- Load an IOF image and settle the code form of each of its kernels (R352). -/
def loadIof (root c : Nat) (f : List Byte) (s : State) : Option State :=
  (loadPieces root c (iofPieces f) s).bind (fun s1 =>
    let ds := descriptors f
    let dead := ds.filter (fun d => !nativeRuns f d.2)
    let s1 := (ds.filter (fun d => nativeRuns f d.2)).foldl (fun a d => resolved d.1 ((namesOf f d.2).headD []) a) s1
    -- a kernel whose native code does not run: its Borust code, where a module names it
    let r := (modulesOf f).foldl (fun (acc : Option (List Nat × State)) e => acc.bind (fun a => match e.2 with
      | none => some a
      | some m =>
        let values := symbolValues f m.name
        let native := ds.any (fun d => values.contains d.2 && nativeRuns f d.2)
        let own := (dead.find? (fun d => values.contains d.2)).map (fun d => d.1)
        if native then some a
        else if (translate m).isNone then some a
        else (placeImage root c m own a.2).map (fun t => (a.1 ++ own.toList, t)))) (some ([], s1))
    r.map (fun a => updCtx a.2 c (fun x => { x with unusable := x.unusable ++ (dead.map (fun d => d.1)).filter (fun k => !a.1.contains k) })))

/-! ### BUNDLE_LOAD -/

/-- A new context (R323): its record and the tables that Mboelaor makes for it. No page of it is in backing storage (DESIGN CHOICE, log 95). In private mode
it gets the partition of C-die 0 (DESIGN CHOICE, log 83). -/
def newContext (s : State) (c pasid : Nat) (members : List Member) : Option State :=
  (allocSys s 4096).bind fun (root, s) => (allocSys s 2048).bind fun (keytab, s) => (allocSys s (128 * 65536)).bind fun (tasktab, s) =>
  (allocSys s 65536).bind fun (queuetab, s) => (allocSys s 65536).bind fun (backing, s) => (allocSys s (256 * 4096)).bind fun (faultq, s) =>
    let part := if s.l2.shared then 0 else s.l2.map.headD 0
    let x : Ctx := { num := c, valid := true, priv := false, gmig := false, gprof := false, part := part, prio := 1, gobs := false, pasid := pasid, root := root, keytab := keytab
                     keyn := 256, tasknm1 := 255, slice := 2000, tasktab := tasktab, queuetab := queuetab, backing := backing, faultq := faultq, launchCtr := 0, launched := false
                     faultN := 0, consumed := 0, waiting := [], hqs := [], backed := [], hostPages := [], held := false, sliceFrom := s.time, prioAt := 1, sliceAt := 2000, members := members
                     unusable := [], images := [], vaNext := 0x700000000000 }
    some { s with ctxs := s.ctxs.filter (fun y => y.num != c) ++ [x] }

/-- BUNDLE_LOAD: a new context with the control program and the images of the bundle, or nothing where the file is no bundle (R351), or one of its members no file of its
type (R109; DESIGN CHOICE, log 94). -/
def execBundleLoad (c : Nat) (pasid : BitVec 20) (file : List Byte) (s : State) : Res :=
  finish (
    if !serving s || c = 0 || 4096 ≤ c || ((ctxOf s c).map (fun x => x.valid)).getD false then s
    else
      let loaded := (bundleMembers file).bind (fun ms =>
        if !ms.all (fun m => if m.1 = 1 then elfOk m.2 243 else iofOk m.2) then none
        else (newContext s c pasid.toNat ms).bind (fun s1 =>
          let root := ((ctxOf s1 c).map (fun x => x.root)).getD 0
          ms.foldl (fun (acc : Option State) m => acc.bind (fun a =>
            if m.1 = 1 then loadPieces root c (elfPieces m.2) a else loadIof root c m.2 a)) (some s1)))
      match loaded with
      | some s1 => { s1 with out := s1.out ++ [.text "bundle loaded" [c]] }
      | none => { s with out := s.out ++ [.text "bundle refused" [c]] })

end Sys2Proof.Machine
end

