-- ==== Sys2Proof/Machine/Observe.lean ====
section
/-! DEFINITION. Observation: attaching, halting, stepping, reading, writing, dumps, samples (R230, R231, R395 to R405). -/

namespace Sys2Proof.Machine

/-! ### Attaching (R396) -/

/-- The debugger of a context, and a change to it. -/
def attachOf (s : State) (c : Nat) : Option Attach := s.attaches.find? (fun a => a.ctx == c)
def updAttach (s : State) (c : Nat) (f : Attach → Attach) : State := { s with attaches := updWhere (fun a => a.ctx == c) f s.attaches }

/-- An answer of the observation interface. -/
def observed (s : State) (what : String) (vals : List Nat) : State := { s with out := s.out ++ [.text what vals] }

/-- A ring of samples or traces has 2^k records, k from 8 to 20. -/
def ringOk (k : Option Nat) : Bool := match k with | none => true | some k => decide (8 ≤ k) && decide (k ≤ 20)

/-- ATTACH: with the context's GOBS grant, and GPROF for samples and traces; PERIOD from 1024 to 2^24 (R396, R399). -/
def execAttach (c : Nat) (sampleK traceK : Option Nat) (period : Nat) (s : State) : Res :=
  finish (
    match ctxOf s c with
    | none => observed s "attach refused" [c]
    | some x =>
      if !x.valid || !x.gobs || (!x.gprof && (sampleK.isSome || traceK.isSome)) || !ringOk sampleK || !ringOk traceK || (attachOf s c).isSome ||
          (sampleK.isSome && !(decide (1024 ≤ period) && decide (period ≤ 2 ^ 24))) then observed s "attach refused" [c]
      else observed { s with attaches := s.attaches ++ [⟨c, [], 0, 0, [], 1, [], sampleK, [], 0, traceK, [], 0, period, []⟩] } "attached" [c])

/-- A halted strand goes on: from its PC, or after the BKPT it stopped at (R230, R396); a ready one is ready from now (R309). -/
def unhalt (s : State) (bkpts : List Nat) (st : Strand) : Strand :=
  let pc := if st.halted.any (fun id => bkpts.contains id) then st.pc + 8 else st.pc
  let st1 := { st with halted := none, stepping := false, pc := pc }
  match st1.status with | .ready => { st1 with stamp := slotNow s, urgent := false } | _ => st1

/-- What the ends of halts let go on: joins whose last member was halted (R46, R47). -/
def wakeHalted (s : State) (c : Nat) : State := ((s.launches.filter (fun l => l.ctx == c)).map (fun l => l.lk)).foldl wakeJoins s

/-- DETACH: every halted strand resumes, every comparator is disarmed, and the rings are freed; fault stops stay open (R396, R405). -/
def execDetach (c : Nat) (s : State) : Res :=
  finish (match attachOf s c with
    | none => s
    | some a =>
      let mine := fun (lk : Nat) => ctxOfLaunch s lk == c
      let s1 := { s with
        strands := s.strands.map (fun st => if mine st.lk && (st.halted.isSome || st.stepping) then unhalt s a.bkpts st else st)
        teams := s.teams.map (fun t => if mine t.lk then { t with cmps := t.cmps.map (fun k => { k with armed := false }) } else t)
        dumps := s.dumps.filter (fun d => d.ctx != c)
        attaches := s.attaches.filter (fun a => a.ctx != c) }
      observed (wakeHalted s1 c) "detached" [c])

/-! ### Commands on strands (R396, R397, R405) -/

/-- The launch of a context with an identifier. -/
def launchNamed (s : State) (c id : Nat) : Option Launch := s.launches.find? (fun l => l.ctx == c && l.id == id && !l.complete)

/-- Whether a command on strands (0) or on memory and registers (1) of a context is taken: a debugger is attached to it, or an unlock has opened the debug port for it (R370,
R396; DESIGN CHOICE, log 96). -/
def mayDebug (s : State) (c k : Nat) : Bool := (attachOf s c).isSome || portOpen s k

/-- HALT: every strand named stops where it is, with SOURCE 4; a parked one stays parked and is also halted, and a pending range (R46) is placed halted. -/
def execHalt (c launch : Nat) (team : Option Nat) (s : State) : Res :=
  finish (match launchNamed s c launch with
    | some l =>
      if mayDebug s c 0 then
        let named := s.strands.filter (fun st => st.lk == l.lk && st.halted.isNone && (match team with | none => true | some t => st.team == some t))
        (sortByFirst named).foldl (fun a st => debugHalt a st.sid 4 0 0 0 [] 0) s
      else s
    | none => s)

/-- The strands that hold a stop: the strand that was halted, or the pieces into which a result has cut it since. -/
def haltedAt (s : State) (c stop : Nat) : List Strand := s.strands.filter (fun st => ctxOfLaunch s st.lk == c && st.halted == some stop)

/-- The stop's record has been written: until it is, the strand stays stopped (R401). -/
def recorded (s : State) (c stop : Nat) : Bool := (attachOf s c).all (fun a => a.stopWaiting.all (fun r => field r 64 32 != stop % 2 ^ 32))

/-- The halt of a stop ends: its strands go on, to stop again after one instruction each where they are stepped. -/
def endHalt (s : State) (c stop : Nat) (stepping : Bool) : State :=
  match haltedAt s c stop with
  | [] => s
  | st :: rest =>
    if !recorded s c stop then s
    else
      let bkpts := ((attachOf s c).map (fun a => a.bkpts)).getD []
      let s1 := (st :: rest).foldl (fun a x => putStrand a { unhalt s bkpts x with stepping := stepping }) s
      closeHalt (wakeHalted (updAttach s1 c (fun a => { a with bkpts := a.bkpts.filter (fun b => b != stop) })) c) st 0

/-- RESUME of a strand, or of a dump, whose teams may then be restored (R396). -/
def execDebugResume (c stop : Nat) (s : State) : Res :=
  finish (
    if !mayDebug s c 0 then s
    else if s.dumps.any (fun d => d.ctx == c && d.stop == stop) then { s with dumps := s.dumps.filter (fun d => !(d.ctx == c && d.stop == stop)) }
    else endHalt s c stop false)

/-- STEP: the strand issues one instruction, and what it becomes then stops with SOURCE 3, where the step that issues it halts it. -/
def execStep (c stop : Nat) (s : State) : Res := finish (if mayDebug s c 0 then endHalt s c stop true else s)

/-! ### READ and WRITE (R396, R401, R402) -/

/-- READ: the values of a register at every named index; the word at an address of the context, or, of no context, at an address of the device's memory, which is the debug port's
(R370); the account of a launch: T0, TEND and the five durations; the records that a ring has dropped. -/
def execRead (c stop : Nat) (t : ObsTarget) (s : State) : Res :=
  finish (if !mayDebug s c 1 then s else match t with
    | .reg r => (match sortByFirst (haltedAt s c stop) with
      | [] => s
      | sts => observed s "register" (sts.flatMap (fun st => (present st).zip (regVals st r.toNat) |>.flatMap (fun e => [e.1, e.2.toNat]))))
    | .mem va => if c = 0 then (if Config.deviceBytes < va + 4 then { s with badAddr := some va } else observed s "memory" [va, ofBytes (memGets s.mem va 4)]) else (match vRead s c va 4 with
      | (some bs, s1) => observed s1 "memory" [va, ofBytes bs]
      | (none, s1) => observed s1 "no memory" [va])
    | .account id => (match s.launches.find? (fun l => l.ctx == c && l.id == id) with
      | some l => observed s "account" (l.account.t0 :: l.tend :: l.account.dur)
      | none => s)
    | .drops trace => (match attachOf s c with
      | some a => observed s "drops" [if trace then a.traceDrops else a.sampleDrops]
      | none => s))

/-- WRITE: a U value at every named index, its poison cleared and its dirty bit set (R383, R385); or a word of memory, as READ names it. -/
def execDebugWrite (c stop : Nat) (t : ObsTarget) (value : Word) (s : State) : Res :=
  finish (if !mayDebug s c 1 then s else match t with
    | .reg r => (haltedAt s c stop).foldl (fun a st =>
        putStrand a (settleMask (present st) { setForm st r.toNat (.u value) with poison := st.poison.filter (fun e => e.1 != r.toNat) })) s
    | .mem va => if c = 0 then (if Config.deviceBytes < va + 4 then { s with badAddr := some va } else { s with mem := memPuts s.mem va (toBytes 4 value.toNat) }) else (vWrite s c va (toBytes 4 value.toNat) (.system c) none).2
    | .account _ | .drops _ => s)

/-! ### DUMP (R396) -/

/-- DUMP: the launch's teams are pre-empted, and each record is returned when it is saved; they stay off the device until the dump is resumed. -/
def execDump (c launch : Nat) (s : State) : Res :=
  finish (match attachOf s c, launchNamed s c launch with
    | some a, some l =>
      if s.dumps.any (fun d => d.lk == l.lk) then s
      else
        let id := a.nextStop
        let s1 := observed (updAttach { s with dumps := s.dumps ++ [⟨c, id, l.lk⟩] } c (fun a => { a with nextStop := id + 1 })) "dump" [id]
        let ts := s1.teams.filter (fun t => t.lk == l.lk && t.placed && !t.ended)
        let s2 := (ts.filter (fun t => t.saved)).foldl (fun a t => observed a "chrysalis record" (chrysalis a t)) s1
        (ts.filter (fun t => !t.saved)).foldl (fun a t => requestGang a t.lk t.num) s2
    | _, _ => s)

/-! ### SAMPLE (R399) -/

/-- STATE of a sample: 0 where the strand holds a port or is ready to, 2 where it is halted (DEDUCED, log 53). -/
def sampleState (st : Strand) : Nat :=
  if st.benched then 3
  else if st.halted.isSome then 2
  else match st.status with
    | .blocked (.stall _) | .blocked (.walk _) | .blocked (.ats _) => 1
    | .blocked _ | .parked _ => 2
    | .ready => 0

/-- The 256 bits of a sample. -/
def sampleBits (s : State) (st : Strand) : Nat :=
  pack [(0, st.pc.toNat), (64, launchId s st.lk), (96, st.first), (128, (st.count - 1) % 2 ^ 32), (160, sampleState st), (163, (waitCode s st).2.1), (167, bit (compact st)),
    (192, s.time % 2 ^ 64)]

/-- The strand of a context that a partition's sample is of: the one at port 0, or port 1, or the waiting one with the lowest stamp. -/
def sampled (s : State) (c core part : Nat) : Option Strand :=
  let p := partOf s core part
  let mine := fun (st : Strand) => ctxOfLaunch s st.lk == c && standsOn s core st
  let atPort := fun (k : Nat) => ((nth p.ports k none).bind (fun r => strandOf s r.sid)).filter mine
  match atPort 0, atPort 1 with
  | some st, _ => some st
  | none, some st => some st
  | none, none =>
    (s.strands.filter (fun st => mine st && st.part == part)).foldl (fun (b : Option Strand) st => match b with
      | none => some st
      | some x => if st.stamp < x.stamp then some st else some x) none

/-- SAMPLE: a partition writes a record for each context whose sample is due there; a full ring drops it and counts the drop (R399, R401). -/
def execSample (core part : Nat) (s : State) : Res :=
  finish ((s.attaches.filter (fun x => x.due.contains (core, part))).foldl (fun a x =>
    updAttach a x.ctx (fun y =>
      let y := { y with due := y.due.erase (core, part) }
      match x.sampleK, sampled s x.ctx core part with
      | some k, some st => if y.sampleRing.length < 2 ^ k then { y with sampleRing := y.sampleRing ++ [sampleBits s st] } else { y with sampleDrops := y.sampleDrops + 1 }
      | _, _ => y)) s)

end Sys2Proof.Machine
end

