-- ==== Sys2Proof/Machine/Remote.lean ====
section
/-! DEFINITION. Remote memory windows over RoCEv2 (R262, R358 to R360). -/

namespace Sys2Proof.Machine

/-- An answer to a requester on a connection. -/
def rdmaReply (s : State) (conn : Nat) (what : String) (vals : List Nat) : State := { s with out := s.out ++ [.text what (conn :: vals)] }

/-- The window of a remote key that grants an access of n bytes, every page of which the context's tables map; a write needs a writable page of key
id 0 (R359). -/
def windowFor (s : State) (rkey va n : Nat) (write : Bool) : Option Window :=
  (s.windows.find? (fun w => w.rkey == rkey)).filter (fun w =>
    (if write then w.write else w.read) && decide (w.addr ≤ va) && decide (va + n ≤ w.addr + w.size) &&
      (List.range' (va / 4096) ((va + n + 4095) / 4096 - va / 4096)).all (fun p =>
        match walk s w.ctx (p * 4096) with
        | .ok t => (vTrans s w.ctx (p * 4096)).any (fun l => !write || (l.2.2 && t.w && t.keyid == 0))
        | _ => false))

/-- The state with the pages of a request brought in. -/
def withPages (s : State) (rkey va n : Nat) : State :=
  match s.windows.find? (fun w => w.rkey == rkey) with
  | some w => if n = 0 then s else bringIn s w.ctx va n
  | none => s

/-- The bytes of a remote write reach their homes (R262). -/
def remoteStore (s : State) (w : Window) (conn va : Nat) (data : List Byte) : State :=
  if data.isEmpty then s else (vWrite s w.ctx va data (.peer w.ctx conn) none).2

/-- A request carries a mark of congestion, which the device answers with a Congestion Notification Packet before the request (R358); whether the network has marked it is a
free value. -/
def marked (s : State) (conn : Nat) : State :=
  let (b, s1) := freeBool s
  if b then rdmaReply s1 conn "CNP" [] else s1

/-- The device takes remote requests while Mboelaor serves; in recovery and after a failed boot only the BAR 0 mailbox is open (R363). -/
def takesRequests (s : State) (f : State → State) : State := if serving s then f s else s

/-- A request of a message longer than 2 GiB is none that the device supports (R358). -/
def tooLong (n : Nat) : Bool := decide (2 ^ 31 < n)

/-- RDMA_WRITE: the bytes reach their homes, or none does (R262, R359). -/
def execRdmaWrite (conn rkey va : Nat) (data : List Byte) (s : State) : Res :=
  finish (takesRequests s fun s =>
    let s := marked s conn
    let s1 := withPages s rkey va data.length
    if tooLong data.length then rdmaReply s conn "NAK Invalid Request" []
    else match windowFor s1 rkey va data.length true with
    | none => rdmaReply s conn "NAK Remote Access Error" []
    | some w => rdmaReply (remoteStore s1 w conn va data) conn "ACK" [])

/-- RDMA_WRITE_WITH_IMMEDIATE: after its bytes and those of every earlier write of the connection the immediate is appended to the window's queue,
by a release at dev scope; while the queue is full the request is answered RNR and nothing is written (R190, R262, R359, R360). -/
def execRdmaWriteWithImmediate (conn rkey va : Nat) (data : List Byte) (imm : Word) (s : State) : Res :=
  finish (takesRequests s fun s =>
    let s := marked s conn
    let s1 := withPages s rkey va data.length
    if tooLong data.length then rdmaReply s conn "NAK Invalid Request" []
    else match windowFor s1 rkey va data.length true with
    | none => rdmaReply s conn "NAK Remote Access Error" []
    | some w => match hqOf s1 w.ctx (BitVec.ofNat 32 w.hq) with
      | none => rdmaReply s conn "NAK Remote Access Error" []
      | some q =>
        if 2 ^ q.k ≤ q.entries.length then rdmaReply s conn "RNR NAK" []
        else
          let s2 := remoteStore s1 w conn va data
          let set := (s2.stores.filter (fun e => e.writer == .peer w.ctx conn)).map (fun e => e.id)
          let rel : RelRec := ⟨set, ⟨.dev, w.ctx, (s2.launches.filter (fun l => l.ctx == w.ctx)).map (fun l => (l.lk, 0, l.grid - 1))⟩⟩
          rdmaReply (putHq s2 w.ctx { q with entries := q.entries ++ [(imm, rel)] }) conn "ACK" [])

/-- Some of n bytes of a context are poisoned at their homes (R388). -/
def poisonedRange (s : State) (c va n : Nat) : Bool :=
  (List.range' (va / 4 * 4) ((va + n + 3) / 4 - va / 4) 4).any (fun w => (vTrans s c w).any (fun l => homePoison s l.1 l.2.1 4))

/-- RDMA_READ: the bytes at their homes; poisoned ones never leave the device unreported: the request meets a Remote Operational Error (R358, R359, R372, R388; DESIGN CHOICE,
log 46). -/
def execRdmaRead (conn rkey va len : Nat) (s : State) : Res :=
  finish (takesRequests s fun s =>
    let s := marked s conn
    let s1 := withPages s rkey va len
    if tooLong len then rdmaReply s conn "NAK Invalid Request" []
    else match windowFor s1 rkey va len false with
    | none => rdmaReply s conn "NAK Remote Access Error" []
    | some w =>
      if decide (0 < len) && poisonedRange s1 w.ctx va len then rdmaReply s1 conn "NAK Remote Operational Error" []
      else match vRead s1 w.ctx va len with
      | (some bs, s2) => rdmaReply s2 conn "READ response" (bs.map (fun b => b.toNat))
      | (none, _) => rdmaReply s conn "NAK Remote Access Error" [])

/-- RDMA_INVALID_REQUEST: a SEND or an Atomic (R358). -/
def execRdmaInvalidRequest (conn : Nat) (s : State) : Res := finish (takesRequests s fun s => rdmaReply (marked s conn) conn "NAK Invalid Request" [])

end Sys2Proof.Machine
end

