-- ==== Sys2Proof/Machine/Security.lean ====
section
/-! DEFINITION. The security engine: boot, recovery, service level, owner keys, SPDM and debug unlock (R280, R361 to R371, R393), and telemetry
(R403). -/

namespace Sys2Proof.Machine

/-! ### Signatures and stages (R361, R362, R364) -/

/-- Authority of a slot: 0 boot, 1 debug, 2 enrol (R361; DESIGN CHOICE, log 49). -/
def authority (fu : Fuses) (slot which : Nat) : Bool := fu.auth.getLsbD (3 * slot + which)

/-- A slot may sign with an authority: it is not revoked, holds it, and OWNMODE admits it (R361, R364). -/
def slotMay (fu : Fuses) (slot which : Nat) : Bool :=
  decide (slot < 4) && !fu.revoke.getLsbD slot && authority fu slot which &&
    !((slot == 0 && decide (2 ≤ fu.ownmode.toNat)) || (slot != 0 && fu.ownmode == 0))

/-- The digest that a slot holds. -/
def slotDigest (fu : Fuses) (slot : Nat) : BitVec 384 := nth fu.slots slot 0

/-- Bytes of an image or a token. -/
def bytesAt (f : List Byte) (o n : Nat) : List Byte := (f.drop o).take n
def numAt (f : List Byte) (o n : Nat) : Nat := ofBytes (bytesAt f o n)

/-- The minimum security version of a stage: the number of bits that are 1 (R361). -/
def minSvn (fu : Fuses) (n : Nat) : Nat := ((List.range 64).filter (fun k => (nth fu.minsvn (n - 1) 0).getLsbD k)).length

/-- check_stage of R364, with the magic number and the length (DEDUCED, log 50). -/
def checkStage (fu : Fuses) (img : List Byte) (n : Nat) : Bool :=
  let slot := numAt img 6 1 % 16
  let body := bytesAt img 3072 (numAt img 8 8)
  numAt img 0 4 == 0x31475453 && numAt img 4 1 == n && field (numAt img 6 2) 4 12 == 0 && numAt img 217 71 == 0 &&
    decide (body.length = numAt img 8 8) && decide (numAt img 5 1 ≤ 64) && slotMay fu slot 0 &&
    Config.digest384 (bytesAt img 64 97 ++ bytesAt img 161 56) == slotDigest fu slot &&
    decide (minSvn fu n ≤ numAt img 5 1) && (Config.digest384 body).toNat == numAt img 16 48 &&
    Config.ecdsaValid (bytesAt img 64 97) (bytesAt img 0 288) (bytesAt img 288 96) &&
    Config.lmsValid (bytesAt img 161 56) (bytesAt img 0 288) (bytesAt img 384 2668)

/-! ### Measurement (R365) -/

/-- Mn of a stage image; each number is hashed as one byte (DESIGN CHOICE, log 49). -/
def measure (fu : Fuses) (img : List Byte) : BitVec 384 :=
  Config.digest384 (bytesAt img 16 48 ++ toBytes 1 (numAt img 6 1 % 16) ++ toBytes 1 (numAt img 5 1) ++ toBytes 1 fu.lcs.toNat)

/-- HMAC-SHA-384 of a secret and a message. -/
def hmac (secret : BitVec 384) (msg : List Byte) : BitVec 384 := Config.deriveKey (toBytes 48 secret.toNat) msg

/-- The security engine's firmware runs: stage 1 has passed. -/
def engineRuns (s : State) : Bool :=
  match s.sec.boot with
  | .halted _ | .awaiting | .seedling | .full => true
  | .off | .recovery | .fatal => false

/-- The fuses as the control cores read them through the mailbox, n bits from bit lo on: every field but UDS, which only the boot ROM reads (R361). -/
def fuseRead (s : State) (lo n : Nat) : Option Nat :=
  let fu := s.sec.fuses
  let bits := pack ([(0, fu.devid.toNat), (128, fu.lcs.toNat), (132, fu.ownmode.toNat), (136, fu.revoke.toNat), (140, fu.auth.toNat)] ++
    (List.range 4).map (fun k => (160 + 384 * k, (slotDigest fu k).toNat)) ++ (List.range 3).map (fun k => (1696 + 64 * k, (nth fu.minsvn k 0).toNat)))
  if engineRuns s && decide (lo + n ≤ 1888) then some (field bits lo n) else none

/-- The number of enabled cores of a cluster, as the control cores read it from the security engine (R10, R393). -/
def enabledCount (s : State) (die cl : Nat) : Option Nat := if engineRuns s && decide (die < Config.dies) && decide (cl < Config.clusters) then some (clusterOf s die cl).length else none

/-- The secret of the DeviceID key: of UDS and M0 alone. -/
def deviceSecret (fu : Fuses) : BitVec 384 :=
  hmac fu.uds (toBytes 48 (Config.digest384 (toBytes 48 Config.romDigest.toNat ++ toBytes 1 fu.lcs.toNat)).toNat)

/-- The alias key that a stage derives from its CDI. -/
def aliasKey (cdi : BitVec 384) : BitVec 384 := hmac cdi []

/-- CDI3, of CDI2, M3 and the debug word, with the alias key of stage 3, which the key of stage 2 certifies (R365, R370). -/
def stage3Identity (sec : Sec) : Sec :=
  let m3 := nth sec.meas 2 0
  let cdi3 := hmac sec.cdi2 (toBytes 48 m3.toNat ++ toBytes 4 sec.debugWord)
  { sec with
    cdi3 := cdi3
    aliases := sec.aliases.take 2 ++ [aliasKey cdi3]
    certs := sec.certs.take 3 ++ [Config.certify (nth sec.aliases 1 0) (aliasKey cdi3) m3] }

/-! ### Boot (R280, R363, R368, R393) -/

/-- The production masks (R280). -/
def productionMasks : List Nat := [0x104104100, 0x208208200, 0x10410400, 0x20820800, 0x41041000, 0x82082000]

/-- The clock of the vector and the matrix blocks becomes this one (R368). -/
def setClocks (s : State) (mhz : Nat) : State := { s with telemetry := updWhere (fun t => decide (t.block ≤ 1)) (fun t => { t with mhz := mhz }) s.telemetry }

/-- Stage 3 starts: it is measured, Mboelaor installs the production masks in all 16 B-dies, and seedling service begins, at 425 MHz (R368). -/
def startMboelaor (s : State) (img : List Byte) : State :=
  let sec := { s.sec with meas := s.sec.meas ++ [measure s.sec.fuses img], svns := s.sec.svns ++ [numAt img 5 1], boot := .seedling }
  (List.range 16).foldl (fun a n => putBdie a { bdieOf a n with hmask := productionMasks }) (setClocks { s with sec := stage3Identity sec } 425)

/-- Boot has halted, with this code at BAR 0 offset 0x0. -/
def haltBoot (s : State) (b : Boot) (code : Nat) : State := { s with sec := { s.sec with boot := b, bootCode := code } }

/-- Stage 1 has passed its check: the ROM derives its identity, the last that reads UDS, and stages 2 and 3 follow, each checked before it runs; of the CDIs of stages 1 and
2 only CDI2 is kept (R361, R363, R365). -/
def fromStage1 (s : State) (img : List Byte) : State :=
  let fu := s.sec.fuses
  let m1 := measure fu img
  let cdi1 := hmac fu.uds (toBytes 48 m1.toNat)
  let device := deviceSecret fu
  let s1 := { s with sec := { s.sec with
    meas := [m1], svns := [numAt img 5 1], bootCode := 0, aliases := [aliasKey cdi1], certs := [Config.rootCert device, Config.certify device (aliasKey cdi1) m1] } }
  let img2 := s.sec.flash2
  if !checkStage fu img2 2 then haltBoot s1 (.halted 2) 2
  else
    let m2 := measure fu img2
    let cdi2 := hmac cdi1 (toBytes 48 m2.toNat)
    let s2 := { s1 with
      nfree := s1.nfree + 1
      sec := { s1.sec with meas := [m1, m2], svns := s1.sec.svns ++ [numAt img2 5 1], microcode := Config.microcodeOf img2, cdi2 := cdi2
                           aliases := [aliasKey cdi1, aliasKey cdi2], certs := s1.sec.certs ++ [Config.certify (aliasKey cdi1) (aliasKey cdi2) m2]
                           failedCores := ((Config.selfTest s1.nfree).filter (fun c => decide (c < Config.dies * Config.dieCores))).foldl insertNat [] } }
    if s.sec.flash3.isEmpty then haltBoot s2 .awaiting 0
    else if checkStage fu s.sec.flash3 3 then startMboelaor s2 s.sec.flash3
    else haltBoot s2 (.halted 3) 3

/-- The failed cores of the last boot: each takes the spare of its cluster, or, where that is in use, is gone (R10, R393). Of two of one cluster the lower takes the spare (DESIGN CHOICE,
log 101). -/
def replaceCores (sec : Sec) : Sec :=
  sec.failedCores.foldl (fun a c =>
    let cl := c / Config.clusterCores
    if a.spared.contains cl then { a with gone := if a.gone.contains c then a.gone else a.gone ++ [c] } else { a with spared := a.spared ++ [cl] })
    { sec with failedCores := [] }

/-- COLD_RESET: everything but the fuses and the boot flash takes its reset value, and the boot ROM checks copy A of stage 1 and then copy B; where
both fail it enters recovery (R363). What is still to come from outside stays on the agenda (DESIGN CHOICE, log 1). -/
def execColdReset (s : State) : Res :=
  finish (
    let kept := replaceCores s.sec
    let sec := { Sec.reset with
      fuses := kept.fuses, flashA := kept.flashA, flashB := kept.flashB, flash2 := kept.flash2, flash3 := kept.flash3, spared := kept.spared, gone := kept.gone
      nonces := kept.nonces }
    let s1 := { State.reset with agenda := s.agenda, sched := s.sched, nfree := s.nfree, out := s.out, choices := s.choices, sec := sec, cores := kept.gone.map (fun n => { Core.fresh n with failed := true }) }
    if checkStage sec.fuses sec.flashA 1 then fromStage1 s1 sec.flashA
    else if checkStage sec.fuses sec.flashB 1 then fromStage1 s1 sec.flashB
    else haltBoot s1 .recovery 1)

/-- RECOVERY_IMAGE: in recovery the ROM checks a stage-1 image from the host the same way (R363). -/
def execRecoveryImage (img : List Byte) (s : State) : Res :=
  finish (if s.sec.boot = .recovery && checkStage s.sec.fuses img 1 then fromStage1 s img else s)

/-- HOST_STAGE_IMAGE: where the flash holds no stage 3, stage 1 checks the one that the host supplies (R363). -/
def execHostStageImage (img : List Byte) (s : State) : Res :=
  finish (
    if s.sec.boot ≠ .awaiting then s
    else if checkStage s.sec.fuses img 3 then startMboelaor s img
    else haltBoot s (.halted 3) 3)

/-- FULL_SERVICE: full service begins on all dies together, at 850 MHz, and the launches that wait for it pin the full vector (R368, R369). -/
def execFullService (s : State) : Res :=
  finish (
    if s.sec.boot ≠ .seedling then s
    else setClocks { s with
      sec := { s.sec with boot := .full }
      launches := s.launches.map (fun l => if l.features = 0 && !l.complete then { l with features := fullFeatures } else l) } 850)

/-! ### Owner keys and security versions (R362, R364) -/

/-- An answer of the security engine. -/
def reply (s : State) (what : String) (vals : List Nat) : State := { s with out := s.out ++ [.text what vals] }

/-- An owner-key command: signed both ways by a slot with enrol authority, and not accepted while LCS is 4 (R362). -/
def ownkeyOk (fu : Fuses) (add : Bool) (c : OwnkeyCmd) : Bool :=
  let msg := Config.ownkeyMessage add c.slot c.digest c.auth
  fu.lcs != 4 && slotMay fu c.signer.toNat 2 && Config.digest384 (c.ecpub ++ c.lmspub) == slotDigest fu c.signer.toNat &&
    Config.ecdsaValid c.ecpub msg c.ecSig && Config.lmsValid c.lmspub msg c.lmsSig

/-- OWNKEY.ADD: fuses go from 0 to 1 only, in a slot whose digest is all zeros. -/
def execOwnkeyAdd (c : OwnkeyCmd) (s : State) : Res :=
  finish (
    let fu := s.sec.fuses
    if !engineRuns s then s
    else if ownkeyOk fu true c && slotDigest fu c.slot.toNat == 0 then
      reply { s with sec := { s.sec with fuses := { fu with
        slots := fu.slots.set c.slot.toNat c.digest, auth := fu.auth ||| (c.auth.setWidth 12 <<< (3 * c.slot.toNat)) } } } "OWNKEY.ADD accepted" [c.slot.toNat]
    else reply s "OWNKEY.ADD refused" [c.slot.toNat])

/-- OWNKEY.REVOKE: the running chain is unchanged (R362, R371). -/
def execOwnkeyRevoke (c : OwnkeyCmd) (s : State) : Res :=
  finish (
    let fu := s.sec.fuses
    if !engineRuns s then s
    else if ownkeyOk fu false c then
      reply { s with sec := { s.sec with fuses := { fu with revoke := fu.revoke ||| (1#4 <<< c.slot.toNat) } } } "OWNKEY.REVOKE accepted" [c.slot.toNat]
    else reply s "OWNKEY.REVOKE refused" [c.slot.toNat])

/-- Set the lowest clear bits until n bits are 1; fuel. -/
def raiseBits (n : Nat) : Nat → Nat → BitVec 64 → BitVec 64
  | 0, _, w => w
  | f + 1, k, w =>
    if n ≤ ((List.range 64).filter (fun j => w.getLsbD j)).length then w else raiseBits n f (k + 1) (w ||| (1#64 <<< k))

/-- MINSVN_RAISE: up to the version of the stage that has booted (R364). -/
def execMinsvnRaise (stage svn : Nat) (s : State) : Res :=
  finish (
    let fu := s.sec.fuses
    if !serving s || stage = 0 || 3 < stage || decide (nth s.sec.svns (stage - 1) 0 < svn) then s
    else { s with sec := { s.sec with fuses := { fu with minsvn := fu.minsvn.set (stage - 1) (raiseBits svn 64 0 (nth fu.minsvn (stage - 1) 0)) } } })

/-! ### Debug unlock (R370, R371) -/

/-- UNLOCK.REQ: a fresh nonce; tokens with an older one are refused from now on (R371). -/
def execUnlockReq (s : State) : Res :=
  finish (
    if !engineRuns s then s
    else
      let n := Config.nonce256 s.sec.nonces
      reply { s with sec := { s.sec with nonce := some n, nonces := s.sec.nonces + 1 } } "UNLOCK.REQ" [s.sec.fuses.devid.toNat, s.sec.fuses.lcs.toNat, n.toNat])

/-- The binding, the reserved bits, the slot and both signatures of a token (R370). -/
def tokenOk (sec : Sec) (t : List Byte) : Bool :=
  let fu := sec.fuses
  let slot := numAt t 4 1 / 16
  let keys := Config.slotKeys (slotDigest fu slot)
  numAt t 0 4 == 0x4B4C4E55 && numAt t 4 1 % 16 == fu.lcs.toNat && decide (numAt t 5 1 < 8) && numAt t 6 2 == 0 && numAt t 8 16 == fu.devid.toNat &&
    (match sec.nonce with | some n => numAt t 24 32 == n.toNat | none => false) && numAt t 56 40 == 0 && slotMay fu slot 1 &&
    Config.ecdsaValid keys.1 (bytesAt t 0 96) (bytesAt t 96 96) && Config.lmsValid keys.2 (bytesAt t 0 96) (bytesAt t 192 2668)

/-- Kill the launches of a context, and report the kill to its fault queue (R370, R375). -/
def killKeyed (s : State) (c : Nat) : State :=
  enqueueReport (endLaunches 3 s (fun l => l.ctx == c)) c { Report.blank with cls := 4, kind := 18, info := 2 }

/-- A context that holds a key id is being pre-empted (R371). -/
def keyedSaves (s : State) : Bool := s.teams.any (fun t => t.preempt && !t.saved && s.sec.keys.any (fun k => k.ctx == ctxOfLaunch s t.lk))

/-- The steps of an unlock from the kill on, which wait until no context that holds a key id is being pre-empted; what was saved is discarded with its launch (R370, R371).
Before stage 3 runs there is no CDI3 to derive again. -/
def unlockNow (s : State) : State :=
  match s.sec.unlocking with
  | none => s
  | some word =>
    if keyedSaves s then s
    else
      let s1 := (s.sec.keys.foldl (fun a k => insertNat a k.ctx) []).foldl killKeyed s
      let sec := { s1.sec with unlocking := none, keys := [], sessions := [], debugWord := word }
      reply { s1 with sec := if serving s then stage3Identity sec else sec } "debug port open" [field word 8 8]

/-- UNLOCK: a refusal discards the nonce and changes nothing else; a token of another length is not taken (DESIGN CHOICE, log 52). -/
def execUnlock (token : List Byte) (s : State) : Res :=
  finish (
    if !engineRuns s || token.length ≠ 2860 then s
    else if !tokenOk s.sec token then reply { s with sec := { s.sec with nonce := none } } "UNLOCK refused" []
    else unlockNow { s with sec := { s.sec with nonce := none, unlocking := some (1 + 256 * numAt token 5 1 + 65536 * (numAt token 4 1 / 16)) } })

/-! ### SPDM (R366, R367) -/

def natsOf (bs : List Byte) : List Nat := bs.map (fun b => b.toNat)

/-- The session of a secured message, and how its answer is addressed. -/
def portSession : SpdmPort → Option Nat
  | .doe x => x
  | .eth _ x => x
def portVals : SpdmPort → List Nat
  | .doe x => [1 + bit x.isSome]
  | .eth q x => [q.toNat, 1 + bit x.isSome]

/-- A session of this number. -/
def sessionOf (s : State) (n : Nat) : Option Session := s.sec.sessions.find? (fun x => x.id == n)

/-- A plain message is taken, and a secured one that belongs to an open session; FINISH comes in the session that it completes. -/
def admitted (p : SpdmPort) (handshake : Bool) (s : State) : Bool :=
  match portSession p with
  | none => true
  | some n => (sessionOf s n).any (fun x => x.done || handshake)

/-- An answer as it leaves: plain, or sealed under the session of the request. -/
def answerText (s : State) (p : SpdmPort) (what : String) (vals : List Nat) : Out :=
  match (portSession p).bind (sessionOf s) with
  | none => .text what (portVals p ++ vals)
  | some x => .text "secured message" (portVals p ++ x.id :: natsOf (Config.gcmSeal x.secret x.sent what vals))

/-- One more secured answer of the session of a request. -/
def countAnswer (s : State) (p : SpdmPort) : State :=
  { s with sec := { s.sec with sessions := updWhere (fun x => portSession p == some x.id) (fun x => { x with sent := x.sent + 1 }) s.sec.sessions } }

/-- The responder: it answers while Mboelaor runs the messages that it admits. -/
def responderIn (p : SpdmPort) (handshake : Bool) (s : State) (f : State → State × String × List Nat) : Res :=
  if !serving s || !admitted p handshake s then .next s
  else
    let (t, what, vals) := f s
    finish { countAnswer t p with out := t.out ++ [answerText s p what vals] }

/-- The responder to all requests but FINISH. -/
def responder (p : SpdmPort) (s : State) (f : State → State × String × List Nat) : Res := responderIn p false s f

/-- A request that needs the algorithms negotiated first (SPDM 1.2; PRESUMED, log 51). -/
def negotiatedFirst (s : State) (r : State × String × List Nat) : State × String × List Nat :=
  if s.sec.negotiated then r else (s, "ERROR UnexpectedRequest", [])

/-- The chain in slot 0: Onzil's root through the DeviceID key to the stage-3 alias key. -/
def aliasSecret (s : State) : BitVec 384 := nth s.sec.aliases 2 0
def chain (s : State) : List Byte := s.sec.certs.flatten

/-- A measurement block: its bytes (R366). -/
def measurement (s : State) (index : Nat) : List Byte :=
  match index with
  | 1 => toBytes 48 Config.romDigest.toNat
  | 2 | 3 | 4 => toBytes 48 (nth s.sec.meas (index - 2) 0).toNat
  | 5 => toBytes 4 s.sec.microcode.toNat
  | 6 => toBytes 4 s.sec.debugWord
  | _ => toBytes 4 (s.sec.fuses.lcs.toNat + 16 * s.sec.fuses.ownmode.toNat)

/-- GET_VERSION: 1.2; what was negotiated before is void. -/
def execGetVersion (p : SpdmPort) (s : State) : Res :=
  responder p s fun s => ({ s with sec := { s.sec with versioned := true, negotiated := false } }, "VERSION", [0x12])

def execGetCapabilities (p : SpdmPort) (s : State) : Res :=
  responder p s fun s => if s.sec.versioned then (s, "CAPABILITIES", []) else (s, "ERROR UnexpectedRequest", [])

/-- NEGOTIATE_ALGORITHMS: ECDSA P-384 with SHA-384, secp384r1 and AES-256-GCM, which the answer names by their sizes. -/
def execNegotiateAlgorithms (p : SpdmPort) (s : State) : Res :=
  responder p s fun s =>
    if s.sec.versioned then ({ s with sec := { s.sec with negotiated := true } }, "ALGORITHMS", [384, 384, 384, 256]) else (s, "ERROR UnexpectedRequest", [])

def execGetDigests (p : SpdmPort) (s : State) : Res :=
  responder p s fun s => negotiatedFirst s (s, "DIGESTS", [1, (Config.digest384 (chain s)).toNat])

def execGetCertificate (p : SpdmPort) (slot : Nat) (s : State) : Res :=
  responder p s fun s => negotiatedFirst s (if slot = 0 then (s, "CERTIFICATE", natsOf (chain s)) else (s, "ERROR InvalidRequest", []))

/-- CHALLENGE: the answer is signed with the alias key over the nonce and the measurements. -/
def execChallenge (p : SpdmPort) (slot : Nat) (nonce : BitVec 256) (s : State) : Res :=
  responder p s fun s => negotiatedFirst s (
    if slot = 0 then (s, "CHALLENGE_AUTH", natsOf (Config.ecdsaSign (aliasSecret s) (toBytes 32 nonce.toNat ++ (List.range' 1 7).flatMap (measurement s))))
    else (s, "ERROR InvalidRequest", []))

/-- GET_MEASUREMENTS: the number of blocks for index 0, every block for 0xFF, else one. -/
def execGetMeasurements (p : SpdmPort) (index : Nat) (s : State) : Res :=
  responder p s fun s => negotiatedFirst s (
    if index = 0 then (s, "MEASUREMENTS", [7])
    else if index = 255 then (s, "MEASUREMENTS", natsOf ((List.range' 1 7).flatMap (measurement s)))
    else if index ≤ 7 then (s, "MEASUREMENTS", natsOf (measurement s index))
    else (s, "ERROR InvalidRequest", []))

/-- The session that KEY_EXCHANGE begins: the secret of the device's ephemeral key and the requester's point, and both points. -/
def newSession (s : State) (n : Nat) (exchange : List Byte) : Session :=
  let key := Config.ecdhKey s.sec.nonces
  ⟨n, Config.ecdhShared key exchange, exchange ++ Config.ecdhPublic key, 0, false⟩

/-- KEY_EXCHANGE: secp384r1 ECDHE with a point of 96 bytes; the answer is the device's point and the alias key's signature of both (R367; PRESUMED, log 51). -/
def execKeyExchange (p : SpdmPort) (session : ExchangeMsg) (s : State) : Res :=
  responder p s fun s => negotiatedFirst s (
    if (sessionOf s session.id).isSome || session.exchange.length ≠ 96 then (s, "ERROR InvalidRequest", [])
    else
      let x := newSession s session.id session.exchange
      ({ s with sec := { s.sec with sessions := s.sec.sessions ++ [x], nonces := s.sec.nonces + 1 } }, "KEY_EXCHANGE_RSP",
        session.id :: natsOf (Config.ecdhPublic (Config.ecdhKey s.sec.nonces) ++ Config.ecdsaSign (aliasSecret s) x.points)))

/-- The verify data of a session, which the requester shows in FINISH: the MAC of the exchange under the shared secret (PRESUMED, log 51). -/
def verifyData (x : Session) : List Byte := toBytes 48 (hmac x.secret x.points).toNat

/-- FINISH: the session is open from now on, where the verify data are right; else the session ends (R367; PRESUMED, log 51). -/
def execFinish (p : SpdmPort) (session : FinishMsg) (s : State) : Res :=
  responderIn p (portSession p == some session.id) s fun s => negotiatedFirst s (
    match (sessionOf s session.id).filter (fun x => !x.done) with
    | none => (s, "ERROR InvalidRequest", [])
    | some x =>
      if session.verify = verifyData x then
        ({ s with sec := { s.sec with sessions := updWhere (fun y => y.id == session.id) (fun y => { y with done := true }) s.sec.sessions } }, "FINISH_RSP", [session.id])
      else ({ s with sec := { s.sec with sessions := s.sec.sessions.filter (fun y => y.id != session.id) } }, "ERROR DecryptError", []))

/-- END_SESSION ends the session that carries it, and no other (R367; PRESUMED, log 51). -/
def execEndSession (p : SpdmPort) (session : Nat) (s : State) : Res :=
  responder p s fun s => negotiatedFirst s (
    if portSession p = some session && (sessionOf s session).isSome then
      ({ s with sec := { s.sec with sessions := s.sec.sessions.filter (fun x => x.id != session) } }, "END_SESSION_ACK", [session])
    else (s, "ERROR InvalidRequest", []))

/-- Any other request. -/
def execSpdmUnsupported (p : SpdmPort) (code : Nat) (s : State) : Res := responder p s fun s => (s, "ERROR UnsupportedRequest", [code])

/-! ### Power (R19, R403) -/

/-- Ceilings of the blocks in mW (R19). -/
def ceilings : List Nat := [1400000, 1700000, 1300000, 450000, 150000]

/-- The nominal clock of a block in MHz: 850 for the vector and the matrix blocks (R403), 2000 for the X-die's (R9); the spec names none for the others. -/
def nominal (block : Nat) : Option Nat := if block ≤ 1 then some 850 else if block = 4 then some 2000 else none

/-- What the control cores read of a block through the mailbox: its power estimate in mW, clock in MHz, voltage in mV, ceiling in mW, and the time spent below nominal clock
in ns (R403). -/
def telemetryRead (s : State) (block : Nat) : Option (List Nat) :=
  if !serving s then none
  else (s.telemetry.find? (fun t => t.block == block)).map (fun t => [t.mw, t.mhz, t.mv, nth ceilings block 0, t.below])

/-- The clock that a block may not exceed now: its nominal clock, and 425 MHz for the vector and the matrix blocks while only seedling service is offered (R368, R403). -/
def clockLimit (s : State) (block : Nat) : Option Nat := if block ≤ 1 && s.sec.boot == .seedling then some 425 else nominal block

/-- CLOCK_AND_VOLTAGE_CHANGE: a block sets its own clock and voltage, below its ceiling and at most at its nominal clock; its telemetry follows. -/
def execClockAndVoltageChange (block mhz mv mw : Nat) (s : State) : Res :=
  finish (
    if nth ceilings block 0 ≤ mw || (clockLimit s block).any (fun n => decide (n < mhz)) then s
    else { s with telemetry := updWhere (fun t => t.block == block) (fun t => { t with mhz := mhz, mv := mv, mw := mw }) s.telemetry })

end Sys2Proof.Machine
end

