-- ==== Sys2Proof/Machine/Slots.lean ====
section
/-! DEFINITION. Strand slots and the form file of a core: benching, and the return to a slot (R14, R41, R311, R316). -/

namespace Sys2Proof.Machine

/-- Form-file entries of a strand: one for each register in U or A form. A predicate entry is held in the strand slot, whatever its form (R27). -/
def entriesOf (st : Strand) : Nat := (st.regs.filter (fun r => match r.2 with | .x _ => false | _ => true)).length

/-- The strands of a core that are not benched fit its slots and its form file (R14, R41). -/
def seatsFit (s : State) (core : Nat) : Bool :=
  let here := s.strands.filter (holdsSlot s core)
  decide (here.length ≤ Config.strandSlots) && decide (here.foldl (fun a st => a + entriesOf st) 0 ≤ Config.formEntries)

/-- A strand is urgent while it is ready (R311). -/
def isUrgent (st : Strand) : Bool := st.urgent && st.status == .ready && st.halted.isNone

/-- The strands of a core that may be benched, in the order in which they are: the last of the strand table first (DESIGN CHOICE, log 72). A strand in a run is
not benched, and an urgent one only where the others do not suffice. -/
def benchable (s : State) (core : Nat) (urgent : Bool) : List Nat :=
  ((s.strands.filter (fun st => holdsSlot s core st && !inRun s st && isUrgent st == urgent)).reverse).map (fun st => st.sid)

/-- Bench strands in turn until the core's slots and form file suffice. -/
def benchUntil (core : Nat) : List Nat → State → State
  | [], s => s
  | sid :: r, s => if seatsFit s core then s else benchUntil core r (updStrand s sid (fun x => { x with benched := true }))

/-- A core that holds too much benches strands (R41). -/
def benchExcess (s : State) (core : Nat) : State :=
  if seatsFit s core then s else benchUntil core (benchable s core false ++ benchable s core true) s

/-- A benched strand returns to a slot, with room made by benching strands that are not urgent (R41, R311). -/
def seat (s : State) (st : Strand) : State :=
  let s1 := updStrand s st.sid (fun x => { x with benched := false })
  if seatsFit s1 st.core then s1 else benchUntil st.core ((benchable s1 st.core false).filter (fun sid => sid != st.sid)) s1

/-- An urgent benched strand returns to a slot before any other benched strand (R311). -/
def firstBack (s : State) (st : Strand) : Bool := isUrgent st || !s.strands.any (fun x => standsOn s st.core x && x.benched && isUrgent x)

/-- Whether a strand has a slot, or can have one (R311, R316). -/
def canSit (s : State) (st : Strand) : Bool := !st.benched || (firstBack s st && seatsFit (seat s st) st.core)

/-- The order of R309 and R311: urgent before the others, then the lower stamp, then the lower first index. -/
def before (a b : Strand) : Bool :=
  if a.urgent != b.urgent then a.urgent
  else if a.stamp != b.stamp then decide (a.stamp < b.stamp)
  else decide (a.first < b.first)

/-- The first of some strands in that order. -/
def firstOf (xs : List Strand) : Option Strand :=
  xs.foldl (fun (b : Option Strand) st => match b with | none => some st | some x => if before st x then some st else b) none

/-- The urgent benched strand of a core that is first in the order returns to a slot as soon as one is to be had: when a slot is free, or the first urgent strand that has one ends its run
or blocks (R311, R316). -/
def seatUrgent (core : Nat) (s : State) : State :=
  match firstOf (s.strands.filter (fun st => standsOn s core st && st.benched && isUrgent st)) with
  | some st => if canSit s st then seat s st else s
  | none => s

/-- STRAND_UNBENCH: a ready benched strand returns to a slot, an urgent one before any other; while every slot holds an urgent strand, it waits (R41, R311, R316). -/
def execStrandUnbench (sid : Nat) (s : State) : Res :=
  finish (match strandOf s sid with
    | none => s
    | some st => if st.benched && st.status == .ready && canSit s st then seat s st else s)

end Sys2Proof.Machine
end

