-- ==== Sys2Proof/Machine/Dispatch.lean ====
section
/-! DEFINITION. The dispatch: one arm for each constructor of Instr, one call of its meaning in each. -/

namespace Sys2Proof.Machine

def exec (i : Instr) (s : State) : Host.Outcome State Fault Refusal :=
  match i with
  -- Integer arithmetic, immediates and moves (R121)
  | .add h d a b => Sys2Proof.Machine.execAdd h d a b s
  | .addFull h d a b t sat => Sys2Proof.Machine.execAddFull h d a b t sat s
  | .sub h d a b => Sys2Proof.Machine.execSub h d a b s
  | .subFull h d a b t sat => Sys2Proof.Machine.execSubFull h d a b t sat s
  | .mul h d a b => Sys2Proof.Machine.execMul h d a b s
  | .mulFull h d a b t sat => Sys2Proof.Machine.execMulFull h d a b t sat s
  | .mulh h d a b => Sys2Proof.Machine.execMulh h d a b s
  | .mulhFull h d a b uns => Sys2Proof.Machine.execMulhFull h d a b uns s
  | .mad h d a b => Sys2Proof.Machine.execMad h d a b s
  | .madFull h d a b c t => Sys2Proof.Machine.execMadFull h d a b c t s
  | .neg h d a => Sys2Proof.Machine.execNeg h d a s
  | .negFull h d a t sat => Sys2Proof.Machine.execNegFull h d a t sat s
  | .abs h d a => Sys2Proof.Machine.execAbs h d a s
  | .absFull h d a t sat => Sys2Proof.Machine.execAbsFull h d a t sat s
  | .min h d a b => Sys2Proof.Machine.execMin h d a b s
  | .minFull h d a b t => Sys2Proof.Machine.execMinFull h d a b t s
  | .max h d a b => Sys2Proof.Machine.execMax h d a b s
  | .maxFull h d a b t => Sys2Proof.Machine.execMaxFull h d a b t s
  | .div h d a b => Sys2Proof.Machine.execDiv h d a b s
  | .divFull h d a b t sat => Sys2Proof.Machine.execDivFull h d a b t sat s
  | .rem h d a b => Sys2Proof.Machine.execRem h d a b s
  | .remFull h d a b t sat => Sys2Proof.Machine.execRemFull h d a b t sat s
  | .addk h d a k => Sys2Proof.Machine.execAddk h d a k s
  | .addkFull h d a k t sat => Sys2Proof.Machine.execAddkFull h d a k t sat s
  | .shlk h d a k => Sys2Proof.Machine.execShlk h d a k s
  | .shlkFull h d a k t => Sys2Proof.Machine.execShlkFull h d a k t s
  | .shrk h d a k => Sys2Proof.Machine.execShrk h d a k s
  | .shrkFull h d a k t => Sys2Proof.Machine.execShrkFull h d a k t s
  | .sark h d a k => Sys2Proof.Machine.execSark h d a k s
  | .sarkFull h d a k t => Sys2Proof.Machine.execSarkFull h d a k t s
  -- Logic, shifts and bit fields (R124)
  | .and h d a b => Sys2Proof.Machine.execAnd h d a b s
  | .andFull h d a b => Sys2Proof.Machine.execAndFull h d a b s
  | .or h d a b => Sys2Proof.Machine.execOr h d a b s
  | .orFull h d a b => Sys2Proof.Machine.execOrFull h d a b s
  | .xor h d a b => Sys2Proof.Machine.execXor h d a b s
  | .xorFull h d a b => Sys2Proof.Machine.execXorFull h d a b s
  | .not h d a => Sys2Proof.Machine.execNot h d a s
  | .notFull h d a => Sys2Proof.Machine.execNotFull h d a s
  | .andn h d a b => Sys2Proof.Machine.execAndn h d a b s
  | .andnFull h d a b => Sys2Proof.Machine.execAndnFull h d a b s
  | .shl h d a b => Sys2Proof.Machine.execShl h d a b s
  | .shlFull h d a b t => Sys2Proof.Machine.execShlFull h d a b t s
  | .shr h d a b => Sys2Proof.Machine.execShr h d a b s
  | .shrFull h d a b t => Sys2Proof.Machine.execShrFull h d a b t s
  | .sar h d a b => Sys2Proof.Machine.execSar h d a b s
  | .sarFull h d a b t => Sys2Proof.Machine.execSarFull h d a b t s
  | .rot h d a b => Sys2Proof.Machine.execRot h d a b s
  | .rotFull h d a b t => Sys2Proof.Machine.execRotFull h d a b t s
  | .clz h d a => Sys2Proof.Machine.execClz h d a s
  | .clzFull h d a t => Sys2Proof.Machine.execClzFull h d a t s
  | .popc h d a => Sys2Proof.Machine.execPopc h d a s
  | .popcFull h d a t => Sys2Proof.Machine.execPopcFull h d a t s
  | .brev h d a => Sys2Proof.Machine.execBrev h d a s
  | .brevFull h d a t => Sys2Proof.Machine.execBrevFull h d a t s
  | .bext h d a b => Sys2Proof.Machine.execBext h d a b s
  | .bextFull h d a b c => Sys2Proof.Machine.execBextFull h d a b c s
  | .bins h d a b => Sys2Proof.Machine.execBins h d a b s
  | .binsFull h d a b c => Sys2Proof.Machine.execBinsFull h d a b c s
  -- Compare, test, select and moves (R126, R121)
  | .cmp h a b => Sys2Proof.Machine.execCmp h a b s
  | .cmpFull h a b c t => Sys2Proof.Machine.execCmpFull h a b c t s
  | .cmpk h a k => Sys2Proof.Machine.execCmpk h a k s
  | .cmpkFull h a k c t => Sys2Proof.Machine.execCmpkFull h a k c t s
  | .fcmp h a b => Sys2Proof.Machine.execFcmp h a b s
  | .fcmpFull h a b c t => Sys2Proof.Machine.execFcmpFull h a b c t s
  | .test h a b => Sys2Proof.Machine.execTest h a b s
  | .testFull h a b => Sys2Proof.Machine.execTestFull h a b s
  | .sel h d a b => Sys2Proof.Machine.execSel h d a b s
  | .selFull h d a b neg q => Sys2Proof.Machine.execSelFull h d a b neg q s
  | .mov h d a => Sys2Proof.Machine.execMov h d a s
  | .movFull h d a wide => Sys2Proof.Machine.execMovFull h d a wide s
  | .movk h d k => Sys2Proof.Machine.execMovk h d k s
  | .movkFull h d k => Sys2Proof.Machine.execMovkFull h d k s
  -- Real arithmetic (R128)
  | .fadd h d a b => Sys2Proof.Machine.execFadd h d a b s
  | .faddFull h d a b m => Sys2Proof.Machine.execFaddFull h d a b m s
  | .fsub h d a b => Sys2Proof.Machine.execFsub h d a b s
  | .fsubFull h d a b m => Sys2Proof.Machine.execFsubFull h d a b m s
  | .fmul h d a b => Sys2Proof.Machine.execFmul h d a b s
  | .fmulFull h d a b m => Sys2Proof.Machine.execFmulFull h d a b m s
  | .fma h d a b => Sys2Proof.Machine.execFma h d a b s
  | .fmaFull h d a b c m => Sys2Proof.Machine.execFmaFull h d a b c m s
  | .fmin h d a b => Sys2Proof.Machine.execFmin h d a b s
  | .fminFull h d a b t => Sys2Proof.Machine.execFminFull h d a b t s
  | .fmax h d a b => Sys2Proof.Machine.execFmax h d a b s
  | .fmaxFull h d a b t => Sys2Proof.Machine.execFmaxFull h d a b t s
  | .fneg h d a => Sys2Proof.Machine.execFneg h d a s
  | .fnegFull h d a t => Sys2Proof.Machine.execFnegFull h d a t s
  | .fabs h d a => Sys2Proof.Machine.execFabs h d a s
  | .fabsFull h d a t => Sys2Proof.Machine.execFabsFull h d a t s
  | .fcps h d a b => Sys2Proof.Machine.execFcps h d a b s
  | .fcpsFull h d a b bf => Sys2Proof.Machine.execFcpsFull h d a b bf s
  | .rcp h d a bf => Sys2Proof.Machine.execRcp h d a bf s
  | .sqrt h d a bf => Sys2Proof.Machine.execSqrt h d a bf s
  | .rsq h d a bf => Sys2Proof.Machine.execRsq h d a bf s
  | .ex2 h d a bf => Sys2Proof.Machine.execEx2 h d a bf s
  | .lg2 h d a bf => Sys2Proof.Machine.execLg2 h d a bf s
  | .frnd h d a m => Sys2Proof.Machine.execFrnd h d a m s
  | .cvt h d a dst src sat r => Sys2Proof.Machine.execCvt h d a dst src sat r s
  | .dp4 h d a b c uns => Sys2Proof.Machine.execDp4 h d a b c uns s
  -- Predicate stack (R134)
  | .qdup h a => Sys2Proof.Machine.execQdup h a s
  | .qnot h a => Sys2Proof.Machine.execQnot h a s
  | .qand h a b => Sys2Proof.Machine.execQand h a b s
  | .qor h a b => Sys2Proof.Machine.execQor h a b s
  | .qxor h a b => Sys2Proof.Machine.execQxor h a b s
  | .qdrop h k => Sys2Proof.Machine.execQdrop h k s
  -- Cross-lane (R136)
  | .ballot h d q => Sys2Proof.Machine.execBallot h d q s
  | .shfl h d a b m => Sys2Proof.Machine.execShfl h d a b m s
  | .red h d a o => Sys2Proof.Machine.execRed h d a o s
  | .scan h d a o => Sys2Proof.Machine.execScan h d a o s
  | .bcast h d a b => Sys2Proof.Machine.execBcast h d a b s
  | .form h d a => Sys2Proof.Machine.execForm h d a s
  -- Memory, scratchpad, atomics and queues (R162)
  | .ld h d a k z nt => Sys2Proof.Machine.execLd h d a k z nt s
  | .st h a b k z nt => Sys2Proof.Machine.execSt h a b k z nt s
  | .lda h d a k wide sl => Sys2Proof.Machine.execLda h d a k wide sl s
  | .stl h a b k wide sl => Sys2Proof.Machine.execStl h a b k wide sl s
  | .cst h d a b wide q => Sys2Proof.Machine.execCst h d a b wide q s
  | .lds h d a k z f => Sys2Proof.Machine.execLds h d a k z f s
  | .sts h a b k z f => Sys2Proof.Machine.execSts h a b k z f s
  | .ats h d a b o => Sys2Proof.Machine.execAts h d a b o s
  | .atGlobal h d a b o home => Sys2Proof.Machine.execAtGlobal h d a b o home s
  | .cas h d a b c home => Sys2Proof.Machine.execCas h d a b c home s
  | .atc h d a b c => Sys2Proof.Machine.execAtc h d a b c s
  | .qpop h d a => Sys2Proof.Machine.execQpop h d a s
  | .qpush h a b => Sys2Proof.Machine.execQpush h a b s
  | .fence h k sl => Sys2Proof.Machine.execFence h k sl s
  | .pref h a k => Sys2Proof.Machine.execPref h a k s
  -- Control flow, rejoin and waiting (R143)
  | .nop h => Sys2Proof.Machine.execNop h s
  | .br h off => Sys2Proof.Machine.execBr h off s
  | .call h off => Sys2Proof.Machine.execCall h off s
  | .brw h w level off => Sys2Proof.Machine.execBrw h w level off s
  | .ret h => Sys2Proof.Machine.execRet h s
  | .exit h => Sys2Proof.Machine.execExit h s
  | .enrol h j => Sys2Proof.Machine.execEnrol h j s
  | .joinw h j lo hi => Sys2Proof.Machine.execJoinw h j lo hi s
  | .bar h gang k => Sys2Proof.Machine.execBar h gang k s
  | .waitc h l sl c t => Sys2Proof.Machine.execWaitc h l sl c t s
  | .yieldI h => Sys2Proof.Machine.execYieldI h s
  | .wbind h w sl => Sys2Proof.Machine.execWbind h w sl s
  | .brx h a => Sys2Proof.Machine.execBrx h a s
  -- Stream engines, matrix unit, layout records (R194)
  | .seFill h sl b e => Sys2Proof.Machine.execSeFill h sl b e s
  | .seDrain h sl b e => Sys2Proof.Machine.execSeDrain h sl b e s
  | .seFillw h sl b e => Sys2Proof.Machine.execSeFillw h sl b e s
  | .seAdv h sl b e => Sys2Proof.Machine.execSeAdv h sl b e s
  | .mfence h => Sys2Proof.Machine.execMfence h s
  | .mloop h m f w slot ksteps incA incB => Sys2Proof.Machine.execMloop h m f w slot ksteps incA incB s
  | .mwait h m => Sys2Proof.Machine.execMwait h m s
  | .mrd h d m b r blk f sat => Sys2Proof.Machine.execMrd h d m b r blk f sat s
  | .mclr h m => Sys2Proof.Machine.execMclr h m s
  | .safept h mask => Sys2Proof.Machine.execSafept h mask s
  | .dld h sl a k => Sys2Proof.Machine.execDld h sl a k s
  | .dst h sl a k => Sys2Proof.Machine.execDst h sl a k s
  -- Tasks, moult, traps and special registers (R224)
  | .sread h d sel => Sys2Proof.Machine.execSread h d sel s
  | .trap h k => Sys2Proof.Machine.execTrap h k s
  | .bkpt h k => Sys2Proof.Machine.execBkpt h k s
  | .launch h a b => Sys2Proof.Machine.execLaunch h a b s
  | .moult h a b => Sys2Proof.Machine.execMoult h a b s
  | .cbrk h d a b cond all n => Sys2Proof.Machine.execCbrk h d a b cond all n s
  -- Finishing and waiting (events)
  | .operationFinish op => Sys2Proof.Machine.execOperationFinish op s
  | .waitcSatisfied sid => Sys2Proof.Machine.execWaitcSatisfied sid s
  | .mwaitSatisfied sid => Sys2Proof.Machine.execMwaitSatisfied sid s
  | .exitWaitDone sid => Sys2Proof.Machine.execExitWaitDone sid s
  | .granuleServe sid => Sys2Proof.Machine.execGranuleServe sid s
  | .moultSucceed launch team => Sys2Proof.Machine.execMoultSucceed launch team s
  | .yieldExpiry sid => Sys2Proof.Machine.execYieldExpiry sid s
  | .runLimit core part port => Sys2Proof.Machine.execRunLimit core part port s
  | .strandUrgent sid => Sys2Proof.Machine.execStrandUrgent sid s
  | .opportunisticMerge a b => Sys2Proof.Machine.execOpportunisticMerge a b s
  | .strandUnbench sid => Sys2Proof.Machine.execStrandUnbench sid s
  -- Stream engines and the matrix unit at their own steps
  | .engineFill core e => Sys2Proof.Machine.execEngineFill core e s
  | .engineDrain core e => Sys2Proof.Machine.execEngineDrain core e s
  | .engineFillw core e => Sys2Proof.Machine.execEngineFillw core e s
  | .enginePageServiced core e ok => Sys2Proof.Machine.execEnginePageServiced core e ok s
  | .matrixMloopExec core => Sys2Proof.Machine.execMatrixMloopExec core s
  | .mrdReadoutDone op => Sys2Proof.Machine.execMrdReadoutDone op s
  | .mclrDone op => Sys2Proof.Machine.execMclrDone op s
  -- Dispatch and the launch unit
  | .dispatchPass die => Sys2Proof.Machine.execDispatchPass die s
  | .kick q tail => Sys2Proof.Machine.execKick q tail s
  | .cdone q n => Sys2Proof.Machine.execCdone q n s
  | .completionWrite q => Sys2Proof.Machine.execCompletionWrite q s
  | .launchComplete launch => Sys2Proof.Machine.execLaunchComplete launch s
  | .continuationTake bdie => Sys2Proof.Machine.execContinuationTake bdie s
  | .launchIntake op => Sys2Proof.Machine.execLaunchIntake op s
  -- Packets and the base dies
  | .rdPacket slice tag pa wide key => Sys2Proof.Machine.execRdPacket slice tag pa wide key s
  | .wrPacket slice tag pa mask data key => Sys2Proof.Machine.execWrPacket slice tag pa mask data key s
  | .atPacket op => Sys2Proof.Machine.execAtPacket op s
  | .atcPacket op => Sys2Proof.Machine.execAtcPacket op s
  | .swpPacket bdie tag group slot pin => Sys2Proof.Machine.execSwpPacket bdie tag group slot pin s
  | .swapComplete bdie group => Sys2Proof.Machine.execSwapComplete bdie group s
  | .swapEpoch bdie => Sys2Proof.Machine.execSwapEpoch bdie s
  -- Ordering and translation
  | .bufferDrain entry => Sys2Proof.Machine.execBufferDrain entry s
  | .tableWalkDone die ctx page => Sys2Proof.Machine.execTableWalkDone die ctx page s
  | .invalidate die ctx lo hi => Sys2Proof.Machine.execInvalidate die ctx lo hi s
  | .invalidateComplete die => Sys2Proof.Machine.execInvalidateComplete die s
  | .atsCompletion ctx page ans => Sys2Proof.Machine.execAtsCompletion ctx page ans s
  | .atsInvalidateRequest pasid va size => Sys2Proof.Machine.execAtsInvalidateRequest pasid va size s
  | .priResponse ctx page code => Sys2Proof.Machine.execPriResponse ctx page code s
  -- Service of stops and control registers
  | .stopSelect w => Sys2Proof.Machine.execStopSelect w s
  | .write reg value => Sys2Proof.Machine.execWrite reg value s
  | .faultConsumed ctx n => Sys2Proof.Machine.execFaultConsumed ctx n s
  | .hmaskWrite bdie k v => Sys2Proof.Machine.execHmaskWrite bdie k v s
  | .registerWrite r v => Sys2Proof.Machine.execRegisterWrite r v s
  -- Pre-emption and time slices
  | .preemptRequest launch team => Sys2Proof.Machine.execPreemptRequest launch team s
  | .safeptTimeout launch team => Sys2Proof.Machine.execSafeptTimeout launch team s
  | .teamRestore launch team => Sys2Proof.Machine.execTeamRestore launch team s
  | .sliceExpiry ctx => Sys2Proof.Machine.execSliceExpiry ctx s
  | .sliceOverrunKill ctx => Sys2Proof.Machine.execSliceOverrunKill ctx s
  -- Calls of the resident system (R348)
  | .ecallLaunch c addr q => Sys2Proof.Machine.execEcallLaunch c addr q s
  | .qcreate c ring k cring prio quantum => Sys2Proof.Machine.execQcreate c ring k cring prio quantum s
  | .qdestroy c q => Sys2Proof.Machine.execQdestroy c q s
  | .qparam c q prio quantum byplim => Sys2Proof.Machine.execQparam c q prio quantum byplim s
  | .taskset c id addr => Sys2Proof.Machine.execTaskset c id addr s
  | .hqcreate c k => Sys2Proof.Machine.execHqcreate c k s
  | .hqdestroy c handle => Sys2Proof.Machine.execHqdestroy c handle s
  | .map c addr size flags key => Sys2Proof.Machine.execMap c addr size flags key s
  | .unmap c addr size => Sys2Proof.Machine.execUnmap c addr size s
  | .share c addr size token => Sys2Proof.Machine.execShare c addr size token s
  | .keyset c handle addr flags => Sys2Proof.Machine.execKeyset c handle addr flags s
  | .window c addr size hq flags => Sys2Proof.Machine.execWindow c addr size hq flags s
  | .features c => Sys2Proof.Machine.execFeatures c s
  | .slice c us => Sys2Proof.Machine.execSlice c us s
  | .hmask c addr => Sys2Proof.Machine.execHmask c addr s
  | .l2mode c pmap => Sys2Proof.Machine.execL2mode c pmap s
  | .pchreset c => Sys2Proof.Machine.execPchreset c s
  | .migrate c id device => Sys2Proof.Machine.execMigrate c id device s
  | .ctxparam c ctx addr => Sys2Proof.Machine.execCtxparam c ctx addr s
  | .unknownCall c num => Sys2Proof.Machine.execUnknownCall c num s
  -- Boot, service level and links
  | .flitCrcFail link retrained => Sys2Proof.Machine.execFlitCrcFail link retrained s
  -- Remote memory windows
  | .rdmaWrite conn rkey va data => Sys2Proof.Machine.execRdmaWrite conn rkey va data s
  | .rdmaWriteWithImmediate conn rkey va data imm => Sys2Proof.Machine.execRdmaWriteWithImmediate conn rkey va data imm s
  | .rdmaRead conn rkey va len => Sys2Proof.Machine.execRdmaRead conn rkey va len s
  | .rdmaInvalidRequest conn => Sys2Proof.Machine.execRdmaInvalidRequest conn s
  -- Observation
  | .attach ctx sampleK traceK period => Sys2Proof.Machine.execAttach ctx sampleK traceK period s
  | .detach ctx => Sys2Proof.Machine.execDetach ctx s
  | .halt ctx launch team => Sys2Proof.Machine.execHalt ctx launch team s
  | .debugResume ctx stop => Sys2Proof.Machine.execDebugResume ctx stop s
  | .step ctx stop => Sys2Proof.Machine.execStep ctx stop s
  | .read ctx stop t => Sys2Proof.Machine.execRead ctx stop t s
  | .debugWrite ctx stop t value => Sys2Proof.Machine.execDebugWrite ctx stop t value s
  | .dump ctx launch => Sys2Proof.Machine.execDump ctx launch s
  | .sample core part => Sys2Proof.Machine.execSample core part s
  -- Errors and the rest
  | .reservedInstruction check => Sys2Proof.Machine.execReservedInstruction check s
  | .instructionFetchFault cause level => Sys2Proof.Machine.execInstructionFetchFault cause level s
  | .storageError loc correctable => Sys2Proof.Machine.execStorageError loc correctable s
  | .stopRingConsumed ctx n => Sys2Proof.Machine.execStopRingConsumed ctx n s
  | .contextDestroy ctx => Sys2Proof.Machine.execContextDestroy ctx s
  | .bundleLoad ctx pasid file => Sys2Proof.Machine.execBundleLoad ctx pasid file s
  -- Security engine, boot, SPDM and power, and the actions on a stop (last, since compiled code numbers at most 245 constructors with fields)
  | .resume => Sys2Proof.Machine.execResume s
  | .skip => Sys2Proof.Machine.execSkip s
  | .kill => Sys2Proof.Machine.execKill s
  | .unlockReq => Sys2Proof.Machine.execUnlockReq s
  | .coldReset => Sys2Proof.Machine.execColdReset s
  | .fullService => Sys2Proof.Machine.execFullService s
  | .ownkeyAdd c => Sys2Proof.Machine.execOwnkeyAdd c s
  | .ownkeyRevoke c => Sys2Proof.Machine.execOwnkeyRevoke c s
  | .minsvnRaise stage svn => Sys2Proof.Machine.execMinsvnRaise stage svn s
  | .unlock token => Sys2Proof.Machine.execUnlock token s
  | .getVersion p => Sys2Proof.Machine.execGetVersion p s
  | .getCapabilities p => Sys2Proof.Machine.execGetCapabilities p s
  | .negotiateAlgorithms p => Sys2Proof.Machine.execNegotiateAlgorithms p s
  | .getDigests p => Sys2Proof.Machine.execGetDigests p s
  | .getCertificate p slot => Sys2Proof.Machine.execGetCertificate p slot s
  | .challenge p slot nonce => Sys2Proof.Machine.execChallenge p slot nonce s
  | .getMeasurements p index => Sys2Proof.Machine.execGetMeasurements p index s
  | .keyExchange p session => Sys2Proof.Machine.execKeyExchange p session s
  | .finish p session => Sys2Proof.Machine.execFinish p session s
  | .endSession p session => Sys2Proof.Machine.execEndSession p session s
  | .spdmUnsupported p code => Sys2Proof.Machine.execSpdmUnsupported p code s
  | .recoveryImage img => Sys2Proof.Machine.execRecoveryImage img s
  | .hostStageImage img => Sys2Proof.Machine.execHostStageImage img s
  | .clockAndVoltageChange block mhz mv mw => Sys2Proof.Machine.execClockAndVoltageChange block mhz mv mw s

end Sys2Proof.Machine
end

