-- ==== Sys2Proof/Machine/Arrive.lean ====
section
/-! DEFINITION. The arrival of a launch that another device has moved here (R263, R357). -/

namespace Sys2Proof.Machine

/-- What comes over the Ethernet ports with a launch (R357): the memory of its context, the host pages that its tables map, with W and MIG, under a PASID that the host driver of this device
gives it, its completion queue, its launch, its chrysalis records, and the release records and granule settings of its indices (R263). -/
structure Arrival where
  memory : List Piece
  pasid : Nat
  hostPages : List (Nat × Bool × Bool)
  ring : UserQ
  launch : Launch
  gangs : List Gang
  teams : List Team
  strands : List Strand
  rels : List RelEntry
  gsets : List GranSet
  deriving DecidableEq, Repr

end Sys2Proof.Machine

namespace Sys2Proof.Config

/-- The launch that another device sends next, if it sends one: an input of the machine, by free values drawn (DESIGN CHOICE, log 115). -/
opaque launchArrival : Nat → Option Machine.Arrival

end Sys2Proof.Config

namespace Sys2Proof.Machine

/-- A team as its record gives it: saved, with its scratch in canonical form. -/
def arrivedTeam (s : State) (lk : Nat) (t : Team) : Team :=
  { t with lk := lk, placed := true, saved := true, ended := false, preempt := false, stopMask := none, savedAt := s.time, reqAt := s.time, record := 0, recordRoom := 0, recordLost := false
           recordSids := [], scratch := t.scratch.foldl (fun m c => memPut m c.1 c.2) [], wsave := t.wsave.foldl (fun m c => memPut m c.1 c.2) [] }

/-- The queue of an arrived launch on the dies of its context. -/
def arrivedQueue (c q : Nat) (u : UserQ) (s : State) : State :=
  (mapDies s (((ctxOf s c).map (fun x => x.part)).getD 0)).foldl (fun a d =>
    let y := dieOf a d
    putDie a { y with queues := y.queues.filter (fun z => z.q != q) ++ [QueueReg.fresh q c 1 1] }) { s with userqs := s.userqs ++ [{ u with q := q, ctx := c, waiting := [] }] }

/-- A release record of an arrived launch: its scope, as it is here, and no store, since every store that it covers has come with the homes (R263). -/
def arrivedRel (lk0 lk c : Nat) (r : RelRec) : RelRec :=
  ⟨[], { r.scope with ctx := c, members := (r.scope.members.filter (fun m => m.1 == lk0)).map (fun m => (lk, m.2)) }⟩

/-- The writer of a granule's setting, as it is here. -/
def arrivedWriter (lk c : Nat) : Writer → Writer
  | .index _ i => .index lk i
  | .engine k _ t => .engine k lk t
  | .host _ _ | .peer _ _ | .system _ => .system c

/-- Map host pages in a context's tables. -/
def mapHost (root : Nat) (ps : List (Nat × Bool × Bool)) (s : State) : Option State :=
  ps.foldl (fun acc p => acc.bind (mapOne root (p.1 * 4096) (hostLeafBits p.2.1 p.2.2) false)) (some s)

/-- Every kernel of an arriving launch requires the numeric behaviour that this device has, version 1, as it does where it comes from (R80, R81). -/
def sameNumbers (a : Arrival) : Bool := a.launch.numver == 1 && a.launch.kernel.numver == 1 && a.teams.all (fun t => t.kernel.numver == 1)

/-- A launch arrives, where the device's vector contains the one that it pins and its numeric behaviour is that of this device (R81, R357): its context gets the lowest free number, with its
memory and its host pages; it keeps its identifier, its completion ring and its image; its teams are saved ones, and return as any saved team does (R384), and one that had not begun
waits to begin. What its indices had observed is at its home (R263; DESIGN CHOICE, log 115). -/
def arrive (s : State) (a : Arrival) : State :=
  if s.sec.boot != .full || a.launch.features &&& fullFeatures ≠ a.launch.features || !sameNumbers a then s
  else match (List.range' 1 4095).find? (fun c => !(ctxOf s c).any (fun x => x.valid)), lowest 256 (fun q => !s.userqs.any (fun u => u.q == q)) with
    | some c, some q =>
      (match (newContext s c a.pasid []).bind (fun s1 =>
          let root := ((ctxOf s1 c).map (fun x => x.root)).getD 0
          (loadPieces root c a.memory s1).bind (mapHost root a.hostPages)) with
      | none => s
      | some s1 =>
        let (lk, s2) := fresh (arrivedQueue c q a.ring s1)
        let n := s2.nextId
        let ss := ((List.range a.strands.length).zip a.strands).map (fun e =>
          { e.2 with sid := n + e.1, lk := lk, pc := BitVec.ofNat 64 (e.2.pc.toNat / 4 * 4), ops := [], halted := none })
        let ds := mapDies s2 (((ctxOf s2 c).map (fun x => x.part)).getD 0)
        let seed := if ds.contains a.launch.seed then a.launch.seed else ds.headD 0
        let s3 := if a.launch.begun then s2 else updQueue s2 seed q (fun y => { y with accepted := y.accepted ++ [lk] })
        { s3 with
          nextId := n + ss.length
          launches := s3.launches ++ [{ a.launch with
            lk := lk, ctx := c, queue := q, seed := seed, complete := false, killed := false, moving := none, acq := [], beginSeq := s2.drainSeq }]
          gangs := s3.gangs ++ a.gangs.map (fun g => { g with lk := lk, ctx := c, queue := q })
          teams := s3.teams ++ a.teams.map (arrivedTeam s2 lk), strands := s3.strands ++ ss
          rels := s3.rels ++ a.rels.map (fun e => { e with lk := lk, rel := arrivedRel e.lk lk c e.rel })
          gsets := s3.gsets ++ a.gsets.map (fun e => { e with lk := lk, writer := arrivedWriter lk c e.writer, rel := arrivedRel e.lk lk c e.rel }) })
    | _, _ => s

end Sys2Proof.Machine
end

