-- ==== Sys2Proof/Machine/Agents.lean ====
section
/-! DEFINITION. What the device's own agents can do next, the passing of time, and the accounts (R227, R302, R313, R314, R402, R403; DESIGN CHOICE, log 1). -/

namespace Sys2Proof.Machine

/-! ### What can happen of itself -/

/-- What an outstanding operation can do (R155, R182, R183, R232, R374). -/
def opEvents (s : State) (o : Op) : List Instr :=
  if o.done then []
  else match o.body with
    | .result _ _ _ _ [] (some (_, ts)) _ _ => if ts.all (fun t => t.home) then [] else [.operationFinish o.oid]
    | .result _ _ _ _ _ _ _ _ | .stores _ | .dld _ _ _ _ _ | .cont (some _) => [.operationFinish o.oid]
    | .cont none => if contLeft s o.oid then [] else [.operationFinish o.oid]
    | .launch _ _ _ => if intakeRoom s then [.launchIntake o.oid] else []
    | .engine _ | .tile _ _ _ _ => []

/-- What can happen to a strand that waits (R313). -/
def strandEvents (s : State) (st : Strand) : List Instr :=
  match st.status with
  | .blocked (.waitc _ _ _ _) | .blocked (.moultWait _ _ _) => [.waitcSatisfied st.sid]
  | .blocked (.mwait _) => [.mwaitSatisfied st.sid]
  | .blocked .exitWait => [.exitWaitDone st.sid]
  | .blocked (.granule _) => if stopped s st then [] else [.granuleServe st.sid]
  | .blocked (.yieldHold n) => if n ≤ s.slots then [.yieldExpiry st.sid] else []
  | .ready =>
    (if !st.urgent && !st.pending && decide (st.stamp + 2048 ≤ slotNow s) then [.strandUrgent st.sid] else []) ++ (if st.benched && isUrgent st then [.strandUnbench st.sid] else [])
  | _ => []

/-- Two strands of one sheaf that stand at one PC, neither of them in a run, may merge (R50). -/
def mergeEvents (s : State) : List Instr :=
  s.strands.flatMap (fun a => if a.mask.isNone || a.status != .ready || inRun s a then [] else
    (s.strands.filter (fun b => decide (a.sid < b.sid) && b.mask.isSome && b.status == .ready && !inRun s b && a.lk == b.lk && a.first / 64 == b.first / 64 && a.pc == b.pc)).map
      (fun b => Instr.opportunisticMerge a.sid b.sid))

/-- The steps of a core's engines, with the service of the pages they wait for, and matrix unit (R201 to R203, R207, R211, R217, R218), and of its ports (R310). -/
def coreEvents (s : State) (c : Core) : List Instr :=
  ((List.range c.engines.length).flatMap (fun e => match nth c.engines e [] with
    | [] => []
    | cmd :: _ => (match cmd.waiting, cmd.kind with
      | some (_, .service), _ => [.enginePageServiced c.num e true]
      | some _, _ => []
      | none, .fill => [.engineFill c.num e]
      | none, .drain => [.engineDrain c.num e]
      | none, .fillw => [.engineFillw c.num e]))) ++
  (match if matrixUnit s then c.mq else [] with
    | [] => []
    | .mloop _ _ _ _ _ _ _ _ _ _ _ :: _ => [.matrixMloopExec c.num]
    | .mrd o _ _ _ _ _ _ _ _ _ _ :: _ => [.mrdReadoutDone o]
    | .mclr o _ _ _ _ :: _ => [.mclrDone o])

/-- The steps of a team: a moult at which every index has arrived, and the save and the return of one that is pre-empted (R220, R235, R340, R384). -/
def teamEvents (s : State) (t : Team) : List Instr :=
  (if (t.moulting.isSome || allAtMoult s t.lk t.num) && !teamBusy s t.lk t.num then [.moultSucceed t.lk t.num] else []) ++
  (if t.preempt && !t.saved then [.safeptTimeout t.lk t.num] else []) ++
  (if t.saved && !t.ended && !frozen s t.lk && ((ctxOf s (ctxOfLaunch s t.lk)).any (fun x => x.valid && !x.held)) then [.teamRestore t.lk t.num] else [])

/-- An operation of an ATC whose atomics are not all performed. -/
def isAtc (o : Op) : Bool := match o.body with | .result _ _ _ _ _ (some (.atc, _)) _ _ => true | _ => false

/-- The packets that a B-die may serve now (R274, R275). -/
def packetEvents (s : State) : List Instr :=
  (s.packets.filter (servable s)).map (fun p => match p.kind with
    | .rd => Instr.rdPacket p.slice (BitVec.ofNat 10 (p.tag.getD 0)) p.pa false 0
    | .wr m => .wrPacket p.slice (BitVec.ofNat 10 (p.tag.getD 0)) p.pa ((List.range 64).map (fun k => m.getLsbD k)) (memGets s.mem p.pa 64) 0
    | .engine _ k w => if w then .wrPacket p.slice (BitVec.ofNat 10 (p.tag.getD 0)) p.pa (List.replicate 256 true) (plainUnit s k (p.pa / 256)) (BitVec.ofNat 10 k)
      else .rdPacket p.slice (BitVec.ofNat 10 (p.tag.getD 0)) p.pa true (BitVec.ofNat 10 k)
    | .atom oid _ => if (opOf s oid).any isAtc then .atcPacket oid else .atPacket oid)

/-- The dispatcher of a die has something to do: a launch may begin, a gang is pending, or a queue that has none of its own has a deficit to clear (R299, R303). -/
def dispatchDue (s : State) (d : Nat) : Bool :=
  dieRuns s d && ((dieOf s d).queues.any (fun q => !q.accepted.isEmpty || q.d != 0) || s.gangs.any (fun g => g.die == d && g.state == 0))

/-- The dispatchers, the launch unit, the B-dies, host agents, and privileged calls that wait (R183, R247, R273, R281, R250, R261, R274, R283, R284, R303, R308, R330, R347). -/
def deviceEvents (s : State) : List Instr :=
  ((List.range Config.dies).filter (dispatchDue s)).map .dispatchPass ++
  (s.userqs.filter (fun u => !u.waiting.isEmpty)).map (fun u => .completionWrite u.q) ++
  (s.launches.filter (launchEnded s)).map (fun l => .launchComplete l.lk) ++
  (s.bdies.filter (fun b => !b.contq.isEmpty)).map (fun b => .continuationTake b.num) ++
  s.bdies.flatMap (fun b => b.swaps.map (fun w => .swapComplete b.num w.group)) ++
  (s.bdies.filter (fun b => decide (b.epochEnd ≤ s.time))).map (fun b => .swapEpoch b.num) ++
  packetEvents s ++ s.pendingCalls ++ (s.hostStores.filter (hostNext s)).map (fun h => .bufferDrain h.id) ++
  (s.stores.filter (canDrain s)).map (fun e => .bufferDrain e.id) ++
  s.walkReqs.map (fun w => .tableWalkDone w.die w.ctx w.page) ++
  s.invals.map (fun i => .invalidateComplete i.die)

/-- The time-slicer (R340, R341). -/
def sliceEvents (s : State) : List Instr :=
  s.ctxs.flatMap (fun x =>
    (if x.valid && (if x.held then (nextTurn s x.part).any (fun y => y.num == x.num) else !(rivals s x).isEmpty) then [Instr.sliceExpiry x.num] else []) ++ (if overrun s x.num then [Instr.sliceOverrunKill x.num] else []))

/-- Every event that the device can take of itself now. -/
def enabled (s : State) : List Instr :=
  s.ops.flatMap (opEvents s) ++ s.strands.flatMap (strandEvents s) ++ mergeEvents s ++ s.cores.flatMap (coreEvents s) ++ s.teams.flatMap (teamEvents s) ++ deviceEvents s ++ sliceEvents s

/-! ### Time (R227, R302, R402, R403) -/

/-- A team's share of its core in 1024ths (R302). -/
def share (t : Team) : Nat := min 1024 (max (t.lanes.foldl (fun a n => a + n) 0) (max ((t.held + 255) / 256) 16))

/-- A strand of a launch is resident: it has a slot; R309 sets a benched strand against a resident one (R402). -/
def resident (s : State) (lk : Nat) (st : Strand) : Bool :=
  st.lk == lk && !st.pending && !st.benched && (match st.team.bind (teamOf s lk) with | some t => t.placed && !t.saved | none => true)

/-- The state without operations of class l and s and without walks. -/
def withoutMemory (s : State) : State := { s with ops := s.ops.filter (fun o => !(o.cls == .l || o.cls == .s)), walkReqs := [] }

/-- A strand waits on operations of class l or s or on a translation alone: without them its wait would end (R402). -/
def waitsOnMemory (s : State) (st : Strand) : Bool :=
  match st.status with
  | .blocked (.stall n) => needMet (withoutMemory s) st n
  | .blocked (.walk _) | .blocked (.ats _) => true
  | .blocked (.waitc l c k t) => waitcMet (withoutMemory s) st l c k t
  | .blocked .exitWait | .blocked (.moultWait _ _ _) => waitcMet (withoutMemory s) st 0 0 0 0
  | _ => false

/-- The category of an instant of a launch that has been accepted: 1 queueing, 2 fault service, 3 storage or network wait, 4 engine execution (R402). -/
def category (s : State) (l : Launch) : Nat :=
  let here := s.strands.filter (resident s l.lk)
  let placed := s.teams.any (fun t => t.lk == l.lk && t.placed && !t.ended && !t.saved)
  if !placed && !here.any (fun st => st.team.isNone) then 1
  else if s.stops.any (fun t => t.lk == l.lk && !(s.strands.any (fun st => st.status == .parked t.ticket && st.halted.isSome))) then 2
  else if !here.isEmpty && here.all (waitsOnMemory s) then 3
  else 4

/-- The partitions whose samples of an attached context fall between two counts of issue slots, each as often as a multiple of PERIOD lies between them (R399). -/
def samplesDue (s : State) (before now : Nat) (a : Attach) : List (Nat × Nat) :=
  if a.sampleK.isNone then []
  else (List.range (now / max 1 a.period - before / max 1 a.period)).flatMap (fun _ =>
    (s.cores.filter (fun c => c.ctx == some a.ctx)).flatMap (fun c => (List.range c.parts.length).map (fun p => (c.num, p))))

/-- The account of a launch is open until its completion record is written (R347, R402). -/
def accountOpen (s : State) (l : Launch) : Bool := !l.complete || s.userqs.any (fun u => u.waiting.any (fun r => r.lk == l.lk && r.id != 0))

/-- What comes from outside with the passing of time: the stores of host agents (R247, R261), launches from other devices (R357), and the machine's next choices
(DESIGN CHOICE, log 1). -/
def arrivals (s0 : State) : State :=
  let s := if s0.issuePhase && s0.sec.boot == .full then (match Config.launchArrival s0.nfree with | some a => arrive s0 a | none => s0) else s0
  let s1 := match Config.hostArrival s.nfree with
    | some (c, g, a, bs, rel, ep) => { s with nextId := s.nextId + 1, hostStores := s.hostStores ++ [({ id := s.nextId, ctx := c, agent := g, addr := a, bytes := bs, release := rel, ep := ep } : HostStore)] }
    | none => s
  if s1.choices.isEmpty then { s1 with nfree := s1.nfree + 17, choices := (List.range 16).map (fun k => Config.freeNat (s1.nfree + 1 + k)) }
  else { s1 with nfree := s1.nfree + 1 }

/-- A step takes time: the device's clock, the issue slots, two in each cycle (R309), the charges of the resident teams, the accounts, and the time below nominal clock go
on, samples fall due, and strands that have waited long enough are urgent (R311). -/
def tick (s : State) : State :=
  let ns := Config.elapsedNs s.nfree
  let cycles := Config.elapsedCycles s.nfree
  let slots := s.slots + 2 * cycles
  arrivals { s with
    time := s.time + ns
    slots := slots
    strands := updWhere (waitedLong slots) (fun st => { st with urgent := true }) s.strands
    agenda := s.agenda ++ (s.attaches.flatMap (samplesDue s s.slots slots)).map (fun e => Instr.sample e.1 e.2) ++ runsDue { s with slots := slots }
    teams := s.teams.map (fun t => if t.placed && !t.ended && !t.saved then { t with charge := t.charge + share t * cycles } else t)
    attaches := s.attaches.map (fun a => { a with due := a.due ++ samplesDue s s.slots slots a })
    launches := s.launches.map (fun l => if !accountOpen s l then l else
      let k := category s l
      { l with account := { l.account with dur := l.account.dur.set k (nth l.account.dur k 0 + ns) } })
    telemetry := s.telemetry.map (fun t => if (nominal t.block).any (fun n => decide (t.mhz < n)) then { t with below := t.below + ns } else t) }

/-- The launches that are to move and are ready leave (R357). -/
def departures (s : State) : State := ((s.launches.filter (fun l => l.moving.isSome && !l.complete)).map (fun l => l.lk)).foldl departIfSaved s

/-- What follows of itself from a step: launches that move leave (R357), an unlock that waited for a save goes on (R371), cores that hold too much bench strands, and an urgent one that is benched returns where it can (R41, R311), releases that have been passed by drain (R254), joins
whose members are fewer now, after a cut or the end of a halt, complete (R46, R47, R405), and waits whose condition has cleared end (R310). -/
def settled (s0 : State) : State :=
  let s := unlockNow (departures s0)
  wakeStalls (drainPassed ((s.launches.map (fun l => l.lk)).foldl wakeJoins ((s.cores.map (fun c => c.num)).foldl (fun a c => seatUrgent c (benchExcess a c)) s)))

/-- The outcome of a step, with what follows from it and its time. -/
def ticked (r : Res) : Res := match r with | .next s => .next (tick (settled s)) | x => x

end Sys2Proof.Machine
end

