-- ==== Sys2Proof/Machine/Issue.lean ====
section
/-! DEFINITION. Issue: which strand a port takes, and the bookkeeping of its run (R41, R100, R158, R309 to R311; DESIGN CHOICE, log 1). -/

namespace Sys2Proof.Machine

/-! ### Which strand issues (R309, R311) -/

/-- A strand that a port may take: ready, not halted, its team not stopped, and, where it is benched, one that can return to a slot (R41, R316). -/
def eligible (s : State) (st : Strand) : Bool :=
  st.status == .ready && !st.pending && st.halted.isNone &&
    (match st.team.bind (teamOf s st.lk) with
      | some t => t.placed && !t.saved && t.stopMask.isNone
      | none => !frozen s st.lk) && canSit s st

/-- The strand that a port takes: the one whose run holds it, else the first in the order that holds no other port. A port whose run waits for a result takes no other strand
while it is held (R310). -/
def portStrand (s : State) (core part port : Nat) : Option Strand :=
  let p := partOf s core part
  let held := fun (k : Nat) => (nth p.ports k none).map (fun r => r.sid)
  let here := (held port).bind (strandOf s) |>.filter (fun st => st.core == core && st.part == part)
  match here.filter (eligible s) with
  | some st => some st
  | none => if here.isSome && (nth p.ports port none).any (fun r => r.waits.isSome) then none else
    let cs := s.strands.filter (fun st => st.core == core && st.part == part && eligible s st && !((List.range p.ports.length).any (fun k => k != port && held k == some st.sid)))
    firstOf cs

/-- The ports of a core's partitions that have something to issue. -/
def readyPorts (s : State) : List (Nat × Nat × Nat) :=
  (s.strands.filter (eligible s)).flatMap (fun st => [(st.core, st.part, 0), (st.core, st.part, 1)]) |>.filter (fun p => (portStrand s p.1 p.2.1 p.2.2).isSome)

/-- The port that issues next: as `sched` names, else the ports that can, in turn; and the state with that choice used up. -/
def nextPort (s : State) : Option (Nat × Nat × Nat) × State :=
  match s.sched with
  | p :: rest => (some p, { s with sched := rest })
  | [] => let ps := readyPorts s; (ps[s.evPtr % max 1 ps.length]?, s)

/-! ### The run (R100, R310) -/

/-- A port is given to a strand's instruction: a strand that was benched is back in a slot (R41, R309). -/
def takeSlot (s : State) (core part port : Nat) (st : Strand) : State :=
  let p := partOf s core part
  let r := ((nth p.ports port none).filter (fun r => r.sid == st.sid)).getD ⟨st.sid, 0, s.slots, none⟩
  let s1 := putPart s core part { p with ports := p.ports.set port (some { r with len := r.len + 1, waits := none }) }
  let s2 := if st.benched then seat s1 st else s1
  { s2 with cur := some st.sid }

/-- The B bit of an instruction (R85). -/
def runBit (i : Instr) : Bool := (encodeFields i).e

/-- A stepped strand has issued: what it has become halts, with SOURCE 3 (R396, R397). others: strands that are being stepped and have not issued. -/
def haltStepped (s : State) (others : List Nat) : State :=
  ((s.strands.filter (fun st => st.stepping && !others.contains st.sid && !st.pending &&
    (match st.status with | .blocked (.stall _) | .blocked (.walk _) | .blocked (.ats _) => false | _ => true))).map (fun st => st.sid)).foldl
    (fun a sid => debugHalt a sid 3 0 0 0 [] 0) s

/-- The strand's instruction waits for the result of a class-l operation (R310). -/
def awaitsLoad (s : State) (sid : Nat) : Bool :=
  (strandOf s sid).any (fun st => match st.status with
    | .blocked (.stall n) => (outstanding s st).any (fun o => o.cls == .l && (n.regs.any (pendingRegs { s with ops := [o] } st).contains || (n.stack && pendingPush { s with ops := [o] } st)))
    | _ => false)

/-- The run keeps its port while its next instruction, which has not issued, waits for a result (R310). -/
def holdPort (s : State) (core part port : Nat) : State :=
  let p := partOf s core part
  putPart s core part { p with ports := p.ports.set port ((nth p.ports port none).map (fun r => { r with len := r.len - 1, waits := some s.slots })) }

/-- What follows an instruction: its run goes on or ends, and stepped strands halt. -/
def settle (core part port sid : Nat) (others : List Nat) (b : Bool) (s : State) : State :=
  let len := ((nth (partOf s core part).ports port none).map (fun r => r.len)).getD 0
  let goesOn := s.cur == some sid && !b && decide (len < 24) && ((strandOf s sid).map (eligible s)).getD false
  let s1 := if goesOn then s else if awaitsLoad s sid then holdPort s core part port else freePort s core part port sid
  haltStepped { s1 with cur := none } others

/-- What the bytes at a strand's PC are: an instruction, or the event of the trap that they raise (R82, R98). -/
def atPc (s : State) (st : Strand) : Instr :=
  let (bs, f) := fetch s st
  match decode bs with
  | .ok i _ => i
  | .reject .truncated => (match f with | some (c, l) => .instructionFetchFault c l | none => .instructionFetchFault 0 0)
  | .reject r => .reservedInstruction r.number

end Sys2Proof.Machine
end

