-- ==== Sys2Proof/Machine/Place.lean ====
section
/-! DEFINITION. A device in full service with one context, one launch of one index on core 0, and one instruction at its PC: what must be in place
for the next step to issue that instruction (DESIGN CHOICE, log 25). -/

namespace Sys2Proof.Machine

/-- Where the instruction lies: its virtual and its physical address, and the page table of level 4; the others follow it. -/
def placeVa : Nat := 0x10000
def placePa : Nat := 0x20000
def placeRoot : Nat := 0x10000

/-- The tables that map the page of the instruction, with instruction fetch and writing permitted. -/
def placeTables (m : List Host.Cell) : List Host.Cell :=
  let put := fun (m : List Host.Cell) (a e : Nat) => memPuts m a (toBytes 8 e)
  put (put (put (put m placeRoot (1 + 0x11000)) 0x11000 (1 + 0x12000)) 0x12000 (1 + 0x13000)) (0x13000 + 8 * 16) (leafBits placePa true true false 0)

/-- A kernel with one GN role, a team of 64 indices, and every accumulator slot. -/
def placeKernel : Kernel := ⟨0x1000, 1, 64, 0, 255, 4096, 0, placeVa, [⟨.gn, 64, 0, 1, 0⟩], []⟩

/-- The context, the launch of one index, its team and its strand. -/
def placeCtx : Ctx :=
  { num := 1, valid := true, priv := false, gmig := false, gprof := false, part := 0, prio := 1, gobs := false, pasid := 0, root := placeRoot, keytab := 0x14000, keyn := 0
    tasknm1 := 255, slice := 2000, tasktab := 0x18000, queuetab := 0x15000, backing := 0x16000, faultq := 0x100000, launchCtr := 1, launched := true, faultN := 0
    consumed := 0, waiting := [], hqs := [], backed := [], hostPages := [], held := false, sliceFrom := 0, prioAt := 1, sliceAt := 2000, members := [], unusable := [], images := []
    vaNext := 0x700000000000 }
def placeLaunch (lk seq : Nat) : Launch :=
  { lk := lk, id := 1, ctx := 1, utag := 0, nocompl := true, queue := 0, grid := 1, hintBase := 0, hintStr := 0, presets := [], kernel := placeKernel
    features := 0x04FF, numver := 1, src := .ecall, recAddr := 0, spill := 0, seed := 0, begun := true, killed := false, status := 0, tstart := 0, faults := 0
    beginSeq := seq, gprof := false, gmig := false, acq := [], complete := false, tend := 0, moving := none, slots := none, poolBytes := 0, account := ⟨0, [0, 0, 0, 0, 0]⟩ }
def placeTeam (lk : Nat) : Team :=
  { lk := lk, num := 0, kernel := placeKernel, core := 0, sheafPart := [0], lanes := [64], accSlots := List.range 8, held := 4096, scratch := [], full := [], scratchPois := [], dirtyBlocks := []
    layout := List.replicate 32 0, tiles := List.replicate 8 Tile.clear, cmps := noCmps, barParity := List.replicate 32 false, slot := 0, charge := 0, adv := 0
    preempt := false, reqAt := 0, fenced := [], moulting := none, stopMask := none, saved := false, tileSaved := 0, gen := 0, stampBase := 0, savedAt := 0, record := 0, recordRoom := 0, recordLost := false, recordSids := [], wsave := [], wsavePois := [], wsaveLog := []
    placed := true, ended := false }
def placeStrand (lk sid : Nat) : Strand := newStrand sid lk (some 0) .gn placeVa 0 1 0 0 0 []

/-- The device with the bytes of an instruction at the PC of the strand that issues next. -/
def placeInstruction (s : State) (bytes : List Byte) : State :=
  let lk := s.nextId
  { s with
    agenda := [], sched := [(0, 0, 0)], issuePhase := true, cur := none, nextId := s.nextId + 2, badAddr := none
    strands := [placeStrand lk (lk + 1)], teams := [placeTeam lk], launches := [placeLaunch lk s.drainSeq]
    cores := [{ Core.fresh 0 with ctx := some 1 }], ctxs := [placeCtx], mem := memPuts (placeTables s.mem) placePa bytes, sec := { s.sec with boot := .full } }

end Sys2Proof.Machine
end

