-- ==== Sys2Proof/Machine/Step.lean ====
section
/-! DEFINITION. One step: the next event of the agenda, or an instruction of a strand, or an event that the device takes of itself (DESIGN CHOICE, log 1). -/

namespace Sys2Proof.Machine

/-- A strand issues the instruction at its PC from a port. -/
def issue (s : State) (core part port : Nat) (st : Strand) : Host.Outcome State Fault Refusal :=
  let others := (s.strands.filter (fun x => x.stepping && x.sid != st.sid)).map (fun x => x.sid)
  let i := atPc s st
  match exec i (takeSlot s core part port st) with
  | .next t => .next (settle core part port st.sid others (runBit i) t)
  | .fault f => .fault f
  | .refused r => .refused r

/-- The step of an issue slot (R309). -/
def issueStep (s : State) : Host.Outcome State Fault Refusal :=
  match nextPort { s with issuePhase := false } with
  | (none, t) => .next t
  | (some p, t) => match portStrand t p.1 p.2.1 p.2.2 with
    | none => .next t
    | some st => issue t p.1 p.2.1 p.2.2 st

/-- The step of the device's other agents. -/
def eventStep (s : State) : Host.Outcome State Fault Refusal :=
  let t := { s with issuePhase := true, evPtr := s.evPtr + 1 }
  match (enabled t)[s.evPtr % max 1 (enabled t).length]? with
  | none => .next t
  | some i => exec i t

/-- One step of the machine. After reset the boot ROM runs (R363); a device with a fatal error does nothing before a cold reset (R387). -/
def step (s : State) : Host.Outcome State Fault Refusal :=
  match s.agenda with
  | i :: rest =>
    if s.sec.boot = .fatal ∧ i ≠ .coldReset then .next { s with agenda := rest } else ticked (exec i { s with agenda := rest, cur := none })
  | [] =>
    if s.sec.boot = .off then exec .coldReset s
    else if s.sec.boot = .fatal then .next s
    else if s.issuePhase then ticked (issueStep s)
    else ticked (eventStep s)

/-- The state with the instruction whose bits are w, zero above nbits up to twelve bytes, where the next step fetches (DESIGN CHOICE, log 25). -/
def State.withFetchWord (s : State) (nbits w : Nat) : State := placeInstruction s (toBytes 12 (w % 2 ^ nbits))

end Sys2Proof.Machine
end

