-- ==== Sys2Proof/Safety.lean ====
section
/-! DEFINITION. Safe runs, and the words in which statements about one instruction are made: when a strand is ready to issue it, what it
leaves written, and what it leaves alone (R2, R16, R26, R28, R31, R100, R116, R119, R389). -/

namespace Sys2Proof

open Sys2Proof.Machine

/-! ### The whole machine -/

/-- A team's scratchpad, and the weight buffer saved with it, are in canonical form. -/
def teamCanonical (t : Team) : Prop := Memory.wf t.scratch = true ∧ Memory.wf t.wsave = true

/-- A core's weight buffer is in canonical form. -/
def coreCanonical (c : Machine.Core) : Prop := Memory.wf c.wbuf = true

/-- Every memory of the machine is in canonical form: device memory, host memory, scratchpads and weight buffers. -/
structure memoriesCanonical (s : State) : Prop where
  device : Memory.wf s.mem = true
  host : ∀ h ∈ s.hostMem, Memory.wf h.2 = true
  teams : ∀ t ∈ s.teams, teamCanonical t
  cores : ∀ c ∈ s.cores, coreCanonical c

/-- A run of n steps that stops nowhere. -/
def runsFor (n : Nat) (s : State) : Prop := ∃ t, core.run n s = .next t

/-! ### A strand and its instruction -/

/-- A strand as R26, R28 and R31 keep one: it holds some index, its range is that of its present indices, a strand without a mask has no
X form, and each X form has a value for each present index. -/
structure StrandWf (st : Strand) : Prop where
  held : present st ≠ []
  first : st.first = (present st).headD 0
  last : st.first + st.count = (present st).getLastD 0 + 1
  attached : st.mask = none → hasX st = false
  cols : ∀ e ∈ st.regs, ∀ vs, e.2 = .x vs → vs.length = presentCount st
  qcols : ∀ q ∈ st.qs, ∀ bs, q = .x bs → bs.length = presentCount st
  depth : st.qs.length = 8

/-- The strand st is the one whose instruction is being performed, and no access of the machine has named an address that the device does not have. -/
structure Issuing (s : State) (st : Strand) : Prop where
  cur : s.cur = some st.sid
  here : strandOf s st.sid = some st
  addr : s.badAddr = none
  wf : StrandWf st

/-- Nothing stands in the way of an instruction that reads the operands srcs and the stack if stack holds, and writes the registers dests: no
result that it reads or writes is outstanding (R100, R157), and no index that acts reads a poisoned word (R390). -/
structure Ready (s : State) (st : Strand) (g : Guard) (srcs : List Opnd) (dests : List Nat) (stack : Bool) : Prop extends Issuing s st where
  results : mustWait s st (srcs.flatMap Opnd.regs ++ dests) (stack || guardReads g || srcs.any Opnd.readsQ) = false
  clean : consumed st g (srcs.flatMap Opnd.regs) = []

/-- The strand is on a sheaf, or could be without a cut: it has a team and lies in one window (R37). -/
def oneSheaf (st : Strand) : Prop := st.mask.isSome = true ∨ (st.team.isSome = true ∧ oneWindow (present st) = true)

/-- The columns can be written where the strand stands: no cut is needed (R37), and no register that is form-only needs X (R35). -/
def writable (s : State) (st : Strand) (cols : List (Nat × List Word)) : Prop :=
  (∀ c ∈ cols, isXV (classifyV (present st) c.2) = false) ∨ (oneSheaf st ∧ ∀ c ∈ cols, c.1 < budgetOf s st)

/-- The same for the columns of the stack. -/
def stackable (st : Strand) (cols : List (List Bool)) : Prop :=
  (∀ c ∈ cols, isXQ (classifyQ (present st) c) = false) ∨ oneSheaf st

/-- No armed comparator of the strand's team watches one of the registers (R231). -/
def unwatched (s : State) (st : Strand) (regs : List Nat) : Prop :=
  ∀ t, st.team.bind (teamOf s st.lk) = some t → ∀ c ∈ t.cmps, c.armed = true → c.reg ∉ regs

/-- Word k of a number (R54). -/
def wordOf (k x : Nat) : Word := BitVec.ofNat 32 (x / 2 ^ (32 * k))

/-- Where the flag holds the new value, elsewhere the old one (R42). -/
def guarded {α : Type} (flags : List Bool) (new old : List α) : List α := (flags.zip (new.zip old)).map (fun e => if e.1 then e.2.1 else e.2.2)

/-- The operand values at each present index, in operand order. -/
def operandRows (st : Strand) (srcs : List Opnd) : List (List Nat) := rows (presentCount st) 0 (srcs.map (opndVals st))

/-- The columns that an instruction writes which gives the numbers vals to the n registers from d up. -/
def columns (st : Strand) (g : Guard) (d n : Nat) (vals : List Nat) : List (Nat × List Word) :=
  (List.range n).map (fun k => (d + k, guarded (guardFlags st g) (vals.map (wordOf k)) (regVals st (d + k))))

/-- The strand u is st after an instruction of len bytes that gave the numbers vals to the n registers from d up where its guard is true:
the values, their canonical form, the poison that a write clears, the dirty bits that it sets (R383), the PC; everything else of the strand is as it was. -/
structure Wrote (st u : Strand) (g : Guard) (len d n : Nat) (vals : List Nat) : Prop where
  pc : u.pc = st.pc + BitVec.ofNat 64 len
  indices : present u = present st
  value : ∀ c ∈ columns st g d n vals, regVals u c.1 = c.2 ∧ vform u c.1 = classifyV (present st) c.2
  other : ∀ r, r < d ∨ d + n ≤ r → vform u r = vform st r
  poison : ∀ e, e ∈ u.poison ↔ e ∈ st.poison ∧ ¬(d ≤ e.1 ∧ e.1 < d + n ∧ e.2 ∈ acting st g)
  attached : u.mask.isSome = (hasX u || !contiguous (present st))
  dirty : u.dirty = if (acting st g).isEmpty then st.dirty else markDirty st.dirty (List.range' d n)
  same : u = { st with pc := u.pc, regs := u.regs, poison := u.poison, mask := u.mask, dirty := u.dirty }

/-- An instruction that gives the n registers from d up, at each index that acts, the number f of its operands there, and does nothing else:
it completes, in one strand, wherever no cut is needed. -/
def Gives (i : Instr) (g : Guard) (len d n : Nat) (srcs : List Opnd) (f : List Nat → Nat) : Prop :=
  ∀ s st, Ready s st g srcs (List.range' d n) false → writable s st (columns st g d n ((operandRows st srcs).map f)) →
    unwatched s st (List.range' d n) →
    ∃ u, exec i s = .next (putStrand s u) ∧ Wrote st u g len d n ((operandRows st srcs).map f)

/-- The strand u is st after an instruction of len bytes that gave the stack, at each present index, the entries listed there. -/
structure WroteStack (st u : Strand) (len : Nat) (entries : List (List Bool)) : Prop where
  pc : u.pc = st.pc + BitVec.ofNat 64 len
  indices : present u = present st
  value : ∀ k < 8, qVals u k = entries.map (fun r => nth r k false)
  form : ∀ k < 8, qform u k = classifyQ (present st) (qVals u k)
  attached : u.mask.isSome = (hasX u || !contiguous (present st))
  same : u = { st with pc := u.pc, qs := u.qs, mask := u.mask }

/-- The stack of each present index, entry 0 first. -/
def stackRows (st : Strand) : List (List Bool) := rows (presentCount st) false ((List.range 8).map (qVals st))

/-- An instruction that makes of the stack, at each index that acts, what f makes of the operands and the stack there, and does nothing else. -/
def Stacks (i : Instr) (g : Guard) (len : Nat) (srcs : List Opnd) (f : List Nat → List Bool → List Bool) : Prop :=
  ∀ s st, Ready s st g srcs [] true →
    let new := guarded (guardFlags st g) (((operandRows st srcs).zip (stackRows st)).map (fun e => f e.1 e.2)) (stackRows st)
    stackable st ((List.range 8).map (fun k => new.map (fun r => nth r k false))) →
    ∃ u, exec i s = .next (putStrand s u) ∧ WroteStack st u len new

/-! ### Instructions that are not of that shape -/

/-- Nothing stands in the way of a memory instruction that reads the registers rs and writes the registers dests. -/
structure Clear (s : State) (st : Strand) (g : Guard) (rs dests : List Nat) (stack : Bool) : Prop extends Issuing s st where
  results : mustWait s st (rs ++ dests) (stack || guardReads g) = false
  clean : consumed st g rs = []

/-- Nothing stands in the way of a transfer: the guard's results have arrived (R143, R157). -/
structure Free (s : State) (st : Strand) (g : Guard) : Prop extends Issuing s st where
  results : mustWait s st [] (guardReads g) = false

/-- A collective or strand-wide instruction executes: its guard is U true, its operands have arrived and are not poisoned, and the strand has
a team where the instruction is team-scoped (R39, R51, R389). -/
structure Collective (s : State) (st : Strand) (g : Guard) (rs : List Nat) (teamScoped stack : Bool) : Prop extends Issuing s st where
  guard : guardU st g = some true
  results : mustWait s st [] (stack || guardReads g) = false
  reads : mustWait s st rs false = false
  clean : consumed st .none rs = []
  placed : teamScoped = true → st.team.isSome = true

/-- The accesses of the indices act are all permitted, at the locations locs: one for each index, in order (R163, R166). -/
def Permitted (res : Nat → AccRes) (act : List Nat) (va : Nat → Nat) (locs : List (Nat × Space × Nat)) : Prop :=
  act = locs.map (fun l => l.1) ∧ ∀ l ∈ locs, res (va l.1) = .ok l.2.1 l.2.2

/-- Every byte of every memory reads as before. -/
def sameBytes (s t : State) : Prop := ∀ sp a n, homeBytes t sp a n = homeBytes s sp a n

/-- Every byte of every memory reads as before but those of n bytes from a up of one space. -/
def sameBytesBut (s t : State) (sp : Space) (a n : Nat) : Prop :=
  ∀ sp' b, ¬(sp' = sp ∧ a ≤ b ∧ b < a + n) → homeBytes t sp' b 1 = homeBytes s sp' b 1

/-! ### Cross-lane instructions and values of indices -/

/-- The participants of a cross-lane instruction with their operand rows, in ascending order (R135). -/
def participants (st : Strand) (g : Guard) (srcs : List Opnd) : List (Nat × List Nat) :=
  (((present st).zip (guardFlags st g)).zip (operandRows st srcs)).filterMap (fun e => if e.1.2 then some (e.1.1, e.2) else none)

/-- The operand row of an index among participants, if it is one. -/
def rowAt (parts : List (Nat × List Nat)) (i : Nat) : Option (List Nat) := (parts.find? (fun e => e.1 == i)).map (fun e => e.2)

/-- The operand row of the participant at position p of the window of base, if there is one (R135). -/
def rowOfPos (base : Nat) (parts : List (Nat × List Nat)) (p : Nat) : Option (List Nat) := if p < 64 then rowAt parts (base + p) else none

/-- A cross-lane instruction that gives the n registers from d up, at each participant i of a strand in the window of base, the number
f base participants i: it completes on a sheaf, or in one window, where no form-only register would need X; under a U false guard it writes nothing. -/
def GivesAcross (i : Instr) (g : Guard) (len d n : Nat) (srcs : List Opnd) (f : Nat → List (Nat × List Nat) → Nat → Nat) : Prop :=
  ∀ s st, Ready s st g srcs (List.range' d n) false → oneSheaf st →
    let vals := (present st).map (f (st.first / 64 * 64) (participants st g srcs))
    (guardU st g ≠ some false → writable s st (columns st g d n vals) → unwatched s st (List.range' d n) →
      ∃ u, exec i s = .next (putStrand s u) ∧ Wrote st u g len d n vals) ∧
    (guardU st g = some false →
      ∃ u, exec i s = .next (putStrand s u) ∧ u.pc = st.pc + BitVec.ofNat 64 len ∧ u = { st with pc := u.pc, mask := u.mask })

/-- The exact order of two real values; a NaN is in none. -/
def exactLess : RVal → RVal → Bool
  | .nan, _ => false
  | _, .nan => false
  | .inf s, .inf t => s && !t
  | .inf s, .fin _ _ _ => s
  | .fin _ _ _, .inf t => !t
  | .fin s m e, .fin t n f =>
    decide (signedOf s m * 2 ^ (e - min e f).toNat < signedOf t n * 2 ^ (f - min e f).toNat)

/-- The value of register r at index i of a strand (R27). -/
def valueAt (st : Strand) (r i : Nat) : Option Word := alookup ((present st).zip (regVals st r)) i

/-- Entry k of the predicate stack at index i of a strand (R27). -/
def entryAt (st : Strand) (k i : Nat) : Option Bool := alookup ((present st).zip (qVals st k)) i

/-- Each of the indices goes on in some strand of t of the same launch, team and role, at the PC that pc gives it, with its registers, its stack and
the strand's enrolments and walks as they were in st (R43), and with the call stack that calls gives it. -/
def Carried (t : State) (st : Strand) (is : List Nat) (pc : Nat → DWord) (calls : Nat → List DWord) : Prop :=
  ∀ i ∈ is, ∃ u ∈ t.strands, i ∈ present u ∧ u.lk = st.lk ∧ u.team = st.team ∧ u.role = st.role ∧ u.pc = pc i ∧ u.calls = calls i ∧ u.enrol = st.enrol ∧ u.walks = st.walks ∧
    (∀ r, valueAt u r i = valueAt st r i) ∧ ∀ k < 8, entryAt u k i = entryAt st k i

/-- A stop has been taken: one more stop is open, of this kind and cause, under a fresh ticket, the strands sids stand parked under it at the PC pc, and the run
has ended (R373, R378). That the ticket is the next number that no open stop has is the model's choice (log 5). -/
def Stopped (s t : State) (lk : Nat) (sids : List Nat) (pc : DWord) (kind cause : Nat) : Prop :=
  ∃ x, t.stops = s.stops ++ [x] ∧ x.lk = lk ∧ x.kind = kind ∧ x.cause = cause ∧ x.ticket = ticketFrom s.stops (s.stops.length + 1) s.nextTicket ∧
    t.cur = none ∧ (∀ u ∈ t.strands, u.sid ∈ sids → u.status = .parked x.ticket) ∧ ∀ id ∈ sids, ∃ u, strandOf t id = some u ∧ u.pc = pc

/-- Each of the indices stands in some strand of t of the same launch that sids names or does not name, at the PC, with its registers and entries as they were in st. -/
def Standing (t : State) (st : Strand) (is : List Nat) (named : Nat → Prop) (pc : DWord) : Prop :=
  ∀ i ∈ is, ∃ u ∈ t.strands, named u.sid ∧ i ∈ present u ∧ u.lk = st.lk ∧ u.team = st.team ∧ u.pc = pc ∧ u.calls = st.calls ∧
    (∀ r, valueAt u r i = valueAt st r i) ∧ ∀ k < 8, entryAt u k i = entryAt st k i

/-- Strand identities are given out in order, and no two strands of the table have the same one. -/
structure FreshIds (s : State) : Prop where
  given : ∀ x ∈ s.strands, x.sid < s.nextId
  distinct : (s.strands.map (fun x => x.sid)).Nodup

/-- Reports as a stop raises them: of class 1, with the ticket that it takes (R376, R378). -/
def stamped (s : State) (rs : List Report) : List Report := rs.map (fun r => { r with cls := 1, ticket := ticketFrom s.stops (s.stops.length + 1) s.nextTicket })

/-- The reports rs have been raised for a context, in order (R374, R376): where none waits and the fault queue has room for all of them, each stands in its slot of 256 bytes, with the phase
of that lap, every other byte reads as before, and the count of reports moves on; where the queue is full, or others wait already, they wait, and no byte changes. -/
structure Reported (s t : State) (c : Nat) (rs : List Report) : Prop where
  written : ∀ x, ctxOf s c = some x → memoriesCanonical s → x.waiting = [] → (x.faultN + 2 ^ 32 - x.consumed % 2 ^ 32) % 2 ^ 32 + rs.length ≤ 4096 →
    let slot := fun (k : Nat) => x.faultq + 256 * ((x.faultN + k) % 4096)
    (∀ k r, rs[k]? = some r → homeBytes t .dev (slot k) 256 = toBytes 256 (reportBits r (((x.faultN + k) / 4096 + 1) % 2))) ∧
    (∀ sp b, (∀ k < rs.length, ¬(sp = .dev ∧ slot k ≤ b ∧ b < slot k + 256)) → homeBytes t sp b 1 = homeBytes s sp b 1) ∧
    ctxOf t c = some { x with faultN := x.faultN + rs.length }
  waits : ∀ x, ctxOf s c = some x → ringRoom x = false ∨ x.waiting ≠ [] → sameBytes s t ∧ ctxOf t c = some { x with waiting := x.waiting ++ rs }

/-- A memory instruction at some of whose acting indices the access raises a fault, of one kind and cause (R166, R167): those indices park at their PC under one new stop,
and every other present index goes on behind the instruction, with an operation of its own where it acts. -/
def FaultsPark (i : Instr) (s : State) (st : Strand) (act : List Nat) (res : Nat → AccRes) (len : Nat) : Prop :=
  ∀ kind cause, (∀ j ∈ act, (∃ sp a, res j = .ok sp a) ∨ ∃ info, res j = .fault kind cause info) →
    let bad := act.filter (fun j => match res j with | .fault _ _ _ => true | _ => false)
    bad ≠ [] → ∃ t sids, exec i s = .next t ∧ Stopped s t st.lk sids st.pc kind cause ∧ Standing t st bad (· ∈ sids) st.pc ∧
      Standing t st ((present st).filter (fun j => !bad.contains j)) (· ∉ sids) (st.pc + BitVec.ofNat 64 len) ∧
      ∀ j ∈ act, j ∉ bad → ∃ o ∈ t.ops, j ∈ o.idxs ∧ o.oid ∉ s.ops.map (fun x => x.oid)

/-! ### Where a register instruction is cut, traps or halts -/

/-- The test of a comparator (R231). -/
def Watches (c : Cmp) (v : Word) : Prop :=
  match c.cond with
  | 0 => v = c.comparand
  | 1 => v ≠ c.comparand
  | 2 => v.toInt < c.comparand.toInt
  | 3 => c.comparand.toInt ≤ v.toInt
  | 4 => v.toNat < c.comparand.toNat
  | 5 => c.comparand.toNat ≤ v.toNat
  | _ => False

/-- An armed comparator matches what has been written: one column of it watches, at some present index or at every one (R231). -/
def Matches (c : Cmp) (cols : List (Nat × List Word)) : Prop :=
  c.armed = true ∧ ∃ col ∈ cols, col.1 = c.reg ∧ (if c.all then ∀ v ∈ col.2, Watches c v else ∃ v ∈ col.2, Watches c v)

/-- Index j of st stands in u, len bytes on, with the columns written and the rest of its registers and its entries as they were. -/
def WroteAt (st u : Strand) (len d n : Nat) (cols : List (Nat × List Word)) (j : Nat) : Prop :=
  j ∈ present u ∧ u.lk = st.lk ∧ u.team = st.team ∧ u.pc = st.pc + BitVec.ofNat 64 len ∧ (∀ c ∈ cols, valueAt u c.1 j = alookup ((present st).zip c.2) j) ∧
    (∀ r, r < d ∨ d + n ≤ r → valueAt u r j = valueAt st r j) ∧ ∀ k < 8, entryAt u k j = entryAt st k j

/-- What a register instruction does where it does not simply write the number f of its operands to the n registers from d up, n being 1 or 2. -/
structure CutBy (i : Instr) (g : Guard) (len d n : Nat) (srcs : List Opnd) (f : List Nat → Nat) : Prop where
  /-- X in a form-only register, or in a pair of which one is form-only, is a trap of the whole strand before anything is written (R35) -/
  formOnly : ∀ s st, Ready s st g srcs (List.range' d n) false → oneSheaf st →
    let cols := columns st g d n ((operandRows st srcs).map f)
    (∃ c ∈ cols, isXV (classifyV (present st) c.2) = true) → (∃ c ∈ cols, budgetOf s st ≤ c.1) →
    ∃ c ∈ cols, budgetOf s st ≤ c.1 ∧
      exec i s = .next (trapWhole s st len { reportOf s st 4 0 with info := c.1, info2 := differsAt (present st) c.2 })
  /-- a strand that is not placed takes the placement cut first, and issues again (R37, R39) -/
  placement : ∀ s st, Ready s st g srcs (List.range' d n) false → st.mask = none → st.team = none →
    (∃ c ∈ columns st g d n ((operandRows st srcs).map f), isXV (classifyV (present st) c.2) = true) → exec i s = .next (placementCut s st)
  /-- a compact strand of more than one window is cut at the windows, and each piece writes its own part (R37, R40) -/
  tillering : ∀ s st, Ready s st g srcs (List.range' d n) false → FreshIds s → st.mask = none → st.team.isSome = true → oneWindow (present st) = false →
    d + n ≤ budgetOf s st → unwatched s st (List.range' d n) →
    let cols := columns st g d n ((operandRows st srcs).map f)
    (∃ c ∈ cols, isXV (classifyV (present st) c.2) = true) →
    ∃ t, exec i s = .next t ∧ t.cur = none ∧ ∀ j ∈ present st, ∃ u ∈ t.strands, WroteAt st u len d n cols j ∧ ∀ k ∈ present u, k / 64 = j / 64
  /-- the indices that consume a poisoned word park under stops of the poison kind, and the others complete (R389, R390) -/
  poison : ∀ s st, Issuing s st → FreshIds s → mustWait s st (srcs.flatMap Opnd.regs ++ List.range' d n) (guardReads g || srcs.any Opnd.readsQ) = false →
    st.mask.isSome = true → st.team.isSome = true → d + n ≤ budgetOf s st → unwatched s st (List.range' d n) →
    let eaten := consumed st g (srcs.flatMap Opnd.regs)
    eaten ≠ [] →
    ∃ t, exec i s = .next t ∧
      (∀ j ∈ eaten, ∃ u ∈ t.strands, ∃ x ∈ t.stops, j ∈ present u ∧ u.lk = st.lk ∧ u.pc = st.pc ∧ u.status = .parked x.ticket ∧ x.kind = 15 ∧
        x.cause = poisonCause st (srcs.flatMap Opnd.regs) j ∧ ∀ r, valueAt u r j = valueAt st r j) ∧
      ∀ j ∈ present st, j ∉ eaten → ∃ u ∈ t.strands, u.status = st.status ∧ WroteAt st u len d n (columns st g d n ((operandRows st srcs).map f)) j
  /-- the lowest comparator that matches what has been written halts the whole strand behind the instruction (R231, R398) -/
  comparator : ∀ s st, Ready s st g srcs (List.range' d n) false →
    let cols := columns st g d n ((operandRows st srcs).map f)
    writable s st cols → acting st g ≠ [] → st.halted = none → ∀ tm a m c, st.team.bind (teamOf s st.lk) = some tm →
    s.attaches.find? (fun a => a.ctx == ctxOfLaunch s st.lk) = some a → tm.cmps[m]? = some c → Matches c cols →
    (∀ k < m, ∀ b, tm.cmps[k]? = some b → ¬Matches b cols) →
    ∃ t u b, exec i s = .next t ∧ t.cur = none ∧ sameBytes s t ∧ strandOf t st.sid = some u ∧ u.halted = some a.nextStop ∧ present u = present st ∧
      (∀ j ∈ present st, WroteAt st u len d n cols j) ∧ t.attaches.find? (fun a => a.ctx == ctxOfLaunch s st.lk) = some b ∧ b.nextStop = a.nextStop + 1 ∧
      (stopRoom a = true → a.stopWaiting = [] → ∃ w v total, alookup b.stopRing (a.stopN % 1024) = some (stopRecordBits w v a.nextStop 2 m 0 st.pc.toNat
        (((present st).zip (regVals u c.reg)).filterMap (fun e => if cmpTest c e.2 then some e.1 else none)) total))

/-- A register instruction gives some number of its operands, and is cut, traps and halts by that number. -/
def RunsWhole (i : Instr) (g : Guard) (len d n : Nat) (srcs : List Opnd) : Prop := ∃ f, Gives i g len d n srcs f ∧ CutBy i g len d n srcs f

/-- The rest of the machine is as before: the other strands, the teams, gangs, launches and contexts, and the open stops. -/
def elsewhere (s t : State) (sid : Nat) : Prop :=
  (∀ id, id ≠ sid → strandOf t id = strandOf s id) ∧ t.teams = s.teams ∧ t.gangs = s.gangs ∧ t.launches = s.launches ∧ t.ctxs = s.ctxs ∧ t.stops = s.stops

/-- Nothing that the indices of the strand have left undone comes before what they do next, and operations have identities that were given out: a load, a store or an
atomic that is left would be performed first where it must be (R249, R251). -/
structure Quiet (s : State) (st : Strand) : Prop where
  given : ∀ o ∈ s.ops, o.oid < s.nextId
  idle : ∀ o ∈ s.ops, o.lk = st.lk → o.done = true ∨ meet o.idxs (present st) = false
  entered : ∀ o ∈ s.ops, ∀ left, o.body = .stores left → ∀ t ∈ left, meet t.idxs (present st) = false
  settled : ∀ o ∈ s.ops, ∀ t ∈ o.sets, meet t.idxs (present st) = false

/-- The machine t is s with one more operation, of class c for the indices act, in the set of the strand st, which has moved len bytes on; no byte of memory and no
other strand has changed. -/
structure Issued (s t : State) (st : Strand) (len : Nat) (cl : OpClass) (act : List Nat) (body : OpBody) : Prop where
  bytes : sameBytes s t
  rest : elsewhere s t st.sid
  op : ∃ o, t.ops.getLast? = some o ∧ o.cls = cl ∧ o.idxs = act ∧ o.done = false ∧ o.body = body ∧
    strandOf t st.sid = some { st with pc := st.pc + BitVec.ofNat 64 len, ops := st.ops ++ [o.oid] }

/-- What a store buffer holds of a store. -/
def entryOf (e : Store) : Space × Nat × List Byte × Option Nat := (e.space, e.addr, e.bytes, e.buf)

/-- An operation of class s with these stores has been issued: they are left to it, or they stand in the buffer of the strand's core, in order (R249). -/
def Stored (s t : State) (st : Strand) (len : Nat) (act : List Nat) (todo : List StoreTodo) : Prop :=
  (Issued s t st len .s act (.stores todo) ∧ t.stores = s.stores) ∨
  (Issued s t st len .s act (.stores []) ∧ t.stores.map entryOf = s.stores.map entryOf ++ todo.map (fun x => (x.space, x.addr, x.bytes, some st.core)))

end Sys2Proof
end

