-- ==== Sys2Proof/Certificates/Slice0/Obligations.lean ====
section
/-! DEFINITION. The statements for the provers: what the machine, its instructions and its events do, from the numbered rules of spec/. -/

open Sys2Proof Sys2Proof.Machine

/-! ### The machine -/

/-- After reset the machine holds what the spec gives it before the boot ROM has run: no strand, team, launch, context or store, every memory empty, no
lock or service level passed, every memory in canonical form, and the B-dies as R277, R280 and R283 have them at power-on: no group remapped, linear masks, no hardware swaps.
That what nothing has written reads 0, and that the lists that the spec gives no reset value are empty, is the model's choice (logs 3 and 4). -/
def Obligations.ResetState : Prop :=
  memoriesCanonical State.reset ∧ State.reset.strands = [] ∧ State.reset.teams = [] ∧ State.reset.launches = [] ∧ State.reset.ctxs = [] ∧ State.reset.stores = [] ∧ State.reset.stops = [] ∧
  State.reset.sec.boot = .off ∧ State.reset.agenda = [] ∧
  (∀ b g, remapOf (bdieOf State.reset b) g = ⟨g, 0, false, false, [0, 0, 0]⟩) ∧
  (∀ b k, k < 6 → nth (bdieOf State.reset b).hmask k 0 = 2 ^ (8 + k)) ∧
  (∀ b, bitOf (bdieOf State.reset b).swpctl 0 = false) ∧
  (∀ sp a n, ∀ x ∈ homeBytes State.reset sp a n, x = 0)

/-- A step keeps every memory in canonical form: device memory, host memory, the scratchpads and the weight buffers. -/
def Obligations.StepKeepsMemoryCanonical : Prop := ∀ s t, memoriesCanonical s → step s = .next t → memoriesCanonical t

/-- A step of a device that has booted, with nothing on its agenda and an issue slot at hand, runs the instruction that the bytes at the PC of the
strand that the port takes decode to; the run of the port goes on or ends, what follows of itself follows, and time passes.
Which strand issues, and that an instruction comes before the next event, is the model's choice (log 1). -/
def Obligations.StepRunsDecoded : Prop :=
  ∀ s s' core part port st bs f i n, s.agenda = [] → s.sec.boot ≠ .off → s.sec.boot ≠ .fatal → s.issuePhase = true →
    nextPort { s with issuePhase := false } = (some (core, part, port), s') → portStrand s' core part port = some st →
    fetch s' st = (bs, f) → decode bs = .ok i n →
    (∀ t, exec i (takeSlot s' core part port st) = .next t →
      step s = .next (tick (settled (settle core part port st.sid ((s'.strands.filter (fun x => x.stepping && x.sid != st.sid)).map (fun x => x.sid)) (runBit i) t)))) ∧
    (∀ f, exec i (takeSlot s' core part port st) = .fault f → step s = .fault f) ∧
    (∀ r, exec i (takeSlot s' core part port st) = .refused r → step s = .refused r)

/-- A fetch reads the twelve bytes from the PC on at the physical address of their page, where the page is mapped to device memory and may be fetched from, and no store has written them nor an error
poisoned them (R82, R84, R328). Where the bytes are no instruction, the step takes the illegal-instruction trap with the number of the
check that failed; where they cannot be fetched, the instruction-fetch fault: each stops the whole strand at its PC.
Which strand issues, and the number of the stop's ticket, are the model's choice (logs 1 and 5). -/
def Obligations.FetchAndItsTraps : Prop :=
  (∀ s st t, t.host = false → t.x = true →
    (∀ k < 12, walk s (ctxOfLaunch s st.lk) ((st.pc.toNat + k) % 2 ^ 64) = .ok t ∧ (st.pc.toNat + k) % 2 ^ 64 % t.size = st.pc.toNat % t.size + k) →
    s.stores = [] → s.memPois = [] → t.base + st.pc.toNat % t.size + 12 ≤ Config.deviceBytes → fetch s st = (memGets s.mem (t.base + st.pc.toNat % t.size) 12, none)) ∧
  (∀ s st n, Issuing s st →
    (∃ t, exec (.reservedInstruction n) s = .next t ∧ Stopped s t st.lk [st.sid] st.pc 1 0) ∧
    ∀ c, ∃ t, exec (.instructionFetchFault c n) s = .next t ∧ Stopped s t st.lk [st.sid] st.pc 2 c) ∧
  ∀ s s' core part port st bs f, s.agenda = [] → s.sec.boot ≠ .off → s.sec.boot ≠ .fatal → s.issuePhase = true →
    nextPort { s with issuePhase := false } = (some (core, part, port), s') → portStrand s' core part port = some st → fetch s' st = (bs, f) →
    (∀ r t, decode bs = .reject r → r ≠ .truncated → exec (.reservedInstruction r.number) (takeSlot s' core part port st) = .next t →
      ∃ b, step s = .next (tick (settled (settle core part port st.sid ((s'.strands.filter (fun x => x.stepping && x.sid != st.sid)).map (fun x => x.sid)) b t)))) ∧
    (∀ c l t, decode bs = .reject .truncated → f = some (c, l) → exec (.instructionFetchFault c l) (takeSlot s' core part port st) = .next t →
      ∃ b, step s = .next (tick (settled (settle core part port st.sid ((s'.strands.filter (fun x => x.stepping && x.sid != st.sid)).map (fun x => x.sid)) b t))))

/-! ### Encodings -/

/-- Decoding the encoding of a well-formed instruction gives the instruction back, whatever follows it: no bit of an encoding is dropped. -/
def Obligations.EncodeDecode : Prop := ∀ i rest, i.wellFormed = true → i.encodable = true → decode (encode i ++ rest) = .ok i (encode i).length

/-- What the decoder accepts is a well-formed instruction, and the bytes that it read are the encoding of that instruction and of no other: no
reserved encoding falls to a neighbour. -/
def Obligations.DecodeEncode : Prop :=
  ∀ bs i n, decode bs = .ok i n → i.wellFormed = true ∧ i.encodable = true ∧ n = (encode i).length ∧ encode i = bs.take n

/-- Words written out field by field from the layouts of R86 to R88 and the opcode map decode to the instructions that they stand for. -/
def Obligations.DecodeWords : Prop :=
  -- add v1, v2, v3: compact (00), op6 0x01
  decode (toBytes 4 (0x01 * 2 ^ 8 + 1 * 2 ^ 14 + 2 * 2 ^ 20 + 3 * 2 ^ 26)) = .ok (.add ⟨false, .none⟩ 1 2 3) 4 ∧
  -- ?!q5 sub.n16.sat v1, v2, v3 ^: full (01), B, guard 0b11101, op 0x02, fn 3 + 8
  decode (toBytes 8 (1 + 2 ^ 2 + 29 * 2 ^ 3 + 0x02 * 2 ^ 8 + 1 * 2 ^ 16 + 2 * 2 ^ 27 + 3 * 2 ^ 38 + 11 * 2 ^ 60)) =
    .ok (.subFull ⟨true, .q true 5⟩ 1 2 (.reg 3) .n16 true) 8 ∧
  -- fma.bf16.rd v5, v6, 0xDEADBEEF, v7: with literal (10), op 0x33, c 7, fn 0b0110
  decode (toBytes 12 (2 + 0x33 * 2 ^ 8 + 5 * 2 ^ 16 + 6 * 2 ^ 27 + 7 * 2 ^ 49 + 6 * 2 ^ 60 + 0xDEADBEEF * 2 ^ 64)) =
    .ok (.fmaFull ⟨false, .none⟩ 5 6 (.lit 0xDEADBEEF) 7 (.bf16 .rd)) 12 ∧
  -- ld.b64 v8:v9, v4:v5 - 8: full, op 0x80, imm11 -8, fn 0b0101
  decode (toBytes 8 (1 + 0x80 * 2 ^ 8 + 8 * 2 ^ 16 + 4 * 2 ^ 27 + 2040 * 2 ^ 49 + 5 * 2 ^ 60)) = .ok (.ld ⟨false, .none⟩ 8 4 2040 .b64 false) 8 ∧
  -- length 11 is reserved
  decode (toBytes 4 3) = .reject .reservedLength

/-! ### Integer arithmetic, moves, logic, shifts and bit fields -/

/-- The compact integer instructions on 32-bit elements (R122): sums, differences and products keep the low 32 bits; the quotient truncates toward
zero, and a zero divisor gives all ones and leaves the dividend as the remainder (R56); the immediate of ADDK is signed. -/
def Obligations.IntegerCompact : Prop :=
  ∀ (h : Hdr) (d a b k : R6),
    let w := fun (x : List Nat) j => BitVec.ofNat 32 (arg x j)
    Gives (.add h d a b) h.g 4 d.toNat 1 [.v a.toNat 1, .v b.toNat 1] (fun x => (w x 0 + w x 1).toNat) ∧
    Gives (.sub h d a b) h.g 4 d.toNat 1 [.v a.toNat 1, .v b.toNat 1] (fun x => (w x 0 - w x 1).toNat) ∧
    Gives (.mul h d a b) h.g 4 d.toNat 1 [.v a.toNat 1, .v b.toNat 1] (fun x => (w x 0 * w x 1).toNat) ∧
    Gives (.mulh h d a b) h.g 4 d.toNat 1 [.v a.toNat 1, .v b.toNat 1] (fun x => (((w x 0).signExtend 64 * (w x 1).signExtend 64).extractLsb' 32 32).toNat) ∧
    Gives (.mad h d a b) h.g 4 d.toNat 1 [.v a.toNat 1, .v b.toNat 1, .v d.toNat 1] (fun x => (w x 0 * w x 1 + w x 2).toNat) ∧
    Gives (.neg h d a) h.g 4 d.toNat 1 [.v a.toNat 1] (fun x => (-w x 0).toNat) ∧
    Gives (.abs h d a) h.g 4 d.toNat 1 [.v a.toNat 1] (fun x => if (w x 0).slt 0 then (-w x 0).toNat else (w x 0).toNat) ∧
    Gives (.min h d a b) h.g 4 d.toNat 1 [.v a.toNat 1, .v b.toNat 1] (fun x => if (w x 1).slt (w x 0) then (w x 1).toNat else (w x 0).toNat) ∧
    Gives (.max h d a b) h.g 4 d.toNat 1 [.v a.toNat 1, .v b.toNat 1] (fun x => if (w x 0).slt (w x 1) then (w x 1).toNat else (w x 0).toNat) ∧
    Gives (.div h d a b) h.g 4 d.toNat 1 [.v a.toNat 1, .v b.toNat 1] (fun x => if w x 1 = 0 then 2 ^ 32 - 1 else ((w x 0).sdiv (w x 1)).toNat) ∧
    Gives (.rem h d a b) h.g 4 d.toNat 1 [.v a.toNat 1, .v b.toNat 1] (fun x => if w x 1 = 0 then (w x 0).toNat else ((w x 0).srem (w x 1)).toNat) ∧
    Gives (.addk h d a k) h.g 4 d.toNat 1 [.v a.toNat 1] (fun x => (w x 0 + k.signExtend 32).toNat) ∧
    Gives (.mov h d a) h.g 4 d.toNat 1 [.v a.toNat 1] (fun x => (w x 0).toNat) ∧
    Gives (.movk h d k) h.g 4 d.toNat 1 [] (fun _ => (k.signExtend 32).toNat)

/-- The full integer instructions: the element rule applied to every element or sub-element of the type (R55 to R57, R122). The exact result is
wrapped, or clamped to the range of the type with `.sat`; a zero divisor gives all ones, and leaves the dividend as the remainder. A literal
stands for operand b, sign-extended for a signed 64-bit type (R88). -/
def Obligations.IntegerFull : Prop :=
  ∀ (h : Hdr) (d a c k : R11) (b : Src) (t : IntTy) (sat : Bool),
    let n := if intWidth t = 64 then 2 else 1
    let v := fun (x : Nat) => intVal (intSigned t) (intWidth t) x
    let out := fun (z : Int) => ((if sat then max (intMin (intSigned t) (intWidth t)) (min (intMax (intSigned t) (intWidth t)) z) else z) % 2 ^ intWidth t).toNat
    let each1 := fun (f : Nat → Nat) (x : List Nat) => mapElems1 (intWidth t) f (arg x 0)
    let each2 := fun (f : Nat → Nat → Nat) (x : List Nat) => mapElems2 (intWidth t) f (arg x 0) (arg x 1)
    let two : List Opnd := [.v a.toNat n, srcOpnd b n (intSigned t)]
    Gives (.addFull h d a b t sat) h.g (srcLen b) d.toNat n two (each2 (fun x y => out (v x + v y))) ∧
    Gives (.subFull h d a b t sat) h.g (srcLen b) d.toNat n two (each2 (fun x y => out (v x - v y))) ∧
    Gives (.mulFull h d a b t sat) h.g (srcLen b) d.toNat n two (each2 (fun x y => out (v x * v y))) ∧
    Gives (.divFull h d a b t sat) h.g (srcLen b) d.toNat n two (each2 (fun x y => if v y = 0 then 2 ^ intWidth t - 1 else out ((v x).tdiv (v y)))) ∧
    Gives (.remFull h d a b t sat) h.g (srcLen b) d.toNat n two
      (each2 (fun x y => if v y = 0 then x % 2 ^ intWidth t else ((v x).tmod (v y) % 2 ^ intWidth t).toNat)) ∧
    Gives (.minFull h d a b t) h.g (srcLen b) d.toNat n two (each2 (fun x y => if v y < v x then y else x)) ∧
    Gives (.maxFull h d a b t) h.g (srcLen b) d.toNat n two (each2 (fun x y => if v x < v y then y else x)) ∧
    Gives (.negFull h d a t sat) h.g 8 d.toNat n [.v a.toNat n] (each1 (fun x => out (-v x))) ∧
    Gives (.absFull h d a t sat) h.g 8 d.toNat n [.v a.toNat n] (each1 (fun x => out (if v x < 0 then -v x else v x))) ∧
    Gives (.addkFull h d a k t sat) h.g 8 d.toNat n [.v a.toNat n] (each1 (fun x => out (v x + v (k.toInt % 2 ^ intWidth t).toNat))) ∧
    Gives (.madFull h d a b c t) h.g (srcLen b) d.toNat n (two ++ [.v c.toNat n]) (fun x => joinElems (intWidth t) (elemCount (intWidth t)) (fun j =>
      ((v (subElem (intWidth t) j (arg x 0)) * v (subElem (intWidth t) j (arg x 1)) + v (subElem (intWidth t) j (arg x 2))) % 2 ^ intWidth t).toNat))

/-- The bitwise instructions (R124). -/
def Obligations.Logic : Prop :=
  ∀ (h : Hdr) (d a b : R6) (d' a' : R11) (b' : Src),
    let w := fun (x : List Nat) j => BitVec.ofNat 32 (arg x j)
    let both := fun (c f : Instr) (g : List Nat → Nat) =>
      Gives c h.g 4 d.toNat 1 [.v a.toNat 1, .v b.toNat 1] g ∧ Gives f h.g (srcLen b') d'.toNat 1 [.v a'.toNat 1, srcOpnd b' 1 false] g
    both (.and h d a b) (.andFull h d' a' b') (fun x => (w x 0 &&& w x 1).toNat) ∧
    both (.or h d a b) (.orFull h d' a' b') (fun x => (w x 0 ||| w x 1).toNat) ∧
    both (.xor h d a b) (.xorFull h d' a' b') (fun x => (w x 0 ^^^ w x 1).toNat) ∧
    both (.andn h d a b) (.andnFull h d' a' b') (fun x => (w x 0 &&& ~~~ w x 1).toNat) ∧
    Gives (.not h d a) h.g 4 d.toNat 1 [.v a.toNat 1] (fun x => (~~~ w x 0).toNat) ∧
    Gives (.notFull h d' a') h.g 8 d'.toNat 1 [.v a'.toNat 1] (fun x => (~~~ w x 0).toNat)

/-- The shifts of a 32-bit element by the whole amount (R58): an amount of 32 or more shifts every bit out, or leaves the sign everywhere; a rotation
takes the amount modulo 32. -/
def Obligations.ShiftCompact : Prop :=
  ∀ (h : Hdr) (d a b k : R6),
    let w := fun (x : List Nat) j => BitVec.ofNat 32 (arg x j)
    Gives (.shl h d a b) h.g 4 d.toNat 1 [.v a.toNat 1, .v b.toNat 1] (fun x => (w x 0 <<< arg x 1).toNat) ∧
    Gives (.shr h d a b) h.g 4 d.toNat 1 [.v a.toNat 1, .v b.toNat 1] (fun x => (w x 0 >>> arg x 1).toNat) ∧
    Gives (.sar h d a b) h.g 4 d.toNat 1 [.v a.toNat 1, .v b.toNat 1] (fun x => ((w x 0).sshiftRight (arg x 1)).toNat) ∧
    Gives (.rot h d a b) h.g 4 d.toNat 1 [.v a.toNat 1, .v b.toNat 1] (fun x => ((w x 0).rotateLeft (arg x 1)).toNat) ∧
    Gives (.shlk h d a k) h.g 4 d.toNat 1 [.v a.toNat 1] (fun x => (w x 0 <<< k.toNat).toNat) ∧
    Gives (.shrk h d a k) h.g 4 d.toNat 1 [.v a.toNat 1] (fun x => (w x 0 >>> k.toNat).toNat) ∧
    Gives (.sark h d a k) h.g 4 d.toNat 1 [.v a.toNat 1] (fun x => ((w x 0).sshiftRight k.toNat).toNat)

/-- The shifts of the full layouts (R58): of an element or sub-element of width w by an amount n, never reduced modulo w. A left and a logical right
shift by w or more give 0; an arithmetic one gives the sign at every bit; a rotation is by n modulo w. For 64 bits the amount is one register; packed
amounts are those of the same sub-element; an immediate serves every sub-element. -/
def Obligations.ShiftFull : Prop :=
  ∀ (h : Hdr) (d a k : R11) (b : Src) (t : WTy),
    let w := wWidth t
    let n := if t = .w64 then 2 else 1
    let by' := fun (f : Nat → Nat → Nat) (x : List Nat) => if t = .w64 then f (arg x 0) (arg x 1) else mapElems2 w f (arg x 0) (arg x 1)
    let left := fun (x m : Nat) => if w ≤ m then 0 else x * 2 ^ m % 2 ^ w
    let right := fun (x m : Nat) => if w ≤ m then 0 else x % 2 ^ w / 2 ^ m
    let arith := fun (x m : Nat) => if w ≤ m then (if signed w x < 0 then 2 ^ w - 1 else 0) else (signed w x / 2 ^ m % 2 ^ w).toNat
    let rot := fun (x m : Nat) => (x % 2 ^ w * 2 ^ (m % w) % 2 ^ w) ||| (x % 2 ^ w / 2 ^ (w - m % w))
    let two : List Opnd := [.v a.toNat n, srcOpnd b 1 false]
    Gives (.shlFull h d a b t) h.g (srcLen b) d.toNat n two (by' left) ∧
    Gives (.shrFull h d a b t) h.g (srcLen b) d.toNat n two (by' right) ∧
    Gives (.sarFull h d a b t) h.g (srcLen b) d.toNat n two (by' arith) ∧
    Gives (.rotFull h d a b t) h.g (srcLen b) d.toNat n two (by' rot) ∧
    Gives (.shlkFull h d a k t) h.g 8 d.toNat n [.v a.toNat n] (fun x => mapElems1 w (fun e => left e k.toNat) (arg x 0)) ∧
    Gives (.shrkFull h d a k t) h.g 8 d.toNat n [.v a.toNat n] (fun x => mapElems1 w (fun e => right e k.toNat) (arg x 0)) ∧
    Gives (.sarkFull h d a k t) h.g 8 d.toNat n [.v a.toNat n] (fun x => mapElems1 w (fun e => arith e k.toNat) (arg x 0))

/-- The bit counts and the bit reversal of each element (R124): CLZ of 0 is the width. -/
def Obligations.BitCounts : Prop :=
  ∀ (h : Hdr) (d a : R6) (d' a' : R11) (t : WTy),
    let clz := fun (w x : Nat) => if x % 2 ^ w = 0 then w else w - 1 - (x % 2 ^ w).log2
    let popc := fun (w x : Nat) => (List.range w).countP (fun k => x.testBit k)
    let brev := fun (w x : Nat) => ((List.range w).map (fun k => if x.testBit k then 2 ^ (w - 1 - k) else 0)).sum
    let full := fun (i : Instr) (f : Nat → Nat → Nat) =>
      Gives i h.g 8 d'.toNat (if t = .w64 then 2 else 1) [.v a'.toNat (if t = .w64 then 2 else 1)] (fun x => mapElems1 (wWidth t) (f (wWidth t)) (arg x 0))
    let short := fun (i : Instr) (f : Nat → Nat → Nat) => Gives i h.g 4 d.toNat 1 [.v a.toNat 1] (fun x => f 32 (arg x 0) % 2 ^ 32)
    short (.clz h d a) clz ∧ short (.popc h d a) popc ∧ short (.brev h d a) brev ∧
    full (.clzFull h d' a' t) clz ∧ full (.popcFull h d' a' t) popc ∧ full (.brevFull h d' a' t) brev

/-- The bit fields (R125): BEXT extracts the field of a at bit b of length c; BINS inserts the low bits of a into c at the position in b[15:0], with the
length in b[31:16]. A field that starts beyond bit 31, or of length 0, is empty; one that reaches beyond bit 31 ends there. In the compact form c is d. -/
def Obligations.BitFields : Prop :=
  ∀ (h : Hdr) (d a b : R6) (d' a' c' : R11) (b' : Src),
    let ext := fun (x : List Nat) => if 32 ≤ arg x 1 ∨ arg x 2 = 0 then 0 else arg x 0 / 2 ^ arg x 1 % 2 ^ min (arg x 2) 32
    let ins := fun (x : List Nat) =>
      let pos := arg x 1 % 2 ^ 16
      let len := arg x 1 / 2 ^ 16 % 2 ^ 16
      if 32 ≤ pos ∨ len = 0 then arg x 2
      else
        let n := min len (32 - pos)
        arg x 2 - arg x 2 / 2 ^ pos % 2 ^ n * 2 ^ pos + arg x 0 % 2 ^ n * 2 ^ pos
    Gives (.bext h d a b) h.g 4 d.toNat 1 [.v a.toNat 1, .v b.toNat 1, .v d.toNat 1] ext ∧
    Gives (.bins h d a b) h.g 4 d.toNat 1 [.v a.toNat 1, .v b.toNat 1, .v d.toNat 1] ins ∧
    Gives (.bextFull h d' a' b' c') h.g (srcLen b') d'.toNat 1 [.v a'.toNat 1, srcOpnd b' 1 false, .v c'.toNat 1] ext ∧
    Gives (.binsFull h d' a' b' c') h.g (srcLen b') d'.toNat 1 [.v a'.toNat 1, srcOpnd b' 1 false, .v c'.toNat 1] ins

/-! ### Compare, test, select and the predicate stack -/

/-- CMP, CMPK and TEST push their truth value at each index where they act, and drop the oldest entry (R59, R119, R127). The compact compares are
`.eq.i32`; the immediate of CMPK is sign-extended to the compare width. -/
def Obligations.Compare : Prop :=
  ∀ (h : Hdr) (a b k : R6) (a' k' : R11) (b' : Src) (c : Cond) (t : CiTy),
    let val := fun (x : Nat) => if ciSigned t then (if ciWidth t = 64 then (BitVec.ofNat 64 x).toInt else (BitVec.ofNat 32 x).toInt) else ((x % 2 ^ ciWidth t : Nat) : Int)
    let holds := fun (x y : Int) => match c with | .eq => decide (x = y) | .ne => decide (x ≠ y) | .lt => decide (x < y) | .ge => decide (y ≤ x)
    let push := fun (v : List Nat → Bool) (x : List Nat) (old : List Bool) => v x :: old.take 7
    let n := if ciWidth t = 64 then 2 else 1
    Stacks (.cmp h a b) h.g 4 [.v a.toNat 1, .v b.toNat 1] (push (fun x => BitVec.ofNat 32 (arg x 0) == BitVec.ofNat 32 (arg x 1))) ∧
    Stacks (.cmpFull h a' b' c t) h.g (srcLen b') [.v a'.toNat n, srcOpnd b' n (ciSigned t)] (push (fun x => holds (val (arg x 0)) (val (arg x 1)))) ∧
    Stacks (.cmpk h a k) h.g 4 [.v a.toNat 1, .lit (k.signExtend 32).toNat] (push (fun x => BitVec.ofNat 32 (arg x 0) == k.signExtend 32)) ∧
    Stacks (.cmpkFull h a' k' c t) h.g 8 [.v a'.toNat n, .lit (k'.toInt % 2 ^ ciWidth t).toNat]
      (push (fun x => holds (val (arg x 0)) (val (k'.toInt % 2 ^ ciWidth t).toNat))) ∧
    Stacks (.test h a b) h.g 4 [.v a.toNat 1, .v b.toNat 1] (push (fun x => (arg x 0 &&& arg x 1) != 0)) ∧
    Stacks (.testFull h a' b') h.g (srcLen b') [.v a'.toNat 1, srcOpnd b' 1 false] (push (fun x => (arg x 0 &&& arg x 1) != 0))

/-- The predicate-stack instructions (R119, R134): the entries are read before anything is pushed; QDROP pops, and false entries come in below. -/
def Obligations.PredicateStack : Prop :=
  ∀ (h : Hdr) (a b : BitVec 3) (k : R11),
    let push := fun (v : List Nat → Bool) (x : List Nat) (old : List Bool) => v x :: old.take 7
    Stacks (.qdup h a) h.g 8 [.q a.toNat false] (push (fun x => arg x 0 == 1)) ∧
    Stacks (.qnot h a) h.g 8 [.q a.toNat true] (push (fun x => arg x 0 == 1)) ∧
    Stacks (.qand h a b) h.g 8 [.q a.toNat false, .q b.toNat false] (push (fun x => arg x 0 == 1 && arg x 1 == 1)) ∧
    Stacks (.qor h a b) h.g 8 [.q a.toNat false, .q b.toNat false] (push (fun x => arg x 0 == 1 || arg x 1 == 1)) ∧
    Stacks (.qxor h a b) h.g 8 [.q a.toNat false, .q b.toNat false] (push (fun x => (arg x 0 == 1) != (arg x 1 == 1))) ∧
    Stacks (.qdrop h k) h.g 8 [] (fun _ old => (List.range 8).map (fun j => if j + k.toNat ≤ 7 then nth old (j + k.toNat) false else false))

/-- SEL writes a where the entry, negated or not, is true, and b elsewhere; it pushes nothing (R127). The compact form selects on q0. The full moves copy a
register or a pair, or give a signed constant, and MULH with `.n32` keeps the high word of the unsigned product (R122).
Every register instruction of the compact and full layouts gives some function of its operands, and by that function: traps as a whole before any write where X would stand in a form-only
register, or in a pair of which one is form-only (R35); takes the placement cut first where its strand is not placed and the result needs X, and is cut at the windows where it spans several (R37); parks
the indices that consume a poisoned word while the others complete (R390); and halts its strand where the lowest comparator that is armed matches what it wrote (R231).
The cuts come before the form-only trap, and how causes of poison are told apart is the model's choice (logs 70, 71 and 97). -/
def Obligations.SelectAndMoves : Prop :=
  ∀ (h : Hdr) (d a b : R6) (d' a' k : R11) (b' : Src) (neg uns wide' : Bool) (q : BitVec 3),
    Gives (.sel h d a b) h.g 4 d.toNat 1 [.q 0 false, .v a.toNat 1, .v b.toNat 1] (fun x => if arg x 0 = 1 then arg x 1 else arg x 2) ∧
    Gives (.selFull h d' a' b' neg q) h.g (srcLen b') d'.toNat 1 [.q q.toNat neg, .v a'.toNat 1, srcOpnd b' 1 false]
      (fun x => if arg x 0 = 1 then arg x 1 else arg x 2) ∧
    Gives (.mulhFull h d' a' b' uns) h.g (srcLen b') d'.toNat 1 [.v a'.toNat 1, srcOpnd b' 1 false] (fun x =>
      let x0 := BitVec.ofNat 32 (arg x 0); let x1 := BitVec.ofNat 32 (arg x 1)
      ((if uns then x0.zeroExtend 64 * x1.zeroExtend 64 else x0.signExtend 64 * x1.signExtend 64).extractLsb' 32 32).toNat) ∧
    Gives (.movFull h d' a' wide') h.g 8 d'.toNat (if wide' then 2 else 1) [.v a'.toNat (if wide' then 2 else 1)] (fun x => arg x 0) ∧
    Gives (.movkFull h d' k) h.g 8 d'.toNat 1 [] (fun _ => (k.signExtend 32).toNat) ∧
    ∀ (kc : R6) (c' : R11) (t : IntTy) (w : WTy) (rt : RealTy) (rm : RealMod) (ct cs : CvtTy) (rnd : Rnd) (sat bf : Bool),
      let two := fun (i : Instr) => RunsWhole i h.g 4 d.toNat 1 [.v a.toNat 1, .v b.toNat 1]
      let three := fun (i : Instr) => RunsWhole i h.g 4 d.toNat 1 [.v a.toNat 1, .v b.toNat 1, .v d.toNat 1]
      let one := fun (i : Instr) => RunsWhole i h.g 4 d.toNat 1 [.v a.toNat 1]
      let n := if intWidth t = 64 then 2 else 1
      let m := if w = .w64 then 2 else 1
      let ints := fun (i : Instr) (srcs : List Opnd) => RunsWhole i h.g (srcLen b') d'.toNat n (.v a'.toNat n :: srcOpnd b' n (intSigned t) :: srcs)
      let wide := fun (i : Instr) => RunsWhole i h.g (srcLen b') d'.toNat m [.v a'.toNat m, srcOpnd b' 1 false]
      let plain := fun (i : Instr) (srcs : List Opnd) => RunsWhole i h.g (srcLen b') d'.toNat 1 (.v a'.toNat 1 :: srcOpnd b' 1 false :: srcs)
      let short := fun (i : Instr) (n : Nat) => RunsWhole i h.g 8 d'.toNat n [.v a'.toNat n]
      (∀ i ∈ [Instr.add h d a b, .sub h d a b, .mul h d a b, .mulh h d a b, .min h d a b, .max h d a b, .div h d a b, .rem h d a b, .and h d a b, .or h d a b, .xor h d a b, .andn h d a b,
        .shl h d a b, .shr h d a b, .sar h d a b, .rot h d a b, .fadd h d a b, .fsub h d a b, .fmul h d a b, .fmin h d a b, .fmax h d a b, .fcps h d a b], two i) ∧
      (∀ i ∈ [Instr.mad h d a b, .fma h d a b, .bext h d a b, .bins h d a b], three i) ∧
      (∀ i ∈ [Instr.neg h d a, .abs h d a, .addk h d a kc, .mov h d a, .not h d a, .shlk h d a kc, .shrk h d a kc, .sark h d a kc, .clz h d a, .popc h d a, .brev h d a, .fneg h d a, .fabs h d a], one i) ∧
      RunsWhole (.movk h d kc) h.g 4 d.toNat 1 [] ∧ RunsWhole (.sel h d a b) h.g 4 d.toNat 1 [.q 0 false, .v a.toNat 1, .v b.toNat 1] ∧
      (∀ i ∈ [Instr.addFull h d' a' b' t sat, .subFull h d' a' b' t sat, .mulFull h d' a' b' t sat, .divFull h d' a' b' t sat, .remFull h d' a' b' t sat, .minFull h d' a' b' t, .maxFull h d' a' b' t], ints i []) ∧
      ints (.madFull h d' a' b' c' t) [.v c'.toNat n] ∧
      (∀ i ∈ [Instr.negFull h d' a' t sat, .absFull h d' a' t sat, .addkFull h d' a' k t sat], short i n) ∧
      (∀ i ∈ [Instr.shlFull h d' a' b' w, .shrFull h d' a' b' w, .sarFull h d' a' b' w, .rotFull h d' a' b' w], wide i) ∧
      (∀ i ∈ [Instr.shlkFull h d' a' k w, .shrkFull h d' a' k w, .sarkFull h d' a' k w, .clzFull h d' a' w, .popcFull h d' a' w, .brevFull h d' a' w], short i m) ∧
      (∀ i ∈ [Instr.andFull h d' a' b', .orFull h d' a' b', .xorFull h d' a' b', .andnFull h d' a' b', .mulhFull h d' a' b' uns, .fminFull h d' a' b' rt, .fmaxFull h d' a' b' rt, .fcpsFull h d' a' b' bf,
        .faddFull h d' a' b' rm, .fsubFull h d' a' b' rm, .fmulFull h d' a' b' rm], plain i []) ∧
      (∀ i ∈ [Instr.bextFull h d' a' b' c', .binsFull h d' a' b' c', .fmaFull h d' a' b' c' rm, .dp4 h d' a' b' c' uns], plain i [.v c'.toNat 1]) ∧
      (∀ i ∈ [Instr.notFull h d' a', .frnd h d' a' rm, .fnegFull h d' a' rt, .fabsFull h d' a' rt, .rcp h d' a' bf, .sqrt h d' a' bf, .rsq h d' a' bf, .ex2 h d' a' bf, .lg2 h d' a' bf], short i 1) ∧
      short (.movFull h d' a' wide') (if wide' then 2 else 1) ∧ RunsWhole (.movkFull h d' k) h.g 8 d'.toNat 1 [] ∧
      RunsWhole (.selFull h d' a' b' neg q) h.g (srcLen b') d'.toNat 1 [.q q.toNat neg, .v a'.toNat 1, srcOpnd b' 1 false] ∧
      RunsWhole (.cvt h d' a' ct cs sat rnd) h.g 8 d'.toNat (if cvtWidth ct = 64 then 2 else 1) [.v a'.toNat (if cvtWidth cs = 64 then 2 else 1)]

/-! ### Real arithmetic -/

/-- FCMP pushes the IEEE ordered comparison of sub-element 0: −0 equals +0, and with a NaN only "not equal" is true (R64); tapered patterns compare as
two's-complement integers (R71). The compact form is `.eq.f32`. -/
def Obligations.RealCompare : Prop :=
  ∀ (h : Hdr) (a b : R6) (a' : R11) (b' : Src) (c : Cond) (t : CfTy),
    let push := fun (v : List Nat → Bool) (x : List Nat) (old : List Bool) => v x :: old.take 7
    let ordered := fun (c : Cond) (x y : RVal) =>
      if x = .nan ∨ y = .nan then decide (c = .ne)
      else match c with
        | .eq => !exactLess x y && !exactLess y x
        | .ne => exactLess x y || exactLess y x
        | .lt => exactLess x y
        | .ge => !exactLess x y
    let int := fun (c : Cond) (x y : Int) => match c with | .eq => decide (x = y) | .ne => decide (x ≠ y) | .lt => decide (x < y) | .ge => decide (y ≤ x)
    Stacks (.fcmp h a b) h.g 4 [.v a.toNat 1, .v b.toNat 1] (push (fun x => ordered .eq (readBin 23 (arg x 0)) (readBin 23 (arg x 1)))) ∧
    Stacks (.fcmpFull h a' b' c t) h.g (srcLen b') [.v a'.toNat 1, srcOpnd b' 1 false] (push (fun x => match t with
      | .f32 => ordered c (readBin 23 (arg x 0)) (readBin 23 (arg x 1))
      | .bf16 => ordered c (readBin 7 (arg x 0 % 2 ^ 16)) (readBin 7 (arg x 1 % 2 ^ 16))
      | .t16 => int c (BitVec.ofNat 16 (arg x 0)).toInt (BitVec.ofNat 16 (arg x 1)).toInt
      | .t8 => int c (BitVec.ofNat 8 (arg x 0)).toInt (BitVec.ofNat 8 (arg x 1)).toInt))

/-- FMIN and FMAX of each element: the other operand where one is a NaN, the canonical NaN where both are, −0 below +0 (R64); on tapered types NaR
where either is, else the lesser or greater pattern as a two's-complement integer (R71). -/
def Obligations.RealMinMax : Prop :=
  ∀ (h : Hdr) (d a b : R6) (d' a' : R11) (b' : Src) (t : RealTy),
    let ieee := fun (fb : Nat) (wantMax : Bool) (x y : Nat) =>
      if readBin fb x = .nan then (if readBin fb y = .nan then 255 * 2 ^ fb + 2 ^ (fb - 1) else y)
      else if readBin fb y = .nan then x
      else if exactLess (readBin fb x) (readBin fb y) then (if wantMax then y else x)
      else if exactLess (readBin fb y) (readBin fb x) then (if wantMax then x else y)
      else if x.testBit (fb + 8) = wantMax then y else x
    let nar := fun (w : Nat) (wantMax : Bool) (x y : Nat) =>
      if x = 2 ^ (w - 1) ∨ y = 2 ^ (w - 1) then 2 ^ (w - 1)
      else if (if wantMax then (BitVec.ofNat w x).toInt < (BitVec.ofNat w y).toInt else (BitVec.ofNat w y).toInt < (BitVec.ofNat w x).toInt) then y else x
    let el := fun (wantMax : Bool) (x y : Nat) => match t with
      | .f32 => ieee 23 wantMax x y | .bf16 => ieee 7 wantMax x y | .t8 => nar 8 wantMax x y | .t16 => nar 16 wantMax x y | .t32 => nar 32 wantMax x y
    Gives (.fmin h d a b) h.g 4 d.toNat 1 [.v a.toNat 1, .v b.toNat 1] (fun x => ieee 23 false (arg x 0) (arg x 1)) ∧
    Gives (.fmax h d a b) h.g 4 d.toNat 1 [.v a.toNat 1, .v b.toNat 1] (fun x => ieee 23 true (arg x 0) (arg x 1)) ∧
    Gives (.fminFull h d' a' b' t) h.g (srcLen b') d'.toNat 1 [.v a'.toNat 1, srcOpnd b' 1 false] (fun x => mapElems2 (realWidth t) (el false) (arg x 0) (arg x 1)) ∧
    Gives (.fmaxFull h d' a' b' t) h.g (srcLen b') d'.toNat 1 [.v a'.toNat 1, srcOpnd b' 1 false] (fun x => mapElems2 (realWidth t) (el true) (arg x 0) (arg x 1))

/-- FADD, FSUB, FMUL and FMA of each element: the exact result, rounded once under the mode of the type (R61, R69, R129); an exact zero sum is +0, or
−0 under `.rd`. The compact forms are `.f32.rn`, with c = d for FMA. FRND rounds to an integral value under the mode (R130). -/
def Obligations.RealArith : Prop :=
  ∀ (h : Hdr) (d a b : R6) (d' a' c' : R11) (b' : Src) (m : RealMod),
    let rd := fun (m : RealMod) => readReal (modTy m)
    let out := fun (m : RealMod) => roundReal (modTy m) (modRnd m)
    let down := fun (m : RealMod) => decide (modRnd m = .rd)
    let add := fun (m : RealMod) (x y : Nat) => out m ((rd m x).add (down m) (rd m y))
    let sub := fun (m : RealMod) (x y : Nat) => out m ((rd m x).add (down m) (rd m y).neg)
    let mul := fun (m : RealMod) (x y : Nat) => out m ((rd m x).mul (rd m y))
    let fma := fun (m : RealMod) (x y z : Nat) => out m (((rd m x).mul (rd m y)).add (down m) (rd m z))
    let w := realWidth (modTy m)
    let two := fun (f : RealMod → Nat → Nat → Nat) (x : List Nat) => mapElems2 w (f m) (arg x 0) (arg x 1)
    let whole := fun (f : RealMod → Nat → Nat → Nat) (x : List Nat) => f (.f32 .rn) (arg x 0) (arg x 1)
    Gives (.fadd h d a b) h.g 4 d.toNat 1 [.v a.toNat 1, .v b.toNat 1] (whole add) ∧
    Gives (.fsub h d a b) h.g 4 d.toNat 1 [.v a.toNat 1, .v b.toNat 1] (whole sub) ∧
    Gives (.fmul h d a b) h.g 4 d.toNat 1 [.v a.toNat 1, .v b.toNat 1] (whole mul) ∧
    Gives (.fma h d a b) h.g 4 d.toNat 1 [.v a.toNat 1, .v b.toNat 1, .v d.toNat 1] (fun x => fma (.f32 .rn) (arg x 0) (arg x 1) (arg x 2)) ∧
    Gives (.faddFull h d' a' b' m) h.g (srcLen b') d'.toNat 1 [.v a'.toNat 1, srcOpnd b' 1 false] (two add) ∧
    Gives (.fsubFull h d' a' b' m) h.g (srcLen b') d'.toNat 1 [.v a'.toNat 1, srcOpnd b' 1 false] (two sub) ∧
    Gives (.fmulFull h d' a' b' m) h.g (srcLen b') d'.toNat 1 [.v a'.toNat 1, srcOpnd b' 1 false] (two mul) ∧
    Gives (.fmaFull h d' a' b' c' m) h.g (srcLen b') d'.toNat 1 [.v a'.toNat 1, srcOpnd b' 1 false, .v c'.toNat 1] (fun x =>
      joinElems w (32 / w) (fun j => fma m (subElem w j (arg x 0)) (subElem w j (arg x 1)) (subElem w j (arg x 2)))) ∧
    Gives (.frnd h d' a' m) h.g 8 d'.toNat 1 [.v a'.toNat 1] (fun x => mapElems1 w (fun e => match rd m e with
      | .fin s k z => roundReal (modTy m) .rn (.fin s (roundInt (modRnd m) s k z).natAbs 0)
      | v => roundReal (modTy m) .rn v) (arg x 0))

/-- FNEG, FABS and FCPS act on the sign bit of each f32 or bf16 element alone, a NaN's other bits kept (R63); on tapered types negation is the two's
complement of the pattern and the absolute value that of a negative pattern (R70). -/
def Obligations.RealSign : Prop :=
  ∀ (h : Hdr) (d a b : R6) (d' a' : R11) (b' : Src) (t : RealTy) (bf : Bool),
    let w := realWidth t
    let neg := fun (x : Nat) => if isTapered t then (2 ^ w - x) % 2 ^ w else x ^^^ 2 ^ (w - 1)
    let abs := fun (x : Nat) => if isTapered t then (if x.testBit (w - 1) then (2 ^ w - x) % 2 ^ w else x) else x % 2 ^ (w - 1)
    let cps := fun (w x y : Nat) => x % 2 ^ (w - 1) + y / 2 ^ (w - 1) % 2 * 2 ^ (w - 1)
    Gives (.fneg h d a) h.g 4 d.toNat 1 [.v a.toNat 1] (fun x => arg x 0 ^^^ 2 ^ 31) ∧
    Gives (.fabs h d a) h.g 4 d.toNat 1 [.v a.toNat 1] (fun x => arg x 0 % 2 ^ 31) ∧
    Gives (.fcps h d a b) h.g 4 d.toNat 1 [.v a.toNat 1, .v b.toNat 1] (fun x => cps 32 (arg x 0) (arg x 1)) ∧
    Gives (.fnegFull h d' a' t) h.g 8 d'.toNat 1 [.v a'.toNat 1] (fun x => mapElems1 w neg (arg x 0)) ∧
    Gives (.fabsFull h d' a' t) h.g 8 d'.toNat 1 [.v a'.toNat 1] (fun x => mapElems1 w abs (arg x 0)) ∧
    Gives (.fcpsFull h d' a' b' bf) h.g (srcLen b') d'.toNat 1 [.v a'.toNat 1, srcOpnd b' 1 false]
      (fun x => mapElems2 (if bf then 16 else 32) (cps (if bf then 16 else 32)) (arg x 0) (arg x 1))

/-- Rounding: a value that a format holds is rounded to itself (R61, R69); under `.rd` and `.ru` the result of a binary format lies at or below, and at
or above, the exact value (R62). -/
def Obligations.RoundingIsFaithful : Prop :=
  (∀ t r x, x < 2 ^ realWidth t → readReal t x ≠ .nan → roundReal t r (readReal t x) = x) ∧
  ∀ v fb, v ≠ .nan → (fb = 7 ∨ fb = 23) →
    exactLess v (readBin fb (roundBin fb .rd v)) = false ∧ exactLess (readBin fb (roundBin fb .ru v)) v = false

/-- The special functions of f32, or of both bf16 sub-elements, with their special cases (R65): fb is 23 or 7, and one is the pattern of 1. -/
def Obligations.SpecialFunctions : Prop :=
  ∀ (h : Hdr) (d a : R11) (bf : Bool),
    let fb := if bf then 7 else 23
    let inf := 255 * 2 ^ fb
    let neg := 2 ^ (fb + 8)
    let nan := inf + 2 ^ (fb - 1)
    let one := 127 * 2 ^ fb
    let el := fun (f : Nat → Nat → Nat) (x : List Nat) => mapElems1 (fb + 9) (f fb) (arg x 0)
    Gives (.rcp h d a bf) h.g 8 d.toNat 1 [.v a.toNat 1] (el rcpBin) ∧
    Gives (.sqrt h d a bf) h.g 8 d.toNat 1 [.v a.toNat 1] (el sqrtBin) ∧
    Gives (.rsq h d a bf) h.g 8 d.toNat 1 [.v a.toNat 1] (el rsqBin) ∧
    Gives (.ex2 h d a bf) h.g 8 d.toNat 1 [.v a.toNat 1] (el ex2Bin) ∧
    Gives (.lg2 h d a bf) h.g 8 d.toNat 1 [.v a.toNat 1] (el lg2Bin) ∧
    (∀ x, readBin fb x = .nan → rcpBin fb x = nan ∧ sqrtBin fb x = nan ∧ rsqBin fb x = nan ∧ ex2Bin fb x = nan ∧ lg2Bin fb x = nan) ∧
    (∀ m e, m ≠ 0 → ∀ x, readBin fb x = .fin true m e → sqrtBin fb x = nan ∧ rsqBin fb x = nan ∧ lg2Bin fb x = nan) ∧
    [0, neg, inf, neg + inf, one].map (rcpBin fb) = [inf, neg + inf, 0, neg, one] ∧
    [0, neg, inf, neg + inf, one].map (sqrtBin fb) = [0, neg, inf, nan, one] ∧
    [0, neg, inf, neg + inf, one].map (rsqBin fb) = [inf, neg + inf, 0, nan, one] ∧
    [0, neg, inf, neg + inf, one].map (ex2Bin fb) = [one, one, inf, 0, one + 2 ^ fb] ∧
    [0, neg, inf, neg + inf, one].map (lg2Bin fb) = [neg + inf, neg + inf, inf, nan, 0]

/-- CVT (R131, R132): an integer is taken modulo the destination's width, or clamped with `.sat` (R59); a real becomes an integer by one rounding,
clamped, with 0 for a NaN or NaR (R66, R72); into a real format there is one rounding. A narrow signed result is sign-extended. -/
def Obligations.Convert : Prop :=
  ∀ (h : Hdr) (d a : R11) (dst src : CvtTy) (sat : Bool) (r : Rnd),
    Gives (.cvt h d a dst src sat r) h.g 8 d.toNat (if cvtWidth dst = 64 then 2 else 1) [.v a.toNat (if cvtWidth src = 64 then 2 else 1)]
      (fun x =>
        let y := cvtElem dst src sat r (arg x 0)
        match dst with
        | .i8 => ((BitVec.ofNat 8 y).signExtend 32).toNat
        | .i16 => ((BitVec.ofNat 16 y).signExtend 32).toNat
        | _ => y) ∧
    (∀ (x : Nat) (sg : Bool) (w : Nat) (dg : Bool) (dw : Nat), Machine.cvtInt src = some (sg, w) → Machine.cvtInt dst = some (dg, dw) →
      cvtElem dst src sat r x = ((if sat then max (intMin dg dw) (min (intMax dg dw) (intVal sg w x)) else intVal sg w x) % 2 ^ dw).toNat) ∧
    (∀ (x : Nat) (sg : Bool) (w : Nat) (t : RealTy), Machine.cvtInt src = some (sg, w) → Machine.cvtInt dst = none → cvtReal dst = some t →
      cvtElem dst src sat r x = roundReal t r (.fin (decide (intVal sg w x < 0)) (intVal sg w x).natAbs 0)) ∧
    (∀ (x : Nat) (t : RealTy) (dg : Bool) (dw : Nat), Machine.cvtInt src = none → cvtReal src = some t → Machine.cvtInt dst = some (dg, dw) →
      cvtElem dst src sat r x = match readReal t (x % 2 ^ realWidth t) with
        | .nan => 0
        | .inf s => ((if s then intMin dg dw else intMax dg dw) % 2 ^ dw).toNat
        | .fin s m e => (max (intMin dg dw) (min (intMax dg dw) (roundInt r s m e)) % 2 ^ dw).toNat) ∧
    (∀ x t u, Machine.cvtInt src = none → cvtReal src = some t → Machine.cvtInt dst = none → cvtReal dst = some u →
      cvtElem dst src sat r x = roundReal u r (readReal t (x % 2 ^ realWidth t)))

/-- DP4 adds to c the four products of the 8-bit sub-elements of a and b, both signed for `.i8` and both unsigned for `.n8`, and keeps the low 32 bits
(R133). -/
def Obligations.DotProduct : Prop :=
  ∀ (h : Hdr) (d a c : R11) (b : Src) (uns : Bool),
    let el := fun (x j : Nat) => if uns then (x / 2 ^ (8 * j) % 2 ^ 8 : Int) else (BitVec.ofNat 8 (x / 2 ^ (8 * j))).toInt
    Gives (.dp4 h d a b c uns) h.g (srcLen b) d.toNat 1 [.v a.toNat 1, srcOpnd b 1 false, .v c.toNat 1] (fun x =>
      (((arg x 2 : Int) + el (arg x 0) 0 * el (arg x 1) 0 + el (arg x 0) 1 * el (arg x 1) 1 + el (arg x 0) 2 * el (arg x 1) 2 +
        el (arg x 0) 3 * el (arg x 1) 3) % 2 ^ 32).toNat)

/-! ### Cross-lane instructions -/

/-- BALLOT gathers entry q of the participants into a mask (R138); SHFL takes a from the participant at a source position, or keeps its own (R137); BCAST
takes it from the position that b names at the lowest participant, or from that participant (R140); RED and SCAN combine in the log steps (R139). FORM gives every participant the code of the form that a has over the
participants, and finding it takes no cut (R141); the statement is of a destination that can be written where the strand stands.
The code that a strand keeps for its issue after a placement cut is the model's choice (log 78). -/
def Obligations.CrossLane : Prop :=
  ∀ (h : Hdr) (d a : R11) (b : Src) (q : BitVec 3) (m : ShflMode) (o : RedOp),
    let two : List Opnd := [.v a.toNat 1, srcOpnd b 1 false]
    GivesAcross (.ballot h d q) h.g 8 d.toNat 2 [.q q.toNat false] (fun base parts _ =>
      ((List.range 64).map (fun p => if (rowOfPos base parts p).any (fun r => arg r 0 == 1) then 2 ^ p else 0)).sum) ∧
    GivesAcross (.shfl h d a b m) h.g (srcLen b) d.toNat 1 two (fun base parts i =>
      let own := (rowAt parts i).getD []
      let p := i - base
      let k := arg own 1
      let src := match m with
        | .up => if k ≤ p then rowOfPos base parts (p - k) else none
        | .down => rowOfPos base parts (p + k)
        | .xor => rowOfPos base parts (p ^^^ k)
        | .idx => rowOfPos base parts k
      arg (src.getD own) 0) ∧
    GivesAcross (.bcast h d a b) h.g (srcLen b) d.toNat 1 two (fun base parts _ =>
      let own := ((parts.head?).map (fun e => e.2)).getD []
      arg ((rowOfPos base parts (arg own 1)).getD own) 0) ∧
    GivesAcross (.red h d a o) h.g 8 d.toNat 1 [.v a.toNat 1] (fun base parts _ => nth (redSteps o (redStart o base parts)) 0 0) ∧
    GivesAcross (.scan h d a o) h.g 8 d.toNat 1 [.v a.toNat 1] (fun base parts i => nth (scanSteps o (redStart o base parts)) (i - base) 0) ∧
    ∀ s st, Ready s st h.g [.v a.toNat 1] [d.toNat] false → st.replay = none →
      let act := acting st h.g
      let code := match classifyV act (act.map (fun i => (valueAt st a.toNat i).getD 0)) with | .u _ => 0 | .a _ _ => 1 | .x _ => 2
      let vals := (present st).map (fun _ => code)
      writable s st (columns st h.g d.toNat 1 vals) → unwatched s st [d.toNat] →
      ∃ u, exec (.form h d a) s = .next (putStrand s u) ∧ Wrote st u h.g 8 d.toNat 1 vals

/-- The log steps of RED and SCAN give, for the integer and bitwise operations, the reduction of the participants' values in ascending order, over all
of them or over those up to a position (R139). -/
def Obligations.Reductions : Prop :=
  ∀ (o : RedOp) base parts, o ≠ .fadd → o ≠ .fmin → o ≠ .fmax → base % 64 = 0 → parts ≠ [] → (parts.map (fun e => e.1)).Pairwise (· < ·) →
    (∀ e ∈ parts, base ≤ e.1 ∧ e.1 < base + 64 ∧ arg e.2 0 < 2 ^ 32) →
    let fold := fun (xs : List (Nat × List Nat)) => (xs.map (fun e => arg e.2 0)).foldl (redOp o) (redId o)
    nth (redSteps o (redStart o base parts)) 0 0 = fold parts ∧
    ∀ e ∈ parts, nth (scanSteps o (redStart o base parts)) (e.1 - base) 0 = fold (parts.filter (fun x => decide (x.1 ≤ e.1)))

/-! ### Control flow -/

/-- A transfer that every present index takes moves the whole strand to its target; one that none takes moves it to the next instruction, and nothing else
of the machine changes (R143, R144, R146, R149): BR to PC + offset; BRW too, on the condition that its walk is bound and e[level] is 0; CALL, which pushes
PC + 12 on the strand's call stack; RET, to the entry that it pops. A CALL or RET that no index takes does not look at the call stack. -/
def Obligations.Transfers : Prop :=
  ∀ (h : Hdr) (off : Word) (w : BitVec 4) (level : R11) s st, Free s st h.g →
    let target := st.pc + off.signExtend 64
    let all := ∀ b ∈ guardFlags st h.g, b = true
    let no := ∀ b ∈ guardFlags st h.g, b = false
    let stay := fun (n : Nat) => advance s st.sid n
    let own := (walkOf st w.toNat).bound = true ∧ nth (walkOf st w.toNat).e level.toNat true = false
    (all → exec (.br h off) s = .next (putStrand s { st with pc := target })) ∧
    (no → exec (.br h off) s = .next (stay 12)) ∧
    (all → own → exec (.brw h w level off) s = .next (putStrand s { st with pc := target })) ∧
    (no ∨ ¬own → exec (.brw h w level off) s = .next (stay 12)) ∧
    (all → st.calls.length < 8 → exec (.call h off) s = .next (putStrand s { st with pc := target, calls := (st.pc + 12) :: st.calls })) ∧
    (no → exec (.call h off) s = .next (stay 12)) ∧
    (∀ ra rest, st.calls = ra :: rest → all → exec (.ret h) s = .next (putStrand s { st with pc := ra, calls := rest })) ∧
    (no → exec (.ret h) s = .next (stay 8))

/-- A transfer that some indices take and others do not splits the strand: those that take it go on at the target, the others at the next instruction,
each with its registers and its predicate stack, and the run ends (R43, R100, R144). The call stack of what CALL takes holds PC + 12 on top, that of what RET takes has lost its
top, and what does not transfer keeps its own (R146). -/
def Obligations.TransfersDiverge : Prop :=
  ∀ (h : Hdr) (off : Word) (w : BitVec 4) (level : R11) s st, Free s st h.g →
    let act := acting st h.g
    let target := st.pc + off.signExtend 64
    let split := fun (i : Instr) (target : DWord) (len : DWord) (calls : List DWord) =>
      ∃ t, exec i s = .next t ∧ t.cur = none ∧
        Carried t st (present st) (fun j => if j ∈ act then target else st.pc + len) (fun j => if j ∈ act then calls else st.calls)
    act ≠ [] → act ≠ present st →
    split (.br h off) target 12 st.calls ∧
    ((walkOf st w.toNat).bound = true → nth (walkOf st w.toNat).e level.toNat true = false → split (.brw h w level off) target 12 st.calls) ∧
    (st.calls.length < 8 → split (.call h off) target 12 ((st.pc + 12) :: st.calls)) ∧
    ∀ ra rest, st.calls = ra :: rest → split (.ret h) ra 8 rest

/-- A CALL with eight return addresses on the stack, and a RET with none, trap at the indices that would take them, before any effect (R146): the
call-stack stop, with those indices parked at their PC and one report for each named set, of class 1, with what overflowed or ran empty in INFO; the indices that do not take the
transfer go on at the next instruction, with their registers and the call stack as they were. Strand identities are those that the machine gives out.
The number of the ticket, and one ticket for a set that is no range, are the model's choice (logs 5 and 12). -/
def Obligations.CallTraps : Prop :=
  ∀ (h : Hdr) (off : Word) s st, Free s st h.g → FreshIds s → acting st h.g ≠ [] →
    let act := acting st h.g
    let trap := fun (i : Instr) (len : DWord) (info : Nat) =>
      ∃ t sids, exec i s = .next t ∧ Stopped s t st.lk sids st.pc 8 0 ∧ Standing t st act (· ∈ sids) st.pc ∧
        Standing t st ((present st).filter (fun j => !act.contains j)) (· ∉ sids) (st.pc + len) ∧
        Reported s t (ctxOfLaunch s st.lk) (stamped s (withNames { reportOf s st 8 0 with info := info } act))
    (8 ≤ st.calls.length → trap (.call h off) 12 1) ∧ (st.calls = [] → trap (.ret h) 8 2)

/-- BRX goes, at each index, to the PC plus its own signed word (R145): as a whole where all go to one place; where none acts, to the next instruction; with
the strand split among the targets where they differ, window by window. A target that is no multiple of 4 is an illegal instruction, and stops the whole strand. Before all of
that a strand that is not placed, whose targets differ, takes the placement cut, and issues again: each of its indices stands in a strand of its own team, at the same PC with its registers and its
entries, which is a pending range where the team is not placed (R39, R40).
The number of the stop's ticket is the model's choice (log 5). -/
def Obligations.BranchIndirect : Prop :=
  ∀ (h : Hdr) (a : R11) s st, Ready s st h.g [.v a.toNat 1] [] false →
    let act := acting st h.g
    let target := fun i => st.pc + ((valueAt st a.toNat i).getD 0).signExtend 64
    let aligned := ∀ i ∈ act, (target i).toNat % 4 = 0
    (∀ p, aligned → act = present st → (∀ i ∈ act, target i = p) → exec (.brx h a) s = .next (putStrand s { st with pc := p })) ∧
    (act = [] → exec (.brx h a) s = .next (advance s st.sid 8)) ∧
    (aligned → act ≠ [] → ¬(act = present st ∧ ∃ p, ∀ i ∈ act, target i = p) → (st.mask.isSome = true ∨ st.team.isSome = true) →
      ∃ t, exec (.brx h a) s = .next t ∧ t.cur = none ∧ Carried t st (present st) (fun i => if i ∈ act then target i else st.pc + 8) (fun _ => st.calls)) ∧
    (aligned → (∃ i ∈ act, ∃ j ∈ act, target i ≠ target j) → st.mask = none → st.team = none → exec (.brx h a) s = .next (placementCut s st)) ∧
    (¬aligned → ∃ t, exec (.brx h a) s = .next t ∧ Stopped s t st.lk [st.sid] st.pc 1 0) ∧
    (st.mask = none → 0 < tsizeOf s st.lk →
      let t := placementCut s st
      t.cur = none ∧ ∀ i ∈ present st, ∃ u ∈ t.strands, i ∈ present u ∧ u.lk = st.lk ∧ u.pc = st.pc ∧ u.team = some (i / tsizeOf s st.lk) ∧
        (∀ j ∈ present u, j / tsizeOf s st.lk = i / tsizeOf s st.lk) ∧ (∀ r, valueAt u r i = valueAt st r i) ∧ (∀ k < 8, entryAt u k i = entryAt st k i) ∧
        u.pending = !(teamOf s st.lk (i / tsizeOf s st.lk)).any (fun x => x.placed))

/-- NOP and a YIELD, an ENROL or a WBIND under a guard that is U true do what R46, R147, R148, R151 and R158 say, in one strand: NOP only moves on; YIELD
also holds the strand for 64 issue slots of its partition, and ends the run; WBIND binds the walk to the layout slot; ENROL gives the strand a fresh
enrolment, after which the barriers and rejoins of its team are tested. A slot that a load of another strand is replacing reads as `readSlot` gives it, each byte the old one
or the new one (R198).
How the slots of YIELD's hold are counted, and what WBIND makes of a record that no check admits, is the model's choice (logs 54 and 76). -/
def Obligations.StrandControl : Prop :=
  ∀ (h : Hdr) (j w : BitVec 4) (d : BitVec 5) s st,
    (Issuing s st → exec (.nop h) s = .next (advance s st.sid 8)) ∧
    (Collective s st h.g [] false false →
      exec (.yieldI h) s = .next (endRun (blockOn (advance s st.sid 8) st.sid (.yieldHold (s.slots + 64)))) ∧
      exec (.enrol h j) s = .next (wakeTeam
        (updStrand { s with nextId := s.nextId + 1 } st.sid (fun x => { x with enrol := x.enrol.set j.toNat s.nextId, pc := x.pc + 8 })) st.lk st.team)) ∧
    (Collective s st h.g [] true false → (pendingSlots s st).contains d.toNat = false →
      let r := (readSlot s st d.toNat).1
      let n := recNdim r
      exec (.wbind h w d) s = .next (updStrand (readSlot s st d.toNat).2 st.sid (fun x => { x with
        pc := x.pc + 8
        walks := x.walks.set w.toNat ⟨true, n, (List.range 5).map (fun k => if k < n then recExt r k else 1),
          (List.range 5).map (fun k => if k < n then BitVec.ofInt 64 (recStr r k) else 0), [0, 0, 0, 0, 0], [false, false, false, false, false]⟩ })))

/-- The instructions that wait (R47, R150, R151, R153, R156): each ends the run. WAITC completes at once where no class has more operations outstanding
than it allows, 2047 being no bound, and its strand has no fault to take; else it blocks. JOINW and BAR perform what the strand has left and block; while a member of the group has not come to
its JOINW, or some index of the team or gang has not come to the barrier, the strand stays blocked; when the last has come, every member is ready at PC + 8, with the values of the live
registers of a JOINW. BAR over a gang first releases at gang scope. EXIT retires the indices at which it acts: no strand of the launch holds them, and the others go on at PC + 8. -/
def Obligations.WaitingInstructions : Prop :=
  ∀ (h : Hdr) (gang : Bool) (j k : BitVec 4) (l n c t lo hi : R11) s st,
    let within := fun (k : OpClass) (x : R11) => x.toNat = 2047 ∨ opCount s st k ≤ x.toNat
    (Collective s st h.g [] false false →
      (within .l l → within .s n → within .c c → within .t t → undelivered s st = [] →
        ∃ r u, exec (.waitc h l n c t) s = .next r ∧ r.cur = none ∧ sameBytes s r ∧
          strandOf r st.sid = some u ∧ u.pc = st.pc + 8 ∧ u.status = .ready ∧ u.regs = st.regs ∧ u.qs = st.qs ∧ u.enrol = st.enrol) ∧
      (¬(within .l l ∧ within .s n ∧ within .c c ∧ within .t t) →
        exec (.waitc h l n c t) s = .next (endRun (blockOn s st.sid (.waitc l.toNat n.toNat c.toNat t.toNat)))) ∧
      let b := blockOn (performLoads s st) st.sid (.join j.toNat lo.toNat hi.toNat)
      let after := endRun (wakeTeam b st.lk st.team)
      exec (.joinw h j lo hi) s = .next after ∧
        (FreshIds s → st.team.isSome = true → ∀ v, strandOf b st.sid = some v →
          let ms := membersOf b v j.toNat
          ((∃ m ∈ ms, ∀ a z, m.status ≠ .blocked (.join j.toNat a z)) →
            ∃ u, strandOf after st.sid = some u ∧ u.status = .blocked (.join j.toNat lo.toNat hi.toNat) ∧ u.pc = st.pc) ∧
          ((∀ m ∈ ms, m.status = .blocked (.join j.toNat lo.toNat hi.toNat) ∧ arrivedJoin b m j.toNat = true ∧ stopped b m = false ∧ StrandWf m) →
            (∀ m ∈ ms, ∀ o ∈ ms, ∀ i ∈ present m, i ∈ present o → m = o) → ∀ m ∈ ms, ∀ i ∈ present m, ∃ u ∈ after.strands, u.lk = st.lk ∧ i ∈ present u ∧
              u.pc = m.pc + 8 ∧ u.status = .ready ∧ ∀ r, lo.toNat ≤ r → r ≤ hi.toNat → valueAt u r i = valueAt m r i))) ∧
    (Collective s st h.g [] true false →
      let s1 := performLoads s st
      let s2 := if gang then (present st).foldl (fun a i => publish a st.core (releaseRec a st i .gang)) s1 else s1
      let b := blockOn s2 st.sid (.bar gang k.toNat)
      let after := endRun (wakeTeam b st.lk st.team)
      exec (.bar h gang k) s = .next after ∧
        (FreshIds s → ∀ team, st.team = some team → team ∈ gangTeams s st.lk team →
          let ts := if gang then gangTeams b st.lk team else [team]
          let ws := atBar b st.lk ts gang k.toNat
          let arrived := (ws.map presentCount).sum
          let expected := (ts.map (aliveIn b st.lk)).sum
          (arrived ≠ expected → ∃ u, strandOf after st.sid = some u ∧ u.status = .blocked (.bar gang k.toNat) ∧ u.pc = st.pc) ∧
          (arrived = expected → (∀ x ∈ ws, stopped b x = false) → ∀ x ∈ ws, ∃ u, strandOf after x.sid = some u ∧ u.pc = x.pc + 8 ∧ u.status = .ready ∧ u.regs = x.regs ∧ u.qs = x.qs))) ∧
    (Free s st h.g →
      (acting st h.g = [] → exec (.exit h) s = .next (advance s st.sid 8)) ∧
      (acting st h.g ≠ [] →
        let r := retire s st (acting st h.g) 8 true
        exec (.exit h) s = .next (if (strandOf r st.sid).any (fun x => x.status == .ready) then r else endRun r) ∧
        (FreshIds s → st.status = .ready → undelivered s st = [] → (∀ x ∈ s.strands, x.lk = st.lk → (∃ i ∈ acting st h.g, i ∈ present x) → x = st) →
          (∀ u ∈ r.strands, u.lk = st.lk → ∀ i ∈ acting st h.g, i ∉ present u) ∧
          Standing r st ((present st).filter (fun i => !(acting st h.g).contains i)) (fun _ => True) (st.pc + 8))))

/-- A collective or strand-wide instruction under a guard that is U false only moves on, and JOINW and WAITC end their run (R151, R156); under one that is not U over the
strand it stops the strand before any effect, with the collective-guard kind (R51).
The number of the stop's ticket is the model's choice (log 5). -/
def Obligations.CollectiveGuards : Prop :=
  ∀ (h : Hdr) (j k w : BitVec 4) (lo hi l n c t a f : R11) (b : Src) (gang incA incB : Bool) (d : BitVec 5) (e : BitVec 2) (m : BitVec 3) (q : BitVec 6)
      (sc : Scope) (fk : FenceKind) (x : BitVec 8) (rnd : Rnd) (fm : MrdFmt) s st,
    Issuing s st → mustWait s st [] true = false →
    (∀ i ∈ [(Instr.enrol h j, 8), (.bar h gang k, 8), (.yieldI h, 8), (.wbind h w d, 8), (.fence h fk sc, 8), (.cbrk h l a b m gang e, srcLen b),
        (.seFill h d b e, srcLen b), (.seDrain h d b e, srcLen b), (.seFillw h d b e, srcLen b), (.seAdv h d b e, srcLen b), (.dld h d a l, 8), (.dst h d a l, 8),
        (.mfence h, 8), (.mloop h m f b d q incA incB, srcLen b), (.mwait h m, 8), (.mclr h m, 8), (.mrd h l m b rnd q fm incA, srcLen b), (.safept h x, 8),
        (.qpop h l a, 8), (.qpush h a b, srcLen b), (.launch h a b, srcLen b), (.moult h a b, srcLen b)],
      (guardU st h.g = some false → exec i.1 s = .next (advance s st.sid i.2)) ∧
      (guardU st h.g = none → ∃ r, exec i.1 s = .next r ∧ Stopped s r st.lk [st.sid] st.pc 3 0)) ∧
    ∀ i ∈ [Instr.joinw h j lo hi, .waitc h l n c t],
      (guardU st h.g = some false → exec i s = .next (endRun (advance s st.sid 8))) ∧
      (guardU st h.g = none → ∃ r, exec i s = .next r ∧ Stopped s r st.lk [st.sid] st.pc 3 0)

/-- Taking a precise trap (R373, R376, R378): the strand parks at its own PC with everything it holds, one stop is opened, the launch counts one report for
each named set, and no other strand, no team, no core and no memory changes but the slots of the fault queue: every report has class 1 and the ticket; where none waits and the queue has room, each stands
in its slot of 256 bytes, with KIND, CAUSE, TICKET, PC, INFO and the set where R375 has them; else they wait, and no byte changes. A ticket is never 0 and never that of another open stop.
The number of a ticket beyond R378, and one report for each run of a set that is no range, are the model's choice (logs 5 and 12). -/
def Obligations.TakingATrap : Prop :=
  (∀ (stops : List Stop) (t : Nat), stops.length < 2 ^ 32 - 2 →
    let x := ticketFrom stops (stops.length + 1) t
    0 < x ∧ x < 2 ^ 32 ∧ ∀ y ∈ stops, y.ticket ≠ x) ∧
  (∀ (r : Report) (phase : Nat), r.cls < 2 ^ 8 → r.kind < 2 ^ 8 → r.cause < 2 ^ 8 → phase < 2 → r.iform < 2 ^ 7 →
    let at' := fun (lo n : Nat) => reportBits r phase / 2 ^ lo % 2 ^ n
    at' 0 8 = r.cls ∧ at' 8 8 = r.kind ∧ at' 16 8 = r.cause ∧ at' 24 1 = phase ∧ at' 25 7 = r.iform ∧ at' 32 32 = r.launch % 2 ^ 32 ∧ at' 64 32 = r.ticket % 2 ^ 32 ∧
      at' 128 64 = r.pc % 2 ^ 64 ∧ at' 256 64 = r.addr % 2 ^ 64 ∧ at' 320 32 = r.first % 2 ^ 32 ∧ at' 352 32 = r.countM1 % 2 ^ 32 ∧ at' 384 64 = r.mask % 2 ^ 64 ∧
      at' 448 32 = r.info % 2 ^ 32 ∧ at' 480 32 = r.info2 % 2 ^ 32) ∧
  ∀ s st len r, strandOf s st.sid = some st →
    let t := trapWhole s st len r
    Stopped s t st.lk [st.sid] st.pc r.kind r.cause ∧
    strandOf t st.sid = some { st with status := .parked (ticketFrom s.stops (s.stops.length + 1) s.nextTicket) } ∧
    (∀ id, id ≠ st.sid → strandOf t id = strandOf s id) ∧ t.teams = s.teams ∧ t.cores = s.cores ∧ t.ops = s.ops ∧ t.stores = s.stores ∧ t.hostMem = s.hostMem ∧
    Reported s t (ctxOfLaunch s st.lk) (stamped s (withNames r (present st))) ∧
    (∀ l, launchOf s st.lk = some l → launchOf t st.lk = some { l with faults := l.faults + (withNames r (present st)).length }) ∧
    (∀ x, ctxOf s (ctxOfLaunch s st.lk) = some x → ringRoom x = false →
      t.mem = s.mem ∧ ctxOf t (ctxOfLaunch s st.lk) = some { x with waiting := x.waiting ++ (withNames r (present st)).map (fun q => { q with
        cls := 1, ticket := ticketFrom s.stops (s.stops.length + 1) s.nextTicket }) })

/-! ### Memory, scratchpad, atomics, queues and fences -/

/-- LD and LDS issue one operation of class l for the indices that act, at the addresses of R163 and R174, and move on; the registers are written when it
finishes (R155, R168, R176), and no byte of memory changes. A U address is one access (R164), and one of 16 bytes is two of 8 (R163). LDS `.take` and `.wait` begin
their wait for the granules. What earlier accesses of the same indices have left is performed first where the same location is named (R251). Where the access of some indices raises a fault,
those indices park at their PC and the others complete (R166, R167); the statement is of faults of one kind and cause.
That the caches are used at issue, and the moment at which a guarded load to a form-only register finds its value, which no clause gives, is the model's reading (logs 8 and 79). -/
def Obligations.Loads : Prop :=
  ∀ (h : Hdr) (d a k : R11) (z : MemSz) (zs : ScrSz) (f : LdsQual) (nt : Bool) s st locs,
    let act := acting st h.g
    let issues := fun (i : Instr) (n : Nat) (sx u : Bool) (s1 : State) =>
      let t := issueLoad (some d.toNat) n sx u none 8 s1 st locs
      exec i s = .next t ∧
        (Quiet s st → t.stores = s.stores ∧ Issued s t st 8 .l act (.result (some d.toNat) (bytesRegs n) [] [] (loadTodos n sx u none locs) none [] false))
    (Clear s st h.g [a.toNat, a.toNat + 1] (List.range' d.toNat (bytesRegs (szBytes z))) false →
      let n := szBytes z
      let u := addrU st a.toNat
      (act = [] → exec (.ld h d a k z nt) s = .next (advance s st.sid 8)) ∧
      (act ≠ [] → d.toNat + bytesRegs n ≤ budgetOf s st → roomFor s st .l false = true → FreshIds s → (∀ o ∈ s.ops, o.oid < s.nextId) →
        FaultsPark (.ld h d a k z nt) s st act (fun i => accessOf s st (atIdx (present st) (addresses st a.toNat (immS k)) i) n false) 8) ∧
      (act ≠ [] → (d.toNat + bytesRegs n ≤ budgetOf s st ∨ presentCount st = 1 ∨ (u = true ∧ act.length = presentCount st)) → roomFor s st .l false = true →
        Permitted (fun x => accessOf s st x n false) act (atIdx (present st) (addresses st a.toNat (immS k))) locs →
        issues (.ld h d a k z nt) n (szSigned z) u (touch st a.toNat nt 0 (dropRes s st.sid) locs))) ∧
    (Clear s st h.g [a.toNat] (List.range' d.toNat (scrBytes zs / 4)) false → st.team.isSome = true →
      let n := scrBytes zs
      let u := (uReg st a.toNat).isSome
      (act = [] → exec (.lds h d a k zs f) s = .next (advance s st.sid 8)) ∧
      (act ≠ [] → d.toNat + n / 4 ≤ budgetOf s st → roomFor s st .l false = true → FreshIds s → (∀ o ∈ s.ops, o.oid < s.nextId) → f = .plain →
        FaultsPark (.lds h d a k zs f) s st act (fun i => scratchAt s st (atIdx (present st) (scratchAddrs st a.toNat (immS k)) i) n) 8) ∧
      (act ≠ [] → (d.toNat + n / 4 ≤ budgetOf s st ∨ presentCount st = 1 ∨ (u = true ∧ act.length = presentCount st)) → roomFor s st .l false = true →
        Permitted (fun x => scratchAt s st x n) act (atIdx (present st) (scratchAddrs st a.toNat (immS k))) locs →
        (f = .plain → issues (.lds h d a k zs f) n false u (dropRes s st.sid)) ∧
        (f ≠ .plain → exec (.lds h d a k zs f) s = .next (beginGranule (performLoads (dropRes s st.sid) st) st
          ⟨if f = .take then .take else .wait, d.toNat, n / 4, 8, 0, 0,
            (groupLocs u locs).map (fun g => ⟨g.1, (spaceTeam g.2.1).1, (spaceTeam g.2.1).2, g.2.2, n, [], false⟩), [], []⟩))))

/-- LDA completes like LD: its operation holds its loads, each with the acquire of its scope (R171), and when one is performed each of its indices observes what the
releases of the stores that it reads carry, where the scopes hold each other (R252). PREF completes wherever no address that it acts on has missed its translation: it
moves on, and changes no byte, no other strand and no operation (R170); at a miss it waits for the walk, as any access does (R165).
That the caches are used at issue is the model's reading (log 8). -/
def Obligations.AcquireAndPrefetch : Prop :=
  (∀ (h : Hdr) (d a k : R11) (wide : Bool) (sc : Scope) s st,
    let act := acting st h.g
    let n := if wide then 8 else 4
    let u := addrU st a.toNat
    Clear s st h.g [a.toNat, a.toNat + 1] (List.range' d.toNat (n / 4)) false →
      (act = [] → exec (.lda h d a k wide sc) s = .next (advance s st.sid 8)) ∧
      ∀ locs, act ≠ [] → (d.toNat + n / 4 ≤ budgetOf s st ∨ presentCount st = 1 ∨ (u = true ∧ act.length = presentCount st)) → roomFor s st .l false = true →
        Permitted (fun x => accessOf s st x n false) act (atIdx (present st) (addresses st a.toNat (immS k))) locs →
        ∃ t, exec (.lda h d a k wide sc) s = .next t ∧
          t = issueLoad (some d.toNat) n false u (some sc) 8 (touch st a.toNat false 0 (dropRes s st.sid) locs) st locs ∧
          (Quiet s st → t.stores = s.stores ∧
            Issued s t st 8 .l act (.result (some d.toNat) (bytesRegs n) [] [] (loadTodos n false u (some sc) locs) none [] false))) ∧
  (∀ s (o : Op) (t : LoadTodo) sc, t.acq = some sc →
    let r := performLoad s o.lk o.core t.idxs t.space t.addr t.size
    ∀ id ∈ r.1.from_, ∀ w rec, r.2.stores.find? (fun e => e.id == id) = some w → w.rel = some rec →
      ∀ i ∈ t.idxs, inScope rec.scope o.lk i = true → writerIn r.2 (scopeNow r.2 o i sc) w.writer = true →
        ∀ x ∈ rec.set, observes (performTodo s o t) o.lk i x = true) ∧
  ∀ (h : Hdr) (a k : R11) s st, Issuing s st → mustWait s st [a.toNat, a.toNat + 1] (guardReads h.g) = false →
    let va := atIdx (present st) (addresses st a.toNat (immS k))
    let act := (acting st h.g).filter (fun i => !(poisonedAt st a.toNat i || poisonedAt st (a.toNat + 1) i))
    ((∀ i ∈ act, ∀ p, accessOf s st (va i) 1 false ≠ .miss p) →
      ∃ t, exec (.pref h a k) s = .next t ∧ sameBytes s t ∧ t.strands = (advance s st.sid 8).strands ∧ t.ops = s.ops ∧ t.stores = s.stores ∧ t.stops = s.stops) ∧
    ∀ i rest p, act = i :: rest → accessOf s st (va i) 1 false = .miss p → exec (.pref h a k) s = .next (startWalk s st p)

/-- What a load finds (R251): each byte from the newest entry of its core's buffer that covers it, or from its home; the buffer is used where an index
observes one of the entries that meet the access, and the home where none meets it. So a load of the bytes that an index has just stored, by that index on the same core, returns them (R249). -/
def Obligations.LoadValue : Prop :=
  (∀ s lk core is sp a n,
    let es := (bufferOf s core).filter (meets sp a n)
    let r := performLoad s lk core is sp a n
    let byte := fun (useBuf : Bool) (k : Nat) =>
      match (if useBuf then newestEntry es (a + k) else none) with
      | some e => nth e.bytes (a + k - e.addr) 0
      | none => nth (homeBytes s sp a n) k 0
    r.1.bytes.length = n ∧ sameBytes s r.2 ∧
    (∃ useBuf, (∀ k < n, nth r.1.bytes k 0 = byte useBuf k) ∧ (es = [] → useBuf = false) ∧
      ((∃ e ∈ es, ∃ i ∈ is, observes s lk i e.id = true) → useBuf = true))) ∧
  ∀ s st i sp a bs rel, bs ≠ [] →
    let t := enterStore s st [i] sp a bs false rel
    (performLoad t st.lk st.core [i] sp a bs.length).1.bytes = bs

/-- ST and STS issue one operation of class s with the n bytes of each index that acts, at the addresses of R163 and R174, one store for a U address, two of 8 bytes for
16 (R163), and move on (R155, R168, R169, R176); the stores enter the core's buffer at that step or later, and no home changes until an entry drains (R249). STS `.fill`
begins its wait for empty granules; `.set` also sets the granules full, after its stores: both are done at that step, or both are left. Where the access of some indices raises a
fault, those indices park at their PC and the others complete (R166, R167); the statement is of faults of one kind and cause.
That the caches are used at issue, that one entry serves a store with a U address, with the data of the highest index, and which step enters the stores, is the model's
reading (logs 8, 1 and 15). -/
def Obligations.Stores : Prop :=
  ∀ (h : Hdr) (a k : R11) (b : Src) (z : MemSz) (zs : ScrSz) (f : StsQual) (nt : Bool) s st locs,
    let act := acting st h.g
    let len := srcLen b
    let issues := fun (i : Instr) (n : Nat) (u : Bool) (s1 : State) =>
      let t := storeLocs st len (groupLocs u locs) (storeData st b n) none [] s1
      exec i s = .next t ∧ (Quiet s st → Stored s t st len act (storeTodos (groupLocs u locs) (storeData st b n) none))
    (Clear s st h.g ([a.toNat, a.toNat + 1] ++ storeRegs b (szBytes z)) [] false →
      (act = [] → exec (.st h a b k z nt) s = .next (advance s st.sid len)) ∧
      (act ≠ [] → roomFor s st .s false = true → FreshIds s → (∀ o ∈ s.ops, o.oid < s.nextId) →
        FaultsPark (.st h a b k z nt) s st act (fun i => accessOf s st (atIdx (present st) (addresses st a.toNat (immS k)) i) (szBytes z) true) len) ∧
      (act ≠ [] → roomFor s st .s false = true → Permitted (fun x => accessOf s st x (szBytes z) true) act (atIdx (present st) (addresses st a.toNat (immS k))) locs →
        issues (.st h a b k z nt) (szBytes z) (addrU st a.toNat) (touch st a.toNat nt (szBytes z) (dropRes s st.sid) locs))) ∧
    (Clear s st h.g ([a.toNat] ++ storeRegs b (scrBytes zs)) [] false →
      (act = [] → exec (.sts h a b k zs f) s = .next (advance s st.sid len)) ∧
      (act ≠ [] → st.team.isSome = true → roomFor s st .s false = true → FreshIds s → (∀ o ∈ s.ops, o.oid < s.nextId) → f = .plain →
        FaultsPark (.sts h a b k zs f) s st act (fun i => scratchAt s st (atIdx (present st) (scratchAddrs st a.toNat (immS k)) i) (scrBytes zs)) len) ∧
      (act ≠ [] → st.team.isSome = true → roomFor s st .s false = true →
        Permitted (fun x => scratchAt s st x (scrBytes zs)) act (atIdx (present st) (scratchAddrs st a.toNat (immS k))) locs →
        let n := scrBytes zs
        let u := (uReg st a.toNat).isSome
        let gs := groupLocs u locs
        let s1 := dropRes s st.sid
        (f = .plain → issues (.sts h a b k zs f) n u s1) ∧
        (f = .fill → exec (.sts h a b k zs f) s = .next (beginGranule (performLoads s1 st) st ⟨.fill, 0, 0, len, 0, 0,
          gs.map (fun g => ⟨g.1, (spaceTeam g.2.1).1, (spaceTeam g.2.1).2, g.2.2, n, storeData st b n (g.1.getLastD 0), false⟩), [], []⟩)) ∧
        (f = .set →
          let t := storeLocs st len gs (storeData st b n) none (setTodos gs) s1
          exec (.sts h a b k zs f) s = .next t ∧
          (Quiet s st →
            (t.stores = s.stores ∧ Issued s t st len .s act (.stores (storeTodos gs (storeData st b n) none)) ∧ ∃ o, t.ops.getLast? = some o ∧ o.sets = setTodos gs) ∨
            ∀ l ∈ locs, granFull t (spaceTeam l.2.1).1 (spaceTeam l.2.1).2 (l.2.2 / 16) = true))))

/-- STL issues its stores like ST, each with the release of its indices at its scope, which becomes their release record when the store enters (R171, R249); CST stores
the words of the indices where its entry is true one after another from the address of the lowest index that acts, and gives the register d their number (R172): where d
can be written, it completes in one strand. One that is replayed goes on from the rank, the number and the address that its strand has kept (R173).
That the caches are used at issue, that one entry serves a store with a U address, and which step enters the stores, is the model's reading (logs 8, 1 and 15). -/
def Obligations.ReleaseAndCompress : Prop :=
  ∀ (h : Hdr) (d a k : R11) (b : Src) (wide : Bool) (q : BitVec 3) (sc : Scope) s st locs,
    let act := acting st h.g
    let n := if wide then 8 else 4
    let len := srcLen b
    (Clear s st h.g ([a.toNat, a.toNat + 1] ++ storeRegs b n) [] false →
      (act = [] → exec (.stl h a b k wide sc) s = .next (advance s st.sid len)) ∧
      (act ≠ [] → roomFor s st .s false = true → Permitted (fun x => accessOf s st x n true) act (atIdx (present st) (addresses st a.toNat (immS k))) locs →
        let gs := groupLocs (addrU st a.toNat) locs
        let t := storeLocs st len gs (storeData st b n) (some sc) [] (touch st a.toNat false n (dropRes s st.sid) locs)
        exec (.stl h a b k wide sc) s = .next t ∧
        (Quiet s st → Stored s t st len act (storeTodos gs (storeData st b n) (some sc)) ∧
          ∀ e ∈ t.stores.drop s.stores.length, ∃ r, e.rel = some r ∧ r.scope = scopeOf s st sc))) ∧
    (Issuing s st → mustWait s st ([a.toNat, a.toNat + 1, d.toNat] ++ storeRegs b n) true = false → roomFor s st .s false = true →
      let sel := ((present st).zip (qVals st q.toNat)).filterMap (fun e => if e.2 && act.contains e.1 then some e.1 else none)
      let (done, count, base) := st.replay.getD (0, sel.length, atIdx (present st) (addresses st a.toNat 0) (act.headD 0))
      let at' := fun i => wrapTo 64 ((base : Int) + n * (done + sel.idxOf i : Nat))
      let res := guardedWrite st h.g d.toNat 1 ((present st).map (fun _ => count))
      (st.replay = none → ∀ i ∈ act.take 1, poisonedAt st a.toNat i = false ∧ poisonedAt st (a.toNat + 1) i = false) →
      (∀ i ∈ sel, ∀ r ∈ storeRegs b n, poisonedAt st r i = false) →
      (act = [] → exec (.cst h d a b wide q) s = .next (advance s st.sid len)) ∧
      (act ≠ [] → writable s st res.regs → Permitted (fun x => accessOf s st x n true) sel at' locs →
        let s0 := if st.mask.isNone then bulkUse st.core n (dropRes s st.sid) locs else cacheUse st.core false n (dropRes s st.sid) locs
        let s1 := if sel = [] then (addOp s0 st .s (present st) (.stores []) false).2
          else issueStores s0 st sel (storeTodos (locs.map (fun l => ([l.1], l.2))) (storeData st b n) none) []
        exec (.cst h d a b wide q) s = .next (writeResult s1 { st with ops := ((strandOf s1 st.sid).map (fun x => x.ops)).getD st.ops, replay := none } res len)))

/-- An atomic (R179, R180, R257): the entries of its core's buffer for the word drain, the old value is read at the home, and the new one is written there;
every other byte is as the drains left it. What is written: ADD modulo 2^32, the bitwise operations, the signed minimum and maximum, the exchange; CAS where
the comparison holds; the sum of ATC (R182). -/
def Obligations.AtomicStep : Prop :=
  (∀ s lk core i sp a (f : Word → Option Word), memoriesCanonical s → (∀ l t, sp = .scr l t → (teamOf s l t).isSome = true) →
    let s1 := drainWhere s core (meets sp a 4)
    let r := atomicStep s lk core i sp a f
    r.1 = BitVec.ofNat 32 (ofBytes (homeBytes s1 sp a 4)) ∧ sameBytesBut s1 r.2.2 sp a 4 ∧
    (∀ v, f r.1 = some v → homeBytes r.2.2 sp a 4 = toBytes 4 v.toNat) ∧ (f r.1 = none → sameBytes s1 r.2.2)) ∧
  ∀ (o : AtOp) (b c old : Word),
    atWrite (.op o) b c old = some (match o with
      | .add => old + b | .and => old &&& b | .or => old ||| b | .xor => old ^^^ b
      | .min => if b.toInt < old.toInt then b else old | .max => if old.toInt < b.toInt then b else old | .swap => b) ∧
    atWrite .cas b c old = (if old = b then some c else none) ∧ atWrite .atc b c old = some (old + c)

/-- The atomics (R179 to R182, R186): one operation of class l holds the atomics of the indices that act. ATS acts on the scratchpad, AT and CAS at L2 or over the host link,
where they are performed at that step or later; AT and CAS `.home` and ATC are performed at the homes of device memory, for which they leave. The old values arrive like
a load's. Where the access of some indices raises a fault, those indices park at their PC and the others complete (R166, R167); that is stated of ATS, AT and CAS, and of faults of one kind and
cause.
That the caches are used at issue, and when atomics that no B-die performs take place, is the model's reading (logs 1 and 8). -/
def Obligations.AtomicInstructions : Prop :=
  ∀ (h : Hdr) (d a c : R11) (b : Src) (o : AtOp) (home : Bool) s st locs,
    let act := acting st h.g
    let len := srcLen b
    let s0 := dropRes s st.sid
    let issues := fun (i : Instr) (dest : Option Nat) (n : Nat) (k : AtKind) (ts : List AtTodo) (pushes : Bool) =>
      let t := advance (issueAtoms s0 st dest n k ts pushes) st.sid len
      exec i s = .next t ∧
      (Quiet s st → (∀ x ∈ ts, x.home = true) → Issued s t st len .l act (.result dest n [] [] [] (some (k, ts)) [] pushes)) ∧
      (Quiet s st → (∀ x ∈ ts, x.home = false) → ∃ p, t.ops.getLast? = some p ∧ p.cls = .l ∧ p.idxs = act ∧
        strandOf t st.sid = some { st with pc := st.pc + BitVec.ofNat 64 len, ops := st.ops ++ [p.oid] } ∧
        (p.body = .result dest n [] [] [] (some (k, ts)) [] pushes ∨ (k ≠ .atc → ∃ vals ps, p.body = .result dest n vals ps [] none [] pushes ∧ vals.map (fun e => e.1) = act)))
    let gives := fun (i : Instr) (k : AtKind) (x : Opnd) (home : Bool) => issues i (some d.toNat) 1 k (atTodos st home (srcOpnd b 1 false) x locs) false
    let fits := d.toNat + 1 ≤ budgetOf s st ∨ presentCount st = 1
    let va := atIdx (present st) (addresses st a.toNat 0)
    let fresh := FreshIds s ∧ ∀ o ∈ s.ops, o.oid < s.nextId
    let none' := fun (i : Instr) => act = [] → exec i s = .next (advance s st.sid len)
    (Clear s st h.g (a.toNat :: srcRegs b) [d.toNat] false → none' (.ats h d a b o) ∧
      (act ≠ [] → st.team.isSome = true → fits → roomFor s st .l false = true →
        Permitted (fun x => scratchAt s st x 4) act (atIdx (present st) (scratchAddrs st a.toNat 0)) locs → gives (.ats h d a b o) (.op o) (.lit 0) false) ∧
      (act ≠ [] → st.team.isSome = true → fits → roomFor s st .l false = true → fresh →
        FaultsPark (.ats h d a b o) s st act (fun i => scratchAt s st (atIdx (present st) (scratchAddrs st a.toNat 0) i) 4) len)) ∧
    (Clear s st h.g (a.toNat :: (a.toNat + 1) :: srcRegs b) [d.toNat] false → none' (.atGlobal h d a b o home) ∧
      (act ≠ [] → fits → roomFor s st .l false = true → Permitted (atAccess (o = .add || o = .swap) s st) act va locs →
        gives (.atGlobal h d a b o home) (.op o) (.lit 0) home) ∧
      (act ≠ [] → fits → roomFor s st .l false = true → fresh →
        FaultsPark (.atGlobal h d a b o home) s st act (fun i => atAccess (o = .add || o = .swap) s st (va i)) len)) ∧
    (Clear s st h.g (a.toNat :: (a.toNat + 1) :: c.toNat :: srcRegs b) [d.toNat] false → none' (.cas h d a b c home) ∧
      (act ≠ [] → fits → roomFor s st .l false = true → Permitted (atAccess true s st) act va locs → gives (.cas h d a b c home) .cas (.v c.toNat 1) home) ∧
      (act ≠ [] → fits → roomFor s st .l false = true → fresh → FaultsPark (.cas h d a b c home) s st act (fun i => atAccess true s st (va i)) len)) ∧
    (Clear s st h.g ([d.toNat, d.toNat + 1, a.toNat, a.toNat + 1, c.toNat] ++ srcRegs b) [] true → none' (.atc h d a b c) ∧
      (act ≠ [] → roomFor s st .l true = true → Permitted (atAccess false s st) act va locs →
        let word := fun (r i : Nat) => (valueAt st r i).getD 0
        let ts := (atTodos st true (srcOpnd b 1 false) (.v c.toNat 1) locs).map (fun t => { t with
          va := va t.idx, task := word d.toNat t.idx, arg := word (d.toNat + 1) t.idx })
        issues (.atc h d a b c) none 0 .atc ts true))

/-- QPOP and QPUSH of a strand that holds a U handle of a queue of its context (R187 to R190): QPOP takes the oldest entries, one for each present index in
ascending order while they last, and pushes which indices got one; QPUSH appends the values of the lowest present indices while the queue has room, and
pushes which were taken.
That QPOP cuts a strand of more than 64 indices first is the model's reading (log 63). -/
def Obligations.Queues : Prop :=
  ∀ (h : Hdr) (d a : R11) (b : Src) s st hd q,
    let c := ctxOfLaunch s st.lk
    uReg st a.toNat = some hd → hqOf s c hd = some q →
    (Collective s st h.g [a.toNat] false true → mustWait s st [d.toNat] false = false → presentCount st ≤ 64 →
      (d.toNat + 1 ≤ budgetOf s st ∨ presentCount st = 1) → roomFor s st .l false = true →
      let got := (present st).zip q.entries
      ∃ t o, exec (.qpop h d a) s = .next t ∧ (Quiet s st → sameBytes s t) ∧ hqOf t c hd = some { q with entries := q.entries.drop got.length } ∧
        t.ops.getLast? = some o ∧ o.cls = .l ∧ o.idxs = present st ∧
        o.body = .result (some d.toNat) 1 (got.map (fun e => (e.1, [e.2.1]))) [] [] none ((present st).map (fun i => (i, got.any (fun e => e.1 == i)))) true ∧
        ∀ v, strandOf t st.sid = some v → v.pc = st.pc + 8 ∧ v.regs = st.regs ∧ v.qs = st.qs) ∧
    (Collective s st h.g (a.toNat :: srcRegs b) false true → roomFor s st .s false = true →
      let vals := ((opndVals st (srcOpnd b 1 false)).map (BitVec.ofNat 32)).take (2 ^ q.k - q.entries.length)
      let flags := (List.range (presentCount st)).map (fun k => decide (k < 2 ^ q.k - q.entries.length))
      stackable st (flags :: (List.range 7).map (qVals st)) →
      ∃ t, exec (.qpush h a b) s = .next t ∧
        (hqOf t c hd).map (fun x => x.entries.map (fun e => e.1)) = some (q.entries.map (fun e => e.1) ++ vals) ∧
        ∀ v, strandOf t st.sid = some v → v.pc = st.pc + BitVec.ofNat 64 (srcLen b) ∧ v.regs = st.regs ∧ qVals v 0 = flags ∧ ∀ k < 7, qVals v (k + 1) = qVals st k)

/-- FENCE (R191, R255): after what the strand has left has been performed, each present index in turn takes the action of the kind. A release records what the
index observes, at the scope; an acquire observes the released stores that it has read from; neither changes a byte of memory. -/
def Obligations.Fences : Prop :=
  ∀ (h : Hdr) (k : FenceKind) (sc : Scope) s st, Collective s st h.g [] false false →
    let S := scopeOf s st sc
    let s0 := if k = .acq then performLoads s st else releaseL1 st.core S (performLoads s st)
    let s1 := (present st).foldl (fenceStep k st sc) s0
    exec (.fence h k sc) s = .next (advance (if k = .rel then s1 else acquireL1 st.core S s1) st.sid 8) ∧
    (k = .rel → sameBytes s0 s1 ∧ ∀ i ∈ present st, ∃ r, relOf s1 st.lk i = some r ∧ r.scope = scopeOf s0 st sc ∧ r.set = obsOf s0 st.lk i) ∧
    (k = .acq → sameBytes s0 s1 ∧ ∀ i ∈ present st, (∀ id, observes s0 st.lk i id = true → observes s1 st.lk i id = true) ∧
      ∀ id ∈ readsOf s0 st.lk i, ∀ w r, s0.stores.find? (fun e => e.id == id) = some w → w.rel = some r → inScope r.scope st.lk i = true →
        writerIn s0 (scopeOf s0 st sc) w.writer = true → ∀ x ∈ r.set, observes s1 st.lk i x = true)

/-! ### Streams, the matrix unit, special registers, traps, LAUNCH and MOULT -/

/-- The stream instructions with a sound record (R155, R198, R200 to R205): FILL and DRAIN queue a command with the record as it stands, step RNEXT around the ring
and advance the box counter that b names; FILLW queues a command; ADV advances alone. DLD issues a load of the slot, and DST stores the slot as it stands, in eight stores.
That the caches are used at issue is the model's reading (log 8). -/
def Obligations.StreamInstructions : Prop :=
  ∀ (h : Hdr) (d : BitVec 5) (b : Src) (e : BitVec 2) (a k : R11) s st r s1, readSlot s st d.toNat = (r, s1) → (pendingSlots s st).contains d.toNat = false →
    let sc := scratchOf s1 st
    let len := srcLen b
    let queued := fun (kind : SeKind) (v : Word) =>
      queueCmd (addOp s1 st .c (present st) (.engine e.toNat) false).2 st s1.nextId kind r d.toNat v.toNat e.toNat
    let room := roomFor s1 st .c true = true ∧ (engineQ (coreOf s1 st.core) e.toNat).length < 32
    (Collective s st h.g (srcRegs b) true false → ∀ v, uSrc st b = some v →
      (recordCheck r sc true false = 0 → advCheck v = 0 → room →
        exec (.seFill h d b e) s = .next (advance (setSlot (queued .fill v) st d.toNat (advRec (stepRing r) v)) st.sid len)) ∧
      (recordCheck r sc true true = 0 → advCheck v = 0 → room →
        exec (.seDrain h d b e) s = .next (advance (setSlot (queued .drain v) st d.toNat (advRec (stepRing r) v)) st.sid len)) ∧
      (recordCheck r sc false false = 0 → v.toNat % 16 = 0 → v.toNat + imageSize r ≤ 524288 → room →
        exec (.seFillw h d b e) s = .next (advance (queued .fillw v) st.sid len)) ∧
      (recordCheck r sc false false = 0 → advCheck v = 0 → roomFor s1 st .c false = true →
        exec (.seAdv h d b e) s = .next (advance (setSlot s1 st d.toNat (advRec r v)) st.sid len))) ∧
    (Collective s st h.g [a.toNat, a.toNat + 1] true false → ∀ lo hi sp pa, uReg st a.toNat = some lo → uReg st (a.toNat + 1) = some hi →
      let va := ((lo.toNat + 2 ^ 32 * hi.toNat : Int) + k.toInt) % 2 ^ 64
      let s2 := dropRes s1 st.sid
      (accessOf s1 st va.toNat 64 false = .ok sp pa → roomFor s2 st .l true = true →
        let s3 := performSame (cacheUse st.core false 0 s2 [(0, sp, pa)]) st.lk sp pa 64 (present st)
        exec (.dld h d a k) s = .next (advance (addOp s3 st .l (present st) (.dld d.toNat sp pa va.toNat []) false).2 st.sid 8)) ∧
      (accessOf s1 st va.toNat 64 true = .ok sp pa → roomFor s2 st .s false = true →
        let s3 := cacheUse st.core false 64 s2 [(0, sp, pa)]
        exec (.dst h d a k) s = .next (advance (issueStores s3 st (present st) ((List.range 8).map (fun j =>
          ⟨present st, sp, pa + 8 * j, ((toBytes 64 r.toNat).drop (8 * j)).take 8, none⟩)) []) st.sid 8)))

/-- The box counters and the ring of a record (R201, R205, R211): RNEXT steps modulo RCNTM1 + 1; the named counter moves by the signed step modulo 2^16, and 0
advances nothing; the other fields of the record stay as they are. The offset of a walk and its step (R149): the offset is the sum of the coordinates times the strides, modulo
2^32; an unbound walk gives 0 and stays; in a bound one whose coordinates lie within their extents they count up with carry, and e says at which levels the
count came round. -/
def Obligations.RecordsAndWalks : Prop :=
  (∀ (r : LayoutBits) (b : Word),
    (∀ k < 512, (k < 487 ∨ 490 ≤ k) → (stepRing r).getLsbD k = r.getLsbD k) ∧ recRnext (stepRing r) = (recRnext r + 1) % (recRcntm1 r + 1) ∧
    advRec r 0 = r ∧
    (b ≠ 0 → advCheck b = 0 →
      let n := b.toNat % 8
      (∀ k < 512, (k < 368 + 16 * n ∨ 384 + 16 * n ≤ k) → (advRec r b).getLsbD k = r.getLsbD k) ∧
      recBc (advRec r b) n = (recBc r n + b.toNat / 2 ^ 16) % 2 ^ 16)) ∧
  ∀ (w : Walk), w.ext.length = 5 → w.str.length = 5 → w.c.length = 5 →
    (w.bound = false → walkOff w = (0, w)) ∧
    (w.bound = true → (∀ k < 5, 1 ≤ nth w.ext k 1 ∧ nth w.ext k 1 < 2 ^ 32 ∧ nth w.c k 0 < nth w.ext k 1) →
      let o := walkOff w
      let sum := (List.range 5).foldl (fun (a : Int) k => a + (nth w.c k 0 : Int) * (nth w.str k 0).toInt) 0
      o.1 = BitVec.ofInt 32 sum ∧ o.2.ext = w.ext ∧ o.2.str = w.str ∧ (∀ k < 5, nth o.2.c k 0 < nth w.ext k 1) ∧
      ∃ n ≤ 5, (∀ k < n, nth o.2.c k 0 = 0 ∧ nth o.2.e k false = true) ∧
        (∀ k < 5, n ≤ k → nth o.2.e k false = false ∧ nth o.2.c k 0 = nth w.c k 0 + if k = n then 1 else 0) ∧ ∀ k < n, nth w.c k 0 + 1 = nth w.ext k 1)

/-- The matrix instructions at issue (R211, R213 to R219): MLOOP with a sound record and format queues its command, tags its tile, and steps the ring and the
address in w where it is asked to; MFENCE performs the stores that the strand has left, and adds what it observes to what the team's MLOOPs observe; MWAIT goes on where no tile operation ordered before
it is outstanding, else blocks; MCLR and MRD queue their commands; SAFEPT goes on where no pre-emption of the team is pending.
That a register MRD passes R37 at issue is the model's reading (log 19). -/
def Obligations.MatrixInstructions : Prop :=
  ∀ (h : Hdr) (m : BitVec 3) (f d : R11) (w : Src) (slot : BitVec 5) (ks : BitVec 6) (incA incB : Bool) (r : Rnd) (blk : BitVec 6) (fm : MrdFmt) (sat : Bool)
      (mask : BitVec 8) s st,
    let team := st.team.getD 0
    (Collective s st h.g (f.toNat :: srcRegs w) true false → ∀ fv wv rec s1 tm, readSlot s st slot.toNat = (rec, s1) → (pendingSlots s st).contains slot.toNat = false →
      uReg st f.toNat = some fv → uSrc st w = some wv → recordCheck rec (scratchOf s1 st) true false = 0 → mloopCheck s1 st m.toNat fv wv rec ks.toNat = 0 →
      roomFor s1 st .t true = true → ((coreOf s1 st.core).mq.filter (fun c => match c with | .mloop .. => true | _ => false)).length < 8 →
      teamOf s1 st.lk team = some tm → tm.tiles.length = 8 → tm.layout.length = 32 → (∀ v, w = .reg v → unwatched s st [v.toNat]) →
      ∃ t tm' v, exec (.mloop h m f w slot ks incA incB) s = .next t ∧ sameBytes s1 t ∧ teamOf t st.lk team = some tm' ∧ (tileOf tm' m.toNat).tag = inTag (fmtIn fv) ∧
        (fmtIn fv = 1 → (tileOf tm' (m.toNat + 1)).tag = 3) ∧ (incA = true → nth tm'.layout slot.toNat 0 = stepRing rec) ∧
        (coreOf t st.core).mq.length = (coreOf s1 st.core).mq.length + 1 ∧ strandOf t st.sid = some v ∧ v.pc = st.pc + BitVec.ofNat 64 (srcLen w) ∧
        (∀ x, incB = true → w = .reg x → uReg v x.toNat = some (wv + BitVec.ofNat 32 (ks.toNat * bytesB fv))) ∧
        ∀ x, (incB = false ∨ w ≠ .reg x) → vform v x.toNat = vform st x.toNat) ∧
    (Collective s st h.g [] true false →
      let s0 := performStores s st
      let seen := obsUnion s0 st.lk (present st)
      exec (.mfence h) s = .next (advance (updTeam (drainWhere s0 st.core (fun e => e.space == .scr st.lk team && seen.contains e.id)) st.lk team
        (fun t => { t with fenced := seen.foldl insertNat t.fenced })) st.sid 8) ∧
      (inAcc s st m.toNat = true →
        (mwaitOps s st m.toNat = [] → exec (.mwait h m) s = .next (endRun (mwaitComplete s st m.toNat))) ∧
        (mwaitOps s st m.toNat ≠ [] → exec (.mwait h m) s = .next (endRun (blockOn s st.sid (.mwait m.toNat)))) ∧
        (roomFor s st .t true = true →
          let clash := clashAt s st [m.toNat] none
          exec (.mclr h m) s = .next (advance (queueTile (markClash s st [m.toNat] clash) st (.tile m.toNat false none 0)
            (fun oid => .mclr oid st.lk team m.toNat clash)) st.sid 8))) ∧
      ((∀ t, teamOf s st.lk team = some t → t.preempt = false) → exec (.safept h mask) s = .next (advance s st.sid 8))) ∧
    (Collective s st h.g (srcRegs w) true false → ∀ v, uSrc st w = some v → mrdCheck s st m.toNat = 0 → roomFor s st .t true = true →
      let n := 8 * mrdBits fm / 32
      let size := 64 * mrdBits fm
      (v = 0x80000000 → d.toNat + n ≤ 2048 → d.toNat + n ≤ budgetOf s st → mustWait s st (List.range' d.toNat n) false = false →
        exec (.mrd h d m w r blk fm sat) s = .next (mrdIssue s st m.toNat d.toNat r blk.toNat fm sat true 0 (srcLen w))) ∧
      (∀ sp a a', v.toNat < 2 ^ 31 → v.toNat % 16 = 0 → scratchAt s st v.toNat 1 = .ok sp a → scratchAt s st (v.toNat + size - 1) 1 = .ok sp a' →
        exec (.mrd h d m w r blk fm sat) s = .next (mrdIssue s st m.toNat d.toNat r blk.toNat fm sat false v.toNat (srcLen w))))

/-- SREAD gives the selected special register at each index where it acts (R225): the lanes, the index in its team, the team, the launch, the index, the first
index, the count, the team size, the teams of the grid, the rank in the gang, the gang's size, the role, the team's slot, the base of the spill pool, the features, the numeric
version, the task's registers, the time, the latched upper half of the time or, where the latch is empty, that of the counter (R227), the team's cycles, a walk's coordinates, an
accumulator's view, and the counters of the pseudo-channels, 0 without the profiling grant (R228). A read of the time latches its upper half; a read of a walk's offset moves the
walk on (R149). A strand that is not placed takes the placement cut first where the register exists for a placed team only, or differs among the teams that it spans (R226). -/
def Obligations.SpecialRegisters : Prop :=
  ∀ (h : Hdr) (d sel : R11) s st, Ready s st h.g [] [d.toNat] false →
    let vals := (sreadVals s st sel.toNat).1
    let st' := (sreadVals s st sel.toNat).2
    let all := fun (x : Nat) => vals = (present st).map (fun _ => BitVec.ofNat 32 x)
    let each := fun (f : Nat → Nat) => vals = (present st).map (fun i => BitVec.ofNat 32 (f i))
    let size := max 1 (tsizeOf s st.lk)
    let cut := st.team = none ∧ (sel = 0x0C ∨ sel = 0x22 ∨ ((sel = 0x01 ∨ sel = 0x02 ∨ sel = 0x09) ∧ ∃ i ∈ present st, i / size ≠ st.first / size))
    (guardU st h.g = some false → exec (.sread h d sel) s = .next (advance s st.sid 8)) ∧
    (guardU st h.g ≠ some false → cut → exec (.sread h d sel) s = .next (placementCut s st)) ∧
    (guardU st h.g ≠ some false → ¬cut → writable s st (columns st h.g d.toNat 1 (vals.map BitVec.toNat)) → unwatched s st [d.toNat] →
      ∃ u, exec (.sread h d sel) s = .next (putStrand s u) ∧ Wrote st' u h.g 8 d.toNat 1 (vals.map BitVec.toNat)) ∧
    (sel = 0x00 → all 64) ∧ (sel = 0x01 → each (· % size)) ∧ (sel = 0x02 → each (· / size)) ∧ (sel = 0x03 → all (launchId s st.lk)) ∧ (sel = 0x04 → each id) ∧
    (sel = 0x05 → all st.first) ∧ (sel = 0x06 → all st.count) ∧ (sel = 0x07 → all (tsizeOf s st.lk)) ∧ (sel = 0x08 → all ((gridOf s st.lk + size - 1) / size)) ∧
    (sel = 0x0B → all (match st.role with | .mx => 1 | .ep => 2 | .gn => 3)) ∧
    (sel = 0x20 → all s.time ∧ st' = { st with latch := some (BitVec.ofNat 32 (s.time / 2 ^ 32)) }) ∧
    (sel = 0x21 → (∀ x, st.latch = some x → all x.toNat) ∧ (st.latch = none → all (s.time / 2 ^ 32))) ∧
    (∀ l, launchOf s st.lk = some l → 0 < l.kernel.tsize →
      let w := l.kernel.gangm1 + 1
      ((∀ i ∈ present st, i < l.grid) → sel = 0x09 → each (fun i => i / size % w)) ∧
      (st.first < l.grid → sel = 0x0A → all (min w ((l.grid + size - 1) / size - st.first / size / w * w))) ∧
      (sel = 0x0D → all (l.spill % 2 ^ 32)) ∧ (sel = 0x0E → all (l.spill / 2 ^ 32)) ∧ (sel = 0x10 → all (l.features % 2 ^ 32)) ∧ (sel = 0x11 → all (l.features / 2 ^ 32)) ∧
      (sel = 0x12 → all l.numver) ∧
      (sel = 0x18 → all (match l.src with | .cont old _ => old.toNat | _ => 0)) ∧
      (sel = 0x19 → all (match l.src with | .cont _ a => a.toNat | .task a => a.toNat | _ => 0)) ∧
      (sel = 0x1A → all (match l.src with | .cont _ _ => 1 | .task _ => 2 | _ => 0)) ∧
      ∀ n < 1024, sel.toNat = 0x400 + n → all (if l.gprof then ((((s.bdies.find? (fun b => b.num == n / 64)).bind (fun b => alookup b.pch (n % 64))).getD 0)).toNat else 0)) ∧
    (∀ t, st.team.bind (teamOf s st.lk) = some t → (sel = 0x0C → all t.slot) ∧ (sel = 0x22 → all (t.charge / 1024))) ∧
    (∀ n < 16, ∀ k < 5, sel.toNat = 0x101 + 8 * n + k → all (nth (walkOf st n).c k 0)) ∧
    (∀ n < 8, sel.toNat = 0x180 + n → all (nth st.views n (0, 0)).1.toNat) ∧
    (∀ n < 16, sel.toNat = 0x100 + 8 * n → vals = (present st).map (fun _ => (walkOff (walkOf st n)).1) ∧ st' = { st with walks := st.walks.set n (walkOff (walkOf st n)).2 }) ∧
    (sel.toNat ≠ 0x20 → (∀ n < 16, sel.toNat ≠ 0x100 + 8 * n) → st' = st)

/-- TRAP stops the indices at which it acts, with its number in the INFO of the reports, and lets the others go on at PC + 8 (R229). BKPT does nothing but move on where no debugger is
attached or no index acts; else the indices that act halt before it (R230). CBRK arms comparator n of the team and gives d whether a debugger is attached
(R231); with condition 7 it disarms the comparator and reads no operand. Each completes. Strand identities are those that the machine gives out.
The number of the stop's ticket, one ticket for a set that is no range, and that CBRK writes d before it arms, are the model's choice (logs 5, 12 and 35). -/
def Obligations.SoftwareTraps : Prop :=
  (∀ (h : Hdr) (k : R11) s st, Ready s st h.g [] [] false → FreshIds s →
    let act := acting st h.g
    ∃ t, exec (.trap h k) s = .next t ∧
      (act = [] → t = advance s st.sid 8) ∧
      (act ≠ [] → ∃ sids, Stopped s t st.lk sids st.pc 10 0 ∧ Standing t st act (· ∈ sids) st.pc ∧
        Standing t st ((present st).filter (fun j => !act.contains j)) (· ∉ sids) (st.pc + 8) ∧
        Reported s t (ctxOfLaunch s st.lk) (stamped s (withNames { reportOf s st 10 0 with info := k.toNat } act)))) ∧
  (∀ (h : Hdr) (k : R11) s st, Ready s st h.g [] [] false → (∀ x ∈ s.strands, x.sid < s.nextId) →
    let act := acting st h.g
    ∃ t, exec (.bkpt h k) s = .next t ∧
      (act = [] ∨ attached s st.lk = false → t = advance s st.sid 8) ∧
      (act ≠ [] → attached s st.lk = true → t.cur = none ∧
        (∀ j ∈ act, ∃ u ∈ t.strands, j ∈ present u ∧ u.lk = st.lk ∧ u.pc = st.pc ∧ u.halted.isSome = true) ∧
        ∀ j ∈ present st, j ∉ act → ∃ u ∈ t.strands, j ∈ present u ∧ u.lk = st.lk ∧ u.pc = st.pc + 8 ∧ u.halted = st.halted)) ∧
  ∀ (h : Hdr) (d a : R11) (b : Src) (cond : BitVec 3) (every : Bool) (n : BitVec 2) s st,
    Collective s st h.g (if cond = 7 then [] else srcRegs b) true false → mustWait s st [d.toNat] false = false → unwatched s st [d.toNat] →
    ∀ v tm, (if cond = 7 then some 0 else uSrc st b) = some v → teamOf s st.lk (st.team.getD 0) = some tm → tm.cmps.length = 4 →
      ∃ t tm' u, exec (.cbrk h d a b cond every n) s = .next t ∧ strandOf t st.sid = some u ∧ u.pc = st.pc + BitVec.ofNat 64 (srcLen b) ∧
        uReg u d.toNat = some (if attached s st.lk then 1 else 0) ∧ (∀ r, r ≠ d.toNat → vform u r = vform st r) ∧ teamOf t st.lk (st.team.getD 0) = some tm' ∧
        (attached s st.lk = true → nth tm'.cmps n.toNat ⟨false, 0, false, 0, 0⟩ = ⟨decide (cond ≠ 7), cond.toNat, every, a.toNat, v⟩) ∧
        (attached s st.lk = false → tm' = tm)

/-- LAUNCH issues one operation of class s for the strand, with its task and its argument (R232). MOULT waits as WAITC 0, 0, 0, 0 does, and arrives: the strand is then blocked at its
own PC with the two operands, and the arrivals of its team are looked at (R235). While some index of the team has not arrived nothing follows. When all have: operands that differ
stop every arrived strand with the moult kind, and so does a failing check of the successor's shape; else the successor is to start (R236). -/
def Obligations.LaunchAndMoult : Prop :=
  (∀ (h : Hdr) (a : R11) (b : Src) s st x y, uReg st a.toNat = some x → uSrc st b = some y →
    let s1 := performLoads s st
    (Collective s st h.g (a.toNat :: srcRegs b) false false → roomFor s st .s true = true →
      exec (.launch h a b) s = .next (advance (addOp s1 st .s (present st) (.launch x y s.time) false).2 st.sid (srcLen b))) ∧
    (Collective s st h.g (a.toNat :: srcRegs b) true false →
      let s2 := addObs (putStrand s1 { takeViews s1 st (finishedSlots s1 st) with copied := [] }) st.lk (present st) st.copied
      (waitcMet s1 st 0 0 0 0 = true → undelivered s1 st = [] →
        exec (.moult h a b) s = .next (endRun (tryMoult (blockOn s2 st.sid (.moult x y (srcLen b))) st.lk (st.team.getD 0)))) ∧
      (waitcMet s1 st 0 0 0 0 = false → exec (.moult h a b) s = .next (endRun (blockOn s1 st.sid (.moultWait x y (srcLen b))))))) ∧
  ∀ s lk team t, teamOf s lk team = some t → t.moulting = none → t.preempt = false → t.saved = false →
    let arrived := atMoult s lk team
    let fails := fun (a : State) (n : Nat) => moultFail a arrived n
    (allAtMoult s lk team = false → tryMoult s lk team = s) ∧
    (allAtMoult s lk team = true →
      ((∃ e ∈ arrived, ∃ f ∈ arrived, e.2.1 ≠ f.2.1 ∨ e.2.2.1 ≠ f.2.2.1) → tryMoult s lk team = fails s 10) ∧
      ∀ e ∈ arrived, (∀ f ∈ arrived, f.2.1 = e.2.1 ∧ f.2.2.1 = e.2.2.1) →
        (∀ n s1, checkShape s lk team e.2.1 e.2.2.1 = (.inl n, s1) → tryMoult s lk team = fails s1 n) ∧
        (∀ k s1, checkShape s lk team e.2.1 e.2.2.1 = (.inr k, s1) → tryMoult s lk team = updTeam s1 lk team (fun t => { t with moulting := some (k, e.2.2.1) })))

/-! ### Events -/

/-- The events that end a wait, finish an operation, or keep the issue fair, where what they wait for has come (R33, R48, R50, R100, R150, R155 to R158, R177,
R216, R235, R237, R248, R310, R311): each completes. OPERATION_FINISH performs what an operation has left, all of it or a part, and delivers what is complete to every
strand that holds it; a strand goes on from the wait that it was in, be it for a granule, unless its team is stopped or saved, when it waits on (R192, R379). A run that has held its port for 64 cycles, or
whose next instruction has waited for 32, frees its port; two strands of one sheaf at one PC, neither in a run, merge. A moult gives its team the successor's kernel, layout slots, and
tiles; keeps of scratch what the word b names, as zeros and empty granules beyond; and starts each role's strands at their entries with the inherited registers, 0 in the others, false
entries, and no call, walk or enrolment (R237).
When each event is taken, which part of an operation is performed first, how issue slots pass, and what counts as an entry of the form file, are the model's choice (logs 1, 54 and 72). -/
def Obligations.WaitEvents : Prop :=
  (∀ s op o, s.badAddr = none → opOf s op = some o → o.done = false →
    let delivered := fun (a : State) => match opOf a op with | some x => deliverOp a x | none => a
    (∀ d n vals ps push pushes, o.body = .result d n vals ps [] none push pushes → exec (.operationFinish op) s =
      .next (landAll s o d n vals (ps.flatMap (fun i => (List.range n).map (fun k => (k, i)))) (if pushes then some push else none))) ∧
    (∀ d n vals ps l ls am push pushes, o.body = .result d n vals ps (l :: ls) am push pushes →
      exec (.operationFinish op) s = .next (delivered (finishLoads s op (l :: ls)))) ∧
    (∀ d n vals ps k ts push pushes, o.body = .result d n vals ps [] (some (k, ts)) push pushes →
      exec (.operationFinish op) s = .next (delivered (finishAtoms s op ts))) ∧
    (o.body = .stores [] → o.sets = [] → exec (.operationFinish op) s = .next (wakeJoins (endOp s op) o.lk)) ∧
    (o.body = .stores [] → o.sets ≠ [] → exec (.operationFinish op) s = .next (delivered (finishSets s o))) ∧
    (∀ t ts, o.body = .stores (t :: ts) → exec (.operationFinish op) s = .next (delivered (finishStores s o (t :: ts)))) ∧
    (∀ slot sp a va got, o.body = .dld slot sp a va got → exec (.operationFinish op) s = .next (delivered (finishLoads s op (dldLeft o))))) ∧
  (∀ s sid st, s.badAddr = none → strandOf s sid = some st →
    (st.halted = none → stopped s st = false →
      (∀ l n c t, st.status = .blocked (.waitc l n c t) → waitcMet s st l n c t = true → exec (.waitcSatisfied sid) s = .next (waitcComplete s st c)) ∧
      (∀ m, st.status = .blocked (.mwait m) → mwaitOps s st m = [] → exec (.mwaitSatisfied sid) s = .next (mwaitComplete s st m)) ∧
      (st.status = .blocked .exitWait → waitcMet s st 0 0 0 0 = true → exec (.exitWaitDone sid) s = .next (exitDone s st))) ∧
    (stopped s st = true → exec (.waitcSatisfied sid) s = .next s ∧ exec (.mwaitSatisfied sid) s = .next s ∧ exec (.exitWaitDone sid) s = .next s ∧
      exec (.granuleServe sid) s = .next s) ∧
    (∀ w, st.status = .blocked (.granule w) → stopped s st = false → exec (.granuleServe sid) s = .next (serveStrand s st w)) ∧
    (∀ n, st.status = .blocked (.yieldHold n) → n ≤ s.slots →
      ∃ t, exec (.yieldExpiry sid) s = .next t ∧ strandOf t sid = some { st with status := .ready } ∧ sameBytes s t ∧ elsewhere s t sid) ∧
    (st.status = .ready → st.stamp + 2048 ≤ s.slots →
      ∃ t, exec (.strandUrgent sid) s = .next t ∧ strandOf t sid = some { st with urgent := true } ∧ sameBytes s t ∧ elsewhere s t sid) ∧
    (st.status = .ready → st.benched = true → isUrgent st = true ∨ (∀ x ∈ s.strands, x.benched = true → isUrgent x = false) →
      (canSit s st = true → exec (.strandUnbench sid) s = .next (seat s st)) ∧
      (seatsFit (updStrand s sid (fun x => { x with benched := false })) st.core = true →
        ∃ t, exec (.strandUnbench sid) s = .next t ∧ strandOf t sid = some { st with benched := false } ∧ sameBytes s t ∧ elsewhere s t sid))) ∧
  (∀ s lk team k b, s.badAddr = none → (teamOf (tryMoult s lk team) lk team).bind (fun t => t.moulting) = some (k, b) → teamBusy (tryMoult s lk team) lk team = false →
    (∀ t, teamOf (tryMoult s lk team) lk team = some t → t.preempt = false ∧ t.saved = false) →
    (∀ x ∈ (tryMoult s lk team).strands, x.lk = lk → x.team = some team → x.halted = none) →
    exec (.moultSucceed lk team) s = .next (succeed (tryMoult s lk team) lk team k b)) ∧
  (∀ s lk team tm k b, teamOf s lk team = some tm → k.tsize = tm.kernel.tsize → tsizeOf s lk = k.tsize →
    let t := succeed s lk team k b
    let first := team * k.tsize
    let handed := fun (r : Nat) => inhFirst b ≤ r ∧ r < inhFirst b + inhCount b
    (∃ tm', teamOf t lk team = some tm' ∧ tm'.kernel = k ∧ tm'.moulting = none ∧ tm'.slot = tm.slot ∧ tm'.charge = tm.charge ∧
      (∀ d < 32, nth tm'.layout d 0 = (alookup k.layout d).getD 0) ∧ (∀ c ∈ tm'.cmps, c.armed = false) ∧
      (∀ m < 8, tileOf tm' m = if bitOf (inhAcc b) m then tileOf tm m else Tile.clear) ∧
      ∀ g, tm'.full.contains g = (tm.full.contains g && decide (g * 16 < inhScratch b))) ∧
    (∀ a, homeBytes t (.scr lk team) a 1 = if a < inhScratch b then homeBytes s (.scr lk team) a 1 else [0]) ∧
    (∀ r ∈ k.roles, ∀ i, first + 64 * r.firstw ≤ i → i < first + 64 * (r.firstw + r.countw) → i < first + teamCount s lk team →
      ∃ u ∈ t.strands, u.lk = lk ∧ u.team = some team ∧ u.role = r.role ∧ i ∈ present u ∧ u.pc = BitVec.ofNat 64 (entryPc k r) ∧ u.calls = [] ∧
        u.enrol = List.replicate 16 0 ∧ (∀ w < 16, (walkOf u w).bound = false) ∧ (∀ q < 8, entryAt u q i = some false) ∧
        (∀ v, ¬handed v → valueAt u v i = some 0) ∧
        ∀ o ∈ s.strands, o.lk = lk → o.team = some team → o.husk = [] → i ∈ present o → (∀ x ∈ s.strands, x.lk = lk → i ∈ present x → x = o) →
          ∀ v, handed v → valueAt u v i = valueAt o v i)) ∧
  (∀ s core part port r, s.badAddr = none → nth (partOf s core part).ports port none = some r →
    (r.slots + 128 ≤ s.slots ∨ ∃ w, r.waits = some w ∧ w + 64 ≤ s.slots) →
    ∃ t, exec (.runLimit core part port) s = .next t ∧ sameBytes s t ∧ nth (partOf t core part).ports port none = none ∧
      ∀ st, strandOf s r.sid = some st → st.status = .ready → strandOf t r.sid = some { st with stamp := s.slots, urgent := false }) ∧
  ∀ s a b x y m, s.badAddr = none → a ≠ b → strandOf s a = some x → strandOf s b = some y → x.first ≤ y.first → x.lk = y.lk → x.team = y.team →
    x.mask.isSome = true → y.mask.isSome = true → x.first / 64 = y.first / 64 → x.status = .ready → y.status = .ready → x.pc = y.pc → x.halted = none → y.halted = none →
    x.undef = y.undef → x.role = y.role → x.replay = none → y.replay = none → inRun s x = false → inRun s y = false → stopped s x = false → outstanding s x = [] → outstanding s y = [] →
    tryMerge (budgetOf s x) ((x.regs ++ y.regs).foldl (fun acc e => insertNat acc e.1) []) x.undef x y = .ok m →
    exec (.opportunisticMerge a b) s = .next (dropStrand (putStrand s m) b)

/-- The steps of the stream engines and of the matrix unit (R201 to R203, R207, R211, R217, R219): each completes. A command at the head of its engine's queue starts with the
drain of what its indices had released (R259, R335); once it has started, where the granules stand as it needs them, no page is missing and every reply of an encrypted unit
has come, a step that moves all of it ends it, and it leaves the queue. FILL and FILLW write the converted element, 0 where it is out of range, at its place in the image or in the
weight buffer, and the last one fills the granules; DRAIN reads its image from scratch, then writes each element at its address (R201 to R203). A page request that Mboelaor has
answered holds its command back no more. The first MLOOP of a core adds to each element the products of row and column (R77, R211), MCLR clears, and MRD gives each element rounded
once, to registers or to scratch (R79, R219); each leaves its queue.
In seedling service no matrix unit runs (R368).
When each step of a unit is taken, how much of a command a step moves, by which bound the sum of one MLOOP is held, and that the queue waits in seedling service are the model's choice
(logs 1, 33 and 110). -/
def Obligations.UnitEvents : Prop :=
  (∀ s core e cmd rest, s.badAddr = none → engineQ (coreOf s core) e = cmd :: rest → cmd.waiting = none →
    let sp : Space := .scr cmd.lk cmd.team
    let image := ringStart cmd.record (recRnext cmd.record)
    let starts := fun (kind : SeKind) (store full : Bool) (i : Instr) =>
      cmd.kind = kind → cmd.prog = none → recFeu cmd.record = true → allGranules s cmd.lk cmd.team (imageGranules cmd) full = false →
        ∃ t, exec i s = .next t ∧ (∀ x ∈ t.stores, x.id ∈ cmd.rels → x.buf ≠ some core) ∧
          ((engineQ (coreOf t core) e).head?).any (fun c => c.prog.isSome && c.key == readKey s cmd.ctx (recKey cmd.record) store) = true
    let goes := fun (kind : SeKind) (full : Bool) (p : SeProg) => cmd.kind = kind ∧ cmd.prog = some p ∧
      (p.writing = true ∨ p.left.length < boxCount cmd.record ∨ recFeu cmd.record = false ∨ kind = .fillw ∨ allGranules s cmd.lk cmd.team (imageGranules cmd) full = true)
    let ends := fun (kind : SeKind) (store full : Bool) (i : Instr) => ∀ p, goes kind full p → s.choices = [] →
        (∀ n < boxCount cmd.record, ∀ q, (elemOf s core cmd store n).acc ≠ some (.miss q) ∧ (elemOf s core cmd store n).acc ≠ some (.bad q)) → (∀ n ∈ p.left, n < boxCount cmd.record) →
        (∀ n < boxCount cmd.record, ∀ sp a k, (elemOf s core cmd store n).acc = some (.ok sp a k) → k ≠ 0 → (kind = .drain → p.writing = true) ∧ n ∈ p.sent ∧ unitAway s core e n = false) →
        ∃ t, exec i s = .next t ∧ engineQ (coreOf t core) e = rest
    let found := fun (n : Nat) => match (elemOf s core cmd false n).acc with
      | none => some (List.replicate (recEszOut cmd.record) 0)
      | some (.ok sp a 0) => if homePoison s sp a (recEsz cmd.record) then none else some (convertIn (recConv cmd.record) (homeBytes s sp a (recEsz cmd.record)))
      | _ => none
    starts .fill false false (.engineFill core e) ∧ starts .drain true true (.engineDrain core e) ∧
    ends .fill false false (.engineFill core e) ∧ ends .drain true true (.engineDrain core e) ∧ ends .fillw false false (.engineFillw core e) ∧
    (memoriesCanonical s → (teamOf s cmd.lk cmd.team).isSome = true → s.choices = [] → ∀ p n bs, p.left = [n] → found n = some bs →
      (goes .fill false p → ∃ t, exec (.engineFill core e) s = .next t ∧ homeBytes t sp (image + recEszOut cmd.record * n) bs.length = bs ∧
        sameBytesBut s t sp (image + recEszOut cmd.record * n) bs.length ∧
        (recFeu cmd.record = true → p.fault = none → ∀ g ∈ imageGranules cmd, granFull t cmd.lk cmd.team g = true)) ∧
      (goes .fillw false p → ∃ t, exec (.engineFillw core e) s = .next t ∧ sameBytes s t ∧ memGets (coreOf t core).wbuf (cmd.woff + recEszOut cmd.record * n) bs.length = bs)) ∧
    (∀ p n m left, goes .drain true p → p.writing = false → p.left = n :: m :: left → m ≠ n → s.choices = [1] →
      (bufferOf s core).filter (meets sp (image + recEsz cmd.record * n) (recEsz cmd.record)) = [] →
      ∃ t c q, exec (.engineDrain core e) s = .next t ∧ sameBytes s t ∧ engineQ (coreOf t core) e = c :: rest ∧ c.prog = some q ∧ q.writing = false ∧
        q.left = p.left.filter (fun k => k != n) ∧
        (q.image.getLast?).map (fun x => (x.1, x.2.1)) = some (n, homeBytes s sp (image + recEsz cmd.record * n) (recEsz cmd.record))) ∧
    (memoriesCanonical s → s.choices = [] → ∀ p n bs dest a, goes .drain true p → p.writing = true → p.left = [n] → alookup p.image n = some (bs, false) →
      (elemOf s core cmd true n).acc = some (.ok dest a 0) →
      ∃ t, exec (.engineDrain core e) s = .next t ∧ homeBytes t dest a bs.length = bs ∧ sameBytesBut s t dest a bs.length ∧ engineQ (coreOf t core) e = rest)) ∧
  (∀ s core e ok cmd rest page, s.badAddr = none → engineQ (coreOf s core) e = cmd :: rest → cmd.waiting = some (page, .service) →
    (∀ r ∈ s.priReqs, ¬(r.ctx = cmd.ctx ∧ r.page = page)) →
    exec (.enginePageServiced core e ok) s = .next (setHead (if ok then makeResident s cmd.ctx page else s) core e (fun c =>
      { c with waiting := none, answers := if ok then aerase c.answers page else c.answers }))) ∧
  (∀ s core oid lk team m f w r d k seen clash rest, s.badAddr = none → s.sec.boot ≠ .seedling → (coreOf s core).mq = .mloop oid lk team m f w r d k seen clash :: rest →
    (fmtTake f = true → allGranules s lk team (regionA r k) true = true) →
    ∃ t, exec (.matrixMloopExec core) s = .next t ∧ (∀ c ∈ (coreOf t core).mq, ∀ l u m f w r d k seen clash, c ≠ .mloop oid l u m f w r d k seen clash) ∧
      let taken := if fmtTake f then (s.gsets.filter (fun g => g.lk == lk && g.team == team && (regionA r k).contains g.gran)).flatMap (fun g => g.rel.set) else []
      let s1 := drainWhere s core (fun x => x.space == .scr lk team && taken.contains x.id)
      let obs := taken.foldl insertNat seen
      let wide := decide (fmtIn f = 1)
      let q := decide (fmtIn f ≤ 1)
      let width := if wide then 256 else 128
      ∀ tm, teamOf s1 lk team = some tm → tm.tiles.length = 8 → m + (if wide then 1 else 0) < 8 → clash = false → undefElems (tileOf tm m) = [] →
        (wide = true → undefElems (tileOf tm (m + 1)) = []) →
        ∃ tm', teamOf t lk team = some tm' ∧ ∀ e < 4096,
          let pairs := (List.range k).flatMap (fun j => (List.range (inK (fmtIn f))).map (fun i =>
            (readA s1 lk team obs (fmtIn f) (ringStart r (recRnext r) + e / 64 * 48 * k + (j * inK (fmtIn f) + i) * inSize (fmtIn f)), readB (coreOf s1 core) obs f w j i (e % 64))))
          let old := accBits (tileOf tm m) (tileOf tm (m + 1)) wide e
          let new := accBits (tileOf tm' m) (tileOf tm' (m + 1)) wide e
          let products := pairs.map (fun p => p.1.val.getD 0 * p.2.val.getD 0)
          let nar := 2 ^ (width - 1)
          (∀ p ∈ pairs, p.1.seen = true ∧ p.2.seen = true) →
          (q = true → (old = nar ∨ ∃ p ∈ pairs, p.1.val = none ∨ p.2.val = none) → new = nar ∧ e ∉ undefElems (tileOf tm' m)) ∧
          ((∀ p ∈ pairs, p.1.val ≠ none ∧ p.2.val ≠ none) →
            (q = true → old ≠ nar ∧ signed width old + (products.filter (fun x => decide (0 ≤ x))).sum < (nar : Int) ∧ -(nar : Int) < signed width old + (products.filter (fun x => decide (x < 0))).sum) →
            new = wrapTo width (signed width old + products.sum) ∧ e ∉ undefElems (tileOf tm' m))) ∧
  (∀ s c core oid lk team m clash, s.badAddr = none → s.sec.boot ≠ .seedling → s.cores = [c] → c.num = core → c.mq = [.mclr oid lk team m clash] →
    exec (.mclrDone oid) s = .next (finishMx (updTile s lk team m (fun _ => { Tile.clear with undef := clash })) core oid none)) ∧
  ∀ s c core oid lk team m r b f sat reg a clash o, s.badAddr = none → s.sec.boot ≠ .seedling → s.cores = [c] → c.num = core → c.mq = [.mrd oid lk team m r b f sat reg a clash] → opOf s oid = some o →
    ∃ t, exec (.mrdReadoutDone oid) s = .next t ∧ (reg = none → (coreOf t core).mq = []) ∧
      ∀ tm, teamOf s lk team = some tm → clash = false →
        let lo := tileOf tm m
        let hi := tileOf tm (m + 1)
        let wide := lo.tag == 2
        undefElems lo = [] → lo.pois = [] → (wide = true → undefElems hi = [] ∧ hi.pois = []) →
        let width := if wide then 256 else 128
        let frac : Int := match lo.tag with | 1 => 48 | 2 => 112 | _ => 0
        let bits := mrdBits f
        let read := fun (x : Nat) =>
          let nar := lo.tag ≠ 4 ∧ x = 2 ^ (width - 1)
          let v : RVal := if nar then .nan else .fin (decide (signed width x < 0)) (signed width x).natAbs (-frac)
          let int := fun (n : Nat) =>
            let z := roundInt r (decide (signed width x < 0)) (signed width x).natAbs (-frac)
            if nar then 0 else ((if sat then max (intMin true n) (min (intMax true n) z) else z) % 2 ^ n).toNat
          if lo.tag = 0 then 0
          else match f with
            | .t8 => roundTapered 8 v | .t16 => roundTapered 16 v | .t32 => roundTapered 32 v
            | .f32 => roundBin 23 r v | .bf16 => roundBin 7 r v
            | .i32 => int 32 | .i8 => int 8
        let elem := fun (row col : Nat) => read (accBits lo hi wide ((8 * b + row) * 64 + col))
        (∀ d, reg = some d →
          let done := landAll { s with nfree := s.nfree + 8192 } o (some d) (bits / 4) (o.idxs.map (fun i => (i, (List.range (bits / 4)).map (fun j =>
            BitVec.ofNat 32 (joinElems bits (32 / bits) (fun e => elem (32 / bits * j + e) (i % 64))))))) [] none
          t = if (opOf done oid).isSome then done else finishMx done core oid none) ∧
        (reg = none → memoriesCanonical s →
          let own := decide (a + 64 * bits ≤ tm.kernel.scratch)
          let owner := if own then team else nth (gangTeams s lk team) ((a - 0x1000000) / 0x40000) team
          let off := if own then a else (a - 0x1000000) % 0x40000
          (teamOf s lk owner).isSome = true →
          homeBytes t (.scr lk owner) off (64 * bits) = (List.range 512).flatMap (fun k => toBytes (bits / 8) (elem (k / 64) (k % 64))) ∧
            ∀ g ∈ granules off (64 * bits), granFull t lk owner g = true)

/-- The dispatcher and the launch unit (R261, R295 to R303, R307, R308, R345, R346): a pass of a die's dispatcher visits its classes from the highest; a KICK within the
ring moves the tail and takes the new records, and the stores of the context's host agents stand at their home by then; of the completion records that wait, one event writes the oldest, 32 bytes with
the time of the write, where its ring has room, and the others wait on; a launch completes when its last strand and operation are gone; a continuation and a task are taken while there is room for
another launch, and what a task's release covers drains from the cores that hold its indices then.
The order in which a pass begins launches, the reading of a bad ring slot, and when each event is taken are the model's choice (logs 1, 36, 37 and 38). -/
def Obligations.SchedulerEvents : Prop :=
  ∀ s, s.badAddr = none →
    (∀ die, dieRuns s die = true →
      exec (.dispatchPass die) s = .next ([3, 2, 1, 0].foldl (fun (acc : Bool × State) p => if acc.1 then acc else visitClass acc.2 die p)
        (false, dropDead (beginLaunches s die))).2) ∧
    (∀ q tail u, s.userqs.find? (fun u => u.q == q) = some u → u.stopped = false →
      let adv := (tail.toNat + 2 ^ 32 - u.tail) % 2 ^ 32
      let s1 := drainHost s u.ctx
      0 < adv → adv < 2 ^ 31 → (tail.toNat + 2 ^ 32 - u.head) % 2 ^ 32 ≤ 2 ^ u.k →
      exec (.kick q tail) s = .next (takeRecords q adv { s1 with userqs := updWhere (fun u => u.q == q) (fun u => { u with tail := tail.toNat }) s1.userqs }) ∧
        s1.userqs = s.userqs) ∧
    (∀ q n, ∃ t, exec (.cdone q n) s = .next t ∧ sameBytes s t ∧ t.strands = s.strands ∧
      ∀ u, s.userqs.find? (fun u => u.q == q) = some u → t.userqs.find? (fun u => u.q == q) = some { u with cdone := n.toNat }) ∧
    (∀ q u r rest, s.userqs.find? (fun u => u.q == q) = some u → u.waiting = r :: rest → (u.cnext + 2 ^ 32 - u.cdone) % 2 ^ 32 < 2 ^ u.k →
      let va := u.cring + 32 * (u.cnext % 2 ^ u.k)
      let b := bringIn s u.ctx va 32
      ∃ t, exec (.completionWrite q) s = .next t ∧
        t.userqs.find? (fun u => u.q == q) = some { u with waiting := rest, cnext := (u.cnext + 1) % 2 ^ 32 } ∧
        ∀ sp pa, memoriesCanonical b → u.cring % 32 = 0 → r.id < 2 ^ 32 → r.status < 256 → vTrans b u.ctx va = some (sp, pa, true) →
          homeBytes t sp pa 32 = toBytes 4 r.utag ++ toBytes 4 r.id ++ toBytes 1 r.status ++ toBytes 3 ((u.cnext / 2 ^ u.k + 1) % 2) ++
            toBytes 4 (min r.faults (2 ^ 32 - 1)) ++ toBytes 8 r.tstart ++ toBytes 8 s.time ∧
          sameBytesBut b t sp pa 32) ∧
    (∀ q u, s.userqs.find? (fun u => u.q == q) = some u → u.waiting = [] ∨ 2 ^ u.k ≤ (u.cnext + 2 ^ 32 - u.cdone) % 2 ^ 32 → exec (.completionWrite q) s = .next s) ∧
    (∀ lk l, launchOf s lk = some l → launchEnded s l = true →
      ∃ t l', exec (.launchComplete lk) s = .next t ∧ launchOf t lk = some l' ∧ l'.complete = true ∧ l'.tend = s.time ∧
        (∀ x ∈ t.teams, x.lk ≠ lk) ∧ (∀ x ∈ t.gangs, x.lk ≠ lk) ∧ (∀ x ∈ t.ops, x.lk ≠ lk) ∧ t.strands = s.strands) ∧
    (∀ b e rest, (bdieOf s b).contq = e :: rest → intakeRoom s = true →
      exec (.continuationTake b) s = .next (takeTask (putBdie s { bdieOf s b with contq := rest }) e.ctx e.oid e.task (.cont e.old e.arg) e.addr e.old.toNat e.pc e.t0 e.acq)) ∧
    (∀ op o task arg t0, opOf s op = some o → o.body = .launch task arg t0 → o.done = false → intakeRoom s = true →
      let r : RelRec := ⟨obsUnion s o.lk o.idxs, scopeAt s o.lk o.team o.core .dev⟩
      exec (.launchIntake op) s =
        .next (wakeJoins (endOp (takeTask ((coresNow s o).foldl (fun a c => publish a c r) s) (ctxOfLaunch s o.lk) op task (.task arg) 0 arg.toNat o.pc.toNat t0 r.set) op) o.lk))

/-- Packets, drains, swaps and translation (R181, R182, R247, R250, R274, R275, R282 to R285, R327 to R333): an RD packet answers with the bytes of its lines, and a WR
packet changes the bytes that its mask names and no others; one that a slice of the machine has sent is served; a B-die performs the atomics of a packet on its line; a
drain puts the entry's bytes at its home and nothing else, and the stores of a host agent enter its buffer in their order; a swap changes no byte, and a SWP that starts one is answered when it is complete; an invalidation leaves no
translation of its range; a walk, an ATS answer and an answered page request let the strands that waited for them go on.
When each event is taken, where host pages are kept, the answers to SWP of slot 3 and of one that would move a page in seedling service, and what follows a page request that fails are the model's choice (logs 1, 18, 42, 60, 64, 80 and 81). -/
def Obligations.MemorySideEvents : Prop :=
  ∀ s, s.badAddr = none →
    (∀ slice tag pa wide, pa < Config.deviceBytes → packetOf s slice tag pa (fun k => match k with | .rd => true | .engine _ _ w => !w | _ => false) = none →
      (∀ l ∈ packetLines pa wide, l ∉ s.memPois ∧ ∀ p ∈ s.packets, l ∉ p.lines) →
      ∃ t, exec (.rdPacket slice tag pa wide 0) s = .next t ∧ sameBytes s t ∧
        t.out = s.out ++ [.text "RD reply: data" (tag.toNat :: ((packetLines pa wide).flatMap (fun l => memGets s.mem (l * 64) 64)).map (fun b => b.toNat))]) ∧
    (∀ slice tag pa mask data, memoriesCanonical s → pa < Config.deviceBytes → packetOf s slice tag pa (fun k => match k with | .wr _ => true | .engine _ _ w => w | _ => false) = none →
      (∀ l ∈ packetLines pa (decide (64 < data.length)), ∀ p ∈ s.packets, l ∉ p.lines) → mask.length = data.length →
      let base := if 64 < data.length then pa / 256 * 256 else pa / 64 * 64
      ∃ t, exec (.wrPacket slice tag pa mask data 0) s = .next t ∧ t.out = s.out ++ [.text "WR acknowledged" [tag.toNat]] ∧
        (∀ k < data.length, nth mask k false = true → homeBytes t .dev (base + k) 1 = [nth data k 0]) ∧
        ∀ sp a, (∀ k < data.length, nth mask k false = true → ¬(sp = .dev ∧ a = base + k)) → homeBytes t sp a 1 = homeBytes s sp a 1) ∧
    (∀ slice (tag : BitVec 10) pa p, pa < Config.deviceBytes → p ∈ s.packets → servable s p = true → p.slice = slice → p.tag = some tag.toNat → p.pa = pa →
      (packetOf s slice tag pa (fun k => match k with | .rd => true | .engine _ _ w => !w | _ => false) = some p → ∀ wide key, ∃ t, exec (.rdPacket slice tag pa wide key) s = .next t ∧ sameBytes s t ∧
        t.packets = (closePacket s p).packets ∧ t.out = s.out) ∧
      (packetOf s slice tag pa (fun k => match k with | .wr _ => true | .engine _ _ w => w | _ => false) = some p → ∀ mask data key, ∃ t, exec (.wrPacket slice tag pa mask data key) s = .next t ∧
        sameBytes s t ∧ t.packets = (closePacket s p).packets ∧ t.out = s.out)) ∧
    (∀ op p m o d n vals ps ls k ts pu q, s.packets.find? (fun p => match p.kind with | .atom o _ => o == op | _ => false) = some p → p.kind = .atom op m → servable s p = true →
      opOf s op = some o → o.body = .result d n vals ps ls (some (k, ts)) pu q → (∀ x ∈ ts, x.space = .dev ∧ x.addr / 64 = p.pa / 64) →
      (k ≠ .atc →
        let r := performAts s o.lk o.core k ts
        exec (.atPacket op) s = .next (l2Back p.slice (closePacket (updOp r.2.2 op (fun o =>
          { o with body := .result d n (vals ++ r.1) (ps ++ r.2.1) ls none pu q })) p) (p.pa / 64))) ∧
      (k = .atc → ∃ t o' rs, exec (.atcPacket op) s = .next t ∧ opOf t op = some o' ∧ o'.body = .cont (some rs) ∧
        rs.map (fun e => e.1) = pu.map (fun e => e.1) ++ ts.map (fun x => x.idx))) ∧
    (∀ b (tag : BitVec 10) g slot pin,
      ((remapOf (bdieOf s b) g).busy = true ∨ 2 < slot ∨ (s.sec.boot = .seedling ∧ (remapOf (bdieOf s b) g).fast ≠ slot) → exec (.swpPacket b tag g slot pin) s = .next { s with out := s.out ++ [.text "SWP busy" [tag.toNat]] }) ∧
      ((remapOf (bdieOf s b) g).busy = false → slot ≤ 2 → (s.sec.boot ≠ .seedling ∨ (remapOf (bdieOf s b) g).fast = slot) →
        ∃ t, exec (.swpPacket b tag g slot pin) s = .next t ∧ sameBytes s t ∧ (remapOf (bdieOf t b) g).pin = pin ∧
          ((remapOf (bdieOf s b) g).fast = slot → t.out = s.out ++ [.text "SWP done" [tag.toNat]] ∧ (remapOf (bdieOf t b) g).busy = false) ∧
          ((remapOf (bdieOf s b) g).fast ≠ slot → t.out = s.out ∧ (remapOf (bdieOf t b) g).busy = true ∧ ⟨g, slot, some tag.toNat⟩ ∈ (bdieOf t b).swaps))) ∧
    (∀ b g w, (bdieOf s b).swaps.find? (fun w => w.group == g) = some w →
      ∃ t, exec (.swapComplete b g) s = .next t ∧ sameBytes s t ∧ (remapOf (bdieOf t b) g).fast = w.slot ∧ (remapOf (bdieOf t b) g).busy = false ∧
        t.out = s.out ++ w.reply.toList.map (fun n => .text "SWP done" [n]) ∧ ∀ w ∈ (bdieOf t b).swaps, w.group ≠ g) ∧
    (∀ b, (bdieOf s b).epochEnd ≤ s.time → ((bdieOf s b).remap.map (fun r => r.group)).Nodup →
      ∃ t, exec (.swapEpoch b) s = .next t ∧ sameBytes s t ∧ (bdieOf t b).epochEnd = s.time + 1000 * max 1 (field (bdieOf s b).swpctl 16 16) ∧
        ∀ g, (remapOf (bdieOf t b) g).cnt = (remapOf (bdieOf s b) g).cnt.map (· / 2)) ∧
    (∀ id h, s.hostStores.find? (fun h => h.id == id) = some h →
      (s.hostStores.find? (fun x => x.ctx == h.ctx && x.agent == h.agent) = some h → exec (.bufferDrain id) s = .next (enterHostStore s h)) ∧
      (s.hostStores.find? (fun x => x.ctx == h.ctx && x.agent == h.agent) ≠ some h → exec (.bufferDrain id) s = .next s)) ∧
    (∀ id e, memoriesCanonical s → s.hostStores.find? (fun h => h.id == id) = none → s.stores.find? (fun x => x.id == id) = some e → canDrain s e = true →
      (∀ l u, e.space = .scr l u → (teamOf s l u).isSome = true) →
      ∃ t, exec (.bufferDrain id) s = .next t ∧ homeBytes t e.space e.addr e.bytes.length = e.bytes ∧ sameBytesBut s t e.space e.addr e.bytes.length ∧
        t.strands = s.strands ∧ ∀ x ∈ t.stores, x.id = id → x.buf = none) ∧
    (∀ die c page q t s1, s.walkReqs.find? (fun r => r.die == die && r.ctx == c && r.page == page) = some q →
      engineWalk { s with walkReqs := s.walkReqs.filter (fun r => !(r.die == die && r.ctx == c && r.page == page)) } die c (page * 4096) = (.ok t, s1) → t.host = false →
      let s2 := q.cores.foldl (fun a k => tlbInsert a k c (page * 4096) t) s1
      exec (.tableWalkDone die c page) s = .next (answerEngines (answerWalk s2 q.sids page (.ok t)) c page (atWalk die page) (.ok t))) ∧
    (∀ die c va, (∀ e ∈ s.walkCache, ¬(e.die = die ∧ e.ctx = c)) → (engineWalk s die c va).1 = walk s c va) ∧
    (∀ die c lo hi, exec (.invalidate die c lo hi) s = .next { s with invals := s.invals ++ [⟨die, c, lo, hi, none⟩] }) ∧
    (∀ die i, s.invals.find? (fun i => i.die == die) = some i →
      ∃ t, exec (.invalidateComplete die) s = .next t ∧ t.invals = s.invals.erase i ∧
        (i.req = none → t.out = s.out ++ [.text "invalidate complete" [die, i.ctx, i.lo, i.hi]]) ∧
        (i.req ≠ none → ∀ q ∈ t.atsInvals, ∃ x ∈ t.invals, x.req = some q.id) ∧
        ∀ k ∈ t.cores, dieOfCore k.num = die → ∀ e ∈ k.tlb, entryMeets i.ctx i.lo i.hi e = false) ∧
    (∀ c page ans q, s.atsReqs.find? (fun r => r.ctx == c && r.page == page) = some q →
      ∃ t, exec (.atsCompletion c page ans) s = .next t ∧ sameBytes s t ∧ (∀ r ∈ t.atsReqs, ¬(r.ctx = c ∧ r.page = page)) ∧
        ∀ st, strandOf s st.sid = some st → st.sid ∈ q.sids → st.status = .blocked (.ats page) → ∃ u, strandOf t st.sid = some u ∧ u.status = .ready ∧ u.pc = st.pc) ∧
    (∀ pasid va size, s.atsInvals.length < 32 → ∃ t, exec (.atsInvalidateRequest pasid va size) s = .next t ∧ sameBytes s t ∧ t.invals = s.invals ++
      ((s.ctxs.filter (fun c => c.valid && c.pasid == pasid)).map (fun c => c.num)).flatMap (fun c => (List.range Config.dies).map (fun d =>
        ⟨d, c, va, va + size - 1, some s.nextId⟩))) ∧
    (∀ c page code, (sentPages s).any (fun r => r.ctx == c && r.page == page) = true →
      let s1 := { s with priReqs := s.priReqs.filter (fun r => !(r.ctx == c && r.page == page)) }
      let served := fun (ok : Bool) (a : State) => mapCmds a (fun _ cmd => cmd.ctx == c && cmd.waiting == some (page, .service)) (servedCmd page ok)
      let moves := (stopsAt s1 c page).any (fun t => t.cause == 5) ||
        s1.cores.any (fun k => k.engines.any (fun q => q.any (fun cmd => cmd.ctx == c && cmd.waiting == some (page, .service) && (match alookup cmd.answers page with
          | some (.fault 5 _) => true | _ => false))))
      let r := freeBool (served false s1)
      exec (.priResponse c page code) s = .next (if code = .success then (stopsAt s1 c page).foldl (serveStop .resume) (served true (if moves then migratePage s1 c page else s1))
        else if r.1 then (stopsAt r.2 c page).foldl (serveStop .kill) r.2 else r.2))

/-- The control program's registers for stops, the other control registers, and pre-emption (R220, R221, R279, R283, R301, R316, R340, R341, R378 to R381, R401):
STOP_SELECT chooses a stop by its ticket and context; RESUME runs the parked strand again, from its PC after a precise trap; SKIP passes the instruction, and is refused
for a fetch fault; KILL retires what is parked, closes the stop, and makes the launch's status 2; WRITE gives a register of what is parked its value, in U form; for a strand of a saved team each takes effect when the team is restored.
SWPCTL's EN is set in full service alone; the configuration of a queue reads back as it was written, its reserved bits as 0, and the deficit stays.
The tickets, the status bits of the last action, and the seat of a restored team are the model's choice (logs 5, 20 and 61). -/
def Obligations.StopsAndControl : Prop :=
  ∀ s, s.badAddr = none →
    (∀ w : DWord, exec (.stopSelect w) s = .next { s with selTicket := w.toNat % 2 ^ 32, selCtx := w.toNat / 2 ^ 32 % 2 ^ 12 }) ∧
    (∀ x, s.stops.find? (fun t => t.ticket == s.selTicket && t.ctx == s.selCtx && selectable t) = some x →
      let s0 := { s with stopNone := false }
      let saved := ∃ st ∈ piecesOf s x, ∃ t y, st.team = some t ∧ teamOf s st.lk t = some y ∧ y.saved = true
      let later := fun (a : StopAct) => { updStop s0 x (fun x => { x with deferred := x.deferred ++ [a] }) with stopRefused := false }
      (¬saved →
        (exec .resume s = .next { resumeStop s0 x with stopRefused := false }) ∧
        (x.kind ≠ 2 → exec .skip s = .next { skipStop s0 x with stopRefused := false }) ∧
        (exec .kill s = .next { killStop s0 x with stopRefused := false }) ∧
        ∀ reg v, exec (.write reg v) s = .next { writeStop s0 x reg v with stopRefused := false }) ∧
      (saved →
        (exec .resume s = .next (later .resume)) ∧ (x.kind ≠ 2 → exec .skip s = .next (later .skip)) ∧
        (exec .kill s = .next (later .kill)) ∧ ∀ reg v, exec (.write reg v) s = .next (later (.write reg v))) ∧
      (x.kind = 2 → exec .skip s = .next { s with stopNone := false, stopRefused := true }) ∧
      (∀ st, piecesOf s x = [st] → strandOf s st.sid = some st → x.attributed = false →
        (x.kind ≠ 10 → ¬(x.kind = 11 ∧ x.cause = 1) → ∃ u, strandOf (resumeStop s0 x) st.sid = some u ∧ u = { st with status := .ready, stamp := u.stamp, urgent := false }) ∧
        (x.kind = 10 → ∃ u, strandOf (resumeStop s0 x) st.sid = some u ∧ u = { st with status := .ready, stamp := u.stamp, urgent := false, pc := st.pc + 8 }) ∧
        (∃ u, strandOf (skipStop s0 x) st.sid = some u ∧
          u = { st with status := .ready, stamp := u.stamp, urgent := false, replay := none, pc := st.pc + BitVec.ofNat 64 x.len })) ∧
      (∀ y ∈ (resumeStop s0 x).stops, y.ticket ≠ x.ticket) ∧ (∀ y ∈ (killStop s0 x).stops, y.ticket ≠ x.ticket) ∧
      (FreshIds s → ∀ st ∈ piecesOf s x, strandOf (killStop s0 x) st.sid = none) ∧
      (∀ l, launchOf s x.lk = some l → ∃ l', launchOf (killStop s0 x) x.lk = some l' ∧ l'.status = if l.status = 0 then 2 else l.status) ∧
      ∀ (reg : R11) v, ∀ st ∈ piecesOf s x, strandOf s st.sid = some st → st.husk = [] → StrandWf st → ∃ u, strandOf (writeStop s0 x reg v) st.sid = some u ∧ vform u reg.toNat = .u v ∧
        u.pc = st.pc ∧ u.status = st.status ∧ present u = present st ∧ (∀ q, q ≠ reg.toNat → vform u q = vform st q) ∧ ∀ i, (reg.toNat, i) ∉ u.poison) ∧
    (∀ c (n : Word), exec (.faultConsumed c n) s = .next (writeWaiting c (((ctxOf s c).map (fun x => x.waiting.length)).getD 0)
      (updCtx s c (fun x => { x with consumed := n.toNat })))) ∧
    (∀ c n a, s.attaches.find? (fun a => a.ctx == c) = some a → a.stopWaiting = [] →
      ∃ t, exec (.stopRingConsumed c n) s = .next t ∧ t.attaches.find? (fun a => a.ctx == c) = some { a with stopConsumed := n.toNat }) ∧
    (∀ b k (v : DWord), k < 6 → maskOk k v.toNat = true → ∃ t, exec (.hmaskWrite b k v) s = .next t ∧ sameBytes s t ∧ (bdieOf t b).hmask = (bdieOf s b).hmask.set k v.toNat) ∧
    (∀ b (v : DWord), ∃ t, exec (.registerWrite (.swpctl b) v) s = .next t ∧ sameBytes s t ∧ 
      (bdieOf t b).swpctl = (if s.sec.boot = .full then v.toNat % 2 else 0) + 2 ^ 8 * (v.toNat / 2 ^ 8 % 2 ^ 24) ∧
      (∀ g, remapOf (bdieOf t b) g = remapOf (bdieOf s b) g) ∧ ∀ y, y ≠ b → bdieOf t y = bdieOf s y) ∧
    (∀ die q (v : DWord), ∃ t x, exec (.registerWrite (.queueCfg die q) v) s = .next t ∧ sameBytes s t ∧ queueOf t die q = some x ∧ x.en = v.toNat.testBit 0 ∧
      x.prio = v.toNat / 2 % 4 ∧ x.byplim = v.toNat / 2 ^ 8 % 2 ^ 8 ∧ x.ctx = v.toNat / 2 ^ 16 % 2 ^ 12 ∧ x.quantum = v.toNat / 2 ^ 32 ∧
      (∀ y, queueOf s die q = some y → x.d = y.d ∧ x.accepted = y.accepted) ∧ (∀ p, p ≠ q → queueOf t die p = queueOf s die p) ∧
      (q < 256 → dispatcherRead t die (0x1000 + 8 * q) = v &&& 0xFFFFFFFF0FFFFF07 ∧ dispatcherRead t die (0x1800 + 8 * q) = BitVec.ofInt 64 x.d)) ∧
    (∀ lk team t, teamOf s lk team = some t → team ∈ gangTeams s lk team → t.placed = true → t.ended = false → t.saved = false → t.preempt = false →
      ∃ r, exec (.preemptRequest lk team) s = .next r ∧ sameBytes s r ∧ (teamOf r lk team).any (fun x => x.preempt && x.reqAt == s.time) = true) ∧
    (∀ lk team t, teamOf s lk team = some t → t.saved = false → t.preempt = true → t.stopMask = none → t.reqAt + 50000 ≤ s.time →
      exec (.safeptTimeout lk team) s = .next (saveIfReady (updTeam s lk team (fun t => { t with stopMask := some 255 })) lk team)) ∧
    (∀ lk team t d cl, teamOf s lk team = some t → t.saved = true →
      let c := ctxOfLaunch s lk
      let ts := together s c s.teams.length [t]
      (∀ x ∈ ts, x.saved = true ∧ frozen s x.lk = false) →
      ((partitionDies s (((ctxOf s c).map (fun x => x.part)).getD 0)).flatMap (fun d => (List.range Config.clusters).map (fun cl => (d, cl)))).find?
        (fun p => fitsSeats s c ts p.1 p.2) = some (d, cl) →
      (∀ x ∈ ts, (loadRecord s x).isSome = true) →
      exec (.teamRestore lk team) s = .next (ts.foldl (fun a x => wakeTeam a x.lk (some x.num)) (wakeStalls (serveDeferred
        (ts.foldl (fun a x => restoreTeam ((loadRecord a x).getD a) x d cl) (takeCores s c)))))) ∧
    (∀ lk team t rest, teamOf s lk team = some t → t.saved = true →
      let c := ctxOfLaunch s lk
      let ts := together s c s.teams.length [t]
      (∀ x ∈ ts, x.saved = true ∧ frozen s x.lk = false) → (∃ p ∈ (partitionDies s (((ctxOf s c).map (fun x => x.part)).getD 0)).flatMap (fun d =>
        (List.range Config.clusters).map (fun cl => (d, cl))), fitsSeats s c ts p.1 p.2 = true) →
      ts.filter (fun x => (loadRecord s x).isNone) = rest → rest ≠ [] → exec (.teamRestore lk team) s = .next (rest.foldl recordFault s)) ∧
    (∀ c x, ctxOf s c = some x → x.held = true → exec (.sliceExpiry c) s = .next (if (nextTurn s x.part).any (fun y => y.num == c) then beginSlice s c else s)) ∧
    (∀ c x y, ctxOf s c = some x → x.held = false → rivals s x = [y] → y.num ≠ c → (ctxOf s y.num).isSome = true →
      ∃ t, exec (.sliceExpiry c) s = .next t ∧ sameBytes s t ∧ (ctxOf t c).any (fun x => x.held) = true ∧
        (ctxOf t y.num).any (fun z => !z.held && z.sliceFrom == s.time) = true) ∧
    (∀ c, overrun s c = true → exec (.sliceOverrunKill c) s = .next (enqueueReport (killContext 2 s c) c { Report.blank with cls := 4, kind := 18, info := 1 }))

/-- The calls of the resident system (R187, R298, R301, R330, R334 to R336, R340, R348, R350, R356, R359, R360), made by a valid context
while service is up: each, on arguments that it accepts, answers with the value that R348 gives it; an unknown number answers −1.
The error codes of each case, the lowest free number, the length of a key, the frames that MAP gives, and the context that a token names are the model's choice
(logs 22, 23, 43, 44 and 45). -/
def Obligations.Calls : Prop :=
  ∀ s (c : Caller) x, s.badAddr = none → serving s = true → ctxOf s c.ctx = some x → x.valid = true →
    let ok := fun (i : Instr) (r : Int) (p : State → Prop) => ∃ t, exec i s = .next t ∧ t.out = s.out ++ [.call r] ∧ p t
    (∀ addr q bs s1 id s2, ownsQueue s c.ctx q = true → vRead s c.ctx addr 128 = (some bs, s1) →
      takeRecord s1 c.ctx q (ofBytes bs) addr .ecall s.time [] = (id, s2) → 0 ≤ id → exec (.ecallLaunch c addr q) s = .next (answer s2 id)) ∧
    (∀ ring k cring prio quantum q, 2 ≤ k → k ≤ 16 → prio ≤ 3 → quantum < 2 ^ 32 → ring % (128 * 2 ^ k) = 0 → cring % (32 * 2 ^ k) = 0 →
      inMemory s c.ctx ring (128 * 2 ^ k) = true → inMemory s c.ctx cring (32 * 2 ^ k) = true → lowest 256 (fun q => !s.userqs.any (fun u => u.q == q)) = some q →
      ok (.qcreate c ring k cring prio quantum) q (fun t => t.userqs = s.userqs ++ [⟨q, c.ctx, ring, k, cring, 0, 0, false, 0, 0, []⟩])) ∧
    (∀ q, ownsQueue s c.ctx q = true →
      (∃ t, exec (.qdestroy c q) s = .next t ∧ t.out.getLast? = some (.call 0) ∧ ∀ u ∈ t.userqs, u.q ≠ q) ∧
      ∀ prio quantum byplim, prio ≤ 3 → quantum < 2 ^ 32 → byplim ≤ 255 →
        ok (.qparam c q prio quantum byplim) 0 (fun t => ∀ d ∈ mapDies s x.part, ∀ y, queueOf t d q = some y → y.prio = prio ∧ y.quantum = quantum ∧ y.byplim = byplim)) ∧
    (∀ id, id < taskN x → memoriesCanonical s → let e := taskEntry s x id
      ok (.taskset c id 0) 0 (fun t => memGets t.mem (x.tasktab + 128 * id) 128 = toBytes 128 (e - 2 ^ 24 * bit (bitOf e 24)))) ∧
    (∀ k n, 4 ≤ k → k ≤ 20 → lowest 65536 (fun n => !x.hqs.any (fun q => q.num == n)) = some n →
      ok (.hqcreate c k) n (fun t => (ctxOf t c.ctx).any (fun y => y.hqs.contains ⟨n, k, []⟩) = true)) ∧
    (∀ handle, x.hqs.any (fun q => q.num == handle) = true → ok (.hqdestroy c handle) 0 (fun t => ∀ y, ctxOf t c.ctx = some y → ∀ q ∈ y.hqs, q.num ≠ handle)) ∧
    (∀ addr size flags key kid s1, let step := if bitOf flags 2 then 65536 else 4096
      addr % step = 0 → size % step = 0 → 0 < size → addr + size ≤ 2 ^ 48 → flags < 8 → rangeFree s x addr size = true → mapKey s x key = some kid →
      mapRange x.root step (bitOf flags 0) (bitOf flags 1) (bitOf flags 2) kid (size / step) addr s = some s1 → exec (.map c addr size flags key) s = .next (answer s1 0)) ∧
    (∀ addr size, addr % 4096 = 0 → size % 4096 = 0 → 0 < size → addr + size ≤ 2 ^ 48 →
      (∀ s1, unmapRange (bringIn s c.ctx addr size) x addr size = some s1 → exec (.unmap c addr size) s = .next (answer s1 0)) ∧
      (∀ token, ctxOf (bringIn s c.ctx addr size) (Config.tokenCtx token) = none → exec (.share c addr size token) s = .next (answer s (-2))) ∧
      ∀ token es y s1, let b := bringIn s c.ctx addr size
        rangeEntries b x addr size = some es → ctxOf b (Config.tokenCtx token) = some y → y.valid = true → y.num ≠ c.ctx → rangeFree b y addr size = true →
        (y.part ≠ x.part → exec (.share c addr size token) s = .next (answer s (-4))) ∧
        (y.part = x.part → (∀ e ∈ es, e.2.2.host = false ∧ e.2.2.keyid = 0) →
        es.foldl (fun (acc : Option State) e => acc.bind (fun a => (mapOne y.root e.1 (pte b e.2.1) false a).map (fun a =>
          if e.1 % e.2.2.size = 0 then { a with shared := ainsert a.shared (e.2.2.base / 65536) (((alookup a.shared (e.2.2.base / 65536)).getD 0) + 1) } else a))) (some b) = some s1 →
        exec (.share c addr size token) s = .next (answer s1 0))) ∧
    (∀ handle addr flags bs s1 k, s.sec.debugWord = 0 → 0 < handle → handle < x.keyn → flags < 4 → vRead s c.ctx addr keyBytes = (some bs, s1) →
      lowest 1024 (fun k => k != 0 && !s.sec.keys.any (fun r => r.id == k)) = some k →
      ok (.keyset c handle addr flags) 0 (fun t => t.sec.keys = s1.sec.keys ++ [⟨k, c.ctx, bs⟩])) ∧
    (∀ addr size hq flags, 0 < size → addr + size ≤ 2 ^ 48 → flags < 4 → x.hqs.any (fun q => q.num == hq) = true → s.sec.boot = .full →
      ∃ key, 0 < key ∧ (∀ w ∈ s.windows, w.rkey ≠ key) ∧
        ok (.window c addr size hq flags) key (fun t => t.windows = s.windows ++ [⟨key, c.ctx, addr, size, hq, bitOf flags 0, bitOf flags 1⟩])) ∧
    (s.sec.boot = .full → exec (.features c) s = .next (answer s fullFeatures)) ∧
    (∀ us, 100 ≤ us → us ≤ 1000000 → ok (.slice c us) 0 (fun t => (ctxOf t c.ctx).any (fun y => y.slice == us) = true)) ∧
    (∀ n, exec (.unknownCall c n) s = .next (answer s (-1)))

/-- The privileged calls (R272, R273, R279, R281, R291, R323, R349, R357, R360): from the mailbox or a privileged context they have their effect, HMASK once no context is
resident and the DRAM is idle, and L2MODE once nothing of what it affects is on the device: until then they wait; MIGRATE answers at once, and −5 while the launch is already moving; from another context each answers −4 and changes nothing.
The map word of L2MODE, the codes of each error, what HMASK checks first, and the partition of a context under a new map are the model's choice (logs 11, 24, 44, 47 and 83). -/
def Obligations.PrivilegedCalls : Prop :=
  ∀ s (c : Caller) x, s.badAddr = none → serving s = true → ctxOf s c.ctx = some x → x.valid = true →
    let ok := fun (i : Instr) (r : Int) (p : State → Prop) => ∃ t, exec i s = .next t ∧ t.out = s.out ++ [.call r] ∧ p t
    ((x.priv = true ∨ c.mailbox = true) →
      (∀ addr bs s1, vRead s c.ctx addr 48 = (some bs, s1) →
        (anyResident s (List.range Config.dies) = true → exec (.hmask c addr) s = .next (answer (unpend (.hmask c addr) s) (-5))) ∧
        (anyResident s (List.range Config.dies) = false → dramIdle s = false → exec (.hmask c addr) s = .next (pend (.hmask c addr) (unpend (.hmask c addr) s))) ∧
        (anyResident s (List.range Config.dies) = false → dramIdle s = true →
          let ms := (List.range 6).map (fun k => field (ofBytes bs) (64 * k) 64)
          (∀ k < 6, maskOk k (nth ms k 0) = true) → ok (.hmask c addr) 0 (fun t => ∀ n < 16, (bdieOf t n).hmask = ms ∧ (bdieOf t n).pch = []))) ∧
      (∀ pmap m, mapOf pmap = some m →
        (l2Ready s m = false → exec (.l2mode c pmap) s = .next (pend (.l2mode c pmap) (unpend (.l2mode c pmap) s))) ∧
        (l2Ready s m = true → ok (.l2mode c pmap) 0 (fun t => t.l2 = m ∧ (s.packets = [] → sameBytes s t) ∧
          ∀ y, ctxOf t c.ctx = some y → y.part = partUnder m x.part))) ∧
      ok (.pchreset c) 0 (fun t => (∀ n, (bdieOf t n).pch = []) ∧ sameBytes s t) ∧
      (∀ id device,
        let here := s.launches.find? (fun l => l.ctx == c.ctx && l.id == id && !l.complete && !l.killed)
        (here = none → exec (.migrate c id device) s = .next (answer s (-2))) ∧
        ∀ l, here = some l →
          (l.moving.isSome = true ∨ (∃ w ∈ s.windows, w.ctx = c.ctx) → exec (.migrate c id device) s = .next (answer s (-5))) ∧
          (l.moving = none → (∀ w ∈ s.windows, w.ctx ≠ c.ctx) → ∃ t, exec (.migrate c id device) s = .next t ∧
            t.out.getLast? = some (.call (if Config.peerPresent device ∧ Config.peerFeatures device &&& l.features = l.features then 0 else -2)))) ∧
      (∀ ctx addr y bs s1, ctxOf s ctx = some y → y.valid = true → vRead s c.ctx addr 16 = (some bs, s1) →
        let p := ofBytes bs
        let slice := field p 32 32
        field p 6 10 = 0 → field p 64 64 = 0 → (slice = 0 ∨ (100 ≤ slice ∧ slice ≤ 1000000)) → (bitOf p 0 = true → c.mailbox = true) → field p 16 16 = y.tasknm1 →
        exec (.ctxparam c ctx addr) s = .next (answer (updCtx s1 ctx (fun y => { y with
          priv := bitOf p 0, prio := field p 1 2, gmig := bitOf p 0 && bitOf p 3, gprof := bitOf p 4, gobs := bitOf p 5, tasknm1 := field p 16 16
          slice := if slice = 0 then y.slice else slice })) 0))) ∧
    (∀ n, c.mailbox = false → x.priv = false → exec (.hmask c n) s = .next (answer (unpend (.hmask c n) s) (-4)) ∧
      exec (.l2mode c n) s = .next (answer (unpend (.l2mode c n) s) (-4)) ∧ exec (.pchreset c) s = .next (answer s (-4)) ∧
      ∀ m, exec (.migrate c n m) s = .next (answer s (-4)) ∧ exec (.ctxparam c n m) s = .next (answer s (-4)))

/-- Observation and remote memory (R356, R359, R396 to R401): a debugger attaches to a context that grants it, halts, steps and resumes its strands, reads and
writes their registers, words of the context's memory, accounts and counts of drops, asks for a dump, and takes samples, for every attachment that is due; without an attachment or an open debug
port none of this happens; a remote request within a window is
performed, and one outside every window is refused, as is one of more than 2 GiB; none is taken unless Mboelaor serves.
The form of the messages, the answers of a remote request in cases that the spec leaves out, and whether a request bears a mark of congestion are the model's choice
(logs 46, 53, 67, 68 and 96). -/
def Obligations.ObservationAndRemote : Prop :=
  ∀ s, s.badAddr = none →
    (∀ c sk tk period x, ctxOf s c = some x → x.valid = true → x.gobs = true → (x.gprof = true ∨ (sk = none ∧ tk = none)) → ringOk sk = true → ringOk tk = true →
      attachOf s c = none → (sk = none ∨ (1024 ≤ period ∧ period ≤ 2 ^ 24)) →
      exec (.attach c sk tk period) s = .next (observed { s with attaches := s.attaches ++ [⟨c, [], 0, 0, [], 1, [], sk, [], 0, tk, [], 0, period, []⟩] } "attached" [c])) ∧
    (∀ c a, attachOf s c = some a →
      (∃ t, exec (.detach c) s = .next t ∧ attachOf t c = none ∧ sameBytes s t ∧ ∀ st ∈ t.strands, ctxOfLaunch s st.lk = c → st.halted = none) ∧
      (∀ launch team l, launchNamed s c launch = some l → exec (.halt c launch team) s = .next
        ((sortByFirst (s.strands.filter (fun st => st.lk == l.lk && st.halted.isNone && (match team with | none => true | some t => st.team == some t)))).foldl
          (fun a st => debugHalt a st.sid 4 0 0 0 [] 0) s)) ∧
      (∀ stop st, (∀ d ∈ s.dumps, ¬(d.ctx = c ∧ d.stop = stop)) → haltedAt s c stop = [st] → strandOf s st.sid = some st →
        (recorded s c stop = true → (∀ j lo hi, st.status ≠ .blocked (.join j lo hi)) →
          let pc := if stop ∈ a.bkpts then st.pc + 8 else st.pc
          (∃ t u, exec (.debugResume c stop) s = .next t ∧ strandOf t st.sid = some u ∧ u.halted = none ∧ u.stepping = false ∧ u.pc = pc ∧ u.regs = st.regs ∧ sameBytes s t) ∧
          ∃ t u, exec (.step c stop) s = .next t ∧ strandOf t st.sid = some u ∧ u.halted = none ∧ u.stepping = true ∧ u.pc = pc ∧ u.regs = st.regs ∧ sameBytes s t) ∧
        (recorded s c stop = false → exec (.debugResume c stop) s = .next s ∧ exec (.step c stop) s = .next s) ∧
        ∀ r v, exec (.read c stop (.reg r)) s = .next (observed s "register" (((present st).zip (regVals st r.toNat)).flatMap (fun e => [e.1, e.2.toNat]))) ∧
          ∃ t u, exec (.debugWrite c stop (.reg r) v) s = .next t ∧ strandOf t st.sid = some u ∧ vform u r.toNat = .u v ∧ sameBytes s t ∧
            ∀ q, q ≠ r.toNat → vform u q = vform st q) ∧
      (c ≠ 0 → ∀ stop va id,
        (∀ bs s1, vRead s c va 4 = (some bs, s1) → exec (.read c stop (.mem va)) s = .next (observed s1 "memory" [va, ofBytes bs])) ∧
        (∀ l, s.launches.find? (fun l => l.ctx == c && l.id == id) = some l → exec (.read c stop (.account id)) s = .next (observed s "account" (l.account.t0 :: l.tend :: l.account.dur))) ∧
        exec (.read c stop (.drops true)) s = .next (observed s "drops" [a.traceDrops]) ∧ exec (.read c stop (.drops false)) s = .next (observed s "drops" [a.sampleDrops]) ∧
        ∀ v, exec (.debugWrite c stop (.account id) v) s = .next s ∧ (∀ tr, exec (.debugWrite c stop (.drops tr) v) s = .next s) ∧
          let b := bringIn s c va 4
          ∀ sp pa, memoriesCanonical b → va % 4 = 0 → vTrans b c va = some (sp, pa, true) →
            ∃ t, exec (.debugWrite c stop (.mem va) v) s = .next t ∧ homeBytes t sp pa 4 = toBytes 4 v.toNat ∧ sameBytesBut b t sp pa 4) ∧
      (∀ launch l, launchNamed s c launch = some l → (∀ d ∈ s.dumps, d.lk ≠ l.lk) →
        ∃ t, exec (.dump c launch) s = .next t ∧ t.dumps = s.dumps ++ [⟨c, a.nextStop, l.lk⟩])) ∧
    (∀ c, attachOf s c = none → s.sec.debugWord = 0 → ∀ launch team stop target v, exec (.halt c launch team) s = .next s ∧ exec (.step c stop) s = .next s ∧
      exec (.debugResume c stop) s = .next s ∧ exec (.dump c launch) s = .next s ∧ exec (.read c stop target) s = .next s ∧ exec (.debugWrite c stop target v) s = .next s) ∧
    (∀ core part, (∀ a ∈ s.attaches, (core, part) ∉ a.due) → exec (.sample core part) s = .next s) ∧
    (∀ core part, (s.attaches.map (fun a => a.ctx)).Nodup → ∃ t, exec (.sample core part) s = .next t ∧ sameBytes s t ∧ t.strands = s.strands ∧ ∀ c a, attachOf s c = some a →
      ((core, part) ∉ a.due → attachOf t c = some a) ∧
      ((core, part) ∈ a.due → attachOf t c = some (match a.sampleK, sampled s c core part with
        | some k, some st => if a.sampleRing.length < 2 ^ k then { a with due := a.due.erase (core, part), sampleRing := a.sampleRing ++ [sampleBits s st] }
          else { a with due := a.due.erase (core, part), sampleDrops := a.sampleDrops + 1 }
        | _, _ => { a with due := a.due.erase (core, part) }))) ∧
    (serving s = false → ∀ conn rkey va data imm len, exec (.rdmaWrite conn rkey va data) s = .next s ∧ exec (.rdmaWriteWithImmediate conn rkey va data imm) s = .next s ∧
      exec (.rdmaRead conn rkey va len) s = .next s ∧ exec (.rdmaInvalidRequest conn) s = .next s) ∧
    (serving s = true → ∀ conn, let m := marked s conn
      (∀ rkey va data imm, data.length ≤ 2 ^ 31 → windowFor (withPages m rkey va data.length) rkey va data.length true = none →
        exec (.rdmaWrite conn rkey va data) s = .next (rdmaReply m conn "NAK Remote Access Error" []) ∧
        exec (.rdmaWriteWithImmediate conn rkey va data imm) s = .next (rdmaReply m conn "NAK Remote Access Error" [])) ∧
      (∀ rkey va data w, data.length ≤ 2 ^ 31 → windowFor (withPages m rkey va data.length) rkey va data.length true = some w →
        exec (.rdmaWrite conn rkey va data) s = .next (rdmaReply (remoteStore (withPages m rkey va data.length) w conn va data) conn "ACK" []) ∧
        ∀ imm q, hqOf (withPages m rkey va data.length) w.ctx (BitVec.ofNat 32 w.hq) = some q →
          (q.entries.length < 2 ^ q.k →
            ∃ t, exec (.rdmaWriteWithImmediate conn rkey va data imm) s = .next t ∧ t.out.getLast? = some (.text "ACK" [conn]) ∧
              (hqOf t w.ctx (BitVec.ofNat 32 w.hq)).map (fun y => y.entries.map (fun e => e.1)) = some (q.entries.map (fun e => e.1) ++ [imm])) ∧
          (2 ^ q.k ≤ q.entries.length → exec (.rdmaWriteWithImmediate conn rkey va data imm) s = .next (rdmaReply m conn "RNR NAK" []))) ∧
      (∀ rkey va len w bs s2, len ≤ 2 ^ 31 → windowFor (withPages m rkey va len) rkey va len false = some w →
        (0 < len → poisonedRange (withPages m rkey va len) w.ctx va len = false) → vRead (withPages m rkey va len) w.ctx va len = (some bs, s2) →
        exec (.rdmaRead conn rkey va len) s = .next (rdmaReply s2 conn "READ response" (bs.map (fun b => b.toNat)))) ∧
      (∀ rkey va data len imm, 2 ^ 31 < len → 2 ^ 31 < data.length → exec (.rdmaRead conn rkey va len) s = .next (rdmaReply m conn "NAK Invalid Request" []) ∧
        exec (.rdmaWrite conn rkey va data) s = .next (rdmaReply m conn "NAK Invalid Request" []) ∧
        exec (.rdmaWriteWithImmediate conn rkey va data imm) s = .next (rdmaReply m conn "NAK Invalid Request" [])) ∧
      exec (.rdmaInvalidRequest conn) s = .next (rdmaReply m conn "NAK Invalid Request" []))

/-- Errors, and the loading and destroying of contexts (R344, R345, R351, R386 to R393): an uncorrectable error poisons its place, and a line of memory keeps its bytes; a
link error is counted, and one that a retraining does not mend is fatal; a destroyed context holds no queue, no window and no key; a bundle is loaded where its header, its
entries and its members are as R351 has them and the device has room for them, and refused where they are not.
The code of a fatal link error is a free value; what CONTEXT_DESTROY gives back, the pages that a new context gets, and that one bad member makes the whole bundle fail are
the model's choice (logs 41, 43, 55 and 94). -/
def Obligations.ErrorsAndContexts : Prop :=
  ∀ s, s.badAddr = none →
    (∀ loc, exec (.storageError loc true) s = .next (corrected s loc) ∧ exec (.storageError loc false) s = .next (uncorrected s loc)) ∧
    (∀ pa, ∃ t, exec (.storageError (.line pa) false) s = .next t ∧ sameBytes s t ∧ ∀ l, l ∈ t.memPois ↔ l ∈ s.memPois ∨ l = pa / 64) ∧
    (∀ sid st reg i, strandOf s sid = some st → i ∈ present st →
      ∃ t u, exec (.storageError (.regWord sid reg i) false) s = .next t ∧ strandOf t sid = some u ∧ u.regs = st.regs ∧ (reg, i) ∈ u.poison ∧
        ((∀ xs, vform st reg ≠ .x xs) → ∀ k ∈ present st, (reg, k) ∈ u.poison)) ∧
    (∀ link, (∃ t, exec (.flitCrcFail link true) s = .next t ∧ sameBytes s t ∧ t.sec = s.sec ∧
        (∀ e ∈ s.corrected, e.storage = .links → e.block = link → ⟨.links, link, e.count + 1⟩ ∈ t.corrected) ∧
        ((∀ e ∈ s.corrected, ¬(e.storage = .links ∧ e.block = link)) → t.corrected = s.corrected ++ [⟨.links, link, 1⟩]) ∧
        ∀ e ∈ s.corrected, ¬(e.storage = .links ∧ e.block = link) → e ∈ t.corrected) ∧
      ∃ t, exec (.flitCrcFail link false) s = .next t ∧ t.sec.boot = .fatal) ∧
    (∀ c x, ctxOf s c = some x → x.valid = true → ∃ t, exec (.contextDestroy c) s = .next t ∧ (∃ y, ctxOf t c = some y ∧ y.valid = false) ∧
      (∀ u ∈ t.userqs, u.ctx ≠ c) ∧ (∀ w ∈ t.windows, w.ctx ≠ c) ∧ ∀ k ∈ t.sec.keys, k.ctx ≠ c) ∧
    (∀ c (pasid : BitVec 20) file, serving s = true → 1 ≤ c → c < 4096 → (∀ x, ctxOf s c = some x → x.valid = false) →
      let n := at' file 6 2
      let entry := fun (k : Nat) => at' file 8 8 + 32 * k
      let ms : List Member := (List.range n).map (fun k => (at' file (entry k) 1, cut file (at' file (entry k + 8) 8) (at' file (entry k + 16) 8)))
      let good := at' file 0 4 = 0x4C44424E ∧ at' file 4 2 = 1 ∧ 0 < n ∧ n ≤ 4096 ∧ at' file 16 48 = 0 ∧ at' file 8 8 + 32 * n ≤ file.length ∧
        (∀ k < n, (at' file (entry k) 1 = 1 ∨ at' file (entry k) 1 = 2) ∧ at' file (entry k + 1) 7 = 0 ∧ at' file (entry k + 24) 8 = 0 ∧
          at' file (entry k + 8) 8 + at' file (entry k + 16) 8 ≤ file.length) ∧
        (ms.filter (fun m => m.1 == 1)).length = 1 ∧ ∀ m ∈ ms, (m.1 = 1 → elfOk m.2 243 = true) ∧ (m.1 ≠ 1 → iofOk m.2 = true)
      (¬good → exec (.bundleLoad c pasid file) s = .next { s with out := s.out ++ [.text "bundle refused" [c]] }) ∧
      (good → newContext s c pasid.toNat ms = none → exec (.bundleLoad c pasid file) s = .next { s with out := s.out ++ [.text "bundle refused" [c]] }) ∧
      ∀ s1 x, good → newContext s c pasid.toNat ms = some s1 → ctxOf s1 c = some x →
        let load := ms.foldl (fun (acc : Option State) m => acc.bind (fun a => if m.1 = 1 then loadPieces x.root c (elfPieces m.2) a else loadIof x.root c m.2 a)) (some s1)
        (load = none → exec (.bundleLoad c pasid file) s = .next { s with out := s.out ++ [.text "bundle refused" [c]] }) ∧
        ∀ s2, load = some s2 → x.valid = true ∧ x.pasid = pasid.toNat ∧ x.members = ms ∧
          exec (.bundleLoad c pasid file) s = .next { s2 with out := s2.out ++ [.text "bundle loaded" [c]] })

/-- The security engine, boot, attestation and power (R19, R361 to R371, R403): each event does what its rule says where its conditions hold.
What the fuses hold, the layout of what is hashed and signed, the order and the contents of SPDM messages that the spec leaves open, what a debug port that is open lets one do,
and the reset values of the telemetry are the model's choice (logs 3, 4, 49 to 52, 57 and 96). -/
def Obligations.SecurityAndPower : Prop :=
  ∀ s, s.badAddr = none →
    (∃ t, exec .coldReset s = .next t ∧ t.strands = [] ∧ t.launches = [] ∧ t.ctxs = [] ∧ t.mem = [] ∧ t.sec.keys = [] ∧ t.sec.debugWord = 0 ∧ t.sec.nonces = s.sec.nonces ∧
      t.sec.boot ≠ .off ∧ t.sec.boot ≠ .full ∧ t.sec.boot ≠ .fatal) ∧
    (∀ img, (s.sec.boot = .recovery → exec (.recoveryImage img) s = .next (if checkStage s.sec.fuses img 1 then fromStage1 s img else s)) ∧
      (s.sec.boot = .awaiting → exec (.hostStageImage img) s = .next (if checkStage s.sec.fuses img 3 then startMboelaor s img else haltBoot s (.halted 3) 3) ∧
        (checkStage s.sec.fuses img 3 = true → ∃ t, exec (.hostStageImage img) s = .next t ∧ t.sec.boot = .seedling ∧ ∀ x ∈ t.telemetry, x.block ≤ 1 → x.mhz = 425))) ∧
    (s.sec.boot = .seedling → ∃ t, exec .fullService s = .next t ∧ t.sec.boot = .full ∧ sameBytes s t ∧ t.strands = s.strands ∧ ∀ x ∈ t.telemetry, x.block ≤ 1 → x.mhz = 850) ∧
    (∀ u lo n, fuseRead { s with sec := { s.sec with fuses := { s.sec.fuses with uds := u } } } lo n = fuseRead s lo n) ∧
    (engineRuns s = true →
      (∃ t n, exec .unlockReq s = .next t ∧ t.sec.nonce = some n ∧ t.sec.nonces = s.sec.nonces + 1 ∧
        t.out = s.out ++ [.text "UNLOCK.REQ" [s.sec.fuses.devid.toNat, s.sec.fuses.lcs.toNat, n.toNat]]) ∧
      (∀ k : OwnkeyCmd,
        (∃ t, exec (.ownkeyAdd k) s = .next t ∧ if ownkeyOk s.sec.fuses true k && slotDigest s.sec.fuses k.slot.toNat == 0
          then t.sec.fuses.slots = s.sec.fuses.slots.set k.slot.toNat k.digest else t.sec = s.sec) ∧
        (∃ t, exec (.ownkeyRevoke k) s = .next t ∧ if ownkeyOk s.sec.fuses false k
          then t.sec.fuses.revoke = s.sec.fuses.revoke ||| (1#4 <<< k.slot.toNat) else t.sec = s.sec)) ∧
      ∀ token, token.length = 2860 →
        let word := 1 + 256 * numAt token 5 1 + 65536 * (numAt token 4 1 / 16)
        ∃ t, exec (.unlock token) s = .next t ∧ t.sec.nonce = none ∧
          if tokenOk s.sec token then
            if keyedSaves s then t = { s with sec := { s.sec with nonce := none, unlocking := some word } }
            else t.sec.unlocking = none ∧ t.sec.keys = [] ∧ t.sec.sessions = [] ∧ t.sec.debugWord = word ∧
              ∀ l ∈ t.launches, (∃ k ∈ s.sec.keys, k.ctx = l.ctx) → l.killed = true ∨ l.complete = true
          else t.sec = { s.sec with nonce := none } ∧ t.strands = s.strands ∧ t.launches = s.launches) ∧
    (serving s = true → ∀ stage svn, 1 ≤ stage → stage ≤ 3 → svn ≤ nth s.sec.svns (stage - 1) 0 →
      ∃ t, exec (.minsvnRaise stage svn) s = .next t ∧ sameBytes s t ∧ t.sec.fuses.minsvn = s.sec.fuses.minsvn.set (stage - 1) (raiseBits svn 64 0 (nth s.sec.fuses.minsvn (stage - 1) 0))) ∧
    (∀ p, admitted p false s = false → exec (.getVersion p) s = .next s) ∧
    (serving s = true → ∀ p,
      let tells := fun (i : Instr) (what : String) (vals : List Nat) (p' : State → Prop) => ∃ t, exec i s = .next t ∧ t.out = s.out ++ [answerText s p what vals] ∧ p' t
      let same := fun (t : State) => t.sec = (countAnswer s p).sec
      (admitted p false s = true →
        tells (.getVersion p) "VERSION" [0x12] (fun t => t.sec.versioned = true ∧ t.sec.negotiated = false) ∧
        (s.sec.versioned = true → tells (.getCapabilities p) "CAPABILITIES" [] same ∧
          tells (.negotiateAlgorithms p) "ALGORITHMS" [384, 384, 384, 256] (fun t => t.sec.negotiated = true)) ∧
        (s.sec.negotiated = true →
          tells (.getDigests p) "DIGESTS" [1, (Config.digest384 (chain s)).toNat] same ∧
          tells (.getCertificate p 0) "CERTIFICATE" (natsOf (chain s)) same ∧
          (∀ nonce : BitVec 256, tells (.challenge p 0 nonce) "CHALLENGE_AUTH"
            (natsOf (Config.ecdsaSign (aliasSecret s) (toBytes 32 nonce.toNat ++ (List.range' 1 7).flatMap (measurement s)))) same) ∧
          (∀ index, 1 ≤ index → index ≤ 7 → tells (.getMeasurements p index) "MEASUREMENTS" (natsOf (measurement s index)) same) ∧
          (∀ n exchange, sessionOf s n = none → exchange.length = 96 →
            let key := Config.ecdhKey s.sec.nonces
            let points := exchange ++ Config.ecdhPublic key
            tells (.keyExchange p ⟨n, exchange⟩) "KEY_EXCHANGE_RSP" (n :: natsOf (Config.ecdhPublic key ++ Config.ecdsaSign (aliasSecret s) points))
              (fun t => t.sec.nonces = s.sec.nonces + 1 ∧ ∃ x, sessionOf t n = some x ∧ x.secret = Config.ecdhShared key exchange ∧ x.points = points ∧ x.done = false)) ∧
          ∀ n, (portSession p = some n → (sessionOf s n).isSome = true → tells (.endSession p n) "END_SESSION_ACK" [n] (fun t => ∀ x ∈ t.sec.sessions, x.id ≠ n)) ∧
            (portSession p ≠ some n → tells (.endSession p n) "ERROR InvalidRequest" [] same)) ∧
        ∀ code, tells (.spdmUnsupported p code) "ERROR UnsupportedRequest" [code] same) ∧
      (s.sec.negotiated = true → ∀ n x verify, sessionOf s n = some x → x.done = false → admitted p (portSession p == some n) s = true →
        (verify = verifyData x → tells (.finish p ⟨n, verify⟩) "FINISH_RSP" [n] (fun t => ∃ y, sessionOf t n = some y ∧ y.done = true ∧ y.secret = x.secret)) ∧
        (verify ≠ verifyData x → tells (.finish p ⟨n, verify⟩) "ERROR DecryptError" [] (fun t => sessionOf t n = none)))) ∧
    (∀ block mhz mv mw, mw < nth ceilings block 0 → (∀ n, clockLimit s block = some n → mhz ≤ n) →
      ∃ t, exec (.clockAndVoltageChange block mhz mv mw) s = .next t ∧ sameBytes s t ∧ t.strands = s.strands ∧
        ∀ x ∈ t.telemetry, x.block = block → x.mhz = mhz ∧ x.mv = mv ∧ x.mw = mw)
end

