-- ==== Sys2Proof/Laws/Memory.lean ====
section
/-! SUPPORT. What the memory operations do: reading after writing, and the canonical form (R2, R16). -/

namespace Sys2Proof.Machine

/-! ### Association lists -/

@[simp] theorem alookup_ainsert_same {β : Type} (xs : List (Nat × β)) (k : Nat) (v : β) : alookup (ainsert xs k v) k = some v := by
  induction xs with
  | nil => simp [ainsert, alookup]
  | cons e r ih =>
    simp only [ainsert]
    split
    · simp [alookup]
    · split
      · simp [alookup]
      · rw [alookup, if_neg (by omega), ih]

theorem alookup_ainsert_other {β : Type} (xs : List (Nat × β)) (k j : Nat) (v : β) (h : j ≠ k) : alookup (ainsert xs k v) j = alookup xs j := by
  induction xs with
  | nil => simp [ainsert, alookup, Ne.symm h]
  | cons e r ih =>
    simp only [ainsert]
    split
    · simp [alookup, Ne.symm h]
    · split
      · subst k; simp [alookup, Ne.symm h]
      · simp [alookup, ih]

/-! ### One byte -/

theorem memWf_mono {lo hi : Nat} {m : List Host.Cell} (h : lo ≤ hi) (w : memWf (some hi) m = true) : memWf (some lo) m = true := by
  cases m with
  | nil => rfl
  | cons c r => simp only [memWf, Bool.and_eq_true, decide_eq_true_eq] at w ⊢; exact ⟨⟨by omega, w.1.2⟩, w.2⟩

theorem memWf_none {lo : Nat} {m : List Host.Cell} (w : memWf (some lo) m = true) : Memory.wf m = true := by
  cases m with
  | nil => rfl
  | cons c r => simp only [Memory.wf, memWf, Bool.and_eq_true, decide_eq_true_eq] at w ⊢; exact ⟨⟨trivial, w.1.2⟩, w.2⟩

/-- In a canonical memory every address up to the bound is unlisted. -/
theorem memGet_below {lo : Nat} {m : List Host.Cell} (w : memWf (some lo) m = true) {a : Nat} (h : a ≤ lo) : memGet m a = unlisted := by
  induction m generalizing lo with
  | nil => rfl
  | cons c r ih =>
    simp only [memWf, Bool.and_eq_true, decide_eq_true_eq] at w
    rw [memGet, if_neg (by omega)]
    exact ih w.2 (by omega)

theorem memPut_wf_some {lo : Nat} {m : List Host.Cell} (w : memWf (some lo) m = true) {a : Nat} (h : lo < a) (b : Byte) :
    memWf (some lo) (memPut m a b) = true := by
  induction m generalizing lo with
  | nil => simp only [memPut]; split <;> simp_all [memWf]
  | cons c r ih =>
    simp only [memWf, Bool.and_eq_true, decide_eq_true_eq] at w
    simp only [memPut]
    split
    · split
      · simp [memWf, w.1.1, w.1.2, w.2]
      · simp [memWf, h, *]
    · split
      · subst a; split
        · exact memWf_mono (by omega) w.2
        · simp [memWf, *]
      · simp only [memWf, Bool.and_eq_true, decide_eq_true_eq]
        exact ⟨w.1, ih w.2 (by omega)⟩

/-- Writing a byte keeps the canonical form. -/
theorem memPut_wf {m : List Host.Cell} (w : Memory.wf m = true) (a : Nat) (b : Byte) : Memory.wf (memPut m a b) = true := by
  cases m with
  | nil => simp only [memPut]; split <;> simp_all [Memory.wf, memWf]
  | cons c r =>
    simp only [Memory.wf, memWf, Bool.and_eq_true, decide_eq_true_eq] at w
    simp only [memPut]
    split
    · split
      · simp [Memory.wf, memWf, w.1.2, w.2]
      · simp [Memory.wf, memWf, *]
    · split
      · subst a; split
        · exact memWf_none w.2
        · simp [Memory.wf, memWf, *]
      · simp only [Memory.wf, memWf, Bool.and_eq_true, decide_eq_true_eq]
        exact ⟨⟨trivial, w.1.2⟩, memPut_wf_some w.2 (by omega) b⟩

/-- A byte read where it has just been written. -/
theorem memGet_memPut_same {m : List Host.Cell} (w : Memory.wf m = true) (a : Nat) (b : Byte) : memGet (memPut m a b) a = b := by
  suffices H : ∀ (m : List Host.Cell) (lo : Option Nat), memWf lo m = true → memGet (memPut m a b) a = b from H m none w
  intro m
  induction m with
  | nil => intro _ _; simp only [memPut]; split <;> simp_all [memGet]
  | cons c r ih =>
    intro lo w
    simp only [memWf, Bool.and_eq_true, decide_eq_true_eq] at w
    simp only [memPut]
    split
    · split
      · rw [memGet, if_neg (by omega), memGet_below w.2 (by omega)]; exact Eq.symm ‹_›
      · simp [memGet]
    · split
      · split
        · subst a; rw [memGet_below w.2 (Nat.le_refl _)]; exact Eq.symm ‹_›
        · simp [memGet]
      · rw [memGet, if_neg (by omega)]; exact ih _ w.2

/-- A byte read elsewhere. -/
theorem memGet_memPut_other {m : List Host.Cell} (a x : Nat) (b : Byte) (h : x ≠ a) (w : Memory.wf m = true) : memGet (memPut m a b) x = memGet m x := by
  suffices H : ∀ (m : List Host.Cell) (lo : Option Nat), memWf lo m = true → memGet (memPut m a b) x = memGet m x from H m none w
  intro m
  induction m with
  | nil => intro _ _; simp only [memPut]; split <;> simp_all [memGet, Ne.symm h]
  | cons c r ih =>
    intro lo w
    simp only [memWf, Bool.and_eq_true, decide_eq_true_eq] at w
    simp only [memPut]
    split
    · split
      · rfl
      · simp [memGet, Ne.symm h]
    · split
      · subst a; split
        · rw [memGet, if_neg (Ne.symm h)]
        · simp [memGet, Ne.symm h]
      · simp only [memGet]; rw [ih _ w.2]

/-! ### Several bytes -/

/-- Writing bytes keeps the canonical form. -/
theorem memPuts_wf {m : List Host.Cell} (w : Memory.wf m = true) (a : Nat) (bs : List Byte) : Memory.wf (memPuts m a bs) = true := by
  induction bs generalizing m a with
  | nil => exact w
  | cons b bs ih => exact ih (memPut_wf w a b) (a + 1)

/-- Bytes outside those written read as before. -/
theorem memGet_memPuts_other {m : List Host.Cell} (w : Memory.wf m = true) (a x : Nat) (bs : List Byte) (h : x < a ∨ a + bs.length ≤ x) :
    memGet (memPuts m a bs) x = memGet m x := by
  induction bs generalizing m a with
  | nil => rfl
  | cons b bs ih =>
    simp only [List.length_cons] at h
    rw [memPuts, ih (memPut_wf w a b) (a + 1) (by omega), memGet_memPut_other a x b (by omega) w]

/-- The bytes written are read back. -/
theorem memGet_memPuts_at {m : List Host.Cell} (w : Memory.wf m = true) (a k : Nat) (bs : List Byte) (h : k < bs.length) :
    memGet (memPuts m a bs) (a + k) = bs[k] := by
  induction bs generalizing m a k with
  | nil => simp at h
  | cons b bs ih =>
    cases k with
    | zero => rw [memPuts, memGet_memPuts_other (memPut_wf w a b) (a + 1) (a + 0) bs (by omega)]; exact memGet_memPut_same w a b
    | succ k => rw [memPuts, show a + (k + 1) = a + 1 + k by omega, ih (memPut_wf w a b) (a + 1) k (by simpa using h)]; simp

/-- Reading a run of bytes that has just been written (R2). -/
theorem memGets_memPuts {m : List Host.Cell} (w : Memory.wf m = true) (a : Nat) (bs : List Byte) : memGets (memPuts m a bs) a bs.length = bs := by
  apply List.ext_getElem
  · simp [memGets]
  · intro k h1 h2
    simp only [memGets, List.getElem_map, List.getElem_range]
    exact memGet_memPuts_at w a k bs h2

end Sys2Proof.Machine
end

