-- ==== Sys2Proof/Laws/Strand.lean ====
section
/-! SUPPORT. Presence and canonical forms: that a form holds the values it was made of, and what the shared frame of a register instruction
leaves (R26 to R31, R37, R116). -/

namespace Sys2Proof.Machine

/-! ### Forms -/

theorem allEq_iff {α : Type} [DecidableEq α] (x : α) (xs : List α) : allEq x xs = true ↔ xs = List.replicate xs.length x := by
  induction xs with
  | nil => simp [allEq]
  | cons a r ih => simp_all [allEq, List.replicate_succ]

/-- A form holds the values it was made of (R27, R28). -/
theorem valsV_classifyV (is : List Nat) (vs : List Word) (h : vs.length = is.length) : valsV is (classifyV is vs) = vs := by
  unfold classifyV
  cases vs with
  | nil => simp_all [valsV]
  | cons v r =>
    dsimp only
    split
    · rename_i e
      rw [allEq_iff] at e
      simp only [valsV, List.map_const', ← h, List.length_cons, List.replicate_succ]
      rw [← e]
    · split
      · split
        · rename_i e
          simp only [decide_eq_true_eq] at e
          exact e.symm
        · rfl
      · rfl

theorem range'_head (is : List Nat) (i : Nat) (h : is = List.range' i is.length) : is = List.range' (is.headD 0) is.length := by
  cases is with
  | nil => simp
  | cons a r =>
    simp only [List.length_cons, List.range'_succ, List.cons.injEq] at h
    simp only [List.headD_cons, List.length_cons, List.range'_succ, List.cons.injEq, true_and]
    rw [h.1]; exact h.2

theorem leading_le (x : Bool) (ps : List Bool) : leading x ps ≤ ps.length := by
  induction ps with
  | nil => simp [leading]
  | cons b r ih => simp only [leading, List.length_cons]; split <;> omega

theorem take_leading (x : Bool) (ps : List Bool) : ps.take (leading x ps) = List.replicate (leading x ps) x := by
  induction ps with
  | nil => simp [leading]
  | cons b r ih =>
    simp only [leading]
    split
    · subst b; simp [List.replicate_succ, ih]
    · simp

theorem range'_threshold (a n l : Nat) (p : Bool) (h : l ≤ n) :
    (List.range' a n).map (fun i => if (!p) = true then decide (a + l ≤ i) else decide (i < a + l)) = List.replicate l p ++ List.replicate (n - l) (!p) := by
  apply List.ext_getElem
  · simp; omega
  · intro k h1 h2
    simp only [List.getElem_map, List.getElem_range', List.getElem_append, List.length_replicate, List.getElem_replicate]
    by_cases c : k < l <;> cases p <;> simp [c] <;> omega

theorem valsQ_classifyQ (is : List Nat) (ps : List Bool) (h : ps.length = is.length) : valsQ is (classifyQ is ps) = ps := by
  unfold classifyQ
  cases ps with
  | nil => simp_all [valsQ]
  | cons p r =>
    dsimp only
    split
    · rename_i e
      rw [allEq_iff] at e
      simp only [valsQ, List.map_const', ← h, List.length_cons, List.replicate_succ]
      rw [← e]
    · split
      · rename_i e
        simp only [Bool.and_eq_true] at e
        obtain ⟨c, q⟩ := e
        have hc : is = List.range' (is.headD 0) is.length := by
          cases is with
          | nil => simp at h
          | cons i t => simp only [contiguous, decide_eq_true_eq] at c; exact range'_head _ _ c
        simp only [valsQ]
        rw [allEq_iff, List.length_drop] at q
        have l := leading_le p (p :: r)
        have e2 : ∀ (j : List Nat) (a : Nat), j = List.range' a j.length → j.map (fun i => if (!p) = true then decide (a + leading p (p :: r) ≤ i) else decide (i < a + leading p (p :: r))) = (List.range' a j.length).map (fun i => if (!p) = true then decide (a + leading p (p :: r) ≤ i) else decide (i < a + leading p (p :: r))) := by
          intro j a e; exact congrArg _ e
        rw [e2 _ _ hc, range'_threshold _ _ _ _ (by omega), ← h, ← q, ← take_leading, List.take_append_drop]
      · rfl

/-! ### Presence -/

theorem length_present (st : Strand) : (present st).length = presentCount st := by
  unfold present presentCount; cases st.mask <;> simp

@[simp] theorem length_valsV_regVals (st : Strand) (wf : StrandWf st) (r : Nat) : (regVals st r).length = presentCount st := by
  rw [← length_present]
  unfold regVals vform
  cases h : alookup st.regs r with
  | none => cases st.undef <;> simp [valsV]
  | some f =>
    cases f with
    | u x => simp [valsV]
    | a b t => simp [valsV]
    | x vs =>
      have m : (r, VForm.x vs) ∈ st.regs := by
        revert h
        induction st.regs with
        | nil => simp [alookup]
        | cons e t ih =>
          simp only [alookup]
          split
          · intro h; simp only [Option.some.injEq] at h; rw [← ‹e.1 = r›, ← h]; simp
          · intro h; exact List.mem_cons_of_mem _ (ih h)
      simp only [valsV]
      rw [wf.cols _ m vs rfl, length_present]

theorem getLsbD_maskOf (ps : List Nat) (k : Nat) (hk : k < 64) : (maskOf ps).getLsbD k = decide (k ∈ ps) := by
  have G : ∀ (ps : List Nat) (m : DWord), (ps.foldl (fun m p => m ||| (1#64 <<< p)) m).getLsbD k = (m.getLsbD k || decide (k ∈ ps)) := by
    intro ps
    induction ps with
    | nil => intro m; simp
    | cons p r ih =>
      intro m
      rw [List.foldl_cons, ih]
      by_cases e : k = p
      · subst e; simp [hk]
      · have : (1#64 <<< p).getLsbD k = false := by
          simp [BitVec.getLsbD_shiftLeft, hk]; omega
        simp [this, e]
  rw [maskOf, G]; simp

/-- The bits of the mask of some ascending positions are those positions. -/
theorem maskBits_maskOf (ps : List Nat) (hs : ps.Pairwise (· < ·)) (hb : ∀ p ∈ ps, p < 64) : maskBits (maskOf ps) = ps := by
  unfold maskBits
  have e : (List.range 64).filter (fun k => (maskOf ps).getLsbD k) = (List.range 64).filter (fun k => decide (k ∈ ps)) := by
    apply List.filter_congr
    intro k hk
    exact getLsbD_maskOf ps k (List.mem_range.mp hk)
  rw [e]
  apply List.Perm.eq_of_pairwise (le := (· < ·))
  · intro a b _ _ h1 h2; omega
  · exact List.pairwise_lt_range.filter _
  · exact hs
  · apply List.perm_of_nodup_nodup_toFinset_eq
    · exact List.nodup_range.filter _
    · exact hs.imp (by omega)
    · ext k
      simp only [List.mem_toFinset, List.mem_filter, List.mem_range, decide_eq_true_eq]
      exact ⟨fun h => h.2, fun h => ⟨hb k h, h⟩⟩

theorem sorted_present (st : Strand) : (present st).Pairwise (· < ·) := by
  unfold present
  cases st.mask with
  | none => exact List.pairwise_lt_range'
  | some m =>
    rw [List.pairwise_map]
    exact (List.pairwise_lt_range.filter _).imp (by omega)

/-- A mask marks indices of one window (R25). -/
theorem oneWindow_of_mask {st : Strand} (m : st.mask.isSome = true) : oneWindow (present st) = true := by
  unfold present oneWindow
  cases h : st.mask with
  | none => simp [h] at m
  | some w =>
    simp only [List.all_eq_true, List.mem_map, decide_eq_true_eq, forall_exists_index, and_imp]
    intro i k hk e
    have q : ∀ x ∈ (maskBits w).map (fun p => st.first / 64 * 64 + p), x / 64 = st.first / 64 := by
      intro x hx
      simp only [maskBits, List.mem_map, List.mem_filter, List.mem_range] at hx
      omega
    rw [q i (by rw [List.mem_map]; exact ⟨k, hk, e⟩)]
    cases hm : maskBits w with
    | nil => simp [hm] at hk
    | cons a r => rw [List.map_cons, List.headD_cons]; exact (q _ (by simp [hm])).symm

/-- Settling the mask keeps the present indices (R31). -/
theorem present_settleMask {st u : Strand} (wf : StrandWf st) (hf : u.first = st.first) (hc : u.count = st.count)
    (hw : hasX u = true → oneWindow (present st) = true) : present (settleMask (present st) u) = present st := by
  have srt := sorted_present st
  have win : (hasX u || !contiguous (present st)) = true → oneWindow (present st) = true := by
    intro h
    simp only [Bool.or_eq_true] at h
    rcases h with h | h
    · exact hw h
    · by_cases m : st.mask.isSome = true
      · exact oneWindow_of_mask m
      · exfalso
        have e : present st = List.range' st.first st.count := by unfold present; cases hm : st.mask <;> simp_all
        rw [e] at h
        have n := wf.held
        rw [e] at n
        cases hcnt : st.count with
        | zero => simp [hcnt] at n
        | succ c => simp [hcnt, List.range'_succ, contiguous] at h
  unfold settleMask
  split
  · rename_i c
    have ow := win c
    have un : present { u with mask := some (maskOf ((present st).map (fun i => i % 64))) } =
        (maskBits (maskOf ((present st).map (fun i => i % 64)))).map (fun p => u.first / 64 * 64 + p) := rfl
    rw [un, maskBits_maskOf]
    · rw [List.map_map, hf, wf.first]
      conv_rhs => rw [← List.map_id (present st)]
      apply List.map_congr_left
      intro i hi
      simp only [oneWindow, List.all_eq_true, decide_eq_true_eq] at ow
      have := ow i hi
      simp only [Function.comp_apply, id_eq]
      omega
    · rw [List.pairwise_map]
      apply List.Pairwise.imp_of_mem _ srt
      intro a b ha hb hab
      simp only [oneWindow, List.all_eq_true, decide_eq_true_eq] at ow
      have := ow a ha
      have := ow b hb
      omega
    · intro p hp
      simp only [List.mem_map] at hp
      omega
  · rename_i c
    simp only [Bool.or_eq_true, Bool.not_eq_true', not_or, Bool.not_eq_true, Bool.not_eq_false] at c
    have ct := c.2
    have un : present { u with mask := none } = List.range' u.first u.count := rfl
    rw [un, hf, hc]
    cases hp : present st with
    | nil => exact absurd hp wf.held
    | cons i r =>
      have hr : present st = List.range' i (present st).length := by
        rw [hp] at ct ⊢; simpa only [contiguous, decide_eq_true_eq] using ct
      have f := wf.first
      have l := wf.last
      have ln : (present st).length = r.length + 1 := by rw [hp]; rfl
      have g : (present st).getLastD 0 = i + r.length := by
        rw [hr, ln]
        simp [List.range'_concat]
      have f' : st.first = i := by rw [f, hp]; rfl
      rw [← hp, hr, ln, f']
      congr 1
      omega

end Sys2Proof.Machine
end

