-- ==== Sys2Proof/Laws/Commit.lean ====
section
/-! SUPPORT. What writing a result does where no cut is needed (R35, R37), and the frame of a register instruction: `vop_gives` and
`push_stacks` say once what such an instruction does, and every statement about one cites them. -/

namespace Sys2Proof.Machine

/-! ### The tables -/

theorem find?_updWhere {α : Type} (k : α → Nat) (n : Nat) (f : α → α) (xs : List α) (a : α)
    (h : xs.find? (fun t => k t == n) = some a) (hf : k (f a) = n) :
    (updWhere (fun t => k t == n) f xs).find? (fun t => k t == n) = some (f a) := by
  induction xs with
  | nil => simp at h
  | cons x r ih =>
    simp only [List.find?_cons] at h
    simp only [updWhere, List.map_cons, List.find?_cons]
    by_cases e : k x = n
    · simp only [e, beq_self_eq_true, Option.some.injEq] at h
      subst h
      simp [e, hf]
    · have e' : (k x == n) = false := by simpa using e
      simp only [e'] at h
      simp only [e', Bool.false_eq_true, if_false]
      exact ih h

theorem strandOf_sid {s : State} {sid : Nat} {st : Strand} (h : strandOf s sid = some st) : st.sid = sid := by
  have := List.find?_some h; simpa using this

/-- Reading back a strand that has just been put. -/
theorem strandOf_putStrand {s : State} {sid : Nat} {st u : Strand} (h : strandOf s sid = some st) (hu : u.sid = sid) :
    strandOf (putStrand s u) sid = some u := by
  subst hu
  exact find?_updWhere (fun t : Strand => t.sid) u.sid (fun _ => u) s.strands st h rfl

@[simp] theorem teamOf_putStrand (s : State) (u : Strand) (lk n : Nat) : teamOf (putStrand s u) lk n = teamOf s lk n := rfl

/-! ### Writing a result -/

/-- The strand that a result leaves. -/
def written (st : Strand) (r : Result) (len : Nat) : Strand :=
  settleMask (present st) { st with
    regs := (r.regs.map (fun e => (e.1, classifyV (present st) e.2))).foldl (fun a e => ainsert a e.1 e.2) st.regs
    qs := (r.stack.map (fun q => q.map (classifyQ (present st)))).getD st.qs
    poison := st.poison.filter (fun e => !((r.regs.map (fun e => (e.1, classifyV (present st) e.2))).any (fun f => f.1 == e.1))) ++ r.pois
    dirty := if r.wrote then markDirty st.dirty ((r.regs.map (fun e => (e.1, classifyV (present st) e.2))).map (fun e => e.1)) else st.dirty
    pc := st.pc + BitVec.ofNat 64 len }

/-- No cut comes first where none is needed (R37). -/
theorem commit_eq_writeResult {s : State} {st : Strand} {r : Result} {len : Nat}
    (h : oneSheaf st ∨ (∀ c ∈ r.regs, isXV (classifyV (present st) c.2) = false) ∧ ∀ c ∈ r.stack.getD [], isXQ (classifyQ (present st) c) = false) :
    commit s st r len = writeResult s st r len := by
  unfold commit
  dsimp only
  split
  · rename_i c
    simp only [Bool.and_eq_true, Bool.or_eq_true, List.any_eq_true, Option.isNone_iff_eq_none] at c
    obtain ⟨x, m⟩ := c
    rcases h with h | h
    · rcases h with h | ⟨h, w⟩
      · simp [m] at h
      · rw [if_neg (by rw [Option.isNone_iff_eq_none]; intro q; simp [q] at h), if_pos w]
    · exfalso
      rcases x with ⟨e, he, hx⟩ | ⟨e, he, hx⟩
      · simp [h.1 e he] at hx
      · simp [h.2 e he] at hx
  · rfl

/-- A comparator that watches nothing written, or is not armed, changes nothing (R231). -/
theorem comparators_quiet {s : State} {sid : Nat} {regs : List Nat} {pc : Nat}
    (h : ∀ st, strandOf s sid = some st → unwatched s st regs) : comparators s sid regs pc = s := by
  unfold comparators
  cases e : strandOf s sid with
  | none => rfl
  | some st =>
    dsimp only
    cases et : st.team.bind (teamOf s st.lk) with
    | none => rfl
    | some t =>
      have q := h st e t et
      dsimp only
      have none : t.cmps.findIdx? (fun c => c.armed && regs.contains c.reg &&
          (if c.all then ((((present st).zip (regVals st c.reg)).filter (fun e => cmpTest c e.2)).map (fun e => e.1)).length == (present st).length
           else !((((present st).zip (regVals st c.reg)).filter (fun e => cmpTest c e.2)).map (fun e => e.1)).isEmpty)) = none := by
        rw [List.findIdx?_eq_none_iff]
        intro c hc
        have := q c hc
        cases a : c.armed <;> simp_all
      rw [none]

/-- No trap of R35 where no form is X, or every register is below the budget. -/
theorem xFormOnly_quiet {B : Nat} {fs : List (Nat × VForm)} (h : (∀ e ∈ fs, isXV e.2 = false) ∨ ∀ e ∈ fs, e.1 < B) : xFormOnly B fs = false := by
  rcases h with h | h
  · have : fs.any (fun e => isXV e.2) = false := List.any_eq_false.mpr fun e he => by simp [h e he]
    simp +contextual [xFormOnly, this, h]
  · simp only [xFormOnly, Bool.or_eq_false_iff, Bool.and_eq_false_imp, List.any_eq_false, decide_eq_true_eq, Bool.and_eq_true]
    exact ⟨fun e he hx => by have := h e he; omega, fun _ e he => by have := h e he; omega⟩

/-- Where no register that is form-only needs X and no comparator watches, a result is written in the strand and changes nothing else. -/
theorem writeResult_eq {s : State} {st : Strand} {r : Result} {len : Nat} (hs : strandOf s st.sid = some st)
    (hf : (∀ c ∈ r.regs, isXV (classifyV (present st) c.2) = false) ∨ ∀ c ∈ r.regs, c.1 < budgetOf s st)
    (hc : r.wrote = true → unwatched s st (r.regs.map (fun e => e.1))) :
    writeResult s st r len = putStrand s (written st r len) := by
  unfold writeResult
  dsimp only
  rw [if_neg]
  · have e : settleMask (present st) { st with
        regs := (r.regs.map (fun e => (e.1, classifyV (present st) e.2))).foldl (fun a e => ainsert a e.1 e.2) st.regs
        qs := (r.stack.map (fun q => q.map (classifyQ (present st)))).getD st.qs
        poison := st.poison.filter (fun e => !((r.regs.map (fun e => (e.1, classifyV (present st) e.2))).any (fun f => f.1 == e.1))) ++ r.pois
        dirty := if r.wrote then markDirty st.dirty ((r.regs.map (fun e => (e.1, classifyV (present st) e.2))).map (fun e => e.1)) else st.dirty
        pc := st.pc + BitVec.ofNat 64 len } = written st r len := rfl
    rw [e]
    cases hw : r.wrote with
    | false => rfl
    | true =>
      simp only [if_true]
      apply comparators_quiet
      intro x hx
      rw [strandOf_putStrand (u := written st r len) hs rfl, Option.some.injEq] at hx
      subst hx
      intro t ht c hc' ha
      have := hc hw t ht c hc' ha
      simpa [List.map_map, Function.comp_def] using this
  · rw [xFormOnly_quiet]
    · simp
    · rcases hf with hf | hf
      · refine .inl fun e he => ?_
        obtain ⟨c, hc', rfl⟩ := List.mem_map.mp he
        exact hf c hc'
      · refine .inr fun e he => ?_
        obtain ⟨c, hc', rfl⟩ := List.mem_map.mp he
        exact hf c hc'

/-! ### Columns and rows -/

theorem length_rows {α : Type} (n : Nat) (d : α) (cols : List (List α)) : (rows n d cols).length = n := by simp [rows]

/-- Column k of the rows of some columns. -/
theorem rows_column {α : Type} (n : Nat) (d : α) (cols : List (List α)) (k : Nat) (hk : k < cols.length) (h : (cols[k]).length = n) :
    (rows n d cols).map (fun r => nth r k d) = cols[k] := by
  apply List.ext_getElem
  · simp [rows, h]
  · intro i h1 h2
    simp only [rows, List.map_map, List.getElem_map, List.getElem_range, Function.comp_apply, nth]
    rw [List.getD_eq_getElem _ _ (by simpa using hk), List.getElem_map, List.getD_eq_getElem _ _ h2]

theorem nth_splitWords (n k x : Nat) (h : k < n) : nth (splitWords n x) k 0 = wordOf k x := by
  induction n generalizing k x with
  | zero => omega
  | succ n ih =>
    cases k with
    | zero => simp [nth, splitWords, wordOf]
    | succ k =>
      have := ih k (x / 2 ^ 32) (by omega)
      simp only [nth, splitWords, List.getD_cons_succ] at this ⊢
      rw [this, wordOf, wordOf, Nat.div_div_eq_div_mul, ← Nat.pow_add]
      congr 3
      omega

theorem length_guardFlags (st : Strand) (wf : StrandWf st) (g : Guard) : (guardFlags st g).length = presentCount st := by
  rw [← length_present]
  cases g with
  | none => simp [guardFlags]
  | q neg k =>
    simp only [guardFlags, List.length_map, qVals, qform, nth]
    cases h : st.qs.getD k.toNat (.u false) with
    | u b => simp [valsQ]
    | c a b => simp [valsQ]
    | x bs =>
      simp only [valsQ]
      rw [length_present]
      by_cases l : k.toNat < st.qs.length
      · rw [List.getD_eq_getElem _ _ l] at h
        exact wf.qcols _ (List.getElem_mem l) bs h
      · rw [List.getD_eq_default _ _ (by omega)] at h
        cases h

theorem length_qVals (st : Strand) (wf : StrandWf st) (k : Nat) : (qVals st k).length = presentCount st := by
  rw [← length_present]
  simp only [qVals, qform, nth]
  cases h : st.qs.getD k (.u false) with
  | u b => simp [valsQ]
  | c a b => simp [valsQ]
  | x bs =>
    simp only [valsQ]
    rw [length_present]
    by_cases l : k < st.qs.length
    · rw [List.getD_eq_getElem _ _ l] at h
      exact wf.qcols _ (List.getElem_mem l) bs h
    · rw [List.getD_eq_default _ _ (by omega)] at h
      cases h

theorem length_guarded {α : Type} (fs : List Bool) (a b : List α) (n : Nat) (hf : fs.length = n) (ha : a.length = n) (hb : b.length = n) :
    (guarded fs a b).length = n := by simp [guarded, hf, ha, hb]

theorem length_operandRows (st : Strand) (srcs : List Opnd) : (operandRows st srcs).length = presentCount st := by simp [operandRows, length_rows]

/-- The columns of a guarded write are those of R42. -/
theorem guardedWrite_regs {st : Strand} (wf : StrandWf st) (g : Guard) (d n : Nat) (vals : List Nat) :
    (guardedWrite st g d n vals).regs = columns st g d n vals := by
  simp only [guardedWrite, columns]
  apply List.map_congr_left
  intro k hk
  rw [List.mem_range] at hk
  congr 1
  have old : (rows (presentCount st) 0 ((List.range' d n).map (regVals st))).map (fun r => nth r k 0) = regVals st (d + k) := by
    have := rows_column (presentCount st) (0 : Word) ((List.range' d n).map (regVals st)) k (by simpa using hk) (by simp [length_valsV_regVals st wf])
    rw [this]
    simp
  rw [List.map_map, guarded, ← old]
  apply List.ext_getElem
  · simp
  · intro i h1 h2
    simp only [List.getElem_map, List.getElem_zip, Function.comp_apply]
    split
    · rw [nth_splitWords n k _ hk]
    · rfl

theorem mem_acting {st : Strand} {g : Guard} {i : Nat} : i ∈ acting st g → i ∈ present st := by
  simp only [acting, List.mem_filterMap]
  rintro ⟨e, he, hi⟩
  split at hi
  · simp only [Option.some.injEq] at hi; rw [← hi]; exact (List.of_mem_zip he).1
  · simp at hi

theorem foldl_ainsert_lookup {β : Type} (es : List (Nat × β)) (xs : List (Nat × β)) (r : Nat) (h : ∀ e ∈ es, e.1 ≠ r) :
    alookup (es.foldl (fun a e => ainsert a e.1 e.2) xs) r = alookup xs r := by
  induction es generalizing xs with
  | nil => rfl
  | cons e t ih =>
    rw [List.foldl_cons, ih _ (fun x hx => h x (List.mem_cons_of_mem _ hx)), alookup_ainsert_other]
    exact fun q => h e (by simp) q.symm

theorem foldl_ainsert_hit {β : Type} (es : List (Nat × β)) (xs : List (Nat × β)) (nd : (es.map (fun e => e.1)).Nodup) (e : Nat × β) (h : e ∈ es) :
    alookup (es.foldl (fun a e => ainsert a e.1 e.2) xs) e.1 = some e.2 := by
  induction es generalizing xs with
  | nil => simp at h
  | cons x t ih =>
    rw [List.map_cons, List.nodup_cons] at nd
    rw [List.foldl_cons]
    rcases List.mem_cons.mp h with rfl | h
    · rw [foldl_ainsert_lookup t _ e.1 (fun y hy q => nd.1 (by rw [← q]; exact List.mem_map_of_mem hy)), alookup_ainsert_same]
    · exact ih _ nd.2 h

theorem hasX_iff (st : Strand) : hasX st = true ↔ (∃ e ∈ st.regs, isXV e.2 = true) ∨ ∃ q ∈ st.qs, isXQ q = true := by
  simp [hasX]

theorem mem_ainsert {β : Type} {xs : List (Nat × β)} {k : Nat} {v : β} {e : Nat × β} (h : e ∈ ainsert xs k v) : e = (k, v) ∨ e ∈ xs := by
  induction xs with
  | nil => simp only [ainsert, List.mem_singleton] at h; exact .inl h
  | cons x r ih =>
    simp only [ainsert] at h
    split at h
    · rcases List.mem_cons.mp h with h | h
      · exact .inl h
      · exact .inr h
    · split at h
      · rcases List.mem_cons.mp h with h | h
        · exact .inl h
        · exact .inr (List.mem_cons_of_mem _ h)
      · rcases List.mem_cons.mp h with h | h
        · exact .inr (by rw [h]; simp)
        · rcases ih h with h | h
          · exact .inl h
          · exact .inr (List.mem_cons_of_mem _ h)

theorem mem_foldl_ainsert {β : Type} {es xs : List (Nat × β)} {e : Nat × β} (h : e ∈ es.foldl (fun a e => ainsert a e.1 e.2) xs) : e ∈ es ∨ e ∈ xs := by
  induction es generalizing xs with
  | nil => exact .inr h
  | cons x t ih =>
    rcases ih h with h | h
    · exact .inl (List.mem_cons_of_mem _ h)
    · rcases mem_ainsert h with h | h
      · exact .inl (by rw [h]; simp)
      · exact .inr h

/-- Strand facts that a write keeps: the present indices, and a mask just where R31 asks for one. -/
theorem written_present {st : Strand} (wf : StrandWf st) {r : Result} {len : Nat}
    (h : oneSheaf st ∨ (∀ c ∈ r.regs, isXV (classifyV (present st) c.2) = false) ∧ ∀ c ∈ r.stack.getD [], isXQ (classifyQ (present st) c) = false) :
    present (written st r len) = present st := by
  unfold written
  refine present_settleMask wf ?_ ?_ ?_
  · rfl
  · rfl
  intro hx
  rcases h with h | h
  · rcases h with h | h
    · exact oneWindow_of_mask h
    · exact h.2
  · by_cases m : st.mask.isSome = true
    · exact oneWindow_of_mask m
    · exfalso
      have nx := wf.attached (by simpa using m)
      rw [hasX_iff] at hx
      have nx' : ¬((∃ e ∈ st.regs, isXV e.2 = true) ∨ ∃ q ∈ st.qs, isXQ q = true) := by rw [← hasX_iff, nx]; simp
      rcases hx with ⟨e, he, hx⟩ | ⟨q, hq, hx⟩
      · rcases mem_foldl_ainsert he with he | he
        · simp only [List.mem_map] at he
          obtain ⟨c, hc, rfl⟩ := he
          simp [h.1 c hc] at hx
        · exact nx' (.inl ⟨e, he, hx⟩)
      · cases hst : r.stack with
        | none => simp only [hst, Option.map_none, Option.getD_none] at hq; exact nx' (.inr ⟨q, hq, hx⟩)
        | some cs =>
          simp only [hst, Option.map_some, Option.getD_some, List.mem_map] at hq
          obtain ⟨c, hc, rfl⟩ := hq
          have := h.2 c (by simpa [hst] using hc)
          simp [this] at hx

theorem settleMask_isSome (is : List Nat) (u : Strand) : (settleMask is u).mask.isSome = (hasX (settleMask is u) || !contiguous is) := by
  unfold settleMask
  have : hasX { u with mask := if (hasX u || !contiguous is) = true then some (maskOf (is.map (fun i => i % 64))) else none } = hasX u := rfl
  rw [this]
  cases h : (hasX u || !contiguous is) <;> simp

/-- A guarded write leaves what `Wrote` says. -/
theorem written_wrote {st : Strand} (wf : StrandWf st) {g : Guard} {len d n : Nat} {vals : List Nat} (hv : vals.length = presentCount st)
    (h : oneSheaf st ∨ ∀ c ∈ columns st g d n vals, isXV (classifyV (present st) c.2) = false) :
    Wrote st (written st (guardedWrite st g d n vals) len) g len d n vals := by
  have hr := guardedWrite_regs wf g d n vals
  have stk : (guardedWrite st g d n vals).stack = none := rfl
  have pr : present (written st (guardedWrite st g d n vals) len) = present st := by
    apply written_present wf
    rcases h with h | h
    · exact .inl h
    · exact .inr ⟨by rw [hr]; exact h, by rw [stk]; simp⟩
  have lookup : ∀ r, vform (written st (guardedWrite st g d n vals) len) r =
      match alookup (((columns st g d n vals).map (fun e => (e.1, classifyV (present st) e.2))).foldl (fun a e => ainsert a e.1 e.2) st.regs) r with
      | some f => f
      | none => match st.undef with | some seed => .u (Config.freeWord (seed + r)) | none => .u 0 := by
    intro r
    rw [← hr]; rfl
  refine ⟨rfl, pr, ?_, ?_, ?_, settleMask_isSome _ _, ?_, rfl⟩
  · intro c hc
    have f : vform (written st (guardedWrite st g d n vals) len) c.1 = classifyV (present st) c.2 := by
      have hit := foldl_ainsert_hit ((columns st g d n vals).map (fun e => (e.1, classifyV (present st) e.2))) st.regs
        (by
          simp only [columns, List.map_map, Function.comp_def]
          exact (List.nodup_range).map (fun a b q => by simpa using q))
        (c.1, classifyV (present st) c.2) (List.mem_map_of_mem (f := fun e : Nat × List Word => (e.1, classifyV (present st) e.2)) hc)
      rw [lookup, hit]
    refine ⟨?_, f⟩
    rw [regVals, f, pr, valsV_classifyV]
    rw [length_present]
    simp only [columns, List.mem_map] at hc
    obtain ⟨k, _, rfl⟩ := hc
    exact length_guarded _ _ _ _ (length_guardFlags st wf g) (by rw [List.length_map]; exact hv) (length_valsV_regVals st wf _)
  · intro r hr'
    rw [lookup, foldl_ainsert_lookup]
    · rfl
    · intro e he
      simp only [columns, List.map_map, List.mem_map, List.mem_range, Function.comp_apply] at he
      obtain ⟨k, hk, rfl⟩ := he
      dsimp only
      omega
  · intro e
    have hp : (written st (guardedWrite st g d n vals) len).poison =
        st.poison.filter (fun e => !((columns st g d n vals).map (fun e => (e.1, classifyV (present st) e.2))).any (fun f => f.1 == e.1)) ++
          keptPoison st g (List.range' d n) := by rw [← hr]; rfl
    rw [hp, List.mem_append, List.mem_filter]
    have a1 : ((columns st g d n vals).map (fun e => (e.1, classifyV (present st) e.2))).any (fun f => f.1 == e.1) = decide (d ≤ e.1 ∧ e.1 < d + n) := by
      rw [Bool.eq_iff_iff]
      simp only [columns, List.map_map, List.any_map, List.any_eq_true, List.mem_range, Function.comp_apply, beq_iff_eq, decide_eq_true_eq]
      constructor
      · rintro ⟨k, hk, e⟩; omega
      · intro q; exact ⟨e.1 - d, by omega, by omega⟩
    have a2 : e ∈ keptPoison st g (List.range' d n) ↔ e ∈ st.poison ∧ (d ≤ e.1 ∧ e.1 < d + n) ∧ e.2 ∉ acting st g := by
      unfold keptPoison
      split
      · rename_i q; simp only [List.isEmpty_iff] at q; simp [q]
      · simp [List.mem_filter, List.mem_range'_1]
    rw [a1, a2]
    simp only [Bool.not_eq_true', decide_eq_false_iff_not]
    tauto
  · have hd : (written st (guardedWrite st g d n vals) len).dirty = if (guardedWrite st g d n vals).wrote
        then markDirty st.dirty (((guardedWrite st g d n vals).regs.map (fun e => (e.1, classifyV (present st) e.2))).map (fun e => e.1)) else st.dirty := rfl
    have hw : (guardedWrite st g d n vals).wrote = !(acting st g).isEmpty := rfl
    have hn : ((guardedWrite st g d n vals).regs.map (fun e => (e.1, classifyV (present st) e.2))).map (fun e => e.1) = List.range' d n := by
      simp [guardedWrite, List.map_map, Function.comp_def, List.range'_eq_map_range]
    rw [hd, hw, hn]
    cases (acting st g).isEmpty <;> rfl

/-! ### The frame of a register instruction -/

/-- On the issuing strand (log 1). -/
theorem onCur_issuing {s : State} {st : Strand} (h : Issuing s st) (f : Strand → State) : onCur s f = finish (f st) := by
  unfold onCur; rw [h.cur]; simp [h.here]

/-- An operation that names no absent address completes. -/
theorem finish_next {s : State} (h : s.badAddr = none) : finish s = .next s := by unfold finish; rw [h]

theorem regFrame_ready {h : Hdr} {len : Nat} {srcs : List Opnd} {dests : List Nat} {stack : Bool} {f : State → Strand → State} {s : State} {st : Strand}
    (rd : Ready s st h.g srcs dests stack) : regFrame h len srcs dests stack f s = finish (f s st) := by
  unfold regFrame
  rw [onCur_issuing rd.toIssuing]
  dsimp only
  rw [rd.results, rd.clean]
  rfl

/-- What an instruction of the shape `vop` does: it gives its value to its destinations where it acts, and nothing else changes. -/
theorem vop_gives {i : Instr} {h : Hdr} {len d n : Nat} {srcs : List Opnd} {f : List Nat → Nat}
    (hi : ∀ s, exec i s = vop h len d n srcs f s) : Gives i h.g len d n srcs f := by
  intro s st rd wr un
  rw [hi]
  unfold vop
  rw [regFrame_ready rd]
  have wf := rd.wf
  have hr := guardedWrite_regs wf h.g d n ((operandRows st srcs).map f)
  have hv : ((operandRows st srcs).map f).length = presentCount st := by simp [length_operandRows]
  have hx : oneSheaf st ∨ ∀ c ∈ columns st h.g d n ((operandRows st srcs).map f), isXV (classifyV (present st) c.2) = false := by
    rcases wr with w | w
    · exact .inr w
    · exact .inl w.1
  refine ⟨written st (guardedWrite st h.g d n ((operandRows st srcs).map f)) len, ?_, written_wrote wf hv hx⟩
  have ce : commit s st (guardedWrite st h.g d n ((operandRows st srcs).map f)) len = putStrand s (written st (guardedWrite st h.g d n ((operandRows st srcs).map f)) len) := by
    rw [commit_eq_writeResult (by rcases hx with x | x; exact .inl x; exact .inr ⟨by rw [hr]; exact x, by simp [guardedWrite]⟩)]
    apply writeResult_eq rd.here
    · rw [hr]
      rcases wr with w | w
      · exact .inl w
      · exact .inr w.2
    · intro _
      rw [hr]
      intro t ht c hc ha
      have := un t ht c hc ha
      simpa [columns, List.map_map, Function.comp_def, List.range'_eq_map_range] using this
  rw [show (rows (presentCount st) 0 (srcs.map (opndVals st))) = operandRows st srcs from rfl, ce]
  exact finish_next rd.addr

/-- The stack that `stackWrite` leaves, column by column. -/
theorem stackWrite_eq (st : Strand) (flags : List Bool) (f : Nat → List Bool → List Bool) :
    stackWrite st flags f = (List.range 8).map (fun k =>
      (guarded flags ((List.range (presentCount st)).zip (stackRows st) |>.map (fun e => f e.1 e.2)) (stackRows st)).map (fun r => nth r k false)) := by
  unfold stackWrite
  dsimp only
  apply List.map_congr_left
  intro k _
  have hl : (rows (presentCount st) false ((List.range 8).map (qVals st))).length = presentCount st := length_rows _ _ _
  congr 1
  rw [hl]
  apply List.ext_getElem
  · simp [guarded, stackRows, hl]
  · intro i h1 h2
    simp [guarded, stackRows, List.getElem_map, List.getElem_zip, List.getElem_range]

/-- A write of the stack leaves what `WroteStack` says. -/
theorem written_wroteStack {st : Strand} (wf : StrandWf st) {r : Result} {len : Nat} {new : List (List Bool)} (hn : new.length = presentCount st)
    (hr : r = { regs := [], stack := some ((List.range 8).map (fun k => new.map (fun r => nth r k false))), pois := [], acted := [] })
    (h : stackable st ((List.range 8).map (fun k => new.map (fun r => nth r k false)))) :
    WroteStack st (written st r len) len new := by
  subst hr
  have pr : present (written st { regs := [], stack := some ((List.range 8).map (fun k => new.map (fun r => nth r k false))), pois := [], acted := [] } len) = present st := by
    apply written_present wf
    rcases h with h | h
    · exact .inr ⟨by simp, by simpa using h⟩
    · exact .inl h
  have qf : ∀ k < 8, qform (written st { regs := [], stack := some ((List.range 8).map (fun k => new.map (fun r => nth r k false))), pois := [], acted := [] } len) k =
      classifyQ (present st) (new.map (fun r => nth r k false)) := by
    intro k hk
    have : qform (written st { regs := [], stack := some ((List.range 8).map (fun k => new.map (fun r => nth r k false))), pois := [], acted := [] } len) k =
        nth (((List.range 8).map (fun k => new.map (fun r => nth r k false))).map (classifyQ (present st))) k (.u false) := rfl
    rw [this, nth, List.getD_eq_getElem _ _ (by simpa using hk)]
    simp
  have qv : ∀ k < 8, qVals (written st { regs := [], stack := some ((List.range 8).map (fun k => new.map (fun r => nth r k false))), pois := [], acted := [] } len) k =
      new.map (fun r => nth r k false) := by
    intro k hk
    rw [qVals, qf k hk, pr, valsQ_classifyQ]
    simp [hn, length_present]
  refine ⟨rfl, pr, qv, ?_, settleMask_isSome _ _, ?_⟩
  · intro k hk; rw [qf k hk, qv k hk]
  · have : (written st { regs := [], stack := some ((List.range 8).map (fun k => new.map (fun r => nth r k false))), pois := [], acted := [] } len).poison = st.poison := by
      simp [written, settleMask]
    unfold written settleMask
    simp [Result.wrote]

theorem length_stackRows (st : Strand) : (stackRows st).length = presentCount st := by simp [stackRows, length_rows]

/-- What writing the stack does in the frame of a register instruction. -/
theorem stack_stacks {i : Instr} {h : Hdr} {len : Nat} {srcs : List Opnd} {f : List Nat → List Bool → List Bool} {r : Strand → Result}
    (hi : ∀ s, exec i s = regFrame h len srcs [] true (fun s st => commit s st (r st) len) s)
    (hr : ∀ st, StrandWf st → r st = Result.mk [] (some ((List.range 8).map (fun k =>
      (guarded (guardFlags st h.g) (((operandRows st srcs).zip (stackRows st)).map (fun e => f e.1 e.2)) (stackRows st)).map (fun r => nth r k false)))) [] []) : Stacks i h.g len srcs f := by
  intro s st rd new sb
  rw [hi, regFrame_ready rd]
  have wf := rd.wf
  have hn : new.length = presentCount st := length_guarded _ _ _ _ (length_guardFlags st wf h.g) (by simp [length_operandRows, length_stackRows]) (length_stackRows st)
  refine ⟨written st (r st) len, ?_, written_wroteStack wf hn (hr st wf) sb⟩
  rw [commit_eq_writeResult, writeResult_eq rd.here, finish_next]
  · exact rd.addr
  · rw [hr st wf]; simp
  · rw [hr st wf]; simp [Result.wrote]
  · rw [hr st wf]
    rcases sb with w | w
    · exact .inr ⟨by simp, by simpa using w⟩
    · exact .inl w

theorem push_stacks {i : Instr} {h : Hdr} {len : Nat} {srcs : List Opnd} {p : List Nat → Bool} (hi : ∀ s, exec i s = pushOp h len srcs p s) :
    Stacks i h.g len srcs (fun x old => p x :: old.take 7) := by
  apply stack_stacks (f := fun x old => p x :: old.take 7) (r := fun st => pushResult st (guardFlags st h.g) ((operandRows st srcs).map p))
  · intro s; rw [hi]; rfl
  · intro st wf
    unfold pushResult
    rw [stackWrite_eq]
    congr 3
    funext k
    congr 2
    apply List.ext_getElem
    · simp [length_operandRows, length_stackRows]
    · intro j h1 h2
      simp only [List.getElem_map, List.getElem_zip, List.getElem_range, pushAt, nth]
      rw [List.getD_eq_getElem _ _ (by simp [length_operandRows, length_stackRows] at h2 ⊢; exact h2)]
      simp

theorem pop_stacks {i : Instr} {h : Hdr} {len n : Nat} (hi : ∀ s, exec i s = popOp h len n s) :
    Stacks i h.g len [] (fun _ old => (List.range 8).map (fun k => if k + n ≤ 7 then nth old (k + n) false else false)) := by
  apply stack_stacks (f := fun _ old => (List.range 8).map (fun k => if k + n ≤ 7 then nth old (k + n) false else false))
    (r := fun st => { regs := [], stack := some (stackWrite st (guardFlags st h.g) (fun _ old => popAt old n)), pois := [], acted := [] })
  · intro s; rw [hi]; rfl
  · intro st wf
    rw [stackWrite_eq]
    congr 3
    funext k
    congr 2
    apply List.ext_getElem
    · simp [length_operandRows, length_stackRows]
    · intro j h1 h2
      simp only [List.getElem_map, List.getElem_zip, popAt]

end Sys2Proof.Machine
end

