-- ==== Sys2Proof/Laws/Address.lean ====
section
/-! SUPPORT. No operation over the state but an access names an absent address (R16): what the shared operations leave in `badAddr`. So an event completes
wherever the spec gives it an effect. -/

namespace Sys2Proof.Machine
@[simp] theorem foldl_badAddr {α : Type} (f : State → α → State) (xs : List α) (s : State) (h : ∀ a x, (f a x).badAddr = a.badAddr) : (xs.foldl f s).badAddr = s.badAddr := by
  induction xs generalizing s with
  | nil => rfl
  | cons x r ih => rw [List.foldl_cons, ih, h]
@[simp] theorem foldl_badAddr2 {α β : Type} (f : β × State → α → β × State) (xs : List α) (s : β × State) (h : ∀ a x, (f a x).2.badAddr = a.2.badAddr) : (xs.foldl f s).2.badAddr = s.2.badAddr := by
  induction xs generalizing s with
  | nil => rfl
  | cons x r ih => rw [List.foldl_cons, ih, h]
@[simp] theorem foldl_badAddr3 {α β γ : Type} (f : β × γ × State → α → β × γ × State) (xs : List α) (s : β × γ × State) (h : ∀ a x, (f a x).2.2.badAddr = a.2.2.badAddr) : (xs.foldl f s).2.2.badAddr = s.2.2.badAddr := by
  induction xs generalizing s with
  | nil => rfl
  | cons x r ih => rw [List.foldl_cons, ih, h]
theorem pair_badAddr {β : Type} {e : β × State} {a : β} {b s : State} (h : e = (a, b)) (k : e.2.badAddr = s.badAddr) : b.badAddr = s.badAddr := by rw [h] at k; exact k
theorem pair_badAddr3 {β γ : Type} {e : β × γ × State} {a : β} {c : γ} {b s : State} (h : e = (a, c, b)) (k : e.2.2.badAddr = s.badAddr) : b.badAddr = s.badAddr := by rw [h] at k; exact k
@[simp] theorem badAddr_updStrand (s : State) (sid : ℕ) (f : Strand → Strand) : (updStrand s sid f).badAddr = s.badAddr := by
  rfl
@[simp] theorem badAddr_putStrand (s : State) (st : Strand) : (putStrand s st).badAddr = s.badAddr := by
  rfl
@[simp] theorem badAddr_dropStrand (s : State) (sid : ℕ) : (dropStrand s sid).badAddr = s.badAddr := by
  rfl
@[simp] theorem badAddr_updOp (s : State) (oid : ℕ) (f : Op → Op) : (updOp s oid f).badAddr = s.badAddr := by
  rfl
@[simp] theorem badAddr_updTeam (s : State) (lk : ℕ) (num : ℕ) (f : Team → Team) : (updTeam s lk num f).badAddr = s.badAddr := by
  rfl
@[simp] theorem badAddr_updLaunch (s : State) (lk : ℕ) (f : Launch → Launch) : (updLaunch s lk f).badAddr = s.badAddr := by
  rfl
@[simp] theorem badAddr_updCtx (s : State) (c : ℕ) (f : Ctx → Ctx) : (updCtx s c f).badAddr = s.badAddr := by
  rfl
@[simp] theorem badAddr_putCore (s : State) (c : Core) : (putCore s c).badAddr = s.badAddr := by
  unfold putCore; split <;> simp
@[simp] theorem badAddr_putPart (s : State) (core : ℕ) (part : ℕ) (p : Part) : (putPart s core part p).badAddr = s.badAddr := by
  simp [putPart]
@[simp] theorem badAddr_putDie (s : State) (d : Die) : (putDie s d).badAddr = s.badAddr := by
  unfold putDie; split <;> simp
@[simp] theorem badAddr_draw (s : State) : (draw s).badAddr = s.badAddr := by
  rfl
@[simp] theorem badAddr_freeBool (s : State) : (freeBool s).2.badAddr = s.badAddr := by
  rfl
@[simp] theorem badAddr_choose (s : State) (n : ℕ) : (choose s n).2.badAddr = s.badAddr := by
  rfl
@[simp] theorem badAddr_fresh (s : State) : (fresh s).2.badAddr = s.badAddr := by
  rfl
@[simp] theorem badAddr_assignIds (s : State) (x1 : List Strand) : (assignIds s x1).2.badAddr = s.badAddr := by
  induction x1 generalizing s with
  | nil => rfl
  | cons st r ih => simp only [assignIds]; rw [ih]; simp
@[simp] theorem badAddr_replaceStrand (s : State) (sid : ℕ) (new : List Strand) : (replaceStrand s sid new).2.badAddr = s.badAddr := by
  unfold replaceStrand; split <;> simp
@[simp] theorem badAddr_unblockSid (s : State) (sid : ℕ) : (unblockSid s sid).badAddr = s.badAddr := by
  rfl
@[simp] theorem badAddr_blockOn (s : State) (sid : ℕ) (w : Wait) : (blockOn s sid w).badAddr = s.badAddr := by
  rfl
@[simp] theorem badAddr_advance (s : State) (sid : ℕ) (len : ℕ) : (advance s sid len).badAddr = s.badAddr := by
  rfl
@[simp] theorem badAddr_endRun (s : State) : (endRun s).badAddr = s.badAddr := by
  rfl
@[simp] theorem badAddr_traceIn (s : State) (c : ℕ) (id : ℕ) (ev : ℕ) (team : ℕ) (arg : ℕ) : (traceIn s c id ev team arg).badAddr = s.badAddr := by
  rfl
@[simp] theorem badAddr_traceRecord (s : State) (lk : ℕ) (ev : ℕ) (team : ℕ) (arg : ℕ) : (traceRecord s lk ev team arg).badAddr = s.badAddr := by
  rfl
@[simp] theorem badAddr_closeHalt (s : State) (st : Strand) (action : ℕ) : (closeHalt s st action).badAddr = s.badAddr := by
  rfl
@[simp] theorem badAddr_closeHalts (s : State) (gone : List Strand) (action : ℕ) : (closeHalts s gone action).badAddr = s.badAddr := by
  unfold closeHalts
  apply foldl_badAddr; intro a x
  split
  · rfl
  · simp
@[simp] theorem badAddr_writeReport (s : State) (c : ℕ) (r : Report) : (writeReport s c r).badAddr = s.badAddr := by
  unfold writeReport; split
  · with_reducible rfl
  · dsimp only; rw [badAddr_updCtx]
@[simp] theorem badAddr_enqueueReport (s : State) (c : ℕ) (r : Report) : (enqueueReport s c r).badAddr = s.badAddr := by
  unfold enqueueReport
  repeat' (first
    | with_reducible rfl
    | assumption
    | (simp; done)
    | (simp [*]; done)
    | (refine pair_badAddr (by assumption) ?_)
    | (refine pair_badAddr3 (by assumption) ?_)
    | split)
@[simp] theorem badAddr_raiseStop (s : State) (lk : ℕ) (sids : List ℕ) (kind : ℕ) (cause : ℕ) (cls : ℕ) (len : ℕ) (after : After) (rs : List Report) : (raiseStop s lk sids kind cause cls len after rs).badAddr = s.badAddr := by
  simp [raiseStop]
@[simp] theorem badAddr_trapWhole (s : State) (st : Strand) (len : ℕ) (r : Report) : (trapWhole s st len r).badAddr = s.badAddr := by
  simp [trapWhole]
@[simp] theorem badAddr_partialFault (s : State) (st : Strand) (F : List ℕ) (len : ℕ) (r : Report) : (partialFault s st F len r).2.badAddr = s.badAddr := by
  simp [partialFault]
@[simp] theorem badAddr_parkGroups (s : State) (st : Strand) (gs : List (List ℕ × Report)) (len : ℕ) : (parkGroups s st gs len).2.badAddr = s.badAddr := by
  unfold parkGroups; split <;> simp
@[simp] theorem badAddr_eachStrand (s : State) (ids : List ℕ) (f : State → Strand → State) (hf : ∀ a y0, (f a y0).badAddr = a.badAddr) : (eachStrand s ids f).badAddr = s.badAddr := by
  unfold eachStrand
  repeat' (first
    | with_reducible rfl
    | assumption
    | (simp [*]; done)
    | (apply foldl_badAddr; intro a x)
    | (refine pair_badAddr (by assumption) ?_)
    | (refine pair_badAddr3 (by assumption) ?_)
    | split)
@[simp] theorem badAddr_withoutFaulting (s : State) (st : Strand) (F : List ℕ) (len : ℕ) (r : Report) (f : State → Strand → State) (hf : ∀ a y0, (f a y0).badAddr = a.badAddr) : (withoutFaulting s st F len r f).badAddr = s.badAddr := by
  unfold withoutFaulting
  repeat' (first
    | with_reducible rfl
    | assumption
    | (simp; done)
    | (simp [*]; done)
    | (refine pair_badAddr (by assumption) ?_)
    | (refine pair_badAddr3 (by assumption) ?_)
    | split)
@[simp] theorem badAddr_leavePorts (s : State) (sid : ℕ) : (leavePorts s sid).badAddr = s.badAddr := by
  rfl
@[simp] theorem badAddr_haltStrand (s : State) (st : Strand) (id : ℕ) : (haltStrand s st id).badAddr = s.badAddr := by
  rfl
@[simp] theorem badAddr_debugHalt (s : State) (sid : ℕ) (source : ℕ) (comp : ℕ) (code : ℕ) (wpc : ℕ) (hits : List ℕ) (total : ℕ) : (debugHalt s sid source comp code wpc hits total).badAddr = s.badAddr := by
  unfold debugHalt
  repeat' (first
    | with_reducible rfl
    | assumption
    | (simp; done)
    | (simp [*]; done)
    | (refine pair_badAddr (by assumption) ?_)
    | (refine pair_badAddr3 (by assumption) ?_)
    | split
    | dsimp only)
@[simp] theorem badAddr_addOp (s : State) (st : Strand) (c : OpClass) (idxs : List ℕ) (body : OpBody) (done : Bool) : (addOp s st c idxs body done).2.badAddr = s.badAddr := by
  rfl
@[simp] theorem badAddr_stallStrand (s : State) (sid : ℕ) (n : Need) : (stallStrand s sid n).badAddr = s.badAddr := by
  rfl
@[simp] theorem badAddr_wakeStalls (s : State) : (wakeStalls s).badAddr = s.badAddr := by
  rfl
@[simp] theorem badAddr_formGang (s : State) (lk : ℕ) (team : ℕ) : (formGang s lk team).badAddr = s.badAddr := by
  unfold formGang
  repeat' (first
    | with_reducible rfl
    | assumption
    | (simp; done)
    | (simp [*]; done)
    | (refine pair_badAddr (by assumption) ?_)
    | (refine pair_badAddr3 (by assumption) ?_)
    | split
    | dsimp only)
@[simp] theorem badAddr_cutByTeam (s : State) (st : Strand) : (cutByTeam s st).2.badAddr = s.badAddr := by
  simp [cutByTeam]
@[simp] theorem badAddr_placementCut (s : State) (st : Strand) : (placementCut s st).badAddr = s.badAddr := by
  simp [placementCut]
@[simp] theorem badAddr_tiller (s : State) (st : Strand) : (tiller s st).2.badAddr = s.badAddr := by
  simp [tiller]
@[simp] theorem badAddr_comparators (s : State) (sid : ℕ) (wrote : List ℕ) (pc : ℕ) : (comparators s sid wrote pc).badAddr = s.badAddr := by
  unfold comparators
  repeat' (first
    | with_reducible rfl
    | assumption
    | (simp; done)
    | (simp [*]; done)
    | (refine pair_badAddr (by assumption) ?_)
    | (refine pair_badAddr3 (by assumption) ?_)
    | split
    | dsimp only)
@[simp] theorem badAddr_writeResult (s : State) (st : Strand) (r : Result) (len : ℕ) : (writeResult s st r len).badAddr = s.badAddr := by
  unfold writeResult
  repeat' (first
    | with_reducible rfl
    | assumption
    | (simp; done)
    | (simp [*]; done)
    | (refine pair_badAddr (by assumption) ?_)
    | (refine pair_badAddr3 (by assumption) ?_)
    | split
    | dsimp only)
@[simp] theorem badAddr_writeThen (adv : Strand → Strand) (s : State) (st : Strand) (r : Result) (len : ℕ) : (writeThen adv s st r len).badAddr = s.badAddr := by
  simp [writeThen]
@[simp] theorem badAddr_commit (s : State) (st : Strand) (r : Result) (len : ℕ) : (commit s st r len).badAddr = s.badAddr := by
  unfold commit
  repeat' (first
    | with_reducible rfl
    | assumption
    | (simp; done)
    | (simp [*]; done)
    | (refine pair_badAddr (by assumption) ?_)
    | (refine pair_badAddr3 (by assumption) ?_)
    | split
    | dsimp only
    | simp)
@[simp] theorem badAddr_commitThen (adv : Strand → Strand) (s : State) (st : Strand) (r : Result) (len : ℕ) : (commitThen adv s st r len).badAddr = s.badAddr := by
  unfold commitThen
  repeat' (first
    | with_reducible rfl
    | assumption
    | (simp; done)
    | (simp [*]; done)
    | (refine pair_badAddr (by assumption) ?_)
    | (refine pair_badAddr3 (by assumption) ?_)
    | split
    | dsimp only
    | simp)
@[simp] theorem badAddr_asIfX (s : State) (st : Strand) (f : State → Strand → State) (hf : ∀ a y0, (f a y0).badAddr = a.badAddr) : (asIfX s st f).badAddr = s.badAddr := by
  unfold asIfX
  repeat' (first
    | with_reducible rfl
    | assumption
    | (simp; done)
    | (simp [*]; done)
    | (refine pair_badAddr (by assumption) ?_)
    | (refine pair_badAddr3 (by assumption) ?_)
    | split)
@[simp] theorem badAddr_waitFor (s : State) (sid : ℕ) (rs : List ℕ) (q : Bool) : (waitFor s sid rs q).badAddr = s.badAddr := by
  rfl
@[simp] theorem badAddr_withoutPoison (s : State) (st : Strand) (rs : List ℕ) (F : List ℕ) (len : ℕ) (f : State → Strand → State) (hf : ∀ a y0, (f a y0).badAddr = a.badAddr) : (withoutPoison s st rs F len f).badAddr = s.badAddr := by
  unfold withoutPoison
  repeat' (first
    | with_reducible rfl
    | assumption
    | (simp; done)
    | (simp [*]; done)
    | (refine pair_badAddr (by assumption) ?_)
    | (refine pair_badAddr3 (by assumption) ?_)
    | split)
@[simp] theorem badAddr_setHome (s : State) (sp : Space) (a : ℕ) (bs : List Byte) : (setHome s sp a bs).badAddr = s.badAddr := by
  unfold setHome; split <;> simp
@[simp] theorem badAddr_setHomePoison (s : State) (sp : Space) (a : ℕ) (n : ℕ) (p : Bool) : (setHomePoison s sp a n p).badAddr = s.badAddr := by
  unfold setHomePoison
  repeat' (first
    | with_reducible rfl
    | assumption
    | (simp; done)
    | (simp [*]; done)
    | (refine pair_badAddr (by assumption) ?_)
    | (refine pair_badAddr3 (by assumption) ?_)
    | split)
@[simp] theorem badAddr_appendHome (s : State) (sp : Space) (a : ℕ) (bs : List Byte) (pois : Bool) (w : Writer) (rel : Option RelRec) : (appendHome s sp a bs pois w rel).2.badAddr = s.badAddr := by
  simp [appendHome]
@[simp] theorem badAddr_addObs (s : State) (lk : ℕ) (is : List ℕ) (ids : List ℕ) : (addObs s lk is ids).badAddr = s.badAddr := by
  rfl
@[simp] theorem badAddr_setRel (s : State) (lk : ℕ) (i : ℕ) (r : RelRec) : (setRel s lk i r).badAddr = s.badAddr := by
  rfl
@[simp] theorem badAddr_drainOne (s : State) (id : ℕ) : (drainOne s id).badAddr = s.badAddr := by
  unfold drainOne; split <;> simp
@[simp] theorem badAddr_drainThese (s : State) (core : ℕ) (ids : List ℕ) : (drainThese s core ids).badAddr = s.badAddr := by
  simp [drainThese]
@[simp] theorem badAddr_drainWhere (s : State) (core : ℕ) (p : Store → Bool) : (drainWhere s core p).badAddr = s.badAddr := by
  simp [drainWhere]
@[simp] theorem badAddr_enterAt (s : State) (lk : ℕ) (core : ℕ) (is : List ℕ) (sp : Space) (a : ℕ) (bs : List Byte) (pois : Bool) (rel : Option RelRec) : (enterAt s lk core is sp a bs pois rel).badAddr = s.badAddr := by
  rfl
@[simp] theorem badAddr_enterStore (s : State) (st : Strand) (is : List ℕ) (sp : Space) (a : ℕ) (bs : List Byte) (pois : Bool) (rel : Option RelRec) : (enterStore s st is sp a bs pois rel).badAddr = s.badAddr := by
  rfl
@[simp] theorem badAddr_enterHostStore (s : State) (h : HostStore) : (enterHostStore s h).badAddr = s.badAddr := by
  rfl
@[simp] theorem badAddr_drainHost (s : State) (c : ℕ) : (drainHost s c).badAddr = s.badAddr := by
  simp [drainHost]
@[simp] theorem badAddr_performLoad (s : State) (lk : ℕ) (core : ℕ) (is : List ℕ) (sp : Space) (a : ℕ) (n : ℕ) : (performLoad s lk core is sp a n).2.badAddr = s.badAddr := by
  unfold performLoad
  repeat' (first
    | with_reducible rfl
    | assumption
    | (simp; done)
    | (simp [*]; done)
    | (refine pair_badAddr (by assumption) ?_)
    | (refine pair_badAddr3 (by assumption) ?_)
    | split
    | dsimp only)
@[simp] theorem badAddr_acquire (s : State) (lk : ℕ) (i : ℕ) (sc : ScopeSet) (id : ℕ) : (acquire s lk i sc id).badAddr = s.badAddr := by
  unfold acquire
  repeat' (first
    | with_reducible rfl
    | assumption
    | (simp; done)
    | (simp [*]; done)
    | (refine pair_badAddr (by assumption) ?_)
    | (refine pair_badAddr3 (by assumption) ?_)
    | split)
@[simp] theorem badAddr_acquireAll (s : State) (lk : ℕ) (is : List ℕ) (sc : ScopeSet) (ids : List ℕ) : (acquireAll s lk is sc ids).badAddr = s.badAddr := by
  simp [acquireAll]
@[simp] theorem badAddr_acquireRecord (s : State) (lk : ℕ) (is : List ℕ) (sc : ScopeSet) (w : Writer) (r : RelRec) : (acquireRecord s lk is sc w r).badAddr = s.badAddr := by
  unfold acquireRecord; split <;> simp
@[simp] theorem badAddr_passBy (s : State) (lk : ℕ) (i : ℕ) (sc : ScopeSet) (sp : Space) (a : ℕ) (n : ℕ) : (passBy s lk i sc sp a n).badAddr = s.badAddr := by
  unfold passBy
  repeat' (first
    | with_reducible rfl
    | assumption
    | (simp; done)
    | (simp [*]; done)
    | (refine pair_badAddr (by assumption) ?_)
    | (refine pair_badAddr3 (by assumption) ?_)
    | split
    | dsimp only)
@[simp] theorem badAddr_drainPassed (s : State) : (drainPassed s).badAddr = s.badAddr := by
  simp [drainPassed]
@[simp] theorem badAddr_fenceRel (st : Strand) (sc : Scope) (s : State) (i : ℕ) : (fenceRel st sc s i).badAddr = s.badAddr := by
  rfl
@[simp] theorem badAddr_fenceAcquire (s : State) (st : Strand) (sc : ScopeSet) (i : ℕ) : (fenceAcquire s st sc i).badAddr = s.badAddr := by
  simp [fenceAcquire]
@[simp] theorem badAddr_fenceAcq (st : Strand) (sc : Scope) (s : State) (i : ℕ) : (fenceAcq st sc s i).badAddr = s.badAddr := by
  simp [fenceAcq]
@[simp] theorem badAddr_fenceSc (st : Strand) (sc : Scope) (s : State) (i : ℕ) : (fenceSc st sc s i).badAddr = s.badAddr := by
  unfold fenceSc
  dsimp only
  rw [show ∀ (a : State) (x : List FenceStep), ({ a with fences := x } : State).badAddr = a.badAddr from fun _ _ => rfl, badAddr_setRel, badAddr_fenceAcquire, foldl_badAddr]
  · split <;> simp
  · intro a x; split <;> simp
@[simp] theorem badAddr_fenceStep (k : FenceKind) (st : Strand) (sc : Scope) (s : State) (i : ℕ) : (fenceStep k st sc s i).badAddr = s.badAddr := by
  unfold fenceStep; split <;> simp
@[simp] theorem badAddr_atomicStep (s : State) (lk : ℕ) (core : ℕ) (i : ℕ) (sp : Space) (a : ℕ) (f : Word → Option Word) : (atomicStep s lk core i sp a f).2.2.badAddr = s.badAddr := by
  unfold atomicStep
  repeat' (first
    | with_reducible rfl
    | assumption
    | (simp; done)
    | (simp [*]; done)
    | (refine pair_badAddr (by assumption) ?_)
    | (refine pair_badAddr3 (by assumption) ?_)
    | split
    | dsimp only)
@[simp] theorem badAddr_putBdie (s : State) (b : BDie) : (putBdie s b).badAddr = s.badAddr := by
  unfold putBdie; split <;> simp
@[simp] theorem badAddr_evict (s : State) (b : BDie) : (evict s b).2.badAddr = s.badAddr := by
  simp [evict]
@[simp] theorem badAddr_touchLine (s : State) (line : ℕ) (write : Bool) (whole : Bool) : (touchLine s line write whole).badAddr = s.badAddr := by
  simp [touchLine]
@[simp] theorem badAddr_sendPacket (s : State) (slice : ℕ) (line : ℕ) (kind : PacketKind) : (sendPacket s slice line kind).badAddr = s.badAddr := by
  unfold sendPacket; split <;> simp
@[simp] theorem badAddr_closePacket (s : State) (p : Packet) : (closePacket s p).badAddr = s.badAddr := by
  unfold closePacket
  repeat' (first
    | with_reducible rfl
    | assumption
    | (simp; done)
    | (simp [*]; done)
    | (refine pair_badAddr (by assumption) ?_)
    | (refine pair_badAddr3 (by assumption) ?_)
    | split
    | dsimp only)
@[simp] theorem badAddr_servePacket (s : State) (p : Packet) : (servePacket s p).badAddr = s.badAddr := by
  unfold servePacket; split <;> simp
@[simp] theorem badAddr_l2UseAt (sl : ℕ) (mask : DWord) (s : State) (line : ℕ) : (l2UseAt sl mask s line).badAddr = s.badAddr := by
  unfold l2UseAt
  repeat' (first
    | with_reducible rfl
    | assumption
    | (simp; done)
    | (simp [*]; done)
    | (refine pair_badAddr (by assumption) ?_)
    | (refine pair_badAddr3 (by assumption) ?_)
    | split
    | dsimp only)
@[simp] theorem badAddr_l2Use (part : ℕ) (mask : DWord) (s : State) (line : ℕ) : (l2Use part mask s line).badAddr = s.badAddr := by
  simp [l2Use]
@[simp] theorem badAddr_dropL2 (s : State) (p : L2Line → Bool) : (dropL2 s p).badAddr = s.badAddr := by
  simp [dropL2]
@[simp] theorem badAddr_l2HomeAt (sl : ℕ) (oid : ℕ) (s : State) (line : ℕ) : (l2HomeAt sl oid s line).badAddr = s.badAddr := by
  unfold l2HomeAt
  repeat' (first
    | with_reducible rfl
    | assumption
    | (simp; done)
    | (simp [*]; done)
    | (refine pair_badAddr (by assumption) ?_)
    | (refine pair_badAddr3 (by assumption) ?_)
    | split)
@[simp] theorem badAddr_l2Home (part : ℕ) (oid : ℕ) (s : State) (line : ℕ) : (l2Home part oid s line).badAddr = s.badAddr := by
  simp [l2Home]
@[simp] theorem badAddr_l2Back (sl : ℕ) (s : State) (line : ℕ) : (l2Back sl s line).badAddr = s.badAddr := by
  unfold l2Back
  repeat' (first
    | with_reducible rfl
    | assumption
    | (simp; done)
    | (simp [*]; done)
    | (apply foldl_badAddr; intro a x)
    | (refine pair_badAddr (by assumption) ?_)
    | (refine pair_badAddr3 (by assumption) ?_)
    | split
    | dsimp only
    | simp)
@[simp] theorem badAddr_writeBackL1 (core : ℕ) (p : ℕ → Bool) (s : State) : (writeBackL1 core p s).badAddr = s.badAddr := by
  unfold writeBackL1
  repeat' (first
    | with_reducible rfl
    | assumption
    | (simp; done)
    | (simp [*]; done)
    | (refine pair_badAddr (by assumption) ?_)
    | (refine pair_badAddr3 (by assumption) ?_)
    | split
    | dsimp only)
@[simp] theorem badAddr_cleanL1 (core : ℕ) (s : State) : (cleanL1 core s).badAddr = s.badAddr := by
  simp [cleanL1]
@[simp] theorem badAddr_noteMiss (core : ℕ) (line : ℕ) (s : State) : (noteMiss core line s).badAddr = s.badAddr := by
  simp [noteMiss]
@[simp] theorem badAddr_l1Use (core : ℕ) (mask : DWord) (s : State) (line : ℕ) : (l1Use core mask s line).badAddr = s.badAddr := by
  unfold l1Use
  repeat' (first
    | with_reducible rfl
    | assumption
    | (simp; done)
    | (simp [*]; done)
    | (refine pair_badAddr (by assumption) ?_)
    | (refine pair_badAddr3 (by assumption) ?_)
    | split
    | dsimp only)
@[simp] theorem badAddr_cacheUse (core : ℕ) (nt : Bool) (n : ℕ) (s : State) (locs : List (ℕ × Space × ℕ)) : (cacheUse core nt n s locs).badAddr = s.badAddr := by
  unfold cacheUse
  repeat' (first
    | with_reducible rfl
    | assumption
    | (simp; done)
    | (simp [*]; done)
    | (apply foldl_badAddr; intro a x)
    | (refine pair_badAddr (by assumption) ?_)
    | (refine pair_badAddr3 (by assumption) ?_)
    | split)
@[simp] theorem badAddr_bulkUse (core : ℕ) (n : ℕ) (s : State) (locs : List (ℕ × Space × ℕ)) : (bulkUse core n s locs).badAddr = s.badAddr := by
  unfold bulkUse; split <;> simp
@[simp] theorem badAddr_atomicUse (core : ℕ) (s : State) (e : ℕ × DWord) : (atomicUse core s e).badAddr = s.badAddr := by
  simp [atomicUse]
@[simp] theorem badAddr_homeUse (core : ℕ) (oid : ℕ) (s : State) (e : ℕ × DWord) : (homeUse core oid s e).badAddr = s.badAddr := by
  simp [homeUse]
@[simp] theorem badAddr_releaseL1 (core : ℕ) (sc : ScopeSet) (s : State) : (releaseL1 core sc s).badAddr = s.badAddr := by
  unfold releaseL1
  repeat' (first
    | with_reducible rfl
    | assumption
    | (simp; done)
    | (simp [*]; done)
    | (refine pair_badAddr (by assumption) ?_)
    | (refine pair_badAddr3 (by assumption) ?_)
    | split)
@[simp] theorem badAddr_acquireL1 (core : ℕ) (sc : ScopeSet) (s : State) : (acquireL1 core sc s).badAddr = s.badAddr := by
  unfold acquireL1
  repeat' (first
    | with_reducible rfl
    | assumption
    | (simp; done)
    | (simp [*]; done)
    | (refine pair_badAddr (by assumption) ?_)
    | (refine pair_badAddr3 (by assumption) ?_)
    | split)
@[simp] theorem badAddr_publish (s : State) (core : ℕ) (r : RelRec) : (publish s core r).badAddr = s.badAddr := by
  unfold publish; split <;> simp
@[simp] theorem badAddr_acquireTodo (s : State) (o : Op) (t : LoadTodo) (from_ : List ℕ) : (acquireTodo s o t from_).badAddr = s.badAddr := by
  unfold acquireTodo; split <;> simp
@[simp] theorem badAddr_performTodo (s : State) (o : Op) (t : LoadTodo) : (performTodo s o t).badAddr = s.badAddr := by
  simp [performTodo]
@[simp] theorem badAddr_performPiece (s : State) (o : Op) (t : LoadTodo) : (performPiece s o t).badAddr = s.badAddr := by
  simp [performPiece]
@[simp] theorem badAddr_performLoadsOf (s : State) (p : LoadTodo → Bool) (oid : ℕ) : (performLoadsOf s p oid).badAddr = s.badAddr := by
  unfold performLoadsOf
  repeat' (first | with_reducible rfl | assumption | (simp; done) | (refine pair_badAddr (by assumption) ?_) | (refine pair_badAddr3 (by assumption) ?_) | split)
@[simp] theorem badAddr_performAts (s : State) (lk : ℕ) (core : ℕ) (k : AtKind) (ts : List AtTodo) : (performAts s lk core k ts).2.2.badAddr = s.badAddr := by
  simp [performAts]
@[simp] theorem badAddr_atcAtHome (s : State) (o : Op) (t : AtTodo) : (atcAtHome s o t).2.badAddr = s.badAddr := by
  unfold atcAtHome
  repeat' (first
    | with_reducible rfl
    | assumption
    | (simp; done)
    | (simp [*]; done)
    | (refine pair_badAddr (by assumption) ?_)
    | (refine pair_badAddr3 (by assumption) ?_)
    | split
    | dsimp only)
@[simp] theorem badAddr_performAtoms (s : State) (oid : ℕ) (p : AtTodo → Bool) : (performAtoms s oid p).badAddr = s.badAddr := by
  unfold performAtoms
  repeat' (first
    | with_reducible rfl
    | assumption
    | (simp; done)
    | (simp [*]; done)
    | (refine pair_badAddr (by assumption) ?_)
    | (refine pair_badAddr3 (by assumption) ?_)
    | split)
@[simp] theorem badAddr_serve (s : State) (p : Packet) : (serve s p).badAddr = s.badAddr := by
  unfold serve; split <;> simp
@[simp] theorem badAddr_settleLine (pa : ℕ) (x1 : ℕ) (x2 : State) : (settleLine pa x1 x2).badAddr = x2.badAddr := by
  induction x1 generalizing x2 with
  | zero => rfl
  | succ n ih =>
    simp only [settleLine]
    split
    · rfl
    · rw [ih]; simp
@[simp] theorem badAddr_settleAt (s : State) (sp : Space) (a : ℕ) : (settleAt s sp a).badAddr = s.badAddr := by
  unfold settleAt; split <;> simp
@[simp] theorem badAddr_settlePackets (s : State) : (settlePackets s).badAddr = s.badAddr := by
  unfold settlePackets
  repeat' (first
    | with_reducible rfl
    | assumption
    | (simp; done)
    | (apply foldl_badAddr; intro a x)
    | (refine pair_badAddr (by assumption) ?_)
    | (refine pair_badAddr3 (by assumption) ?_)
    | split)
@[simp] theorem badAddr_forceAtoms (s : State) (oid : ℕ) : (forceAtoms s oid).badAddr = s.badAddr := by
  unfold forceAtoms
  repeat' (first | with_reducible rfl | assumption | (simp; done) | (refine pair_badAddr (by assumption) ?_) | (refine pair_badAddr3 (by assumption) ?_) | split)
@[simp] theorem badAddr_performOwn (s : State) (oid : ℕ) : (performOwn s oid).badAddr = s.badAddr := by
  unfold performOwn
  repeat' (first
    | with_reducible rfl
    | assumption
    | (simp; done)
    | (simp [*]; done)
    | (refine pair_badAddr (by assumption) ?_)
    | (refine pair_badAddr3 (by assumption) ?_)
    | split)
@[simp] theorem badAddr_enterTodo (s : State) (o : Op) (t : StoreTodo) : (enterTodo s o t).badAddr = s.badAddr := by
  unfold enterTodo
  repeat' (first
    | with_reducible rfl
    | assumption
    | (simp; done)
    | (simp [*]; done)
    | (refine pair_badAddr (by assumption) ?_)
    | (refine pair_badAddr3 (by assumption) ?_)
    | split)
@[simp] theorem badAddr_setFull (s : State) (lk : ℕ) (team : ℕ) (g : ℕ) (full : Bool) : (setFull s lk team g full).badAddr = s.badAddr := by
  rfl
@[simp] theorem badAddr_fillGranule (s : State) (lk : ℕ) (team : ℕ) (g : ℕ) (w : Writer) (r : RelRec) : (fillGranule s lk team g w r).badAddr = s.badAddr := by
  rfl
@[simp] theorem badAddr_fillBy (s : State) (lk : ℕ) (core : ℕ) (own : Option ℕ) (is : List ℕ) (team : ℕ) (g : ℕ) : (fillBy s lk core own is team g).badAddr = s.badAddr := by
  simp [fillBy]
@[simp] theorem badAddr_performSet (s : State) (o : Op) (t : SetTodo) : (performSet s o t).badAddr = s.badAddr := by
  simp [performSet]
@[simp] theorem badAddr_performOp (is : List ℕ) (s : State) (oid : ℕ) : (performOp is s oid).badAddr = s.badAddr := by
  unfold performOp
  repeat' (first
    | with_reducible rfl
    | assumption
    | (simp; done)
    | (simp [*]; done)
    | (refine pair_badAddr (by assumption) ?_)
    | (refine pair_badAddr3 (by assumption) ?_)
    | split)
@[simp] theorem badAddr_performFor (s : State) (lk : ℕ) (is : List ℕ) (bound : ℕ) : (performFor s lk is bound).badAddr = s.badAddr := by
  simp [performFor]
@[simp] theorem badAddr_performLoads (s : State) (st : Strand) : (performLoads s st).badAddr = s.badAddr := by
  unfold performLoads; split <;> simp
@[simp] theorem badAddr_performStores (s : State) (st : Strand) : (performStores s st).badAddr = s.badAddr := by
  unfold performStores
  repeat' (first
    | with_reducible rfl
    | assumption
    | (simp; done)
    | (simp [*]; done)
    | (refine pair_badAddr (by assumption) ?_)
    | (refine pair_badAddr3 (by assumption) ?_)
    | split
    | dsimp only)
@[simp] theorem badAddr_performSame (s : State) (lk : ℕ) (sp : Space) (a : ℕ) (n : ℕ) (is : List ℕ) : (performSame s lk sp a n is).badAddr = s.badAddr := by
  unfold performSame
  repeat' (first
    | with_reducible rfl
    | assumption
    | (simp; done)
    | (simp [*]; done)
    | (refine pair_badAddr (by assumption) ?_)
    | (refine pair_badAddr3 (by assumption) ?_)
    | split
    | dsimp only)
@[simp] theorem badAddr_dropOps (s : State) (ids : List ℕ) : (dropOps s ids).badAddr = s.badAddr := by
  rfl
@[simp] theorem badAddr_deliver (s : State) (st : Strand) (os : List Op) (after : After) : (deliver s st os after).badAddr = s.badAddr := by
  simp [deliver]
@[simp] theorem badAddr_waitcComplete (s : State) (st : Strand) (c : ℕ) : (waitcComplete s st c).badAddr = s.badAddr := by
  unfold waitcComplete
  repeat' (first
    | with_reducible rfl
    | assumption
    | (simp; done)
    | (simp [*]; done)
    | (refine pair_badAddr (by assumption) ?_)
    | (refine pair_badAddr3 (by assumption) ?_)
    | split
    | dsimp only)
@[simp] theorem badAddr_retireTeam (s : State) (lk : ℕ) (num : ℕ) : (retireTeam s lk num).badAddr = s.badAddr := by
  unfold retireTeam
  repeat' (first
    | with_reducible rfl
    | assumption
    | (simp; done)
    | (simp [*]; done)
    | (refine pair_badAddr (by assumption) ?_)
    | (refine pair_badAddr3 (by assumption) ?_)
    | split
    | dsimp only)
@[simp] theorem badAddr_endTeams (s : State) (lk : ℕ) (team : Option ℕ) : (endTeams s lk team).badAddr = s.badAddr := by
  unfold endTeams
  repeat' (first
    | with_reducible rfl
    | assumption
    | (simp; done)
    | (simp [*]; done)
    | (refine pair_badAddr (by assumption) ?_)
    | (refine pair_badAddr3 (by assumption) ?_)
    | split)
@[simp] theorem badAddr_tryBar (s : State) (lk : ℕ) (team : ℕ) (gang : Bool) (k : ℕ) : (tryBar s lk team gang k).badAddr = s.badAddr := by
  unfold tryBar
  repeat' (first
    | with_reducible rfl
    | assumption
    | (simp; done)
    | (simp [*]; done)
    | (refine pair_badAddr (by assumption) ?_)
    | (refine pair_badAddr3 (by assumption) ?_)
    | split
    | dsimp only)
@[simp] theorem badAddr_forgetDead (s : State) (m : Strand) : (forgetDead s m).badAddr = s.badAddr := by
  rfl
theorem badAddr_mergeMembers (s : State) (os : List ℕ) (group : List Strand) : ∀ r, mergeMembers s os group = some r → r.badAddr = s.badAddr := by
  unfold mergeMembers
  split
  · intro r h; simp only [Option.some.injEq] at h; rw [h]
  · intro r h
    simp only [Option.map_eq_some_iff] at h
    obtain ⟨out, _, rfl⟩ := h
    rw [foldl_badAddr]
    · rw [foldl_badAddr]
      intro a x; rfl
    · intro a x; split <;> simp
@[simp] theorem badAddr_rejoinTeam (os : List ℕ) (s : State) (group : List Strand) : (rejoinTeam os s group).badAddr = s.badAddr := by
  unfold rejoinTeam
  split
  · dsimp only
    rw [foldl_badAddr]
    · rfl
    · intro a x; simp
  · cases q : mergeMembers s os group with
    | none => rfl
    | some t => exact badAddr_mergeMembers _ _ _ _ q
@[simp] theorem badAddr_releaseGroup (s : State) (os : List ℕ) (group : List Strand) : (releaseGroup s os group).badAddr = s.badAddr := by
  unfold releaseGroup
  split
  · rename_i q; exact badAddr_mergeMembers _ _ _ _ q
  · dsimp only
    rw [foldl_badAddr]
    · apply foldl_badAddr2; intro a x; simp
    · intro a x; simp
@[simp] theorem badAddr_tryRejoin (s : State) (lk team n : ℕ) : (tryRejoin s lk team n).badAddr = s.badAddr := by
  unfold tryRejoin
  dsimp only
  split
  · rfl
  · cases h : mergeMembers s [] (s.strands.filter (fun st => st.lk == lk && st.team == some team && (match st.status with | .blocked (.rejoin m _ _) => m == n | _ => false))) with
    | none => rfl
    | some r => exact badAddr_mergeMembers _ _ _ r h
@[simp] theorem badAddr_finishRejoins (s : State) (lk : ℕ) (team : ℕ) : (finishRejoins s lk team).badAddr = s.badAddr := by
  unfold finishRejoins
  dsimp only
  exact foldl_badAddr _ _ _ (fun a n => badAddr_tryRejoin a lk team n)
@[simp] theorem badAddr_tryJoin (s : State) (st : Strand) (j : ℕ) : (tryJoin s st j).badAddr = s.badAddr := by
  unfold tryJoin
  repeat' (first
    | with_reducible rfl
    | assumption
    | (simp; done)
    | (simp [*]; done)
    | (refine pair_badAddr (by assumption) ?_)
    | (refine pair_badAddr3 (by assumption) ?_)
    | split
    | dsimp only)
@[simp] theorem badAddr_wakeJoins (s : State) (lk : ℕ) : (wakeJoins s lk).badAddr = s.badAddr := by
  unfold wakeJoins
  repeat' (first
    | with_reducible rfl
    | assumption
    | (simp; done)
    | (apply foldl_badAddr; intro a x)
    | (refine pair_badAddr (by assumption) ?_)
    | (refine pair_badAddr3 (by assumption) ?_)
    | split)
@[simp] theorem badAddr_wakeBars (s : State) (lk : ℕ) (team : ℕ) : (wakeBars s lk team).badAddr = s.badAddr := by
  unfold wakeBars; apply foldl_badAddr; intro a x; simp
@[simp] theorem badAddr_wakeTeam (s : State) (lk : ℕ) (team : Option ℕ) : (wakeTeam s lk team).badAddr = s.badAddr := by
  unfold wakeTeam; split <;> simp
@[simp] theorem badAddr_exitDone (s : State) (st : Strand) : (exitDone s st).badAddr = s.badAddr := by
  unfold exitDone
  repeat' (first
    | with_reducible rfl
    | assumption
    | (simp; done)
    | (simp [*]; done)
    | (refine pair_badAddr (by assumption) ?_)
    | (refine pair_badAddr3 (by assumption) ?_)
    | split
    | dsimp only)
@[simp] theorem badAddr_retire (s : State) (st : Strand) (gone : List ℕ) (len : ℕ) (wait : Bool) : (retire s st gone len wait).badAddr = s.badAddr := by
  unfold retire
  repeat' (first
    | with_reducible rfl
    | assumption
    | (simp; done)
    | (simp [*]; done)
    | (refine pair_badAddr (by assumption) ?_)
    | (refine pair_badAddr3 (by assumption) ?_)
    | split
    | dsimp only)
@[simp] theorem badAddr_recTrap (s : State) (st : Strand) (len : ℕ) (r : LayoutBits) (slot : ℕ) (engine : ℕ) (rep : Report) : (recTrap s st len r slot engine rep).badAddr = s.badAddr := by
  simp [recTrap]
@[simp] theorem badAddr_setSlot (s : State) (st : Strand) (d : ℕ) (r : LayoutBits) : (setSlot s st d r).badAddr = s.badAddr := by
  unfold setSlot; split <;> simp
@[simp] theorem badAddr_readSlot (s : State) (st : Strand) (d : ℕ) : (readSlot s st d).2.badAddr = s.badAddr := by
  unfold readSlot
  repeat' (first
    | with_reducible rfl
    | assumption
    | (simp; done)
    | (simp [*]; done)
    | (refine pair_badAddr (by assumption) ?_)
    | (refine pair_badAddr3 (by assumption) ?_)
    | split
    | dsimp only)
@[simp] theorem badAddr_formTrap (s : State) (st : Strand) (len : ℕ) (which : ℕ) : (formTrap s st len which).badAddr = s.badAddr := by
  simp [formTrap]
@[simp] theorem badAddr_transfer (s : State) (st : Strand) (taken : List Bool) (target : DWord) (len : ℕ) (onTake : Strand → Strand) : (transfer s st taken target len onTake).badAddr = s.badAddr := by
  unfold transfer
  repeat' (first
    | with_reducible rfl
    | assumption
    | (simp; done)
    | (simp [*]; done)
    | (refine pair_badAddr (by assumption) ?_)
    | (refine pair_badAddr3 (by assumption) ?_)
    | split
    | dsimp only)
@[simp] theorem badAddr_callTrap (s : State) (st : Strand) (h : Hdr) (len : ℕ) (info : ℕ) : (callTrap s st h len info).badAddr = s.badAddr := by
  simp [callTrap]
@[simp] theorem badAddr_brxSplit (g : Guard) (a : ℕ) (s : State) (st : Strand) : (brxSplit g a s st).badAddr = s.badAddr := by
  simp [brxSplit]
@[simp] theorem badAddr_releaseHolds (s : State) (core : ℕ) (part : ℕ) (sid : ℕ) : (releaseHolds s core part sid).badAddr = s.badAddr := by
  rfl
@[simp] theorem badAddr_freePort (s : State) (core : ℕ) (part : ℕ) (port : ℕ) (sid : ℕ) : (freePort s core part port sid).badAddr = s.badAddr := by
  simp [freePort]
@[simp] theorem badAddr_overSound (rs : List ℕ) (uses : State → Strand → List ℕ) (len : ℕ) (f : State → Strand → State) (x4 : ℕ) (x5 : State) (x6 : Strand) (hf : ∀ a y0, (f a y0).badAddr = a.badAddr) : (overSound rs uses len f x4 x5 x6).badAddr = x5.badAddr := by
  induction x4 generalizing x5 x6 with
  | zero => exact hf _ _
  | succ k ih => simp only [overSound]; rw [badAddr_withoutPoison]; intro a y; exact ih a y
@[simp] theorem badAddr_engineWalk (s : State) (die : ℕ) (c : ℕ) (va : ℕ) : (engineWalk s die c va).2.badAddr = s.badAddr := by
  unfold engineWalk
  repeat' (first
    | with_reducible rfl
    | assumption
    | (simp; done)
    | (simp [*]; done)
    | (refine pair_badAddr (by assumption) ?_)
    | (refine pair_badAddr3 (by assumption) ?_)
    | split)
@[simp] theorem badAddr_tlbInsert (s : State) (core : ℕ) (c : ℕ) (va : ℕ) (t : Trans) : (tlbInsert s core c va t).badAddr = s.badAddr := by
  simp [tlbInsert]
theorem badAddr_askWalk (s : State) (core : ℕ) (c : ℕ) (page : ℕ) (sid : Option ℕ) : ∀ r, askWalk s core c page sid = some r → r.badAddr = s.badAddr := by
  unfold askWalk
  repeat' (first
    | with_reducible rfl
    | assumption
    | (simp; done)
    | (simp [*]; done)
    | (refine pair_badAddr (by assumption) ?_)
    | (refine pair_badAddr3 (by assumption) ?_)
    | split
    | dsimp only)
@[simp] theorem badAddr_startWalk (s : State) (st : Strand) (page : ℕ) : (startWalk s st page).badAddr = s.badAddr := by
  unfold startWalk
  split
  · rename_i q; simp [badAddr_askWalk _ _ _ _ _ _ q]
  · rfl
@[simp] theorem badAddr_dropRes (s : State) (sid : ℕ) : (dropRes s sid).badAddr = s.badAddr := by
  rfl
@[simp] theorem badAddr_retryWalk (s : State) (sids : List ℕ) : (retryWalk s sids).badAddr = s.badAddr := by
  unfold retryWalk
  repeat' (first
    | with_reducible rfl
    | assumption
    | (simp; done)
    | (apply foldl_badAddr; intro a x)
    | (refine pair_badAddr (by assumption) ?_)
    | (refine pair_badAddr3 (by assumption) ?_)
    | split)
@[simp] theorem badAddr_answerWalk (s : State) (sids : List ℕ) (page : ℕ) (r : TransRes) : (answerWalk s sids page r).badAddr = s.badAddr := by
  simp [answerWalk]
@[simp] theorem badAddr_mapCmds (s : State) (p : Core → SeCmd → Bool) (f : SeCmd → SeCmd) : (mapCmds s p f).badAddr = s.badAddr := by
  rfl
@[simp] theorem badAddr_askHost (s : State) (c : ℕ) (page : ℕ) (write : Bool) : (askHost s c page write).badAddr = s.badAddr := by
  unfold askHost; split <;> simp
@[simp] theorem badAddr_answerEngines (s : State) (c : ℕ) (page : ℕ) (p : Core → SeCmd → Bool) (r : TransRes) : (answerEngines s c page p r).badAddr = s.badAddr := by
  unfold answerEngines
  repeat' (first
    | with_reducible rfl
    | assumption
    | (simp; done)
    | (simp [*]; done)
    | (refine pair_badAddr (by assumption) ?_)
    | (refine pair_badAddr3 (by assumption) ?_)
    | split
    | dsimp only)
@[simp] theorem badAddr_hostLeaf (s : State) (q : WalkReq) (t : Trans) : (hostLeaf s q t).badAddr = s.badAddr := by
  unfold hostLeaf
  dsimp only
  split
  · simp
  · split
    · simp
    · split <;>
      · rw [show ∀ (a : State) (x : List AtsReq), ({ a with atsReqs := x } : State).badAddr = a.badAddr from fun _ _ => rfl, badAddr_mapCmds, foldl_badAddr]
        · simp
        · intro a x; split
          · split <;> rfl
          · rfl
@[simp] theorem badAddr_keepHostPage (s : State) (c : ℕ) (page : ℕ) (frame : ℕ) (write : Bool) : (keepHostPage s c page frame write).badAddr = s.badAddr := by
  rfl
@[simp] theorem badAddr_dropRange (s : State) (die : ℕ) (c : ℕ) (lo : ℕ) (hi : ℕ) : (dropRange s die c lo hi).badAddr = s.badAddr := by
  rfl
@[simp] theorem badAddr_settleAccesses (s : State) (die : ℕ) (c : ℕ) (lo : ℕ) (hi : ℕ) : (settleAccesses s die c lo hi).badAddr = s.badAddr := by
  simp [settleAccesses]
@[simp] theorem badAddr_invalidateDie (s : State) (die : ℕ) (c : ℕ) (lo : ℕ) (hi : ℕ) : (invalidateDie s die c lo hi).badAddr = s.badAddr := by
  simp [invalidateDie]
@[simp] theorem badAddr_answerAtsInvals (s : State) : (answerAtsInvals s).badAddr = s.badAddr := by
  rfl
@[simp] theorem badAddr_askFor (s : State) (st : Strand) (kind : ℕ) (cause : ℕ) (va : ℕ) (access : ℕ) : (askFor s st kind cause va access).badAddr = s.badAddr := by
  unfold askFor; split <;> simp
@[simp] theorem badAddr_parkFaults (s : State) (st : Strand) (fs : List AccFault) (len : ℕ) (access : ℕ) : (parkFaults s st fs len access).2.badAddr = s.badAddr := by
  unfold parkFaults
  dsimp only
  rw [foldl_badAddr]
  · simp
  · intro a x; rw [foldl_badAddr]; intro b y; simp
@[simp] theorem badAddr_formOnlyTrap (s : State) (st : Strand) (len : ℕ) (d : ℕ) (n : ℕ) : (formOnlyTrap s st len d n).badAddr = s.badAddr := by
  simp [formOnlyTrap]
@[simp] theorem badAddr_orTrap (before : State) (st : Strand) (len : ℕ) (d : ℕ) (n : ℕ) (vals : List (ℕ × List Word)) (t : State) (ht : t.badAddr = before.badAddr) : (orTrap before st len d n vals t).badAddr = before.badAddr := by
  unfold orTrap
  dsimp only
  split
  · simp
  · exact ht
@[simp] theorem badAddr_checkLoad (before : State) (st : Strand) (g : Guard) (u : Bool) (d : ℕ) (n : ℕ) (len : ℕ) (t : State) (ht : t.badAddr = before.badAddr) : (checkLoad before st g u d n len t).badAddr = before.badAddr := by
  unfold checkLoad
  split
  · exact ht
  · split
    · exact ht
    · dsimp only
      split
      · split
        · apply badAddr_orTrap; rw [badAddr_performLoadsOf]; exact ht
        · exact ht
      · exact ht
@[simp] theorem badAddr_waitRoom (s : State) (sid : ℕ) (k : OpClass) (async : Bool) : (waitRoom s sid k async).badAddr = s.badAddr := by
  rfl
@[simp] theorem badAddr_touch (st : Strand) (a : ℕ) (nt : Bool) (n : ℕ) (s : State) (locs : List (ℕ × Space × ℕ)) : (touch st a nt n s locs).badAddr = s.badAddr := by
  unfold touch; split <;> simp
@[simp] theorem badAddr_issueLoad (d : Option ℕ) (n : ℕ) (sx : Bool) (u : Bool) (acq : Option Scope) (len : ℕ) (s : State) (st : Strand) (locs : List (ℕ × Space × ℕ)) : (issueLoad d n sx u acq len s st locs).badAddr = s.badAddr := by
  unfold issueLoad; split <;> simp
@[simp] theorem badAddr_issueStores (s : State) (st : Strand) (is : List ℕ) (todo : List StoreTodo) (sets : List SetTodo) : (issueStores s st is todo sets).badAddr = s.badAddr := by
  unfold issueStores
  repeat' (first
    | with_reducible rfl
    | assumption
    | (simp; done)
    | (simp [*]; done)
    | (refine pair_badAddr (by assumption) ?_)
    | (refine pair_badAddr3 (by assumption) ?_)
    | split
    | dsimp only
    | simp)
@[simp] theorem badAddr_storeLocs (st : Strand) (len : ℕ) (gs : List (List ℕ × Space × ℕ)) (data : ℕ → List Byte) (rel : Option Scope) (sets : List SetTodo) (s : State) : (storeLocs st len gs data rel sets s).badAddr = s.badAddr := by
  unfold storeLocs; split <;> simp
@[simp] theorem badAddr_acquireGranule (s : State) (st : Strand) (is : List ℕ) (lk : ℕ) (team : ℕ) (g : ℕ) : (acquireGranule s st is lk team g).badAddr = s.badAddr := by
  unfold acquireGranule; split <;> simp
@[simp] theorem badAddr_serveOne (s : State) (st : Strand) (w : GranWait) (gr : ℕ × ℕ × ℕ) : (serveOne s st w gr).2.badAddr = s.badAddr := by
  unfold serveOne
  repeat' (first
    | with_reducible rfl
    | assumption
    | (simp; done)
    | (simp [*]; done)
    | (refine pair_badAddr (by assumption) ?_)
    | (refine pair_badAddr3 (by assumption) ?_)
    | split
    | dsimp only)
@[simp] theorem badAddr_serveSome (s : State) (st : Strand) (w : GranWait) : (serveSome s st w).2.badAddr = s.badAddr := by
  unfold serveSome
  repeat' (first
    | with_reducible rfl
    | assumption
    | (simp; done)
    | (simp [*]; done)
    | (refine pair_badAddr (by assumption) ?_)
    | (refine pair_badAddr3 (by assumption) ?_)
    | split
    | dsimp only)
@[simp] theorem badAddr_serveStrand (s : State) (st : Strand) (w : GranWait) : (serveStrand s st w).badAddr = s.badAddr := by
  unfold serveStrand
  repeat' (first
    | with_reducible rfl
    | assumption
    | (simp; done)
    | (simp [*]; done)
    | (refine pair_badAddr (by assumption) ?_)
    | (refine pair_badAddr3 (by assumption) ?_)
    | split
    | dsimp only)
@[simp] theorem badAddr_beginGranule (s : State) (st : Strand) (w : GranWait) : (beginGranule s st w).badAddr = s.badAddr := by
  unfold beginGranule
  repeat' (first
    | with_reducible rfl
    | assumption
    | (simp; done)
    | (simp [*]; done)
    | (refine pair_badAddr (by assumption) ?_)
    | (refine pair_badAddr3 (by assumption) ?_)
    | split
    | dsimp only
    | simp)
@[simp] theorem badAddr_issueAtoms (s : State) (st : Strand) (dest : Option ℕ) (n : ℕ) (k : AtKind) (ts : List AtTodo) (pushes : Bool) : (issueAtoms s st dest n k ts pushes).badAddr = s.badAddr := by
  unfold issueAtoms
  repeat' (first
    | with_reducible rfl
    | assumption
    | (simp; done)
    | (simp [*]; done)
    | (refine pair_badAddr (by assumption) ?_)
    | (refine pair_badAddr3 (by assumption) ?_)
    | split
    | dsimp only
    | simp)
@[simp] theorem badAddr_servePackets (oid : ℕ) (s : State) : (servePackets oid s).badAddr = s.badAddr := by
  unfold servePackets
  repeat' (first | with_reducible rfl | assumption | (simp; done) | (refine pair_badAddr (by assumption) ?_) | (refine pair_badAddr3 (by assumption) ?_) | split)
@[simp] theorem badAddr_prefetchLine (core : ℕ) (s : State) (line : ℕ) : (prefetchLine core s line).badAddr = s.badAddr := by
  unfold prefetchLine
  repeat' (first
    | with_reducible rfl
    | assumption
    | (simp; done)
    | (simp [*]; done)
    | (refine pair_badAddr (by assumption) ?_)
    | (refine pair_badAddr3 (by assumption) ?_)
    | split
    | dsimp only)
@[simp] theorem badAddr_landResult (s : State) (st : Strand) (d : ℕ) (n : ℕ) (vals : List (ℕ × List Word)) (ps : List (ℕ × ℕ)) (push : Option (List (ℕ × Bool))) (pc : ℕ) (mem : Bool) : (landResult s st d n vals ps push pc mem).2.badAddr = s.badAddr := by
  have puts : ∀ (a : State) (e : List Nat × State) (g : State → Nat → List Nat), e.2.badAddr = a.badAddr →
      ((match e with | (ids, s1) => ids.foldl (fun a id => comparators a id (g a id) pc) s1) : State).badAddr = a.badAddr := by
    intro a e g h
    show (List.foldl _ e.2 e.1).badAddr = _
    rw [foldl_badAddr]
    · exact h
    · intro b y; simp
  have pick : ∀ (a : State) (c : Bool) (x y : List Nat × State), x.2.badAddr = a.badAddr → y.2.badAddr = a.badAddr → (if c then x else y).2.badAddr = a.badAddr := by
    intro a c x y hx hy; cases c
    · exact hy
    · exact hx
  unfold landResult
  dsimp only
  split
  · split <;> simp
  · split
    · dsimp only
      rw [foldl_badAddr]
      · simp
      · intro a x; split
        · apply puts; apply pick <;> simp
        · rfl
    · apply puts; apply pick <;> simp
@[simp] theorem badAddr_endOp (s : State) (oid : ℕ) : (endOp s oid).badAddr = s.badAddr := by
  unfold endOp
  repeat' (first
    | with_reducible rfl
    | assumption
    | (simp; done)
    | (simp [*]; done)
    | (refine pair_badAddr (by assumption) ?_)
    | (refine pair_badAddr3 (by assumption) ?_)
    | split)
@[simp] theorem badAddr_taken (s : State) (oid : ℕ) (st : Strand) : (taken s oid st).badAddr = s.badAddr := by
  rfl
@[simp] theorem badAddr_landOne (o : Op) (d : Option ℕ) (n : ℕ) (vals : List (ℕ × List Word)) (ps : List (ℕ × ℕ)) (push : Option (List (ℕ × Bool))) (s : State) (x : Strand) : (landOne o d n vals ps push s x).badAddr = s.badAddr := by
  unfold landOne
  repeat' (first
    | with_reducible rfl
    | assumption
    | (simp; done)
    | (simp [*]; done)
    | (refine pair_badAddr (by assumption) ?_)
    | (refine pair_badAddr3 (by assumption) ?_)
    | split
    | dsimp only)
@[simp] theorem badAddr_landAll (s : State) (o : Op) (d : Option ℕ) (n : ℕ) (vals : List (ℕ × List Word)) (ps : List (ℕ × ℕ)) (push : Option (List (ℕ × Bool))) : (landAll s o d n vals ps push).badAddr = s.badAddr := by
  unfold landAll
  repeat' (first
    | with_reducible rfl
    | assumption
    | (simp; done)
    | (simp [*]; done)
    | (refine pair_badAddr (by assumption) ?_)
    | (refine pair_badAddr3 (by assumption) ?_)
    | split
    | dsimp only)
@[simp] theorem badAddr_setEngineQ (s : State) (core : ℕ) (e : ℕ) (q : List SeCmd) : (setEngineQ s core e q).badAddr = s.badAddr := by
  simp [setEngineQ]
@[simp] theorem badAddr_queueCmd (s : State) (st : Strand) (oid : ℕ) (k : SeKind) (r : LayoutBits) (d : ℕ) (woff : ℕ) (e : ℕ) : (queueCmd s st oid k r d woff e).badAddr = s.badAddr := by
  simp [queueCmd]
@[simp] theorem badAddr_engWrite (s : State) (w : Writer) (sp : Space) (a : ℕ) (bs : List Byte) (keyid : ℕ) : (engWrite s w sp a bs keyid).2.badAddr = s.badAddr := by
  unfold engWrite; split <;> simp
@[simp] theorem badAddr_finishCmd (s : State) (core : ℕ) (e : ℕ) (cmd : SeCmd) (ids : List ℕ) (fault : Option Report) : (finishCmd s core e cmd ids fault).badAddr = s.badAddr := by
  simp [finishCmd]
@[simp] theorem badAddr_setHead (s : State) (core : ℕ) (e : ℕ) (f : SeCmd → SeCmd) : (setHead s core e f).badAddr = s.badAddr := by
  unfold setHead; split <;> simp
@[simp] theorem badAddr_engTouch (s : State) (core : ℕ) (x : Elem) (store : Bool) (n : ℕ) : (engTouch s core x store n).badAddr = s.badAddr := by
  unfold engTouch
  repeat' split
  all_goals simp
@[simp] theorem badAddr_startCmd (s : State) (core : ℕ) (e : ℕ) (cmd : SeCmd) (store : Bool) : (startCmd s core e cmd store).badAddr = s.badAddr := by
  simp [startCmd]
@[simp] theorem badAddr_elemDone (s : State) (core : ℕ) (e : ℕ) (n : ℕ) (ids : List ℕ) (fault : Option Report) : (elemDone s core e n ids fault).badAddr = s.badAddr := by
  simp [elemDone]
@[simp] theorem badAddr_sendUnit (s : State) (core : ℕ) (e : ℕ) (x : Elem) (a : ℕ) (keyid : ℕ) (store : Bool) : (sendUnit s core e x a keyid store).badAddr = s.badAddr := by
  unfold sendUnit
  repeat' (first
    | with_reducible rfl
    | assumption
    | (simp; done)
    | (simp [*]; done)
    | (refine pair_badAddr (by assumption) ?_)
    | (refine pair_badAddr3 (by assumption) ?_)
    | split
    | dsimp only)
@[simp] theorem badAddr_endFill (core : ℕ) (e : ℕ) (cmd : SeCmd) (s : State) : (endFill core e cmd s).badAddr = s.badAddr := by
  unfold endFill
  repeat' (first
    | with_reducible rfl
    | assumption
    | (simp; done)
    | (simp [*]; done)
    | (refine pair_badAddr (by assumption) ?_)
    | (refine pair_badAddr3 (by assumption) ?_)
    | split
    | dsimp only)
@[simp] theorem badAddr_drainRead (core : ℕ) (e : ℕ) (s : State) (cmd : SeCmd) (n : ℕ) : (drainRead core e s cmd n).badAddr = s.badAddr := by
  unfold drainRead
  repeat' (first
    | with_reducible rfl
    | assumption
    | (simp; done)
    | (simp [*]; done)
    | (refine pair_badAddr (by assumption) ?_)
    | (refine pair_badAddr3 (by assumption) ?_)
    | split
    | dsimp only)
@[simp] theorem badAddr_readImage (core : ℕ) (e : ℕ) (s : State) : (readImage core e s).badAddr = s.badAddr := by
  unfold readImage; split <;> simp
@[simp] theorem badAddr_imageRead (core : ℕ) (e : ℕ) (cmd : SeCmd) (s : State) : (imageRead core e cmd s).badAddr = s.badAddr := by
  unfold imageRead; split <;> simp
@[simp] theorem badAddr_drainElem (core : ℕ) (e : ℕ) (s : State) (cmd : SeCmd) (x : Elem) : (drainElem core e s cmd x).badAddr = s.badAddr := by
  unfold drainElem
  repeat' (first
    | with_reducible rfl
    | assumption
    | (simp; done)
    | (simp [*]; done)
    | (refine pair_badAddr (by assumption) ?_)
    | (refine pair_badAddr3 (by assumption) ?_)
    | split
    | dsimp only)
@[simp] theorem badAddr_writeWeights (core : ℕ) (a : ℕ) (bs : List Byte) (s : State) : (writeWeights core a bs s).2.badAddr = s.badAddr := by
  simp [writeWeights]
@[simp] theorem badAddr_endFillw (core : ℕ) (e : ℕ) (cmd : SeCmd) (s : State) : (endFillw core e cmd s).badAddr = s.badAddr := by
  simp [endFillw]
@[simp] theorem badAddr_updTile (s : State) (lk : ℕ) (team : ℕ) (m : ℕ) (f : Tile → Tile) : (updTile s lk team m f).badAddr = s.badAddr := by
  rfl
@[simp] theorem badAddr_undefTile (s : State) (lk : ℕ) (team : ℕ) (m : ℕ) : (undefTile s lk team m).badAddr = s.badAddr := by
  rfl
@[simp] theorem badAddr_markClash (s : State) (st : Strand) (ms : List ℕ) (clash : Bool) : (markClash s st ms clash).badAddr = s.badAddr := by
  unfold markClash; split <;> simp
@[simp] theorem badAddr_queueTile (s : State) (st : Strand) (body : OpBody) (cmd : ℕ → MxCmd) : (queueTile s st body cmd).badAddr = s.badAddr := by
  simp [queueTile]
@[simp] theorem badAddr_mwaitComplete (s : State) (st : Strand) (m : ℕ) : (mwaitComplete s st m).badAddr = s.badAddr := by
  unfold mwaitComplete
  repeat' (first
    | with_reducible rfl
    | assumption
    | (simp; done)
    | (simp [*]; done)
    | (refine pair_badAddr (by assumption) ?_)
    | (refine pair_badAddr3 (by assumption) ?_)
    | split
    | dsimp only)
@[simp] theorem badAddr_mrdIssue (s : State) (st : Strand) (m : ℕ) (d : ℕ) (r : Rnd) (blk : ℕ) (f : MrdFmt) (sat : Bool) (reg : Bool) (addr : ℕ) (len : ℕ) : (mrdIssue s st m d r blk f sat reg addr len).badAddr = s.badAddr := by
  unfold mrdIssue
  repeat' (first
    | with_reducible rfl
    | assumption
    | (simp; done)
    | (simp [*]; done)
    | (refine pair_badAddr (by assumption) ?_)
    | (refine pair_badAddr3 (by assumption) ?_)
    | split
    | dsimp only)
@[simp] theorem badAddr_finishMx (s : State) (core : ℕ) (oid : ℕ) (fault : Option Report) : (finishMx s core oid fault).badAddr = s.badAddr := by
  simp [finishMx]
@[simp] theorem badAddr_makeResident (s : State) (c : ℕ) (page : ℕ) : (makeResident s c page).badAddr = s.badAddr := by
  unfold makeResident
  repeat' (first
    | with_reducible rfl
    | assumption
    | (simp; done)
    | (simp [*]; done)
    | (refine pair_badAddr (by assumption) ?_)
    | (refine pair_badAddr3 (by assumption) ?_)
    | split
    | dsimp only)
@[simp] theorem badAddr_clearRange (s : State) (a : ℕ) (n : ℕ) : (clearRange s a n).badAddr = s.badAddr := by
  rfl
theorem badAddr_allocPage (s : State) : ∀ r, allocPage s = some r → r.2.badAddr = s.badAddr := by
  unfold allocPage
  repeat' (first
    | with_reducible rfl
    | assumption
    | (simp; done)
    | (simp [*]; done)
    | (refine pair_badAddr (by assumption) ?_)
    | (refine pair_badAddr3 (by assumption) ?_)
    | split
    | dsimp only)
theorem badAddr_allocSys (s : State) (n : ℕ) : ∀ r, allocSys s n = some r → r.2.badAddr = s.badAddr := by
  simp [allocSys]
@[simp] theorem badAddr_releasePage (s : State) (pa : ℕ) : (releasePage s pa).badAddr = s.badAddr := by
  unfold releasePage
  repeat' (first
    | with_reducible rfl
    | assumption
    | (simp; done)
    | (simp [*]; done)
    | (refine pair_badAddr (by assumption) ?_)
    | (refine pair_badAddr3 (by assumption) ?_)
    | split
    | dsimp only)
@[simp] theorem badAddr_setPte (s : State) (ea : ℕ) (e : ℕ) : (setPte s ea e).badAddr = s.badAddr := by
  rfl
theorem badAddr_makeTables (va : ℕ) (x1 : List ℕ) (x2 : ℕ) (x3 : State) : ∀ r, makeTables va x1 x2 x3 = some r → r.2.badAddr = x3.badAddr := by
  intro r h
  induction x1 generalizing x2 x3 with
  | nil => simp only [makeTables, Option.some.injEq] at h; rw [← h]
  | cons l ls ih =>
    simp only [makeTables] at h
    split at h
    · cases h
    split at h
    · split at h
      · exact ih _ _ h
      · cases h
    · split at h
      · cases h
      · rename_i p s1 q
        rw [ih _ _ h, badAddr_setPte]
        exact badAddr_allocSys _ _ _ q
theorem badAddr_mapOne (root : ℕ) (va : ℕ) (e : ℕ) (s64 : Bool) (s : State) : ∀ r, mapOne root va e s64 s = some r → r.badAddr = s.badAddr := by
  have H : ∀ (xs : List Nat) (o : Option State), (∀ r, o = some r → r.badAddr = s.badAddr) →
      ∀ r, xs.foldl (fun (acc : Option State) k => acc.bind (fun s => (makeTables (va + 4096 * k) [4, 3, 2] root s).map (fun r => setPte r.2 r.1 e))) o = some r → r.badAddr = s.badAddr := by
    intro xs
    induction xs with
    | nil => intro o h r hr; exact h r hr
    | cons x xs ih =>
      intro o h r hr
      apply ih _ _ r hr
      intro t ht
      simp only [Option.bind_eq_some_iff, Option.map_eq_some_iff] at ht
      obtain ⟨a, ha, b, hb, rfl⟩ := ht
      rw [badAddr_setPte, badAddr_makeTables _ _ _ _ _ hb, h a ha]
  intro r hr
  exact H _ _ (fun r h => by simp only [Option.some.injEq] at h; rw [h]) r hr
theorem badAddr_mapRange (root : ℕ) (step : ℕ) (w : Bool) (x : Bool) (s64 : Bool) (keyid : ℕ) (x6 : ℕ) (x7 : ℕ) (x8 : State) : ∀ r, mapRange root step w x s64 keyid x6 x7 x8 = some r → r.badAddr = x8.badAddr := by
  intro r h
  induction x6 generalizing x7 x8 with
  | zero => simp only [mapRange, Option.some.injEq] at h; rw [h]
  | succ n ih =>
    simp only [mapRange, Option.bind_eq_some_iff] at h
    obtain ⟨a, ha, b, hb, h⟩ := h
    rw [ih _ _ h, badAddr_mapOne _ _ _ _ _ _ hb, badAddr_allocPage _ _ ha]
@[simp] theorem badAddr_invalidateAll (s : State) (c : ℕ) (lo : ℕ) (hi : ℕ) : (invalidateAll s c lo hi).badAddr = s.badAddr := by
  unfold invalidateAll; apply foldl_badAddr; intro a x; simp
theorem badAddr_unmapRange (s : State) (x : Ctx) (addr : ℕ) (size : ℕ) : ∀ r, unmapRange s x addr size = some r → r.badAddr = s.badAddr := by
  simp [unmapRange]
@[simp] theorem badAddr_makePool (s : State) (x : Ctx) (k : Kernel) (slotBytes : ℕ) : (makePool s x k slotBytes).2.badAddr = s.badAddr := by
  unfold makePool
  dsimp only
  split
  · rename_i q; simp [badAddr_mapRange _ _ _ _ _ _ _ _ _ _ q]
  · rfl
@[simp] theorem badAddr_freePool (s : State) (l : Launch) : (freePool s l).badAddr = s.badAddr := by
  unfold freePool
  split
  · rfl
  · cases q : (ctxOf s l.ctx).bind (fun x => unmapRange s x l.spill l.poolBytes) with
    | none => rfl
    | some t =>
      simp only [Option.bind_eq_some_iff] at q
      obtain ⟨x, _, h⟩ := q
      exact badAddr_unmapRange _ _ _ _ _ h
theorem badAddr_splitLeaf (va : ℕ) (x1 : List ℕ) (x2 : ℕ) (x3 : State) : ∀ r, splitLeaf va x1 x2 x3 = some r → r.badAddr = x3.badAddr := by
  intro r h
  induction x1 generalizing x2 x3 with
  | nil => simp only [splitLeaf, Option.some.injEq] at h; rw [h]
  | cons l ls ih =>
    simp only [splitLeaf] at h
    split at h
    · simp only [Option.some.injEq] at h; rw [h]
    · split at h
      · exact ih _ _ h
      · split at h
        · simp only [Option.bind_eq_some_iff] at h
          obtain ⟨a, ha, h⟩ := h
          rw [ih _ _ h, badAddr_setPte, foldl_badAddr]
          · exact badAddr_allocSys _ _ _ ha
          · intro b y; simp
        · simp only [Option.some.injEq] at h; rw [h]
@[simp] theorem badAddr_migratePage (s : State) (c : ℕ) (page : ℕ) : (migratePage s c page).badAddr = s.badAddr := by
  unfold migratePage
  split
  · split
    · rfl
    · split
      · rfl
      · rename_i q
        simp only [Option.bind_eq_some_iff] at q
        obtain ⟨b, hb, hq⟩ := q
        split
        · rfl
        · dsimp only
          rw [badAddr_setPte]
          rw [show ∀ (a : State) (x : List Host.Cell) (y : List Nat), ({ a with mem := x, memPois := y } : State).badAddr = a.badAddr from fun _ _ _ => rfl, badAddr_invalidateAll, badAddr_setPte]
          exact (badAddr_allocPage _ _ hq).trans (badAddr_splitLeaf _ _ _ _ _ hb)
  · rfl
@[simp] theorem badAddr_askPage (s : State) (c : ℕ) (page : ℕ) : (askPage s c page).badAddr = s.badAddr := by
  unfold askPage
  repeat' (first
    | with_reducible rfl
    | assumption
    | (simp; done)
    | (simp [*]; done)
    | (refine pair_badAddr (by assumption) ?_)
    | (refine pair_badAddr3 (by assumption) ?_)
    | split)
@[simp] theorem badAddr_bringIn (s : State) (c : ℕ) (va : ℕ) (n : ℕ) : (bringIn s c va n).badAddr = s.badAddr := by
  simp [bringIn]
@[simp] theorem badAddr_vRead (s : State) (c : ℕ) (va : ℕ) (n : ℕ) : (vRead s c va n).2.badAddr = s.badAddr := by
  simp [vRead]
@[simp] theorem badAddr_vWrite (s : State) (c : ℕ) (va : ℕ) (bs : List Byte) (w : Writer) (rel : Option RelRec) : (vWrite s c va bs w rel).2.badAddr = s.badAddr := by
  unfold vWrite
  dsimp only
  split
  · rw [foldl_badAddr2]
    · simp
    · intro a x; simp
  · simp
@[simp] theorem badAddr_readKernel (s : State) (c : ℕ) (kdesc : ℕ) : (readKernel s c kdesc).2.badAddr = s.badAddr := by
  have h : ∀ (a : State) (k : Nat) (xs : List Nat) (o : Option (List (Nat × LayoutBits))), (xs.foldl (fun (acc : Option (List (Nat × LayoutBits)) × State) k' =>
      match acc.1 with
      | none => acc
      | some ls => match vRead acc.2 c (k + 64 * k') 64 with
        | (some b, a) => (some (ls ++ [(k', BitVec.ofNat 512 (ofBytes b))]), a)
        | (none, a) => (none, a)) (o, a)).2.badAddr = a.badAddr := by
    intro a k xs o
    refine foldl_badAddr2 _ xs (o, a) ?_
    intro acc x
    split
    · rfl
    · split <;> (rename_i q; have := badAddr_vRead acc.2 c (k + 64 * x) 64; rw [q] at this; exact this)
  have r := badAddr_vRead s c kdesc 64
  unfold readKernel
  split
  · rename_i q; rw [q] at r; exact r
  · rename_i bs s1 q
    rw [q] at r
    dsimp only at r ⊢
    have := h s1 (field (ofBytes bs) 256 64) (dmaskSlots (ofBytes bs)) (some [])
    split <;> (rename_i e; exact ((congrArg (fun p => p.2.badAddr) e).symm.trans this).trans r)
@[simp] theorem badAddr_checkShape (s : State) (lk : ℕ) (team : ℕ) (a : Word) (b : Word) : (checkShape s lk team a b).2.badAddr = s.badAddr := by
  unfold checkShape
  repeat' (first
    | with_reducible rfl
    | assumption
    | (simp; done)
    | (simp [*]; done)
    | (refine pair_badAddr (by assumption) ?_)
    | (refine pair_badAddr3 (by assumption) ?_)
    | split
    | dsimp only)
@[simp] theorem badAddr_moultFail (s : State) (xs : List (Strand × Word × Word × ℕ)) (check : ℕ) : (moultFail s xs check).badAddr = s.badAddr := by
  simp [moultFail]
@[simp] theorem badAddr_tryMoult (s : State) (lk : ℕ) (team : ℕ) : (tryMoult s lk team).badAddr = s.badAddr := by
  unfold tryMoult
  repeat' (first
    | with_reducible rfl
    | assumption
    | (simp; done)
    | (simp [*]; done)
    | (refine pair_badAddr (by assumption) ?_)
    | (refine pair_badAddr3 (by assumption) ?_)
    | split
    | dsimp only
    | simp)
@[simp] theorem badAddr_arriveMoult (s : State) (st : Strand) (a : Word) (b : Word) (len : ℕ) : (arriveMoult s st a b len).badAddr = s.badAddr := by
  simp [arriveMoult]
@[simp] theorem badAddr_moultWaitDone (s : State) (st : Strand) (a : Word) (b : Word) (len : ℕ) : (moultWaitDone s st a b len).badAddr = s.badAddr := by
  unfold moultWaitDone
  repeat' (first
    | with_reducible rfl
    | assumption
    | (simp; done)
    | (simp [*]; done)
    | (refine pair_badAddr (by assumption) ?_)
    | (refine pair_badAddr3 (by assumption) ?_)
    | split
    | dsimp only)
@[simp] theorem badAddr_roleStrands (s : State) (lk : ℕ) (team : ℕ) (k : Kernel) (core : ℕ) (pending : Bool) (presets : List (ℕ × Word)) : (roleStrands s lk team k core pending presets).2.badAddr = s.badAddr := by
  unfold roleStrands
  repeat' (first
    | with_reducible rfl
    | assumption
    | (simp; done)
    | (simp [*]; done)
    | (apply foldl_badAddr2; intro a x)
    | (refine pair_badAddr (by assumption) ?_)
    | (refine pair_badAddr3 (by assumption) ?_)
    | split
    | dsimp only)
@[simp] theorem badAddr_settleStart (s : State) (st : Strand) : (settleStart s st).2.badAddr = s.badAddr := by
  unfold settleStart
  repeat' (first
    | with_reducible rfl
    | assumption
    | (simp; done)
    | (simp [*]; done)
    | (refine pair_badAddr (by assumption) ?_)
    | (refine pair_badAddr3 (by assumption) ?_)
    | split
    | dsimp only)
@[simp] theorem badAddr_succeed (s0 : State) (lk : ℕ) (team : ℕ) (k : Kernel) (b : Word) : (succeed s0 lk team k b).badAddr = s0.badAddr := by
  unfold succeed; split <;> simp
@[simp] theorem badAddr_finishDld (s : State) (o : Op) (slot : ℕ) (r : LayoutBits) (pois : Bool) : (finishDld s o slot r pois).badAddr = s.badAddr := by
  unfold finishDld
  repeat' (first
    | with_reducible rfl
    | assumption
    | (simp; done)
    | (simp [*]; done)
    | (refine pair_badAddr (by assumption) ?_)
    | (refine pair_badAddr3 (by assumption) ?_)
    | split)
@[simp] theorem badAddr_finishLoads (s : State) (oid : ℕ) (left : List LoadTodo) : (finishLoads s oid left).badAddr = s.badAddr := by
  simp [finishLoads]
@[simp] theorem badAddr_finishStores (s : State) (o : Op) (left : List StoreTodo) : (finishStores s o left).badAddr = s.badAddr := by
  unfold finishStores
  repeat' (first
    | with_reducible rfl
    | assumption
    | (simp; done)
    | (simp [*]; done)
    | (refine pair_badAddr (by assumption) ?_)
    | (refine pair_badAddr3 (by assumption) ?_)
    | split
    | dsimp only)
@[simp] theorem badAddr_finishSets (s : State) (o : Op) : (finishSets s o).badAddr = s.badAddr := by
  unfold finishSets; split <;> simp
@[simp] theorem badAddr_finishAtoms (s : State) (oid : ℕ) (ts : List AtTodo) : (finishAtoms s oid ts).badAddr = s.badAddr := by
  unfold finishAtoms
  repeat' (first
    | with_reducible rfl
    | assumption
    | (simp; done)
    | (simp [*]; done)
    | (refine pair_badAddr (by assumption) ?_)
    | (refine pair_badAddr3 (by assumption) ?_)
    | split
    | dsimp only)
@[simp] theorem badAddr_deliverOp (s : State) (o : Op) : (deliverOp s o).badAddr = s.badAddr := by
  unfold deliverOp
  repeat' (first
    | with_reducible rfl
    | assumption
    | (simp; done)
    | (simp [*]; done)
    | (refine pair_badAddr (by assumption) ?_)
    | (refine pair_badAddr3 (by assumption) ?_)
    | split)
@[simp] theorem badAddr_putHq (s : State) (c : ℕ) (q : HwQueue) : (putHq s c q).badAddr = s.badAddr := by
  rfl
@[simp] theorem badAddr_popBatch (d : ℕ) (qnum : ℕ) (s : State) (st : Strand) : (popBatch d qnum s st).badAddr = s.badAddr := by
  unfold popBatch
  repeat' (first
    | with_reducible rfl
    | assumption
    | (simp; done)
    | (simp [*]; done)
    | (refine pair_badAddr (by assumption) ?_)
    | (refine pair_badAddr3 (by assumption) ?_)
    | split)
@[simp] theorem badAddr_addFault (s : State) (oid : ℕ) (r : Report) : (addFault s oid r).badAddr = s.badAddr := by
  rfl
@[simp] theorem badAddr_queueCompletion (s : State) (q : ℕ) (r : CompRec) : (queueCompletion s q r).badAddr = s.badAddr := by
  rfl
@[simp] theorem badAddr_refusedCompletion (s : State) (q : ℕ) (utag : ℕ) (nocompl : Bool) : (refusedCompletion s q utag nocompl).badAddr = s.badAddr := by
  unfold refusedCompletion; split <;> simp
@[simp] theorem badAddr_checkLaunch (s : State) (c : ℕ) (r : LaunchRec) (task : Bool) : (checkLaunch s c r task).2.badAddr = s.badAddr := by
  unfold checkLaunch
  repeat' (first
    | with_reducible rfl
    | assumption
    | (simp; done)
    | (simp [*]; done)
    | (refine pair_badAddr (by assumption) ?_)
    | (refine pair_badAddr3 (by assumption) ?_)
    | split)
@[simp] theorem badAddr_acceptLaunch (s : State) (c : ℕ) (r : LaunchRec) (k : Kernel) (q : ℕ) (src : Source) (addr : ℕ) (t0 : ℕ) (acq : List ℕ) : (acceptLaunch s c r k q src addr t0 acq).2.badAddr = s.badAddr := by
  unfold acceptLaunch
  repeat' (first
    | with_reducible rfl
    | assumption
    | (simp; done)
    | (simp [*]; done)
    | (refine pair_badAddr (by assumption) ?_)
    | (refine pair_badAddr3 (by assumption) ?_)
    | split
    | dsimp only)
@[simp] theorem badAddr_takeRecord (s : State) (c : ℕ) (q : ℕ) (x : ℕ) (addr : ℕ) (src : Source) (t0 : ℕ) (acq : List ℕ) : (takeRecord s c q x addr src t0 acq).2.badAddr = s.badAddr := by
  unfold takeRecord
  repeat' (first
    | with_reducible rfl
    | assumption
    | (simp; done)
    | (simp [*]; done)
    | (refine pair_badAddr (by assumption) ?_)
    | (refine pair_badAddr3 (by assumption) ?_)
    | split
    | dsimp only
    | simp)
@[simp] theorem badAddr_checkTask (s : State) (c : ℕ) (id : ℕ) : (checkTask s c id).2.badAddr = s.badAddr := by
  unfold checkTask
  repeat' (first
    | with_reducible rfl
    | assumption
    | (simp; done)
    | (simp [*]; done)
    | (refine pair_badAddr (by assumption) ?_)
    | (refine pair_badAddr3 (by assumption) ?_)
    | split
    | dsimp only)
@[simp] theorem badAddr_takeTask (s : State) (c : ℕ) (oid : ℕ) (task : Word) (src : Source) (addr : ℕ) (snap : ℕ) (pc : ℕ) (t0 : ℕ) (acq : List ℕ) : (takeTask s c oid task src addr snap pc t0 acq).badAddr = s.badAddr := by
  unfold takeTask
  repeat' (first
    | with_reducible rfl
    | assumption
    | (simp; done)
    | (simp [*]; done)
    | (refine pair_badAddr (by assumption) ?_)
    | (refine pair_badAddr3 (by assumption) ?_)
    | split
    | dsimp only
    | simp)
@[simp] theorem badAddr_ringRecord (s : State) (u : UserQ) (n : ℕ) : (ringRecord s u n).2.badAddr = s.badAddr := by
  unfold ringRecord
  repeat' (first
    | with_reducible rfl
    | assumption
    | (simp; done)
    | (simp [*]; done)
    | (refine pair_badAddr (by assumption) ?_)
    | (refine pair_badAddr3 (by assumption) ?_)
    | split)
@[simp] theorem badAddr_takeRecords (q : ℕ) (x1 : ℕ) (x2 : State) : (takeRecords q x1 x2).badAddr = x2.badAddr := by
  induction x1 generalizing x2 with
  | zero => rfl
  | succ n ih =>
    simp only [takeRecords]
    split
    · rfl
    · rw [ih]; simp
@[simp] theorem badAddr_writeCompletion (q : ℕ) (s : State) : (writeCompletion q s).badAddr = s.badAddr := by
  unfold writeCompletion
  repeat' (first
    | with_reducible rfl
    | assumption
    | (simp; done)
    | (simp [*]; done)
    | (refine pair_badAddr (by assumption) ?_)
    | (refine pair_badAddr3 (by assumption) ?_)
    | split)
@[simp] theorem badAddr_writeCompletions (s : State) (q : ℕ) : (writeCompletions s q).badAddr = s.badAddr := by
  simp [writeCompletions]
@[simp] theorem badAddr_completeLaunch (lk : ℕ) (s : State) : (completeLaunch lk s).badAddr = s.badAddr := by
  unfold completeLaunch
  repeat' (first
    | with_reducible rfl
    | assumption
    | (simp; done)
    | (simp [*]; done)
    | (refine pair_badAddr (by assumption) ?_)
    | (refine pair_badAddr3 (by assumption) ?_)
    | split)
@[simp] theorem badAddr_claimCore (s : State) (core : ℕ) (c : ℕ) : (claimCore s core c).badAddr = s.badAddr := by
  unfold claimCore
  repeat' (first
    | with_reducible rfl
    | assumption
    | (simp; done)
    | (simp [*]; done)
    | (refine pair_badAddr (by assumption) ?_)
    | (refine pair_badAddr3 (by assumption) ?_)
    | split
    | dsimp only)
@[simp] theorem badAddr_inheritWaits (s : State) (sid : ℕ) (ids : List ℕ) : (inheritWaits s sid ids).badAddr = s.badAddr := by
  rfl
@[simp] theorem badAddr_leaveCore (s : State) (lk : ℕ) (core : ℕ) (is : List ℕ) : (leaveCore s lk core is).badAddr = s.badAddr := by
  simp [leaveCore]
@[simp] theorem badAddr_moveStrand (s : State) (sid : ℕ) : (moveStrand s sid).badAddr = s.badAddr := by
  unfold moveStrand
  repeat' (first
    | with_reducible rfl
    | assumption
    | (simp; done)
    | (simp [*]; done)
    | (refine pair_badAddr (by assumption) ?_)
    | (refine pair_badAddr3 (by assumption) ?_)
    | split
    | dsimp only)
@[simp] theorem badAddr_handOver (s : State) (lk : ℕ) (team : ℕ) : (handOver s lk team).badAddr = s.badAddr := by
  simp [handOver]
@[simp] theorem badAddr_beginSlice (s : State) (c : ℕ) : (beginSlice s c).badAddr = s.badAddr := by
  rfl
@[simp] theorem badAddr_takeCores (s : State) (c : ℕ) : (takeCores s c).badAddr = s.badAddr := by
  unfold takeCores; split <;> simp
@[simp] theorem badAddr_acquireStart (core : ℕ) (s : State) (l : Launch) (team : Option ℕ) : (acquireStart core s l team).badAddr = s.badAddr := by
  unfold acquireStart; split <;> simp
@[simp] theorem badAddr_placeGang (s : State) (g : Gang) (die : ℕ) (cl : ℕ) (places : List (ℕ × List ℕ × List ℕ)) (adv : ℤ) : (placeGang s g die cl places adv).badAddr = s.badAddr := by
  unfold placeGang
  repeat' (first
    | with_reducible rfl
    | assumption
    | (simp; done)
    | (simp [*]; done)
    | (refine pair_badAddr (by assumption) ?_)
    | (refine pair_badAddr3 (by assumption) ?_)
    | split
    | dsimp only)
theorem badAddr_pick (s : State) (die : ℕ) (q : QueueReg) : ∀ r, pick s die q = some r → r.2.badAddr = s.badAddr := by
  unfold pick
  repeat' (first
    | with_reducible rfl
    | assumption
    | (simp; done)
    | (simp [*]; done)
    | (refine pair_badAddr (by assumption) ?_)
    | (refine pair_badAddr3 (by assumption) ?_)
    | split
    | dsimp only)
@[simp] theorem badAddr_dropDead (s : State) : (dropDead s).badAddr = s.badAddr := by
  rfl
@[simp] theorem badAddr_markWaiting (s : State) (die : ℕ) : (markWaiting s die).badAddr = s.badAddr := by
  unfold markWaiting
  repeat' (first
    | with_reducible rfl
    | assumption
    | (simp; done)
    | (simp [*]; done)
    | (refine pair_badAddr (by assumption) ?_)
    | (refine pair_badAddr3 (by assumption) ?_)
    | split
    | dsimp only)
@[simp] theorem badAddr_place (s : State) (die : ℕ) (g : Gang) (adv : ℤ) : (place s die g adv).2.badAddr = s.badAddr := by
  unfold place
  repeat' (first
    | with_reducible rfl
    | assumption
    | (simp; done)
    | (simp [*]; done)
    | (refine pair_badAddr (by assumption) ?_)
    | (refine pair_badAddr3 (by assumption) ?_)
    | split
    | dsimp only)
@[simp] theorem badAddr_updQueue (s : State) (die : ℕ) (q : ℕ) (f : QueueReg → QueueReg) : (updQueue s die q f).badAddr = s.badAddr := by
  simp [updQueue]
@[simp] theorem badAddr_serveQueue (die : ℕ) (q : ℕ) (x2 : ℕ) (x3 : Bool) (x4 : State) : (serveQueue die q x2 x3 x4).2.badAddr = x4.badAddr := by
  induction x2 generalizing x3 x4 with
  | zero => rfl
  | succ n ih =>
    simp only [serveQueue]
    split
    · rfl
    · split
      · rfl
      · split
        · rfl
        · rename_i q
          have p := badAddr_pick _ _ _ _ q
          split
          · simpa using p
          · rw [ih]; simpa using p
@[simp] theorem badAddr_countFailed (s : State) (die : ℕ) (q : ℕ) (f : Option (ℕ × ℕ)) : (countFailed s die q f).badAddr = s.badAddr := by
  rfl
@[simp] theorem badAddr_visitQueue (s : State) (die : ℕ) (q : ℕ) : (visitQueue s die q).2.badAddr = s.badAddr := by
  unfold visitQueue; split <;> simp
@[simp] theorem badAddr_visitClass (s : State) (die : ℕ) (p : ℕ) : (visitClass s die p).2.badAddr = s.badAddr := by
  simp [visitClass]
@[simp] theorem badAddr_beginLaunch (s : State) (die : ℕ) (l : Launch) : (beginLaunch s die l).badAddr = s.badAddr := by
  unfold beginLaunch
  repeat' (first
    | with_reducible rfl
    | assumption
    | (simp; done)
    | (simp [*]; done)
    | (refine pair_badAddr (by assumption) ?_)
    | (refine pair_badAddr3 (by assumption) ?_)
    | split)
@[simp] theorem badAddr_beginQueue (die : ℕ) (q : ℕ) (x2 : ℕ) (x3 : State) : (beginQueue die q x2 x3).badAddr = x3.badAddr := by
  induction x2 generalizing x3 with
  | zero => rfl
  | succ n ih =>
    simp only [beginQueue]
    split
    · rfl
    · split
      · rw [ih]; simp
      · simp
@[simp] theorem badAddr_beginLaunches (s : State) (die : ℕ) : (beginLaunches s die).badAddr = s.badAddr := by
  simp [beginLaunches]
@[simp] theorem badAddr_settleLines (s : State) (ls : List ℕ) : (settleLines s ls).badAddr = s.badAddr := by
  simp [settleLines]
@[simp] theorem badAddr_closeStop (s : State) (t : Stop) (action : ℕ) : (closeStop s t action).badAddr = s.badAddr := by
  rfl
@[simp] theorem badAddr_goOn (s : State) (st : Strand) (a : After) : (goOn s st a).badAddr = s.badAddr := by
  unfold goOn
  split
  · rfl
  · simp
  · split <;> simp
@[simp] theorem badAddr_resumeStop (s : State) (t : Stop) : (resumeStop s t).badAddr = s.badAddr := by
  unfold resumeStop
  repeat' (first
    | with_reducible rfl
    | assumption
    | (simp; done)
    | (simp [*]; done)
    | (apply foldl_badAddr; intro a x)
    | (refine pair_badAddr (by assumption) ?_)
    | (refine pair_badAddr3 (by assumption) ?_)
    | split)
@[simp] theorem badAddr_skipStop (s : State) (t : Stop) : (skipStop s t).badAddr = s.badAddr := by
  unfold skipStop; split <;> simp
@[simp] theorem badAddr_killStop (s : State) (t : Stop) : (killStop s t).badAddr = s.badAddr := by
  simp [killStop]
@[simp] theorem badAddr_writeStop (s : State) (t : Stop) (reg : R11) (v : Word) : (writeStop s t reg v).badAddr = s.badAddr := by
  rfl
@[simp] theorem badAddr_updStop (s : State) (t : Stop) (f : Stop → Stop) : (updStop s t f).badAddr = s.badAddr := by
  rfl
@[simp] theorem badAddr_actStop (s : State) (t : Stop) (x2 : StopAct) : (actStop s t x2).badAddr = s.badAddr := by
  unfold actStop; split <;> simp
@[simp] theorem badAddr_serveStop (a : StopAct) (s : State) (t : Stop) : (serveStop a s t).badAddr = s.badAddr := by
  unfold serveStop; split <;> simp
@[simp] theorem badAddr_serveDeferred (s : State) : (serveDeferred s).badAddr = s.badAddr := by
  simp [serveDeferred]
@[simp] theorem badAddr_writeWaiting (c : ℕ) (x1 : ℕ) (x2 : State) : (writeWaiting c x1 x2).badAddr = x2.badAddr := by
  induction x1 generalizing x2 with
  | zero => rfl
  | succ n ih =>
    simp only [writeWaiting]
    split
    · rfl
    · split
      · rfl
      · split
        · rw [ih]; simp
        · rfl
@[simp] theorem badAddr_traceClosed (s : State) (lk : ℕ) : (traceClosed s lk).badAddr = s.badAddr := by
  simp [traceClosed]
@[simp] theorem badAddr_killLaunch (status : ℕ) (s0 : State) (lk : ℕ) : (killLaunch status s0 lk).badAddr = s0.badAddr := by
  unfold killLaunch
  repeat' (first
    | with_reducible rfl
    | assumption
    | (simp; done)
    | (simp [*]; done)
    | (refine pair_badAddr (by assumption) ?_)
    | (refine pair_badAddr3 (by assumption) ?_)
    | split)
@[simp] theorem badAddr_killContext (status : ℕ) (s : State) (c : ℕ) : (killContext status s c).badAddr = s.badAddr := by
  simp [killContext]
@[simp] theorem badAddr_countError (s : State) (b : Storage × ℕ) : (countError s b).badAddr = s.badAddr := by
  rfl
@[simp] theorem badAddr_corrected (s : State) (loc : ErrLoc) : (corrected s loc).badAddr = s.badAddr := by
  unfold corrected
  repeat' (first
    | with_reducible rfl
    | assumption
    | (simp; done)
    | (simp [*]; done)
    | (refine pair_badAddr (by assumption) ?_)
    | (refine pair_badAddr3 (by assumption) ?_)
    | split
    | dsimp only)
@[simp] theorem badAddr_strandLost (s : State) (st : Strand) : (strandLost s st).badAddr = s.badAddr := by
  simp [strandLost]
@[simp] theorem badAddr_uncorrected (s : State) (loc : ErrLoc) : (uncorrected s loc).badAddr = s.badAddr := by
  unfold uncorrected
  repeat' (first
    | with_reducible rfl
    | assumption
    | (simp; done)
    | (simp [*]; done)
    | (refine pair_badAddr (by assumption) ?_)
    | (refine pair_badAddr3 (by assumption) ?_)
    | split)
theorem badAddr_recordPlace (s : State) (t : Team) (n : ℕ) : ∀ r, recordPlace s t n = some r → r.2.2.badAddr = s.badAddr := by
  intro r h
  unfold recordPlace at h
  split at h
  · simp only [Option.some.injEq] at h; rw [← h]
  · split at h
    · simp only [Option.some.injEq] at h; rw [← h]
    · simp only [Option.map_eq_some_iff] at h
      obtain ⟨a, ha, rfl⟩ := h
      exact badAddr_allocSys _ _ a ha
@[simp] theorem badAddr_storeRecord (was s : State) (lk : ℕ) (num : ℕ) : (storeRecord was s lk num).badAddr = s.badAddr := by
  unfold storeRecord
  split
  · dsimp only
    split
    · rfl
    · rename_i q
      exact badAddr_recordPlace _ _ _ _ q
  · rfl
@[simp] theorem badAddr_drainLaunch (s : State) (lk : ℕ) : (drainLaunch s lk).badAddr = s.badAddr := by
  simp [drainLaunch]
@[simp] theorem badAddr_departIfSaved (s0 : State) (lk : ℕ) : (departIfSaved s0 lk).badAddr = s0.badAddr := by
  unfold departIfSaved
  repeat' (first
    | with_reducible rfl
    | assumption
    | (simp; done)
    | (simp [*]; done)
    | (refine pair_badAddr (by assumption) ?_)
    | (refine pair_badAddr3 (by assumption) ?_)
    | split
    | dsimp only)
@[simp] theorem badAddr_afterSave (s : State) (lk : ℕ) (num : ℕ) : (afterSave s lk num).badAddr = s.badAddr := by
  unfold afterSave
  repeat' (first
    | with_reducible rfl
    | assumption
    | (simp; done)
    | (simp [*]; done)
    | (refine pair_badAddr (by assumption) ?_)
    | (refine pair_badAddr3 (by assumption) ?_)
    | split)
@[simp] theorem badAddr_forgetWalks (s : State) (sids : List ℕ) : (forgetWalks s sids).badAddr = s.badAddr := by
  rfl
@[simp] theorem badAddr_saveTeam (s : State) (lk : ℕ) (num : ℕ) (mask : ℕ) : (saveTeam s lk num mask).badAddr = s.badAddr := by
  unfold saveTeam; split <;> simp
@[simp] theorem badAddr_saveIfReady (s : State) (lk : ℕ) (num : ℕ) : (saveIfReady s lk num).badAddr = s.badAddr := by
  unfold saveIfReady
  repeat' (first
    | with_reducible rfl
    | assumption
    | (simp; done)
    | (simp [*]; done)
    | (refine pair_badAddr (by assumption) ?_)
    | (refine pair_badAddr3 (by assumption) ?_)
    | split)
@[simp] theorem badAddr_requestGang (s : State) (lk : ℕ) (team : ℕ) : (requestGang s lk team).badAddr = s.badAddr := by
  simp [requestGang]
theorem badAddr_loadLine (lk : ℕ) (num : ℕ) (x : RecSection) (off : ℕ) (s : State) : ∀ r, loadLine lk num x off s = some r → r.badAddr = s.badAddr := by
  intro r h
  have words : ∀ (a : State) (q : Option Strand) (f : Strand → State), (∀ y, (f y).badAddr = a.badAddr) → (match q with | some y => f y | none => a).badAddr = a.badAddr := by
    intro a q f h; cases q with
    | none => rfl
    | some y => exact h y
  unfold loadLine at h
  dsimp only at h
  split at h
  · simp at h
  · split at h
    · simp at h
    · simp only [Option.some.injEq] at h; rw [← h, foldl_badAddr]; intro a x; exact words _ _ _ (fun y => by simp)
  · split at h
    · simp at h
    · simp only [Option.some.injEq] at h; rw [← h, foldl_badAddr]; intro a x; simp
  · simp only [Option.some.injEq] at h; rw [← h]; simp
  · split at h
    · simp at h
    · simp only [Option.some.injEq] at h; rw [← h]; simp
theorem badAddr_loadRecord (s : State) (t : Team) : ∀ r, loadRecord s t = some r → r.badAddr = s.badAddr := by
  intro r h
  unfold loadRecord at h
  have F1 : ∀ {α : Type} (xs : List α) (f : Option State → α → Option State) (o : Option State), (∀ b x, (∀ r, b = some r → r.badAddr = s.badAddr) → ∀ r, f b x = some r → r.badAddr = s.badAddr) →
      (∀ r, o = some r → r.badAddr = s.badAddr) → ∀ r, xs.foldl f o = some r → r.badAddr = s.badAddr := by
    intro α xs
    induction xs with
    | nil => intro f o _ ho r hr; exact ho r hr
    | cons x xs ih => intro f o hf ho r hr; exact ih f _ hf (hf o x ho) r hr
  split at h
  · simp at h
  · split at h
    · simp only [Option.some.injEq] at h; rw [h]
    · refine F1 _ _ _ ?_ (fun r h => by simp only [Option.some.injEq] at h; rw [h]) r h
      intro b e hb
      refine F1 _ _ _ ?_ hb
      intro b l hb r hr
      simp only [Option.bind_eq_some_iff] at hr
      obtain ⟨a, ha, hr⟩ := hr
      exact (badAddr_loadLine _ _ _ _ _ _ hr).trans (hb a ha)
@[simp] theorem badAddr_recordFault (s : State) (t : Team) : (recordFault s t).badAddr = s.badAddr := by
  simp [recordFault]
@[simp] theorem badAddr_restoreTeam (s : State) (t : Team) (die : ℕ) (cl : ℕ) : (restoreTeam s t die cl).badAddr = s.badAddr := by
  simp [restoreTeam]
@[simp] theorem badAddr_answer (s : State) (r : ℤ) : (answer s r).badAddr = s.badAddr := by
  rfl
@[simp] theorem badAddr_pend (i : Instr) (s : State) : (pend i s).badAddr = s.badAddr := by
  unfold pend; split <;> simp
@[simp] theorem badAddr_unpend (i : Instr) (s : State) : (unpend i s).badAddr = s.badAddr := by
  rfl
@[simp] theorem badAddr_endLaunches (status : ℕ) (s : State) (p : Launch → Bool) : (endLaunches status s p).badAddr = s.badAddr := by
  simp [endLaunches]
@[simp] theorem badAddr_flushCaches (s : State) (die : ℕ → Bool) (slice : ℕ → Bool) : (flushCaches s die slice).badAddr = s.badAddr := by
  simp [flushCaches]
@[simp] theorem badAddr_rehomeQueue (s : State) (u : UserQ) : (rehomeQueue s u).badAddr = s.badAddr := by
  unfold rehomeQueue
  repeat' (first
    | with_reducible rfl
    | assumption
    | (simp; done)
    | (simp [*]; done)
    | (apply foldl_badAddr; intro a x)
    | (refine pair_badAddr (by assumption) ?_)
    | (refine pair_badAddr3 (by assumption) ?_)
    | split
    | dsimp only
    | simp)
theorem badAddr_ensurePage (root : ℕ) (c : ℕ) (va : ℕ) (w : Bool) (x : Bool) (s : State) : ∀ r, ensurePage root c va w x s = some r → r.badAddr = s.badAddr := by
  intro r h
  unfold ensurePage at h
  split at h
  · simp only [Option.some.injEq] at h; rw [← h]; simp
  · simp only [Option.bind_eq_some_iff] at h
    obtain ⟨a, ha, h⟩ := h
    rw [badAddr_mapOne _ _ _ _ _ _ h, badAddr_allocPage _ _ ha]
@[simp] theorem badAddr_putBytes (c : ℕ) (va : ℕ) (bs : List Byte) (s : State) : (putBytes c va bs s).badAddr = s.badAddr := by
  unfold putBytes
  repeat' (first
    | with_reducible rfl
    | assumption
    | (simp; done)
    | (apply foldl_badAddr; intro a x)
    | (refine pair_badAddr (by assumption) ?_)
    | (refine pair_badAddr3 (by assumption) ?_)
    | split)
theorem badAddr_loadPiece (root : ℕ) (c : ℕ) (p : Piece) (s : State) : ∀ r, loadPiece root c p s = some r → r.badAddr = s.badAddr := by
  have H : ∀ (xs : List Nat) (o : Option State), (∀ r, o = some r → r.badAddr = s.badAddr) →
      ∀ r, xs.foldl (fun (acc : Option State) k => acc.bind (ensurePage root c (4096 * k) p.w p.x)) o = some r → r.badAddr = s.badAddr := by
    intro xs
    induction xs with
    | nil => intro o h r hr; exact h r hr
    | cons x xs ih =>
      intro o h r hr
      apply ih _ _ r hr
      intro t ht
      simp only [Option.bind_eq_some_iff] at ht
      obtain ⟨a, ha, hb⟩ := ht
      rw [badAddr_ensurePage _ _ _ _ _ _ _ hb, h a ha]
  intro r hr
  simp only [loadPiece, Option.map_eq_some_iff] at hr
  obtain ⟨a, ha, rfl⟩ := hr
  rw [badAddr_putBytes]
  exact H _ _ (fun r h => by simp only [Option.some.injEq] at h; rw [h]) a ha
theorem badAddr_loadPieces (root : ℕ) (c : ℕ) (ps : List Piece) (s : State) : ∀ r, loadPieces root c ps s = some r → r.badAddr = s.badAddr := by
  have H : ∀ (xs : List Piece) (o : Option State), (∀ r, o = some r → r.badAddr = s.badAddr) →
      ∀ r, xs.foldl (fun acc p => acc.bind (loadPiece root c p)) o = some r → r.badAddr = s.badAddr := by
    intro xs
    induction xs with
    | nil => intro o h r hr; exact h r hr
    | cons x xs ih =>
      intro o h r hr
      apply ih _ _ r hr
      intro t ht
      simp only [Option.bind_eq_some_iff] at ht
      obtain ⟨a, ha, hb⟩ := ht
      rw [badAddr_loadPiece _ _ _ _ _ hb, h a ha]
  intro r hr
  exact H _ _ (fun r h => by simp only [Option.some.injEq] at h; rw [h]) r hr
theorem badAddr_allocPages (x0 : ℕ) (x1 : State) : ∀ r, allocPages x0 x1 = some r → r.2.badAddr = x1.badAddr := by
  intro r h
  induction x0 generalizing x1 r with
  | zero => simp only [allocPages, Option.some.injEq] at h; rw [← h]
  | succ n ih =>
    simp only [allocPages, Option.bind_eq_some_iff, Option.map_eq_some_iff] at h
    obtain ⟨a, ha, b, hb, rfl⟩ := h
    exact (ih _ _ hb).trans (badAddr_allocPage _ _ ha)
theorem badAddr_imageFor (m : Module) (features : ℕ) (s : State) : ∀ r, imageFor m features s = some r → r.2.badAddr = s.badAddr := by
  intro r h
  unfold imageFor at h
  dsimp only at h
  split at h
  · simp only [Option.some.injEq] at h; rw [← h]
  · simp only [Option.bind_eq_some_iff, Option.map_eq_some_iff] at h
    obtain ⟨a, ha, b, hb, rfl⟩ := h
    exact badAddr_allocPages _ _ _ hb
theorem badAddr_mapImage (root : ℕ) (va : ℕ) (i : CachedImage) (s : State) : ∀ r, mapImage root va i s = some r → r.badAddr = s.badAddr := by
  have H : ∀ (xs : List (Nat × Nat)) (o : Option State), (∀ r, o = some r → r.badAddr = s.badAddr) →
      ∀ r, xs.foldl (fun (acc : Option State) p => acc.bind (fun a => (mapOne root (va + 65536 * p.1) (leafBits p.2 false true true 0) true a).map (fun a =>
        { a with shared := ainsert a.shared (p.2 / 65536) (((alookup a.shared (p.2 / 65536)).getD 0) + 1) }))) o = some r → r.badAddr = s.badAddr := by
    intro xs
    induction xs with
    | nil => intro o h r hr; exact h r hr
    | cons x xs ih =>
      intro o h r hr
      apply ih _ _ r hr
      intro t ht
      simp only [Option.bind_eq_some_iff, Option.map_eq_some_iff] at ht
      obtain ⟨a, ha, b, hb, rfl⟩ := ht
      exact (badAddr_mapOne _ _ _ _ _ _ hb).trans (h a ha)
  intro r hr
  exact H _ _ (fun r h => by simp only [Option.some.injEq] at h; rw [h]) r hr
@[simp] theorem badAddr_resolved (kdesc : ℕ) (name : List Byte) (s : State) : (resolved kdesc name s).badAddr = s.badAddr := by
  rfl
theorem badAddr_placeImage (root : ℕ) (c : ℕ) (m : Module) (own : Option ℕ) (s : State) : ∀ r, placeImage root c m own s = some r → r.badAddr = s.badAddr := by
  intro r h
  unfold placeImage at h
  dsimp only at h
  split at h
  · rename_i q
    simp only [Option.map_eq_some_iff, Option.bind_eq_some_iff] at h
    obtain ⟨a, ⟨b, hb, ha⟩, rfl⟩ := h
    rw [badAddr_updCtx, badAddr_resolved, badAddr_loadPiece _ _ _ _ _ ha, badAddr_mapImage _ _ _ _ _ hb]
    exact badAddr_imageFor _ _ _ _ q
  · cases h
theorem badAddr_loadIof (root : ℕ) (c : ℕ) (f : List Byte) (s : State) : ∀ r, loadIof root c f s = some r → r.badAddr = s.badAddr := by
  intro r h
  simp only [loadIof, Option.bind_eq_some_iff, Option.map_eq_some_iff] at h
  obtain ⟨s1, h1, a, ha, rfl⟩ := h
  rw [badAddr_updCtx, ← badAddr_loadPieces _ _ _ _ _ h1]
  revert ha
  have start : ∀ r : List Nat × State, some (([] : List Nat), ((descriptors f).filter (fun d => nativeRuns f d.2)).foldl (fun a d =>
      resolved d.1 ((namesOf f d.2).headD []) a) s1) = some r → r.2.badAddr = s1.badAddr := by
    intro r h
    simp only [Option.some.injEq] at h
    rw [← h]
    apply foldl_badAddr; intro a x; simp
  revert start
  generalize (some (([] : List Nat), ((descriptors f).filter (fun d => nativeRuns f d.2)).foldl (fun a d =>
      resolved d.1 ((namesOf f d.2).headD []) a) s1) : Option (List Nat × State)) = o
  generalize modulesOf f = ms
  intro ho
  clear h1
  revert a
  induction ms generalizing o with
  | nil => intro a h; exact ho a h
  | cons x xs ih =>
    intro a h
    refine ih _ ?_ a h
    intro t ht
    simp only [Option.bind_eq_some_iff] at ht
    obtain ⟨b, hb, ht⟩ := ht
    split at ht
    · simp only [Option.some.injEq] at ht; rw [← ht]; exact ho b hb
    · split at ht
      · simp only [Option.some.injEq] at ht; rw [← ht]; exact ho b hb
      · split at ht
        · simp only [Option.some.injEq] at ht; rw [← ht]; exact ho b hb
        · simp only [Option.map_eq_some_iff] at ht
          obtain ⟨u, hu, rfl⟩ := ht
          exact (badAddr_placeImage _ _ _ _ _ _ hu).trans (ho b hb)
theorem badAddr_newContext (s : State) (c : ℕ) (pasid : ℕ) (members : List Member) : ∀ r, newContext s c pasid members = some r → r.badAddr = s.badAddr := by
  intro r h
  simp only [newContext, Option.bind_eq_some_iff, Option.some.injEq] at h
  obtain ⟨a, ha, b, hb, c', hc, d, hd, e, he, g, hg, rfl⟩ := h
  have := badAddr_allocSys _ _ _ ha
  have := badAddr_allocSys _ _ _ hb
  have := badAddr_allocSys _ _ _ hc
  have := badAddr_allocSys _ _ _ hd
  have := badAddr_allocSys _ _ _ he
  have := badAddr_allocSys _ _ _ hg
  dsimp only
  simp_all
@[simp] theorem badAddr_updAttach (s : State) (c : ℕ) (f : Attach → Attach) : (updAttach s c f).badAddr = s.badAddr := by
  rfl
@[simp] theorem badAddr_observed (s : State) (what : String) (vals : List ℕ) : (observed s what vals).badAddr = s.badAddr := by
  rfl
@[simp] theorem badAddr_wakeHalted (s : State) (c : ℕ) : (wakeHalted s c).badAddr = s.badAddr := by
  simp [wakeHalted]
@[simp] theorem badAddr_endHalt (s : State) (c : ℕ) (stop : ℕ) (stepping : Bool) : (endHalt s c stop stepping).badAddr = s.badAddr := by
  unfold endHalt
  repeat' (first
    | with_reducible rfl
    | assumption
    | (simp; done)
    | (simp [*]; done)
    | (refine pair_badAddr (by assumption) ?_)
    | (refine pair_badAddr3 (by assumption) ?_)
    | split)
@[simp] theorem badAddr_rdmaReply (s : State) (conn : ℕ) (what : String) (vals : List ℕ) : (rdmaReply s conn what vals).badAddr = s.badAddr := by
  rfl
@[simp] theorem badAddr_withPages (s : State) (rkey : ℕ) (va : ℕ) (n : ℕ) : (withPages s rkey va n).badAddr = s.badAddr := by
  unfold withPages
  repeat' (first | with_reducible rfl | assumption | (simp; done) | (refine pair_badAddr (by assumption) ?_) | (refine pair_badAddr3 (by assumption) ?_) | split)
@[simp] theorem badAddr_remoteStore (s : State) (w : Window) (conn : ℕ) (va : ℕ) (data : List Byte) : (remoteStore s w conn va data).badAddr = s.badAddr := by
  unfold remoteStore; split <;> simp
@[simp] theorem badAddr_marked (s : State) (conn : ℕ) : (marked s conn).badAddr = s.badAddr := by
  unfold marked
  repeat' (first
    | with_reducible rfl
    | assumption
    | (simp; done)
    | (simp [*]; done)
    | (refine pair_badAddr (by assumption) ?_)
    | (refine pair_badAddr3 (by assumption) ?_)
    | split
    | dsimp only
    | simp)
@[simp] theorem badAddr_takesRequests (s : State) (f : State → State) (hf : ∀ a, (f a).badAddr = a.badAddr) : (takesRequests s f).badAddr = s.badAddr := by
  unfold takesRequests; split
  · exact hf _
  · rfl
@[simp] theorem badAddr_setClocks (s : State) (mhz : ℕ) : (setClocks s mhz).badAddr = s.badAddr := by
  rfl
@[simp] theorem badAddr_startMboelaor (s : State) (img : List Byte) : (startMboelaor s img).badAddr = s.badAddr := by
  unfold startMboelaor
  dsimp only
  rw [foldl_badAddr]
  · rfl
  · intro a x; simp
@[simp] theorem badAddr_haltBoot (s : State) (b : Boot) (code : ℕ) : (haltBoot s b code).badAddr = s.badAddr := by
  rfl
@[simp] theorem badAddr_fromStage1 (s : State) (img : List Byte) : (fromStage1 s img).badAddr = s.badAddr := by
  unfold fromStage1
  dsimp only
  split
  · simp
  · split
    · simp
    · split
      · rw [badAddr_startMboelaor]
      · simp
@[simp] theorem badAddr_reply (s : State) (what : String) (vals : List ℕ) : (reply s what vals).badAddr = s.badAddr := by
  rfl
@[simp] theorem badAddr_killKeyed (s : State) (c : ℕ) : (killKeyed s c).badAddr = s.badAddr := by
  simp [killKeyed]
@[simp] theorem badAddr_unlockNow (s : State) : (unlockNow s).badAddr = s.badAddr := by
  unfold unlockNow
  repeat' (first
    | with_reducible rfl
    | assumption
    | (simp; done)
    | (simp [*]; done)
    | (refine pair_badAddr (by assumption) ?_)
    | (refine pair_badAddr3 (by assumption) ?_)
    | split)
@[simp] theorem badAddr_countAnswer (s : State) (p : SpdmPort) : (countAnswer s p).badAddr = s.badAddr := by
  rfl
@[simp] theorem badAddr_benchUntil (core : ℕ) (x1 : List ℕ) (x2 : State) : (benchUntil core x1 x2).badAddr = x2.badAddr := by
  induction x1 generalizing x2 with
  | nil => rfl
  | cons x r ih =>
    simp only [benchUntil]
    split
    · rfl
    · rw [ih]; simp
@[simp] theorem badAddr_benchExcess (s : State) (core : ℕ) : (benchExcess s core).badAddr = s.badAddr := by
  unfold benchExcess; split <;> simp
@[simp] theorem badAddr_seat (s : State) (st : Strand) : (seat s st).badAddr = s.badAddr := by
  unfold seat
  repeat' (first
    | with_reducible rfl
    | assumption
    | (simp; done)
    | (simp [*]; done)
    | (refine pair_badAddr (by assumption) ?_)
    | (refine pair_badAddr3 (by assumption) ?_)
    | split
    | dsimp only)
@[simp] theorem badAddr_arrivedQueue (c : ℕ) (q : ℕ) (u : UserQ) (s : State) : (arrivedQueue c q u s).badAddr = s.badAddr := by
  simp [arrivedQueue]
theorem badAddr_mapHost (root : ℕ) (ps : List (Nat × Bool × Bool)) (s : State) : ∀ r, mapHost root ps s = some r → r.badAddr = s.badAddr := by
  have H : ∀ (xs : List (Nat × Bool × Bool)) (o : Option State), (∀ r, o = some r → r.badAddr = s.badAddr) →
      ∀ r, xs.foldl (fun (acc : Option State) p => acc.bind (mapOne root (p.1 * 4096) (hostLeafBits p.2.1 p.2.2) false)) o = some r → r.badAddr = s.badAddr := by
    intro xs
    induction xs with
    | nil => intro o h; exact h
    | cons x xs ih =>
      intro o h
      rw [List.foldl_cons]
      refine ih _ fun r hr => ?_
      simp only [Option.bind_eq_some_iff] at hr
      obtain ⟨b, hb, hr⟩ := hr
      rw [badAddr_mapOne _ _ _ _ _ _ hr, h _ hb]
  exact H ps (some s) (by simp)
@[simp] theorem badAddr_arrive (s : State) (a : Arrival) : (arrive s a).badAddr = s.badAddr := by
  unfold arrive
  split
  · rfl
  · split
    · split
      · rfl
      · rename_i c q _ _ _ s1 e
        simp only [Option.bind_eq_some_iff] at e
        obtain ⟨b, hb, d, hd, h⟩ := e
        have key : (arrivedQueue c q a.ring s1).badAddr = s.badAddr := by
          rw [badAddr_arrivedQueue, badAddr_mapHost _ _ _ _ h, badAddr_loadPieces _ _ _ _ _ hd, badAddr_newContext _ _ _ _ _ hb]
        dsimp only [fresh]
        split
        · exact key
        · simpa [updQueue] using key
    · rfl
@[simp] theorem badAddr_withoutMemory (s : State) : (withoutMemory s).badAddr = s.badAddr := by
  rfl
@[simp] theorem badAddr_arrivals (s0 : State) : (arrivals s0).badAddr = s0.badAddr := by
  unfold arrivals
  repeat' (first
    | with_reducible rfl
    | assumption
    | (simp; done)
    | (simp [*]; done)
    | (refine pair_badAddr (by assumption) ?_)
    | (refine pair_badAddr3 (by assumption) ?_)
    | split
    | dsimp only)
@[simp] theorem badAddr_tick (s : State) : (tick s).badAddr = s.badAddr := by
  unfold tick; simp
@[simp] theorem badAddr_departures (s : State) : (departures s).badAddr = s.badAddr := by
  simp [departures]
@[simp] theorem badAddr_seatUrgent (core : ℕ) (s : State) : (seatUrgent core s).badAddr = s.badAddr := by
  unfold seatUrgent
  split
  · split <;> simp
  · rfl
@[simp] theorem badAddr_settled (s0 : State) : (settled s0).badAddr = s0.badAddr := by
  simp [settled]
@[simp] theorem badAddr_nextPort (s : State) : (nextPort s).2.badAddr = s.badAddr := by
  unfold nextPort; split <;> simp
@[simp] theorem badAddr_takeSlot (s : State) (core : ℕ) (part : ℕ) (port : ℕ) (st : Strand) : (takeSlot s core part port st).badAddr = s.badAddr := by
  unfold takeSlot; split <;> simp
@[simp] theorem badAddr_haltStepped (s : State) (others : List ℕ) : (haltStepped s others).badAddr = s.badAddr := by
  simp [haltStepped]
@[simp] theorem badAddr_holdPort (s : State) (core : ℕ) (part : ℕ) (port : ℕ) : (holdPort s core part port).badAddr = s.badAddr := by
  simp [holdPort]
@[simp] theorem badAddr_settle (core : ℕ) (part : ℕ) (port : ℕ) (sid : ℕ) (others : List ℕ) (b : Bool) (s : State) : (settle core part port sid others b s).badAddr = s.badAddr := by
  unfold settle
  repeat' (first
    | with_reducible rfl
    | assumption
    | (simp; done)
    | (simp [*]; done)
    | (refine pair_badAddr (by assumption) ?_)
    | (refine pair_badAddr3 (by assumption) ?_)
    | split
    | dsimp only)
end Sys2Proof.Machine
end

