-- ==== Sys2Proof/Laws/Canonical.lean ====
section
/-! SUPPORT. Every named operation keeps every memory in canonical form: one lemma per operation, canon_<operation>. -/

namespace Sys2Proof.Machine
theorem canon_of_eq {s t : State} (h : memoriesCanonical s) (a : t.mem = s.mem) (b : t.hostMem = s.hostMem) (c : t.teams = s.teams) (d : t.cores = s.cores) :
    memoriesCanonical t := ⟨a ▸ h.device, b ▸ h.host, c ▸ h.teams, d ▸ h.cores⟩
theorem canon_lit {a_agenda : List Instr} {a_sched : List (Nat × Nat × Nat)} {a_issuePhase : Bool} {a_evPtr : Nat} {a_nfree : Nat} {a_cur : Option Nat} {a_nextId : Nat} {a_out : List Out} {a_badAddr : Option Nat} {a_choices : List Nat} {a_hostStores : List HostStore} {a_pendingCalls : List Instr} {a_time : Nat} {a_slots : Nat} {a_drainSeq : Nat} {a_strands : List Strand} {a_ops : List Op} {a_gangs : List Gang} {a_launches : List Launch} {a_dies : List Die} {a_memPois : List Nat} {a_hostPois : List (Nat × Nat)} {a_stores : List Store} {a_obs : List ObsEntry} {a_rels : List RelEntry} {a_reads : List ReadEntry} {a_fences : List FenceStep} {a_gsets : List GranSet} {a_walkReqs : List WalkReq} {a_walkRes : List WalkRes} {a_walkCache : List WalkEntry} {a_invals : List Inval} {a_atsReqs : List AtsReq} {a_atsInvals : List AtsInval} {a_priReqs : List PriReq} {a_ctxs : List Ctx} {a_stops : List Stop} {a_nextTicket : Nat} {a_selTicket : Nat} {a_selCtx : Nat} {a_stopNone : Bool} {a_stopRefused : Bool} {a_attaches : List Attach} {a_dumps : List Dump} {a_l2 : L2Mode} {a_l2lines : List L2Line} {a_packets : List Packet} {a_bdies : List BDie} {a_userqs : List UserQ} {a_windows : List Window} {a_images : List CachedImage} {a_sec : Sec} {a_telemetry : List Telemetry} {a_corrected : List ErrCount} {a_allocated : Nat} {a_allocatedFast : Nat} {a_sysPages : Nat} {a_freePages : List Nat} {a_shared : List (Nat × Nat)} {a_oldRecords : List (Nat × Nat)} {s : State} : memoriesCanonical ⟨a_agenda, a_sched, a_issuePhase, a_evPtr, a_nfree, a_cur, a_nextId, a_out, a_badAddr, a_choices, a_hostStores, a_pendingCalls, a_time, a_slots, a_drainSeq, a_strands, a_ops, s.teams, a_gangs, a_launches, s.cores, a_dies, s.mem, a_memPois, s.hostMem, a_hostPois, a_stores, a_obs, a_rels, a_reads, a_fences, a_gsets, a_walkReqs, a_walkRes, a_walkCache, a_invals, a_atsReqs, a_atsInvals, a_priReqs, a_ctxs, a_stops, a_nextTicket, a_selTicket, a_selCtx, a_stopNone, a_stopRefused, a_attaches, a_dumps, a_l2, a_l2lines, a_packets, a_bdies, a_userqs, a_windows, a_images, a_sec, a_telemetry, a_corrected, a_allocated, a_allocatedFast, a_sysPages, a_freePages, a_shared, a_oldRecords⟩ ↔ memoriesCanonical s :=
  ⟨fun h => ⟨h.device, h.host, h.teams, h.cores⟩, fun h => ⟨h.device, h.host, h.teams, h.cores⟩⟩
theorem canon_devLit {a_agenda : List Instr} {a_sched : List (Nat × Nat × Nat)} {a_issuePhase : Bool} {a_evPtr : Nat} {a_nfree : Nat} {a_cur : Option Nat} {a_nextId : Nat} {a_out : List Out} {a_badAddr : Option Nat} {a_choices : List Nat} {a_hostStores : List HostStore} {a_pendingCalls : List Instr} {a_time : Nat} {a_slots : Nat} {a_drainSeq : Nat} {a_strands : List Strand} {a_ops : List Op} {a_gangs : List Gang} {a_launches : List Launch} {a_dies : List Die} {a_memPois : List Nat} {a_hostPois : List (Nat × Nat)} {a_stores : List Store} {a_obs : List ObsEntry} {a_rels : List RelEntry} {a_reads : List ReadEntry} {a_fences : List FenceStep} {a_gsets : List GranSet} {a_walkReqs : List WalkReq} {a_walkRes : List WalkRes} {a_walkCache : List WalkEntry} {a_invals : List Inval} {a_atsReqs : List AtsReq} {a_atsInvals : List AtsInval} {a_priReqs : List PriReq} {a_ctxs : List Ctx} {a_stops : List Stop} {a_nextTicket : Nat} {a_selTicket : Nat} {a_selCtx : Nat} {a_stopNone : Bool} {a_stopRefused : Bool} {a_attaches : List Attach} {a_dumps : List Dump} {a_l2 : L2Mode} {a_l2lines : List L2Line} {a_packets : List Packet} {a_bdies : List BDie} {a_userqs : List UserQ} {a_windows : List Window} {a_images : List CachedImage} {a_sec : Sec} {a_telemetry : List Telemetry} {a_corrected : List ErrCount} {a_allocated : Nat} {a_allocatedFast : Nat} {a_sysPages : Nat} {a_freePages : List Nat} {a_shared : List (Nat × Nat)} {a_oldRecords : List (Nat × Nat)} {a_mem : List Host.Cell} {s : State} (h : memoriesCanonical s) (hm : Memory.wf a_mem = true) : memoriesCanonical ⟨a_agenda, a_sched, a_issuePhase, a_evPtr, a_nfree, a_cur, a_nextId, a_out, a_badAddr, a_choices, a_hostStores, a_pendingCalls, a_time, a_slots, a_drainSeq, a_strands, a_ops, s.teams, a_gangs, a_launches, s.cores, a_dies, a_mem, a_memPois, s.hostMem, a_hostPois, a_stores, a_obs, a_rels, a_reads, a_fences, a_gsets, a_walkReqs, a_walkRes, a_walkCache, a_invals, a_atsReqs, a_atsInvals, a_priReqs, a_ctxs, a_stops, a_nextTicket, a_selTicket, a_selCtx, a_stopNone, a_stopRefused, a_attaches, a_dumps, a_l2, a_l2lines, a_packets, a_bdies, a_userqs, a_windows, a_images, a_sec, a_telemetry, a_corrected, a_allocated, a_allocatedFast, a_sysPages, a_freePages, a_shared, a_oldRecords⟩ :=
  ⟨hm, h.host, h.teams, h.cores⟩
theorem canon_foldl {α : Type} (f : State → α → State) (xs : List α) (s : State) (h : ∀ a x, memoriesCanonical a → memoriesCanonical (f a x)) (hs : memoriesCanonical s) :
    memoriesCanonical (xs.foldl f s) := by
  induction xs generalizing s with
  | nil => exact hs
  | cons x r ih => exact ih _ (h _ _ hs)
theorem canon_foldl2 {α β : Type} (f : β × State → α → β × State) (xs : List α) (s : β × State) (h : ∀ a x, memoriesCanonical a.2 → memoriesCanonical (f a x).2)
    (hs : memoriesCanonical s.2) : memoriesCanonical (xs.foldl f s).2 := by
  induction xs generalizing s with
  | nil => exact hs
  | cons x r ih => exact ih _ (h _ _ hs)
theorem canon_foldl3 {α β γ : Type} (f : β × γ × State → α → β × γ × State) (xs : List α) (s : β × γ × State)
    (h : ∀ a x, memoriesCanonical a.2.2 → memoriesCanonical (f a x).2.2) (hs : memoriesCanonical s.2.2) : memoriesCanonical (xs.foldl f s).2.2 := by
  induction xs generalizing s with
  | nil => exact hs
  | cons x r ih => exact ih _ (h _ _ hs)
theorem canon_pair {β : Type} {e : β × State} {a : β} {b : State} (h : e = (a, b)) (k : memoriesCanonical e.2) : memoriesCanonical b := by rw [h] at k; exact k
theorem canon_pair3 {β γ : Type} {e : β × γ × State} {a : β} {c : γ} {b : State} (h : e = (a, c, b)) (k : memoriesCanonical e.2.2) : memoriesCanonical b := by
  rw [h] at k; exact k
theorem canon_updTeam (s : State) (lk num : Nat) (f : Team → Team) (h : memoriesCanonical s) (hf : ∀ t, teamCanonical t → teamCanonical (f t)) :
    memoriesCanonical (updTeam s lk num f) := by
  refine ⟨h.device, h.host, ?_, h.cores⟩
  intro t ht
  simp only [updTeam, updWhere, List.mem_map] at ht
  obtain ⟨u, hu, rfl⟩ := ht
  split
  · exact hf u (h.teams u hu)
  · exact h.teams u hu
theorem canon_coreOf {s : State} (h : memoriesCanonical s) (n : Nat) : coreCanonical (coreOf s n) := by
  unfold coreOf
  cases e : s.cores.find? (fun c => c.num == n) with
  | none => rfl
  | some c => exact h.cores c (List.mem_of_find?_eq_some e)
theorem canon_putCore (s : State) (c : Core) (h : memoriesCanonical s) (hc : coreCanonical c) : memoriesCanonical (putCore s c) := by
  unfold putCore
  split
  · refine ⟨h.device, h.host, h.teams, ?_⟩
    intro x hx
    simp only [updWhere, List.mem_map] at hx
    obtain ⟨u, hu, rfl⟩ := hx
    split
    · exact hc
    · exact h.cores u hu
  · refine ⟨h.device, h.host, h.teams, ?_⟩
    intro x hx
    rcases List.mem_append.mp hx with hx | hx
    · exact h.cores x hx
    · rw [List.mem_singleton] at hx; rw [hx]; exact hc
theorem canon_putPart (s : State) (core part : Nat) (p : Part) (h : memoriesCanonical s) : memoriesCanonical (putPart s core part p) := by
  unfold putPart
  exact canon_putCore _ _ h (canon_coreOf h core)
theorem canon_teamOf {s : State} (h : memoriesCanonical s) {lk n : Nat} {t : Team} (e : teamOf s lk n = some t) : teamCanonical t :=
  h.teams t (List.mem_of_find?_eq_some e)
theorem alookup_mem {β : Type} {xs : List (Nat × β)} {k : Nat} {v : β} (h : alookup xs k = some v) : ∃ e ∈ xs, e.2 = v := by
  induction xs with
  | nil => simp [alookup] at h
  | cons e r ih =>
    simp only [alookup] at h
    split at h
    · simp only [Option.some.injEq] at h; exact ⟨e, by simp, h⟩
    · obtain ⟨x, hx, q⟩ := ih h; exact ⟨x, List.mem_cons_of_mem _ hx, q⟩
theorem canon_setHome (s : State) (sp : Space) (a : Nat) (bs : List Byte) (h : memoriesCanonical s) : memoriesCanonical (setHome s sp a bs) := by
  cases sp with
  | dev => exact ⟨memPuts_wf h.device _ _, h.host, h.teams, h.cores⟩
  | host c =>
    refine ⟨h.device, ?_, h.teams, h.cores⟩
    intro e he
    rcases mem_ainsert he with he | he
    · rw [he]
      apply memPuts_wf
      cases q : alookup s.hostMem c with
      | none => rfl
      | some m => obtain ⟨x, hx, r⟩ := alookup_mem q; exact r ▸ h.host x hx
    · exact h.host e he
  | scr lk t => exact canon_updTeam _ _ _ _ h (fun t ht => ⟨memPuts_wf ht.1 _ _, ht.2⟩)
theorem wf_filter {m : List Host.Cell} (p : Host.Cell → Bool) (h : Memory.wf m = true) : Memory.wf (m.filter p) = true := by
  suffices H : ∀ (m : List Host.Cell) (lo : Option Nat), memWf lo m = true → memWf lo (m.filter p) = true from H m none h
  intro m
  induction m with
  | nil => intro lo h; exact h
  | cons c r ih =>
    intro lo h
    simp only [memWf, Bool.and_eq_true, decide_eq_true_eq] at h
    rw [List.filter_cons]
    split
    · simp only [memWf, Bool.and_eq_true, decide_eq_true_eq]; exact ⟨h.1, ih _ h.2⟩
    · have := ih _ h.2
      cases lo with
      | none => exact memWf_none this
      | some l => exact memWf_mono (by have := h.1.1; simp only [decide_eq_true_eq] at this; omega) this
theorem canon_clearRange (s : State) (a n : Nat) (h : memoriesCanonical s) : memoriesCanonical (clearRange s a n) :=
  ⟨wf_filter _ h.device, h.host, h.teams, h.cores⟩
theorem canon_optFoldl {α : Type} (f : State → α → Option State) (xs : List α) (o : Option State) (h : ∀ a x t, memoriesCanonical a → f a x = some t → memoriesCanonical t)
    (ho : ∀ r, o = some r → memoriesCanonical r) (r : State) (e : xs.foldl (fun acc x => acc.bind (fun a => f a x)) o = some r) : memoriesCanonical r := by
  induction xs generalizing o with
  | nil => exact ho r e
  | cons x xs ih =>
    refine ih _ (fun t ht => ?_) e
    obtain ⟨a, ha, q⟩ := Option.bind_eq_some_iff.mp ht
    exact h a x t (ho a ha) q
theorem foldl_memPut_wf (cs m : List Host.Cell) (w : Memory.wf m = true) : Memory.wf (cs.foldl (fun m c => memPut m c.1 c.2) m) = true := by
  induction cs generalizing m with
  | nil => exact w
  | cons c r ih => exact ih _ (memPut_wf w _ _)
theorem canon_updStrand (s : State) (sid : ℕ) (f : Strand → Strand) (hc : memoriesCanonical s) : memoriesCanonical (updStrand s sid f) := by
  unfold updStrand
  repeat' (first | with_reducible assumption | (refine canon_pair (by assumption) ?_) | (refine canon_pair3 (by assumption) ?_) | split | dsimp only | simp only [canon_lit])
theorem canon_putStrand (s : State) (st : Strand) (hc : memoriesCanonical s) : memoriesCanonical (putStrand s st) := by
  unfold putStrand
  repeat' (first | with_reducible assumption | apply canon_updStrand)
theorem canon_dropStrand (s : State) (sid : ℕ) (hc : memoriesCanonical s) : memoriesCanonical (dropStrand s sid) := by
  unfold dropStrand
  repeat' (first | with_reducible assumption | (refine canon_pair (by assumption) ?_) | (refine canon_pair3 (by assumption) ?_) | split | dsimp only | simp only [canon_lit])
theorem canon_updOp (s : State) (oid : ℕ) (f : Op → Op) (hc : memoriesCanonical s) : memoriesCanonical (updOp s oid f) := by
  unfold updOp
  repeat' (first | with_reducible assumption | (refine canon_pair (by assumption) ?_) | (refine canon_pair3 (by assumption) ?_) | split | dsimp only | simp only [canon_lit])
theorem canon_updLaunch (s : State) (lk : ℕ) (f : Launch → Launch) (hc : memoriesCanonical s) : memoriesCanonical (updLaunch s lk f) := by
  unfold updLaunch
  repeat' (first | with_reducible assumption | (refine canon_pair (by assumption) ?_) | (refine canon_pair3 (by assumption) ?_) | split | dsimp only | simp only [canon_lit])
theorem canon_updCtx (s : State) (c : ℕ) (f : Ctx → Ctx) (hc : memoriesCanonical s) : memoriesCanonical (updCtx s c f) := by
  unfold updCtx
  repeat' (first | with_reducible assumption | (refine canon_pair (by assumption) ?_) | (refine canon_pair3 (by assumption) ?_) | split | dsimp only | simp only [canon_lit])
theorem canon_putDie (s : State) (d : Die) (hc : memoriesCanonical s) : memoriesCanonical (putDie s d) := by
  unfold putDie
  repeat' (first | with_reducible assumption | (refine canon_pair (by assumption) ?_) | (refine canon_pair3 (by assumption) ?_) | split | dsimp only | simp only [canon_lit])
theorem canon_draw (s : State) (hc : memoriesCanonical s) : memoriesCanonical (draw s) := by
  unfold draw
  repeat' (first | with_reducible assumption | (refine canon_pair (by assumption) ?_) | (refine canon_pair3 (by assumption) ?_) | split | dsimp only | simp only [canon_lit])
theorem canon_freeBool (s : State) (hc : memoriesCanonical s) : memoriesCanonical (freeBool s).2 := by
  unfold freeBool
  repeat' (first | with_reducible assumption | apply canon_draw)
theorem canon_choose (s : State) (n : ℕ) (hc : memoriesCanonical s) : memoriesCanonical (choose s n).2 := by
  unfold choose
  repeat' (first | with_reducible assumption | (refine canon_pair (by assumption) ?_) | (refine canon_pair3 (by assumption) ?_) | split | dsimp only | simp only [canon_lit])
theorem canon_fresh (s : State) (hc : memoriesCanonical s) : memoriesCanonical (fresh s).2 := by
  unfold fresh
  repeat' (first | with_reducible assumption | (refine canon_pair (by assumption) ?_) | (refine canon_pair3 (by assumption) ?_) | split | dsimp only | simp only [canon_lit])
theorem canon_assignIds (s : State) (x1 : List Strand) (hc : memoriesCanonical s) : memoriesCanonical (assignIds s x1).2 := by
  induction x1 generalizing s with
  | nil => exact hc
  | cons st r ih => simp only [assignIds]; exact ih _ (canon_fresh _ hc)
theorem canon_replaceStrand (s : State) (sid : ℕ) (new : List Strand) (hc : memoriesCanonical s) : memoriesCanonical (replaceStrand s sid new).2 := by
  unfold replaceStrand
  repeat' (first | with_reducible assumption | apply canon_putStrand | apply canon_assignIds | (refine canon_pair (by assumption) ?_) | (refine canon_pair3 (by assumption) ?_) | split | dsimp only | simp only [canon_lit])
theorem canon_unblockSid (s : State) (sid : ℕ) (hc : memoriesCanonical s) : memoriesCanonical (unblockSid s sid) := by
  unfold unblockSid
  repeat' (first | with_reducible assumption | apply canon_updStrand)
theorem canon_blockOn (s : State) (sid : ℕ) (w : Wait) (hc : memoriesCanonical s) : memoriesCanonical (blockOn s sid w) := by
  unfold blockOn
  repeat' (first | with_reducible assumption | apply canon_updStrand)
theorem canon_advance (s : State) (sid : ℕ) (len : ℕ) (hc : memoriesCanonical s) : memoriesCanonical (advance s sid len) := by
  unfold advance
  repeat' (first | with_reducible assumption | apply canon_updStrand)
theorem canon_endRun (s : State) (hc : memoriesCanonical s) : memoriesCanonical (endRun s) := by
  unfold endRun
  repeat' (first | with_reducible assumption | (refine canon_pair (by assumption) ?_) | (refine canon_pair3 (by assumption) ?_) | split | dsimp only | simp only [canon_lit])
theorem canon_traceIn (s : State) (c : ℕ) (id : ℕ) (ev : ℕ) (team : ℕ) (arg : ℕ) (hc : memoriesCanonical s) : memoriesCanonical (traceIn s c id ev team arg) := by
  unfold traceIn
  repeat' (first | with_reducible assumption | (refine canon_pair (by assumption) ?_) | (refine canon_pair3 (by assumption) ?_) | split | dsimp only | simp only [canon_lit])
theorem canon_traceRecord (s : State) (lk : ℕ) (ev : ℕ) (team : ℕ) (arg : ℕ) (hc : memoriesCanonical s) : memoriesCanonical (traceRecord s lk ev team arg) := by
  unfold traceRecord
  repeat' (first | with_reducible assumption | apply canon_traceIn)
theorem canon_closeHalt (s : State) (st : Strand) (action : ℕ) (hc : memoriesCanonical s) : memoriesCanonical (closeHalt s st action) := by
  unfold closeHalt
  repeat' (first | with_reducible assumption | apply canon_traceRecord)
theorem canon_closeHalts (s : State) (gone : List Strand) (action : ℕ) (hc : memoriesCanonical s) : memoriesCanonical (closeHalts s gone action) := by
  unfold closeHalts
  refine canon_foldl _ _ _ (fun a x h => ?_) hc
  split
  · exact h
  · exact canon_closeHalt _ _ _ h
theorem canon_writeReport (s : State) (c : ℕ) (r : Report) (hc : memoriesCanonical s) : memoriesCanonical (writeReport s c r) := by
  unfold writeReport; split
  · exact hc
  · dsimp only; exact canon_updCtx _ _ _ (canon_devLit hc (memPuts_wf hc.device _ _))
theorem canon_enqueueReport (s : State) (c : ℕ) (r : Report) (hc : memoriesCanonical s) : memoriesCanonical (enqueueReport s c r) := by
  unfold enqueueReport
  repeat' (first | with_reducible assumption | apply canon_writeReport | apply canon_updCtx | (refine canon_pair (by assumption) ?_) | (refine canon_pair3 (by assumption) ?_) | split)
theorem canon_raiseStop (s : State) (lk : ℕ) (sids : List ℕ) (kind : ℕ) (cause : ℕ) (cls : ℕ) (len : ℕ) (after : After) (rs : List Report) (hc : memoriesCanonical s) : memoriesCanonical (raiseStop s lk sids kind cause cls len after rs) := by
  unfold raiseStop
  repeat' (first | with_reducible assumption | apply canon_updLaunch | apply canon_enqueueReport | apply canon_endRun | apply canon_traceRecord | (apply canon_foldl; intro a x ha) | (refine canon_pair (by assumption) ?_) | (refine canon_pair3 (by assumption) ?_) | split | dsimp only | simp only [canon_lit])
theorem canon_trapWhole (s : State) (st : Strand) (len : ℕ) (r : Report) (hc : memoriesCanonical s) : memoriesCanonical (trapWhole s st len r) := by
  unfold trapWhole
  repeat' (first | with_reducible assumption | apply canon_raiseStop)
theorem canon_partialFault (s : State) (st : Strand) (F : List ℕ) (len : ℕ) (r : Report) (hc : memoriesCanonical s) : memoriesCanonical (partialFault s st F len r).2 := by
  unfold partialFault
  repeat' (first | with_reducible assumption | apply canon_replaceStrand | apply canon_raiseStop)
theorem canon_parkGroups (s : State) (st : Strand) (gs : List (List ℕ × Report)) (len : ℕ) (hc : memoriesCanonical s) : memoriesCanonical (parkGroups s st gs len).2 := by
  unfold parkGroups
  repeat' (first | with_reducible assumption | apply canon_replaceStrand | apply canon_raiseStop | (apply canon_foldl2; intro a x ha) | (refine canon_pair (by assumption) ?_) | (refine canon_pair3 (by assumption) ?_) | split)
theorem canon_eachStrand (s : State) (ids : List ℕ) (f : State → Strand → State) (hf : ∀ a y0, memoriesCanonical a → memoriesCanonical (f a y0)) (hc : memoriesCanonical s) : memoriesCanonical (eachStrand s ids f) := by
  unfold eachStrand
  repeat' (first | with_reducible assumption | (apply canon_foldl; intro a x ha) | (refine canon_pair (by assumption) ?_) | (refine canon_pair3 (by assumption) ?_) | split | dsimp only | simp only [canon_lit] | apply hf)
theorem canon_withoutFaulting (s : State) (st : Strand) (F : List ℕ) (len : ℕ) (r : Report) (f : State → Strand → State) (hf : ∀ a y0, memoriesCanonical a → memoriesCanonical (f a y0)) (hc : memoriesCanonical s) : memoriesCanonical (withoutFaulting s st F len r f) := by
  unfold withoutFaulting
  repeat' (first | with_reducible assumption | apply canon_partialFault | apply canon_eachStrand | (refine canon_pair (by assumption) ?_) | (refine canon_pair3 (by assumption) ?_) | split | dsimp only | simp only [canon_lit] | apply hf)
theorem canon_leavePorts (s : State) (sid : ℕ) (hc : memoriesCanonical s) : memoriesCanonical (leavePorts s sid) := by
  refine ⟨hc.device, hc.host, hc.teams, ?_⟩
  intro k hk
  simp only [leavePorts, List.mem_map] at hk
  obtain ⟨u, hu, rfl⟩ := hk
  exact hc.cores u hu
theorem canon_haltStrand (s : State) (st : Strand) (id : ℕ) (hc : memoriesCanonical s) : memoriesCanonical (haltStrand s st id) := by
  unfold haltStrand
  repeat' (first | with_reducible assumption | apply canon_endRun | apply canon_traceRecord | apply canon_updStrand | apply canon_leavePorts)
theorem canon_debugHalt (s : State) (sid : ℕ) (source : ℕ) (comp : ℕ) (code : ℕ) (wpc : ℕ) (hits : List ℕ) (total : ℕ) (hc : memoriesCanonical s) : memoriesCanonical (debugHalt s sid source comp code wpc hits total) := by
  unfold debugHalt
  repeat' (first | with_reducible assumption | apply canon_haltStrand | (refine canon_pair (by assumption) ?_) | (refine canon_pair3 (by assumption) ?_) | split | dsimp only | simp only [canon_lit])
theorem canon_addOp (s : State) (st : Strand) (c : OpClass) (idxs : List ℕ) (body : OpBody) (done : Bool) (hc : memoriesCanonical s) : memoriesCanonical (addOp s st c idxs body done).2 := by
  unfold addOp
  repeat' (first | with_reducible assumption | apply canon_fresh | apply canon_updStrand | (refine canon_pair (by assumption) ?_) | (refine canon_pair3 (by assumption) ?_) | split | dsimp only | simp only [canon_lit])
theorem canon_stallStrand (s : State) (sid : ℕ) (n : Need) (hc : memoriesCanonical s) : memoriesCanonical (stallStrand s sid n) := by
  unfold stallStrand
  repeat' (first | with_reducible assumption | apply canon_endRun | apply canon_blockOn)
theorem canon_wakeStalls (s : State) (hc : memoriesCanonical s) : memoriesCanonical (wakeStalls s) := by
  unfold wakeStalls
  repeat' (first | with_reducible assumption | (refine canon_pair (by assumption) ?_) | (refine canon_pair3 (by assumption) ?_) | split | dsimp only | simp only [canon_lit])
theorem canon_formGang (s : State) (lk : ℕ) (team : ℕ) (hc : memoriesCanonical s) : memoriesCanonical (formGang s lk team) := by
  unfold formGang
  repeat' (first | with_reducible assumption | apply canon_putDie | (refine canon_pair (by assumption) ?_) | (refine canon_pair3 (by assumption) ?_) | split | dsimp only | simp only [canon_lit])
theorem canon_cutByTeam (s : State) (st : Strand) (hc : memoriesCanonical s) : memoriesCanonical (cutByTeam s st).2 := by
  unfold cutByTeam
  repeat' (first | with_reducible assumption | apply canon_formGang | apply canon_replaceStrand | (apply canon_foldl; intro a x ha))
theorem canon_placementCut (s : State) (st : Strand) (hc : memoriesCanonical s) : memoriesCanonical (placementCut s st) := by
  unfold placementCut
  repeat' (first | with_reducible assumption | apply canon_endRun | apply canon_cutByTeam)
theorem canon_tiller (s : State) (st : Strand) (hc : memoriesCanonical s) : memoriesCanonical (tiller s st).2 := by
  unfold tiller
  repeat' (first | with_reducible assumption | apply canon_replaceStrand)
theorem canon_comparators (s : State) (sid : ℕ) (wrote : List ℕ) (pc : ℕ) (hc : memoriesCanonical s) : memoriesCanonical (comparators s sid wrote pc) := by
  unfold comparators
  repeat' (first | with_reducible assumption | apply canon_debugHalt | (refine canon_pair (by assumption) ?_) | (refine canon_pair3 (by assumption) ?_) | split | dsimp only)
theorem canon_writeResult (s : State) (st : Strand) (r : Result) (len : ℕ) (hc : memoriesCanonical s) : memoriesCanonical (writeResult s st r len) := by
  unfold writeResult
  repeat' (first | with_reducible assumption | apply canon_trapWhole | apply canon_putStrand | apply canon_comparators | (refine canon_pair (by assumption) ?_) | (refine canon_pair3 (by assumption) ?_) | split | dsimp only)
theorem canon_writeThen (adv : Strand → Strand) (s : State) (st : Strand) (r : Result) (len : ℕ) (hc : memoriesCanonical s) : memoriesCanonical (writeThen adv s st r len) := by
  unfold writeThen
  repeat' (first | with_reducible assumption | apply canon_writeResult)
theorem canon_commit (s : State) (st : Strand) (r : Result) (len : ℕ) (hc : memoriesCanonical s) : memoriesCanonical (commit s st r len) := by
  unfold commit
  repeat' (first | with_reducible assumption | apply canon_placementCut | apply canon_writeResult | apply canon_tiller | apply canon_endRun | apply canon_eachStrand | (refine canon_pair (by assumption) ?_) | (refine canon_pair3 (by assumption) ?_) | split | dsimp only | simp only [canon_lit] | (rintro r ⟨⟩))
theorem canon_commitThen (adv : Strand → Strand) (s : State) (st : Strand) (r : Result) (len : ℕ) (hc : memoriesCanonical s) : memoriesCanonical (commitThen adv s st r len) := by
  unfold commitThen
  repeat' (first | with_reducible assumption | apply canon_placementCut | apply canon_writeThen | apply canon_tiller | apply canon_endRun | apply canon_eachStrand | (refine canon_pair (by assumption) ?_) | (refine canon_pair3 (by assumption) ?_) | split | dsimp only | simp only [canon_lit] | (rintro r ⟨⟩))
theorem canon_asIfX (s : State) (st : Strand) (f : State → Strand → State) (hf : ∀ a y0, memoriesCanonical a → memoriesCanonical (f a y0)) (hc : memoriesCanonical s) : memoriesCanonical (asIfX s st f) := by
  unfold asIfX
  repeat' (first | with_reducible assumption | apply canon_placementCut | apply canon_tiller | apply canon_endRun | apply canon_eachStrand | (refine canon_pair (by assumption) ?_) | (refine canon_pair3 (by assumption) ?_) | split | dsimp only | simp only [canon_lit] | apply hf)
theorem canon_waitFor (s : State) (sid : ℕ) (rs : List ℕ) (q : Bool) (hc : memoriesCanonical s) : memoriesCanonical (waitFor s sid rs q) := by
  unfold waitFor
  repeat' (first | with_reducible assumption | apply canon_stallStrand)
theorem canon_withoutPoison (s : State) (st : Strand) (rs : List ℕ) (F : List ℕ) (len : ℕ) (f : State → Strand → State) (hf : ∀ a y0, memoriesCanonical a → memoriesCanonical (f a y0)) (hc : memoriesCanonical s) : memoriesCanonical (withoutPoison s st rs F len f) := by
  unfold withoutPoison
  repeat' (first | with_reducible assumption | apply canon_parkGroups | apply canon_eachStrand | (refine canon_pair (by assumption) ?_) | (refine canon_pair3 (by assumption) ?_) | split | dsimp only | simp only [canon_lit] | apply hf)
theorem canon_setHomePoison (s : State) (sp : Space) (a : ℕ) (n : ℕ) (p : Bool) (hc : memoriesCanonical s) : memoriesCanonical (setHomePoison s sp a n p) := by
  cases sp with
  | dev =>
    simp only [setHomePoison]; split
    · exact ⟨hc.device, hc.host, hc.teams, hc.cores⟩
    · exact hc
  | host c =>
    simp only [setHomePoison]; split
    · exact ⟨hc.device, hc.host, hc.teams, hc.cores⟩
    · exact ⟨hc.device, hc.host, hc.teams, hc.cores⟩
  | scr lk t =>
    refine canon_updTeam _ _ _ _ hc (fun t ht => ?_)
    split
    · exact ⟨ht.1, ht.2⟩
    · split
      · exact ht
      · exact ⟨ht.1, ht.2⟩
theorem canon_appendHome (s : State) (sp : Space) (a : ℕ) (bs : List Byte) (pois : Bool) (w : Writer) (rel : Option RelRec) (hc : memoriesCanonical s) : memoriesCanonical (appendHome s sp a bs pois w rel).2 := by
  unfold appendHome
  repeat' (first | with_reducible assumption | apply canon_fresh | apply canon_setHomePoison | apply canon_setHome | (refine canon_pair (by assumption) ?_) | (refine canon_pair3 (by assumption) ?_) | split | dsimp only | simp only [canon_lit])
theorem canon_addObs (s : State) (lk : ℕ) (is : List ℕ) (ids : List ℕ) (hc : memoriesCanonical s) : memoriesCanonical (addObs s lk is ids) := by
  unfold addObs
  repeat' (first | with_reducible assumption | (refine canon_pair (by assumption) ?_) | (refine canon_pair3 (by assumption) ?_) | split | dsimp only | simp only [canon_lit])
theorem canon_setRel (s : State) (lk : ℕ) (i : ℕ) (r : RelRec) (hc : memoriesCanonical s) : memoriesCanonical (setRel s lk i r) := by
  unfold setRel
  repeat' (first | with_reducible assumption | (refine canon_pair (by assumption) ?_) | (refine canon_pair3 (by assumption) ?_) | split | dsimp only | simp only [canon_lit])
theorem canon_drainOne (s : State) (id : ℕ) (hc : memoriesCanonical s) : memoriesCanonical (drainOne s id) := by
  unfold drainOne
  repeat' (first | with_reducible assumption | apply canon_setHomePoison | apply canon_setHome | (refine canon_pair (by assumption) ?_) | (refine canon_pair3 (by assumption) ?_) | split | dsimp only | simp only [canon_lit])
theorem canon_drainThese (s : State) (core : ℕ) (ids : List ℕ) (hc : memoriesCanonical s) : memoriesCanonical (drainThese s core ids) := by
  unfold drainThese
  repeat' (first | with_reducible assumption | apply canon_drainOne | (apply canon_foldl; intro a x ha))
theorem canon_drainWhere (s : State) (core : ℕ) (p : Store → Bool) (hc : memoriesCanonical s) : memoriesCanonical (drainWhere s core p) := by
  unfold drainWhere
  repeat' (first | with_reducible assumption | apply canon_drainThese)
theorem canon_enterAt (s : State) (lk : ℕ) (core : ℕ) (is : List ℕ) (sp : Space) (a : ℕ) (bs : List Byte) (pois : Bool) (rel : Option RelRec) (hc : memoriesCanonical s) : memoriesCanonical (enterAt s lk core is sp a bs pois rel) := by
  unfold enterAt
  repeat' (first | with_reducible assumption | apply canon_fresh | apply canon_addObs | (refine canon_pair (by assumption) ?_) | (refine canon_pair3 (by assumption) ?_) | split | dsimp only | simp only [canon_lit])
theorem canon_enterStore (s : State) (st : Strand) (is : List ℕ) (sp : Space) (a : ℕ) (bs : List Byte) (pois : Bool) (rel : Option RelRec) (hc : memoriesCanonical s) : memoriesCanonical (enterStore s st is sp a bs pois rel) := by
  unfold enterStore
  repeat' (first | with_reducible assumption | apply canon_enterAt)
theorem canon_enterHostStore (s : State) (h : HostStore) (hc : memoriesCanonical s) : memoriesCanonical (enterHostStore s h) := by
  unfold enterHostStore
  repeat' (first | with_reducible assumption | (refine canon_pair (by assumption) ?_) | (refine canon_pair3 (by assumption) ?_) | split | dsimp only | simp only [canon_lit])
theorem canon_drainHost (s : State) (c : ℕ) (hc : memoriesCanonical s) : memoriesCanonical (drainHost s c) := by
  unfold drainHost
  repeat' (first | with_reducible assumption | apply canon_drainOne | (apply canon_foldl; intro a x ha))
theorem canon_performLoad (s : State) (lk : ℕ) (core : ℕ) (is : List ℕ) (sp : Space) (a : ℕ) (n : ℕ) (hc : memoriesCanonical s) : memoriesCanonical (performLoad s lk core is sp a n).2 := by
  unfold performLoad
  repeat' (first | with_reducible assumption | apply canon_freeBool | apply canon_addObs | (refine canon_pair (by assumption) ?_) | (refine canon_pair3 (by assumption) ?_) | split | dsimp only | simp only [canon_lit])
theorem canon_acquire (s : State) (lk : ℕ) (i : ℕ) (sc : ScopeSet) (id : ℕ) (hc : memoriesCanonical s) : memoriesCanonical (acquire s lk i sc id) := by
  unfold acquire
  repeat' (first | with_reducible assumption | apply canon_addObs | (refine canon_pair (by assumption) ?_) | (refine canon_pair3 (by assumption) ?_) | split)
theorem canon_acquireAll (s : State) (lk : ℕ) (is : List ℕ) (sc : ScopeSet) (ids : List ℕ) (hc : memoriesCanonical s) : memoriesCanonical (acquireAll s lk is sc ids) := by
  unfold acquireAll
  repeat' (first | with_reducible assumption | apply canon_acquire | (apply canon_foldl; intro a x ha))
theorem canon_acquireRecord (s : State) (lk : ℕ) (is : List ℕ) (sc : ScopeSet) (w : Writer) (r : RelRec) (hc : memoriesCanonical s) : memoriesCanonical (acquireRecord s lk is sc w r) := by
  unfold acquireRecord
  repeat' (first | with_reducible assumption | apply canon_addObs | (refine canon_pair (by assumption) ?_) | (refine canon_pair3 (by assumption) ?_) | split)
theorem canon_passBy (s : State) (lk : ℕ) (i : ℕ) (sc : ScopeSet) (sp : Space) (a : ℕ) (n : ℕ) (hc : memoriesCanonical s) : memoriesCanonical (passBy s lk i sc sp a n) := by
  unfold passBy
  repeat' (first | with_reducible assumption | (refine canon_pair (by assumption) ?_) | (refine canon_pair3 (by assumption) ?_) | split | dsimp only | simp only [canon_lit])
theorem canon_drainPassed (s : State) (hc : memoriesCanonical s) : memoriesCanonical (drainPassed s) := by
  unfold drainPassed
  repeat' (first | with_reducible assumption | apply canon_drainThese | (apply canon_foldl; intro a x ha))
theorem canon_fenceRel (st : Strand) (sc : Scope) (s : State) (i : ℕ) (hc : memoriesCanonical s) : memoriesCanonical (fenceRel st sc s i) := by
  unfold fenceRel
  repeat' (first | with_reducible assumption | apply canon_setRel)
theorem canon_fenceAcquire (s : State) (st : Strand) (sc : ScopeSet) (i : ℕ) (hc : memoriesCanonical s) : memoriesCanonical (fenceAcquire s st sc i) := by
  unfold fenceAcquire
  repeat' (first | with_reducible assumption | apply canon_passBy | apply canon_acquireAll | (apply canon_foldl; intro a x ha))
theorem canon_fenceAcq (st : Strand) (sc : Scope) (s : State) (i : ℕ) (hc : memoriesCanonical s) : memoriesCanonical (fenceAcq st sc s i) := by
  unfold fenceAcq
  repeat' (first | with_reducible assumption | apply canon_fenceAcquire)
theorem canon_fenceSc (st : Strand) (sc : Scope) (s : State) (i : ℕ) (hc : memoriesCanonical s) : memoriesCanonical (fenceSc st sc s i) := by
  unfold fenceSc
  extract_lets S s1 s2 s3 r
  have h1 : memoriesCanonical s1 := by
    unfold s1; split
    · exact canon_drainWhere _ _ _ hc
    · exact hc
  have h2 : memoriesCanonical s2 := by
    refine canon_foldl _ _ _ (fun a x h => ?_) h1
    split
    · exact canon_addObs _ _ _ _ h
    · exact h
  exact canon_lit.mpr (canon_setRel _ _ _ _ (canon_fenceAcquire _ _ _ _ h2))
theorem canon_fenceStep (k : FenceKind) (st : Strand) (sc : Scope) (s : State) (i : ℕ) (hc : memoriesCanonical s) : memoriesCanonical (fenceStep k st sc s i) := by
  cases k
  · exact canon_fenceRel _ _ _ _ hc
  · exact canon_fenceAcq _ _ _ _ hc
  · exact canon_fenceSc _ _ _ _ hc
theorem canon_atomicStep (s : State) (lk : ℕ) (core : ℕ) (i : ℕ) (sp : Space) (a : ℕ) (f : Word → Option Word) (hc : memoriesCanonical s) : memoriesCanonical (atomicStep s lk core i sp a f).2.2 := by
  unfold atomicStep
  repeat' (first | with_reducible assumption | apply canon_drainWhere | apply canon_addObs | apply canon_appendHome | (refine canon_pair (by assumption) ?_) | (refine canon_pair3 (by assumption) ?_) | split | dsimp only)
theorem canon_putBdie (s : State) (b : BDie) (hc : memoriesCanonical s) : memoriesCanonical (putBdie s b) := by
  unfold putBdie
  repeat' (first | with_reducible assumption | (refine canon_pair (by assumption) ?_) | (refine canon_pair3 (by assumption) ?_) | split | dsimp only | simp only [canon_lit])
theorem canon_evict (s : State) (b : BDie) (hc : memoriesCanonical s) : memoriesCanonical (evict s b).2 := by
  unfold evict
  repeat' (first | with_reducible assumption | apply canon_freeBool | (apply canon_foldl2; intro a x ha))
theorem canon_touchLine (s : State) (line : ℕ) (write : Bool) (whole : Bool) (hc : memoriesCanonical s) : memoriesCanonical (touchLine s line write whole) := by
  unfold touchLine
  repeat' (first | with_reducible assumption | apply canon_evict | apply canon_putBdie)
theorem canon_sendPacket (s : State) (slice : ℕ) (line : ℕ) (kind : PacketKind) (hc : memoriesCanonical s) : memoriesCanonical (sendPacket s slice line kind) := by
  unfold sendPacket
  repeat' (first | with_reducible assumption | (refine canon_pair (by assumption) ?_) | (refine canon_pair3 (by assumption) ?_) | split | dsimp only | simp only [canon_lit])
theorem canon_closePacket (s : State) (p : Packet) (hc : memoriesCanonical s) : memoriesCanonical (closePacket s p) := by
  unfold closePacket
  repeat' (first | with_reducible assumption | (refine canon_pair (by assumption) ?_) | (refine canon_pair3 (by assumption) ?_) | split | dsimp only | simp only [canon_lit])
theorem canon_servePacket (s : State) (p : Packet) (hc : memoriesCanonical s) : memoriesCanonical (servePacket s p) := by
  unfold servePacket
  split
  · exact canon_foldl _ _ _ (fun a x h => canon_touchLine _ _ _ _ h) (canon_closePacket _ _ hc)
  · exact canon_touchLine _ _ _ _ (canon_closePacket _ _ hc)
  · exact canon_touchLine _ _ _ _ (canon_closePacket _ _ hc)
  · exact hc
theorem canon_l2UseAt (sl : ℕ) (mask : DWord) (s : State) (line : ℕ) (hc : memoriesCanonical s) : memoriesCanonical (l2UseAt sl mask s line) := by
  unfold l2UseAt
  repeat' (first | with_reducible assumption | apply canon_sendPacket | (refine canon_pair (by assumption) ?_) | (refine canon_pair3 (by assumption) ?_) | split | dsimp only | simp only [canon_lit])
theorem canon_l2Use (part : ℕ) (mask : DWord) (s : State) (line : ℕ) (hc : memoriesCanonical s) : memoriesCanonical (l2Use part mask s line) := by
  unfold l2Use
  repeat' (first | with_reducible assumption | apply canon_l2UseAt)
theorem canon_dropL2 (s : State) (p : L2Line → Bool) (hc : memoriesCanonical s) : memoriesCanonical (dropL2 s p) := by
  unfold dropL2
  repeat' (first | with_reducible assumption | apply canon_sendPacket | (apply canon_foldl; intro a x ha) | (refine canon_pair (by assumption) ?_) | (refine canon_pair3 (by assumption) ?_) | split | dsimp only | simp only [canon_lit])
theorem canon_l2HomeAt (sl : ℕ) (oid : ℕ) (s : State) (line : ℕ) (hc : memoriesCanonical s) : memoriesCanonical (l2HomeAt sl oid s line) := by
  unfold l2HomeAt
  repeat' (first | with_reducible assumption | apply canon_sendPacket | (refine canon_pair (by assumption) ?_) | (refine canon_pair3 (by assumption) ?_) | split | dsimp only | simp only [canon_lit])
theorem canon_l2Home (part : ℕ) (oid : ℕ) (s : State) (line : ℕ) (hc : memoriesCanonical s) : memoriesCanonical (l2Home part oid s line) := by
  unfold l2Home
  repeat' (first | with_reducible assumption | apply canon_l2HomeAt)
theorem canon_l2Back (sl : ℕ) (s : State) (line : ℕ) (hc : memoriesCanonical s) : memoriesCanonical (l2Back sl s line) := by
  unfold l2Back
  repeat' (first | with_reducible assumption | apply canon_touchLine | apply canon_l2UseAt | apply canon_l2HomeAt | (apply canon_foldl; intro a x ha) | (refine canon_pair (by assumption) ?_) | (refine canon_pair3 (by assumption) ?_) | split | dsimp only | simp only [canon_lit])
theorem canon_writeBackL1 (core : ℕ) (p : ℕ → Bool) (s : State) (hc : memoriesCanonical s) : memoriesCanonical (writeBackL1 core p s) := by
  unfold writeBackL1
  repeat' (first | with_reducible assumption | (refine canon_coreOf ?_ _) | apply canon_putCore | apply canon_l2Use | (apply canon_foldl; intro a x ha) | (refine canon_pair (by assumption) ?_) | (refine canon_pair3 (by assumption) ?_) | split | dsimp only)
theorem canon_cleanL1 (core : ℕ) (s : State) (hc : memoriesCanonical s) : memoriesCanonical (cleanL1 core s) := by
  unfold cleanL1
  repeat' (first | with_reducible assumption | (refine canon_coreOf ?_ _) | apply canon_putCore)
theorem canon_noteMiss (core : ℕ) (line : ℕ) (s : State) (hc : memoriesCanonical s) : memoriesCanonical (noteMiss core line s) := by
  unfold noteMiss
  repeat' (first | with_reducible assumption | (refine canon_coreOf ?_ _) | apply canon_putCore)
theorem canon_l1Use (core : ℕ) (mask : DWord) (s : State) (line : ℕ) (hc : memoriesCanonical s) : memoriesCanonical (l1Use core mask s line) := by
  unfold l1Use
  repeat' (first | with_reducible assumption | (refine canon_coreOf ?_ _) | apply canon_putCore | apply canon_l2Use | apply canon_noteMiss | (apply canon_foldl; intro a x ha) | (refine canon_pair (by assumption) ?_) | (refine canon_pair3 (by assumption) ?_) | split | dsimp only)
theorem canon_cacheUse (core : ℕ) (nt : Bool) (n : ℕ) (s : State) (locs : List (ℕ × Space × ℕ)) (hc : memoriesCanonical s) : memoriesCanonical (cacheUse core nt n s locs) := by
  unfold cacheUse
  repeat' (first | with_reducible assumption | apply canon_l2Use | apply canon_l1Use | (apply canon_foldl; intro a x ha) | (refine canon_pair (by assumption) ?_) | (refine canon_pair3 (by assumption) ?_) | split)
theorem canon_bulkUse (core : ℕ) (n : ℕ) (s : State) (locs : List (ℕ × Space × ℕ)) (hc : memoriesCanonical s) : memoriesCanonical (bulkUse core n s locs) := by
  unfold bulkUse
  repeat' (first | with_reducible assumption | apply canon_l1Use | (apply canon_foldl; intro a x ha) | (refine canon_pair (by assumption) ?_) | (refine canon_pair3 (by assumption) ?_) | split)
theorem canon_atomicUse (core : ℕ) (s : State) (e : ℕ × DWord) (hc : memoriesCanonical s) : memoriesCanonical (atomicUse core s e) := by
  unfold atomicUse
  repeat' (first | with_reducible assumption | apply canon_l2Use | apply canon_writeBackL1)
theorem canon_homeUse (core : ℕ) (oid : ℕ) (s : State) (e : ℕ × DWord) (hc : memoriesCanonical s) : memoriesCanonical (homeUse core oid s e) := by
  unfold homeUse
  repeat' (first | with_reducible assumption | apply canon_l2Home | apply canon_writeBackL1)
theorem canon_releaseL1 (core : ℕ) (sc : ScopeSet) (s : State) (hc : memoriesCanonical s) : memoriesCanonical (releaseL1 core sc s) := by
  unfold releaseL1
  repeat' (first | with_reducible assumption | apply canon_writeBackL1 | (refine canon_pair (by assumption) ?_) | (refine canon_pair3 (by assumption) ?_) | split | dsimp only | simp only [canon_lit])
theorem canon_acquireL1 (core : ℕ) (sc : ScopeSet) (s : State) (hc : memoriesCanonical s) : memoriesCanonical (acquireL1 core sc s) := by
  unfold acquireL1
  repeat' (first | with_reducible assumption | apply canon_cleanL1 | (refine canon_pair (by assumption) ?_) | (refine canon_pair3 (by assumption) ?_) | split | dsimp only | simp only [canon_lit])
theorem canon_publish (s : State) (core : ℕ) (r : RelRec) (hc : memoriesCanonical s) : memoriesCanonical (publish s core r) := by
  unfold publish
  repeat' (first | with_reducible assumption | apply canon_releaseL1 | apply canon_drainThese | (refine canon_pair (by assumption) ?_) | (refine canon_pair3 (by assumption) ?_) | split)
theorem canon_acquireTodo (s : State) (o : Op) (t : LoadTodo) (from_ : List ℕ) (hc : memoriesCanonical s) : memoriesCanonical (acquireTodo s o t from_) := by
  unfold acquireTodo
  repeat' (first | with_reducible assumption | apply canon_acquireL1 | apply canon_acquireAll | apply canon_passBy | (apply canon_foldl; intro a x ha) | (refine canon_pair (by assumption) ?_) | (refine canon_pair3 (by assumption) ?_) | split)
theorem canon_performTodo (s : State) (o : Op) (t : LoadTodo) (hc : memoriesCanonical s) : memoriesCanonical (performTodo s o t) := by
  unfold performTodo
  repeat' (first | with_reducible assumption | apply canon_performLoad | apply canon_acquireTodo | apply canon_updOp)
theorem canon_performPiece (s : State) (o : Op) (t : LoadTodo) (hc : memoriesCanonical s) : memoriesCanonical (performPiece s o t) := by
  unfold performPiece
  repeat' (first | with_reducible assumption | apply canon_performLoad | apply canon_updOp)
theorem canon_performLoadsOf (s : State) (p : LoadTodo → Bool) (oid : ℕ) (hc : memoriesCanonical s) : memoriesCanonical (performLoadsOf s p oid) := by
  unfold performLoadsOf
  repeat' (first | with_reducible assumption | apply canon_performTodo | apply canon_performPiece | (apply canon_foldl; intro a x ha) | (refine canon_pair (by assumption) ?_) | (refine canon_pair3 (by assumption) ?_) | split)
theorem canon_performAts (s : State) (lk : ℕ) (core : ℕ) (k : AtKind) (ts : List AtTodo) (hc : memoriesCanonical s) : memoriesCanonical (performAts s lk core k ts).2.2 := by
  unfold performAts
  repeat' (first | with_reducible assumption | apply canon_atomicStep | (apply canon_foldl3; intro a x ha))
theorem canon_atcAtHome (s : State) (o : Op) (t : AtTodo) (hc : memoriesCanonical s) : memoriesCanonical (atcAtHome s o t).2 := by
  unfold atcAtHome
  dsimp only
  split
  · exact hc
  · have h := fun r => canon_atomicStep (publish s o.core r) o.lk o.core t.idx t.space t.addr (fun v => some (v + t.c)) (canon_publish _ _ _ hc)
    split
    · exact canon_updOp _ _ _ (h _)
    · split
      · exact canon_putBdie _ _ (h _)
      · exact h _
theorem canon_performAtoms (s : State) (oid : ℕ) (p : AtTodo → Bool) (hc : memoriesCanonical s) : memoriesCanonical (performAtoms s oid p) := by
  unfold performAtoms
  repeat' (first | with_reducible assumption | apply canon_atcAtHome | apply canon_updOp | apply canon_performAts | (apply canon_foldl2; intro a x ha) | (refine canon_pair (by assumption) ?_) | (refine canon_pair3 (by assumption) ?_) | split)
theorem canon_serve (s : State) (p : Packet) (hc : memoriesCanonical s) : memoriesCanonical (serve s p) := by
  unfold serve
  repeat' (first | with_reducible assumption | apply canon_l2Back | apply canon_closePacket | apply canon_performAtoms | apply canon_servePacket | (refine canon_pair (by assumption) ?_) | (refine canon_pair3 (by assumption) ?_) | split)
theorem canon_settleLine (pa : ℕ) (x1 : ℕ) (x2 : State) (hc : memoriesCanonical x2) : memoriesCanonical (settleLine pa x1 x2) := by
  induction x1 generalizing x2 with
  | zero => exact hc
  | succ n ih =>
    simp only [settleLine]
    split
    · exact hc
    · exact ih _ (canon_serve _ _ hc)
theorem canon_settleAt (s : State) (sp : Space) (a : ℕ) (hc : memoriesCanonical s) : memoriesCanonical (settleAt s sp a) := by
  unfold settleAt
  repeat' (first | with_reducible assumption | apply canon_settleLine | (refine canon_pair (by assumption) ?_) | (refine canon_pair3 (by assumption) ?_) | split)
theorem canon_settlePackets (s : State) (hc : memoriesCanonical s) : memoriesCanonical (settlePackets s) := by
  unfold settlePackets
  repeat' (first | with_reducible assumption | apply canon_serve | (apply canon_foldl; intro a x ha) | (refine canon_pair (by assumption) ?_) | (refine canon_pair3 (by assumption) ?_) | split)
theorem canon_forceAtoms (s : State) (oid : ℕ) (hc : memoriesCanonical s) : memoriesCanonical (forceAtoms s oid) := by
  unfold forceAtoms
  repeat' (first | with_reducible assumption | apply canon_performAtoms | apply canon_settleAt | (apply canon_foldl; intro a x ha) | (refine canon_pair (by assumption) ?_) | (refine canon_pair3 (by assumption) ?_) | split)
theorem canon_performOwn (s : State) (oid : ℕ) (hc : memoriesCanonical s) : memoriesCanonical (performOwn s oid) := by
  unfold performOwn
  repeat' (first | with_reducible assumption | apply canon_performAtoms | apply canon_settleAt | (apply canon_foldl; intro a x ha) | (refine canon_pair (by assumption) ?_) | (refine canon_pair3 (by assumption) ?_) | split)
theorem canon_enterTodo (s : State) (o : Op) (t : StoreTodo) (hc : memoriesCanonical s) : memoriesCanonical (enterTodo s o t) := by
  unfold enterTodo
  repeat' (first | with_reducible assumption | apply canon_enterAt | apply canon_releaseL1 | apply canon_setRel | apply canon_updOp | (apply canon_foldl; intro a x ha) | (refine canon_pair (by assumption) ?_) | (refine canon_pair3 (by assumption) ?_) | split)
theorem canon_setFull (s : State) (lk : ℕ) (team : ℕ) (g : ℕ) (full : Bool) (hc : memoriesCanonical s) : memoriesCanonical (setFull s lk team g full) := by
  unfold setFull
  repeat' (first | with_reducible assumption | apply canon_updTeam | (refine canon_pair (by assumption) ?_) | (refine canon_pair3 (by assumption) ?_) | split | dsimp only | simp only [canon_lit] | (intro t ht; exact ht))
theorem canon_fillGranule (s : State) (lk : ℕ) (team : ℕ) (g : ℕ) (w : Writer) (r : RelRec) (hc : memoriesCanonical s) : memoriesCanonical (fillGranule s lk team g w r) := by
  unfold fillGranule
  repeat' (first | with_reducible assumption | apply canon_setFull | (refine canon_pair (by assumption) ?_) | (refine canon_pair3 (by assumption) ?_) | split | dsimp only | simp only [canon_lit])
theorem canon_fillBy (s : State) (lk : ℕ) (core : ℕ) (own : Option ℕ) (is : List ℕ) (team : ℕ) (g : ℕ) (hc : memoriesCanonical s) : memoriesCanonical (fillBy s lk core own is team g) := by
  unfold fillBy
  repeat' (first | with_reducible assumption | apply canon_fillGranule | apply canon_publish)
theorem canon_performSet (s : State) (o : Op) (t : SetTodo) (hc : memoriesCanonical s) : memoriesCanonical (performSet s o t) := by
  unfold performSet
  repeat' (first | with_reducible assumption | apply canon_updOp | apply canon_fillBy)
theorem canon_performOp (is : List ℕ) (s : State) (oid : ℕ) (hc : memoriesCanonical s) : memoriesCanonical (performOp is s oid) := by
  unfold performOp
  repeat' (first | with_reducible assumption | apply canon_enterTodo | apply canon_performSet | apply canon_forceAtoms | apply canon_performLoadsOf | (apply canon_foldl; intro a x ha) | (refine canon_pair (by assumption) ?_) | (refine canon_pair3 (by assumption) ?_) | split)
theorem canon_performFor (s : State) (lk : ℕ) (is : List ℕ) (bound : ℕ) (hc : memoriesCanonical s) : memoriesCanonical (performFor s lk is bound) := by
  unfold performFor
  repeat' (first | with_reducible assumption | apply canon_performOp | (apply canon_foldl; intro a x ha))
theorem canon_performLoads (s : State) (st : Strand) (hc : memoriesCanonical s) : memoriesCanonical (performLoads s st) := by
  unfold performLoads
  repeat' (first | with_reducible assumption | apply canon_performFor | (refine canon_pair (by assumption) ?_) | (refine canon_pair3 (by assumption) ?_) | split)
theorem canon_performStores (s : State) (st : Strand) (hc : memoriesCanonical s) : memoriesCanonical (performStores s st) := by
  unfold performStores
  repeat' (first | with_reducible assumption | apply canon_performFor | (refine canon_pair (by assumption) ?_) | (refine canon_pair3 (by assumption) ?_) | split | dsimp only)
theorem canon_performSame (s : State) (lk : ℕ) (sp : Space) (a : ℕ) (n : ℕ) (is : List ℕ) (hc : memoriesCanonical s) : memoriesCanonical (performSame s lk sp a n is) := by
  unfold performSame
  repeat' (first | with_reducible assumption | apply canon_performFor | apply canon_performLoadsOf | (apply canon_foldl; intro a x ha) | (refine canon_pair (by assumption) ?_) | (refine canon_pair3 (by assumption) ?_) | split | dsimp only)
theorem canon_dropOps (s : State) (ids : List ℕ) (hc : memoriesCanonical s) : memoriesCanonical (dropOps s ids) := by
  unfold dropOps
  repeat' (first | with_reducible assumption | apply canon_wakeStalls | (refine canon_pair (by assumption) ?_) | (refine canon_pair3 (by assumption) ?_) | split | dsimp only | simp only [canon_lit])
theorem canon_deliver (s : State) (st : Strand) (os : List Op) (after : After) (hc : memoriesCanonical s) : memoriesCanonical (deliver s st os after) := by
  unfold deliver
  repeat' (first | with_reducible assumption | apply canon_raiseStop | apply canon_dropOps)
theorem canon_waitcComplete (s : State) (st : Strand) (c : ℕ) (hc : memoriesCanonical s) : memoriesCanonical (waitcComplete s st c) := by
  unfold waitcComplete
  repeat' (first | with_reducible assumption | apply canon_addObs | apply canon_putStrand | apply canon_advance | apply canon_deliver | (refine canon_pair (by assumption) ?_) | (refine canon_pair3 (by assumption) ?_) | split | dsimp only)
theorem canon_retireTeam (s : State) (lk : ℕ) (num : ℕ) (hc : memoriesCanonical s) : memoriesCanonical (retireTeam s lk num) := by
  unfold retireTeam
  repeat' (first | with_reducible assumption | apply canon_updTeam | apply canon_putDie | apply canon_traceRecord | (refine canon_pair (by assumption) ?_) | (refine canon_pair3 (by assumption) ?_) | split | dsimp only | simp only [canon_lit] | (intro t ht; exact ht))
theorem canon_endTeams (s : State) (lk : ℕ) (team : Option ℕ) (hc : memoriesCanonical s) : memoriesCanonical (endTeams s lk team) := by
  unfold endTeams
  repeat' (first | with_reducible assumption | apply canon_retireTeam | (refine canon_pair (by assumption) ?_) | (refine canon_pair3 (by assumption) ?_) | split)
theorem canon_tryBar (s : State) (lk : ℕ) (team : ℕ) (gang : Bool) (k : ℕ) (hc : memoriesCanonical s) : memoriesCanonical (tryBar s lk team gang k) := by
  unfold tryBar
  repeat' (first | with_reducible assumption | apply canon_advance | apply canon_unblockSid | apply canon_acquireL1 | apply canon_addObs | apply canon_updTeam | (apply canon_foldl; intro a x ha) | (refine canon_pair (by assumption) ?_) | (refine canon_pair3 (by assumption) ?_) | split | dsimp only | simp only [canon_lit] | (intro t ht; exact ht))
theorem canon_forgetDead (s : State) (m : Strand) (hc : memoriesCanonical s) : memoriesCanonical (forgetDead s m) := by
  unfold forgetDead
  repeat' (first | with_reducible assumption | (refine canon_pair (by assumption) ?_) | (refine canon_pair3 (by assumption) ?_) | split | dsimp only | simp only [canon_lit])
theorem canon_mergeMembers (s : State) (os : List ℕ) (group : List Strand) (hc : memoriesCanonical s) : ∀ r, mergeMembers s os group = some r → memoriesCanonical r := by
  intro r h
  unfold mergeMembers at h
  split at h
  · simp only [Option.some.injEq] at h; rw [← h]; exact hc
  · simp only [Option.map_eq_some_iff] at h
    obtain ⟨out, _, rfl⟩ := h
    apply canon_foldl
    · intro a x h; apply canon_addObs; apply canon_putStrand; split
      · exact h
      · exact canon_forgetDead _ _ h
    · exact canon_foldl _ _ _ (fun a x h => canon_dropStrand _ _ h) (canon_lit.mpr hc)
theorem canon_rejoinTeam (os : List ℕ) (s : State) (group : List Strand) (hc : memoriesCanonical s) : memoriesCanonical (rejoinTeam os s group) := by
  unfold rejoinTeam; split
  · apply canon_foldl
    · intro a x h; apply canon_addObs; apply canon_putStrand; exact h
    · exact canon_fresh _ hc
  · generalize q : mergeMembers s os group = o
    cases o with
    | none => exact hc
    | some t => exact canon_mergeMembers _ _ _ hc _ q
theorem canon_releaseGroup (s : State) (os : List ℕ) (group : List Strand) (hc : memoriesCanonical s) : memoriesCanonical (releaseGroup s os group) := by
  unfold releaseGroup; split
  · rename_i q; exact canon_mergeMembers _ _ _ hc _ q
  · apply canon_foldl
    · intro a x h; exact canon_rejoinTeam _ _ _ h
    · exact canon_foldl2 _ _ _ (fun a x h => canon_cutByTeam _ _ h) hc
theorem canon_tryRejoin (s : State) (lk team n : ℕ) (hc : memoriesCanonical s) : memoriesCanonical (tryRejoin s lk team n) := by
  unfold tryRejoin
  dsimp only
  split
  · exact hc
  · generalize q : mergeMembers s [] _ = o
    cases o with
    | none => exact hc
    | some t => exact canon_mergeMembers _ _ _ hc _ q
theorem canon_finishRejoins (s : State) (lk : ℕ) (team : ℕ) (hc : memoriesCanonical s) : memoriesCanonical (finishRejoins s lk team) := by
  unfold finishRejoins
  exact canon_foldl _ _ _ (fun a n h => canon_tryRejoin a lk team n h) hc
theorem canon_tryJoin (s : State) (st : Strand) (j : ℕ) (hc : memoriesCanonical s) : memoriesCanonical (tryJoin s st j) := by
  unfold tryJoin
  repeat' (first | with_reducible assumption | apply canon_releaseGroup | (apply canon_foldl; intro a x ha) | (refine canon_pair (by assumption) ?_) | (refine canon_pair3 (by assumption) ?_) | split | dsimp only)
theorem canon_wakeJoins (s : State) (lk : ℕ) (hc : memoriesCanonical s) : memoriesCanonical (wakeJoins s lk) := by
  unfold wakeJoins
  repeat' (first | with_reducible assumption | apply canon_tryJoin | apply canon_tryRejoin | (apply canon_foldl; intro a x ha) | (refine canon_pair (by assumption) ?_) | (refine canon_pair3 (by assumption) ?_) | split)
theorem canon_wakeBars (s : State) (lk : ℕ) (team : ℕ) (hc : memoriesCanonical s) : memoriesCanonical (wakeBars s lk team) := by
  unfold wakeBars
  exact canon_foldl _ _ _ (fun a k h => canon_tryBar _ _ _ _ _ (canon_tryBar _ _ _ _ _ h)) hc
theorem canon_wakeTeam (s : State) (lk : ℕ) (team : Option ℕ) (hc : memoriesCanonical s) : memoriesCanonical (wakeTeam s lk team) := by
  unfold wakeTeam
  dsimp only
  apply canon_wakeJoins
  split
  · exact canon_foldl _ _ _ (fun a x h => canon_wakeBars _ _ _ h) hc
  · exact hc
theorem canon_exitDone (s : State) (st : Strand) (hc : memoriesCanonical s) : memoriesCanonical (exitDone s st) := by
  unfold exitDone
  repeat' (first | with_reducible assumption | apply canon_endTeams | apply canon_dropStrand | apply canon_deliver | apply canon_putStrand | (refine canon_pair (by assumption) ?_) | (refine canon_pair3 (by assumption) ?_) | split | dsimp only)
theorem canon_retire (s : State) (st : Strand) (gone : List ℕ) (len : ℕ) (wait : Bool) (hc : memoriesCanonical s) : memoriesCanonical (retire s st gone len wait) := by
  unfold retire
  repeat' (first | with_reducible assumption | apply canon_putStrand | apply canon_exitDone | apply canon_endTeams | apply canon_dropStrand | apply canon_replaceStrand | apply canon_wakeTeam | (refine canon_pair (by assumption) ?_) | (refine canon_pair3 (by assumption) ?_) | split | dsimp only)
theorem canon_recTrap (s : State) (st : Strand) (len : ℕ) (r : LayoutBits) (slot : ℕ) (engine : ℕ) (rep : Report) (hc : memoriesCanonical s) : memoriesCanonical (recTrap s st len r slot engine rep) := by
  unfold recTrap
  repeat' (first | with_reducible assumption | apply canon_trapWhole)
theorem canon_setSlot (s : State) (st : Strand) (d : ℕ) (r : LayoutBits) (hc : memoriesCanonical s) : memoriesCanonical (setSlot s st d r) := by
  unfold setSlot
  repeat' (first | with_reducible assumption | apply canon_updTeam | (refine canon_pair (by assumption) ?_) | (refine canon_pair3 (by assumption) ?_) | split | dsimp only | simp only [canon_lit] | (intro t ht; exact ht))
theorem canon_readSlot (s : State) (st : Strand) (d : ℕ) (hc : memoriesCanonical s) : memoriesCanonical (readSlot s st d).2 := by
  unfold readSlot
  dsimp only
  split
  · exact hc
  · split
    · exact canon_lit.mpr (canon_performLoadsOf _ _ _ hc)
    · exact canon_performLoadsOf _ _ _ hc
theorem canon_formTrap (s : State) (st : Strand) (len : ℕ) (which : ℕ) (hc : memoriesCanonical s) : memoriesCanonical (formTrap s st len which) := by
  unfold formTrap
  repeat' (first | with_reducible assumption | apply canon_trapWhole)
theorem canon_transfer (s : State) (st : Strand) (taken : List Bool) (target : DWord) (len : ℕ) (onTake : Strand → Strand) (hc : memoriesCanonical s) : memoriesCanonical (transfer s st taken target len onTake) := by
  unfold transfer
  repeat' (first | with_reducible assumption | apply canon_advance | apply canon_putStrand | apply canon_endRun | apply canon_replaceStrand | (refine canon_pair (by assumption) ?_) | (refine canon_pair3 (by assumption) ?_) | split | dsimp only)
theorem canon_callTrap (s : State) (st : Strand) (h : Hdr) (len : ℕ) (info : ℕ) (hc : memoriesCanonical s) : memoriesCanonical (callTrap s st h len info) := by
  unfold callTrap
  repeat' (first | with_reducible assumption | apply canon_withoutFaulting | apply canon_advance | (refine canon_pair (by assumption) ?_) | (refine canon_pair3 (by assumption) ?_) | split | dsimp only | simp only [canon_lit] | (rintro r ⟨⟩))
theorem canon_brxSplit (g : Guard) (a : ℕ) (s : State) (st : Strand) (hc : memoriesCanonical s) : memoriesCanonical (brxSplit g a s st) := by
  unfold brxSplit
  repeat' (first | with_reducible assumption | apply canon_endRun | apply canon_replaceStrand)
theorem canon_releaseHolds (s : State) (core : ℕ) (part : ℕ) (sid : ℕ) (hc : memoriesCanonical s) : memoriesCanonical (releaseHolds s core part sid) := by
  unfold releaseHolds
  repeat' (first | with_reducible assumption | (refine canon_pair (by assumption) ?_) | (refine canon_pair3 (by assumption) ?_) | split | dsimp only | simp only [canon_lit])
theorem canon_freePort (s : State) (core : ℕ) (part : ℕ) (port : ℕ) (sid : ℕ) (hc : memoriesCanonical s) : memoriesCanonical (freePort s core part port sid) := by
  unfold freePort
  repeat' (first | with_reducible assumption | apply canon_releaseHolds | apply canon_putPart | apply canon_updStrand)
theorem canon_overSound (rs : List ℕ) (uses : State → Strand → List ℕ) (len : ℕ) (f : State → Strand → State) (x4 : ℕ) (x5 : State) (x6 : Strand) (hf : ∀ a y0, memoriesCanonical a → memoriesCanonical (f a y0)) (hc : memoriesCanonical x5) : memoriesCanonical (overSound rs uses len f x4 x5 x6) := by
  induction x4 generalizing x5 x6 with
  | zero => exact hf _ _ hc
  | succ k ih => exact canon_withoutPoison _ _ _ _ _ _ (fun a y h => ih a y h) hc
theorem canon_engineWalk (s : State) (die : ℕ) (c : ℕ) (va : ℕ) (hc : memoriesCanonical s) : memoriesCanonical (engineWalk s die c va).2 := by
  unfold engineWalk
  repeat' (first | with_reducible assumption | apply canon_l2Use | (apply canon_foldl; intro a x ha) | (refine canon_pair (by assumption) ?_) | (refine canon_pair3 (by assumption) ?_) | split | dsimp only | simp only [canon_lit])
theorem canon_tlbInsert (s : State) (core : ℕ) (c : ℕ) (va : ℕ) (t : Trans) (hc : memoriesCanonical s) : memoriesCanonical (tlbInsert s core c va t) := by
  unfold tlbInsert
  repeat' (first | with_reducible assumption | (refine canon_coreOf ?_ _) | apply canon_putCore)
theorem canon_askWalk (s : State) (core : ℕ) (c : ℕ) (page : ℕ) (sid : Option ℕ) (hc : memoriesCanonical s) : ∀ r, askWalk s core c page sid = some r → memoriesCanonical r := by
  unfold askWalk
  repeat' (first | with_reducible assumption | (refine canon_pair (by assumption) ?_) | (refine canon_pair3 (by assumption) ?_) | split | dsimp only | simp only [canon_lit] | (rintro r ⟨⟩))
theorem canon_startWalk (s : State) (st : Strand) (page : ℕ) (hc : memoriesCanonical s) : memoriesCanonical (startWalk s st page) := by
  unfold startWalk; split
  · rename_i q; exact canon_endRun _ (canon_blockOn _ _ _ (canon_askWalk _ _ _ _ _ hc _ q))
  · exact canon_stallStrand _ _ _ hc
theorem canon_dropRes (s : State) (sid : ℕ) (hc : memoriesCanonical s) : memoriesCanonical (dropRes s sid) := by
  unfold dropRes
  repeat' (first | with_reducible assumption | (refine canon_pair (by assumption) ?_) | (refine canon_pair3 (by assumption) ?_) | split | dsimp only | simp only [canon_lit])
theorem canon_retryWalk (s : State) (sids : List ℕ) (hc : memoriesCanonical s) : memoriesCanonical (retryWalk s sids) := by
  unfold retryWalk
  repeat' (first | with_reducible assumption | apply canon_unblockSid | (apply canon_foldl; intro a x ha) | (refine canon_pair (by assumption) ?_) | (refine canon_pair3 (by assumption) ?_) | split)
theorem canon_answerWalk (s : State) (sids : List ℕ) (page : ℕ) (r : TransRes) (hc : memoriesCanonical s) : memoriesCanonical (answerWalk s sids page r) := by
  unfold answerWalk
  repeat' (first | with_reducible assumption | apply canon_wakeStalls | apply canon_retryWalk | (refine canon_pair (by assumption) ?_) | (refine canon_pair3 (by assumption) ?_) | split | dsimp only | simp only [canon_lit])
theorem canon_mapCmds (s : State) (p : Core → SeCmd → Bool) (f : SeCmd → SeCmd) (hc : memoriesCanonical s) : memoriesCanonical (mapCmds s p f) := by
  refine ⟨hc.device, hc.host, hc.teams, ?_⟩
  intro k hk
  simp only [mapCmds, List.mem_map] at hk
  obtain ⟨u, hu, rfl⟩ := hk
  exact hc.cores u hu
theorem canon_askHost (s : State) (c : ℕ) (page : ℕ) (write : Bool) (hc : memoriesCanonical s) : memoriesCanonical (askHost s c page write) := by
  unfold askHost
  repeat' (first | with_reducible assumption | (refine canon_pair (by assumption) ?_) | (refine canon_pair3 (by assumption) ?_) | split | dsimp only | simp only [canon_lit])
theorem canon_answerEngines (s : State) (c : ℕ) (page : ℕ) (p : Core → SeCmd → Bool) (r : TransRes) (hc : memoriesCanonical s) : memoriesCanonical (answerEngines s c page p r) := by
  unfold answerEngines
  repeat' (first | with_reducible assumption | apply canon_mapCmds | apply canon_askHost | (refine canon_pair (by assumption) ?_) | (refine canon_pair3 (by assumption) ?_) | split | dsimp only)
theorem canon_hostLeaf (s : State) (q : WalkReq) (t : Trans) (hc : memoriesCanonical s) : memoriesCanonical (hostLeaf s q t) := by
  unfold hostLeaf
  repeat' (first | with_reducible assumption | apply canon_answerEngines | apply canon_answerWalk | apply canon_blockOn | apply canon_mapCmds | (apply canon_foldl; intro a x ha) | (refine canon_pair (by assumption) ?_) | (refine canon_pair3 (by assumption) ?_) | split | dsimp only | simp only [canon_lit])
theorem canon_keepHostPage (s : State) (c : ℕ) (page : ℕ) (frame : ℕ) (write : Bool) (hc : memoriesCanonical s) : memoriesCanonical (keepHostPage s c page frame write) := by
  unfold keepHostPage
  repeat' (first | with_reducible assumption | apply canon_updCtx)
theorem canon_dropRange (s : State) (die : ℕ) (c : ℕ) (lo : ℕ) (hi : ℕ) (hc : memoriesCanonical s) : memoriesCanonical (dropRange s die c lo hi) := by
  refine ⟨hc.device, hc.host, hc.teams, ?_⟩
  intro k hk
  simp only [dropRange, List.mem_map] at hk
  obtain ⟨u, hu, rfl⟩ := hk
  split
  · exact hc.cores u hu
  · exact hc.cores u hu
theorem canon_settleAccesses (s : State) (die : ℕ) (c : ℕ) (lo : ℕ) (hi : ℕ) (hc : memoriesCanonical s) : memoriesCanonical (settleAccesses s die c lo hi) := by
  unfold settleAccesses
  repeat' (first | with_reducible assumption | apply canon_performFor | apply canon_drainWhere | (apply canon_foldl; intro a x ha))
theorem canon_invalidateDie (s : State) (die : ℕ) (c : ℕ) (lo : ℕ) (hi : ℕ) (hc : memoriesCanonical s) : memoriesCanonical (invalidateDie s die c lo hi) := by
  unfold invalidateDie
  repeat' (first | with_reducible assumption | apply canon_settleAccesses | apply canon_dropRange | apply canon_writeBackL1 | (apply canon_foldl; intro a x ha))
theorem canon_answerAtsInvals (s : State) (hc : memoriesCanonical s) : memoriesCanonical (answerAtsInvals s) := by
  unfold answerAtsInvals
  repeat' (first | with_reducible assumption | (refine canon_pair (by assumption) ?_) | (refine canon_pair3 (by assumption) ?_) | split | dsimp only | simp only [canon_lit])
theorem canon_askFor (s : State) (st : Strand) (kind : ℕ) (cause : ℕ) (va : ℕ) (access : ℕ) (hc : memoriesCanonical s) : memoriesCanonical (askFor s st kind cause va access) := by
  unfold askFor
  repeat' (first | with_reducible assumption | apply canon_askHost | (refine canon_pair (by assumption) ?_) | (refine canon_pair3 (by assumption) ?_) | split)
theorem canon_parkFaults (s : State) (st : Strand) (fs : List AccFault) (len : ℕ) (access : ℕ) (hc : memoriesCanonical s) : memoriesCanonical (parkFaults s st fs len access).2 := by
  unfold parkFaults
  repeat' (first | with_reducible assumption | apply canon_parkGroups | apply canon_askFor | (apply canon_foldl; intro a x ha))
theorem canon_withAccesses (s : State) (st : Strand) (rs : List ℕ) (act : List ℕ) (va : ℕ → ℕ) (res : State → Strand → ℕ → AccRes) (len : ℕ) (access : ℕ) (f : State → Strand → List (ℕ × Space × ℕ) → State) (hf : ∀ a y0 y1, memoriesCanonical a → memoriesCanonical (f a y0 y1)) (hc : memoriesCanonical s) : memoriesCanonical (withAccesses s st rs act va res len access f) := by
  unfold withAccesses
  repeat' (first | with_reducible assumption | apply canon_startWalk | apply canon_parkFaults | apply canon_dropRes | (apply canon_foldl; intro a x ha) | (refine canon_pair (by assumption) ?_) | (refine canon_pair3 (by assumption) ?_) | split | dsimp only | simp only [canon_lit] | apply hf)
theorem canon_formOnlyTrap (s : State) (st : Strand) (len : ℕ) (d : ℕ) (n : ℕ) (hc : memoriesCanonical s) : memoriesCanonical (formOnlyTrap s st len d n) := by
  unfold formOnlyTrap
  repeat' (first | with_reducible assumption | apply canon_trapWhole | apply canon_draw)
theorem canon_orTrap (before : State) (st : Strand) (len : ℕ) (d : ℕ) (n : ℕ) (vals : List (ℕ × List Word)) (t : State) (ht : memoriesCanonical t) (hc : memoriesCanonical before) : memoriesCanonical (orTrap before st len d n vals t) := by
  unfold orTrap
  repeat' (first | with_reducible assumption | apply canon_writeResult | (refine canon_pair (by assumption) ?_) | (refine canon_pair3 (by assumption) ?_) | split | dsimp only)
theorem canon_checkLoad (before : State) (st : Strand) (g : Guard) (u : Bool) (d : ℕ) (n : ℕ) (len : ℕ) (t : State) (ht : memoriesCanonical t) (hc : memoriesCanonical before) : memoriesCanonical (checkLoad before st g u d n len t) := by
  unfold checkLoad
  repeat' (first | with_reducible assumption | apply canon_performLoadsOf | apply canon_orTrap | (refine canon_pair (by assumption) ?_) | (refine canon_pair3 (by assumption) ?_) | split | dsimp only)
theorem canon_waitRoom (s : State) (sid : ℕ) (k : OpClass) (async : Bool) (hc : memoriesCanonical s) : memoriesCanonical (waitRoom s sid k async) := by
  unfold waitRoom
  repeat' (first | with_reducible assumption | apply canon_stallStrand)
theorem canon_touch (st : Strand) (a : ℕ) (nt : Bool) (n : ℕ) (s : State) (locs : List (ℕ × Space × ℕ)) (hc : memoriesCanonical s) : memoriesCanonical (touch st a nt n s locs) := by
  unfold touch
  repeat' (first | with_reducible assumption | apply canon_bulkUse | apply canon_cacheUse | (refine canon_pair (by assumption) ?_) | (refine canon_pair3 (by assumption) ?_) | split)
theorem canon_issueLoad (d : Option ℕ) (n : ℕ) (sx : Bool) (u : Bool) (acq : Option Scope) (len : ℕ) (s : State) (st : Strand) (locs : List (ℕ × Space × ℕ)) (hc : memoriesCanonical s) : memoriesCanonical (issueLoad d n sx u acq len s st locs) := by
  unfold issueLoad
  repeat' (first | with_reducible assumption | apply canon_performSame | apply canon_advance | apply canon_addOp | (apply canon_foldl; intro a x ha) | (refine canon_pair (by assumption) ?_) | (refine canon_pair3 (by assumption) ?_) | split)
theorem canon_issueStores (s : State) (st : Strand) (is : List ℕ) (todo : List StoreTodo) (sets : List SetTodo) (hc : memoriesCanonical s) : memoriesCanonical (issueStores s st is todo sets) := by
  unfold issueStores
  repeat' (first | with_reducible assumption | apply canon_addOp | apply canon_updOp | apply canon_choose | apply canon_performFor | (refine canon_pair (by assumption) ?_) | (refine canon_pair3 (by assumption) ?_) | split | dsimp only)
theorem canon_storeLocs (st : Strand) (len : ℕ) (gs : List (List ℕ × Space × ℕ)) (data : ℕ → List Byte) (rel : Option Scope) (sets : List SetTodo) (s : State) (hc : memoriesCanonical s) : memoriesCanonical (storeLocs st len gs data rel sets s) := by
  unfold storeLocs
  repeat' (first | with_reducible assumption | apply canon_advance | apply canon_issueStores | (refine canon_pair (by assumption) ?_) | (refine canon_pair3 (by assumption) ?_) | split)
theorem canon_cstStores (h : Hdr) (d : ℕ) (a : ℕ) (b : Src) (n : ℕ) (q : ℕ) (s : State) (st : Strand) (hc : memoriesCanonical s) : memoriesCanonical (cstStores h d a b n q s st) := by
  unfold cstStores
  repeat' (first | with_reducible assumption | with_reducible apply canon_advance | with_reducible apply canon_startWalk | with_reducible apply canon_bulkUse | with_reducible apply canon_dropRes | with_reducible apply canon_cacheUse | with_reducible apply canon_addOp | with_reducible apply canon_issueStores | with_reducible apply canon_writeResult | with_reducible apply canon_replaceStrand | with_reducible apply canon_raiseStop | with_reducible apply canon_askFor | with_reducible apply canon_comparators | (with_reducible apply canon_foldl; intro a x ha) | (with_reducible apply canon_foldl2; intro a x ha) | (with_reducible refine canon_pair (by assumption) ?_) | (with_reducible refine canon_pair3 (by assumption) ?_) | split | dsimp only | simp only [canon_lit])
theorem canon_cstOn (h : Hdr) (d : ℕ) (a : ℕ) (b : Src) (n : ℕ) (q : ℕ) (s : State) (st : Strand) (hc : memoriesCanonical s) : memoriesCanonical (cstOn h d a b n q s st) := by
  unfold cstOn
  repeat' (first | with_reducible assumption | with_reducible apply canon_writeResult | with_reducible apply canon_cstStores | (with_reducible refine canon_pair (by assumption) ?_) | (with_reducible refine canon_pair3 (by assumption) ?_) | split | dsimp only)
theorem canon_acquireGranule (s : State) (st : Strand) (is : List ℕ) (lk : ℕ) (team : ℕ) (g : ℕ) (hc : memoriesCanonical s) : memoriesCanonical (acquireGranule s st is lk team g) := by
  unfold acquireGranule
  repeat' (first | with_reducible assumption | apply canon_acquireL1 | apply canon_acquireRecord | (refine canon_pair (by assumption) ?_) | (refine canon_pair3 (by assumption) ?_) | split)
theorem canon_serveOne (s : State) (st : Strand) (w : GranWait) (gr : ℕ × ℕ × ℕ) (hc : memoriesCanonical s) : memoriesCanonical (serveOne s st w gr).2 := by
  unfold serveOne
  repeat' (first | with_reducible assumption | apply canon_enterStore | apply canon_fillBy | apply canon_acquireGranule | apply canon_performLoad | apply canon_setFull | (apply canon_foldl; intro a x ha) | (apply canon_foldl3; intro a x ha) | (refine canon_pair (by assumption) ?_) | (refine canon_pair3 (by assumption) ?_) | split | dsimp only)
theorem canon_serveSome (s : State) (st : Strand) (w : GranWait) (hc : memoriesCanonical s) : memoriesCanonical (serveSome s st w).2 := by
  unfold serveSome
  dsimp only
  refine canon_foldl2 _ _ _ (fun a x h => canon_serveOne _ _ _ _ h) ?_
  dsimp only
  split
  · exact hc
  · exact canon_choose _ _ hc
theorem canon_serveStrand (s : State) (st : Strand) (w : GranWait) (hc : memoriesCanonical s) : memoriesCanonical (serveStrand s st w) := by
  unfold serveStrand
  extract_lets r s1
  have hr : memoriesCanonical r.2 := canon_serveSome _ _ _ hc
  have h1 : memoriesCanonical s1 := canon_advance _ _ _ (canon_unblockSid _ _ hr)
  split
  · split
    · exact canon_orTrap _ _ _ _ _ _ _ (canon_addOp _ _ _ _ _ _ h1) (canon_unblockSid _ _ hc)
    · exact canon_addOp _ _ _ _ _ _ h1
  · exact canon_updStrand _ _ _ hr
theorem canon_beginGranule (s : State) (st : Strand) (w : GranWait) (hc : memoriesCanonical s) : memoriesCanonical (beginGranule s st w) := by
  unfold beginGranule
  repeat' (first | with_reducible assumption | apply canon_fresh | apply canon_endRun | apply canon_blockOn | apply canon_serveStrand | (refine canon_pair (by assumption) ?_) | (refine canon_pair3 (by assumption) ?_) | split | dsimp only)
theorem canon_issueAtoms (s : State) (st : Strand) (dest : Option ℕ) (n : ℕ) (k : AtKind) (ts : List AtTodo) (pushes : Bool) (hc : memoriesCanonical s) : memoriesCanonical (issueAtoms s st dest n k ts pushes) := by
  unfold issueAtoms
  repeat' (first | with_reducible assumption | apply canon_addOp | apply canon_performLoads | apply canon_homeUse | apply canon_atomicUse | apply canon_choose | apply canon_performOwn | (apply canon_foldl; intro a x ha) | (refine canon_pair (by assumption) ?_) | (refine canon_pair3 (by assumption) ?_) | split | dsimp only)
theorem canon_servePackets (oid : ℕ) (s : State) (hc : memoriesCanonical s) : memoriesCanonical (servePackets oid s) := by
  unfold servePackets
  repeat' (first | with_reducible assumption | apply canon_serve | (refine canon_pair (by assumption) ?_) | (refine canon_pair3 (by assumption) ?_) | split)
theorem canon_prefetchLine (core : ℕ) (s : State) (line : ℕ) (hc : memoriesCanonical s) : memoriesCanonical (prefetchLine core s line) := by
  unfold prefetchLine
  repeat' (first | with_reducible assumption | apply canon_l1Use | (refine canon_pair (by assumption) ?_) | (refine canon_pair3 (by assumption) ?_) | split | dsimp only)
theorem canon_landResult (s : State) (st : Strand) (d : ℕ) (n : ℕ) (vals : List (ℕ × List Word)) (ps : List (ℕ × ℕ)) (push : Option (List (ℕ × Bool))) (pc : ℕ) (mem : Bool) (hc : memoriesCanonical s) : memoriesCanonical (landResult s st d n vals ps push pc mem).2 := by
  unfold landResult
  repeat' (first | with_reducible assumption | apply canon_replaceStrand | apply canon_putStrand | apply canon_comparators | apply canon_placementCut | apply canon_tiller | (apply canon_foldl; intro a x ha) | (refine canon_pair (by assumption) ?_) | (refine canon_pair3 (by assumption) ?_) | split | dsimp only)
theorem canon_endOp (s : State) (oid : ℕ) (hc : memoriesCanonical s) : memoriesCanonical (endOp s oid) := by
  unfold endOp
  repeat' (first | with_reducible assumption | apply canon_wakeStalls | apply canon_dropOps | apply canon_updOp | (refine canon_pair (by assumption) ?_) | (refine canon_pair3 (by assumption) ?_) | split | dsimp only | simp only [canon_lit])
theorem canon_taken (s : State) (oid : ℕ) (st : Strand) (hc : memoriesCanonical s) : memoriesCanonical (taken s oid st) := by
  unfold taken
  repeat' (first | with_reducible assumption | apply canon_updOp | apply canon_updStrand)
theorem canon_landOne (o : Op) (d : Option ℕ) (n : ℕ) (vals : List (ℕ × List Word)) (ps : List (ℕ × ℕ)) (push : Option (List (ℕ × Bool))) (s : State) (x : Strand) (hc : memoriesCanonical s) : memoriesCanonical (landOne o d n vals ps push s x) := by
  unfold landOne
  repeat' (first | with_reducible assumption | apply canon_landResult | apply canon_taken | (refine canon_pair (by assumption) ?_) | (refine canon_pair3 (by assumption) ?_) | split | dsimp only)
theorem canon_landAll (s : State) (o : Op) (d : Option ℕ) (n : ℕ) (vals : List (ℕ × List Word)) (ps : List (ℕ × ℕ)) (push : Option (List (ℕ × Bool))) (hc : memoriesCanonical s) : memoriesCanonical (landAll s o d n vals ps push) := by
  unfold landAll
  repeat' (first | with_reducible assumption | apply canon_landOne | apply canon_wakeJoins | apply canon_endOp | apply canon_wakeStalls | (apply canon_foldl; intro a x ha) | (refine canon_pair (by assumption) ?_) | (refine canon_pair3 (by assumption) ?_) | split | dsimp only)
theorem canon_setEngineQ (s : State) (core : ℕ) (e : ℕ) (q : List SeCmd) (hc : memoriesCanonical s) : memoriesCanonical (setEngineQ s core e q) := by
  unfold setEngineQ
  repeat' (first | with_reducible assumption | (refine canon_coreOf ?_ _) | apply canon_putCore)
theorem canon_queueCmd (s : State) (st : Strand) (oid : ℕ) (k : SeKind) (r : LayoutBits) (d : ℕ) (woff : ℕ) (e : ℕ) (hc : memoriesCanonical s) : memoriesCanonical (queueCmd s st oid k r d woff e) := by
  unfold queueCmd
  repeat' (first | with_reducible assumption | (refine canon_coreOf ?_ _) | apply canon_performStores | apply canon_setEngineQ)
theorem canon_engWrite (s : State) (w : Writer) (sp : Space) (a : ℕ) (bs : List Byte) (keyid : ℕ) (hc : memoriesCanonical s) : memoriesCanonical (engWrite s w sp a bs keyid).2 := by
  unfold engWrite
  repeat' (first | with_reducible assumption | apply canon_appendHome | (refine canon_pair (by assumption) ?_) | (refine canon_pair3 (by assumption) ?_) | split)
theorem canon_finishCmd (s : State) (core : ℕ) (e : ℕ) (cmd : SeCmd) (ids : List ℕ) (fault : Option Report) (hc : memoriesCanonical s) : memoriesCanonical (finishCmd s core e cmd ids fault) := by
  unfold finishCmd
  repeat' (first | with_reducible assumption | (refine canon_coreOf ?_ _) | apply canon_setEngineQ | apply canon_endOp | apply canon_updOp | (refine canon_pair (by assumption) ?_) | (refine canon_pair3 (by assumption) ?_) | split | dsimp only | simp only [canon_lit])
theorem canon_setHead (s : State) (core : ℕ) (e : ℕ) (f : SeCmd → SeCmd) (hc : memoriesCanonical s) : memoriesCanonical (setHead s core e f) := by
  unfold setHead
  repeat' (first | with_reducible assumption | (refine canon_coreOf ?_ _) | apply canon_setEngineQ | (refine canon_pair (by assumption) ?_) | (refine canon_pair3 (by assumption) ?_) | split)
theorem canon_engTouch (s : State) (core : ℕ) (x : Elem) (store : Bool) (n : ℕ) (hc : memoriesCanonical s) : memoriesCanonical (engTouch s core x store n) := by
  unfold engTouch
  repeat' (first | with_reducible assumption | with_reducible apply canon_bulkUse | (with_reducible refine canon_pair (by assumption) ?_) | (with_reducible refine canon_pair3 (by assumption) ?_) | split)
theorem canon_startCmd (s : State) (core : ℕ) (e : ℕ) (cmd : SeCmd) (store : Bool) (hc : memoriesCanonical s) : memoriesCanonical (startCmd s core e cmd store) := by
  unfold startCmd
  repeat' (first | with_reducible assumption | apply canon_setHead | apply canon_drainThese)
theorem canon_elemDone (s : State) (core : ℕ) (e : ℕ) (n : ℕ) (ids : List ℕ) (fault : Option Report) (hc : memoriesCanonical s) : memoriesCanonical (elemDone s core e n ids fault) := by
  unfold elemDone
  repeat' (first | with_reducible assumption | apply canon_setHead)
theorem canon_sendUnit (s : State) (core : ℕ) (e : ℕ) (x : Elem) (a : ℕ) (keyid : ℕ) (store : Bool) (hc : memoriesCanonical s) : memoriesCanonical (sendUnit s core e x a keyid store) := by
  unfold sendUnit
  repeat' (first | with_reducible assumption | apply canon_settlePackets | apply canon_dropL2 | apply canon_setHead | (refine canon_pair (by assumption) ?_) | (refine canon_pair3 (by assumption) ?_) | split | dsimp only | simp only [canon_lit])
theorem canon_withElem (core : ℕ) (e : ℕ) (store : Bool) (f : State → SeCmd → Elem → State) (s : State) (n : ℕ) (hf : ∀ a y0 y1, memoriesCanonical a → memoriesCanonical (f a y0 y1)) (hc : memoriesCanonical s) : memoriesCanonical (withElem core e store f s n) := by
  unfold withElem
  split
  · exact hc
  · split
    · exact hc
    · dsimp only
      split
      · split
        · rename_i q; exact canon_setHead _ _ _ _ (canon_askWalk _ _ _ _ _ hc _ q)
        · exact hc
      · exact canon_lit.mpr hc
      · split
        · exact hf _ _ _ hc
        · split
          · exact canon_sendUnit _ _ _ _ _ _ _ hc
          · split
            · exact hc
            · exact hf _ _ _ hc
      · exact hf _ _ _ hc
theorem canon_moveElems (core : ℕ) (e : ℕ) (store : Bool) (f : State → SeCmd → Elem → State) (s : State) (hf : ∀ a y0 y1, memoriesCanonical a → memoriesCanonical (f a y0 y1)) (hc : memoriesCanonical s) : memoriesCanonical (moveElems core e store f s) := by
  unfold moveElems
  split
  · exact hc
  · rename_i _ cmd _ _
    exact canon_foldl _ _ _ (fun a n h => canon_withElem _ _ _ _ _ _ hf h) (canon_choose s ((progOf cmd).left.length + 1) hc)
theorem canon_engineStep (s : State) (core : ℕ) (e : ℕ) (kind : SeKind) (store : Bool) (ready : State → SeCmd → Bool) (run : State → State) (hrun : ∀ a, memoriesCanonical a → memoriesCanonical (run a)) (hc : memoriesCanonical s) : memoriesCanonical (engineStep s core e kind store ready run) := by
  unfold engineStep
  split
  · exact hc
  · split
    · exact hc
    · extract_lets s1 begun
      have h1 : memoriesCanonical s1 := by
        unfold s1; split
        · exact hc
        · exact canon_startCmd _ _ _ _ _ hc
      split
      · exact h1
      · exact hrun _ h1
theorem canon_whenMoved (core : ℕ) (e : ℕ) (f : SeCmd → State → State) (s : State) (hf : ∀ cmd a, memoriesCanonical a → memoriesCanonical (f cmd a)) (hc : memoriesCanonical s) : memoriesCanonical (whenMoved core e f s) := by
  unfold whenMoved
  split
  · split
    · exact hf _ _ hc
    · exact hc
  · exact hc
theorem canon_fillElem (core : ℕ) (e : ℕ) (write : SeCmd → ℕ → List Byte → State → ℕ × State) (s : State) (cmd : SeCmd) (x : Elem) (hw : ∀ cmd n bs a, memoriesCanonical a → memoriesCanonical (write cmd n bs a).2) (hc : memoriesCanonical s) : memoriesCanonical (fillElem core e write s cmd x) := by
  unfold fillElem
  have h := canon_engTouch s core x false 0 hc
  dsimp only
  split
  · exact canon_elemDone _ _ _ _ _ _ (hw _ _ _ _ h)
  · exact canon_elemDone _ _ _ _ _ _ h
theorem canon_endFill (core : ℕ) (e : ℕ) (cmd : SeCmd) (s : State) (hc : memoriesCanonical s) : memoriesCanonical (endFill core e cmd s) := by
  unfold endFill
  repeat' (first | with_reducible assumption | apply canon_updTeam | apply canon_fillGranule | apply canon_finishCmd | (apply canon_foldl; intro a x ha) | (refine canon_pair (by assumption) ?_) | (refine canon_pair3 (by assumption) ?_) | split | dsimp only | simp only [canon_lit] | (intro t ht; exact ht))
theorem canon_drainRead (core : ℕ) (e : ℕ) (s : State) (cmd : SeCmd) (n : ℕ) (hc : memoriesCanonical s) : memoriesCanonical (drainRead core e s cmd n) := by
  unfold drainRead
  have key : ∀ b c : Bool, memoriesCanonical (if c = true then (b, s) else freeBool s).2 := fun b c => by
    cases c
    · exact canon_freeBool _ hc
    · exact hc
  exact canon_setHead _ _ _ _ (key _ _)
theorem canon_readImage (core : ℕ) (e : ℕ) (s : State) (hc : memoriesCanonical s) : memoriesCanonical (readImage core e s) := by
  unfold readImage
  repeat' (first | with_reducible assumption | apply canon_choose | apply canon_drainRead | (apply canon_foldl; intro a x ha) | (refine canon_pair (by assumption) ?_) | (refine canon_pair3 (by assumption) ?_) | split)
theorem canon_imageRead (core : ℕ) (e : ℕ) (cmd : SeCmd) (s : State) (hc : memoriesCanonical s) : memoriesCanonical (imageRead core e cmd s) := by
  unfold imageRead
  repeat' (first | with_reducible assumption | apply canon_setFull | apply canon_setHead | (apply canon_foldl; intro a x ha) | (refine canon_pair (by assumption) ?_) | (refine canon_pair3 (by assumption) ?_) | split)
theorem canon_drainElem (core : ℕ) (e : ℕ) (s : State) (cmd : SeCmd) (x : Elem) (hc : memoriesCanonical s) : memoriesCanonical (drainElem core e s cmd x) := by
  unfold drainElem
  repeat' (first | with_reducible assumption | apply canon_elemDone | apply canon_engWrite | apply canon_engTouch | (refine canon_pair (by assumption) ?_) | (refine canon_pair3 (by assumption) ?_) | split | dsimp only)
theorem canon_writeWeights (core : ℕ) (a : ℕ) (bs : List Byte) (s : State) (hc : memoriesCanonical s) : memoriesCanonical (writeWeights core a bs s).2 := by
  unfold writeWeights
  have hf := canon_fresh _ hc
  exact canon_putCore _ _ hf (memPuts_wf (canon_coreOf hf core) _ _)
theorem canon_endFillw (core : ℕ) (e : ℕ) (cmd : SeCmd) (s : State) (hc : memoriesCanonical s) : memoriesCanonical (endFillw core e cmd s) := by
  unfold endFillw
  repeat' (first | with_reducible assumption | (refine canon_coreOf ?_ _) | apply canon_finishCmd | apply canon_putCore)
theorem canon_updTile (s : State) (lk : ℕ) (team : ℕ) (m : ℕ) (f : Tile → Tile) (hc : memoriesCanonical s) : memoriesCanonical (updTile s lk team m f) := by
  unfold updTile
  repeat' (first | with_reducible assumption | apply canon_updTeam | (refine canon_pair (by assumption) ?_) | (refine canon_pair3 (by assumption) ?_) | split | dsimp only | simp only [canon_lit] | (intro t ht; exact ht))
theorem canon_undefTile (s : State) (lk : ℕ) (team : ℕ) (m : ℕ) (hc : memoriesCanonical s) : memoriesCanonical (undefTile s lk team m) := by
  unfold undefTile
  repeat' (first | with_reducible assumption | apply canon_freeBool | apply canon_updTile)
theorem canon_markClash (s : State) (st : Strand) (ms : List ℕ) (clash : Bool) (hc : memoriesCanonical s) : memoriesCanonical (markClash s st ms clash) := by
  unfold markClash
  repeat' (first | with_reducible assumption | (refine canon_coreOf ?_ _) | apply canon_undefTile | apply canon_putCore | (apply canon_foldl; intro a x ha) | (refine canon_pair (by assumption) ?_) | (refine canon_pair3 (by assumption) ?_) | split)
theorem canon_queueTile (s : State) (st : Strand) (body : OpBody) (cmd : ℕ → MxCmd) (hc : memoriesCanonical s) : memoriesCanonical (queueTile s st body cmd) := by
  unfold queueTile
  repeat' (first | with_reducible assumption | (refine canon_coreOf ?_ _) | apply canon_addOp | apply canon_putCore | apply canon_addObs | apply canon_updStrand)
theorem canon_mwaitComplete (s : State) (st : Strand) (m : ℕ) (hc : memoriesCanonical s) : memoriesCanonical (mwaitComplete s st m) := by
  unfold mwaitComplete
  repeat' (first | with_reducible assumption | apply canon_putStrand | apply canon_advance | apply canon_deliver | (refine canon_pair (by assumption) ?_) | (refine canon_pair3 (by assumption) ?_) | split | dsimp only)
theorem canon_mrdIssue (s : State) (st : Strand) (m : ℕ) (d : ℕ) (r : Rnd) (blk : ℕ) (f : MrdFmt) (sat : Bool) (reg : Bool) (addr : ℕ) (len : ℕ) (hc : memoriesCanonical s) : memoriesCanonical (mrdIssue s st m d r blk f sat reg addr len) := by
  unfold mrdIssue
  repeat' (first | with_reducible assumption | apply canon_markClash | apply canon_queueTile | apply canon_asIfX | apply canon_advance | (refine canon_pair (by assumption) ?_) | (refine canon_pair3 (by assumption) ?_) | split | dsimp only | simp only [canon_lit] | (rintro r ⟨⟩))
theorem canon_finishMx (s : State) (core : ℕ) (oid : ℕ) (fault : Option Report) (hc : memoriesCanonical s) : memoriesCanonical (finishMx s core oid fault) := by
  unfold finishMx
  repeat' (first | with_reducible assumption | (refine canon_coreOf ?_ _) | apply canon_putCore | apply canon_endOp | apply canon_updOp)
theorem canon_makeResident (s : State) (c : ℕ) (page : ℕ) (hc : memoriesCanonical s) : memoriesCanonical (makeResident s c page) := by
  unfold makeResident; split
  · exact hc
  · split
    · dsimp only; split
      · exact hc
      · exact canon_updCtx _ _ _ (canon_devLit hc (memPuts_wf hc.device _ _))
    · exact hc
theorem canon_allocPage (s : State) (hc : memoriesCanonical s) : ∀ r, allocPage s = some r → memoriesCanonical r.2 := by
  unfold allocPage
  repeat' (first | with_reducible assumption | apply canon_clearRange | (refine canon_pair (by assumption) ?_) | (refine canon_pair3 (by assumption) ?_) | split | dsimp only | simp only [canon_lit] | (rintro r ⟨⟩))
theorem canon_allocSys (s : State) (n : ℕ) (hc : memoriesCanonical s) : ∀ r, allocSys s n = some r → memoriesCanonical r.2 := by
  unfold allocSys
  repeat' (first | with_reducible assumption | apply canon_clearRange | (refine canon_pair (by assumption) ?_) | (refine canon_pair3 (by assumption) ?_) | split | dsimp only | simp only [canon_lit] | (rintro r ⟨⟩))
theorem canon_releasePage (s : State) (pa : ℕ) (hc : memoriesCanonical s) : memoriesCanonical (releasePage s pa) := by
  unfold releasePage
  repeat' (first | with_reducible assumption | (refine canon_pair (by assumption) ?_) | (refine canon_pair3 (by assumption) ?_) | split | dsimp only | simp only [canon_lit])
theorem canon_setPte (s : State) (ea : ℕ) (e : ℕ) (hc : memoriesCanonical s) : memoriesCanonical (setPte s ea e) := by
  exact (canon_devLit hc (memPuts_wf hc.device _ _))
theorem canon_makeTables (va : ℕ) (x1 : List ℕ) (x2 : ℕ) (x3 : State) (hc : memoriesCanonical x3) : ∀ r, makeTables va x1 x2 x3 = some r → memoriesCanonical r.2 := by
  intro r h
  induction x1 generalizing x2 x3 with
  | nil => simp only [makeTables, Option.some.injEq] at h; rw [← h]; exact hc
  | cons l ls ih =>
    simp only [makeTables] at h
    split at h
    · cases h
    split at h
    · split at h
      · exact ih _ _ hc h
      · cases h
    · split at h
      · cases h
      · rename_i p s1 q
        exact ih _ _ (canon_setPte _ _ _ (canon_allocSys _ _ hc _ q)) h
theorem canon_mapOne (root : ℕ) (va : ℕ) (e : ℕ) (s64 : Bool) (s : State) (hc : memoriesCanonical s) : ∀ r, mapOne root va e s64 s = some r → memoriesCanonical r := by
  have H : ∀ (xs : List Nat) (o : Option State), (∀ r, o = some r → memoriesCanonical r) →
      ∀ r, xs.foldl (fun (acc : Option State) k => acc.bind (fun s => (makeTables (va + 4096 * k) [4, 3, 2] root s).map (fun r => setPte r.2 r.1 e))) o = some r →
        memoriesCanonical r := by
    intro xs
    induction xs with
    | nil => intro o h r hr; exact h r hr
    | cons x xs ih =>
      intro o h r hr
      apply ih _ _ r hr
      intro t ht
      simp only [Option.bind_eq_some_iff, Option.map_eq_some_iff] at ht
      obtain ⟨a, ha, b, hb, rfl⟩ := ht
      exact canon_setPte _ _ _ (canon_makeTables _ _ _ _ (h a ha) _ hb)
  intro r hr
  exact H _ _ (fun r h => by simp only [Option.some.injEq] at h; rw [← h]; exact hc) r hr
theorem canon_mapRange (root : ℕ) (step : ℕ) (w : Bool) (x : Bool) (s64 : Bool) (keyid : ℕ) (x6 : ℕ) (x7 : ℕ) (x8 : State) (hc : memoriesCanonical x8) : ∀ r, mapRange root step w x s64 keyid x6 x7 x8 = some r → memoriesCanonical r := by
  intro r h
  induction x6 generalizing x7 x8 with
  | zero => simp only [mapRange, Option.some.injEq] at h; rw [← h]; exact hc
  | succ n ih =>
    simp only [mapRange, Option.bind_eq_some_iff] at h
    obtain ⟨a, ha, b, hb, h⟩ := h
    exact ih _ _ (canon_mapOne _ _ _ _ _ (canon_allocPage _ hc _ ha) _ hb) h
theorem canon_invalidateAll (s : State) (c : ℕ) (lo : ℕ) (hi : ℕ) (hc : memoriesCanonical s) : memoriesCanonical (invalidateAll s c lo hi) := by
  unfold invalidateAll
  exact canon_foldl _ _ _ (fun a d h => canon_invalidateDie _ _ _ _ _ h) hc
theorem canon_unmapRange (s : State) (x : Ctx) (addr : ℕ) (size : ℕ) (hc : memoriesCanonical s) : ∀ r, unmapRange s x addr size = some r → memoriesCanonical r := by
  intro r h
  simp only [unmapRange, Option.map_eq_some_iff] at h
  obtain ⟨es, _, rfl⟩ := h
  apply canon_foldl
  · intro a x h; exact canon_releasePage _ _ h
  · apply canon_invalidateAll
    apply canon_foldl
    · intro a x h; exact canon_setPte _ _ _ h
    · exact hc
theorem canon_makePool (s : State) (x : Ctx) (k : Kernel) (slotBytes : ℕ) (hc : memoriesCanonical s) : memoriesCanonical (makePool s x k slotBytes).2 := by
  unfold makePool
  dsimp only
  split
  · rename_i q; exact canon_updCtx _ _ _ (canon_mapRange _ _ _ _ _ _ _ _ _ hc _ q)
  · exact hc
theorem canon_freePool (s : State) (l : Launch) (hc : memoriesCanonical s) : memoriesCanonical (freePool s l) := by
  unfold freePool
  split
  · exact hc
  · cases q : (ctxOf s l.ctx).bind (fun x => unmapRange s x l.spill l.poolBytes) with
    | none => exact hc
    | some t =>
      simp only [Option.bind_eq_some_iff] at q
      obtain ⟨x, _, h⟩ := q
      exact canon_unmapRange _ _ _ _ hc _ h
theorem canon_splitLeaf (va : ℕ) (x1 : List ℕ) (x2 : ℕ) (x3 : State) (hc : memoriesCanonical x3) : ∀ r, splitLeaf va x1 x2 x3 = some r → memoriesCanonical r := by
  intro r h
  induction x1 generalizing x2 x3 with
  | nil => simp only [splitLeaf, Option.some.injEq] at h; rw [← h]; exact hc
  | cons l ls ih =>
    simp only [splitLeaf] at h
    split at h
    · simp only [Option.some.injEq] at h; rw [← h]; exact hc
    · split at h
      · exact ih _ _ hc h
      · split at h
        · simp only [Option.bind_eq_some_iff] at h
          obtain ⟨a, ha, h⟩ := h
          exact ih _ _ (canon_setPte _ _ _ (canon_foldl _ _ _ (fun a x h => canon_setPte _ _ _ h) (canon_allocSys _ _ hc _ ha))) h
        · simp only [Option.some.injEq] at h; rw [← h]; exact hc
theorem canon_migratePage (s : State) (c : ℕ) (page : ℕ) (hc : memoriesCanonical s) : memoriesCanonical (migratePage s c page) := by
  unfold migratePage
  split
  · split
    · exact hc
    · split
      · exact hc
      · rename_i q
        simp only [Option.bind_eq_some_iff] at q
        obtain ⟨a, ha, q⟩ := q
        have h1 := canon_allocPage _ (canon_splitLeaf _ _ _ _ hc _ ha) _ q
        split
        · exact hc
        · extract_lets lo s2
          have h2 : memoriesCanonical s2 := canon_invalidateAll _ _ _ _ (canon_setPte _ _ _ h1)
          exact canon_setPte _ _ _ (canon_devLit h2 (memPuts_wf h2.device _ _))
  · exact hc
theorem canon_askPage (s : State) (c : ℕ) (page : ℕ) (hc : memoriesCanonical s) : memoriesCanonical (askPage s c page) := by
  unfold askPage
  repeat' (first | with_reducible assumption | apply canon_migratePage | apply canon_keepHostPage | (refine canon_pair (by assumption) ?_) | (refine canon_pair3 (by assumption) ?_) | split)
theorem canon_bringIn (s : State) (c : ℕ) (va : ℕ) (n : ℕ) (hc : memoriesCanonical s) : memoriesCanonical (bringIn s c va n) := by
  unfold bringIn
  repeat' (first | with_reducible assumption | apply canon_askPage | apply canon_makeResident | (apply canon_foldl; intro a x ha))
theorem canon_vRead (s : State) (c : ℕ) (va : ℕ) (n : ℕ) (hc : memoriesCanonical s) : memoriesCanonical (vRead s c va n).2 := by
  unfold vRead
  repeat' (first | with_reducible assumption | apply canon_bringIn)
theorem canon_vWrite (s : State) (c : ℕ) (va : ℕ) (bs : List Byte) (w : Writer) (rel : Option RelRec) (hc : memoriesCanonical s) : memoriesCanonical (vWrite s c va bs w rel).2 := by
  unfold vWrite
  repeat' (first | with_reducible assumption | apply canon_bringIn | apply canon_appendHome | (apply canon_foldl2; intro a x ha) | (refine canon_pair (by assumption) ?_) | (refine canon_pair3 (by assumption) ?_) | split | dsimp only)
theorem canon_readKernel (s : State) (c : ℕ) (kdesc : ℕ) (hc : memoriesCanonical s) : memoriesCanonical (readKernel s c kdesc).2 := by
  unfold readKernel
  repeat' (first | with_reducible assumption | apply canon_vRead | (apply canon_foldl2; intro a x ha) | (refine canon_pair (by assumption) ?_) | (refine canon_pair3 (by assumption) ?_) | split | dsimp only)
theorem canon_checkShape (s : State) (lk : ℕ) (team : ℕ) (a : Word) (b : Word) (hc : memoriesCanonical s) : memoriesCanonical (checkShape s lk team a b).2 := by
  unfold checkShape
  repeat' (first | with_reducible assumption | apply canon_readKernel | (refine canon_pair (by assumption) ?_) | (refine canon_pair3 (by assumption) ?_) | split | dsimp only)
theorem canon_moultFail (s : State) (xs : List (Strand × Word × Word × ℕ)) (check : ℕ) (hc : memoriesCanonical s) : memoriesCanonical (moultFail s xs check) := by
  unfold moultFail
  repeat' (first | with_reducible assumption | apply canon_raiseStop | (apply canon_foldl; intro a x ha))
theorem canon_tryMoult (s : State) (lk : ℕ) (team : ℕ) (hc : memoriesCanonical s) : memoriesCanonical (tryMoult s lk team) := by
  unfold tryMoult
  repeat' (first | with_reducible assumption | apply canon_moultFail | apply canon_checkShape | apply canon_updTeam | (refine canon_pair (by assumption) ?_) | (refine canon_pair3 (by assumption) ?_) | split | dsimp only | simp only [canon_lit] | (intro t ht; exact ht))
theorem canon_arriveMoult (s : State) (st : Strand) (a : Word) (b : Word) (len : ℕ) (hc : memoriesCanonical s) : memoriesCanonical (arriveMoult s st a b len) := by
  unfold arriveMoult
  repeat' (first | with_reducible assumption | apply canon_tryMoult | apply canon_blockOn)
theorem canon_moultWaitDone (s : State) (st : Strand) (a : Word) (b : Word) (len : ℕ) (hc : memoriesCanonical s) : memoriesCanonical (moultWaitDone s st a b len) := by
  unfold moultWaitDone
  repeat' (first | with_reducible assumption | apply canon_addObs | apply canon_putStrand | apply canon_arriveMoult | apply canon_deliver | (refine canon_pair (by assumption) ?_) | (refine canon_pair3 (by assumption) ?_) | split | dsimp only)
theorem canon_roleStrands (s : State) (lk : ℕ) (team : ℕ) (k : Kernel) (core : ℕ) (pending : Bool) (presets : List (ℕ × Word)) (hc : memoriesCanonical s) : memoriesCanonical (roleStrands s lk team k core pending presets).2 := by
  unfold roleStrands
  repeat' (first | with_reducible assumption | apply canon_fresh | (apply canon_foldl2; intro a x ha) | (refine canon_pair (by assumption) ?_) | (refine canon_pair3 (by assumption) ?_) | split | dsimp only)
theorem canon_settleStart (s : State) (st : Strand) (hc : memoriesCanonical s) : memoriesCanonical (settleStart s st).2 := by
  unfold settleStart
  repeat' (first | with_reducible assumption | apply canon_assignIds | (refine canon_pair (by assumption) ?_) | (refine canon_pair3 (by assumption) ?_) | split | dsimp only)
theorem canon_succeed (s0 : State) (lk : ℕ) (team : ℕ) (k : Kernel) (b : Word) (hc : memoriesCanonical s0) : memoriesCanonical (succeed s0 lk team k b) := by
  unfold succeed
  split
  · exact hc
  · extract_lets keep wiped s olds lo all mine os seed s1 s2
    have h2 : memoriesCanonical s2 := by
      refine canon_updTeam _ _ _ _ (canon_lit.mpr (canon_lit.mpr hc)) (fun t ht => ⟨wf_filter _ ht.1, ht.2⟩)
    apply canon_traceRecord
    apply canon_addObs
    apply canon_foldl
    · intro a st h; exact canon_lit.mpr (canon_settleStart _ _ h)
    · exact canon_roleStrands _ _ _ _ _ _ _ h2
theorem canon_finishDld (s : State) (o : Op) (slot : ℕ) (r : LayoutBits) (pois : Bool) (hc : memoriesCanonical s) : memoriesCanonical (finishDld s o slot r pois) := by
  unfold finishDld
  repeat' (first | with_reducible assumption | apply canon_endOp | apply canon_updOp | apply canon_updTeam | (refine canon_pair (by assumption) ?_) | (refine canon_pair3 (by assumption) ?_) | split | dsimp only | simp only [canon_lit] | (intro t ht; exact ht))
theorem canon_finishLoads (s : State) (oid : ℕ) (left : List LoadTodo) (hc : memoriesCanonical s) : memoriesCanonical (finishLoads s oid left) := by
  unfold finishLoads
  repeat' (first | with_reducible assumption | apply canon_choose | apply canon_performLoadsOf | apply canon_settleAt | (apply canon_foldl; intro a x ha))
theorem canon_finishStores (s : State) (o : Op) (left : List StoreTodo) (hc : memoriesCanonical s) : memoriesCanonical (finishStores s o left) := by
  unfold finishStores
  repeat' (first | with_reducible assumption | apply canon_choose | apply canon_performFor | apply canon_enterTodo | (apply canon_foldl; intro a x ha) | (refine canon_pair (by assumption) ?_) | (refine canon_pair3 (by assumption) ?_) | split | dsimp only)
theorem canon_finishSets (s : State) (o : Op) (hc : memoriesCanonical s) : memoriesCanonical (finishSets s o) := by
  unfold finishSets
  split
  · exact hc
  · exact canon_foldl _ _ _ (fun a x h => canon_performSet _ _ _ h) (canon_choose s (o.sets.length + 1) hc)
theorem canon_finishAtoms (s : State) (oid : ℕ) (ts : List AtTodo) (hc : memoriesCanonical s) : memoriesCanonical (finishAtoms s oid ts) := by
  unfold finishAtoms
  repeat' (first | with_reducible assumption | apply canon_choose | apply canon_performOwn | apply canon_performAtoms | apply canon_settleAt | (apply canon_foldl; intro a x ha) | (refine canon_pair (by assumption) ?_) | (refine canon_pair3 (by assumption) ?_) | split | dsimp only)
theorem canon_deliverOp (s : State) (o : Op) (hc : memoriesCanonical s) : memoriesCanonical (deliverOp s o) := by
  unfold deliverOp
  repeat' (first | with_reducible assumption | apply canon_landAll | apply canon_wakeJoins | apply canon_endOp | apply canon_finishDld | (refine canon_pair (by assumption) ?_) | (refine canon_pair3 (by assumption) ?_) | split)
theorem canon_putHq (s : State) (c : ℕ) (q : HwQueue) (hc : memoriesCanonical s) : memoriesCanonical (putHq s c q) := by
  unfold putHq
  repeat' (first | with_reducible assumption | apply canon_updCtx)
theorem canon_popBatch (d : ℕ) (qnum : ℕ) (s : State) (st : Strand) (hc : memoriesCanonical s) : memoriesCanonical (popBatch d qnum s st) := by
  unfold popBatch
  repeat' (first | with_reducible assumption | apply canon_formOnlyTrap | apply canon_waitRoom | apply canon_performLoads | apply canon_putHq | apply canon_acquireRecord | apply canon_addOp | apply canon_acquireL1 | apply canon_advance | (apply canon_foldl; intro a x ha) | (refine canon_pair (by assumption) ?_) | (refine canon_pair3 (by assumption) ?_) | split)
theorem canon_addFault (s : State) (oid : ℕ) (r : Report) (hc : memoriesCanonical s) : memoriesCanonical (addFault s oid r) := by
  unfold addFault
  repeat' (first | with_reducible assumption | apply canon_updOp)
theorem canon_queueCompletion (s : State) (q : ℕ) (r : CompRec) (hc : memoriesCanonical s) : memoriesCanonical (queueCompletion s q r) := by
  unfold queueCompletion
  repeat' (first | with_reducible assumption | (refine canon_pair (by assumption) ?_) | (refine canon_pair3 (by assumption) ?_) | split | dsimp only | simp only [canon_lit])
theorem canon_refusedCompletion (s : State) (q : ℕ) (utag : ℕ) (nocompl : Bool) (hc : memoriesCanonical s) : memoriesCanonical (refusedCompletion s q utag nocompl) := by
  unfold refusedCompletion
  repeat' (first | with_reducible assumption | apply canon_queueCompletion | (refine canon_pair (by assumption) ?_) | (refine canon_pair3 (by assumption) ?_) | split)
theorem canon_checkLaunch (s : State) (c : ℕ) (r : LaunchRec) (task : Bool) (hc : memoriesCanonical s) : memoriesCanonical (checkLaunch s c r task).2 := by
  unfold checkLaunch
  repeat' (first | with_reducible assumption | apply canon_readKernel | (refine canon_pair (by assumption) ?_) | (refine canon_pair3 (by assumption) ?_) | split)
theorem canon_acceptLaunch (s : State) (c : ℕ) (r : LaunchRec) (k : Kernel) (q : ℕ) (src : Source) (addr : ℕ) (t0 : ℕ) (acq : List ℕ) (hc : memoriesCanonical s) : memoriesCanonical (acceptLaunch s c r k q src addr t0 acq).2 := by
  unfold acceptLaunch
  repeat' (first | with_reducible assumption | apply canon_makePool | apply canon_fresh | apply canon_updCtx | apply canon_putDie | apply canon_traceRecord | (refine canon_pair (by assumption) ?_) | (refine canon_pair3 (by assumption) ?_) | split | dsimp only | simp only [canon_lit])
theorem canon_takeRecord (s : State) (c : ℕ) (q : ℕ) (x : ℕ) (addr : ℕ) (src : Source) (t0 : ℕ) (acq : List ℕ) (hc : memoriesCanonical s) : memoriesCanonical (takeRecord s c q x addr src t0 acq).2 := by
  unfold takeRecord
  repeat' (first | with_reducible assumption | apply canon_checkLaunch | apply canon_acceptLaunch | apply canon_refusedCompletion | apply canon_enqueueReport | (refine canon_pair (by assumption) ?_) | (refine canon_pair3 (by assumption) ?_) | split | dsimp only)
theorem canon_checkTask (s : State) (c : ℕ) (id : ℕ) (hc : memoriesCanonical s) : memoriesCanonical (checkTask s c id).2 := by
  unfold checkTask
  repeat' (first | with_reducible assumption | apply canon_checkLaunch | (refine canon_pair (by assumption) ?_) | (refine canon_pair3 (by assumption) ?_) | split | dsimp only)
theorem canon_takeTask (s : State) (c : ℕ) (oid : ℕ) (task : Word) (src : Source) (addr : ℕ) (snap : ℕ) (pc : ℕ) (t0 : ℕ) (acq : List ℕ) (hc : memoriesCanonical s) : memoriesCanonical (takeTask s c oid task src addr snap pc t0 acq) := by
  unfold takeTask
  repeat' (first | with_reducible assumption | apply canon_checkTask | apply canon_acceptLaunch | apply canon_addFault | apply canon_refusedCompletion | (refine canon_pair (by assumption) ?_) | (refine canon_pair3 (by assumption) ?_) | split)
theorem canon_ringRecord (s : State) (u : UserQ) (n : ℕ) (hc : memoriesCanonical s) : memoriesCanonical (ringRecord s u n).2 := by
  unfold ringRecord
  repeat' (first | with_reducible assumption | apply canon_vRead | (refine canon_pair (by assumption) ?_) | (refine canon_pair3 (by assumption) ?_) | split)
theorem canon_takeRecords (q : ℕ) (x1 : ℕ) (x2 : State) (hc : memoriesCanonical x2) : memoriesCanonical (takeRecords q x1 x2) := by
  induction x1 generalizing x2 with
  | zero => exact hc
  | succ n ih =>
    simp only [takeRecords]
    split
    · exact hc
    · apply ih
      refine canon_lit.mpr ?_
      apply canon_takeRecord; apply canon_ringRecord; exact hc
theorem canon_writeCompletion (q : ℕ) (s : State) (hc : memoriesCanonical s) : memoriesCanonical (writeCompletion q s) := by
  unfold writeCompletion
  repeat' (first | with_reducible assumption | apply canon_vWrite | apply canon_traceIn | apply canon_updLaunch | (refine canon_pair (by assumption) ?_) | (refine canon_pair3 (by assumption) ?_) | split | dsimp only | simp only [canon_lit])
theorem canon_writeCompletions (s : State) (q : ℕ) (hc : memoriesCanonical s) : memoriesCanonical (writeCompletions s q) := by
  unfold writeCompletions
  repeat' (first | with_reducible assumption | apply canon_writeCompletion | (apply canon_foldl; intro a x ha))
theorem canon_completeLaunch (lk : ℕ) (s : State) (hc : memoriesCanonical s) : memoriesCanonical (completeLaunch lk s) := by
  unfold completeLaunch
  split
  · exact hc
  · split
    · exact hc
    · extract_lets cores s1 s1' s2 s3
      have h1 : memoriesCanonical s1 := canon_foldl _ _ _ (fun a x h => canon_drainWhere _ _ _ h) hc
      have h1' : memoriesCanonical s1' := canon_foldl _ _ _ (fun a x h => canon_releaseL1 _ _ _ h) h1
      have h2 : memoriesCanonical s2 := ⟨h1'.device, h1'.host, fun t ht => h1'.teams t (List.mem_filter.mp ht).1, h1'.cores⟩
      have h3 : memoriesCanonical s3 := canon_updLaunch _ _ _ (canon_freePool _ _ h2)
      split
      · exact h3
      · exact canon_queueCompletion _ _ _ h3
theorem canon_claimCore (s : State) (core : ℕ) (c : ℕ) (hc : memoriesCanonical s) : memoriesCanonical (claimCore s core c) := by
  unfold claimCore
  dsimp only
  split
  · exact hc
  · exact canon_putCore _ _ (canon_writeBackL1 _ _ _ (canon_drainWhere _ _ _ hc)) rfl
theorem canon_inheritWaits (s : State) (sid : ℕ) (ids : List ℕ) (hc : memoriesCanonical s) : memoriesCanonical (inheritWaits s sid ids) := by
  unfold inheritWaits
  repeat' (first | with_reducible assumption | (refine canon_pair (by assumption) ?_) | (refine canon_pair3 (by assumption) ?_) | split | dsimp only | simp only [canon_lit])
theorem canon_leaveCore (s : State) (lk : ℕ) (core : ℕ) (is : List ℕ) (hc : memoriesCanonical s) : memoriesCanonical (leaveCore s lk core is) := by
  unfold leaveCore
  repeat' (first | with_reducible assumption | apply canon_drainWhere | apply canon_performFor)
theorem canon_moveStrand (s : State) (sid : ℕ) (hc : memoriesCanonical s) : memoriesCanonical (moveStrand s sid) := by
  unfold moveStrand
  repeat' (first | with_reducible assumption | apply canon_leavePorts | apply canon_leaveCore | apply canon_putStrand | (refine canon_pair (by assumption) ?_) | (refine canon_pair3 (by assumption) ?_) | split | dsimp only)
theorem canon_handOver (s : State) (lk : ℕ) (team : ℕ) (hc : memoriesCanonical s) : memoriesCanonical (handOver s lk team) := by
  unfold handOver
  repeat' (first | with_reducible assumption | apply canon_replaceStrand | apply canon_inheritWaits | apply canon_finishRejoins | apply canon_moveStrand | (apply canon_foldl; intro a x ha))
theorem canon_beginSlice (s : State) (c : ℕ) (hc : memoriesCanonical s) : memoriesCanonical (beginSlice s c) := by
  unfold beginSlice
  repeat' (first | with_reducible assumption | apply canon_updCtx)
theorem canon_takeCores (s : State) (c : ℕ) (hc : memoriesCanonical s) : memoriesCanonical (takeCores s c) := by
  unfold takeCores
  repeat' (first | with_reducible assumption | apply canon_beginSlice | (refine canon_pair (by assumption) ?_) | (refine canon_pair3 (by assumption) ?_) | split)
theorem canon_acquireStart (core : ℕ) (s : State) (l : Launch) (team : Option ℕ) (hc : memoriesCanonical s) : memoriesCanonical (acquireStart core s l team) := by
  unfold acquireStart
  repeat' (first | with_reducible assumption | apply canon_acquireL1 | (refine canon_pair (by assumption) ?_) | (refine canon_pair3 (by assumption) ?_) | split)
theorem canon_placeGang (s : State) (g : Gang) (die : ℕ) (cl : ℕ) (places : List (ℕ × List ℕ × List ℕ)) (adv : ℤ) (hc : memoriesCanonical s) : memoriesCanonical (placeGang s g die cl places adv) := by
  unfold placeGang
  split
  · exact hc
  · extract_lets nums s1 s2 s3 d s4 s5 s6
    have h1 : memoriesCanonical s1 := canon_foldl _ _ _ (fun a x h => canon_acquireStart _ _ _ _ (canon_claimCore _ _ _ h)) (canon_takeCores _ _ hc)
    have h2 : memoriesCanonical s2 := by
      refine canon_foldl _ _ _ (fun a x h => ⟨h.device, h.host, ?_, h.cores⟩) h1
      intro t ht
      rcases List.mem_append.mp ht with ht | ht
      · exact h.teams t (List.mem_filter.mp ht).1
      · rw [List.mem_singleton] at ht; rw [ht]; exact ⟨rfl, rfl⟩
    have h4 : memoriesCanonical s4 := by
      unfold s4; split
      · exact canon_putDie _ _ (canon_lit.mpr h2)
      · exact canon_lit.mpr h2
    have h6 : memoriesCanonical s6 := canon_foldl _ _ _ (fun a x h => canon_endTeams _ _ _ h) (canon_foldl _ _ _ (fun a x h => canon_handOver _ _ _ h) h4)
    exact canon_foldl _ _ _ (fun a x h => canon_wakeTeam _ _ _ h) (canon_traceRecord _ _ _ _ _ h6)
theorem canon_pick (s : State) (die : ℕ) (q : QueueReg) (hc : memoriesCanonical s) : ∀ r, pick s die q = some r → memoriesCanonical r.2 := by
  unfold pick
  repeat' (first | with_reducible assumption | (refine canon_pair (by assumption) ?_) | (refine canon_pair3 (by assumption) ?_) | split | dsimp only | simp only [canon_lit] | (rintro r ⟨⟩))
theorem canon_dropDead (s : State) (hc : memoriesCanonical s) : memoriesCanonical (dropDead s) := by
  unfold dropDead
  repeat' (first | with_reducible assumption | (refine canon_pair (by assumption) ?_) | (refine canon_pair3 (by assumption) ?_) | split | dsimp only | simp only [canon_lit])
theorem canon_markWaiting (s : State) (die : ℕ) (hc : memoriesCanonical s) : memoriesCanonical (markWaiting s die) := by
  unfold markWaiting
  repeat' (first | with_reducible assumption | apply canon_putDie | (refine canon_pair (by assumption) ?_) | (refine canon_pair3 (by assumption) ?_) | split | dsimp only)
theorem canon_place (s : State) (die : ℕ) (g : Gang) (adv : ℤ) (hc : memoriesCanonical s) : memoriesCanonical (place s die g adv).2 := by
  unfold place
  repeat' (first | with_reducible assumption | apply canon_placeGang | (refine canon_pair (by assumption) ?_) | (refine canon_pair3 (by assumption) ?_) | split | dsimp only)
theorem canon_updQueue (s : State) (die : ℕ) (q : ℕ) (f : QueueReg → QueueReg) (hc : memoriesCanonical s) : memoriesCanonical (updQueue s die q f) := by
  unfold updQueue
  repeat' (first | with_reducible assumption | apply canon_putDie)
theorem canon_serveQueue (die : ℕ) (q : ℕ) (x2 : ℕ) (x3 : Bool) (x4 : State) (hc : memoriesCanonical x4) : memoriesCanonical (serveQueue die q x2 x3 x4).2 := by
  induction x2 generalizing x3 x4 with
  | zero => exact hc
  | succ n ih =>
    simp only [serveQueue]
    split
    · exact hc
    · split
      · exact hc
      · split
        · exact hc
        · rename_i q
          have p := canon_pick _ _ _ hc _ q
          split
          · exact canon_place _ _ _ _ p
          · exact ih _ _ (canon_updQueue _ _ _ _ (canon_place _ _ _ _ p))
theorem canon_countFailed (s : State) (die : ℕ) (q : ℕ) (f : Option (ℕ × ℕ)) (hc : memoriesCanonical s) : memoriesCanonical (countFailed s die q f) := by
  unfold countFailed
  repeat' (first | with_reducible assumption | (refine canon_pair (by assumption) ?_) | (refine canon_pair3 (by assumption) ?_) | split | dsimp only | simp only [canon_lit])
theorem canon_visitQueue (s : State) (die : ℕ) (q : ℕ) (hc : memoriesCanonical s) : memoriesCanonical (visitQueue s die q).2 := by
  unfold visitQueue
  repeat' (first | with_reducible assumption | apply canon_updQueue | apply canon_serveQueue | apply canon_markWaiting | apply canon_countFailed | (refine canon_pair (by assumption) ?_) | (refine canon_pair3 (by assumption) ?_) | split)
theorem canon_visitClass (s : State) (die : ℕ) (p : ℕ) (hc : memoriesCanonical s) : memoriesCanonical (visitClass s die p).2 := by
  unfold visitClass
  repeat' (first | with_reducible assumption | apply canon_visitQueue | (apply canon_foldl2; intro a x ha))
theorem canon_beginLaunch (s : State) (die : ℕ) (l : Launch) (hc : memoriesCanonical s) : memoriesCanonical (beginLaunch s die l) := by
  unfold beginLaunch
  repeat' (first | with_reducible assumption | apply canon_updLaunch | apply canon_acquireStart | apply canon_claimCore | apply canon_takeCores | apply canon_fresh | apply canon_roleStrands | apply canon_formGang | (apply canon_foldl; intro a x ha) | (refine canon_pair (by assumption) ?_) | (refine canon_pair3 (by assumption) ?_) | split | dsimp only | simp only [canon_lit])
theorem canon_beginQueue (die : ℕ) (q : ℕ) (x2 : ℕ) (x3 : State) (hc : memoriesCanonical x3) : memoriesCanonical (beginQueue die q x2 x3) := by
  induction x2 generalizing x3 with
  | zero => exact hc
  | succ n ih =>
    simp only [beginQueue]
    split
    · exact hc
    · split
      · exact ih _ (canon_updQueue _ _ _ _ (canon_beginLaunch _ _ _ hc))
      · exact canon_beginLaunch _ _ _ hc
theorem canon_beginLaunches (s : State) (die : ℕ) (hc : memoriesCanonical s) : memoriesCanonical (beginLaunches s die) := by
  unfold beginLaunches
  repeat' (first | with_reducible assumption | apply canon_beginQueue | (apply canon_foldl; intro a x ha))
theorem canon_settleLines (s : State) (ls : List ℕ) (hc : memoriesCanonical s) : memoriesCanonical (settleLines s ls) := by
  unfold settleLines
  repeat' (first | with_reducible assumption | apply canon_settleLine | (apply canon_foldl; intro a x ha))
theorem canon_closeStop (s : State) (t : Stop) (action : ℕ) (hc : memoriesCanonical s) : memoriesCanonical (closeStop s t action) := by
  unfold closeStop
  repeat' (first | with_reducible assumption | apply canon_traceRecord | (refine canon_pair (by assumption) ?_) | (refine canon_pair3 (by assumption) ?_) | split | dsimp only | simp only [canon_lit])
theorem canon_goOn (s : State) (st : Strand) (a : After) (hc : memoriesCanonical s) : memoriesCanonical (goOn s st a) := by
  unfold goOn
  repeat' (first | with_reducible assumption | apply canon_putStrand | apply canon_arriveMoult | apply canon_wakeTeam | apply canon_endTeams | apply canon_dropStrand | (refine canon_pair (by assumption) ?_) | (refine canon_pair3 (by assumption) ?_) | split)
theorem canon_resumeStop (s : State) (t : Stop) (hc : memoriesCanonical s) : memoriesCanonical (resumeStop s t) := by
  unfold resumeStop
  repeat' (first | with_reducible assumption | apply canon_makeResident | apply canon_closeStop | apply canon_goOn | apply canon_putStrand | (apply canon_foldl; intro a x ha) | (refine canon_pair (by assumption) ?_) | (refine canon_pair3 (by assumption) ?_) | split)
theorem canon_skipStop (s : State) (t : Stop) (hc : memoriesCanonical s) : memoriesCanonical (skipStop s t) := by
  unfold skipStop
  repeat' (first | with_reducible assumption | apply canon_closeStop | apply canon_goOn | apply canon_putStrand | (apply canon_foldl; intro a x ha) | (refine canon_pair (by assumption) ?_) | (refine canon_pair3 (by assumption) ?_) | split)
theorem canon_killStop (s : State) (t : Stop) (hc : memoriesCanonical s) : memoriesCanonical (killStop s t) := by
  unfold killStop
  repeat' (first | with_reducible assumption | apply canon_closeHalts | apply canon_wakeTeam | apply canon_endTeams | apply canon_dropStrand | apply canon_closeStop | apply canon_updLaunch | (apply canon_foldl; intro a x ha))
theorem canon_writeStop (s : State) (t : Stop) (reg : R11) (v : Word) (hc : memoriesCanonical s) : memoriesCanonical (writeStop s t reg v) := by
  unfold writeStop
  repeat' (first | with_reducible assumption | (refine canon_pair (by assumption) ?_) | (refine canon_pair3 (by assumption) ?_) | split | dsimp only | simp only [canon_lit])
theorem canon_updStop (s : State) (t : Stop) (f : Stop → Stop) (hc : memoriesCanonical s) : memoriesCanonical (updStop s t f) := by
  unfold updStop
  repeat' (first | with_reducible assumption | (refine canon_pair (by assumption) ?_) | (refine canon_pair3 (by assumption) ?_) | split | dsimp only | simp only [canon_lit])
theorem canon_actStop (s : State) (t : Stop) (x2 : StopAct) (hc : memoriesCanonical s) : memoriesCanonical (actStop s t x2) := by
  unfold actStop
  repeat' (first | with_reducible assumption | apply canon_resumeStop | apply canon_skipStop | apply canon_killStop | apply canon_writeStop | (refine canon_pair (by assumption) ?_) | (refine canon_pair3 (by assumption) ?_) | split)
theorem canon_serveStop (a : StopAct) (s : State) (t : Stop) (hc : memoriesCanonical s) : memoriesCanonical (serveStop a s t) := by
  unfold serveStop
  repeat' (first | with_reducible assumption | apply canon_updStop | apply canon_actStop | (refine canon_pair (by assumption) ?_) | (refine canon_pair3 (by assumption) ?_) | split)
theorem canon_serveDeferred (s : State) (hc : memoriesCanonical s) : memoriesCanonical (serveDeferred s) := by
  unfold serveDeferred
  repeat' (first | with_reducible assumption | apply canon_actStop | apply canon_updStop | (apply canon_foldl; intro a x ha))
theorem canon_writeWaiting (c : ℕ) (x1 : ℕ) (x2 : State) (hc : memoriesCanonical x2) : memoriesCanonical (writeWaiting c x1 x2) := by
  induction x1 generalizing x2 with
  | zero => exact hc
  | succ n ih =>
    simp only [writeWaiting]
    split
    · exact hc
    · split
      · exact hc
      · split
        · exact ih _ (canon_writeReport _ _ _ (canon_updCtx _ _ _ hc))
        · exact hc
theorem canon_traceClosed (s : State) (lk : ℕ) (hc : memoriesCanonical s) : memoriesCanonical (traceClosed s lk) := by
  unfold traceClosed
  repeat' (first | with_reducible assumption | apply canon_traceRecord | (apply canon_foldl; intro a x ha))
theorem canon_killLaunch (status : ℕ) (s0 : State) (lk : ℕ) (hc : memoriesCanonical s0) : memoriesCanonical (killLaunch status s0 lk) := by
  unfold killLaunch
  split
  · exact hc
  · split
    · exact hc
    · extract_lets s s1 s2
      have h0 : memoriesCanonical s := canon_traceClosed _ _ hc
      have h2 : memoriesCanonical s2 := by
        apply canon_updLaunch
        refine ⟨h0.device, h0.host, h0.teams, ?_⟩
        intro k hk
        simp only [s1, List.mem_map] at hk
        obtain ⟨u, hu, rfl⟩ := hk
        exact h0.cores u hu
      exact canon_wakeStalls _ (canon_foldl _ _ _ (fun a x h => canon_retireTeam _ _ _ h) h2)
theorem canon_killContext (status : ℕ) (s : State) (c : ℕ) (hc : memoriesCanonical s) : memoriesCanonical (killContext status s c) := by
  unfold killContext
  repeat' (first | with_reducible assumption | apply canon_killLaunch | (apply canon_foldl; intro a x ha))
theorem canon_countError (s : State) (b : Storage × ℕ) (hc : memoriesCanonical s) : memoriesCanonical (countError s b) := by
  unfold countError
  repeat' (first | with_reducible assumption | (refine canon_pair (by assumption) ?_) | (refine canon_pair3 (by assumption) ?_) | split | dsimp only | simp only [canon_lit])
theorem canon_corrected (s : State) (loc : ErrLoc) (hc : memoriesCanonical s) : memoriesCanonical (corrected s loc) := by
  unfold corrected
  repeat' (first | with_reducible assumption | (refine canon_coreOf ?_ _) | apply canon_countError | apply canon_freeBool | apply canon_putCore | (refine canon_pair (by assumption) ?_) | (refine canon_pair3 (by assumption) ?_) | split | dsimp only | simp only [canon_lit])
theorem canon_strandLost (s : State) (st : Strand) (hc : memoriesCanonical s) : memoriesCanonical (strandLost s st) := by
  unfold strandLost
  repeat' (first | with_reducible assumption | apply canon_closeHalts | apply canon_enqueueReport | apply canon_updLaunch | apply canon_wakeTeam | apply canon_endTeams | apply canon_dropStrand | (apply canon_foldl; intro a x ha))
theorem canon_uncorrected (s : State) (loc : ErrLoc) (hc : memoriesCanonical s) : memoriesCanonical (uncorrected s loc) := by
  unfold uncorrected
  repeat' (first | with_reducible assumption | (refine canon_coreOf ?_ _) | apply canon_updStrand | apply canon_updTeam | apply canon_putCore | apply canon_strandLost | (refine canon_pair (by assumption) ?_) | (refine canon_pair3 (by assumption) ?_) | split | dsimp only | simp only [canon_lit] | (intro t ht; exact ht))
theorem canon_recordPlace (s : State) (t : Team) (n : ℕ) (hc : memoriesCanonical s) : ∀ r, recordPlace s t n = some r → memoriesCanonical r.2.2 := by
  intro r h
  unfold recordPlace at h
  split at h
  · simp only [Option.some.injEq] at h; rw [← h]; exact hc
  · split at h
    · simp only [Option.some.injEq] at h; rw [← h]; exact canon_lit.mpr hc
    · simp only [Option.map_eq_some_iff] at h
      obtain ⟨a, ha, rfl⟩ := h
      exact canon_allocSys _ _ hc a ha
theorem foldl_memPuts_wf (f : Nat → Nat) (g : Nat → List Byte) (ks : List Nat) (m : List Host.Cell) (h : Memory.wf m = true) :
    Memory.wf (ks.foldl (fun m k => memPuts m (f k) (g k)) m) = true := by
  induction ks generalizing m with
  | nil => exact h
  | cons k ks ih => exact ih _ (memPuts_wf h _ _)
theorem canon_storeRecord (was s : State) (lk : ℕ) (num : ℕ) (hc : memoriesCanonical s) : memoriesCanonical (storeRecord was s lk num) := by
  unfold storeRecord
  split
  · dsimp only
    split
    · exact hc
    · rename_i q
      have h1 := canon_recordPlace _ _ _ hc _ q
      refine canon_devLit (canon_updTeam _ _ _ _ h1 ?_) (foldl_memPuts_wf _ _ _ _ h1.device)
      intro t ht; exact ⟨ht.1, ht.2⟩
  · exact hc
theorem canon_drainLaunch (s : State) (lk : ℕ) (hc : memoriesCanonical s) : memoriesCanonical (drainLaunch s lk) := by
  unfold drainLaunch
  repeat' (first | with_reducible assumption | apply canon_drainThese | (apply canon_foldl; intro a x ha))
theorem canon_departIfSaved (s0 : State) (lk : ℕ) (hc : memoriesCanonical s0) : memoriesCanonical (departIfSaved s0 lk) := by
  unfold departIfSaved
  split
  · split
    · dsimp only
      split
      · exact hc
      · have h := canon_drainLaunch s0 lk hc
        apply canon_updLaunch
        exact ⟨h.device, h.host, fun t ht => h.teams t (List.mem_filter.mp ht).1, h.cores⟩
    · exact hc
  · exact hc
theorem canon_afterSave (s : State) (lk : ℕ) (num : ℕ) (hc : memoriesCanonical s) : memoriesCanonical (afterSave s lk num) := by
  unfold afterSave
  repeat' (first | with_reducible assumption | apply canon_departIfSaved | (refine canon_pair (by assumption) ?_) | (refine canon_pair3 (by assumption) ?_) | split | dsimp only | simp only [canon_lit])
theorem canon_forgetWalks (s : State) (sids : List ℕ) (hc : memoriesCanonical s) : memoriesCanonical (forgetWalks s sids) := by
  unfold forgetWalks
  repeat' (first | with_reducible assumption | (refine canon_pair (by assumption) ?_) | (refine canon_pair3 (by assumption) ?_) | split | dsimp only | simp only [canon_lit])
theorem canon_saveTeam (s : State) (lk : ℕ) (num : ℕ) (mask : ℕ) (hc : memoriesCanonical s) : memoriesCanonical (saveTeam s lk num mask) := by
  unfold saveTeam
  split
  · exact hc
  · extract_lets s1 c s2 s3 mates ts
    have h1 : memoriesCanonical s1 := canon_drainWhere _ _ _ (canon_leaveCore _ _ _ _ hc)
    have h3 : memoriesCanonical s3 := canon_updTeam _ _ _ _ (canon_forgetWalks _ _ (canon_lit.mpr h1)) (fun t ht => ⟨ht.1, ht.2⟩)
    apply canon_afterSave
    apply canon_traceRecord
    apply canon_storeRecord
    refine ⟨h3.device, h3.host, ?_, h3.cores⟩
    intro t ht
    simp only [ts, updWhere, List.mem_map] at ht
    obtain ⟨u, hu, rfl⟩ := ht
    split
    · exact ⟨(h3.teams u hu).1, canon_coreOf h1 _⟩
    · exact h3.teams u hu
theorem canon_saveIfReady (s : State) (lk : ℕ) (num : ℕ) (hc : memoriesCanonical s) : memoriesCanonical (saveIfReady s lk num) := by
  unfold saveIfReady
  repeat' (first | with_reducible assumption | apply canon_saveTeam | (refine canon_pair (by assumption) ?_) | (refine canon_pair3 (by assumption) ?_) | split)
theorem canon_requestGang (s : State) (lk : ℕ) (team : ℕ) (hc : memoriesCanonical s) : memoriesCanonical (requestGang s lk team) := by
  unfold requestGang
  apply canon_foldl
  · intro a x h
    refine canon_updTeam _ _ _ _ h (fun t ht => ?_)
    split
    · exact ⟨ht.1, ht.2⟩
    · exact ht
  · exact hc
theorem canon_loadLine (lk : ℕ) (num : ℕ) (x : RecSection) (off : ℕ) (s : State) (hc : memoriesCanonical s) : ∀ r, loadLine lk num x off s = some r → memoriesCanonical r := by
  intro r h
  have words : ∀ (a : State) (q : Option Strand) (f : Strand → State), memoriesCanonical a → (∀ y, memoriesCanonical (f y)) → memoriesCanonical (match q with | some y => f y | none => a) := by
    intro a q f h hf; cases q with
    | none => exact h
    | some y => exact hf y
  unfold loadLine at h
  dsimp only at h
  split at h
  · simp at h
  · split at h
    · simp at h
    · simp only [Option.some.injEq] at h; rw [← h]
      exact canon_foldl _ _ _ (fun a x ha => words _ _ _ ha (fun y => canon_updStrand _ _ _ ha)) hc
  · split at h
    · simp at h
    · simp only [Option.some.injEq] at h; rw [← h]
      exact canon_foldl _ _ _ (fun a x ha => canon_updStrand _ _ _ ha) hc
  · simp only [Option.some.injEq] at h; rw [← h]
    exact canon_updTeam _ _ _ _ hc (fun t ht => by split <;> exact ⟨ht.1, ht.2⟩)
  · split at h
    · simp at h
    · simp only [Option.some.injEq] at h; rw [← h]
      exact canon_updTeam _ _ _ _ hc (fun t ht => ⟨ht.1, ht.2⟩)
theorem canon_loadRecord (s : State) (t : Team) (hc : memoriesCanonical s) : ∀ r, loadRecord s t = some r → memoriesCanonical r := by
  intro r h
  unfold loadRecord at h
  have F1 : ∀ {α : Type} (xs : List α) (f : Option State → α → Option State) (o : Option State),
      (∀ b x, (∀ r, b = some r → memoriesCanonical r) → ∀ r, f b x = some r → memoriesCanonical r) →
      (∀ r, o = some r → memoriesCanonical r) → ∀ r, xs.foldl f o = some r → memoriesCanonical r := by
    intro α xs
    induction xs with
    | nil => intro f o _ ho r hr; exact ho r hr
    | cons x xs ih => intro f o hf ho r hr; exact ih f _ hf (hf o x ho) r hr
  split at h
  · simp at h
  · split at h
    · simp only [Option.some.injEq] at h; rw [← h]; exact hc
    · refine F1 _ _ _ ?_ (fun r h => by simp only [Option.some.injEq] at h; rw [← h]; exact hc) r h
      intro b e hb
      refine F1 _ _ _ ?_ hb
      intro b l hb r hr
      simp only [Option.bind_eq_some_iff] at hr
      obtain ⟨a, ha, hr⟩ := hr
      exact canon_loadLine _ _ _ _ _ (hb a ha) _ hr
theorem canon_recordFault (s : State) (t : Team) (hc : memoriesCanonical s) : memoriesCanonical (recordFault s t) := by
  unfold recordFault
  repeat' (first | with_reducible assumption | apply canon_enqueueReport | apply canon_killLaunch | apply canon_updLaunch | (apply canon_foldl; intro a x ha))
theorem canon_restoreTeam (s : State) (t : Team) (die : ℕ) (cl : ℕ) (ht : teamCanonical t) (hc : memoriesCanonical s) : memoriesCanonical (restoreTeam s t die cl) := by
  unfold restoreTeam
  extract_lets seat c s1 k s2 s3 s4
  have h1 : memoriesCanonical s1 := canon_claimCore _ _ _ hc
  have h2 : memoriesCanonical s2 := canon_putCore _ _ h1 ht.2
  have h3 : memoriesCanonical s3 := canon_updTeam _ _ _ _ h2 (fun t ht => ⟨ht.1, ht.2⟩)
  exact canon_traceRecord _ _ _ _ _ (canon_lit.mpr h3)
theorem canon_answer (s : State) (r : ℤ) (hc : memoriesCanonical s) : memoriesCanonical (answer s r) := by
  unfold answer
  repeat' (first | with_reducible assumption | (refine canon_pair (by assumption) ?_) | (refine canon_pair3 (by assumption) ?_) | split | dsimp only | simp only [canon_lit])
theorem canon_pend (i : Instr) (s : State) (hc : memoriesCanonical s) : memoriesCanonical (pend i s) := by
  unfold pend
  repeat' (first | with_reducible assumption | (refine canon_pair (by assumption) ?_) | (refine canon_pair3 (by assumption) ?_) | split | dsimp only | simp only [canon_lit])
theorem canon_unpend (i : Instr) (s : State) (hc : memoriesCanonical s) : memoriesCanonical (unpend i s) := by
  unfold unpend
  repeat' (first | with_reducible assumption | (refine canon_pair (by assumption) ?_) | (refine canon_pair3 (by assumption) ?_) | split | dsimp only | simp only [canon_lit])
theorem canon_endLaunches (status : ℕ) (s : State) (p : Launch → Bool) (hc : memoriesCanonical s) : memoriesCanonical (endLaunches status s p) := by
  unfold endLaunches
  exact canon_foldl _ _ _ (fun a x h => canon_writeCompletions _ _ h) (canon_foldl _ _ _ (fun a x h => canon_completeLaunch _ _ h)
    (canon_foldl _ _ _ (fun a x h => canon_killLaunch _ _ _ h) hc))
theorem canon_flushCaches (s : State) (die : ℕ → Bool) (slice : ℕ → Bool) (hc : memoriesCanonical s) : memoriesCanonical (flushCaches s die slice) := by
  unfold flushCaches
  repeat' (first | with_reducible assumption | (refine canon_coreOf ?_ _) | apply canon_writeBackL1 | apply canon_putCore | apply canon_settlePackets | apply canon_dropL2 | (apply canon_foldl; intro a x ha))
theorem canon_rehomeQueue (s : State) (u : UserQ) (hc : memoriesCanonical s) : memoriesCanonical (rehomeQueue s u) := by
  unfold rehomeQueue
  repeat' (first | with_reducible assumption | apply canon_putDie | apply canon_updLaunch | apply canon_updQueue | (apply canon_foldl; intro a x ha) | (refine canon_pair (by assumption) ?_) | (refine canon_pair3 (by assumption) ?_) | split | dsimp only | simp only [canon_lit])
theorem canon_ensurePage (root : ℕ) (c : ℕ) (va : ℕ) (w : Bool) (x : Bool) (s : State) (hc : memoriesCanonical s) : ∀ r, ensurePage root c va w x s = some r → memoriesCanonical r := by
  intro r h
  unfold ensurePage at h
  split at h
  · simp only [Option.some.injEq] at h; rw [← h]; exact canon_setPte _ _ _ hc
  · simp only [Option.bind_eq_some_iff] at h
    obtain ⟨a, ha, h⟩ := h
    exact canon_mapOne _ _ _ _ _ (canon_allocPage _ hc _ ha) _ h
theorem canon_putBytes (c : ℕ) (va : ℕ) (bs : List Byte) (s : State) (hc : memoriesCanonical s) : memoriesCanonical (putBytes c va bs s) := by
  unfold putBytes
  repeat' (first | with_reducible assumption | apply canon_setHome | (apply canon_foldl; intro a x ha) | (refine canon_pair (by assumption) ?_) | (refine canon_pair3 (by assumption) ?_) | split)
theorem canon_loadPiece (root : ℕ) (c : ℕ) (p : Piece) (s : State) (hc : memoriesCanonical s) : ∀ r, loadPiece root c p s = some r → memoriesCanonical r := by
  have H : ∀ (xs : List Nat) (o : Option State), (∀ r, o = some r → memoriesCanonical r) →
      ∀ r, xs.foldl (fun (acc : Option State) k => acc.bind (ensurePage root c (4096 * k) p.w p.x)) o = some r → memoriesCanonical r := by
    intro xs
    induction xs with
    | nil => intro o h r hr; exact h r hr
    | cons x xs ih =>
      intro o h r hr
      apply ih _ _ r hr
      intro t ht
      simp only [Option.bind_eq_some_iff] at ht
      obtain ⟨a, ha, hb⟩ := ht
      exact canon_ensurePage _ _ _ _ _ _ (h a ha) _ hb
  intro r hr
  simp only [loadPiece, Option.map_eq_some_iff] at hr
  obtain ⟨a, ha, rfl⟩ := hr
  apply canon_putBytes
  exact H _ _ (fun r h => by simp only [Option.some.injEq] at h; rw [← h]; exact hc) a ha
theorem canon_loadPieces (root : ℕ) (c : ℕ) (ps : List Piece) (s : State) (hc : memoriesCanonical s) : ∀ r, loadPieces root c ps s = some r → memoriesCanonical r := by
  have H : ∀ (xs : List Piece) (o : Option State), (∀ r, o = some r → memoriesCanonical r) →
      ∀ r, xs.foldl (fun acc p => acc.bind (loadPiece root c p)) o = some r → memoriesCanonical r := by
    intro xs
    induction xs with
    | nil => intro o h r hr; exact h r hr
    | cons x xs ih =>
      intro o h r hr
      apply ih _ _ r hr
      intro t ht
      simp only [Option.bind_eq_some_iff] at ht
      obtain ⟨a, ha, hb⟩ := ht
      exact canon_loadPiece _ _ _ _ (h a ha) _ hb
  intro r hr
  exact H _ _ (fun r h => by simp only [Option.some.injEq] at h; rw [← h]; exact hc) r hr
theorem canon_allocPages (x0 : ℕ) (x1 : State) (hc : memoriesCanonical x1) : ∀ r, allocPages x0 x1 = some r → memoriesCanonical r.2 := by
  intro r h
  induction x0 generalizing x1 r with
  | zero => simp only [allocPages, Option.some.injEq] at h; rw [← h]; exact hc
  | succ n ih =>
    simp only [allocPages, Option.bind_eq_some_iff, Option.map_eq_some_iff] at h
    obtain ⟨a, ha, b, hb, rfl⟩ := h
    exact ih _ (canon_allocPage _ hc _ ha) b hb
theorem canon_imageFor (m : Module) (features : ℕ) (s : State) (hc : memoriesCanonical s) : ∀ r, imageFor m features s = some r → memoriesCanonical r.2 := by
  intro r h
  unfold imageFor at h
  dsimp only at h
  split at h
  · simp only [Option.some.injEq] at h; rw [← h]; exact hc
  · simp only [Option.bind_eq_some_iff, Option.map_eq_some_iff] at h
    obtain ⟨code, _, a, ha, rfl⟩ := h
    have h1 := canon_allocPages _ _ hc _ ha
    refine canon_devLit h1 ?_
    refine List.foldlRecOn (motive := fun m => Memory.wf m = true) _ _ h1.device ?_
    intro m hm x _
    exact memPuts_wf hm _ _
theorem canon_mapImage (root : ℕ) (va : ℕ) (i : CachedImage) (s : State) (hc : memoriesCanonical s) : ∀ r, mapImage root va i s = some r → memoriesCanonical r := by
  unfold mapImage
  refine canon_optFoldl _ _ _ (fun a p t ha ht => ?_) (fun r hr => by simp only [Option.some.injEq] at hr; rw [← hr]; exact hc)
  simp only [Option.map_eq_some_iff] at ht
  obtain ⟨u, hu, rfl⟩ := ht
  exact canon_lit.mpr (canon_mapOne _ _ _ _ _ ha _ hu)
theorem canon_resolved (kdesc : ℕ) (name : List Byte) (s : State) (hc : memoriesCanonical s) : memoriesCanonical (resolved kdesc name s) := by
  unfold resolved
  repeat' (first | with_reducible assumption | (refine canon_pair (by assumption) ?_) | (refine canon_pair3 (by assumption) ?_) | split | dsimp only | simp only [canon_lit])
theorem canon_placeImage (root : ℕ) (c : ℕ) (m : Module) (own : Option ℕ) (s : State) (hc : memoriesCanonical s) : ∀ r, placeImage root c m own s = some r → memoriesCanonical r := by
  intro r h
  unfold placeImage at h
  dsimp only at h
  split at h
  · rename_i q
    simp only [Option.map_eq_some_iff, Option.bind_eq_some_iff] at h
    obtain ⟨a, ⟨b, hb, ha⟩, rfl⟩ := h
    exact canon_updCtx _ _ _ (canon_resolved _ _ _ (canon_loadPiece _ _ _ _ (canon_mapImage _ _ _ _ (canon_imageFor _ _ _ hc _ q) _ hb) _ ha))
  · cases h
theorem canon_loadIof (root : ℕ) (c : ℕ) (f : List Byte) (s : State) (hc : memoriesCanonical s) : ∀ r, loadIof root c f s = some r → memoriesCanonical r := by
  intro r h
  simp only [loadIof, Option.bind_eq_some_iff, Option.map_eq_some_iff] at h
  obtain ⟨s1, h1, a, ha, rfl⟩ := h
  apply canon_updCtx
  have h0 := canon_foldl (fun a d => resolved d.1 ((namesOf f d.2).headD []) a) ((descriptors f).filter (fun d => nativeRuns f d.2)) s1
    (fun a x h => canon_resolved _ _ _ h) (canon_loadPieces _ _ _ _ hc _ h1)
  generalize List.foldl (fun a d => resolved d.1 ((namesOf f d.2).headD []) a) s1 (List.filter (fun d => nativeRuns f d.2) (descriptors f)) = s2 at h0 ha
  revert ha
  generalize modulesOf f = ms
  have start : ∀ r : List Nat × State, some (([] : List Nat), s2) = some r → memoriesCanonical r.2 := fun r h => by simp only [Option.some.injEq] at h; rw [← h]; exact h0
  revert start
  generalize (some (([] : List Nat), s2) : Option (List Nat × State)) = o
  intro ho
  clear h1 h0
  revert a
  induction ms generalizing o with
  | nil => intro a h; exact ho a h
  | cons x xs ih =>
    intro a h
    refine ih _ ?_ a h
    intro t ht
    simp only [Option.bind_eq_some_iff] at ht
    obtain ⟨b, hb, ht⟩ := ht
    split at ht
    · simp only [Option.some.injEq] at ht; rw [← ht]; exact ho b hb
    · split at ht
      · simp only [Option.some.injEq] at ht; rw [← ht]; exact ho b hb
      · split at ht
        · simp only [Option.some.injEq] at ht; rw [← ht]; exact ho b hb
        · simp only [Option.map_eq_some_iff] at ht
          obtain ⟨u, hu, rfl⟩ := ht
          exact canon_placeImage _ _ _ _ _ (ho b hb) _ hu
theorem canon_newContext (s : State) (c : ℕ) (pasid : ℕ) (members : List Member) (hc : memoriesCanonical s) : ∀ r, newContext s c pasid members = some r → memoriesCanonical r := by
  intro r h
  simp only [newContext, Option.bind_eq_some_iff, Option.some.injEq] at h
  obtain ⟨a, ha, b, hb, c', hcc, d, hd, e, he, g, hg, rfl⟩ := h
  have h1 := canon_allocSys _ _ hc _ ha
  have h2 := canon_allocSys _ _ h1 _ hb
  have h3 := canon_allocSys _ _ h2 _ hcc
  have h4 := canon_allocSys _ _ h3 _ hd
  have h5 := canon_allocSys _ _ h4 _ he
  have h6 := canon_allocSys _ _ h5 _ hg
  exact canon_lit.mpr h6
theorem canon_updAttach (s : State) (c : ℕ) (f : Attach → Attach) (hc : memoriesCanonical s) : memoriesCanonical (updAttach s c f) := by
  unfold updAttach
  repeat' (first | with_reducible assumption | (refine canon_pair (by assumption) ?_) | (refine canon_pair3 (by assumption) ?_) | split | dsimp only | simp only [canon_lit])
theorem canon_observed (s : State) (what : String) (vals : List ℕ) (hc : memoriesCanonical s) : memoriesCanonical (observed s what vals) := by
  unfold observed
  repeat' (first | with_reducible assumption | (refine canon_pair (by assumption) ?_) | (refine canon_pair3 (by assumption) ?_) | split | dsimp only | simp only [canon_lit])
theorem canon_wakeHalted (s : State) (c : ℕ) (hc : memoriesCanonical s) : memoriesCanonical (wakeHalted s c) := by
  unfold wakeHalted
  repeat' (first | with_reducible assumption | apply canon_wakeJoins | (apply canon_foldl; intro a x ha))
theorem canon_endHalt (s : State) (c : ℕ) (stop : ℕ) (stepping : Bool) (hc : memoriesCanonical s) : memoriesCanonical (endHalt s c stop stepping) := by
  unfold endHalt
  repeat' (first | with_reducible assumption | apply canon_putStrand | apply canon_closeHalt | apply canon_wakeHalted | apply canon_updAttach | (apply canon_foldl; intro a x ha) | (refine canon_pair (by assumption) ?_) | (refine canon_pair3 (by assumption) ?_) | split)
theorem canon_rdmaReply (s : State) (conn : ℕ) (what : String) (vals : List ℕ) (hc : memoriesCanonical s) : memoriesCanonical (rdmaReply s conn what vals) := by
  unfold rdmaReply
  repeat' (first | with_reducible assumption | (refine canon_pair (by assumption) ?_) | (refine canon_pair3 (by assumption) ?_) | split | dsimp only | simp only [canon_lit])
theorem canon_withPages (s : State) (rkey : ℕ) (va : ℕ) (n : ℕ) (hc : memoriesCanonical s) : memoriesCanonical (withPages s rkey va n) := by
  unfold withPages
  repeat' (first | with_reducible assumption | apply canon_bringIn | (refine canon_pair (by assumption) ?_) | (refine canon_pair3 (by assumption) ?_) | split)
theorem canon_remoteStore (s : State) (w : Window) (conn : ℕ) (va : ℕ) (data : List Byte) (hc : memoriesCanonical s) : memoriesCanonical (remoteStore s w conn va data) := by
  unfold remoteStore
  repeat' (first | with_reducible assumption | apply canon_vWrite | (refine canon_pair (by assumption) ?_) | (refine canon_pair3 (by assumption) ?_) | split)
theorem canon_marked (s : State) (conn : ℕ) (hc : memoriesCanonical s) : memoriesCanonical (marked s conn) := by
  unfold marked
  repeat' (first | with_reducible assumption | apply canon_freeBool | apply canon_rdmaReply | (refine canon_pair (by assumption) ?_) | (refine canon_pair3 (by assumption) ?_) | split)
theorem canon_takesRequests (s : State) (f : State → State) (hf : ∀ a, memoriesCanonical a → memoriesCanonical (f a)) (hc : memoriesCanonical s) : memoriesCanonical (takesRequests s f) := by
  unfold takesRequests; split
  · exact hf _ hc
  · exact hc
theorem canon_setClocks (s : State) (mhz : ℕ) (hc : memoriesCanonical s) : memoriesCanonical (setClocks s mhz) := by
  unfold setClocks
  repeat' (first | with_reducible assumption | (refine canon_pair (by assumption) ?_) | (refine canon_pair3 (by assumption) ?_) | split | dsimp only | simp only [canon_lit])
theorem canon_startMboelaor (s : State) (img : List Byte) (hc : memoriesCanonical s) : memoriesCanonical (startMboelaor s img) := by
  unfold startMboelaor
  dsimp only
  exact canon_foldl _ _ _ (fun a x h => canon_putBdie _ _ h) (canon_setClocks _ _ (canon_lit.mpr hc))
theorem canon_haltBoot (s : State) (b : Boot) (code : ℕ) (hc : memoriesCanonical s) : memoriesCanonical (haltBoot s b code) := by
  unfold haltBoot
  repeat' (first | with_reducible assumption | (refine canon_pair (by assumption) ?_) | (refine canon_pair3 (by assumption) ?_) | split | dsimp only | simp only [canon_lit])
theorem canon_fromStage1 (s : State) (img : List Byte) (hc : memoriesCanonical s) : memoriesCanonical (fromStage1 s img) := by
  unfold fromStage1
  dsimp only
  split
  · exact canon_haltBoot _ _ _ (canon_lit.mpr hc)
  · split
    · exact canon_haltBoot _ _ _ (canon_lit.mpr hc)
    · split
      · exact canon_startMboelaor _ _ (canon_lit.mpr hc)
      · exact canon_haltBoot _ _ _ (canon_lit.mpr hc)
theorem canon_reply (s : State) (what : String) (vals : List ℕ) (hc : memoriesCanonical s) : memoriesCanonical (reply s what vals) := by
  unfold reply
  repeat' (first | with_reducible assumption | (refine canon_pair (by assumption) ?_) | (refine canon_pair3 (by assumption) ?_) | split | dsimp only | simp only [canon_lit])
theorem canon_killKeyed (s : State) (c : ℕ) (hc : memoriesCanonical s) : memoriesCanonical (killKeyed s c) := by
  unfold killKeyed
  repeat' (first | with_reducible assumption | apply canon_enqueueReport | apply canon_endLaunches)
theorem canon_unlockNow (s : State) (hc : memoriesCanonical s) : memoriesCanonical (unlockNow s) := by
  unfold unlockNow
  repeat' (first | with_reducible assumption | apply canon_killKeyed | apply canon_reply | (apply canon_foldl; intro a x ha) | (refine canon_pair (by assumption) ?_) | (refine canon_pair3 (by assumption) ?_) | split | dsimp only | simp only [canon_lit])
theorem canon_countAnswer (s : State) (p : SpdmPort) (hc : memoriesCanonical s) : memoriesCanonical (countAnswer s p) := by
  unfold countAnswer
  repeat' (first | with_reducible assumption | (refine canon_pair (by assumption) ?_) | (refine canon_pair3 (by assumption) ?_) | split | dsimp only | simp only [canon_lit])
theorem canon_benchUntil (core : ℕ) (x1 : List ℕ) (x2 : State) (hc : memoriesCanonical x2) : memoriesCanonical (benchUntil core x1 x2) := by
  induction x1 generalizing x2 with
  | nil => exact hc
  | cons i r ih =>
    simp only [benchUntil]
    split
    · exact hc
    · exact ih _ (canon_updStrand _ _ _ hc)
theorem canon_benchExcess (s : State) (core : ℕ) (hc : memoriesCanonical s) : memoriesCanonical (benchExcess s core) := by
  unfold benchExcess
  repeat' (first | with_reducible assumption | with_reducible apply canon_benchUntil | (with_reducible refine canon_pair (by assumption) ?_) | (with_reducible refine canon_pair3 (by assumption) ?_) | split)
theorem canon_seat (s : State) (st : Strand) (hc : memoriesCanonical s) : memoriesCanonical (seat s st) := by
  unfold seat
  repeat' (first | with_reducible assumption | with_reducible apply canon_updStrand | with_reducible apply canon_benchUntil | (with_reducible refine canon_pair (by assumption) ?_) | (with_reducible refine canon_pair3 (by assumption) ?_) | split | dsimp only)
theorem canon_arrivedQueue (c : ℕ) (q : ℕ) (u : UserQ) (s : State) (hc : memoriesCanonical s) : memoriesCanonical (arrivedQueue c q u s) := by
  unfold arrivedQueue
  repeat' (first | with_reducible assumption | apply canon_putDie | (apply canon_foldl; intro a x ha) | (refine canon_pair (by assumption) ?_) | (refine canon_pair3 (by assumption) ?_) | split | dsimp only | simp only [canon_lit])
theorem canon_mapHost (root : ℕ) (ps : List (Nat × Bool × Bool)) (s : State) (hc : memoriesCanonical s) : ∀ r, mapHost root ps s = some r → memoriesCanonical r := by
  have H : ∀ (xs : List (Nat × Bool × Bool)) (o : Option State), (∀ r, o = some r → memoriesCanonical r) →
      ∀ r, xs.foldl (fun (acc : Option State) p => acc.bind (mapOne root (p.1 * 4096) (hostLeafBits p.2.1 p.2.2) false)) o = some r → memoriesCanonical r := by
    intro xs
    induction xs with
    | nil => intro o h; exact h
    | cons x xs ih =>
      intro o h
      rw [List.foldl_cons]
      refine ih _ fun r hr => ?_
      simp only [Option.bind_eq_some_iff] at hr
      obtain ⟨b, hb, hr⟩ := hr
      exact canon_mapOne _ _ _ _ _ (h _ hb) _ hr
  refine H ps (some s) ?_
  rintro r hr
  obtain rfl := Option.some.inj hr
  exact hc
theorem canon_arrive (s : State) (a : Arrival) (hc : memoriesCanonical s) : memoriesCanonical (arrive s a) := by
  unfold arrive
  split
  · exact hc
  · split
    · split
      · exact hc
      · rename_i c q _ _ _ s1 e
        simp only [Option.bind_eq_some_iff] at e
        obtain ⟨b, hb, d, hd, h⟩ := e
        have h0 := canon_fresh _ (canon_arrivedQueue c q a.ring _ (canon_mapHost _ _ _ (canon_loadPieces _ _ _ _ (canon_newContext _ _ _ _ hc _ hb) _ hd) _ h))
        have h1 : ∀ (b : Bool) (d : Nat) (f : QueueReg → QueueReg), memoriesCanonical (if b then (fresh (arrivedQueue c q a.ring s1)).2 else updQueue (fresh (arrivedQueue c q a.ring s1)).2 d q f) := by
          intro b d f
          split
          · exact h0
          · exact canon_updQueue _ _ _ _ h0
        refine ⟨(h1 _ _ _).device, (h1 _ _ _).host, ?_, (h1 _ _ _).cores⟩
        intro t ht
        rcases List.mem_append.mp ht with ht | ht
        · exact (h1 _ _ _).teams t ht
        · obtain ⟨u, _, rfl⟩ := List.mem_map.mp ht
          exact ⟨foldl_memPut_wf _ _ rfl, foldl_memPut_wf _ _ rfl⟩
    · exact hc
theorem canon_withoutMemory (s : State) (hc : memoriesCanonical s) : memoriesCanonical (withoutMemory s) := by
  unfold withoutMemory
  repeat' (first | with_reducible assumption | (refine canon_pair (by assumption) ?_) | (refine canon_pair3 (by assumption) ?_) | split | dsimp only | simp only [canon_lit])
theorem canon_arrivals (s0 : State) (hc : memoriesCanonical s0) : memoriesCanonical (arrivals s0) := by
  unfold arrivals
  repeat' (first | with_reducible assumption | apply canon_arrive | (refine canon_pair (by assumption) ?_) | (refine canon_pair3 (by assumption) ?_) | split | dsimp only | simp only [canon_lit])
theorem canon_tick (s : State) (hc : memoriesCanonical s) : memoriesCanonical (tick s) := by
  unfold tick
  apply canon_arrivals
  refine ⟨hc.device, hc.host, ?_, hc.cores⟩
  intro t ht
  simp only [List.mem_map] at ht
  obtain ⟨u, hu, rfl⟩ := ht
  split
  · exact ⟨(hc.teams u hu).1, (hc.teams u hu).2⟩
  · exact hc.teams u hu
theorem canon_departures (s : State) (hc : memoriesCanonical s) : memoriesCanonical (departures s) := by
  unfold departures
  repeat' (first | with_reducible assumption | apply canon_departIfSaved | (apply canon_foldl; intro a x ha))
theorem canon_seatUrgent (core : ℕ) (s : State) (hc : memoriesCanonical s) : memoriesCanonical (seatUrgent core s) := by
  unfold seatUrgent
  repeat' (first | with_reducible assumption | apply canon_seat | split)
theorem canon_settled (s0 : State) (hc : memoriesCanonical s0) : memoriesCanonical (settled s0) := by
  unfold settled
  repeat' (first | with_reducible assumption | apply canon_seatUrgent | apply canon_unlockNow | apply canon_departures | apply canon_wakeStalls | apply canon_drainPassed | apply canon_wakeJoins | apply canon_benchExcess | (apply canon_foldl; intro a x ha))
theorem canon_nextPort (s : State) (hc : memoriesCanonical s) : memoriesCanonical (nextPort s).2 := by
  unfold nextPort
  repeat' (first | with_reducible assumption | (refine canon_pair (by assumption) ?_) | (refine canon_pair3 (by assumption) ?_) | split | dsimp only | simp only [canon_lit])
theorem canon_takeSlot (s : State) (core : ℕ) (part : ℕ) (port : ℕ) (st : Strand) (hc : memoriesCanonical s) : memoriesCanonical (takeSlot s core part port st) := by
  unfold takeSlot
  repeat' (first | with_reducible assumption | apply canon_putPart | apply canon_seat | (refine canon_pair (by assumption) ?_) | (refine canon_pair3 (by assumption) ?_) | split | dsimp only | simp only [canon_lit])
theorem canon_haltStepped (s : State) (others : List ℕ) (hc : memoriesCanonical s) : memoriesCanonical (haltStepped s others) := by
  unfold haltStepped
  repeat' (first | with_reducible assumption | apply canon_debugHalt | (apply canon_foldl; intro a x ha))
theorem canon_holdPort (s : State) (core : ℕ) (part : ℕ) (port : ℕ) (hc : memoriesCanonical s) : memoriesCanonical (holdPort s core part port) := by
  unfold holdPort
  repeat' (first | with_reducible assumption | apply canon_putPart)
theorem canon_settle (core : ℕ) (part : ℕ) (port : ℕ) (sid : ℕ) (others : List ℕ) (b : Bool) (s : State) (hc : memoriesCanonical s) : memoriesCanonical (settle core part port sid others b s) := by
  unfold settle
  repeat' (first | with_reducible assumption | apply canon_holdPort | apply canon_freePort | apply canon_haltStepped | (refine canon_pair (by assumption) ?_) | (refine canon_pair3 (by assumption) ?_) | split | dsimp only | simp only [canon_lit])

end Sys2Proof.Machine
end

