-- ==== Sys2Proof/Laws/CanonExec.lean ====
section
/-! SUPPORT. Every meaning keeps every memory in canonical form: one lemma per meaning, canon_<meaning>. -/

namespace Sys2Proof.Machine

/-- Of an answer: the next state, where there is one, has every memory in canonical form. -/
structure keepsCanon (r : Res) : Prop where
  next : ∀ t, r = .next t → memoriesCanonical t

theorem canon_team {t u : Team} (h : teamCanonical t) (a : u.scratch = t.scratch) (b : u.wsave = t.wsave) : teamCanonical u := ⟨a ▸ h.1, b ▸ h.2⟩
theorem canon_negotiatedFirst (s : State) (r : State × String × List Nat) (h : memoriesCanonical s) (hr : memoriesCanonical r.1) :
    memoriesCanonical (negotiatedFirst s r).1 := by
  unfold negotiatedFirst; split
  · exact hr
  · exact h

theorem canon_next {s : State} (h : memoriesCanonical s) : keepsCanon (.next s) := by
  constructor; intro t e; simp only [Host.Outcome.next.injEq] at e; rw [← e]; exact h
theorem canon_fault (f : Fault) : keepsCanon (.fault f) := by constructor; intro t e; cases e
theorem canon_refused (f : Refusal) : keepsCanon (.refused f) := by constructor; intro t e; cases e
theorem canon_finish {s : State} (h : memoriesCanonical s) : keepsCanon (finish s) := by
  unfold finish; split
  · exact canon_fault _
  · exact canon_next h
theorem canon_ticked {r : Res} (h : keepsCanon r) : keepsCanon (ticked r) := by
  unfold ticked; split
  · exact canon_next (canon_tick _ (canon_settled _ (h.next _ rfl)))
  · exact h
theorem canon_foldlMem {α : Type} (f : State → α → State) (xs : List α) (s : State) (h : ∀ a, ∀ x ∈ xs, memoriesCanonical a → memoriesCanonical (f a x)) (hs : memoriesCanonical s) :
    memoriesCanonical (xs.foldl f s) := by
  induction xs generalizing s with
  | nil => exact hs
  | cons x r ih => exact ih _ (fun a y hy => h a y (List.mem_cons_of_mem _ hy)) (h _ _ (by simp) hs)
theorem mem_together (s : State) (c n : Nat) (ts : List Team) (h : ∀ x ∈ ts, x ∈ s.teams) : ∀ x ∈ together s c n ts, x ∈ s.teams := by
  induction n generalizing ts with
  | zero => exact h
  | succ n ih =>
    simp only [together]
    split
    · exact h
    · exact ih _ (fun x hx => (List.mem_filter.mp hx).1)
theorem canon_onCur (s : State) (f : Strand → State) (hf : ∀ a, memoriesCanonical (f a)) (hc : memoriesCanonical s) : keepsCanon (onCur s f) := by
  unfold onCur
  repeat' (first | with_reducible assumption | with_reducible apply canon_finish | with_reducible apply canon_next | with_reducible apply canon_fault | with_reducible apply canon_refused | with_reducible apply canon_negotiatedFirst | (with_reducible refine canon_pair (by assumption) ?_) | (with_reducible refine canon_pair3 (by assumption) ?_) | split | dsimp only | simp only [canon_lit] | with_reducible apply hf)
theorem canon_regFrame (h : Hdr) (len : ℕ) (srcs : List Opnd) (dests : List ℕ) (stack : Bool) (f : State → Strand → State) (s : State) (hf : ∀ a y0, memoriesCanonical a → memoriesCanonical (f a y0)) (hc : memoriesCanonical s) : keepsCanon (regFrame h len srcs dests stack f s) := by
  unfold regFrame
  repeat' (first | with_reducible assumption | with_reducible apply canon_finish | with_reducible apply canon_next | with_reducible apply canon_fault | with_reducible apply canon_refused | with_reducible apply canon_negotiatedFirst | with_reducible apply canon_onCur | with_reducible apply canon_waitFor | with_reducible apply canon_withoutPoison | (with_reducible refine canon_pair (by assumption) ?_) | (with_reducible refine canon_pair3 (by assumption) ?_) | split | dsimp only | simp only [canon_lit] | with_reducible apply hf | (with_reducible refine canon_team (by assumption) ?_ ?_) | with_reducible rfl | intro)
theorem canon_vop (h : Hdr) (len : ℕ) (d : ℕ) (n : ℕ) (srcs : List Opnd) (g : List ℕ → ℕ) (s : State) (hc : memoriesCanonical s) : keepsCanon (vop h len d n srcs g s) := by
  unfold vop
  repeat' (first | with_reducible assumption | with_reducible apply canon_finish | with_reducible apply canon_next | with_reducible apply canon_fault | with_reducible apply canon_refused | with_reducible apply canon_negotiatedFirst | with_reducible apply canon_regFrame | with_reducible apply canon_commit | (with_reducible refine canon_pair (by assumption) ?_) | (with_reducible refine canon_pair3 (by assumption) ?_) | split | dsimp only | simp only [canon_lit] | (with_reducible refine canon_team (by assumption) ?_ ?_) | with_reducible rfl | intro)
theorem canon_strandFrame (h : Hdr) (len : ℕ) (rs : List ℕ) (teamScoped : Bool) (stack : Bool) (f : State → Strand → State) (s : State) (hf : ∀ a y0, memoriesCanonical a → memoriesCanonical (f a y0)) (hc : memoriesCanonical s) : keepsCanon (strandFrame h len rs teamScoped stack f s) := by
  unfold strandFrame
  repeat' (first | with_reducible assumption | with_reducible apply canon_finish | with_reducible apply canon_next | with_reducible apply canon_fault | with_reducible apply canon_refused | with_reducible apply canon_negotiatedFirst | with_reducible apply canon_onCur | with_reducible apply canon_waitFor | with_reducible apply canon_trapWhole | with_reducible apply canon_advance | with_reducible apply canon_placementCut | with_reducible apply canon_withoutPoison | (with_reducible refine canon_pair (by assumption) ?_) | (with_reducible refine canon_pair3 (by assumption) ?_) | split | dsimp only | simp only [canon_lit] | with_reducible apply hf | (with_reducible refine canon_team (by assumption) ?_ ?_) | with_reducible rfl | intro)
theorem canon_waitFrame (h : Hdr) (f : State → Strand → State) (s : State) (hf : ∀ a y0, memoriesCanonical a → memoriesCanonical (f a y0)) (hc : memoriesCanonical s) : keepsCanon (waitFrame h f s) := by
  unfold waitFrame
  repeat' (first | with_reducible assumption | with_reducible apply canon_finish | with_reducible apply canon_next | with_reducible apply canon_fault | with_reducible apply canon_refused | with_reducible apply canon_negotiatedFirst | with_reducible apply canon_onCur | with_reducible apply canon_waitFor | with_reducible apply canon_trapWhole | with_reducible apply canon_endRun | with_reducible apply canon_advance | (with_reducible refine canon_pair (by assumption) ?_) | (with_reducible refine canon_pair3 (by assumption) ?_) | split | dsimp only | simp only [canon_lit] | with_reducible apply hf | (with_reducible refine canon_team (by assumption) ?_ ?_) | with_reducible rfl | intro)
theorem canon_transferFrame (h : Hdr) (f : State → Strand → State) (s : State) (hf : ∀ a y0, memoriesCanonical a → memoriesCanonical (f a y0)) (hc : memoriesCanonical s) : keepsCanon (transferFrame h f s) := by
  unfold transferFrame
  repeat' (first | with_reducible assumption | with_reducible apply canon_finish | with_reducible apply canon_next | with_reducible apply canon_fault | with_reducible apply canon_refused | with_reducible apply canon_negotiatedFirst | with_reducible apply canon_onCur | with_reducible apply canon_waitFor | (with_reducible refine canon_pair (by assumption) ?_) | (with_reducible refine canon_pair3 (by assumption) ?_) | split | dsimp only | simp only [canon_lit] | with_reducible apply hf | (with_reducible refine canon_team (by assumption) ?_ ?_) | with_reducible rfl | intro)
theorem canon_execBr (h : Hdr) (off : Word) (s : State) (hc : memoriesCanonical s) : keepsCanon (execBr h off s) := by
  unfold execBr
  repeat' (first | with_reducible assumption | with_reducible apply canon_finish | with_reducible apply canon_next | with_reducible apply canon_fault | with_reducible apply canon_refused | with_reducible apply canon_negotiatedFirst | with_reducible apply canon_transferFrame | with_reducible apply canon_transfer | (with_reducible refine canon_pair (by assumption) ?_) | (with_reducible refine canon_pair3 (by assumption) ?_) | split | dsimp only | simp only [canon_lit] | (with_reducible refine canon_team (by assumption) ?_ ?_) | with_reducible rfl | intro)
theorem canon_execCall (h : Hdr) (off : Word) (s : State) (hc : memoriesCanonical s) : keepsCanon (execCall h off s) := by
  unfold execCall
  repeat' (first | with_reducible assumption | with_reducible apply canon_finish | with_reducible apply canon_next | with_reducible apply canon_fault | with_reducible apply canon_refused | with_reducible apply canon_negotiatedFirst | with_reducible apply canon_transferFrame | with_reducible apply canon_callTrap | with_reducible apply canon_transfer | (with_reducible refine canon_pair (by assumption) ?_) | (with_reducible refine canon_pair3 (by assumption) ?_) | split | dsimp only | simp only [canon_lit] | (with_reducible refine canon_team (by assumption) ?_ ?_) | with_reducible rfl | intro)
theorem canon_execRet (h : Hdr) (s : State) (hc : memoriesCanonical s) : keepsCanon (execRet h s) := by
  unfold execRet
  repeat' (first | with_reducible assumption | with_reducible apply canon_finish | with_reducible apply canon_next | with_reducible apply canon_fault | with_reducible apply canon_refused | with_reducible apply canon_negotiatedFirst | with_reducible apply canon_transferFrame | with_reducible apply canon_callTrap | with_reducible apply canon_transfer | (with_reducible refine canon_pair (by assumption) ?_) | (with_reducible refine canon_pair3 (by assumption) ?_) | split | dsimp only | simp only [canon_lit] | (with_reducible refine canon_team (by assumption) ?_ ?_) | with_reducible rfl | intro)
theorem canon_execBrw (h : Hdr) (w : BitVec 4) (level : R11) (off : Word) (s : State) (hc : memoriesCanonical s) : keepsCanon (execBrw h w level off s) := by
  unfold execBrw
  repeat' (first | with_reducible assumption | with_reducible apply canon_finish | with_reducible apply canon_next | with_reducible apply canon_fault | with_reducible apply canon_refused | with_reducible apply canon_negotiatedFirst | with_reducible apply canon_transferFrame | with_reducible apply canon_transfer | (with_reducible refine canon_pair (by assumption) ?_) | (with_reducible refine canon_pair3 (by assumption) ?_) | split | dsimp only | simp only [canon_lit] | (with_reducible refine canon_team (by assumption) ?_ ?_) | with_reducible rfl | intro)
theorem canon_execBrx (h : Hdr) (a : R11) (s : State) (hc : memoriesCanonical s) : keepsCanon (execBrx h a s) := by
  unfold execBrx
  repeat' (first | with_reducible assumption | with_reducible apply canon_finish | with_reducible apply canon_next | with_reducible apply canon_fault | with_reducible apply canon_refused | with_reducible apply canon_negotiatedFirst | with_reducible apply canon_regFrame | with_reducible apply canon_trapWhole | with_reducible apply canon_advance | with_reducible apply canon_transfer | with_reducible apply canon_asIfX | with_reducible apply canon_brxSplit | (with_reducible refine canon_pair (by assumption) ?_) | (with_reducible refine canon_pair3 (by assumption) ?_) | split | dsimp only | simp only [canon_lit] | (with_reducible refine canon_team (by assumption) ?_ ?_) | with_reducible rfl | intro)
theorem canon_execExit (h : Hdr) (s : State) (hc : memoriesCanonical s) : keepsCanon (execExit h s) := by
  unfold execExit
  repeat' (first | with_reducible assumption | with_reducible apply canon_finish | with_reducible apply canon_next | with_reducible apply canon_fault | with_reducible apply canon_refused | with_reducible apply canon_negotiatedFirst | with_reducible apply canon_transferFrame | with_reducible apply canon_advance | with_reducible apply canon_retire | with_reducible apply canon_endRun | (with_reducible refine canon_pair (by assumption) ?_) | (with_reducible refine canon_pair3 (by assumption) ?_) | split | dsimp only | simp only [canon_lit] | (with_reducible refine canon_team (by assumption) ?_ ?_) | with_reducible rfl | intro)
theorem canon_execNop (_h : Hdr) (s : State) (hc : memoriesCanonical s) : keepsCanon (execNop _h s) := by
  unfold execNop
  repeat' (first | with_reducible assumption | with_reducible apply canon_finish | with_reducible apply canon_next | with_reducible apply canon_fault | with_reducible apply canon_refused | with_reducible apply canon_negotiatedFirst | with_reducible apply canon_onCur | with_reducible apply canon_advance | (with_reducible refine canon_pair (by assumption) ?_) | (with_reducible refine canon_pair3 (by assumption) ?_) | split | dsimp only | simp only [canon_lit] | (with_reducible refine canon_team (by assumption) ?_ ?_) | with_reducible rfl | intro)
theorem canon_execEnrol (h : Hdr) (j : BitVec 4) (s : State) (hc : memoriesCanonical s) : keepsCanon (execEnrol h j s) := by
  unfold execEnrol
  repeat' (first | with_reducible assumption | with_reducible apply canon_finish | with_reducible apply canon_next | with_reducible apply canon_fault | with_reducible apply canon_refused | with_reducible apply canon_negotiatedFirst | with_reducible apply canon_strandFrame | with_reducible apply canon_fresh | with_reducible apply canon_updStrand | with_reducible apply canon_wakeTeam | (with_reducible refine canon_pair (by assumption) ?_) | (with_reducible refine canon_pair3 (by assumption) ?_) | split | dsimp only | simp only [canon_lit] | (with_reducible refine canon_team (by assumption) ?_ ?_) | with_reducible rfl | intro)
theorem canon_execJoinw (h : Hdr) (j : BitVec 4) (lo : R11) (hi : R11) (s : State) (hc : memoriesCanonical s) : keepsCanon (execJoinw h j lo hi s) := by
  unfold execJoinw
  repeat' (first | with_reducible assumption | with_reducible apply canon_finish | with_reducible apply canon_next | with_reducible apply canon_fault | with_reducible apply canon_refused | with_reducible apply canon_negotiatedFirst | with_reducible apply canon_waitFrame | with_reducible apply canon_wakeTeam | with_reducible apply canon_blockOn | with_reducible apply canon_performLoads | (with_reducible refine canon_pair (by assumption) ?_) | (with_reducible refine canon_pair3 (by assumption) ?_) | split | dsimp only | simp only [canon_lit] | (with_reducible refine canon_team (by assumption) ?_ ?_) | with_reducible rfl | intro)
theorem canon_execBar (h : Hdr) (gang : Bool) (k : BitVec 4) (s : State) (hc : memoriesCanonical s) : keepsCanon (execBar h gang k s) := by
  unfold execBar
  repeat' (first | with_reducible assumption | with_reducible apply canon_finish | with_reducible apply canon_next | with_reducible apply canon_fault | with_reducible apply canon_refused | with_reducible apply canon_negotiatedFirst | with_reducible apply canon_strandFrame | with_reducible apply canon_performLoads | with_reducible apply canon_publish | with_reducible apply canon_endRun | with_reducible apply canon_wakeTeam | with_reducible apply canon_blockOn | (with_reducible apply canon_foldl; intro a x ha) | (with_reducible refine canon_pair (by assumption) ?_) | (with_reducible refine canon_pair3 (by assumption) ?_) | split | dsimp only | simp only [canon_lit] | (with_reducible refine canon_team (by assumption) ?_ ?_) | with_reducible rfl | intro)
theorem canon_execWaitc (h : Hdr) (l : R11) (sc : R11) (c : R11) (t : R11) (s : State) (hc : memoriesCanonical s) : keepsCanon (execWaitc h l sc c t s) := by
  unfold execWaitc
  repeat' (first | with_reducible assumption | with_reducible apply canon_finish | with_reducible apply canon_next | with_reducible apply canon_fault | with_reducible apply canon_refused | with_reducible apply canon_negotiatedFirst | with_reducible apply canon_waitFrame | with_reducible apply canon_waitcComplete | with_reducible apply canon_blockOn | (with_reducible refine canon_pair (by assumption) ?_) | (with_reducible refine canon_pair3 (by assumption) ?_) | split | dsimp only | simp only [canon_lit] | (with_reducible refine canon_team (by assumption) ?_ ?_) | with_reducible rfl | intro)
theorem canon_execYieldI (h : Hdr) (s : State) (hc : memoriesCanonical s) : keepsCanon (execYieldI h s) := by
  unfold execYieldI
  repeat' (first | with_reducible assumption | with_reducible apply canon_finish | with_reducible apply canon_next | with_reducible apply canon_fault | with_reducible apply canon_refused | with_reducible apply canon_negotiatedFirst | with_reducible apply canon_strandFrame | with_reducible apply canon_endRun | with_reducible apply canon_blockOn | with_reducible apply canon_advance | (with_reducible refine canon_pair (by assumption) ?_) | (with_reducible refine canon_pair3 (by assumption) ?_) | split | dsimp only | simp only [canon_lit] | (with_reducible refine canon_team (by assumption) ?_ ?_) | with_reducible rfl | intro)
theorem canon_execWbind (h : Hdr) (w : BitVec 4) (d : BitVec 5) (s : State) (hc : memoriesCanonical s) : keepsCanon (execWbind h w d s) := by
  unfold execWbind
  repeat' (first | with_reducible assumption | with_reducible apply canon_finish | with_reducible apply canon_next | with_reducible apply canon_fault | with_reducible apply canon_refused | with_reducible apply canon_negotiatedFirst | with_reducible apply canon_strandFrame | with_reducible apply canon_stallStrand | with_reducible apply canon_readSlot | with_reducible apply canon_updStrand | (with_reducible refine canon_pair (by assumption) ?_) | (with_reducible refine canon_pair3 (by assumption) ?_) | split | dsimp only | simp only [canon_lit] | (with_reducible refine canon_team (by assumption) ?_ ?_) | with_reducible rfl | intro)
theorem canon_execExitWaitDone (sid : ℕ) (s : State) (hc : memoriesCanonical s) : keepsCanon (execExitWaitDone sid s) := by
  unfold execExitWaitDone
  repeat' (first | with_reducible assumption | with_reducible apply canon_finish | with_reducible apply canon_next | with_reducible apply canon_fault | with_reducible apply canon_refused | with_reducible apply canon_negotiatedFirst | with_reducible apply canon_exitDone | (with_reducible refine canon_pair (by assumption) ?_) | (with_reducible refine canon_pair3 (by assumption) ?_) | split)
theorem canon_execYieldExpiry (sid : ℕ) (s : State) (hc : memoriesCanonical s) : keepsCanon (execYieldExpiry sid s) := by
  unfold execYieldExpiry
  repeat' (first | with_reducible assumption | with_reducible apply canon_finish | with_reducible apply canon_next | with_reducible apply canon_fault | with_reducible apply canon_refused | with_reducible apply canon_negotiatedFirst | with_reducible apply canon_updStrand)
theorem canon_execRunLimit (core : ℕ) (part : ℕ) (port : ℕ) (s : State) (hc : memoriesCanonical s) : keepsCanon (execRunLimit core part port s) := by
  unfold execRunLimit
  repeat' (first | with_reducible assumption | with_reducible apply canon_finish | with_reducible apply canon_next | with_reducible apply canon_fault | with_reducible apply canon_refused | with_reducible apply canon_negotiatedFirst | with_reducible apply canon_freePort | (with_reducible refine canon_pair (by assumption) ?_) | (with_reducible refine canon_pair3 (by assumption) ?_) | split)
theorem canon_execStrandUrgent (sid : ℕ) (s : State) (hc : memoriesCanonical s) : keepsCanon (execStrandUrgent sid s) := by
  unfold execStrandUrgent
  repeat' (first | with_reducible assumption | with_reducible apply canon_finish | with_reducible apply canon_next | with_reducible apply canon_fault | with_reducible apply canon_refused | with_reducible apply canon_negotiatedFirst | with_reducible apply canon_updStrand)
theorem canon_execOpportunisticMerge (a : ℕ) (b : ℕ) (s : State) (hc : memoriesCanonical s) : keepsCanon (execOpportunisticMerge a b s) := by
  unfold execOpportunisticMerge
  repeat' (first | with_reducible assumption | with_reducible apply canon_finish | with_reducible apply canon_next | with_reducible apply canon_fault | with_reducible apply canon_refused | with_reducible apply canon_negotiatedFirst | with_reducible apply canon_dropStrand | with_reducible apply canon_putStrand | (with_reducible refine canon_pair (by assumption) ?_) | (with_reducible refine canon_pair3 (by assumption) ?_) | split | dsimp only)
theorem canon_pushOp (h : Hdr) (len : ℕ) (srcs : List Opnd) (p : List ℕ → Bool) (s : State) (hc : memoriesCanonical s) : keepsCanon (pushOp h len srcs p s) := by
  unfold pushOp
  repeat' (first | with_reducible assumption | with_reducible apply canon_finish | with_reducible apply canon_next | with_reducible apply canon_fault | with_reducible apply canon_refused | with_reducible apply canon_negotiatedFirst | with_reducible apply canon_regFrame | with_reducible apply canon_commit | (with_reducible refine canon_pair (by assumption) ?_) | (with_reducible refine canon_pair3 (by assumption) ?_) | split | dsimp only | simp only [canon_lit] | (with_reducible refine canon_team (by assumption) ?_ ?_) | with_reducible rfl | intro)
theorem canon_popOp (h : Hdr) (len : ℕ) (n : ℕ) (s : State) (hc : memoriesCanonical s) : keepsCanon (popOp h len n s) := by
  unfold popOp
  repeat' (first | with_reducible assumption | with_reducible apply canon_finish | with_reducible apply canon_next | with_reducible apply canon_fault | with_reducible apply canon_refused | with_reducible apply canon_negotiatedFirst | with_reducible apply canon_regFrame | with_reducible apply canon_commit | (with_reducible refine canon_pair (by assumption) ?_) | (with_reducible refine canon_pair3 (by assumption) ?_) | split | dsimp only | simp only [canon_lit] | (with_reducible refine canon_team (by assumption) ?_ ?_) | with_reducible rfl | intro)
theorem canon_int2 (h : Hdr) (len : ℕ) (d : ℕ) (a : ℕ) (b : Opnd) (t : IntTy) (f : ℕ → ℕ → ℕ) (s : State) (hc : memoriesCanonical s) : keepsCanon (int2 h len d a b t f s) := by
  unfold int2
  repeat' (first | with_reducible assumption | with_reducible apply canon_finish | with_reducible apply canon_next | with_reducible apply canon_fault | with_reducible apply canon_refused | with_reducible apply canon_negotiatedFirst | with_reducible apply canon_vop)
theorem canon_int1 (h : Hdr) (len : ℕ) (d : ℕ) (a : ℕ) (t : IntTy) (f : ℕ → ℕ) (s : State) (hc : memoriesCanonical s) : keepsCanon (int1 h len d a t f s) := by
  unfold int1
  repeat' (first | with_reducible assumption | with_reducible apply canon_finish | with_reducible apply canon_next | with_reducible apply canon_fault | with_reducible apply canon_refused | with_reducible apply canon_negotiatedFirst | with_reducible apply canon_vop)
theorem canon_execAdd (h : Hdr) (d : R6) (a : R6) (b : R6) (s : State) (hc : memoriesCanonical s) : keepsCanon (execAdd h d a b s) := by
  unfold execAdd
  repeat' (first | with_reducible assumption | with_reducible apply canon_finish | with_reducible apply canon_next | with_reducible apply canon_fault | with_reducible apply canon_refused | with_reducible apply canon_negotiatedFirst | with_reducible apply canon_int2)
theorem canon_execAddFull (h : Hdr) (d : R11) (a : R11) (b : Src) (t : IntTy) (sat : Bool) (s : State) (hc : memoriesCanonical s) : keepsCanon (execAddFull h d a b t sat s) := by
  unfold execAddFull
  repeat' (first | with_reducible assumption | with_reducible apply canon_finish | with_reducible apply canon_next | with_reducible apply canon_fault | with_reducible apply canon_refused | with_reducible apply canon_negotiatedFirst | with_reducible apply canon_int2)
theorem canon_execSub (h : Hdr) (d : R6) (a : R6) (b : R6) (s : State) (hc : memoriesCanonical s) : keepsCanon (execSub h d a b s) := by
  unfold execSub
  repeat' (first | with_reducible assumption | with_reducible apply canon_finish | with_reducible apply canon_next | with_reducible apply canon_fault | with_reducible apply canon_refused | with_reducible apply canon_negotiatedFirst | with_reducible apply canon_int2)
theorem canon_execSubFull (h : Hdr) (d : R11) (a : R11) (b : Src) (t : IntTy) (sat : Bool) (s : State) (hc : memoriesCanonical s) : keepsCanon (execSubFull h d a b t sat s) := by
  unfold execSubFull
  repeat' (first | with_reducible assumption | with_reducible apply canon_finish | with_reducible apply canon_next | with_reducible apply canon_fault | with_reducible apply canon_refused | with_reducible apply canon_negotiatedFirst | with_reducible apply canon_int2)
theorem canon_execMul (h : Hdr) (d : R6) (a : R6) (b : R6) (s : State) (hc : memoriesCanonical s) : keepsCanon (execMul h d a b s) := by
  unfold execMul
  repeat' (first | with_reducible assumption | with_reducible apply canon_finish | with_reducible apply canon_next | with_reducible apply canon_fault | with_reducible apply canon_refused | with_reducible apply canon_negotiatedFirst | with_reducible apply canon_int2)
theorem canon_execMulFull (h : Hdr) (d : R11) (a : R11) (b : Src) (t : IntTy) (sat : Bool) (s : State) (hc : memoriesCanonical s) : keepsCanon (execMulFull h d a b t sat s) := by
  unfold execMulFull
  repeat' (first | with_reducible assumption | with_reducible apply canon_finish | with_reducible apply canon_next | with_reducible apply canon_fault | with_reducible apply canon_refused | with_reducible apply canon_negotiatedFirst | with_reducible apply canon_int2)
theorem canon_execDiv (h : Hdr) (d : R6) (a : R6) (b : R6) (s : State) (hc : memoriesCanonical s) : keepsCanon (execDiv h d a b s) := by
  unfold execDiv
  repeat' (first | with_reducible assumption | with_reducible apply canon_finish | with_reducible apply canon_next | with_reducible apply canon_fault | with_reducible apply canon_refused | with_reducible apply canon_negotiatedFirst | with_reducible apply canon_int2)
theorem canon_execDivFull (h : Hdr) (d : R11) (a : R11) (b : Src) (t : IntTy) (sat : Bool) (s : State) (hc : memoriesCanonical s) : keepsCanon (execDivFull h d a b t sat s) := by
  unfold execDivFull
  repeat' (first | with_reducible assumption | with_reducible apply canon_finish | with_reducible apply canon_next | with_reducible apply canon_fault | with_reducible apply canon_refused | with_reducible apply canon_negotiatedFirst | with_reducible apply canon_int2)
theorem canon_execRem (h : Hdr) (d : R6) (a : R6) (b : R6) (s : State) (hc : memoriesCanonical s) : keepsCanon (execRem h d a b s) := by
  unfold execRem
  repeat' (first | with_reducible assumption | with_reducible apply canon_finish | with_reducible apply canon_next | with_reducible apply canon_fault | with_reducible apply canon_refused | with_reducible apply canon_negotiatedFirst | with_reducible apply canon_int2)
theorem canon_execRemFull (h : Hdr) (d : R11) (a : R11) (b : Src) (t : IntTy) (_sat : Bool) (s : State) (hc : memoriesCanonical s) : keepsCanon (execRemFull h d a b t _sat s) := by
  unfold execRemFull
  repeat' (first | with_reducible assumption | with_reducible apply canon_finish | with_reducible apply canon_next | with_reducible apply canon_fault | with_reducible apply canon_refused | with_reducible apply canon_negotiatedFirst | with_reducible apply canon_int2)
theorem canon_execMin (h : Hdr) (d : R6) (a : R6) (b : R6) (s : State) (hc : memoriesCanonical s) : keepsCanon (execMin h d a b s) := by
  unfold execMin
  repeat' (first | with_reducible assumption | with_reducible apply canon_finish | with_reducible apply canon_next | with_reducible apply canon_fault | with_reducible apply canon_refused | with_reducible apply canon_negotiatedFirst | with_reducible apply canon_int2)
theorem canon_execMinFull (h : Hdr) (d : R11) (a : R11) (b : Src) (t : IntTy) (s : State) (hc : memoriesCanonical s) : keepsCanon (execMinFull h d a b t s) := by
  unfold execMinFull
  repeat' (first | with_reducible assumption | with_reducible apply canon_finish | with_reducible apply canon_next | with_reducible apply canon_fault | with_reducible apply canon_refused | with_reducible apply canon_negotiatedFirst | with_reducible apply canon_int2)
theorem canon_execMax (h : Hdr) (d : R6) (a : R6) (b : R6) (s : State) (hc : memoriesCanonical s) : keepsCanon (execMax h d a b s) := by
  unfold execMax
  repeat' (first | with_reducible assumption | with_reducible apply canon_finish | with_reducible apply canon_next | with_reducible apply canon_fault | with_reducible apply canon_refused | with_reducible apply canon_negotiatedFirst | with_reducible apply canon_int2)
theorem canon_execMaxFull (h : Hdr) (d : R11) (a : R11) (b : Src) (t : IntTy) (s : State) (hc : memoriesCanonical s) : keepsCanon (execMaxFull h d a b t s) := by
  unfold execMaxFull
  repeat' (first | with_reducible assumption | with_reducible apply canon_finish | with_reducible apply canon_next | with_reducible apply canon_fault | with_reducible apply canon_refused | with_reducible apply canon_negotiatedFirst | with_reducible apply canon_int2)
theorem canon_execMulh (h : Hdr) (d : R6) (a : R6) (b : R6) (s : State) (hc : memoriesCanonical s) : keepsCanon (execMulh h d a b s) := by
  unfold execMulh
  repeat' (first | with_reducible assumption | with_reducible apply canon_finish | with_reducible apply canon_next | with_reducible apply canon_fault | with_reducible apply canon_refused | with_reducible apply canon_negotiatedFirst | with_reducible apply canon_int2)
theorem canon_execMulhFull (h : Hdr) (d : R11) (a : R11) (b : Src) (uns : Bool) (s : State) (hc : memoriesCanonical s) : keepsCanon (execMulhFull h d a b uns s) := by
  unfold execMulhFull
  repeat' (first | with_reducible assumption | with_reducible apply canon_finish | with_reducible apply canon_next | with_reducible apply canon_fault | with_reducible apply canon_refused | with_reducible apply canon_negotiatedFirst | with_reducible apply canon_int2)
theorem canon_mad3 (h : Hdr) (len : ℕ) (d : ℕ) (a : ℕ) (b : Opnd) (c : ℕ) (t : IntTy) (s : State) (hc : memoriesCanonical s) : keepsCanon (mad3 h len d a b c t s) := by
  unfold mad3
  repeat' (first | with_reducible assumption | with_reducible apply canon_finish | with_reducible apply canon_next | with_reducible apply canon_fault | with_reducible apply canon_refused | with_reducible apply canon_negotiatedFirst | with_reducible apply canon_vop)
theorem canon_execMad (h : Hdr) (d : R6) (a : R6) (b : R6) (s : State) (hc : memoriesCanonical s) : keepsCanon (execMad h d a b s) := by
  unfold execMad
  repeat' (first | with_reducible assumption | with_reducible apply canon_finish | with_reducible apply canon_next | with_reducible apply canon_fault | with_reducible apply canon_refused | with_reducible apply canon_negotiatedFirst | with_reducible apply canon_mad3)
theorem canon_execMadFull (h : Hdr) (d : R11) (a : R11) (b : Src) (c : R11) (t : IntTy) (s : State) (hc : memoriesCanonical s) : keepsCanon (execMadFull h d a b c t s) := by
  unfold execMadFull
  repeat' (first | with_reducible assumption | with_reducible apply canon_finish | with_reducible apply canon_next | with_reducible apply canon_fault | with_reducible apply canon_refused | with_reducible apply canon_negotiatedFirst | with_reducible apply canon_mad3)
theorem canon_execNeg (h : Hdr) (d : R6) (a : R6) (s : State) (hc : memoriesCanonical s) : keepsCanon (execNeg h d a s) := by
  unfold execNeg
  repeat' (first | with_reducible assumption | with_reducible apply canon_finish | with_reducible apply canon_next | with_reducible apply canon_fault | with_reducible apply canon_refused | with_reducible apply canon_negotiatedFirst | with_reducible apply canon_int1)
theorem canon_execNegFull (h : Hdr) (d : R11) (a : R11) (t : IntTy) (sat : Bool) (s : State) (hc : memoriesCanonical s) : keepsCanon (execNegFull h d a t sat s) := by
  unfold execNegFull
  repeat' (first | with_reducible assumption | with_reducible apply canon_finish | with_reducible apply canon_next | with_reducible apply canon_fault | with_reducible apply canon_refused | with_reducible apply canon_negotiatedFirst | with_reducible apply canon_int1)
theorem canon_execAbs (h : Hdr) (d : R6) (a : R6) (s : State) (hc : memoriesCanonical s) : keepsCanon (execAbs h d a s) := by
  unfold execAbs
  repeat' (first | with_reducible assumption | with_reducible apply canon_finish | with_reducible apply canon_next | with_reducible apply canon_fault | with_reducible apply canon_refused | with_reducible apply canon_negotiatedFirst | with_reducible apply canon_int1)
theorem canon_execAbsFull (h : Hdr) (d : R11) (a : R11) (t : IntTy) (sat : Bool) (s : State) (hc : memoriesCanonical s) : keepsCanon (execAbsFull h d a t sat s) := by
  unfold execAbsFull
  repeat' (first | with_reducible assumption | with_reducible apply canon_finish | with_reducible apply canon_next | with_reducible apply canon_fault | with_reducible apply canon_refused | with_reducible apply canon_negotiatedFirst | with_reducible apply canon_int1)
theorem canon_execAddk (h : Hdr) (d : R6) (a : R6) (k : R6) (s : State) (hc : memoriesCanonical s) : keepsCanon (execAddk h d a k s) := by
  unfold execAddk
  repeat' (first | with_reducible assumption | with_reducible apply canon_finish | with_reducible apply canon_next | with_reducible apply canon_fault | with_reducible apply canon_refused | with_reducible apply canon_negotiatedFirst | with_reducible apply canon_int1)
theorem canon_execAddkFull (h : Hdr) (d : R11) (a : R11) (k : R11) (t : IntTy) (sat : Bool) (s : State) (hc : memoriesCanonical s) : keepsCanon (execAddkFull h d a k t sat s) := by
  unfold execAddkFull
  repeat' (first | with_reducible assumption | with_reducible apply canon_finish | with_reducible apply canon_next | with_reducible apply canon_fault | with_reducible apply canon_refused | with_reducible apply canon_negotiatedFirst | with_reducible apply canon_int1)
theorem canon_shiftk (h : Hdr) (len : ℕ) (d : ℕ) (a : ℕ) (k : ℕ) (t : WTy) (f : ℕ → ℕ → ℕ → ℕ) (s : State) (hc : memoriesCanonical s) : keepsCanon (shiftk h len d a k t f s) := by
  unfold shiftk
  repeat' (first | with_reducible assumption | with_reducible apply canon_finish | with_reducible apply canon_next | with_reducible apply canon_fault | with_reducible apply canon_refused | with_reducible apply canon_negotiatedFirst | with_reducible apply canon_vop)
theorem canon_shift2 (h : Hdr) (len : ℕ) (d : ℕ) (a : ℕ) (b : Opnd) (t : WTy) (f : ℕ → ℕ → ℕ → ℕ) (s : State) (hc : memoriesCanonical s) : keepsCanon (shift2 h len d a b t f s) := by
  unfold shift2
  repeat' (first | with_reducible assumption | with_reducible apply canon_finish | with_reducible apply canon_next | with_reducible apply canon_fault | with_reducible apply canon_refused | with_reducible apply canon_negotiatedFirst | with_reducible apply canon_vop)
theorem canon_bits1 (h : Hdr) (len : ℕ) (d : ℕ) (a : ℕ) (t : WTy) (f : ℕ → ℕ → ℕ) (s : State) (hc : memoriesCanonical s) : keepsCanon (bits1 h len d a t f s) := by
  unfold bits1
  repeat' (first | with_reducible assumption | with_reducible apply canon_finish | with_reducible apply canon_next | with_reducible apply canon_fault | with_reducible apply canon_refused | with_reducible apply canon_negotiatedFirst | with_reducible apply canon_vop)
theorem canon_execShlk (h : Hdr) (d : R6) (a : R6) (k : R6) (s : State) (hc : memoriesCanonical s) : keepsCanon (execShlk h d a k s) := by
  unfold execShlk
  repeat' (first | with_reducible assumption | with_reducible apply canon_finish | with_reducible apply canon_next | with_reducible apply canon_fault | with_reducible apply canon_refused | with_reducible apply canon_negotiatedFirst | with_reducible apply canon_shiftk)
theorem canon_execShlkFull (h : Hdr) (d : R11) (a : R11) (k : R11) (t : WTy) (s : State) (hc : memoriesCanonical s) : keepsCanon (execShlkFull h d a k t s) := by
  unfold execShlkFull
  repeat' (first | with_reducible assumption | with_reducible apply canon_finish | with_reducible apply canon_next | with_reducible apply canon_fault | with_reducible apply canon_refused | with_reducible apply canon_negotiatedFirst | with_reducible apply canon_shiftk)
theorem canon_execShrk (h : Hdr) (d : R6) (a : R6) (k : R6) (s : State) (hc : memoriesCanonical s) : keepsCanon (execShrk h d a k s) := by
  unfold execShrk
  repeat' (first | with_reducible assumption | with_reducible apply canon_finish | with_reducible apply canon_next | with_reducible apply canon_fault | with_reducible apply canon_refused | with_reducible apply canon_negotiatedFirst | with_reducible apply canon_shiftk)
theorem canon_execShrkFull (h : Hdr) (d : R11) (a : R11) (k : R11) (t : WTy) (s : State) (hc : memoriesCanonical s) : keepsCanon (execShrkFull h d a k t s) := by
  unfold execShrkFull
  repeat' (first | with_reducible assumption | with_reducible apply canon_finish | with_reducible apply canon_next | with_reducible apply canon_fault | with_reducible apply canon_refused | with_reducible apply canon_negotiatedFirst | with_reducible apply canon_shiftk)
theorem canon_execSark (h : Hdr) (d : R6) (a : R6) (k : R6) (s : State) (hc : memoriesCanonical s) : keepsCanon (execSark h d a k s) := by
  unfold execSark
  repeat' (first | with_reducible assumption | with_reducible apply canon_finish | with_reducible apply canon_next | with_reducible apply canon_fault | with_reducible apply canon_refused | with_reducible apply canon_negotiatedFirst | with_reducible apply canon_shiftk)
theorem canon_execSarkFull (h : Hdr) (d : R11) (a : R11) (k : R11) (t : WTy) (s : State) (hc : memoriesCanonical s) : keepsCanon (execSarkFull h d a k t s) := by
  unfold execSarkFull
  repeat' (first | with_reducible assumption | with_reducible apply canon_finish | with_reducible apply canon_next | with_reducible apply canon_fault | with_reducible apply canon_refused | with_reducible apply canon_negotiatedFirst | with_reducible apply canon_shiftk)
theorem canon_logic2 (h : Hdr) (len : ℕ) (d : ℕ) (a : ℕ) (b : Opnd) (f : ℕ → ℕ → ℕ) (s : State) (hc : memoriesCanonical s) : keepsCanon (logic2 h len d a b f s) := by
  unfold logic2
  repeat' (first | with_reducible assumption | with_reducible apply canon_finish | with_reducible apply canon_next | with_reducible apply canon_fault | with_reducible apply canon_refused | with_reducible apply canon_negotiatedFirst | with_reducible apply canon_vop)
theorem canon_execAnd (h : Hdr) (d : R6) (a : R6) (b : R6) (s : State) (hc : memoriesCanonical s) : keepsCanon (execAnd h d a b s) := by
  unfold execAnd
  repeat' (first | with_reducible assumption | with_reducible apply canon_finish | with_reducible apply canon_next | with_reducible apply canon_fault | with_reducible apply canon_refused | with_reducible apply canon_negotiatedFirst | with_reducible apply canon_logic2)
theorem canon_execAndFull (h : Hdr) (d : R11) (a : R11) (b : Src) (s : State) (hc : memoriesCanonical s) : keepsCanon (execAndFull h d a b s) := by
  unfold execAndFull
  repeat' (first | with_reducible assumption | with_reducible apply canon_finish | with_reducible apply canon_next | with_reducible apply canon_fault | with_reducible apply canon_refused | with_reducible apply canon_negotiatedFirst | with_reducible apply canon_logic2)
theorem canon_execOr (h : Hdr) (d : R6) (a : R6) (b : R6) (s : State) (hc : memoriesCanonical s) : keepsCanon (execOr h d a b s) := by
  unfold execOr
  repeat' (first | with_reducible assumption | with_reducible apply canon_finish | with_reducible apply canon_next | with_reducible apply canon_fault | with_reducible apply canon_refused | with_reducible apply canon_negotiatedFirst | with_reducible apply canon_logic2)
theorem canon_execOrFull (h : Hdr) (d : R11) (a : R11) (b : Src) (s : State) (hc : memoriesCanonical s) : keepsCanon (execOrFull h d a b s) := by
  unfold execOrFull
  repeat' (first | with_reducible assumption | with_reducible apply canon_finish | with_reducible apply canon_next | with_reducible apply canon_fault | with_reducible apply canon_refused | with_reducible apply canon_negotiatedFirst | with_reducible apply canon_logic2)
theorem canon_execXor (h : Hdr) (d : R6) (a : R6) (b : R6) (s : State) (hc : memoriesCanonical s) : keepsCanon (execXor h d a b s) := by
  unfold execXor
  repeat' (first | with_reducible assumption | with_reducible apply canon_finish | with_reducible apply canon_next | with_reducible apply canon_fault | with_reducible apply canon_refused | with_reducible apply canon_negotiatedFirst | with_reducible apply canon_logic2)
theorem canon_execXorFull (h : Hdr) (d : R11) (a : R11) (b : Src) (s : State) (hc : memoriesCanonical s) : keepsCanon (execXorFull h d a b s) := by
  unfold execXorFull
  repeat' (first | with_reducible assumption | with_reducible apply canon_finish | with_reducible apply canon_next | with_reducible apply canon_fault | with_reducible apply canon_refused | with_reducible apply canon_negotiatedFirst | with_reducible apply canon_logic2)
theorem canon_execAndn (h : Hdr) (d : R6) (a : R6) (b : R6) (s : State) (hc : memoriesCanonical s) : keepsCanon (execAndn h d a b s) := by
  unfold execAndn
  repeat' (first | with_reducible assumption | with_reducible apply canon_finish | with_reducible apply canon_next | with_reducible apply canon_fault | with_reducible apply canon_refused | with_reducible apply canon_negotiatedFirst | with_reducible apply canon_logic2)
theorem canon_execAndnFull (h : Hdr) (d : R11) (a : R11) (b : Src) (s : State) (hc : memoriesCanonical s) : keepsCanon (execAndnFull h d a b s) := by
  unfold execAndnFull
  repeat' (first | with_reducible assumption | with_reducible apply canon_finish | with_reducible apply canon_next | with_reducible apply canon_fault | with_reducible apply canon_refused | with_reducible apply canon_negotiatedFirst | with_reducible apply canon_logic2)
theorem canon_execNot (h : Hdr) (d : R6) (a : R6) (s : State) (hc : memoriesCanonical s) : keepsCanon (execNot h d a s) := by
  unfold execNot
  repeat' (first | with_reducible assumption | with_reducible apply canon_finish | with_reducible apply canon_next | with_reducible apply canon_fault | with_reducible apply canon_refused | with_reducible apply canon_negotiatedFirst | with_reducible apply canon_vop)
theorem canon_execNotFull (h : Hdr) (d : R11) (a : R11) (s : State) (hc : memoriesCanonical s) : keepsCanon (execNotFull h d a s) := by
  unfold execNotFull
  repeat' (first | with_reducible assumption | with_reducible apply canon_finish | with_reducible apply canon_next | with_reducible apply canon_fault | with_reducible apply canon_refused | with_reducible apply canon_negotiatedFirst | with_reducible apply canon_vop)
theorem canon_execShl (h : Hdr) (d : R6) (a : R6) (b : R6) (s : State) (hc : memoriesCanonical s) : keepsCanon (execShl h d a b s) := by
  unfold execShl
  repeat' (first | with_reducible assumption | with_reducible apply canon_finish | with_reducible apply canon_next | with_reducible apply canon_fault | with_reducible apply canon_refused | with_reducible apply canon_negotiatedFirst | with_reducible apply canon_shift2)
theorem canon_execShlFull (h : Hdr) (d : R11) (a : R11) (b : Src) (t : WTy) (s : State) (hc : memoriesCanonical s) : keepsCanon (execShlFull h d a b t s) := by
  unfold execShlFull
  repeat' (first | with_reducible assumption | with_reducible apply canon_finish | with_reducible apply canon_next | with_reducible apply canon_fault | with_reducible apply canon_refused | with_reducible apply canon_negotiatedFirst | with_reducible apply canon_shift2)
theorem canon_execShr (h : Hdr) (d : R6) (a : R6) (b : R6) (s : State) (hc : memoriesCanonical s) : keepsCanon (execShr h d a b s) := by
  unfold execShr
  repeat' (first | with_reducible assumption | with_reducible apply canon_finish | with_reducible apply canon_next | with_reducible apply canon_fault | with_reducible apply canon_refused | with_reducible apply canon_negotiatedFirst | with_reducible apply canon_shift2)
theorem canon_execShrFull (h : Hdr) (d : R11) (a : R11) (b : Src) (t : WTy) (s : State) (hc : memoriesCanonical s) : keepsCanon (execShrFull h d a b t s) := by
  unfold execShrFull
  repeat' (first | with_reducible assumption | with_reducible apply canon_finish | with_reducible apply canon_next | with_reducible apply canon_fault | with_reducible apply canon_refused | with_reducible apply canon_negotiatedFirst | with_reducible apply canon_shift2)
theorem canon_execSar (h : Hdr) (d : R6) (a : R6) (b : R6) (s : State) (hc : memoriesCanonical s) : keepsCanon (execSar h d a b s) := by
  unfold execSar
  repeat' (first | with_reducible assumption | with_reducible apply canon_finish | with_reducible apply canon_next | with_reducible apply canon_fault | with_reducible apply canon_refused | with_reducible apply canon_negotiatedFirst | with_reducible apply canon_shift2)
theorem canon_execSarFull (h : Hdr) (d : R11) (a : R11) (b : Src) (t : WTy) (s : State) (hc : memoriesCanonical s) : keepsCanon (execSarFull h d a b t s) := by
  unfold execSarFull
  repeat' (first | with_reducible assumption | with_reducible apply canon_finish | with_reducible apply canon_next | with_reducible apply canon_fault | with_reducible apply canon_refused | with_reducible apply canon_negotiatedFirst | with_reducible apply canon_shift2)
theorem canon_execRot (h : Hdr) (d : R6) (a : R6) (b : R6) (s : State) (hc : memoriesCanonical s) : keepsCanon (execRot h d a b s) := by
  unfold execRot
  repeat' (first | with_reducible assumption | with_reducible apply canon_finish | with_reducible apply canon_next | with_reducible apply canon_fault | with_reducible apply canon_refused | with_reducible apply canon_negotiatedFirst | with_reducible apply canon_shift2)
theorem canon_execRotFull (h : Hdr) (d : R11) (a : R11) (b : Src) (t : WTy) (s : State) (hc : memoriesCanonical s) : keepsCanon (execRotFull h d a b t s) := by
  unfold execRotFull
  repeat' (first | with_reducible assumption | with_reducible apply canon_finish | with_reducible apply canon_next | with_reducible apply canon_fault | with_reducible apply canon_refused | with_reducible apply canon_negotiatedFirst | with_reducible apply canon_shift2)
theorem canon_execClz (h : Hdr) (d : R6) (a : R6) (s : State) (hc : memoriesCanonical s) : keepsCanon (execClz h d a s) := by
  unfold execClz
  repeat' (first | with_reducible assumption | with_reducible apply canon_finish | with_reducible apply canon_next | with_reducible apply canon_fault | with_reducible apply canon_refused | with_reducible apply canon_negotiatedFirst | with_reducible apply canon_bits1)
theorem canon_execClzFull (h : Hdr) (d : R11) (a : R11) (t : WTy) (s : State) (hc : memoriesCanonical s) : keepsCanon (execClzFull h d a t s) := by
  unfold execClzFull
  repeat' (first | with_reducible assumption | with_reducible apply canon_finish | with_reducible apply canon_next | with_reducible apply canon_fault | with_reducible apply canon_refused | with_reducible apply canon_negotiatedFirst | with_reducible apply canon_bits1)
theorem canon_execPopc (h : Hdr) (d : R6) (a : R6) (s : State) (hc : memoriesCanonical s) : keepsCanon (execPopc h d a s) := by
  unfold execPopc
  repeat' (first | with_reducible assumption | with_reducible apply canon_finish | with_reducible apply canon_next | with_reducible apply canon_fault | with_reducible apply canon_refused | with_reducible apply canon_negotiatedFirst | with_reducible apply canon_bits1)
theorem canon_execPopcFull (h : Hdr) (d : R11) (a : R11) (t : WTy) (s : State) (hc : memoriesCanonical s) : keepsCanon (execPopcFull h d a t s) := by
  unfold execPopcFull
  repeat' (first | with_reducible assumption | with_reducible apply canon_finish | with_reducible apply canon_next | with_reducible apply canon_fault | with_reducible apply canon_refused | with_reducible apply canon_negotiatedFirst | with_reducible apply canon_bits1)
theorem canon_execBrev (h : Hdr) (d : R6) (a : R6) (s : State) (hc : memoriesCanonical s) : keepsCanon (execBrev h d a s) := by
  unfold execBrev
  repeat' (first | with_reducible assumption | with_reducible apply canon_finish | with_reducible apply canon_next | with_reducible apply canon_fault | with_reducible apply canon_refused | with_reducible apply canon_negotiatedFirst | with_reducible apply canon_bits1)
theorem canon_execBrevFull (h : Hdr) (d : R11) (a : R11) (t : WTy) (s : State) (hc : memoriesCanonical s) : keepsCanon (execBrevFull h d a t s) := by
  unfold execBrevFull
  repeat' (first | with_reducible assumption | with_reducible apply canon_finish | with_reducible apply canon_next | with_reducible apply canon_fault | with_reducible apply canon_refused | with_reducible apply canon_negotiatedFirst | with_reducible apply canon_bits1)
theorem canon_bext3 (h : Hdr) (len : ℕ) (d : ℕ) (a : ℕ) (b : Opnd) (c : ℕ) (s : State) (hc : memoriesCanonical s) : keepsCanon (bext3 h len d a b c s) := by
  unfold bext3
  repeat' (first | with_reducible assumption | with_reducible apply canon_finish | with_reducible apply canon_next | with_reducible apply canon_fault | with_reducible apply canon_refused | with_reducible apply canon_negotiatedFirst | with_reducible apply canon_vop)
theorem canon_bins3 (h : Hdr) (len : ℕ) (d : ℕ) (a : ℕ) (b : Opnd) (c : ℕ) (s : State) (hc : memoriesCanonical s) : keepsCanon (bins3 h len d a b c s) := by
  unfold bins3
  repeat' (first | with_reducible assumption | with_reducible apply canon_finish | with_reducible apply canon_next | with_reducible apply canon_fault | with_reducible apply canon_refused | with_reducible apply canon_negotiatedFirst | with_reducible apply canon_vop)
theorem canon_execBext (h : Hdr) (d : R6) (a : R6) (b : R6) (s : State) (hc : memoriesCanonical s) : keepsCanon (execBext h d a b s) := by
  unfold execBext
  repeat' (first | with_reducible assumption | with_reducible apply canon_finish | with_reducible apply canon_next | with_reducible apply canon_fault | with_reducible apply canon_refused | with_reducible apply canon_negotiatedFirst | with_reducible apply canon_bext3)
theorem canon_execBextFull (h : Hdr) (d : R11) (a : R11) (b : Src) (c : R11) (s : State) (hc : memoriesCanonical s) : keepsCanon (execBextFull h d a b c s) := by
  unfold execBextFull
  repeat' (first | with_reducible assumption | with_reducible apply canon_finish | with_reducible apply canon_next | with_reducible apply canon_fault | with_reducible apply canon_refused | with_reducible apply canon_negotiatedFirst | with_reducible apply canon_bext3)
theorem canon_execBins (h : Hdr) (d : R6) (a : R6) (b : R6) (s : State) (hc : memoriesCanonical s) : keepsCanon (execBins h d a b s) := by
  unfold execBins
  repeat' (first | with_reducible assumption | with_reducible apply canon_finish | with_reducible apply canon_next | with_reducible apply canon_fault | with_reducible apply canon_refused | with_reducible apply canon_negotiatedFirst | with_reducible apply canon_bins3)
theorem canon_execBinsFull (h : Hdr) (d : R11) (a : R11) (b : Src) (c : R11) (s : State) (hc : memoriesCanonical s) : keepsCanon (execBinsFull h d a b c s) := by
  unfold execBinsFull
  repeat' (first | with_reducible assumption | with_reducible apply canon_finish | with_reducible apply canon_next | with_reducible apply canon_fault | with_reducible apply canon_refused | with_reducible apply canon_negotiatedFirst | with_reducible apply canon_bins3)
theorem canon_cmp2 (h : Hdr) (len : ℕ) (a : ℕ) (b : Opnd) (c : Cond) (t : CiTy) (s : State) (hc : memoriesCanonical s) : keepsCanon (cmp2 h len a b c t s) := by
  unfold cmp2
  repeat' (first | with_reducible assumption | with_reducible apply canon_finish | with_reducible apply canon_next | with_reducible apply canon_fault | with_reducible apply canon_refused | with_reducible apply canon_negotiatedFirst | with_reducible apply canon_pushOp)
theorem canon_execCmp (h : Hdr) (a : R6) (b : R6) (s : State) (hc : memoriesCanonical s) : keepsCanon (execCmp h a b s) := by
  unfold execCmp
  repeat' (first | with_reducible assumption | with_reducible apply canon_finish | with_reducible apply canon_next | with_reducible apply canon_fault | with_reducible apply canon_refused | with_reducible apply canon_negotiatedFirst | with_reducible apply canon_cmp2)
theorem canon_execCmpFull (h : Hdr) (a : R11) (b : Src) (c : Cond) (t : CiTy) (s : State) (hc : memoriesCanonical s) : keepsCanon (execCmpFull h a b c t s) := by
  unfold execCmpFull
  repeat' (first | with_reducible assumption | with_reducible apply canon_finish | with_reducible apply canon_next | with_reducible apply canon_fault | with_reducible apply canon_refused | with_reducible apply canon_negotiatedFirst | with_reducible apply canon_cmp2)
theorem canon_execCmpk (h : Hdr) (a : R6) (k : R6) (s : State) (hc : memoriesCanonical s) : keepsCanon (execCmpk h a k s) := by
  unfold execCmpk
  repeat' (first | with_reducible assumption | with_reducible apply canon_finish | with_reducible apply canon_next | with_reducible apply canon_fault | with_reducible apply canon_refused | with_reducible apply canon_negotiatedFirst | with_reducible apply canon_cmp2)
theorem canon_execCmpkFull (h : Hdr) (a : R11) (k : R11) (c : Cond) (t : CiTy) (s : State) (hc : memoriesCanonical s) : keepsCanon (execCmpkFull h a k c t s) := by
  unfold execCmpkFull
  repeat' (first | with_reducible assumption | with_reducible apply canon_finish | with_reducible apply canon_next | with_reducible apply canon_fault | with_reducible apply canon_refused | with_reducible apply canon_negotiatedFirst | with_reducible apply canon_cmp2)
theorem canon_test2 (h : Hdr) (len : ℕ) (a : ℕ) (b : Opnd) (s : State) (hc : memoriesCanonical s) : keepsCanon (test2 h len a b s) := by
  unfold test2
  repeat' (first | with_reducible assumption | with_reducible apply canon_finish | with_reducible apply canon_next | with_reducible apply canon_fault | with_reducible apply canon_refused | with_reducible apply canon_negotiatedFirst | with_reducible apply canon_pushOp)
theorem canon_execTest (h : Hdr) (a : R6) (b : R6) (s : State) (hc : memoriesCanonical s) : keepsCanon (execTest h a b s) := by
  unfold execTest
  repeat' (first | with_reducible assumption | with_reducible apply canon_finish | with_reducible apply canon_next | with_reducible apply canon_fault | with_reducible apply canon_refused | with_reducible apply canon_negotiatedFirst | with_reducible apply canon_test2)
theorem canon_execTestFull (h : Hdr) (a : R11) (b : Src) (s : State) (hc : memoriesCanonical s) : keepsCanon (execTestFull h a b s) := by
  unfold execTestFull
  repeat' (first | with_reducible assumption | with_reducible apply canon_finish | with_reducible apply canon_next | with_reducible apply canon_fault | with_reducible apply canon_refused | with_reducible apply canon_negotiatedFirst | with_reducible apply canon_test2)
theorem canon_sel2 (h : Hdr) (len : ℕ) (d : ℕ) (a : ℕ) (b : Opnd) (neg : Bool) (k : ℕ) (s : State) (hc : memoriesCanonical s) : keepsCanon (sel2 h len d a b neg k s) := by
  unfold sel2
  repeat' (first | with_reducible assumption | with_reducible apply canon_finish | with_reducible apply canon_next | with_reducible apply canon_fault | with_reducible apply canon_refused | with_reducible apply canon_negotiatedFirst | with_reducible apply canon_vop)
theorem canon_execSel (h : Hdr) (d : R6) (a : R6) (b : R6) (s : State) (hc : memoriesCanonical s) : keepsCanon (execSel h d a b s) := by
  unfold execSel
  repeat' (first | with_reducible assumption | with_reducible apply canon_finish | with_reducible apply canon_next | with_reducible apply canon_fault | with_reducible apply canon_refused | with_reducible apply canon_negotiatedFirst | with_reducible apply canon_sel2)
theorem canon_execSelFull (h : Hdr) (d : R11) (a : R11) (b : Src) (neg : Bool) (q : BitVec 3) (s : State) (hc : memoriesCanonical s) : keepsCanon (execSelFull h d a b neg q s) := by
  unfold execSelFull
  repeat' (first | with_reducible assumption | with_reducible apply canon_finish | with_reducible apply canon_next | with_reducible apply canon_fault | with_reducible apply canon_refused | with_reducible apply canon_negotiatedFirst | with_reducible apply canon_sel2)
theorem canon_execMov (h : Hdr) (d : R6) (a : R6) (s : State) (hc : memoriesCanonical s) : keepsCanon (execMov h d a s) := by
  unfold execMov
  repeat' (first | with_reducible assumption | with_reducible apply canon_finish | with_reducible apply canon_next | with_reducible apply canon_fault | with_reducible apply canon_refused | with_reducible apply canon_negotiatedFirst | with_reducible apply canon_vop)
theorem canon_execMovFull (h : Hdr) (d : R11) (a : R11) (wide : Bool) (s : State) (hc : memoriesCanonical s) : keepsCanon (execMovFull h d a wide s) := by
  unfold execMovFull
  repeat' (first | with_reducible assumption | with_reducible apply canon_finish | with_reducible apply canon_next | with_reducible apply canon_fault | with_reducible apply canon_refused | with_reducible apply canon_negotiatedFirst | with_reducible apply canon_vop)
theorem canon_execMovk (h : Hdr) (d : R6) (k : R6) (s : State) (hc : memoriesCanonical s) : keepsCanon (execMovk h d k s) := by
  unfold execMovk
  repeat' (first | with_reducible assumption | with_reducible apply canon_finish | with_reducible apply canon_next | with_reducible apply canon_fault | with_reducible apply canon_refused | with_reducible apply canon_negotiatedFirst | with_reducible apply canon_vop)
theorem canon_execMovkFull (h : Hdr) (d : R11) (k : R11) (s : State) (hc : memoriesCanonical s) : keepsCanon (execMovkFull h d k s) := by
  unfold execMovkFull
  repeat' (first | with_reducible assumption | with_reducible apply canon_finish | with_reducible apply canon_next | with_reducible apply canon_fault | with_reducible apply canon_refused | with_reducible apply canon_negotiatedFirst | with_reducible apply canon_vop)
theorem canon_execDp4 (h : Hdr) (d : R11) (a : R11) (b : Src) (c : R11) (uns : Bool) (s : State) (hc : memoriesCanonical s) : keepsCanon (execDp4 h d a b c uns s) := by
  unfold execDp4
  repeat' (first | with_reducible assumption | with_reducible apply canon_finish | with_reducible apply canon_next | with_reducible apply canon_fault | with_reducible apply canon_refused | with_reducible apply canon_negotiatedFirst | with_reducible apply canon_vop)
theorem canon_execQdup (h : Hdr) (a : BitVec 3) (s : State) (hc : memoriesCanonical s) : keepsCanon (execQdup h a s) := by
  unfold execQdup
  repeat' (first | with_reducible assumption | with_reducible apply canon_finish | with_reducible apply canon_next | with_reducible apply canon_fault | with_reducible apply canon_refused | with_reducible apply canon_negotiatedFirst | with_reducible apply canon_pushOp)
theorem canon_execQnot (h : Hdr) (a : BitVec 3) (s : State) (hc : memoriesCanonical s) : keepsCanon (execQnot h a s) := by
  unfold execQnot
  repeat' (first | with_reducible assumption | with_reducible apply canon_finish | with_reducible apply canon_next | with_reducible apply canon_fault | with_reducible apply canon_refused | with_reducible apply canon_negotiatedFirst | with_reducible apply canon_pushOp)
theorem canon_execQand (h : Hdr) (a : BitVec 3) (b : BitVec 3) (s : State) (hc : memoriesCanonical s) : keepsCanon (execQand h a b s) := by
  unfold execQand
  repeat' (first | with_reducible assumption | with_reducible apply canon_finish | with_reducible apply canon_next | with_reducible apply canon_fault | with_reducible apply canon_refused | with_reducible apply canon_negotiatedFirst | with_reducible apply canon_pushOp)
theorem canon_execQor (h : Hdr) (a : BitVec 3) (b : BitVec 3) (s : State) (hc : memoriesCanonical s) : keepsCanon (execQor h a b s) := by
  unfold execQor
  repeat' (first | with_reducible assumption | with_reducible apply canon_finish | with_reducible apply canon_next | with_reducible apply canon_fault | with_reducible apply canon_refused | with_reducible apply canon_negotiatedFirst | with_reducible apply canon_pushOp)
theorem canon_execQxor (h : Hdr) (a : BitVec 3) (b : BitVec 3) (s : State) (hc : memoriesCanonical s) : keepsCanon (execQxor h a b s) := by
  unfold execQxor
  repeat' (first | with_reducible assumption | with_reducible apply canon_finish | with_reducible apply canon_next | with_reducible apply canon_fault | with_reducible apply canon_refused | with_reducible apply canon_negotiatedFirst | with_reducible apply canon_pushOp)
theorem canon_execQdrop (h : Hdr) (k : R11) (s : State) (hc : memoriesCanonical s) : keepsCanon (execQdrop h k s) := by
  unfold execQdrop
  repeat' (first | with_reducible assumption | with_reducible apply canon_finish | with_reducible apply canon_next | with_reducible apply canon_fault | with_reducible apply canon_refused | with_reducible apply canon_negotiatedFirst | with_reducible apply canon_popOp)
theorem canon_real2 (h : Hdr) (len : ℕ) (d : ℕ) (a : ℕ) (b : Opnd) (t : RealTy) (f : ℕ → ℕ → ℕ) (s : State) (hc : memoriesCanonical s) : keepsCanon (real2 h len d a b t f s) := by
  unfold real2
  repeat' (first | with_reducible assumption | with_reducible apply canon_finish | with_reducible apply canon_next | with_reducible apply canon_fault | with_reducible apply canon_refused | with_reducible apply canon_negotiatedFirst | with_reducible apply canon_vop)
theorem canon_real1 (h : Hdr) (len : ℕ) (d : ℕ) (a : ℕ) (t : RealTy) (f : ℕ → ℕ) (s : State) (hc : memoriesCanonical s) : keepsCanon (real1 h len d a t f s) := by
  unfold real1
  repeat' (first | with_reducible assumption | with_reducible apply canon_finish | with_reducible apply canon_next | with_reducible apply canon_fault | with_reducible apply canon_refused | with_reducible apply canon_negotiatedFirst | with_reducible apply canon_vop)
theorem canon_fma3 (h : Hdr) (len : ℕ) (d : ℕ) (a : ℕ) (b : Opnd) (c : ℕ) (m : RealMod) (s : State) (hc : memoriesCanonical s) : keepsCanon (fma3 h len d a b c m s) := by
  unfold fma3
  repeat' (first | with_reducible assumption | with_reducible apply canon_finish | with_reducible apply canon_next | with_reducible apply canon_fault | with_reducible apply canon_refused | with_reducible apply canon_negotiatedFirst | with_reducible apply canon_vop)
theorem canon_execFadd (h : Hdr) (d : R6) (a : R6) (b : R6) (s : State) (hc : memoriesCanonical s) : keepsCanon (execFadd h d a b s) := by
  unfold execFadd
  repeat' (first | with_reducible assumption | with_reducible apply canon_finish | with_reducible apply canon_next | with_reducible apply canon_fault | with_reducible apply canon_refused | with_reducible apply canon_negotiatedFirst | with_reducible apply canon_real2)
theorem canon_execFaddFull (h : Hdr) (d : R11) (a : R11) (b : Src) (m : RealMod) (s : State) (hc : memoriesCanonical s) : keepsCanon (execFaddFull h d a b m s) := by
  unfold execFaddFull
  repeat' (first | with_reducible assumption | with_reducible apply canon_finish | with_reducible apply canon_next | with_reducible apply canon_fault | with_reducible apply canon_refused | with_reducible apply canon_negotiatedFirst | with_reducible apply canon_real2)
theorem canon_execFsub (h : Hdr) (d : R6) (a : R6) (b : R6) (s : State) (hc : memoriesCanonical s) : keepsCanon (execFsub h d a b s) := by
  unfold execFsub
  repeat' (first | with_reducible assumption | with_reducible apply canon_finish | with_reducible apply canon_next | with_reducible apply canon_fault | with_reducible apply canon_refused | with_reducible apply canon_negotiatedFirst | with_reducible apply canon_real2)
theorem canon_execFsubFull (h : Hdr) (d : R11) (a : R11) (b : Src) (m : RealMod) (s : State) (hc : memoriesCanonical s) : keepsCanon (execFsubFull h d a b m s) := by
  unfold execFsubFull
  repeat' (first | with_reducible assumption | with_reducible apply canon_finish | with_reducible apply canon_next | with_reducible apply canon_fault | with_reducible apply canon_refused | with_reducible apply canon_negotiatedFirst | with_reducible apply canon_real2)
theorem canon_execFmul (h : Hdr) (d : R6) (a : R6) (b : R6) (s : State) (hc : memoriesCanonical s) : keepsCanon (execFmul h d a b s) := by
  unfold execFmul
  repeat' (first | with_reducible assumption | with_reducible apply canon_finish | with_reducible apply canon_next | with_reducible apply canon_fault | with_reducible apply canon_refused | with_reducible apply canon_negotiatedFirst | with_reducible apply canon_real2)
theorem canon_execFmulFull (h : Hdr) (d : R11) (a : R11) (b : Src) (m : RealMod) (s : State) (hc : memoriesCanonical s) : keepsCanon (execFmulFull h d a b m s) := by
  unfold execFmulFull
  repeat' (first | with_reducible assumption | with_reducible apply canon_finish | with_reducible apply canon_next | with_reducible apply canon_fault | with_reducible apply canon_refused | with_reducible apply canon_negotiatedFirst | with_reducible apply canon_real2)
theorem canon_execFma (h : Hdr) (d : R6) (a : R6) (b : R6) (s : State) (hc : memoriesCanonical s) : keepsCanon (execFma h d a b s) := by
  unfold execFma
  repeat' (first | with_reducible assumption | with_reducible apply canon_finish | with_reducible apply canon_next | with_reducible apply canon_fault | with_reducible apply canon_refused | with_reducible apply canon_negotiatedFirst | with_reducible apply canon_fma3)
theorem canon_execFmaFull (h : Hdr) (d : R11) (a : R11) (b : Src) (c : R11) (m : RealMod) (s : State) (hc : memoriesCanonical s) : keepsCanon (execFmaFull h d a b c m s) := by
  unfold execFmaFull
  repeat' (first | with_reducible assumption | with_reducible apply canon_finish | with_reducible apply canon_next | with_reducible apply canon_fault | with_reducible apply canon_refused | with_reducible apply canon_negotiatedFirst | with_reducible apply canon_fma3)
theorem canon_execFmin (h : Hdr) (d : R6) (a : R6) (b : R6) (s : State) (hc : memoriesCanonical s) : keepsCanon (execFmin h d a b s) := by
  unfold execFmin
  repeat' (first | with_reducible assumption | with_reducible apply canon_finish | with_reducible apply canon_next | with_reducible apply canon_fault | with_reducible apply canon_refused | with_reducible apply canon_negotiatedFirst | with_reducible apply canon_real2)
theorem canon_execFminFull (h : Hdr) (d : R11) (a : R11) (b : Src) (t : RealTy) (s : State) (hc : memoriesCanonical s) : keepsCanon (execFminFull h d a b t s) := by
  unfold execFminFull
  repeat' (first | with_reducible assumption | with_reducible apply canon_finish | with_reducible apply canon_next | with_reducible apply canon_fault | with_reducible apply canon_refused | with_reducible apply canon_negotiatedFirst | with_reducible apply canon_real2)
theorem canon_execFmax (h : Hdr) (d : R6) (a : R6) (b : R6) (s : State) (hc : memoriesCanonical s) : keepsCanon (execFmax h d a b s) := by
  unfold execFmax
  repeat' (first | with_reducible assumption | with_reducible apply canon_finish | with_reducible apply canon_next | with_reducible apply canon_fault | with_reducible apply canon_refused | with_reducible apply canon_negotiatedFirst | with_reducible apply canon_real2)
theorem canon_execFmaxFull (h : Hdr) (d : R11) (a : R11) (b : Src) (t : RealTy) (s : State) (hc : memoriesCanonical s) : keepsCanon (execFmaxFull h d a b t s) := by
  unfold execFmaxFull
  repeat' (first | with_reducible assumption | with_reducible apply canon_finish | with_reducible apply canon_next | with_reducible apply canon_fault | with_reducible apply canon_refused | with_reducible apply canon_negotiatedFirst | with_reducible apply canon_real2)
theorem canon_execFneg (h : Hdr) (d : R6) (a : R6) (s : State) (hc : memoriesCanonical s) : keepsCanon (execFneg h d a s) := by
  unfold execFneg
  repeat' (first | with_reducible assumption | with_reducible apply canon_finish | with_reducible apply canon_next | with_reducible apply canon_fault | with_reducible apply canon_refused | with_reducible apply canon_negotiatedFirst | with_reducible apply canon_real1)
theorem canon_execFnegFull (h : Hdr) (d : R11) (a : R11) (t : RealTy) (s : State) (hc : memoriesCanonical s) : keepsCanon (execFnegFull h d a t s) := by
  unfold execFnegFull
  repeat' (first | with_reducible assumption | with_reducible apply canon_finish | with_reducible apply canon_next | with_reducible apply canon_fault | with_reducible apply canon_refused | with_reducible apply canon_negotiatedFirst | with_reducible apply canon_real1)
theorem canon_execFabs (h : Hdr) (d : R6) (a : R6) (s : State) (hc : memoriesCanonical s) : keepsCanon (execFabs h d a s) := by
  unfold execFabs
  repeat' (first | with_reducible assumption | with_reducible apply canon_finish | with_reducible apply canon_next | with_reducible apply canon_fault | with_reducible apply canon_refused | with_reducible apply canon_negotiatedFirst | with_reducible apply canon_real1)
theorem canon_execFabsFull (h : Hdr) (d : R11) (a : R11) (t : RealTy) (s : State) (hc : memoriesCanonical s) : keepsCanon (execFabsFull h d a t s) := by
  unfold execFabsFull
  repeat' (first | with_reducible assumption | with_reducible apply canon_finish | with_reducible apply canon_next | with_reducible apply canon_fault | with_reducible apply canon_refused | with_reducible apply canon_negotiatedFirst | with_reducible apply canon_real1)
theorem canon_execFcps (h : Hdr) (d : R6) (a : R6) (b : R6) (s : State) (hc : memoriesCanonical s) : keepsCanon (execFcps h d a b s) := by
  unfold execFcps
  repeat' (first | with_reducible assumption | with_reducible apply canon_finish | with_reducible apply canon_next | with_reducible apply canon_fault | with_reducible apply canon_refused | with_reducible apply canon_negotiatedFirst | with_reducible apply canon_real2)
theorem canon_execFcpsFull (h : Hdr) (d : R11) (a : R11) (b : Src) (bf : Bool) (s : State) (hc : memoriesCanonical s) : keepsCanon (execFcpsFull h d a b bf s) := by
  unfold execFcpsFull
  repeat' (first | with_reducible assumption | with_reducible apply canon_finish | with_reducible apply canon_next | with_reducible apply canon_fault | with_reducible apply canon_refused | with_reducible apply canon_negotiatedFirst | with_reducible apply canon_real2)
theorem canon_special (h : Hdr) (d : R11) (a : R11) (bf : Bool) (f : ℕ → ℕ → ℕ) (s : State) (hc : memoriesCanonical s) : keepsCanon (special h d a bf f s) := by
  unfold special
  repeat' (first | with_reducible assumption | with_reducible apply canon_finish | with_reducible apply canon_next | with_reducible apply canon_fault | with_reducible apply canon_refused | with_reducible apply canon_negotiatedFirst | with_reducible apply canon_real1)
theorem canon_execRcp (h : Hdr) (d : R11) (a : R11) (bf : Bool) (s : State) (hc : memoriesCanonical s) : keepsCanon (execRcp h d a bf s) := by
  unfold execRcp
  repeat' (first | with_reducible assumption | with_reducible apply canon_finish | with_reducible apply canon_next | with_reducible apply canon_fault | with_reducible apply canon_refused | with_reducible apply canon_negotiatedFirst | with_reducible apply canon_special)
theorem canon_execSqrt (h : Hdr) (d : R11) (a : R11) (bf : Bool) (s : State) (hc : memoriesCanonical s) : keepsCanon (execSqrt h d a bf s) := by
  unfold execSqrt
  repeat' (first | with_reducible assumption | with_reducible apply canon_finish | with_reducible apply canon_next | with_reducible apply canon_fault | with_reducible apply canon_refused | with_reducible apply canon_negotiatedFirst | with_reducible apply canon_special)
theorem canon_execRsq (h : Hdr) (d : R11) (a : R11) (bf : Bool) (s : State) (hc : memoriesCanonical s) : keepsCanon (execRsq h d a bf s) := by
  unfold execRsq
  repeat' (first | with_reducible assumption | with_reducible apply canon_finish | with_reducible apply canon_next | with_reducible apply canon_fault | with_reducible apply canon_refused | with_reducible apply canon_negotiatedFirst | with_reducible apply canon_special)
theorem canon_execEx2 (h : Hdr) (d : R11) (a : R11) (bf : Bool) (s : State) (hc : memoriesCanonical s) : keepsCanon (execEx2 h d a bf s) := by
  unfold execEx2
  repeat' (first | with_reducible assumption | with_reducible apply canon_finish | with_reducible apply canon_next | with_reducible apply canon_fault | with_reducible apply canon_refused | with_reducible apply canon_negotiatedFirst | with_reducible apply canon_special)
theorem canon_execLg2 (h : Hdr) (d : R11) (a : R11) (bf : Bool) (s : State) (hc : memoriesCanonical s) : keepsCanon (execLg2 h d a bf s) := by
  unfold execLg2
  repeat' (first | with_reducible assumption | with_reducible apply canon_finish | with_reducible apply canon_next | with_reducible apply canon_fault | with_reducible apply canon_refused | with_reducible apply canon_negotiatedFirst | with_reducible apply canon_special)
theorem canon_execFrnd (h : Hdr) (d : R11) (a : R11) (m : RealMod) (s : State) (hc : memoriesCanonical s) : keepsCanon (execFrnd h d a m s) := by
  unfold execFrnd
  repeat' (first | with_reducible assumption | with_reducible apply canon_finish | with_reducible apply canon_next | with_reducible apply canon_fault | with_reducible apply canon_refused | with_reducible apply canon_negotiatedFirst | with_reducible apply canon_real1)
theorem canon_fcmp2 (h : Hdr) (len : ℕ) (a : ℕ) (b : Opnd) (c : Cond) (t : CfTy) (s : State) (hc : memoriesCanonical s) : keepsCanon (fcmp2 h len a b c t s) := by
  unfold fcmp2
  repeat' (first | with_reducible assumption | with_reducible apply canon_finish | with_reducible apply canon_next | with_reducible apply canon_fault | with_reducible apply canon_refused | with_reducible apply canon_negotiatedFirst | with_reducible apply canon_pushOp)
theorem canon_execFcmp (h : Hdr) (a : R6) (b : R6) (s : State) (hc : memoriesCanonical s) : keepsCanon (execFcmp h a b s) := by
  unfold execFcmp
  repeat' (first | with_reducible assumption | with_reducible apply canon_finish | with_reducible apply canon_next | with_reducible apply canon_fault | with_reducible apply canon_refused | with_reducible apply canon_negotiatedFirst | with_reducible apply canon_fcmp2)
theorem canon_execFcmpFull (h : Hdr) (a : R11) (b : Src) (c : Cond) (t : CfTy) (s : State) (hc : memoriesCanonical s) : keepsCanon (execFcmpFull h a b c t s) := by
  unfold execFcmpFull
  repeat' (first | with_reducible assumption | with_reducible apply canon_finish | with_reducible apply canon_next | with_reducible apply canon_fault | with_reducible apply canon_refused | with_reducible apply canon_negotiatedFirst | with_reducible apply canon_fcmp2)
theorem canon_execCvt (h : Hdr) (d : R11) (a : R11) (dst : CvtTy) (src : CvtTy) (sat : Bool) (r : Rnd) (s : State) (hc : memoriesCanonical s) : keepsCanon (execCvt h d a dst src sat r s) := by
  unfold execCvt
  repeat' (first | with_reducible assumption | with_reducible apply canon_finish | with_reducible apply canon_next | with_reducible apply canon_fault | with_reducible apply canon_refused | with_reducible apply canon_negotiatedFirst | with_reducible apply canon_vop)
theorem canon_crossOp (h : Hdr) (len : ℕ) (d : ℕ) (n : ℕ) (srcs : List Opnd) (uses : ℕ → List (ℕ × List ℕ) → List (ℕ × ℕ)) (f : ℕ → List (ℕ × List ℕ) → List ℕ) (s : State) (hc : memoriesCanonical s) : keepsCanon (crossOp h len d n srcs uses f s) := by
  unfold crossOp
  repeat' (first | with_reducible assumption | with_reducible apply canon_finish | with_reducible apply canon_next | with_reducible apply canon_fault | with_reducible apply canon_refused | with_reducible apply canon_negotiatedFirst | with_reducible apply canon_onCur | with_reducible apply canon_waitFor | with_reducible apply canon_commit | with_reducible apply canon_asIfX | with_reducible apply canon_overSound | with_reducible apply canon_writeResult | (with_reducible refine canon_pair (by assumption) ?_) | (with_reducible refine canon_pair3 (by assumption) ?_) | split | dsimp only | simp only [canon_lit] | (with_reducible refine canon_team (by assumption) ?_ ?_) | with_reducible rfl | intro)
theorem canon_execBallot (h : Hdr) (d : R11) (q : BitVec 3) (s : State) (hc : memoriesCanonical s) : keepsCanon (execBallot h d q s) := by
  unfold execBallot
  repeat' (first | with_reducible assumption | with_reducible apply canon_finish | with_reducible apply canon_next | with_reducible apply canon_fault | with_reducible apply canon_refused | with_reducible apply canon_negotiatedFirst | with_reducible apply canon_crossOp)
theorem canon_execShfl (h : Hdr) (d : R11) (a : R11) (b : Src) (m : ShflMode) (s : State) (hc : memoriesCanonical s) : keepsCanon (execShfl h d a b m s) := by
  unfold execShfl
  repeat' (first | with_reducible assumption | with_reducible apply canon_finish | with_reducible apply canon_next | with_reducible apply canon_fault | with_reducible apply canon_refused | with_reducible apply canon_negotiatedFirst | with_reducible apply canon_crossOp)
theorem canon_execRed (h : Hdr) (d : R11) (a : R11) (o : RedOp) (s : State) (hc : memoriesCanonical s) : keepsCanon (execRed h d a o s) := by
  unfold execRed
  repeat' (first | with_reducible assumption | with_reducible apply canon_finish | with_reducible apply canon_next | with_reducible apply canon_fault | with_reducible apply canon_refused | with_reducible apply canon_negotiatedFirst | with_reducible apply canon_crossOp)
theorem canon_execScan (h : Hdr) (d : R11) (a : R11) (o : RedOp) (s : State) (hc : memoriesCanonical s) : keepsCanon (execScan h d a o s) := by
  unfold execScan
  repeat' (first | with_reducible assumption | with_reducible apply canon_finish | with_reducible apply canon_next | with_reducible apply canon_fault | with_reducible apply canon_refused | with_reducible apply canon_negotiatedFirst | with_reducible apply canon_crossOp)
theorem canon_execBcast (h : Hdr) (d : R11) (a : R11) (b : Src) (s : State) (hc : memoriesCanonical s) : keepsCanon (execBcast h d a b s) := by
  unfold execBcast
  repeat' (first | with_reducible assumption | with_reducible apply canon_finish | with_reducible apply canon_next | with_reducible apply canon_fault | with_reducible apply canon_refused | with_reducible apply canon_negotiatedFirst | with_reducible apply canon_crossOp)
theorem canon_execForm (h : Hdr) (d : R11) (a : R11) (s : State) (hc : memoriesCanonical s) : keepsCanon (execForm h d a s) := by
  unfold execForm
  repeat' (first | with_reducible assumption | with_reducible apply canon_finish | with_reducible apply canon_next | with_reducible apply canon_fault | with_reducible apply canon_refused | with_reducible apply canon_negotiatedFirst | with_reducible apply canon_regFrame | with_reducible apply canon_placementCut | with_reducible apply canon_commit | (with_reducible refine canon_pair (by assumption) ?_) | (with_reducible refine canon_pair3 (by assumption) ?_) | split | dsimp only | simp only [canon_lit] | (with_reducible refine canon_team (by assumption) ?_ ?_) | with_reducible rfl | intro)
theorem canon_execTableWalkDone (die : ℕ) (c : ℕ) (page : ℕ) (s : State) (hc : memoriesCanonical s) : keepsCanon (execTableWalkDone die c page s) := by
  unfold execTableWalkDone
  repeat' (first | with_reducible assumption | with_reducible apply canon_finish | with_reducible apply canon_next | with_reducible apply canon_fault | with_reducible apply canon_refused | with_reducible apply canon_negotiatedFirst | with_reducible apply canon_engineWalk | with_reducible apply canon_wakeStalls | with_reducible apply canon_hostLeaf | with_reducible apply canon_answerEngines | with_reducible apply canon_answerWalk | with_reducible apply canon_tlbInsert | (with_reducible apply canon_foldl; intro a x ha) | (with_reducible refine canon_pair (by assumption) ?_) | (with_reducible refine canon_pair3 (by assumption) ?_) | split | dsimp only | simp only [canon_lit])
theorem canon_execAtsCompletion (c : ℕ) (page : ℕ) (ans : AtsAnswer) (s : State) (hc : memoriesCanonical s) : keepsCanon (execAtsCompletion c page ans s) := by
  unfold execAtsCompletion
  repeat' (first | with_reducible assumption | with_reducible apply canon_finish | with_reducible apply canon_next | with_reducible apply canon_fault | with_reducible apply canon_refused | with_reducible apply canon_negotiatedFirst | with_reducible apply canon_mapCmds | with_reducible apply canon_retryWalk | with_reducible apply canon_tlbInsert | with_reducible apply canon_keepHostPage | with_reducible apply canon_answerEngines | with_reducible apply canon_answerWalk | (with_reducible apply canon_foldl; intro a x ha) | (with_reducible refine canon_pair (by assumption) ?_) | (with_reducible refine canon_pair3 (by assumption) ?_) | split | dsimp only | simp only [canon_lit])
theorem canon_execInvalidate (die : ℕ) (c : ℕ) (lo : ℕ) (hi : ℕ) (s : State) (hc : memoriesCanonical s) : keepsCanon (execInvalidate die c lo hi s) := by
  unfold execInvalidate
  repeat' (first | with_reducible assumption | with_reducible apply canon_finish | with_reducible apply canon_next | with_reducible apply canon_fault | with_reducible apply canon_refused | with_reducible apply canon_negotiatedFirst | (with_reducible refine canon_pair (by assumption) ?_) | (with_reducible refine canon_pair3 (by assumption) ?_) | split | dsimp only | simp only [canon_lit])
theorem canon_execInvalidateComplete (die : ℕ) (s : State) (hc : memoriesCanonical s) : keepsCanon (execInvalidateComplete die s) := by
  unfold execInvalidateComplete
  repeat' (first | with_reducible assumption | with_reducible apply canon_finish | with_reducible apply canon_next | with_reducible apply canon_fault | with_reducible apply canon_refused | with_reducible apply canon_negotiatedFirst | with_reducible apply canon_invalidateDie | with_reducible apply canon_answerAtsInvals | (with_reducible refine canon_pair (by assumption) ?_) | (with_reducible refine canon_pair3 (by assumption) ?_) | split | dsimp only | simp only [canon_lit])
theorem canon_execAtsInvalidateRequest (pasid : ℕ) (va : ℕ) (size : ℕ) (s : State) (hc : memoriesCanonical s) : keepsCanon (execAtsInvalidateRequest pasid va size s) := by
  unfold execAtsInvalidateRequest
  repeat' (first | with_reducible assumption | with_reducible apply canon_finish | with_reducible apply canon_next | with_reducible apply canon_fault | with_reducible apply canon_refused | with_reducible apply canon_negotiatedFirst | with_reducible apply canon_fresh | with_reducible apply canon_answerAtsInvals | (with_reducible refine canon_pair (by assumption) ?_) | (with_reducible refine canon_pair3 (by assumption) ?_) | split | dsimp only | simp only [canon_lit])
theorem canon_memFrame (h : Hdr) (rs : List ℕ) (dests : List ℕ) (stack : Bool) (f : State → Strand → State) (s : State) (hf : ∀ a y0, memoriesCanonical a → memoriesCanonical (f a y0)) (hc : memoriesCanonical s) : keepsCanon (memFrame h rs dests stack f s) := by
  unfold memFrame
  repeat' (first | with_reducible assumption | with_reducible apply canon_finish | with_reducible apply canon_next | with_reducible apply canon_fault | with_reducible apply canon_refused | with_reducible apply canon_negotiatedFirst | with_reducible apply canon_onCur | with_reducible apply canon_waitFor | (with_reducible refine canon_pair (by assumption) ?_) | (with_reducible refine canon_pair3 (by assumption) ?_) | split | dsimp only | simp only [canon_lit] | with_reducible apply hf | (with_reducible refine canon_team (by assumption) ?_ ?_) | with_reducible rfl | intro)
theorem canon_execLd (h : Hdr) (d : R11) (a : R11) (k : R11) (z : MemSz) (nt : Bool) (s : State) (hc : memoriesCanonical s) : keepsCanon (execLd h d a k z nt s) := by
  unfold execLd
  repeat' (first | with_reducible assumption | with_reducible apply canon_finish | with_reducible apply canon_next | with_reducible apply canon_fault | with_reducible apply canon_refused | with_reducible apply canon_negotiatedFirst | (intro a st locs ha) | with_reducible apply canon_memFrame | with_reducible apply canon_advance | with_reducible apply canon_formOnlyTrap | with_reducible apply canon_waitRoom | with_reducible apply canon_withAccesses | with_reducible apply canon_checkLoad | with_reducible apply canon_issueLoad | with_reducible apply canon_touch | (with_reducible refine canon_pair (by assumption) ?_) | (with_reducible refine canon_pair3 (by assumption) ?_) | split | dsimp only | simp only [canon_lit] | (with_reducible refine canon_team (by assumption) ?_ ?_) | with_reducible rfl | intro)
theorem canon_execSt (h : Hdr) (a : R11) (b : Src) (k : R11) (z : MemSz) (nt : Bool) (s : State) (hc : memoriesCanonical s) : keepsCanon (execSt h a b k z nt s) := by
  unfold execSt
  repeat' (first | with_reducible assumption | with_reducible apply canon_finish | with_reducible apply canon_next | with_reducible apply canon_fault | with_reducible apply canon_refused | with_reducible apply canon_negotiatedFirst | with_reducible apply canon_memFrame | with_reducible apply canon_advance | with_reducible apply canon_waitRoom | with_reducible apply canon_withAccesses | with_reducible apply canon_storeLocs | with_reducible apply canon_touch | (with_reducible refine canon_pair (by assumption) ?_) | (with_reducible refine canon_pair3 (by assumption) ?_) | split | dsimp only | simp only [canon_lit] | (with_reducible refine canon_team (by assumption) ?_ ?_) | with_reducible rfl | intro)
theorem canon_execLda (h : Hdr) (d : R11) (a : R11) (k : R11) (wide : Bool) (sc : Scope) (s : State) (hc : memoriesCanonical s) : keepsCanon (execLda h d a k wide sc s) := by
  unfold execLda
  repeat' (first | with_reducible assumption | with_reducible apply canon_finish | with_reducible apply canon_next | with_reducible apply canon_fault | with_reducible apply canon_refused | with_reducible apply canon_negotiatedFirst | (intro a st locs ha) | with_reducible apply canon_memFrame | with_reducible apply canon_advance | with_reducible apply canon_formOnlyTrap | with_reducible apply canon_waitRoom | with_reducible apply canon_withAccesses | with_reducible apply canon_checkLoad | with_reducible apply canon_issueLoad | with_reducible apply canon_touch | (with_reducible refine canon_pair (by assumption) ?_) | (with_reducible refine canon_pair3 (by assumption) ?_) | split | dsimp only | simp only [canon_lit] | (with_reducible refine canon_team (by assumption) ?_ ?_) | with_reducible rfl | intro)
theorem canon_execStl (h : Hdr) (a : R11) (b : Src) (k : R11) (wide : Bool) (sc : Scope) (s : State) (hc : memoriesCanonical s) : keepsCanon (execStl h a b k wide sc s) := by
  unfold execStl
  repeat' (first | with_reducible assumption | with_reducible apply canon_finish | with_reducible apply canon_next | with_reducible apply canon_fault | with_reducible apply canon_refused | with_reducible apply canon_negotiatedFirst | with_reducible apply canon_memFrame | with_reducible apply canon_advance | with_reducible apply canon_waitRoom | with_reducible apply canon_withAccesses | with_reducible apply canon_storeLocs | with_reducible apply canon_touch | (with_reducible refine canon_pair (by assumption) ?_) | (with_reducible refine canon_pair3 (by assumption) ?_) | split | dsimp only | simp only [canon_lit] | (with_reducible refine canon_team (by assumption) ?_ ?_) | with_reducible rfl | intro)
theorem canon_execCst (h : Hdr) (d : R11) (a : R11) (b : Src) (wide : Bool) (q : BitVec 3) (s : State) (hc : memoriesCanonical s) : keepsCanon (execCst h d a b wide q s) := by
  unfold execCst
  repeat' (first | with_reducible assumption | with_reducible apply canon_finish | with_reducible apply canon_next | with_reducible apply canon_fault | with_reducible apply canon_refused | with_reducible apply canon_negotiatedFirst | with_reducible apply canon_onCur | with_reducible apply canon_waitFor | with_reducible apply canon_withoutPoison | with_reducible apply canon_advance | with_reducible apply canon_waitRoom | with_reducible apply canon_asIfX | with_reducible apply canon_cstOn | (with_reducible refine canon_pair (by assumption) ?_) | (with_reducible refine canon_pair3 (by assumption) ?_) | split | dsimp only | simp only [canon_lit] | (with_reducible refine canon_team (by assumption) ?_ ?_) | with_reducible rfl | intro)
theorem canon_execGranuleServe (sid : ℕ) (s : State) (hc : memoriesCanonical s) : keepsCanon (execGranuleServe sid s) := by
  unfold execGranuleServe
  repeat' (first | with_reducible assumption | with_reducible apply canon_finish | with_reducible apply canon_next | with_reducible apply canon_fault | with_reducible apply canon_refused | with_reducible apply canon_negotiatedFirst | with_reducible apply canon_serveStrand | (with_reducible refine canon_pair (by assumption) ?_) | (with_reducible refine canon_pair3 (by assumption) ?_) | split)
theorem canon_execLds (h : Hdr) (d : R11) (a : R11) (k : R11) (z : ScrSz) (f : LdsQual) (s : State) (hc : memoriesCanonical s) : keepsCanon (execLds h d a k z f s) := by
  unfold execLds
  repeat' (first | with_reducible assumption | with_reducible apply canon_finish | with_reducible apply canon_next | with_reducible apply canon_fault | with_reducible apply canon_refused | with_reducible apply canon_negotiatedFirst | (intro a st locs ha) | with_reducible apply canon_memFrame | with_reducible apply canon_advance | with_reducible apply canon_placementCut | with_reducible apply canon_formOnlyTrap | with_reducible apply canon_waitRoom | with_reducible apply canon_withAccesses | with_reducible apply canon_checkLoad | with_reducible apply canon_issueLoad | with_reducible apply canon_beginGranule | with_reducible apply canon_performLoads | (with_reducible refine canon_pair (by assumption) ?_) | (with_reducible refine canon_pair3 (by assumption) ?_) | split | dsimp only | simp only [canon_lit] | (with_reducible refine canon_team (by assumption) ?_ ?_) | with_reducible rfl | intro)
theorem canon_execSts (h : Hdr) (a : R11) (b : Src) (k : R11) (z : ScrSz) (f : StsQual) (s : State) (hc : memoriesCanonical s) : keepsCanon (execSts h a b k z f s) := by
  unfold execSts
  repeat' (first | with_reducible assumption | with_reducible apply canon_finish | with_reducible apply canon_next | with_reducible apply canon_fault | with_reducible apply canon_refused | with_reducible apply canon_negotiatedFirst | with_reducible apply canon_memFrame | with_reducible apply canon_advance | with_reducible apply canon_placementCut | with_reducible apply canon_waitRoom | with_reducible apply canon_withAccesses | with_reducible apply canon_storeLocs | with_reducible apply canon_beginGranule | with_reducible apply canon_performLoads | (with_reducible refine canon_pair (by assumption) ?_) | (with_reducible refine canon_pair3 (by assumption) ?_) | split | dsimp only | simp only [canon_lit] | (with_reducible refine canon_team (by assumption) ?_ ?_) | with_reducible rfl | intro)
theorem canon_atomicInst (h : Hdr) (len : ℕ) (d : ℕ) (rs : List ℕ) (scratch : Bool) (home : Bool) (k : AtKind) (b : Opnd) (c : Opnd) (va : Strand → List ℕ) (res : State → Strand → ℕ → AccRes) (s : State) (hc : memoriesCanonical s) : keepsCanon (atomicInst h len d rs scratch home k b c va res s) := by
  unfold atomicInst
  repeat' (first | with_reducible assumption | with_reducible apply canon_finish | with_reducible apply canon_next | with_reducible apply canon_fault | with_reducible apply canon_refused | with_reducible apply canon_negotiatedFirst | with_reducible apply canon_memFrame | with_reducible apply canon_advance | with_reducible apply canon_placementCut | with_reducible apply canon_formOnlyTrap | with_reducible apply canon_waitRoom | with_reducible apply canon_withAccesses | with_reducible apply canon_issueAtoms | (with_reducible refine canon_pair (by assumption) ?_) | (with_reducible refine canon_pair3 (by assumption) ?_) | split | dsimp only | simp only [canon_lit] | with_reducible apply hres | (with_reducible refine canon_team (by assumption) ?_ ?_) | with_reducible rfl | intro)
theorem canon_execAts (h : Hdr) (d : R11) (a : R11) (b : Src) (o : AtOp) (s : State) (hc : memoriesCanonical s) : keepsCanon (execAts h d a b o s) := by
  unfold execAts
  repeat' (first | with_reducible assumption | with_reducible apply canon_finish | with_reducible apply canon_next | with_reducible apply canon_fault | with_reducible apply canon_refused | with_reducible apply canon_negotiatedFirst | with_reducible apply canon_atomicInst)
theorem canon_execAtGlobal (h : Hdr) (d : R11) (a : R11) (b : Src) (o : AtOp) (home : Bool) (s : State) (hc : memoriesCanonical s) : keepsCanon (execAtGlobal h d a b o home s) := by
  unfold execAtGlobal
  repeat' (first | with_reducible assumption | with_reducible apply canon_finish | with_reducible apply canon_next | with_reducible apply canon_fault | with_reducible apply canon_refused | with_reducible apply canon_negotiatedFirst | with_reducible apply canon_atomicInst)
theorem canon_execCas (h : Hdr) (d : R11) (a : R11) (b : Src) (c : R11) (home : Bool) (s : State) (hc : memoriesCanonical s) : keepsCanon (execCas h d a b c home s) := by
  unfold execCas
  repeat' (first | with_reducible assumption | with_reducible apply canon_finish | with_reducible apply canon_next | with_reducible apply canon_fault | with_reducible apply canon_refused | with_reducible apply canon_negotiatedFirst | with_reducible apply canon_atomicInst)
theorem canon_execAtc (h : Hdr) (d : R11) (a : R11) (b : Src) (c : R11) (s : State) (hc : memoriesCanonical s) : keepsCanon (execAtc h d a b c s) := by
  unfold execAtc
  repeat' (first | with_reducible assumption | with_reducible apply canon_finish | with_reducible apply canon_next | with_reducible apply canon_fault | with_reducible apply canon_refused | with_reducible apply canon_negotiatedFirst | with_reducible apply canon_memFrame | with_reducible apply canon_advance | with_reducible apply canon_waitRoom | with_reducible apply canon_withAccesses | with_reducible apply canon_issueAtoms | (with_reducible refine canon_pair (by assumption) ?_) | (with_reducible refine canon_pair3 (by assumption) ?_) | split | dsimp only | simp only [canon_lit] | (with_reducible refine canon_team (by assumption) ?_ ?_) | with_reducible rfl | intro)
theorem canon_execAtPacket (oid : ℕ) (s : State) (hc : memoriesCanonical s) : keepsCanon (execAtPacket oid s) := by
  unfold execAtPacket
  repeat' (first | with_reducible assumption | with_reducible apply canon_finish | with_reducible apply canon_next | with_reducible apply canon_fault | with_reducible apply canon_refused | with_reducible apply canon_negotiatedFirst | with_reducible apply canon_servePackets)
theorem canon_execFence (h : Hdr) (k : FenceKind) (sc : Scope) (s : State) (hc : memoriesCanonical s) : keepsCanon (execFence h k sc s) := by
  unfold execFence
  repeat' (first | with_reducible assumption | with_reducible apply canon_finish | with_reducible apply canon_next | with_reducible apply canon_fault | with_reducible apply canon_refused | with_reducible apply canon_negotiatedFirst | with_reducible apply canon_strandFrame | with_reducible apply canon_fenceStep | with_reducible apply canon_performLoads | with_reducible apply canon_releaseL1 | with_reducible apply canon_advance | with_reducible apply canon_acquireL1 | (with_reducible apply canon_foldl; intro a x ha) | (with_reducible refine canon_pair (by assumption) ?_) | (with_reducible refine canon_pair3 (by assumption) ?_) | split | dsimp only | simp only [canon_lit] | (with_reducible refine canon_team (by assumption) ?_ ?_) | with_reducible rfl | intro)
theorem canon_execPref (h : Hdr) (a : R11) (k : R11) (s : State) (hc : memoriesCanonical s) : keepsCanon (execPref h a k s) := by
  unfold execPref
  repeat' (first | with_reducible assumption | with_reducible apply canon_finish | with_reducible apply canon_next | with_reducible apply canon_fault | with_reducible apply canon_refused | with_reducible apply canon_negotiatedFirst | with_reducible apply canon_onCur | with_reducible apply canon_waitFor | with_reducible apply canon_startWalk | with_reducible apply canon_advance | with_reducible apply canon_prefetchLine | with_reducible apply canon_dropRes | (with_reducible apply canon_foldl; intro a x ha) | (with_reducible refine canon_pair (by assumption) ?_) | (with_reducible refine canon_pair3 (by assumption) ?_) | split | dsimp only | simp only [canon_lit] | (with_reducible refine canon_team (by assumption) ?_ ?_) | with_reducible rfl | intro)
theorem canon_slotFrame (h : Hdr) (len : ℕ) (rs : List ℕ) (d : ℕ) (f : State → Strand → LayoutBits → State) (s : State) (hf : ∀ a y0 y1, memoriesCanonical a → memoriesCanonical (f a y0 y1)) (hc : memoriesCanonical s) : keepsCanon (slotFrame h len rs d f s) := by
  unfold slotFrame
  repeat' (first | with_reducible assumption | with_reducible apply canon_finish | with_reducible apply canon_next | with_reducible apply canon_fault | with_reducible apply canon_refused | with_reducible apply canon_negotiatedFirst | with_reducible apply canon_strandFrame | with_reducible apply canon_stallStrand | with_reducible apply canon_readSlot | (with_reducible refine canon_pair (by assumption) ?_) | (with_reducible refine canon_pair3 (by assumption) ?_) | split | dsimp only | simp only [canon_lit] | with_reducible apply hf | (with_reducible refine canon_team (by assumption) ?_ ?_) | with_reducible rfl | intro)
theorem canon_seIssue (h : Hdr) (kind : Option SeKind) (d : BitVec 5) (b : Src) (e : BitVec 2) (s : State) (hc : memoriesCanonical s) : keepsCanon (seIssue h kind d b e s) := by
  unfold seIssue
  repeat' (first | with_reducible assumption | with_reducible apply canon_finish | with_reducible apply canon_next | with_reducible apply canon_fault | with_reducible apply canon_refused | with_reducible apply canon_negotiatedFirst | with_reducible apply canon_slotFrame | with_reducible apply canon_recTrap | with_reducible apply canon_waitRoom | with_reducible apply canon_advance | with_reducible apply canon_setSlot | with_reducible apply canon_stallStrand | with_reducible apply canon_addOp | with_reducible apply canon_queueCmd | (with_reducible refine canon_pair (by assumption) ?_) | (with_reducible refine canon_pair3 (by assumption) ?_) | split | dsimp only | simp only [canon_lit] | (with_reducible refine canon_team (by assumption) ?_ ?_) | with_reducible rfl | intro)
theorem canon_execSeFill (h : Hdr) (d : BitVec 5) (b : Src) (e : BitVec 2) (s : State) (hc : memoriesCanonical s) : keepsCanon (execSeFill h d b e s) := by
  unfold execSeFill
  repeat' (first | with_reducible assumption | with_reducible apply canon_finish | with_reducible apply canon_next | with_reducible apply canon_fault | with_reducible apply canon_refused | with_reducible apply canon_negotiatedFirst | with_reducible apply canon_seIssue)
theorem canon_execSeDrain (h : Hdr) (d : BitVec 5) (b : Src) (e : BitVec 2) (s : State) (hc : memoriesCanonical s) : keepsCanon (execSeDrain h d b e s) := by
  unfold execSeDrain
  repeat' (first | with_reducible assumption | with_reducible apply canon_finish | with_reducible apply canon_next | with_reducible apply canon_fault | with_reducible apply canon_refused | with_reducible apply canon_negotiatedFirst | with_reducible apply canon_seIssue)
theorem canon_execSeFillw (h : Hdr) (d : BitVec 5) (b : Src) (e : BitVec 2) (s : State) (hc : memoriesCanonical s) : keepsCanon (execSeFillw h d b e s) := by
  unfold execSeFillw
  repeat' (first | with_reducible assumption | with_reducible apply canon_finish | with_reducible apply canon_next | with_reducible apply canon_fault | with_reducible apply canon_refused | with_reducible apply canon_negotiatedFirst | with_reducible apply canon_seIssue)
theorem canon_execSeAdv (h : Hdr) (d : BitVec 5) (b : Src) (e : BitVec 2) (s : State) (hc : memoriesCanonical s) : keepsCanon (execSeAdv h d b e s) := by
  unfold execSeAdv
  repeat' (first | with_reducible assumption | with_reducible apply canon_finish | with_reducible apply canon_next | with_reducible apply canon_fault | with_reducible apply canon_refused | with_reducible apply canon_negotiatedFirst | with_reducible apply canon_seIssue)
theorem canon_slotAccess (h : Hdr) (d : BitVec 5) (a : R11) (k : R11) (store : Bool) (f : State → Strand → LayoutBits → Space → ℕ → ℕ → State) (s : State) (hf : ∀ a y0 y1 y2 y3 y4, memoriesCanonical a → memoriesCanonical (f a y0 y1 y2 y3 y4)) (hc : memoriesCanonical s) : keepsCanon (slotAccess h d a k store f s) := by
  unfold slotAccess
  repeat' (first | with_reducible assumption | with_reducible apply canon_finish | with_reducible apply canon_next | with_reducible apply canon_fault | with_reducible apply canon_refused | with_reducible apply canon_negotiatedFirst | with_reducible apply canon_slotFrame | with_reducible apply canon_startWalk | with_reducible apply canon_askFor | with_reducible apply canon_recTrap | with_reducible apply canon_dropRes | (with_reducible refine canon_pair (by assumption) ?_) | (with_reducible refine canon_pair3 (by assumption) ?_) | split | dsimp only | simp only [canon_lit] | with_reducible apply hf | (intro t ht; with_reducible exact ht) | (with_reducible refine canon_team (by assumption) ?_ ?_) | with_reducible rfl | intro)
theorem canon_execDld (h : Hdr) (d : BitVec 5) (a : R11) (k : R11) (s : State) (hc : memoriesCanonical s) : keepsCanon (execDld h d a k s) := by
  unfold execDld
  repeat' (first | with_reducible assumption | with_reducible apply canon_finish | with_reducible apply canon_next | with_reducible apply canon_fault | with_reducible apply canon_refused | with_reducible apply canon_negotiatedFirst | with_reducible apply canon_slotAccess | with_reducible apply canon_waitRoom | with_reducible apply canon_advance | with_reducible apply canon_addOp | with_reducible apply canon_performSame | with_reducible apply canon_cacheUse | (with_reducible refine canon_pair (by assumption) ?_) | (with_reducible refine canon_pair3 (by assumption) ?_) | split | dsimp only | simp only [canon_lit] | (with_reducible refine canon_team (by assumption) ?_ ?_) | with_reducible rfl | intro)
theorem canon_execDst (h : Hdr) (d : BitVec 5) (a : R11) (k : R11) (s : State) (hc : memoriesCanonical s) : keepsCanon (execDst h d a k s) := by
  unfold execDst
  repeat' (first | with_reducible assumption | with_reducible apply canon_finish | with_reducible apply canon_next | with_reducible apply canon_fault | with_reducible apply canon_refused | with_reducible apply canon_negotiatedFirst | with_reducible apply canon_slotAccess | with_reducible apply canon_waitRoom | with_reducible apply canon_advance | with_reducible apply canon_issueStores | with_reducible apply canon_cacheUse | (with_reducible refine canon_pair (by assumption) ?_) | (with_reducible refine canon_pair3 (by assumption) ?_) | split | dsimp only | simp only [canon_lit] | (with_reducible refine canon_team (by assumption) ?_ ?_) | with_reducible rfl | intro)
theorem canon_execEngineFill (core : ℕ) (e : ℕ) (s : State) (hc : memoriesCanonical s) : keepsCanon (execEngineFill core e s) := by
  unfold execEngineFill
  repeat' (first | with_reducible assumption | with_reducible apply canon_finish | with_reducible apply canon_next | with_reducible apply canon_fault | with_reducible apply canon_refused | with_reducible apply canon_negotiatedFirst | with_reducible apply canon_engineStep | with_reducible apply canon_whenMoved | with_reducible apply canon_endFill | with_reducible apply canon_moveElems | with_reducible apply canon_fillElem | with_reducible apply canon_appendHome | (with_reducible refine canon_pair (by assumption) ?_) | (with_reducible refine canon_pair3 (by assumption) ?_) | split | dsimp only | simp only [canon_lit] | (with_reducible refine canon_team (by assumption) ?_ ?_) | with_reducible rfl | intro)
theorem canon_execEngineDrain (core : ℕ) (e : ℕ) (s : State) (hc : memoriesCanonical s) : keepsCanon (execEngineDrain core e s) := by
  unfold execEngineDrain
  repeat' (first | with_reducible assumption | with_reducible apply canon_finish | with_reducible apply canon_next | with_reducible apply canon_fault | with_reducible apply canon_refused | with_reducible apply canon_negotiatedFirst | with_reducible apply canon_engineStep | with_reducible apply canon_whenMoved | with_reducible apply canon_imageRead | with_reducible apply canon_readImage | with_reducible apply canon_finishCmd | with_reducible apply canon_moveElems | with_reducible apply canon_drainElem | (with_reducible refine canon_pair (by assumption) ?_) | (with_reducible refine canon_pair3 (by assumption) ?_) | split | dsimp only | simp only [canon_lit] | (with_reducible refine canon_team (by assumption) ?_ ?_) | with_reducible rfl | intro)
theorem canon_execEngineFillw (core : ℕ) (e : ℕ) (s : State) (hc : memoriesCanonical s) : keepsCanon (execEngineFillw core e s) := by
  unfold execEngineFillw
  apply canon_finish
  refine canon_engineStep _ _ _ _ _ _ _ (fun a ha => ?_) hc
  refine canon_whenMoved _ _ _ _ (fun cmd b hb => canon_endFillw _ _ _ _ hb) ?_
  exact canon_moveElems _ _ _ _ _ (fun b cmd x hb => canon_fillElem _ _ _ _ _ _ (fun cmd n bs b hb => canon_writeWeights _ _ _ _ hb) hb) ha
theorem canon_execMloop (h : Hdr) (m : BitVec 3) (f : R11) (w : Src) (d : BitVec 5) (ksteps : BitVec 6) (incA : Bool) (incB : Bool) (s : State) (hc : memoriesCanonical s) : keepsCanon (execMloop h m f w d ksteps incA incB s) := by
  unfold execMloop
  repeat' (first | with_reducible assumption | with_reducible apply canon_finish | with_reducible apply canon_next | with_reducible apply canon_fault | with_reducible apply canon_refused | with_reducible apply canon_negotiatedFirst | with_reducible apply canon_slotFrame | with_reducible apply canon_recTrap | with_reducible apply canon_stallStrand | with_reducible apply canon_markClash | with_reducible apply canon_setSlot | with_reducible apply canon_updTile | with_reducible apply canon_queueTile | with_reducible apply canon_writeResult | with_reducible apply canon_advance | (with_reducible refine canon_pair (by assumption) ?_) | (with_reducible refine canon_pair3 (by assumption) ?_) | split | dsimp only | simp only [canon_lit] | (with_reducible refine canon_team (by assumption) ?_ ?_) | with_reducible rfl | intro)
theorem canon_execMfence (h : Hdr) (s : State) (hc : memoriesCanonical s) : keepsCanon (execMfence h s) := by
  unfold execMfence
  repeat' (first | with_reducible assumption | with_reducible apply canon_finish | with_reducible apply canon_next | with_reducible apply canon_fault | with_reducible apply canon_refused | with_reducible apply canon_negotiatedFirst | with_reducible apply canon_strandFrame | with_reducible apply canon_performStores | with_reducible apply canon_drainWhere | with_reducible apply canon_advance | with_reducible apply canon_updTeam | (with_reducible refine canon_pair (by assumption) ?_) | (with_reducible refine canon_pair3 (by assumption) ?_) | split | dsimp only | simp only [canon_lit] | (with_reducible refine canon_team (by assumption) ?_ ?_) | with_reducible rfl | intro)
theorem canon_execMwait (h : Hdr) (m : BitVec 3) (s : State) (hc : memoriesCanonical s) : keepsCanon (execMwait h m s) := by
  unfold execMwait
  repeat' (first | with_reducible assumption | with_reducible apply canon_finish | with_reducible apply canon_next | with_reducible apply canon_fault | with_reducible apply canon_refused | with_reducible apply canon_negotiatedFirst | with_reducible apply canon_strandFrame | with_reducible apply canon_trapWhole | with_reducible apply canon_endRun | with_reducible apply canon_mwaitComplete | with_reducible apply canon_blockOn | (with_reducible refine canon_pair (by assumption) ?_) | (with_reducible refine canon_pair3 (by assumption) ?_) | split | dsimp only | simp only [canon_lit] | (with_reducible refine canon_team (by assumption) ?_ ?_) | with_reducible rfl | intro)
theorem canon_execMwaitSatisfied (sid : ℕ) (s : State) (hc : memoriesCanonical s) : keepsCanon (execMwaitSatisfied sid s) := by
  unfold execMwaitSatisfied
  repeat' (first | with_reducible assumption | with_reducible apply canon_finish | with_reducible apply canon_next | with_reducible apply canon_fault | with_reducible apply canon_refused | with_reducible apply canon_negotiatedFirst | with_reducible apply canon_mwaitComplete | (with_reducible refine canon_pair (by assumption) ?_) | (with_reducible refine canon_pair3 (by assumption) ?_) | split)
theorem canon_execMclr (h : Hdr) (m : BitVec 3) (s : State) (hc : memoriesCanonical s) : keepsCanon (execMclr h m s) := by
  unfold execMclr
  repeat' (first | with_reducible assumption | with_reducible apply canon_finish | with_reducible apply canon_next | with_reducible apply canon_fault | with_reducible apply canon_refused | with_reducible apply canon_negotiatedFirst | with_reducible apply canon_strandFrame | with_reducible apply canon_trapWhole | with_reducible apply canon_waitRoom | with_reducible apply canon_markClash | with_reducible apply canon_advance | with_reducible apply canon_queueTile | (with_reducible refine canon_pair (by assumption) ?_) | (with_reducible refine canon_pair3 (by assumption) ?_) | split | dsimp only | simp only [canon_lit] | (with_reducible refine canon_team (by assumption) ?_ ?_) | with_reducible rfl | intro)
theorem canon_execMrd (h : Hdr) (d : R11) (m : BitVec 3) (b : Src) (r : Rnd) (blk : BitVec 6) (f : MrdFmt) (sat : Bool) (s : State) (hc : memoriesCanonical s) : keepsCanon (execMrd h d m b r blk f sat s) := by
  unfold execMrd
  repeat' (first | with_reducible assumption | with_reducible apply canon_finish | with_reducible apply canon_next | with_reducible apply canon_fault | with_reducible apply canon_refused | with_reducible apply canon_negotiatedFirst | with_reducible apply canon_strandFrame | with_reducible apply canon_formTrap | with_reducible apply canon_trapWhole | with_reducible apply canon_formOnlyTrap | with_reducible apply canon_stallStrand | with_reducible apply canon_mrdIssue | with_reducible apply canon_waitRoom | (with_reducible refine canon_pair (by assumption) ?_) | (with_reducible refine canon_pair3 (by assumption) ?_) | split | dsimp only | simp only [canon_lit] | (with_reducible refine canon_team (by assumption) ?_ ?_) | with_reducible rfl | intro)
theorem canon_execMatrixMloopExec (core : ℕ) (s : State) (hc : memoriesCanonical s) : keepsCanon (execMatrixMloopExec core s) := by
  unfold execMatrixMloopExec
  repeat' (first | with_reducible assumption | with_reducible apply canon_finish | with_reducible apply canon_next | with_reducible apply canon_fault | with_reducible apply canon_refused | with_reducible apply canon_negotiatedFirst | with_reducible apply canon_drainWhere | with_reducible apply canon_finishMx | with_reducible apply canon_updTile | with_reducible apply canon_draw | with_reducible apply canon_setFull | (with_reducible apply canon_foldl; intro a x ha) | (with_reducible refine canon_pair (by assumption) ?_) | (with_reducible refine canon_pair3 (by assumption) ?_) | split | dsimp only)
theorem canon_execMclrDone (oid : ℕ) (s : State) (hc : memoriesCanonical s) : keepsCanon (execMclrDone oid s) := by
  unfold execMclrDone
  repeat' (first | with_reducible assumption | with_reducible apply canon_finish | with_reducible apply canon_next | with_reducible apply canon_fault | with_reducible apply canon_refused | with_reducible apply canon_negotiatedFirst | with_reducible apply canon_finishMx | with_reducible apply canon_updTile | (with_reducible refine canon_pair (by assumption) ?_) | (with_reducible refine canon_pair3 (by assumption) ?_) | split)
theorem canon_execMrdReadoutDone (oid : ℕ) (s : State) (hc : memoriesCanonical s) : keepsCanon (execMrdReadoutDone oid s) := by
  unfold execMrdReadoutDone
  repeat' (first | with_reducible assumption | with_reducible apply canon_finish | with_reducible apply canon_next | with_reducible apply canon_fault | with_reducible apply canon_refused | with_reducible apply canon_negotiatedFirst | with_reducible apply canon_finishMx | with_reducible apply canon_landAll | with_reducible apply canon_appendHome | with_reducible apply canon_setHomePoison | with_reducible apply canon_fillGranule | (with_reducible apply canon_foldl; intro a x ha) | (with_reducible refine canon_pair (by assumption) ?_) | (with_reducible refine canon_pair3 (by assumption) ?_) | split | dsimp only | simp only [canon_lit])
theorem canon_execSread (h : Hdr) (d : R11) (sel : R11) (s : State) (hc : memoriesCanonical s) : keepsCanon (execSread h d sel s) := by
  unfold execSread
  repeat' (first | with_reducible assumption | with_reducible apply canon_finish | with_reducible apply canon_next | with_reducible apply canon_fault | with_reducible apply canon_refused | with_reducible apply canon_negotiatedFirst | with_reducible apply canon_regFrame | with_reducible apply canon_advance | with_reducible apply canon_placementCut | with_reducible apply canon_commitThen | (with_reducible refine canon_pair (by assumption) ?_) | (with_reducible refine canon_pair3 (by assumption) ?_) | split | dsimp only | simp only [canon_lit] | (with_reducible refine canon_team (by assumption) ?_ ?_) | with_reducible rfl | intro)
theorem canon_execTrap (h : Hdr) (k : R11) (s : State) (hc : memoriesCanonical s) : keepsCanon (execTrap h k s) := by
  unfold execTrap
  repeat' (first | with_reducible assumption | with_reducible apply canon_finish | with_reducible apply canon_next | with_reducible apply canon_fault | with_reducible apply canon_refused | with_reducible apply canon_negotiatedFirst | with_reducible apply canon_regFrame | with_reducible apply canon_withoutFaulting | with_reducible apply canon_advance | (with_reducible refine canon_pair (by assumption) ?_) | (with_reducible refine canon_pair3 (by assumption) ?_) | split | dsimp only | simp only [canon_lit] | (with_reducible refine canon_team (by assumption) ?_ ?_) | with_reducible rfl | intro)
theorem canon_execBkpt (h : Hdr) (k : R11) (s : State) (hc : memoriesCanonical s) : keepsCanon (execBkpt h k s) := by
  unfold execBkpt
  repeat' (first | with_reducible assumption | with_reducible apply canon_finish | with_reducible apply canon_next | with_reducible apply canon_fault | with_reducible apply canon_refused | with_reducible apply canon_negotiatedFirst | with_reducible apply canon_regFrame | with_reducible apply canon_advance | with_reducible apply canon_replaceStrand | with_reducible apply canon_eachStrand | with_reducible apply canon_debugHalt | (with_reducible apply canon_foldl; intro a x ha) | (with_reducible refine canon_pair (by assumption) ?_) | (with_reducible refine canon_pair3 (by assumption) ?_) | split | dsimp only | simp only [canon_lit] | (with_reducible refine canon_team (by assumption) ?_ ?_) | with_reducible rfl | intro)
theorem canon_execCbrk (h : Hdr) (d : R11) (a : R11) (b : Src) (cond : BitVec 3) (all : Bool) (n : BitVec 2) (s : State) (hc : memoriesCanonical s) : keepsCanon (execCbrk h d a b cond all n s) := by
  unfold execCbrk
  repeat' (first | with_reducible assumption | with_reducible apply canon_finish | with_reducible apply canon_next | with_reducible apply canon_fault | with_reducible apply canon_refused | with_reducible apply canon_negotiatedFirst | with_reducible apply canon_strandFrame | with_reducible apply canon_waitFor | with_reducible apply canon_formTrap | with_reducible apply canon_writeResult | with_reducible apply canon_updTeam | (with_reducible refine canon_pair (by assumption) ?_) | (with_reducible refine canon_pair3 (by assumption) ?_) | split | dsimp only | simp only [canon_lit] | (with_reducible refine canon_team (by assumption) ?_ ?_) | with_reducible rfl | intro)
theorem canon_execLaunch (h : Hdr) (a : R11) (b : Src) (s : State) (hc : memoriesCanonical s) : keepsCanon (execLaunch h a b s) := by
  unfold execLaunch
  repeat' (first | with_reducible assumption | with_reducible apply canon_finish | with_reducible apply canon_next | with_reducible apply canon_fault | with_reducible apply canon_refused | with_reducible apply canon_negotiatedFirst | with_reducible apply canon_strandFrame | with_reducible apply canon_formTrap | with_reducible apply canon_waitRoom | with_reducible apply canon_advance | with_reducible apply canon_addOp | with_reducible apply canon_performLoads | (with_reducible refine canon_pair (by assumption) ?_) | (with_reducible refine canon_pair3 (by assumption) ?_) | split | dsimp only | simp only [canon_lit] | (with_reducible refine canon_team (by assumption) ?_ ?_) | with_reducible rfl | intro)
theorem canon_execMoult (h : Hdr) (a : R11) (b : Src) (s : State) (hc : memoriesCanonical s) : keepsCanon (execMoult h a b s) := by
  unfold execMoult
  repeat' (first | with_reducible assumption | with_reducible apply canon_finish | with_reducible apply canon_next | with_reducible apply canon_fault | with_reducible apply canon_refused | with_reducible apply canon_negotiatedFirst | with_reducible apply canon_strandFrame | with_reducible apply canon_formTrap | with_reducible apply canon_performLoads | with_reducible apply canon_endRun | with_reducible apply canon_moultWaitDone | with_reducible apply canon_blockOn | (with_reducible refine canon_pair (by assumption) ?_) | (with_reducible refine canon_pair3 (by assumption) ?_) | split | dsimp only | simp only [canon_lit] | (with_reducible refine canon_team (by assumption) ?_ ?_) | with_reducible rfl | intro)
theorem canon_execWaitcSatisfied (sid : ℕ) (s : State) (hc : memoriesCanonical s) : keepsCanon (execWaitcSatisfied sid s) := by
  unfold execWaitcSatisfied
  repeat' (first | with_reducible assumption | with_reducible apply canon_finish | with_reducible apply canon_next | with_reducible apply canon_fault | with_reducible apply canon_refused | with_reducible apply canon_negotiatedFirst | with_reducible apply canon_waitcComplete | with_reducible apply canon_moultWaitDone | (with_reducible refine canon_pair (by assumption) ?_) | (with_reducible refine canon_pair3 (by assumption) ?_) | split)
theorem canon_execMoultSucceed (lk : ℕ) (team : ℕ) (s : State) (hc : memoriesCanonical s) : keepsCanon (execMoultSucceed lk team s) := by
  unfold execMoultSucceed
  repeat' (first | with_reducible assumption | with_reducible apply canon_finish | with_reducible apply canon_next | with_reducible apply canon_fault | with_reducible apply canon_refused | with_reducible apply canon_negotiatedFirst | with_reducible apply canon_tryMoult | with_reducible apply canon_succeed | (with_reducible refine canon_pair (by assumption) ?_) | (with_reducible refine canon_pair3 (by assumption) ?_) | split | dsimp only)
theorem canon_execOperationFinish (oid : ℕ) (s : State) (hc : memoriesCanonical s) : keepsCanon (execOperationFinish oid s) := by
  have hone : ∀ (o : Op) (push : List (Nat × Bool)) (a : State) (x : Strand), memoriesCanonical a → memoriesCanonical (execOperationFinish.pushOne o push a x) := by
    intro o push a x h
    unfold execOperationFinish.pushOne
    split
    · split
      · exact h
      · dsimp only
        split
        · exact canon_landResult _ _ _ _ _ _ _ _ _ (canon_updOp _ _ _ h)
        · split
          · exact canon_landResult _ _ _ _ _ _ _ _ _ h
          · exact h
    · exact h
  have hpush : ∀ (o : Op) (push : List (Nat × Bool)), memoriesCanonical (execOperationFinish.pushStatus s o push) := by
    intro o push
    unfold execOperationFinish.pushStatus
    extract_lets s1 s2
    have h1 : memoriesCanonical s1 := canon_foldl _ _ _ (fun a x h => hone _ _ _ _ h) hc
    split
    · exact canon_wakeJoins _ _ (canon_wakeStalls _ h1)
    · split
      · exact canon_wakeJoins _ _ (canon_wakeStalls _ (canon_updOp _ _ _ h1))
      · exact canon_wakeJoins _ _ (canon_endOp _ _ (canon_updOp _ _ _ h1))
  have hd : ∀ a : State, memoriesCanonical a → memoriesCanonical (match opOf a oid with | some x => deliverOp a x | none => a) := by
    intro a h; split
    · exact canon_deliverOp _ _ h
    · exact h
  unfold execOperationFinish
  apply canon_finish
  split
  · exact hc
  · split
    · exact hc
    · dsimp only
      split
      · exact hd _ (canon_finishLoads _ _ _ hc)
      · exact hd _ (canon_finishAtoms _ _ _ hc)
      · exact hd _ (canon_finishStores _ _ _ hc)
      · exact hd _ (canon_finishSets _ _ hc)
      · exact hd _ (canon_finishLoads _ _ _ hc)
      · exact hpush _ _
      · split
        · exact hc
        · exact canon_wakeJoins _ _ (canon_endOp _ _ hc)
      · exact hd _ hc
theorem canon_execBufferDrain (entry : ℕ) (s : State) (hc : memoriesCanonical s) : keepsCanon (execBufferDrain entry s) := by
  unfold execBufferDrain
  repeat' (first | with_reducible assumption | with_reducible apply canon_finish | with_reducible apply canon_next | with_reducible apply canon_fault | with_reducible apply canon_refused | with_reducible apply canon_negotiatedFirst | with_reducible apply canon_enterHostStore | with_reducible apply canon_drainOne | (with_reducible refine canon_pair (by assumption) ?_) | (with_reducible refine canon_pair3 (by assumption) ?_) | split)
theorem canon_execAtcPacket (oid : ℕ) (s : State) (hc : memoriesCanonical s) : keepsCanon (execAtcPacket oid s) := by
  unfold execAtcPacket
  repeat' (first | with_reducible assumption | with_reducible apply canon_finish | with_reducible apply canon_next | with_reducible apply canon_fault | with_reducible apply canon_refused | with_reducible apply canon_negotiatedFirst | with_reducible apply canon_servePackets)
theorem canon_queueFrame (h : Hdr) (len : ℕ) (a : R11) (rs : List ℕ) (dests : List ℕ) (f : State → Strand → HwQueue → State) (s : State) (hf : ∀ a y0 y1, memoriesCanonical a → memoriesCanonical (f a y0 y1)) (hc : memoriesCanonical s) : keepsCanon (queueFrame h len a rs dests f s) := by
  unfold queueFrame
  repeat' (first | with_reducible assumption | with_reducible apply canon_finish | with_reducible apply canon_next | with_reducible apply canon_fault | with_reducible apply canon_refused | with_reducible apply canon_negotiatedFirst | with_reducible apply canon_strandFrame | with_reducible apply canon_waitFor | with_reducible apply canon_formTrap | with_reducible apply canon_trapWhole | (with_reducible refine canon_pair (by assumption) ?_) | (with_reducible refine canon_pair3 (by assumption) ?_) | split | dsimp only | simp only [canon_lit] | with_reducible apply hf | (with_reducible refine canon_team (by assumption) ?_ ?_) | with_reducible rfl | intro)
theorem canon_execQpop (h : Hdr) (d : R11) (a : R11) (s : State) (hc : memoriesCanonical s) : keepsCanon (execQpop h d a s) := by
  unfold execQpop
  repeat' (first | with_reducible assumption | with_reducible apply canon_finish | with_reducible apply canon_next | with_reducible apply canon_fault | with_reducible apply canon_refused | with_reducible apply canon_negotiatedFirst | with_reducible apply canon_queueFrame | with_reducible apply canon_asIfX | with_reducible apply canon_popBatch | (with_reducible refine canon_pair (by assumption) ?_) | (with_reducible refine canon_pair3 (by assumption) ?_) | split | dsimp only | simp only [canon_lit] | (with_reducible refine canon_team (by assumption) ?_ ?_) | with_reducible rfl | intro)
theorem canon_execQpush (h : Hdr) (a : R11) (b : Src) (s : State) (hc : memoriesCanonical s) : keepsCanon (execQpush h a b s) := by
  unfold execQpush
  repeat' (first | with_reducible assumption | with_reducible apply canon_finish | with_reducible apply canon_next | with_reducible apply canon_fault | with_reducible apply canon_refused | with_reducible apply canon_negotiatedFirst | with_reducible apply canon_queueFrame | with_reducible apply canon_waitRoom | with_reducible apply canon_performLoads | with_reducible apply canon_publish | with_reducible apply canon_putHq | with_reducible apply canon_addOp | with_reducible apply canon_commit | (with_reducible apply canon_foldl2; intro a x ha) | (with_reducible refine canon_pair (by assumption) ?_) | (with_reducible refine canon_pair3 (by assumption) ?_) | split | dsimp only | simp only [canon_lit] | (with_reducible refine canon_team (by assumption) ?_ ?_) | with_reducible rfl | intro)
theorem canon_execKick (q : ℕ) (tail : Word) (s0 : State) (hc : memoriesCanonical s0) : keepsCanon (execKick q tail s0) := by
  unfold execKick
  repeat' (first | with_reducible assumption | with_reducible apply canon_finish | with_reducible apply canon_next | with_reducible apply canon_fault | with_reducible apply canon_refused | with_reducible apply canon_negotiatedFirst | with_reducible apply canon_drainHost | with_reducible apply canon_enqueueReport | with_reducible apply canon_takeRecords | (with_reducible refine canon_pair (by assumption) ?_) | (with_reducible refine canon_pair3 (by assumption) ?_) | split | dsimp only | simp only [canon_lit])
theorem canon_execCdone (q : ℕ) (n : Word) (s : State) (hc : memoriesCanonical s) : keepsCanon (execCdone q n s) := by
  unfold execCdone
  repeat' (first | with_reducible assumption | with_reducible apply canon_finish | with_reducible apply canon_next | with_reducible apply canon_fault | with_reducible apply canon_refused | with_reducible apply canon_negotiatedFirst | (with_reducible refine canon_pair (by assumption) ?_) | (with_reducible refine canon_pair3 (by assumption) ?_) | split | dsimp only | simp only [canon_lit])
theorem canon_kickWrite (q : ℕ) (offset : ℕ) (x : Word) (s : State) (hc : memoriesCanonical s) : keepsCanon (kickWrite q offset x s) := by
  unfold kickWrite
  repeat' (first | with_reducible assumption | with_reducible apply canon_finish | with_reducible apply canon_next | with_reducible apply canon_fault | with_reducible apply canon_refused | with_reducible apply canon_negotiatedFirst | with_reducible apply canon_execKick | with_reducible apply canon_execCdone | (with_reducible refine canon_pair (by assumption) ?_) | (with_reducible refine canon_pair3 (by assumption) ?_) | split)
theorem canon_execCompletionWrite (q : ℕ) (s : State) (hc : memoriesCanonical s) : keepsCanon (execCompletionWrite q s) := by
  unfold execCompletionWrite
  repeat' (first | with_reducible assumption | with_reducible apply canon_finish | with_reducible apply canon_next | with_reducible apply canon_fault | with_reducible apply canon_refused | with_reducible apply canon_negotiatedFirst | with_reducible apply canon_writeCompletion)
theorem canon_execLaunchComplete (lk : ℕ) (s : State) (hc : memoriesCanonical s) : keepsCanon (execLaunchComplete lk s) := by
  unfold execLaunchComplete
  repeat' (first | with_reducible assumption | with_reducible apply canon_finish | with_reducible apply canon_next | with_reducible apply canon_fault | with_reducible apply canon_refused | with_reducible apply canon_negotiatedFirst | with_reducible apply canon_completeLaunch)
theorem canon_execContinuationTake (bdie : ℕ) (s : State) (hc : memoriesCanonical s) : keepsCanon (execContinuationTake bdie s) := by
  unfold execContinuationTake
  repeat' (first | with_reducible assumption | with_reducible apply canon_finish | with_reducible apply canon_next | with_reducible apply canon_fault | with_reducible apply canon_refused | with_reducible apply canon_negotiatedFirst | with_reducible apply canon_takeTask | with_reducible apply canon_putBdie | (with_reducible refine canon_pair (by assumption) ?_) | (with_reducible refine canon_pair3 (by assumption) ?_) | split)
theorem canon_execLaunchIntake (oid : ℕ) (s : State) (hc : memoriesCanonical s) : keepsCanon (execLaunchIntake oid s) := by
  unfold execLaunchIntake
  repeat' (first | with_reducible assumption | with_reducible apply canon_finish | with_reducible apply canon_next | with_reducible apply canon_fault | with_reducible apply canon_refused | with_reducible apply canon_negotiatedFirst | with_reducible apply canon_publish | with_reducible apply canon_wakeJoins | with_reducible apply canon_endOp | with_reducible apply canon_takeTask | (with_reducible apply canon_foldl; intro a x ha) | (with_reducible refine canon_pair (by assumption) ?_) | (with_reducible refine canon_pair3 (by assumption) ?_) | split)
theorem canon_execDispatchPass (die : ℕ) (s : State) (hc : memoriesCanonical s) : keepsCanon (execDispatchPass die s) := by
  unfold execDispatchPass
  repeat' (first | with_reducible assumption | with_reducible apply canon_finish | with_reducible apply canon_next | with_reducible apply canon_fault | with_reducible apply canon_refused | with_reducible apply canon_negotiatedFirst | with_reducible apply canon_dropDead | with_reducible apply canon_beginLaunches | with_reducible apply canon_visitClass | (with_reducible apply canon_foldl2; intro a x ha) | (with_reducible refine canon_pair (by assumption) ?_) | (with_reducible refine canon_pair3 (by assumption) ?_) | split)
theorem canon_execRdPacket (slice : ℕ) (tag : BitVec 10) (pa : ℕ) (wide : Bool) (key : BitVec 10) (s : State) (hc : memoriesCanonical s) : keepsCanon (execRdPacket slice tag pa wide key s) := by
  unfold execRdPacket
  repeat' (first | with_reducible assumption | with_reducible apply canon_finish | with_reducible apply canon_next | with_reducible apply canon_fault | with_reducible apply canon_refused | with_reducible apply canon_negotiatedFirst | with_reducible apply canon_servePacket | with_reducible apply canon_touchLine | with_reducible apply canon_settleLines | (with_reducible apply canon_foldl; intro a x ha) | (with_reducible refine canon_pair (by assumption) ?_) | (with_reducible refine canon_pair3 (by assumption) ?_) | split | dsimp only | simp only [canon_lit])
theorem canon_execWrPacket (slice : ℕ) (tag : BitVec 10) (pa : ℕ) (mask : List Bool) (data : List Byte) (key : BitVec 10) (s : State) (hc : memoriesCanonical s) : keepsCanon (execWrPacket slice tag pa mask data key s) := by
  unfold execWrPacket
  repeat' (first | with_reducible assumption | with_reducible apply canon_finish | with_reducible apply canon_next | with_reducible apply canon_fault | with_reducible apply canon_refused | with_reducible apply canon_negotiatedFirst | with_reducible apply canon_servePacket | with_reducible apply canon_touchLine | with_reducible apply canon_settleLines | with_reducible apply canon_appendHome | (with_reducible apply canon_foldl; intro a x ha) | (with_reducible refine canon_pair (by assumption) ?_) | (with_reducible refine canon_pair3 (by assumption) ?_) | split | dsimp only | simp only [canon_lit])
theorem canon_execSwapComplete (bdie : ℕ) (group : ℕ) (s : State) (hc : memoriesCanonical s) : keepsCanon (execSwapComplete bdie group s) := by
  unfold execSwapComplete
  repeat' (first | with_reducible assumption | with_reducible apply canon_finish | with_reducible apply canon_next | with_reducible apply canon_fault | with_reducible apply canon_refused | with_reducible apply canon_negotiatedFirst | with_reducible apply canon_putBdie | (with_reducible refine canon_pair (by assumption) ?_) | (with_reducible refine canon_pair3 (by assumption) ?_) | split | dsimp only | simp only [canon_lit])
theorem canon_execSwpPacket (bdie : ℕ) (tag : BitVec 10) (group : ℕ) (slot : ℕ) (pin : Bool) (s : State) (hc : memoriesCanonical s) : keepsCanon (execSwpPacket bdie tag group slot pin s) := by
  unfold execSwpPacket
  repeat' (first | with_reducible assumption | with_reducible apply canon_finish | with_reducible apply canon_next | with_reducible apply canon_fault | with_reducible apply canon_refused | with_reducible apply canon_negotiatedFirst | with_reducible apply canon_putBdie | (with_reducible refine canon_pair (by assumption) ?_) | (with_reducible refine canon_pair3 (by assumption) ?_) | split | dsimp only | simp only [canon_lit])
theorem canon_execSwapEpoch (bdie : ℕ) (s : State) (hc : memoriesCanonical s) : keepsCanon (execSwapEpoch bdie s) := by
  unfold execSwapEpoch
  repeat' (first | with_reducible assumption | with_reducible apply canon_finish | with_reducible apply canon_next | with_reducible apply canon_fault | with_reducible apply canon_refused | with_reducible apply canon_negotiatedFirst | with_reducible apply canon_putBdie | (with_reducible refine canon_pair (by assumption) ?_) | (with_reducible refine canon_pair3 (by assumption) ?_) | split | dsimp only)
theorem canon_execHmaskWrite (bdie : ℕ) (k : ℕ) (v : DWord) (s : State) (hc : memoriesCanonical s) : keepsCanon (execHmaskWrite bdie k v s) := by
  unfold execHmaskWrite
  repeat' (first | with_reducible assumption | with_reducible apply canon_finish | with_reducible apply canon_next | with_reducible apply canon_fault | with_reducible apply canon_refused | with_reducible apply canon_negotiatedFirst | with_reducible apply canon_putBdie | (with_reducible refine canon_pair (by assumption) ?_) | (with_reducible refine canon_pair3 (by assumption) ?_) | split)
theorem canon_execRegisterWrite (r : CtrlReg) (v : DWord) (s : State) (hc : memoriesCanonical s) : keepsCanon (execRegisterWrite r v s) := by
  unfold execRegisterWrite
  repeat' (first | with_reducible assumption | with_reducible apply canon_finish | with_reducible apply canon_next | with_reducible apply canon_fault | with_reducible apply canon_refused | with_reducible apply canon_negotiatedFirst | with_reducible apply canon_putBdie | with_reducible apply canon_updQueue | with_reducible apply canon_putDie | (with_reducible refine canon_pair (by assumption) ?_) | (with_reducible refine canon_pair3 (by assumption) ?_) | split)
theorem canon_execReservedInstruction (check : ℕ) (s : State) (hc : memoriesCanonical s) : keepsCanon (execReservedInstruction check s) := by
  unfold execReservedInstruction
  repeat' (first | with_reducible assumption | with_reducible apply canon_finish | with_reducible apply canon_next | with_reducible apply canon_fault | with_reducible apply canon_refused | with_reducible apply canon_negotiatedFirst | with_reducible apply canon_onCur | with_reducible apply canon_trapWhole | (with_reducible refine canon_pair (by assumption) ?_) | (with_reducible refine canon_pair3 (by assumption) ?_) | split | dsimp only | simp only [canon_lit] | (with_reducible refine canon_team (by assumption) ?_ ?_) | with_reducible rfl | intro)
theorem canon_execInstructionFetchFault (cause : ℕ) (level : ℕ) (s : State) (hc : memoriesCanonical s) : keepsCanon (execInstructionFetchFault cause level s) := by
  unfold execInstructionFetchFault
  repeat' (first | with_reducible assumption | with_reducible apply canon_finish | with_reducible apply canon_next | with_reducible apply canon_fault | with_reducible apply canon_refused | with_reducible apply canon_negotiatedFirst | with_reducible apply canon_onCur | with_reducible apply canon_trapWhole | (with_reducible refine canon_pair (by assumption) ?_) | (with_reducible refine canon_pair3 (by assumption) ?_) | split | dsimp only | simp only [canon_lit] | (with_reducible refine canon_team (by assumption) ?_ ?_) | with_reducible rfl | intro)
theorem canon_execEnginePageServiced (core : ℕ) (e : ℕ) (ok : Bool) (s : State) (hc : memoriesCanonical s) : keepsCanon (execEnginePageServiced core e ok s) := by
  unfold execEnginePageServiced
  repeat' (first | with_reducible assumption | with_reducible apply canon_finish | with_reducible apply canon_next | with_reducible apply canon_fault | with_reducible apply canon_refused | with_reducible apply canon_negotiatedFirst | with_reducible apply canon_setHead | with_reducible apply canon_makeResident | (with_reducible refine canon_pair (by assumption) ?_) | (with_reducible refine canon_pair3 (by assumption) ?_) | split)
theorem canon_execStopSelect (w : DWord) (s : State) (hc : memoriesCanonical s) : keepsCanon (execStopSelect w s) := by
  unfold execStopSelect
  repeat' (first | with_reducible assumption | with_reducible apply canon_finish | with_reducible apply canon_next | with_reducible apply canon_fault | with_reducible apply canon_refused | with_reducible apply canon_negotiatedFirst | (with_reducible refine canon_pair (by assumption) ?_) | (with_reducible refine canon_pair3 (by assumption) ?_) | split | dsimp only | simp only [canon_lit])
theorem canon_actOn (a : StopAct) (s : State) (hc : memoriesCanonical s) : keepsCanon (actOn a s) := by
  unfold actOn
  repeat' (first | with_reducible assumption | with_reducible apply canon_finish | with_reducible apply canon_next | with_reducible apply canon_fault | with_reducible apply canon_refused | with_reducible apply canon_negotiatedFirst | with_reducible apply canon_serveStop | (with_reducible refine canon_pair (by assumption) ?_) | (with_reducible refine canon_pair3 (by assumption) ?_) | split | dsimp only | simp only [canon_lit])
theorem canon_execResume (s : State) (hc : memoriesCanonical s) : keepsCanon (execResume s) := by
  unfold execResume
  repeat' (first | with_reducible assumption | with_reducible apply canon_finish | with_reducible apply canon_next | with_reducible apply canon_fault | with_reducible apply canon_refused | with_reducible apply canon_negotiatedFirst | with_reducible apply canon_actOn)
theorem canon_execSkip (s : State) (hc : memoriesCanonical s) : keepsCanon (execSkip s) := by
  unfold execSkip
  repeat' (first | with_reducible assumption | with_reducible apply canon_finish | with_reducible apply canon_next | with_reducible apply canon_fault | with_reducible apply canon_refused | with_reducible apply canon_negotiatedFirst | with_reducible apply canon_actOn)
theorem canon_execKill (s : State) (hc : memoriesCanonical s) : keepsCanon (execKill s) := by
  unfold execKill
  repeat' (first | with_reducible assumption | with_reducible apply canon_finish | with_reducible apply canon_next | with_reducible apply canon_fault | with_reducible apply canon_refused | with_reducible apply canon_negotiatedFirst | with_reducible apply canon_actOn)
theorem canon_execWrite (reg : R11) (value : Word) (s : State) (hc : memoriesCanonical s) : keepsCanon (execWrite reg value s) := by
  unfold execWrite
  repeat' (first | with_reducible assumption | with_reducible apply canon_finish | with_reducible apply canon_next | with_reducible apply canon_fault | with_reducible apply canon_refused | with_reducible apply canon_negotiatedFirst | with_reducible apply canon_actOn)
theorem canon_execFaultConsumed (c : ℕ) (n : Word) (s : State) (hc : memoriesCanonical s) : keepsCanon (execFaultConsumed c n s) := by
  unfold execFaultConsumed
  repeat' (first | with_reducible assumption | with_reducible apply canon_finish | with_reducible apply canon_next | with_reducible apply canon_fault | with_reducible apply canon_refused | with_reducible apply canon_negotiatedFirst | with_reducible apply canon_writeWaiting | with_reducible apply canon_updCtx)
theorem canon_execPriResponse (c : ℕ) (page : ℕ) (code : PriCode) (s : State) (hc : memoriesCanonical s) : keepsCanon (execPriResponse c page code s) := by
  unfold execPriResponse
  repeat' (first | with_reducible assumption | with_reducible apply canon_finish | with_reducible apply canon_next | with_reducible apply canon_fault | with_reducible apply canon_refused | with_reducible apply canon_negotiatedFirst | with_reducible apply canon_mapCmds | with_reducible apply canon_serveStop | with_reducible apply canon_migratePage | with_reducible apply canon_freeBool | (with_reducible apply canon_foldl; intro a x ha) | (with_reducible refine canon_pair (by assumption) ?_) | (with_reducible refine canon_pair3 (by assumption) ?_) | split | dsimp only | simp only [canon_lit])
theorem canon_execContextDestroy (c : ℕ) (s : State) (hc : memoriesCanonical s) : keepsCanon (execContextDestroy c s) := by
  unfold execContextDestroy
  apply canon_finish
  split
  · exact hc
  · split
    · exact hc
    · extract_lets lks s1 s2 s3
      apply canon_updCtx
      have h1 : memoriesCanonical s1 := canon_foldl _ _ _ (fun a x h => canon_completeLaunch _ _ h) (canon_killContext _ _ _ hc)
      have h2 : memoriesCanonical s2 := by
        clear_value s1
        exact canon_foldl _ _ _ (fun a x h => canon_writeCompletions _ _ h) h1
      have h3 : memoriesCanonical s3 := canon_invalidateAll _ _ _ _ h2
      clear_value s3
      refine ⟨h3.device, h3.host, h3.teams, ?_⟩
      intro k hk
      simp only [List.mem_map] at hk
      obtain ⟨u, hu, rfl⟩ := hk
      split
      · exact h3.cores u hu
      · exact h3.cores u hu
theorem canon_execStorageError (loc : ErrLoc) (correctable : Bool) (s : State) (hc : memoriesCanonical s) : keepsCanon (execStorageError loc correctable s) := by
  unfold execStorageError
  repeat' (first | with_reducible assumption | with_reducible apply canon_finish | with_reducible apply canon_next | with_reducible apply canon_fault | with_reducible apply canon_refused | with_reducible apply canon_negotiatedFirst | with_reducible apply canon_corrected | with_reducible apply canon_uncorrected | (with_reducible refine canon_pair (by assumption) ?_) | (with_reducible refine canon_pair3 (by assumption) ?_) | split)
theorem canon_execFlitCrcFail (link : ℕ) (retrained : Bool) (s : State) (hc : memoriesCanonical s) : keepsCanon (execFlitCrcFail link retrained s) := by
  unfold execFlitCrcFail
  repeat' (first | with_reducible assumption | with_reducible apply canon_finish | with_reducible apply canon_next | with_reducible apply canon_fault | with_reducible apply canon_refused | with_reducible apply canon_negotiatedFirst | with_reducible apply canon_countError | with_reducible apply canon_draw | (with_reducible refine canon_pair (by assumption) ?_) | (with_reducible refine canon_pair3 (by assumption) ?_) | split | dsimp only | simp only [canon_lit])
theorem canon_execStopRingConsumed (c : ℕ) (n : Word) (s : State) (hc : memoriesCanonical s) : keepsCanon (execStopRingConsumed c n s) := by
  unfold execStopRingConsumed
  repeat' (first | with_reducible assumption | with_reducible apply canon_finish | with_reducible apply canon_next | with_reducible apply canon_fault | with_reducible apply canon_refused | with_reducible apply canon_negotiatedFirst | (with_reducible refine canon_pair (by assumption) ?_) | (with_reducible refine canon_pair3 (by assumption) ?_) | split | dsimp only | simp only [canon_lit])
theorem canon_execSafept (h : Hdr) (mask : BitVec 8) (s : State) (hc : memoriesCanonical s) : keepsCanon (execSafept h mask s) := by
  unfold execSafept
  repeat' (first | with_reducible assumption | with_reducible apply canon_finish | with_reducible apply canon_next | with_reducible apply canon_fault | with_reducible apply canon_refused | with_reducible apply canon_negotiatedFirst | with_reducible apply canon_strandFrame | with_reducible apply canon_advance | with_reducible apply canon_endRun | with_reducible apply canon_saveIfReady | with_reducible apply canon_updTeam | (with_reducible refine canon_pair (by assumption) ?_) | (with_reducible refine canon_pair3 (by assumption) ?_) | split | dsimp only | simp only [canon_lit] | (with_reducible refine canon_team (by assumption) ?_ ?_) | with_reducible rfl | intro)
theorem canon_execPreemptRequest (lk : ℕ) (team : ℕ) (s : State) (hc : memoriesCanonical s) : keepsCanon (execPreemptRequest lk team s) := by
  unfold execPreemptRequest
  repeat' (first | with_reducible assumption | with_reducible apply canon_finish | with_reducible apply canon_next | with_reducible apply canon_fault | with_reducible apply canon_refused | with_reducible apply canon_negotiatedFirst | with_reducible apply canon_requestGang)
theorem canon_execSafeptTimeout (lk : ℕ) (team : ℕ) (s : State) (hc : memoriesCanonical s) : keepsCanon (execSafeptTimeout lk team s) := by
  unfold execSafeptTimeout
  repeat' (first | with_reducible assumption | with_reducible apply canon_finish | with_reducible apply canon_next | with_reducible apply canon_fault | with_reducible apply canon_refused | with_reducible apply canon_negotiatedFirst | with_reducible apply canon_updTeam | with_reducible apply canon_saveIfReady | (with_reducible refine canon_pair (by assumption) ?_) | (with_reducible refine canon_pair3 (by assumption) ?_) | split | dsimp only | simp only [canon_lit] | (with_reducible refine canon_team (by assumption) ?_ ?_) | with_reducible rfl | intro)
theorem canon_execTeamRestore (lk : ℕ) (team : ℕ) (s : State) (hc : memoriesCanonical s) : keepsCanon (execTeamRestore lk team s) := by
  unfold execTeamRestore
  apply canon_finish
  split
  · exact hc
  · extract_lets c ts
    have hts : ∀ x ∈ ts, teamCanonical x := fun x hx => hc.teams x (mem_together s c s.teams.length _ (fun y hy => by
      rw [List.mem_singleton] at hy; rw [hy]; exact List.mem_of_find?_eq_some (by assumption)) x hx)
    split
    · exact hc
    · split
      · exact hc
      · split
        · exact canon_foldl _ _ _ (fun a x h => canon_recordFault _ _ h) hc
        · dsimp only
          refine canon_foldl _ _ _ (fun a x h => canon_wakeTeam _ _ _ h) (canon_wakeStalls _ (canon_serveDeferred _ (canon_foldlMem _ _ _ (fun a x hx h => ?_) (canon_takeCores _ _ hc))))
          refine canon_restoreTeam _ _ _ _ (hts x hx) ?_
          cases q : loadRecord a x with
          | none => exact h
          | some r => exact canon_loadRecord _ _ h r q
theorem canon_execSliceExpiry (c : ℕ) (s : State) (hc : memoriesCanonical s) : keepsCanon (execSliceExpiry c s) := by
  unfold execSliceExpiry
  repeat' (first | with_reducible assumption | with_reducible apply canon_finish | with_reducible apply canon_next | with_reducible apply canon_fault | with_reducible apply canon_refused | with_reducible apply canon_negotiatedFirst | with_reducible apply canon_beginSlice | with_reducible apply canon_requestGang | with_reducible apply canon_updCtx | (with_reducible apply canon_foldl; intro a x ha) | (with_reducible refine canon_pair (by assumption) ?_) | (with_reducible refine canon_pair3 (by assumption) ?_) | split)
theorem canon_execSliceOverrunKill (c : ℕ) (s : State) (hc : memoriesCanonical s) : keepsCanon (execSliceOverrunKill c s) := by
  unfold execSliceOverrunKill
  repeat' (first | with_reducible assumption | with_reducible apply canon_finish | with_reducible apply canon_next | with_reducible apply canon_fault | with_reducible apply canon_refused | with_reducible apply canon_negotiatedFirst | with_reducible apply canon_enqueueReport | with_reducible apply canon_killContext | (with_reducible refine canon_pair (by assumption) ?_) | (with_reducible refine canon_pair3 (by assumption) ?_) | split)
theorem canon_called (priv : Bool) (c : Caller) (s : State) (f : Ctx → ℤ × State) (hf : ∀ a, memoriesCanonical (f a).2) (hc : memoriesCanonical s) : keepsCanon (called priv c s f) := by
  unfold called
  repeat' (first | with_reducible assumption | with_reducible apply canon_finish | with_reducible apply canon_next | with_reducible apply canon_fault | with_reducible apply canon_refused | with_reducible apply canon_negotiatedFirst | with_reducible apply canon_answer | (with_reducible refine canon_pair (by assumption) ?_) | (with_reducible refine canon_pair3 (by assumption) ?_) | split | dsimp only | simp only [canon_lit] | with_reducible apply hf)
theorem canon_execEcallLaunch (c : Caller) (addr : ℕ) (q : ℕ) (s : State) (hc : memoriesCanonical s) : keepsCanon (execEcallLaunch c addr q s) := by
  unfold execEcallLaunch
  repeat' (first | with_reducible assumption | with_reducible apply canon_finish | with_reducible apply canon_next | with_reducible apply canon_fault | with_reducible apply canon_refused | with_reducible apply canon_negotiatedFirst | with_reducible apply canon_called | with_reducible apply canon_vRead | with_reducible apply canon_takeRecord | (with_reducible refine canon_pair (by assumption) ?_) | (with_reducible refine canon_pair3 (by assumption) ?_) | split | dsimp only | simp only [canon_lit] | (intros; with_reducible assumption) | (with_reducible refine canon_team (by assumption) ?_ ?_) | with_reducible rfl | intro)
theorem canon_execQcreate (c : Caller) (ring : ℕ) (k : ℕ) (cring : ℕ) (prio : ℕ) (quantum : ℕ) (s : State) (hc : memoriesCanonical s) : keepsCanon (execQcreate c ring k cring prio quantum s) := by
  unfold execQcreate
  repeat' (first | with_reducible assumption | with_reducible apply canon_finish | with_reducible apply canon_next | with_reducible apply canon_fault | with_reducible apply canon_refused | with_reducible apply canon_negotiatedFirst | with_reducible apply canon_called | with_reducible apply canon_putDie | (with_reducible apply canon_foldl; intro a x ha) | (with_reducible refine canon_pair (by assumption) ?_) | (with_reducible refine canon_pair3 (by assumption) ?_) | split | dsimp only | simp only [canon_lit] | (intros; with_reducible assumption) | (with_reducible refine canon_team (by assumption) ?_ ?_) | with_reducible rfl | intro)
theorem canon_execQdestroy (c : Caller) (q : ℕ) (s : State) (hc : memoriesCanonical s) : keepsCanon (execQdestroy c q s) := by
  unfold execQdestroy
  repeat' (first | with_reducible assumption | with_reducible apply canon_finish | with_reducible apply canon_next | with_reducible apply canon_fault | with_reducible apply canon_refused | with_reducible apply canon_negotiatedFirst | with_reducible apply canon_called | with_reducible apply canon_writeCompletions | with_reducible apply canon_endLaunches | (with_reducible refine canon_pair (by assumption) ?_) | (with_reducible refine canon_pair3 (by assumption) ?_) | split | dsimp only | simp only [canon_lit] | (intros; with_reducible assumption) | (with_reducible refine canon_team (by assumption) ?_ ?_) | with_reducible rfl | intro)
theorem canon_execQparam (c : Caller) (q : ℕ) (prio : ℕ) (quantum : ℕ) (byplim : ℕ) (s : State) (hc : memoriesCanonical s) : keepsCanon (execQparam c q prio quantum byplim s) := by
  unfold execQparam
  repeat' (first | with_reducible assumption | with_reducible apply canon_finish | with_reducible apply canon_next | with_reducible apply canon_fault | with_reducible apply canon_refused | with_reducible apply canon_negotiatedFirst | with_reducible apply canon_called | with_reducible apply canon_updQueue | (with_reducible apply canon_foldl; intro a x ha) | (with_reducible refine canon_pair (by assumption) ?_) | (with_reducible refine canon_pair3 (by assumption) ?_) | split | dsimp only | simp only [canon_lit] | (intros; with_reducible assumption) | (with_reducible refine canon_team (by assumption) ?_ ?_) | with_reducible rfl | intro)
theorem canon_execTaskset (c : Caller) (id : ℕ) (addr : ℕ) (s : State) (hc : memoriesCanonical s) : keepsCanon (execTaskset c id addr s) := by
  unfold execTaskset
  refine canon_called _ _ _ _ (fun x => ?_) hc
  split
  · exact hc
  · dsimp only
    split
    · exact canon_devLit hc (memPuts_wf hc.device _ _)
    · split
      · exact hc
      · rename_i q
        have h1 := canon_pair q (canon_vRead _ _ _ _ hc)
        split
        · exact hc
        · exact canon_devLit h1 (memPuts_wf h1.device _ _)
theorem canon_execHqcreate (c : Caller) (k : ℕ) (s : State) (hc : memoriesCanonical s) : keepsCanon (execHqcreate c k s) := by
  unfold execHqcreate
  repeat' (first | with_reducible assumption | with_reducible apply canon_finish | with_reducible apply canon_next | with_reducible apply canon_fault | with_reducible apply canon_refused | with_reducible apply canon_negotiatedFirst | with_reducible apply canon_called | with_reducible apply canon_updCtx | (with_reducible refine canon_pair (by assumption) ?_) | (with_reducible refine canon_pair3 (by assumption) ?_) | split | dsimp only | simp only [canon_lit] | (intros; with_reducible assumption) | (with_reducible refine canon_team (by assumption) ?_ ?_) | with_reducible rfl | intro)
theorem canon_execHqdestroy (c : Caller) (handle : ℕ) (s : State) (hc : memoriesCanonical s) : keepsCanon (execHqdestroy c handle s) := by
  unfold execHqdestroy
  repeat' (first | with_reducible assumption | with_reducible apply canon_finish | with_reducible apply canon_next | with_reducible apply canon_fault | with_reducible apply canon_refused | with_reducible apply canon_negotiatedFirst | with_reducible apply canon_called | with_reducible apply canon_updCtx | (with_reducible refine canon_pair (by assumption) ?_) | (with_reducible refine canon_pair3 (by assumption) ?_) | split | dsimp only | simp only [canon_lit] | (with_reducible refine canon_team (by assumption) ?_ ?_) | with_reducible rfl | intro)
theorem canon_execMap (c : Caller) (addr : ℕ) (size : ℕ) (flags : ℕ) (key : ℕ) (s : State) (hc : memoriesCanonical s) : keepsCanon (execMap c addr size flags key s) := by
  unfold execMap
  refine canon_called _ _ _ _ (fun x => ?_) hc
  dsimp only
  repeat' split
  all_goals first
    | exact hc
    | (rename_i q; exact canon_mapRange _ _ _ _ _ _ _ _ _ hc _ q)
theorem canon_execUnmap (c : Caller) (addr : ℕ) (size : ℕ) (s : State) (hc : memoriesCanonical s) : keepsCanon (execUnmap c addr size s) := by
  unfold execUnmap
  refine canon_called _ _ _ _ (fun x => ?_) hc
  split
  · exact hc
  · split
    · exact hc
    · rename_i q; exact canon_unmapRange _ _ _ _ (canon_bringIn _ _ _ _ hc) _ q
theorem canon_execShare (c : Caller) (addr : ℕ) (size : ℕ) (token : ℕ) (s : State) (hc : memoriesCanonical s) : keepsCanon (execShare c addr size token s) := by
  unfold execShare
  refine canon_called _ _ _ _ (fun x => ?_) hc
  have hb := canon_bringIn s c.ctx addr size hc
  split
  · exact hc
  · dsimp only
    generalize bringIn s c.ctx addr size = b at hb ⊢
    split
    · split
      · exact hb
      · split
        · exact hb
        · split
          · exact hb
          · split
            · exact hb
            · rename_i q
              revert q
              refine canon_optFoldl _ _ _ (fun a e t ha ht => ?_) (fun r hr => by simp only [Option.some.injEq] at hr; rw [← hr]; exact hb) _
              simp only [Option.map_eq_some_iff] at ht
              obtain ⟨u, hu, rfl⟩ := ht
              have hm := canon_mapOne _ _ _ _ _ ha _ hu
              split
              · exact canon_lit.mpr hm
              · exact hm
    · exact hb
theorem canon_execKeyset (c : Caller) (handle : ℕ) (addr : ℕ) (flags : ℕ) (s : State) (hc : memoriesCanonical s) : keepsCanon (execKeyset c handle addr flags s) := by
  unfold execKeyset
  repeat' (first | with_reducible assumption | with_reducible apply canon_finish | with_reducible apply canon_next | with_reducible apply canon_fault | with_reducible apply canon_refused | with_reducible apply canon_negotiatedFirst | with_reducible apply canon_called | with_reducible apply canon_vRead | with_reducible apply canon_setPte | (with_reducible refine canon_pair (by assumption) ?_) | (with_reducible refine canon_pair3 (by assumption) ?_) | split | dsimp only | simp only [canon_lit] | (intros; with_reducible assumption) | (with_reducible refine canon_team (by assumption) ?_ ?_) | with_reducible rfl | intro)
theorem canon_execWindow (c : Caller) (addr : ℕ) (size : ℕ) (hq : ℕ) (flags : ℕ) (s : State) (hc : memoriesCanonical s) : keepsCanon (execWindow c addr size hq flags s) := by
  unfold execWindow
  repeat' (first | with_reducible assumption | with_reducible apply canon_finish | with_reducible apply canon_next | with_reducible apply canon_fault | with_reducible apply canon_refused | with_reducible apply canon_negotiatedFirst | with_reducible apply canon_called | (with_reducible refine canon_pair (by assumption) ?_) | (with_reducible refine canon_pair3 (by assumption) ?_) | split | dsimp only | simp only [canon_lit] | (with_reducible refine canon_team (by assumption) ?_ ?_) | with_reducible rfl | intro)
theorem canon_execFeatures (c : Caller) (s : State) (hc : memoriesCanonical s) : keepsCanon (execFeatures c s) := by
  unfold execFeatures
  repeat' (first | with_reducible assumption | with_reducible apply canon_finish | with_reducible apply canon_next | with_reducible apply canon_fault | with_reducible apply canon_refused | with_reducible apply canon_negotiatedFirst | with_reducible apply canon_called | (with_reducible refine canon_pair (by assumption) ?_) | (with_reducible refine canon_pair3 (by assumption) ?_) | split | dsimp only | simp only [canon_lit] | (intros; with_reducible assumption))
theorem canon_execSlice (c : Caller) (us : ℕ) (s : State) (hc : memoriesCanonical s) : keepsCanon (execSlice c us s) := by
  unfold execSlice
  repeat' (first | with_reducible assumption | with_reducible apply canon_finish | with_reducible apply canon_next | with_reducible apply canon_fault | with_reducible apply canon_refused | with_reducible apply canon_negotiatedFirst | with_reducible apply canon_called | with_reducible apply canon_updCtx | (with_reducible refine canon_pair (by assumption) ?_) | (with_reducible refine canon_pair3 (by assumption) ?_) | split | dsimp only | simp only [canon_lit] | (intros; with_reducible assumption) | (with_reducible refine canon_team (by assumption) ?_ ?_) | with_reducible rfl | intro)
theorem canon_execHmask (c : Caller) (addr : ℕ) (s0 : State) (hc : memoriesCanonical s0) : keepsCanon (execHmask c addr s0) := by
  unfold execHmask
  repeat' (first | with_reducible assumption | with_reducible apply canon_finish | with_reducible apply canon_next | with_reducible apply canon_fault | with_reducible apply canon_refused | with_reducible apply canon_negotiatedFirst | with_reducible apply canon_unpend | with_reducible apply canon_pend | with_reducible apply canon_called | with_reducible apply canon_vRead | with_reducible apply canon_putBdie | with_reducible apply canon_flushCaches | (with_reducible apply canon_foldl; intro a x ha) | (with_reducible refine canon_pair (by assumption) ?_) | (with_reducible refine canon_pair3 (by assumption) ?_) | split | dsimp only | simp only [canon_lit] | (with_reducible refine canon_team (by assumption) ?_ ?_) | with_reducible rfl | intro)
theorem canon_execL2mode (c : Caller) (pmap : ℕ) (s0 : State) (hc : memoriesCanonical s0) : keepsCanon (execL2mode c pmap s0) := by
  unfold execL2mode
  repeat' (first | with_reducible assumption | with_reducible apply canon_finish | with_reducible apply canon_next | with_reducible apply canon_fault | with_reducible apply canon_refused | with_reducible apply canon_negotiatedFirst | with_reducible apply canon_unpend | with_reducible apply canon_pend | with_reducible apply canon_called | with_reducible apply canon_flushCaches | with_reducible apply canon_rehomeQueue | (with_reducible apply canon_foldl; intro a x ha) | (with_reducible refine canon_pair (by assumption) ?_) | (with_reducible refine canon_pair3 (by assumption) ?_) | split | dsimp only | simp only [canon_lit] | (with_reducible refine canon_team (by assumption) ?_ ?_) | with_reducible rfl | intro)
theorem canon_execPchreset (c : Caller) (s : State) (hc : memoriesCanonical s) : keepsCanon (execPchreset c s) := by
  unfold execPchreset
  repeat' (first | with_reducible assumption | with_reducible apply canon_finish | with_reducible apply canon_next | with_reducible apply canon_fault | with_reducible apply canon_refused | with_reducible apply canon_negotiatedFirst | with_reducible apply canon_called | (with_reducible refine canon_pair (by assumption) ?_) | (with_reducible refine canon_pair3 (by assumption) ?_) | split | dsimp only | simp only [canon_lit] | (intros; with_reducible assumption))
theorem canon_execMigrate (c : Caller) (id : ℕ) (device : ℕ) (s : State) (hc : memoriesCanonical s) : keepsCanon (execMigrate c id device s) := by
  unfold execMigrate
  repeat' (first | with_reducible assumption | with_reducible apply canon_finish | with_reducible apply canon_next | with_reducible apply canon_fault | with_reducible apply canon_refused | with_reducible apply canon_negotiatedFirst | with_reducible apply canon_called | with_reducible apply canon_updLaunch | with_reducible apply canon_requestGang | with_reducible apply canon_departIfSaved | (with_reducible apply canon_foldl; intro a x ha) | (with_reducible refine canon_pair (by assumption) ?_) | (with_reducible refine canon_pair3 (by assumption) ?_) | split | dsimp only | simp only [canon_lit] | (intros; with_reducible assumption) | (with_reducible refine canon_team (by assumption) ?_ ?_) | with_reducible rfl | intro)
theorem canon_execCtxparam (c : Caller) (ctx : ℕ) (addr : ℕ) (s : State) (hc : memoriesCanonical s) : keepsCanon (execCtxparam c ctx addr s) := by
  unfold execCtxparam
  repeat' (first | with_reducible assumption | with_reducible apply canon_finish | with_reducible apply canon_next | with_reducible apply canon_fault | with_reducible apply canon_refused | with_reducible apply canon_negotiatedFirst | with_reducible apply canon_called | with_reducible apply canon_vRead | with_reducible apply canon_updCtx | (with_reducible refine canon_pair (by assumption) ?_) | (with_reducible refine canon_pair3 (by assumption) ?_) | split | dsimp only | simp only [canon_lit] | (intros; with_reducible assumption) | (with_reducible refine canon_team (by assumption) ?_ ?_) | with_reducible rfl | intro)
theorem canon_execUnknownCall (c : Caller) (_num : ℕ) (s : State) (hc : memoriesCanonical s) : keepsCanon (execUnknownCall c _num s) := by
  unfold execUnknownCall
  repeat' (first | with_reducible assumption | with_reducible apply canon_finish | with_reducible apply canon_next | with_reducible apply canon_fault | with_reducible apply canon_refused | with_reducible apply canon_negotiatedFirst | with_reducible apply canon_called | (with_reducible refine canon_pair (by assumption) ?_) | (with_reducible refine canon_pair3 (by assumption) ?_) | split | dsimp only | simp only [canon_lit] | (intros; with_reducible assumption))
theorem canon_execBundleLoad (c : ℕ) (pasid : BitVec 20) (file : List Byte) (s : State) (hc : memoriesCanonical s) : keepsCanon (execBundleLoad c pasid file s) := by
  unfold execBundleLoad
  apply canon_finish
  split
  · exact hc
  · dsimp only
    split
    · rename_i q
      refine canon_lit.mpr ?_
      simp only [Option.bind_eq_some_iff] at q
      obtain ⟨ms, _, q⟩ := q
      split at q
      · cases q
      · simp only [Option.bind_eq_some_iff] at q
        obtain ⟨s1, h1, q⟩ := q
        have hn := canon_newContext _ _ _ _ hc _ h1
        revert q
        refine canon_optFoldl _ _ _ (fun a m t ha ht => ?_) (fun r hr => by simp only [Option.some.injEq] at hr; rw [← hr]; exact hn) _
        split at ht
        · exact canon_loadPieces _ _ _ _ ha _ ht
        · exact canon_loadIof _ _ _ _ ha _ ht
    · exact canon_lit.mpr hc
theorem canon_execAttach (c : ℕ) (sampleK : Option ℕ) (traceK : Option ℕ) (period : ℕ) (s : State) (hc : memoriesCanonical s) : keepsCanon (execAttach c sampleK traceK period s) := by
  unfold execAttach
  repeat' (first | with_reducible assumption | with_reducible apply canon_finish | with_reducible apply canon_next | with_reducible apply canon_fault | with_reducible apply canon_refused | with_reducible apply canon_negotiatedFirst | with_reducible apply canon_observed | (with_reducible refine canon_pair (by assumption) ?_) | (with_reducible refine canon_pair3 (by assumption) ?_) | split | dsimp only | simp only [canon_lit])
theorem canon_execDetach (c : ℕ) (s : State) (hc : memoriesCanonical s) : keepsCanon (execDetach c s) := by
  unfold execDetach
  apply canon_finish
  split
  · exact hc
  · extract_lets mine s1
    apply canon_observed
    apply canon_wakeHalted
    refine ⟨hc.device, hc.host, ?_, hc.cores⟩
    intro t ht
    simp only [s1, List.mem_map] at ht
    obtain ⟨u, hu, rfl⟩ := ht
    split
    · exact hc.teams u hu
    · exact hc.teams u hu
theorem canon_execHalt (c : ℕ) (launch : ℕ) (team : Option ℕ) (s : State) (hc : memoriesCanonical s) : keepsCanon (execHalt c launch team s) := by
  unfold execHalt
  repeat' (first | with_reducible assumption | with_reducible apply canon_finish | with_reducible apply canon_next | with_reducible apply canon_fault | with_reducible apply canon_refused | with_reducible apply canon_negotiatedFirst | with_reducible apply canon_debugHalt | (with_reducible apply canon_foldl; intro a x ha) | (with_reducible refine canon_pair (by assumption) ?_) | (with_reducible refine canon_pair3 (by assumption) ?_) | split)
theorem canon_execDebugResume (c : ℕ) (stop : ℕ) (s : State) (hc : memoriesCanonical s) : keepsCanon (execDebugResume c stop s) := by
  unfold execDebugResume
  repeat' (first | with_reducible assumption | with_reducible apply canon_finish | with_reducible apply canon_next | with_reducible apply canon_fault | with_reducible apply canon_refused | with_reducible apply canon_negotiatedFirst | with_reducible apply canon_endHalt | (with_reducible refine canon_pair (by assumption) ?_) | (with_reducible refine canon_pair3 (by assumption) ?_) | split | dsimp only | simp only [canon_lit])
theorem canon_execStep (c : ℕ) (stop : ℕ) (s : State) (hc : memoriesCanonical s) : keepsCanon (execStep c stop s) := by
  unfold execStep
  repeat' (first | with_reducible assumption | with_reducible apply canon_finish | with_reducible apply canon_next | with_reducible apply canon_fault | with_reducible apply canon_refused | with_reducible apply canon_negotiatedFirst | with_reducible apply canon_endHalt | (with_reducible refine canon_pair (by assumption) ?_) | (with_reducible refine canon_pair3 (by assumption) ?_) | split)
theorem canon_execRead (c : ℕ) (stop : ℕ) (t : ObsTarget) (s : State) (hc : memoriesCanonical s) : keepsCanon (execRead c stop t s) := by
  unfold execRead
  repeat' (first | with_reducible assumption | with_reducible apply canon_finish | with_reducible apply canon_next | with_reducible apply canon_fault | with_reducible apply canon_refused | with_reducible apply canon_negotiatedFirst | with_reducible apply canon_observed | with_reducible apply canon_vRead | (with_reducible refine canon_pair (by assumption) ?_) | (with_reducible refine canon_pair3 (by assumption) ?_) | split | dsimp only | simp only [canon_lit])
theorem canon_execDebugWrite (c : ℕ) (stop : ℕ) (t : ObsTarget) (value : Word) (s : State) (hc : memoriesCanonical s) : keepsCanon (execDebugWrite c stop t value s) := by
  unfold execDebugWrite
  apply canon_finish
  split
  · exact hc
  · split
    · exact canon_foldl _ _ _ (fun a x h => canon_putStrand _ _ h) hc
    · split
      · split
        · exact canon_lit.mpr hc
        · exact canon_devLit hc (memPuts_wf hc.device _ _)
      · exact canon_vWrite _ _ _ _ _ _ hc
    · exact hc
    · exact hc
theorem canon_execDump (c : ℕ) (launch : ℕ) (s : State) (hc : memoriesCanonical s) : keepsCanon (execDump c launch s) := by
  unfold execDump
  repeat' (first | with_reducible assumption | with_reducible apply canon_finish | with_reducible apply canon_next | with_reducible apply canon_fault | with_reducible apply canon_refused | with_reducible apply canon_negotiatedFirst | with_reducible apply canon_observed | with_reducible apply canon_updAttach | with_reducible apply canon_requestGang | (with_reducible apply canon_foldl; intro a x ha) | (with_reducible refine canon_pair (by assumption) ?_) | (with_reducible refine canon_pair3 (by assumption) ?_) | split | dsimp only | simp only [canon_lit])
theorem canon_execSample (core : ℕ) (part : ℕ) (s : State) (hc : memoriesCanonical s) : keepsCanon (execSample core part s) := by
  unfold execSample
  repeat' (first | with_reducible assumption | with_reducible apply canon_finish | with_reducible apply canon_next | with_reducible apply canon_fault | with_reducible apply canon_refused | with_reducible apply canon_negotiatedFirst | with_reducible apply canon_updAttach | (with_reducible apply canon_foldl; intro a x ha))
theorem canon_execRdmaWrite (conn : ℕ) (rkey : ℕ) (va : ℕ) (data : List Byte) (s : State) (hc : memoriesCanonical s) : keepsCanon (execRdmaWrite conn rkey va data s) := by
  unfold execRdmaWrite
  repeat' (first | with_reducible assumption | with_reducible apply canon_finish | with_reducible apply canon_next | with_reducible apply canon_fault | with_reducible apply canon_refused | with_reducible apply canon_negotiatedFirst | with_reducible apply canon_takesRequests | with_reducible apply canon_marked | with_reducible apply canon_withPages | with_reducible apply canon_rdmaReply | with_reducible apply canon_remoteStore | (with_reducible refine canon_pair (by assumption) ?_) | (with_reducible refine canon_pair3 (by assumption) ?_) | split | dsimp only | simp only [canon_lit] | (with_reducible refine canon_team (by assumption) ?_ ?_) | with_reducible rfl | intro)
theorem canon_execRdmaWriteWithImmediate (conn : ℕ) (rkey : ℕ) (va : ℕ) (data : List Byte) (imm : Word) (s : State) (hc : memoriesCanonical s) : keepsCanon (execRdmaWriteWithImmediate conn rkey va data imm s) := by
  unfold execRdmaWriteWithImmediate
  repeat' (first | with_reducible assumption | with_reducible apply canon_finish | with_reducible apply canon_next | with_reducible apply canon_fault | with_reducible apply canon_refused | with_reducible apply canon_negotiatedFirst | with_reducible apply canon_takesRequests | with_reducible apply canon_marked | with_reducible apply canon_withPages | with_reducible apply canon_rdmaReply | with_reducible apply canon_remoteStore | with_reducible apply canon_putHq | (with_reducible refine canon_pair (by assumption) ?_) | (with_reducible refine canon_pair3 (by assumption) ?_) | split | dsimp only | simp only [canon_lit] | (with_reducible refine canon_team (by assumption) ?_ ?_) | with_reducible rfl | intro)
theorem canon_execRdmaRead (conn : ℕ) (rkey : ℕ) (va : ℕ) (len : ℕ) (s : State) (hc : memoriesCanonical s) : keepsCanon (execRdmaRead conn rkey va len s) := by
  unfold execRdmaRead
  repeat' (first | with_reducible assumption | with_reducible apply canon_finish | with_reducible apply canon_next | with_reducible apply canon_fault | with_reducible apply canon_refused | with_reducible apply canon_negotiatedFirst | with_reducible apply canon_takesRequests | with_reducible apply canon_marked | with_reducible apply canon_withPages | with_reducible apply canon_rdmaReply | with_reducible apply canon_vRead | (with_reducible refine canon_pair (by assumption) ?_) | (with_reducible refine canon_pair3 (by assumption) ?_) | split | dsimp only | simp only [canon_lit] | (with_reducible refine canon_team (by assumption) ?_ ?_) | with_reducible rfl | intro)
theorem canon_execRdmaInvalidRequest (conn : ℕ) (s : State) (hc : memoriesCanonical s) : keepsCanon (execRdmaInvalidRequest conn s) := by
  unfold execRdmaInvalidRequest
  repeat' (first | with_reducible assumption | with_reducible apply canon_finish | with_reducible apply canon_next | with_reducible apply canon_fault | with_reducible apply canon_refused | with_reducible apply canon_negotiatedFirst | with_reducible apply canon_takesRequests | with_reducible apply canon_rdmaReply | with_reducible apply canon_marked | (with_reducible refine canon_pair (by assumption) ?_) | (with_reducible refine canon_pair3 (by assumption) ?_) | split | dsimp only | simp only [canon_lit] | (with_reducible refine canon_team (by assumption) ?_ ?_) | with_reducible rfl | intro)
theorem canon_execColdReset (s : State) (hc : memoriesCanonical s) : keepsCanon (execColdReset s) := by
  have h1 : ∀ sec (ns : List Nat), memoriesCanonical { State.reset with agenda := s.agenda, sched := s.sched, nfree := s.nfree, out := s.out, choices := s.choices, sec := sec, cores := ns.map (fun n => { Core.fresh n with failed := true }) } := by
    intro sec ns
    refine ⟨rfl, fun e he => ?_, fun t ht => ?_, ?_⟩
    · cases he
    · cases ht
    · intro k hk
      simp only [List.mem_map] at hk
      obtain ⟨n, _, rfl⟩ := hk
      rfl
  unfold execColdReset
  apply canon_finish
  dsimp only
  split
  · exact canon_fromStage1 _ _ (h1 _ _)
  · split
    · exact canon_fromStage1 _ _ (h1 _ _)
    · exact canon_haltBoot _ _ _ (h1 _ _)
theorem canon_execRecoveryImage (img : List Byte) (s : State) (hc : memoriesCanonical s) : keepsCanon (execRecoveryImage img s) := by
  unfold execRecoveryImage
  repeat' (first | with_reducible assumption | with_reducible apply canon_finish | with_reducible apply canon_next | with_reducible apply canon_fault | with_reducible apply canon_refused | with_reducible apply canon_negotiatedFirst | with_reducible apply canon_fromStage1 | (with_reducible refine canon_pair (by assumption) ?_) | (with_reducible refine canon_pair3 (by assumption) ?_) | split)
theorem canon_execHostStageImage (img : List Byte) (s : State) (hc : memoriesCanonical s) : keepsCanon (execHostStageImage img s) := by
  unfold execHostStageImage
  repeat' (first | with_reducible assumption | with_reducible apply canon_finish | with_reducible apply canon_next | with_reducible apply canon_fault | with_reducible apply canon_refused | with_reducible apply canon_negotiatedFirst | with_reducible apply canon_startMboelaor | with_reducible apply canon_haltBoot | (with_reducible refine canon_pair (by assumption) ?_) | (with_reducible refine canon_pair3 (by assumption) ?_) | split)
theorem canon_execFullService (s : State) (hc : memoriesCanonical s) : keepsCanon (execFullService s) := by
  unfold execFullService
  repeat' (first | with_reducible assumption | with_reducible apply canon_finish | with_reducible apply canon_next | with_reducible apply canon_fault | with_reducible apply canon_refused | with_reducible apply canon_negotiatedFirst | with_reducible apply canon_setClocks | (with_reducible refine canon_pair (by assumption) ?_) | (with_reducible refine canon_pair3 (by assumption) ?_) | split | dsimp only | simp only [canon_lit])
theorem canon_execOwnkeyAdd (c : OwnkeyCmd) (s : State) (hc : memoriesCanonical s) : keepsCanon (execOwnkeyAdd c s) := by
  unfold execOwnkeyAdd
  repeat' (first | with_reducible assumption | with_reducible apply canon_finish | with_reducible apply canon_next | with_reducible apply canon_fault | with_reducible apply canon_refused | with_reducible apply canon_negotiatedFirst | with_reducible apply canon_reply | (with_reducible refine canon_pair (by assumption) ?_) | (with_reducible refine canon_pair3 (by assumption) ?_) | split | dsimp only | simp only [canon_lit])
theorem canon_execOwnkeyRevoke (c : OwnkeyCmd) (s : State) (hc : memoriesCanonical s) : keepsCanon (execOwnkeyRevoke c s) := by
  unfold execOwnkeyRevoke
  repeat' (first | with_reducible assumption | with_reducible apply canon_finish | with_reducible apply canon_next | with_reducible apply canon_fault | with_reducible apply canon_refused | with_reducible apply canon_negotiatedFirst | with_reducible apply canon_reply | (with_reducible refine canon_pair (by assumption) ?_) | (with_reducible refine canon_pair3 (by assumption) ?_) | split | dsimp only | simp only [canon_lit])
theorem canon_execMinsvnRaise (stage : ℕ) (svn : ℕ) (s : State) (hc : memoriesCanonical s) : keepsCanon (execMinsvnRaise stage svn s) := by
  unfold execMinsvnRaise
  repeat' (first | with_reducible assumption | with_reducible apply canon_finish | with_reducible apply canon_next | with_reducible apply canon_fault | with_reducible apply canon_refused | with_reducible apply canon_negotiatedFirst | (with_reducible refine canon_pair (by assumption) ?_) | (with_reducible refine canon_pair3 (by assumption) ?_) | split | dsimp only | simp only [canon_lit])
theorem canon_execUnlockReq (s : State) (hc : memoriesCanonical s) : keepsCanon (execUnlockReq s) := by
  unfold execUnlockReq
  repeat' (first | with_reducible assumption | with_reducible apply canon_finish | with_reducible apply canon_next | with_reducible apply canon_fault | with_reducible apply canon_refused | with_reducible apply canon_negotiatedFirst | with_reducible apply canon_reply | (with_reducible refine canon_pair (by assumption) ?_) | (with_reducible refine canon_pair3 (by assumption) ?_) | split | dsimp only | simp only [canon_lit])
theorem canon_execUnlock (token : List Byte) (s : State) (hc : memoriesCanonical s) : keepsCanon (execUnlock token s) := by
  unfold execUnlock
  repeat' (first | with_reducible assumption | with_reducible apply canon_finish | with_reducible apply canon_next | with_reducible apply canon_fault | with_reducible apply canon_refused | with_reducible apply canon_negotiatedFirst | with_reducible apply canon_reply | with_reducible apply canon_unlockNow | (with_reducible refine canon_pair (by assumption) ?_) | (with_reducible refine canon_pair3 (by assumption) ?_) | split | dsimp only | simp only [canon_lit])
theorem canon_responderIn (p : SpdmPort) (handshake : Bool) (s : State) (f : State → State × String × List ℕ) (hf : ∀ a, memoriesCanonical a → memoriesCanonical (f a).1) (hc : memoriesCanonical s) : keepsCanon (responderIn p handshake s f) := by
  unfold responderIn
  repeat' (first | with_reducible assumption | with_reducible apply canon_finish | with_reducible apply canon_next | with_reducible apply canon_fault | with_reducible apply canon_refused | with_reducible apply canon_negotiatedFirst | with_reducible apply canon_countAnswer | (with_reducible refine canon_pair (by assumption) ?_) | (with_reducible refine canon_pair3 (by assumption) ?_) | split | dsimp only | simp only [canon_lit] | with_reducible apply hf)
theorem canon_responder (p : SpdmPort) (s : State) (f : State → State × String × List ℕ) (hf : ∀ a, memoriesCanonical a → memoriesCanonical (f a).1) (hc : memoriesCanonical s) : keepsCanon (responder p s f) := by
  unfold responder
  repeat' (first | with_reducible assumption | with_reducible apply canon_finish | with_reducible apply canon_next | with_reducible apply canon_fault | with_reducible apply canon_refused | with_reducible apply canon_negotiatedFirst | with_reducible apply canon_responderIn)
theorem canon_execGetVersion (p : SpdmPort) (s : State) (hc : memoriesCanonical s) : keepsCanon (execGetVersion p s) := by
  unfold execGetVersion
  repeat' (first | with_reducible assumption | with_reducible apply canon_finish | with_reducible apply canon_next | with_reducible apply canon_fault | with_reducible apply canon_refused | with_reducible apply canon_negotiatedFirst | with_reducible apply canon_responder | (with_reducible refine canon_pair (by assumption) ?_) | (with_reducible refine canon_pair3 (by assumption) ?_) | split | dsimp only | simp only [canon_lit] | (intro t ht; with_reducible exact ht))
theorem canon_execGetCapabilities (p : SpdmPort) (s : State) (hc : memoriesCanonical s) : keepsCanon (execGetCapabilities p s) := by
  unfold execGetCapabilities
  repeat' (first | with_reducible assumption | with_reducible apply canon_finish | with_reducible apply canon_next | with_reducible apply canon_fault | with_reducible apply canon_refused | with_reducible apply canon_negotiatedFirst | with_reducible apply canon_responder | (with_reducible refine canon_pair (by assumption) ?_) | (with_reducible refine canon_pair3 (by assumption) ?_) | split | dsimp only | simp only [canon_lit] | (intros; with_reducible assumption) | (with_reducible refine canon_team (by assumption) ?_ ?_) | with_reducible rfl | intro)
theorem canon_execNegotiateAlgorithms (p : SpdmPort) (s : State) (hc : memoriesCanonical s) : keepsCanon (execNegotiateAlgorithms p s) := by
  unfold execNegotiateAlgorithms
  repeat' (first | with_reducible assumption | with_reducible apply canon_finish | with_reducible apply canon_next | with_reducible apply canon_fault | with_reducible apply canon_refused | with_reducible apply canon_negotiatedFirst | with_reducible apply canon_responder | (with_reducible refine canon_pair (by assumption) ?_) | (with_reducible refine canon_pair3 (by assumption) ?_) | split | dsimp only | simp only [canon_lit] | (intros; with_reducible assumption) | (with_reducible refine canon_team (by assumption) ?_ ?_) | with_reducible rfl | intro)
theorem canon_execGetDigests (p : SpdmPort) (s : State) (hc : memoriesCanonical s) : keepsCanon (execGetDigests p s) := by
  unfold execGetDigests
  repeat' (first | with_reducible assumption | with_reducible apply canon_finish | with_reducible apply canon_next | with_reducible apply canon_fault | with_reducible apply canon_refused | with_reducible apply canon_negotiatedFirst | with_reducible apply canon_responder | with_reducible apply canon_negotiatedFirst | (with_reducible refine canon_pair (by assumption) ?_) | (with_reducible refine canon_pair3 (by assumption) ?_) | split | dsimp only | simp only [canon_lit] | (with_reducible refine canon_team (by assumption) ?_ ?_) | with_reducible rfl | intro)
theorem canon_execGetCertificate (p : SpdmPort) (slot : ℕ) (s : State) (hc : memoriesCanonical s) : keepsCanon (execGetCertificate p slot s) := by
  unfold execGetCertificate
  repeat' (first | with_reducible assumption | with_reducible apply canon_finish | with_reducible apply canon_next | with_reducible apply canon_fault | with_reducible apply canon_refused | with_reducible apply canon_negotiatedFirst | with_reducible apply canon_responder | with_reducible apply canon_negotiatedFirst | (with_reducible refine canon_pair (by assumption) ?_) | (with_reducible refine canon_pair3 (by assumption) ?_) | split | dsimp only | simp only [canon_lit] | (with_reducible refine canon_team (by assumption) ?_ ?_) | with_reducible rfl | intro)
theorem canon_execChallenge (p : SpdmPort) (slot : ℕ) (nonce : BitVec 256) (s : State) (hc : memoriesCanonical s) : keepsCanon (execChallenge p slot nonce s) := by
  unfold execChallenge
  repeat' (first | with_reducible assumption | with_reducible apply canon_finish | with_reducible apply canon_next | with_reducible apply canon_fault | with_reducible apply canon_refused | with_reducible apply canon_negotiatedFirst | with_reducible apply canon_responder | with_reducible apply canon_negotiatedFirst | (with_reducible refine canon_pair (by assumption) ?_) | (with_reducible refine canon_pair3 (by assumption) ?_) | split | dsimp only | simp only [canon_lit] | (with_reducible refine canon_team (by assumption) ?_ ?_) | with_reducible rfl | intro)
theorem canon_execGetMeasurements (p : SpdmPort) (index : ℕ) (s : State) (hc : memoriesCanonical s) : keepsCanon (execGetMeasurements p index s) := by
  unfold execGetMeasurements
  repeat' (first | with_reducible assumption | with_reducible apply canon_finish | with_reducible apply canon_next | with_reducible apply canon_fault | with_reducible apply canon_refused | with_reducible apply canon_negotiatedFirst | with_reducible apply canon_responder | with_reducible apply canon_negotiatedFirst | (with_reducible refine canon_pair (by assumption) ?_) | (with_reducible refine canon_pair3 (by assumption) ?_) | split | dsimp only | simp only [canon_lit] | (with_reducible refine canon_team (by assumption) ?_ ?_) | with_reducible rfl | intro)
theorem canon_execKeyExchange (p : SpdmPort) (session : ExchangeMsg) (s : State) (hc : memoriesCanonical s) : keepsCanon (execKeyExchange p session s) := by
  unfold execKeyExchange
  repeat' (first | with_reducible assumption | with_reducible apply canon_finish | with_reducible apply canon_next | with_reducible apply canon_fault | with_reducible apply canon_refused | with_reducible apply canon_negotiatedFirst | with_reducible apply canon_responder | with_reducible apply canon_negotiatedFirst | (with_reducible refine canon_pair (by assumption) ?_) | (with_reducible refine canon_pair3 (by assumption) ?_) | split | dsimp only | simp only [canon_lit] | (with_reducible refine canon_team (by assumption) ?_ ?_) | with_reducible rfl | intro)
theorem canon_execFinish (p : SpdmPort) (session : FinishMsg) (s : State) (hc : memoriesCanonical s) : keepsCanon (execFinish p session s) := by
  unfold execFinish
  repeat' (first | with_reducible assumption | with_reducible apply canon_finish | with_reducible apply canon_next | with_reducible apply canon_fault | with_reducible apply canon_refused | with_reducible apply canon_negotiatedFirst | with_reducible apply canon_responderIn | with_reducible apply canon_negotiatedFirst | (with_reducible refine canon_pair (by assumption) ?_) | (with_reducible refine canon_pair3 (by assumption) ?_) | split | dsimp only | simp only [canon_lit] | (with_reducible refine canon_team (by assumption) ?_ ?_) | with_reducible rfl | intro)
theorem canon_execEndSession (p : SpdmPort) (session : ℕ) (s : State) (hc : memoriesCanonical s) : keepsCanon (execEndSession p session s) := by
  unfold execEndSession
  repeat' (first | with_reducible assumption | with_reducible apply canon_finish | with_reducible apply canon_next | with_reducible apply canon_fault | with_reducible apply canon_refused | with_reducible apply canon_negotiatedFirst | with_reducible apply canon_responder | with_reducible apply canon_negotiatedFirst | (with_reducible refine canon_pair (by assumption) ?_) | (with_reducible refine canon_pair3 (by assumption) ?_) | split | dsimp only | simp only [canon_lit] | (with_reducible refine canon_team (by assumption) ?_ ?_) | with_reducible rfl | intro)
theorem canon_execSpdmUnsupported (p : SpdmPort) (code : ℕ) (s : State) (hc : memoriesCanonical s) : keepsCanon (execSpdmUnsupported p code s) := by
  unfold execSpdmUnsupported
  repeat' (first | with_reducible assumption | with_reducible apply canon_finish | with_reducible apply canon_next | with_reducible apply canon_fault | with_reducible apply canon_refused | with_reducible apply canon_negotiatedFirst | with_reducible apply canon_responder | (with_reducible refine canon_pair (by assumption) ?_) | (with_reducible refine canon_pair3 (by assumption) ?_) | split | dsimp only | simp only [canon_lit] | (intro t ht; with_reducible exact ht))
theorem canon_execClockAndVoltageChange (block : ℕ) (mhz : ℕ) (mv : ℕ) (mw : ℕ) (s : State) (hc : memoriesCanonical s) : keepsCanon (execClockAndVoltageChange block mhz mv mw s) := by
  unfold execClockAndVoltageChange
  repeat' (first | with_reducible assumption | with_reducible apply canon_finish | with_reducible apply canon_next | with_reducible apply canon_fault | with_reducible apply canon_refused | with_reducible apply canon_negotiatedFirst | (with_reducible refine canon_pair (by assumption) ?_) | (with_reducible refine canon_pair3 (by assumption) ?_) | split | dsimp only | simp only [canon_lit])
theorem canon_execStrandUnbench (sid : ℕ) (s : State) (hc : memoriesCanonical s) : keepsCanon (execStrandUnbench sid s) := by
  unfold execStrandUnbench
  repeat' (first | with_reducible assumption | with_reducible apply canon_finish | with_reducible apply canon_next | with_reducible apply canon_fault | with_reducible apply canon_refused | with_reducible apply canon_negotiatedFirst | with_reducible apply canon_seat | (with_reducible refine canon_pair (by assumption) ?_) | (with_reducible refine canon_pair3 (by assumption) ?_) | split)

end Sys2Proof.Machine
end

