-- ==== Sys2Proof/Laws/Decode.lean ====
section
/-! SUPPORT. Byte order and the fields of instruction words: that a word whose fields fit decodes to those fields (R2, R82, R85 to R88). -/

namespace Sys2Proof.Machine

theorem ofBytes_toBytes (n w : Nat) : ofBytes (toBytes n w) = w % 256 ^ n := by
  induction n generalizing w with
  | zero => simp [toBytes, ofBytes, Nat.mod_one]
  | succ n ih =>
    rw [toBytes, ofBytes, ih, BitVec.toNat_ofNat, Nat.pow_succ 256 n, Nat.mul_comm (256 ^ n) 256, Nat.mod_mul]

@[simp] theorem length_toBytes (n w : Nat) : (toBytes n w).length = n := by
  induction n generalizing w with
  | zero => rfl
  | succ n ih => simp [toBytes, ih]

theorem take_toBytes (k n w : Nat) (h : k ≤ n) : (toBytes n w).take k = toBytes k w := by
  induction k generalizing n w with
  | zero => simp [toBytes]
  | succ k ih =>
    cases n with
    | zero => omega
    | succ n => simp only [toBytes, List.take_succ_cons]; rw [ih n _ (by omega)]

end Sys2Proof.Machine

namespace Sys2Proof

open Sys2Proof.Machine (bitOf field bit ofBytes toBytes ofBytes_toBytes length_toBytes take_toBytes)

/-- The fields fit the layout (R85 to R88): the fields that the layout lacks are 0. -/
structure FieldsFit (f : Fields) : Prop where
  g : f.g < 32
  op : f.op < (if f.lay = .compact then 64 else 256)
  d : f.d < (if f.lay = .compact then 64 else 2048)
  a : f.a < (if f.lay = .compact then 64 else 2048)
  bb : f.bb < (if f.lay = .compact then 64 else 2048)
  c : f.c < (if f.lay = .compact then 1 else 2048)
  fn : f.fn < (if f.lay = .compact then 1 else 16)
  lit : f.lit < (if f.lay = .lit then 2 ^ 32 else 1)

theorem field_eq (w lo n hi : Nat) (x : Nat) (h : w = hi * 2 ^ (lo + n) + x * 2 ^ lo + w % 2 ^ lo) (hx : x < 2 ^ n) : field w lo n = x := by
  unfold field
  have hp : 0 < 2 ^ lo := Nat.two_pow_pos lo
  have : w / 2 ^ lo = hi * 2 ^ n + x := by
    have e : w = 2 ^ lo * (hi * 2 ^ n + x) + w % 2 ^ lo := by
      conv_lhs => rw [h]
      rw [Nat.pow_add]; ring
    have := Nat.div_add_mod w (2 ^ lo)
    have : 2 ^ lo * (w / 2 ^ lo) = 2 ^ lo * (hi * 2 ^ n + x) := by omega
    exact Nat.eq_of_mul_eq_mul_left hp this
  rw [this, Nat.mul_add_mod_self_right, Nat.mod_eq_of_lt hx]

/-- Reading the fields of the word that fields make gives the fields. -/
theorem rawFields_word (f : Fields) (h : FieldsFit f) : rawFields f.lay f.word = f := by
  obtain ⟨lay, e, g, op, d, a, bb, c, fn, lit⟩ := f
  obtain ⟨hg, hop, hd, ha, hb, hc, hfn, hl⟩ := h
  dsimp only at hg hop hd ha hb hc hfn hl
  have be : ∀ b : Bool, bit b < 2 := by intro b; cases b <;> decide
  have b0 := be e
  have fe : ∀ w, w / 2 ^ 2 % 2 = bit e → bitOf w 2 = e := by
    intro w q; unfold bitOf; rw [q]; cases e <;> rfl
  cases lay with
  | compact =>
    simp only [if_true] at hop hd ha hb hc hfn
    simp only [reduceCtorEq, if_false] at hl
    simp only [rawFields, Fields.word, Fields.mk.injEq, true_and]
    refine ⟨fe _ ?_, ?_, ?_, ?_, ?_, ?_, ?_, ?_, ?_⟩ <;> unfold field at * <;> omega
  | full =>
    simp only [reduceCtorEq, if_false] at hop hd ha hb hc hfn hl
    simp only [rawFields, Fields.word, Fields.mk.injEq, true_and, reduceCtorEq, if_false]
    refine ⟨fe _ ?_, ?_, ?_, ?_, ?_, ?_, ?_, ?_, ?_⟩ <;> unfold field at * <;> omega
  | lit =>
    simp only [reduceCtorEq, if_false] at hop hd ha hb hc hfn
    simp only [if_true] at hl
    simp only [rawFields, Fields.word, Fields.mk.injEq, true_and, if_true]
    refine ⟨fe _ ?_, ?_, ?_, ?_, ?_, ?_, ?_, ?_, ?_⟩ <;> unfold field at * <;> omega

/-- A word whose fields fit is as long as its layout. -/
theorem word_lt (f : Fields) (h : FieldsFit f) : f.word < 256 ^ f.lay.bytes := by
  obtain ⟨lay, e, g, op, d, a, bb, c, fn, lit⟩ := f
  obtain ⟨hg, hop, hd, ha, hb, hc, hfn, hl⟩ := h
  dsimp only at hg hop hd ha hb hc hfn hl
  have be : bit e < 2 := by cases e <;> decide
  cases lay with
  | compact => simp only [if_true] at hop hd ha hb; simp only [Fields.word, Layout.bytes] at *; omega
  | full => simp only [reduceCtorEq, if_false] at hop hd ha hb hc hfn hl; simp only [Fields.word, Layout.bytes, reduceCtorEq, if_false] at *; omega
  | lit => simp only [reduceCtorEq, if_false, if_true] at hop hd ha hb hc hfn hl; simp only [Fields.word, Layout.bytes, if_true] at *; omega

theorem layoutOf_word (f : Fields) (h : FieldsFit f) : layoutOf (f.word % 256 ^ 4) = some f.lay := by
  obtain ⟨lay, e, g, op, d, a, bb, c, fn, lit⟩ := f
  have be : bit e < 2 := by cases e <;> decide
  have m : (Fields.word ⟨lay, e, g, op, d, a, bb, c, fn, lit⟩ % 256 ^ 4) % 4 = (match lay with | .compact => 0 | .full => 1 | .lit => 2) := by
    cases lay <;> simp only [Fields.word, reduceCtorEq, if_false, if_true] <;> omega
  unfold layoutOf
  rw [m]
  cases lay <;> rfl

/-- Decoding the bytes of a word is reading its fields (R82). -/
theorem decode_word (f : Fields) (h : FieldsFit f) : decode (toBytes f.lay.bytes f.word) =
    match decodeFields f with | .inl r => .reject r | .inr i => .ok i f.lay.bytes := by
  have l4 : 4 ≤ f.lay.bytes := by cases f.lay <;> decide
  unfold decode
  rw [if_neg (by rw [length_toBytes]; omega), take_toBytes _ _ _ l4, ofBytes_toBytes, layoutOf_word f h]
  dsimp only
  rw [if_neg (by rw [length_toBytes]; omega), take_toBytes _ _ _ (Nat.le_refl _), ofBytes_toBytes, Nat.mod_eq_of_lt (word_lt f h), rawFields_word f h]
  all_goals (cases decodeFields f <;> rfl)

/-! ### Codes of the modifiers: reading a code back -/

@[simp] theorem intTy_intCode (t : IntTy) (b : Bool) : intTy (intCode t + 8 * bit b) = t := by cases t <;> cases b <;> rfl
@[simp] theorem intTy_intCode' (t : IntTy) : intTy (intCode t) = t := by cases t <;> rfl
@[simp] theorem bitOf_intCode (t : IntTy) (b : Bool) : bitOf (intCode t + 8 * bit b) 3 = b := by cases t <;> cases b <;> rfl
@[simp] theorem wTy_wCode (t : WTy) : wTy (wCode t) = t := by cases t <;> rfl
@[simp] theorem realMod_code (m : RealMod) : realMod (realModCode m) = m := by rcases m with r | r | _ | _ | _ <;> (try cases r) <;> rfl
@[simp] theorem realTy_code (t : RealTy) : realTy (realCode t) = t := by cases t <;> rfl
@[simp] theorem condOf_code (c : Cond) (t : CiTy) : condOf ((4 * condCode c + ciCode t) / 4) = c := by cases c <;> cases t <;> rfl
@[simp] theorem ciTy_code (c : Cond) (t : CiTy) : ciTy (4 * condCode c + ciCode t) = t := by cases c <;> cases t <;> rfl
@[simp] theorem condOf_code' (c : Cond) (t : CfTy) : condOf ((4 * condCode c + cfCode t) / 4) = c := by cases c <;> cases t <;> rfl
@[simp] theorem cfTy_code (c : Cond) (t : CfTy) : cfTy (4 * condCode c + cfCode t) = t := by cases c <;> cases t <;> rfl
@[simp] theorem memSz_code (z : MemSz) (b : Bool) : memSz (memCode z + 8 * bit b) = z := by cases z <;> cases b <;> rfl
@[simp] theorem bitOf_memCode (z : MemSz) (b : Bool) : bitOf (memCode z + 8 * bit b) 3 = b := by cases z <;> cases b <;> rfl
@[simp] theorem scopeAt_code (s : Scope) (b : Bool) : scopeAt (8 * bit b + scopeCode s) = s := by cases s <;> cases b <;> rfl
@[simp] theorem bitOf_scopeCode (s : Scope) (b : Bool) : bitOf (8 * bit b + scopeCode s) 3 = b := by cases s <;> cases b <;> rfl
@[simp] theorem scrSz_code (z : ScrSz) (q : LdsQual) : scrSz (scrCode z + 4 * ldsCode q) = z := by cases z <;> cases q <;> rfl
@[simp] theorem ldsQual_code (z : ScrSz) (q : LdsQual) : ldsQual (scrCode z + 4 * ldsCode q) = q := by cases z <;> cases q <;> rfl
@[simp] theorem scrSz_code' (z : ScrSz) (q : StsQual) : scrSz (scrCode z + 4 * stsCode q) = z := by cases z <;> cases q <;> rfl
@[simp] theorem stsQual_code (z : ScrSz) (q : StsQual) : stsQual (scrCode z + 4 * stsCode q) = q := by cases z <;> cases q <;> rfl
@[simp] theorem atOf_code (o : AtOp) : atOf (atCode o) = o := by cases o <;> rfl
@[simp] theorem atOf_code' (o : AtOp) (b : Bool) : atOf (atCode o + 8 * bit b) = o := by cases o <;> cases b <;> rfl
@[simp] theorem bitOf_atCode (o : AtOp) (b : Bool) : bitOf (atCode o + 8 * bit b) 3 = b := by cases o <;> cases b <;> rfl
@[simp] theorem shflOf_code (m : ShflMode) : shflOf (shflCode m) = m := by cases m <;> rfl
@[simp] theorem redOf_code (o : RedOp) : redOf (redCode o) = o := by cases o <;> rfl
@[simp] theorem fenceKind_code (k : FenceKind) (s : Scope) : fenceKind (5 * fenceCode k + scopeCode s) = k := by cases k <;> cases s <;> rfl
@[simp] theorem scopeAt_fence (k : FenceKind) (s : Scope) : scopeAt ((5 * fenceCode k + scopeCode s) % 5) = s := by cases k <;> cases s <;> rfl
@[simp] theorem mrdFmt_code (f : MrdFmt) (b : Bool) : mrdFmt (mrdCode f + 8 * bit b) = f := by cases f <;> cases b <;> rfl
@[simp] theorem bitOf_mrdCode (f : MrdFmt) (b : Bool) : bitOf (mrdCode f + 8 * bit b) 3 = b := by cases f <;> cases b <;> rfl
@[simp] theorem cvtTy_dst (d s : CvtTy) (b : Bool) : cvtTy ((cvtTyCode d * 32 + cvtTyCode s + 1024 * bit b) / 32) = d := by cases d <;> cases s <;> cases b <;> rfl
@[simp] theorem cvtTy_src (d s : CvtTy) (b : Bool) : cvtTy (cvtTyCode d * 32 + cvtTyCode s + 1024 * bit b) = s := by cases d <;> cases s <;> cases b <;> rfl
@[simp] theorem rndOf_code (r : Rnd) : rndOf (rndCode r) = r := by cases r <;> rfl
@[simp] theorem guardOf_code (g : Guard) : guardOf (guardCode g) = g := by
  cases g with
  | none => rfl
  | q neg k =>
    have h : k.toNat < 8 := k.isLt
    have n : ¬ 16 + 8 * bit neg + k.toNat < 16 := by omega
    have b : bitOf (16 + 8 * bit neg + k.toNat) 3 = neg := by
      cases neg
      · simp only [bitOf, bit, Bool.false_eq_true, if_false, decide_eq_false_iff_not]; omega
      · simp only [bitOf, bit, if_true, decide_eq_true_eq]; omega
    have q : BitVec.ofNat 3 (16 + 8 * bit neg + k.toNat) = k := by
      apply BitVec.eq_of_toNat_eq
      rw [BitVec.toNat_ofNat]
      omega
    unfold guardOf guardCode
    dsimp only
    rw [b, q]
    exact if_neg n

@[simp] theorem r6_toNat (x : R6) : r6 x.toNat = x := by simp [r6]
@[simp] theorem r11_toNat (x : R11) : r11 x.toNat = x := by simp [r11]

end Sys2Proof
end

