-- ==== Sys2Proof/Laws/State.lean ====
section
/-! SUPPORT. One lemma for each field that an update of the state leaves alone, and for the one that it changes where that is plain. -/

namespace Sys2Proof.Machine

@[simp] theorem updStrand_agenda (s : State) (i : Nat) (f : Strand → Strand) : (updStrand s i f).agenda = s.agenda := rfl
@[simp] theorem updStrand_sched (s : State) (i : Nat) (f : Strand → Strand) : (updStrand s i f).sched = s.sched := rfl
@[simp] theorem updStrand_issuePhase (s : State) (i : Nat) (f : Strand → Strand) : (updStrand s i f).issuePhase = s.issuePhase := rfl
@[simp] theorem updStrand_evPtr (s : State) (i : Nat) (f : Strand → Strand) : (updStrand s i f).evPtr = s.evPtr := rfl
@[simp] theorem updStrand_nfree (s : State) (i : Nat) (f : Strand → Strand) : (updStrand s i f).nfree = s.nfree := rfl
@[simp] theorem updStrand_cur (s : State) (i : Nat) (f : Strand → Strand) : (updStrand s i f).cur = s.cur := rfl
@[simp] theorem updStrand_nextId (s : State) (i : Nat) (f : Strand → Strand) : (updStrand s i f).nextId = s.nextId := rfl
@[simp] theorem updStrand_out (s : State) (i : Nat) (f : Strand → Strand) : (updStrand s i f).out = s.out := rfl
@[simp] theorem updStrand_badAddr (s : State) (i : Nat) (f : Strand → Strand) : (updStrand s i f).badAddr = s.badAddr := rfl
@[simp] theorem updStrand_choices (s : State) (i : Nat) (f : Strand → Strand) : (updStrand s i f).choices = s.choices := rfl
@[simp] theorem updStrand_hostStores (s : State) (i : Nat) (f : Strand → Strand) : (updStrand s i f).hostStores = s.hostStores := rfl
@[simp] theorem updStrand_pendingCalls (s : State) (i : Nat) (f : Strand → Strand) : (updStrand s i f).pendingCalls = s.pendingCalls := rfl
@[simp] theorem updStrand_time (s : State) (i : Nat) (f : Strand → Strand) : (updStrand s i f).time = s.time := rfl
@[simp] theorem updStrand_slots (s : State) (i : Nat) (f : Strand → Strand) : (updStrand s i f).slots = s.slots := rfl
@[simp] theorem updStrand_drainSeq (s : State) (i : Nat) (f : Strand → Strand) : (updStrand s i f).drainSeq = s.drainSeq := rfl
@[simp] theorem updStrand_ops (s : State) (i : Nat) (f : Strand → Strand) : (updStrand s i f).ops = s.ops := rfl
@[simp] theorem updStrand_teams (s : State) (i : Nat) (f : Strand → Strand) : (updStrand s i f).teams = s.teams := rfl
@[simp] theorem updStrand_gangs (s : State) (i : Nat) (f : Strand → Strand) : (updStrand s i f).gangs = s.gangs := rfl
@[simp] theorem updStrand_launches (s : State) (i : Nat) (f : Strand → Strand) : (updStrand s i f).launches = s.launches := rfl
@[simp] theorem updStrand_cores (s : State) (i : Nat) (f : Strand → Strand) : (updStrand s i f).cores = s.cores := rfl
@[simp] theorem updStrand_dies (s : State) (i : Nat) (f : Strand → Strand) : (updStrand s i f).dies = s.dies := rfl
@[simp] theorem updStrand_mem (s : State) (i : Nat) (f : Strand → Strand) : (updStrand s i f).mem = s.mem := rfl
@[simp] theorem updStrand_memPois (s : State) (i : Nat) (f : Strand → Strand) : (updStrand s i f).memPois = s.memPois := rfl
@[simp] theorem updStrand_hostMem (s : State) (i : Nat) (f : Strand → Strand) : (updStrand s i f).hostMem = s.hostMem := rfl
@[simp] theorem updStrand_hostPois (s : State) (i : Nat) (f : Strand → Strand) : (updStrand s i f).hostPois = s.hostPois := rfl
@[simp] theorem updStrand_stores (s : State) (i : Nat) (f : Strand → Strand) : (updStrand s i f).stores = s.stores := rfl
@[simp] theorem updStrand_obs (s : State) (i : Nat) (f : Strand → Strand) : (updStrand s i f).obs = s.obs := rfl
@[simp] theorem updStrand_rels (s : State) (i : Nat) (f : Strand → Strand) : (updStrand s i f).rels = s.rels := rfl
@[simp] theorem updStrand_reads (s : State) (i : Nat) (f : Strand → Strand) : (updStrand s i f).reads = s.reads := rfl
@[simp] theorem updStrand_fences (s : State) (i : Nat) (f : Strand → Strand) : (updStrand s i f).fences = s.fences := rfl
@[simp] theorem updStrand_gsets (s : State) (i : Nat) (f : Strand → Strand) : (updStrand s i f).gsets = s.gsets := rfl
@[simp] theorem updStrand_walkReqs (s : State) (i : Nat) (f : Strand → Strand) : (updStrand s i f).walkReqs = s.walkReqs := rfl
@[simp] theorem updStrand_walkRes (s : State) (i : Nat) (f : Strand → Strand) : (updStrand s i f).walkRes = s.walkRes := rfl
@[simp] theorem updStrand_walkCache (s : State) (i : Nat) (f : Strand → Strand) : (updStrand s i f).walkCache = s.walkCache := rfl
@[simp] theorem updStrand_invals (s : State) (i : Nat) (f : Strand → Strand) : (updStrand s i f).invals = s.invals := rfl
@[simp] theorem updStrand_atsReqs (s : State) (i : Nat) (f : Strand → Strand) : (updStrand s i f).atsReqs = s.atsReqs := rfl
@[simp] theorem updStrand_atsInvals (s : State) (i : Nat) (f : Strand → Strand) : (updStrand s i f).atsInvals = s.atsInvals := rfl
@[simp] theorem updStrand_priReqs (s : State) (i : Nat) (f : Strand → Strand) : (updStrand s i f).priReqs = s.priReqs := rfl
@[simp] theorem updStrand_ctxs (s : State) (i : Nat) (f : Strand → Strand) : (updStrand s i f).ctxs = s.ctxs := rfl
@[simp] theorem updStrand_stops (s : State) (i : Nat) (f : Strand → Strand) : (updStrand s i f).stops = s.stops := rfl
@[simp] theorem updStrand_nextTicket (s : State) (i : Nat) (f : Strand → Strand) : (updStrand s i f).nextTicket = s.nextTicket := rfl
@[simp] theorem updStrand_selTicket (s : State) (i : Nat) (f : Strand → Strand) : (updStrand s i f).selTicket = s.selTicket := rfl
@[simp] theorem updStrand_selCtx (s : State) (i : Nat) (f : Strand → Strand) : (updStrand s i f).selCtx = s.selCtx := rfl
@[simp] theorem updStrand_stopNone (s : State) (i : Nat) (f : Strand → Strand) : (updStrand s i f).stopNone = s.stopNone := rfl
@[simp] theorem updStrand_stopRefused (s : State) (i : Nat) (f : Strand → Strand) : (updStrand s i f).stopRefused = s.stopRefused := rfl
@[simp] theorem updStrand_attaches (s : State) (i : Nat) (f : Strand → Strand) : (updStrand s i f).attaches = s.attaches := rfl
@[simp] theorem updStrand_dumps (s : State) (i : Nat) (f : Strand → Strand) : (updStrand s i f).dumps = s.dumps := rfl
@[simp] theorem updStrand_l2 (s : State) (i : Nat) (f : Strand → Strand) : (updStrand s i f).l2 = s.l2 := rfl
@[simp] theorem updStrand_l2lines (s : State) (i : Nat) (f : Strand → Strand) : (updStrand s i f).l2lines = s.l2lines := rfl
@[simp] theorem updStrand_packets (s : State) (i : Nat) (f : Strand → Strand) : (updStrand s i f).packets = s.packets := rfl
@[simp] theorem updStrand_bdies (s : State) (i : Nat) (f : Strand → Strand) : (updStrand s i f).bdies = s.bdies := rfl
@[simp] theorem updStrand_userqs (s : State) (i : Nat) (f : Strand → Strand) : (updStrand s i f).userqs = s.userqs := rfl
@[simp] theorem updStrand_windows (s : State) (i : Nat) (f : Strand → Strand) : (updStrand s i f).windows = s.windows := rfl
@[simp] theorem updStrand_images (s : State) (i : Nat) (f : Strand → Strand) : (updStrand s i f).images = s.images := rfl
@[simp] theorem updStrand_sec (s : State) (i : Nat) (f : Strand → Strand) : (updStrand s i f).sec = s.sec := rfl
@[simp] theorem updStrand_telemetry (s : State) (i : Nat) (f : Strand → Strand) : (updStrand s i f).telemetry = s.telemetry := rfl
@[simp] theorem updStrand_corrected (s : State) (i : Nat) (f : Strand → Strand) : (updStrand s i f).corrected = s.corrected := rfl
@[simp] theorem updStrand_allocated (s : State) (i : Nat) (f : Strand → Strand) : (updStrand s i f).allocated = s.allocated := rfl
@[simp] theorem updStrand_allocatedFast (s : State) (i : Nat) (f : Strand → Strand) : (updStrand s i f).allocatedFast = s.allocatedFast := rfl
@[simp] theorem updStrand_sysPages (s : State) (i : Nat) (f : Strand → Strand) : (updStrand s i f).sysPages = s.sysPages := rfl
@[simp] theorem updStrand_freePages (s : State) (i : Nat) (f : Strand → Strand) : (updStrand s i f).freePages = s.freePages := rfl
@[simp] theorem updStrand_shared (s : State) (i : Nat) (f : Strand → Strand) : (updStrand s i f).shared = s.shared := rfl
@[simp] theorem updStrand_oldRecords (s : State) (i : Nat) (f : Strand → Strand) : (updStrand s i f).oldRecords = s.oldRecords := rfl

@[simp] theorem putStrand_agenda (s : State) (x : Strand) : (putStrand s x).agenda = s.agenda := rfl
@[simp] theorem putStrand_sched (s : State) (x : Strand) : (putStrand s x).sched = s.sched := rfl
@[simp] theorem putStrand_issuePhase (s : State) (x : Strand) : (putStrand s x).issuePhase = s.issuePhase := rfl
@[simp] theorem putStrand_evPtr (s : State) (x : Strand) : (putStrand s x).evPtr = s.evPtr := rfl
@[simp] theorem putStrand_nfree (s : State) (x : Strand) : (putStrand s x).nfree = s.nfree := rfl
@[simp] theorem putStrand_cur (s : State) (x : Strand) : (putStrand s x).cur = s.cur := rfl
@[simp] theorem putStrand_nextId (s : State) (x : Strand) : (putStrand s x).nextId = s.nextId := rfl
@[simp] theorem putStrand_out (s : State) (x : Strand) : (putStrand s x).out = s.out := rfl
@[simp] theorem putStrand_badAddr (s : State) (x : Strand) : (putStrand s x).badAddr = s.badAddr := rfl
@[simp] theorem putStrand_choices (s : State) (x : Strand) : (putStrand s x).choices = s.choices := rfl
@[simp] theorem putStrand_hostStores (s : State) (x : Strand) : (putStrand s x).hostStores = s.hostStores := rfl
@[simp] theorem putStrand_pendingCalls (s : State) (x : Strand) : (putStrand s x).pendingCalls = s.pendingCalls := rfl
@[simp] theorem putStrand_time (s : State) (x : Strand) : (putStrand s x).time = s.time := rfl
@[simp] theorem putStrand_slots (s : State) (x : Strand) : (putStrand s x).slots = s.slots := rfl
@[simp] theorem putStrand_drainSeq (s : State) (x : Strand) : (putStrand s x).drainSeq = s.drainSeq := rfl
@[simp] theorem putStrand_ops (s : State) (x : Strand) : (putStrand s x).ops = s.ops := rfl
@[simp] theorem putStrand_teams (s : State) (x : Strand) : (putStrand s x).teams = s.teams := rfl
@[simp] theorem putStrand_gangs (s : State) (x : Strand) : (putStrand s x).gangs = s.gangs := rfl
@[simp] theorem putStrand_launches (s : State) (x : Strand) : (putStrand s x).launches = s.launches := rfl
@[simp] theorem putStrand_cores (s : State) (x : Strand) : (putStrand s x).cores = s.cores := rfl
@[simp] theorem putStrand_dies (s : State) (x : Strand) : (putStrand s x).dies = s.dies := rfl
@[simp] theorem putStrand_mem (s : State) (x : Strand) : (putStrand s x).mem = s.mem := rfl
@[simp] theorem putStrand_memPois (s : State) (x : Strand) : (putStrand s x).memPois = s.memPois := rfl
@[simp] theorem putStrand_hostMem (s : State) (x : Strand) : (putStrand s x).hostMem = s.hostMem := rfl
@[simp] theorem putStrand_hostPois (s : State) (x : Strand) : (putStrand s x).hostPois = s.hostPois := rfl
@[simp] theorem putStrand_stores (s : State) (x : Strand) : (putStrand s x).stores = s.stores := rfl
@[simp] theorem putStrand_obs (s : State) (x : Strand) : (putStrand s x).obs = s.obs := rfl
@[simp] theorem putStrand_rels (s : State) (x : Strand) : (putStrand s x).rels = s.rels := rfl
@[simp] theorem putStrand_reads (s : State) (x : Strand) : (putStrand s x).reads = s.reads := rfl
@[simp] theorem putStrand_fences (s : State) (x : Strand) : (putStrand s x).fences = s.fences := rfl
@[simp] theorem putStrand_gsets (s : State) (x : Strand) : (putStrand s x).gsets = s.gsets := rfl
@[simp] theorem putStrand_walkReqs (s : State) (x : Strand) : (putStrand s x).walkReqs = s.walkReqs := rfl
@[simp] theorem putStrand_walkRes (s : State) (x : Strand) : (putStrand s x).walkRes = s.walkRes := rfl
@[simp] theorem putStrand_walkCache (s : State) (x : Strand) : (putStrand s x).walkCache = s.walkCache := rfl
@[simp] theorem putStrand_invals (s : State) (x : Strand) : (putStrand s x).invals = s.invals := rfl
@[simp] theorem putStrand_atsReqs (s : State) (x : Strand) : (putStrand s x).atsReqs = s.atsReqs := rfl
@[simp] theorem putStrand_atsInvals (s : State) (x : Strand) : (putStrand s x).atsInvals = s.atsInvals := rfl
@[simp] theorem putStrand_priReqs (s : State) (x : Strand) : (putStrand s x).priReqs = s.priReqs := rfl
@[simp] theorem putStrand_ctxs (s : State) (x : Strand) : (putStrand s x).ctxs = s.ctxs := rfl
@[simp] theorem putStrand_stops (s : State) (x : Strand) : (putStrand s x).stops = s.stops := rfl
@[simp] theorem putStrand_nextTicket (s : State) (x : Strand) : (putStrand s x).nextTicket = s.nextTicket := rfl
@[simp] theorem putStrand_selTicket (s : State) (x : Strand) : (putStrand s x).selTicket = s.selTicket := rfl
@[simp] theorem putStrand_selCtx (s : State) (x : Strand) : (putStrand s x).selCtx = s.selCtx := rfl
@[simp] theorem putStrand_stopNone (s : State) (x : Strand) : (putStrand s x).stopNone = s.stopNone := rfl
@[simp] theorem putStrand_stopRefused (s : State) (x : Strand) : (putStrand s x).stopRefused = s.stopRefused := rfl
@[simp] theorem putStrand_attaches (s : State) (x : Strand) : (putStrand s x).attaches = s.attaches := rfl
@[simp] theorem putStrand_dumps (s : State) (x : Strand) : (putStrand s x).dumps = s.dumps := rfl
@[simp] theorem putStrand_l2 (s : State) (x : Strand) : (putStrand s x).l2 = s.l2 := rfl
@[simp] theorem putStrand_l2lines (s : State) (x : Strand) : (putStrand s x).l2lines = s.l2lines := rfl
@[simp] theorem putStrand_packets (s : State) (x : Strand) : (putStrand s x).packets = s.packets := rfl
@[simp] theorem putStrand_bdies (s : State) (x : Strand) : (putStrand s x).bdies = s.bdies := rfl
@[simp] theorem putStrand_userqs (s : State) (x : Strand) : (putStrand s x).userqs = s.userqs := rfl
@[simp] theorem putStrand_windows (s : State) (x : Strand) : (putStrand s x).windows = s.windows := rfl
@[simp] theorem putStrand_images (s : State) (x : Strand) : (putStrand s x).images = s.images := rfl
@[simp] theorem putStrand_sec (s : State) (x : Strand) : (putStrand s x).sec = s.sec := rfl
@[simp] theorem putStrand_telemetry (s : State) (x : Strand) : (putStrand s x).telemetry = s.telemetry := rfl
@[simp] theorem putStrand_corrected (s : State) (x : Strand) : (putStrand s x).corrected = s.corrected := rfl
@[simp] theorem putStrand_allocated (s : State) (x : Strand) : (putStrand s x).allocated = s.allocated := rfl
@[simp] theorem putStrand_allocatedFast (s : State) (x : Strand) : (putStrand s x).allocatedFast = s.allocatedFast := rfl
@[simp] theorem putStrand_sysPages (s : State) (x : Strand) : (putStrand s x).sysPages = s.sysPages := rfl
@[simp] theorem putStrand_freePages (s : State) (x : Strand) : (putStrand s x).freePages = s.freePages := rfl
@[simp] theorem putStrand_shared (s : State) (x : Strand) : (putStrand s x).shared = s.shared := rfl
@[simp] theorem putStrand_oldRecords (s : State) (x : Strand) : (putStrand s x).oldRecords = s.oldRecords := rfl

@[simp] theorem dropStrand_agenda (s : State) (i : Nat) : (dropStrand s i).agenda = s.agenda := rfl
@[simp] theorem dropStrand_sched (s : State) (i : Nat) : (dropStrand s i).sched = s.sched := rfl
@[simp] theorem dropStrand_issuePhase (s : State) (i : Nat) : (dropStrand s i).issuePhase = s.issuePhase := rfl
@[simp] theorem dropStrand_evPtr (s : State) (i : Nat) : (dropStrand s i).evPtr = s.evPtr := rfl
@[simp] theorem dropStrand_nfree (s : State) (i : Nat) : (dropStrand s i).nfree = s.nfree := rfl
@[simp] theorem dropStrand_cur (s : State) (i : Nat) : (dropStrand s i).cur = s.cur := rfl
@[simp] theorem dropStrand_nextId (s : State) (i : Nat) : (dropStrand s i).nextId = s.nextId := rfl
@[simp] theorem dropStrand_out (s : State) (i : Nat) : (dropStrand s i).out = s.out := rfl
@[simp] theorem dropStrand_badAddr (s : State) (i : Nat) : (dropStrand s i).badAddr = s.badAddr := rfl
@[simp] theorem dropStrand_choices (s : State) (i : Nat) : (dropStrand s i).choices = s.choices := rfl
@[simp] theorem dropStrand_hostStores (s : State) (i : Nat) : (dropStrand s i).hostStores = s.hostStores := rfl
@[simp] theorem dropStrand_pendingCalls (s : State) (i : Nat) : (dropStrand s i).pendingCalls = s.pendingCalls := rfl
@[simp] theorem dropStrand_time (s : State) (i : Nat) : (dropStrand s i).time = s.time := rfl
@[simp] theorem dropStrand_slots (s : State) (i : Nat) : (dropStrand s i).slots = s.slots := rfl
@[simp] theorem dropStrand_drainSeq (s : State) (i : Nat) : (dropStrand s i).drainSeq = s.drainSeq := rfl
@[simp] theorem dropStrand_ops (s : State) (i : Nat) : (dropStrand s i).ops = s.ops := rfl
@[simp] theorem dropStrand_teams (s : State) (i : Nat) : (dropStrand s i).teams = s.teams := rfl
@[simp] theorem dropStrand_gangs (s : State) (i : Nat) : (dropStrand s i).gangs = s.gangs := rfl
@[simp] theorem dropStrand_launches (s : State) (i : Nat) : (dropStrand s i).launches = s.launches := rfl
@[simp] theorem dropStrand_cores (s : State) (i : Nat) : (dropStrand s i).cores = s.cores := rfl
@[simp] theorem dropStrand_dies (s : State) (i : Nat) : (dropStrand s i).dies = s.dies := rfl
@[simp] theorem dropStrand_mem (s : State) (i : Nat) : (dropStrand s i).mem = s.mem := rfl
@[simp] theorem dropStrand_memPois (s : State) (i : Nat) : (dropStrand s i).memPois = s.memPois := rfl
@[simp] theorem dropStrand_hostMem (s : State) (i : Nat) : (dropStrand s i).hostMem = s.hostMem := rfl
@[simp] theorem dropStrand_hostPois (s : State) (i : Nat) : (dropStrand s i).hostPois = s.hostPois := rfl
@[simp] theorem dropStrand_stores (s : State) (i : Nat) : (dropStrand s i).stores = s.stores := rfl
@[simp] theorem dropStrand_obs (s : State) (i : Nat) : (dropStrand s i).obs = s.obs := rfl
@[simp] theorem dropStrand_rels (s : State) (i : Nat) : (dropStrand s i).rels = s.rels := rfl
@[simp] theorem dropStrand_reads (s : State) (i : Nat) : (dropStrand s i).reads = s.reads := rfl
@[simp] theorem dropStrand_fences (s : State) (i : Nat) : (dropStrand s i).fences = s.fences := rfl
@[simp] theorem dropStrand_gsets (s : State) (i : Nat) : (dropStrand s i).gsets = s.gsets := rfl
@[simp] theorem dropStrand_walkReqs (s : State) (i : Nat) : (dropStrand s i).walkReqs = s.walkReqs := rfl
@[simp] theorem dropStrand_walkRes (s : State) (i : Nat) : (dropStrand s i).walkRes = s.walkRes := rfl
@[simp] theorem dropStrand_walkCache (s : State) (i : Nat) : (dropStrand s i).walkCache = s.walkCache := rfl
@[simp] theorem dropStrand_invals (s : State) (i : Nat) : (dropStrand s i).invals = s.invals := rfl
@[simp] theorem dropStrand_atsReqs (s : State) (i : Nat) : (dropStrand s i).atsReqs = s.atsReqs := rfl
@[simp] theorem dropStrand_atsInvals (s : State) (i : Nat) : (dropStrand s i).atsInvals = s.atsInvals := rfl
@[simp] theorem dropStrand_priReqs (s : State) (i : Nat) : (dropStrand s i).priReqs = s.priReqs := rfl
@[simp] theorem dropStrand_ctxs (s : State) (i : Nat) : (dropStrand s i).ctxs = s.ctxs := rfl
@[simp] theorem dropStrand_stops (s : State) (i : Nat) : (dropStrand s i).stops = s.stops := rfl
@[simp] theorem dropStrand_nextTicket (s : State) (i : Nat) : (dropStrand s i).nextTicket = s.nextTicket := rfl
@[simp] theorem dropStrand_selTicket (s : State) (i : Nat) : (dropStrand s i).selTicket = s.selTicket := rfl
@[simp] theorem dropStrand_selCtx (s : State) (i : Nat) : (dropStrand s i).selCtx = s.selCtx := rfl
@[simp] theorem dropStrand_stopNone (s : State) (i : Nat) : (dropStrand s i).stopNone = s.stopNone := rfl
@[simp] theorem dropStrand_stopRefused (s : State) (i : Nat) : (dropStrand s i).stopRefused = s.stopRefused := rfl
@[simp] theorem dropStrand_attaches (s : State) (i : Nat) : (dropStrand s i).attaches = s.attaches := rfl
@[simp] theorem dropStrand_dumps (s : State) (i : Nat) : (dropStrand s i).dumps = s.dumps := rfl
@[simp] theorem dropStrand_l2 (s : State) (i : Nat) : (dropStrand s i).l2 = s.l2 := rfl
@[simp] theorem dropStrand_l2lines (s : State) (i : Nat) : (dropStrand s i).l2lines = s.l2lines := rfl
@[simp] theorem dropStrand_packets (s : State) (i : Nat) : (dropStrand s i).packets = s.packets := rfl
@[simp] theorem dropStrand_bdies (s : State) (i : Nat) : (dropStrand s i).bdies = s.bdies := rfl
@[simp] theorem dropStrand_userqs (s : State) (i : Nat) : (dropStrand s i).userqs = s.userqs := rfl
@[simp] theorem dropStrand_windows (s : State) (i : Nat) : (dropStrand s i).windows = s.windows := rfl
@[simp] theorem dropStrand_images (s : State) (i : Nat) : (dropStrand s i).images = s.images := rfl
@[simp] theorem dropStrand_sec (s : State) (i : Nat) : (dropStrand s i).sec = s.sec := rfl
@[simp] theorem dropStrand_telemetry (s : State) (i : Nat) : (dropStrand s i).telemetry = s.telemetry := rfl
@[simp] theorem dropStrand_corrected (s : State) (i : Nat) : (dropStrand s i).corrected = s.corrected := rfl
@[simp] theorem dropStrand_allocated (s : State) (i : Nat) : (dropStrand s i).allocated = s.allocated := rfl
@[simp] theorem dropStrand_allocatedFast (s : State) (i : Nat) : (dropStrand s i).allocatedFast = s.allocatedFast := rfl
@[simp] theorem dropStrand_sysPages (s : State) (i : Nat) : (dropStrand s i).sysPages = s.sysPages := rfl
@[simp] theorem dropStrand_freePages (s : State) (i : Nat) : (dropStrand s i).freePages = s.freePages := rfl
@[simp] theorem dropStrand_shared (s : State) (i : Nat) : (dropStrand s i).shared = s.shared := rfl
@[simp] theorem dropStrand_oldRecords (s : State) (i : Nat) : (dropStrand s i).oldRecords = s.oldRecords := rfl

@[simp] theorem updOp_agenda (s : State) (i : Nat) (f : Op → Op) : (updOp s i f).agenda = s.agenda := rfl
@[simp] theorem updOp_sched (s : State) (i : Nat) (f : Op → Op) : (updOp s i f).sched = s.sched := rfl
@[simp] theorem updOp_issuePhase (s : State) (i : Nat) (f : Op → Op) : (updOp s i f).issuePhase = s.issuePhase := rfl
@[simp] theorem updOp_evPtr (s : State) (i : Nat) (f : Op → Op) : (updOp s i f).evPtr = s.evPtr := rfl
@[simp] theorem updOp_nfree (s : State) (i : Nat) (f : Op → Op) : (updOp s i f).nfree = s.nfree := rfl
@[simp] theorem updOp_cur (s : State) (i : Nat) (f : Op → Op) : (updOp s i f).cur = s.cur := rfl
@[simp] theorem updOp_nextId (s : State) (i : Nat) (f : Op → Op) : (updOp s i f).nextId = s.nextId := rfl
@[simp] theorem updOp_out (s : State) (i : Nat) (f : Op → Op) : (updOp s i f).out = s.out := rfl
@[simp] theorem updOp_badAddr (s : State) (i : Nat) (f : Op → Op) : (updOp s i f).badAddr = s.badAddr := rfl
@[simp] theorem updOp_choices (s : State) (i : Nat) (f : Op → Op) : (updOp s i f).choices = s.choices := rfl
@[simp] theorem updOp_hostStores (s : State) (i : Nat) (f : Op → Op) : (updOp s i f).hostStores = s.hostStores := rfl
@[simp] theorem updOp_pendingCalls (s : State) (i : Nat) (f : Op → Op) : (updOp s i f).pendingCalls = s.pendingCalls := rfl
@[simp] theorem updOp_time (s : State) (i : Nat) (f : Op → Op) : (updOp s i f).time = s.time := rfl
@[simp] theorem updOp_slots (s : State) (i : Nat) (f : Op → Op) : (updOp s i f).slots = s.slots := rfl
@[simp] theorem updOp_drainSeq (s : State) (i : Nat) (f : Op → Op) : (updOp s i f).drainSeq = s.drainSeq := rfl
@[simp] theorem updOp_strands (s : State) (i : Nat) (f : Op → Op) : (updOp s i f).strands = s.strands := rfl
@[simp] theorem updOp_teams (s : State) (i : Nat) (f : Op → Op) : (updOp s i f).teams = s.teams := rfl
@[simp] theorem updOp_gangs (s : State) (i : Nat) (f : Op → Op) : (updOp s i f).gangs = s.gangs := rfl
@[simp] theorem updOp_launches (s : State) (i : Nat) (f : Op → Op) : (updOp s i f).launches = s.launches := rfl
@[simp] theorem updOp_cores (s : State) (i : Nat) (f : Op → Op) : (updOp s i f).cores = s.cores := rfl
@[simp] theorem updOp_dies (s : State) (i : Nat) (f : Op → Op) : (updOp s i f).dies = s.dies := rfl
@[simp] theorem updOp_mem (s : State) (i : Nat) (f : Op → Op) : (updOp s i f).mem = s.mem := rfl
@[simp] theorem updOp_memPois (s : State) (i : Nat) (f : Op → Op) : (updOp s i f).memPois = s.memPois := rfl
@[simp] theorem updOp_hostMem (s : State) (i : Nat) (f : Op → Op) : (updOp s i f).hostMem = s.hostMem := rfl
@[simp] theorem updOp_hostPois (s : State) (i : Nat) (f : Op → Op) : (updOp s i f).hostPois = s.hostPois := rfl
@[simp] theorem updOp_stores (s : State) (i : Nat) (f : Op → Op) : (updOp s i f).stores = s.stores := rfl
@[simp] theorem updOp_obs (s : State) (i : Nat) (f : Op → Op) : (updOp s i f).obs = s.obs := rfl
@[simp] theorem updOp_rels (s : State) (i : Nat) (f : Op → Op) : (updOp s i f).rels = s.rels := rfl
@[simp] theorem updOp_reads (s : State) (i : Nat) (f : Op → Op) : (updOp s i f).reads = s.reads := rfl
@[simp] theorem updOp_fences (s : State) (i : Nat) (f : Op → Op) : (updOp s i f).fences = s.fences := rfl
@[simp] theorem updOp_gsets (s : State) (i : Nat) (f : Op → Op) : (updOp s i f).gsets = s.gsets := rfl
@[simp] theorem updOp_walkReqs (s : State) (i : Nat) (f : Op → Op) : (updOp s i f).walkReqs = s.walkReqs := rfl
@[simp] theorem updOp_walkRes (s : State) (i : Nat) (f : Op → Op) : (updOp s i f).walkRes = s.walkRes := rfl
@[simp] theorem updOp_walkCache (s : State) (i : Nat) (f : Op → Op) : (updOp s i f).walkCache = s.walkCache := rfl
@[simp] theorem updOp_invals (s : State) (i : Nat) (f : Op → Op) : (updOp s i f).invals = s.invals := rfl
@[simp] theorem updOp_atsReqs (s : State) (i : Nat) (f : Op → Op) : (updOp s i f).atsReqs = s.atsReqs := rfl
@[simp] theorem updOp_atsInvals (s : State) (i : Nat) (f : Op → Op) : (updOp s i f).atsInvals = s.atsInvals := rfl
@[simp] theorem updOp_priReqs (s : State) (i : Nat) (f : Op → Op) : (updOp s i f).priReqs = s.priReqs := rfl
@[simp] theorem updOp_ctxs (s : State) (i : Nat) (f : Op → Op) : (updOp s i f).ctxs = s.ctxs := rfl
@[simp] theorem updOp_stops (s : State) (i : Nat) (f : Op → Op) : (updOp s i f).stops = s.stops := rfl
@[simp] theorem updOp_nextTicket (s : State) (i : Nat) (f : Op → Op) : (updOp s i f).nextTicket = s.nextTicket := rfl
@[simp] theorem updOp_selTicket (s : State) (i : Nat) (f : Op → Op) : (updOp s i f).selTicket = s.selTicket := rfl
@[simp] theorem updOp_selCtx (s : State) (i : Nat) (f : Op → Op) : (updOp s i f).selCtx = s.selCtx := rfl
@[simp] theorem updOp_stopNone (s : State) (i : Nat) (f : Op → Op) : (updOp s i f).stopNone = s.stopNone := rfl
@[simp] theorem updOp_stopRefused (s : State) (i : Nat) (f : Op → Op) : (updOp s i f).stopRefused = s.stopRefused := rfl
@[simp] theorem updOp_attaches (s : State) (i : Nat) (f : Op → Op) : (updOp s i f).attaches = s.attaches := rfl
@[simp] theorem updOp_dumps (s : State) (i : Nat) (f : Op → Op) : (updOp s i f).dumps = s.dumps := rfl
@[simp] theorem updOp_l2 (s : State) (i : Nat) (f : Op → Op) : (updOp s i f).l2 = s.l2 := rfl
@[simp] theorem updOp_l2lines (s : State) (i : Nat) (f : Op → Op) : (updOp s i f).l2lines = s.l2lines := rfl
@[simp] theorem updOp_packets (s : State) (i : Nat) (f : Op → Op) : (updOp s i f).packets = s.packets := rfl
@[simp] theorem updOp_bdies (s : State) (i : Nat) (f : Op → Op) : (updOp s i f).bdies = s.bdies := rfl
@[simp] theorem updOp_userqs (s : State) (i : Nat) (f : Op → Op) : (updOp s i f).userqs = s.userqs := rfl
@[simp] theorem updOp_windows (s : State) (i : Nat) (f : Op → Op) : (updOp s i f).windows = s.windows := rfl
@[simp] theorem updOp_images (s : State) (i : Nat) (f : Op → Op) : (updOp s i f).images = s.images := rfl
@[simp] theorem updOp_sec (s : State) (i : Nat) (f : Op → Op) : (updOp s i f).sec = s.sec := rfl
@[simp] theorem updOp_telemetry (s : State) (i : Nat) (f : Op → Op) : (updOp s i f).telemetry = s.telemetry := rfl
@[simp] theorem updOp_corrected (s : State) (i : Nat) (f : Op → Op) : (updOp s i f).corrected = s.corrected := rfl
@[simp] theorem updOp_allocated (s : State) (i : Nat) (f : Op → Op) : (updOp s i f).allocated = s.allocated := rfl
@[simp] theorem updOp_allocatedFast (s : State) (i : Nat) (f : Op → Op) : (updOp s i f).allocatedFast = s.allocatedFast := rfl
@[simp] theorem updOp_sysPages (s : State) (i : Nat) (f : Op → Op) : (updOp s i f).sysPages = s.sysPages := rfl
@[simp] theorem updOp_freePages (s : State) (i : Nat) (f : Op → Op) : (updOp s i f).freePages = s.freePages := rfl
@[simp] theorem updOp_shared (s : State) (i : Nat) (f : Op → Op) : (updOp s i f).shared = s.shared := rfl
@[simp] theorem updOp_oldRecords (s : State) (i : Nat) (f : Op → Op) : (updOp s i f).oldRecords = s.oldRecords := rfl

@[simp] theorem updTeam_agenda (s : State) (l n : Nat) (f : Team → Team) : (updTeam s l n f).agenda = s.agenda := rfl
@[simp] theorem updTeam_sched (s : State) (l n : Nat) (f : Team → Team) : (updTeam s l n f).sched = s.sched := rfl
@[simp] theorem updTeam_issuePhase (s : State) (l n : Nat) (f : Team → Team) : (updTeam s l n f).issuePhase = s.issuePhase := rfl
@[simp] theorem updTeam_evPtr (s : State) (l n : Nat) (f : Team → Team) : (updTeam s l n f).evPtr = s.evPtr := rfl
@[simp] theorem updTeam_nfree (s : State) (l n : Nat) (f : Team → Team) : (updTeam s l n f).nfree = s.nfree := rfl
@[simp] theorem updTeam_cur (s : State) (l n : Nat) (f : Team → Team) : (updTeam s l n f).cur = s.cur := rfl
@[simp] theorem updTeam_nextId (s : State) (l n : Nat) (f : Team → Team) : (updTeam s l n f).nextId = s.nextId := rfl
@[simp] theorem updTeam_out (s : State) (l n : Nat) (f : Team → Team) : (updTeam s l n f).out = s.out := rfl
@[simp] theorem updTeam_badAddr (s : State) (l n : Nat) (f : Team → Team) : (updTeam s l n f).badAddr = s.badAddr := rfl
@[simp] theorem updTeam_choices (s : State) (l n : Nat) (f : Team → Team) : (updTeam s l n f).choices = s.choices := rfl
@[simp] theorem updTeam_hostStores (s : State) (l n : Nat) (f : Team → Team) : (updTeam s l n f).hostStores = s.hostStores := rfl
@[simp] theorem updTeam_pendingCalls (s : State) (l n : Nat) (f : Team → Team) : (updTeam s l n f).pendingCalls = s.pendingCalls := rfl
@[simp] theorem updTeam_time (s : State) (l n : Nat) (f : Team → Team) : (updTeam s l n f).time = s.time := rfl
@[simp] theorem updTeam_slots (s : State) (l n : Nat) (f : Team → Team) : (updTeam s l n f).slots = s.slots := rfl
@[simp] theorem updTeam_drainSeq (s : State) (l n : Nat) (f : Team → Team) : (updTeam s l n f).drainSeq = s.drainSeq := rfl
@[simp] theorem updTeam_strands (s : State) (l n : Nat) (f : Team → Team) : (updTeam s l n f).strands = s.strands := rfl
@[simp] theorem updTeam_ops (s : State) (l n : Nat) (f : Team → Team) : (updTeam s l n f).ops = s.ops := rfl
@[simp] theorem updTeam_gangs (s : State) (l n : Nat) (f : Team → Team) : (updTeam s l n f).gangs = s.gangs := rfl
@[simp] theorem updTeam_launches (s : State) (l n : Nat) (f : Team → Team) : (updTeam s l n f).launches = s.launches := rfl
@[simp] theorem updTeam_cores (s : State) (l n : Nat) (f : Team → Team) : (updTeam s l n f).cores = s.cores := rfl
@[simp] theorem updTeam_dies (s : State) (l n : Nat) (f : Team → Team) : (updTeam s l n f).dies = s.dies := rfl
@[simp] theorem updTeam_mem (s : State) (l n : Nat) (f : Team → Team) : (updTeam s l n f).mem = s.mem := rfl
@[simp] theorem updTeam_memPois (s : State) (l n : Nat) (f : Team → Team) : (updTeam s l n f).memPois = s.memPois := rfl
@[simp] theorem updTeam_hostMem (s : State) (l n : Nat) (f : Team → Team) : (updTeam s l n f).hostMem = s.hostMem := rfl
@[simp] theorem updTeam_hostPois (s : State) (l n : Nat) (f : Team → Team) : (updTeam s l n f).hostPois = s.hostPois := rfl
@[simp] theorem updTeam_stores (s : State) (l n : Nat) (f : Team → Team) : (updTeam s l n f).stores = s.stores := rfl
@[simp] theorem updTeam_obs (s : State) (l n : Nat) (f : Team → Team) : (updTeam s l n f).obs = s.obs := rfl
@[simp] theorem updTeam_rels (s : State) (l n : Nat) (f : Team → Team) : (updTeam s l n f).rels = s.rels := rfl
@[simp] theorem updTeam_reads (s : State) (l n : Nat) (f : Team → Team) : (updTeam s l n f).reads = s.reads := rfl
@[simp] theorem updTeam_fences (s : State) (l n : Nat) (f : Team → Team) : (updTeam s l n f).fences = s.fences := rfl
@[simp] theorem updTeam_gsets (s : State) (l n : Nat) (f : Team → Team) : (updTeam s l n f).gsets = s.gsets := rfl
@[simp] theorem updTeam_walkReqs (s : State) (l n : Nat) (f : Team → Team) : (updTeam s l n f).walkReqs = s.walkReqs := rfl
@[simp] theorem updTeam_walkRes (s : State) (l n : Nat) (f : Team → Team) : (updTeam s l n f).walkRes = s.walkRes := rfl
@[simp] theorem updTeam_walkCache (s : State) (l n : Nat) (f : Team → Team) : (updTeam s l n f).walkCache = s.walkCache := rfl
@[simp] theorem updTeam_invals (s : State) (l n : Nat) (f : Team → Team) : (updTeam s l n f).invals = s.invals := rfl
@[simp] theorem updTeam_atsReqs (s : State) (l n : Nat) (f : Team → Team) : (updTeam s l n f).atsReqs = s.atsReqs := rfl
@[simp] theorem updTeam_atsInvals (s : State) (l n : Nat) (f : Team → Team) : (updTeam s l n f).atsInvals = s.atsInvals := rfl
@[simp] theorem updTeam_priReqs (s : State) (l n : Nat) (f : Team → Team) : (updTeam s l n f).priReqs = s.priReqs := rfl
@[simp] theorem updTeam_ctxs (s : State) (l n : Nat) (f : Team → Team) : (updTeam s l n f).ctxs = s.ctxs := rfl
@[simp] theorem updTeam_stops (s : State) (l n : Nat) (f : Team → Team) : (updTeam s l n f).stops = s.stops := rfl
@[simp] theorem updTeam_nextTicket (s : State) (l n : Nat) (f : Team → Team) : (updTeam s l n f).nextTicket = s.nextTicket := rfl
@[simp] theorem updTeam_selTicket (s : State) (l n : Nat) (f : Team → Team) : (updTeam s l n f).selTicket = s.selTicket := rfl
@[simp] theorem updTeam_selCtx (s : State) (l n : Nat) (f : Team → Team) : (updTeam s l n f).selCtx = s.selCtx := rfl
@[simp] theorem updTeam_stopNone (s : State) (l n : Nat) (f : Team → Team) : (updTeam s l n f).stopNone = s.stopNone := rfl
@[simp] theorem updTeam_stopRefused (s : State) (l n : Nat) (f : Team → Team) : (updTeam s l n f).stopRefused = s.stopRefused := rfl
@[simp] theorem updTeam_attaches (s : State) (l n : Nat) (f : Team → Team) : (updTeam s l n f).attaches = s.attaches := rfl
@[simp] theorem updTeam_dumps (s : State) (l n : Nat) (f : Team → Team) : (updTeam s l n f).dumps = s.dumps := rfl
@[simp] theorem updTeam_l2 (s : State) (l n : Nat) (f : Team → Team) : (updTeam s l n f).l2 = s.l2 := rfl
@[simp] theorem updTeam_l2lines (s : State) (l n : Nat) (f : Team → Team) : (updTeam s l n f).l2lines = s.l2lines := rfl
@[simp] theorem updTeam_packets (s : State) (l n : Nat) (f : Team → Team) : (updTeam s l n f).packets = s.packets := rfl
@[simp] theorem updTeam_bdies (s : State) (l n : Nat) (f : Team → Team) : (updTeam s l n f).bdies = s.bdies := rfl
@[simp] theorem updTeam_userqs (s : State) (l n : Nat) (f : Team → Team) : (updTeam s l n f).userqs = s.userqs := rfl
@[simp] theorem updTeam_windows (s : State) (l n : Nat) (f : Team → Team) : (updTeam s l n f).windows = s.windows := rfl
@[simp] theorem updTeam_images (s : State) (l n : Nat) (f : Team → Team) : (updTeam s l n f).images = s.images := rfl
@[simp] theorem updTeam_sec (s : State) (l n : Nat) (f : Team → Team) : (updTeam s l n f).sec = s.sec := rfl
@[simp] theorem updTeam_telemetry (s : State) (l n : Nat) (f : Team → Team) : (updTeam s l n f).telemetry = s.telemetry := rfl
@[simp] theorem updTeam_corrected (s : State) (l n : Nat) (f : Team → Team) : (updTeam s l n f).corrected = s.corrected := rfl
@[simp] theorem updTeam_allocated (s : State) (l n : Nat) (f : Team → Team) : (updTeam s l n f).allocated = s.allocated := rfl
@[simp] theorem updTeam_allocatedFast (s : State) (l n : Nat) (f : Team → Team) : (updTeam s l n f).allocatedFast = s.allocatedFast := rfl
@[simp] theorem updTeam_sysPages (s : State) (l n : Nat) (f : Team → Team) : (updTeam s l n f).sysPages = s.sysPages := rfl
@[simp] theorem updTeam_freePages (s : State) (l n : Nat) (f : Team → Team) : (updTeam s l n f).freePages = s.freePages := rfl
@[simp] theorem updTeam_shared (s : State) (l n : Nat) (f : Team → Team) : (updTeam s l n f).shared = s.shared := rfl
@[simp] theorem updTeam_oldRecords (s : State) (l n : Nat) (f : Team → Team) : (updTeam s l n f).oldRecords = s.oldRecords := rfl

@[simp] theorem updLaunch_agenda (s : State) (l : Nat) (f : Launch → Launch) : (updLaunch s l f).agenda = s.agenda := rfl
@[simp] theorem updLaunch_sched (s : State) (l : Nat) (f : Launch → Launch) : (updLaunch s l f).sched = s.sched := rfl
@[simp] theorem updLaunch_issuePhase (s : State) (l : Nat) (f : Launch → Launch) : (updLaunch s l f).issuePhase = s.issuePhase := rfl
@[simp] theorem updLaunch_evPtr (s : State) (l : Nat) (f : Launch → Launch) : (updLaunch s l f).evPtr = s.evPtr := rfl
@[simp] theorem updLaunch_nfree (s : State) (l : Nat) (f : Launch → Launch) : (updLaunch s l f).nfree = s.nfree := rfl
@[simp] theorem updLaunch_cur (s : State) (l : Nat) (f : Launch → Launch) : (updLaunch s l f).cur = s.cur := rfl
@[simp] theorem updLaunch_nextId (s : State) (l : Nat) (f : Launch → Launch) : (updLaunch s l f).nextId = s.nextId := rfl
@[simp] theorem updLaunch_out (s : State) (l : Nat) (f : Launch → Launch) : (updLaunch s l f).out = s.out := rfl
@[simp] theorem updLaunch_badAddr (s : State) (l : Nat) (f : Launch → Launch) : (updLaunch s l f).badAddr = s.badAddr := rfl
@[simp] theorem updLaunch_choices (s : State) (l : Nat) (f : Launch → Launch) : (updLaunch s l f).choices = s.choices := rfl
@[simp] theorem updLaunch_hostStores (s : State) (l : Nat) (f : Launch → Launch) : (updLaunch s l f).hostStores = s.hostStores := rfl
@[simp] theorem updLaunch_pendingCalls (s : State) (l : Nat) (f : Launch → Launch) : (updLaunch s l f).pendingCalls = s.pendingCalls := rfl
@[simp] theorem updLaunch_time (s : State) (l : Nat) (f : Launch → Launch) : (updLaunch s l f).time = s.time := rfl
@[simp] theorem updLaunch_slots (s : State) (l : Nat) (f : Launch → Launch) : (updLaunch s l f).slots = s.slots := rfl
@[simp] theorem updLaunch_drainSeq (s : State) (l : Nat) (f : Launch → Launch) : (updLaunch s l f).drainSeq = s.drainSeq := rfl
@[simp] theorem updLaunch_strands (s : State) (l : Nat) (f : Launch → Launch) : (updLaunch s l f).strands = s.strands := rfl
@[simp] theorem updLaunch_ops (s : State) (l : Nat) (f : Launch → Launch) : (updLaunch s l f).ops = s.ops := rfl
@[simp] theorem updLaunch_teams (s : State) (l : Nat) (f : Launch → Launch) : (updLaunch s l f).teams = s.teams := rfl
@[simp] theorem updLaunch_gangs (s : State) (l : Nat) (f : Launch → Launch) : (updLaunch s l f).gangs = s.gangs := rfl
@[simp] theorem updLaunch_cores (s : State) (l : Nat) (f : Launch → Launch) : (updLaunch s l f).cores = s.cores := rfl
@[simp] theorem updLaunch_dies (s : State) (l : Nat) (f : Launch → Launch) : (updLaunch s l f).dies = s.dies := rfl
@[simp] theorem updLaunch_mem (s : State) (l : Nat) (f : Launch → Launch) : (updLaunch s l f).mem = s.mem := rfl
@[simp] theorem updLaunch_memPois (s : State) (l : Nat) (f : Launch → Launch) : (updLaunch s l f).memPois = s.memPois := rfl
@[simp] theorem updLaunch_hostMem (s : State) (l : Nat) (f : Launch → Launch) : (updLaunch s l f).hostMem = s.hostMem := rfl
@[simp] theorem updLaunch_hostPois (s : State) (l : Nat) (f : Launch → Launch) : (updLaunch s l f).hostPois = s.hostPois := rfl
@[simp] theorem updLaunch_stores (s : State) (l : Nat) (f : Launch → Launch) : (updLaunch s l f).stores = s.stores := rfl
@[simp] theorem updLaunch_obs (s : State) (l : Nat) (f : Launch → Launch) : (updLaunch s l f).obs = s.obs := rfl
@[simp] theorem updLaunch_rels (s : State) (l : Nat) (f : Launch → Launch) : (updLaunch s l f).rels = s.rels := rfl
@[simp] theorem updLaunch_reads (s : State) (l : Nat) (f : Launch → Launch) : (updLaunch s l f).reads = s.reads := rfl
@[simp] theorem updLaunch_fences (s : State) (l : Nat) (f : Launch → Launch) : (updLaunch s l f).fences = s.fences := rfl
@[simp] theorem updLaunch_gsets (s : State) (l : Nat) (f : Launch → Launch) : (updLaunch s l f).gsets = s.gsets := rfl
@[simp] theorem updLaunch_walkReqs (s : State) (l : Nat) (f : Launch → Launch) : (updLaunch s l f).walkReqs = s.walkReqs := rfl
@[simp] theorem updLaunch_walkRes (s : State) (l : Nat) (f : Launch → Launch) : (updLaunch s l f).walkRes = s.walkRes := rfl
@[simp] theorem updLaunch_walkCache (s : State) (l : Nat) (f : Launch → Launch) : (updLaunch s l f).walkCache = s.walkCache := rfl
@[simp] theorem updLaunch_invals (s : State) (l : Nat) (f : Launch → Launch) : (updLaunch s l f).invals = s.invals := rfl
@[simp] theorem updLaunch_atsReqs (s : State) (l : Nat) (f : Launch → Launch) : (updLaunch s l f).atsReqs = s.atsReqs := rfl
@[simp] theorem updLaunch_atsInvals (s : State) (l : Nat) (f : Launch → Launch) : (updLaunch s l f).atsInvals = s.atsInvals := rfl
@[simp] theorem updLaunch_priReqs (s : State) (l : Nat) (f : Launch → Launch) : (updLaunch s l f).priReqs = s.priReqs := rfl
@[simp] theorem updLaunch_ctxs (s : State) (l : Nat) (f : Launch → Launch) : (updLaunch s l f).ctxs = s.ctxs := rfl
@[simp] theorem updLaunch_stops (s : State) (l : Nat) (f : Launch → Launch) : (updLaunch s l f).stops = s.stops := rfl
@[simp] theorem updLaunch_nextTicket (s : State) (l : Nat) (f : Launch → Launch) : (updLaunch s l f).nextTicket = s.nextTicket := rfl
@[simp] theorem updLaunch_selTicket (s : State) (l : Nat) (f : Launch → Launch) : (updLaunch s l f).selTicket = s.selTicket := rfl
@[simp] theorem updLaunch_selCtx (s : State) (l : Nat) (f : Launch → Launch) : (updLaunch s l f).selCtx = s.selCtx := rfl
@[simp] theorem updLaunch_stopNone (s : State) (l : Nat) (f : Launch → Launch) : (updLaunch s l f).stopNone = s.stopNone := rfl
@[simp] theorem updLaunch_stopRefused (s : State) (l : Nat) (f : Launch → Launch) : (updLaunch s l f).stopRefused = s.stopRefused := rfl
@[simp] theorem updLaunch_attaches (s : State) (l : Nat) (f : Launch → Launch) : (updLaunch s l f).attaches = s.attaches := rfl
@[simp] theorem updLaunch_dumps (s : State) (l : Nat) (f : Launch → Launch) : (updLaunch s l f).dumps = s.dumps := rfl
@[simp] theorem updLaunch_l2 (s : State) (l : Nat) (f : Launch → Launch) : (updLaunch s l f).l2 = s.l2 := rfl
@[simp] theorem updLaunch_l2lines (s : State) (l : Nat) (f : Launch → Launch) : (updLaunch s l f).l2lines = s.l2lines := rfl
@[simp] theorem updLaunch_packets (s : State) (l : Nat) (f : Launch → Launch) : (updLaunch s l f).packets = s.packets := rfl
@[simp] theorem updLaunch_bdies (s : State) (l : Nat) (f : Launch → Launch) : (updLaunch s l f).bdies = s.bdies := rfl
@[simp] theorem updLaunch_userqs (s : State) (l : Nat) (f : Launch → Launch) : (updLaunch s l f).userqs = s.userqs := rfl
@[simp] theorem updLaunch_windows (s : State) (l : Nat) (f : Launch → Launch) : (updLaunch s l f).windows = s.windows := rfl
@[simp] theorem updLaunch_images (s : State) (l : Nat) (f : Launch → Launch) : (updLaunch s l f).images = s.images := rfl
@[simp] theorem updLaunch_sec (s : State) (l : Nat) (f : Launch → Launch) : (updLaunch s l f).sec = s.sec := rfl
@[simp] theorem updLaunch_telemetry (s : State) (l : Nat) (f : Launch → Launch) : (updLaunch s l f).telemetry = s.telemetry := rfl
@[simp] theorem updLaunch_corrected (s : State) (l : Nat) (f : Launch → Launch) : (updLaunch s l f).corrected = s.corrected := rfl
@[simp] theorem updLaunch_allocated (s : State) (l : Nat) (f : Launch → Launch) : (updLaunch s l f).allocated = s.allocated := rfl
@[simp] theorem updLaunch_allocatedFast (s : State) (l : Nat) (f : Launch → Launch) : (updLaunch s l f).allocatedFast = s.allocatedFast := rfl
@[simp] theorem updLaunch_sysPages (s : State) (l : Nat) (f : Launch → Launch) : (updLaunch s l f).sysPages = s.sysPages := rfl
@[simp] theorem updLaunch_freePages (s : State) (l : Nat) (f : Launch → Launch) : (updLaunch s l f).freePages = s.freePages := rfl
@[simp] theorem updLaunch_shared (s : State) (l : Nat) (f : Launch → Launch) : (updLaunch s l f).shared = s.shared := rfl
@[simp] theorem updLaunch_oldRecords (s : State) (l : Nat) (f : Launch → Launch) : (updLaunch s l f).oldRecords = s.oldRecords := rfl

@[simp] theorem updCtx_agenda (s : State) (c : Nat) (f : Ctx → Ctx) : (updCtx s c f).agenda = s.agenda := rfl
@[simp] theorem updCtx_sched (s : State) (c : Nat) (f : Ctx → Ctx) : (updCtx s c f).sched = s.sched := rfl
@[simp] theorem updCtx_issuePhase (s : State) (c : Nat) (f : Ctx → Ctx) : (updCtx s c f).issuePhase = s.issuePhase := rfl
@[simp] theorem updCtx_evPtr (s : State) (c : Nat) (f : Ctx → Ctx) : (updCtx s c f).evPtr = s.evPtr := rfl
@[simp] theorem updCtx_nfree (s : State) (c : Nat) (f : Ctx → Ctx) : (updCtx s c f).nfree = s.nfree := rfl
@[simp] theorem updCtx_cur (s : State) (c : Nat) (f : Ctx → Ctx) : (updCtx s c f).cur = s.cur := rfl
@[simp] theorem updCtx_nextId (s : State) (c : Nat) (f : Ctx → Ctx) : (updCtx s c f).nextId = s.nextId := rfl
@[simp] theorem updCtx_out (s : State) (c : Nat) (f : Ctx → Ctx) : (updCtx s c f).out = s.out := rfl
@[simp] theorem updCtx_badAddr (s : State) (c : Nat) (f : Ctx → Ctx) : (updCtx s c f).badAddr = s.badAddr := rfl
@[simp] theorem updCtx_choices (s : State) (c : Nat) (f : Ctx → Ctx) : (updCtx s c f).choices = s.choices := rfl
@[simp] theorem updCtx_hostStores (s : State) (c : Nat) (f : Ctx → Ctx) : (updCtx s c f).hostStores = s.hostStores := rfl
@[simp] theorem updCtx_pendingCalls (s : State) (c : Nat) (f : Ctx → Ctx) : (updCtx s c f).pendingCalls = s.pendingCalls := rfl
@[simp] theorem updCtx_time (s : State) (c : Nat) (f : Ctx → Ctx) : (updCtx s c f).time = s.time := rfl
@[simp] theorem updCtx_slots (s : State) (c : Nat) (f : Ctx → Ctx) : (updCtx s c f).slots = s.slots := rfl
@[simp] theorem updCtx_drainSeq (s : State) (c : Nat) (f : Ctx → Ctx) : (updCtx s c f).drainSeq = s.drainSeq := rfl
@[simp] theorem updCtx_strands (s : State) (c : Nat) (f : Ctx → Ctx) : (updCtx s c f).strands = s.strands := rfl
@[simp] theorem updCtx_ops (s : State) (c : Nat) (f : Ctx → Ctx) : (updCtx s c f).ops = s.ops := rfl
@[simp] theorem updCtx_teams (s : State) (c : Nat) (f : Ctx → Ctx) : (updCtx s c f).teams = s.teams := rfl
@[simp] theorem updCtx_gangs (s : State) (c : Nat) (f : Ctx → Ctx) : (updCtx s c f).gangs = s.gangs := rfl
@[simp] theorem updCtx_launches (s : State) (c : Nat) (f : Ctx → Ctx) : (updCtx s c f).launches = s.launches := rfl
@[simp] theorem updCtx_cores (s : State) (c : Nat) (f : Ctx → Ctx) : (updCtx s c f).cores = s.cores := rfl
@[simp] theorem updCtx_dies (s : State) (c : Nat) (f : Ctx → Ctx) : (updCtx s c f).dies = s.dies := rfl
@[simp] theorem updCtx_mem (s : State) (c : Nat) (f : Ctx → Ctx) : (updCtx s c f).mem = s.mem := rfl
@[simp] theorem updCtx_memPois (s : State) (c : Nat) (f : Ctx → Ctx) : (updCtx s c f).memPois = s.memPois := rfl
@[simp] theorem updCtx_hostMem (s : State) (c : Nat) (f : Ctx → Ctx) : (updCtx s c f).hostMem = s.hostMem := rfl
@[simp] theorem updCtx_hostPois (s : State) (c : Nat) (f : Ctx → Ctx) : (updCtx s c f).hostPois = s.hostPois := rfl
@[simp] theorem updCtx_stores (s : State) (c : Nat) (f : Ctx → Ctx) : (updCtx s c f).stores = s.stores := rfl
@[simp] theorem updCtx_obs (s : State) (c : Nat) (f : Ctx → Ctx) : (updCtx s c f).obs = s.obs := rfl
@[simp] theorem updCtx_rels (s : State) (c : Nat) (f : Ctx → Ctx) : (updCtx s c f).rels = s.rels := rfl
@[simp] theorem updCtx_reads (s : State) (c : Nat) (f : Ctx → Ctx) : (updCtx s c f).reads = s.reads := rfl
@[simp] theorem updCtx_fences (s : State) (c : Nat) (f : Ctx → Ctx) : (updCtx s c f).fences = s.fences := rfl
@[simp] theorem updCtx_gsets (s : State) (c : Nat) (f : Ctx → Ctx) : (updCtx s c f).gsets = s.gsets := rfl
@[simp] theorem updCtx_walkReqs (s : State) (c : Nat) (f : Ctx → Ctx) : (updCtx s c f).walkReqs = s.walkReqs := rfl
@[simp] theorem updCtx_walkRes (s : State) (c : Nat) (f : Ctx → Ctx) : (updCtx s c f).walkRes = s.walkRes := rfl
@[simp] theorem updCtx_walkCache (s : State) (c : Nat) (f : Ctx → Ctx) : (updCtx s c f).walkCache = s.walkCache := rfl
@[simp] theorem updCtx_invals (s : State) (c : Nat) (f : Ctx → Ctx) : (updCtx s c f).invals = s.invals := rfl
@[simp] theorem updCtx_atsReqs (s : State) (c : Nat) (f : Ctx → Ctx) : (updCtx s c f).atsReqs = s.atsReqs := rfl
@[simp] theorem updCtx_atsInvals (s : State) (c : Nat) (f : Ctx → Ctx) : (updCtx s c f).atsInvals = s.atsInvals := rfl
@[simp] theorem updCtx_priReqs (s : State) (c : Nat) (f : Ctx → Ctx) : (updCtx s c f).priReqs = s.priReqs := rfl
@[simp] theorem updCtx_stops (s : State) (c : Nat) (f : Ctx → Ctx) : (updCtx s c f).stops = s.stops := rfl
@[simp] theorem updCtx_nextTicket (s : State) (c : Nat) (f : Ctx → Ctx) : (updCtx s c f).nextTicket = s.nextTicket := rfl
@[simp] theorem updCtx_selTicket (s : State) (c : Nat) (f : Ctx → Ctx) : (updCtx s c f).selTicket = s.selTicket := rfl
@[simp] theorem updCtx_selCtx (s : State) (c : Nat) (f : Ctx → Ctx) : (updCtx s c f).selCtx = s.selCtx := rfl
@[simp] theorem updCtx_stopNone (s : State) (c : Nat) (f : Ctx → Ctx) : (updCtx s c f).stopNone = s.stopNone := rfl
@[simp] theorem updCtx_stopRefused (s : State) (c : Nat) (f : Ctx → Ctx) : (updCtx s c f).stopRefused = s.stopRefused := rfl
@[simp] theorem updCtx_attaches (s : State) (c : Nat) (f : Ctx → Ctx) : (updCtx s c f).attaches = s.attaches := rfl
@[simp] theorem updCtx_dumps (s : State) (c : Nat) (f : Ctx → Ctx) : (updCtx s c f).dumps = s.dumps := rfl
@[simp] theorem updCtx_l2 (s : State) (c : Nat) (f : Ctx → Ctx) : (updCtx s c f).l2 = s.l2 := rfl
@[simp] theorem updCtx_l2lines (s : State) (c : Nat) (f : Ctx → Ctx) : (updCtx s c f).l2lines = s.l2lines := rfl
@[simp] theorem updCtx_packets (s : State) (c : Nat) (f : Ctx → Ctx) : (updCtx s c f).packets = s.packets := rfl
@[simp] theorem updCtx_bdies (s : State) (c : Nat) (f : Ctx → Ctx) : (updCtx s c f).bdies = s.bdies := rfl
@[simp] theorem updCtx_userqs (s : State) (c : Nat) (f : Ctx → Ctx) : (updCtx s c f).userqs = s.userqs := rfl
@[simp] theorem updCtx_windows (s : State) (c : Nat) (f : Ctx → Ctx) : (updCtx s c f).windows = s.windows := rfl
@[simp] theorem updCtx_images (s : State) (c : Nat) (f : Ctx → Ctx) : (updCtx s c f).images = s.images := rfl
@[simp] theorem updCtx_sec (s : State) (c : Nat) (f : Ctx → Ctx) : (updCtx s c f).sec = s.sec := rfl
@[simp] theorem updCtx_telemetry (s : State) (c : Nat) (f : Ctx → Ctx) : (updCtx s c f).telemetry = s.telemetry := rfl
@[simp] theorem updCtx_corrected (s : State) (c : Nat) (f : Ctx → Ctx) : (updCtx s c f).corrected = s.corrected := rfl
@[simp] theorem updCtx_allocated (s : State) (c : Nat) (f : Ctx → Ctx) : (updCtx s c f).allocated = s.allocated := rfl
@[simp] theorem updCtx_allocatedFast (s : State) (c : Nat) (f : Ctx → Ctx) : (updCtx s c f).allocatedFast = s.allocatedFast := rfl
@[simp] theorem updCtx_sysPages (s : State) (c : Nat) (f : Ctx → Ctx) : (updCtx s c f).sysPages = s.sysPages := rfl
@[simp] theorem updCtx_freePages (s : State) (c : Nat) (f : Ctx → Ctx) : (updCtx s c f).freePages = s.freePages := rfl
@[simp] theorem updCtx_shared (s : State) (c : Nat) (f : Ctx → Ctx) : (updCtx s c f).shared = s.shared := rfl
@[simp] theorem updCtx_oldRecords (s : State) (c : Nat) (f : Ctx → Ctx) : (updCtx s c f).oldRecords = s.oldRecords := rfl

@[simp] theorem draw_agenda (s : State) : (draw s).agenda = s.agenda := rfl
@[simp] theorem draw_sched (s : State) : (draw s).sched = s.sched := rfl
@[simp] theorem draw_issuePhase (s : State) : (draw s).issuePhase = s.issuePhase := rfl
@[simp] theorem draw_evPtr (s : State) : (draw s).evPtr = s.evPtr := rfl
@[simp] theorem draw_cur (s : State) : (draw s).cur = s.cur := rfl
@[simp] theorem draw_nextId (s : State) : (draw s).nextId = s.nextId := rfl
@[simp] theorem draw_out (s : State) : (draw s).out = s.out := rfl
@[simp] theorem draw_badAddr (s : State) : (draw s).badAddr = s.badAddr := rfl
@[simp] theorem draw_choices (s : State) : (draw s).choices = s.choices := rfl
@[simp] theorem draw_hostStores (s : State) : (draw s).hostStores = s.hostStores := rfl
@[simp] theorem draw_pendingCalls (s : State) : (draw s).pendingCalls = s.pendingCalls := rfl
@[simp] theorem draw_time (s : State) : (draw s).time = s.time := rfl
@[simp] theorem draw_slots (s : State) : (draw s).slots = s.slots := rfl
@[simp] theorem draw_drainSeq (s : State) : (draw s).drainSeq = s.drainSeq := rfl
@[simp] theorem draw_strands (s : State) : (draw s).strands = s.strands := rfl
@[simp] theorem draw_ops (s : State) : (draw s).ops = s.ops := rfl
@[simp] theorem draw_teams (s : State) : (draw s).teams = s.teams := rfl
@[simp] theorem draw_gangs (s : State) : (draw s).gangs = s.gangs := rfl
@[simp] theorem draw_launches (s : State) : (draw s).launches = s.launches := rfl
@[simp] theorem draw_cores (s : State) : (draw s).cores = s.cores := rfl
@[simp] theorem draw_dies (s : State) : (draw s).dies = s.dies := rfl
@[simp] theorem draw_mem (s : State) : (draw s).mem = s.mem := rfl
@[simp] theorem draw_memPois (s : State) : (draw s).memPois = s.memPois := rfl
@[simp] theorem draw_hostMem (s : State) : (draw s).hostMem = s.hostMem := rfl
@[simp] theorem draw_hostPois (s : State) : (draw s).hostPois = s.hostPois := rfl
@[simp] theorem draw_stores (s : State) : (draw s).stores = s.stores := rfl
@[simp] theorem draw_obs (s : State) : (draw s).obs = s.obs := rfl
@[simp] theorem draw_rels (s : State) : (draw s).rels = s.rels := rfl
@[simp] theorem draw_reads (s : State) : (draw s).reads = s.reads := rfl
@[simp] theorem draw_fences (s : State) : (draw s).fences = s.fences := rfl
@[simp] theorem draw_gsets (s : State) : (draw s).gsets = s.gsets := rfl
@[simp] theorem draw_walkReqs (s : State) : (draw s).walkReqs = s.walkReqs := rfl
@[simp] theorem draw_walkRes (s : State) : (draw s).walkRes = s.walkRes := rfl
@[simp] theorem draw_walkCache (s : State) : (draw s).walkCache = s.walkCache := rfl
@[simp] theorem draw_invals (s : State) : (draw s).invals = s.invals := rfl
@[simp] theorem draw_atsReqs (s : State) : (draw s).atsReqs = s.atsReqs := rfl
@[simp] theorem draw_atsInvals (s : State) : (draw s).atsInvals = s.atsInvals := rfl
@[simp] theorem draw_priReqs (s : State) : (draw s).priReqs = s.priReqs := rfl
@[simp] theorem draw_ctxs (s : State) : (draw s).ctxs = s.ctxs := rfl
@[simp] theorem draw_stops (s : State) : (draw s).stops = s.stops := rfl
@[simp] theorem draw_nextTicket (s : State) : (draw s).nextTicket = s.nextTicket := rfl
@[simp] theorem draw_selTicket (s : State) : (draw s).selTicket = s.selTicket := rfl
@[simp] theorem draw_selCtx (s : State) : (draw s).selCtx = s.selCtx := rfl
@[simp] theorem draw_stopNone (s : State) : (draw s).stopNone = s.stopNone := rfl
@[simp] theorem draw_stopRefused (s : State) : (draw s).stopRefused = s.stopRefused := rfl
@[simp] theorem draw_attaches (s : State) : (draw s).attaches = s.attaches := rfl
@[simp] theorem draw_dumps (s : State) : (draw s).dumps = s.dumps := rfl
@[simp] theorem draw_l2 (s : State) : (draw s).l2 = s.l2 := rfl
@[simp] theorem draw_l2lines (s : State) : (draw s).l2lines = s.l2lines := rfl
@[simp] theorem draw_packets (s : State) : (draw s).packets = s.packets := rfl
@[simp] theorem draw_bdies (s : State) : (draw s).bdies = s.bdies := rfl
@[simp] theorem draw_userqs (s : State) : (draw s).userqs = s.userqs := rfl
@[simp] theorem draw_windows (s : State) : (draw s).windows = s.windows := rfl
@[simp] theorem draw_images (s : State) : (draw s).images = s.images := rfl
@[simp] theorem draw_sec (s : State) : (draw s).sec = s.sec := rfl
@[simp] theorem draw_telemetry (s : State) : (draw s).telemetry = s.telemetry := rfl
@[simp] theorem draw_corrected (s : State) : (draw s).corrected = s.corrected := rfl
@[simp] theorem draw_allocated (s : State) : (draw s).allocated = s.allocated := rfl
@[simp] theorem draw_allocatedFast (s : State) : (draw s).allocatedFast = s.allocatedFast := rfl
@[simp] theorem draw_sysPages (s : State) : (draw s).sysPages = s.sysPages := rfl
@[simp] theorem draw_freePages (s : State) : (draw s).freePages = s.freePages := rfl
@[simp] theorem draw_shared (s : State) : (draw s).shared = s.shared := rfl
@[simp] theorem draw_oldRecords (s : State) : (draw s).oldRecords = s.oldRecords := rfl

@[simp] theorem endRun_agenda (s : State) : (endRun s).agenda = s.agenda := rfl
@[simp] theorem endRun_sched (s : State) : (endRun s).sched = s.sched := rfl
@[simp] theorem endRun_issuePhase (s : State) : (endRun s).issuePhase = s.issuePhase := rfl
@[simp] theorem endRun_evPtr (s : State) : (endRun s).evPtr = s.evPtr := rfl
@[simp] theorem endRun_nfree (s : State) : (endRun s).nfree = s.nfree := rfl
@[simp] theorem endRun_nextId (s : State) : (endRun s).nextId = s.nextId := rfl
@[simp] theorem endRun_out (s : State) : (endRun s).out = s.out := rfl
@[simp] theorem endRun_badAddr (s : State) : (endRun s).badAddr = s.badAddr := rfl
@[simp] theorem endRun_choices (s : State) : (endRun s).choices = s.choices := rfl
@[simp] theorem endRun_hostStores (s : State) : (endRun s).hostStores = s.hostStores := rfl
@[simp] theorem endRun_pendingCalls (s : State) : (endRun s).pendingCalls = s.pendingCalls := rfl
@[simp] theorem endRun_time (s : State) : (endRun s).time = s.time := rfl
@[simp] theorem endRun_slots (s : State) : (endRun s).slots = s.slots := rfl
@[simp] theorem endRun_drainSeq (s : State) : (endRun s).drainSeq = s.drainSeq := rfl
@[simp] theorem endRun_strands (s : State) : (endRun s).strands = s.strands := rfl
@[simp] theorem endRun_ops (s : State) : (endRun s).ops = s.ops := rfl
@[simp] theorem endRun_teams (s : State) : (endRun s).teams = s.teams := rfl
@[simp] theorem endRun_gangs (s : State) : (endRun s).gangs = s.gangs := rfl
@[simp] theorem endRun_launches (s : State) : (endRun s).launches = s.launches := rfl
@[simp] theorem endRun_cores (s : State) : (endRun s).cores = s.cores := rfl
@[simp] theorem endRun_dies (s : State) : (endRun s).dies = s.dies := rfl
@[simp] theorem endRun_mem (s : State) : (endRun s).mem = s.mem := rfl
@[simp] theorem endRun_memPois (s : State) : (endRun s).memPois = s.memPois := rfl
@[simp] theorem endRun_hostMem (s : State) : (endRun s).hostMem = s.hostMem := rfl
@[simp] theorem endRun_hostPois (s : State) : (endRun s).hostPois = s.hostPois := rfl
@[simp] theorem endRun_stores (s : State) : (endRun s).stores = s.stores := rfl
@[simp] theorem endRun_obs (s : State) : (endRun s).obs = s.obs := rfl
@[simp] theorem endRun_rels (s : State) : (endRun s).rels = s.rels := rfl
@[simp] theorem endRun_reads (s : State) : (endRun s).reads = s.reads := rfl
@[simp] theorem endRun_fences (s : State) : (endRun s).fences = s.fences := rfl
@[simp] theorem endRun_gsets (s : State) : (endRun s).gsets = s.gsets := rfl
@[simp] theorem endRun_walkReqs (s : State) : (endRun s).walkReqs = s.walkReqs := rfl
@[simp] theorem endRun_walkRes (s : State) : (endRun s).walkRes = s.walkRes := rfl
@[simp] theorem endRun_walkCache (s : State) : (endRun s).walkCache = s.walkCache := rfl
@[simp] theorem endRun_invals (s : State) : (endRun s).invals = s.invals := rfl
@[simp] theorem endRun_atsReqs (s : State) : (endRun s).atsReqs = s.atsReqs := rfl
@[simp] theorem endRun_atsInvals (s : State) : (endRun s).atsInvals = s.atsInvals := rfl
@[simp] theorem endRun_priReqs (s : State) : (endRun s).priReqs = s.priReqs := rfl
@[simp] theorem endRun_ctxs (s : State) : (endRun s).ctxs = s.ctxs := rfl
@[simp] theorem endRun_stops (s : State) : (endRun s).stops = s.stops := rfl
@[simp] theorem endRun_nextTicket (s : State) : (endRun s).nextTicket = s.nextTicket := rfl
@[simp] theorem endRun_selTicket (s : State) : (endRun s).selTicket = s.selTicket := rfl
@[simp] theorem endRun_selCtx (s : State) : (endRun s).selCtx = s.selCtx := rfl
@[simp] theorem endRun_stopNone (s : State) : (endRun s).stopNone = s.stopNone := rfl
@[simp] theorem endRun_stopRefused (s : State) : (endRun s).stopRefused = s.stopRefused := rfl
@[simp] theorem endRun_attaches (s : State) : (endRun s).attaches = s.attaches := rfl
@[simp] theorem endRun_dumps (s : State) : (endRun s).dumps = s.dumps := rfl
@[simp] theorem endRun_l2 (s : State) : (endRun s).l2 = s.l2 := rfl
@[simp] theorem endRun_l2lines (s : State) : (endRun s).l2lines = s.l2lines := rfl
@[simp] theorem endRun_packets (s : State) : (endRun s).packets = s.packets := rfl
@[simp] theorem endRun_bdies (s : State) : (endRun s).bdies = s.bdies := rfl
@[simp] theorem endRun_userqs (s : State) : (endRun s).userqs = s.userqs := rfl
@[simp] theorem endRun_windows (s : State) : (endRun s).windows = s.windows := rfl
@[simp] theorem endRun_images (s : State) : (endRun s).images = s.images := rfl
@[simp] theorem endRun_sec (s : State) : (endRun s).sec = s.sec := rfl
@[simp] theorem endRun_telemetry (s : State) : (endRun s).telemetry = s.telemetry := rfl
@[simp] theorem endRun_corrected (s : State) : (endRun s).corrected = s.corrected := rfl
@[simp] theorem endRun_allocated (s : State) : (endRun s).allocated = s.allocated := rfl
@[simp] theorem endRun_allocatedFast (s : State) : (endRun s).allocatedFast = s.allocatedFast := rfl
@[simp] theorem endRun_sysPages (s : State) : (endRun s).sysPages = s.sysPages := rfl
@[simp] theorem endRun_freePages (s : State) : (endRun s).freePages = s.freePages := rfl
@[simp] theorem endRun_shared (s : State) : (endRun s).shared = s.shared := rfl
@[simp] theorem endRun_oldRecords (s : State) : (endRun s).oldRecords = s.oldRecords := rfl

@[simp] theorem blockOn_agenda (s : State) (i : Nat) (w : Wait) : (blockOn s i w).agenda = s.agenda := rfl
@[simp] theorem blockOn_sched (s : State) (i : Nat) (w : Wait) : (blockOn s i w).sched = s.sched := rfl
@[simp] theorem blockOn_issuePhase (s : State) (i : Nat) (w : Wait) : (blockOn s i w).issuePhase = s.issuePhase := rfl
@[simp] theorem blockOn_evPtr (s : State) (i : Nat) (w : Wait) : (blockOn s i w).evPtr = s.evPtr := rfl
@[simp] theorem blockOn_nfree (s : State) (i : Nat) (w : Wait) : (blockOn s i w).nfree = s.nfree := rfl
@[simp] theorem blockOn_cur (s : State) (i : Nat) (w : Wait) : (blockOn s i w).cur = s.cur := rfl
@[simp] theorem blockOn_nextId (s : State) (i : Nat) (w : Wait) : (blockOn s i w).nextId = s.nextId := rfl
@[simp] theorem blockOn_out (s : State) (i : Nat) (w : Wait) : (blockOn s i w).out = s.out := rfl
@[simp] theorem blockOn_badAddr (s : State) (i : Nat) (w : Wait) : (blockOn s i w).badAddr = s.badAddr := rfl
@[simp] theorem blockOn_choices (s : State) (i : Nat) (w : Wait) : (blockOn s i w).choices = s.choices := rfl
@[simp] theorem blockOn_hostStores (s : State) (i : Nat) (w : Wait) : (blockOn s i w).hostStores = s.hostStores := rfl
@[simp] theorem blockOn_pendingCalls (s : State) (i : Nat) (w : Wait) : (blockOn s i w).pendingCalls = s.pendingCalls := rfl
@[simp] theorem blockOn_time (s : State) (i : Nat) (w : Wait) : (blockOn s i w).time = s.time := rfl
@[simp] theorem blockOn_slots (s : State) (i : Nat) (w : Wait) : (blockOn s i w).slots = s.slots := rfl
@[simp] theorem blockOn_drainSeq (s : State) (i : Nat) (w : Wait) : (blockOn s i w).drainSeq = s.drainSeq := rfl
@[simp] theorem blockOn_ops (s : State) (i : Nat) (w : Wait) : (blockOn s i w).ops = s.ops := rfl
@[simp] theorem blockOn_teams (s : State) (i : Nat) (w : Wait) : (blockOn s i w).teams = s.teams := rfl
@[simp] theorem blockOn_gangs (s : State) (i : Nat) (w : Wait) : (blockOn s i w).gangs = s.gangs := rfl
@[simp] theorem blockOn_launches (s : State) (i : Nat) (w : Wait) : (blockOn s i w).launches = s.launches := rfl
@[simp] theorem blockOn_cores (s : State) (i : Nat) (w : Wait) : (blockOn s i w).cores = s.cores := rfl
@[simp] theorem blockOn_dies (s : State) (i : Nat) (w : Wait) : (blockOn s i w).dies = s.dies := rfl
@[simp] theorem blockOn_mem (s : State) (i : Nat) (w : Wait) : (blockOn s i w).mem = s.mem := rfl
@[simp] theorem blockOn_memPois (s : State) (i : Nat) (w : Wait) : (blockOn s i w).memPois = s.memPois := rfl
@[simp] theorem blockOn_hostMem (s : State) (i : Nat) (w : Wait) : (blockOn s i w).hostMem = s.hostMem := rfl
@[simp] theorem blockOn_hostPois (s : State) (i : Nat) (w : Wait) : (blockOn s i w).hostPois = s.hostPois := rfl
@[simp] theorem blockOn_stores (s : State) (i : Nat) (w : Wait) : (blockOn s i w).stores = s.stores := rfl
@[simp] theorem blockOn_obs (s : State) (i : Nat) (w : Wait) : (blockOn s i w).obs = s.obs := rfl
@[simp] theorem blockOn_rels (s : State) (i : Nat) (w : Wait) : (blockOn s i w).rels = s.rels := rfl
@[simp] theorem blockOn_reads (s : State) (i : Nat) (w : Wait) : (blockOn s i w).reads = s.reads := rfl
@[simp] theorem blockOn_fences (s : State) (i : Nat) (w : Wait) : (blockOn s i w).fences = s.fences := rfl
@[simp] theorem blockOn_gsets (s : State) (i : Nat) (w : Wait) : (blockOn s i w).gsets = s.gsets := rfl
@[simp] theorem blockOn_walkReqs (s : State) (i : Nat) (w : Wait) : (blockOn s i w).walkReqs = s.walkReqs := rfl
@[simp] theorem blockOn_walkRes (s : State) (i : Nat) (w : Wait) : (blockOn s i w).walkRes = s.walkRes := rfl
@[simp] theorem blockOn_walkCache (s : State) (i : Nat) (w : Wait) : (blockOn s i w).walkCache = s.walkCache := rfl
@[simp] theorem blockOn_invals (s : State) (i : Nat) (w : Wait) : (blockOn s i w).invals = s.invals := rfl
@[simp] theorem blockOn_atsReqs (s : State) (i : Nat) (w : Wait) : (blockOn s i w).atsReqs = s.atsReqs := rfl
@[simp] theorem blockOn_atsInvals (s : State) (i : Nat) (w : Wait) : (blockOn s i w).atsInvals = s.atsInvals := rfl
@[simp] theorem blockOn_priReqs (s : State) (i : Nat) (w : Wait) : (blockOn s i w).priReqs = s.priReqs := rfl
@[simp] theorem blockOn_ctxs (s : State) (i : Nat) (w : Wait) : (blockOn s i w).ctxs = s.ctxs := rfl
@[simp] theorem blockOn_stops (s : State) (i : Nat) (w : Wait) : (blockOn s i w).stops = s.stops := rfl
@[simp] theorem blockOn_nextTicket (s : State) (i : Nat) (w : Wait) : (blockOn s i w).nextTicket = s.nextTicket := rfl
@[simp] theorem blockOn_selTicket (s : State) (i : Nat) (w : Wait) : (blockOn s i w).selTicket = s.selTicket := rfl
@[simp] theorem blockOn_selCtx (s : State) (i : Nat) (w : Wait) : (blockOn s i w).selCtx = s.selCtx := rfl
@[simp] theorem blockOn_stopNone (s : State) (i : Nat) (w : Wait) : (blockOn s i w).stopNone = s.stopNone := rfl
@[simp] theorem blockOn_stopRefused (s : State) (i : Nat) (w : Wait) : (blockOn s i w).stopRefused = s.stopRefused := rfl
@[simp] theorem blockOn_attaches (s : State) (i : Nat) (w : Wait) : (blockOn s i w).attaches = s.attaches := rfl
@[simp] theorem blockOn_dumps (s : State) (i : Nat) (w : Wait) : (blockOn s i w).dumps = s.dumps := rfl
@[simp] theorem blockOn_l2 (s : State) (i : Nat) (w : Wait) : (blockOn s i w).l2 = s.l2 := rfl
@[simp] theorem blockOn_l2lines (s : State) (i : Nat) (w : Wait) : (blockOn s i w).l2lines = s.l2lines := rfl
@[simp] theorem blockOn_packets (s : State) (i : Nat) (w : Wait) : (blockOn s i w).packets = s.packets := rfl
@[simp] theorem blockOn_bdies (s : State) (i : Nat) (w : Wait) : (blockOn s i w).bdies = s.bdies := rfl
@[simp] theorem blockOn_userqs (s : State) (i : Nat) (w : Wait) : (blockOn s i w).userqs = s.userqs := rfl
@[simp] theorem blockOn_windows (s : State) (i : Nat) (w : Wait) : (blockOn s i w).windows = s.windows := rfl
@[simp] theorem blockOn_images (s : State) (i : Nat) (w : Wait) : (blockOn s i w).images = s.images := rfl
@[simp] theorem blockOn_sec (s : State) (i : Nat) (w : Wait) : (blockOn s i w).sec = s.sec := rfl
@[simp] theorem blockOn_telemetry (s : State) (i : Nat) (w : Wait) : (blockOn s i w).telemetry = s.telemetry := rfl
@[simp] theorem blockOn_corrected (s : State) (i : Nat) (w : Wait) : (blockOn s i w).corrected = s.corrected := rfl
@[simp] theorem blockOn_allocated (s : State) (i : Nat) (w : Wait) : (blockOn s i w).allocated = s.allocated := rfl
@[simp] theorem blockOn_allocatedFast (s : State) (i : Nat) (w : Wait) : (blockOn s i w).allocatedFast = s.allocatedFast := rfl
@[simp] theorem blockOn_sysPages (s : State) (i : Nat) (w : Wait) : (blockOn s i w).sysPages = s.sysPages := rfl
@[simp] theorem blockOn_freePages (s : State) (i : Nat) (w : Wait) : (blockOn s i w).freePages = s.freePages := rfl
@[simp] theorem blockOn_shared (s : State) (i : Nat) (w : Wait) : (blockOn s i w).shared = s.shared := rfl
@[simp] theorem blockOn_oldRecords (s : State) (i : Nat) (w : Wait) : (blockOn s i w).oldRecords = s.oldRecords := rfl

@[simp] theorem advance_agenda (s : State) (i n : Nat) : (advance s i n).agenda = s.agenda := rfl
@[simp] theorem advance_sched (s : State) (i n : Nat) : (advance s i n).sched = s.sched := rfl
@[simp] theorem advance_issuePhase (s : State) (i n : Nat) : (advance s i n).issuePhase = s.issuePhase := rfl
@[simp] theorem advance_evPtr (s : State) (i n : Nat) : (advance s i n).evPtr = s.evPtr := rfl
@[simp] theorem advance_nfree (s : State) (i n : Nat) : (advance s i n).nfree = s.nfree := rfl
@[simp] theorem advance_cur (s : State) (i n : Nat) : (advance s i n).cur = s.cur := rfl
@[simp] theorem advance_nextId (s : State) (i n : Nat) : (advance s i n).nextId = s.nextId := rfl
@[simp] theorem advance_out (s : State) (i n : Nat) : (advance s i n).out = s.out := rfl
@[simp] theorem advance_badAddr (s : State) (i n : Nat) : (advance s i n).badAddr = s.badAddr := rfl
@[simp] theorem advance_choices (s : State) (i n : Nat) : (advance s i n).choices = s.choices := rfl
@[simp] theorem advance_hostStores (s : State) (i n : Nat) : (advance s i n).hostStores = s.hostStores := rfl
@[simp] theorem advance_pendingCalls (s : State) (i n : Nat) : (advance s i n).pendingCalls = s.pendingCalls := rfl
@[simp] theorem advance_time (s : State) (i n : Nat) : (advance s i n).time = s.time := rfl
@[simp] theorem advance_slots (s : State) (i n : Nat) : (advance s i n).slots = s.slots := rfl
@[simp] theorem advance_drainSeq (s : State) (i n : Nat) : (advance s i n).drainSeq = s.drainSeq := rfl
@[simp] theorem advance_ops (s : State) (i n : Nat) : (advance s i n).ops = s.ops := rfl
@[simp] theorem advance_teams (s : State) (i n : Nat) : (advance s i n).teams = s.teams := rfl
@[simp] theorem advance_gangs (s : State) (i n : Nat) : (advance s i n).gangs = s.gangs := rfl
@[simp] theorem advance_launches (s : State) (i n : Nat) : (advance s i n).launches = s.launches := rfl
@[simp] theorem advance_cores (s : State) (i n : Nat) : (advance s i n).cores = s.cores := rfl
@[simp] theorem advance_dies (s : State) (i n : Nat) : (advance s i n).dies = s.dies := rfl
@[simp] theorem advance_mem (s : State) (i n : Nat) : (advance s i n).mem = s.mem := rfl
@[simp] theorem advance_memPois (s : State) (i n : Nat) : (advance s i n).memPois = s.memPois := rfl
@[simp] theorem advance_hostMem (s : State) (i n : Nat) : (advance s i n).hostMem = s.hostMem := rfl
@[simp] theorem advance_hostPois (s : State) (i n : Nat) : (advance s i n).hostPois = s.hostPois := rfl
@[simp] theorem advance_stores (s : State) (i n : Nat) : (advance s i n).stores = s.stores := rfl
@[simp] theorem advance_obs (s : State) (i n : Nat) : (advance s i n).obs = s.obs := rfl
@[simp] theorem advance_rels (s : State) (i n : Nat) : (advance s i n).rels = s.rels := rfl
@[simp] theorem advance_reads (s : State) (i n : Nat) : (advance s i n).reads = s.reads := rfl
@[simp] theorem advance_fences (s : State) (i n : Nat) : (advance s i n).fences = s.fences := rfl
@[simp] theorem advance_gsets (s : State) (i n : Nat) : (advance s i n).gsets = s.gsets := rfl
@[simp] theorem advance_walkReqs (s : State) (i n : Nat) : (advance s i n).walkReqs = s.walkReqs := rfl
@[simp] theorem advance_walkRes (s : State) (i n : Nat) : (advance s i n).walkRes = s.walkRes := rfl
@[simp] theorem advance_walkCache (s : State) (i n : Nat) : (advance s i n).walkCache = s.walkCache := rfl
@[simp] theorem advance_invals (s : State) (i n : Nat) : (advance s i n).invals = s.invals := rfl
@[simp] theorem advance_atsReqs (s : State) (i n : Nat) : (advance s i n).atsReqs = s.atsReqs := rfl
@[simp] theorem advance_atsInvals (s : State) (i n : Nat) : (advance s i n).atsInvals = s.atsInvals := rfl
@[simp] theorem advance_priReqs (s : State) (i n : Nat) : (advance s i n).priReqs = s.priReqs := rfl
@[simp] theorem advance_ctxs (s : State) (i n : Nat) : (advance s i n).ctxs = s.ctxs := rfl
@[simp] theorem advance_stops (s : State) (i n : Nat) : (advance s i n).stops = s.stops := rfl
@[simp] theorem advance_nextTicket (s : State) (i n : Nat) : (advance s i n).nextTicket = s.nextTicket := rfl
@[simp] theorem advance_selTicket (s : State) (i n : Nat) : (advance s i n).selTicket = s.selTicket := rfl
@[simp] theorem advance_selCtx (s : State) (i n : Nat) : (advance s i n).selCtx = s.selCtx := rfl
@[simp] theorem advance_stopNone (s : State) (i n : Nat) : (advance s i n).stopNone = s.stopNone := rfl
@[simp] theorem advance_stopRefused (s : State) (i n : Nat) : (advance s i n).stopRefused = s.stopRefused := rfl
@[simp] theorem advance_attaches (s : State) (i n : Nat) : (advance s i n).attaches = s.attaches := rfl
@[simp] theorem advance_dumps (s : State) (i n : Nat) : (advance s i n).dumps = s.dumps := rfl
@[simp] theorem advance_l2 (s : State) (i n : Nat) : (advance s i n).l2 = s.l2 := rfl
@[simp] theorem advance_l2lines (s : State) (i n : Nat) : (advance s i n).l2lines = s.l2lines := rfl
@[simp] theorem advance_packets (s : State) (i n : Nat) : (advance s i n).packets = s.packets := rfl
@[simp] theorem advance_bdies (s : State) (i n : Nat) : (advance s i n).bdies = s.bdies := rfl
@[simp] theorem advance_userqs (s : State) (i n : Nat) : (advance s i n).userqs = s.userqs := rfl
@[simp] theorem advance_windows (s : State) (i n : Nat) : (advance s i n).windows = s.windows := rfl
@[simp] theorem advance_images (s : State) (i n : Nat) : (advance s i n).images = s.images := rfl
@[simp] theorem advance_sec (s : State) (i n : Nat) : (advance s i n).sec = s.sec := rfl
@[simp] theorem advance_telemetry (s : State) (i n : Nat) : (advance s i n).telemetry = s.telemetry := rfl
@[simp] theorem advance_corrected (s : State) (i n : Nat) : (advance s i n).corrected = s.corrected := rfl
@[simp] theorem advance_allocated (s : State) (i n : Nat) : (advance s i n).allocated = s.allocated := rfl
@[simp] theorem advance_allocatedFast (s : State) (i n : Nat) : (advance s i n).allocatedFast = s.allocatedFast := rfl
@[simp] theorem advance_sysPages (s : State) (i n : Nat) : (advance s i n).sysPages = s.sysPages := rfl
@[simp] theorem advance_freePages (s : State) (i n : Nat) : (advance s i n).freePages = s.freePages := rfl
@[simp] theorem advance_shared (s : State) (i n : Nat) : (advance s i n).shared = s.shared := rfl
@[simp] theorem advance_oldRecords (s : State) (i n : Nat) : (advance s i n).oldRecords = s.oldRecords := rfl

@[simp] theorem unblockSid_agenda (s : State) (i : Nat) : (unblockSid s i).agenda = s.agenda := rfl
@[simp] theorem unblockSid_sched (s : State) (i : Nat) : (unblockSid s i).sched = s.sched := rfl
@[simp] theorem unblockSid_issuePhase (s : State) (i : Nat) : (unblockSid s i).issuePhase = s.issuePhase := rfl
@[simp] theorem unblockSid_evPtr (s : State) (i : Nat) : (unblockSid s i).evPtr = s.evPtr := rfl
@[simp] theorem unblockSid_nfree (s : State) (i : Nat) : (unblockSid s i).nfree = s.nfree := rfl
@[simp] theorem unblockSid_cur (s : State) (i : Nat) : (unblockSid s i).cur = s.cur := rfl
@[simp] theorem unblockSid_nextId (s : State) (i : Nat) : (unblockSid s i).nextId = s.nextId := rfl
@[simp] theorem unblockSid_out (s : State) (i : Nat) : (unblockSid s i).out = s.out := rfl
@[simp] theorem unblockSid_badAddr (s : State) (i : Nat) : (unblockSid s i).badAddr = s.badAddr := rfl
@[simp] theorem unblockSid_choices (s : State) (i : Nat) : (unblockSid s i).choices = s.choices := rfl
@[simp] theorem unblockSid_hostStores (s : State) (i : Nat) : (unblockSid s i).hostStores = s.hostStores := rfl
@[simp] theorem unblockSid_pendingCalls (s : State) (i : Nat) : (unblockSid s i).pendingCalls = s.pendingCalls := rfl
@[simp] theorem unblockSid_time (s : State) (i : Nat) : (unblockSid s i).time = s.time := rfl
@[simp] theorem unblockSid_slots (s : State) (i : Nat) : (unblockSid s i).slots = s.slots := rfl
@[simp] theorem unblockSid_drainSeq (s : State) (i : Nat) : (unblockSid s i).drainSeq = s.drainSeq := rfl
@[simp] theorem unblockSid_ops (s : State) (i : Nat) : (unblockSid s i).ops = s.ops := rfl
@[simp] theorem unblockSid_teams (s : State) (i : Nat) : (unblockSid s i).teams = s.teams := rfl
@[simp] theorem unblockSid_gangs (s : State) (i : Nat) : (unblockSid s i).gangs = s.gangs := rfl
@[simp] theorem unblockSid_launches (s : State) (i : Nat) : (unblockSid s i).launches = s.launches := rfl
@[simp] theorem unblockSid_cores (s : State) (i : Nat) : (unblockSid s i).cores = s.cores := rfl
@[simp] theorem unblockSid_dies (s : State) (i : Nat) : (unblockSid s i).dies = s.dies := rfl
@[simp] theorem unblockSid_mem (s : State) (i : Nat) : (unblockSid s i).mem = s.mem := rfl
@[simp] theorem unblockSid_memPois (s : State) (i : Nat) : (unblockSid s i).memPois = s.memPois := rfl
@[simp] theorem unblockSid_hostMem (s : State) (i : Nat) : (unblockSid s i).hostMem = s.hostMem := rfl
@[simp] theorem unblockSid_hostPois (s : State) (i : Nat) : (unblockSid s i).hostPois = s.hostPois := rfl
@[simp] theorem unblockSid_stores (s : State) (i : Nat) : (unblockSid s i).stores = s.stores := rfl
@[simp] theorem unblockSid_obs (s : State) (i : Nat) : (unblockSid s i).obs = s.obs := rfl
@[simp] theorem unblockSid_rels (s : State) (i : Nat) : (unblockSid s i).rels = s.rels := rfl
@[simp] theorem unblockSid_reads (s : State) (i : Nat) : (unblockSid s i).reads = s.reads := rfl
@[simp] theorem unblockSid_fences (s : State) (i : Nat) : (unblockSid s i).fences = s.fences := rfl
@[simp] theorem unblockSid_gsets (s : State) (i : Nat) : (unblockSid s i).gsets = s.gsets := rfl
@[simp] theorem unblockSid_walkReqs (s : State) (i : Nat) : (unblockSid s i).walkReqs = s.walkReqs := rfl
@[simp] theorem unblockSid_walkRes (s : State) (i : Nat) : (unblockSid s i).walkRes = s.walkRes := rfl
@[simp] theorem unblockSid_walkCache (s : State) (i : Nat) : (unblockSid s i).walkCache = s.walkCache := rfl
@[simp] theorem unblockSid_invals (s : State) (i : Nat) : (unblockSid s i).invals = s.invals := rfl
@[simp] theorem unblockSid_atsReqs (s : State) (i : Nat) : (unblockSid s i).atsReqs = s.atsReqs := rfl
@[simp] theorem unblockSid_atsInvals (s : State) (i : Nat) : (unblockSid s i).atsInvals = s.atsInvals := rfl
@[simp] theorem unblockSid_priReqs (s : State) (i : Nat) : (unblockSid s i).priReqs = s.priReqs := rfl
@[simp] theorem unblockSid_ctxs (s : State) (i : Nat) : (unblockSid s i).ctxs = s.ctxs := rfl
@[simp] theorem unblockSid_stops (s : State) (i : Nat) : (unblockSid s i).stops = s.stops := rfl
@[simp] theorem unblockSid_nextTicket (s : State) (i : Nat) : (unblockSid s i).nextTicket = s.nextTicket := rfl
@[simp] theorem unblockSid_selTicket (s : State) (i : Nat) : (unblockSid s i).selTicket = s.selTicket := rfl
@[simp] theorem unblockSid_selCtx (s : State) (i : Nat) : (unblockSid s i).selCtx = s.selCtx := rfl
@[simp] theorem unblockSid_stopNone (s : State) (i : Nat) : (unblockSid s i).stopNone = s.stopNone := rfl
@[simp] theorem unblockSid_stopRefused (s : State) (i : Nat) : (unblockSid s i).stopRefused = s.stopRefused := rfl
@[simp] theorem unblockSid_attaches (s : State) (i : Nat) : (unblockSid s i).attaches = s.attaches := rfl
@[simp] theorem unblockSid_dumps (s : State) (i : Nat) : (unblockSid s i).dumps = s.dumps := rfl
@[simp] theorem unblockSid_l2 (s : State) (i : Nat) : (unblockSid s i).l2 = s.l2 := rfl
@[simp] theorem unblockSid_l2lines (s : State) (i : Nat) : (unblockSid s i).l2lines = s.l2lines := rfl
@[simp] theorem unblockSid_packets (s : State) (i : Nat) : (unblockSid s i).packets = s.packets := rfl
@[simp] theorem unblockSid_bdies (s : State) (i : Nat) : (unblockSid s i).bdies = s.bdies := rfl
@[simp] theorem unblockSid_userqs (s : State) (i : Nat) : (unblockSid s i).userqs = s.userqs := rfl
@[simp] theorem unblockSid_windows (s : State) (i : Nat) : (unblockSid s i).windows = s.windows := rfl
@[simp] theorem unblockSid_images (s : State) (i : Nat) : (unblockSid s i).images = s.images := rfl
@[simp] theorem unblockSid_sec (s : State) (i : Nat) : (unblockSid s i).sec = s.sec := rfl
@[simp] theorem unblockSid_telemetry (s : State) (i : Nat) : (unblockSid s i).telemetry = s.telemetry := rfl
@[simp] theorem unblockSid_corrected (s : State) (i : Nat) : (unblockSid s i).corrected = s.corrected := rfl
@[simp] theorem unblockSid_allocated (s : State) (i : Nat) : (unblockSid s i).allocated = s.allocated := rfl
@[simp] theorem unblockSid_allocatedFast (s : State) (i : Nat) : (unblockSid s i).allocatedFast = s.allocatedFast := rfl
@[simp] theorem unblockSid_sysPages (s : State) (i : Nat) : (unblockSid s i).sysPages = s.sysPages := rfl
@[simp] theorem unblockSid_freePages (s : State) (i : Nat) : (unblockSid s i).freePages = s.freePages := rfl
@[simp] theorem unblockSid_shared (s : State) (i : Nat) : (unblockSid s i).shared = s.shared := rfl
@[simp] theorem unblockSid_oldRecords (s : State) (i : Nat) : (unblockSid s i).oldRecords = s.oldRecords := rfl

@[simp] theorem putCore_agenda (s : State) (x : Machine.Core) : (putCore s x).agenda = s.agenda := by unfold putCore; split <;> rfl
@[simp] theorem putCore_sched (s : State) (x : Machine.Core) : (putCore s x).sched = s.sched := by unfold putCore; split <;> rfl
@[simp] theorem putCore_issuePhase (s : State) (x : Machine.Core) : (putCore s x).issuePhase = s.issuePhase := by unfold putCore; split <;> rfl
@[simp] theorem putCore_evPtr (s : State) (x : Machine.Core) : (putCore s x).evPtr = s.evPtr := by unfold putCore; split <;> rfl
@[simp] theorem putCore_nfree (s : State) (x : Machine.Core) : (putCore s x).nfree = s.nfree := by unfold putCore; split <;> rfl
@[simp] theorem putCore_cur (s : State) (x : Machine.Core) : (putCore s x).cur = s.cur := by unfold putCore; split <;> rfl
@[simp] theorem putCore_nextId (s : State) (x : Machine.Core) : (putCore s x).nextId = s.nextId := by unfold putCore; split <;> rfl
@[simp] theorem putCore_out (s : State) (x : Machine.Core) : (putCore s x).out = s.out := by unfold putCore; split <;> rfl
@[simp] theorem putCore_badAddr (s : State) (x : Machine.Core) : (putCore s x).badAddr = s.badAddr := by unfold putCore; split <;> rfl
@[simp] theorem putCore_choices (s : State) (x : Machine.Core) : (putCore s x).choices = s.choices := by unfold putCore; split <;> rfl
@[simp] theorem putCore_hostStores (s : State) (x : Machine.Core) : (putCore s x).hostStores = s.hostStores := by unfold putCore; split <;> rfl
@[simp] theorem putCore_pendingCalls (s : State) (x : Machine.Core) : (putCore s x).pendingCalls = s.pendingCalls := by unfold putCore; split <;> rfl
@[simp] theorem putCore_time (s : State) (x : Machine.Core) : (putCore s x).time = s.time := by unfold putCore; split <;> rfl
@[simp] theorem putCore_slots (s : State) (x : Machine.Core) : (putCore s x).slots = s.slots := by unfold putCore; split <;> rfl
@[simp] theorem putCore_drainSeq (s : State) (x : Machine.Core) : (putCore s x).drainSeq = s.drainSeq := by unfold putCore; split <;> rfl
@[simp] theorem putCore_strands (s : State) (x : Machine.Core) : (putCore s x).strands = s.strands := by unfold putCore; split <;> rfl
@[simp] theorem putCore_ops (s : State) (x : Machine.Core) : (putCore s x).ops = s.ops := by unfold putCore; split <;> rfl
@[simp] theorem putCore_teams (s : State) (x : Machine.Core) : (putCore s x).teams = s.teams := by unfold putCore; split <;> rfl
@[simp] theorem putCore_gangs (s : State) (x : Machine.Core) : (putCore s x).gangs = s.gangs := by unfold putCore; split <;> rfl
@[simp] theorem putCore_launches (s : State) (x : Machine.Core) : (putCore s x).launches = s.launches := by unfold putCore; split <;> rfl
@[simp] theorem putCore_dies (s : State) (x : Machine.Core) : (putCore s x).dies = s.dies := by unfold putCore; split <;> rfl
@[simp] theorem putCore_mem (s : State) (x : Machine.Core) : (putCore s x).mem = s.mem := by unfold putCore; split <;> rfl
@[simp] theorem putCore_memPois (s : State) (x : Machine.Core) : (putCore s x).memPois = s.memPois := by unfold putCore; split <;> rfl
@[simp] theorem putCore_hostMem (s : State) (x : Machine.Core) : (putCore s x).hostMem = s.hostMem := by unfold putCore; split <;> rfl
@[simp] theorem putCore_hostPois (s : State) (x : Machine.Core) : (putCore s x).hostPois = s.hostPois := by unfold putCore; split <;> rfl
@[simp] theorem putCore_stores (s : State) (x : Machine.Core) : (putCore s x).stores = s.stores := by unfold putCore; split <;> rfl
@[simp] theorem putCore_obs (s : State) (x : Machine.Core) : (putCore s x).obs = s.obs := by unfold putCore; split <;> rfl
@[simp] theorem putCore_rels (s : State) (x : Machine.Core) : (putCore s x).rels = s.rels := by unfold putCore; split <;> rfl
@[simp] theorem putCore_reads (s : State) (x : Machine.Core) : (putCore s x).reads = s.reads := by unfold putCore; split <;> rfl
@[simp] theorem putCore_fences (s : State) (x : Machine.Core) : (putCore s x).fences = s.fences := by unfold putCore; split <;> rfl
@[simp] theorem putCore_gsets (s : State) (x : Machine.Core) : (putCore s x).gsets = s.gsets := by unfold putCore; split <;> rfl
@[simp] theorem putCore_walkReqs (s : State) (x : Machine.Core) : (putCore s x).walkReqs = s.walkReqs := by unfold putCore; split <;> rfl
@[simp] theorem putCore_walkRes (s : State) (x : Machine.Core) : (putCore s x).walkRes = s.walkRes := by unfold putCore; split <;> rfl
@[simp] theorem putCore_walkCache (s : State) (x : Machine.Core) : (putCore s x).walkCache = s.walkCache := by unfold putCore; split <;> rfl
@[simp] theorem putCore_invals (s : State) (x : Machine.Core) : (putCore s x).invals = s.invals := by unfold putCore; split <;> rfl
@[simp] theorem putCore_atsReqs (s : State) (x : Machine.Core) : (putCore s x).atsReqs = s.atsReqs := by unfold putCore; split <;> rfl
@[simp] theorem putCore_atsInvals (s : State) (x : Machine.Core) : (putCore s x).atsInvals = s.atsInvals := by unfold putCore; split <;> rfl
@[simp] theorem putCore_priReqs (s : State) (x : Machine.Core) : (putCore s x).priReqs = s.priReqs := by unfold putCore; split <;> rfl
@[simp] theorem putCore_ctxs (s : State) (x : Machine.Core) : (putCore s x).ctxs = s.ctxs := by unfold putCore; split <;> rfl
@[simp] theorem putCore_stops (s : State) (x : Machine.Core) : (putCore s x).stops = s.stops := by unfold putCore; split <;> rfl
@[simp] theorem putCore_nextTicket (s : State) (x : Machine.Core) : (putCore s x).nextTicket = s.nextTicket := by unfold putCore; split <;> rfl
@[simp] theorem putCore_selTicket (s : State) (x : Machine.Core) : (putCore s x).selTicket = s.selTicket := by unfold putCore; split <;> rfl
@[simp] theorem putCore_selCtx (s : State) (x : Machine.Core) : (putCore s x).selCtx = s.selCtx := by unfold putCore; split <;> rfl
@[simp] theorem putCore_stopNone (s : State) (x : Machine.Core) : (putCore s x).stopNone = s.stopNone := by unfold putCore; split <;> rfl
@[simp] theorem putCore_stopRefused (s : State) (x : Machine.Core) : (putCore s x).stopRefused = s.stopRefused := by unfold putCore; split <;> rfl
@[simp] theorem putCore_attaches (s : State) (x : Machine.Core) : (putCore s x).attaches = s.attaches := by unfold putCore; split <;> rfl
@[simp] theorem putCore_dumps (s : State) (x : Machine.Core) : (putCore s x).dumps = s.dumps := by unfold putCore; split <;> rfl
@[simp] theorem putCore_l2 (s : State) (x : Machine.Core) : (putCore s x).l2 = s.l2 := by unfold putCore; split <;> rfl
@[simp] theorem putCore_l2lines (s : State) (x : Machine.Core) : (putCore s x).l2lines = s.l2lines := by unfold putCore; split <;> rfl
@[simp] theorem putCore_packets (s : State) (x : Machine.Core) : (putCore s x).packets = s.packets := by unfold putCore; split <;> rfl
@[simp] theorem putCore_bdies (s : State) (x : Machine.Core) : (putCore s x).bdies = s.bdies := by unfold putCore; split <;> rfl
@[simp] theorem putCore_userqs (s : State) (x : Machine.Core) : (putCore s x).userqs = s.userqs := by unfold putCore; split <;> rfl
@[simp] theorem putCore_windows (s : State) (x : Machine.Core) : (putCore s x).windows = s.windows := by unfold putCore; split <;> rfl
@[simp] theorem putCore_images (s : State) (x : Machine.Core) : (putCore s x).images = s.images := by unfold putCore; split <;> rfl
@[simp] theorem putCore_sec (s : State) (x : Machine.Core) : (putCore s x).sec = s.sec := by unfold putCore; split <;> rfl
@[simp] theorem putCore_telemetry (s : State) (x : Machine.Core) : (putCore s x).telemetry = s.telemetry := by unfold putCore; split <;> rfl
@[simp] theorem putCore_corrected (s : State) (x : Machine.Core) : (putCore s x).corrected = s.corrected := by unfold putCore; split <;> rfl
@[simp] theorem putCore_allocated (s : State) (x : Machine.Core) : (putCore s x).allocated = s.allocated := by unfold putCore; split <;> rfl
@[simp] theorem putCore_allocatedFast (s : State) (x : Machine.Core) : (putCore s x).allocatedFast = s.allocatedFast := by unfold putCore; split <;> rfl
@[simp] theorem putCore_sysPages (s : State) (x : Machine.Core) : (putCore s x).sysPages = s.sysPages := by unfold putCore; split <;> rfl
@[simp] theorem putCore_freePages (s : State) (x : Machine.Core) : (putCore s x).freePages = s.freePages := by unfold putCore; split <;> rfl
@[simp] theorem putCore_shared (s : State) (x : Machine.Core) : (putCore s x).shared = s.shared := by unfold putCore; split <;> rfl
@[simp] theorem putCore_oldRecords (s : State) (x : Machine.Core) : (putCore s x).oldRecords = s.oldRecords := by unfold putCore; split <;> rfl

@[simp] theorem putDie_agenda (s : State) (x : Die) : (putDie s x).agenda = s.agenda := by unfold putDie; split <;> rfl
@[simp] theorem putDie_sched (s : State) (x : Die) : (putDie s x).sched = s.sched := by unfold putDie; split <;> rfl
@[simp] theorem putDie_issuePhase (s : State) (x : Die) : (putDie s x).issuePhase = s.issuePhase := by unfold putDie; split <;> rfl
@[simp] theorem putDie_evPtr (s : State) (x : Die) : (putDie s x).evPtr = s.evPtr := by unfold putDie; split <;> rfl
@[simp] theorem putDie_nfree (s : State) (x : Die) : (putDie s x).nfree = s.nfree := by unfold putDie; split <;> rfl
@[simp] theorem putDie_cur (s : State) (x : Die) : (putDie s x).cur = s.cur := by unfold putDie; split <;> rfl
@[simp] theorem putDie_nextId (s : State) (x : Die) : (putDie s x).nextId = s.nextId := by unfold putDie; split <;> rfl
@[simp] theorem putDie_out (s : State) (x : Die) : (putDie s x).out = s.out := by unfold putDie; split <;> rfl
@[simp] theorem putDie_badAddr (s : State) (x : Die) : (putDie s x).badAddr = s.badAddr := by unfold putDie; split <;> rfl
@[simp] theorem putDie_choices (s : State) (x : Die) : (putDie s x).choices = s.choices := by unfold putDie; split <;> rfl
@[simp] theorem putDie_hostStores (s : State) (x : Die) : (putDie s x).hostStores = s.hostStores := by unfold putDie; split <;> rfl
@[simp] theorem putDie_pendingCalls (s : State) (x : Die) : (putDie s x).pendingCalls = s.pendingCalls := by unfold putDie; split <;> rfl
@[simp] theorem putDie_time (s : State) (x : Die) : (putDie s x).time = s.time := by unfold putDie; split <;> rfl
@[simp] theorem putDie_slots (s : State) (x : Die) : (putDie s x).slots = s.slots := by unfold putDie; split <;> rfl
@[simp] theorem putDie_drainSeq (s : State) (x : Die) : (putDie s x).drainSeq = s.drainSeq := by unfold putDie; split <;> rfl
@[simp] theorem putDie_strands (s : State) (x : Die) : (putDie s x).strands = s.strands := by unfold putDie; split <;> rfl
@[simp] theorem putDie_ops (s : State) (x : Die) : (putDie s x).ops = s.ops := by unfold putDie; split <;> rfl
@[simp] theorem putDie_teams (s : State) (x : Die) : (putDie s x).teams = s.teams := by unfold putDie; split <;> rfl
@[simp] theorem putDie_gangs (s : State) (x : Die) : (putDie s x).gangs = s.gangs := by unfold putDie; split <;> rfl
@[simp] theorem putDie_launches (s : State) (x : Die) : (putDie s x).launches = s.launches := by unfold putDie; split <;> rfl
@[simp] theorem putDie_cores (s : State) (x : Die) : (putDie s x).cores = s.cores := by unfold putDie; split <;> rfl
@[simp] theorem putDie_mem (s : State) (x : Die) : (putDie s x).mem = s.mem := by unfold putDie; split <;> rfl
@[simp] theorem putDie_memPois (s : State) (x : Die) : (putDie s x).memPois = s.memPois := by unfold putDie; split <;> rfl
@[simp] theorem putDie_hostMem (s : State) (x : Die) : (putDie s x).hostMem = s.hostMem := by unfold putDie; split <;> rfl
@[simp] theorem putDie_hostPois (s : State) (x : Die) : (putDie s x).hostPois = s.hostPois := by unfold putDie; split <;> rfl
@[simp] theorem putDie_stores (s : State) (x : Die) : (putDie s x).stores = s.stores := by unfold putDie; split <;> rfl
@[simp] theorem putDie_obs (s : State) (x : Die) : (putDie s x).obs = s.obs := by unfold putDie; split <;> rfl
@[simp] theorem putDie_rels (s : State) (x : Die) : (putDie s x).rels = s.rels := by unfold putDie; split <;> rfl
@[simp] theorem putDie_reads (s : State) (x : Die) : (putDie s x).reads = s.reads := by unfold putDie; split <;> rfl
@[simp] theorem putDie_fences (s : State) (x : Die) : (putDie s x).fences = s.fences := by unfold putDie; split <;> rfl
@[simp] theorem putDie_gsets (s : State) (x : Die) : (putDie s x).gsets = s.gsets := by unfold putDie; split <;> rfl
@[simp] theorem putDie_walkReqs (s : State) (x : Die) : (putDie s x).walkReqs = s.walkReqs := by unfold putDie; split <;> rfl
@[simp] theorem putDie_walkRes (s : State) (x : Die) : (putDie s x).walkRes = s.walkRes := by unfold putDie; split <;> rfl
@[simp] theorem putDie_walkCache (s : State) (x : Die) : (putDie s x).walkCache = s.walkCache := by unfold putDie; split <;> rfl
@[simp] theorem putDie_invals (s : State) (x : Die) : (putDie s x).invals = s.invals := by unfold putDie; split <;> rfl
@[simp] theorem putDie_atsReqs (s : State) (x : Die) : (putDie s x).atsReqs = s.atsReqs := by unfold putDie; split <;> rfl
@[simp] theorem putDie_atsInvals (s : State) (x : Die) : (putDie s x).atsInvals = s.atsInvals := by unfold putDie; split <;> rfl
@[simp] theorem putDie_priReqs (s : State) (x : Die) : (putDie s x).priReqs = s.priReqs := by unfold putDie; split <;> rfl
@[simp] theorem putDie_ctxs (s : State) (x : Die) : (putDie s x).ctxs = s.ctxs := by unfold putDie; split <;> rfl
@[simp] theorem putDie_stops (s : State) (x : Die) : (putDie s x).stops = s.stops := by unfold putDie; split <;> rfl
@[simp] theorem putDie_nextTicket (s : State) (x : Die) : (putDie s x).nextTicket = s.nextTicket := by unfold putDie; split <;> rfl
@[simp] theorem putDie_selTicket (s : State) (x : Die) : (putDie s x).selTicket = s.selTicket := by unfold putDie; split <;> rfl
@[simp] theorem putDie_selCtx (s : State) (x : Die) : (putDie s x).selCtx = s.selCtx := by unfold putDie; split <;> rfl
@[simp] theorem putDie_stopNone (s : State) (x : Die) : (putDie s x).stopNone = s.stopNone := by unfold putDie; split <;> rfl
@[simp] theorem putDie_stopRefused (s : State) (x : Die) : (putDie s x).stopRefused = s.stopRefused := by unfold putDie; split <;> rfl
@[simp] theorem putDie_attaches (s : State) (x : Die) : (putDie s x).attaches = s.attaches := by unfold putDie; split <;> rfl
@[simp] theorem putDie_dumps (s : State) (x : Die) : (putDie s x).dumps = s.dumps := by unfold putDie; split <;> rfl
@[simp] theorem putDie_l2 (s : State) (x : Die) : (putDie s x).l2 = s.l2 := by unfold putDie; split <;> rfl
@[simp] theorem putDie_l2lines (s : State) (x : Die) : (putDie s x).l2lines = s.l2lines := by unfold putDie; split <;> rfl
@[simp] theorem putDie_packets (s : State) (x : Die) : (putDie s x).packets = s.packets := by unfold putDie; split <;> rfl
@[simp] theorem putDie_bdies (s : State) (x : Die) : (putDie s x).bdies = s.bdies := by unfold putDie; split <;> rfl
@[simp] theorem putDie_userqs (s : State) (x : Die) : (putDie s x).userqs = s.userqs := by unfold putDie; split <;> rfl
@[simp] theorem putDie_windows (s : State) (x : Die) : (putDie s x).windows = s.windows := by unfold putDie; split <;> rfl
@[simp] theorem putDie_images (s : State) (x : Die) : (putDie s x).images = s.images := by unfold putDie; split <;> rfl
@[simp] theorem putDie_sec (s : State) (x : Die) : (putDie s x).sec = s.sec := by unfold putDie; split <;> rfl
@[simp] theorem putDie_telemetry (s : State) (x : Die) : (putDie s x).telemetry = s.telemetry := by unfold putDie; split <;> rfl
@[simp] theorem putDie_corrected (s : State) (x : Die) : (putDie s x).corrected = s.corrected := by unfold putDie; split <;> rfl
@[simp] theorem putDie_allocated (s : State) (x : Die) : (putDie s x).allocated = s.allocated := by unfold putDie; split <;> rfl
@[simp] theorem putDie_allocatedFast (s : State) (x : Die) : (putDie s x).allocatedFast = s.allocatedFast := by unfold putDie; split <;> rfl
@[simp] theorem putDie_sysPages (s : State) (x : Die) : (putDie s x).sysPages = s.sysPages := by unfold putDie; split <;> rfl
@[simp] theorem putDie_freePages (s : State) (x : Die) : (putDie s x).freePages = s.freePages := by unfold putDie; split <;> rfl
@[simp] theorem putDie_shared (s : State) (x : Die) : (putDie s x).shared = s.shared := by unfold putDie; split <;> rfl
@[simp] theorem putDie_oldRecords (s : State) (x : Die) : (putDie s x).oldRecords = s.oldRecords := by unfold putDie; split <;> rfl

@[simp] theorem putBdie_agenda (s : State) (x : BDie) : (putBdie s x).agenda = s.agenda := by unfold putBdie; split <;> rfl
@[simp] theorem putBdie_sched (s : State) (x : BDie) : (putBdie s x).sched = s.sched := by unfold putBdie; split <;> rfl
@[simp] theorem putBdie_issuePhase (s : State) (x : BDie) : (putBdie s x).issuePhase = s.issuePhase := by unfold putBdie; split <;> rfl
@[simp] theorem putBdie_evPtr (s : State) (x : BDie) : (putBdie s x).evPtr = s.evPtr := by unfold putBdie; split <;> rfl
@[simp] theorem putBdie_nfree (s : State) (x : BDie) : (putBdie s x).nfree = s.nfree := by unfold putBdie; split <;> rfl
@[simp] theorem putBdie_cur (s : State) (x : BDie) : (putBdie s x).cur = s.cur := by unfold putBdie; split <;> rfl
@[simp] theorem putBdie_nextId (s : State) (x : BDie) : (putBdie s x).nextId = s.nextId := by unfold putBdie; split <;> rfl
@[simp] theorem putBdie_out (s : State) (x : BDie) : (putBdie s x).out = s.out := by unfold putBdie; split <;> rfl
@[simp] theorem putBdie_badAddr (s : State) (x : BDie) : (putBdie s x).badAddr = s.badAddr := by unfold putBdie; split <;> rfl
@[simp] theorem putBdie_choices (s : State) (x : BDie) : (putBdie s x).choices = s.choices := by unfold putBdie; split <;> rfl
@[simp] theorem putBdie_hostStores (s : State) (x : BDie) : (putBdie s x).hostStores = s.hostStores := by unfold putBdie; split <;> rfl
@[simp] theorem putBdie_pendingCalls (s : State) (x : BDie) : (putBdie s x).pendingCalls = s.pendingCalls := by unfold putBdie; split <;> rfl
@[simp] theorem putBdie_time (s : State) (x : BDie) : (putBdie s x).time = s.time := by unfold putBdie; split <;> rfl
@[simp] theorem putBdie_slots (s : State) (x : BDie) : (putBdie s x).slots = s.slots := by unfold putBdie; split <;> rfl
@[simp] theorem putBdie_drainSeq (s : State) (x : BDie) : (putBdie s x).drainSeq = s.drainSeq := by unfold putBdie; split <;> rfl
@[simp] theorem putBdie_strands (s : State) (x : BDie) : (putBdie s x).strands = s.strands := by unfold putBdie; split <;> rfl
@[simp] theorem putBdie_ops (s : State) (x : BDie) : (putBdie s x).ops = s.ops := by unfold putBdie; split <;> rfl
@[simp] theorem putBdie_teams (s : State) (x : BDie) : (putBdie s x).teams = s.teams := by unfold putBdie; split <;> rfl
@[simp] theorem putBdie_gangs (s : State) (x : BDie) : (putBdie s x).gangs = s.gangs := by unfold putBdie; split <;> rfl
@[simp] theorem putBdie_launches (s : State) (x : BDie) : (putBdie s x).launches = s.launches := by unfold putBdie; split <;> rfl
@[simp] theorem putBdie_cores (s : State) (x : BDie) : (putBdie s x).cores = s.cores := by unfold putBdie; split <;> rfl
@[simp] theorem putBdie_dies (s : State) (x : BDie) : (putBdie s x).dies = s.dies := by unfold putBdie; split <;> rfl
@[simp] theorem putBdie_mem (s : State) (x : BDie) : (putBdie s x).mem = s.mem := by unfold putBdie; split <;> rfl
@[simp] theorem putBdie_memPois (s : State) (x : BDie) : (putBdie s x).memPois = s.memPois := by unfold putBdie; split <;> rfl
@[simp] theorem putBdie_hostMem (s : State) (x : BDie) : (putBdie s x).hostMem = s.hostMem := by unfold putBdie; split <;> rfl
@[simp] theorem putBdie_hostPois (s : State) (x : BDie) : (putBdie s x).hostPois = s.hostPois := by unfold putBdie; split <;> rfl
@[simp] theorem putBdie_stores (s : State) (x : BDie) : (putBdie s x).stores = s.stores := by unfold putBdie; split <;> rfl
@[simp] theorem putBdie_obs (s : State) (x : BDie) : (putBdie s x).obs = s.obs := by unfold putBdie; split <;> rfl
@[simp] theorem putBdie_rels (s : State) (x : BDie) : (putBdie s x).rels = s.rels := by unfold putBdie; split <;> rfl
@[simp] theorem putBdie_reads (s : State) (x : BDie) : (putBdie s x).reads = s.reads := by unfold putBdie; split <;> rfl
@[simp] theorem putBdie_fences (s : State) (x : BDie) : (putBdie s x).fences = s.fences := by unfold putBdie; split <;> rfl
@[simp] theorem putBdie_gsets (s : State) (x : BDie) : (putBdie s x).gsets = s.gsets := by unfold putBdie; split <;> rfl
@[simp] theorem putBdie_walkReqs (s : State) (x : BDie) : (putBdie s x).walkReqs = s.walkReqs := by unfold putBdie; split <;> rfl
@[simp] theorem putBdie_walkRes (s : State) (x : BDie) : (putBdie s x).walkRes = s.walkRes := by unfold putBdie; split <;> rfl
@[simp] theorem putBdie_walkCache (s : State) (x : BDie) : (putBdie s x).walkCache = s.walkCache := by unfold putBdie; split <;> rfl
@[simp] theorem putBdie_invals (s : State) (x : BDie) : (putBdie s x).invals = s.invals := by unfold putBdie; split <;> rfl
@[simp] theorem putBdie_atsReqs (s : State) (x : BDie) : (putBdie s x).atsReqs = s.atsReqs := by unfold putBdie; split <;> rfl
@[simp] theorem putBdie_atsInvals (s : State) (x : BDie) : (putBdie s x).atsInvals = s.atsInvals := by unfold putBdie; split <;> rfl
@[simp] theorem putBdie_priReqs (s : State) (x : BDie) : (putBdie s x).priReqs = s.priReqs := by unfold putBdie; split <;> rfl
@[simp] theorem putBdie_ctxs (s : State) (x : BDie) : (putBdie s x).ctxs = s.ctxs := by unfold putBdie; split <;> rfl
@[simp] theorem putBdie_stops (s : State) (x : BDie) : (putBdie s x).stops = s.stops := by unfold putBdie; split <;> rfl
@[simp] theorem putBdie_nextTicket (s : State) (x : BDie) : (putBdie s x).nextTicket = s.nextTicket := by unfold putBdie; split <;> rfl
@[simp] theorem putBdie_selTicket (s : State) (x : BDie) : (putBdie s x).selTicket = s.selTicket := by unfold putBdie; split <;> rfl
@[simp] theorem putBdie_selCtx (s : State) (x : BDie) : (putBdie s x).selCtx = s.selCtx := by unfold putBdie; split <;> rfl
@[simp] theorem putBdie_stopNone (s : State) (x : BDie) : (putBdie s x).stopNone = s.stopNone := by unfold putBdie; split <;> rfl
@[simp] theorem putBdie_stopRefused (s : State) (x : BDie) : (putBdie s x).stopRefused = s.stopRefused := by unfold putBdie; split <;> rfl
@[simp] theorem putBdie_attaches (s : State) (x : BDie) : (putBdie s x).attaches = s.attaches := by unfold putBdie; split <;> rfl
@[simp] theorem putBdie_dumps (s : State) (x : BDie) : (putBdie s x).dumps = s.dumps := by unfold putBdie; split <;> rfl
@[simp] theorem putBdie_l2 (s : State) (x : BDie) : (putBdie s x).l2 = s.l2 := by unfold putBdie; split <;> rfl
@[simp] theorem putBdie_l2lines (s : State) (x : BDie) : (putBdie s x).l2lines = s.l2lines := by unfold putBdie; split <;> rfl
@[simp] theorem putBdie_packets (s : State) (x : BDie) : (putBdie s x).packets = s.packets := by unfold putBdie; split <;> rfl
@[simp] theorem putBdie_userqs (s : State) (x : BDie) : (putBdie s x).userqs = s.userqs := by unfold putBdie; split <;> rfl
@[simp] theorem putBdie_windows (s : State) (x : BDie) : (putBdie s x).windows = s.windows := by unfold putBdie; split <;> rfl
@[simp] theorem putBdie_images (s : State) (x : BDie) : (putBdie s x).images = s.images := by unfold putBdie; split <;> rfl
@[simp] theorem putBdie_sec (s : State) (x : BDie) : (putBdie s x).sec = s.sec := by unfold putBdie; split <;> rfl
@[simp] theorem putBdie_telemetry (s : State) (x : BDie) : (putBdie s x).telemetry = s.telemetry := by unfold putBdie; split <;> rfl
@[simp] theorem putBdie_corrected (s : State) (x : BDie) : (putBdie s x).corrected = s.corrected := by unfold putBdie; split <;> rfl
@[simp] theorem putBdie_allocated (s : State) (x : BDie) : (putBdie s x).allocated = s.allocated := by unfold putBdie; split <;> rfl
@[simp] theorem putBdie_allocatedFast (s : State) (x : BDie) : (putBdie s x).allocatedFast = s.allocatedFast := by unfold putBdie; split <;> rfl
@[simp] theorem putBdie_sysPages (s : State) (x : BDie) : (putBdie s x).sysPages = s.sysPages := by unfold putBdie; split <;> rfl
@[simp] theorem putBdie_freePages (s : State) (x : BDie) : (putBdie s x).freePages = s.freePages := by unfold putBdie; split <;> rfl
@[simp] theorem putBdie_shared (s : State) (x : BDie) : (putBdie s x).shared = s.shared := by unfold putBdie; split <;> rfl
@[simp] theorem putBdie_oldRecords (s : State) (x : BDie) : (putBdie s x).oldRecords = s.oldRecords := by unfold putBdie; split <;> rfl

@[simp] theorem draw_nfree (s : State) : (draw s).nfree = s.nfree + 1 := rfl
@[simp] theorem endRun_cur (s : State) : (endRun s).cur = none := rfl
@[simp] theorem fresh_fst (s : State) : (fresh s).1 = s.nextId := rfl
@[simp] theorem fresh_snd (s : State) : (fresh s).2 = { s with nextId := s.nextId + 1 } := rfl
@[simp] theorem updStrand_strands (s : State) (i : Nat) (f : Strand → Strand) : (updStrand s i f).strands = updWhere (fun t => t.sid == i) f s.strands := rfl
@[simp] theorem updOp_ops (s : State) (i : Nat) (f : Op → Op) : (updOp s i f).ops = updWhere (fun o => o.oid == i) f s.ops := rfl
@[simp] theorem updTeam_teams (s : State) (l n : Nat) (f : Team → Team) : (updTeam s l n f).teams = updWhere (fun t => t.lk == l && t.num == n) f s.teams := rfl
@[simp] theorem updLaunch_launches (s : State) (l : Nat) (f : Launch → Launch) : (updLaunch s l f).launches = updWhere (fun x => x.lk == l) f s.launches := rfl
@[simp] theorem updCtx_ctxs (s : State) (c : Nat) (f : Ctx → Ctx) : (updCtx s c f).ctxs = updWhere (fun x => x.num == c) f s.ctxs := rfl

/-- A table entry that an update does not name is as before, and the one that it names is the updated one. -/
theorem find_updWhere {α : Type} (p q : α → Bool) (f : α → α) (xs : List α) (h : ∀ x, p x = true → q (f x) = q x) :
    (updWhere p f xs).find? q = (xs.find? q).map (fun x => if p x then f x else x) := by
  induction xs with
  | nil => rfl
  | cons x xs ih =>
    have hx : q (if p x then f x else x) = q x := by split <;> simp_all
    simp only [updWhere, List.map_cons, List.find?_cons, hx]
    cases q x
    · exact ih
    · rfl

end Sys2Proof.Machine
end

