-- ==== Sys2Proof/Tests/Slice0.lean ====
section
/-! SUPPORT. Tests: words decoded, ill-formed terms refused, single steps against values worked out from the spec, and witnesses of the statements' hypotheses. -/

namespace Sys2Proof.Tests

open Sys2Proof.Machine

/-- The header of an unguarded instruction. -/
def u : Hdr := ⟨false, .none⟩

/-- The strand of a device in full service that issues next, over one index, with these registers U. -/
def demoStrand (regs : List (Nat × Word)) : Strand := regs.foldl (fun st e => setForm st e.1 (.u e.2)) (placeStrand 1 2)

/-- That device, with the strand issuing. -/
def demo (regs : List (Nat × Word)) : State := { placeInstruction State.reset [] with cur := some 2, strands := [demoStrand regs] }

/-- A register of the strand after an instruction, where it is U. -/
def after (i : Instr) (regs : List (Nat × Word)) (r : Nat) : Option Word :=
  match exec i (demo regs) with
  | .next t => (strandOf t 2).bind (fun st => uReg st r)
  | _ => none

/-- Entry 0 of the predicate stack after an instruction, where it is U. -/
def top (i : Instr) (regs : List (Nat × Word)) (qs : List Bool) : Option Bool :=
  let s := demo regs
  match exec i { s with strands := s.strands.map (fun st => { st with qs := qs.map QForm.u ++ List.replicate (8 - qs.length) (.u false) }) } with
  | .next t => (strandOf t 2).bind (fun st => match qform st 0 with | .u b => some b | _ => none)
  | _ => none

/-- A register after an instruction, with entries of the predicate stack. -/
def afterQ (i : Instr) (regs : List (Nat × Word)) (qs : List Bool) (r : Nat) : Option Word :=
  let s := demo regs
  match exec i { s with strands := s.strands.map (fun st => { st with qs := qs.map QForm.u ++ List.replicate (8 - qs.length) (.u false) }) } with
  | .next t => (strandOf t 2).bind (fun st => uReg st r)
  | _ => none

/-- A strand over the indices 0, 1 and 2 on a sheaf: v2 holds 1, 2, 3, and q0 is true at 0 and 2. -/
def wideStrand : Strand := { placeStrand 1 2 with count := 3, mask := some 7, regs := [(2, .x [1, 2, 3])], qs := .x [true, false, true] :: List.replicate 7 (.u false) }

/-- The device with that strand issuing. -/
def wide3 : State :=
  let s := placeInstruction State.reset []
  { s with cur := some 2, strands := [wideStrand], launches := s.launches.map (fun l => { l with grid := 3 }) }

/-- The values of a register at the three indices after an instruction. -/
def across (i : Instr) (r : Nat) : List Word :=
  match exec i wide3 with
  | .next t => (match strandOf t 2 with | some st => regVals st r | none => [])
  | _ => []

/-- The state after an instruction or an event. -/
def next (i : Instr) (s : State) : Option State := match exec i s with | .next t => some t | _ => none

/-- The device with the page of 0x10000 in its core's TLB, and v4:v5 holding that address. -/
def mapped (regs : List (Nat × Word)) : State :=
  let s := demo ([(4, 0x10000)] ++ regs)
  { s with cores := s.cores.map (fun c => { c with tlb := [⟨1, 16, ⟨false, 0x20000, 4096, true, true, 0, 1, false⟩⟩] }) }

/-- The PC of the strand after an instruction, where it is still there. -/
def pcAfter (i : Instr) (s : State) : Option DWord := (next i s).bind (fun t => (strandOf t 2).map (fun st => st.pc))

/-- The kinds of the open stops. -/
def stopKinds (i : Instr) (s : State) : List Nat := ((next i s).map (fun t => t.stops.map (fun x => x.kind))).getD []

set_option maxRecDepth 20000
set_option exponentiation.threshold 1024

/-! ### Single steps: integer instructions (R55, R56, R58, R122, R124, R125) -/

theorem test_add_wraps : after (.add u 1 2 3) [(2, 0xffffffff), (3, 0x2)] 1 = some 0x1 := by decide
theorem test_add_source_is_destination : after (.add u 1 1 1) [(1, 0x3)] 1 = some 0x6 := by decide
theorem test_addFull_saturates : after (.addFull u 1 2 (.reg 3) .i32 true) [(2, 0x7fffffff), (3, 0x2)] 1 = some 0x7fffffff := by decide
theorem test_addFull_pair : after (.addFull u 6 2 (.reg 4) .i64 false) [(2, 0xffffffff), (4, 0x1)] 7 = some 0x1 := by decide
theorem test_sub_borrows : after (.sub u 1 2 3) [(2, 0x3), (3, 0x5)] 1 = some 0xfffffffe := by decide
theorem test_subFull_packed_saturates : after (.subFull u 1 2 (.reg 3) .n16 true) [(2, 0x50003), (3, 0x60001)] 1 = some 0x2 := by decide
theorem test_mul_low : after (.mul u 1 2 3) [(2, 0x10000), (3, 0x10001)] 1 = some 0x10000 := by decide
theorem test_mulFull_saturates : after (.mulFull u 1 2 (.reg 3) .i8 true) [(2, 0x7f), (3, 0x2)] 1 = some 0x7f := by decide
theorem test_mulh_signed : after (.mulh u 1 2 3) [(2, 0x80000000), (3, 0x2)] 1 = some 0xffffffff := by decide
theorem test_mulhFull_unsigned : after (.mulhFull u 1 2 (.reg 3) true) [(2, 0xffffffff), (3, 0xffffffff)] 1 = some 0xfffffffe := by decide
theorem test_mad_adds_destination : after (.mad u 1 2 3) [(1, 0x5), (2, 0x3), (3, 0x4)] 1 = some 0x11 := by decide
theorem test_madFull_literal : after (.madFull u 1 2 (.lit 0x10) 3 .n8) [(2, 0x10), (3, 0x1)] 1 = some 0x1 := by decide
theorem test_neg : after (.neg u 1 2) [(2, 0x1)] 1 = some 0xffffffff := by decide
theorem test_negFull_unsigned_saturates : after (.negFull u 1 2 .n8 true) [(2, 0x5)] 1 = some 0x0 := by decide
theorem test_abs_minimum : after (.abs u 1 2) [(2, 0x80000000)] 1 = some 0x80000000 := by decide
theorem test_absFull_minimum_saturates : after (.absFull u 1 2 .i32 true) [(2, 0x80000000)] 1 = some 0x7fffffff := by decide
theorem test_min_signed : after (.min u 1 2 3) [(2, 0xffffffff), (3, 0x1)] 1 = some 0xffffffff := by decide
theorem test_minFull_unsigned : after (.minFull u 1 2 (.reg 3) .n32) [(2, 0xffffffff), (3, 0x1)] 1 = some 0x1 := by decide
theorem test_max_signed : after (.max u 1 2 3) [(2, 0xffffffff), (3, 0x1)] 1 = some 0x1 := by decide
theorem test_maxFull_packed : after (.maxFull u 1 2 (.reg 3) .i16) [(2, 0xffff0001), (3, 0x10000)] 1 = some 0x10001 := by decide
theorem test_div_truncates : after (.div u 1 2 3) [(2, 0xfffffff9), (3, 0x2)] 1 = some 0xfffffffd := by decide
theorem test_div_by_zero : after (.div u 1 2 3) [(2, 0x7)] 1 = some 0xffffffff := by decide
theorem test_divFull_overflow_saturates : after (.divFull u 1 2 (.reg 3) .i32 true) [(2, 0x80000000), (3, 0xffffffff)] 1 = some 0x7fffffff := by decide
theorem test_rem_sign_of_dividend : after (.rem u 1 2 3) [(2, 0xfffffff9), (3, 0x2)] 1 = some 0xffffffff := by decide
theorem test_remFull_by_zero : after (.remFull u 1 2 (.reg 3) .n32 false) [(2, 0x7)] 1 = some 0x7 := by decide
theorem test_addk_signed : after (.addk u 1 2 0x3F) [(2, 0x0)] 1 = some 0xffffffff := by decide
theorem test_addkFull_packed : after (.addkFull u 1 2 0x7FF .n8 false) [] 1 = some 0xffffffff := by decide
theorem test_shlk : after (.shlk u 1 2 31) [(2, 0x3)] 1 = some 0x80000000 := by decide
theorem test_shlkFull_past_width : after (.shlkFull u 1 2 40 .w32) [(2, 0x3)] 1 = some 0x0 := by decide
theorem test_shrk : after (.shrk u 1 2 4) [(2, 0x80000000)] 1 = some 0x8000000 := by decide
theorem test_shrkFull_packed : after (.shrkFull u 1 2 4 .w16) [(2, 0x12348765)] 1 = some 0x1230876 := by decide
theorem test_sark : after (.sark u 1 2 31) [(2, 0x80000000)] 1 = some 0xffffffff := by decide
theorem test_sarkFull_packed : after (.sarkFull u 1 2 7 .w8) [(2, 0x80402010)] 1 = some 0xff000000 := by decide
theorem test_and : after (.and u 1 2 3) [(2, 0xff00), (3, 0xff0)] 1 = some 0xf00 := by decide
theorem test_andFull_literal : after (.andFull u 1 2 (.lit 0xFF)) [(2, 0x1234)] 1 = some 0x34 := by decide
theorem test_or : after (.or u 1 2 3) [(2, 0xff00), (3, 0xff0)] 1 = some 0xfff0 := by decide
theorem test_orFull : after (.orFull u 1 2 (.reg 3)) [(2, 0x1), (3, 0x2)] 1 = some 0x3 := by decide
theorem test_xor : after (.xor u 1 2 3) [(2, 0xff00), (3, 0xff0)] 1 = some 0xf0f0 := by decide
theorem test_xorFull : after (.xorFull u 1 2 (.reg 2)) [(2, 0x7)] 1 = some 0x0 := by decide
theorem test_not : after (.not u 1 2) [(2, 0x1)] 1 = some 0xfffffffe := by decide
theorem test_notFull : after (.notFull u 1 2) [] 1 = some 0xffffffff := by decide
theorem test_andn : after (.andn u 1 2 3) [(2, 0xff), (3, 0xf)] 1 = some 0xf0 := by decide
theorem test_andnFull : after (.andnFull u 1 2 (.reg 3)) [(2, 0xf), (3, 0xff)] 1 = some 0x0 := by decide
theorem test_shlFull_R58 : after (.shlFull u 1 2 (.reg 3) .w8) [(2, 0x1010101), (3, 0x80701)] 1 = some 0x1008002 := by decide
theorem test_shl_past_width : after (.shl u 1 2 3) [(2, 0x1), (3, 0x20)] 1 = some 0x0 := by decide
theorem test_shr_R58 : after (.shr u 1 2 3) [(2, 0xfffffff8), (3, 0x28)] 1 = some 0x0 := by decide
theorem test_shrFull_pair : after (.shrFull u 6 2 (.reg 4) .w64) [(3, 0x1), (4, 0x20)] 6 = some 0x1 := by decide
theorem test_sar_R58 : after (.sar u 1 2 3) [(2, 0xfffffff8), (3, 0x28)] 1 = some 0xffffffff := by decide
theorem test_sarFull_pair : after (.sarFull u 6 2 (.reg 4) .w64) [(3, 0x80000000), (4, 0x3f)] 7 = some 0xffffffff := by decide
theorem test_rot_modulo : after (.rot u 1 2 3) [(2, 0x80000001), (3, 0x21)] 1 = some 0x3 := by decide
theorem test_rotFull_pair : after (.rotFull u 6 2 (.reg 4) .w64) [(2, 0x1), (3, 0x80000000), (4, 0x1)] 6 = some 0x3 := by decide
theorem test_clz : after (.clz u 1 2) [(2, 0x1)] 1 = some 0x1f := by decide
theorem test_clzFull_zero : after (.clzFull u 4 2 .w64) [] 4 = some 0x40 := by decide
theorem test_popc : after (.popc u 1 2) [(2, 0xf0f0)] 1 = some 0x8 := by decide
theorem test_popcFull_packed : after (.popcFull u 1 2 .w16) [(2, 0xf0001)] 1 = some 0x40001 := by decide
theorem test_brev : after (.brev u 1 2) [(2, 0x1)] 1 = some 0x80000000 := by decide
theorem test_brevFull_packed : after (.brevFull u 1 2 .w8) [(2, 0x1020408)] 1 = some 0x80402010 := by decide
theorem test_bext_length_in_destination : after (.bext u 1 2 3) [(1, 0x8), (2, 0xabcd), (3, 0x4)] 1 = some 0xbc := by decide
theorem test_bextFull_top : after (.bextFull u 1 2 (.reg 3) 4) [(2, 0xf0000000), (3, 0x1c), (4, 0x8)] 1 = some 0xf := by decide
theorem test_bins_into_destination : after (.bins u 1 2 3) [(1, 0xffffffff), (3, 0x80004)] 1 = some 0xfffff00f := by decide
theorem test_binsFull_drops_high_bits : after (.binsFull u 1 2 (.reg 3) 4) [(2, 0xff), (3, 0x8001c)] 1 = some 0xf0000000 := by decide

/-! ### Comparisons, selection and moves (R59, R64, R126, R127) -/

theorem test_cmp_equal : top (.cmp u 2 3) [(2, 0x5), (3, 0x5)] [] = some true := by decide
theorem test_cmpFull_signed : top (.cmpFull u 2 (.reg 3) .lt .i32) [(2, 0xffffffff), (3, 0x1)] [] = some true := by decide
theorem test_cmpFull_unsigned : top (.cmpFull u 2 (.reg 3) .lt .n32) [(2, 0xffffffff), (3, 0x1)] [] = some false := by decide
theorem test_cmpk_signed : top (.cmpk u 2 0x3F) [(2, 0xffffffff)] [] = some true := by decide
theorem test_cmpkFull_ge : top (.cmpkFull u 2 12 .ge .i32) [(2, 0xc)] [] = some true := by decide
theorem test_fcmp_zeros : top (.fcmp u 2 3) [(2, 0x80000000)] [] = some true := by decide
theorem test_fcmpFull_nan : top (.fcmpFull u 2 (.reg 3) .ne .f32) [(2, 0x7fc00000), (3, 0x7fc00000)] [] = some true := by decide
theorem test_test_disjoint : top (.test u 2 3) [(2, 0xf0), (3, 0xf)] [true] = some false := by decide
theorem test_testFull : top (.testFull u 2 (.lit 0x10)) [(2, 0xf0)] [] = some true := by decide
theorem test_sel_true : afterQ (.sel u 1 2 3) [(2, 0x7), (3, 0x9)] [true] 1 = some 0x7 := by decide
theorem test_selFull_negated : afterQ (.selFull u 1 2 (.reg 3) true 1) [(2, 0x7), (3, 0x9)] [false, true] 1 = some 0x9 := by decide
theorem test_mov : after (.mov u 1 2) [(2, 0x7)] 1 = some 0x7 := by decide
theorem test_movFull_pair : after (.movFull u 4 2 true) [(3, 0x7)] 5 = some 0x7 := by decide
theorem test_movk : after (.movk u 1 0x3F) [] 1 = some 0xffffffff := by decide
theorem test_movkFull : after (.movkFull u 1 0x3FF) [] 1 = some 0x3ff := by decide
theorem test_guard_false_keeps : after (.movk ⟨false, .q false 0⟩ 1 5) [(1, 0x9)] 1 = some 0x9 := by decide

/-! ### Real arithmetic (R61 to R72, R130 to R133) -/

theorem test_fadd : after (.fadd u 1 2 3) [(2, 0x3f800000), (3, 0x40000000)] 1 = some 0x40400000 := by decide
theorem test_faddFull_packed : after (.faddFull u 1 2 (.reg 3) (.bf16 .rn)) [(2, 0x3f803f80), (3, 0x3f803f80)] 1 = some 0x40004000 := by decide
theorem test_fsub_exact_zero : after (.fsub u 1 2 2) [(2, 0x3f800000)] 1 = some 0x0 := by decide
theorem test_fsubFull_rounds_down_zero : after (.fsubFull u 1 2 (.reg 2) (.f32 .rd)) [(2, 0x3f800000)] 1 = some 0x80000000 := by decide
theorem test_fmul : after (.fmul u 1 2 3) [(2, 0x40000000), (3, 0x40400000)] 1 = some 0x40c00000 := by decide
theorem test_fmulFull_invalid : after (.fmulFull u 1 2 (.reg 3) (.f32 .rn)) [(2, 0x7f800000)] 1 = some 0x7fc00000 := by decide
theorem test_fma : after (.fma u 1 2 3) [(1, 0x3f800000), (2, 0x40000000), (3, 0x40400000)] 1 = some 0x40e00000 := by decide
theorem test_fmaFull_t8 : after (.fmaFull u 1 2 (.reg 3) 4 .t8) [(2, 0x4c), (3, 0x40)] 1 = some 0x4c := by decide
theorem test_fmin_nan : after (.fmin u 1 2 3) [(2, 0x7fc00000), (3, 0x3f800000)] 1 = some 0x3f800000 := by decide
theorem test_fminFull_zeros : after (.fminFull u 1 2 (.reg 3) .f32) [(2, 0x0), (3, 0x80000000)] 1 = some 0x80000000 := by decide
theorem test_fmax_zeros : after (.fmax u 1 2 3) [(2, 0x80000000), (3, 0x0)] 1 = some 0x0 := by decide
theorem test_fmaxFull_nar : after (.fmaxFull u 1 2 (.reg 3) .t16) [(2, 0x8000), (3, 0x4000)] 1 = some 0x8000 := by decide
theorem test_fneg_nan : after (.fneg u 1 2) [(2, 0x7fc00001)] 1 = some 0xffc00001 := by decide
theorem test_fnegFull_t8 : after (.fnegFull u 1 2 .t8) [(2, 0x40)] 1 = some 0xc0 := by decide
theorem test_fabs : after (.fabs u 1 2) [(2, 0xffc00001)] 1 = some 0x7fc00001 := by decide
theorem test_fabsFull_packed : after (.fabsFull u 1 2 .bf16) [(2, 0x80008001)] 1 = some 0x1 := by decide
theorem test_fcps : after (.fcps u 1 2 3) [(2, 0x3f800000), (3, 0x80000000)] 1 = some 0xbf800000 := by decide
theorem test_fcpsFull_packed : after (.fcpsFull u 1 2 (.reg 3) true) [(2, 0x3f803f80), (3, 0x80000000)] 1 = some 0xbf803f80 := by decide
theorem test_rcp_zero : after (.rcp u 1 2 false) [(2, 0x80000000)] 1 = some 0xff800000 := by decide
theorem test_sqrt_negative : after (.sqrt u 1 2 false) [(2, 0xbf800000)] 1 = some 0x7fc00000 := by decide
theorem test_rsq_infinity : after (.rsq u 1 2 false) [(2, 0x7f800000)] 1 = some 0x0 := by decide
theorem test_ex2_zero : after (.ex2 u 1 2 false) [] 1 = some 0x3f800000 := by decide
theorem test_lg2_one : after (.lg2 u 1 2 false) [(2, 0x3f800000)] 1 = some 0x0 := by decide
theorem test_frnd_tie : after (.frnd u 1 2 (.f32 .rn)) [(2, 0x40200000)] 1 = some 0x40000000 := by decide
theorem test_frnd_R130 : after (.frnd u 1 2 .t8) [(2, 0x4a4e3349)] 1 = some 0x48500048 := by decide
theorem test_cvt_truncates : after (.cvt u 1 2 .i32 .f32 false .rz) [(2, 0x402ccccd)] 1 = some 0x2 := by decide
theorem test_cvt_saturates : after (.cvt u 1 2 .i8 .i32 true .rn) [(2, 0x12c)] 1 = some 0x7f := by decide
theorem test_cvt_R72 : after (.cvt u 1 2 .t16 .f32 false .rn) [(2, 0x3f800800)] 1 = some 0x4000 := by decide
theorem test_dp4_unsigned : after (.dp4 u 1 2 (.reg 3) 4 true) [(2, 0x1020304), (3, 0x1010101), (4, 0x1)] 1 = some 0xb := by decide
theorem test_dp4_signed : after (.dp4 u 1 2 (.reg 3) 4 false) [(2, 0xff), (3, 0x2)] 1 = some 0xfffffffe := by decide

/-! ### The predicate stack and cross-lane instructions (R119, R134 to R141) -/

theorem test_qdup : top (.qdup u 1) [] [false, true] = some true := by decide
theorem test_qnot : top (.qnot u 0) [] [false] = some true := by decide
theorem test_qand : top (.qand u 0 1) [] [true, false] = some false := by decide
theorem test_qor : top (.qor u 0 1) [] [true, false] = some true := by decide
theorem test_qxor : top (.qxor u 0 1) [] [true, true] = some false := by decide
theorem test_qdrop : top (.qdrop u 2) [] [false, false, true] = some true := by decide
theorem test_ballot : across (.ballot u 4 0) 4 = [5, 5, 5] := by decide
theorem test_shfl_up : across (.shfl u 4 2 (.lit 1) .up) 4 = [1, 1, 2] := by decide
theorem test_shfl_xor : across (.shfl u 4 2 (.lit 1) .xor) 4 = [2, 1, 3] := by decide
theorem test_red_add : across (.red u 4 2 .add) 4 = [6, 6, 6] := by decide
theorem test_red_max : across (.red u 4 2 .max) 4 = [3, 3, 3] := by decide
theorem test_scan_add : across (.scan u 4 2 .add) 4 = [1, 3, 6] := by decide
theorem test_bcast : across (.bcast u 4 2 (.lit 2)) 4 = [3, 3, 3] := by decide
theorem test_form_affine : across (.form u 4 2) 4 = [1, 1, 1] := by decide
theorem test_add_x : across (.add u 2 2 2) 2 = [2, 4, 6] := by decide
theorem test_mov_guarded : across (.movk ⟨false, .q false 0⟩ 2 9) 2 = [9, 2, 9] := by decide

/-! ### Decoding: words laid out field by field as R86 to R88 have them, with the op and fn values of R90 to R97 -/

/-- The compact layout, unguarded. -/
def c32 (op d a b : Nat) : List Byte := toBytes 4 (op * 2 ^ 8 + d * 2 ^ 14 + a * 2 ^ 20 + b * 2 ^ 26)
/-- The full layout, unguarded. -/
def f64 (op d a b c fn : Nat) : List Byte := toBytes 8 (1 + op * 2 ^ 8 + d * 2 ^ 16 + a * 2 ^ 27 + b * 2 ^ 38 + c * 2 ^ 49 + fn * 2 ^ 60)
/-- The layout with a literal, unguarded. -/
def l96 (op d a c fn lit : Nat) : List Byte := toBytes 12 (2 + op * 2 ^ 8 + d * 2 ^ 16 + a * 2 ^ 27 + c * 2 ^ 49 + fn * 2 ^ 60 + lit * 2 ^ 64)
/-- The bytes decode to the instruction, and all of them are read. -/
def dec (bs : List Byte) (n : Nat) (i : Instr) : Bool := decide (decode bs = .ok i n)
/-- The bytes are refused by this check of R98. -/
def refusedBy (bs : List Byte) (n : Nat) : Bool := match decode bs with | .reject r => r.number == n | _ => false

theorem test_decode_compact_integer_logic :
    (dec (c32 0x01 8 10 12) 4 (.add u 8 10 12) &&
    dec (c32 0x02 8 10 12) 4 (.sub u 8 10 12) &&
    dec (c32 0x03 8 10 12) 4 (.mul u 8 10 12) &&
    dec (c32 0x04 8 10 12) 4 (.mulh u 8 10 12) &&
    dec (c32 0x05 8 10 12) 4 (.mad u 8 10 12) &&
    dec (c32 0x06 8 10 0) 4 (.neg u 8 10) &&
    dec (c32 0x07 8 10 0) 4 (.abs u 8 10) &&
    dec (c32 0x08 8 10 12) 4 (.min u 8 10 12) &&
    dec (c32 0x09 8 10 12) 4 (.max u 8 10 12) &&
    dec (c32 0x0a 8 10 12) 4 (.div u 8 10 12) &&
    dec (c32 0x0b 8 10 12) 4 (.rem u 8 10 12) &&
    dec (c32 0x0c 8 10 12) 4 (.addk u 8 10 12) &&
    dec (c32 0x0d 8 10 12) 4 (.shlk u 8 10 12) &&
    dec (c32 0x0e 8 10 12) 4 (.shrk u 8 10 12) &&
    dec (c32 0x0f 8 10 12) 4 (.sark u 8 10 12) &&
    dec (c32 0x10 8 10 12) 4 (.and u 8 10 12) &&
    dec (c32 0x11 8 10 12) 4 (.or u 8 10 12) &&
    dec (c32 0x12 8 10 12) 4 (.xor u 8 10 12) &&
    dec (c32 0x13 8 10 0) 4 (.not u 8 10) &&
    dec (c32 0x14 8 10 12) 4 (.andn u 8 10 12) &&
    dec (c32 0x15 8 10 12) 4 (.shl u 8 10 12) &&
    dec (c32 0x16 8 10 12) 4 (.shr u 8 10 12) &&
    dec (c32 0x17 8 10 12) 4 (.sar u 8 10 12) &&
    dec (c32 0x18 8 10 12) 4 (.rot u 8 10 12) &&
    dec (c32 0x19 8 10 0) 4 (.clz u 8 10) &&
    dec (c32 0x1a 8 10 0) 4 (.popc u 8 10) &&
    dec (c32 0x1b 8 10 0) 4 (.brev u 8 10) &&
    dec (c32 0x1c 8 10 12) 4 (.bext u 8 10 12) &&
    dec (c32 0x1d 8 10 12) 4 (.bins u 8 10 12)) = true := by decide
theorem test_decode_compact_compare_real :
    (dec (c32 0x20 0 10 12) 4 (.cmp u 10 12) &&
    dec (c32 0x21 0 10 12) 4 (.cmpk u 10 12) &&
    dec (c32 0x22 0 10 12) 4 (.fcmp u 10 12) &&
    dec (c32 0x23 0 10 12) 4 (.test u 10 12) &&
    dec (c32 0x24 8 10 12) 4 (.sel u 8 10 12) &&
    dec (c32 0x25 8 10 0) 4 (.mov u 8 10) &&
    dec (c32 0x26 8 0 12) 4 (.movk u 8 12) &&
    dec (c32 0x30 8 10 12) 4 (.fadd u 8 10 12) &&
    dec (c32 0x31 8 10 12) 4 (.fsub u 8 10 12) &&
    dec (c32 0x32 8 10 12) 4 (.fmul u 8 10 12) &&
    dec (c32 0x33 8 10 12) 4 (.fma u 8 10 12) &&
    dec (c32 0x34 8 10 12) 4 (.fmin u 8 10 12) &&
    dec (c32 0x35 8 10 12) 4 (.fmax u 8 10 12) &&
    dec (c32 0x36 8 10 0) 4 (.fneg u 8 10) &&
    dec (c32 0x37 8 10 0) 4 (.fabs u 8 10) &&
    dec (c32 0x38 8 10 12) 4 (.fcps u 8 10 12)) = true := by decide
theorem test_decode_full_integer :
    (dec (f64 0x01 8 10 12 0 9) 8 (.addFull u 8 10 (.reg 12) .n32 true) &&
    dec (f64 0x02 8 10 12 0 2) 8 (.subFull u 8 10 (.reg 12) .i16 false) &&
    dec (l96 0x03 8 10 0 3 0x12345678) 12 (.mulFull u 8 10 (.lit 0x12345678) .n16 false) &&
    dec (f64 0x04 8 10 12 0 1) 8 (.mulhFull u 8 10 (.reg 12) true) &&
    dec (f64 0x05 8 10 12 14 4) 8 (.madFull u 8 10 (.reg 12) 14 .i8) &&
    dec (f64 0x06 8 10 0 0 13) 8 (.negFull u 8 10 .n8 true) &&
    dec (f64 0x07 8 10 0 0 6) 8 (.absFull u 8 10 .i64 false) &&
    dec (f64 0x08 8 10 12 0 7) 8 (.minFull u 8 10 (.reg 12) .n64) &&
    dec (f64 0x09 8 10 12 0 0) 8 (.maxFull u 8 10 (.reg 12) .i32) &&
    dec (f64 0x0a 8 10 12 0 1) 8 (.divFull u 8 10 (.reg 12) .n32 false) &&
    dec (f64 0x0b 8 10 12 0 0) 8 (.remFull u 8 10 (.reg 12) .i32 false) &&
    dec (f64 0x0c 8 10 0 2040 10) 8 (.addkFull u 8 10 2040 .i16 true) &&
    dec (f64 0x0d 8 10 0 40 6) 8 (.shlkFull u 8 10 40 .w64) &&
    dec (f64 0x0e 8 10 0 40 2) 8 (.shrkFull u 8 10 40 .w16) &&
    dec (f64 0x0f 8 10 0 40 4) 8 (.sarkFull u 8 10 40 .w8)) = true := by decide
theorem test_decode_full_logic :
    (dec (f64 0x10 8 10 12 0 0) 8 (.andFull u 8 10 (.reg 12)) &&
    dec (l96 0x11 8 10 0 0 0x12345678) 12 (.orFull u 8 10 (.lit 0x12345678)) &&
    dec (f64 0x12 8 10 12 0 0) 8 (.xorFull u 8 10 (.reg 12)) &&
    dec (f64 0x13 8 10 0 0 0) 8 (.notFull u 8 10) &&
    dec (f64 0x14 8 10 12 0 0) 8 (.andnFull u 8 10 (.reg 12)) &&
    dec (f64 0x15 8 10 12 0 2) 8 (.shlFull u 8 10 (.reg 12) .w16) &&
    dec (f64 0x16 8 10 12 0 4) 8 (.shrFull u 8 10 (.reg 12) .w8) &&
    dec (f64 0x17 8 10 12 0 6) 8 (.sarFull u 8 10 (.reg 12) .w64) &&
    dec (f64 0x18 8 10 12 0 0) 8 (.rotFull u 8 10 (.reg 12) .w32) &&
    dec (f64 0x19 8 10 0 0 2) 8 (.clzFull u 8 10 .w16) &&
    dec (f64 0x1a 8 10 0 0 4) 8 (.popcFull u 8 10 .w8) &&
    dec (f64 0x1b 8 10 0 0 6) 8 (.brevFull u 8 10 .w64) &&
    dec (f64 0x1c 8 10 12 14 0) 8 (.bextFull u 8 10 (.reg 12) 14) &&
    dec (l96 0x1d 8 10 14 0 0x12345678) 12 (.binsFull u 8 10 (.lit 0x12345678) 14)) = true := by decide
theorem test_decode_full_compare_real :
    (dec (f64 0x20 0 10 12 0 11) 8 (.cmpFull u 10 (.reg 12) .lt .n64) &&
    dec (f64 0x21 0 10 0 2040 13) 8 (.cmpkFull u 10 2040 .ge .n32) &&
    dec (l96 0x22 0 10 0 6 0x12345678) 12 (.fcmpFull u 10 (.lit 0x12345678) .ne .t16) &&
    dec (f64 0x23 0 10 12 0 0) 8 (.testFull u 10 (.reg 12)) &&
    dec (f64 0x24 8 10 12 0 13) 8 (.selFull u 8 10 (.reg 12) true 5) &&
    dec (f64 0x25 8 10 0 0 6) 8 (.movFull u 8 10 true) &&
    dec (f64 0x26 8 0 0 2040 0) 8 (.movkFull u 8 2040) &&
    dec (f64 0x30 8 10 12 0 2) 8 (.faddFull u 8 10 (.reg 12) (.f32 .rd)) &&
    dec (f64 0x31 8 10 12 0 7) 8 (.fsubFull u 8 10 (.reg 12) (.bf16 .ru)) &&
    dec (l96 0x32 8 10 0 9 0x12345678) 12 (.fmulFull u 8 10 (.lit 0x12345678) .t16) &&
    dec (f64 0x33 8 10 12 14 10) 8 (.fmaFull u 8 10 (.reg 12) 14 .t8) &&
    dec (f64 0x34 8 10 12 0 4) 8 (.fminFull u 8 10 (.reg 12) .bf16) &&
    dec (f64 0x35 8 10 12 0 8) 8 (.fmaxFull u 8 10 (.reg 12) .t32) &&
    dec (f64 0x36 8 10 0 0 9) 8 (.fnegFull u 8 10 .t16) &&
    dec (f64 0x37 8 10 0 0 10) 8 (.fabsFull u 8 10 .t8) &&
    dec (f64 0x38 8 10 12 0 4) 8 (.fcpsFull u 8 10 (.reg 12) true) &&
    dec (f64 0x40 8 10 0 0 4) 8 (.rcp u 8 10 true) &&
    dec (f64 0x41 8 10 0 0 0) 8 (.sqrt u 8 10 false) &&
    dec (f64 0x42 8 10 0 0 4) 8 (.rsq u 8 10 true) &&
    dec (f64 0x43 8 10 0 0 0) 8 (.ex2 u 8 10 false) &&
    dec (f64 0x44 8 10 0 0 4) 8 (.lg2 u 8 10 true) &&
    dec (f64 0x46 8 10 0 0 5) 8 (.frnd u 8 10 (.bf16 .rz)) &&
    dec (f64 0x48 8 10 0 (2 * 32 + 8) 1) 8 (.cvt u 8 10 .i32 .f32 false .rz) &&
    dec (f64 0x48 8 10 0 (1024 + 4 * 32 + 3) 0) 8 (.cvt u 8 10 .n8 .i64 true .rn) &&
    dec (f64 0x50 8 10 12 14 5) 8 (.dp4 u 8 10 (.reg 12) 14 true)) = true := by decide
theorem test_decode_predicate_cross_lane :
    (dec (f64 0x60 0 5 0 0 0) 8 (.qdup u 5) &&
    dec (f64 0x61 0 5 0 0 0) 8 (.qnot u 5) &&
    dec (f64 0x62 0 5 6 0 0) 8 (.qand u 5 6) &&
    dec (f64 0x63 0 5 6 0 0) 8 (.qor u 5 6) &&
    dec (f64 0x64 0 5 6 0 0) 8 (.qxor u 5 6) &&
    dec (f64 0x65 0 0 0 8 0) 8 (.qdrop u 8) &&
    dec (f64 0x66 8 5 0 0 0) 8 (.ballot u 8 5) &&
    dec (f64 0x67 8 10 12 0 2) 8 (.shfl u 8 10 (.reg 12) .xor) &&
    dec (f64 0x68 8 10 0 0 10) 8 (.red u 8 10 .fmax) &&
    dec (f64 0x69 8 10 0 0 3) 8 (.scan u 8 10 .minu) &&
    dec (l96 0x6a 8 10 0 0 0x12345678) 12 (.bcast u 8 10 (.lit 0x12345678)) &&
    dec (f64 0x6b 8 10 0 0 0) 8 (.form u 8 10)) = true := by decide
theorem test_decode_memory :
    (dec (f64 0x80 8 10 0 2040 14) 8 (.ld u 8 10 2040 .b128 true) &&
    dec (f64 0x81 0 10 12 2040 2) 8 (.st u 10 (.reg 12) 2040 .n16 false) &&
    dec (f64 0x82 8 10 0 2040 11) 8 (.lda u 8 10 2040 true .dev) &&
    dec (l96 0x83 0 10 2040 4 0x12345678) 12 (.stl u 10 (.lit 0x12345678) 2040 false .sys) &&
    dec (f64 0x84 8 10 12 0 13) 8 (.cst u 8 10 (.reg 12) true 5) &&
    dec (f64 0x85 8 10 0 2040 9) 8 (.lds u 8 10 2040 .b64 .take) &&
    dec (f64 0x86 0 10 12 2040 6) 8 (.sts u 10 (.reg 12) 2040 .b128 .fill) &&
    dec (f64 0x87 8 10 12 0 6) 8 (.ats u 8 10 (.reg 12) .swap) &&
    dec (f64 0x88 8 10 12 0 12) 8 (.atGlobal u 8 10 (.reg 12) .min true) &&
    dec (f64 0x89 8 10 12 14 8) 8 (.cas u 8 10 (.reg 12) 14 true) &&
    dec (l96 0x8a 8 10 14 0 0x12345678) 12 (.atc u 8 10 (.lit 0x12345678) 14) &&
    dec (f64 0x8b 8 10 0 0 0) 8 (.qpop u 8 10) &&
    dec (f64 0x8c 0 10 12 0 0) 8 (.qpush u 10 (.reg 12)) &&
    dec (f64 0x8d 0 0 0 0 9) 8 (.fence u .acq .sys) &&
    dec (f64 0x8e 0 10 0 2040 0) 8 (.pref u 10 2040)) = true := by decide
theorem test_decode_control :
    (dec (f64 0xa0 0 0 0 0 0) 8 (.nop u) &&
    dec (l96 0xa1 0 0 0 0 0x12345678) 12 (.br u 0x12345678) &&
    dec (l96 0xa3 0 0 0 0 0x12345678) 12 (.call u 0x12345678) &&
    dec (l96 0xa2 0 10 4 0 0x12345678) 12 (.brw u 10 4 0x12345678) &&
    dec (f64 0xa4 0 0 0 0 0) 8 (.ret u) &&
    dec (f64 0xa5 0 0 0 0 0) 8 (.exit u) &&
    dec (f64 0xa6 15 0 0 0 0) 8 (.enrol u 15) &&
    dec (f64 0xa7 15 10 12 0 0) 8 (.joinw u 15 10 12) &&
    dec (f64 0xa8 0 0 0 15 1) 8 (.bar u true 15) &&
    dec (f64 0xa9 8 10 12 14 0) 8 (.waitc u 8 10 12 14) &&
    dec (f64 0xaa 0 0 0 0 0) 8 (.yieldI u) &&
    dec (f64 0xab 8 31 0 0 0) 8 (.wbind u 8 31) &&
    dec (f64 0xac 0 10 0 0 0) 8 (.brx u 10)) = true := by decide
theorem test_decode_stream_matrix_system :
    (dec (f64 0xb0 0 10 12 3 0) 8 (.seFill u 10 (.reg 12) 3) &&
    dec (l96 0xb0 0 10 2 1 0x12345678) 12 (.seDrain u 10 (.lit 0x12345678) 2) &&
    dec (f64 0xb0 0 10 12 1 2) 8 (.seFillw u 10 (.reg 12) 1) &&
    dec (f64 0xb0 0 10 12 0 3) 8 (.seAdv u 10 (.reg 12) 0) &&
    dec (f64 0xb1 0 0 0 0 0) 8 (.mfence u) &&
    dec (f64 0xb2 7 10 12 (31 * 64 + 63) 1) 8 (.mloop u 7 10 (.reg 12) 31 63 true false) &&
    dec (f64 0xb3 7 0 0 0 0) 8 (.mwait u 7) &&
    dec (f64 0xb5 7 0 0 0 0) 8 (.mclr u 7) &&
    dec (f64 0xb4 8 7 12 (2 * 512 + 5) 3) 8 (.mrd u 8 7 (.reg 12) .rd 5 .f32 false) &&
    dec (l96 0xb4 8 7 5 14 0x12345678) 12 (.mrd u 8 7 (.lit 0x12345678) .rn 5 .i8 true) &&
    dec (f64 0xb6 0 0 0 0xA5 0) 8 (.safept u 0xA5) &&
    dec (f64 0xb7 8 10 0 2040 0) 8 (.dld u 8 10 2040) &&
    dec (f64 0xb8 8 10 0 2040 0) 8 (.dst u 8 10 2040) &&
    dec (f64 0xc0 8 0 0 0x20 0) 8 (.sread u 8 0x20) &&
    dec (f64 0xc1 0 0 0 77 0) 8 (.trap u 77) &&
    dec (f64 0xc2 0 0 0 77 0) 8 (.bkpt u 77) &&
    dec (f64 0xc3 0 10 12 0 0) 8 (.launch u 10 (.reg 12)) &&
    dec (l96 0xc4 0 10 0 0 0x12345678) 12 (.moult u 10 (.lit 0x12345678)) &&
    dec (f64 0xc5 8 10 12 (3 + 8 + 2 * 16) 0) 8 (.cbrk u 8 10 (.reg 12) 3 true 2)) = true := by decide
/-! ### Ill-formed terms: one for each check of `Instr.wellFormed` -/

/-- Register groups that do not start where R54 and R89 have them start. -/
theorem test_wellFormed_groups :
    [Instr.addFull u 9 10 (.reg 12) .i64 false, .subFull u 8 11 (.reg 12) .i64 false, .mulFull u 8 10 (.reg 13) .n64 false, .divFull u 9 10 (.reg 12) .n64 false,
      .remFull u 9 10 (.reg 12) .i64 false, .minFull u 9 10 (.reg 12) .i64, .maxFull u 8 10 (.reg 13) .n64, .madFull u 8 10 (.reg 12) 15 .i64, .negFull u 9 10 .i64 false,
      .absFull u 8 11 .i64 false, .addkFull u 9 10 1 .i64 false, .shlkFull u 9 10 1 .w64, .shrkFull u 8 11 1 .w64, .sarkFull u 9 10 1 .w64, .shlFull u 9 10 (.reg 12) .w64,
      .shrFull u 8 11 (.reg 12) .w64, .sarFull u 9 10 (.reg 12) .w64, .rotFull u 9 10 (.reg 12) .w64, .clzFull u 9 10 .w64, .popcFull u 8 11 .w64, .brevFull u 9 10 .w64,
      .cmpFull u 11 (.reg 12) .eq .i64, .cmpkFull u 11 1 .eq .n64, .movFull u 9 10 true, .cvt u 9 10 .i64 .i32 false .rn, .ballot u 9 0, .ld u 8 11 0 .b32 false,
      .ld u 10 12 0 .b128 false, .st u 10 (.reg 13) 0 .b64 false, .lda u 9 10 0 true .dev, .stl u 11 (.reg 12) 0 false .dev, .cst u 8 11 (.reg 12) false 0, .lds u 10 12 0 .b128 .plain,
      .sts u 10 (.reg 13) 0 .b64 .plain, .atGlobal u 8 11 (.reg 12) .add false, .cas u 8 11 (.reg 12) 14 false, .atc u 9 10 (.reg 12) 14, .pref u 11 0, .dld u 0 11 0,
      .dst u 0 11 0].all (fun i => !i.wellFormed) = true := by decide

/-- Operand values that R96, R132, R162, R213, R218, R225 and R231 reserve. -/
theorem test_wellFormed_values :
    [Instr.cvt u 8 10 .f32 .f32 false .rn, .cvt u 8 10 .t8 .f32 false .rz, .cvt u 8 10 .i32 .i8 true .rn, .cvt u 8 10 .i8 .i32 false .rz, .qdrop u 0, .qdrop u 9,
      .st u 10 (.lit 1) 0 .b64 false, .stl u 10 (.lit 1) 0 true .dev, .cst u 8 10 (.lit 1) true 0, .sts u 10 (.lit 1) 0 .b128 .plain, .br u 2, .call u 1, .brw u 0 5 0, .brw u 0 0 2,
      .mloop u 0 10 (.reg 12) 0 0 false false, .mloop u 0 10 (.lit 0) 0 1 false true, .mrd u 8 0 (.lit 0) .rn 8 .f32 false, .mrd u 8 0 (.lit 0) .rz 0 .t16 false,
      .mrd u 8 0 (.lit 0) .rn 0 .bf16 true, .sread u 8 0x0F, .sread u 8 0x106, .sread u 8 0x188, .cbrk u 8 10 (.reg 12) 6 false 0].all (fun i => !i.wellFormed) = true := by decide

/-- The decoder refuses a word by the number of the first check of R98 that fails. -/
theorem test_decode_refuses :
    (refusedBy (toBytes 4 3) 1 && refusedBy (c32 0x01 8 10 12 |>.set 0 0x08) 2 && refusedBy (toBytes 4 0) 3 && refusedBy (f64 0xD0 0 0 0 0 0) 3 &&
      refusedBy (l96 0x06 8 10 0 0 1) 4 && refusedBy (f64 0xA1 0 0 0 0 0) 5 && refusedBy (toBytes 12 (2 + 0x01 * 2 ^ 8 + 1 * 2 ^ 38)) 6 && refusedBy (f64 0x10 8 10 12 0 1) 7 &&
      refusedBy (f64 0x01 8 10 12 1 0) 8 && refusedBy (f64 0x60 0 8 0 0 0) 8 && refusedBy (f64 0x01 9 10 12 0 6) 9 && refusedBy (l96 0xA1 0 0 0 0 2) 10) = true := by decide

/-! ### Single steps: memory, scratchpad, atomics, queues (R162 to R191) -/

theorem test_ld_issues : (next (.ld u 8 4 0 .b32 false) (mapped [])).map (fun t => (t.ops.map (fun o => o.cls), t.strands.map (fun st => st.pc))) = some ([.l], [0x10008]) := by decide
theorem test_ld_misaligned : stopKinds (.ld u 8 4 1 .b32 false) (mapped []) = [13] := by decide
theorem test_ld_misses : (next (.ld u 8 4 0 .b32 false) (demo [(4, 0x10000)])).map (fun t => t.walkReqs.map (fun r => r.page)) = some [16] := by decide
theorem test_st_enters : (next (.st u 4 (.reg 6) 8 .b32 false) (mapped [(6, 0x11223344)])).map (fun t => t.stores.map (fun e => (e.addr, e.bytes, e.buf))) =
    some [(0x20008, [0x44, 0x33, 0x22, 0x11], some 0)] := by decide
theorem test_st_memory_unchanged : (next (.st u 4 (.reg 6) 8 .b32 false) (mapped [(6, 5)])).map (fun t => memGet t.mem 0x20008) = some 0 := by decide
theorem test_lda : (next (.lda u 8 4 0 false .dev) (mapped [])).map (fun t => t.ops.map (fun o => o.cls)) = some [.l] := by decide
theorem test_stl_releases : (next (.stl u 4 (.reg 6) 0 false .gang) (mapped [])).map (fun t => t.stores.map (fun e => e.rel.map (fun r => r.scope.scope))) = some [some .gang] := by decide
theorem test_cst_counts : ((next (.cst u 8 4 (.reg 6) false 0) { mapped [(6, 9)] with strands := [{ demoStrand [(4, 0x10000), (6, 9)] with qs := .u true :: List.replicate 7 (.u false) }] }).bind
    (fun t => strandOf t 2)).bind (fun st => uReg st 8) = some 1 := by decide
theorem test_lds : (next (.lds u 8 6 0 .b32 .plain) (demo [])).map (fun t => t.ops.length) = some 1 := by decide
theorem test_lds_take_waits : (next (.lds u 8 6 0 .b32 .take) (demo [])).map (fun t => t.strands.map (fun st => match st.status with | .blocked (.granule _) => true | _ => false)) =
    some [true] := by decide
theorem test_sts_outside : stopKinds (.sts u 6 (.reg 7) 0 .b32 .plain) (demo [(6, 0x2000)]) = [14] := by decide
theorem test_sts_set_fills : (next (.sts u 6 (.reg 7) 16 .b32 .set) (demo [])).map (fun t => t.teams.map (fun x => x.full)) = some [[1]] := by decide
theorem test_ats_adds : (next (.ats u 8 6 (.lit 5) .add) (demo [])).map (fun t => t.teams.map (fun x => memGets x.scratch 0 4)) = some [[5, 0, 0, 0]] := by decide
theorem test_at_swaps : (next (.atGlobal u 8 4 (.lit 7) .swap false) (mapped [])).map (fun t => memGets t.mem 0x20000 4) = some [7, 0, 0, 0] := by decide
theorem test_cas_fails : (next (.cas u 8 4 (.lit 7) 6 false) (mapped [(6, 9)])).map (fun t => memGets t.mem 0x20000 4) = some [0, 0, 0, 0] := by decide
theorem test_atc_waits_for_home : (next (.atc u 8 4 (.lit 7) 6) (mapped [])).map (fun t => (t.ops.length, memGets t.mem 0x20000 4)) = some (1, [0, 0, 0, 0]) := by decide
/-- The device whose context has hardware queue 0 with one entry. -/
def queued : State := let s := demo []; { s with ctxs := s.ctxs.map (fun c => { c with hqs := [⟨0, 4, [(7, ⟨[], ⟨.dev, 1, []⟩⟩)]⟩] }) }
theorem test_qpop_takes : (next (.qpop u 8 6) queued).map (fun t => t.ctxs.map (fun c => c.hqs.map (fun q => q.entries.length))) = some [[0]] := by decide
theorem test_qpush_appends : (next (.qpush u 6 (.lit 8)) queued).map (fun t => t.ctxs.map (fun c => c.hqs.map (fun q => q.entries.map (fun e => e.1)))) = some [[[7, 8]]] := by decide
theorem test_qpop_no_queue : stopKinds (.qpop u 8 6) (demo []) = [7] := by decide
theorem test_fence_release : (next (.fence u .rel .dev) (demo [])).map (fun t => t.rels.map (fun e => e.rel.scope.scope)) = some [.dev] := by decide
theorem test_pref_moves_on : pcAfter (.pref u 4 0) (mapped []) = some 0x10008 := by decide

/-! ### Control flow, rejoin and waiting (R143 to R158) -/

theorem test_nop : pcAfter (.nop u) (demo []) = some 0x10008 := by decide
theorem test_br_backward : pcAfter (.br u 0xFFFFFFF0) (demo []) = some 0xFFF0 := by decide
theorem test_br_guard_false : pcAfter (.br ⟨false, .q false 0⟩ 0x40) (demo []) = some 0x1000C := by decide
theorem test_call_pushes : (next (.call u 0x40) (demo [])).map (fun t => t.strands.map (fun st => (st.pc, st.calls))) = some [(0x10040, [0x1000C])] := by decide
theorem test_ret_empty : stopKinds (.ret u) (demo []) = [8] := by decide
theorem test_brw_unbound : pcAfter (.brw u 0 0 0x40) (demo []) = some 0x1000C := by decide
theorem test_exit_retires : (next (.exit u) (demo [])).map (fun t => (t.strands, t.teams.map (fun x => x.ended))) = some ([], [true]) := by decide
theorem test_enrol : (next (.enrol u 3) (demo [])).map (fun t => t.strands.map (fun st => decide (nth st.enrol 3 0 ≠ 0))) = some [true] := by decide
theorem test_joinw_alone : pcAfter (.joinw u 0 0 7) { demo [] with strands := [{ demoStrand [] with enrol := List.replicate 16 9 }] } = some 0x10008 := by decide
theorem test_bar_alone : pcAfter (.bar u false 2) (demo []) = some 0x10008 := by decide
theorem test_waitc_nothing : pcAfter (.waitc u 0 0 0 0) (demo []) = some 0x10008 := by decide
theorem test_yield_holds : (next (.yieldI u) (demo [])).map (fun t => t.strands.map (fun st => st.status)) = some [.blocked (.yieldHold 64)] := by decide
theorem test_wbind_binds : (next (.wbind u 1 0) (demo [])).map (fun t => t.strands.map (fun st => (walkOf st 1).bound)) = some [true] := by decide
theorem test_brx_misaligned : stopKinds (.brx u 6) (demo [(6, 2)]) = [1] := by decide
theorem test_brx : pcAfter (.brx u 6) (demo [(6, 0x10)]) = some 0x10010 := by decide
theorem test_collective_guard : stopKinds (.bar ⟨false, .q false 0⟩ false 0) wide3 = [3] := by decide
theorem test_branch_splits : (next (.br ⟨false, .q false 0⟩ 0x40) wide3).map (fun t => t.strands.map (fun st => (st.pc, present st))) =
    some [(0x10040, [0, 2]), (0x1000C, [1])] := by decide

/-! ### Streams, the matrix unit, special registers, traps (R194 to R237) -/

theorem test_seFill_bad_record : stopKinds (.seFill u 0 (.lit 0) 0) (demo []) = [1] := by decide
theorem test_seAdv_reserved : stopKinds (.seAdv u 0 (.lit 8) 0) (demo []) = [1] := by decide
theorem test_seDrain_bad_record : stopKinds (.seDrain u 0 (.lit 0) 0) (demo []) = [1] := by decide
theorem test_seFillw_bad_offset : stopKinds (.seFillw u 0 (.lit 8) 0) (demo []) = [1] := by decide
theorem test_dld_issues : (next (.dld u 3 4 0) (mapped [])).map (fun t => t.ops.map (fun o => o.cls)) = some [.l] := by decide
theorem test_dst_stores_64 : (next (.dst u 3 4 0) (mapped [])).map (fun t => (t.stores.map (fun e => (e.addr, e.bytes.length)), t.ops.map (fun o => o.cls))) =
    some ((List.range 8).map (fun j => (0x20000 + 8 * j, 8)), [.s]) := by decide
theorem test_mfence : pcAfter (.mfence u) (demo []) = some 0x10008 := by decide
theorem test_mloop_bad_format : stopKinds (.mloop u 0 6 (.reg 7) 0 1 false false) (demo [(6, 0xFFFFFFFF)]) = [1] := by decide
theorem test_mwait_idle : pcAfter (.mwait u 0) (demo []) = some 0x10008 := by decide
theorem test_mclr_queues : (next (.mclr u 0) (demo [])).map (fun t => t.cores.map (fun c => c.mq.length)) = some [1] := by decide
theorem test_mrd_queues : (next (.mrd u 8 0 (.lit 0x80000000) .rn 0 .f32 false) (demo [])).map (fun t => t.cores.map (fun c => c.mq.length)) = some [1] := by decide
theorem test_safept : pcAfter (.safept u 0xFF) (demo []) = some 0x10008 := by decide
theorem test_sread_lanes : after (.sread u 1 0x00) [] 1 = some 64 := by decide
theorem test_sread_index : across (.sread u 4 0x04) 4 = [0, 1, 2] := by decide
theorem test_trap_parks : (next (.trap u 5) (demo [])).map (fun t => t.strands.map (fun st => (st.pc, st.status))) = some [(0x10000, .parked 1)] := by decide
theorem test_trap_report : stopKinds (.trap u 5) (demo []) = [10] := by decide
theorem test_bkpt_detached : pcAfter (.bkpt u 1) (demo []) = some 0x10008 := by decide
theorem test_cbrk_detached : after (.cbrk u 1 2 (.lit 0) 0 false 0) [] 1 = some 0 := by decide
theorem test_launch_issues : (next (.launch u 6 (.lit 9)) (demo [])).map (fun t => t.ops.map (fun o => o.body)) = some [.launch 0 9 0] := by decide
theorem test_moult_bad_shape : stopKinds (.moult u 6 (.lit 0)) (demo [(6, 3)]) ≠ [] := by decide

/-! ### Events -/

def afterLoad : State := (next (.ld u 8 4 0 .b32 false) { mapped [] with mem := memPuts (demo []).mem 0x20000 [0x78, 0x56, 0x34, 0x12] }).getD State.reset
theorem test_operationFinish_delivers : ((next (.operationFinish ((afterLoad.ops.head?.map (fun o => o.oid)).getD 0)) afterLoad).bind (fun t => strandOf t 2)).bind (fun st => uReg st 8) =
    some 0x12345678 := by decide
def blockedOn (w : Wait) : State := { demo [] with strands := [{ demoStrand [] with status := .blocked w }] }
def statusAfter (i : Instr) (s : State) : List Status := ((next i s).map (fun t => t.strands.map (fun st => st.status))).getD []
theorem test_waitcSatisfied : statusAfter (.waitcSatisfied 2) (blockedOn (.waitc 0 0 0 0)) = [.ready] := by decide
theorem test_mwaitSatisfied : statusAfter (.mwaitSatisfied 2) (blockedOn (.mwait 0)) = [.ready] := by decide
theorem test_exitWaitDone : (next (.exitWaitDone 2) (blockedOn .exitWait)).map (fun t => t.strands.length) = some 0 := by decide
theorem test_yieldExpiry : statusAfter (.yieldExpiry 2) { blockedOn (.yieldHold 64) with slots := 64 } = [.ready] := by decide
theorem test_yieldExpiry_early : statusAfter (.yieldExpiry 2) { blockedOn (.yieldHold 64) with slots := 63 } = [.blocked (.yieldHold 64)] := by decide
theorem test_granuleServe_still_empty : statusAfter (.granuleServe 2) ((next (.lds u 8 6 0 .b32 .take) (demo [])).getD State.reset) ≠ [.ready] := by decide
theorem test_moultSucceed_none : (next (.moultSucceed 1 0) (demo [])).map (fun t => t.strands.length) = some 1 := by decide
theorem test_runLimit_frees : (next (.runLimit 0 0 0) { demo [] with slots := 132, cores := [{ Core.fresh 0 with parts := ⟨[some ⟨2, 3, 4, none⟩, none]⟩ :: List.replicate 3 Part.fresh }] }).map
    (fun t => ((partOf t 0 0).ports, t.strands.map (fun st => st.stamp))) = some ([none, none], [132]) := by decide
theorem test_strandUrgent : (next (.strandUrgent 2) { demo [] with slots := 2048 }).map
    (fun t => t.strands.map (fun st => st.urgent)) = some [true] := by decide
theorem test_strandUnbench : (next (.strandUnbench 2) { demo [] with strands := [{ demoStrand [] with benched := true }] }).map (fun t => t.strands.map (fun st => st.benched)) = some [false] := by decide
def twoStrands : State := { demo [] with cur := none, strands := [{ wideStrand with mask := some 5, regs := [] , qs := List.replicate 8 (.u false), count := 3 },
  { placeStrand 1 3 with first := 1, count := 1, mask := some 2 }] }
theorem test_opportunisticMerge : (next (.opportunisticMerge 2 3) twoStrands).map (fun t => t.strands.map present) = some [[0, 1, 2]] := by decide
theorem test_engineFill_idle : (next (.engineFill 0 0) (demo [])).isSome = true := by decide
theorem test_engineDrain_idle : (next (.engineDrain 0 1) (demo [])).isSome = true := by decide
theorem test_engineFillw_idle : (next (.engineFillw 0 2) (demo [])).isSome = true := by decide
theorem test_enginePageServiced_idle : (next (.enginePageServiced 0 0 true) (demo [])).isSome = true := by decide
def cleared : State := (next (.mclr u 0) (demo [])).getD State.reset
theorem test_mclrDone : (next (.mclrDone ((cleared.ops.head?.map (fun o => o.oid)).getD 0)) cleared).map (fun t => t.cores.map (fun c => c.mq.length)) = some [0] := by decide
def readOut : State := (next (.mrd u 8 0 (.lit 0x80000000) .rn 0 .i32 false) (demo [])).getD State.reset
theorem test_mrdReadoutDone : ((next (.mrdReadoutDone ((readOut.ops.head?.map (fun o => o.oid)).getD 0)) readOut).bind (fun t => strandOf t 2)).bind (fun st => uReg st 8) = some 0 := by decide
theorem test_matrixMloopExec_idle : (next (.matrixMloopExec 0) (demo [])).isSome = true := by decide
theorem test_dispatchPass_idle : (next (.dispatchPass 0) (demo [])).map (fun t => t.strands.length) = some 1 := by decide
/-- A user queue of the context: rings at 0x10000 and 0x11000, capacity 4. -/
def withQueue : State := { demo [] with userqs := [⟨0, 1, 0x10000, 2, 0x10800, 0, 0, false, 0, 0, []⟩], dies := [{ Die.fresh 0 with queues := [QueueReg.fresh 0 1 0 0] }] }
theorem test_kick_too_far : (next (.kick 0 5) withQueue).map (fun t => t.userqs.map (fun q => q.stopped)) = some [true] := by decide
theorem test_kick_refuses_bad_record : (next (.kick 0 1) withQueue).map (fun t => t.userqs.map (fun q => (q.head, q.waiting.map (fun r => r.status)))) = some [(1, [1])] := by decide
theorem test_cdone : (next (.cdone 0 3) withQueue).map (fun t => t.userqs.map (fun q => q.cdone)) = some [3] := by decide
theorem test_completionWrite : (next (.completionWrite 0) { withQueue with userqs := [⟨0, 1, 0x10000, 2, 0x10800, 0, 0, false, 0, 0, [⟨7, 0, 1, 1, 0, 0⟩]⟩] }).map
    (fun t => (t.userqs.map (fun q => q.cnext), memGets t.mem 0x20800 4)) = some ([1], [7, 0, 0, 0]) := by decide
theorem test_launchComplete : (next (.launchComplete 1) { demo [] with strands := [] }).map (fun t => t.launches.map (fun l => l.complete)) = some [true] := by decide
theorem test_continuationTake_bad_task : (next (.continuationTake 0) { demo [] with bdies := [{ BDie.fresh 0 with contq := [⟨1, 5, 0, 0, 0, 9, 0, 0, []⟩] }] }).map
    (fun t => t.bdies.map (fun b => b.contq.length)) = some [0] := by decide
def launching : State := (next (.launch u 6 (.lit 9)) (demo [])).getD State.reset
theorem test_launchIntake_ends : (next (.launchIntake ((launching.ops.head?.map (fun o => o.oid)).getD 0)) launching).map (fun t => t.ops.map (fun o => o.done)) = some [true] := by decide
theorem test_rdPacket : (next (.rdPacket 0 3 0x20000 false 0) (demo [])).map (fun t => t.out) = some [.text "RD reply: data" (3 :: List.replicate 64 0)] := by decide
theorem test_wrPacket_masks : (next (.wrPacket 0 3 0x40000 [true, false] [7, 8] 0) (demo [])).map (fun t => memGets t.mem 0x40000 2) = some [7, 0] := by decide
theorem test_atPacket : (next (.atPacket 9) (demo [])).isSome = true := by decide
theorem test_atcPacket : (next (.atcPacket 9) (demo [])).isSome = true := by decide
theorem test_swpPacket : (next (.swpPacket 0 1 5 2 true) (demo [])).map (fun t => (remapOf (bdieOf t 0) 5).busy) = some true := by decide
theorem test_swapComplete : (next (.swapComplete 0 5) { demo [] with bdies := [{ BDie.fresh 0 with swaps := [⟨5, 2, some 7⟩], remap := [⟨5, 0, true, false, [0, 0, 0]⟩] }] }).map
    (fun t => ((remapOf (bdieOf t 0) 5).fast, t.out)) = some (2, [.text "SWP done" [7]]) := by decide
theorem test_swapEpoch : (next (.swapEpoch 0) { demo [] with bdies := [{ BDie.fresh 0 with remap := [⟨5, 0, false, false, [9, 2, 1]⟩] }] }).map (fun t => (remapOf (bdieOf t 0) 5).cnt) =
    some [4, 1, 0] := by decide
def storing : State := (next (.st u 4 (.reg 6) 8 .b32 false) (mapped [(6, 0x11223344)])).getD State.reset
theorem test_bufferDrain : (next (.bufferDrain ((storing.stores.head?.map (fun e => e.id)).getD 0)) storing).map (fun t => memGets t.mem 0x20008 4) = some [0x44, 0x33, 0x22, 0x11] := by decide
def walking : State := (next (.ld u 8 4 0 .b32 false) (demo [(4, 0x10000)])).getD State.reset
theorem test_tableWalkDone : statusAfter (.tableWalkDone 0 1 16) walking = [.ready] := by decide
theorem test_invalidate : (next (.invalidate 0 1 0x10000 0x10FFF) (mapped [])).map (fun t => t.invals.length) = some 1 := by decide
theorem test_invalidateComplete : (next (.invalidateComplete 0) { mapped [] with invals := [⟨0, 1, 0x10000, 0x10FFF, none⟩] }).map (fun t => t.cores.map (fun c => c.tlb.length)) = some [0] := by decide
theorem test_atsCompletion : statusAfter (.atsCompletion 1 16 ⟨0x5000, 4096, true, true⟩) { blockedOn (.ats 16) with atsReqs := [⟨1, 16, 1, [0], [2]⟩] } = [.ready] := by decide
theorem test_atsInvalidateRequest : (next (.atsInvalidateRequest 0 0x10000 4096) (demo [])).map (fun t => t.invals.length) = some 4 := by decide
theorem test_priResponse : (next (.priResponse 1 16 .success) { demo [] with priReqs := [⟨1, 16, false⟩] }).map (fun t => t.priReqs) = some [] := by decide
/-- The device with the strand parked by a software trap, its stop selected. -/
def trapped : State := { (next (.trap u 5) (demo [])).getD State.reset with selTicket := 1, selCtx := 1 }
theorem test_stopSelect : (next (.stopSelect 0x100000001) (demo [])).map (fun t => (t.selTicket, t.selCtx)) = some (1, 1) := by decide
theorem test_resume_after_trap : (next .resume trapped).map (fun t => (t.stops.length, t.strands.map (fun st => (st.pc, st.status)))) = some (0, [(0x10008, .ready)]) := by decide
theorem test_skip : (next .skip trapped).map (fun t => t.strands.map (fun st => st.pc)) = some [0x10008] := by decide
theorem test_kill : (next .kill trapped).map (fun t => (t.strands.length, t.launches.map (fun l => l.status))) = some (0, [2]) := by decide
theorem test_write : ((next (.write 3 7) trapped).bind (fun t => strandOf t 2)).bind (fun st => uReg st 3) = some 7 := by decide
theorem test_faultConsumed : (next (.faultConsumed 1 2) (demo [])).map (fun t => t.ctxs.map (fun c => c.consumed)) = some [2] := by decide
theorem test_hmaskWrite_refused : (next (.hmaskWrite 0 0 0x200) (demo [])).map (fun t => (bdieOf t 0).hmask) = some [0x100, 0x200, 0x400, 0x800, 0x1000, 0x2000] := by decide
theorem test_registerWrite : (next (.registerWrite (.swpctl 0) 0xFF) (demo [])).map (fun t => (bdieOf t 0).swpctl) = some 1 := by decide
theorem test_preemptRequest : (next (.preemptRequest 1 0) (demo [])).map (fun t => t.teams.map (fun x => x.preempt)) = some [true] := by decide
def asked : State := { (next (.preemptRequest 1 0) (demo [])).getD State.reset with time := 50000 }
theorem test_safeptTimeout : (next (.safeptTimeout 1 0) asked).map (fun t => t.teams.map (fun x => (x.saved, x.gen))) = some [(true, 1)] := by decide
theorem test_teamRestore : (next (.teamRestore 1 0) ((next (.safeptTimeout 1 0) asked).getD State.reset)).map (fun t => t.teams.map (fun x => x.saved)) = some [false] := by decide
theorem test_sliceExpiry_alone : (next (.sliceExpiry 1) (demo [])).map (fun t => t.ctxs.map (fun c => c.held)) = some [false] := by decide
theorem test_sliceOverrunKill_none : (next (.sliceOverrunKill 1) (demo [])).map (fun t => t.strands.length) = some 1 := by decide
theorem test_reservedInstruction : stopKinds (.reservedInstruction 2) (demo []) = [1] := by decide
theorem test_instructionFetchFault : stopKinds (.instructionFetchFault 1 4) (demo []) = [2] := by decide

/-! ### Calls, boot and the other interfaces -/

def c1 : Caller := ⟨1, false⟩
def mb : Caller := ⟨1, true⟩
/-- The number that a call answers. -/
def answers (i : Instr) (s : State) : Option Int := (next i s).bind (fun t => match t.out.getLast? with | some (.call r) => some r | _ => none)
theorem test_ecallLaunch_no_queue : answers (.ecallLaunch c1 0x10000 0) (demo []) = some (-2) := by decide
theorem test_qcreate_bad_k : answers (.qcreate c1 0 1 0 0 0) (demo []) = some (-2) := by decide
theorem test_qdestroy : answers (.qdestroy c1 0) withQueue = some 0 := by decide
theorem test_qparam : answers (.qparam c1 0 4 0 0) withQueue = some (-2) := by decide
theorem test_taskset_clears : answers (.taskset c1 0 0) (demo []) = some 0 := by decide

theorem test_hqcreate : answers (.hqcreate c1 4) (demo []) = some 0 := by decide
theorem test_hqdestroy : answers (.hqdestroy c1 0) queued = some 0 := by decide
theorem test_map_taken : answers (.map c1 0x10000 4096 0 0) (demo []) = some (-2) := by decide
theorem test_map : answers (.map c1 0x11000 4096 1 0) (demo []) = some 0 := by decide
theorem test_unmap : answers (.unmap c1 0x10000 4096) (demo []) = some 0 := by decide
theorem test_share_misaligned : answers (.share c1 1 4096 0) (demo []) = some (-2) := by decide
theorem test_keyset_handle_0 : answers (.keyset c1 0 0x10000 0) (demo []) = some (-2) := by decide
theorem test_window_no_queue : answers (.window c1 0x10000 4096 0 3) (demo []) = some (-2) := by decide
theorem test_window : answers (.window c1 0x10000 4096 0 3) queued = some 1 := by decide
theorem test_features : answers (.features c1) (demo []) = some 0x4FF := by decide
theorem test_slice : answers (.slice c1 99) (demo []) = some (-2) := by decide
theorem test_hmask_not_privileged : answers (.hmask c1 0x10000) (demo []) = some (-4) := by decide
theorem test_hmask_resident : answers (.hmask mb 0x10000) (demo []) = some (-5) := by decide
theorem test_l2mode : answers (.l2mode mb 0) (demo []) = some 0 := by decide
theorem test_pchreset : answers (.pchreset c1) (demo []) = some (-4) := by decide
theorem test_migrate_no_launch : answers (.migrate mb 9 0) (demo []) = some (-2) := by decide
theorem test_ctxparam_unreadable : answers (.ctxparam mb 1 0x99000) (demo []) = some (-2) := by decide
theorem test_unknownCall : answers (.unknownCall c1 0x77) (demo []) = some (-1) := by decide
theorem test_flitCrcFail : (next (.flitCrcFail 0 false) (demo [])).map (fun t => t.sec.boot) = some .fatal := by decide
/-- A request that bears a mark of congestion, and one that bears none. -/
theorem marked_cases (s : State) (conn : Nat) : marked s conn = rdmaReply (draw s) conn "CNP" [] ∨ marked s conn = draw s := by
  cases h : Config.freeBool s.nfree <;> simp [marked, freeBool, h]
theorem test_rdmaWrite_no_window : (next (.rdmaWrite 1 1 0x10000 [1]) (demo [])).map (fun t => t.out.getLast?) = some (some (.text "NAK Remote Access Error" [1])) := by
  rcases marked_cases (demo []) 1 with h | h <;> simp only [next, exec, execRdmaWrite, takesRequests, h] <;> decide
def windowed : State := { queued with windows := [⟨1, 1, 0x10000, 4096, 0, true, true⟩] }
theorem test_rdmaWrite : (next (.rdmaWrite 1 1 0x10000 [9]) windowed).map (fun t => memGet t.mem 0x20000) = some 9 := by
  rcases marked_cases windowed 1 with h | h <;> simp only [next, exec, execRdmaWrite, takesRequests, h] <;> decide
theorem test_rdmaWriteWithImmediate : (next (.rdmaWriteWithImmediate 1 1 0x10000 [9] 5) windowed).map (fun t => t.ctxs.map (fun c => c.hqs.map (fun q => q.entries.map (fun e => e.1)))) =
    some [[[7, 5]]] := by
  rcases marked_cases windowed 1 with h | h <;> simp only [next, exec, execRdmaWriteWithImmediate, takesRequests, h] <;> decide
theorem test_rdmaRead_outside : (next (.rdmaRead 1 1 0x10FFF 2) windowed).map (fun t => t.out.getLast?) = some (some (.text "NAK Remote Access Error" [1])) := by
  rcases marked_cases windowed 1 with h | h <;> simp only [next, exec, execRdmaRead, takesRequests, h] <;> decide
theorem test_rdmaInvalidRequest : (next (.rdmaInvalidRequest 4) (demo [])).map (fun t => t.out.getLast?) = some (some (.text "NAK Invalid Request" [4])) := by
  rcases marked_cases (demo []) 4 with h | h <;> simp only [next, exec, execRdmaInvalidRequest, takesRequests, h] <;> decide
/-- The device whose context grants observation, with a debugger. -/
def watched : State := let s := demo []; { s with ctxs := s.ctxs.map (fun c => { c with gobs := true, gprof := true }), attaches := [⟨1, [], 0, 0, [], 1, [], none, [], 0, none, [], 0, 1024, []⟩] }
theorem test_attach_refused : (next (.attach 1 none none 0) (demo [])).map (fun t => t.attaches.length) = some 0 := by decide
theorem test_attach : (next (.attach 1 (some 8) none 1024) { watched with attaches := [] }).map (fun t => t.attaches.length) = some 1 := by decide
theorem test_detach : (next (.detach 1) watched).map (fun t => t.attaches.length) = some 0 := by decide
def haltedState : State := (next (.halt 1 1 none) watched).getD State.reset
theorem test_halt : haltedState.strands.map (fun st => st.halted) = [some 1] := by decide
theorem test_debugResume : (next (.debugResume 1 1) haltedState).map (fun t => t.strands.map (fun st => st.halted)) = some [none] := by decide
theorem test_step : (next (.step 1 1) haltedState).map (fun t => t.strands.map (fun st => st.stepping)) = some [true] := by decide
theorem test_read : (next (.read 1 1 (.reg 3)) haltedState).map (fun t => t.out.getLast?) = some (some (.text "register" [0, 0])) := by decide
theorem test_debugWrite : ((next (.debugWrite 1 1 (.reg 3) 9) haltedState).bind (fun t => strandOf t 2)).bind (fun st => uReg st 3) = some 9 := by decide
theorem test_dump : (next (.dump 1 1) watched).map (fun t => t.dumps.length) = some 1 := by decide
theorem test_sample_none : (next (.sample 0 0) watched).map (fun t => t.attaches.map (fun a => a.sampleRing.length)) = some [0] := by decide
theorem test_bkpt_attached : (next (.bkpt u 1) watched).map (fun t => t.strands.map (fun st => (st.pc, st.halted))) = some [(0x10000, some 1)] := by decide
theorem test_storageError_poisons : (next (.storageError (.line 0x20000) false) (demo [])).map (fun t => t.memPois) = some [0x800] := by decide
theorem test_stopRingConsumed : (next (.stopRingConsumed 1 2) watched).map (fun t => t.attaches.map (fun a => a.stopConsumed)) = some [2] := by decide
theorem test_contextDestroy : (next (.contextDestroy 1) withQueue).map (fun t => (t.ctxs.map (fun c => c.valid), t.userqs.length)) = some ([false], 0) := by decide
theorem test_bundleLoad_refused : (next (.bundleLoad 2 0 []) (demo [])).map (fun t => t.out) = some [.text "bundle refused" [2]] := by decide
theorem test_fullService : (next .fullService { demo [] with sec := { (demo []).sec with boot := .seedling } }).map (fun t => t.sec.boot) = some .full := by decide
theorem test_getVersion : (next (.getVersion (.doe none)) (demo [])).map (fun t => t.out) = some [.text "VERSION" [1, 0x12]] := by decide
theorem test_getCapabilities_early : (next (.getCapabilities (.doe none)) (demo [])).map (fun t => t.out) = some [.text "ERROR UnexpectedRequest" [1]] := by decide
theorem test_spdmUnsupported : (next (.spdmUnsupported (.doe none) 0x99) (demo [])).map (fun t => t.out) = some [.text "ERROR UnsupportedRequest" [1, 0x99]] := by decide
/-- The device with SPDM negotiated. -/
def talking : State := { demo [] with sec := { (demo []).sec with versioned := true, negotiated := true } }
theorem test_negotiateAlgorithms : (next (.negotiateAlgorithms (.doe none)) talking).map (fun t => t.sec.negotiated) = some true := by decide
theorem test_getCertificate_slot_1 : (next (.getCertificate (.doe none) 1) talking).map (fun t => t.out) = some [.text "ERROR InvalidRequest" [1]] := by decide
theorem test_challenge_slot_1 : (next (.challenge (.doe none) 1 0) talking).map (fun t => t.out) = some [.text "ERROR InvalidRequest" [1]] := by decide
theorem test_getMeasurements_count : (next (.getMeasurements (.doe none) 0) talking).map (fun t => t.out) = some [.text "MEASUREMENTS" [1, 7]] := by decide
theorem test_keyExchange : (next (.keyExchange (.doe none) ⟨5, List.replicate 96 1⟩) talking).map (fun t => t.sec.sessions.map (fun x => (x.id, x.done))) = some [(5, false)] := by decide
theorem test_finish_unknown : (next (.finish (.doe none) ⟨5, []⟩) talking).map (fun t => t.sec.sessions) = some [] := by decide
theorem test_endSession_unknown : (next (.endSession (.doe none) 5) talking).map (fun t => t.out) = some [.text "ERROR InvalidRequest" [1]] := by decide
theorem test_unlock_short : (next (.unlock [1]) (demo [])).map (fun t => t.out) = some [] := by decide
theorem test_minsvnRaise_above : (next (.minsvnRaise 1 1) (demo [])).map (fun t => t.out) = some [] := by decide
theorem test_unlockReq_before_boot : (next .unlockReq State.reset).map (fun t => t.sec.nonces) = some 0 := by decide
theorem test_recoveryImage_full : (next (.recoveryImage []) (demo [])).map (fun t => t.sec.boot) = some .full := by decide
theorem test_hostStageImage_full : (next (.hostStageImage []) (demo [])).map (fun t => t.sec.boot) = some .full := by decide
theorem test_clockAndVoltageChange : (next (.clockAndVoltageChange 0 700 800 1000) (demo [])).map (fun t => (t.telemetry.map (fun x => x.mhz)).headD 0) = some 700 := by decide
theorem test_clock_above_ceiling : (next (.clockAndVoltageChange 0 700 800 1400000) (demo [])).map (fun t => (t.telemetry.map (fun x => x.mhz)).headD 0) = some 850 := by decide
/-! ### Witnesses: the hypotheses of the statements are met -/

/-- The decidable parts of `StrandWf`. -/
def wfB (st : Strand) : Bool :=
  !(present st).isEmpty && st.first == (present st).headD 0 && st.first + st.count == (present st).getLastD 0 + 1 && (st.mask.isSome || !hasX st) &&
  st.regs.all (fun e => match e.2 with | .x vs => vs.length == presentCount st | _ => true) &&
  st.qs.all (fun q => match q with | .x bs => bs.length == presentCount st | _ => true) && st.qs.length == 8

theorem strandWf_of (st : Strand) (h : wfB st = true) : StrandWf st := by
  simp only [wfB, Bool.and_eq_true, beq_iff_eq, Bool.not_eq_true', List.isEmpty_eq_false_iff, Bool.or_eq_true, List.all_eq_true] at h
  obtain ⟨⟨⟨⟨⟨⟨h1, h2⟩, h3⟩, h4⟩, h5⟩, h6⟩, h7⟩ := h
  refine ⟨h1, h2, h3, ?_, ?_, ?_, h7⟩
  · intro hm; simpa [hm] using h4
  · intro e he vs hv; have := h5 e he; rw [hv] at this; simpa using this
  · intro q hq bs hb; have := h6 q hq; rw [hb] at this; simpa using this

theorem issuing_of (s : State) (st : Strand) (h : (decide (s.cur = some st.sid) && decide (strandOf s st.sid = some st) && decide (s.badAddr = none) && wfB st) = true) :
    Issuing s st := by
  simp only [Bool.and_eq_true, decide_eq_true_eq] at h
  exact ⟨h.1.1.1, h.1.1.2, h.1.2, strandWf_of st h.2⟩

theorem freshIds_of (s : State) (h : (s.strands.all (fun x => decide (x.sid < s.nextId)) && decide ((s.strands.map (fun x => x.sid)).Nodup)) = true) : FreshIds s := by
  simp only [Bool.and_eq_true, List.all_eq_true, decide_eq_true_eq] at h
  exact ⟨h.1, h.2⟩

theorem wide3_issuing : Issuing wide3 wideStrand := issuing_of _ _ (by decide)

/-- No comparator of the team is armed. -/
theorem unwatched_of (s : State) (st : Strand) (regs : List Nat)
    (h : ((st.team.bind (teamOf s st.lk)).map (fun t => t.cmps.all (fun c => !c.armed))).getD true = true) : unwatched s st regs := by
  intro t ht c hc ha
  rw [ht] at h
  have := (List.all_eq_true.mp h) c hc
  simp [ha] at this

theorem wide3_writable (g : Guard) (d n : Nat) (vals : List Nat) (h : d + n ≤ budgetOf wide3 wideStrand) :
    writable wide3 wideStrand (columns wideStrand g d n vals) := by
  refine .inr ⟨.inl rfl, fun c hc => ?_⟩
  simp only [columns, List.mem_map, List.mem_range] at hc
  obtain ⟨k, hk, rfl⟩ := hc
  exact Nat.lt_of_lt_of_le (Nat.add_lt_add_left hk d) h

/-- The hypotheses of `Gives` on the strand of three indices, whatever the values are. -/
structure Meets (g : Guard) (srcs : List Opnd) (d n : Nat) : Prop where
  ready : Ready wide3 wideStrand g srcs (List.range' d n) false
  write : ∀ vals, writable wide3 wideStrand (columns wideStrand g d n vals)
  watch : unwatched wide3 wideStrand (List.range' d n)

theorem meetsGives (g : Guard) (srcs : List Opnd) (d n : Nat)
    (h1 : mustWait wide3 wideStrand (srcs.flatMap Opnd.regs ++ List.range' d n) (false || guardReads g || srcs.any Opnd.readsQ) = false)
    (h2 : consumed wideStrand g (srcs.flatMap Opnd.regs) = []) (h3 : d + n ≤ budgetOf wide3 wideStrand) : Meets g srcs d n :=
  ⟨⟨wide3_issuing, h1, h2⟩, fun vals => wide3_writable g d n vals h3, unwatched_of _ _ _ (by decide)⟩

/-- The hypotheses of `Stacks` on that strand. -/
structure MeetsStack (g : Guard) (srcs : List Opnd) : Prop where
  ready : Ready wide3 wideStrand g srcs [] true
  stack : ∀ cols, stackable wideStrand cols

theorem meetsStack (g : Guard) (srcs : List Opnd)
    (h1 : mustWait wide3 wideStrand (srcs.flatMap Opnd.regs ++ []) (true || guardReads g || srcs.any Opnd.readsQ) = false)
    (h2 : consumed wideStrand g (srcs.flatMap Opnd.regs) = []) : MeetsStack g srcs :=
  ⟨⟨wide3_issuing, h1, h2⟩, fun _ => .inr (.inl rfl)⟩

theorem memoriesCanonical_of (s : State) (h : (decide (Memory.wf s.mem = true) && s.hostMem.all (fun h => Memory.wf h.2) &&
    s.teams.all (fun t => Memory.wf t.scratch && Memory.wf t.wsave) && s.cores.all (fun c => Memory.wf c.wbuf)) = true) : memoriesCanonical s := by
  simp only [Bool.and_eq_true, List.all_eq_true, decide_eq_true_eq] at h
  exact ⟨h.1.1.1, h.1.1.2, fun t ht => h.1.2 t ht, fun c hc => h.2 c hc⟩

/-- The device with ADD v1, v2, v3 at the PC. -/
def fetching : State := State.reset.withFetchWord 32 0x0C008100

theorem witness_StepKeepsMemoryCanonical : memoriesCanonical fetching ∧ (match step fetching with | .next _ => true | _ => false) = true :=
  ⟨memoriesCanonical_of _ (by decide), by decide⟩

theorem witness_StepRunsDecoded :
    let r := nextPort { fetching with issuePhase := false, slots := fetching.slots + 1 }
    fetching.agenda = [] ∧ fetching.sec.boot = .full ∧ fetching.issuePhase = true ∧ r.1 = some (0, 0, 0) ∧
    ((portStrand r.2 0 0 0).map (fun st => decode (fetch r.2 st).1)) = some (.ok (.add u 2 0 3) 4) := by decide

/-- The bytes of an instruction are fetched from mapped device memory; those of a word of length 11 are refused; where no page is, the fetch faults. -/
theorem witness_FetchAndItsTraps :
    (let st := placeStrand 1 2;
      fetching.stores = [] ∧ fetching.memPois = [] ∧ 0x20000 + st.pc.toNat % 4096 + 12 ≤ Config.deviceBytes ∧ (walk fetching (ctxOfLaunch fetching st.lk) st.pc.toNat) = .ok ⟨false, 0x20000, 4096, true, true, 0, 1, false⟩) ∧
    Issuing wide3 wideStrand ∧
    (let r := nextPort { State.reset.withFetchWord 32 3 with issuePhase := false, slots := 1 };
      (portStrand r.2 0 0 0).map (fun st => (decode (fetch r.2 st).1, (next (.reservedInstruction 1) (takeSlot r.2 0 0 0 st)).isSome)) = some (.reject .reservedLength, true)) ∧
    (let r := nextPort { fetching with issuePhase := false, slots := 1, strands := fetching.strands.map (fun st => { st with pc := 0x50000 }) };
      (portStrand r.2 0 0 0).map (fun st => (decode (fetch r.2 st).1, (fetch r.2 st).2.isSome)) = some (.reject .truncated, true)) := by
  exact ⟨by decide, wide3_issuing, by decide, by decide⟩

/-- A well-formed instruction with an encoding, and bytes that decode. -/
theorem witness_EncodeDecode : (Instr.subFull ⟨true, .q true 5⟩ 8 10 (.lit 7) .n64 true).wellFormed = true ∧
    (Instr.subFull ⟨true, .q true 5⟩ 8 10 (.lit 7) .n64 true).encodable = true := by decide
theorem witness_DecodeEncode : decode (toBytes 4 0x0C008100 ++ [7]) = .ok (.add u 2 0 3) 4 := by decide

theorem witness_IntegerCompact : Meets .none [.v 2 1, .v 2 1] 2 1 ∧ Meets (.q false 0) [.v 2 1] 1 1 ∧ Meets .none [] 1 1 :=
  ⟨meetsGives _ _ _ _ (by decide) (by decide) (by decide), meetsGives _ _ _ _ (by decide) (by decide) (by decide), meetsGives _ _ _ _ (by decide) (by decide) (by decide)⟩
theorem witness_IntegerFull : Meets (.q true 0) [.v 2 2, .v 4 2] 6 2 ∧ Meets .none [.v 2 1, .lit 7, .v 3 1] 1 1 :=
  ⟨meetsGives _ _ _ _ (by decide) (by decide) (by decide), meetsGives _ _ _ _ (by decide) (by decide) (by decide)⟩
theorem witness_Logic : Meets .none [.v 2 1, .v 3 1] 1 1 := meetsGives _ _ _ _ (by decide) (by decide) (by decide)
theorem witness_ShiftCompact : Meets .none [.v 2 1, .v 3 1] 1 1 := meetsGives _ _ _ _ (by decide) (by decide) (by decide)
theorem witness_ShiftFull : Meets .none [.v 2 2, .v 4 1] 6 2 := meetsGives _ _ _ _ (by decide) (by decide) (by decide)
theorem witness_BitCounts : Meets (.q false 0) [.v 2 2] 4 2 := meetsGives _ _ _ _ (by decide) (by decide) (by decide)
theorem witness_BitFields : Meets .none [.v 2 1, .v 3 1, .v 1 1] 1 1 := meetsGives _ _ _ _ (by decide) (by decide) (by decide)
theorem witness_Compare : MeetsStack .none [.v 2 1, .v 3 1] ∧ MeetsStack (.q false 0) [.v 2 2, .lit 7] :=
  ⟨meetsStack _ _ (by decide) (by decide), meetsStack _ _ (by decide) (by decide)⟩
theorem witness_PredicateStack : MeetsStack .none [.q 0 false, .q 7 false] ∧ MeetsStack .none [] :=
  ⟨meetsStack _ _ (by decide) (by decide), meetsStack _ _ (by decide) (by decide)⟩
theorem witness_SelectAndMoves : Meets .none [.q 7 true, .v 2 1, .v 3 1] 1 1 ∧ Meets .none [.v 2 2] 4 2 :=
  ⟨meetsGives _ _ _ _ (by decide) (by decide) (by decide), meetsGives _ _ _ _ (by decide) (by decide) (by decide)⟩
theorem witness_RealCompare : MeetsStack .none [.v 2 1, .v 3 1] := meetsStack _ _ (by decide) (by decide)
theorem witness_RealMinMax : Meets .none [.v 2 1, .v 3 1] 1 1 := meetsGives _ _ _ _ (by decide) (by decide) (by decide)
theorem witness_RealArith : Meets .none [.v 2 1, .v 3 1, .v 1 1] 1 1 := meetsGives _ _ _ _ (by decide) (by decide) (by decide)
theorem witness_RealSign : Meets (.q false 0) [.v 2 1] 2 1 := meetsGives _ _ _ _ (by decide) (by decide) (by decide)
theorem witness_RoundingIsFaithful : 0x3F800001 < 2 ^ realWidth .f32 ∧ readReal .f32 0x3F800001 ≠ .nan := by decide
theorem witness_SpecialFunctions : Meets .none [.v 2 1] 1 1 ∧ readBin 23 0x7FC00000 = .nan ∧ readBin 7 0xBF80 = .fin true 128 (-7) :=
  ⟨meetsGives _ _ _ _ (by decide) (by decide) (by decide), by decide, by decide⟩
theorem witness_Convert : Meets .none [.v 2 2] 1 1 ∧ Machine.cvtInt .i64 = some (true, 64) ∧ Machine.cvtInt .t8 = none ∧ cvtReal .t8 = some .t8 :=
  ⟨meetsGives _ _ _ _ (by decide) (by decide) (by decide), by decide, by decide, by decide⟩
theorem witness_DotProduct : Meets .none [.v 2 1, .v 3 1, .v 1 1] 1 1 := meetsGives _ _ _ _ (by decide) (by decide) (by decide)

/-- A strand on a sheaf under a guard that is not U false, and under one that is. -/
theorem witness_CrossLane :
    (Ready wide3 wideStrand (.q false 0) [.v 2 1, .v 3 1] [4] false ∧ oneSheaf wideStrand ∧ guardU wideStrand (.q false 0) ≠ some false ∧ wideStrand.replay = none ∧
      (∀ vals, writable wide3 wideStrand (columns wideStrand (.q false 0) 4 1 vals)) ∧ unwatched wide3 wideStrand [4]) ∧
    Ready wide3 wideStrand (.q false 1) [.v 2 1, .v 3 1] [4] false ∧ guardU wideStrand (.q false 1) = some false :=
  ⟨⟨⟨wide3_issuing, by decide, by decide⟩, .inl rfl, by decide, rfl, fun v => wide3_writable _ _ _ v (by decide), unwatched_of _ _ _ (by decide)⟩,
    ⟨wide3_issuing, by decide, by decide⟩, by decide⟩
theorem witness_Reductions : (RedOp.minu ≠ .fadd ∧ RedOp.minu ≠ .fmin ∧ RedOp.minu ≠ .fmax) ∧ 64 % 64 = 0 ∧ ([64, 127] : List Nat).Pairwise (· < ·) ∧
    ∀ e ∈ ([(64, [5]), (127, [2 ^ 32 - 1])] : List (Nat × List Nat)), 64 ≤ e.1 ∧ e.1 < 64 + 64 ∧ arg e.2 0 < 2 ^ 32 := by decide

/-- The device with another strand in the place of the one that issues. -/
def withStrand (st : Strand) : State := { wide3 with strands := [st] }
/-- Three indices with walk 0 bound and return addresses on the call stack. -/
def caller (n : Nat) : Strand := { wideStrand with calls := List.replicate n 0x10040, walks := List.replicate 16 ⟨true, 1, [4, 1, 1, 1, 1], [4, 0, 0, 0, 0], [3, 0, 0, 0, 0], [false, false, false, false, false]⟩ }

theorem caller_issuing (n : Nat) : Issuing (withStrand (caller n)) (caller n) :=
  ⟨rfl, rfl, rfl, strandWf_of _ (show wfB wideStrand = true by decide)⟩

/-- Every index takes the transfer, with seven and with one return address; and none takes it. -/
theorem witness_Transfers :
    Free (withStrand (caller 7)) (caller 7) .none ∧ (∀ b ∈ guardFlags (caller 7) .none, b = true) ∧ (caller 7).calls.length < 8 ∧
    (walkOf (caller 7) 0).bound = true ∧ nth (walkOf (caller 7) 0).e 4 true = false ∧
    Free (withStrand (caller 1)) (caller 1) (.q false 1) ∧ (∀ b ∈ guardFlags (caller 1) (.q false 1), b = false) ∧ (caller 1).calls = [0x10040] :=
  ⟨⟨caller_issuing 7, by decide⟩, by decide, by decide, by decide, by decide, ⟨caller_issuing 1, by decide⟩, by decide, by decide⟩
theorem witness_TransfersDiverge :
    Free (withStrand (caller 7)) (caller 7) (.q false 0) ∧ acting (caller 7) (.q false 0) = [0, 2] ∧ present (caller 7) = [0, 1, 2] ∧ (caller 7).calls.length < 8 ∧
    (walkOf (caller 7) 0).bound = true ∧ nth (walkOf (caller 7) 0).e 4 true = false :=
  ⟨⟨caller_issuing 7, by decide⟩, by decide, by decide, by decide, by decide, by decide⟩
theorem witness_CallTraps :
    (Free (withStrand (caller 8)) (caller 8) (.q false 0) ∧ FreshIds (withStrand (caller 8)) ∧ acting (caller 8) (.q false 0) = [0, 2] ∧ present (caller 8) = [0, 1, 2] ∧
      8 ≤ (caller 8).calls.length) ∧
    Free (withStrand (caller 0)) (caller 0) .none ∧ FreshIds (withStrand (caller 0)) ∧ acting (caller 0) .none ≠ [] ∧ (caller 0).calls = [] :=
  ⟨⟨⟨caller_issuing 8, by decide⟩, freshIds_of _ (by decide), by decide, by decide, by decide⟩, ⟨caller_issuing 0, by decide⟩, freshIds_of _ (by decide), by decide, by decide⟩

/-- Three indices with these values in v2. -/
def brancher (f : VForm) : Strand := { wideStrand with regs := [(2, f)] }
/-- One target, two targets, a target that is no multiple of 4, and no index that acts. -/
theorem witness_BranchIndirect :
    (Ready (withStrand (brancher (.u 0x10))) (brancher (.u 0x10)) .none [.v 2 1] [] false ∧ ∀ i ∈ acting (brancher (.u 0x10)) .none, ((valueAt (brancher (.u 0x10)) 2 i).getD 0) = 0x10) ∧
    (Ready (withStrand (brancher (.x [0x10, 0x20, 0x10]))) (brancher (.x [0x10, 0x20, 0x10])) .none [.v 2 1] [] false ∧ oneSheaf (brancher (.x [0x10, 0x20, 0x10])) ∧
      valueAt (brancher (.x [0x10, 0x20, 0x10])) 2 1 = some 0x20) ∧
    Ready wide3 wideStrand .none [.v 2 1] [] false ∧ valueAt wideStrand 2 0 = some 1 ∧
    Ready wide3 wideStrand (.q false 1) [.v 2 1] [] false ∧ acting wideStrand (.q false 1) = [] :=
  ⟨⟨⟨issuing_of _ _ (by decide), by decide, by decide⟩, by decide⟩, ⟨⟨issuing_of _ _ (by decide), by decide, by decide⟩, .inl rfl, by decide⟩,
    ⟨wide3_issuing, by decide, by decide⟩, by decide, ⟨wide3_issuing, by decide, by decide⟩, by decide⟩

theorem wide3_collective (rs : List Nat) (team stack : Bool) (h1 : mustWait wide3 wideStrand [] (stack || guardReads .none) = false)
    (h2 : mustWait wide3 wideStrand rs false = false) (h3 : consumed wideStrand .none rs = []) : Collective wide3 wideStrand .none rs team stack :=
  ⟨wide3_issuing, by decide, h1, h2, h3, fun _ => by decide⟩

/-- A team whose two strands are enrolled in one group, of which one is at its JOINW or at its barrier and the other is not. -/
def joining : State := { twoStrands with cur := some 2, nextId := 4, strands := twoStrands.strands.map (fun st => { st with enrol := List.replicate 16 9 }) }
theorem witness_WaitingInstructions_groups :
    (let b := blockOn (performLoads wide3 wideStrand) 2 (.join 3 0 5);
      (strandOf b 2).map (fun v => (membersOf b v 3).map (fun m => decide (m.status = .blocked (.join 3 0 5)) && arrivedJoin b m 3 && !stopped b m && wfB m)) = some [true]) ∧
    (joining.strands.map (fun st => (decide (strandOf joining st.sid = some st), wfB st, guardU st .none, mustWait joining st [] false)) = [(true, true, some true, false), (true, true, some true, false)] ∧
      joining.cur = some 2 ∧ joining.badAddr = none) ∧ FreshIds joining ∧ FreshIds wide3 ∧
    ((strandOf joining 2).map (fun st => let b := blockOn (performLoads joining st) 2 (.join 3 0 5);
      ((strandOf b 2).map (fun v => (membersOf b v 3).map (fun m => match m.status with | .blocked (.join _ _ _) => true | _ => false)))) = some (some [true, false])) ∧
    (0 ∈ gangTeams wide3 1 0 ∧ 0 ∈ gangTeams joining 1 0) ∧
    ([wide3, joining].map (fun s => (strandOf s 2).map (fun st => let b := blockOn (performLoads s st) 2 (.bar false 1);
      (((atBar b 1 [0] false 1).map presentCount).sum, aliveIn b 1 0, (atBar b 1 [0] false 1).map (stopped b)))) = [some (3, 3, [false]), some (2, 3, [false])]) ∧
    ((strandOf wide3 2).map (fun st => let b := blockOn ((present st).foldl (fun a i => publish a st.core (releaseRec a st i .gang)) (performLoads wide3 st)) 2 (.bar true 1);
      (gangTeams b 1 0, ((atBar b 1 [0] true 1).map presentCount).sum, (atBar b 1 [0] true 1).map (stopped b))) = some ([0], 3, [false])) ∧
    (wideStrand.status = .ready ∧ undelivered wide3 wideStrand = [] ∧ acting wideStrand (.q false 0) = [0, 2] ∧ wide3.strands = [wideStrand]) :=
  ⟨by decide, by decide, freshIds_of _ (by decide), freshIds_of _ (by decide), by decide, by decide, by decide, by decide, by decide⟩
theorem witness_StrandControl : Collective wide3 wideStrand .none [] true false ∧ (pendingSlots wide3 wideStrand).contains 31 = false :=
  ⟨wide3_collective _ _ _ (by decide) (by decide) (by decide), by decide⟩
/-- Nothing is outstanding; one operation is, and WAITC allows none; and an EXIT acts at some index, and at none. -/
theorem witness_WaitingInstructions :
    (Collective wide3 wideStrand .none [] true false ∧ opCount wide3 wideStrand .l ≤ 0 ∧ undelivered wide3 wideStrand = []) ∧
    (let s := launching; let st := (strandOf s 2).getD wideStrand; s.cur = some 2 ∧ opCount s st .s = 1) ∧
    Free wide3 wideStrand (.q false 0) ∧ acting wideStrand (.q false 0) ≠ [] ∧ Free wide3 wideStrand (.q false 1) ∧ acting wideStrand (.q false 1) = [] :=
  ⟨⟨wide3_collective _ _ _ (by decide) (by decide) (by decide), by decide, by decide⟩, by decide, ⟨wide3_issuing, by decide⟩, by decide, ⟨wide3_issuing, by decide⟩, by decide⟩
theorem witness_CollectiveGuards : Issuing wide3 wideStrand ∧ mustWait wide3 wideStrand [] true = false ∧ guardU wideStrand (.q false 1) = some false ∧
    guardU wideStrand (.q false 0) = none := ⟨wide3_issuing, by decide, by decide, by decide⟩
/-- A fault queue with room where nothing waits, and a full one. -/
def fullRing : State := { wide3 with ctxs := wide3.ctxs.map (fun c => { c with faultN := 4096, consumed := 0 }) }
theorem witness_TakingATrap : (strandOf wide3 2 = some wideStrand ∧ (launchOf wide3 1).isSome = true ∧ wide3.stops.length < 2 ^ 32 - 2 ∧
      (ctxOf wide3 (ctxOfLaunch wide3 1)).map (fun x => (ringRoom x, x.waiting.length, (x.faultN + 2 ^ 32 - x.consumed % 2 ^ 32) % 2 ^ 32)) = some (true, 0, 0) ∧
      (withNames (reportOf wide3 wideStrand 1 0) (present wideStrand)).length = 1) ∧
    memoriesCanonical wide3 ∧
    (strandOf fullRing 2 = some wideStrand ∧ (ctxOf fullRing (ctxOfLaunch fullRing 1)).map (fun x => ringRoom x) = some false) ∧
    (let r := reportOf wide3 wideStrand 1 0; r.cls < 2 ^ 8 ∧ r.kind < 2 ^ 8 ∧ r.cause < 2 ^ 8 ∧ r.iform < 2 ^ 7) :=
  ⟨by decide, memoriesCanonical_of _ (by decide), by decide, by decide⟩

/-! The strand of one index with the page of 0x10000 mapped, its address in v4:v5 and a scratch offset in v6. -/

def memStrand : Strand := demoStrand [(4, 0x10000), (6, 0x10)]
def memState : State := mapped [(6, 0x10)]
theorem memState_issuing : Issuing memState memStrand := issuing_of _ _ (by decide)
/-- Nothing is outstanding there. -/
theorem memState_quiet : Quiet memState memStrand :=
  ⟨fun _ h => absurd h List.not_mem_nil, fun _ h => absurd h List.not_mem_nil, fun _ h => absurd h List.not_mem_nil, fun _ h => absurd h List.not_mem_nil⟩
theorem memState_clear (g : Guard) (rs dests : List Nat) (stack : Bool) (h1 : mustWait memState memStrand (rs ++ dests) (stack || guardReads g) = false)
    (h2 : consumed memStrand g rs = []) : Clear memState memStrand g rs dests stack := ⟨memState_issuing, h1, h2⟩
/-- A global access of n bytes at offset 0. -/
def globalOk (n : Nat) (store : Bool) : Prop :=
  Permitted (fun x => accessOf memState memStrand x n store) (acting memStrand .none) (atIdx (present memStrand) (addresses memStrand 4 0)) [(0, .dev, 0x20000)]
def scratchOk (n : Nat) : Prop :=
  Permitted (fun x => scratchAt memState memStrand x n) (acting memStrand .none) (atIdx (present memStrand) (scratchAddrs memStrand 6 0)) [(0, .scr 1 0, 0x10)]

theorem globalOk_ld : globalOk 16 false := by unfold globalOk Permitted; decide
theorem globalOk_st : globalOk 8 true := by unfold globalOk Permitted; decide
theorem scratchOk_16 : scratchOk 16 := by unfold scratchOk Permitted; decide

theorem witness_Loads : Clear memState memStrand .none [4, 5] [8, 9, 10, 11] false ∧ acting memStrand .none = [0] ∧ presentCount memStrand = 1 ∧ roomFor memState memStrand .l false = true ∧
    globalOk 16 false ∧ Clear memState memStrand .none [6] [8, 9, 10, 11] false ∧ memStrand.team.isSome = true ∧ scratchOk 16 ∧
    Clear memState memStrand (.q false 0) [4, 5] [8] false ∧ acting memStrand (.q false 0) = [] :=
  ⟨memState_clear _ _ _ _ (by decide) (by decide), by decide, by decide, by decide, globalOk_ld, memState_clear _ _ _ _ (by decide) (by decide), by decide, scratchOk_16,
    memState_clear _ _ _ _ (by decide) (by decide), by decide⟩
theorem witness_AcquireAndPrefetch : Clear memState memStrand .none [4, 5] [8] false ∧ acting memStrand .none ≠ [] ∧ roomFor memState memStrand .l false = true ∧
    Permitted (fun x => accessOf memState memStrand x 4 false) [0] (atIdx (present memStrand) (addresses memStrand 4 0)) [(0, .dev, 0x20000)] ∧
    (next (.lda u 8 4 0 false .dev) memState).map (fun t => t.ops.map (fun o => match o.body with | .result _ _ _ _ ls _ _ _ => ls.map (fun x => x.acq) | _ => [])) = some [[some .dev]] ∧
    mustWait memState memStrand [4, 5] false = false ∧ accessOf memState memStrand 0x10000 1 false = .ok .dev 0x20000 ∧
    accessOf (demo [(4, 0x10000)]) (demoStrand [(4, 0x10000)]) 0x10000 1 false = .miss 16 :=
  ⟨memState_clear _ _ _ _ (by decide) (by decide), by decide, by decide, by unfold Permitted; decide, by decide, by decide, by decide, by decide⟩
/-- A core whose buffer holds bytes that the strand has just stored, and that it observes. -/
theorem witness_LoadValue : (bufferOf storing 0).length = 1 ∧ (storing.stores.map (fun e => meets .dev 0x20008 4 e && observes storing 1 0 e.id)) = [true] := by decide
theorem witness_Stores : Clear memState memStrand .none [4, 5, 8, 9] [] false ∧ globalOk 8 true ∧ Clear memState memStrand .none [6, 8, 9, 10, 11] [] false ∧ memStrand.team.isSome = true ∧
    acting memStrand .none ≠ [] ∧ scratchOk 16 ∧ roomFor memState memStrand .s false = true ∧ Clear memState memStrand (.q false 0) [4, 5] [] false ∧ acting memStrand (.q false 0) = [] :=
  ⟨memState_clear _ _ _ _ (by decide) (by decide), globalOk_st, memState_clear _ _ _ _ (by decide) (by decide), by decide, by decide, scratchOk_16, by decide,
    memState_clear _ _ _ _ (by decide) (by decide), by decide⟩
theorem witness_ReleaseAndCompress : Clear memState memStrand .none [4, 5, 8, 9] [] false ∧ globalOk 8 true ∧ mustWait memState memStrand [4, 5, 7, 8, 9] true = false ∧ memStrand.poison = [] ∧
    memStrand.replay = none ∧ acting memStrand .none = [0] ∧ roomFor memState memStrand .s false = true ∧
    writable memState memStrand (guardedWrite memStrand .none 7 1 [0]).regs :=
  ⟨memState_clear _ _ _ _ (by decide) (by decide), globalOk_st, by decide, by decide, by decide, by decide, by decide, .inl (by decide)⟩
theorem witness_AtomicStep : memoriesCanonical memState ∧ (teamOf memState 1 0).isSome = true := ⟨memoriesCanonical_of _ (by decide), by decide⟩
theorem witness_AtomicInstructions : Clear memState memStrand .none [6, 7] [8] false ∧ Clear memState memStrand .none [4, 5, 9, 7] [8] false ∧ Clear memState memStrand .none [8, 9, 4, 5, 10, 7] [] true ∧
    acting memStrand .none = [0] ∧ presentCount memStrand = 1 ∧ roomFor memState memStrand .l true = true ∧
    Permitted (fun x => scratchAt memState memStrand x 4) [0] (atIdx (present memStrand) (scratchAddrs memStrand 6 0)) [(0, .scr 1 0, 0x10)] ∧
    Permitted (atAccess true memState memStrand) [0] (atIdx (present memStrand) (addresses memStrand 4 0)) [(0, .dev, 0x20000)] :=
  ⟨memState_clear _ _ _ _ (by decide) (by decide), memState_clear _ _ _ _ (by decide) (by decide), memState_clear _ _ _ _ (by decide) (by decide), by decide, by decide, by decide,
    by unfold Permitted; decide, by unfold Permitted; decide⟩

/-- A strand of one index, a queue of its context with an entry and room, and handle 0 in v6. -/
theorem witness_Queues : uReg (demoStrand []) 6 = some 0 ∧ (hqOf queued 1 0).map (fun q => (q.k, q.entries.length)) = some (4, 1) ∧
    Collective queued (demoStrand []) .none [6] false true ∧ mustWait queued (demoStrand []) [8] false = false ∧ presentCount (demoStrand []) = 1 ∧
    roomFor queued (demoStrand []) .l false = true ∧ roomFor queued (demoStrand []) .s false = true ∧ (∀ c, stackable (demoStrand []) [c] ∨ oneSheaf (demoStrand [])) :=
  ⟨by decide, by decide, ⟨issuing_of _ _ (by decide), by decide, by decide, by decide, by decide, fun _ => by decide⟩, by decide, by decide, by decide, by decide,
    fun _ => .inr (.inr (by decide))⟩
theorem witness_Fences : Collective wide3 wideStrand .none [] false false := wide3_collective _ _ _ (by decide) (by decide) (by decide)

/-- A record of one element in a ring of one slot, and one of the 64 rows of 48 bytes that MLOOP reads. -/
def ringRec : LayoutBits := BitVec.ofNat 512 (1 * 2 ^ 448 + 1 * 2 ^ 470)
def loopRec : LayoutBits := BitVec.ofNat 512 (2 * 2 ^ 448 + 192 * 2 ^ 470 + 47 * 2 ^ 328 + 63 * 2 ^ 336)
/-- The strand of one index with that record in slot 3 of its team. -/
def withRec (r : LayoutBits) : State := { memState with teams := memState.teams.map (fun t => { t with layout := t.layout.set 3 r }) }

theorem witness_StreamInstructions :
    (let s := withRec ringRec;
      readSlot s memStrand 3 = (ringRec, s) ∧ (pendingSlots s memStrand).contains 3 = false ∧ recordCheck ringRec (scratchOf s memStrand) true true = 0 ∧ advCheck 0x00010004 = 0 ∧
      uSrc memStrand (.lit 0x00010004) = some 0x00010004 ∧ roomFor s memStrand .c true = true ∧ roomFor s memStrand .c false = true ∧ (engineQ (coreOf s memStrand.core) 3).length < 32 ∧
      imageSize ringRec ≤ 524288 ∧ accessOf s memStrand 0x10000 64 false = .ok .dev 0x20000 ∧ accessOf s memStrand 0x10000 64 true = .ok .dev 0x20000 ∧
      roomFor s memStrand .l true = true ∧ roomFor s memStrand .s false = true ∧ s.cur = some memStrand.sid) ∧
    Collective memState memStrand .none [4, 5] true false :=
  ⟨⟨rfl, by decide⟩, ⟨memState_issuing, by decide, by decide, by decide, by decide, fun _ => by decide⟩⟩
theorem witness_RecordsAndWalks : ((0x00010004 : Word) ≠ 0 ∧ advCheck 0x00010004 = 0) ∧
    (let w : Walk := ⟨true, 2, [4, 1, 1, 1, 1], [4, 64, 0, 0, 0], [3, 0, 0, 0, 0], [false, false, false, false, false]⟩;
      w.ext.length = 5 ∧ w.str.length = 5 ∧ w.c.length = 5 ∧ w.bound = true ∧ ∀ k < 5, 1 ≤ nth w.ext k 1 ∧ nth w.ext k 1 < 2 ^ 32 ∧ nth w.c k 0 < nth w.ext k 1) := by decide
theorem witness_MatrixInstructions :
    (let s := withRec loopRec;
      readSlot s memStrand 3 = (loopRec, s) ∧ (pendingSlots s memStrand).contains 3 = false ∧ recordCheck loopRec (scratchOf s memStrand) true false = 0 ∧
      mloopCheck s memStrand 7 2 0 loopRec 1 = 0 ∧ roomFor s memStrand .t true = true ∧ (coreOf s memStrand.core).mq = [] ∧
      (teamOf s 1 0).map (fun t => (t.tiles.length, t.layout.length)) = some (8, 32)) ∧
    Collective memState memStrand .none [] true false ∧ inAcc memState memStrand 7 = true ∧ mwaitOps memState memStrand 7 = [] ∧ mrdCheck memState memStrand 7 = 0 ∧
    mustWait memState memStrand (List.range' 8 16) false = false ∧ (teamOf memState 1 0).map (fun t => t.preempt) = some false :=
  ⟨⟨rfl, by decide⟩, ⟨memState_issuing, by decide, by decide, by decide, by decide, fun _ => by decide⟩, by decide, by decide, by decide, by decide, by decide⟩
theorem witness_SpecialRegisters : Ready wide3 wideStrand .none [] [1] false ∧ wideStrand.team.isSome = true ∧ guardU wideStrand .none = some true ∧
    (∀ vals, writable wide3 wideStrand (columns wideStrand .none 1 1 vals)) ∧ unwatched wide3 wideStrand [1] ∧
    Ready wide3 wideStrand (.q false 1) [] [1] false ∧ guardU wideStrand (.q false 1) = some false :=
  ⟨⟨wide3_issuing, by decide, by decide⟩, rfl, by decide, fun v => wide3_writable _ _ _ v (by decide), unwatched_of _ _ _ (by decide), ⟨wide3_issuing, by decide, by decide⟩, by decide⟩
theorem witness_SoftwareTraps_traps : (Ready wide3 wideStrand (.q false 0) [] [] false ∧ FreshIds wide3 ∧ acting wideStrand (.q false 0) = [0, 2] ∧ present wideStrand = [0, 1, 2]) ∧
    (Ready wide3 wideStrand (.q false 1) [] [] false ∧ acting wideStrand (.q false 1) = []) ∧ FreshIds watched :=
  ⟨⟨⟨wide3_issuing, by decide, by decide⟩, freshIds_of _ (by decide), by decide, by decide⟩, ⟨⟨wide3_issuing, by decide, by decide⟩, by decide⟩, freshIds_of _ (by decide)⟩
theorem witness_SoftwareTraps : (Ready watched (demoStrand []) .none [] [] false ∧ acting (demoStrand []) .none = [0] ∧ attached watched 1 = true) ∧
    (Ready wide3 wideStrand (.q false 1) [] [] false ∧ acting wideStrand (.q false 1) = [] ∧ attached wide3 1 = false) ∧
    Collective watched (demoStrand []) .none [1] true false ∧ unwatched watched (demoStrand []) [1] ∧ (teamOf watched 1 0).map (fun t => t.cmps.length) = some 4 :=
  ⟨⟨⟨issuing_of _ _ (by decide), by decide, by decide⟩, by decide, by decide⟩, ⟨⟨wide3_issuing, by decide, by decide⟩, by decide, by decide⟩,
    ⟨issuing_of _ _ (by decide), by decide, by decide, by decide, by decide, fun _ => by decide⟩, unwatched_of _ _ _ (by decide), by decide⟩
theorem witness_LaunchAndMoult : Collective wide3 wideStrand .none [3] true false ∧ uReg wideStrand 3 = some 0 ∧ roomFor wide3 wideStrand .s true = true ∧ waitcMet wide3 wideStrand 0 0 0 0 = true :=
  ⟨wide3_collective _ _ _ (by decide) (by decide) (by decide), by decide, by decide, by decide⟩

/-! Events: each clause of the statements has its state among the tests above; the conditions that those states meet are listed here. -/

/-- A team whose successor is chosen, with no engine or tile operation left; a strand that waits for a granule; and one that is benched beside a free slot. -/
theorem witness_WaitEvents_more :
    (let s : State := blockedOn (.waitc 0 0 0 0); s.strands.map (fun st => (st.halted, stopped s st)) = [(none, false)]) ∧
    (let s := ((next (.lds u 8 6 0 .b32 .take) (demo [])).getD State.reset); s.strands.map (fun st => stopped s st) = [false]) ∧
    (∀ x ∈ (tryMoult (demo []) 1 0).strands, x.lk = 1 → x.team = some 0 → x.halted = none) ∧ (twoStrands.strands.map (stopped twoStrands) = [false, false]) ∧
    (let s : State := { demo [] with teams := (demo []).teams.map (fun t => { t with moulting := some (placeKernel, 0) }) };
      ((teamOf (tryMoult s 1 0) 1 0).map (fun t => (t.moulting, t.preempt, t.saved))) = some (some (placeKernel, 0), false, false) ∧ teamBusy (tryMoult s 1 0) 1 0 = false) ∧
    (((next (.lds u 8 6 0 .b32 .take) (demo [])).getD State.reset).strands.map (fun st => match st.status with | .blocked (.granule _) => true | _ => false)) = [true] ∧
    (let st : Strand := { demoStrand [] with benched := true }; let s : State := { demo [] with strands := [st] };
      st.status = .ready ∧ canSit s st = true ∧ (∀ x ∈ s.strands, x.benched = true → isUrgent x = false) ∧ seatsFit (updStrand s 2 (fun x => { x with benched := false })) 0 = true ∧
        isUrgent { st with urgent := true } = true) := by decide

theorem witness_WaitEvents :
    (afterLoad.ops.map (fun o => (o.done, match o.body with | .result _ _ _ _ ls am _ _ => (ls.length, am.isNone) | _ => (0, false))) = [(false, 1, true)]) ∧
    (storing.ops.map (fun o => (o.done, match o.body with | .stores l => l.length | _ => 9)) = [(false, 0)]) ∧
    (strandOf (blockedOn (.waitc 0 0 0 0)) 2).any (fun st => waitcMet (blockedOn (.waitc 0 0 0 0)) st 0 0 0 0 && st.halted.isNone) = true ∧
    (strandOf (blockedOn (.mwait 0)) 2).any (fun st => (mwaitOps (blockedOn (.mwait 0)) st 0).isEmpty && st.halted.isNone) = true ∧
    (strandOf (blockedOn .exitWait) 2).any (fun st => waitcMet (blockedOn .exitWait) st 0 0 0 0) = true ∧
    (strandOf (blockedOn (.yieldHold 64)) 2).any (fun st => decide (st.status = .blocked (.yieldHold 64))) = true ∧
    (let s : State := { demo [] with slots := 2048, cores := [{ Core.fresh 0 with parts := ⟨[some ⟨2, 3, 4, none⟩, none]⟩ :: List.replicate 3 Part.fresh }] };
      (strandOf s 2).any (fun st => decide (st.status = .ready) && decide (st.stamp + 2048 ≤ (s.slots : Int))) = true ∧ nth (partOf s 0 0).ports 0 none = some ⟨2, 3, 4, none⟩ ∧ 4 + 128 ≤ s.slots) ∧
    (match strandOf twoStrands 2, strandOf twoStrands 3 with
      | some x, some y => decide (x.first ≤ y.first) && x.lk == y.lk && x.team == y.team && x.mask.isSome && y.mask.isSome && x.first / 64 == y.first / 64 && x.pc == y.pc &&
          x.status == .ready && y.status == .ready && x.halted.isNone && y.halted.isNone && x.undef == y.undef && x.role == y.role && x.replay.isNone && y.replay.isNone &&
          !inRun twoStrands x && !inRun twoStrands y && (outstanding twoStrands x).isEmpty && (outstanding twoStrands y).isEmpty &&
          (match tryMerge (budgetOf twoStrands x) ((x.regs ++ y.regs).foldl (fun acc e => insertNat acc e.1) []) x.undef x y with | .ok _ => true | _ => false)
      | _, _ => false) = true := by decide
/-- A FILL of one element at the head of engine 0; an MLOOP at the head of the matrix unit. -/
def filling : State := (next (.seFill u 3 (.lit 0) 0) (withRec ringRec)).getD State.reset
def looping : State := (next (.mloop u 7 8 (.lit 0) 3 1 false false) { withRec loopRec with strands := [demoStrand [(4, 0x10000), (6, 0x10), (8, 2)]] }).getD State.reset
/-- The same command where its kind, its record, its wait and what it has done are these. -/
def headIs (kind : SeKind) (r : LayoutBits) (waiting : Option (Nat × EngWait)) (prog : Option SeProg) : State :=
  { filling with cores := filling.cores.map (fun c => { c with engines := c.engines.map (fun q => q.map (fun x => { x with kind := kind, record := r, waiting := waiting, prog := prog, key := prog.map (fun _ => (0, true)) })) }) }
/-- That record with full/empty tracking of its granules. -/
def feuRec : LayoutBits := ringRec ||| BitVec.ofNat 512 (2 ^ 490)
/-- A command that has not started, whose granules are not as it needs them. -/
def waits (s : State) (kind : SeKind) (full : Bool) : Bool :=
  match engineQ (coreOf s 0) 0 with
  | [cmd] => decide (cmd.kind = kind) && cmd.waiting.isNone && cmd.prog.isNone && recFeu cmd.record && !allGranules s cmd.lk cmd.team (imageGranules cmd) full
  | _ => false
/-- A command that has started, with an element left to move and none that misses or fails. -/
def moves (s : State) (kind : SeKind) (store : Bool) : Bool :=
  match engineQ (coreOf s 0) 0 with
  | [cmd] => decide (cmd.kind = kind) && cmd.waiting.isNone && cmd.prog.any (fun p => !p.writing && p.left == [0]) && decide (boxCount cmd.record = 1) && !recFeu cmd.record && s.choices == [] &&
      (match (elemOf s 0 cmd store 0).acc with | some (.miss _) => false | some (.bad _) => false | _ => true)
  | _ => false
theorem witness_UnitEvents :
    waits { headIs .fill feuRec none none with teams := filling.teams.map (fun t => { t with full := List.range 16 }) } .fill false = true ∧
    waits (headIs .drain feuRec none none) .drain true = true ∧
    moves (headIs .fill (ringRec ||| 0x10000) none (some ⟨[0], [], false, [], none, []⟩)) .fill false = true ∧ moves (headIs .drain (ringRec ||| 0x10000) none (some ⟨[0], [], false, [], none, []⟩)) .drain true = true ∧
    moves (headIs .fillw (ringRec ||| 0x10000) none (some ⟨[0], [], false, [], none, []⟩)) .fillw false = true ∧
    ((engineQ (coreOf (headIs .fill ringRec (some (5, .service)) none) 0) 0).map (fun c => c.waiting) = [some (5, .service)] ∧ filling.priReqs = []) ∧
    (cleared.cores.map (fun c => (c.num, c.mq.map (fun m => match m with | .mclr .. => true | _ => false))) = [(0, [true])]) ∧
    (readOut.cores.map (fun c => (c.num, c.mq.map (fun m => match m with | .mrd oid .. => (opOf readOut oid).isSome | _ => false))) = [(0, [true])]) ∧
    ((coreOf looping 0).mq.map (fun c => match c with | .mloop _ _ _ _ f .. => !fmtTake f | _ => false)) = [true] ∧
    ([looping, readOut, cleared].map (fun s => (s.sec.boot, s.cores.length)) = [(.full, 1), (.full, 1), (.full, 1)]) := by decide
theorem witness_SchedulerEvents : (dieRuns (demo []) 0 = true) ∧
    (withQueue.userqs.map (fun u => (u.q, u.stopped, u.k, u.tail, u.head)) = [(0, false, 2, 0, 0)] ∧ ((4 : Word).toNat + 2 ^ 32 - 0) % 2 ^ 32 ≤ 2 ^ 2) ∧
    (let u : UserQ := ⟨0, 1, 0x10000, 2, 0x10800, 0, 0, false, 0, 0, [⟨7, 0, 1, 1, 0, 0⟩]⟩; u.waiting.length = 1 ∧ (u.cnext + 2 ^ 32 - u.cdone) % 2 ^ 32 < 2 ^ u.k) ∧
    (withQueue.userqs.map (fun u => u.waiting.length) = [0]) ∧ (let u : UserQ := ⟨0, 1, 0x10000, 2, 0x10800, 0, 0, false, 4, 0, [⟨7, 0, 1, 1, 0, 0⟩]⟩; 2 ^ u.k ≤ (u.cnext + 2 ^ 32 - u.cdone) % 2 ^ 32) ∧
    (launchOf { demo [] with strands := [] } 1).any (fun l => launchEnded { demo [] with strands := [] } l) = true ∧ intakeRoom (demo []) = true ∧
    (bdieOf { demo [] with bdies := [{ BDie.fresh 0 with contq := [⟨1, 5, 0, 0, 0, 9, 0, 0, []⟩] }] } 0).contq.length = 1 ∧ intakeRoom launching = true ∧
    (launching.ops.map (fun o => (o.done, o.body))) = [(false, .launch 0 9 0)] := by decide
/-- A read packet of slice 3 and a write packet, each first for its line; the home atomic and the ATC of a strand, sent to their B-die; and requests that are open. -/
def sending : State := { demo [] with packets := [⟨3, some 5, 0x40000, .rd⟩, ⟨3, some 6, 0x40040, .wr 1⟩] }
def homeAt : State := (next (.atGlobal u 8 4 (.lit 7) .add true) (mapped [])).getD State.reset
def homeAtc : State := (next (.atc u 8 4 (.lit 7) 6) (mapped [])).getD State.reset
def open' : State := { demo [] with
  hostStores := [⟨7, 1, 0, 0x5000, [1], true, false⟩], invals := [⟨0, 1, 0x10000, 0x10FFF, none⟩, ⟨1, 1, 0x10000, 0x10FFF, some 4⟩], atsReqs := [⟨1, 16, 1, [0], [2]⟩], priReqs := [⟨1, 16, false⟩]
  bdies := [{ BDie.fresh 0 with swaps := [⟨5, 2, some 7⟩], remap := [⟨5, 0, true, false, [0, 0, 0]⟩] }] }
theorem witness_MemorySideEvents :
    (0x20000 < Config.deviceBytes ∧ packetOf (demo []) 0 5 0x20000 (fun _ => true) = none ∧ (demo []).packets = [] ∧ (demo []).memPois = []) ∧
    memoriesCanonical (demo []) ∧
    (packetOf sending 3 5 0x40000 (fun k => k == .rd) = some ⟨3, some 5, 0x40000, .rd⟩ ∧ sending.packets.map (servable sending) = [true, true] ∧
      packetOf sending 3 6 0x40040 (fun k => match k with | .wr _ => true | _ => false) = some ⟨3, some 6, 0x40040, .wr 1⟩) ∧
    ([homeAt, homeAtc].map (fun s => s.packets.map (fun p => servable s p && (match p.kind with
      | .atom oid _ => (opOf s oid).any (fun o => match o.body with | .result _ _ _ _ _ (some (_, ts)) _ _ => ts.all (fun x => x.space == .dev && x.addr / 64 == p.pa / 64) | _ => false)
      | _ => false))) = [[true], [true]]) ∧
    ((demo []).sec.boot = .full ∧ (let s : State := { demo [] with sec := { (demo []).sec with boot := .seedling } }; s.sec.boot = .seedling ∧ (remapOf (bdieOf s 0) 5).fast ≠ 2)) ∧
    ((remapOf (bdieOf (demo []) 0) 5).busy = false ∧ (remapOf (bdieOf (demo []) 0) 5).fast = 0 ∧ (remapOf (bdieOf open' 0) 5).busy = true) ∧
    ((bdieOf open' 0).swaps.find? (fun w => w.group == 5) = some ⟨5, 2, some 7⟩ ∧ (bdieOf open' 0).epochEnd ≤ open'.time ∧ ((bdieOf open' 0).remap.map (fun r => r.group)).Nodup) ∧
    (open'.hostStores.find? (fun h => h.id == 7)).isSome = true ∧
    (storing.stores.map (fun e => canDrain storing e) = [true] ∧ storing.hostStores = [] ∧ storing.stores.map (fun e => match e.space with | .scr _ _ => false | _ => true) = [true]) ∧ memoriesCanonical storing ∧
    (walking.walkReqs.map (fun r => (r.die, r.ctx, r.page)) = [(0, 1, 16)] ∧
      (engineWalk { walking with walkReqs := [] } 0 1 (16 * 4096)).1 = .ok ⟨false, 0x20000, 4096, true, true, 0, 1, false⟩ ∧ walking.walkCache = []) ∧
    (open'.invals.find? (fun i => i.die == 0) = some ⟨0, 1, 0x10000, 0x10FFF, none⟩ ∧ open'.invals.find? (fun i => i.die == 1) = some ⟨1, 1, 0x10000, 0x10FFF, some 4⟩) ∧
    open'.atsReqs.find? (fun r => r.ctx == 1 && r.page == 16) = some ⟨1, 16, 1, [0], [2]⟩ ∧ open'.atsInvals.length < 32 ∧ (sentPages open').any (fun r => r.ctx == 1 && r.page == 16) = true :=
  ⟨by decide, memoriesCanonical_of _ (by decide), by decide, by decide, by decide, by decide, by decide, by decide, by decide, memoriesCanonical_of _ (by decide), by decide, by decide, by decide, by decide, by decide⟩
/-- The device whose slice is spent while another context of its partition has a launch to begin; and one whose team's tile and stream work has outlived its pre-emption. -/
def contended : State := { demo [] with time := 2000000, ctxs := [placeCtx, { placeCtx with num := 2 }], launches := [placeLaunch 1 0, { placeLaunch 9 0 with ctx := 2, begun := false }] }
def late : State := { filling with time := 10050000, teams := filling.teams.map (fun t => { t with preempt := true, stopMask := some 255 }) }
def savedState : State := (next (.safeptTimeout 1 0) asked).getD State.reset
/-- The strand of a stop, which a KILL retires and a WRITE writes; and the launch of that stop. -/
theorem witness_StopsAndControl_pieces : (trapped.stops.map (fun x => (piecesOf trapped x).map (fun st => (st.husk.length, wfB st, decide (strandOf trapped st.sid = some st)))) = [[(0, true, true)]]) ∧
    FreshIds trapped ∧ (trapped.stops.map (fun x => (launchOf trapped x.lk).map (fun l => l.status)) = [some 0]) ∧ (let v : DWord := 0x64_0001_0003; v.toNat.testBit 0 = true) :=
  ⟨by decide, freshIds_of _ (by decide), by decide, by decide⟩
theorem witness_StopsAndControl : (trapped.stops.map (fun x => (x.ticket == trapped.selTicket && x.ctx == trapped.selCtx, x.kind, x.attributed, (piecesOf trapped x).map (fun st => st.sid)))) =
      [(true, 10, false, [2])] ∧
    watched.attaches.map (fun a => (a.ctx, a.stopWaiting)) = [(1, [])] ∧ maskOk 0 0x100 = true ∧
    (teamOf (demo []) 1 0).map (fun t => (t.placed, t.ended, t.saved, t.preempt)) = some (true, false, false, false) ∧ 0 ∈ gangTeams (demo []) 1 0 ∧
    (teamOf asked 1 0).map (fun t => (t.saved, t.preempt, t.stopMask, decide (t.reqAt + 50000 ≤ asked.time))) = some (false, true, none, true) ∧
    (let ts := together savedState 1 1 savedState.teams;
      (ts.map (fun t => (t.saved, frozen savedState t.lk)) = [(true, false)] ∧ fitsSeats savedState 1 ts 0 0 = true)) ∧
    (rivals contended placeCtx).map (fun y => y.num) = [2] ∧ overrun late 1 = true := by decide
theorem witness_Calls : (demo []).badAddr = none ∧ serving (demo []) = true ∧ (ctxOf (demo []) 1).map (fun x => (x.valid, taskN x)) = some (true, 256) ∧ (demo []).sec.boot = .full ∧
    memoriesCanonical (demo []) ∧ (ownsQueue withQueue 1 0 = true ∧ (vRead withQueue 1 0x10000 128).1.isSome = true) ∧
    (inMemory (demo []) 1 0x10000 512 = true ∧ inMemory (demo []) 1 0x10800 128 = true ∧ lowest 256 (fun q => !(demo []).userqs.any (fun u => u.q == q)) = some 0) ∧
    (ctxOf queued 1).bind (fun x => lowest 65536 (fun n => !x.hqs.any (fun q => q.num == n))) = some 1 ∧ (ctxOf queued 1).any (fun x => x.hqs.any (fun q => q.num == 0)) = true ∧
    (rangeFree (demo []) placeCtx 0x11000 4096 = true ∧ mapKey (demo []) placeCtx 0 = some 0 ∧ (mapRange placeCtx.root 4096 true false false 0 1 0x11000 (demo [])).isSome = true) ∧
    (unmapRange (bringIn (demo []) 1 0x10000 4096) placeCtx 0x10000 4096).isSome = true ∧
    ((rangeEntries (demo []) placeCtx 0x10000 4096).map (fun es => es.map (fun e => (e.2.2.host, e.2.2.keyid))) = some [(false, 0)] ∧
      (let y : Ctx := { placeCtx with num := 2, root := 0x30000 }; rangeFree { demo [] with ctxs := [placeCtx, y] } y 0x10000 4096 = true)) ∧
    ((demo []).sec.debugWord = 0 ∧ (vRead (demo []) 1 0x10000 keyBytes).1.isSome = true ∧ lowest 1024 (fun k => k != 0 && !(demo []).sec.keys.any (fun r => r.id == k)) = some 1) :=
  ⟨by decide, by decide, by decide, by decide, memoriesCanonical_of _ (by decide), by decide, by decide, by decide, by decide, by decide, by decide, by decide⟩
/-- The token of SHARE names no context where the only one has another number. -/
theorem witness_Calls_share : ctxOf { demo [] with ctxs := [{ placeCtx with num := Config.tokenCtx 0 + 1 }] } (Config.tokenCtx 0) = none := by simp [ctxOf]
theorem witness_PrivilegedCalls : mb.mailbox = true ∧ c1.mailbox = false ∧ (ctxOf (demo []) 1).map (fun x => x.priv) = some false ∧ (vRead (demo []) 1 0x10000 48).1.isSome = true ∧
    (let s : State := { demo [] with strands := [], teams := [] };
      anyResident (demo []) (List.range Config.dies) = true ∧ anyResident s (List.range Config.dies) = false ∧ dramIdle s = true ∧
      dramIdle { s with packets := [⟨3, some 5, 0x40000, .rd⟩] } = false ∧ (vRead s 1 0x10000 48).1.isSome = true) ∧
    (mapOf 0).isSome = true ∧ (mapOf 0).any (l2Ready { demo [] with strands := [], teams := [] }) = true ∧ (mapOf 256).any (fun m => !l2Ready { demo [] with l2 := ⟨true, [0, 0, 0, 0]⟩ } m) = true ∧
    ((demo []).launches.find? (fun l => l.ctx == 1 && l.id == 1 && !l.complete && !l.killed)).map (fun l => l.moving) = some none ∧ (demo []).pendingCalls = [] ∧ (demo []).windows = [] ∧
    (List.range 6).map (fun k => maskOk k (2 ^ (8 + k))) = [true, true, true, true, true, true] := by decide
theorem witness_ObservationAndRemote : (ctxOf watched 1).map (fun x => (x.valid, x.gobs, x.gprof)) = some (true, true, true) ∧ ringOk (some 8) = true ∧ (attachOf watched 1).isSome = true ∧
    attachOf { watched with attaches := [] } 1 = none ∧ (haltedAt haltedState 1 1).map (fun st => st.sid) = [2] ∧ recorded haltedState 1 1 = true ∧ (launchNamed watched 1 1).isSome = true ∧ watched.dumps = [] ∧
    (sampled watched 1 0 0).map (fun st => st.sid) = some 2 ∧
    (windowFor (withPages windowed 1 0x10000 1) 1 0x10000 1 true).map (fun w => w.rkey) = some 1 ∧ windowFor (withPages windowed 1 0x10FFF 2) 1 0x10FFF 2 true = none ∧
    (windowFor (withPages windowed 1 0x10000 1) 1 0x10000 1 false).map (fun w => (vRead windowed w.ctx 0x10000 1).1.isSome) = some true ∧
    (hqOf windowed 1 0).map (fun q => decide (q.entries.length < 2 ^ q.k)) = some true := by decide
theorem witness_ErrorsAndContexts : (demo []).badAddr = none ∧ (ctxOf (demo []) 1).map (fun x => x.valid) = some true ∧ ctxOf (demo []) 2 = none := by decide
theorem witness_SecurityAndPower : (demo []).badAddr = none ∧ engineRuns (demo []) = true ∧ serving (demo []) = true ∧ talking.sec.versioned = true ∧ talking.sec.negotiated = true ∧
    admitted (.doe none) false (demo []) = true ∧ 1000 < nth ceilings 0 0 := by decide

/-! Further clauses of the statements: the states that meet their hypotheses. -/

/-- A CALL on a full stack and a RET on an empty one that no index takes. -/
theorem witness_Transfers_none : Free (withStrand (caller 8)) (caller 8) (.q false 1) ∧ (∀ b ∈ guardFlags (caller 8) (.q false 1), b = false) ∧
    Free (withStrand (caller 0)) (caller 0) (.q false 1) ∧ (∀ b ∈ guardFlags (caller 0) (.q false 1), b = false) :=
  ⟨⟨caller_issuing 8, by decide⟩, by decide, ⟨caller_issuing 0, by decide⟩, by decide⟩

/-- Strands of 128 indices whose v2 is affine: one that is not placed, and one of a team. -/
def unplaced : Strand := { wideStrand with count := 128, mask := none, team := none, regs := [(2, .a 0x10 4)], qs := List.replicate 8 (.u false) }
def placedWide : Strand := { unplaced with team := some 0 }
theorem witness_BranchIndirect_windows :
    (Ready (withStrand unplaced) unplaced .none [.v 2 1] [] false ∧ unplaced.mask = none ∧ unplaced.team = none ∧ valueAt unplaced 2 0 = some 0x10 ∧ valueAt unplaced 2 1 = some 0x14) ∧
    Ready (withStrand placedWide) placedWide .none [.v 2 1] [] false ∧ placedWide.team.isSome = true ∧ acting placedWide .none = present placedWide ∧
      (∀ i ∈ acting placedWide .none, ((placedWide.pc + ((valueAt placedWide 2 i).getD 0).signExtend 64).toNat % 4 = 0)) :=
  ⟨⟨⟨issuing_of _ _ (by decide), by decide, by decide⟩, rfl, rfl, by decide, by decide⟩, ⟨issuing_of _ _ (by decide), by decide, by decide⟩, rfl, by decide, by decide⟩

/-- A store with a release, and the load of the same index that reads it. -/
def released : State := (next (.stl u 4 (.reg 6) 0 false .dev) memState).getD State.reset
theorem witness_AcquireAndPrefetch_reads :
    (let r := performLoad released 1 0 [0] .dev 0x20000 4;
      r.1.from_.map (fun id => ((r.2.stores.find? (fun e => e.id == id)).bind (fun w => w.rel)).map (fun rec => (inScope rec.scope 1 0, rec.scope.scope))) = [some (true, .dev)]) := by decide

/-- A CST that is replayed after one element. -/
def replayed : Strand := { memStrand with replay := some (1, 3, 0x10000), qs := .u true :: List.replicate 7 (.u false) }
theorem witness_ReleaseAndCompress_replay : (let s : State := { memState with strands := [replayed] };
    replayed.replay = some (1, 3, 0x10000) ∧ acting replayed .none = [0] ∧ roomFor s replayed .s false = true ∧ mustWait s replayed [4, 5, 7, 8, 9] true = false ∧
    Permitted (fun x => accessOf s replayed x 8 true) [0] (fun _ => wrapTo 64 ((0x10000 : Int) + 8 * (1 + 0 : Nat))) [(0, .dev, 0x20008)]) := by
  refine ⟨rfl, by decide, by decide, by decide, ?_⟩
  unfold Permitted; decide

/-- SREAD by a strand that is not placed; and the launch and team of the strand of three indices, whose latch is empty. -/
theorem witness_SpecialRegisters_more :
    (Ready (withStrand unplaced) unplaced .none [] [1] false ∧ unplaced.team = none ∧ guardU unplaced .none ≠ some false) ∧ wideStrand.latch = none ∧
    (launchOf wide3 1).map (fun l => (decide (0 < l.kernel.tsize), l.grid)) = some (true, 3) ∧ (wideStrand.team.bind (teamOf wide3 1)).isSome = true ∧ wideStrand.first < 3 :=
  ⟨⟨⟨issuing_of _ _ (by decide), by decide, by decide⟩, rfl, by decide⟩, rfl, by decide, by decide, by decide⟩

/-- A task whose kernel has 64 indices in the role GN, 4096 bytes of scratch and no table; and the strand of one index at MOULT with that task, or with one that holds no kernel. -/
def withTask : State :=
  let s := demo []
  let desc := toBytes 64 (1 + 2 ^ 16 + 2 ^ 24 + 64 * 2 ^ 32 + 4096 * 2 ^ 64 + 0x10000 * 2 ^ 192 + (3 + 64 * 2 ^ 8 + 2 ^ 24) * 2 ^ 320)
  { s with mem := memPuts (memPuts s.mem (0x18000 + 128 * 5) (toBytes 128 (2 ^ 24 + 0x10040 * 2 ^ 64))) 0x20040 desc }
def arriving (a : Word) (n : Nat) : State :=
  { withTask with strands := (List.range n).map (fun k => { demoStrand [] with sid := 2 + k, first := k, mask := some (2 ^ k), status := .blocked (.moult (a + BitVec.ofNat 32 k) 0 8) })
                  launches := withTask.launches.map (fun l => { l with grid := n }) }
theorem witness_LaunchAndMoult_arrivals :
    (teamOf (arriving 5 1) 1 0).map (fun t => (t.moulting, t.preempt, t.saved)) = some (none, false, false) ∧
    (atMoult (arriving 5 1) 1 0).map (fun e => (e.2.1, e.2.2.1)) = [(5, 0)] ∧ allAtMoult (arriving 5 1) 1 0 = true ∧
    (match (checkShape (arriving 5 1) 1 0 5 0).1 with | .inr k => k.tsize | .inl _ => 0) = 64 ∧
    (match (checkShape (arriving 6 1) 1 0 6 0).1 with | .inl n => n | .inr _ => 0) = 1 ∧
    (allAtMoult (arriving 5 2) 1 0 = true ∧ (atMoult (arriving 5 2) 1 0).map (fun e => e.2.1) = [5, 6]) ∧ allAtMoult withTask 1 0 = false := by decide

/-- An operation with settings left; a strand whose team is stopped, and one whose team is not; a run whose next instruction has waited for 32 cycles; and a successor of its
team's size, with a role whose one index is held by one strand. -/
theorem witness_WaitEvents_clauses :
    (let o : Op := { afterLoad.ops.headD ⟨9, .l, 0, 1, some 0, 0, 0, [0], .stores [], false, [], [], []⟩ with body := .stores [], sets := [⟨[0], 0, 1⟩] };
      (opOf { demo [] with ops := [o] } o.oid).map (fun x => (x.done, x.sets.length)) = some (false, 1)) ∧
    (stopped (demo []) (demoStrand []) = false ∧ stopped { demo [] with teams := (demo []).teams.map (fun t => { t with stopMask := some 255 }) } (demoStrand []) = true) ∧
    (let s : State := { demo [] with slots := 90, cores := [{ Core.fresh 0 with parts := ⟨[some ⟨2, 3, 4, some 20⟩, none]⟩ :: List.replicate 3 Part.fresh }] };
      nth (partOf s 0 0).ports 0 none = some ⟨2, 3, 4, some 20⟩ ∧ 20 + 64 ≤ s.slots) ∧
    (let s := demo [(3, 7)]; placeKernel.tsize = (((teamOf s 1 0).map (fun t => t.kernel.tsize)).getD 0) ∧ tsizeOf s 1 = placeKernel.tsize ∧ teamCount s 1 0 = 1 ∧
      placeKernel.roles.map (fun r => (r.firstw, r.countw)) = [(0, 1)] ∧ s.strands.map (fun o => (o.lk, o.team, o.husk, present o)) = [(1, some 0, [], [0])]) := by decide

/-- The head of engine 0 with one element left to move: a FILL, a FILLW and a DRAIN that writes, whose element lies at 0x20000; and a DRAIN with two elements to read. -/
def oneLeft : SeProg := ⟨[0], [(0, [9], false)], false, [], none, []⟩
def pairRec : LayoutBits := ringRec ||| BitVec.ofNat 512 (1 * 2 ^ 328)
theorem witness_UnitEvents_elements :
    (let s := headIs .fill (ringRec ||| 0x10000) none (some oneLeft);
      (engineQ (coreOf s 0) 0).map (fun c => (c.prog, (elemOf s 0 c false 0).acc, recEsz c.record, boxCount c.record)) = [(some oneLeft, some (.ok .dev 0x20000 0), 1, 1)] ∧
      homePoison s .dev 0x20000 1 = false ∧ s.choices = [] ∧ (teamOf s 1 0).isSome = true) ∧
    (let s := headIs .drain (ringRec ||| 0x10000) none (some { oneLeft with writing := true });
      (engineQ (coreOf s 0) 0).map (fun c => (alookup oneLeft.image 0, (elemOf s 0 c true 0).acc)) = [(some ([9], false), some (.ok .dev 0x20000 0))]) ∧
    (let s := { headIs .drain (pairRec ||| 0x10000) none (some { oneLeft with left := [0, 1], image := [] }) with choices := [1] };
      (engineQ (coreOf s 0) 0).map (fun c => boxCount c.record) = [2] ∧ bufferOf s 0 = []) := by
  refine ⟨by decide, by decide, by decide⟩
theorem witness_UnitEvents_canonical : memoriesCanonical (headIs .fill (ringRec ||| 0x10000) none (some oneLeft)) ∧ memoriesCanonical readOut :=
  ⟨memoriesCanonical_of _ (by decide), memoriesCanonical_of _ (by decide)⟩

/-- MLOOPs at the head of the matrix unit whose operands are all observed, of integers, and of a tapered format over a tile that holds NaR at its first element. -/
def loopingQ : State := { (next (.mloop u 6 8 (.lit 0) 3 1 false false) { withRec loopRec with strands := [demoStrand [(4, 0x10000), (6, 0x10)]] }).getD State.reset with choices := [] }
def firstPairs (s : State) : List (MxRead × MxRead) :=
  match (coreOf s 0).mq with
  | .mloop _ lk team _ f w r _ k seen _ :: _ => (List.range k).flatMap (fun j => (List.range (inK (fmtIn f))).map (fun i =>
      (readA s lk team seen (fmtIn f) (ringStart r (recRnext r) + (j * inK (fmtIn f) + i) * inSize (fmtIn f)), readB (coreOf s 0) seen f w j i 0)))
  | _ => []
def headTile (s : State) : Nat × Nat × Bool :=
  match (coreOf s 0).mq with
  | [.mloop _ _ _ m f _ _ _ _ _ c] => (m, fmtIn f, c)
  | _ => (0, 7, true)
theorem witness_UnitEvents_products :
    ((firstPairs looping).map (fun p => (p.1.seen, p.2.seen)) = List.replicate 48 (true, true) ∧ (firstPairs looping).map (fun p => p.1.val) = List.replicate 48 (some 0) ∧
      (firstPairs looping).map (fun p => p.2.val) = List.replicate 48 (some 0)) ∧
    ((firstPairs loopingQ).map (fun p => (p.1.seen, p.2.seen)) = List.replicate 48 (true, true) ∧ (firstPairs loopingQ).map (fun p => p.1.val) = List.replicate 48 (some 0) ∧
      (firstPairs loopingQ).map (fun p => p.2.val) = List.replicate 48 (some 0)) ∧
    (teamOf looping 1 0).map (fun t => (t.tiles.length, undefElems (tileOf t 7))) = some (8, []) ∧ (teamOf loopingQ 1 0).map (fun t => (t.tiles.length, undefElems (tileOf t 6))) = some (8, []) ∧
    headTile looping = (7, 2, false) ∧ headTile loopingQ = (6, 0, false) := by
  refine ⟨⟨?_, ?_, ?_⟩, ⟨?_, ?_, ?_⟩, ?_, ?_, ?_, ?_⟩ <;> decide

/-- A completion record whose ring slot is mapped. -/
theorem witness_SchedulerEvents_record :
    (let s : State := { withQueue with userqs := [⟨0, 1, 0x10000, 2, 0x10800, 0, 0, false, 0, 0, [⟨7, 0, 1, 1, 0, 0⟩]⟩] };
      let b := bringIn s 1 0x10800 32; vTrans b 1 0x10800 = some (.dev, 0x20800, true) ∧ 0x10800 % 32 = 0) := by decide
theorem witness_SchedulerEvents_canonical : memoriesCanonical (bringIn withQueue 1 0x10800 32) := memoriesCanonical_of _ (by decide)

/-- Two stores of one host agent, and one of another. -/
theorem witness_MemorySideEvents_agents :
    (let s : State := { demo [] with hostStores := [⟨7, 1, 0, 0x5000, [1], false, false⟩, ⟨8, 1, 0, 0x5001, [2], true, false⟩, ⟨9, 1, 1, 0x5002, [3], false, false⟩] };
      s.hostStores.map (fun h => (s.hostStores.find? (fun x => x.ctx == h.ctx && x.agent == h.agent)).map (fun x => x.id)) = [some 7, some 7, some 9]) := by decide

/-- A stop of a team that is saved; a saved team whose record is whole, and one whose record is lost; and a context that is held while nothing of its partition has the turn. -/
def savedStop : State := { trapped with teams := trapped.teams.map (fun t => { t with saved := true }) }
def lostRecord : State := { savedState with teams := savedState.teams.map (fun t => { t with recordLost := true }) }
def waitingTurn : State := { demo [] with strands := [], ctxs := [{ placeCtx with held := true }], launches := [{ placeLaunch 9 0 with begun := false }] }
theorem witness_StopsAndControl_more :
    (savedStop.stops.map (fun x => (x.ticket == savedStop.selTicket && x.ctx == savedStop.selCtx && selectable x, (piecesOf savedStop x).map (fun st => (st.team, (teamOf savedStop st.lk 0).map (fun t => t.saved))))) =
      [(true, [(some 0, some true)])]) ∧
    ((together savedState 1 1 savedState.teams).map (fun t => (loadRecord savedState t).isSome) = [true]) ∧
    ((together lostRecord 1 1 lostRecord.teams).map (fun t => ((loadRecord lostRecord t).isNone, t.saved, frozen lostRecord t.lk)) = [(true, true, false)]) ∧
    fitsSeats lostRecord 1 (together lostRecord 1 1 lostRecord.teams) 0 0 = true ∧
    (nextTurn waitingTurn 0).any (fun y => y.num == 1) = true ∧ (ctxOf waitingTurn 1).map (fun x => (x.held, x.part)) = some (true, 0) := by decide

/-- A launch on its way to another device, and a context with a window. -/
theorem witness_PrivilegedCalls_moving :
    (let s : State := { demo [] with launches := [{ placeLaunch 1 0 with moving := some 3 }] };
      (s.launches.find? (fun l => l.ctx == 1 && l.id == 1 && !l.complete && !l.killed)).map (fun l => l.moving.isSome) = some true) ∧
    (∃ w ∈ windowed.windows, w.ctx = 1) := by
  refine ⟨by decide, ⟨_, List.mem_singleton.mpr rfl, rfl⟩⟩

/-- Two attachments, of which one is due to sample. -/
def twoAttached : State := { watched with attaches := watched.attaches.map (fun a => { a with due := [(0, 0), (1, 3)] }) ++ [⟨2, [], 0, 0, [], 1, [], some 8, [], 0, none, [], 0, 1024, []⟩] }

/-- A sample that is due; a strand halted by a stop whose record is written, and by one whose record waits; and a device without attachments that does not serve. -/
def dueState : State := { watched with attaches := watched.attaches.map (fun a => { a with sampleK := some 8, due := [(0, 0)] }) }
theorem witness_ObservationAndRemote_targets :
    ((vRead watched 1 0x10000 4).1.isSome = true ∧ (watched.launches.find? (fun l => l.ctx == 1 && l.id == 1)).isSome = true ∧ vTrans (bringIn watched 1 0x10000 4) 1 0x10000 = some (.dev, 0x20000, true)) ∧
    memoriesCanonical (bringIn watched 1 0x10000 4) ∧
    ((dueState.attaches.map (fun a => a.ctx)).Nodup ∧ (twoAttached.attaches.map (fun a => a.ctx)).Nodup ∧ (twoAttached.attaches.map (fun a => a.due.contains (0, 0))) = [true, false] ∧
      ∀ a ∈ twoAttached.attaches, (7, 1) ∉ a.due) :=
  ⟨by decide, memoriesCanonical_of _ (by decide), by decide⟩
theorem witness_ObservationAndRemote_more :
    (dueState.attaches.map (fun a => (a.ctx, a.due, a.sampleK)) = [(1, [(0, 0)], some 8)] ∧ (sampled dueState 1 0 0).isSome = true) ∧
    (haltedState.dumps = [] ∧ (haltedAt haltedState 1 1).map (fun st => strandOf haltedState st.sid == some st && st.status == .ready) = [true]) ∧
    (let s : State := { haltedState with attaches := haltedState.attaches.map (fun a => { a with stopWaiting := [2 ^ 64] }) }; recorded s 1 1 = false) ∧
    (attachOf (demo []) 1 = none ∧ (demo []).sec.debugWord = 0 ∧ serving State.reset = false ∧ serving (demo []) = true) ∧
    (let m := draw windowed; poisonedRange (withPages m 1 0x10000 1) 1 0x10000 1 = false ∧ (vRead (withPages m 1 0x10000 1) 1 0x10000 1).1.isSome = true) ∧
    (hqOf { windowed with ctxs := windowed.ctxs.map (fun c => { c with hqs := c.hqs.map (fun q => { q with k := 0 }) }) } 1 0).map (fun q => decide (2 ^ q.k ≤ q.entries.length)) = some true := by decide

/-- A bundle of one ELF file with no segment, which is loaded; and one whose member is no such file. -/
def elfFile : List Byte := toBytes 64 (0x00010102464C457F + 2 * 2 ^ 128 + 243 * 2 ^ 144)
def bundle (elf : List Byte) : List Byte := toBytes 64 (0x4C44424E + 1 * 2 ^ 32 + 1 * 2 ^ 48 + 64 * 2 ^ 64) ++ toBytes 32 (1 + 96 * 2 ^ 64 + 64 * 2 ^ 128) ++ elf
theorem test_bundleLoad_loads : (next (.bundleLoad 2 5 (bundle elfFile)) (demo [])).map (fun t => (t.out, t.ctxs.map (fun c => (c.num, c.valid)))) =
    some ([.text "bundle loaded" [2]], [(1, true), (2, true)]) := by decide
theorem test_bundleLoad_bad_member : (next (.bundleLoad 2 5 (bundle (toBytes 64 7))) (demo [])).map (fun t => (t.out, t.ctxs.length)) = some ([.text "bundle refused" [2]], 1) := by decide
theorem witness_ErrorsAndContexts_bundle :
    (let f := bundle elfFile; at' f 0 4 = 0x4C44424E ∧ at' f 4 2 = 1 ∧ at' f 6 2 = 1 ∧ at' f 16 48 = 0 ∧ at' f 8 8 + 32 ≤ f.length ∧ at' f 64 1 = 1 ∧ at' f 65 7 = 0 ∧ at' f 88 8 = 0 ∧
      at' f 72 8 + at' f 80 8 ≤ f.length ∧ elfOk (cut f (at' f 72 8) (at' f 80 8)) 243 = true ∧
      (newContext (demo []) 2 5 [(1, elfFile)]).any (fun s1 => (ctxOf s1 2).any (fun x => x.valid && x.pasid == 5)) = true) ∧
    present (demoStrand []) = [0] ∧ (∀ xs, vform (demoStrand []) 3 ≠ .x xs) ∧ serving (demo []) = true ∧ ctxOf (demo []) 2 = none := by
  refine ⟨by decide, by decide, ?_, by decide, by decide⟩
  intro xs h
  have : vform (demoStrand []) 3 = .u 0 := by decide
  rw [this] at h; exact VForm.noConfusion h

/-- An open session and its port; a port whose session is done with, which is not admitted; teams of a context with a key, whose save is pending; and the boots that wait. -/
def session : State := { talking with sec := { talking.sec with sessions := [⟨5, 0, [], 0, false⟩] } }
theorem witness_SecurityAndPower_tokens : (List.replicate 2860 (0 : Byte)).length = 2860 ∧ engineRuns (demo []) = true ∧
    (portSession (.doe (some 5)) = some 5 ∧ (sessionOf session 5).isSome = true ∧ portSession (.doe none) ≠ some 5) :=
  ⟨List.length_replicate, by decide, by decide⟩
theorem witness_SecurityAndPower_more :
    (sessionOf session 5).map (fun x => x.done) = some false ∧ admitted (.doe (some 5)) true session = true ∧ admitted (.doe (some 5)) false session = false ∧ session.sec.negotiated = true ∧
    sessionOf talking 5 = none ∧ (List.replicate 96 (1 : Byte)).length = 96 ∧
    (let s : State := { asked with sec := { asked.sec with keys := [⟨1, 1, []⟩] } }; keyedSaves s = true ∧ keyedSaves { s with teams := [] } = false) ∧
    (let s : State := { demo [] with sec := { (demo []).sec with boot := .awaiting } }; s.badAddr = none ∧ engineRuns s = true) := by decide

/-! Faults of accesses, cuts, form-only traps, poison and comparators. -/

/-- Three indices of which one has an address that is not aligned, and one a scratch offset that is not; the page is mapped. -/
def mixedStrand : Strand := { wideStrand with regs := [(4, .x [0x10000, 0x10001, 0x10008]), (6, .x [0x10, 0x20, 0x31])] }
def mixedState : State := { (mapped []) with cur := some 2, strands := [mixedStrand], launches := (mapped []).launches.map (fun l => { l with grid := 3 }) }
theorem mixed_issuing : Issuing mixedState mixedStrand := issuing_of _ _ (by decide)
/-- Kind and cause of what each access raises, where it raises a fault. -/
def faultsOf (f : Nat → AccRes) : List (Option (Nat × Nat)) := [0, 1, 2].map (fun j => match f j with | .fault k c _ => some (k, c) | _ => none)
def served (f : Nat → AccRes) : List Bool := [0, 1, 2].map (fun j => match f j with | .ok _ _ => true | _ => false)
/-- The conditions of `FaultsPark`: some acting index faults, every one that does has the same kind and cause, and the others are permitted. -/
def mixes (f : Nat → AccRes) (bad : Nat) : Bool :=
  served f == ([0, 1, 2].map (fun j => j != bad)) && (faultsOf f).eraseDups.length == 2 && acting mixedStrand .none == [0, 1, 2]
theorem witness_Loads_faults :
    Clear mixedState mixedStrand .none [4, 5] [8, 9] false ∧ Clear mixedState mixedStrand .none [6] [8] false ∧ 8 + 2 ≤ budgetOf mixedState mixedStrand ∧ roomFor mixedState mixedStrand .l false = true ∧
    FreshIds mixedState ∧ (∀ o ∈ mixedState.ops, o.oid < mixedState.nextId) ∧ mixedStrand.team.isSome = true ∧
    mixes (fun i => accessOf mixedState mixedStrand (atIdx (present mixedStrand) (addresses mixedStrand 4 0) i) 8 false) 1 = true ∧
    mixes (fun i => scratchAt mixedState mixedStrand (atIdx (present mixedStrand) (scratchAddrs mixedStrand 6 0) i) 4) 2 = true :=
  ⟨⟨mixed_issuing, by decide, by decide⟩, ⟨mixed_issuing, by decide, by decide⟩, by decide, by decide, freshIds_of _ (by decide), by decide, by decide, by decide, by decide⟩
theorem witness_Stores_faults :
    Clear mixedState mixedStrand .none [4, 5, 8, 9] [] false ∧ Clear mixedState mixedStrand .none [6, 8] [] false ∧ roomFor mixedState mixedStrand .s false = true ∧
    mixes (fun i => accessOf mixedState mixedStrand (atIdx (present mixedStrand) (addresses mixedStrand 4 0) i) 8 true) 1 = true :=
  ⟨⟨mixed_issuing, by decide, by decide⟩, ⟨mixed_issuing, by decide, by decide⟩, by decide, by decide⟩
theorem witness_AtomicInstructions_faults :
    Clear mixedState mixedStrand .none [6, 7] [8] false ∧ Clear mixedState mixedStrand .none [4, 5, 7] [8] false ∧ Clear mixedState mixedStrand .none [4, 5, 9, 7] [8] false ∧
    mixes (fun i => scratchAt mixedState mixedStrand (atIdx (present mixedStrand) (scratchAddrs mixedStrand 6 0) i) 4) 2 = true ∧
    mixes (fun i => atAccess true mixedState mixedStrand (atIdx (present mixedStrand) (addresses mixedStrand 4 0) i)) 1 = true :=
  ⟨⟨mixed_issuing, by decide, by decide⟩, ⟨mixed_issuing, by decide, by decide⟩, ⟨mixed_issuing, by decide, by decide⟩, by decide, by decide⟩

/-- The number that MUL gives, of values that are in X; and a strand whose v2 is poisoned at index 1. -/
def square (x : List Nat) : Nat := (BitVec.ofNat 32 (arg x 0) * BitVec.ofNat 32 (arg x 1)).toNat
def squares (st : Strand) (d : Nat) : List (Nat × List Word) := columns st .none d 1 ((operandRows st [.v 2 1, .v 2 1]).map square)
def rotten : Strand := { brancher (.x [0x10, 0x20, 0x10]) with poison := [(2, 1)] }
theorem witness_SelectAndMoves_cuts :
    (let st := brancher (.x [0x10, 0x20, 0x10]); let s := withStrand st;
      mustWait s st [2, 2, 200] false = false ∧ consumed st .none [2, 2] = [] ∧ ((squares st 200).map (fun c => (isXV (classifyV (present st) c.2), decide (budgetOf s st ≤ c.1))) = [(true, true)])) ∧
    Issuing (withStrand (brancher (.x [0x10, 0x20, 0x10]))) (brancher (.x [0x10, 0x20, 0x10])) ∧ oneSheaf (brancher (.x [0x10, 0x20, 0x10])) ∧
    (Ready (withStrand unplaced) unplaced .none [.v 2 1, .v 2 1] [1] false ∧ unplaced.mask = none ∧ unplaced.team = none ∧ ((squares unplaced 1).map (fun c => isXV (classifyV (present unplaced) c.2)) = [true])) ∧
    (Ready (withStrand placedWide) placedWide .none [.v 2 1, .v 2 1] [1] false ∧ FreshIds (withStrand placedWide) ∧ placedWide.mask = none ∧ placedWide.team.isSome = true ∧
      oneWindow (present placedWide) = false ∧ 1 + 1 ≤ budgetOf (withStrand placedWide) placedWide ∧ unwatched (withStrand placedWide) placedWide [1] ∧
      ((squares placedWide 1).map (fun c => isXV (classifyV (present placedWide) c.2)) = [true])) ∧
    (Issuing (withStrand rotten) rotten ∧ FreshIds (withStrand rotten) ∧ mustWait (withStrand rotten) rotten [2, 2, 1] false = false ∧ consumed rotten .none [2, 2] = [1] ∧
      rotten.mask.isSome = true ∧ rotten.team.isSome = true ∧ unwatched (withStrand rotten) rotten [1]) :=
  ⟨by decide, issuing_of _ _ (by decide), .inl rfl, ⟨⟨issuing_of _ _ (by decide), by decide, by decide⟩, rfl, rfl, by decide⟩,
    ⟨⟨issuing_of _ _ (by decide), by decide, by decide⟩, freshIds_of _ (by decide), rfl, rfl, by decide, by decide, unwatched_of _ _ _ (by decide), by decide⟩,
    issuing_of _ _ (by decide), freshIds_of _ (by decide), by decide, by decide, rfl, rfl, unwatched_of _ _ _ (by decide)⟩

/-- A comparator of the team that looks for 4 in v3, under a debugger; and MOVK v3, 4. -/
def armed : State := { watched with teams := watched.teams.map (fun t => { t with cmps := t.cmps.set 1 ⟨true, 0, false, 3, 4⟩ }) }
theorem witness_SelectAndMoves_comparator :
    Ready armed (demoStrand []) .none [] [3] false ∧ columns (demoStrand []) .none 3 1 [4] = [(3, [4])] ∧ (classifyV (present (demoStrand [])) [4] = .u 4) ∧
    acting (demoStrand []) .none ≠ [] ∧ (demoStrand []).halted = none ∧ (armed.attaches.find? (fun a => a.ctx == ctxOfLaunch armed 1)).map (fun a => (stopRoom a, a.stopWaiting.length)) = some (true, 0) ∧
    ((teamOf armed 1 0).map (fun t => (t.cmps.map (fun c => c.armed), t.cmps[1]?)) = some ([false, true, false, false], some ⟨true, 0, false, 3, 4⟩)) ∧
    Matches ⟨true, 0, false, 3, 4⟩ [(3, [4])] ∧ pcAfter (.movkFull u 3 4) armed = some 0x10008 ∧ ((next (.movkFull u 3 4) armed).map (fun t => t.strands.map (fun st => st.halted)) = some [some 1]) :=
  ⟨⟨issuing_of _ _ (by decide), by decide, by decide⟩, by decide, by decide, by decide, by decide, by decide, by decide, ⟨rfl, (3, [4]), .head _, rfl, 4, .head _, rfl⟩, by decide, by decide⟩

end Sys2Proof.Tests
end

section
/-! PROOFS. The whole machine: what reset leaves (O1), and that every step keeps every memory in canonical form (O2). A step is an instruction or an event
(`exec`) between moves of the issue ports and of time, so the lemmas of Laws/Canonical.lean and Laws/CanonExec.lean compose along `step`. -/

namespace Sys2Proof.Machine

/-! ### Every memory stays in canonical form (R2, R14, R16) -/

/-- The dispatch keeps every memory in canonical form, since each of its meanings does. -/
theorem canon_exec (i : Instr) (s : State) (hc : memoriesCanonical s) : keepsCanon (exec i s) := by
  cases i with
  -- Integer arithmetic, immediates and moves (R121)
  | add h d a b => exact canon_execAdd h d a b s hc
  | addFull h d a b t sat => exact canon_execAddFull h d a b t sat s hc
  | sub h d a b => exact canon_execSub h d a b s hc
  | subFull h d a b t sat => exact canon_execSubFull h d a b t sat s hc
  | mul h d a b => exact canon_execMul h d a b s hc
  | mulFull h d a b t sat => exact canon_execMulFull h d a b t sat s hc
  | mulh h d a b => exact canon_execMulh h d a b s hc
  | mulhFull h d a b uns => exact canon_execMulhFull h d a b uns s hc
  | mad h d a b => exact canon_execMad h d a b s hc
  | madFull h d a b c t => exact canon_execMadFull h d a b c t s hc
  | neg h d a => exact canon_execNeg h d a s hc
  | negFull h d a t sat => exact canon_execNegFull h d a t sat s hc
  | abs h d a => exact canon_execAbs h d a s hc
  | absFull h d a t sat => exact canon_execAbsFull h d a t sat s hc
  | min h d a b => exact canon_execMin h d a b s hc
  | minFull h d a b t => exact canon_execMinFull h d a b t s hc
  | max h d a b => exact canon_execMax h d a b s hc
  | maxFull h d a b t => exact canon_execMaxFull h d a b t s hc
  | div h d a b => exact canon_execDiv h d a b s hc
  | divFull h d a b t sat => exact canon_execDivFull h d a b t sat s hc
  | rem h d a b => exact canon_execRem h d a b s hc
  | remFull h d a b t sat => exact canon_execRemFull h d a b t sat s hc
  | addk h d a k => exact canon_execAddk h d a k s hc
  | addkFull h d a k t sat => exact canon_execAddkFull h d a k t sat s hc
  | shlk h d a k => exact canon_execShlk h d a k s hc
  | shlkFull h d a k t => exact canon_execShlkFull h d a k t s hc
  | shrk h d a k => exact canon_execShrk h d a k s hc
  | shrkFull h d a k t => exact canon_execShrkFull h d a k t s hc
  | sark h d a k => exact canon_execSark h d a k s hc
  | sarkFull h d a k t => exact canon_execSarkFull h d a k t s hc
  -- Logic, shifts and bit fields (R124)
  | and h d a b => exact canon_execAnd h d a b s hc
  | andFull h d a b => exact canon_execAndFull h d a b s hc
  | or h d a b => exact canon_execOr h d a b s hc
  | orFull h d a b => exact canon_execOrFull h d a b s hc
  | xor h d a b => exact canon_execXor h d a b s hc
  | xorFull h d a b => exact canon_execXorFull h d a b s hc
  | not h d a => exact canon_execNot h d a s hc
  | notFull h d a => exact canon_execNotFull h d a s hc
  | andn h d a b => exact canon_execAndn h d a b s hc
  | andnFull h d a b => exact canon_execAndnFull h d a b s hc
  | shl h d a b => exact canon_execShl h d a b s hc
  | shlFull h d a b t => exact canon_execShlFull h d a b t s hc
  | shr h d a b => exact canon_execShr h d a b s hc
  | shrFull h d a b t => exact canon_execShrFull h d a b t s hc
  | sar h d a b => exact canon_execSar h d a b s hc
  | sarFull h d a b t => exact canon_execSarFull h d a b t s hc
  | rot h d a b => exact canon_execRot h d a b s hc
  | rotFull h d a b t => exact canon_execRotFull h d a b t s hc
  | clz h d a => exact canon_execClz h d a s hc
  | clzFull h d a t => exact canon_execClzFull h d a t s hc
  | popc h d a => exact canon_execPopc h d a s hc
  | popcFull h d a t => exact canon_execPopcFull h d a t s hc
  | brev h d a => exact canon_execBrev h d a s hc
  | brevFull h d a t => exact canon_execBrevFull h d a t s hc
  | bext h d a b => exact canon_execBext h d a b s hc
  | bextFull h d a b c => exact canon_execBextFull h d a b c s hc
  | bins h d a b => exact canon_execBins h d a b s hc
  | binsFull h d a b c => exact canon_execBinsFull h d a b c s hc
  -- Compare, test, select and moves (R126, R121)
  | cmp h a b => exact canon_execCmp h a b s hc
  | cmpFull h a b c t => exact canon_execCmpFull h a b c t s hc
  | cmpk h a k => exact canon_execCmpk h a k s hc
  | cmpkFull h a k c t => exact canon_execCmpkFull h a k c t s hc
  | fcmp h a b => exact canon_execFcmp h a b s hc
  | fcmpFull h a b c t => exact canon_execFcmpFull h a b c t s hc
  | test h a b => exact canon_execTest h a b s hc
  | testFull h a b => exact canon_execTestFull h a b s hc
  | sel h d a b => exact canon_execSel h d a b s hc
  | selFull h d a b neg q => exact canon_execSelFull h d a b neg q s hc
  | mov h d a => exact canon_execMov h d a s hc
  | movFull h d a wide => exact canon_execMovFull h d a wide s hc
  | movk h d k => exact canon_execMovk h d k s hc
  | movkFull h d k => exact canon_execMovkFull h d k s hc
  -- Real arithmetic (R128)
  | fadd h d a b => exact canon_execFadd h d a b s hc
  | faddFull h d a b m => exact canon_execFaddFull h d a b m s hc
  | fsub h d a b => exact canon_execFsub h d a b s hc
  | fsubFull h d a b m => exact canon_execFsubFull h d a b m s hc
  | fmul h d a b => exact canon_execFmul h d a b s hc
  | fmulFull h d a b m => exact canon_execFmulFull h d a b m s hc
  | fma h d a b => exact canon_execFma h d a b s hc
  | fmaFull h d a b c m => exact canon_execFmaFull h d a b c m s hc
  | fmin h d a b => exact canon_execFmin h d a b s hc
  | fminFull h d a b t => exact canon_execFminFull h d a b t s hc
  | fmax h d a b => exact canon_execFmax h d a b s hc
  | fmaxFull h d a b t => exact canon_execFmaxFull h d a b t s hc
  | fneg h d a => exact canon_execFneg h d a s hc
  | fnegFull h d a t => exact canon_execFnegFull h d a t s hc
  | fabs h d a => exact canon_execFabs h d a s hc
  | fabsFull h d a t => exact canon_execFabsFull h d a t s hc
  | fcps h d a b => exact canon_execFcps h d a b s hc
  | fcpsFull h d a b bf => exact canon_execFcpsFull h d a b bf s hc
  | rcp h d a bf => exact canon_execRcp h d a bf s hc
  | sqrt h d a bf => exact canon_execSqrt h d a bf s hc
  | rsq h d a bf => exact canon_execRsq h d a bf s hc
  | ex2 h d a bf => exact canon_execEx2 h d a bf s hc
  | lg2 h d a bf => exact canon_execLg2 h d a bf s hc
  | frnd h d a m => exact canon_execFrnd h d a m s hc
  | cvt h d a dst src sat r => exact canon_execCvt h d a dst src sat r s hc
  | dp4 h d a b c uns => exact canon_execDp4 h d a b c uns s hc
  -- Predicate stack (R134)
  | qdup h a => exact canon_execQdup h a s hc
  | qnot h a => exact canon_execQnot h a s hc
  | qand h a b => exact canon_execQand h a b s hc
  | qor h a b => exact canon_execQor h a b s hc
  | qxor h a b => exact canon_execQxor h a b s hc
  | qdrop h k => exact canon_execQdrop h k s hc
  -- Cross-lane (R136)
  | ballot h d q => exact canon_execBallot h d q s hc
  | shfl h d a b m => exact canon_execShfl h d a b m s hc
  | red h d a o => exact canon_execRed h d a o s hc
  | scan h d a o => exact canon_execScan h d a o s hc
  | bcast h d a b => exact canon_execBcast h d a b s hc
  | form h d a => exact canon_execForm h d a s hc
  -- Memory, scratchpad, atomics and queues (R162)
  | ld h d a k z nt => exact canon_execLd h d a k z nt s hc
  | st h a b k z nt => exact canon_execSt h a b k z nt s hc
  | lda h d a k wide sl => exact canon_execLda h d a k wide sl s hc
  | stl h a b k wide sl => exact canon_execStl h a b k wide sl s hc
  | cst h d a b wide q => exact canon_execCst h d a b wide q s hc
  | lds h d a k z f => exact canon_execLds h d a k z f s hc
  | sts h a b k z f => exact canon_execSts h a b k z f s hc
  | ats h d a b o => exact canon_execAts h d a b o s hc
  | atGlobal h d a b o home => exact canon_execAtGlobal h d a b o home s hc
  | cas h d a b c home => exact canon_execCas h d a b c home s hc
  | atc h d a b c => exact canon_execAtc h d a b c s hc
  | qpop h d a => exact canon_execQpop h d a s hc
  | qpush h a b => exact canon_execQpush h a b s hc
  | fence h k sl => exact canon_execFence h k sl s hc
  | pref h a k => exact canon_execPref h a k s hc
  -- Control flow, rejoin and waiting (R143)
  | nop h => exact canon_execNop h s hc
  | br h off => exact canon_execBr h off s hc
  | call h off => exact canon_execCall h off s hc
  | brw h w level off => exact canon_execBrw h w level off s hc
  | ret h => exact canon_execRet h s hc
  | exit h => exact canon_execExit h s hc
  | enrol h j => exact canon_execEnrol h j s hc
  | joinw h j lo hi => exact canon_execJoinw h j lo hi s hc
  | bar h gang k => exact canon_execBar h gang k s hc
  | waitc h l sl c t => exact canon_execWaitc h l sl c t s hc
  | yieldI h => exact canon_execYieldI h s hc
  | wbind h w sl => exact canon_execWbind h w sl s hc
  | brx h a => exact canon_execBrx h a s hc
  -- Stream engines, matrix unit, layout records (R194)
  | seFill h sl b e => exact canon_execSeFill h sl b e s hc
  | seDrain h sl b e => exact canon_execSeDrain h sl b e s hc
  | seFillw h sl b e => exact canon_execSeFillw h sl b e s hc
  | seAdv h sl b e => exact canon_execSeAdv h sl b e s hc
  | mfence h => exact canon_execMfence h s hc
  | mloop h m f w slot ksteps incA incB => exact canon_execMloop h m f w slot ksteps incA incB s hc
  | mwait h m => exact canon_execMwait h m s hc
  | mrd h d m b r blk f sat => exact canon_execMrd h d m b r blk f sat s hc
  | mclr h m => exact canon_execMclr h m s hc
  | safept h mask => exact canon_execSafept h mask s hc
  | dld h sl a k => exact canon_execDld h sl a k s hc
  | dst h sl a k => exact canon_execDst h sl a k s hc
  -- Tasks, moult, traps and special registers (R224)
  | sread h d sel => exact canon_execSread h d sel s hc
  | trap h k => exact canon_execTrap h k s hc
  | bkpt h k => exact canon_execBkpt h k s hc
  | launch h a b => exact canon_execLaunch h a b s hc
  | moult h a b => exact canon_execMoult h a b s hc
  | cbrk h d a b cond all n => exact canon_execCbrk h d a b cond all n s hc
  -- Finishing and waiting (events)
  | operationFinish op => exact canon_execOperationFinish op s hc
  | waitcSatisfied sid => exact canon_execWaitcSatisfied sid s hc
  | mwaitSatisfied sid => exact canon_execMwaitSatisfied sid s hc
  | exitWaitDone sid => exact canon_execExitWaitDone sid s hc
  | granuleServe sid => exact canon_execGranuleServe sid s hc
  | moultSucceed launch team => exact canon_execMoultSucceed launch team s hc
  | yieldExpiry sid => exact canon_execYieldExpiry sid s hc
  | runLimit core part port => exact canon_execRunLimit core part port s hc
  | strandUrgent sid => exact canon_execStrandUrgent sid s hc
  | opportunisticMerge a b => exact canon_execOpportunisticMerge a b s hc
  | strandUnbench sid => exact canon_execStrandUnbench sid s hc
  -- Stream engines and the matrix unit at their own steps
  | engineFill core e => exact canon_execEngineFill core e s hc
  | engineDrain core e => exact canon_execEngineDrain core e s hc
  | engineFillw core e => exact canon_execEngineFillw core e s hc
  | enginePageServiced core e ok => exact canon_execEnginePageServiced core e ok s hc
  | matrixMloopExec core => exact canon_execMatrixMloopExec core s hc
  | mrdReadoutDone op => exact canon_execMrdReadoutDone op s hc
  | mclrDone op => exact canon_execMclrDone op s hc
  -- Dispatch and the launch unit
  | dispatchPass die => exact canon_execDispatchPass die s hc
  | kick q tail => exact canon_execKick q tail s hc
  | cdone q n => exact canon_execCdone q n s hc
  | completionWrite q => exact canon_execCompletionWrite q s hc
  | launchComplete launch => exact canon_execLaunchComplete launch s hc
  | continuationTake bdie => exact canon_execContinuationTake bdie s hc
  | launchIntake op => exact canon_execLaunchIntake op s hc
  -- Packets and the base dies
  | rdPacket slice tag pa wide key => exact canon_execRdPacket slice tag pa wide key s hc
  | wrPacket slice tag pa mask data key => exact canon_execWrPacket slice tag pa mask data key s hc
  | atPacket op => exact canon_execAtPacket op s hc
  | atcPacket op => exact canon_execAtcPacket op s hc
  | swpPacket bdie tag group slot pin => exact canon_execSwpPacket bdie tag group slot pin s hc
  | swapComplete bdie group => exact canon_execSwapComplete bdie group s hc
  | swapEpoch bdie => exact canon_execSwapEpoch bdie s hc
  -- Ordering and translation
  | bufferDrain entry => exact canon_execBufferDrain entry s hc
  | tableWalkDone die ctx page => exact canon_execTableWalkDone die ctx page s hc
  | invalidate die ctx lo hi => exact canon_execInvalidate die ctx lo hi s hc
  | invalidateComplete die => exact canon_execInvalidateComplete die s hc
  | atsCompletion ctx page ans => exact canon_execAtsCompletion ctx page ans s hc
  | atsInvalidateRequest pasid va size => exact canon_execAtsInvalidateRequest pasid va size s hc
  | priResponse ctx page code => exact canon_execPriResponse ctx page code s hc
  -- Service of stops and control registers
  | stopSelect w => exact canon_execStopSelect w s hc
  | write reg value => exact canon_execWrite reg value s hc
  | faultConsumed ctx n => exact canon_execFaultConsumed ctx n s hc
  | hmaskWrite bdie k v => exact canon_execHmaskWrite bdie k v s hc
  | registerWrite r v => exact canon_execRegisterWrite r v s hc
  -- Pre-emption and time slices
  | preemptRequest launch team => exact canon_execPreemptRequest launch team s hc
  | safeptTimeout launch team => exact canon_execSafeptTimeout launch team s hc
  | teamRestore launch team => exact canon_execTeamRestore launch team s hc
  | sliceExpiry ctx => exact canon_execSliceExpiry ctx s hc
  | sliceOverrunKill ctx => exact canon_execSliceOverrunKill ctx s hc
  -- Calls of the resident system (R348)
  | ecallLaunch c addr q => exact canon_execEcallLaunch c addr q s hc
  | qcreate c ring k cring prio quantum => exact canon_execQcreate c ring k cring prio quantum s hc
  | qdestroy c q => exact canon_execQdestroy c q s hc
  | qparam c q prio quantum byplim => exact canon_execQparam c q prio quantum byplim s hc
  | taskset c id addr => exact canon_execTaskset c id addr s hc
  | hqcreate c k => exact canon_execHqcreate c k s hc
  | hqdestroy c handle => exact canon_execHqdestroy c handle s hc
  | map c addr size flags key => exact canon_execMap c addr size flags key s hc
  | unmap c addr size => exact canon_execUnmap c addr size s hc
  | share c addr size token => exact canon_execShare c addr size token s hc
  | keyset c handle addr flags => exact canon_execKeyset c handle addr flags s hc
  | window c addr size hq flags => exact canon_execWindow c addr size hq flags s hc
  | features c => exact canon_execFeatures c s hc
  | slice c us => exact canon_execSlice c us s hc
  | hmask c addr => exact canon_execHmask c addr s hc
  | l2mode c pmap => exact canon_execL2mode c pmap s hc
  | pchreset c => exact canon_execPchreset c s hc
  | migrate c id device => exact canon_execMigrate c id device s hc
  | ctxparam c ctx addr => exact canon_execCtxparam c ctx addr s hc
  | unknownCall c num => exact canon_execUnknownCall c num s hc
  -- Boot, service level and links
  | flitCrcFail link retrained => exact canon_execFlitCrcFail link retrained s hc
  -- Remote memory windows
  | rdmaWrite conn rkey va data => exact canon_execRdmaWrite conn rkey va data s hc
  | rdmaWriteWithImmediate conn rkey va data imm => exact canon_execRdmaWriteWithImmediate conn rkey va data imm s hc
  | rdmaRead conn rkey va len => exact canon_execRdmaRead conn rkey va len s hc
  | rdmaInvalidRequest conn => exact canon_execRdmaInvalidRequest conn s hc
  -- Observation
  | attach ctx sampleK traceK period => exact canon_execAttach ctx sampleK traceK period s hc
  | detach ctx => exact canon_execDetach ctx s hc
  | halt ctx launch team => exact canon_execHalt ctx launch team s hc
  | debugResume ctx stop => exact canon_execDebugResume ctx stop s hc
  | step ctx stop => exact canon_execStep ctx stop s hc
  | read ctx stop t => exact canon_execRead ctx stop t s hc
  | debugWrite ctx stop t value => exact canon_execDebugWrite ctx stop t value s hc
  | dump ctx launch => exact canon_execDump ctx launch s hc
  | sample core part => exact canon_execSample core part s hc
  -- Errors and the rest
  | reservedInstruction check => exact canon_execReservedInstruction check s hc
  | instructionFetchFault cause level => exact canon_execInstructionFetchFault cause level s hc
  | storageError loc correctable => exact canon_execStorageError loc correctable s hc
  | stopRingConsumed ctx n => exact canon_execStopRingConsumed ctx n s hc
  | contextDestroy ctx => exact canon_execContextDestroy ctx s hc
  | bundleLoad ctx pasid file => exact canon_execBundleLoad ctx pasid file s hc
  -- Security engine, boot, SPDM and power, and the actions on a stop
  | resume => exact canon_execResume s hc
  | skip => exact canon_execSkip s hc
  | kill => exact canon_execKill s hc
  | unlockReq => exact canon_execUnlockReq s hc
  | coldReset => exact canon_execColdReset s hc
  | fullService => exact canon_execFullService s hc
  | ownkeyAdd c => exact canon_execOwnkeyAdd c s hc
  | ownkeyRevoke c => exact canon_execOwnkeyRevoke c s hc
  | minsvnRaise stage svn => exact canon_execMinsvnRaise stage svn s hc
  | unlock token => exact canon_execUnlock token s hc
  | getVersion p => exact canon_execGetVersion p s hc
  | getCapabilities p => exact canon_execGetCapabilities p s hc
  | negotiateAlgorithms p => exact canon_execNegotiateAlgorithms p s hc
  | getDigests p => exact canon_execGetDigests p s hc
  | getCertificate p slot => exact canon_execGetCertificate p slot s hc
  | challenge p slot nonce => exact canon_execChallenge p slot nonce s hc
  | getMeasurements p index => exact canon_execGetMeasurements p index s hc
  | keyExchange p session => exact canon_execKeyExchange p session s hc
  | finish p session => exact canon_execFinish p session s hc
  | endSession p session => exact canon_execEndSession p session s hc
  | spdmUnsupported p code => exact canon_execSpdmUnsupported p code s hc
  | recoveryImage img => exact canon_execRecoveryImage img s hc
  | hostStageImage img => exact canon_execHostStageImage img s hc
  | clockAndVoltageChange block mhz mv mw => exact canon_execClockAndVoltageChange block mhz mv mw s hc

/-- A strand that issues: taking the slot, the instruction, and what follows it for the port. -/
theorem canon_issue (s : State) (core part port : ℕ) (st : Strand) (hc : memoriesCanonical s) : keepsCanon (issue s core part port st) := by
  have hexec : keepsCanon (exec (atPc s st) (takeSlot s core part port st)) := canon_exec _ _ (canon_takeSlot _ _ _ _ _ hc)
  unfold issue
  dsimp only
  split
  case h_1 t e => exact canon_next (canon_settle _ _ _ _ _ _ _ (hexec.next t e))
  case h_2 f _ => exact canon_fault f
  case h_3 r _ => exact canon_refused r

/-- An issue slot: the choice of the port draws on the schedule alone, and what issues keeps the form. -/
theorem canon_issueStep (s : State) (hc : memoriesCanonical s) : keepsCanon (issueStep s) := by
  have hport : memoriesCanonical (nextPort { s with issuePhase := false }).2 := canon_nextPort _ (canon_lit.mpr hc)
  unfold issueStep
  split
  case h_1 t e => exact canon_next (canon_pair e hport)
  case h_2 p t e =>
    have ht : memoriesCanonical t := canon_pair e hport
    split
    · exact canon_next ht
    · exact canon_issue _ _ _ _ _ ht

/-- An event of the other agents, or none that is enabled. -/
theorem canon_eventStep (s : State) (hc : memoriesCanonical s) : keepsCanon (eventStep s) := by
  unfold eventStep
  dsimp only
  split
  · exact canon_next (canon_lit.mpr hc)
  · exact canon_exec _ _ (canon_lit.mpr hc)

/-- One step of the machine, along its branches: the agenda's head, the boot ROM, a device with a fatal error, an issue slot, an event. -/
theorem canon_step (s : State) (hc : memoriesCanonical s) : keepsCanon (step s) := by
  unfold step
  split
  case h_1 i rest _ =>
    split
    · exact canon_next (canon_lit.mpr hc)
    · exact canon_ticked (canon_exec _ _ (canon_lit.mpr hc))
  case h_2 =>
    split_ifs
    · exact canon_exec _ _ hc
    · exact canon_next hc
    · exact canon_ticked (canon_issueStep _ hc)
    · exact canon_ticked (canon_eventStep _ hc)

/-- Settles O2: every branch of the step keeps the canonical form (`canon_step`). -/
theorem stepKeepsMemoryCanonical : Obligations.StepKeepsMemoryCanonical :=
  fun s t hc e => (canon_step s hc).next t e

/-! ### The state after reset (R16, R17, R277, R280, R283) -/

/-- At reset nothing is stored anywhere, so there is nothing that could break the form. -/
theorem canon_reset : memoriesCanonical State.reset where
  device := rfl
  host := by simp [State.reset]
  teams := by simp [State.reset]
  cores := by simp [State.reset]

/-- At reset no B-die is listed, so each is as at power-on. -/
theorem bdieOf_reset (b : ℕ) : bdieOf State.reset b = BDie.fresh b := rfl

/-- A memory that lists nothing reads 0 at every address. -/
theorem memGets_nil (a n : ℕ) : memGets [] a n = List.replicate n 0 := by
  simp [memGets, memGet, unlisted, List.map_const']

/-- At reset every home, on the device, of a host context or in a scratchpad, reads 0. -/
theorem homeBytes_reset (sp : Space) (a n : ℕ) : homeBytes State.reset sp a n = List.replicate n 0 := by
  cases sp with
  | dev => exact memGets_nil a n
  | host c => exact memGets_nil a n
  | scr lk t => exact memGets_nil a n

/-- At power-on the mask of channel bit k is linear: address bit 8 + k alone (R280). -/
theorem hmask_fresh (b : ℕ) {k : ℕ} (hk : k < 6) : nth (BDie.fresh b).hmask k 0 = 2 ^ (8 + k) := by
  simp [nth, BDie.fresh, linearMasks, hk]

/-- At power-on the hardware swaps are off: bit 0 of SWPCTL is clear (R283). -/
theorem swpctl_fresh (b : ℕ) : bitOf (BDie.fresh b).swpctl 0 = false := by
  simp [bitOf, BDie.fresh]

/-- Settles O1: the lists are empty by the definition of reset, and the B-dies and the homes read as at power-on. -/
theorem resetState : Obligations.ResetState := by
  refine ⟨canon_reset, rfl, rfl, rfl, rfl, rfl, rfl, rfl, rfl, ?_, ?_, ?_, ?_⟩
  · intro b g
    rw [bdieOf_reset]
    rfl
  · intro b k hk
    rw [bdieOf_reset]
    exact hmask_fresh b hk
  · intro b
    rw [bdieOf_reset]
    exact swpctl_fresh b
  · intro sp a n x hx
    rw [homeBytes_reset] at hx
    exact List.eq_of_mem_replicate hx

end Sys2Proof.Machine
end

section
/-! PROOFS. Collective and waiting instructions under any guard, and those that control one strand (O32, O34): what a new stop leaves, and what the frames of
R39, R51 and R96 do before the instruction itself. -/

namespace Sys2Proof.Machine

/-! ### Taking a trap: what a new stop leaves (R373, R378) -/

@[simp] theorem writeReport_strands (s : State) (c : ℕ) (r : Report) : (writeReport s c r).strands = s.strands := by
  unfold writeReport
  split
  · rfl
  · simp only [updCtx_strands]

@[simp] theorem writeReport_stops (s : State) (c : ℕ) (r : Report) : (writeReport s c r).stops = s.stops := by
  unfold writeReport
  split
  · rfl
  · simp only [updCtx_stops]

@[simp] theorem enqueueReport_strands (s : State) (c : ℕ) (r : Report) : (enqueueReport s c r).strands = s.strands := by
  unfold enqueueReport
  split
  · rfl
  · split
    · exact writeReport_strands s c r
    · rfl

@[simp] theorem enqueueReport_stops (s : State) (c : ℕ) (r : Report) : (enqueueReport s c r).stops = s.stops := by
  unfold enqueueReport
  split
  · rfl
  · split
    · exact writeReport_stops s c r
    · rfl

/-- Reports that enter the fault queue move no strand and add no stop. -/
theorem foldl_enqueueReport_tables (s : State) (c : ℕ) (f : Report → Report) (rs : List Report) :
    (rs.foldl (fun a r => enqueueReport a c (f r)) s).strands = s.strands ∧ (rs.foldl (fun a r => enqueueReport a c (f r)) s).stops = s.stops := by
  induction rs generalizing s with
  | nil => exact ⟨rfl, rfl⟩
  | cons r rs ih =>
    rw [List.foldl_cons, (ih _).1, (ih _).2]
    exact ⟨enqueueReport_strands s c (f r), enqueueReport_stops s c (f r)⟩

/-- The strands after a stop: those that it names are parked under its ticket. -/
theorem raiseStop_strands (s : State) (lk : ℕ) (sids : List ℕ) (kind cause cls len : ℕ) (after : After) (rs : List Report) :
    (raiseStop s lk sids kind cause cls len after rs).strands = s.strands.map (fun st =>
      if sids.contains st.sid then { st with status := .parked (ticketFrom s.stops (s.stops.length + 1) s.nextTicket) } else st) := by
  unfold raiseStop
  exact (foldl_enqueueReport_tables _ _ (fun r => { r with cls := cls, ticket := ticketFrom s.stops (s.stops.length + 1) s.nextTicket }) rs).1

/-- The stops after one has been opened: the last is the new one. -/
theorem raiseStop_stops (s : State) (lk : ℕ) (sids : List ℕ) (kind cause cls len : ℕ) (after : After) (rs : List Report) :
    ∃ x, (raiseStop s lk sids kind cause cls len after rs).stops = s.stops ++ [x] ∧ x.lk = lk ∧ x.kind = kind ∧ x.cause = cause ∧
      x.ticket = ticketFrom s.stops (s.stops.length + 1) s.nextTicket := by
  unfold raiseStop
  exact ⟨_, (foldl_enqueueReport_tables _ _ (fun r => { r with cls := cls, ticket := ticketFrom s.stops (s.stops.length + 1) s.nextTicket }) rs).2, rfl, rfl, rfl, rfl⟩

/-- A strand of the table after each strand has been changed by f, which keeps identities. -/
theorem find?_map_sid {f : Strand → Strand} (hf : ∀ x, (f x).sid = x.sid) (xs : List Strand) (sid : ℕ) :
    (xs.map f).find? (fun t => t.sid == sid) = (xs.find? (fun t => t.sid == sid)).map f := by
  rw [List.find?_map]
  simp only [Function.comp_def, hf]

/-- A precise trap of a whole strand opens one stop, under which the strand stands parked at its PC (R373). -/
theorem trapWhole_stopped {s : State} {st : Strand} (hs : strandOf s st.sid = some st) (len : ℕ) (r : Report) :
    Stopped s (trapWhole s st len r) st.lk [st.sid] st.pc r.kind r.cause := by
  obtain ⟨x, hx, hlk, hk, hc, ht⟩ := raiseStop_stops s st.lk [st.sid] r.kind r.cause 1 len (.advance len) (withNames r (present st))
  have hstr : (trapWhole s st len r).strands = _ := raiseStop_strands s st.lk [st.sid] r.kind r.cause 1 len (.advance len) (withNames r (present st))
  refine ⟨x, hx, hlk, hk, hc, ht, rfl, ?_, ?_⟩
  · intro u hu hsid
    rw [hstr, List.mem_map] at hu
    obtain ⟨y, -, rfl⟩ := hu
    by_cases hy : [st.sid].contains y.sid = true
    · rw [if_pos hy, ht]
    · rw [if_neg hy] at hsid
      simp only [List.contains_iff_mem] at hy
      exact absurd hsid hy
  · intro id hid
    rw [List.mem_singleton] at hid
    subst hid
    have hst : strandOf (trapWhole s st len r) st.sid = some (if [st.sid].contains st.sid then { st with status := .parked x.ticket } else st) := by
      unfold strandOf
      rw [hstr, find?_map_sid (fun x => by split <;> rfl), ht]
      exact congrArg (Option.map _) hs
    refine ⟨_, hst, ?_⟩
    split <;> rfl

/-! ### The frames of collective and waiting instructions (R39, R51, R96) -/

/-- With nothing outstanding on the stack, the guard waits for nothing either. -/
theorem mustWait_guard {s : State} {st : Strand} (h : mustWait s st [] true = false) (q : Bool) : mustWait s st [] q = false := by
  cases q
  · simp [mustWait]
  · exact h

section
variable {h : Hdr} {len : ℕ} {rs : List ℕ} {team stack : Bool} {f : State → Strand → State} {s : State} {st : Strand}

/-- Under a guard that is U false only the PC moves on. -/
theorem strandFrame_false (is : Issuing s st) (hw : mustWait s st [] (stack || guardReads h.g) = false) (hg : guardU st h.g = some false) :
    strandFrame h len rs team stack f s = .next (advance s st.sid len) := by
  unfold strandFrame
  rw [onCur_issuing is]
  simp only [hw, hg, Bool.false_eq_true, if_false]
  exact finish_next is.addr

/-- Under a guard that is not U the collective-guard trap is taken (R51). -/
theorem strandFrame_notU (is : Issuing s st) (hw : mustWait s st [] (stack || guardReads h.g) = false) (hg : guardU st h.g = none) :
    strandFrame h len rs team stack f s = .next (trapWhole s st len (reportOf s st 3 0)) := by
  unfold strandFrame
  rw [onCur_issuing is]
  simp only [hw, hg, Bool.false_eq_true, if_false]
  exact finish_next (by simpa using is.addr)

/-- Where nothing stands in the way, the frame goes on with the instruction itself. -/
theorem strandFrame_collective (c : Collective s st h.g rs team stack) : strandFrame h len rs team stack f s = finish (f s st) := by
  have hp : (team && st.team.isNone) = false := by
    cases team
    · rfl
    · have := c.placed rfl
      cases ht : st.team <;> simp_all
  unfold strandFrame
  rw [onCur_issuing c.toIssuing]
  simp only [c.results, c.guard, hp, c.reads, c.clean, Bool.false_eq_true, if_false]
  rfl

theorem waitFrame_false (is : Issuing s st) (hw : mustWait s st [] (guardReads h.g) = false) (hg : guardU st h.g = some false) :
    waitFrame h f s = .next (endRun (advance s st.sid 8)) := by
  unfold waitFrame
  rw [onCur_issuing is]
  simp only [hw, hg, Bool.false_eq_true, if_false]
  exact finish_next is.addr

theorem waitFrame_notU (is : Issuing s st) (hw : mustWait s st [] (guardReads h.g) = false) (hg : guardU st h.g = none) :
    waitFrame h f s = .next (trapWhole s st 8 (reportOf s st 3 0)) := by
  unfold waitFrame
  rw [onCur_issuing is]
  simp only [hw, hg, Bool.false_eq_true, if_false]
  exact finish_next (by simpa using is.addr)

end

/-- What an instruction does under a guard that is not U true, in a strand that waits for nothing: under U false what `moved` gives, under one that is not U the stop of
the collective-guard kind. -/
def MindsGuard (i : Instr) (g : Guard) (s : State) (st : Strand) (moved : State) : Prop :=
  (guardU st g = some false → exec i s = .next moved) ∧
  (guardU st g = none → ∃ r, exec i s = .next r ∧ Stopped s r st.lk [st.sid] st.pc 3 0)

section
variable {i : Instr} {h : Hdr} {s : State} {st : Strand}

theorem mindsGuard_of_strandFrame {len : ℕ} {rs : List ℕ} {team stack : Bool} {f : State → Strand → State} (is : Issuing s st)
    (hw : mustWait s st [] true = false) (hi : exec i s = strandFrame h len rs team stack f s) : MindsGuard i h.g s st (advance s st.sid len) := by
  refine ⟨fun hg => ?_, fun hg => ⟨_, ?_, trapWhole_stopped is.here len (reportOf s st 3 0)⟩⟩
  · rw [hi, strandFrame_false is (mustWait_guard hw _) hg]
  · rw [hi, strandFrame_notU is (mustWait_guard hw _) hg]

theorem mindsGuard_of_waitFrame {f : State → Strand → State} (is : Issuing s st)
    (hw : mustWait s st [] true = false) (hi : exec i s = waitFrame h f s) : MindsGuard i h.g s st (endRun (advance s st.sid 8)) := by
  refine ⟨fun hg => ?_, fun hg => ⟨_, ?_, trapWhole_stopped is.here 8 (reportOf s st 3 0)⟩⟩
  · rw [hi, waitFrame_false is (mustWait_guard hw _) hg]
  · rw [hi, waitFrame_notU is (mustWait_guard hw _) hg]

end

/-- Settles O34: each instruction of the two lists is its frame around what it does under a true guard, and the frame alone answers the other guards. -/
theorem collectiveGuards : Obligations.CollectiveGuards := by
  intro h j k w lo hi l n c t a f b gang incA incB d e m q sc fk x rnd fm s st is hw
  have collective : ∀ {i : Instr} {len rs team stack} {f : State → Strand → State},
      exec i s = strandFrame h len rs team stack f s → MindsGuard i h.g s st (advance s st.sid len) := mindsGuard_of_strandFrame is hw
  have waiting : ∀ {i : Instr} {f : State → Strand → State}, exec i s = waitFrame h f s → MindsGuard i h.g s st (endRun (advance s st.sid 8)) :=
    mindsGuard_of_waitFrame is hw
  constructor
  · intro i mem
    fin_cases mem <;> exact collective rfl
  · simp only [List.forall_mem_cons]
    exact ⟨waiting (execJoinw.eq_1 h j lo hi s), waiting (execWaitc.eq_1 h l n c t s), List.forall_mem_nil _⟩

/-- A walk that WBIND makes of a record, written out (R148). -/
theorem bindWalk_eq (r : LayoutBits) : bindWalk r = ⟨true, recNdim r, (List.range 5).map (fun k => if k < recNdim r then recExt r k else 1),
    (List.range 5).map (fun k => if k < recNdim r then BitVec.ofInt 64 (recStr r k) else 0), [0, 0, 0, 0, 0], [false, false, false, false, false]⟩ := rfl

/-- Settles O32: NOP has no frame; the other three are collective, and their frame goes on to the effect itself. -/
theorem strandControl : Obligations.StrandControl := by
  intro h j w d s st
  refine ⟨fun is => ?_, fun c => ⟨?_, ?_⟩, fun c hfree => ?_⟩
  · show execNop h s = _
    unfold execNop
    rw [onCur_issuing is]
    exact finish_next is.addr
  · show execYieldI h s = _
    unfold execYieldI
    rw [strandFrame_collective c]
    exact finish_next c.addr
  · show execEnrol h j s = _
    unfold execEnrol
    rw [strandFrame_collective c]
    exact finish_next (by simpa using c.addr)
  · show execWbind h w d s = _
    unfold execWbind
    rw [strandFrame_collective c]
    simp only [hfree, Bool.false_eq_true, if_false, bindWalk_eq]
    rw [finish_next (by simpa using c.addr)]

end Sys2Proof.Machine
end

section
/-! PROOFS. A transfer that some indices take splits the strand (O29): restricting a strand to some of its indices keeps every value there, and the pieces of a strand together
hold the indices asked for. -/

namespace Sys2Proof.Machine

/-! ### Columns over some of the indices -/

/-- The elements of a list at the indices kept, where they are aligned with those indices. -/
theorem zip_selectAt {α : Type} (is : List ℕ) (xs : List α) (keep : List ℕ) (hl : xs.length = is.length) :
    (is.filter keep.contains).zip (selectAt is xs keep) = (is.zip xs).filter (fun e => keep.contains e.1) := by
  unfold selectAt
  induction is generalizing xs with
  | nil => simp
  | cons i is ih =>
    cases xs with
    | nil => simp at hl
    | cons x xs =>
      have := ih xs (by simpa using hl)
      by_cases hi : keep.contains i = true <;> simp_all

theorem length_selectAt {α : Type} (is : List ℕ) (xs : List α) (keep : List ℕ) (hl : xs.length = is.length) :
    (selectAt is xs keep).length = (is.filter keep.contains).length := by
  unfold selectAt
  induction is generalizing xs with
  | nil => simp
  | cons i is ih =>
    cases xs with
    | nil => simp at hl
    | cons x xs =>
      have := ih xs (by simpa using hl)
      by_cases hi : keep.contains i = true <;> simp_all

theorem selectAt_map {α : Type} (is : List ℕ) (f : ℕ → α) (keep : List ℕ) : selectAt is (is.map f) keep = (is.filter keep.contains).map f := by
  unfold selectAt
  induction is with
  | nil => rfl
  | cons i is ih => by_cases hi : keep.contains i = true <;> simp_all

/-- Dropping other keys leaves what a key finds. -/
theorem alookup_filter_key {α : Type} (es : List (ℕ × α)) (p : ℕ → Bool) {i : ℕ} (hi : p i = true) :
    alookup (es.filter (fun e => p e.1)) i = alookup es i := by
  induction es with
  | nil => rfl
  | cons e es ih =>
    by_cases he : e.1 = i
    · rw [List.filter_cons_of_pos (by rw [he]; exact hi)]
      simp [alookup, he]
    · by_cases hp : p e.1 = true
      · rw [List.filter_cons_of_pos (by simpa using hp)]
        simp [alookup, he, ih]
      · rw [List.filter_cons_of_neg (by simpa using hp), ih]
        simp [alookup, he]

/-- Some of the indices, in their order, are those of the list that the selection holds. -/
theorem filter_contains_of_sublist {ks is : List ℕ} (h : ks.Sublist is) (nd : is.Nodup) : is.filter ks.contains = ks := by
  refine (List.Sublist.eq_of_length_le ?_ ?_).symm
  · have := h.filter ks.contains
    rwa [List.filter_eq_self.mpr (by simp)] at this
  · have hsub : (is.filter ks.contains).Subperm ks := List.subperm_of_subset (nd.filter _) (fun x hx => by simpa using (List.mem_filter.mp hx).2)
    exact hsub.length_le

theorem nodup_present (st : Strand) : (present st).Nodup := (sorted_present st).imp (fun h => by omega)

/-! ### Forms over some of the indices (R28) -/

section
variable {is ks : List ℕ}

theorem valsV_restrictV {f : VForm} (hk : is.filter ks.contains = ks) (hl : (valsV is f).length = is.length) :
    valsV ks (restrictV is ks f) = selectAt is (valsV is f) ks := by
  have hs := length_selectAt is (valsV is f) ks hl
  rw [hk] at hs
  cases f with
  | u x => rw [show restrictV is ks (.u x) = .u x from rfl, valsV, valsV, selectAt_map, hk]
  | a b s => exact valsV_classifyV ks _ hs
  | x vs => exact valsV_classifyV ks _ hs

theorem valsQ_restrictQ {f : QForm} (hk : is.filter ks.contains = ks) (hl : (valsQ is f).length = is.length) :
    valsQ ks (restrictQ is ks f) = selectAt is (valsQ is f) ks := by
  have hs := length_selectAt is (valsQ is f) ks hl
  rw [hk] at hs
  cases f with
  | u x => rw [show restrictQ is ks (.u x) = .u x from rfl, valsQ, valsQ, selectAt_map, hk]
  | c k above => exact valsQ_classifyQ ks _ hs
  | x bs => exact valsQ_classifyQ ks _ hs

end

/-- An affine column stays affine over a later start (R27). -/
theorem affine_later (b s : Word) {a k i : ℕ} (ha : a ≤ k) (hk : k ≤ i) : affine b s a i = affine (affine b s a k) s k i := by
  have : BitVec.ofNat 32 (i - a) = BitVec.ofNat 32 (k - a) + BitVec.ofNat 32 (i - k) := by
    rw [← BitVec.ofNat_add]
    congr 1
    omega
  unfold affine
  rw [this, BitVec.mul_add, BitVec.add_assoc]

/-- An affine column over a range needs no X form (R28). -/
theorem classifyV_affine (b s : Word) {a k : ℕ} (n : ℕ) (ha : a ≤ k) :
    isXV (classifyV (List.range' k n) ((List.range' k n).map (affine b s a))) = false := by
  cases n with
  | zero => rfl
  | succ n =>
    unfold classifyV
    rw [List.range'_succ, List.map_cons]
    dsimp only
    split
    · rfl
    · rename_i hne
      cases n with
      | zero => simp [allEq] at hne
      | succ n =>
        have hstep : affine b s a (k + 1) - affine b s a k = s := by
          rw [affine_later b s ha (Nat.le_succ k)]
          simp [affine]
        have hcol : affine b s a k :: (List.range' (k + 1) (n + 1)).map (affine b s a) =
            (k :: List.range' (k + 1) (n + 1)).map (affine (affine b s a k) s k) := by
          rw [← List.map_cons]
          refine List.map_congr_left fun i hi => affine_later b s ha ?_
          rw [List.mem_cons, List.mem_range'_1] at hi
          omega
        have hrange : contiguous (k :: List.range' (k + 1) (n + 1)) = true := by simp [contiguous, List.range'_succ]
        rw [if_pos hrange]
        simp only [List.range'_succ, List.map_cons, List.headD_cons] at hcol ⊢
        rw [hstep, if_pos (by simpa using hcol)]
        rfl

theorem leading_replicate (p : Bool) (l : ℕ) (rest : List Bool) (h : rest.head? ≠ some p) : leading p (List.replicate l p ++ rest) = l := by
  induction l with
  | zero =>
    cases rest with
    | nil => rfl
    | cons b r => simp only [List.head?_cons, ne_eq, Option.some.injEq] at h; simp [leading, h]
  | succ l ih => simp [List.replicate_succ, leading, ih]

/-- A column that changes once over a range needs no X form (R28). -/
theorem classifyQ_change (is : List ℕ) (hc : contiguous is = true) (p : Bool) (l m : ℕ) :
    isXQ (classifyQ is (List.replicate l p ++ List.replicate m (!p))) = false := by
  cases l with
  | zero =>
    cases m with
    | zero => rfl
    | succ m =>
      have : allEq (!p) (List.replicate m (!p)) = true := by simp [allEq]
      simp [List.replicate_succ, classifyQ, this, isXQ]
  | succ l =>
    rw [List.replicate_succ, List.cons_append]
    unfold classifyQ
    dsimp only
    split
    · rfl
    · have hl : leading p (p :: (List.replicate l p ++ List.replicate m (!p))) = l + 1 := by
        rw [← List.cons_append, ← List.replicate_succ]
        exact leading_replicate p (l + 1) _ (by cases m <;> simp [List.replicate_succ])
      have hd : allEq (!p) ((p :: (List.replicate l p ++ List.replicate m (!p))).drop (l + 1)) = true := by simp [allEq]
      rw [hl, hc, hd]
      rfl

/-- The sides of a cut point over a range are two runs (R27). -/
theorem cut_over_range (c k n : ℕ) (above : Bool) : ∃ l m, (List.range' k n).map (fun i => if above then decide (c ≤ i) else decide (i < c)) =
    List.replicate l (!above) ++ List.replicate m (!(!above)) := by
  refine ⟨min (c - k) n, n - min (c - k) n, ?_⟩
  rw [← range'_threshold k n (min (c - k) n) (!above) (Nat.min_le_right _ _), Bool.not_not]
  refine List.map_congr_left fun i hi => ?_
  rw [List.mem_range'_1] at hi
  cases above <;> simp <;> omega

/-! ### Presence after a change of the mask (R31) -/

theorem contiguous_eq {is : List ℕ} (h : contiguous is = true) : is = List.range' (is.headD 0) is.length := by
  cases is with
  | nil => rfl
  | cons i is => exact range'_head _ i (by simpa [contiguous] using h)

/-- Indices of one window are those of its mask. -/
theorem window_of_mask {is : List ℕ} (hs : is.Pairwise (· < ·)) (hw : oneWindow is = true) {b : ℕ} (hb : b = is.headD 0 / 64) :
    (maskBits (maskOf (is.map (fun i => i % 64)))).map (fun p => b * 64 + p) = is := by
  have win : ∀ i ∈ is, i / 64 = b := by simpa [oneWindow, hb] using hw
  rw [maskBits_maskOf, List.map_map]
  · conv_rhs => rw [← List.map_id is]
    refine List.map_congr_left fun i hi => ?_
    have := win i hi
    simp only [Function.comp_apply, id_eq]
    omega
  · rw [List.pairwise_map]
    refine List.Pairwise.imp_of_mem (fun {a c} ha hc hac => ?_) hs
    have := win a ha
    have := win c hc
    omega
  · intro p hp
    obtain ⟨i, -, rfl⟩ := List.mem_map.mp hp
    exact Nat.mod_lt _ (by decide)

/-- A strand whose range is that of some indices holds just these once its mask is settled, where they lie in one window if a mask is needed (R31). -/
theorem present_settleMask_range {is : List ℕ} {u : Strand} (hne : is ≠ []) (hs : is.Pairwise (· < ·)) (hf : u.first = is.headD 0)
    (hc : u.first + u.count = is.getLastD 0 + 1) (hw : hasX u = true ∨ contiguous is = false → oneWindow is = true) :
    present (settleMask is u) = is := by
  unfold settleMask
  split
  · rename_i hx
    have : present { u with mask := some (maskOf (is.map (fun i => i % 64))) } = (maskBits (maskOf (is.map (fun i => i % 64)))).map (fun p => u.first / 64 * 64 + p) := rfl
    rw [this]
    exact window_of_mask hs (hw (by simpa using hx)) (by rw [hf])
  · rename_i hx
    have hrange : contiguous is = true := by simp only [Bool.or_eq_true, not_or, Bool.not_eq_true, Bool.not_eq_true'] at hx; simpa using hx.2
    have e := contiguous_eq hrange
    have hlen : 0 < is.length := List.length_pos_iff.mpr hne
    have hlast : is.getLastD 0 = is.headD 0 + (is.length - 1) := by
      obtain ⟨n, hn⟩ : ∃ n, is.length = n + 1 := ⟨is.length - 1, by omega⟩
      conv_lhs => rw [e]
      rw [hn, List.range'_concat]
      simp
    have : present { u with mask := none } = List.range' u.first u.count := rfl
    rw [this, show u.count = is.length by omega, hf]
    exact e.symm

/-! ### A strand over some of its indices (R36, R43) -/

theorem headD_mem {is : List ℕ} (h : is ≠ []) : is.headD 0 ∈ is := by
  obtain ⟨i, r, rfl⟩ := List.exists_cons_of_ne_nil h
  exact List.mem_cons_self

theorem headD_le_getLastD {is : List ℕ} (hs : is.Pairwise (· < ·)) : is.headD 0 ≤ is.getLastD 0 := by
  cases is with
  | nil => exact Nat.le_refl 0
  | cons i r =>
    rw [List.headD_cons, List.getLastD_cons]
    cases r using List.reverseRecOn with
    | nil => exact Nat.le_refl i
    | append_singleton r j => simpa using ((List.pairwise_cons.mp hs).1 j (by simp)).le

/-- Some of a strand's indices that a strand of its own can hold: in its window where it has a mask, else without a gap. -/
structure Shard (st : Strand) (ks : List ℕ) : Prop where
  held : ks ≠ []
  among : ks.Sublist (present st)
  whole : st.mask.isSome = true ∨ contiguous ks = true

section
variable {st : Strand} {ks : List ℕ}

theorem Shard.selected (h : Shard st ks) : (present st).filter ks.contains = ks := filter_contains_of_sublist h.among (nodup_present st)

/-- Without a mask no form of the piece needs X: its columns are those of a range (R28, R31). -/
theorem Shard.hasX_restrict (wf : StrandWf st) (h : Shard st ks) (hm : st.mask = none) : hasX (restrict st ks) = false := by
  have hr : ks = List.range' (ks.headD 0) ks.length := contiguous_eq (by simpa [hm] using h.whole)
  have hp : present st = List.range' st.first st.count := by simp [present, hm]
  have hlow : st.first ≤ ks.headD 0 := by
    have := h.among.subset (headD_mem h.held)
    rw [hp, List.mem_range'_1] at this
    exact this.1
  have hfirst : (present st).headD 0 = st.first := wf.first.symm
  have nox := wf.attached hm
  rw [Bool.eq_false_iff, ne_eq, hasX_iff, not_or] at nox ⊢
  constructor
  · rintro ⟨e, he, hx⟩
    obtain ⟨f, hf, rfl⟩ : ∃ f ∈ st.regs, (f.1, restrictV (present st) ks f.2) = e := List.mem_map.mp he
    cases hv : f.2 with
    | u x => simp [hv, restrictV, isXV] at hx
    | x vs => exact nox.1 ⟨f, hf, by simp [hv, isXV]⟩
    | a b s =>
      simp only [hv, restrictV, valsV] at hx
      rw [selectAt_map, h.selected, hfirst, hr, classifyV_affine b s _ hlow] at hx
      exact Bool.false_ne_true hx
  · rintro ⟨q, hq, hx⟩
    obtain ⟨f, hf, rfl⟩ : ∃ f ∈ st.qs, restrictQ (present st) ks f = q := List.mem_map.mp hq
    cases f with
    | u b => simp [restrictQ, isXQ] at hx
    | x bs => exact nox.2 ⟨_, hf, rfl⟩
    | c cut above =>
      obtain ⟨l, m, hlm⟩ := cut_over_range cut (ks.headD 0) ks.length above
      simp only [restrictQ, valsQ] at hx
      rw [selectAt_map, h.selected, hr, hlm, classifyQ_change _ (by rw [← hr]; simpa [hm] using h.whole)] at hx
      exact Bool.false_ne_true hx

/-- The piece holds the indices asked for. -/
theorem Shard.present_restrict (wf : StrandWf st) (h : Shard st ks) : present (restrict st ks) = ks := by
  have hsorted : ks.Pairwise (· < ·) := (sorted_present st).sublist h.among
  have hlast := headD_le_getLastD hsorted
  have hx : hasX (restrict st ks) = true ∨ contiguous ks = false → oneWindow ks = true := by
    intro hx
    have hm : st.mask.isSome = true := by
      rcases h.whole with hm | hc
      · exact hm
      · by_contra hm
        rcases hx with hx | hx
        · rw [h.hasX_restrict wf (by simpa using hm)] at hx
          exact Bool.false_ne_true hx
        · rw [hc] at hx
          exact absurd hx (by decide)
    have hw := oneWindow_of_mask hm
    simp only [oneWindow, List.all_eq_true, decide_eq_true_eq] at hw ⊢
    intro j hj
    exact (hw j (h.among.subset hj)).trans (hw _ (h.among.subset (headD_mem h.held))).symm
  refine present_settleMask_range h.held hsorted rfl ?_ hx
  show ks.headD 0 + (ks.getLastD 0 + 1 - ks.headD 0) = ks.getLastD 0 + 1
  omega

theorem vform_restrict (st : Strand) (ks : List ℕ) (r : ℕ) : vform (restrict st ks) r = restrictV (present st) ks (vform st r) := by
  have hl : ∀ es : List (ℕ × VForm), alookup (es.map (fun e => (e.1, restrictV (present st) ks e.2))) r = (alookup es r).map (restrictV (present st) ks) := by
    intro es
    induction es with
    | nil => rfl
    | cons e es ih =>
      simp only [List.map_cons, alookup, ih]
      split <;> rfl
  have hr : (restrict st ks).regs = st.regs.map (fun e => (e.1, restrictV (present st) ks e.2)) := rfl
  have hu : (restrict st ks).undef = st.undef := rfl
  unfold vform
  rw [hr, hl, hu]
  cases alookup st.regs r with
  | some f => rfl
  | none => cases st.undef <;> rfl

theorem qform_restrict (st : Strand) (ks : List ℕ) (k : ℕ) : qform (restrict st ks) k = restrictQ (present st) ks (qform st k) := by
  have hq : (restrict st ks).qs = st.qs.map (restrictQ (present st) ks) := rfl
  unfold qform nth
  rw [hq, show QForm.u false = restrictQ (present st) ks (.u false) from rfl, List.getD_map]
  rfl

/-- Every register keeps its value at each index of the piece. -/
theorem Shard.valueAt_restrict (wf : StrandWf st) (h : Shard st ks) {i : ℕ} (hi : i ∈ ks) (r : ℕ) : valueAt (restrict st ks) r i = valueAt st r i := by
  have hl : (regVals st r).length = (present st).length := by rw [length_valsV_regVals st wf, length_present]
  have hv : regVals (restrict st ks) r = selectAt (present st) (regVals st r) ks := by
    rw [regVals, h.present_restrict wf, vform_restrict]
    exact valsV_restrictV h.selected hl
  have hz := zip_selectAt (present st) (regVals st r) ks hl
  rw [h.selected] at hz
  rw [valueAt, h.present_restrict wf, hv, hz, alookup_filter_key _ ks.contains (by simpa using hi)]
  rfl

/-- So does every entry of the stack. -/
theorem Shard.entryAt_restrict (wf : StrandWf st) (h : Shard st ks) {i : ℕ} (hi : i ∈ ks) (k : ℕ) : Sys2Proof.entryAt (restrict st ks) k i = Sys2Proof.entryAt st k i := by
  have hl : (qVals st k).length = (present st).length := by rw [length_qVals st wf, length_present]
  have hv : qVals (restrict st ks) k = selectAt (present st) (qVals st k) ks := by
    rw [qVals, h.present_restrict wf, qform_restrict]
    exact valsQ_restrictQ h.selected hl
  have hz := zip_selectAt (present st) (qVals st k) ks hl
  rw [h.selected] at hz
  rw [Sys2Proof.entryAt, h.present_restrict wf, hv, hz, alookup_filter_key _ ks.contains (by simpa using hi)]
  rfl

end

/-! ### The runs of some indices, and the pieces of a strand (R36) -/

theorem flatten_runsOf (is : List ℕ) : (runsOf is).flatten = is := by
  induction is with
  | nil => rfl
  | cons i is ih =>
    unfold runsOf
    split
    · rename_i j js rs he
      rw [he] at ih
      split <;> simpa using ih
    · rename_i hne
      simpa using ih

/-- Each run holds an index and has no gap. -/
theorem mem_runsOf {is : List ℕ} : ∀ r ∈ runsOf is, r ≠ [] ∧ contiguous r = true := by
  induction is with
  | nil => simp [runsOf]
  | cons i is ih =>
    have single : [i] ≠ [] ∧ contiguous [i] = true := by simp [contiguous]
    unfold runsOf
    split
    · rename_i j js rs he
      rw [he] at ih
      obtain ⟨hj, hrs⟩ := List.forall_mem_cons.mp ih
      split
      · rename_i hji
        refine List.forall_mem_cons.mpr ⟨⟨by simp, ?_⟩, hrs⟩
        have := hj.2
        simp only [contiguous, decide_eq_true_eq, List.length_cons] at this ⊢
        rw [List.range'_succ, ← hji, ← this]
      · exact List.forall_mem_cons.mpr ⟨single, ih⟩
    · exact List.forall_mem_cons.mpr ⟨single, ih⟩

/-- Every index asked for lies in some piece (R36, R43). -/
theorem mem_pieces (B : ℕ) {st : Strand} {keep : List ℕ} (hk : keep.Sublist (present st)) {i : ℕ} (hi : i ∈ keep) :
    ∃ ks, restrict st ks ∈ pieces B st keep ∧ Shard st ks ∧ ks.Sublist keep ∧ i ∈ ks := by
  have hne : keep ≠ [] := List.ne_nil_of_mem hi
  have inRuns : ∃ ks, restrict st ks ∈ (runsOf keep).map (restrict st) ∧ Shard st ks ∧ ks.Sublist keep ∧ i ∈ ks := by
    obtain ⟨r, hr, hir⟩ : ∃ r ∈ runsOf keep, i ∈ r := List.mem_flatten.mp (by rw [flatten_runsOf]; exact hi)
    have hrk : r.Sublist keep := by have := List.sublist_flatten_of_mem hr; rwa [flatten_runsOf] at this
    exact ⟨r, List.mem_map_of_mem hr, ⟨(mem_runsOf r hr).1, hrk.trans hk, .inr (mem_runsOf r hr).2⟩, hrk, hir⟩
  unfold pieces
  rw [if_neg (by simpa using hne)]
  split
  · exact inRuns
  · rename_i hm
    dsimp only
    split
    · exact inRuns
    · exact ⟨keep, List.mem_singleton.mpr rfl, ⟨hne, hk, .inl (by cases h : st.mask <;> simp_all)⟩, List.Sublist.refl _, hi⟩

/-! ### Strands in the place of one (R43) -/

theorem mem_insertByFirst {x y : Strand} {xs : List Strand} : x ∈ insertByFirst y xs ↔ x = y ∨ x ∈ xs := by
  induction xs with
  | nil => simp [insertByFirst]
  | cons z zs ih =>
    unfold insertByFirst
    split
    · simp
    · simp only [List.mem_cons, ih]
      tauto

theorem mem_sortByFirst {x : Strand} {xs : List Strand} : x ∈ sortByFirst xs ↔ x ∈ xs := by
  unfold sortByFirst
  induction xs with
  | nil => simp
  | cons y ys ih => rw [List.foldr_cons, mem_insertByFirst, ih, List.mem_cons]

theorem mem_assignIds {x : Strand} {xs : List Strand} (hx : x ∈ xs) (s : State) : ∃ n, { x with sid := n } ∈ (assignIds s xs).1 := by
  induction xs generalizing s with
  | nil => simp at hx
  | cons y ys ih =>
    rcases List.mem_cons.mp hx with rfl | hx
    · exact ⟨_, List.mem_cons_self⟩
    · obtain ⟨n, hn⟩ := ih hx (fresh s).2
      exact ⟨n, List.mem_cons_of_mem _ hn⟩

theorem assignIds_strands (s : State) (xs : List Strand) : (assignIds s xs).2.strands = s.strands := by
  induction xs generalizing s with
  | nil => rfl
  | cons y ys ih => exact ih (fresh s).2

theorem mem_of_strandOf {s : State} {sid : ℕ} {st : Strand} (h : strandOf s sid = some st) : st ∈ s.strands := List.mem_of_find?_eq_some h

/-- Each strand put in the place of one stands in the table, under an identity and in a partition that it is given. -/
theorem mem_replaceStrand {s : State} {sid : ℕ} {st : Strand} (hs : strandOf s sid = some st) {new : List Strand} {x : Strand} (hx : x ∈ new) :
    ∃ n p, { x with sid := n, part := p } ∈ (replaceStrand s sid new).2.strands := by
  have hmem := mem_of_strandOf hs
  have hsid := strandOf_sid hs
  unfold replaceStrand
  split
  · rw [List.mem_singleton] at hx
    subst hx
    exact ⟨sid, homePart s x, List.mem_map.mpr ⟨st, hmem, by simp [hsid]⟩⟩
  · obtain ⟨n, hn⟩ := mem_assignIds hx s
    refine ⟨n, homePart s { x with sid := n }, ?_⟩
    refine List.mem_flatMap.mpr ⟨st, by rw [assignIds_strands]; exact hmem, ?_⟩
    rw [if_pos (by simp [hsid])]
    exact List.mem_map.mpr ⟨_, hn, rfl⟩

/-! ### Transfers (R43, R144, R146) -/

theorem acting_sublist (st : Strand) (g : Guard) : (acting st g).Sublist (present st) := by
  unfold acting
  generalize present st = is
  generalize guardFlags st g = fs
  induction is generalizing fs with
  | nil => simp
  | cons i is ih =>
    cases fs with
    | nil => simp
    | cons b fs =>
      rw [List.zip_cons_cons, List.filterMap_cons]
      cases b
      · exact (ih fs).cons i
      · exact (ih fs).cons_cons i

/-- What a transfer puts in the place of the strand: the pieces that take it, at the target with their call stack changed, and the others, at the next instruction. -/
def parted (B : ℕ) (st : Strand) (g : Guard) (target : DWord) (len : ℕ) (calls : List DWord → List DWord) : List Strand :=
  (pieces B st (acting st g)).map (fun p => { p with calls := calls p.calls, pc := target }) ++
    (pieces B st ((present st).filter (fun i => !(acting st g).contains i))).map (fun p => { p with pc := p.pc + BitVec.ofNat 64 len })

section
variable {s : State} {st : Strand} {g : Guard} {target : DWord} {len : ℕ} {calls : List DWord → List DWord}

/-- Each index of the strand stands in one of its parts, as R43 has it. -/
theorem mem_parted (B : ℕ) {j : ℕ} (hj : j ∈ present st) :
    ∃ ks, Shard st ks ∧ j ∈ ks ∧ { restrict st ks with
      pc := if j ∈ acting st g then target else st.pc + BitVec.ofNat 64 len
      calls := if j ∈ acting st g then calls st.calls else st.calls } ∈ parted B st g target len calls := by
  by_cases ha : j ∈ acting st g
  · obtain ⟨ks, hp, hk, -, hjk⟩ := mem_pieces B (acting_sublist st g) ha
    refine ⟨ks, hk, hjk, List.mem_append_left _ (List.mem_map.mpr ⟨_, hp, ?_⟩)⟩
    rw [if_pos ha, if_pos ha]
    rfl
  · obtain ⟨ks, hp, hk, -, hjk⟩ := mem_pieces B (List.filter_sublist (p := fun i => !(acting st g).contains i)) (List.mem_filter.mpr ⟨hj, by simpa using ha⟩)
    refine ⟨ks, hk, hjk, List.mem_append_right _ (List.mem_map.mpr ⟨_, hp, ?_⟩)⟩
    rw [if_neg ha, if_neg ha]
    rfl

/-- A transfer that some indices take and others do not puts the parts in the place of the strand, and ends the run. -/
theorem transfer_parted (hsome : acting st g ≠ []) (hnot : acting st g ≠ present st) :
    transfer s st (guardFlags st g) target len (fun p => { p with calls := calls p.calls }) =
      endRun (replaceStrand s st.sid (sortByFirst (parted (budgetOf s st) st g target len calls))).2 := by
  have hacts : ¬(acting st g).isEmpty = true := by simpa using hsome
  have hlen : (acting st g).length ≠ (present st).length := fun e => hnot ((acting_sublist st g).eq_of_length e)
  exact (if_neg hacts).trans (if_neg hlen)

/-- So each index goes on in a strand of its own side with all that it held. -/
theorem carried_parted (hs : strandOf s st.sid = some st) (wf : StrandWf st) (B : ℕ) :
    Carried (endRun (replaceStrand s st.sid (sortByFirst (parted B st g target len calls))).2) st (present st)
      (fun j => if j ∈ acting st g then target else st.pc + BitVec.ofNat 64 len) (fun j => if j ∈ acting st g then calls st.calls else st.calls) := by
  intro j hj
  obtain ⟨ks, hk, hjk, hmem⟩ := mem_parted (target := target) (len := len) (calls := calls) (g := g) B hj
  obtain ⟨n, p, hu⟩ := mem_replaceStrand hs (mem_sortByFirst.mpr hmem)
  refine ⟨_, hu, ?_, rfl, rfl, rfl, rfl, rfl, rfl, rfl, fun r => hk.valueAt_restrict wf hjk r, fun k _ => hk.entryAt_restrict wf hjk k⟩
  show j ∈ present (restrict st ks)
  rw [hk.present_restrict wf]
  exact hjk

/-- A transfer instruction that splits its strand. -/
theorem transfer_splits {i : Instr} (fr : Free s st g) (hsome : acting st g ≠ []) (hnot : acting st g ≠ present st)
    (hi : exec i s = finish (transfer s st (guardFlags st g) target len (fun p => { p with calls := calls p.calls }))) :
    ∃ t, exec i s = .next t ∧ t.cur = none ∧ Carried t st (present st)
      (fun j => if j ∈ acting st g then target else st.pc + BitVec.ofNat 64 len) (fun j => if j ∈ acting st g then calls st.calls else st.calls) := by
  rw [transfer_parted hsome hnot] at hi
  refine ⟨_, hi.trans (finish_next (by simpa using fr.addr)), rfl, carried_parted fr.here fr.wf _⟩

end

/-- Nothing stands in the way of a transfer: its frame goes on. -/
theorem transferFrame_free {h : Hdr} {f : State → Strand → State} {s : State} {st : Strand} (fr : Free s st h.g) : transferFrame h f s = finish (f s st) := by
  unfold transferFrame
  rw [onCur_issuing fr.toIssuing]
  simp only [fr.results, Bool.false_eq_true, if_false]

section
variable {h : Hdr} {off : Word} {s : State} {st : Strand}

theorem exec_br_free (fr : Free s st h.g) : exec (.br h off) s =
    finish (transfer s st (guardFlags st h.g) (st.pc + off.signExtend 64) 12 (fun p => { p with calls := id p.calls })) := by
  show execBr h off s = _
  unfold execBr
  exact transferFrame_free fr

/-- BRW with its walk bound and its bit of e clear is taken as BR is (R149). -/
theorem exec_brw_free {w : BitVec 4} {level : R11} (fr : Free s st h.g) (hb : (walkOf st w.toNat).bound = true)
    (he : nth (walkOf st w.toNat).e level.toNat true = false) : exec (.brw h w level off) s =
    finish (transfer s st (guardFlags st h.g) (st.pc + off.signExtend 64) 12 (fun p => { p with calls := id p.calls })) := by
  show execBrw h w level off s = _
  unfold execBrw
  rw [transferFrame_free fr]
  simp only [hb, he, Bool.not_false, Bool.and_true, List.map_id']
  rfl

theorem exec_call_free (fr : Free s st h.g) (hdepth : st.calls.length < 8) : exec (.call h off) s =
    finish (transfer s st (guardFlags st h.g) (st.pc + off.signExtend 64) 12 (fun p => { p with calls := (st.pc + 12) :: p.calls })) := by
  show execCall h off s = _
  unfold execCall
  rw [transferFrame_free fr, if_neg (by omega)]
  rfl

theorem exec_ret_free {ra : DWord} {rest : List DWord} (fr : Free s st h.g) (hcalls : st.calls = ra :: rest) : exec (.ret h) s =
    finish (transfer s st (guardFlags st h.g) ra 8 (fun p => { p with calls := p.calls.drop 1 })) := by
  show execRet h s = _
  unfold execRet
  rw [transferFrame_free fr, hcalls]

end

/-- Settles O29: each transfer is taken where its guard holds, with the target and the call stack that it gives to what takes it. -/
theorem transfersDiverge : Obligations.TransfersDiverge := by
  intro h off w level s st fr act target split hsome hnot
  refine ⟨transfer_splits fr hsome hnot (exec_br_free fr), fun hb he => transfer_splits fr hsome hnot (exec_brw_free fr hb he),
    fun hdepth => transfer_splits (calls := ((st.pc + 12) :: ·)) fr hsome hnot (exec_call_free fr hdepth), fun ra rest hcalls => ?_⟩
  have hsplit := transfer_splits (calls := List.drop 1) fr hsome hnot (exec_ret_free fr hcalls)
  rwa [show st.calls.drop 1 = rest by rw [hcalls]; rfl] at hsplit

end Sys2Proof.Machine
end

section
/-! PROOFS. Two statements that fail as they are written (O33, O51): in each, one clause lacks a hypothesis, and a concrete state shows it. -/

namespace Sys2Proof.Machine

/-! ### A JOINW whose group grows while it completes (R47, R241) -/

/-- A strand of one index of the launch that is still before its placement cut, in an enrolment in j0, blocked at a JOINW. -/
def uncutMember (sid i : ℕ) : Strand :=
  { newStrand sid 1 none .gn placeVa i 1 0 0 0 [] with enrol := List.replicate 16 9, status := .blocked (.join 0 0 0) }

/-- The strand of index 0, in its team and in the same enrolment, which comes to its JOINW. -/
def teamMember : Strand := { newStrand 4 1 (some 0) .gn placeVa 0 1 0 0 0 [] with enrol := List.replicate 16 9 }

/-- The strand once it has arrived. -/
def teamMemberArrived : Strand := { teamMember with status := .blocked (.join 0 0 0) }

/-- The machine in which the strand issues its JOINW. The indices 1 and 3 have arrived before their cut, so the join of those two is complete as well; as they leave a gap, their merge takes
the placement cut, and what it makes of them are members of team 0. -/
def lateCut : State :=
  { State.reset with
    cur := some 4, nextId := 5, teams := [placeTeam 1], launches := [{ placeLaunch 1 0 with grid := 4 }], strands := [uncutMember 2 1, uncutMember 3 3, teamMember] }

theorem teamMember_wf : StrandWf teamMember where
  held := by decide
  first := by decide
  last := by decide
  attached := by decide
  cols := by simp [teamMember, newStrand]
  qcols := by simp [teamMember, newStrand]
  depth := by decide

theorem teamMemberArrived_wf : StrandWf teamMemberArrived :=
  ⟨teamMember_wf.held, teamMember_wf.first, teamMember_wf.last, teamMember_wf.attached, teamMember_wf.cols, teamMember_wf.qcols, teamMember_wf.depth⟩

theorem lateCut_collective : Collective lateCut teamMember .none [] false false where
  cur := rfl
  here := rfl
  addr := rfl
  wf := teamMember_wf
  guard := rfl
  results := rfl
  reads := rfl
  clean := rfl
  placed := by decide

theorem lateCut_freshIds : FreshIds lateCut where
  given := by decide
  distinct := by decide

/-- The machine with the strand blocked at its JOINW. -/
def lateCutBlocked : State := blockOn (performLoads lateCut teamMember) teamMember.sid (.join 0 0 0)

/-- Of the strands of team 0 it is then the only member. -/
theorem lateCut_members : membersOf lateCutBlocked teamMemberArrived 0 = [teamMemberArrived] := by decide

/-- The cut has made of the two others one strand of team 0, ready behind its JOINW; with this member not at its JOINW, index 0 stays blocked. -/
theorem lateCut_after : (endRun (wakeTeam lateCutBlocked 1 (some 0))).strands.map (fun u => (present u, u.team, u.status == .ready)) = [([1, 3], some 0, true), ([0], some 0, false)] := by
  decide +kernel

/-- Refutes O33: where every member of the group has arrived, the JOINW clause has each of them ready behind it. But the same wake-up tries the joins of the launch in turn, and one of
strands before their placement cut (log 86) may come first, whose cut brings a strand of the same enrolment into the team. So it is in `lateCut`: index 0 stays blocked. The clause lacks
that no strand of the launch outside the group waits in the same enrolment. -/
theorem not_waitingInstructions : ¬Obligations.WaitingInstructions := by
  unfold Obligations.WaitingInstructions
  intro holds
  obtain ⟨-, -, -, join⟩ := (holds ⟨false, .none⟩ false 0 0 0 0 0 0 0 0 lateCut teamMember).1 lateCut_collective
  obtain ⟨-, released⟩ := join lateCut_freshIds rfl teamMemberArrived rfl
  have members : ∀ m ∈ membersOf lateCutBlocked teamMemberArrived 0, m = teamMemberArrived := by
    rw [lateCut_members]
    exact fun m hm => List.mem_singleton.mp hm
  obtain ⟨u, (hu : u ∈ (endRun (wakeTeam lateCutBlocked 1 (some 0))).strands), -, hin, -, hready, -⟩ := released
    (fun m hm => by rw [members m hm]; exact ⟨rfl, by decide, by decide, teamMemberArrived_wf⟩)
    (fun m hm o ho _ _ _ => (members m hm).trans (members o ho).symm)
    teamMemberArrived (lateCut_members ▸ List.mem_singleton.mpr rfl) 0 (by decide)
  have hrow := List.mem_map_of_mem (f := fun u => (present u, u.team, u.status == .ready)) hu
  rw [lateCut_after] at hrow
  rw [hready] at hrow
  simp at hrow
  rw [hrow.1] at hin
  exact absurd hin (by decide)

/-! ### A moult that hands on a register without a value (R28, R237) -/

/-- The strand of index 0, whose v0 is in a form X that has no value for it. -/
def valueless : Strand := { newStrand 2 1 (some 0) .gn placeVa 0 1 0 0 0 [] with regs := [(0, .x [])] }

def valuelessMoult : State := { State.reset with nextId := 3, teams := [placeTeam 1], launches := [placeLaunch 1 0], strands := [valueless] }

/-- An inheritance word that hands on v0 to v15 (R234). -/
def handsFirst16 : Word := 0x8000

/-- The successor's strand has the value 0 in v0. -/
theorem valuelessMoult_after : (succeed valuelessMoult 1 0 placeKernel handsFirst16).strands.map (fun u => valueAt u 0 0) = [some 0] := by
  decide +kernel

/-- Refutes O51: in the clause on the successor of a moult an inherited register has, at each index, the value that it had in the predecessor's strand, whatever that strand is. Where an X form of
that strand has fewer values than the strand has indices, it has none there, while every register of a strand that starts has one. So it is in `valuelessMoult`, which no step reaches: the
clause lacks that the strands of the team are as R26 and R28 keep them (`StrandWf`). -/
theorem not_waitEvents : ¬Obligations.WaitEvents := by
  unfold Obligations.WaitEvents
  intro holds
  obtain ⟨-, -, -, moult, -⟩ := holds
  obtain ⟨-, -, starts⟩ := moult valuelessMoult 1 0 (placeTeam 1) placeKernel handsFirst16 rfl rfl rfl
  obtain ⟨u, hu, -, -, -, -, -, -, -, -, -, -, inherits⟩ := starts ⟨.gn, 64, 0, 1, 0⟩ (by decide) 0 (by decide) (by decide) (by decide)
  have hold : valueAt valueless 0 0 = none := rfl
  have hnew : valueAt u 0 0 = some 0 := by
    have := List.mem_map_of_mem (f := fun u => valueAt u 0 0) hu
    rw [valuelessMoult_after] at this
    exact List.mem_singleton.mp this
  have hsame := inherits valueless (List.mem_singleton.mpr rfl) rfl rfl rfl (by decide) (fun x hx _ _ => List.mem_singleton.mp hx) 0 (by decide)
  rw [hnew, hold] at hsame
  exact Option.some_ne_none _ hsame

end Sys2Proof.Machine
end

section
/-! PROOFS. Integer instructions and shifts (O9, O11, O12). First what every register instruction of one word needs: two functions that agree modulo 2^32 on operands
of one word give the same, and an element of 32 bits is the whole operand. -/

namespace Sys2Proof.Machine

/-! ### Elements of a register pattern (R57) -/

theorem joinElems_one (w : ℕ) (f : ℕ → ℕ) : joinElems w 1 f = f 0 % 2 ^ w := by
  simp [joinElems]

theorem joinElems_congr {w n : ℕ} {f g : ℕ → ℕ} (h : ∀ j, f j = g j) : joinElems w n f = joinElems w n g := by
  rw [funext h]

theorem subElem_lt (w j x : ℕ) : subElem w j x < 2 ^ w := Nat.mod_lt _ (Nat.two_pow_pos w)

@[simp] theorem subElem_word (x : ℕ) : subElem 32 0 x = x % 2 ^ 32 := by
  simp [subElem, field]

/-- Two functions that agree on patterns of the element's width do the same to every element. -/
theorem mapElems1_congr {w : ℕ} {f g : ℕ → ℕ} (h : ∀ x < 2 ^ w, f x = g x) : mapElems1 w f = mapElems1 w g :=
  funext fun x => joinElems_congr fun j => h _ (subElem_lt w j x)

theorem mapElems2_congr {w : ℕ} {f g : ℕ → ℕ → ℕ} (h : ∀ x < 2 ^ w, ∀ y < 2 ^ w, f x y = g x y) : mapElems2 w f = mapElems2 w g :=
  funext fun x => funext fun y => joinElems_congr fun j => h _ (subElem_lt w j x) _ (subElem_lt w j y)

/-- One element of 32 bits is the whole word. -/
theorem mapElems1_word (f : ℕ → ℕ) {x : ℕ} (hx : x < 2 ^ 32) : mapElems1 32 f x = f x % 2 ^ 32 := by
  rw [mapElems1, show elemCount 32 = 1 from rfl, joinElems_one, subElem_word, Nat.mod_eq_of_lt hx]

theorem mapElems2_word (f : ℕ → ℕ → ℕ) {x y : ℕ} (hx : x < 2 ^ 32) (hy : y < 2 ^ 32) : mapElems2 32 f x y = f x y % 2 ^ 32 := by
  rw [mapElems2, show elemCount 32 = 1 from rfl, joinElems_one, subElem_word, subElem_word, Nat.mod_eq_of_lt hx, Nat.mod_eq_of_lt hy]

/-! ### Operands of one word (R54, R88) -/

/-- An operand whose value is one word. -/
def Opnd.OneWord : Opnd → Prop
  | .v _ n => n = 1
  | .lit x => x < 2 ^ 32
  | .q _ _ => True

theorem opndVals_lt {o : Opnd} (h : o.OneWord) (st : Strand) {x : ℕ} (hx : x ∈ opndVals st o) : x < 2 ^ 32 := by
  cases o with
  | v r n =>
    obtain rfl : n = 1 := h
    obtain ⟨row, hrow, rfl⟩ := List.mem_map.mp hx
    obtain ⟨k, -, rfl⟩ := List.mem_map.mp hrow
    simpa [joinWords] using (nth (regVals st r) k 0).isLt
  | lit y =>
    obtain ⟨_, -, rfl⟩ := List.mem_map.mp hx
    exact h
  | q k neg =>
    obtain ⟨b, -, rfl⟩ := List.mem_map.mp hx
    unfold bit
    split <;> decide

theorem nth_mem_or_default {α : Type} (xs : List α) (k : ℕ) (a : α) : nth xs k a ∈ xs ∨ nth xs k a = a := by
  unfold nth
  by_cases hk : k < xs.length
  · exact .inl (by rw [List.getD_eq_getElem _ _ hk]; exact List.getElem_mem hk)
  · exact .inr (List.getD_eq_default _ _ (by omega))

/-- The operands at an index are words where each operand is one. -/
theorem arg_lt_of_oneWord {st : Strand} {srcs : List Opnd} (h : ∀ o ∈ srcs, o.OneWord) {x : List ℕ} (hx : x ∈ operandRows st srcs) (j : ℕ) :
    arg x j < 2 ^ 32 := by
  obtain ⟨k, -, rfl⟩ := List.mem_map.mp hx
  show nth ((srcs.map (opndVals st)).map (fun c => nth c k 0)) j 0 < 2 ^ 32
  rcases nth_mem_or_default ((srcs.map (opndVals st)).map (fun c => nth c k 0)) j 0 with hm | h0
  · obtain ⟨col, hcol, he⟩ := List.mem_map.mp hm
    obtain ⟨o, ho, rfl⟩ := List.mem_map.mp hcol
    rw [← he]
    rcases nth_mem_or_default (opndVals st o) k 0 with hv | h0
    · exact opndVals_lt (h o ho) st hv
    · rw [h0]
      decide
  · rw [h0]
    decide

/-! ### What an instruction gives depends on the words written -/

theorem columns_congr {st : Strand} {g : Guard} {d n : ℕ} {vals vals' : List ℕ} (h : ∀ k < n, vals.map (wordOf k) = vals'.map (wordOf k)) :
    columns st g d n vals = columns st g d n vals' := by
  unfold columns
  refine List.map_congr_left fun k hk => ?_
  rw [h k (List.mem_range.mp hk)]

theorem wrote_congr {st u : Strand} {g : Guard} {len d n : ℕ} {vals vals' : List ℕ} (h : columns st g d n vals = columns st g d n vals')
    (w : Wrote st u g len d n vals) : Wrote st u g len d n vals' :=
  ⟨w.pc, w.indices, h ▸ w.value, w.other, w.poison, w.attached, w.dirty, w.same⟩

/-- The words of what is given decide what is given. -/
theorem gives_congr {i : Instr} {g : Guard} {len d n : ℕ} {srcs : List Opnd} {f f' : List ℕ → ℕ}
    (h : ∀ st, ∀ x ∈ operandRows st srcs, ∀ k < n, wordOf k (f x) = wordOf k (f' x)) (hf : Gives i g len d n srcs f) : Gives i g len d n srcs f' := by
  intro s st rd wr un
  have hc : columns st g d n ((operandRows st srcs).map f) = columns st g d n ((operandRows st srcs).map f') :=
    columns_congr fun k hk => by simpa using fun x hx => h st x hx k hk
  obtain ⟨u, he, hw⟩ := hf s st rd (hc ▸ wr) un
  exact ⟨u, he, wrote_congr hc hw⟩

theorem wordOf_zero_congr {x y : ℕ} (h : x % 2 ^ 32 = y % 2 ^ 32) : wordOf 0 x = wordOf 0 y := by
  apply BitVec.eq_of_toNat_eq
  simpa [wordOf] using h

/-- An instruction of the shape `vop` with one destination gives any function that is the same modulo 2^32 on words. -/
theorem vop_gives_word {i : Instr} {h : Hdr} {len d : ℕ} {srcs : List Opnd} {f f' : List ℕ → ℕ} (hi : ∀ s, exec i s = vop h len d 1 srcs f s)
    (hs : ∀ o ∈ srcs, o.OneWord) (hf : ∀ x, (∀ j, arg x j < 2 ^ 32) → f x % 2 ^ 32 = f' x % 2 ^ 32) : Gives i h.g len d 1 srcs f' := by
  refine gives_congr (fun st x hx k hk => ?_) (vop_gives hi)
  obtain rfl : k = 0 := by omega
  exact wordOf_zero_congr (hf x (arg_lt_of_oneWord hs hx))

/-- A one-operand operation on words. -/
theorem vop_gives_word1 {i : Instr} {h : Hdr} {len d a : ℕ} {f f' : ℕ → ℕ} (hi : ∀ s, exec i s = vop h len d 1 [.v a 1] (fun x => mapElems1 32 f (arg x 0)) s)
    (hf : ∀ x < 2 ^ 32, f x % 2 ^ 32 = f' x % 2 ^ 32) : Gives i h.g len d 1 [.v a 1] (fun x => f' (arg x 0)) :=
  vop_gives_word hi (by simp [Opnd.OneWord]) fun x hx => by rw [mapElems1_word f (hx 0), Nat.mod_mod, hf _ (hx 0)]

/-- A two-operand operation on words. -/
theorem vop_gives_word2 {i : Instr} {h : Hdr} {len d a b : ℕ} {f f' : ℕ → ℕ → ℕ}
    (hi : ∀ s, exec i s = vop h len d 1 [.v a 1, .v b 1] (fun x => mapElems2 32 f (arg x 0) (arg x 1)) s)
    (hf : ∀ x < 2 ^ 32, ∀ y < 2 ^ 32, f x y % 2 ^ 32 = f' x y % 2 ^ 32) : Gives i h.g len d 1 [.v a 1, .v b 1] (fun x => f' (arg x 0) (arg x 1)) :=
  vop_gives_word hi (by simp [Opnd.OneWord]) fun x hx => by rw [mapElems2_word f (hx 0) (hx 1), Nat.mod_mod, hf _ (hx 0) _ (hx 1)]

/-! ### Wrapping, clamping and two's complement (R4, R55) -/

theorem wrapTo_eq (w : ℕ) (z : ℤ) : wrapTo w z = (z % 2 ^ w).toNat := by
  simp [wrapTo]

theorem wrapTo_neg_one (w : ℕ) : wrapTo w (-1) = 2 ^ w - 1 := by
  have hpos : (0 : ℤ) < 2 ^ w := by positivity
  rw [wrapTo_eq, ← Int.add_emod_right, Int.emod_eq_of_lt (by omega) (by omega)]
  have hcast : ((2 ^ w : ℕ) : ℤ) = 2 ^ w := by push_cast; rfl
  omega

theorem wrapTo_eq_toNat_ofInt (w : ℕ) (z : ℤ) : wrapTo w z = (BitVec.ofInt w z).toNat := (BitVec.toNat_ofInt z).symm

/-- The least value of a type is not above the greatest. -/
theorem intMin_le_intMax (sg : Bool) (w : ℕ) : intMin sg w ≤ intMax sg w := by
  have h1 : 0 < 2 ^ (w - 1) := Nat.two_pow_pos _
  have h2 : 0 < 2 ^ w := Nat.two_pow_pos _
  cases sg <;> simp only [intMin, intMax] <;> grind

theorem clampTo_eq_max_min (sg : Bool) (w : ℕ) (z : ℤ) : clampTo sg w z = max (intMin sg w) (min (intMax sg w) z) := by
  have h := intMin_le_intMax sg w
  unfold clampTo
  split
  · rw [min_eq_right (by omega), max_eq_left (by omega)]
  · split
    · rw [min_eq_left (by omega), max_eq_right h]
    · rw [min_eq_right (by omega), max_eq_right (by omega)]

theorem narrow_eq (sg sat : Bool) (w : ℕ) (z : ℤ) :
    narrow sg sat w z = ((if sat then max (intMin sg w) (min (intMax sg w) z) else z) % 2 ^ w).toNat := by
  rw [narrow, wrapTo_eq, clampTo_eq_max_min]

/-- Reading a pattern in two's complement is what a bit vector does. -/
theorem signed_eq_toInt {w : ℕ} (hw : 0 < w) (x : ℕ) : signed w x = (BitVec.ofNat w x).toInt := by
  have hp : 2 ^ w = 2 * 2 ^ (w - 1) := by rw [← pow_succ', Nat.sub_add_cancel hw]
  rw [BitVec.toInt_eq_toNat_cond, BitVec.toNat_ofNat, signed]
  simp only [hp, Nat.mul_lt_mul_left (show 0 < 2 by decide)]

/-! ### Integer instructions on elements of every type (O9) -/

theorem intWords_eq (t : IntTy) : intWords t = if intWidth t = 64 then 2 else 1 := by
  simp [intWords, intWide]

theorem intSrc_eq (b : Src) (t : IntTy) : intSrc b t = srcOpnd b (if intWidth t = 64 then 2 else 1) (intSigned t) := by
  rw [intSrc, intWords_eq]

section
variable {i : Instr} {h : Hdr} {len d a : ℕ} {b : Src} {t : IntTy}

/-- A two-operand integer instruction gives its element function at each element. -/
theorem int2_gives {f g : ℕ → ℕ → ℕ} (hi : ∀ s, exec i s = int2 h len d a (intSrc b t) t f s) (hf : ∀ x y, f x y = g x y) :
    Gives i h.g len d (if intWidth t = 64 then 2 else 1) [.v a (if intWidth t = 64 then 2 else 1), srcOpnd b (if intWidth t = 64 then 2 else 1) (intSigned t)]
      (fun x => mapElems2 (intWidth t) g (arg x 0) (arg x 1)) := by
  rw [← intSrc_eq, ← intWords_eq, ← show f = g from funext fun x => funext (hf x)]
  exact vop_gives hi

theorem int1_gives {f g : ℕ → ℕ} (hi : ∀ s, exec i s = int1 h len d a t f s) (hf : ∀ x, f x = g x) :
    Gives i h.g len d (if intWidth t = 64 then 2 else 1) [.v a (if intWidth t = 64 then 2 else 1)] (fun x => mapElems1 (intWidth t) g (arg x 0)) := by
  rw [← intWords_eq, ← show f = g from funext hf]
  exact vop_gives hi

end

theorem elDiv_eq (t : IntTy) (sat : Bool) (x y : ℕ) : elDiv t sat x y =
    if intVal (intSigned t) (intWidth t) y = 0 then 2 ^ intWidth t - 1
    else narrow (intSigned t) sat (intWidth t) ((intVal (intSigned t) (intWidth t) x).tdiv (intVal (intSigned t) (intWidth t) y)) := by
  rw [← wrapTo_neg_one]
  rfl

theorem elRem_eq (t : IntTy) (x y : ℕ) : elRem t x y =
    if intVal (intSigned t) (intWidth t) y = 0 then x % 2 ^ intWidth t
    else ((intVal (intSigned t) (intWidth t) x).tmod (intVal (intSigned t) (intWidth t) y) % 2 ^ intWidth t).toNat := by
  rw [← wrapTo_eq]
  rfl

/-- Settles O9: each instruction is its element function over the elements, and each element function narrows the exact result (`narrow_eq`). -/
theorem integerFull : Obligations.IntegerFull := by
  intro h d a c k b t sat
  refine ⟨int2_gives (fun _ => rfl) fun x y => narrow_eq _ _ _ _, int2_gives (fun _ => rfl) fun x y => narrow_eq _ _ _ _,
    int2_gives (fun _ => rfl) fun x y => narrow_eq _ _ _ _, int2_gives (fun _ => rfl) fun x y => ?_, int2_gives (fun _ => rfl) (elRem_eq t),
    int2_gives (fun _ => rfl) fun x y => rfl, int2_gives (fun _ => rfl) fun x y => rfl, int1_gives (fun _ => rfl) fun x => narrow_eq _ _ _ _,
    int1_gives (fun _ => rfl) fun x => narrow_eq _ _ _ _, int1_gives (fun _ => rfl) fun x => ?_, ?_⟩
  case refine_1 => rw [elDiv_eq, narrow_eq]
  case refine_2 => rw [elAddk, elAdd, narrow_eq, wrapTo_eq]; rfl
  case refine_3 =>
    rw [← intSrc_eq, ← intWords_eq]
    simp only [← wrapTo_eq]
    exact vop_gives fun _ => rfl

/-! ### Shifts (R58; O11, O12) -/

theorem shiftLeft_eq (w x n : ℕ) : shiftLeft w x n = (BitVec.ofNat w x <<< n).toNat := by
  rw [BitVec.toNat_shiftLeft, BitVec.toNat_ofNat, Nat.shiftLeft_eq, Nat.mod_mul_mod, shiftLeft]
  split
  · next hn => exact (Nat.mod_eq_zero_of_dvd (Dvd.dvd.mul_left (pow_dvd_pow 2 hn) x)).symm
  · rfl

theorem shiftRightLogical_eq (w x n : ℕ) : shiftRightLogical w x n = (BitVec.ofNat w x >>> n).toNat := by
  rw [BitVec.toNat_ushiftRight, BitVec.toNat_ofNat, Nat.shiftRight_eq_div_pow, shiftRightLogical]
  split
  · next hn => exact (Nat.div_eq_of_lt ((Nat.mod_lt _ (Nat.two_pow_pos w)).trans_le (Nat.pow_le_pow_right (by decide) hn))).symm
  · rfl

/-- An arithmetic shift by the width or more leaves the sign at every bit. -/
theorem wrapTo_signed_div_of_le {w n : ℕ} (hn : w ≤ n) (x : ℕ) :
    wrapTo w (signed w x / ((2 ^ n : ℕ) : ℤ)) = if signed w x < 0 then 2 ^ w - 1 else 0 := by
  have hx : x % 2 ^ w < 2 ^ w := Nat.mod_lt _ (Nat.two_pow_pos w)
  have hpow : 2 ^ w ≤ 2 ^ n := Nat.pow_le_pow_right (by decide) hn
  have hlow : -((2 ^ n : ℕ) : ℤ) ≤ signed w x := by unfold signed; split <;> omega
  have hhigh : signed w x < ((2 ^ n : ℕ) : ℤ) := by unfold signed; split <;> omega
  split
  · next hneg => rw [show signed w x / ((2 ^ n : ℕ) : ℤ) = -1 by rw [Int.ediv_eq_iff_of_pos (by omega)]; omega, wrapTo_neg_one]
  · next => rw [Int.ediv_eq_zero_of_lt (by omega) hhigh]; rfl

theorem shiftRightArith_eq {w : ℕ} (hw : 0 < w) (x n : ℕ) : shiftRightArith w x n = ((BitVec.ofNat w x).sshiftRight n).toNat := by
  rw [BitVec.sshiftRight_eq, Int.shiftRight_eq_div_pow, ← signed_eq_toInt hw, ← wrapTo_eq_toNat_ofInt, shiftRightArith]
  split
  · next hn => rw [wrapTo_signed_div_of_le hn]
  · rfl

theorem rotateLeft_eq (w x n : ℕ) : rotateLeft w x n = ((BitVec.ofNat w x).rotateLeft n).toNat := by
  rw [BitVec.toNat_rotateLeft, BitVec.toNat_ofNat, Nat.shiftLeft_eq, Nat.shiftRight_eq_div_pow]
  rfl

section
variable {i : Instr} {h : Hdr} {len d a : ℕ} {t : WTy} {f : ℕ → ℕ → ℕ → ℕ} {g : ℕ → ℕ → ℕ}

/-- A shift by an operand: the amount is one register for 64 bits, and the same sub-element else. -/
theorem shift2_gives {b : Opnd} (hi : ∀ s, exec i s = shift2 h len d a b t f s) (hf : ∀ x m, f (wWidth t) x m = g x m) :
    Gives i h.g len d (wWords t) [.v a (wWords t), b] (fun x => if t = .w64 then g (arg x 0) (arg x 1) else mapElems2 (wWidth t) g (arg x 0) (arg x 1)) := by
  obtain rfl : f (wWidth t) = g := funext fun x => funext (hf x)
  have hv := vop_gives hi
  cases t <;> exact hv

/-- A shift by an immediate, which serves every sub-element. -/
theorem shiftk_gives {k : ℕ} (hi : ∀ s, exec i s = shiftk h len d a k t f s) (hf : ∀ x m, f (wWidth t) x m = g x m) :
    Gives i h.g len d (wWords t) [.v a (wWords t)] (fun x => mapElems1 (wWidth t) (fun e => g e k) (arg x 0)) := by
  obtain rfl : f (wWidth t) = g := funext fun x => funext (hf x)
  exact vop_gives hi

/-- On words the amount is the whole of operand b. -/
theorem shift2_word_gives {b : ℕ} (hi : ∀ s, exec i s = shift2 h len d a (.v b 1) .w32 f s) (hf : ∀ x m, f 32 x m = g x m) :
    Gives i h.g len d 1 [.v a 1, .v b 1] (fun x => g (arg x 0) (arg x 1)) :=
  vop_gives_word2 hi fun x _ y _ => congrArg (· % 2 ^ 32) (hf x y)

theorem shiftk_word_gives {k : ℕ} (hi : ∀ s, exec i s = shiftk h len d a k .w32 f s) (hf : ∀ x m, f 32 x m = g x m) :
    Gives i h.g len d 1 [.v a 1] (fun x => g (arg x 0) k) :=
  vop_gives_word1 (f' := fun x => g x k) hi fun x _ => congrArg (· % 2 ^ 32) (hf x k)

end

/-- Settles O11: on words each shift of the model is that of a bit vector, by the whole amount. -/
theorem shiftCompact : Obligations.ShiftCompact := by
  intro h d a b k
  exact ⟨shift2_word_gives (fun _ => rfl) (shiftLeft_eq 32), shift2_word_gives (fun _ => rfl) (shiftRightLogical_eq 32),
    shift2_word_gives (fun _ => rfl) (shiftRightArith_eq (by decide)), shift2_word_gives (fun _ => rfl) (rotateLeft_eq 32),
    shiftk_word_gives (fun _ => rfl) (shiftLeft_eq 32), shiftk_word_gives (fun _ => rfl) (shiftRightLogical_eq 32),
    shiftk_word_gives (fun _ => rfl) (shiftRightArith_eq (by decide))⟩

theorem shiftRightArith_unfold (w x m : ℕ) :
    shiftRightArith w x m = if w ≤ m then (if signed w x < 0 then 2 ^ w - 1 else 0) else (signed w x / 2 ^ m % 2 ^ w).toNat := by
  rw [shiftRightArith, wrapTo_eq]
  push_cast
  rfl

/-- Settles O12: the model's shifts are by the whole amount as R58 has them. -/
theorem shiftFull : Obligations.ShiftFull := by
  intro h d a k b t
  have sar := shift2_gives (i := .sarFull h d a b t) (fun _ => rfl) (shiftRightArith_unfold (wWidth t))
  have sark := shiftk_gives (i := .sarkFull h d a k t) (fun _ => rfl) (shiftRightArith_unfold (wWidth t))
  exact ⟨shift2_gives (g := shiftLeft (wWidth t)) (fun _ => rfl) fun _ _ => rfl,
    shift2_gives (g := shiftRightLogical (wWidth t)) (fun _ => rfl) fun _ _ => rfl, sar,
    shift2_gives (g := rotateLeft (wWidth t)) (fun _ => rfl) fun _ _ => rfl,
    shiftk_gives (g := shiftLeft (wWidth t)) (fun _ => rfl) fun _ _ => rfl,
    shiftk_gives (g := shiftRightLogical (wWidth t)) (fun _ => rfl) fun _ _ => rfl, sark⟩

end Sys2Proof.Machine
end

section
/-! PROOFS. Comparison, minimum, maximum and sign operations of reals (O18, O19, O21). The exact order of what two patterns of a binary format stand for is the order of the
patterns read as sign and magnitude: the magnitude is a strictly increasing function of the pattern. -/

namespace Sys2Proof.Machine

/-! ### Exact values as rational numbers (R60) -/

/-- The rational number that a sign, a magnitude and an exponent stand for. -/
def ratOf (s : Bool) (m : ℕ) (e : ℤ) : ℚ := (signedOf s m : ℤ) * 2 ^ e

theorem ratOf_eq_scaled (s : Bool) (m : ℕ) {e g : ℤ} (h : g ≤ e) : ratOf s m e = ((signedOf s m * 2 ^ (e - g).toNat : ℤ) : ℚ) * 2 ^ g := by
  have hpow : (2 : ℚ) ^ (e - g).toNat = 2 ^ (e - g) := by rw [← zpow_natCast, Int.toNat_of_nonneg (by omega)]
  rw [ratOf, Int.cast_mul, Int.cast_pow, Int.cast_ofNat, hpow, mul_assoc, ← zpow_add₀ (by norm_num), sub_add_cancel]

/-- The exact order of finite values is that of the rational numbers. -/
theorem exactLess_fin (s t : Bool) (m n : ℕ) (e f : ℤ) : exactLess (.fin s m e) (.fin t n f) = decide (ratOf s m e < ratOf t n f) := by
  rw [ratOf_eq_scaled s m (min_le_left e f), ratOf_eq_scaled t n (min_le_right e f)]
  simp only [exactLess, decide_eq_decide]
  rw [mul_lt_mul_iff_left₀ (by positivity), Int.cast_lt]

@[simp] theorem signedOf_false (m : ℕ) : signedOf false m = m := rfl

@[simp] theorem signedOf_true (m : ℕ) : signedOf true m = -(m : ℤ) := rfl

/-- A strictly increasing function that keeps 0 keeps the order of signed magnitudes. -/
theorem signedOf_lt_iff_of_strictMono {f : ℕ → ℕ} (hf : StrictMono f) (h0 : f 0 = 0) (s t : Bool) (p q : ℕ) :
    signedOf s (f p) < signedOf t (f q) ↔ signedOf s p < signedOf t q := by
  have hlt := hf.lt_iff_lt (a := p) (b := q)
  have hgt := hf.lt_iff_lt (a := q) (b := p)
  have hp := hf.lt_iff_lt (a := 0) (b := p)
  have hq := hf.lt_iff_lt (a := 0) (b := q)
  cases s <;> cases t <;> simp only [signedOf_false, signedOf_true] <;> omega

/-! ### Magnitudes of a binary format (R60) -/

/-- The magnitude of the pattern p in units of the least positive value, 2^(-126 - fb). -/
def magUnits (fb p : ℕ) : ℕ := if p < 2 ^ fb then p else (2 ^ fb + p % 2 ^ fb) * 2 ^ (p / 2 ^ fb - 1)

/-- A pattern made of a significand k and an exponent stands for their product; a significand that has carried out of the format moves the exponent by itself. -/
theorem magUnits_significand {fb j k : ℕ} (hk : k ≤ 2 * 2 ^ fb) (hn : j = 0 ∨ 2 ^ fb ≤ k) : magUnits fb (j * 2 ^ fb + k) = k * 2 ^ j := by
  have hpos : 0 < 2 ^ fb := Nat.two_pow_pos fb
  unfold magUnits
  generalize 2 ^ fb = B at *
  by_cases hsub : k < B
  · obtain rfl : j = 0 := by omega
    simp [hsub]
  · have hge : ¬(j * B + k < B) := by omega
    rw [if_neg hge]
    rcases Nat.lt_or_ge k (2 * B) with hlt | hcarry
    · have hdiv : (j * B + k) / B = j + 1 := Nat.div_eq_of_lt_le (by rw [add_mul]; omega) (by rw [add_mul, add_mul]; omega)
      have hmod : (j * B + k) % B = k - B := by
        rw [Nat.mul_add_mod_self_right, Nat.mod_eq_sub_mod (by omega), Nat.mod_eq_of_lt (by omega)]
      rw [hdiv, hmod, Nat.add_sub_cancel, Nat.add_sub_cancel' (by omega)]
    · obtain rfl : k = 2 * B := by omega
      rw [← add_mul, Nat.mul_div_cancel _ hpos, Nat.mul_mod_left, add_zero, show j + 2 - 1 = j + 1 from rfl, pow_succ]
      ring

theorem magUnits_zero (fb : ℕ) : magUnits fb 0 = 0 := by
  simp [magUnits]

/-- Every pattern is a significand below twice the first normal one and an exponent, which is 0 for a subnormal one. -/
theorem exists_significand (fb p : ℕ) : ∃ j m, m < 2 * 2 ^ fb ∧ (j = 0 ∨ 2 ^ fb ≤ m) ∧ p = j * 2 ^ fb + m := by
  have hpos : 0 < 2 ^ fb := Nat.two_pow_pos fb
  have hmod : p % 2 ^ fb < 2 ^ fb := Nat.mod_lt p hpos
  have hdiv := Nat.div_add_mod' p (2 ^ fb)
  cases hq : p / 2 ^ fb with
  | zero => exact ⟨0, p % 2 ^ fb, by omega, .inl rfl, by rw [hq] at hdiv; omega⟩
  | succ j => exact ⟨j, 2 ^ fb + p % 2 ^ fb, by omega, .inr (by omega), by rw [hq, add_mul] at hdiv; omega⟩

/-- A greater pattern has a greater magnitude. -/
theorem magUnits_strictMono (fb : ℕ) : StrictMono (magUnits fb) := by
  refine strictMono_nat_of_lt_succ fun p => ?_
  obtain ⟨j, m, hm, hn, rfl⟩ := exists_significand fb p
  rw [add_assoc, magUnits_significand (by omega) hn, magUnits_significand (by omega) (by omega)]
  exact Nat.mul_lt_mul_of_pos_right (Nat.lt_succ_self m) (Nat.two_pow_pos j)

/-! ### What a pattern of a binary format stands for (R60) -/

theorem signBit_eq (fb : ℕ) : signBit fb = 256 * 2 ^ fb := by
  rw [signBit, pow_add, mul_comm]; rfl

theorem field_exponent (fb x : ℕ) : field x fb 8 = x % signBit fb / 2 ^ fb := by
  rw [field, signBit_eq, mul_comm, Nat.mod_mul_right_div_self]
  rfl

theorem fraction_eq (fb x : ℕ) : x % 2 ^ fb = x % signBit fb % 2 ^ fb := by
  rw [signBit_eq, Nat.mod_mul_left_mod]

theorem readBin_eq (fb x : ℕ) : readBin fb x =
    if x % signBit fb / 2 ^ fb = 255 then (if x % signBit fb % 2 ^ fb = 0 then .inf (bitOf x (fb + 8)) else .nan)
    else if x % signBit fb / 2 ^ fb = 0 then .fin (bitOf x (fb + 8)) (x % signBit fb % 2 ^ fb) (-126 - (fb : ℤ))
    else .fin (bitOf x (fb + 8)) (2 ^ fb + x % signBit fb % 2 ^ fb) ((x % signBit fb / 2 ^ fb : ℕ) - 127 - (fb : ℤ)) := by
  rw [readBin, field_exponent, fraction_eq]

/-- The magnitude 255 × 2^fb is an infinity. -/
theorem readBin_inf {fb x : ℕ} (h : x % signBit fb = 255 * 2 ^ fb) : readBin fb x = .inf (bitOf x (fb + 8)) := by
  have hpos : 0 < 2 ^ fb := Nat.two_pow_pos fb
  rw [readBin_eq, h, Nat.mul_div_cancel _ hpos, Nat.mul_mod_left]
  rfl

/-- A magnitude below is a finite value, its significand times a power of 2. -/
theorem readBin_fin {fb x : ℕ} (h : x % signBit fb < 255 * 2 ^ fb) :
    ∃ j m, m < 2 * 2 ^ fb ∧ (j = 0 ∨ 2 ^ fb ≤ m) ∧ x % signBit fb = j * 2 ^ fb + m ∧ readBin fb x = .fin (bitOf x (fb + 8)) m ((j : ℤ) - 126 - fb) := by
  have hpos : 0 < 2 ^ fb := Nat.two_pow_pos fb
  have hmod : x % signBit fb % 2 ^ fb < 2 ^ fb := Nat.mod_lt _ hpos
  have hdiv := Nat.div_add_mod' (x % signBit fb) (2 ^ fb)
  have hexp : x % signBit fb / 2 ^ fb < 255 := by rwa [Nat.div_lt_iff_lt_mul hpos]
  rw [readBin_eq, if_neg hexp.ne]
  cases hq : x % signBit fb / 2 ^ fb with
  | zero => exact ⟨0, x % signBit fb % 2 ^ fb, by omega, .inl rfl, by rw [hq] at hdiv; exact hdiv.symm, by simp⟩
  | succ j =>
    refine ⟨j, 2 ^ fb + x % signBit fb % 2 ^ fb, by omega, .inr (Nat.le_add_right _ _), by rw [hq, add_mul] at hdiv; omega, ?_⟩
    rw [if_neg (Nat.succ_ne_zero j)]
    congr 1
    push_cast
    ring

/-- A magnitude above is a NaN. -/
theorem readBin_nan {fb x : ℕ} (h : 255 * 2 ^ fb < x % signBit fb) : readBin fb x = .nan := by
  have hpos : 0 < 2 ^ fb := Nat.two_pow_pos fb
  have hlt : x % signBit fb < 256 * 2 ^ fb := by rw [← signBit_eq]; exact Nat.mod_lt _ (Nat.two_pow_pos _)
  have hexp : x % signBit fb / 2 ^ fb = 255 := Nat.div_eq_of_lt_le h.le hlt
  have hdiv := Nat.div_add_mod' (x % signBit fb) (2 ^ fb)
  rw [hexp] at hdiv
  rw [readBin_eq, hexp, if_pos rfl, if_neg (by omega)]

theorem le_inf_of_readBin_ne_nan {fb x : ℕ} (h : readBin fb x ≠ .nan) : x % signBit fb ≤ 255 * 2 ^ fb :=
  not_lt.mp fun hlt => h (readBin_nan hlt)

/-- Sign and magnitude of a pattern as one integer. -/
def orderKey (fb x : ℕ) : ℤ := signedOf (bitOf x (fb + 8)) (x % signBit fb)

theorem ratOf_significand {fb j m : ℕ} (s : Bool) (hm : m ≤ 2 * 2 ^ fb) (hn : j = 0 ∨ 2 ^ fb ≤ m) :
    ratOf s m ((j : ℤ) - 126 - fb) = (signedOf s (magUnits fb (j * 2 ^ fb + m)) : ℤ) * 2 ^ (-126 - (fb : ℤ)) := by
  rw [magUnits_significand hm hn, ratOf_eq_scaled s m (g := -126 - (fb : ℤ)) (by omega), show ((j : ℤ) - 126 - fb - (-126 - fb)).toNat = j by omega]
  cases s <;> simp

theorem exactLess_inf_fin (s t : Bool) (m : ℕ) (e : ℤ) {top p : ℕ} (h : p < top) :
    exactLess (.inf s) (.fin t m e) = decide (signedOf s top < signedOf t p) := by
  cases s <;> cases t <;> simp only [exactLess, signedOf_false, signedOf_true] <;> grind

theorem exactLess_fin_inf (s t : Bool) (m : ℕ) (e : ℤ) {top p : ℕ} (h : p < top) :
    exactLess (.fin t m e) (.inf s) = decide (signedOf t p < signedOf s top) := by
  cases s <;> cases t <;> simp only [exactLess, signedOf_false, signedOf_true] <;> grind

theorem exactLess_inf_inf (s t : Bool) {top : ℕ} (h : 0 < top) : exactLess (.inf s) (.inf t) = decide (signedOf s top < signedOf t top) := by
  cases s <;> cases t <;> simp only [exactLess, signedOf_false, signedOf_true] <;> grind

/-- A magnitude below 255 × 2^fb stands for that many units, with the sign of the pattern. -/
theorem readBin_value {fb x : ℕ} (h : x % signBit fb < 255 * 2 ^ fb) : ∃ m e, readBin fb x = .fin (bitOf x (fb + 8)) m e ∧
    ratOf (bitOf x (fb + 8)) m e = (signedOf (bitOf x (fb + 8)) (magUnits fb (x % signBit fb)) : ℤ) * 2 ^ (-126 - (fb : ℤ)) := by
  obtain ⟨j, m, hm, hn, hp, ex⟩ := readBin_fin h
  exact ⟨m, _, ex, by rw [ratOf_significand _ hm.le hn, ← hp]⟩

/-- The exact order of what two patterns stand for is the order of their signs and magnitudes. -/
theorem exactLess_readBin {fb x y : ℕ} (hx : readBin fb x ≠ .nan) (hy : readBin fb y ≠ .nan) :
    exactLess (readBin fb x) (readBin fb y) = decide (orderKey fb x < orderKey fb y) := by
  have hpos : 0 < 2 ^ fb := Nat.two_pow_pos fb
  unfold orderKey
  rcases (le_inf_of_readBin_ne_nan hx).lt_or_eq with fx | ix <;> rcases (le_inf_of_readBin_ne_nan hy).lt_or_eq with fy | iy
  · obtain ⟨_, _, ex, vx⟩ := readBin_value fx
    obtain ⟨_, _, ey, vy⟩ := readBin_value fy
    rw [ex, ey, exactLess_fin, vx, vy, decide_eq_decide, mul_lt_mul_iff_left₀ (by positivity), Int.cast_lt]
    exact signedOf_lt_iff_of_strictMono (magUnits_strictMono fb) (magUnits_zero fb) _ _ _ _
  · obtain ⟨_, _, ex, -⟩ := readBin_value fx
    rw [ex, readBin_inf iy, iy, exactLess_fin_inf _ _ _ _ fx]
  · obtain ⟨_, _, ey, -⟩ := readBin_value fy
    rw [ey, readBin_inf ix, ix, exactLess_inf_fin _ _ _ _ fy]
  · rw [readBin_inf ix, readBin_inf iy, ix, iy, exactLess_inf_inf _ _ (show 0 < 255 * 2 ^ fb by omega)]

/-! ### Comparison (R64, R71; O18) -/

theorem cmpBin_of_nan {fb : ℕ} (c : Cond) {x y : ℕ} (h : readBin fb x = .nan ∨ readBin fb y = .nan) : cmpBin fb c x y = decide (c = .ne) := by
  unfold cmpBin
  rcases h with h | h
  · rw [h]
  · rw [h]
    cases readBin fb x <;> rfl

theorem cmpBin_of_ne_nan {fb : ℕ} (c : Cond) {x y : ℕ} (hx : readBin fb x ≠ .nan) (hy : readBin fb y ≠ .nan) :
    cmpBin fb c x y = condHolds c (orderKey fb x) (orderKey fb y) := by
  unfold cmpBin
  split
  · next h => exact absurd h hx
  · next h _ => exact absurd h hy
  · rfl

/-- The comparison of two exact values: with a NaN only "not equal" holds (R64). -/
def orderedCmp (c : Cond) (x y : RVal) : Bool :=
  if x = .nan ∨ y = .nan then decide (c = .ne)
  else match c with
    | .eq => !exactLess x y && !exactLess y x
    | .ne => exactLess x y || exactLess y x
    | .lt => exactLess x y
    | .ge => !exactLess x y

theorem cmpBin_eq_orderedCmp (fb : ℕ) (c : Cond) (x y : ℕ) : cmpBin fb c x y = orderedCmp c (readBin fb x) (readBin fb y) := by
  unfold orderedCmp
  split
  · next h => exact cmpBin_of_nan c h
  · next h =>
    obtain ⟨hx, hy⟩ := not_or.mp h
    rw [cmpBin_of_ne_nan c hx hy, exactLess_readBin hx hy, exactLess_readBin hy hx]
    cases c <;> simp only [condHolds] <;> grind

theorem push_stacks_of_eq {i : Instr} {h : Hdr} {len : ℕ} {srcs : List Opnd} {p q : List ℕ → Bool} (hi : ∀ s, exec i s = pushOp h len srcs p s)
    (hpq : ∀ x, p x = q x) : Stacks i h.g len srcs (fun x old => q x :: old.take 7) :=
  (funext hpq : p = q) ▸ push_stacks hi

/-- Settles O18: IEEE patterns are compared as their exact values are (`cmpBin_eq_orderedCmp`), tapered ones as integers. -/
theorem realCompare : Obligations.RealCompare := by
  intro h a b a' b' c t
  refine ⟨push_stacks_of_eq (q := fun x => orderedCmp .eq (readBin 23 (arg x 0)) (readBin 23 (arg x 1))) (fun _ => rfl)
    fun x => cmpBin_eq_orderedCmp 23 .eq _ _, push_stacks_of_eq (p := fun x => cmpReal c t (arg x 0) (arg x 1)) (fun _ => rfl) fun x => ?_⟩
  cases t with
  | f32 => exact cmpBin_eq_orderedCmp 23 c _ _
  | bf16 => exact cmpBin_eq_orderedCmp 7 c _ _
  | t16 =>
    rw [cmpReal, signed_eq_toInt (by decide), signed_eq_toInt (by decide)]
    rfl
  | t8 =>
    rw [cmpReal, signed_eq_toInt (by decide), signed_eq_toInt (by decide)]
    rfl

/-! ### Minimum and maximum (R64, R71; O19) -/

theorem bitOf_eq_testBit (x k : ℕ) : bitOf x k = x.testBit k := by
  rw [bitOf, Nat.testBit_eq_decide_div_mod_eq]

/-- A pattern of the format is its sign and its magnitude. -/
theorem eq_of_sign_of_magnitude {fb x y : ℕ} (hx : x < 2 ^ (fb + 9)) (hy : y < 2 ^ (fb + 9)) (hs : bitOf x (fb + 8) = bitOf y (fb + 8))
    (hm : x % signBit fb = y % signBit fb) : x = y := by
  have hw : 2 ^ (fb + 9) = 2 * signBit fb := by rw [signBit, ← pow_succ']
  have hpos : 0 < signBit fb := Nat.two_pow_pos _
  have dx : x / signBit fb < 2 := by rw [Nat.div_lt_iff_lt_mul hpos]; omega
  have dy : y / signBit fb < 2 := by rw [Nat.div_lt_iff_lt_mul hpos]; omega
  have hd : x / signBit fb = y / signBit fb := by
    simp only [bitOf, decide_eq_decide] at hs
    change x / signBit fb % 2 = 1 ↔ y / signBit fb % 2 = 1 at hs
    generalize x / signBit fb = u at *
    generalize y / signBit fb = v at *
    omega
  rw [← Nat.div_add_mod x (signBit fb), ← Nat.div_add_mod y (signBit fb), hd, hm]

/-- The lesser or greater of two patterns by their exact values: the other operand of a NaN, the canonical NaN of two, and −0 below +0 (R64). -/
def ieeeMinMax (fb : ℕ) (wantMax : Bool) (x y : ℕ) : ℕ :=
  if readBin fb x = .nan then (if readBin fb y = .nan then canonNan fb else y)
  else if readBin fb y = .nan then x
  else if exactLess (readBin fb x) (readBin fb y) then (if wantMax then y else x)
  else if exactLess (readBin fb y) (readBin fb x) then (if wantMax then x else y)
  else if x.testBit (fb + 8) = wantMax then y else x

/-- The order of `minBin`: sign and magnitude as one integer, with −0 below +0. -/
def minKey (fb v : ℕ) : ℤ := if bitOf v (fb + 8) then -((v % signBit fb : ℕ) : ℤ) - 1 else ((v % signBit fb : ℕ) : ℤ)

theorem minBin_of_ne_nan {fb x y : ℕ} (wantMax : Bool) (hx : readBin fb x ≠ .nan) (hy : readBin fb y ≠ .nan) :
    minBin fb x y wantMax = if wantMax then (if minKey fb x < minKey fb y then y else x) else (if minKey fb y < minKey fb x then y else x) := by
  unfold minBin
  cases ex : readBin fb x with
  | nan => exact absurd ex hx
  | inf _ | fin _ _ _ =>
    cases ey : readBin fb y with
    | nan => exact absurd ey hy
    | inf _ | fin _ _ _ => rfl

theorem minBin_of_left_nan {fb x y : ℕ} (wantMax : Bool) (hx : readBin fb x = .nan) (hy : readBin fb y ≠ .nan) : minBin fb x y wantMax = y := by
  unfold minBin
  rw [hx]
  cases ey : readBin fb y with
  | nan => exact absurd ey hy
  | inf _ | fin _ _ _ => rfl

theorem minBin_of_right_nan {fb x y : ℕ} (wantMax : Bool) (hx : readBin fb x ≠ .nan) (hy : readBin fb y = .nan) : minBin fb x y wantMax = x := by
  unfold minBin
  rw [hy]
  cases ex : readBin fb x with
  | nan => exact absurd ex hx
  | inf _ | fin _ _ _ => rfl

theorem minBin_of_nans {fb x y : ℕ} (wantMax : Bool) (hx : readBin fb x = .nan) (hy : readBin fb y = .nan) : minBin fb x y wantMax = canonNan fb := by
  rw [minBin, hx, hy]

/-- It is the exact order, but for two zeros. -/
theorem minKey_lt_iff (fb x y : ℕ) : minKey fb x < minKey fb y ↔
    orderKey fb x < orderKey fb y ∨ orderKey fb x = orderKey fb y ∧ bitOf x (fb + 8) = true ∧ bitOf y (fb + 8) = false := by
  unfold minKey orderKey
  generalize x % signBit fb = p
  generalize y % signBit fb = q
  cases bitOf x (fb + 8) <;> cases bitOf y (fb + 8) <;> simp only [signedOf_false, signedOf_true] <;> grind

/-- Patterns of one sign with the same exact value are the same. -/
theorem eq_of_orderKey {fb x y : ℕ} (hx : x < 2 ^ (fb + 9)) (hy : y < 2 ^ (fb + 9)) (hs : bitOf x (fb + 8) = bitOf y (fb + 8))
    (hk : orderKey fb x = orderKey fb y) : x = y := by
  refine eq_of_sign_of_magnitude hx hy hs ?_
  unfold orderKey at hk
  rw [hs] at hk
  cases h : bitOf y (fb + 8) <;> rw [h] at hk <;> simp only [signedOf_false, signedOf_true] at hk <;> omega

theorem minBin_eq_ieeeMinMax {fb x y : ℕ} (wantMax : Bool) (hx : x < 2 ^ (fb + 9)) (hy : y < 2 ^ (fb + 9)) :
    minBin fb x y wantMax = ieeeMinMax fb wantMax x y := by
  unfold ieeeMinMax
  by_cases nx : readBin fb x = .nan <;> by_cases ny : readBin fb y = .nan
  · rw [if_pos nx, if_pos ny, minBin_of_nans _ nx ny]
  · rw [if_pos nx, if_neg ny, minBin_of_left_nan _ nx ny]
  · rw [if_neg nx, if_pos ny, minBin_of_right_nan _ nx ny]
  · rw [if_neg nx, if_neg ny, minBin_of_ne_nan _ nx ny, exactLess_readBin nx ny, exactLess_readBin ny nx, ← bitOf_eq_testBit]
    have hxy := minKey_lt_iff fb x y
    have hyx := minKey_lt_iff fb y x
    have hsame := eq_of_orderKey hx hy
    generalize orderKey fb x = kx at *
    generalize orderKey fb y = ky at *
    rcases lt_trichotomy kx ky with lt | eq | gt
    · have hmin : minKey fb x < minKey fb y := hxy.mpr (.inl lt)
      simp [lt, hmin, hmin.not_gt]
    · subst eq
      simp only [lt_irrefl, false_or, true_and] at hxy hyx
      simp only [hxy, hyx, lt_irrefl, decide_false, Bool.false_eq_true, if_false]
      grind
    · have hmin : minKey fb y < minKey fb x := hyx.mpr (.inl gt)
      simp [gt, gt.not_gt, hmin, hmin.not_gt]

/-- The lesser or greater of two tapered patterns as integers, NaR where either is (R71). -/
def taperedMinMax (w : ℕ) (wantMax : Bool) (x y : ℕ) : ℕ :=
  if x = 2 ^ (w - 1) ∨ y = 2 ^ (w - 1) then 2 ^ (w - 1)
  else if (if wantMax then (BitVec.ofNat w x).toInt < (BitVec.ofNat w y).toInt else (BitVec.ofNat w y).toInt < (BitVec.ofNat w x).toInt) then y else x

/-- FMIN and FMAX of one element by type. -/
def realMinMaxOf (t : RealTy) (wantMax : Bool) (x y : ℕ) : ℕ := match t with
  | .f32 => ieeeMinMax 23 wantMax x y | .bf16 => ieeeMinMax 7 wantMax x y
  | .t8 => taperedMinMax 8 wantMax x y | .t16 => taperedMinMax 16 wantMax x y | .t32 => taperedMinMax 32 wantMax x y

theorem realWidth_pos (t : RealTy) : 0 < realWidth t := by cases t <;> decide

theorem elFminmax_tapered {t : RealTy} (ht : isTapered t = true) (wantMax : Bool) (x y : ℕ) :
    elFminmax t wantMax x y = taperedMinMax (realWidth t) wantMax x y := by
  unfold taperedMinMax
  rw [← signed_eq_toInt (realWidth_pos t), ← signed_eq_toInt (realWidth_pos t)]
  cases t with
  | f32 | bf16 => contradiction
  | t32 | t16 | t8 => cases wantMax <;> rfl

theorem elFminmax_eq (t : RealTy) (wantMax : Bool) {x y : ℕ} (hx : x < 2 ^ realWidth t) (hy : y < 2 ^ realWidth t) :
    elFminmax t wantMax x y = realMinMaxOf t wantMax x y := by
  cases t with
  | f32 => exact minBin_eq_ieeeMinMax wantMax hx hy
  | bf16 => exact minBin_eq_ieeeMinMax wantMax hx hy
  | t8 | t16 | t32 => exact elFminmax_tapered rfl wantMax x y

section
variable {i : Instr} {h : Hdr} {len d a : ℕ} {b : Opnd} {t : RealTy}

/-- A real operation over the elements of one word gives whatever agrees with it on patterns of the type. -/
theorem real2_gives {f g : ℕ → ℕ → ℕ} (hi : ∀ s, exec i s = real2 h len d a b t f s) (hf : ∀ x < 2 ^ realWidth t, ∀ y < 2 ^ realWidth t, f x y = g x y) :
    Gives i h.g len d 1 [.v a 1, b] (fun x => mapElems2 (realWidth t) g (arg x 0) (arg x 1)) := by
  rw [← mapElems2_congr hf]
  exact vop_gives hi

theorem real1_gives {f g : ℕ → ℕ} (hi : ∀ s, exec i s = real1 h len d a t f s) (hf : ∀ x < 2 ^ realWidth t, f x = g x) :
    Gives i h.g len d 1 [.v a 1] (fun x => mapElems1 (realWidth t) g (arg x 0)) := by
  rw [← mapElems1_congr hf]
  exact vop_gives hi

/-- The same of an operation of f32 on whole words. -/
theorem real2_word_gives {b : ℕ} {f g : ℕ → ℕ → ℕ} (hi : ∀ s, exec i s = real2 h len d a (.v b 1) .f32 f s)
    (hf : ∀ x < 2 ^ 32, ∀ y < 2 ^ 32, f x y = g x y) : Gives i h.g len d 1 [.v a 1, .v b 1] (fun x => g (arg x 0) (arg x 1)) :=
  vop_gives_word2 hi fun x hx y hy => congrArg (· % 2 ^ 32) (hf x hx y hy)

theorem real1_word_gives {f g : ℕ → ℕ} (hi : ∀ s, exec i s = real1 h len d a .f32 f s) (hf : ∀ x < 2 ^ 32, f x = g x) :
    Gives i h.g len d 1 [.v a 1] (fun x => g (arg x 0)) :=
  vop_gives_word1 hi fun x hx => congrArg (· % 2 ^ 32) (hf x hx)

end

/-- Settles O19: by the exact order on IEEE patterns (`minBin_eq_ieeeMinMax`) and by integers on tapered ones. -/
theorem realMinMax : Obligations.RealMinMax := by
  intro h d a b d' a' b' t
  exact ⟨real2_word_gives (g := ieeeMinMax 23 false) (fun _ => rfl) fun _ hx _ hy => minBin_eq_ieeeMinMax false hx hy,
    real2_word_gives (g := ieeeMinMax 23 true) (fun _ => rfl) fun _ hx _ hy => minBin_eq_ieeeMinMax true hx hy,
    real2_gives (g := realMinMaxOf t false) (fun _ => rfl) fun _ hx _ hy => elFminmax_eq t false hx hy,
    real2_gives (g := realMinMaxOf t true) (fun _ => rfl) fun _ hx _ hy => elFminmax_eq t true hx hy⟩

/-! ### Signs (R63, R70; O21) -/

/-- A sign bit is turned by adding it or taking it away. -/
theorem xor_two_pow_eq {x k : ℕ} (hx : x < 2 ^ (k + 1)) : x ^^^ 2 ^ k = if bitOf x k then x - 2 ^ k else x + 2 ^ k := by
  have add_xor : ∀ y < 2 ^ k, y + 2 ^ k = y ^^^ 2 ^ k := fun y hy => by
    refine Nat.eq_of_testBit_eq fun j => ?_
    rw [Nat.testBit_xor, Nat.testBit_two_pow, add_comm]
    rcases lt_trichotomy j k with lt | rfl | gt
    · rw [Nat.testBit_two_pow_add_gt lt]
      simp [lt.ne']
    · simp [Nat.testBit_two_pow_add_eq]
    · rw [Nat.testBit_lt_two_pow (hy.trans (Nat.pow_lt_pow_right (by decide) gt)),
        Nat.testBit_lt_two_pow (lt_of_lt_of_le (Nat.add_lt_add_left hy _) (by rw [← two_mul, ← pow_succ']; exact Nat.pow_le_pow_right (by decide) gt))]
      simp [gt.ne]
  have hdiv : x / 2 ^ k < 2 := by rwa [Nat.div_lt_iff_lt_mul (Nat.two_pow_pos k), ← pow_succ']
  split
  · next h =>
    have hle : 2 ^ k ≤ x := by
      by_contra hlt
      simp [bitOf, Nat.div_eq_of_lt (not_le.mp hlt)] at h
    have hx' := add_xor (x - 2 ^ k) (by rw [pow_succ'] at hx; omega)
    rw [Nat.sub_add_cancel hle] at hx'
    conv_lhs => rw [hx', Nat.xor_assoc, Nat.xor_self, Nat.xor_zero]
  · next h =>
    have hdiv0 : x / 2 ^ k = 0 := by
      simp only [bitOf, decide_eq_true_eq] at h
      generalize x / 2 ^ k = u at *
      omega
    exact (add_xor x ((Nat.div_eq_zero_iff_lt (Nat.two_pow_pos k)).mp hdiv0)).symm

theorem bit_bitOf (x k : ℕ) : bit (bitOf x k) = x / 2 ^ k % 2 := by
  unfold bit bitOf
  rcases Nat.mod_two_eq_zero_or_one (x / 2 ^ k) with h | h <;> simp [h]

theorem elFneg_eq {t : RealTy} {x : ℕ} (hx : x < 2 ^ realWidth t) :
    elFneg t x = if isTapered t then (2 ^ realWidth t - x) % 2 ^ realWidth t else x ^^^ 2 ^ (realWidth t - 1) := by
  rw [xor_two_pow_eq (by rwa [Nat.sub_add_cancel (realWidth_pos t)]), elFneg, Nat.mod_eq_of_lt hx]

theorem elFabs_eq {t : RealTy} {x : ℕ} (hx : x < 2 ^ realWidth t) : elFabs t x =
    if isTapered t then (if x.testBit (realWidth t - 1) then (2 ^ realWidth t - x) % 2 ^ realWidth t else x) else x % 2 ^ (realWidth t - 1) := by
  rw [← bitOf_eq_testBit, elFabs, Nat.mod_eq_of_lt hx]

/-- The pattern x with the sign bit of y, both of width w (R63). -/
def copySign (w x y : ℕ) : ℕ := x % 2 ^ (w - 1) + y / 2 ^ (w - 1) % 2 * 2 ^ (w - 1)

theorem elFcps_eq_copySign (w x y : ℕ) : elFcps w x y = copySign w x y := by
  rw [elFcps, bit_bitOf, copySign]

/-- Settles O21: on patterns of the type each operation is the one on its sign bit, or the two's complement. -/
theorem realSign : Obligations.RealSign := by
  intro h d a b d' a' b' t bf
  have neg := real1_gives (i := .fnegFull h d' a' t) (fun _ => rfl) fun _ hx => elFneg_eq hx
  have abs := real1_gives (i := .fabsFull h d' a' t) (fun _ => rfl) fun _ hx => elFabs_eq hx
  refine ⟨real1_word_gives (g := fun x => x ^^^ 2 ^ 31) (fun _ => rfl) fun _ hx => elFneg_eq (t := .f32) hx,
    real1_word_gives (g := fun x => x % 2 ^ 31) (fun _ => rfl) fun _ hx => elFabs_eq (t := .f32) hx,
    real2_word_gives (g := copySign 32) (fun _ => rfl) fun _ _ _ _ => elFcps_eq_copySign 32 _ _, neg, abs, ?_⟩
  cases bf with
  | false => exact real2_gives (t := .f32) (g := copySign 32) (fun _ => rfl) fun _ _ _ _ => elFcps_eq_copySign 32 _ _
  | true => exact real2_gives (t := .bf16) (g := copySign 16) (fun _ => rfl) fun _ _ _ _ => elFcps_eq_copySign 16 _ _

end Sys2Proof.Machine
end

section
/-! PROOFS. Rounding (O22). A value that a format holds is rounded to itself; under the directed modes the result of a binary format lies on its side of the exact value. The first part of
the rounding to a binary format is a pattern before overflow, `roundPat`: its magnitude is the significand, rounded down or up to an integer, times the quantum. -/

namespace Sys2Proof.Machine

/-! ### Powers of 2 and the exponent of a magnitude (R61) -/

theorem pow2_pos (z : ℤ) : 0 < pow2 z := Nat.two_pow_pos _

theorem pow2_cast (z : ℤ) : (pow2 z : ℚ) = pow2 (-z) * 2 ^ z := by
  unfold pow2
  push_cast
  rw [← zpow_natCast, ← zpow_natCast, ← zpow_add₀ (by norm_num)]
  congr 1
  omega

/-- The exponent of m × 2^e is that of m, moved by e. -/
theorem ilog2_scaled {m : ℕ} (hm : 0 < m) (e : ℤ) : ilog2 (m * pow2 e) (pow2 (-e)) = (m.log2 : ℤ) + e := by
  have hlog : (m * pow2 e).log2 = m.log2 + e.toNat := by
    rw [pow2, Nat.log2_eq_iff (by positivity), add_right_comm, pow_add, pow_add]
    exact ⟨Nat.mul_le_mul_right _ (Nat.log2_self_le hm.ne'), Nat.mul_lt_mul_of_pos_right Nat.lt_log2_self (Nat.two_pow_pos _)⟩
  have hk : ((m * pow2 e).log2 : ℤ) - ((pow2 (-e)).log2 : ℤ) = m.log2 + e := by
    rw [hlog, pow2, Nat.log2_two_pow]
    omega
  have hle : pow2 (-e) * pow2 (m.log2 + e) ≤ m * pow2 e * pow2 (-(m.log2 + e)) := by
    unfold pow2
    rw [← pow_add, mul_assoc, ← pow_add, show (-e).toNat + ((m.log2 : ℤ) + e).toNat = m.log2 + (e.toNat + (-((m.log2 : ℤ) + e)).toNat) by omega, pow_add]
    exact Nat.mul_le_mul_right _ (Nat.log2_self_le hm.ne')
  unfold ilog2
  rw [hk, if_pos hle]

/-! ### The pattern of a rounded magnitude before overflow (R61, R62) -/

/-- The exponent of the quantum to which m × 2^e is rounded. -/
def roundExp (fb m : ℕ) (e : ℤ) : ℤ := max ((m.log2 : ℤ) + e - fb) (-126 - fb)

/-- m × 2^e in units of the quantum is the quotient of these two numbers. -/
def scaledNum (fb m : ℕ) (e : ℤ) : ℕ := m * pow2 e * pow2 (-roundExp fb m e)

def scaledDen (fb m : ℕ) (e : ℤ) : ℕ := pow2 (-e) * pow2 (roundExp fb m e)

/-- The significand after rounding. -/
def roundSig (fb : ℕ) (mode : Rnd) (neg : Bool) (m : ℕ) (e : ℤ) : ℕ :=
  scaledNum fb m e / scaledDen fb m e + bit (roundsUp mode neg (scaledNum fb m e / scaledDen fb m e) (scaledNum fb m e % scaledDen fb m e) (scaledDen fb m e))

/-- The pattern of the rounded magnitude, where the format has it. -/
def roundPat (fb : ℕ) (mode : Rnd) (neg : Bool) (m : ℕ) (e : ℤ) : ℕ := (roundExp fb m e + 126 + fb).toNat * 2 ^ fb + roundSig fb mode neg m e

theorem le_roundExp (fb m : ℕ) (e : ℤ) : -126 - (fb : ℤ) ≤ roundExp fb m e := le_max_right _ _

/-- Rounding a magnitude gives that pattern, or overflows by the mode. -/
theorem roundMag_eq (fb : ℕ) (mode : Rnd) (neg : Bool) {m : ℕ} (hm : 0 < m) (e : ℤ) : roundMag fb mode neg (m * pow2 e) (pow2 (-e)) =
    if 255 * 2 ^ fb ≤ roundPat fb mode neg m e then overflowBits fb mode neg else roundPat fb mode neg m e := by
  have hq : (if ilog2 (m * pow2 e) (pow2 (-e)) - (fb : ℤ) < -126 - (fb : ℤ) then -126 - (fb : ℤ) else ilog2 (m * pow2 e) (pow2 (-e)) - (fb : ℤ)) = roundExp fb m e := by
    rw [ilog2_scaled hm, roundExp]
    split <;> omega
  have hmag : (roundExp fb m e - (-126 - (fb : ℤ))) * ((2 ^ fb : ℕ) : ℤ) + (roundSig fb mode neg m e : ℤ) = (roundPat fb mode neg m e : ℕ) := by
    have hj := le_roundExp fb m e
    rw [roundPat, Nat.cast_add, Nat.cast_mul, Int.toNat_of_nonneg (by omega)]
    ring
  unfold roundMag
  simp only [hq]
  change (if _ ≤ (roundExp fb m e - (-126 - (fb : ℤ))) * ((2 ^ fb : ℕ) : ℤ) + (roundSig fb mode neg m e : ℤ) then _ else
    ((roundExp fb m e - (-126 - (fb : ℤ))) * ((2 ^ fb : ℕ) : ℤ) + (roundSig fb mode neg m e : ℤ)).toNat) = _
  rw [hmag, Int.toNat_natCast]
  simp only [Nat.cast_le]

section
variable {fb m : ℕ} {e : ℤ}

theorem scaledDen_pos : 0 < scaledDen fb m e := Nat.mul_pos (pow2_pos _) (pow2_pos _)

/-- The quotient is the exact value in units of the quantum. -/
theorem scaledNum_mul_quantum : (scaledNum fb m e : ℚ) * 2 ^ roundExp fb m e = scaledDen fb m e * (m * 2 ^ e) := by
  unfold scaledNum scaledDen
  push_cast
  rw [pow2_cast e, pow2_cast (roundExp fb m e)]
  ring

/-- Its integer part is a significand of the format: below twice the first normal one, and a normal one above the least exponent. -/
theorem scaled_div_lt : scaledNum fb m e / scaledDen fb m e < 2 * 2 ^ fb := by
  rw [Nat.div_lt_iff_lt_mul scaledDen_pos]
  unfold scaledNum scaledDen pow2
  have hexp : (m.log2 : ℤ) + e - fb ≤ roundExp fb m e := le_max_left _ _
  generalize roundExp fb m e = q at hexp
  have hlt : m < 2 ^ (m.log2 + 1) := Nat.lt_log2_self
  calc m * 2 ^ e.toNat * 2 ^ (-q).toNat < 2 ^ (m.log2 + 1) * 2 ^ e.toNat * 2 ^ (-q).toNat := by gcongr
    _ = 2 ^ (m.log2 + 1 + e.toNat + (-q).toNat) := by ring
    _ ≤ 2 ^ (1 + fb + ((-e).toNat + q.toNat)) := Nat.pow_le_pow_right (by decide) (by omega)
    _ = 2 * 2 ^ fb * (2 ^ (-e).toNat * 2 ^ q.toNat) := by rw [pow_add, pow_add, pow_add, pow_one]

theorem le_scaled_div (hm : 0 < m) (hq : -126 - (fb : ℤ) < roundExp fb m e) : 2 ^ fb ≤ scaledNum fb m e / scaledDen fb m e := by
  rw [Nat.le_div_iff_mul_le scaledDen_pos]
  have hexp : (m.log2 : ℤ) + e - fb = roundExp fb m e := by
    unfold roundExp at hq ⊢
    omega
  unfold scaledNum scaledDen pow2
  generalize roundExp fb m e = q at hexp
  have hle : 2 ^ m.log2 ≤ m := Nat.log2_self_le hm.ne'
  calc 2 ^ fb * (2 ^ (-e).toNat * 2 ^ q.toNat) = 2 ^ (fb + ((-e).toNat + q.toNat)) := by rw [pow_add, pow_add]
    _ ≤ 2 ^ (m.log2 + e.toNat + (-q).toNat) := Nat.pow_le_pow_right (by decide) (by omega)
    _ = 2 ^ m.log2 * 2 ^ e.toNat * 2 ^ (-q).toNat := by rw [pow_add, pow_add]
    _ ≤ m * 2 ^ e.toNat * 2 ^ (-q).toNat := by gcongr

/-- The magnitude of the pattern is the rounded significand times the quantum. -/
theorem magUnits_roundPat (hm : 0 < m) (mode : Rnd) (neg : Bool) :
    (magUnits fb (roundPat fb mode neg m e) : ℚ) * 2 ^ (-126 - (fb : ℤ)) = roundSig fb mode neg m e * 2 ^ roundExp fb m e := by
  have hlt := scaled_div_lt (fb := fb) (m := m) (e := e)
  have hbit : ∀ b, bit b ≤ 1 := by decide
  have hlow := le_roundExp fb m e
  unfold roundPat
  rw [magUnits_significand, Nat.cast_mul, mul_assoc, Nat.cast_pow, ← zpow_natCast, Int.toNat_of_nonneg (by omega)]
  · rw [Nat.cast_ofNat, ← zpow_add₀ (by norm_num), show roundExp fb m e + 126 + fb + (-126 - fb) = roundExp fb m e by omega]
  · exact (Nat.add_le_add_left (hbit _) _).trans hlt
  · rcases hlow.eq_or_lt with h | h
    · exact .inl (by omega)
    · exact .inr ((le_scaled_div hm h).trans (Nat.le_add_right _ _))

/-- Rounded toward zero, the significand is not above the exact value. -/
theorem roundSig_le {mode : Rnd} {neg : Bool} (hmode : ∀ k r d, roundsUp mode neg k r d = false) :
    (roundSig fb mode neg m e : ℚ) * 2 ^ roundExp fb m e ≤ m * 2 ^ e := by
  have hden : (0 : ℚ) < scaledDen fb m e := by exact_mod_cast scaledDen_pos
  have hfloor : ((roundSig fb mode neg m e * scaledDen fb m e : ℕ) : ℚ) ≤ scaledNum fb m e := by
    rw [roundSig, hmode]
    exact_mod_cast Nat.div_mul_le_self _ _
  push_cast at hfloor
  refine le_of_mul_le_mul_left ?_ hden
  rw [← scaledNum_mul_quantum]
  calc (scaledDen fb m e : ℚ) * (roundSig fb mode neg m e * 2 ^ roundExp fb m e)
      = roundSig fb mode neg m e * scaledDen fb m e * 2 ^ roundExp fb m e := by ring
    _ ≤ scaledNum fb m e * 2 ^ roundExp fb m e := by gcongr

/-- Rounded away from zero, it is not below. -/
theorem le_roundSig {mode : Rnd} {neg : Bool} (hmode : ∀ k r d, roundsUp mode neg k r d = decide (0 < r)) :
    m * 2 ^ e ≤ (roundSig fb mode neg m e : ℚ) * 2 ^ roundExp fb m e := by
  have hden : (0 : ℚ) < scaledDen fb m e := by exact_mod_cast scaledDen_pos
  have hceil : (scaledNum fb m e : ℚ) ≤ (roundSig fb mode neg m e * scaledDen fb m e : ℕ) := by
    rw [roundSig, hmode, Nat.cast_le, add_mul]
    have hdiv := Nat.div_add_mod' (scaledNum fb m e) (scaledDen fb m e)
    have hmod := Nat.mod_lt (scaledNum fb m e) (scaledDen_pos (fb := fb) (m := m) (e := e))
    rcases Nat.eq_zero_or_pos (scaledNum fb m e % scaledDen fb m e) with h | h
    · omega
    · rw [decide_eq_true h, show bit true = 1 from rfl, one_mul]
      omega
  push_cast at hceil
  refine le_of_mul_le_mul_left ?_ hden
  rw [← scaledNum_mul_quantum]
  calc (scaledNum fb m e : ℚ) * 2 ^ roundExp fb m e ≤ roundSig fb mode neg m e * scaledDen fb m e * 2 ^ roundExp fb m e := by gcongr
    _ = (scaledDen fb m e : ℚ) * (roundSig fb mode neg m e * 2 ^ roundExp fb m e) := by ring

end

/-! ### Directed rounding to a binary format (R62) -/

/-- The modes and signs that round a magnitude down: `.rd` above zero and `.ru` below. -/
def towardZero (mode : Rnd) (neg : Bool) : Prop := (mode = .rd ∧ neg = false) ∨ (mode = .ru ∧ neg = true)

/-- Those that round it up. -/
def awayFromZero (mode : Rnd) (neg : Bool) : Prop := (mode = .rd ∧ neg = true) ∨ (mode = .ru ∧ neg = false)

section
variable {fb m : ℕ} {e : ℤ} {mode : Rnd} {neg : Bool}

/-- A magnitude rounded down is finite and not above the exact one. -/
theorem roundMag_towardZero (h : towardZero mode neg) (hm : 0 < m) : roundMag fb mode neg (m * pow2 e) (pow2 (-e)) < 255 * 2 ^ fb ∧
    (magUnits fb (roundMag fb mode neg (m * pow2 e) (pow2 (-e))) : ℚ) * 2 ^ (-126 - (fb : ℤ)) ≤ m * 2 ^ e := by
  have hpos : 0 < 2 ^ fb := Nat.two_pow_pos fb
  have hpat : (magUnits fb (roundPat fb mode neg m e) : ℚ) * 2 ^ (-126 - (fb : ℤ)) ≤ m * 2 ^ e := by
    rw [magUnits_roundPat hm]
    exact roundSig_le fun k r d => by rcases h with ⟨rfl, rfl⟩ | ⟨rfl, rfl⟩ <;> rfl
  have hover : overflowBits fb mode neg = 255 * 2 ^ fb - 1 := by rcases h with ⟨rfl, rfl⟩ | ⟨rfl, rfl⟩ <;> rfl
  rw [roundMag_eq fb mode neg hm]
  split
  · next hbig =>
    have hmono : magUnits fb (overflowBits fb mode neg) ≤ magUnits fb (roundPat fb mode neg m e) := (magUnits_strictMono fb).monotone (by omega)
    refine ⟨by omega, le_trans ?_ hpat⟩
    gcongr
  · next hsmall => exact ⟨by omega, hpat⟩

/-- A magnitude rounded up is infinite, or not below the exact one. -/
theorem roundMag_awayFromZero (h : awayFromZero mode neg) (hm : 0 < m) : roundMag fb mode neg (m * pow2 e) (pow2 (-e)) = 255 * 2 ^ fb ∨
    roundMag fb mode neg (m * pow2 e) (pow2 (-e)) < 255 * 2 ^ fb ∧
      m * 2 ^ e ≤ (magUnits fb (roundMag fb mode neg (m * pow2 e) (pow2 (-e))) : ℚ) * 2 ^ (-126 - (fb : ℤ)) := by
  have hpat : m * 2 ^ e ≤ (magUnits fb (roundPat fb mode neg m e) : ℚ) * 2 ^ (-126 - (fb : ℤ)) := by
    rw [magUnits_roundPat hm]
    exact le_roundSig fun k r d => by rcases h with ⟨rfl, rfl⟩ | ⟨rfl, rfl⟩ <;> rfl
  have hover : overflowBits fb mode neg = 255 * 2 ^ fb := by rcases h with ⟨rfl, rfl⟩ | ⟨rfl, rfl⟩ <;> rfl
  rw [roundMag_eq fb mode neg hm]
  split
  · exact .inl hover
  · next hsmall => exact .inr ⟨by omega, hpat⟩

end

/-- Sign and magnitude of a pattern that is put together of the two. -/
theorem sign_of_bit_add {fb p : ℕ} (s : Bool) (hp : p < signBit fb) : bitOf (bit s * signBit fb + p) (fb + 8) = s := by
  have hpos : 0 < signBit fb := Nat.two_pow_pos _
  have hdiv : (bit s * signBit fb + p) / 2 ^ (fb + 8) = bit s := by
    change (bit s * signBit fb + p) / signBit fb = bit s
    rw [mul_comm, Nat.mul_add_div hpos, Nat.div_eq_of_lt hp, add_zero]
  rw [bitOf, hdiv]
  cases s <;> rfl

theorem magnitude_of_bit_add {fb p : ℕ} (s : Bool) (hp : p < signBit fb) : (bit s * signBit fb + p) % signBit fb = p := by
  rw [Nat.mul_add_mod_self_right, Nat.mod_eq_of_lt hp]

/-- Every pattern of the format is put together so. -/
theorem bit_add_magnitude {fb x : ℕ} (hx : x < 2 ^ (fb + 9)) : bit (bitOf x (fb + 8)) * signBit fb + x % signBit fb = x := by
  have hdiv : x / 2 ^ (fb + 8) < 2 := by rwa [Nat.div_lt_iff_lt_mul (Nat.two_pow_pos _), ← pow_succ']
  rw [bit_bitOf, Nat.mod_eq_of_lt hdiv]
  exact Nat.div_add_mod' x (signBit fb)

section
variable {fb p : ℕ} (s : Bool)

theorem readBin_bit_add_inf : readBin fb (bit s * signBit fb + 255 * 2 ^ fb) = .inf s := by
  have hp : 255 * 2 ^ fb < signBit fb := by rw [signBit_eq]; exact Nat.mul_lt_mul_of_pos_right (by decide) (Nat.two_pow_pos fb)
  rw [readBin_inf (magnitude_of_bit_add s hp), sign_of_bit_add s hp]

theorem readBin_bit_add_fin (hp : p < 255 * 2 ^ fb) : ∃ m e, readBin fb (bit s * signBit fb + p) = .fin s m e ∧
    ratOf s m e = (signedOf s (magUnits fb p) : ℤ) * 2 ^ (-126 - (fb : ℤ)) := by
  have hlt : p < signBit fb := hp.trans_le (by rw [signBit_eq]; exact Nat.mul_le_mul_right _ (by decide))
  have h := readBin_value (fb := fb) (x := bit s * signBit fb + p) (by rwa [magnitude_of_bit_add s hlt])
  rwa [sign_of_bit_add s hlt, magnitude_of_bit_add s hlt] at h

end

theorem ratOf_false (m : ℕ) (e : ℤ) : ratOf false m e = m * 2 ^ e := by
  simp [ratOf]

theorem ratOf_true (m : ℕ) (e : ℤ) : ratOf true m e = -(m * 2 ^ e) := by
  simp [ratOf]

section
variable {fb m : ℕ} {e : ℤ} {mode : Rnd} {s : Bool}

/-- A finite value rounded toward zero is finite, with a magnitude that is not greater. -/
theorem roundBin_towardZero (h : towardZero mode s) : ∃ n f, readBin fb (roundBin fb mode (.fin s m e)) = .fin s n f ∧
    ∃ y : ℚ, y ≤ m * 2 ^ e ∧ ratOf s n f = if s then -y else y := by
  have key : ∀ p < 255 * 2 ^ fb, (magUnits fb p : ℚ) * 2 ^ (-126 - (fb : ℤ)) ≤ m * 2 ^ e → ∃ n f, readBin fb (bit s * signBit fb + p) = .fin s n f ∧
      ∃ y : ℚ, y ≤ m * 2 ^ e ∧ ratOf s n f = if s then -y else y := fun p hp hle => by
    obtain ⟨n, f, hr, hv⟩ := readBin_bit_add_fin s hp
    refine ⟨n, f, hr, _, hle, hv.trans ?_⟩
    cases s <;> simp
  rw [roundBin]
  split
  · next hm => exact key 0 (by positivity) (by simp [hm, magUnits_zero])
  · next hm =>
    obtain ⟨hp, hle⟩ := roundMag_towardZero h (Nat.pos_of_ne_zero hm)
    exact key _ hp hle

/-- Rounded away from zero it is infinite, or has a magnitude that is not less. -/
theorem roundBin_awayFromZero (h : awayFromZero mode s) : readBin fb (roundBin fb mode (.fin s m e)) = .inf s ∨
    ∃ n f, readBin fb (roundBin fb mode (.fin s m e)) = .fin s n f ∧ ∃ y : ℚ, m * 2 ^ e ≤ y ∧ ratOf s n f = if s then -y else y := by
  have key : ∀ p < 255 * 2 ^ fb, m * 2 ^ e ≤ (magUnits fb p : ℚ) * 2 ^ (-126 - (fb : ℤ)) → ∃ n f, readBin fb (bit s * signBit fb + p) = .fin s n f ∧
      ∃ y : ℚ, m * 2 ^ e ≤ y ∧ ratOf s n f = if s then -y else y := fun p hp hle => by
    obtain ⟨n, f, hr, hv⟩ := readBin_bit_add_fin s hp
    refine ⟨n, f, hr, _, hle, hv.trans ?_⟩
    cases s <;> simp
  rw [roundBin]
  split
  · next hm => exact .inr (key 0 (by positivity) (by simp [hm, magUnits_zero]))
  · next hm =>
    rcases roundMag_awayFromZero h (Nat.pos_of_ne_zero hm) with hinf | ⟨hp, hle⟩
    · exact .inl (by rw [hinf]; exact readBin_bit_add_inf s)
    · exact .inr (key _ hp hle)

end

theorem exactLess_irrefl_inf (s : Bool) : exactLess (.inf s) (.inf s) = false := by
  cases s <;> rfl

/-- Under `.rd` a value is not below what it is rounded to. -/
theorem exactLess_roundBin_rd (fb : ℕ) {v : RVal} (hv : v ≠ .nan) : exactLess v (readBin fb (roundBin fb .rd v)) = false := by
  cases v with
  | nan => exact absurd rfl hv
  | inf s => rw [roundBin, readBin_bit_add_inf, exactLess_irrefl_inf]
  | fin s m e =>
    cases s with
    | false =>
      obtain ⟨n, f, hr, y, hy, hv⟩ := roundBin_towardZero (fb := fb) (m := m) (e := e) (.inl ⟨rfl, rfl⟩)
      rw [hr, exactLess_fin, hv, ratOf_false]
      exact decide_eq_false (not_lt.mpr hy)
    | true =>
      rcases roundBin_awayFromZero (fb := fb) (m := m) (e := e) (.inl ⟨rfl, rfl⟩) with hr | ⟨n, f, hr, y, hy, hv⟩
      · rw [hr]
        rfl
      · rw [hr, exactLess_fin, hv, ratOf_true]
        exact decide_eq_false (not_lt.mpr (neg_le_neg hy))

/-- Under `.ru` it is not above. -/
theorem exactLess_roundBin_ru (fb : ℕ) {v : RVal} (hv : v ≠ .nan) : exactLess (readBin fb (roundBin fb .ru v)) v = false := by
  cases v with
  | nan => exact absurd rfl hv
  | inf s => rw [roundBin, readBin_bit_add_inf, exactLess_irrefl_inf]
  | fin s m e =>
    cases s with
    | false =>
      rcases roundBin_awayFromZero (fb := fb) (m := m) (e := e) (.inr ⟨rfl, rfl⟩) with hr | ⟨n, f, hr, y, hy, hv⟩
      · rw [hr]
        rfl
      · rw [hr, exactLess_fin, hv, ratOf_false]
        exact decide_eq_false (not_lt.mpr hy)
    | true =>
      obtain ⟨n, f, hr, y, hy, hv⟩ := roundBin_towardZero (fb := fb) (m := m) (e := e) (.inr ⟨rfl, rfl⟩)
      rw [hr, exactLess_fin, hv, ratOf_true]
      exact decide_eq_false (not_lt.mpr (neg_le_neg hy))

/-! ### A value of a binary format is rounded to itself (R61) -/

/-- Nothing is rounded up where nothing is left. -/
theorem roundsUp_exact (mode : Rnd) (neg : Bool) (k : ℕ) {den : ℕ} (hden : 0 < den) : roundsUp mode neg k 0 den = false := by
  cases mode <;> simp [roundsUp, hden.ne]

/-- A significand of the format has its own exponent as the quantum. -/
theorem roundExp_significand {fb j m : ℕ} (hm0 : 0 < m) (hm : m < 2 * 2 ^ fb) (hn : j = 0 ∨ 2 ^ fb ≤ m) :
    roundExp fb m ((j : ℤ) - 126 - fb) = (j : ℤ) - 126 - fb := by
  have hhigh : m.log2 < fb + 1 := (Nat.log2_lt hm0.ne').mpr (by rwa [pow_succ'])
  unfold roundExp
  rcases hn with rfl | hn
  · omega
  · have hlow : fb ≤ m.log2 := (Nat.le_log2 hm0.ne').mpr hn
    omega

/-- Then the rounding is exact. -/
theorem roundSig_exact {fb m : ℕ} {e : ℤ} (mode : Rnd) (neg : Bool) (hq : roundExp fb m e = e) : roundSig fb mode neg m e = m := by
  have hnum : scaledNum fb m e = m * scaledDen fb m e := by
    rw [scaledNum, scaledDen, hq]
    ring
  rw [roundSig, hnum, Nat.mul_div_cancel _ scaledDen_pos, Nat.mul_mod_left, roundsUp_exact _ _ _ scaledDen_pos]
  rfl

theorem roundBin_readBin {fb x : ℕ} (mode : Rnd) (hx : x < 2 ^ (fb + 9)) (hv : readBin fb x ≠ .nan) : roundBin fb mode (readBin fb x) = x := by
  rcases (le_inf_of_readBin_ne_nan hv).lt_or_eq with hfin | hinf
  · obtain ⟨j, m, hm, hn, hp, hr⟩ := readBin_fin hfin
    have hpos : 0 < 2 ^ fb := Nat.two_pow_pos fb
    conv_rhs => rw [← bit_add_magnitude hx]
    rw [hr, roundBin]
    congr 1
    split
    · next h0 =>
      obtain rfl : j = 0 := by omega
      rw [hp, h0, zero_mul]
    · next h0 =>
      have hq := roundExp_significand (Nat.pos_of_ne_zero h0) hm hn
      have hpat : roundPat fb mode (bitOf x (fb + 8)) m ((j : ℤ) - 126 - fb) = x % signBit fb := by
        rw [roundPat, roundSig_exact _ _ hq, hq, hp, show ((j : ℤ) - 126 - fb + 126 + fb).toNat = j by omega]
      rw [roundMag_eq _ _ _ (Nat.pos_of_ne_zero h0), hpat, if_neg (not_le.mpr hfin)]
  · rw [readBin_inf hinf, roundBin, ← hinf, bit_add_magnitude hx]

/-! ### Regimes of tapered patterns (R67) -/

/-- The regime of a run of m equal bits, read with the bit that ends it. -/
def regimeBits (r : Bool) (m : ℕ) : ℕ := if r then 2 ^ (m + 1) - 2 else 1

theorem mod_two_pow_succ_of_bit {x p : ℕ} {b : Bool} (h : bitOf x p = b) : x % 2 ^ (p + 1) = bit b * 2 ^ p + x % 2 ^ p := by
  rw [← h, bit_bitOf, pow_succ, Nat.mod_mul, mul_comm, add_comm]

/-- One more bit of the run before a regime. -/
theorem regimeBits_cons {r : Bool} {m p y : ℕ} (hm : m < p) (h : y / 2 ^ (p - (m + 1)) = regimeBits r m) :
    (bit r * 2 ^ p + y) / 2 ^ (p - (m + 1)) = regimeBits r (m + 1) := by
  have hpow : 2 ^ p = 2 ^ (p - (m + 1)) * 2 ^ (m + 1) := by rw [← pow_add, Nat.sub_add_cancel hm]
  cases r with
  | false => simpa [bit, regimeBits] using h
  | true =>
    rw [show bit true = 1 from rfl, one_mul, hpow, Nat.mul_add_div (Nat.two_pow_pos _), h]
    simp only [regimeBits, if_true]
    have hpos : 2 ≤ 2 ^ (m + 1) := by rw [pow_succ]; have := Nat.two_pow_pos m; omega
    rw [pow_succ 2 (m + 1)]
    omega

/-- The bit that ends a run before it begins. -/
theorem regimeBits_zero (r : Bool) {p y : ℕ} (hy : y < 2 ^ p) : (bit (!r) * 2 ^ p + y) / 2 ^ p = regimeBits r 0 := by
  rw [mul_comm, Nat.mul_add_div (Nat.two_pow_pos p), Nat.div_eq_of_lt hy]
  cases r <;> rfl

/-- A run of bits either fills the pattern, or is ended by a bit: what stands above the rest is the regime. -/
theorem runLength_spec (x : ℕ) (r : Bool) (p : ℕ) :
    (runLength x r p = p ∧ x % 2 ^ p = bit r * (2 ^ p - 1)) ∨
    (runLength x r p < p ∧ x % 2 ^ p / 2 ^ (p - (runLength x r p + 1)) = regimeBits r (runLength x r p)) := by
  induction p with
  | zero => exact .inl ⟨rfl, by simp [Nat.mod_one]⟩
  | succ p ih =>
    by_cases hb : bitOf x p = r
    · rw [runLength, if_pos hb, mod_two_pow_succ_of_bit hb]
      rcases ih with ⟨hm, hx⟩ | ⟨hm, hx⟩
      · refine .inl ⟨by rw [hm], ?_⟩
        have hpos := Nat.two_pow_pos p
        rw [hx, ← mul_add, pow_succ]
        congr 1
        omega
      · refine .inr ⟨by omega, ?_⟩
        rw [Nat.add_sub_add_right]
        exact regimeBits_cons hm hx
    · rw [runLength, if_neg hb, mod_two_pow_succ_of_bit (Bool.eq_not_of_ne hb)]
      exact .inr ⟨by omega, regimeBits_zero r (Nat.mod_lt _ (Nat.two_pow_pos p))⟩

/-! ### A value of a tapered format is rounded to itself (R68, R69) -/

/-- Exponent bits of a tapered pattern: the two that follow the regime, with zeros for those that the pattern has no room for. -/
def taperedExp (left bits : ℕ) : ℕ := if 2 ≤ left then bits / 2 ^ (left - 2) else if left = 1 then 2 * bits else 0

/-- The power of 16 that a run stands for. -/
def regimeExp (r : Bool) (m : ℕ) : ℤ := if r then (m : ℤ) - 1 else -(m : ℤ)

/-- What a magnitude pattern q of n bits with a run of m equal bits stands for. -/
def taperedOf (n q : ℕ) (s : Bool) (m : ℕ) : RVal :=
  .fin s (2 ^ (n - 1 - (m + 1) - 2) + q % 2 ^ (n - 1 - (m + 1)) % 2 ^ (n - 1 - (m + 1) - 2))
    (4 * regimeExp (bitOf q (n - 2)) m + (taperedExp (n - 1 - (m + 1)) (q % 2 ^ (n - 1 - (m + 1))) : ℤ) - ((n - 1 - (m + 1) - 2 : ℕ) : ℤ))

/-- The magnitude of the pattern x of n bits. -/
def taperedMag (n x : ℕ) : ℕ := if bitOf x (n - 1) then 2 ^ n - x else x

theorem readTapered_eq {n x : ℕ} (hx : x < 2 ^ n) (h0 : x ≠ 0) (hnar : x ≠ 2 ^ (n - 1)) :
    readTapered n x = taperedOf n (taperedMag n x) (bitOf x (n - 1)) (runLength (taperedMag n x) (bitOf (taperedMag n x) (n - 2)) (n - 1)) := by
  unfold readTapered
  rw [Nat.mod_eq_of_lt hx, if_neg h0, if_neg hnar]
  rfl

/-- The pattern to which the magnitude m × 2^e is rounded (R69). -/
def roundTaperedMag (n m : ℕ) (e : ℤ) : ℕ := roundTapered n (.fin false m e)

/-- The regime and exponent bits of a value v as a string, the exponent being v, and how many they are. -/
def regimeString (v : ℤ) : ℕ := (if 0 ≤ v / 4 then (2 ^ ((v / 4).toNat + 1) - 1) * 2 else 1) * 4 + (v % 4).toNat

def regimeLength (v : ℤ) : ℕ := (if 0 ≤ v / 4 then (v / 4).toNat + 2 else 1 + (-(v / 4)).toNat) + 2

/-- A string of len bits rounded to k bits, to nearest with ties to even. -/
def roundString (k str len : ℕ) : ℕ :=
  if len ≤ k then str * 2 ^ (k - len)
  else if 2 ^ (len - k - 1) < str % 2 ^ (len - k) ∨ (str % 2 ^ (len - k) = 2 ^ (len - k - 1) ∧ str / 2 ^ (len - k) % 2 = 1)
    then str / 2 ^ (len - k) + 1 else str / 2 ^ (len - k)

theorem roundTapered_fin {n m : ℕ} {e : ℤ} (s : Bool) (hm : m ≠ 0) : roundTapered n (.fin s m e) =
    if s then (2 ^ n - roundTaperedMag n m e) % 2 ^ n else roundTaperedMag n m e := by
  rw [roundTaperedMag, roundTapered, roundTapered, if_neg hm, if_neg hm]
  rfl

theorem roundTaperedMag_eq {n m : ℕ} {e : ℤ} (hm : m ≠ 0) : roundTaperedMag n m e =
    if 4 * ((n : ℤ) - 2) ≤ m.log2 + e then 2 ^ (n - 1) - 1
    else if m.log2 + e < -(4 * ((n : ℤ) - 2)) ∨ (m.log2 + e = -(4 * ((n : ℤ) - 2)) ∧ m = 2 ^ m.log2) then 1
    else roundString (n - 1) (regimeString (m.log2 + e) * 2 ^ m.log2 + (m - 2 ^ m.log2)) (regimeLength (m.log2 + e) + m.log2) := by
  rw [roundTaperedMag, roundTapered, if_neg hm]
  rfl

/-- A string of zeros below the pattern is rounded off. -/
theorem roundString_exact (k q pad : ℕ) : roundString k (q * 2 ^ pad) (k + pad) = q := by
  unfold roundString
  rcases Nat.eq_zero_or_pos pad with rfl | hpad
  · simp
  · have hpos := Nat.two_pow_pos (pad - 1)
    rw [if_neg (by omega), Nat.add_sub_cancel_left, Nat.mul_mod_left, Nat.mul_div_cancel _ (Nat.two_pow_pos pad), if_neg (by omega)]

/-- The bits below the regime are the exponent bits and the fraction, where the pattern is continued by zeros. -/
theorem taperedExp_split {left bits : ℕ} (hbits : bits < 2 ^ left) :
    taperedExp left bits * 2 ^ (left - 2) + bits % 2 ^ (left - 2) = bits * 2 ^ (2 - left) := by
  unfold taperedExp
  split
  · next h => rw [Nat.div_add_mod', Nat.sub_eq_zero_of_le h, pow_zero, mul_one]
  · split
    · next h => subst h; simp [Nat.mod_one]; omega
    · next h1 h2 =>
      obtain rfl : left = 0 := by omega
      obtain rfl : bits = 0 := by simpa using hbits
      rfl

theorem taperedExp_lt {left bits : ℕ} (hbits : bits < 2 ^ left) : taperedExp left bits < 4 := by
  unfold taperedExp
  split
  · next h => rw [Nat.div_lt_iff_lt_mul (Nat.two_pow_pos _), show 4 = 2 ^ 2 from rfl, ← pow_add, Nat.add_sub_cancel' h]; exact hbits
  · split
    · next h => subst h; omega
    · decide

section
variable {r : Bool} {m ex : ℕ}

theorem regimeExp_div (hex : ex < 4) : (4 * regimeExp r m + (ex : ℤ)) / 4 = regimeExp r m := by omega

theorem regimeExp_mod (hex : ex < 4) : ((4 * regimeExp r m + (ex : ℤ)) % 4).toNat = ex := by omega

/-- The string of a run and the exponent bits that follow it. -/
theorem regimeString_eq (hm : 1 ≤ m) (hex : ex < 4) : regimeString (4 * regimeExp r m + ex) = regimeBits r m * 4 + ex := by
  rw [regimeString, regimeExp_div hex, regimeExp_mod hex]
  congr 2
  cases r with
  | false => rw [if_neg (by simp [regimeExp]; omega)]; rfl
  | true =>
    rw [if_pos (by simp [regimeExp]; omega), show (regimeExp true m).toNat + 1 = m by simp [regimeExp]; omega, regimeBits, if_pos rfl, pow_succ]
    omega

theorem regimeLength_eq (hm : 1 ≤ m) (hex : ex < 4) : regimeLength (4 * regimeExp r m + ex) = m + 1 + 2 := by
  rw [regimeLength, regimeExp_div hex]
  congr 1
  cases r with
  | false => rw [if_neg (by simp [regimeExp]; omega)]; simp [regimeExp]; omega
  | true => rw [if_pos (by simp [regimeExp]; omega)]; simp [regimeExp]; omega

end

theorem log2_add_of_lt {k f : ℕ} (h : f < 2 ^ k) : (2 ^ k + f).log2 = k := by
  rw [Nat.log2_eq_iff (by positivity), pow_succ]
  omega

/-- The magnitude of a pattern that is no zero and no NaR lies between. -/
theorem taperedMag_bounds {n x : ℕ} (hn : 1 ≤ n) (hx : x < 2 ^ n) (h0 : x ≠ 0) (hnar : x ≠ 2 ^ (n - 1)) : 0 < taperedMag n x ∧ taperedMag n x < 2 ^ (n - 1) := by
  have hpow : 2 ^ n = 2 * 2 ^ (n - 1) := by rw [← pow_succ', Nat.sub_add_cancel hn]
  have hbit : bitOf x (n - 1) = true ↔ 2 ^ (n - 1) ≤ x := by
    rw [bitOf, decide_eq_true_iff, ← Nat.one_le_div_iff (Nat.two_pow_pos _)]
    have hdiv : x / 2 ^ (n - 1) < 2 := by rw [Nat.div_lt_iff_lt_mul (Nat.two_pow_pos _)]; omega
    generalize x / 2 ^ (n - 1) = u at *
    omega
  unfold taperedMag
  split
  · next h => have := hbit.mp h; omega
  · next h => have := mt hbit.mpr h; omega

section
variable {n q m : ℕ}

/-- A pattern of ones alone has the greatest exponent. -/
theorem roundTaperedMag_top {M : ℕ} {e : ℤ} (hM : M ≠ 0) (htop : 4 * ((n : ℤ) - 2) ≤ M.log2 + e) : roundTaperedMag n M e = 2 ^ (n - 1) - 1 := by
  rw [roundTaperedMag_eq hM, if_pos htop]

/-- The string of a pattern with a run of m bits that a bit ends is the pattern, with the zeros that it has no room for. -/
theorem string_eq {r : Bool} (hreg : q / 2 ^ (n - 1 - (m + 1)) = regimeBits r m) :
    (regimeBits r m * 4 + taperedExp (n - 1 - (m + 1)) (q % 2 ^ (n - 1 - (m + 1)))) * 2 ^ (n - 1 - (m + 1) - 2) +
      q % 2 ^ (n - 1 - (m + 1)) % 2 ^ (n - 1 - (m + 1) - 2) = q * 2 ^ (2 - (n - 1 - (m + 1))) := by
  have hsplit := taperedExp_split (Nat.mod_lt q (Nat.two_pow_pos (n - 1 - (m + 1))))
  have hdiv := Nat.div_add_mod' q (2 ^ (n - 1 - (m + 1)))
  generalize n - 1 - (m + 1) = left at *
  have hpow : 4 * 2 ^ (left - 2) = 2 ^ left * 2 ^ (2 - left) := by
    rw [← pow_add, show 4 = 2 ^ 2 from rfl, ← pow_add]
    congr 1
    omega
  calc (regimeBits r m * 4 + taperedExp left (q % 2 ^ left)) * 2 ^ (left - 2) + q % 2 ^ left % 2 ^ (left - 2)
      = regimeBits r m * (4 * 2 ^ (left - 2)) + (taperedExp left (q % 2 ^ left) * 2 ^ (left - 2) + q % 2 ^ left % 2 ^ (left - 2)) := by ring
    _ = (q / 2 ^ left * 2 ^ left + q % 2 ^ left) * 2 ^ (2 - left) := by rw [hsplit, hpow, hreg]; ring
    _ = q * 2 ^ (2 - left) := by rw [hdiv]

/-- A pattern with a run of m bits that a bit ends, and the exponent that it has, is what its value is rounded to. -/
theorem roundTaperedMag_mid {r : Bool} {M f : ℕ} {e : ℤ} (hm1 : 1 ≤ m) (hm : m < n - 1) (hreg : q / 2 ^ (n - 1 - (m + 1)) = regimeBits r m)
    (hM : M = 2 ^ (n - 1 - (m + 1) - 2) + f) (hf : f = q % 2 ^ (n - 1 - (m + 1)) % 2 ^ (n - 1 - (m + 1) - 2)) (hlog : M.log2 = n - 1 - (m + 1) - 2)
    (hv : M.log2 + e = 4 * regimeExp r m + (taperedExp (n - 1 - (m + 1)) (q % 2 ^ (n - 1 - (m + 1))) : ℤ)) : roundTaperedMag n M e = q := by
  have hstr := string_eq (n := n) hreg
  have hex := taperedExp_lt (Nat.mod_lt q (Nat.two_pow_pos (n - 1 - (m + 1))))
  have hlow : -((n : ℤ) - 2) ≤ regimeExp r m := by cases r <;> simp [regimeExp] <;> omega
  have hhigh : regimeExp r m ≤ (n : ℤ) - 3 := by cases r <;> simp [regimeExp] <;> omega
  rw [roundTaperedMag_eq (by rw [hM]; positivity), hv, if_neg (by omega)]
  split
  · next hmin =>
    have hleast : regimeExp r m = -((n : ℤ) - 2) := by omega
    cases r with
    | true => simp [regimeExp] at hleast; omega
    | false =>
      simp only [regimeExp, Bool.false_eq_true, if_false] at hleast
      rw [show n - 1 - (m + 1) = 0 by omega, pow_zero, Nat.div_one] at hreg
      exact hreg.symm
  · rw [regimeString_eq hm1 hex, regimeLength_eq hm1 hex, hlog, hM, Nat.add_sub_cancel_left, hf, hstr,
      show m + 1 + 2 + (n - 1 - (m + 1) - 2) = n - 1 + (2 - (n - 1 - (m + 1))) by omega, roundString_exact]

/-- The exact value of a magnitude pattern is rounded to it. -/
theorem roundTaperedMag_taperedOf (hn : 2 ≤ n) (hq0 : 0 < q) (hq : q < 2 ^ (n - 1)) (s : Bool) :
    ∃ M E, taperedOf n q s (runLength q (bitOf q (n - 2)) (n - 1)) = .fin s M E ∧ M ≠ 0 ∧ roundTaperedMag n M E = q := by
  have hspec := runLength_spec q (bitOf q (n - 2)) (n - 1)
  have hm1 : 1 ≤ runLength q (bitOf q (n - 2)) (n - 1) := by
    rw [show n - 1 = n - 2 + 1 by omega, runLength, if_pos rfl]
    omega
  rw [Nat.mod_eq_of_lt hq] at hspec
  generalize runLength q (bitOf q (n - 2)) (n - 1) = m at *
  refine ⟨_, _, rfl, by positivity, ?_⟩
  have hlog := log2_add_of_lt (Nat.mod_lt (q % 2 ^ (n - 1 - (m + 1))) (Nat.two_pow_pos (n - 1 - (m + 1) - 2)))
  rcases hspec with ⟨hm, hones⟩ | ⟨hm, hreg⟩
  · have hr : bitOf q (n - 2) = true := by
      by_contra hr
      rw [Bool.not_eq_true] at hr
      rw [hr] at hones
      simp [bit] at hones
      omega
    rw [hr] at hones ⊢
    rw [roundTaperedMag_top (by positivity), hones]
    · simp [bit]
    · rw [hlog]
      simp only [regimeExp, if_true]
      omega
  · refine roundTaperedMag_mid hm1 hm hreg rfl rfl hlog ?_
    rw [hlog]
    ring

end

theorem roundTapered_readTapered {n x : ℕ} (hn : 2 ≤ n) (hx : x < 2 ^ n) (hv : readTapered n x ≠ .nan) : roundTapered n (readTapered n x) = x := by
  by_cases h0 : x = 0
  · subst h0
    simp [readTapered, roundTapered]
  · have hnar : x ≠ 2 ^ (n - 1) := fun h => hv (by
      have hpos := Nat.two_pow_pos (n - 1)
      rw [readTapered, Nat.mod_eq_of_lt hx, if_neg h0, if_pos h])
    obtain ⟨hpos, hlt⟩ := taperedMag_bounds (by omega) hx h0 hnar
    obtain ⟨M, E, hread, hM, hround⟩ := roundTaperedMag_taperedOf hn hpos hlt (bitOf x (n - 1))
    rw [readTapered_eq hx h0 hnar, hread, roundTapered_fin _ hM, hround]
    unfold taperedMag
    split
    · rw [Nat.sub_sub_self hx.le, Nat.mod_eq_of_lt hx]
    · rfl

theorem roundReal_readReal {t : RealTy} {r : Rnd} {x : ℕ} (hx : x < 2 ^ realWidth t) (hv : readReal t x ≠ .nan) : roundReal t r (readReal t x) = x := by
  cases t with
  | f32 | bf16 => exact roundBin_readBin r hx hv
  | t32 | t16 | t8 => exact roundTapered_readTapered (by decide) hx hv

/-- Settles O22: each format's values are rounded to themselves (`roundReal_readReal`), and the directed modes keep to their sides. -/
theorem roundingIsFaithful : Obligations.RoundingIsFaithful :=
  ⟨fun _ _ _ hx hv => roundReal_readReal hx hv, fun _ fb hv _ => ⟨exactLess_roundBin_rd fb hv, exactLess_roundBin_ru fb hv⟩⟩

end Sys2Proof.Machine
end

section
/-! PROOFS. Real arithmetic, special functions and conversions (O20, O23, O24): the instructions are their element functions over the elements, and the special cases of R65 and R66
are read off the functions. -/

namespace Sys2Proof.Machine

/-! ### Arithmetic with one rounding (R61, R62, R69, R129, R130; O20) -/

/-- A value rounded to an integral one under the mode; an infinity stays, and a NaN becomes the canonical one (R130). -/
def frndOf (m : RealMod) : RVal → ℕ
  | .fin s k z => roundReal (modTy m) .rn (.fin s (roundInt (modRnd m) s k z).natAbs 0)
  | v => roundReal (modTy m) .rn v

theorem elFrnd_eq_frndOf (m : RealMod) (x : ℕ) : elFrnd m x = frndOf m (readReal (modTy m) x) := by
  cases m with
  | f32 r =>
    show frndBin 23 r x = frndOf (.f32 r) (readBin 23 x)
    unfold frndBin
    cases readBin 23 x <;> rfl
  | bf16 r =>
    show frndBin 7 r x = frndOf (.bf16 r) (readBin 7 x)
    unfold frndBin
    cases readBin 7 x <;> rfl
  | t32 | t16 | t8 => rfl

/-- FMA of f32 on whole words. -/
theorem fma3_word_gives {i : Instr} {h : Hdr} {len d a b c : ℕ} {r : Rnd} (hi : ∀ s, exec i s = fma3 h len d a (.v b 1) c (.f32 r) s) :
    Gives i h.g len d 1 [.v a 1, .v b 1, .v c 1] (fun x => elFma (.f32 r) (arg x 0) (arg x 1) (arg x 2)) := by
  refine vop_gives_word hi (by simp [Opnd.OneWord]) fun x hx => ?_
  simp only [realCount, modTy, realWidth, Nat.div_self (show 0 < 32 by decide), joinElems_one, subElem_word, Nat.mod_eq_of_lt (hx _), Nat.mod_mod]

/-- Settles O20: every operation of the model is the exact one with one rounding. -/
theorem realArith : Obligations.RealArith := by
  intro h d a b d' a' c' b' m
  exact ⟨real2_word_gives (g := elFadd (.f32 .rn)) (fun _ => rfl) fun _ _ _ _ => rfl, real2_word_gives (g := elFsub (.f32 .rn)) (fun _ => rfl) fun _ _ _ _ => rfl,
    real2_word_gives (g := elFmul (.f32 .rn)) (fun _ => rfl) fun _ _ _ _ => rfl, fma3_word_gives fun _ => rfl,
    real2_gives (g := elFadd m) (fun _ => rfl) fun _ _ _ _ => rfl, real2_gives (g := elFsub m) (fun _ => rfl) fun _ _ _ _ => rfl,
    real2_gives (g := elFmul m) (fun _ => rfl) fun _ _ _ _ => rfl, vop_gives fun _ => rfl,
    real1_gives (g := fun x => frndOf m (readReal (modTy m) x)) (fun _ => rfl) fun x _ => elFrnd_eq_frndOf m x⟩

/-! ### Special functions (R65; O23) -/

/-- A special function acts on the f32 element, or on both bf16 ones. -/
theorem special_gives {i : Instr} {h : Hdr} {d a : R11} {bf : Bool} {f : ℕ → ℕ → ℕ} (hi : ∀ s, exec i s = special h d a bf f s) :
    Gives i h.g 8 d.toNat 1 [.v a.toNat 1] (fun x => mapElems1 ((if bf then 7 else 23) + 9) (f (if bf then 7 else 23)) (arg x 0)) := by
  cases bf <;> exact vop_gives hi

section
variable {fb x : ℕ}

/-- Every special function of a NaN is the canonical NaN. -/
theorem special_nan (h : readBin fb x = .nan) :
    rcpBin fb x = canonNan fb ∧ sqrtBin fb x = canonNan fb ∧ rsqBin fb x = canonNan fb ∧ ex2Bin fb x = canonNan fb ∧ lg2Bin fb x = canonNan fb := by
  simp only [rcpBin, sqrtBin, rsqBin, ex2Bin, lg2Bin, h, and_self]

variable {m : ℕ} {e : ℤ}

/-- A root or a logarithm of a value below zero is the canonical NaN. -/
theorem sqrtBin_negative (hm : m ≠ 0) (h : readBin fb x = .fin true m e) : sqrtBin fb x = canonNan fb := by
  rw [sqrtBin, h]
  exact (if_neg hm).trans (if_pos rfl)

theorem rsqBin_negative (hm : m ≠ 0) (h : readBin fb x = .fin true m e) : rsqBin fb x = canonNan fb := by
  rw [rsqBin, h]
  exact (if_neg hm).trans (if_pos rfl)

theorem lg2Bin_negative (hm : m ≠ 0) (h : readBin fb x = .fin true m e) : lg2Bin fb x = canonNan fb := by
  rw [lg2Bin, h]
  exact (if_neg hm).trans (if_pos rfl)

end

/-- The digits of the root leave it between: its square is not above the number, and the next one's is. -/
theorem isqrt_spec {k n r : ℕ} (hlow : r * r ≤ n) (hhigh : n < (r + 2 ^ k) * (r + 2 ^ k)) :
    isqrt k n r * isqrt k n r ≤ n ∧ n < (isqrt k n r + 1) * (isqrt k n r + 1) := by
  induction k generalizing r with
  | zero => exact ⟨hlow, hhigh⟩
  | succ k ih =>
    rw [isqrt]
    split
    · next h => exact ih h (by rwa [pow_succ', two_mul, ← add_assoc] at hhigh)
    · next h => exact ih hlow (not_le.mp h)

/-- The root of a square. -/
theorem isqrt_mul_self {k a : ℕ} (ha : a < 2 ^ k) : isqrt k (a * a) 0 = a := by
  obtain ⟨hle, hlt⟩ := isqrt_spec (k := k) (n := a * a) (r := 0) (Nat.zero_le _) (by rw [zero_add]; exact Nat.mul_self_lt_mul_self ha)
  have h1 := Nat.mul_self_le_mul_self_iff.mp hle
  have h2 := Nat.mul_self_lt_mul_self_iff.mp hlt
  omega

/-- The square root of a square is rounded from the exact root. -/
theorem sqrtBin_of_square {fb x m a : ℕ} {e : ℤ} (hr : readBin fb x = .fin false m e) (hm : m ≠ 0) (hsq : m * pow2 (e + 320) = a * a) (ha : a < 2 ^ 260) :
    sqrtBin fb x = roundMag fb .rn false (2 * a) (2 ^ 161) := by
  rw [sqrtBin, hr]
  simp only [if_neg hm, Bool.false_eq_true, if_false, hsq, isqrt_mul_self ha, bne_self_eq_false]
  rfl

theorem rsqBin_of_square {fb x m a : ℕ} {e : ℤ} (hr : readBin fb x = .fin false m e) (hm : m ≠ 0) (hsq : pow2 (320 - e) = a * a * m) (ha : a < 2 ^ 260) :
    rsqBin fb x = roundMag fb .rn false (2 * a) (2 ^ 161) := by
  rw [rsqBin, hr]
  simp only [if_neg hm, Bool.false_eq_true, if_false, hsq, Nat.mul_div_cancel _ (Nat.pos_of_ne_zero hm), isqrt_mul_self ha, bne_self_eq_false]
  rfl

/-- The zeros, the infinities and 1, as patterns. -/
def specialOperands (fb : ℕ) : List ℕ := [0, signBit fb, 255 * 2 ^ fb, signBit fb + 255 * 2 ^ fb, 127 * 2 ^ fb]

section
variable {fb : ℕ} (h : fb = 7 ∨ fb = 23)
include h

theorem readBin_one : readBin fb (127 * 2 ^ fb) = .fin false (2 ^ fb) (-fb) := by
  rcases h with rfl | rfl <;> decide

theorem sqrtBin_one : sqrtBin fb (127 * 2 ^ fb) = 127 * 2 ^ fb := by
  rw [sqrtBin_of_square (a := 2 ^ 160) (readBin_one h) (by positivity)]
  · rcases h with rfl | rfl <;> decide +kernel
  · rcases h with rfl | rfl <;> decide +kernel
  · decide +kernel

theorem rsqBin_one : rsqBin fb (127 * 2 ^ fb) = 127 * 2 ^ fb := by
  rw [rsqBin_of_square (a := 2 ^ 160) (readBin_one h) (by positivity)]
  · rcases h with rfl | rfl <;> decide +kernel
  · rcases h with rfl | rfl <;> decide +kernel
  · decide +kernel

theorem rcpBin_special : (specialOperands fb).map (rcpBin fb) = [255 * 2 ^ fb, signBit fb + 255 * 2 ^ fb, 0, signBit fb, 127 * 2 ^ fb] := by
  rcases h with rfl | rfl <;> decide +kernel

theorem sqrtBin_special : (specialOperands fb).map (sqrtBin fb) = [0, signBit fb, 255 * 2 ^ fb, canonNan fb, 127 * 2 ^ fb] := by
  simp only [specialOperands, List.map_cons, List.map_nil, sqrtBin_one h]
  rcases h with rfl | rfl <;> decide +kernel

theorem rsqBin_special : (specialOperands fb).map (rsqBin fb) = [255 * 2 ^ fb, signBit fb + 255 * 2 ^ fb, 0, canonNan fb, 127 * 2 ^ fb] := by
  simp only [specialOperands, List.map_cons, List.map_nil, rsqBin_one h]
  rcases h with rfl | rfl <;> decide +kernel

theorem ex2Bin_special : (specialOperands fb).map (ex2Bin fb) = [127 * 2 ^ fb, 127 * 2 ^ fb, 255 * 2 ^ fb, 0, 127 * 2 ^ fb + 2 ^ fb] := by
  rcases h with rfl | rfl <;> decide +kernel

theorem lg2Bin_special : (specialOperands fb).map (lg2Bin fb) = [signBit fb + 255 * 2 ^ fb, signBit fb + 255 * 2 ^ fb, 255 * 2 ^ fb, canonNan fb, 0] := by
  rcases h with rfl | rfl <;> decide +kernel

end

/-- Settles O23: NaNs and negative values in general, the zeros, the infinities and 1 by evaluation in both formats. -/
theorem specialFunctions : Obligations.SpecialFunctions := by
  intro h d a bf
  have hfb : (if bf then 7 else 23) = 7 ∨ (if bf then 7 else 23) = 23 := by cases bf <;> decide
  exact ⟨special_gives fun _ => rfl, special_gives fun _ => rfl, special_gives fun _ => rfl, special_gives fun _ => rfl, special_gives fun _ => rfl,
    fun _ hx => special_nan hx, fun _ _ hm _ hx => ⟨sqrtBin_negative hm hx, rsqBin_negative hm hx, lg2Bin_negative hm hx⟩,
    rcpBin_special hfb, sqrtBin_special hfb, rsqBin_special hfb, ex2Bin_special hfb, lg2Bin_special hfb⟩

/-! ### Conversion (R59, R66, R72, R131, R132; O24) -/

theorem wrapTo_signed {n : ℕ} (hn : 0 < n) (w y : ℕ) : wrapTo w (signed n y) = ((BitVec.ofNat n y).signExtend w).toNat := by
  rw [signed_eq_toInt hn, wrapTo_eq_toNat_ofInt]
  rfl

theorem cvtWrite_i8 (y : ℕ) : cvtWrite .i8 y = ((BitVec.ofNat 8 y).signExtend 32).toNat := wrapTo_signed (by decide) 32 y

theorem cvtWrite_i16 (y : ℕ) : cvtWrite .i16 y = ((BitVec.ofNat 16 y).signExtend 32).toNat := wrapTo_signed (by decide) 32 y

theorem realToInt_eq (r : Rnd) (sg : Bool) (w : ℕ) (v : RVal) : realToInt r sg w v = match v with
    | .nan => 0
    | .inf s => ((if s then intMin sg w else intMax sg w) % 2 ^ w).toNat
    | .fin s m e => (max (intMin sg w) (min (intMax sg w) (roundInt r s m e)) % 2 ^ w).toNat := by
  cases v with
  | nan => rfl
  | inf s => exact wrapTo_eq _ _
  | fin s m e => rw [realToInt, clampTo_eq_max_min, wrapTo_eq]

/-- Settles O24: each kind of conversion is a case of `cvtElem`, and what is written is sign-extended for a narrow signed type. -/
theorem convert : Obligations.Convert := by
  intro h d a dst src sat r
  refine ⟨?_, fun x sg w dg dw hs hd => ?_, fun x sg w t hs hd ht => ?_, fun x t dg dw hs ht hd => ?_, fun x t u hs ht hd hu => ?_⟩
  · have hw := vop_gives (i := .cvt h d a dst src sat r) fun _ => rfl
    cases dst with
    | i8 =>
      simp only [cvtWrite_i8] at hw
      exact hw
    | i16 =>
      simp only [cvtWrite_i16] at hw
      exact hw
    | _ => exact hw
  · rw [cvtElem, hs, hd]
    exact narrow_eq _ _ _ _
  · rw [cvtElem, hs, hd, ht]
  · rw [cvtElem, hs, hd, ht]
    exact realToInt_eq _ _ _ _
  · rw [cvtElem, hs, ht, hd, hu]

end Sys2Proof.Machine
end

section
/-! PROOFS. Words, their fields and the checks of R98 (O5, O6). Bytes and words are each other's; a word is no more than its length bits and its fields; and the checks that the
decoder makes one after the other are one condition on the fields. -/

namespace Sys2Proof

open Sys2Proof.Machine (bitOf field bit ofBytes toBytes ofBytes_toBytes length_toBytes take_toBytes)

/-! ### Bytes and the words that they make (R2, R82) -/

theorem ofBytes_lt (bs : List Byte) : ofBytes bs < 256 ^ bs.length := by
  induction bs with
  | nil => decide
  | cons b bs ih =>
    have hb : b.toNat < 256 := b.isLt
    rw [ofBytes, List.length_cons, Nat.pow_succ]
    omega

theorem toBytes_ofBytes (bs : List Byte) : toBytes bs.length (ofBytes bs) = bs := by
  induction bs with
  | nil => rfl
  | cons b bs ih =>
    have hb : b.toNat < 256 := b.isLt
    have hlow : BitVec.ofNat 8 (b.toNat + 256 * ofBytes bs) = b := by
      apply BitVec.eq_of_toNat_eq
      rw [BitVec.toNat_ofNat]
      omega
    have hhigh : (b.toNat + 256 * ofBytes bs) / 256 = ofBytes bs := by omega
    rw [List.length_cons, ofBytes, toBytes, hlow, hhigh, ih]

/-- Taking the first bytes of a word is taking its low bits. -/
theorem ofBytes_take {bs : List Byte} {k : Nat} (hk : k ≤ bs.length) : ofBytes (bs.take k) = ofBytes bs % 256 ^ k := by
  rw [← ofBytes_toBytes, ← take_toBytes k _ _ hk, toBytes_ofBytes]

/-- What the decoder accepts: the bytes of a layout, whose fields pass the checks of R98. -/
theorem decode_eq_ok {bs : List Byte} {i : Instr} {n : Nat} : decode bs = .ok i n ↔
    ∃ lay, 4 ≤ bs.length ∧ layoutOf (ofBytes (bs.take 4)) = some lay ∧ lay.bytes ≤ bs.length ∧
      decodeFields (rawFields lay (ofBytes (bs.take lay.bytes))) = .inr i ∧ n = lay.bytes := by
  unfold decode
  constructor
  · intro h
    split_ifs at h with h4
    split at h
    · cases h
    next lay hlay =>
      split_ifs at h with hlen
      split at h
      · cases h
      next hf =>
        cases h
        exact ⟨lay, by omega, hlay, by omega, hf, rfl⟩
  · rintro ⟨lay, h4, hlay, hlen, hf, rfl⟩
    rw [if_neg (by omega), hlay]
    dsimp only
    rw [if_neg (by omega), hf]

/-- What follows an instruction does not change what it decodes to. -/
theorem decode_append {bs : List Byte} {i : Instr} {n : Nat} (h : decode bs = .ok i n) (rest : List Byte) : decode (bs ++ rest) = .ok i n := by
  obtain ⟨lay, h4, hlay, hlen, hf, rfl⟩ := decode_eq_ok.mp h
  refine decode_eq_ok.mpr ⟨lay, ?_, ?_, ?_, ?_, rfl⟩
  · rw [List.length_append]; omega
  · rwa [List.take_append_of_le_length h4]
  · rw [List.length_append]; omega
  · rwa [List.take_append_of_le_length hlen]

/-- The fields read from a word fit their layout. -/
theorem fieldsFit_rawFields (lay : Layout) (w : Nat) : FieldsFit (rawFields lay w) := by
  have hf : ∀ lo n, field w lo n < 2 ^ n := fun lo n => Nat.mod_lt _ (Nat.two_pow_pos n)
  cases lay with
  | compact => exact ⟨hf 3 5, hf 8 6, hf 14 6, hf 20 6, hf 26 6, Nat.one_pos, Nat.one_pos, Nat.one_pos⟩
  | full => exact ⟨hf 3 5, hf 8 8, hf 16 11, hf 27 11, hf 38 11, hf 49 11, hf 60 4, Nat.one_pos⟩
  | lit => exact ⟨hf 3 5, hf 8 8, hf 16 11, hf 27 11, hf 38 11, hf 49 11, hf 60 4, hf 64 32⟩

theorem bit_bitOf (w k : Nat) : bit (bitOf w k) = w / 2 ^ k % 2 := by
  unfold bit bitOf
  rcases Nat.mod_two_eq_zero_or_one (w / 2 ^ k) with h | h <;> rw [h] <;> rfl

/-- The length bits of a layout (R82). -/
def Layout.code : Layout → Nat
  | .compact => 0 | .full => 1 | .lit => 2

theorem layoutOf_eq_some {w : Nat} {lay : Layout} (h : layoutOf w = some lay) : w % 4 = lay.code := by
  unfold layoutOf at h
  split at h <;> cases h <;> assumption

/-- A word is what its fields make: no bit of it is outside its length bits and its fields. -/
theorem word_rawFields {lay : Layout} {w : Nat} (hw : w < 256 ^ lay.bytes) (hlen : w % 4 = lay.code) : (rawFields lay w).word = w := by
  cases lay <;> simp only [Layout.bytes, Layout.code] at hw hlen <;>
    simp only [rawFields, Fields.word, field, bit_bitOf, reduceCtorEq, if_false, if_true] <;> omega

/-! ### The checks of R98 as one condition -/

/-- The checks of R98 on the literal (4 to 6): it stands where operand b may be one, and there the field b is 0. -/
def litOk (row : OpRow) (f : Fields) : Bool :=
  if f.lay = .lit then (row.b == .v || row.b == .lit) && f.bb == 0 else row.b != .lit

/-- Check 8 of R98: each field holds a value of its kind. -/
def kindsOk (row : OpRow) (f : Fields) : Bool := kindOk row.d f.d && kindOk row.a f.a && kindOk row.b f.bb && kindOk row.c f.c

/-- The checks of R98 on the fields of a word whose op has this row (4 to 10). -/
def passes (row : OpRow) (f : Fields) : Bool :=
  litOk row f && fnOk f row.fn && kindsOk row f && alignedOk f && valueOk f

/-- The header that fields read as (R85). -/
def Fields.hdr (f : Fields) : Hdr := ⟨f.e, guardOf f.g⟩

/-- The instruction that fields make whose checks have passed. -/
def Fields.built (f : Fields) : Option Instr := if f.lay = .compact then buildCompact f f.hdr else buildFull f f.hdr

/-! Widening a compact word changes the fields b and c alone (R86). -/

@[simp] theorem widen_lay (row : OpRow) (f : Fields) : (widen row f).lay = f.lay := by unfold widen; split <;> rfl
@[simp] theorem widen_op (row : OpRow) (f : Fields) : (widen row f).op = f.op := by unfold widen; split <;> rfl
@[simp] theorem widen_d (row : OpRow) (f : Fields) : (widen row f).d = f.d := by unfold widen; split <;> rfl
@[simp] theorem widen_a (row : OpRow) (f : Fields) : (widen row f).a = f.a := by unfold widen; split <;> rfl
@[simp] theorem widen_fn (row : OpRow) (f : Fields) : (widen row f).fn = f.fn := by unfold widen; split <;> rfl
@[simp] theorem widen_hdr (row : OpRow) (f : Fields) : (widen row f).hdr = f.hdr := by unfold widen; split <;> rfl

theorem widen_of_wide (row : OpRow) {f : Fields} (hlay : f.lay ≠ .compact) : widen row f = f := if_neg hlay

/-- The guard fields that are not reserved (R85). -/
def guardOk (g : Nat) : Prop := g = 0 ∨ 16 ≤ g

theorem litOk_eq (row : OpRow) (f : Fields) : litOk row f = (!(f.lay = .lit && row.b != .v && row.b != .lit) &&
    !(f.lay != .lit && row.b = .lit) && !(f.lay = .lit && f.bb != 0)) := by
  unfold litOk
  by_cases h : f.lay = .lit
  · cases row.b <;> simp [h, bne]
  · cases row.b <;> simp [h]

/-- The checks one after the other accept what the condition accepts. -/
theorem decodeFields_eq_inr {raw : Fields} {i : Instr} : decodeFields raw = .inr i ↔
    guardOk raw.g ∧ ∃ row, opRow raw.op = some row ∧ passes row (widen row raw) = true ∧ (widen row raw).built = some i := by
  unfold decodeFields
  by_cases hg : guardOk raw.g
  · rw [if_neg (by unfold guardOk at hg; simp only [Bool.and_eq_true, decide_eq_true_eq]; omega)]
    cases hrow : opRow raw.op with
    | none => simp
    | some row =>
      simp only [hg, true_and, Option.some.injEq, exists_eq_left', passes, litOk_eq, kindsOk]
      generalize widen row raw = f
      change _ ↔ _ ∧ (if f.lay = .compact then buildCompact f ⟨f.e, guardOf f.g⟩ else buildFull f ⟨f.e, guardOf f.g⟩) = _
      generalize (if f.lay = .compact then buildCompact f ⟨f.e, guardOf f.g⟩ else buildFull f ⟨f.e, guardOf f.g⟩) = built
      generalize (decide (f.lay = .lit) && row.b != .v && row.b != .lit) = refused
      generalize (f.lay != .lit && decide (row.b = .lit)) = missing
      generalize (decide (f.lay = .lit) && f.bb != 0) = both
      generalize (kindOk row.d f.d && kindOk row.a f.a && kindOk row.b f.bb && kindOk row.c f.c) = kinds
      split_ifs
      all_goals cases built <;> simp_all
  · rw [if_pos (by unfold guardOk at hg; simp only [Bool.and_eq_true, decide_eq_true_eq]; omega)]
    simp [hg]

end Sys2Proof
end

section
/-! PROOFS. What an encoding decodes to (O5). The fields of an instruction's encoding stand for it (`Encodes`): they fit their layout, their op builds the instruction of them, and they
pass the checks just if the instruction is well formed. -/

namespace Sys2Proof

open Sys2Proof.Machine (bitOf field bit ofBytes toBytes ofBytes_toBytes length_toBytes take_toBytes)

/-! ### Kinds of fields (R89) -/

@[simp] theorem kindOk_no (x : Nat) : kindOk .no x = (x == 0) := rfl
@[simp] theorem kindOk_lit (x : Nat) : kindOk .lit x = (x == 0) := rfl
@[simp] theorem kindOk_v (x : Nat) : kindOk .v x = true := rfl
@[simp] theorem kindOk_vn (x : Nat) : kindOk .vn x = true := rfl
@[simp] theorem kindOk_n (x : Nat) : kindOk .n x = true := rfl
@[simp] theorem kindOk_k (x : Nat) : kindOk .k x = true := rfl
@[simp] theorem kindOk_q (x : BitVec 3) : kindOk .q x.toNat = true := decide_eq_true x.isLt
@[simp] theorem kindOk_m (x : BitVec 3) : kindOk .m x.toNat = true := decide_eq_true x.isLt
@[simp] theorem kindOk_j (x : BitVec 4) : kindOk .j x.toNat = true := decide_eq_true x.isLt
@[simp] theorem kindOk_w (x : BitVec 4) : kindOk .w x.toNat = true := decide_eq_true x.isLt
@[simp] theorem kindOk_s (x : BitVec 5) : kindOk .s x.toNat = true := decide_eq_true x.isLt
@[simp] theorem kindOk_kEngine (x : BitVec 2) : kindOk .kEngine x.toNat = true := decide_eq_true x.isLt
@[simp] theorem kindOk_kMask (x : BitVec 8) : kindOk .kMask x.toNat = true := decide_eq_true x.isLt

/-! ### Compact words (R86) -/

/-- A code of the guard is not a reserved one. -/
theorem guardOk_guardCode (g : Guard) : guardOk (guardCode g) := by
  cases g with
  | none => exact .inl rfl
  | q neg k => exact .inr (by simp only [guardCode]; omega)

theorem hdr_eq {f : Fields} {h : Hdr} (he : f.e = h.b) (hg : f.g = guardCode h.g) : f.hdr = h := by
  rw [Fields.hdr, he, hg, guardOf_code]

theorem guardCode_lt (g : Guard) : guardCode g < 32 := by
  cases g with
  | none => decide
  | q neg k =>
    have hn : bit neg < 2 := by cases neg <;> decide
    simp only [guardCode]
    omega

/-- What the compact layout asks of a row: no field of a narrow kind, and a modifier 0 that is assigned. -/
def compactRow (row : OpRow) : Bool :=
  (row.d == .no || row.d == .v) && (row.a == .no || row.a == .v) && (row.b == .no || row.b == .v) &&
    (row.c == .no || row.c == .v || row.c == .k) && row.fn != .cvt && row.fn != .dp4

theorem compactRow_of_opRow {op : Nat} (h : op < 64) {row : OpRow} (hrow : opRow op = some row) : compactRow row = true := by
  have all : ∀ op < 64, (opRow op).all compactRow = true := by decide
  simpa [hrow] using all op h

/-- A compact word has no group that could be misaligned: its elements have 32 bits. -/
theorem alignedOk_compact {f : Fields} (hop : f.op < 64) (hfn : f.fn = 0) : alignedOk f = true := by
  have h : ∀ n, 64 ≤ n → f.op ≠ n := fun n hn => by omega
  simp [alignedOk, hfn, h, intTy, wTy, ciTy, intBytes, wBytes, ciBytes]

theorem valueOk_compact {f : Fields} (hop : f.op < 64) : valueOk f = true := by
  unfold valueOk
  split
  case h_10 => rfl
  all_goals omega

/-- The modifier 0 is assigned in every scheme of a compact row (R90 to R97). -/
theorem fnOk_compact {f : Fields} (hlay : f.lay = .compact) (hfn : f.fn = 0) {s : Scheme} (h1 : s ≠ .cvt) (h2 : s ≠ .dp4) : fnOk f s = true := by
  cases s with
  | cvt => exact absurd rfl h1
  | dp4 => exact absurd rfl h2
  | _ => simp [fnOk, hfn, hlay, realFn]

/-- Of the checks of R98 a compact word can fail those of its kinds alone. -/
theorem passes_compact {f : Fields} (hlay : f.lay = .compact) (hop : f.op < 64) (hfn : f.fn = 0) {row : OpRow} (hrow : opRow f.op = some row) :
    passes row (widen row f) = (kindOk row.d f.d && kindOk row.a f.a && (decide (row.c = .k) || kindOk row.b f.bb)) := by
  have hc := compactRow_of_opRow hop hrow
  have hwop := widen_op row f
  have hwfn := widen_fn row f
  have hwlay : (widen row f).lay = .compact := (widen_lay row f).trans hlay
  simp only [compactRow, Bool.and_eq_true, Bool.or_eq_true, beq_iff_eq, bne_iff_ne] at hc
  obtain ⟨⟨⟨⟨⟨hd, ha⟩, hb⟩, hcc⟩, hcvt⟩, hdp4⟩ := hc
  rw [passes, alignedOk_compact (hwop ▸ hop) (hwfn.trans hfn), valueOk_compact (hwop ▸ hop), fnOk_compact hwlay (hwfn.trans hfn) hcvt hdp4]
  have hlit : litOk row (widen row f) = true := by
    rcases hb with hb | hb <;> simp [litOk, hlay, hb]
  have hkinds : kindsOk row (widen row f) = (kindOk row.d f.d && kindOk row.a f.a && (decide (row.c = .k) || kindOk row.b f.bb)) := by
    rcases hcc with (h | h) | h
    · simp [kindsOk, widen, hlay, h]
    · simp [kindsOk, widen, hlay, h]
    · rcases hb with hb | hb <;> simp [kindsOk, widen, hlay, h, hb]
  simp [hlit, hkinds]

/-! ### What makes fields the encoding of an instruction -/

/-- The fields stand for the instruction: they fit their layout, their op builds the instruction of them, and they pass the checks of R98 just if the instruction is well formed. -/
structure Encodes (i : Instr) (f : Fields) : Prop where
  fits : FieldsFit f
  guard : guardOk f.g
  read : ∃ row, opRow f.op = some row ∧ passes row (widen row f) = i.wellFormed ∧ (widen row f).built = some i

/-- Fields that stand for a well-formed instruction decode to it. -/
theorem Encodes.decodeFields {i : Instr} {f : Fields} (h : Encodes i f) (hw : i.wellFormed = true) : decodeFields f = .inr i := by
  obtain ⟨row, hrow, hp, hb⟩ := h.read
  exact decodeFields_eq_inr.mpr ⟨h.guard, row, hrow, hp.trans hw, hb⟩

/-- A compact word stands for the instruction that its op builds of it, where the fields that its row has not are 0. -/
theorem encodes_compactWord {h : Hdr} {op d a b : Nat} {i : Instr} {row : OpRow} (hop : op < 64) (hd : d < 64) (ha : a < 64) (hb : b < 64) (hrow : opRow op = some row)
    (hk : (kindOk row.d d && kindOk row.a a && (decide (row.c = .k) || kindOk row.b b)) = i.wellFormed)
    (hi : buildCompact (widen row (compactWord h op d a b)) h = some i) : Encodes i (compactWord h op d a b) where
  fits := ⟨guardCode_lt h.g, hop, hd, ha, hb, Nat.one_pos, Nat.one_pos, Nat.one_pos⟩
  guard := guardOk_guardCode h.g
  read := by
    refine ⟨row, hrow, (passes_compact rfl hop rfl hrow).trans hk, ?_⟩
    have hhdr : (compactWord h op d a b).hdr = h := hdr_eq rfl rfl
    rw [Fields.built, if_pos (by rfl), widen_hdr, hhdr, hi]

@[simp] theorem r6_imm6 (op : Nat) (x : R6) : r6 (imm6 op x.toNat) = x := by
  unfold imm6
  split_ifs
  · apply BitVec.eq_of_toNat_eq
    simp only [r6, BitVec.toNat_ofNat]
    omega
  · exact r6_toNat x

/-! ### Words of the full layouts (R87, R88) -/

section
variable (h : Hdr) (op d a k : Nat) (b : Src) (c fn : Nat)

@[simp] theorem srcWord_e : (srcWord h op d a b c fn).e = h.b := by cases b <;> rfl
@[simp] theorem srcWord_g : (srcWord h op d a b c fn).g = guardCode h.g := by cases b <;> rfl
@[simp] theorem srcWord_op : (srcWord h op d a b c fn).op = op := by cases b <;> rfl
@[simp] theorem srcWord_d : (srcWord h op d a b c fn).d = d := by cases b <;> rfl
@[simp] theorem srcWord_a : (srcWord h op d a b c fn).a = a := by cases b <;> rfl
@[simp] theorem srcWord_c : (srcWord h op d a b c fn).c = c := by cases b <;> rfl
@[simp] theorem srcWord_fn : (srcWord h op d a b c fn).fn = fn := by cases b <;> rfl
theorem srcWord_lay : (srcWord h op d a b c fn).lay ≠ .compact := by cases b <;> nofun

@[simp] theorem srcWord_src : (srcWord h op d a b c fn).src = b := by
  cases b with
  | reg r => exact congrArg Src.reg (r11_toNat r)
  | lit w => exact congrArg Src.lit (by simp [srcWord])

/-- Operand b is the literal or the field, wherever the word's op is one that takes either (R88). -/
theorem litOk_srcWord {row : OpRow} (hb : row.b = .v) : litOk row (srcWord h op d a b c fn) = true := by
  cases b <;> simp [litOk, srcWord, hb]

theorem litOk_fullWord {row : OpRow} (hb : row.b ≠ .lit) : litOk row (fullWord h op d a k c fn) = true := by
  simpa [litOk, fullWord] using hb

theorem litOk_litWord {row : OpRow} (hb : row.b = .lit) : litOk row (litWord h op a c k) = true := by
  simp [litOk, litWord, hb]

end

/-- A register group of so many bytes is aligned: what check 9 asks of a field (R54, R89). -/
def alignedTo (bytes x : Nat) : Bool := if bytes = 16 then x % 4 == 0 else if bytes = 8 then x % 2 == 0 else true

@[simp] theorem alignedTo_toNat (n : Nat) (r : R11) : alignedTo n r.toNat = sizedReg n r := rfl

@[simp] theorem alignedTo_zero (n : Nat) : alignedTo n 0 = true := by
  unfold alignedTo
  split_ifs <;> rfl

@[simp] theorem alignedTo_srcWord_bb (n : Nat) (h : Hdr) (op d a : Nat) (b : Src) (c fn : Nat) :
    alignedTo n (srcWord h op d a b c fn).bb = sizedSrc n b := by
  cases b with
  | reg r => rfl
  | lit w => exact alignedTo_zero n

/-- What an op is: its row, its checks of alignment (al) and of reserved values (v), and the instruction mk that it builds, each for any fields with this op, so that each is
what the definition says of the op. -/
structure OpIs (op : Nat) (h : Hdr) (row : OpRow) (al v : Fields → Bool) (mk : Fields → Instr) : Prop where
  row : opRow op = some row
  aligned : ∀ f : Fields, alignedOk { f with op := op } = al f
  value : ∀ f : Fields, valueOk { f with op := op } = v f
  built : ∀ f : Fields, buildFull { f with op := op } h = some (mk f)

section
variable {h : Hdr} {op d a k c fn : Nat} {b : Src} {row : OpRow} {al v : Fields → Bool} {mk : Fields → Instr} {i : Instr}

theorem OpIs.read {f : Fields} (is : OpIs op h row al v mk) (hlay : f.lay ≠ .compact) (hop : f.op = op) (he : f.e = h.b) (hg : f.g = guardCode h.g)
    (hw : (litOk row f && fnOk f row.fn && kindsOk row f && al f && v f) = i.wellFormed) (hi : mk f = i) :
    ∃ row, opRow f.op = some row ∧ passes row (widen row f) = i.wellFormed ∧ (widen row f).built = some i := by
  have hset : { f with op := op } = f := by rw [← hop]
  refine ⟨row, hop ▸ is.row, ?_, ?_⟩
  · rw [widen_of_wide row hlay, passes, ← congrArg alignedOk hset, ← congrArg valueOk hset, is.aligned, is.value, hw]
  · rw [widen_of_wide row hlay, Fields.built, if_neg hlay, hdr_eq he hg, ← hi, ← is.built, hset]

/-- The word of an instruction with operand b stands for it (R88). -/
theorem encodes_srcWord (is : OpIs op h row al v mk) (hb : row.b = .v) (hfit : op < 256 ∧ d < 2048 ∧ a < 2048 ∧ c < 2048 ∧ fn < 16)
    (hk : (kindOk row.d d && kindOk row.a a && kindOk row.c c) = true)
    (hw : (fnOk (srcWord h op d a b c fn) row.fn && al (srcWord h op d a b c fn) && v (srcWord h op d a b c fn)) = i.wellFormed)
    (hi : mk (srcWord h op d a b c fn) = i) : Encodes i (srcWord h op d a b c fn) where
  fits := by
    obtain ⟨hop, hd, ha, hc, hfn⟩ := hfit
    cases b with
    | reg r => exact ⟨guardCode_lt h.g, hop, hd, ha, r.isLt, hc, hfn, Nat.one_pos⟩
    | lit w => exact ⟨guardCode_lt h.g, hop, hd, ha, Nat.two_pow_pos 11, hc, hfn, w.isLt⟩
  guard := by simpa using guardOk_guardCode h.g
  read := by
    have hkinds : kindsOk row (srcWord h op d a b c fn) = true := by simpa [kindsOk, hb] using hk
    exact is.read (srcWord_lay h op d a b c fn) (srcWord_op ..) (srcWord_e ..) (srcWord_g ..)
      (by rw [litOk_srcWord _ _ _ _ _ _ _ hb, hkinds, Bool.true_and, Bool.and_true, hw]) hi

/-- The same for an op that has nothing to align and reserves no value. -/
theorem encodes_srcWord_plain (is : OpIs op h row (fun _ => true) (fun _ => true) mk) (hb : row.b = .v)
    (hfit : op < 256 ∧ d < 2048 ∧ a < 2048 ∧ c < 2048 ∧ fn < 16) (hk : (kindOk row.d d && kindOk row.a a && kindOk row.c c) = true)
    (hfn : fnOk (srcWord h op d a b c fn) row.fn = true) (hwf : i.wellFormed = true) (hi : mk (srcWord h op d a b c fn) = i) :
    Encodes i (srcWord h op d a b c fn) :=
  encodes_srcWord is hb hfit hk (by rw [hfn, hwf]; rfl) hi

/-- The word of an instruction that takes no literal stands for it (R87). -/
theorem encodes_fullWord (is : OpIs op h row al v mk) (hb : row.b ≠ .lit) (hfit : op < 256 ∧ d < 2048 ∧ a < 2048 ∧ k < 2048 ∧ c < 2048 ∧ fn < 16)
    (hk : kindsOk row (fullWord h op d a k c fn) = true)
    (hw : (fnOk (fullWord h op d a k c fn) row.fn && al (fullWord h op d a k c fn) && v (fullWord h op d a k c fn)) = i.wellFormed)
    (hi : mk (fullWord h op d a k c fn) = i) : Encodes i (fullWord h op d a k c fn) where
  fits := by
    obtain ⟨hop, hd, ha, hbb, hc, hfn⟩ := hfit
    exact ⟨guardCode_lt h.g, hop, hd, ha, hbb, hc, hfn, Nat.one_pos⟩
  guard := guardOk_guardCode h.g
  read := is.read nofun rfl rfl rfl (by rw [litOk_fullWord _ _ _ _ _ _ _ hb, hk, Bool.true_and, Bool.and_true, hw]) hi

/-- The same for an op that has nothing to align and reserves no value. -/
theorem encodes_fullWord_plain (is : OpIs op h row (fun _ => true) (fun _ => true) mk) (hb : row.b ≠ .lit)
    (hfit : op < 256 ∧ d < 2048 ∧ a < 2048 ∧ k < 2048 ∧ c < 2048 ∧ fn < 16) (hk : kindsOk row (fullWord h op d a k c fn) = true)
    (hfn : fnOk (fullWord h op d a k c fn) row.fn = true) (hwf : i.wellFormed = true) (hi : mk (fullWord h op d a k c fn) = i) :
    Encodes i (fullWord h op d a k c fn) :=
  encodes_fullWord is hb hfit hk (by rw [hfn, hwf]; rfl) hi

/-- The word of an instruction that takes a literal only stands for it (R88). -/
theorem encodes_litWord (is : OpIs op h row (fun _ => true) v mk) (hb : row.b = .lit) (hfit : op < 256 ∧ a < 2048 ∧ c < 2048 ∧ k < 2 ^ 32)
    (hk : kindsOk row (litWord h op a c k) = true) (hfn : row.fn = .zero) (hw : v (litWord h op a c k) = i.wellFormed)
    (hi : mk (litWord h op a c k) = i) : Encodes i (litWord h op a c k) where
  fits := by
    obtain ⟨hop, ha, hc, hlit⟩ := hfit
    exact ⟨guardCode_lt h.g, hop, Nat.two_pow_pos 11, ha, Nat.two_pow_pos 11, hc, Nat.two_pow_pos 4, hlit⟩
  guard := guardOk_guardCode h.g
  read := by
    have hzero : fnOk (litWord h op a c k) row.fn = true := by rw [hfn]; rfl
    exact is.read nofun rfl rfl rfl (by rw [litOk_litWord _ _ _ _ _ hb, hk, hzero, hw]; rfl) hi

end

/-- Operand b is a matter of the layout, the field b and the literal alone. -/
@[simp] theorem src_mk_srcWord (h : Hdr) (op d a : Nat) (b : Src) (c fn : Nat) (e : Bool) (g op' d' a' c' fn' : Nat) :
    Fields.src ⟨(srcWord h op d a b c fn).lay, e, g, op', d', a', (srcWord h op d a b c fn).bb, c', fn', (srcWord h op d a b c fn).lit⟩ = b :=
  srcWord_src h op d a b c fn

/-! ### Codes of the modifiers: they fit their fields, and they are assigned (R62, R90 to R97) -/

@[simp] theorem toNat_lt_of_pow_le {w n : Nat} (x : BitVec w) (h : 2 ^ w ≤ n) : x.toNat < n := Nat.lt_of_lt_of_le x.isLt h

theorem bit_false : bit false = 0 := rfl
theorem bit_true : bit true = 1 := rfl

@[simp] theorem bit_lt (b : Bool) : bit b < 16 := by cases b <;> decide
@[simp] theorem four_mul_bit_lt (b : Bool) : 4 * bit b < 16 := by cases b <;> decide
@[simp] theorem six_mul_bit_lt (b : Bool) : 6 * bit b < 16 := by cases b <;> decide
@[simp] theorem eight_mul_bit_lt (b : Bool) : 8 * bit b < 16 := by cases b <;> decide
@[simp] theorem four_add_bit_lt (b : Bool) : 4 + bit b < 16 := by cases b <;> decide
@[simp] theorem two_bits_lt (a b : Bool) : bit a + 2 * bit b < 16 := by cases a <;> cases b <;> decide
@[simp] theorem bit_entry_lt (b : Bool) (q : BitVec 3) : 8 * bit b + q.toNat < 16 := by
  have := q.isLt
  cases b <;> simp only [bit_false, bit_true] <;> omega
@[simp] theorem intCode_lt (t : IntTy) : intCode t < 16 := by cases t <;> decide
@[simp] theorem intCode_sat_lt (t : IntTy) (b : Bool) : intCode t + 8 * bit b < 16 := by cases t <;> cases b <;> decide
@[simp] theorem wCode_lt (t : WTy) : wCode t < 16 := by cases t <;> decide
@[simp] theorem rndCode_lt (r : Rnd) : rndCode r < 16 := by cases r <;> decide
@[simp] theorem ciCode_cond_lt (c : Cond) (t : CiTy) : 4 * condCode c + ciCode t < 16 := by cases c <;> cases t <;> decide
@[simp] theorem cfCode_cond_lt (c : Cond) (t : CfTy) : 4 * condCode c + cfCode t < 16 := by cases c <;> cases t <;> decide
@[simp] theorem realCode_lt (t : RealTy) : realCode t < 16 := by cases t <;> decide
@[simp] theorem realModCode_lt (m : RealMod) : realModCode m < 16 := by
  cases m with
  | f32 r => cases r <;> decide
  | bf16 r => cases r <;> decide
  | _ => decide
@[simp] theorem memCode_lt (z : MemSz) (b : Bool) : memCode z + 8 * bit b < 16 := by cases z <;> cases b <;> decide
@[simp] theorem scopeCode_lt (s : Scope) (b : Bool) : 8 * bit b + scopeCode s < 16 := by cases s <;> cases b <;> decide
@[simp] theorem ldsCode_lt (z : ScrSz) (q : LdsQual) : scrCode z + 4 * ldsCode q < 16 := by cases z <;> cases q <;> decide
@[simp] theorem stsCode_lt (z : ScrSz) (q : StsQual) : scrCode z + 4 * stsCode q < 16 := by cases z <;> cases q <;> decide
@[simp] theorem atCode_lt (o : AtOp) : atCode o < 16 := by cases o <;> decide
@[simp] theorem atCode_home_lt (o : AtOp) (b : Bool) : atCode o + 8 * bit b < 16 := by cases o <;> cases b <;> decide
@[simp] theorem shflCode_lt (m : ShflMode) : shflCode m < 16 := by cases m <;> decide
@[simp] theorem redCode_lt (o : RedOp) : redCode o < 16 := by cases o <;> decide
@[simp] theorem fenceCode_lt (k : FenceKind) (s : Scope) : 5 * fenceCode k + scopeCode s < 16 := by cases k <;> cases s <;> decide
@[simp] theorem mrdCode_lt (t : MrdFmt) (b : Bool) : mrdCode t + 8 * bit b < 16 := by cases t <;> cases b <;> decide
@[simp] theorem cvtField_lt (d s : CvtTy) (b : Bool) : cvtTyCode d * 32 + cvtTyCode s + 1024 * bit b < 2048 := by cases d <;> cases s <;> cases b <;> decide
@[simp] theorem mloopField_lt (sl : BitVec 5) (ks : BitVec 6) : 64 * sl.toNat + ks.toNat < 2048 := by omega
@[simp] theorem mrdField_lt (r : Rnd) (blk : BitVec 6) : 512 * rndCode r + blk.toNat < 2048 := by cases r <;> simp only [rndCode] <;> omega
@[simp] theorem cbrkField_lt (cond : BitVec 3) (all : Bool) (n : BitVec 2) : cond.toNat + 8 * bit all + 16 * n.toNat < 2048 := by
  cases all <;> simp only [bit_false, bit_true] <;> omega

section
variable {f : Fields}

theorem fnOk_zero (h : f.fn = 0) : fnOk f .zero = true := by simp [fnOk, h]
theorem fnOk_iPlain (t : IntTy) (h : f.fn = intCode t) : fnOk f .iPlain = true := by cases t <;> simp [fnOk, h, intCode]
theorem fnOk_mulh (u : Bool) (h : f.fn = bit u) : fnOk f .mulh = true := by cases u <;> simp [fnOk, h, bit]
theorem fnOk_dp4 (u : Bool) (h : f.fn = 4 + bit u) : fnOk f .dp4 = true := by cases u <;> simp [fnOk, h, bit]
theorem fnOk_w (t : WTy) (h : f.fn = wCode t) : fnOk f .w = true := by cases t <;> simp [fnOk, h, wCode]
theorem fnOk_mov (w : Bool) (h : f.fn = 6 * bit w) : fnOk f .mov = true := by cases w <;> simp [fnOk, h, bit]
theorem fnOk_f (m : RealMod) (h : f.fn = realModCode m) : fnOk f .f = true := by
  cases m with
  | f32 r => cases r <;> simp [fnOk, h, realFn, realModCode, rndCode]
  | bf16 r => cases r <;> simp [fnOk, h, realFn, realModCode, rndCode]
  | _ => simp [fnOk, h, realFn, realModCode]
theorem fnOk_fPlain (t : RealTy) (h : f.fn = realCode t) : fnOk f .fPlain = true := by cases t <;> simp [fnOk, h, realCode]
theorem fnOk_fShort (b : Bool) (h : f.fn = 4 * bit b) : fnOk f .fShort = true := by cases b <;> simp [fnOk, h, bit]
theorem fnOk_shfl (m : ShflMode) (h : f.fn = shflCode m) : fnOk f .shfl = true := by cases m <;> simp [fnOk, h, shflCode]
theorem fnOk_red (o : RedOp) (h : f.fn = redCode o) : fnOk f .red = true := by cases o <;> simp [fnOk, h, redCode]
theorem fnOk_mem (z : MemSz) (b : Bool) (h : f.fn = memCode z + 8 * bit b) : fnOk f .mem = true := by cases z <;> cases b <;> simp [fnOk, h, memCode, bit]
theorem fnOk_ordered (s : Scope) (b : Bool) (h : f.fn = 8 * bit b + scopeCode s) : fnOk f .ordered = true := by
  cases s <;> cases b <;> simp [fnOk, h, scopeCode, bit]
theorem fnOk_scr (z : ScrSz) (q : LdsQual) (h : f.fn = scrCode z + 4 * ldsCode q) : fnOk f .scr = true := by
  cases z <;> cases q <;> simp [fnOk, h, scrCode, ldsCode]
theorem fnOk_ats (o : AtOp) (h : f.fn = atCode o) : fnOk f .ats = true := by cases o <;> simp [fnOk, h, atCode]
theorem fnOk_at (o : AtOp) (b : Bool) (h : f.fn = atCode o + 8 * bit b) : fnOk f .at = true := by cases o <;> cases b <;> simp [fnOk, h, atCode, bit]
theorem fnOk_cas (b : Bool) (h : f.fn = 8 * bit b) : fnOk f .cas = true := by cases b <;> simp [fnOk, h, bit]
theorem fnOk_fence (k : FenceKind) (s : Scope) (h : f.fn = 5 * fenceCode k + scopeCode s) : fnOk f .fence = true := by
  cases k <;> cases s <;> simp [fnOk, h, fenceCode, scopeCode]
theorem fnOk_bar (b : Bool) (h : f.fn = bit b) : fnOk f .bar = true := by cases b <;> simp [fnOk, h, bit]
theorem fnOk_se (h : f.fn < 4) : fnOk f .se = true := by simp [fnOk, h]
theorem fnOk_mloop (a b : Bool) (h : f.fn = bit a + 2 * bit b) : fnOk f .mloop = true := by cases a <;> cases b <;> simp [fnOk, h, bit]
theorem fnOk_mrd (t : MrdFmt) (sat : Bool) (h : f.fn = mrdCode t + 8 * bit sat) : fnOk f .mrd = (!sat || mrdInt t) := by
  cases t <;> cases sat <;> simp [fnOk, h, mrdCode, bit, mrdInt]
theorem fnOk_cvt (td ts : CvtTy) (sat : Bool) (r : Rnd) (hc : f.c = cvtTyCode td * 32 + cvtTyCode ts + 1024 * bit sat) (h : f.fn = rndCode r) :
    fnOk f .cvt = cvtOk td ts sat r := by
  have hfields : ∀ td ts : CvtTy, ∀ sat : Bool, field (cvtTyCode td * 32 + cvtTyCode ts + 1024 * bit sat) 0 5 ≤ 12 ∧
      field (cvtTyCode td * 32 + cvtTyCode ts + 1024 * bit sat) 5 5 ≤ 12 ∧ bitOf (cvtTyCode td * 32 + cvtTyCode ts + 1024 * bit sat) 10 = sat := by
    intro td ts sat
    cases td <;> cases ts <;> cases sat <;> decide
  obtain ⟨hs, hd, hb⟩ := hfields td ts sat
  have hr : rndCode r < 4 := by cases r <;> decide
  simp [fnOk, hc, h, hs, hd, hb, hr]

end

/-! A store of a literal is assigned where the literal has bits enough (R162). -/

section
variable (h : Hdr) (op d a c : Nat) (b : Src)

theorem fnOk_memSt (z : MemSz) (nt : Bool) : fnOk (srcWord h op d a b c (memCode z + 8 * bit nt)) .memSt = litStores (memBytes z) b := by
  cases b <;> cases z <;> cases nt <;> simp [fnOk, srcWord, litStores, memCode, memBytes, bit]
theorem fnOk_orderedSt (s : Scope) (w : Bool) : fnOk (srcWord h op d a b c (8 * bit w + scopeCode s)) .orderedSt = litStores (if w then 8 else 4) b := by
  cases b <;> cases s <;> cases w <;> simp [fnOk, srcWord, litStores, scopeCode, bit]
theorem fnOk_cst (q : BitVec 3) (w : Bool) : fnOk (srcWord h op d a b c (8 * bit w + q.toNat)) .cst = litStores (if w then 8 else 4) b := by
  cases b with
  | reg r => rfl
  | lit x =>
    have := q.isLt
    cases w <;> simp [fnOk, srcWord, litStores, bit]
theorem fnOk_scrSt (z : ScrSz) (q : StsQual) : fnOk (srcWord h op d a b c (scrCode z + 4 * stsCode q)) .scrSt = litStores (scrSzBytes z) b := by
  cases b <;> cases z <;> cases q <;> simp [fnOk, srcWord, litStores, scrCode, stsCode, scrSzBytes]

end

/-! ### Reading a code back from the sum that it stands in -/

@[simp] theorem bitOf_bit (b : Bool) : bitOf (bit b) 0 = b := by cases b <;> rfl
@[simp] theorem bitOf_four_add_bit (b : Bool) : bitOf (4 + bit b) 0 = b := by cases b <;> rfl
@[simp] theorem bitOf_four_mul_bit (b : Bool) : bitOf (4 * bit b) 2 = b := by cases b <;> rfl
@[simp] theorem bitOf_six_mul_bit (b : Bool) : bitOf (6 * bit b) 1 = b := by cases b <;> rfl
@[simp] theorem bitOf_eight_mul_bit (b : Bool) : bitOf (8 * bit b) 3 = b := by cases b <;> rfl
@[simp] theorem bitOf_two_bits_low (a b : Bool) : bitOf (bit a + 2 * bit b) 0 = a := by cases a <;> cases b <;> rfl
@[simp] theorem bitOf_two_bits_high (a b : Bool) : bitOf (bit a + 2 * bit b) 1 = b := by cases a <;> cases b <;> rfl
@[simp] theorem bitOf_cvtField (d s : CvtTy) (b : Bool) : bitOf (cvtTyCode d * 32 + cvtTyCode s + 1024 * bit b) 10 = b := by
  cases d <;> cases s <;> cases b <;> rfl

theorem ofNat_eq_of_mod {w n : Nat} {x : BitVec w} (h : n % 2 ^ w = x.toNat) : BitVec.ofNat w n = x := BitVec.eq_of_toNat_eq (by rw [BitVec.toNat_ofNat, h])

theorem bitOf_eq_of {w k : Nat} {b : Bool} (h : w / 2 ^ k % 2 = bit b) : bitOf w k = b := by
  unfold bitOf
  rw [h]
  cases b <;> rfl

@[simp] theorem bitOf_bit_entry (b : Bool) (q : BitVec 3) : bitOf (8 * bit b + q.toNat) 3 = b :=
  bitOf_eq_of (by have := q.isLt; cases b <;> simp only [bit_false, bit_true] <;> omega)
@[simp] theorem ofNat_bit_entry (b : Bool) (q : BitVec 3) : BitVec.ofNat 3 (8 * bit b + q.toNat) = q :=
  ofNat_eq_of_mod (by have := q.isLt; omega)
@[simp] theorem ofNat_mloopField_slot (sl : BitVec 5) (ks : BitVec 6) : BitVec.ofNat 5 ((64 * sl.toNat + ks.toNat) / 64) = sl :=
  ofNat_eq_of_mod (by omega)
@[simp] theorem ofNat_mloopField_steps (sl : BitVec 5) (ks : BitVec 6) : BitVec.ofNat 6 (64 * sl.toNat + ks.toNat) = ks :=
  ofNat_eq_of_mod (by omega)
@[simp] theorem ofNat_mrdField (r : Rnd) (blk : BitVec 6) : BitVec.ofNat 6 (512 * rndCode r + blk.toNat) = blk :=
  ofNat_eq_of_mod (by omega)
@[simp] theorem rndOf_mrdField (r : Rnd) (blk : BitVec 6) : rndOf ((512 * rndCode r + blk.toNat) / 512) = r := by
  rw [show (512 * rndCode r + blk.toNat) / 512 = rndCode r by omega, rndOf_code]
@[simp] theorem ofNat_cbrkField_cond (cond : BitVec 3) (all : Bool) (n : BitVec 2) : BitVec.ofNat 3 (cond.toNat + 8 * bit all + 16 * n.toNat) = cond :=
  ofNat_eq_of_mod (by omega)
@[simp] theorem ofNat_cbrkField_number (cond : BitVec 3) (all : Bool) (n : BitVec 2) :
    BitVec.ofNat 2 ((cond.toNat + 8 * bit all + 16 * n.toNat) / 16) = n :=
  ofNat_eq_of_mod (by cases all <;> simp only [bit_false, bit_true] <;> omega)
@[simp] theorem bitOf_cbrkField (cond : BitVec 3) (all : Bool) (n : BitVec 2) : bitOf (cond.toNat + 8 * bit all + 16 * n.toNat) 3 = all :=
  bitOf_eq_of (by cases all <;> simp only [bit_false, bit_true] <;> omega)

@[simp] theorem scopeAt_scopeCode_mod (s : Scope) : scopeAt (scopeCode s % 5) = s := by cases s <;> rfl

/-! ### The checks of alignment and of reserved values, by groups of ops (R54, R89, R96) -/

def intGroups (f : Fields) : Bool :=
  alignedTo (intBytes (intTy f.fn)) f.d && alignedTo (intBytes (intTy f.fn)) f.a && alignedTo (intBytes (intTy f.fn)) f.bb && alignedTo (intBytes (intTy f.fn)) f.c
def intImmGroups (f : Fields) : Bool := alignedTo (intBytes (intTy f.fn)) f.d && alignedTo (intBytes (intTy f.fn)) f.a
def wGroups (f : Fields) : Bool := alignedTo (wBytes (wTy f.fn)) f.d && alignedTo (wBytes (wTy f.fn)) f.a
def ciGroups (f : Fields) : Bool := alignedTo (ciBytes (ciTy f.fn)) f.a && alignedTo (ciBytes (ciTy f.fn)) f.bb
def ciImmGroups (f : Fields) : Bool := alignedTo (ciBytes (ciTy f.fn)) f.a
def cvtGroups (f : Fields) : Bool := alignedTo (cvtBytes (cvtTy (f.c / 32))) f.d && alignedTo (cvtBytes (cvtTy f.c)) f.a
def pairD (f : Fields) : Bool := alignedTo 8 f.d
def pairA (f : Fields) : Bool := alignedTo 8 f.a
def pairsDA (f : Fields) : Bool := alignedTo 8 f.d && alignedTo 8 f.a
def loadGroups (f : Fields) : Bool := alignedTo 8 f.a && alignedTo (memBytes (memSz f.fn)) f.d
def storeGroups (f : Fields) : Bool := alignedTo 8 f.a && alignedTo (memBytes (memSz f.fn)) f.bb
def orderedLoadGroups (f : Fields) : Bool := alignedTo 8 f.a && alignedTo (if 8 ≤ f.fn then 8 else 4) f.d
def orderedStoreGroups (f : Fields) : Bool := alignedTo 8 f.a && alignedTo (if 8 ≤ f.fn then 8 else 4) f.bb
def scratchLoadGroups (f : Fields) : Bool := alignedTo (scrSzBytes (scrSz f.fn)) f.d
def scratchStoreGroups (f : Fields) : Bool := alignedTo (scrSzBytes (scrSz f.fn)) f.bb

def dropCount (f : Fields) : Bool := decide (1 ≤ f.c) && decide (f.c ≤ 8)
def offsetValue (f : Fields) : Bool := f.lit % 4 == 0
def levelValue (f : Fields) : Bool := f.lit % 4 == 0 && decide (f.c ≤ 4)
def barrierValue (f : Fields) : Bool := decide (f.c < 16)
def mloopValue (f : Fields) : Bool := f.c % 64 != 0 && (f.lay != .lit || decide (f.fn < 2))
def mrdValue (f : Fields) : Bool := decide (f.c % 64 ≤ 7) && (decide (3 ≤ f.fn % 8) || field f.c 9 2 == 0)
def selectorValue (f : Fields) : Bool := selectorOk f.c
def condValue (f : Fields) : Bool := f.c % 8 != 6

@[simp] theorem kindOk_mrdField (r : Rnd) (blk : BitVec 6) : kindOk .kMrd (512 * rndCode r + blk.toNat) = true := by
  simp only [kindOk, field, beq_iff_eq]
  omega

@[simp] theorem kindOk_cbrkField (cond : BitVec 3) (all : Bool) (n : BitVec 2) : kindOk .kCbrk (cond.toNat + 8 * bit all + 16 * n.toNat) = true :=
  decide_eq_true (by cases all <;> simp only [bit_false, bit_true] <;> omega)

theorem condValue_cbrkField {f : Fields} (cond : BitVec 3) (all : Bool) (n : BitVec 2) (hc : f.c = cond.toNat + 8 * bit all + 16 * n.toNat) :
    condValue f = decide (cond.toNat ≠ 6) := by
  have h : f.c % 8 = cond.toNat := by omega
  rw [Bool.eq_iff_iff]
  simp [condValue, h]

theorem mloopValue_reg (h : Hdr) (op d a : Nat) (r : R11) (sl : BitVec 5) (ks : BitVec 6) (fn : Nat) :
    mloopValue (srcWord h op d a (.reg r) (64 * sl.toNat + ks.toNat) fn) = decide (ks.toNat ≠ 0) := by
  have hk : (64 * sl.toNat + ks.toNat) % 64 = ks.toNat := by omega
  rw [Bool.eq_iff_iff]
  simp [mloopValue, srcWord, hk]

/-- A literal leaves no register for operand b to step over (R213). -/
theorem mloopValue_lit (h : Hdr) (op d a : Nat) (w : Word) (sl : BitVec 5) (ks : BitVec 6) (incA incB : Bool) :
    mloopValue (srcWord h op d a (.lit w) (64 * sl.toNat + ks.toNat) (bit incA + 2 * bit incB)) = (decide (ks.toNat ≠ 0) && !incB) := by
  have hk : (64 * sl.toNat + ks.toNat) % 64 = ks.toNat := by omega
  rw [Bool.eq_iff_iff]
  cases incA <;> cases incB <;> simp [mloopValue, srcWord, hk, bit]

/-- Only a target that is not tapered takes a rounding code (R218). -/
theorem mrdValue_mrdField {f : Fields} (r : Rnd) (blk : BitVec 6) (t : MrdFmt) (sat : Bool) (hc : f.c = 512 * rndCode r + blk.toNat)
    (hfn : f.fn = mrdCode t + 8 * bit sat) : mrdValue f = (decide (blk.toNat ≤ 7) && (!mrdTapered t || r == .rn)) := by
  have hblk : f.c % 64 = blk.toNat := by omega
  have hrnd : (field f.c 9 2 == 0) = (r == .rn) := by
    have : field f.c 9 2 = rndCode r := by cases r <;> simp only [hc, field, rndCode] <;> omega
    rw [this]
    cases r <;> rfl
  have hfmt : decide (3 ≤ f.fn % 8) = !mrdTapered t := by rw [hfn]; cases t <;> cases sat <;> rfl
  rw [mrdValue, hblk, hrnd, hfmt]

theorem sizedReg_four (r : R11) : sizedReg 4 r = true := rfl
@[simp] theorem sizedReg_eight (r : R11) : sizedReg 8 r = pairReg r := rfl

/-- A wide ordered access has bit 3 of its modifier set. -/
@[simp] theorem eight_le_scopeCode (s : Scope) (b : Bool) : 8 ≤ 8 * bit b + scopeCode s ↔ b = true := by cases s <;> cases b <;> decide
@[simp] theorem eight_le_bit_entry (b : Bool) (q : BitVec 3) : 8 ≤ 8 * bit b + q.toNat ↔ b = true := by
  cases b
  · simp [bit]
  · simp [bit]

/-- The encoding of an instruction stands for it. The cases go by the shape of the word and by the checks that its op has. -/
theorem encodes_encodeFields (i : Instr) (he : i.encodable = true) : Encodes i (encodeFields i) := by
  cases i with
  -- compact words
  | add | sub | mul | mulh | mad | neg | abs | min | max | div | rem | addk | shlk | shrk | sark | and | or | xor | not | andn | shl | shr | sar | rot | clz | popc | brev
  | bext | bins | cmp | cmpk | fcmp | test | sel | mov | movk | fadd | fsub | fmul | fma | fmin | fmax | fneg | fabs | fcps =>
    exact encodes_compactWord (by decide) (by simp) (by simp) (by simp) rfl rfl (congrArg some (by simp [widen, compactWord]))
  -- words with operand b, nothing to align and no value reserved
  | andFull | orFull | xorFull | andnFull | testFull | bextFull | binsFull | bcast | qpush | launch | moult =>
    exact encodes_srcWord_plain ⟨rfl, fun _ => rfl, fun _ => rfl, fun _ => rfl⟩ rfl (by simp) rfl (fnOk_zero (srcWord_fn ..)) rfl (by simp)
  | fcmpFull | selFull =>
    exact encodes_srcWord_plain ⟨rfl, fun _ => rfl, fun _ => rfl, fun _ => rfl⟩ rfl (by simp) rfl (rfl) rfl (by simp)
  | mulhFull _ _ _ _ u =>
    exact encodes_srcWord_plain ⟨rfl, fun _ => rfl, fun _ => rfl, fun _ => rfl⟩ rfl (by simp) rfl (fnOk_mulh u (srcWord_fn ..)) rfl (by simp)
  | dp4 _ _ _ _ _ u =>
    exact encodes_srcWord_plain ⟨rfl, fun _ => rfl, fun _ => rfl, fun _ => rfl⟩ rfl (by simp) rfl (fnOk_dp4 u (srcWord_fn ..)) rfl (by simp)
  | faddFull _ _ _ _ m | fsubFull _ _ _ _ m | fmulFull _ _ _ _ m | fmaFull _ _ _ _ _ m =>
    exact encodes_srcWord_plain ⟨rfl, fun _ => rfl, fun _ => rfl, fun _ => rfl⟩ rfl (by simp) rfl (fnOk_f m (srcWord_fn ..)) rfl (by simp)
  | fminFull _ _ _ _ t | fmaxFull _ _ _ _ t =>
    exact encodes_srcWord_plain ⟨rfl, fun _ => rfl, fun _ => rfl, fun _ => rfl⟩ rfl (by simp) rfl (fnOk_fPlain t (srcWord_fn ..)) rfl (by simp)
  | fcpsFull _ _ _ _ bf =>
    exact encodes_srcWord_plain ⟨rfl, fun _ => rfl, fun _ => rfl, fun _ => rfl⟩ rfl (by simp) rfl (fnOk_fShort bf (srcWord_fn ..)) rfl (by simp)
  | shfl _ _ _ _ m =>
    exact encodes_srcWord_plain ⟨rfl, fun _ => rfl, fun _ => rfl, fun _ => rfl⟩ rfl (by simp) rfl (fnOk_shfl m (srcWord_fn ..)) rfl (by simp)
  | ats _ _ _ _ o =>
    exact encodes_srcWord_plain ⟨rfl, fun _ => rfl, fun _ => rfl, fun _ => rfl⟩ rfl (by simp) rfl (fnOk_ats o (srcWord_fn ..)) rfl (by simp)
  | seFill | seDrain | seFillw | seAdv =>
    exact encodes_srcWord_plain ⟨rfl, fun _ => rfl, fun _ => rfl, fun _ => rfl⟩ rfl (by simp) (by simp) (fnOk_se (by simp)) rfl (by simp)
  -- words with operand b, and groups to align or a value reserved
  | addFull | subFull | mulFull | divFull | remFull =>
    refine encodes_srcWord (al := intGroups) (v := fun _ => true) ⟨rfl, fun _ => rfl, fun _ => rfl, fun _ => rfl⟩ rfl (by simp) rfl ?_ (by simp)
    change _ = (_ && _ && _)
    simp [intGroups, fnOk]
  | minFull _ _ _ _ t | maxFull _ _ _ _ t =>
    refine encodes_srcWord (al := intGroups) (v := fun _ => true) ⟨rfl, fun _ => rfl, fun _ => rfl, fun _ => rfl⟩ rfl (by simp) rfl ?_ (by simp)
    change _ = (_ && _ && _)
    simp [intGroups, fnOk_iPlain t]
  | madFull _ _ _ _ _ t =>
    refine encodes_srcWord (al := intGroups) (v := fun _ => true) ⟨rfl, fun _ => rfl, fun _ => rfl, fun _ => rfl⟩ rfl (by simp) rfl ?_ (by simp)
    change _ = (_ && _ && _ && _)
    simp [intGroups, fnOk_iPlain t]
  | shlFull _ _ _ _ t | shrFull _ _ _ _ t | sarFull _ _ _ _ t | rotFull _ _ _ _ t =>
    refine encodes_srcWord (al := wGroups) (v := fun _ => true) ⟨rfl, fun _ => rfl, fun _ => rfl, fun _ => rfl⟩ rfl (by simp) rfl ?_ (by simp)
    change _ = (_ && _)
    simp [wGroups, fnOk_w t]
  | cmpFull =>
    refine encodes_srcWord (al := ciGroups) (v := fun _ => true) ⟨rfl, fun _ => rfl, fun _ => rfl, fun _ => rfl⟩ rfl (by simp) rfl ?_ (by simp)
    change _ = (_ && _)
    simp [ciGroups, fnOk]
  | st =>
    refine encodes_srcWord (al := storeGroups) (v := fun _ => true) ⟨rfl, fun _ => rfl, fun _ => rfl, fun _ => rfl⟩ rfl (by simp) rfl ?_ (by simp)
    change _ = (_ && _ && _)
    simp [storeGroups, fnOk_memSt, Bool.and_comm]
  | stl _ _ _ _ w =>
    refine encodes_srcWord (al := orderedStoreGroups) (v := fun _ => true) ⟨rfl, fun _ => rfl, fun _ => rfl, fun _ => rfl⟩ rfl (by simp) rfl ?_ (by simp)
    change _ = (_ && _ && _)
    simp [orderedStoreGroups, fnOk_orderedSt, Bool.and_comm]
  | cst _ _ _ _ w =>
    refine encodes_srcWord (al := orderedStoreGroups) (v := fun _ => true) ⟨rfl, fun _ => rfl, fun _ => rfl, fun _ => rfl⟩ rfl (by simp) rfl ?_ (by simp)
    change _ = (_ && _ && _)
    simp [orderedStoreGroups, fnOk_cst, Bool.and_comm]
  | sts =>
    refine encodes_srcWord (al := scratchStoreGroups) (v := fun _ => true) ⟨rfl, fun _ => rfl, fun _ => rfl, fun _ => rfl⟩ rfl (by simp) rfl ?_ (by simp)
    change _ = (_ && _)
    simp [scratchStoreGroups, fnOk_scrSt, Bool.and_comm]
  | atGlobal _ _ _ _ o hm =>
    refine encodes_srcWord (al := pairA) (v := fun _ => true) ⟨rfl, fun _ => rfl, fun _ => rfl, fun _ => rfl⟩ rfl (by simp) rfl ?_ (by simp)
    change _ = (pairReg _)
    simp [pairA, fnOk_at o hm]
  | cas _ _ _ _ _ hm =>
    refine encodes_srcWord (al := pairA) (v := fun _ => true) ⟨rfl, fun _ => rfl, fun _ => rfl, fun _ => rfl⟩ rfl (by simp) rfl ?_ (by simp)
    change _ = (pairReg _)
    simp [pairA, fnOk_cas hm]
  | atc =>
    refine encodes_srcWord (al := pairsDA) (v := fun _ => true) ⟨rfl, fun _ => rfl, fun _ => rfl, fun _ => rfl⟩ rfl (by simp) rfl ?_ (by simp)
    change _ = (_ && _)
    simp [pairsDA, fnOk_zero]
  | mloop _ _ _ b _ _ incA incB =>
    refine encodes_srcWord (al := fun _ => true) (v := mloopValue) ⟨rfl, fun _ => rfl, fun _ => rfl, fun _ => rfl⟩ rfl (by simp) (by simp) ?_ (by simp)
    change _ = (decide (_ ≠ 0) && !(incB && _))
    cases b <;> simp [mloopValue_reg, mloopValue_lit, fnOk_mloop incA incB]
  | mrd _ _ _ _ r blk t sat =>
    refine encodes_srcWord (al := fun _ => true) (v := mrdValue) ⟨rfl, fun _ => rfl, fun _ => rfl, fun _ => rfl⟩ rfl (by simp) (by simp) ?_ (by simp)
    change _ = (mrdOk _ _ _ _)
    simp [mrdValue_mrdField r blk t sat, mrdOk, fnOk_mrd t sat, Bool.and_comm, Bool.and_left_comm]
  | cbrk _ _ _ _ cond all n =>
    refine encodes_srcWord (al := fun _ => true) (v := condValue) ⟨rfl, fun _ => rfl, fun _ => rfl, fun _ => rfl⟩ rfl (by simp) (by simp) ?_ (by simp)
    change _ = (decide (_ ≠ 6))
    simp [condValue_cbrkField cond all n, fnOk_zero]
  -- words of the full layout, nothing to align and no value reserved
  | notFull | movkFull | form | qpop | nop | ret | exit | waitc | yieldI | brx | mfence | trap | bkpt =>
    exact encodes_fullWord_plain ⟨rfl, fun _ => rfl, fun _ => rfl, fun _ => rfl⟩ nofun (by simp) rfl (rfl) rfl (by simp [fullWord])
  | enrol | joinw | wbind | mwait | mclr | safept | qdup | qnot | qand | qor | qxor =>
    exact encodes_fullWord_plain ⟨rfl, fun _ => rfl, fun _ => rfl, fun _ => rfl⟩ nofun (by simp) (by simp [kindsOk, fullWord]) (rfl) rfl (by simp [fullWord])
  | fnegFull _ _ _ t | fabsFull _ _ _ t =>
    exact encodes_fullWord_plain ⟨rfl, fun _ => rfl, fun _ => rfl, fun _ => rfl⟩ nofun (by simp) rfl (fnOk_fPlain t rfl) rfl (by simp [fullWord])
  | rcp _ _ _ bf | sqrt _ _ _ bf | rsq _ _ _ bf | ex2 _ _ _ bf | lg2 _ _ _ bf =>
    exact encodes_fullWord_plain ⟨rfl, fun _ => rfl, fun _ => rfl, fun _ => rfl⟩ nofun (by simp) rfl (fnOk_fShort bf rfl) rfl (by simp [fullWord])
  | frnd _ _ _ m =>
    exact encodes_fullWord_plain ⟨rfl, fun _ => rfl, fun _ => rfl, fun _ => rfl⟩ nofun (by simp) rfl (fnOk_f m rfl) rfl (by simp [fullWord])
  | red _ _ _ o | scan _ _ _ o =>
    exact encodes_fullWord_plain ⟨rfl, fun _ => rfl, fun _ => rfl, fun _ => rfl⟩ nofun (by simp) rfl (fnOk_red o rfl) rfl (by simp [fullWord])
  | fence _ k s =>
    exact encodes_fullWord_plain ⟨rfl, fun _ => rfl, fun _ => rfl, fun _ => rfl⟩ nofun (by simp) rfl (fnOk_fence k s rfl) rfl (by simp [fullWord])
  -- words of the full layout, and groups to align or a value reserved
  | negFull | absFull =>
    refine encodes_fullWord (al := intGroups) (v := fun _ => true) ⟨rfl, fun _ => rfl, fun _ => rfl, fun _ => rfl⟩ nofun (by simp) rfl ?_ (by simp [fullWord])
    change _ = (_ && _)
    simp [intGroups, fnOk, fullWord]
  | addkFull =>
    refine encodes_fullWord (al := intImmGroups) (v := fun _ => true) ⟨rfl, fun _ => rfl, fun _ => rfl, fun _ => rfl⟩ nofun (by simp) rfl ?_ (by simp [fullWord])
    change _ = (_ && _)
    simp [intImmGroups, fnOk, fullWord]
  | shlkFull _ _ _ _ t | shrkFull _ _ _ _ t | sarkFull _ _ _ _ t | clzFull _ _ _ t | popcFull _ _ _ t | brevFull _ _ _ t =>
    refine encodes_fullWord (al := wGroups) (v := fun _ => true) ⟨rfl, fun _ => rfl, fun _ => rfl, fun _ => rfl⟩ nofun (by simp) rfl ?_ (by simp [fullWord])
    change _ = (_ && _)
    simp [wGroups, fnOk_w t, fullWord]
  | cmpkFull =>
    refine encodes_fullWord (al := ciImmGroups) (v := fun _ => true) ⟨rfl, fun _ => rfl, fun _ => rfl, fun _ => rfl⟩ nofun (by simp) rfl ?_ (by simp [fullWord])
    change _ = (sizedReg _ _)
    simp [ciImmGroups, fnOk, fullWord]
  | movFull _ _ _ w =>
    refine encodes_fullWord (al := wGroups) (v := fun _ => true) ⟨rfl, fun _ => rfl, fun _ => rfl, fun _ => rfl⟩ nofun (by simp) rfl ?_ (by simp [fullWord])
    change _ = (!w || _)
    simp [wGroups, fnOk_mov w, fullWord]
    cases w <;> rfl
  | cvt _ _ _ td ts sat r =>
    refine encodes_fullWord (al := cvtGroups) (v := fun _ => true) ⟨rfl, fun _ => rfl, fun _ => rfl, fun _ => rfl⟩ nofun (by simp) rfl ?_ (by simp [fullWord])
    change _ = (cvtOk _ _ _ _ && _ && _)
    simp [cvtGroups, fnOk_cvt td ts sat r, Bool.and_assoc, Bool.and_comm, fullWord]
  | qdrop =>
    exact encodes_fullWord (al := fun _ => true) (v := dropCount) ⟨rfl, fun _ => rfl, fun _ => rfl, fun _ => rfl⟩ nofun (by simp) rfl rfl (by simp [fullWord])
  | ballot =>
    refine encodes_fullWord (al := pairD) (v := fun _ => true) ⟨rfl, fun _ => rfl, fun _ => rfl, fun _ => rfl⟩ nofun (by simp) (by simp [kindsOk, fullWord]) ?_ (by simp [fullWord])
    change _ = (pairReg _)
    simp [pairD, fnOk, fullWord]
  | ld _ _ _ _ z nt =>
    refine encodes_fullWord (al := loadGroups) (v := fun _ => true) ⟨rfl, fun _ => rfl, fun _ => rfl, fun _ => rfl⟩ nofun (by simp) rfl ?_ (by simp [fullWord])
    change _ = (_ && _)
    simp [loadGroups, fnOk_mem z nt, fullWord]
  | lda _ _ _ _ w s =>
    refine encodes_fullWord (al := orderedLoadGroups) (v := fun _ => true) ⟨rfl, fun _ => rfl, fun _ => rfl, fun _ => rfl⟩ nofun (by simp) rfl ?_ (by simp [fullWord])
    change _ = (_ && (!w || _))
    simp [orderedLoadGroups, fnOk_ordered s w, fullWord]
    cases w <;> simp [sizedReg_four]
  | lds _ _ _ _ z q =>
    refine encodes_fullWord (al := scratchLoadGroups) (v := fun _ => true) ⟨rfl, fun _ => rfl, fun _ => rfl, fun _ => rfl⟩ nofun (by simp) rfl ?_ (by simp [fullWord])
    change _ = (sizedReg _ _)
    simp [scratchLoadGroups, fnOk_scr z q, fullWord]
  | pref | dld | dst =>
    refine encodes_fullWord (al := pairA) (v := fun _ => true) ⟨rfl, fun _ => rfl, fun _ => rfl, fun _ => rfl⟩ nofun (by simp) (by simp [kindsOk, fullWord]) ?_ (by simp [fullWord])
    change _ = (pairReg _)
    simp [pairA, fnOk, fullWord]
  | bar _ gang =>
    refine encodes_fullWord (al := fun _ => true) (v := barrierValue) ⟨rfl, fun _ => rfl, fun _ => rfl, fun _ => rfl⟩ nofun (by simp) rfl ?_ (by simp [fullWord])
    change _ = (true)
    simp [barrierValue, fnOk_bar gang, fullWord]
  | sread =>
    refine encodes_fullWord (al := fun _ => true) (v := selectorValue) ⟨rfl, fun _ => rfl, fun _ => rfl, fun _ => rfl⟩ nofun (by simp) rfl ?_ (by simp [fullWord])
    change _ = (selectorOk _)
    simp [selectorValue, fnOk, fullWord]
  -- words with the literal of a branch
  | br | call =>
    exact encodes_litWord (v := offsetValue) ⟨rfl, fun _ => rfl, fun _ => rfl, fun _ => rfl⟩ rfl (by simp) rfl rfl rfl (by simp [litWord])
  | brw =>
    exact encodes_litWord (v := levelValue) ⟨rfl, fun _ => rfl, fun _ => rfl, fun _ => rfl⟩ rfl (by simp) (by simp [kindsOk, litWord]) rfl (Bool.and_comm _ _) (by simp [litWord])
  -- the events of the table have no encoding
  | _ => cases he

end Sys2Proof
end

section
/-! PROOFS. Decoding and encoding are each other's inverse (O5, O6). Each field of an accepted word is the code of what it reads as, by its kind and by the scheme of the modifier, so the
instruction that is built has these fields for its encoding. -/

namespace Sys2Proof

open Sys2Proof.Machine (bitOf field bit ofBytes toBytes ofBytes_toBytes length_toBytes take_toBytes)

/-! ### What the fields of an accepted word read as is what they are -/

/-- A field of a kind is the number of the operand that it reads as. -/
def KindReads (kind : Kind) (x : Nat) : Prop :=
  match kind with
  | .no | .lit => 0 = x
  | .v | .vn | .n | .k => (r11 x).toNat = x
  | .q | .m => (BitVec.ofNat 3 x).toNat = x
  | .j | .w => (BitVec.ofNat 4 x).toNat = x
  | .s => (BitVec.ofNat 5 x).toNat = x
  | .kEngine => (BitVec.ofNat 2 x).toNat = x
  | .kMrd => 512 * rndCode (rndOf (x / 512)) + (BitVec.ofNat 6 x).toNat = x
  | .kMask => (BitVec.ofNat 8 x).toNat = x
  | .kCbrk => (BitVec.ofNat 3 x).toNat + 8 * bit (bitOf x 3) + 16 * (BitVec.ofNat 2 (x / 16)).toNat = x

theorem toNat_ofNat_of_lt {w x : Nat} (h : x < 2 ^ w) : (BitVec.ofNat w x).toNat = x := by
  rw [BitVec.toNat_ofNat, Nat.mod_eq_of_lt h]

theorem rndCode_rndOf (n : Nat) : rndCode (rndOf n) = n % 4 := by
  have h : n % 4 = 0 ∨ n % 4 = 1 ∨ n % 4 = 2 ∨ n % 4 = 3 := by omega
  rcases h with h | h | h | h <;> simp [rndOf, h, rndCode]

theorem kindReads {kind : Kind} {x : Nat} (hx : x < 2048) (h : kindOk kind x = true) : KindReads kind x := by
  cases kind with
  | no | lit => exact (beq_iff_eq.mp h).symm
  | v | vn | n | k => exact toNat_ofNat_of_lt hx
  | q | m | j | w | s | kEngine | kMask => exact toNat_ofNat_of_lt (of_decide_eq_true h)
  | kMrd =>
    have h0 : x / 2 ^ 6 % 2 ^ 3 = 0 := beq_iff_eq.mp h
    simp only [KindReads, rndCode_rndOf, BitVec.toNat_ofNat]
    omega
  | kCbrk =>
    have h0 : x < 64 := of_decide_eq_true h
    simp only [KindReads, bit_bitOf, BitVec.toNat_ofNat]
    omega

/-- The modifier is the code of what it reads as. -/
def FnReads (s : Scheme) (n : Nat) : Prop :=
  match s with
  | .zero => 0 = n
  | .any => 4 * condCode (condOf (n / 4)) + ciCode (ciTy n) = n ∧ 4 * condCode (condOf (n / 4)) + cfCode (cfTy n) = n ∧
      8 * bit (bitOf n 3) + (BitVec.ofNat 3 n).toNat = n
  | .iSat => intCode (intTy n) + 8 * bit (bitOf n 3) = n
  | .iPlain => intCode (intTy n) = n
  | .mulh => bit (bitOf n 0) = n
  | .dp4 => 4 + bit (bitOf n 0) = n
  | .w => wCode (wTy n) = n
  | .mov => 6 * bit (bitOf n 1) = n
  | .f => realModCode (realMod n) = n
  | .fPlain => realCode (realTy n) = n
  | .fShort => 4 * bit (bitOf n 2) = n
  | .cvt => rndCode (rndOf n) = n
  | .shfl => shflCode (shflOf n) = n
  | .red => redCode (redOf n) = n
  | .mem | .memSt => memCode (memSz n) + 8 * bit (bitOf n 3) = n
  | .ordered | .orderedSt => 8 * bit (bitOf n 3) + scopeCode (scopeAt n) = n
  | .cst => 8 * bit (bitOf n 3) + (BitVec.ofNat 3 n).toNat = n
  | .scr => scrCode (scrSz n) + 4 * ldsCode (ldsQual n) = n
  | .scrSt => scrCode (scrSz n) + 4 * stsCode (stsQual n) = n
  | .ats => atCode (atOf n) = n
  | .at => atCode (atOf n) + 8 * bit (bitOf n 3) = n
  | .cas => 8 * bit (bitOf n 3) = n
  | .fence => 5 * fenceCode (fenceKind n) + scopeCode (scopeAt (n % 5)) = n
  | .bar => bit (bitOf n 0) = n
  | .se => n < 4
  | .mloop => bit (bitOf n 0) + 2 * bit (bitOf n 1) = n
  | .mrd => mrdCode (mrdFmt n) + 8 * bit (bitOf n 3) = n

/-- The part of check 7 that looks at the modifier alone. -/
def fnCodeOk (s : Scheme) (n : Nat) : Bool :=
  match s with
  | .cvt => decide (n < 4)
  | .memSt => n % 8 != 7
  | .orderedSt => decide (n % 8 < 5)
  | .cst => true
  | .scrSt => n % 4 != 3 && decide (n < 12)
  | s => fnOk ⟨.full, false, 0, 0, 0, 0, 0, 0, n, 0⟩ s

theorem fnCodeOk_of_fnOk {f : Fields} {s : Scheme} (h : fnOk f s = true) : fnCodeOk s f.fn = true := by
  cases s with
  | cvt =>
    simp only [fnOk, Bool.and_eq_true] at h
    obtain ⟨⟨⟨hfn, -⟩, -⟩, -⟩ := h
    exact hfn
  | memSt | orderedSt | scrSt => exact (Bool.and_eq_true_iff.mp h).1
  | cst => rfl
  | _ => exact h

theorem fnReads {f : Fields} {s : Scheme} (hn : f.fn < 16) (h : fnOk f s = true) : FnReads s f.fn := by
  have hall : ∀ n < 16, fnCodeOk s n = true → FnReads s n := by
    cases s <;> dsimp only [FnReads] <;> decide
  exact hall f.fn hn (fnCodeOk_of_fnOk h)

/-- The field c of a CVT is the code of the types and of the mode that it reads as (R95). -/
theorem cvtReads {f : Fields} (hc : f.c < 2048) (h : fnOk f .cvt = true) :
    cvtTyCode (cvtTy (f.c / 32)) * 32 + cvtTyCode (cvtTy f.c) + 1024 * bit (bitOf f.c 10) = f.c := by
  have hall : ∀ n < 32, n ≤ 12 → cvtTyCode (cvtTy n) = n := by decide
  have hmod : ∀ n, cvtTy n = cvtTy (n % 32) := fun n => by simp only [cvtTy, Nat.mod_mod]
  simp only [fnOk, Bool.and_eq_true, decide_eq_true_eq] at h
  obtain ⟨⟨⟨-, hs⟩, hd⟩, -⟩ := h
  unfold field at hs hd
  rw [hmod f.c, hmod (f.c / 32), hall (f.c % 32) (by omega) (by omega), hall (f.c / 32 % 32) (by omega) (by omega), bit_bitOf]
  omega

/-- The field c of an MLOOP is the slot and the steps that it reads as (R213). -/
theorem mloopReads {x : Nat} (hx : x < 2048) : 64 * (BitVec.ofNat 5 (x / 64)).toNat + (BitVec.ofNat 6 x).toNat = x := by
  simp only [BitVec.toNat_ofNat]
  omega

/-! ### Fields put together again (R85 to R88) -/

theorem guardCode_guardOf {g : Nat} (hlt : g < 32) (h : guardOk g) : guardCode (guardOf g) = g := by
  have hall : ∀ g < 32, g = 0 ∨ 16 ≤ g → guardCode (guardOf g) = g := by decide
  exact hall g hlt h

section
variable {f : Fields} {op d a b c fn : Nat}

theorem compactWord_eq (fits : FieldsFit f) (hg : guardOk f.g) (hlay : f.lay = .compact) (hop : f.op = op) (hd : d = f.d) (ha : a = f.a) (hb : b = f.bb) :
    compactWord f.hdr op d a b = f := by
  obtain ⟨lay, e, g, op', d', a', bb, c', fn', lit⟩ := f
  subst hlay hop hd ha hb
  have hc : c' = 0 := Nat.lt_one_iff.mp fits.c
  have hfn : fn' = 0 := Nat.lt_one_iff.mp fits.fn
  have hlit : lit = 0 := Nat.lt_one_iff.mp fits.lit
  simp [compactWord, Fields.hdr, guardCode_guardOf fits.g hg, hc, hfn, hlit]

theorem fullWord_eq (fits : FieldsFit f) (hg : guardOk f.g) (hlay : f.lay = .full) (hop : f.op = op) (hd : d = f.d) (ha : a = f.a) (hb : b = f.bb) (hc : c = f.c)
    (hfn : fn = f.fn) : fullWord f.hdr op d a b c fn = f := by
  obtain ⟨lay, e, g, op', d', a', bb, c', fn', lit⟩ := f
  subst hlay hop hd ha hb hc hfn
  have hlit : lit = 0 := Nat.lt_one_iff.mp fits.lit
  simp [fullWord, Fields.hdr, guardCode_guardOf fits.g hg, hlit]

theorem litWord_eq (fits : FieldsFit f) (hg : guardOk f.g) (hlay : f.lay = .lit) (hop : f.op = op) (hd : 0 = f.d) (ha : a = f.a) (hb : 0 = f.bb) (hc : c = f.c)
    (hfn : 0 = f.fn) : litWord f.hdr op a c (BitVec.ofNat 32 f.lit).toNat = f := by
  obtain ⟨lay, e, g, op', d', a', bb, c', fn', lit⟩ := f
  subst hlay
  subst hop hd ha hb hc hfn
  simp [litWord, Fields.hdr, guardCode_guardOf fits.g hg, Nat.mod_eq_of_lt (show lit < 4294967296 from fits.lit)]

theorem srcWord_eq (fits : FieldsFit f) (hg : guardOk f.g) (hlay : f.lay ≠ .compact) (hlit : f.lay = .lit → f.bb = 0) (hop : f.op = op) (hd : d = f.d) (ha : a = f.a)
    (hc : c = f.c) (hfn : fn = f.fn) : srcWord f.hdr op d a f.src c fn = f := by
  cases h : f.lay with
  | compact => exact absurd h hlay
  | full =>
    have hsrc : f.src = .reg (r11 f.bb) := by simp [Fields.src, h]
    have hbb : f.bb < 2048 := by simpa [h] using fits.bb
    rw [hsrc]
    exact fullWord_eq fits hg h hop hd ha (toNat_ofNat_of_lt hbb) hc hfn
  | lit =>
    obtain ⟨lay, e, g, op', d', a', bb, c', fn', lit⟩ := f
    obtain rfl : lay = .lit := h
    obtain rfl : bb = 0 := hlit rfl
    subst hop hd ha hc hfn
    simp [srcWord, Fields.src, Fields.hdr, guardCode_guardOf fits.g hg, Nat.mod_eq_of_lt (show lit < 4294967296 from fits.lit)]

end

section
variable {row : OpRow} {f : Fields}

theorem litOk_bb (h : litOk row f = true) (hlay : f.lay = .lit) : f.bb = 0 := by
  simp only [litOk, hlay, if_true, Bool.and_eq_true, beq_iff_eq] at h
  exact h.2

theorem litOk_full (h : litOk row f = true) (hlay : f.lay ≠ .compact) (hv : row.b ≠ .v) (hl : row.b ≠ .lit) : f.lay = .full := by
  cases hf : f.lay with
  | compact => exact absurd hf hlay
  | full => rfl
  | lit => simp [litOk, hf, hv, hl] at h

theorem litOk_lit (h : litOk row f = true) (hl : row.b = .lit) : f.lay = .lit := by
  by_contra hf
  simp [litOk, hf, hl] at h

end

/-! ### The instruction that an op builds has the fields for its encoding -/

/-- A word of a full layout is the encoding of what its op builds of it. -/
theorem encodeFields_of_buildFull {f : Fields} {row : OpRow} {i : Instr} (fits : FieldsFit f) (hg : guardOk f.g) (hlay : f.lay ≠ .compact)
    (hrow : opRow f.op = some row) (hp : passes row f = true) (hi : buildFull f f.hdr = some i) : encodeFields i = f := by
  simp only [passes, kindsOk, Bool.and_eq_true] at hp
  obtain ⟨⟨⟨⟨hlit, hfn⟩, ⟨⟨hd, ha⟩, hb⟩, hc⟩, -⟩, hv⟩ := hp
  have rfn := fnReads (by simpa [hlay] using fits.fn) hfn
  have rd := kindReads (by simpa [hlay] using fits.d) hd
  have ra := kindReads (by simpa [hlay] using fits.a) ha
  have rb := kindReads (by simpa [hlay] using fits.bb) hb
  have hcw : f.c < 2048 := by simpa [hlay] using fits.c
  have rc := kindReads hcw hc
  unfold buildFull at hi
  split at hi
  case h_109 => cases hi
  all_goals
    rename_i hop
    rw [hop] at hrow
    obtain rfl := Option.some.inj hrow
    obtain rfl := Option.some.inj hi
  -- the ops whose fields fn and c say more than their scheme and kind
  case h_30 => exact srcWord_eq fits hg hlay (litOk_bb hlit) hop rd ra rc rfn.1
  case h_31 => exact fullWord_eq fits hg (litOk_full hlit hlay nofun nofun) hop rd ra rb rc rfn.1
  case h_32 => exact srcWord_eq fits hg hlay (litOk_bb hlit) hop rd ra rc rfn.2.1
  case h_34 => exact srcWord_eq fits hg hlay (litOk_bb hlit) hop rd ra rc rfn.2.2
  case h_52 => exact fullWord_eq fits hg (litOk_full hlit hlay nofun nofun) hop rd ra rb (cvtReads hcw hfn) rfn
  case h_89 =>
    have hbar : f.c < 16 := by
      rw [valueOk, hop] at hv
      exact of_decide_eq_true hv
    exact fullWord_eq fits hg (litOk_full hlit hlay nofun nofun) hop rd ra rb (toNat_ofNat_of_lt hbar) rfn
  case h_94 =>
    have hse : f.fn < 4 := rfn
    have hkinds : f.fn = 0 ∨ f.fn = 1 ∨ f.fn = 2 ∨ f.fn = 3 := by omega
    rcases hkinds with h | h | h | h
    all_goals
      rw [h]
      exact srcWord_eq fits hg hlay (litOk_bb hlit) hop rd ra rc h.symm
  case h_96 => exact srcWord_eq fits hg hlay (litOk_bb hlit) hop rd ra (mloopReads hcw) rfn
  -- operand b
  any_goals exact srcWord_eq fits hg hlay (litOk_bb hlit) hop rd ra rc rfn
  -- a register only
  any_goals exact fullWord_eq fits hg (litOk_full hlit hlay nofun nofun) hop rd ra rb rc rfn
  -- a literal only
  any_goals exact litWord_eq fits hg (litOk_lit hlit rfl) hop rd ra rb rc rfn

/-- A field of a compact word, 0 where its row lists nothing for it, is the number of the register that y reads as. -/
def R6Reads (kind : Kind) (y x : Nat) : Prop :=
  match kind with
  | .no => 0 = x
  | _ => (r6 y).toNat = x

/-- The field b of a compact word: the immediate that it is widened to, or the field itself (R86). -/
def R6ReadsB (row : OpRow) (g : Fields) (x : Nat) : Prop :=
  match row.c with
  | .k => (r6 g.c).toNat = x
  | _ => R6Reads row.b g.bb x

theorem r6Reads {kind : Kind} {x : Nat} (hx : x < 64) (h : kindOk kind x = true) : R6Reads kind x x := by
  cases kind with
  | no => exact (beq_iff_eq.mp h).symm
  | _ => exact toNat_ofNat_of_lt hx

theorem toNat_r6_imm6 {x : Nat} (op : Nat) (hx : x < 64) : (r6 (imm6 op x)).toNat = x := by
  have h := r6_imm6 op (BitVec.ofNat 6 x)
  rw [toNat_ofNat_of_lt hx] at h
  rw [h, toNat_ofNat_of_lt hx]

theorem r6ReadsB {row : OpRow} {f : Fields} (hlay : f.lay = .compact) (hx : f.bb < 64) (h : (decide (row.c = .k) || kindOk row.b f.bb) = true) :
    R6ReadsB row (widen row f) f.bb := by
  unfold widen
  rw [if_pos hlay, R6ReadsB]
  split
  next hk =>
    rw [hk]
    exact toNat_r6_imm6 f.op hx
  next hk =>
    rw [if_neg hk]
    have hk' : row.c ≠ .k := hk
    exact r6Reads hx (by simpa [hk'] using h)

/-- A compact word is the encoding of what its op builds of it. -/
theorem encodeFields_of_buildCompact {f : Fields} {row : OpRow} {i : Instr} (fits : FieldsFit f) (hg : guardOk f.g) (hlay : f.lay = .compact)
    (hrow : opRow f.op = some row) (hk : (kindOk row.d f.d && kindOk row.a f.a && (decide (row.c = .k) || kindOk row.b f.bb)) = true)
    (hi : buildCompact (widen row f) f.hdr = some i) : encodeFields i = f := by
  have hwop := widen_op row f
  obtain ⟨hka, hkb⟩ := Bool.and_eq_true_iff.mp hk
  obtain ⟨hkd, hka⟩ := Bool.and_eq_true_iff.mp hka
  have rd : R6Reads row.d (widen row f).d f.d := by
    rw [widen_d]
    exact r6Reads (by simpa [hlay] using fits.d) hkd
  have ra : R6Reads row.a (widen row f).a f.a := by
    rw [widen_a]
    exact r6Reads (by simpa [hlay] using fits.a) hka
  have rb := r6ReadsB hlay (by simpa [hlay] using fits.bb) hkb
  generalize widen row f = g at *
  unfold buildCompact at hi
  split at hi
  case h_46 => cases hi
  all_goals
    rename_i hop
    rw [hwop] at hop
    rw [hop] at hrow
    obtain rfl := Option.some.inj hrow
    obtain rfl := Option.some.inj hi
    exact compactWord_eq fits hg hlay hop rd ra rb

/-- Fields that decode to an instruction are those of its encoding. -/
theorem encodeFields_of_decodeFields {f : Fields} {i : Instr} (fits : FieldsFit f) (h : decodeFields f = .inr i) : encodeFields i = f := by
  obtain ⟨hg, row, hrow, hp, hb⟩ := decodeFields_eq_inr.mp h
  by_cases hlay : f.lay = .compact
  · have hop : f.op < 64 := by simpa [hlay] using fits.op
    have hfn : f.fn = 0 := by simpa [hlay] using fits.fn
    rw [passes_compact hlay hop hfn hrow] at hp
    rw [Fields.built, widen_lay, if_pos hlay, widen_hdr] at hb
    exact encodeFields_of_buildCompact fits hg hlay hrow hp hb
  · rw [widen_of_wide row hlay] at hp hb
    rw [Fields.built, if_neg hlay] at hb
    exact encodeFields_of_buildFull fits hg hlay hrow hp hb

/-- An encoding has an op that the map lists, which 0 is not. -/
theorem encodable_of_opRow {i : Instr} {row : OpRow} (h : opRow (encodeFields i).op = some row) : i.encodable = true := by
  refine bne_iff_ne.mpr fun h0 => ?_
  rw [h0] at h
  cases h

/-- What decodes is well formed and has an encoding, the fields that it was read from. -/
theorem decodeFields_sound {f : Fields} {i : Instr} (fits : FieldsFit f) (h : decodeFields f = .inr i) :
    encodeFields i = f ∧ i.encodable = true ∧ i.wellFormed = true := by
  have he := encodeFields_of_decodeFields fits h
  obtain ⟨-, row, hrow, hp, -⟩ := decodeFields_eq_inr.mp h
  have henc : i.encodable = true := encodable_of_opRow (he ▸ hrow)
  obtain ⟨row', hrow', hwf, -⟩ := (encodes_encodeFields i henc).read
  rw [he] at hrow' hwf
  obtain rfl := Option.some.inj (hrow.symm.trans hrow')
  exact ⟨he, henc, hwf.symm.trans hp⟩

/-- Settles O5: the fields of an encoding fit their layout, so decoding reads them back (`decode_word`); they stand for the instruction (`encodes_encodeFields`). -/
theorem encodeDecode : Obligations.EncodeDecode := by
  intro i rest hw he
  have h := encodes_encodeFields i he
  have hd : decode (encode i) = .ok i (encodeFields i).lay.bytes := by
    rw [encode, decode_word _ h.fits, h.decodeFields hw]
  rw [encode, length_toBytes]
  exact decode_append hd rest

/-- Settles O6: the fields that were read are those of the instruction's encoding (`decodeFields_sound`), and a word is what its fields make (`word_rawFields`). -/
theorem decodeEncode : Obligations.DecodeEncode := by
  intro bs i n h
  obtain ⟨lay, h4, hlay, hlen, hf, rfl⟩ := decode_eq_ok.mp h
  have htake : (bs.take lay.bytes).length = lay.bytes := List.length_take_of_le hlen
  obtain ⟨he, henc, hwf⟩ := decodeFields_sound (fieldsFit_rawFields lay _) hf
  have hword : (rawFields lay (ofBytes (bs.take lay.bytes))).word = ofBytes (bs.take lay.bytes) := by
    have hlt := ofBytes_lt (bs.take lay.bytes)
    rw [htake] at hlt
    refine word_rawFields hlt ?_
    have hfirst : ofBytes (bs.take lay.bytes) % 4 = ofBytes (bs.take 4) % 4 := by
      rw [ofBytes_take hlen, ofBytes_take h4]
      cases lay <;> simp only [Layout.bytes] <;> omega
    rw [hfirst, layoutOf_eq_some hlay]
  have hlayout : (encodeFields i).lay = lay := by
    rw [he]
    cases lay <;> rfl
  have hencode : encode i = bs.take lay.bytes := by
    have hback := toBytes_ofBytes (bs.take lay.bytes)
    rw [htake] at hback
    rw [encode, hlayout, he, hword, hback]
  exact ⟨hwf, henc, by rw [hencode, htake], hencode⟩

end Sys2Proof
end

section
/-! PROOFS. The issue slot, the fetch and its traps, and words written out (O3, O4, O7). -/

namespace Sys2Proof.Machine

/-! ### An issue slot (R100, R309; O3) -/

/-- A device that has booted, with nothing on its agenda and an issue slot at hand, takes the step of that slot. -/
theorem step_issue {s s' : State} {core part port : ℕ} {st : Strand} (ha : s.agenda = []) (hoff : s.sec.boot ≠ .off) (hfatal : s.sec.boot ≠ .fatal)
    (hi : s.issuePhase = true) (hport : nextPort { s with issuePhase := false } = (some (core, part, port), s')) (hst : portStrand s' core part port = some st) :
    step s = ticked (issue s' core part port st) := by
  unfold step
  rw [ha]
  dsimp only
  rw [if_neg hoff, if_neg hfatal, if_pos hi]
  unfold issueStep
  rw [hport]
  dsimp only
  rw [hst]

theorem atPc_of_ok {s : State} {st : Strand} {bs : List Byte} {f : Option (ℕ × ℕ)} {i : Instr} {n : ℕ} (hf : fetch s st = (bs, f)) (hd : decode bs = .ok i n) :
    atPc s st = i := by
  simp only [atPc, hf, hd]

theorem atPc_of_reject {s : State} {st : Strand} {bs : List Byte} {f : Option (ℕ × ℕ)} {r : Reject} (hf : fetch s st = (bs, f)) (hd : decode bs = .reject r)
    (hr : r ≠ .truncated) : atPc s st = .reservedInstruction r.number := by
  simp only [atPc, hf, hd]

theorem atPc_of_fault {s : State} {st : Strand} {bs : List Byte} {c l : ℕ} (hf : fetch s st = (bs, some (c, l))) (hd : decode bs = .reject .truncated) :
    atPc s st = .instructionFetchFault c l := by
  simp only [atPc, hf, hd]

/-- The strand's instruction goes on to the next state of the port's run. -/
theorem issue_next {s t : State} {core part port : ℕ} {st : Strand} {i : Instr} (hi : atPc s st = i) (he : exec i (takeSlot s core part port st) = .next t) :
    issue s core part port st =
      .next (settle core part port st.sid ((s.strands.filter (fun x => x.stepping && x.sid != st.sid)).map (fun x => x.sid)) (runBit i) t) := by
  simp only [issue, hi, he]

/-- Settles O3: the step is that of the issue slot, and what the port issues is what the bytes decode to. -/
theorem stepRunsDecoded : Obligations.StepRunsDecoded := by
  intro s s' core part port st bs f i n ha hoff hfatal hi hport hst hf hd
  have hstep := step_issue ha hoff hfatal hi hport hst
  have hpc := atPc_of_ok hf hd
  refine ⟨fun t he => ?_, fun f he => ?_, fun r he => ?_⟩
  · rw [hstep, issue_next hpc he]
    rfl
  · rw [hstep]
    simp only [issue, hpc, he]
    rfl
  · rw [hstep]
    simp only [issue, hpc, he]
    rfl

/-! ### Fetching (R82, R84, R328; O4) -/

/-- Where no store has written it, a byte of code is the byte of memory. -/
theorem codeByte_of_no_stores {s : State} (h : s.stores = []) (beginSeq : ℕ) (old : Bool) (pa : ℕ) : codeByte s beginSeq old pa = memGet s.mem pa := by
  simp [codeByte, h]

/-- A page of device memory that may be fetched from gives the address of the byte in it. -/
theorem fetchAddr_ok {s : State} {c va : ℕ} {t : Trans} (hw : walk s c va = .ok t) (hh : t.host = false) (hx : t.x = true)
    (hm : t.base + va % t.size < Config.deviceBytes) : fetchAddr s c va = .inr (t.base + va % t.size) := by
  simp [fetchAddr, hw, hh, hx, hm]

/-- From place i on, n bytes are fetched that lie from a on in a page that may be fetched from, with no store and no poison about. -/
theorem fetchFrom_ok {s : State} {c pc a : ℕ} {t : Trans} (hh : t.host = false) (hx : t.x = true) (hst : s.stores = []) (hp : s.memPois = [])
    (beginSeq : ℕ) (old : ℕ → Bool) {n i : ℕ}
    (hw : ∀ k, i ≤ k → k < i + n → walk s c ((pc + k) % 2 ^ 64) = .ok t ∧ t.base + (pc + k) % 2 ^ 64 % t.size = a + k ∧ a + k < Config.deviceBytes) :
    fetchFrom s c beginSeq pc old n i = ((List.range' i n).map (fun k => memGet s.mem (a + k)), none) := by
  induction n generalizing i with
  | zero => rfl
  | succ n ih =>
    obtain ⟨hwalk, haddr, hm⟩ := hw i (Nat.le_refl i) (by omega)
    have hrest := ih (i := i + 1) fun k h1 h2 => hw k (by omega) (by omega)
    have hbyte : fetchAddr s c ((pc + i) % 2 ^ 64) = .inr (a + i) := by
      rw [fetchAddr_ok hwalk hh hx (haddr ▸ hm), haddr]
    rw [fetchFrom, hbyte]
    simp [hp, hrest, codeByte_of_no_stores hst, List.range'_succ]

/-- Where every choice of old and new bytes fetches the same, that is what is fetched. -/
theorem fetch_eq {s : State} {st : Strand} {r : List Byte × Option (ℕ × ℕ)}
    (h : ∀ old, fetchFrom s (ctxOfLaunch s st.lk) (((launchOf s st.lk).map (fun l => l.beginSeq)).getD 0) st.pc.toNat old 12 0 = r) : fetch s st = r := by
  simp only [fetch, h, ite_self]

/-- The trap of a reserved instruction stops the whole strand at its PC (R98, R373). -/
theorem exec_reservedInstruction {s : State} {st : Strand} (is : Issuing s st) (n : ℕ) :
    ∃ t, exec (.reservedInstruction n) s = .next t ∧ Stopped s t st.lk [st.sid] st.pc 1 0 := by
  refine ⟨_, ?_, trapWhole_stopped is.here (lengthAt (fetch s st).1) (illegal s st n 0 0)⟩
  change execReservedInstruction n s = _
  rw [execReservedInstruction, onCur_issuing is]
  exact finish_next (by simpa using is.addr)

/-- The instruction-fetch fault stops the whole strand at its PC (R82, R328, R373). -/
theorem exec_instructionFetchFault {s : State} {st : Strand} (is : Issuing s st) (c n : ℕ) :
    ∃ t, exec (.instructionFetchFault c n) s = .next t ∧ Stopped s t st.lk [st.sid] st.pc 2 c := by
  refine ⟨_, ?_, trapWhole_stopped is.here 0
    { reportOf s st 2 c with info := n, addr := (st.pc.toNat + (fetch s st).1.length) % 2 ^ 64, access := accessCode 4 4 }⟩
  change execInstructionFetchFault c n s = _
  rw [execInstructionFetchFault, onCur_issuing is]
  exact finish_next (by simpa using is.addr)

/-- Settles O4: the fetch by induction on the bytes, the traps as whole-strand traps, and the step as that of the issue slot. -/
theorem fetchAndItsTraps : Obligations.FetchAndItsTraps := by
  refine ⟨fun s st t hh hx hw hst hp hm => ?_, fun s st n is => ⟨exec_reservedInstruction is n, fun c => exec_instructionFetchFault is c n⟩, ?_⟩
  · refine fetch_eq fun old => ?_
    rw [fetchFrom_ok (a := t.base + st.pc.toNat % t.size) hh hx hst hp, memGets, List.range_eq_range']
    intro k _ hk
    obtain ⟨hwalk, haddr⟩ := hw k (by omega)
    exact ⟨hwalk, by omega, by omega⟩
  · intro s s' core part port st bs f ha hoff hfatal hi hport hst hf
    have hstep := step_issue ha hoff hfatal hi hport hst
    refine ⟨fun r t hd hr he => ⟨runBit (.reservedInstruction r.number), ?_⟩, fun c l t hd hfault he => ⟨runBit (.instructionFetchFault c l), ?_⟩⟩
    · rw [hstep, issue_next (atPc_of_reject hf hd hr) he]
      rfl
    · rw [hfault] at hf
      rw [hstep, issue_next (atPc_of_fault hf hd) he]
      rfl

/-- Settles O7. -/
theorem decodeWords : Obligations.DecodeWords := by
  refine ⟨?_, ?_, ?_, ?_, ?_⟩
  all_goals decide

end Sys2Proof.Machine
end

section
/-! PROOFS. Compact integer instructions, logic, bit counts, bit fields and DP4 (O8, O10, O13, O14, O25): on operands of one word each element function is an operation of
32-bit vectors. -/

namespace Sys2Proof.Machine

/-! ### Elements of type i32 as bit vectors (R55, R56, R122) -/

theorem intVal_i32 (x : ℕ) : intVal (intSigned .i32) (intWidth .i32) x = (BitVec.ofNat 32 x).toInt := signed_eq_toInt (by decide) x

theorem narrow_i32 (z : ℤ) : narrow (intSigned .i32) false (intWidth .i32) z = (BitVec.ofInt 32 z).toNat := wrapTo_eq_toNat_ofInt 32 z

theorem ofNat_wrapTo (w : ℕ) (z : ℤ) : BitVec.ofNat w (wrapTo w z) = BitVec.ofInt w z := by
  rw [wrapTo_eq_toNat_ofInt, BitVec.ofNat_toNat, BitVec.setWidth_eq]

theorem ofInt_tdiv_toInt {w : ℕ} (x y : BitVec w) : BitVec.ofInt w (x.toInt.tdiv y.toInt) = x.sdiv y :=
  BitVec.eq_of_toInt_eq (by rw [BitVec.toInt_ofInt, BitVec.toInt_sdiv])

theorem ofInt_tmod_toInt {w : ℕ} (x y : BitVec w) : BitVec.ofInt w (x.toInt.tmod y.toInt) = x.srem y := by
  rw [← BitVec.toInt_srem, BitVec.ofInt_toInt]

/-- The high word of a 64-bit pattern is the quotient by 2^32, wrapped. -/
theorem toNat_extract_high (z : ℤ) : ((BitVec.ofInt 64 z).extractLsb' 32 32).toNat = wrapTo 32 (z / (2 ^ 32 : ℕ)) := by
  rw [BitVec.extractLsb'_toNat, BitVec.toNat_ofInt, wrapTo_eq, Nat.shiftRight_eq_div_pow]
  omega

theorem elAdd_i32 (x y : ℕ) : elAdd .i32 false x y = (BitVec.ofNat 32 x + BitVec.ofNat 32 y).toNat := by
  rw [elAdd, narrow_i32, intVal_i32, intVal_i32, BitVec.ofInt_add, BitVec.ofInt_toInt, BitVec.ofInt_toInt]

theorem ofInt_sub {w : ℕ} (x y : ℤ) : BitVec.ofInt w (x - y) = BitVec.ofInt w x - BitVec.ofInt w y := by
  rw [sub_eq_add_neg, BitVec.ofInt_add, BitVec.ofInt_neg, BitVec.sub_eq_add_neg]

theorem elSub_i32 (x y : ℕ) : elSub .i32 false x y = (BitVec.ofNat 32 x - BitVec.ofNat 32 y).toNat := by
  rw [elSub, narrow_i32, intVal_i32, intVal_i32, ofInt_sub, BitVec.ofInt_toInt, BitVec.ofInt_toInt]

theorem elMul_i32 (x y : ℕ) : elMul .i32 false x y = (BitVec.ofNat 32 x * BitVec.ofNat 32 y).toNat := by
  rw [elMul, narrow_i32, intVal_i32, intVal_i32, BitVec.ofInt_mul, BitVec.ofInt_toInt, BitVec.ofInt_toInt]

theorem elMad_i32 (x y z : ℕ) : elMad .i32 x y z = (BitVec.ofNat 32 x * BitVec.ofNat 32 y + BitVec.ofNat 32 z).toNat := by
  rw [elMad, wrapTo_eq_toNat_ofInt]
  simp only [intVal_i32]
  rw [show intWidth .i32 = 32 from rfl, BitVec.ofInt_add, BitVec.ofInt_mul]
  simp only [BitVec.ofInt_toInt]

theorem elMulh_signed (x y : ℕ) :
    elMulh false x y = (((BitVec.ofNat 32 x).signExtend 64 * (BitVec.ofNat 32 y).signExtend 64).extractLsb' 32 32).toNat := by
  rw [BitVec.signExtend, BitVec.signExtend, ← BitVec.ofInt_mul, toNat_extract_high, ← intVal_i32, ← intVal_i32]
  rfl

theorem elNeg_i32 (x : ℕ) : elNeg .i32 false x = (-BitVec.ofNat 32 x).toNat := by
  rw [elNeg, narrow_i32, intVal_i32, BitVec.ofInt_neg, BitVec.ofInt_toInt]

theorem elAbs_i32 (x : ℕ) : elAbs .i32 false x =
    if (BitVec.ofNat 32 x).slt 0 then (-BitVec.ofNat 32 x).toNat else (BitVec.ofNat 32 x).toNat := by
  rw [elAbs, narrow_i32, intVal_i32]
  simp only [BitVec.slt_iff_toInt_lt, show (0 : BitVec 32).toInt = 0 from rfl]
  split
  · rw [BitVec.ofInt_neg, BitVec.ofInt_toInt]
  · rw [BitVec.ofInt_toInt]

theorem elMin_i32 {x y : ℕ} (hx : x < 2 ^ 32) (hy : y < 2 ^ 32) : elMin .i32 x y =
    if (BitVec.ofNat 32 y).slt (BitVec.ofNat 32 x) then (BitVec.ofNat 32 y).toNat else (BitVec.ofNat 32 x).toNat := by
  simp only [elMin, intVal_i32, BitVec.slt_iff_toInt_lt, BitVec.toNat_ofNat, Nat.mod_eq_of_lt hx, Nat.mod_eq_of_lt hy]

theorem elMax_i32 {x y : ℕ} (hx : x < 2 ^ 32) (hy : y < 2 ^ 32) : elMax .i32 x y =
    if (BitVec.ofNat 32 x).slt (BitVec.ofNat 32 y) then (BitVec.ofNat 32 y).toNat else (BitVec.ofNat 32 x).toNat := by
  simp only [elMax, intVal_i32, BitVec.slt_iff_toInt_lt, BitVec.toNat_ofNat, Nat.mod_eq_of_lt hx, Nat.mod_eq_of_lt hy]

theorem toInt_eq_zero_iff {w : ℕ} (x : BitVec w) : x.toInt = 0 ↔ x = 0 := by
  rw [← BitVec.toInt_inj, show (0 : BitVec w).toInt = 0 from BitVec.toInt_zero]

theorem elDiv_i32 (x y : ℕ) : elDiv .i32 false x y =
    if BitVec.ofNat 32 y = 0 then 2 ^ 32 - 1 else ((BitVec.ofNat 32 x).sdiv (BitVec.ofNat 32 y)).toNat := by
  rw [elDiv_eq, narrow_i32, intVal_i32, intVal_i32, ofInt_tdiv_toInt]
  simp only [toInt_eq_zero_iff]
  rfl

theorem elRem_i32 (x y : ℕ) : elRem .i32 x y =
    if BitVec.ofNat 32 y = 0 then (BitVec.ofNat 32 x).toNat else ((BitVec.ofNat 32 x).srem (BitVec.ofNat 32 y)).toNat := by
  rw [elRem_eq, intVal_i32, intVal_i32, ← wrapTo_eq, wrapTo_eq_toNat_ofInt, show intWidth .i32 = 32 from rfl, ofInt_tmod_toInt, BitVec.toNat_ofNat]
  simp only [toInt_eq_zero_iff]

theorem elAddk_i32 {n : ℕ} (k : BitVec n) (x : ℕ) : elAddk .i32 false (immS k) x = (BitVec.ofNat 32 x + k.signExtend 32).toNat := by
  rw [elAddk, elAdd_i32, show intWidth .i32 = 32 from rfl, ofNat_wrapTo]
  rfl

section
variable {i : Instr} {h : Hdr} {len d a : ℕ}

/-- A compact integer instruction gives whatever agrees with its element function on words. -/
theorem int2_word_gives {b : ℕ} {f g : ℕ → ℕ → ℕ} (hi : ∀ s, exec i s = int2 h len d a (.v b 1) .i32 f s)
    (hf : ∀ x < 2 ^ 32, ∀ y < 2 ^ 32, f x y = g x y) : Gives i h.g len d 1 [.v a 1, .v b 1] (fun x => g (arg x 0) (arg x 1)) :=
  vop_gives_word2 hi fun x hx y hy => congrArg (· % 2 ^ 32) (hf x hx y hy)

theorem int1_word_gives {f g : ℕ → ℕ} (hi : ∀ s, exec i s = int1 h len d a .i32 f s) (hf : ∀ x < 2 ^ 32, f x = g x) :
    Gives i h.g len d 1 [.v a 1] (fun x => g (arg x 0)) :=
  vop_gives_word1 hi fun x hx => congrArg (· % 2 ^ 32) (hf x hx)

end

/-- MAD of one element is the element function of whole words. -/
theorem mad3_word_gives {i : Instr} {h : Hdr} {len d a b c : ℕ} {g : ℕ → ℕ → ℕ → ℕ} (hi : ∀ s, exec i s = mad3 h len d a (.v b 1) c .i32 s)
    (hg : ∀ x y z, elMad .i32 x y z = g x y z) :
    Gives i h.g len d 1 [.v a 1, .v b 1, .v c 1] (fun x => g (arg x 0) (arg x 1) (arg x 2)) := by
  refine vop_gives_word hi (by simp [Opnd.OneWord]) fun x hx => ?_
  rw [show intWidth .i32 = 32 from rfl, show elemCount 32 = 1 from rfl, joinElems_one, Nat.mod_mod]
  simp only [subElem_word, Nat.mod_eq_of_lt (hx _), hg]

/-- Settles O8: on words each element function of type i32 is the operation of 32-bit vectors. -/
theorem integerCompact : Obligations.IntegerCompact := by
  intro h d a b k
  have add := int2_word_gives (i := .add h d a b) (fun _ => rfl) fun x _ y _ => elAdd_i32 x y
  have sub := int2_word_gives (i := .sub h d a b) (fun _ => rfl) fun x _ y _ => elSub_i32 x y
  have mul := int2_word_gives (i := .mul h d a b) (fun _ => rfl) fun x _ y _ => elMul_i32 x y
  have mulh := int2_word_gives (i := .mulh h d a b) (fun _ => rfl) fun x _ y _ => elMulh_signed x y
  have mad := mad3_word_gives (i := .mad h d a b) (fun _ => rfl) elMad_i32
  have neg := int1_word_gives (i := .neg h d a) (fun _ => rfl) fun x _ => elNeg_i32 x
  have abs := int1_word_gives (i := .abs h d a) (fun _ => rfl) fun x _ => elAbs_i32 x
  have min := int2_word_gives (i := .min h d a b) (fun _ => rfl) fun _ hx _ hy => elMin_i32 hx hy
  have max := int2_word_gives (i := .max h d a b) (fun _ => rfl) fun _ hx _ hy => elMax_i32 hx hy
  have div := int2_word_gives (i := .div h d a b) (fun _ => rfl) fun x _ y _ => elDiv_i32 x y
  have rem := int2_word_gives (i := .rem h d a b) (fun _ => rfl) fun x _ y _ => elRem_i32 x y
  have addk := int1_word_gives (i := .addk h d a k) (fun _ => rfl) fun x _ => elAddk_i32 k x
  refine ⟨add, sub, mul, mulh, mad, neg, abs, min, max, div, rem, addk, ?mov, ?movk⟩
  case mov => exact vop_gives_word (fun _ => rfl) (by simp [Opnd.OneWord]) fun x _ => by simp
  case movk => exact vop_gives_word (f := fun _ => wrapTo 32 (immS k)) (fun _ => rfl) (by simp) fun x _ => by rw [wrapTo_eq_toNat_ofInt]; rfl

/-! ### Logic (R124; O10) -/

theorem srcOpnd_oneWord (b : Src) : (srcOpnd b 1 false).OneWord := by
  cases b with
  | reg r => rfl
  | lit w => exact w.isLt

/-- A bitwise instruction gives whatever agrees with its function on words. -/
theorem logic2_gives {i : Instr} {h : Hdr} {len d a : ℕ} {b : Opnd} {f g : ℕ → ℕ → ℕ} (hb : b.OneWord) (hi : ∀ s, exec i s = logic2 h len d a b f s)
    (hf : ∀ x < 2 ^ 32, ∀ y < 2 ^ 32, f x y = g x y) : Gives i h.g len d 1 [.v a 1, b] (fun x => g (arg x 0) (arg x 1)) :=
  vop_gives_word hi (by simpa [Opnd.OneWord] using hb) fun _ hx => congrArg (· % 2 ^ 32) (hf _ (hx 0) _ (hx 1))

/-- The compact and the full form of a bitwise instruction give the same function. -/
theorem logic2_gives_both {c f : Instr} {h : Hdr} {d a b : R6} {d' a' : R11} {b' : Src} {op g : ℕ → ℕ → ℕ}
    (hc : ∀ s, exec c s = logic2 h 4 d.toNat a.toNat (.v b.toNat 1) op s)
    (hf : ∀ s, exec f s = logic2 h (srcLen b') d'.toNat a'.toNat (srcOpnd b' 1 false) op s) (hg : ∀ x < 2 ^ 32, ∀ y < 2 ^ 32, op x y = g x y) :
    Gives c h.g 4 d.toNat 1 [.v a.toNat 1, .v b.toNat 1] (fun x => g (arg x 0) (arg x 1)) ∧
      Gives f h.g (srcLen b') d'.toNat 1 [.v a'.toNat 1, srcOpnd b' 1 false] (fun x => g (arg x 0) (arg x 1)) :=
  ⟨logic2_gives rfl hc hg, logic2_gives (srcOpnd_oneWord b') hf hg⟩

section
variable {x y : ℕ}

theorem and_eq_toNat (hx : x < 2 ^ 32) (hy : y < 2 ^ 32) : x &&& y = (BitVec.ofNat 32 x &&& BitVec.ofNat 32 y).toNat := by
  rw [BitVec.toNat_and, BitVec.toNat_ofNat, BitVec.toNat_ofNat, Nat.mod_eq_of_lt hx, Nat.mod_eq_of_lt hy]

theorem or_eq_toNat (hx : x < 2 ^ 32) (hy : y < 2 ^ 32) : x ||| y = (BitVec.ofNat 32 x ||| BitVec.ofNat 32 y).toNat := by
  rw [BitVec.toNat_or, BitVec.toNat_ofNat, BitVec.toNat_ofNat, Nat.mod_eq_of_lt hx, Nat.mod_eq_of_lt hy]

theorem xor_eq_toNat (hx : x < 2 ^ 32) (hy : y < 2 ^ 32) : x ^^^ y = (BitVec.ofNat 32 x ^^^ BitVec.ofNat 32 y).toNat := by
  rw [BitVec.toNat_xor, BitVec.toNat_ofNat, BitVec.toNat_ofNat, Nat.mod_eq_of_lt hx, Nat.mod_eq_of_lt hy]

theorem complement_eq_toNat (hx : x < 2 ^ 32) : 2 ^ 32 - 1 - x = (~~~BitVec.ofNat 32 x).toNat := by
  rw [BitVec.toNat_not, BitVec.toNat_ofNat, Nat.mod_eq_of_lt hx]

theorem andNot_eq_toNat (hx : x < 2 ^ 32) (hy : y < 2 ^ 32) : andNot x y = (BitVec.ofNat 32 x &&& ~~~BitVec.ofNat 32 y).toNat := by
  rw [andNot, complement_eq_toNat hy, BitVec.toNat_and, BitVec.toNat_ofNat x, Nat.mod_eq_of_lt hx]

end

/-- The complement of a word. -/
theorem not_gives {i : Instr} {h : Hdr} {len d a : ℕ} (hi : ∀ s, exec i s = vop h len d 1 [.v a 1] (fun x => 2 ^ 32 - 1 - arg x 0) s) :
    Gives i h.g len d 1 [.v a 1] (fun x => (~~~BitVec.ofNat 32 (arg x 0)).toNat) :=
  vop_gives_word hi (by simp [Opnd.OneWord]) fun _ hx => congrArg (· % 2 ^ 32) (complement_eq_toNat (hx 0))

/-- Settles O10: on words each bitwise function of the model is that of a 32-bit vector. -/
theorem logic : Obligations.Logic := by
  intro h d a b d' a' b'
  have and := logic2_gives_both (c := .and h d a b) (f := .andFull h d' a' b') (fun _ => rfl) (fun _ => rfl) fun _ hx _ hy => and_eq_toNat hx hy
  have or := logic2_gives_both (c := .or h d a b) (f := .orFull h d' a' b') (fun _ => rfl) (fun _ => rfl) fun _ hx _ hy => or_eq_toNat hx hy
  have xor := logic2_gives_both (c := .xor h d a b) (f := .xorFull h d' a' b') (fun _ => rfl) (fun _ => rfl) fun _ hx _ hy => xor_eq_toNat hx hy
  have andn := logic2_gives_both (c := .andn h d a b) (f := .andnFull h d' a' b') (fun _ => rfl) (fun _ => rfl) fun _ hx _ hy => andNot_eq_toNat hx hy
  exact ⟨and, or, xor, andn, not_gives fun _ => rfl, not_gives fun _ => rfl⟩

/-! ### Bit counts and bit reversal (R124; O13) -/

/-- The bits of a pattern in the opposite order. -/
def reversedBits (w x : ℕ) : ℕ := ((List.range w).map (fun k => if x.testBit k then 2 ^ (w - 1 - k) else 0)).sum

/-- A sum that is gathered step by step. -/
theorem foldl_add_eq_sum {α : Type} (xs : List α) (f : α → ℕ) : xs.foldl (fun a x => a + f x) 0 = (xs.map f).sum := by
  rw [List.sum_eq_foldl, List.foldl_map]

theorem elBrev_eq_reversedBits (w x : ℕ) : elBrev w x = reversedBits w x := by
  rw [elBrev, foldl_add_eq_sum (List.range w) (fun k => bit (bitOf x k) * 2 ^ (w - 1 - k)), reversedBits]
  simp only [bitOf_eq_testBit, bit, ite_mul, one_mul, zero_mul]

theorem elPopc_eq_countP_testBit (w x : ℕ) : elPopc w x = (List.range w).countP (fun k => x.testBit k) := by
  simp only [elPopc, bitOf_eq_testBit]

section
variable {i : Instr} {h : Hdr} {len d a : ℕ} {f g : ℕ → ℕ → ℕ}

/-- A bit count of each element gives whatever agrees with its function. -/
theorem bits1_gives {t : WTy} (hi : ∀ s, exec i s = bits1 h len d a t f s) (hf : ∀ w x, f w x = g w x) :
    Gives i h.g len d (wWords t) [.v a (wWords t)] (fun x => mapElems1 (wWidth t) (g (wWidth t)) (arg x 0)) := by
  obtain rfl : f = g := funext fun w => funext (hf w)
  exact vop_gives hi

theorem bits1_word_gives (hi : ∀ s, exec i s = bits1 h len d a .w32 f s) (hf : ∀ w x, f w x = g w x) :
    Gives i h.g len d 1 [.v a 1] (fun x => g 32 (arg x 0) % 2 ^ 32) :=
  vop_gives_word1 (f' := fun x => g 32 x % 2 ^ 32) hi fun x _ => by rw [Nat.mod_mod]; exact congrArg (· % 2 ^ 32) (hf 32 x)

end

/-- Settles O13: CLZ is its definition, POPC counts the bits, and BREV adds them up at their new places. -/
theorem bitCounts : Obligations.BitCounts := by
  intro h d a d' a' t
  have clz := bits1_word_gives (i := .clz h d a) (g := elClz) (fun _ => rfl) fun _ _ => rfl
  have popc := bits1_word_gives (i := .popc h d a) (fun _ => rfl) elPopc_eq_countP_testBit
  have brev := bits1_word_gives (i := .brev h d a) (fun _ => rfl) elBrev_eq_reversedBits
  have clzFull := bits1_gives (i := .clzFull h d' a' t) (g := elClz) (fun _ => rfl) fun _ _ => rfl
  have popcFull := bits1_gives (i := .popcFull h d' a' t) (fun _ => rfl) elPopc_eq_countP_testBit
  have brevFull := bits1_gives (i := .brevFull h d' a' t) (fun _ => rfl) elBrev_eq_reversedBits
  exact ⟨clz, popc, brev, clzFull, popcFull, brevFull⟩

/-! ### Bit fields (R125; O14) -/

theorem bins_low_high (base x y : ℕ) : bins base x (field y 0 16) (field y 16 16) =
    if 32 ≤ y % 2 ^ 16 ∨ y / 2 ^ 16 % 2 ^ 16 = 0 then base
    else base - base / 2 ^ (y % 2 ^ 16) % 2 ^ min (y / 2 ^ 16 % 2 ^ 16) (32 - y % 2 ^ 16) * 2 ^ (y % 2 ^ 16) +
      x % 2 ^ min (y / 2 ^ 16 % 2 ^ 16) (32 - y % 2 ^ 16) * 2 ^ (y % 2 ^ 16) := by
  rw [show field y 0 16 = y % 2 ^ 16 by rw [field, pow_zero, Nat.div_one]]
  rfl

theorem bins3_gives {i : Instr} {h : Hdr} {len d a c : ℕ} {b : Opnd} (hi : ∀ s, exec i s = bins3 h len d a b c s) :
    Gives i h.g len d 1 [.v a 1, b, .v c 1] (fun x => bins (arg x 2) (arg x 0) (field (arg x 1) 0 16) (field (arg x 1) 16 16)) := vop_gives hi

/-- Settles O14: BEXT is its definition, and BINS has position and length in the low and the high half of b (`bins_low_high`). -/
theorem bitFields : Obligations.BitFields := by
  intro h d a b d' a' c' b'
  have bins := bins3_gives (i := .bins h d a b) fun _ => rfl
  have binsFull := bins3_gives (i := .binsFull h d' a' b' c') fun _ => rfl
  simp only [bins_low_high] at bins binsFull
  exact ⟨vop_gives fun _ => rfl, bins, vop_gives fun _ => rfl, binsFull⟩

/-! ### Four products (R133; O25) -/

/-- Sub-element j of 8 bits, as the type has it. -/
def byteVal (uns : Bool) (x j : ℕ) : ℤ := if uns then (x / 2 ^ (8 * j) % 2 ^ 8 : ℤ) else (BitVec.ofNat 8 (x / 2 ^ (8 * j))).toInt

theorem intVal_subElem_byte (uns : Bool) (x j : ℕ) : intVal (!uns) 8 (subElem 8 j x) = byteVal uns x j := by
  cases uns with
  | false =>
    have hsub : signed 8 (subElem 8 j x) = signed 8 (x / 2 ^ (8 * j)) := by simp only [signed, subElem, field, Nat.mod_mod]
    exact hsub.trans (signed_eq_toInt (by decide) _)
  | true => simp [intVal, subElem, field, byteVal]

theorem dp4_eq_sum (uns : Bool) (x y z : ℕ) : dp4 uns x y z = (((z : ℤ) + byteVal uns x 0 * byteVal uns y 0 + byteVal uns x 1 * byteVal uns y 1 +
    byteVal uns x 2 * byteVal uns y 2 + byteVal uns x 3 * byteVal uns y 3) % 2 ^ 32).toNat := by
  simp only [dp4, wrapTo_eq, intVal_subElem_byte]
  rfl

/-- Settles O25: the four steps of the sum, each over the sub-elements as the type has them. -/
theorem dotProduct : Obligations.DotProduct := by
  intro h d a c b uns
  have dp4 := vop_gives (i := .dp4 h d a b c uns) fun _ => rfl
  simp only [dp4_eq_sum] at dp4
  exact dp4

end Sys2Proof.Machine
end

section
/-! PROOFS. Integer comparison, TEST and the predicate stack (O15, O16): what an instruction pushes depends on the operand values at the index, and those of a literal and of a
stack entry are known. -/

namespace Sys2Proof.Machine

/-! ### What an instruction pushes depends on the operands at the index -/

theorem stacks_congr {i : Instr} {g : Guard} {len : ℕ} {srcs : List Opnd} {f f' : List ℕ → List Bool → List Bool}
    (h : ∀ st, ∀ x ∈ operandRows st srcs, ∀ old, f x old = f' x old) (hf : Stacks i g len srcs f) : Stacks i g len srcs f' := by
  intro s st rd
  have hmap : ((operandRows st srcs).zip (stackRows st)).map (fun e => f e.1 e.2) = ((operandRows st srcs).zip (stackRows st)).map (fun e => f' e.1 e.2) :=
    List.map_congr_left fun e he => h st e.1 (List.of_mem_zip he).1 e.2
  have := hf s st rd
  rwa [hmap] at this

/-- A push gives any truth value that agrees on the operands at each index. -/
theorem push_stacks_congr {i : Instr} {h : Hdr} {len : ℕ} {srcs : List Opnd} {p q : List ℕ → Bool} (hi : ∀ s, exec i s = pushOp h len srcs p s)
    (hpq : ∀ st, ∀ x ∈ operandRows st srcs, p x = q x) : Stacks i h.g len srcs (fun x old => q x :: old.take 7) :=
  stacks_congr (fun st x hx old => by rw [hpq st x hx]) (push_stacks hi)

/-- An operand row holds the value of each operand at one of the present indices. -/
theorem arg_operandRows {st : Strand} {srcs : List Opnd} {x : List ℕ} (hx : x ∈ operandRows st srcs) :
    ∃ k < presentCount st, ∀ j o, srcs[j]? = some o → arg x j = nth (opndVals st o) k 0 := by
  obtain ⟨k, hk, rfl⟩ := List.mem_map.mp hx
  refine ⟨k, List.mem_range.mp hk, fun j o ho => ?_⟩
  simp [arg, nth, List.getD_eq_getElem?_getD, ho]

section
variable {st : Strand} {srcs : List Opnd} {x : List ℕ} (hx : x ∈ operandRows st srcs) {j : ℕ}
include hx

/-- A literal has its value at every index (R88). -/
theorem arg_lit {n : ℕ} (ho : srcs[j]? = some (.lit n)) : arg x j = n := by
  obtain ⟨k, hk, hrow⟩ := arg_operandRows hx
  rw [hrow j _ ho, opndVals, nth, List.map_const', List.getD_eq_getElem _ _ (by simpa [length_present] using hk), List.getElem_replicate]

/-- A stack entry is read as 0 or 1. -/
theorem arg_q {d : ℕ} {neg : Bool} (ho : srcs[j]? = some (.q d neg)) : arg x j = 0 ∨ arg x j = 1 := by
  obtain ⟨k, -, hrow⟩ := arg_operandRows hx
  rw [hrow j _ ho]
  rcases nth_mem_or_default (opndVals st (.q d neg)) k 0 with hm | h0
  · obtain ⟨b, -, hb⟩ := List.mem_map.mp hm
    rw [← hb]
    cases b <;> cases neg <;> decide
  · exact .inl h0

end

/-! ### Comparison and TEST (R59, R126, R127; O15) -/

/-- What a pattern stands for in a comparison of type t (R59). -/
def compareVal (t : CiTy) (x : ℕ) : ℤ :=
  if ciSigned t then (if ciWidth t = 64 then (BitVec.ofNat 64 x).toInt else (BitVec.ofNat 32 x).toInt) else ((x % 2 ^ ciWidth t : ℕ) : ℤ)

theorem intVal_eq_compareVal (t : CiTy) (x : ℕ) : intVal (ciSigned t) (ciWidth t) x = compareVal t x := by
  cases t with
  | i32 => exact signed_eq_toInt (by decide) x
  | i64 => exact signed_eq_toInt (by decide) x
  | n32 | n64 => rfl

theorem cmpInt_eq_condHolds (c : Cond) (t : CiTy) (x y : ℕ) : cmpInt c t x y = condHolds c (compareVal t x) (compareVal t y) := by
  rw [cmpInt, intVal_eq_compareVal, intVal_eq_compareVal]

/-- Words are equal as integers just where they are as patterns. -/
theorem cmpInt_eq_i32 (x y : ℕ) : cmpInt .eq .i32 x y = (BitVec.ofNat 32 x == BitVec.ofNat 32 y) := by
  rw [cmpInt_eq_condHolds, Bool.eq_iff_iff, beq_iff_eq, ← BitVec.toInt_inj]
  exact decide_eq_true_iff

/-- An immediate that is sign-extended to the width of a word. -/
theorem wrapTo_immS {n : ℕ} (w : ℕ) (k : BitVec n) : wrapTo w (immS k) = (k.signExtend w).toNat := wrapTo_eq_toNat_ofInt w k.toInt

/-- Settles O15: a comparison is that of what the patterns stand for (`cmpInt_eq_condHolds`), and an immediate is a literal (`arg_lit`). -/
theorem compare : Obligations.Compare := by
  intro h a b k a' k' b' c t
  have cmp := push_stacks_of_eq (i := .cmp h a b) (fun _ => rfl) fun x => cmpInt_eq_i32 (arg x 0) (arg x 1)
  have cmpFull := push_stacks_of_eq (i := .cmpFull h a' b' c t) (fun _ => rfl) fun x => cmpInt_eq_condHolds c t (arg x 0) (arg x 1)
  have cmpk := push_stacks_congr (i := .cmpk h a k) (q := fun x => BitVec.ofNat 32 (arg x 0) == k.signExtend 32) (fun _ => rfl) fun st x hx => by
    rw [cmpInt_eq_i32, arg_lit hx (j := 1) rfl, ofNat_wrapTo]
    rfl
  have cmpkFull := push_stacks_congr (i := .cmpkFull h a' k' c t) (fun _ => rfl) fun st x hx => by
    rw [cmpInt_eq_condHolds, arg_lit hx (j := 1) rfl]
  have test := push_stacks (i := .test h a b) fun _ => rfl
  have testFull := push_stacks (i := .testFull h a' b') fun _ => rfl
  rw [wrapTo_immS] at cmpk
  simp only [wrapTo_eq] at cmpkFull
  exact ⟨cmp, cmpFull, cmpk, cmpkFull, test, testFull⟩

/-! ### The predicate stack (R119, R134; O16) -/

section
variable {x y : ℕ} (hx : x = 0 ∨ x = 1) (hy : y = 0 ∨ y = 1)
include hx hy

theorem and_eq_one_of_bits : decide ((x &&& y) = 1) = (x == 1 && y == 1) := by
  rcases hx with rfl | rfl <;> rcases hy with rfl | rfl <;> rfl

theorem or_eq_one_of_bits : decide ((x ||| y) = 1) = (x == 1 || y == 1) := by
  rcases hx with rfl | rfl <;> rcases hy with rfl | rfl <;> rfl

theorem xor_eq_one_of_bits : decide ((x ^^^ y) = 1) = ((x == 1) != (y == 1)) := by
  rcases hx with rfl | rfl <;> rcases hy with rfl | rfl <;> rfl

end

/-- Settles O16: each entry is read as 0 or 1 (`arg_q`), on which the bitwise functions are those of truth values; QDROP is `pop_stacks`. -/
theorem predicateStack : Obligations.PredicateStack := by
  intro h a b k
  have qand := push_stacks_congr (i := .qand h a b) (fun _ => rfl) fun st x hx => and_eq_one_of_bits (arg_q hx (j := 0) rfl) (arg_q hx (j := 1) rfl)
  have qor := push_stacks_congr (i := .qor h a b) (fun _ => rfl) fun st x hx => or_eq_one_of_bits (arg_q hx (j := 0) rfl) (arg_q hx (j := 1) rfl)
  have qxor := push_stacks_congr (i := .qxor h a b) (fun _ => rfl) fun st x hx => xor_eq_one_of_bits (arg_q hx (j := 0) rfl) (arg_q hx (j := 1) rfl)
  exact ⟨push_stacks fun _ => rfl, push_stacks fun _ => rfl, qand, qor, qxor, pop_stacks fun _ => rfl⟩

end Sys2Proof.Machine
end

section
/-! PROOFS. The log steps of RED and SCAN (O27): each step joins neighbouring segments of the table, and an integer or bitwise operation is associative with its identity, so that a
segment is the fold of its entries in ascending order. -/

namespace Sys2Proof.Machine

/-! ### The integer and bitwise operations (R139) -/

/-- An operation on 32-bit patterns that joins in any grouping, with an identity. -/
structure Reduces (f : ℕ → ℕ → ℕ) (e : ℕ) : Prop where
  assoc : ∀ x y z, f (f x y) z = f x (f y z)
  unit_lt : e < 2 ^ 32
  lt : ∀ x < 2 ^ 32, ∀ y < 2 ^ 32, f x y < 2 ^ 32
  left : ∀ x < 2 ^ 32, f e x = x
  right : ∀ x < 2 ^ 32, f x e = x

/-- The choice between two patterns by a key, the first where the keys are the same. -/
def chooseBy (key : ℕ → ℤ) (x y : ℕ) : ℕ := if key y < key x then y else x

/-- A choice by a key has as identity the one pattern whose key is the greatest. -/
theorem reduces_chooseBy {key : ℕ → ℤ} {e : ℕ} (he : e < 2 ^ 32) (hmax : ∀ x < 2 ^ 32, x ≠ e → key x < key e) : Reduces (chooseBy key) e where
  assoc x y z := by unfold chooseBy; grind
  unit_lt := he
  lt x hx y hy := by unfold chooseBy; split <;> assumption
  left x hx := by have := hmax x hx; unfold chooseBy; grind
  right x hx := by have := hmax x hx; unfold chooseBy; grind

theorem signed_word_cases (x : ℕ) : x % 2 ^ 32 < 2 ^ 31 ∧ signed 32 x = (x % 2 ^ 32 : ℕ) ∨ 2 ^ 31 ≤ x % 2 ^ 32 ∧ signed 32 x = (x % 2 ^ 32 : ℕ) - 2 ^ 32 := by
  unfold signed
  split
  · next h => exact .inl ⟨h, rfl⟩
  · next h => exact .inr ⟨not_lt.mp h, by push_cast; rfl⟩

theorem reduces_min : Reduces (redOp .min) (redId .min) := by
  refine reduces_chooseBy (key := signed 32) (by decide) fun x hx hne => ?_
  have := signed_word_cases x
  rw [show signed 32 (redId .min) = 2 ^ 31 - 1 from rfl]
  rw [show redId .min = 2 ^ 31 - 1 from rfl] at hne
  omega

theorem reduces_max : Reduces (redOp .max) (redId .max) := by
  have hkey : redOp .max = chooseBy (fun x => -signed 32 x) := by
    funext x y
    simp only [chooseBy, neg_lt_neg_iff]
    rfl
  rw [hkey]
  refine reduces_chooseBy (by decide) fun x hx hne => ?_
  have := signed_word_cases x
  rw [show signed 32 (redId .max) = -2 ^ 31 from rfl]
  rw [show redId .max = 2 ^ 31 from rfl] at hne
  omega

theorem reduces_minu : Reduces (redOp .minu) (redId .minu) := by
  refine reduces_chooseBy (key := fun x => (x % 2 ^ 32 : ℕ)) (by decide) fun x hx hne => ?_
  rw [show redId .minu = 2 ^ 32 - 1 from rfl] at hne ⊢
  omega

theorem reduces_maxu : Reduces (redOp .maxu) (redId .maxu) := by
  have hkey : redOp .maxu = chooseBy (fun x => -((x % 2 ^ 32 : ℕ) : ℤ)) := by
    funext x y
    simp only [chooseBy, neg_lt_neg_iff]
    rfl
  rw [hkey]
  refine reduces_chooseBy (by decide) fun x hx hne => ?_
  rw [show redId .maxu = 0 from rfl] at hne ⊢
  omega

theorem reduces_add : Reduces (redOp .add) (redId .add) where
  assoc x y z := by simp only [redOp, Nat.mod_add_mod, Nat.add_mod_mod, add_assoc]
  unit_lt := by decide
  lt x _ y _ := Nat.mod_lt _ (by decide)
  left x hx := by simp only [redOp, redId, zero_add, Nat.mod_eq_of_lt hx]
  right x hx := by simp only [redOp, redId, add_zero, Nat.mod_eq_of_lt hx]

theorem reduces_and : Reduces (redOp .and) (redId .and) where
  assoc := Nat.and_assoc
  unit_lt := by decide
  lt x _ _ hy := Nat.and_lt_two_pow x hy
  left x hx := (Nat.and_comm _ _).trans ((Nat.and_two_pow_sub_one_eq_mod x 32).trans (Nat.mod_eq_of_lt hx))
  right x hx := (Nat.and_two_pow_sub_one_eq_mod x 32).trans (Nat.mod_eq_of_lt hx)

theorem reduces_or : Reduces (redOp .or) (redId .or) where
  assoc := Nat.or_assoc
  unit_lt := by decide
  lt _ hx _ hy := Nat.or_lt_two_pow hx hy
  left x _ := Nat.zero_or x
  right x _ := Nat.or_zero x

theorem reduces_xor : Reduces (redOp .xor) (redId .xor) where
  assoc := Nat.xor_assoc
  unit_lt := by decide
  lt _ hx _ hy := Nat.xor_lt_two_pow hx hy
  left x _ := Nat.zero_xor x
  right x _ := Nat.xor_zero x

theorem reduces_redOp {o : RedOp} (hadd : o ≠ .fadd) (hmin : o ≠ .fmin) (hmax : o ≠ .fmax) : Reduces (redOp o) (redId o) := by
  cases o with
  | add => exact reduces_add
  | min => exact reduces_min
  | max => exact reduces_max
  | minu => exact reduces_minu
  | maxu => exact reduces_maxu
  | and => exact reduces_and
  | or => exact reduces_or
  | xor => exact reduces_xor
  | fadd => exact absurd rfl hadd
  | fmin => exact absurd rfl hmin
  | fmax => exact absurd rfl hmax

section
variable {f : ℕ → ℕ → ℕ} {e : ℕ} (hf : Reduces f e)
include hf

theorem Reduces.foldl_lt {xs : List ℕ} (hxs : ∀ x ∈ xs, x < 2 ^ 32) {a : ℕ} (ha : a < 2 ^ 32) : xs.foldl f a < 2 ^ 32 := by
  induction xs generalizing a with
  | nil => exact ha
  | cons x xs ih =>
    rw [List.forall_mem_cons] at hxs
    exact ih hxs.2 (hf.lt a ha x hxs.1)

/-- A fold from a value is that value joined with the fold from the identity. -/
theorem Reduces.foldl_eq {xs : List ℕ} (hxs : ∀ x ∈ xs, x < 2 ^ 32) {a : ℕ} (ha : a < 2 ^ 32) : xs.foldl f a = f a (xs.foldl f e) := by
  induction xs generalizing a with
  | nil => exact (hf.right a ha).symm
  | cons x xs ih =>
    rw [List.forall_mem_cons] at hxs
    rw [List.foldl_cons, List.foldl_cons, ih hxs.2 (hf.lt a ha x hxs.1), hf.left x hxs.1, ih hxs.2 hxs.1, hf.assoc]

end

/-! ### Segments of the table -/

/-- The fold of the n entries of a table from lo up. -/
def segment (f : ℕ → ℕ → ℕ) (e : ℕ) (t : List ℕ) (lo n : ℕ) : ℕ := ((List.range' lo n).map (fun p => nth t p 0)).foldl f e

section
variable {f : ℕ → ℕ → ℕ} {e : ℕ} {t : List ℕ} (hf : Reduces f e) (ht : ∀ x ∈ t, x < 2 ^ 32)
include ht

theorem nth_lt_of_words (p : ℕ) : nth t p 0 < 2 ^ 32 := by
  rcases nth_mem_or_default t p 0 with hm | h0
  · exact ht _ hm
  · rw [h0]; decide

include hf

theorem segment_one (p : ℕ) : segment f e t p 1 = nth t p 0 := hf.left _ (nth_lt_of_words ht p)

/-- Two neighbouring segments are joined by the operation. -/
theorem segment_append (lo n m : ℕ) : f (segment f e t lo n) (segment f e t (lo + n) m) = segment f e t lo (n + m) := by
  have hwords : ∀ a k, ∀ x ∈ (List.range' a k).map (fun p => nth t p 0), x < 2 ^ 32 := fun a k => by
    rw [List.forall_mem_map]
    exact fun p _ => nth_lt_of_words ht p
  unfold segment
  rw [← List.range'_append_1, List.map_append, List.foldl_append]
  exact (hf.foldl_eq (hwords _ _) (hf.foldl_lt (hwords _ _) hf.unit_lt)).symm

end

/-! ### The steps (R139) -/

/-- The entry that a position has after the step of distance 2^k of RED, and of SCAN. -/
def redEntry (o : RedOp) (t : List ℕ) (k p : ℕ) : ℕ := if p % 2 ^ (k + 1) = 0 then redOp o (nth t p 0) (nth t (p + 2 ^ k) 0) else nth t p 0
def scanEntry (o : RedOp) (t : List ℕ) (k p : ℕ) : ℕ := if 2 ^ k ≤ p then redOp o (nth t (p - 2 ^ k) 0) (nth t p 0) else nth t p 0

/-- The table after the first k steps, where entry gives that of each position. -/
def afterSteps (entry : List ℕ → ℕ → ℕ → ℕ) (t : List ℕ) (k : ℕ) : List ℕ := (List.range k).foldl (fun t k => (List.range 64).map (entry t k)) t

theorem redSteps_eq_afterSteps (o : RedOp) (t : List ℕ) : redSteps o t = afterSteps (redEntry o) t 6 := rfl

theorem scanSteps_eq_afterSteps (o : RedOp) (t : List ℕ) : scanSteps o t = afterSteps (scanEntry o) t 6 := rfl

theorem afterSteps_succ (entry : List ℕ → ℕ → ℕ → ℕ) (t : List ℕ) (k : ℕ) :
    afterSteps entry t (k + 1) = (List.range 64).map (entry (afterSteps entry t k) k) := by
  unfold afterSteps
  rw [List.range_succ (n := k), List.foldl_append]
  rfl

theorem nth_map_range {n p : ℕ} (hp : p < n) (g : ℕ → ℕ) : nth ((List.range n).map g) p 0 = g p := by
  rw [nth, List.getD_eq_getElem _ _ (by simpa using hp), List.getElem_map, List.getElem_range]

section
variable {o : RedOp} {t : List ℕ} (hf : Reduces (redOp o) (redId o)) (ht : ∀ x ∈ t, x < 2 ^ 32)
include hf ht

/-- After k steps of RED each multiple of 2^k holds the segment of 2^k entries from it up. -/
theorem nth_afterSteps_red {k : ℕ} (hk : k ≤ 6) {p : ℕ} (hp : p < 64) (hmod : p % 2 ^ k = 0) :
    nth (afterSteps (redEntry o) t k) p 0 = segment (redOp o) (redId o) t p (2 ^ k) := by
  induction k generalizing p with
  | zero => exact (segment_one hf ht p).symm
  | succ k ih =>
    have hnext : p + 2 ^ k < 64 := by
      have hdvd : 2 ^ (k + 1) ∣ 64 := pow_dvd_pow 2 hk
      have hle := Nat.le_of_dvd (by omega) (Nat.dvd_sub hdvd (Nat.dvd_of_mod_eq_zero hmod))
      have hpos := Nat.two_pow_pos k
      rw [pow_succ] at hle
      omega
    have hmod' : p % 2 ^ k = 0 := Nat.mod_eq_zero_of_dvd ((pow_dvd_pow 2 (Nat.le_succ k)).trans (Nat.dvd_of_mod_eq_zero hmod))
    rw [afterSteps_succ, nth_map_range hp, redEntry, if_pos hmod, ih (by omega) hp hmod', ih (by omega) hnext (by rw [Nat.add_mod_right, hmod']),
      segment_append hf ht, pow_succ, mul_two]

/-- After k steps of SCAN each position holds the segment of the 2^k entries that end with it, or of all that there are. -/
theorem nth_afterSteps_scan {k p : ℕ} (hp : p < 64) :
    nth (afterSteps (scanEntry o) t k) p 0 = segment (redOp o) (redId o) t (p + 1 - 2 ^ k) (min (2 ^ k) (p + 1)) := by
  induction k generalizing p with
  | zero => simpa [afterSteps] using (segment_one hf ht p).symm
  | succ k ih =>
    have hpos := Nat.two_pow_pos k
    rw [afterSteps_succ, nth_map_range hp, scanEntry, pow_succ, ih hp]
    split
    · next hle =>
      rw [ih (by omega), min_eq_left (show 2 ^ k ≤ p + 1 by omega), show p + 1 - 2 ^ k = p - 2 ^ k + 1 - 2 ^ k + min (2 ^ k) (p - 2 ^ k + 1) by omega,
        segment_append hf ht]
      congr 1 <;> omega
    · next hlt =>
      congr 1 <;> omega

theorem nth_redSteps : nth (redSteps o t) 0 0 = segment (redOp o) (redId o) t 0 64 := nth_afterSteps_red hf ht le_rfl (by decide) rfl

theorem nth_scanSteps {p : ℕ} (hp : p < 64) : nth (scanSteps o t) p 0 = segment (redOp o) (redId o) t 0 (p + 1) := by
  rw [scanSteps_eq_afterSteps, nth_afterSteps_scan hf ht hp]
  congr 1 <;> omega

end

/-! ### Participants and their positions (R135) -/

/-- Participants as R135 has them: in ascending order, in the window from base up. -/
structure Lanes (base : ℕ) (parts : List (ℕ × List ℕ)) : Prop where
  sorted : (parts.map (fun e => e.1)).Pairwise (· < ·)
  within : ∀ e ∈ parts, base ≤ e.1 ∧ e.1 < base + 64

/-- Of the entries of ascending keys, those below m + 1 are those below m, and the one with key m. -/
theorem filter_lt_succ {es : List (ℕ × List ℕ)} (hs : (es.map (fun e => e.1)).Pairwise (· < ·)) (m : ℕ) :
    es.filter (fun e => decide (e.1 < m + 1)) = es.filter (fun e => decide (e.1 < m)) ++ (es.find? (fun e => e.1 == m)).toList := by
  induction es with
  | nil => rfl
  | cons e es ih =>
    rw [List.map_cons, List.pairwise_cons, List.forall_mem_map] at hs
    obtain ⟨hgt, hs⟩ := hs
    rcases lt_trichotomy e.1 m with lt | eq | gt
    · rw [List.filter_cons_of_pos (by simpa using Nat.lt_succ_of_lt lt), List.filter_cons_of_pos (by simpa using lt),
        List.find?_cons_of_neg (by simpa using lt.ne), ih hs, List.cons_append]
    · have none : ∀ n ≤ m + 1, es.filter (fun x => decide (x.1 < n)) = [] := fun n hn =>
        List.filter_eq_nil_iff.mpr fun x hx => by have := hgt x hx; simp only [decide_eq_true_eq]; omega
      rw [List.filter_cons_of_pos (by simp [eq]), List.filter_cons_of_neg (by simp [eq]), List.find?_cons_of_pos (by simp [eq]), none _ le_rfl, none _ (Nat.le_succ m)]
      rfl
    · rw [List.filter_cons_of_neg (by simpa using gt), List.filter_cons_of_neg (by simpa using gt.le), List.find?_cons_of_neg (by simpa using gt.ne'), ih hs]

/-- The model finds the participant at a position as R135 has it. -/
theorem atPos_natCast (base : ℕ) (parts : List (ℕ × List ℕ)) (p : ℕ) : atPos base parts (p : ℤ) = rowOfPos base parts p := by
  have hkey : ∀ e : ℕ × List ℕ, ((e.1 : ℤ) == (base : ℤ) + p) = (e.1 == base + p) := fun e => by
    rw [Bool.eq_iff_iff, beq_iff_eq, beq_iff_eq]
    omega
  unfold atPos rowOfPos rowAt
  simp only [hkey, show ¬((p : ℤ) < 0) by omega, if_false, Config.lanes, Nat.cast_ofNat]
  by_cases hp : p < 64
  · rw [if_neg (by omega), if_pos hp]
  · rw [if_pos (by omega), if_neg hp]

theorem atPos_neg {z : ℤ} (base : ℕ) (parts : List (ℕ × List ℕ)) (hz : z < 0) : atPos base parts z = none := if_pos hz

theorem redStart_eq (o : RedOp) (base : ℕ) (parts : List (ℕ × List ℕ)) :
    redStart o base parts = (List.range 64).map (fun p => (rowAt parts (base + p)).elim (redId o) (fun r => arg r 0)) := by
  refine List.map_congr_left fun p hp => ?_
  have hlt : p < 64 := List.mem_range.mp hp
  rw [atPos_natCast, rowOfPos, if_pos hlt]
  cases rowAt parts (base + p) <;> rfl

theorem mem_of_rowAt {parts : List (ℕ × List ℕ)} {i : ℕ} {r : List ℕ} (h : rowAt parts i = some r) : (i, r) ∈ parts := by
  obtain ⟨e, he, rfl⟩ := Option.map_eq_some_iff.mp h
  have hk : e.1 = i := by simpa using List.find?_some he
  exact hk ▸ List.mem_of_find?_eq_some he

/-- The values of the participants' first operands, joined in ascending order. -/
def foldValues (o : RedOp) (parts : List (ℕ × List ℕ)) : ℕ := (parts.map (fun e => arg e.2 0)).foldl (redOp o) (redId o)

section
variable {o : RedOp} {base : ℕ} {parts : List (ℕ × List ℕ)} (hf : Reduces (redOp o) (redId o)) (hl : Lanes base parts)
  (hv : ∀ e ∈ parts, arg e.2 0 < 2 ^ 32)
include hf hv

theorem redStart_lt : ∀ x ∈ redStart o base parts, x < 2 ^ 32 := by
  rw [redStart_eq, List.forall_mem_map]
  intro p _
  cases hr : rowAt parts (base + p) with
  | none => exact hf.unit_lt
  | some r => exact hv _ (mem_of_rowAt hr)

include hl

/-- The first n entries of the table fold to the values of the participants at the first n positions. -/
theorem segment_redStart {n : ℕ} (hn : n ≤ 64) :
    segment (redOp o) (redId o) (redStart o base parts) 0 n = foldValues o (parts.filter (fun e => decide (e.1 < base + n))) := by
  induction n with
  | zero =>
    rw [List.filter_eq_nil_iff.mpr fun e he => by have := hl.within e he; simp only [decide_eq_true_eq]; omega]
    rfl
  | succ n ih =>
    have hlt : foldValues o (parts.filter (fun e => decide (e.1 < base + n))) < 2 ^ 32 :=
      hf.foldl_lt (List.forall_mem_map.mpr fun e he => hv e (List.mem_filter.mp he).1) hf.unit_lt
    rw [← segment_append hf (redStart_lt hf hv), segment_one hf (redStart_lt hf hv), ih (by omega), zero_add, redStart_eq, nth_map_range (by omega),
      ← add_assoc, filter_lt_succ hl.sorted, rowAt]
    cases parts.find? (fun e => e.1 == base + n) with
    | none => simpa using hf.right _ hlt
    | some e => simp [foldValues]

end

/-- Settles O27: the table after the steps holds segments of it (`nth_redSteps`, `nth_scanSteps`), and a segment folds the values of the participants in it (`segment_redStart`). -/
theorem reductions : Obligations.Reductions := by
  intro o base parts hadd hmin hmax _ _ hsorted hparts
  have hf := reduces_redOp hadd hmin hmax
  have hl : Lanes base parts := ⟨hsorted, fun e he => ⟨(hparts e he).1, (hparts e he).2.1⟩⟩
  have hv : ∀ e ∈ parts, arg e.2 0 < 2 ^ 32 := fun e he => (hparts e he).2.2
  refine ⟨?_, fun e he => ?_⟩
  · rw [nth_redSteps hf (redStart_lt hf hv), segment_redStart hf hl hv le_rfl, List.filter_eq_self.mpr fun e he => by simpa using (hl.within e he).2]
    rfl
  · obtain ⟨hlow, hhigh⟩ := hl.within e he
    rw [nth_scanSteps hf (redStart_lt hf hv) (by omega), segment_redStart hf hl hv (by omega),
      List.filter_congr (q := fun x => decide (x.1 ≤ e.1)) fun x _ => by rw [decide_eq_decide]; omega]
    rfl

end Sys2Proof.Machine
end

section
/-! PROOFS. Cross-lane instructions and FORM (O26): on a sheaf, with nothing poisoned, the frame of R135 writes the result over the participants, and what stands at an index where the
guard is false does not matter. -/

namespace Sys2Proof.Machine

/-! ### Writing the result of a strand on one sheaf (R37, R42) -/

section
variable {s : State} {st : Strand} {g : Guard} {len d n : ℕ} {vals : List ℕ}

/-- A guarded write that needs no cut puts the strand that `Wrote` describes. -/
theorem writeResult_guardedWrite (is : Issuing s st) (hv : vals.length = presentCount st) (wr : writable s st (columns st g d n vals))
    (un : unwatched s st (List.range' d n)) : ∃ u, writeResult s st (guardedWrite st g d n vals) len = putStrand s u ∧ Wrote st u g len d n vals := by
  have hregs := guardedWrite_regs is.wf g d n vals
  refine ⟨_, writeResult_eq is.here ?_ fun _ => ?_, written_wrote is.wf hv (wr.symm.imp_left And.left)⟩
  · rw [hregs]
    exact wr.imp_right And.right
  · rw [hregs]
    simpa [columns, List.map_map, Function.comp_def, List.range'_eq_map_range] using un

theorem commit_guardedWrite (is : Issuing s st) (hv : vals.length = presentCount st) (wr : writable s st (columns st g d n vals))
    (un : unwatched s st (List.range' d n)) : ∃ u, commit s st (guardedWrite st g d n vals) len = putStrand s u ∧ Wrote st u g len d n vals := by
  rw [commit_eq_writeResult]
  · exact writeResult_guardedWrite is hv wr un
  · rw [guardedWrite_regs is.wf]
    exact wr.symm.imp And.left fun h => ⟨h, by simp [guardedWrite]⟩

end

/-- A guarded column does not depend on the new values where the flag is false. -/
theorem guarded_congr {α : Type} {flags : List Bool} {a b old : List α} (hl : a.length = b.length)
    (h : ∀ k (hf : k < flags.length) (ha : k < a.length) (hb : k < b.length), flags[k] = true → a[k] = b[k]) : guarded flags a old = guarded flags b old := by
  unfold guarded
  refine List.ext_getElem (by simp [hl]) fun k h1 h2 => ?_
  simp only [List.length_map, List.length_zip, lt_min_iff] at h1 h2
  simp only [List.getElem_map, List.getElem_zip]
  split
  · next hk => exact h k h1.1 h1.2.1 h2.2.1 hk
  · rfl

/-- The columns of a guarded write depend on the values at the indices that act. -/
theorem columns_congr_acting {st : Strand} {g : Guard} {d n : ℕ} {f f' : ℕ → ℕ} (h : ∀ i ∈ acting st g, f i = f' i) :
    columns st g d n ((present st).map f) = columns st g d n ((present st).map f') := by
  refine List.map_congr_left fun k _ => congrArg (Prod.mk (d + k)) (guarded_congr (by simp) fun j hf ha hb hflag => ?_)
  simp only [List.length_map] at ha
  have hact : (present st)[j] ∈ acting st g := by
    rw [acting, List.mem_filterMap]
    exact ⟨((present st)[j], (guardFlags st g)[j]), List.mem_iff_getElem.mpr ⟨j, by simp [ha, hf], List.getElem_zip⟩, if_pos hflag⟩
  simp only [List.getElem_map, h _ hact]

/-! ### The participants of a strand (R135) -/

section
variable {st : Strand} {g : Guard} {srcs : List Opnd}

theorem partsOf_eq_participants : partsOf st g srcs = participants st g srcs := by
  simp only [partsOf, participants, operandRows, length_present]

/-- The participants are the indices that act, in their order. -/
theorem fst_participants : (participants st g srcs).map (fun e => e.1) = acting st g := by
  have hlen : ((present st).zip (guardFlags st g)).length ≤ (operandRows st srcs).length := by
    rw [length_operandRows, List.length_zip, length_present]
    exact min_le_left _ _
  have hfst : ((((present st).zip (guardFlags st g)).zip (operandRows st srcs)).map Prod.fst) = (present st).zip (guardFlags st g) := List.map_fst_zip hlen
  rw [acting, ← hfst, List.filterMap_map, participants, List.map_filterMap]
  congr 1
  funext ⟨⟨i, b⟩, r⟩
  cases b <;> rfl

theorem row_of_participant {e : ℕ × List ℕ} (he : e ∈ participants st g srcs) : e.2 ∈ operandRows st srcs := by
  obtain ⟨x, hx, hsome⟩ := List.mem_filterMap.mp he
  split at hsome
  · rw [Option.some.injEq] at hsome
    exact hsome ▸ (List.of_mem_zip hx).2
  · cases hsome

theorem oneWindow_of_oneSheaf (h : oneSheaf st) : oneWindow (present st) = true := h.elim oneWindow_of_mask And.right

/-- On one sheaf the participants are lanes of the window of the strand's first index. -/
theorem lanes_participants (wf : StrandWf st) (h : oneSheaf st) : Lanes (st.first / 64 * 64) (participants st g srcs) where
  sorted := fst_participants (srcs := srcs) ▸ (sorted_present st).sublist (acting_sublist st g)
  within e he := by
    have hact : e.1 ∈ acting st g := fst_participants (srcs := srcs) ▸ List.mem_map_of_mem (f := fun e : ℕ × List ℕ => e.1) he
    have hwin := List.all_eq_true.mp (oneWindow_of_oneSheaf h) e.1 (mem_acting hact)
    rw [decide_eq_true_eq, ← wf.first] at hwin
    omega

end

section
variable {base : ℕ} {parts : List (ℕ × List ℕ)}

/-- A participant is found by its index. -/
theorem Lanes.find?_eq (hl : Lanes base parts) {e : ℕ × List ℕ} (he : e ∈ parts) : parts.find? (fun x => x.1 == e.1) = some e := by
  have hs := hl.sorted
  clear hl
  induction parts with
  | nil => simp at he
  | cons x xs ih =>
    rw [List.map_cons, List.pairwise_cons, List.forall_mem_map] at hs
    rcases List.mem_cons.mp he with rfl | hmem
    · exact List.find?_cons_of_pos (beq_self_eq_true _)
    · rw [List.find?_cons_of_neg (by simpa using (hs.1 e hmem).ne), ih hmem hs.2]

theorem Lanes.rowAt_eq (hl : Lanes base parts) {e : ℕ × List ℕ} (he : e ∈ parts) : rowAt parts e.1 = some e.2 := by
  rw [rowAt, hl.find?_eq he]
  rfl

/-- The value aligned with a participant, among those of all of them. -/
theorem Lanes.nth_map_findIdx (hl : Lanes base parts) (f : ℕ × List ℕ → ℕ) {e : ℕ × List ℕ} (he : e ∈ parts) :
    nth (parts.map f) (parts.findIdx (fun x => x.1 == e.1)) 0 = f e := by
  rw [nth, List.getD_eq_getElem?_getD, List.getElem?_map, ← List.find?_eq_getElem?_findIdx, hl.find?_eq he]
  rfl

/-- A sum over positions takes in the participants there. -/
theorem Lanes.sum_positions (hl : Lanes base parts) (f : ℕ → List ℕ → ℕ) (n : ℕ) :
    ((List.range n).map (fun p => (rowAt parts (base + p)).elim 0 (f p))).sum =
      ((parts.filter (fun e => decide (e.1 < base + n))).map (fun e => f (e.1 - base) e.2)).sum := by
  induction n with
  | zero =>
    rw [List.filter_eq_nil_iff.mpr fun e he => by have := hl.within e he; simp only [decide_eq_true_eq]; omega]
    rfl
  | succ n ih =>
    rw [List.range_succ, List.map_append, List.sum_append, ih, ← add_assoc, filter_lt_succ hl.sorted, List.map_append, List.sum_append, List.map_singleton,
      List.sum_singleton, rowAt]
    cases hfind : parts.find? (fun e => e.1 == base + n) with
    | none => rfl
    | some e =>
      have hkey : e.1 = base + n := by simpa using List.find?_some hfind
      simp [hkey]

end

/-! ### The frame of R135 -/

/-- Where no index that acts reads poison, none enters a result (R142, R390). -/
theorem enterPoisoned_of_clean {st : Strand} {g : Guard} {srcs : List Opnd} (h : consumed st g (srcs.flatMap Opnd.regs) = [])
    (uses : ℕ → List (ℕ × List ℕ) → List (ℕ × ℕ)) : enterPoisoned st g srcs uses = [] := by
  unfold consumed at h
  unfold enterPoisoned
  split at h
  · next hempty => rw [if_pos hempty]
  · next hempty =>
    rw [if_neg hempty]
    rw [List.filter_eq_nil_iff] at h ⊢
    intro i hi hany
    obtain ⟨k, hk, hregs⟩ := List.any_eq_true.mp hany
    obtain ⟨r, hr, hpois⟩ := List.any_eq_true.mp hregs
    exact h i hi (List.any_eq_true.mpr ⟨r, List.mem_flatMap.mpr ⟨k.2, (List.of_mem_zip hk).2, hr⟩, (Bool.and_eq_true_iff.mp hpois).1⟩)

/-- Where nothing enters that is poisoned, no participant parks. -/
theorem overSound_of_clean {rs : List ℕ} {uses : State → Strand → List ℕ} {len : ℕ} {f : State → Strand → State} {s : State} {st : Strand}
    (h : uses s st = []) (k : ℕ) : overSound rs uses len f k s st = f s st := by
  induction k with
  | zero => rfl
  | succ k ih =>
    rw [overSound, h]
    exact ih

theorem asIfX_of_oneSheaf {s : State} {st : Strand} (h : oneSheaf st) (f : State → Strand → State) : asIfX s st f = f s st := by
  unfold asIfX
  split
  · rfl
  · next hmask =>
    obtain ⟨hteam, hwin⟩ := h.resolve_left hmask
    rw [if_neg (by rw [Option.isNone_iff_eq_none]; intro hnone; simp [hnone] at hteam), if_pos hwin]

section
variable {h : Hdr} {len d n : ℕ} {srcs : List Opnd} {uses : ℕ → List (ℕ × List ℕ) → List (ℕ × ℕ)} {f : ℕ → List (ℕ × List ℕ) → List ℕ} {s : State} {st : Strand}

/-- The number that the frame gives an index: that of the participant which it is. -/
def crossValue (vals : List ℕ) (parts : List (ℕ × List ℕ)) (i : ℕ) : ℕ := nth vals (parts.findIdx (fun p => p.1 == i)) 0

/-- On one sheaf the frame writes the result over the participants. -/
theorem crossOp_ready (rd : Ready s st h.g srcs (List.range' d n) false) (os : oneSheaf st) (hg : guardU st h.g ≠ some false) :
    crossOp h len d n srcs uses f s = finish (writeResult s st (guardedWrite st h.g d n ((present st).map
      (crossValue (f (st.first / 64 * 64) (participants st h.g srcs)) (participants st h.g srcs)))) len) := by
  have hw : mustWait s st (srcs.flatMap Opnd.regs ++ List.range' d n) (guardReads h.g || srcs.any Opnd.readsQ) = false := rd.results
  unfold crossOp
  rw [onCur_issuing rd.toIssuing]
  simp only [hw, hg, Bool.false_eq_true, if_false]
  rw [asIfX_of_oneSheaf os, overSound_of_clean (enterPoisoned_of_clean rd.clean uses)]
  simp only [partsOf_eq_participants]
  rfl

/-- Under a guard that is U false there is no participant, and only the PC moves on. -/
theorem crossOp_false (rd : Ready s st h.g srcs (List.range' d n) false) (hg : guardU st h.g = some false) :
    ∃ u, crossOp h len d n srcs uses f s = .next (putStrand s u) ∧ u.pc = st.pc + BitVec.ofNat 64 len ∧ u = { st with pc := u.pc, mask := u.mask } := by
  have hw : mustWait s st (srcs.flatMap Opnd.regs ++ List.range' d n) (guardReads h.g || srcs.any Opnd.readsQ) = false := rd.results
  refine ⟨written st { regs := [], stack := none, pois := [], acted := [] } len, ?_, rfl, by simp [written, settleMask, Result.wrote]⟩
  unfold crossOp
  rw [onCur_issuing rd.toIssuing]
  simp only [hw, hg, Bool.false_eq_true, if_false, if_true]
  rw [commit_eq_writeResult (.inr ⟨by simp, by simp⟩), writeResult_eq rd.here (.inl (by simp)) (by simp [Result.wrote])]
  exact finish_next rd.addr

end

/-- A cross-lane instruction gives, at each participant, whatever agrees there with its function. -/
theorem crossOp_givesAcross {i : Instr} {h : Hdr} {len d n : ℕ} {srcs : List Opnd} {uses : ℕ → List (ℕ × List ℕ) → List (ℕ × ℕ)}
    {f : ℕ → List (ℕ × List ℕ) → ℕ × List ℕ → ℕ} {g : ℕ → List (ℕ × List ℕ) → ℕ → ℕ}
    (hi : ∀ s, exec i s = crossOp h len d n srcs uses (fun base parts => parts.map (f base parts)) s)
    (hfg : ∀ st base, Lanes base (participants st h.g srcs) → ∀ e ∈ participants st h.g srcs,
      f base (participants st h.g srcs) e = g base (participants st h.g srcs) e.1) : GivesAcross i h.g len d n srcs g := by
  intro s st rd os
  refine ⟨fun hg wr un => ?_, fun hg => by simpa only [hi] using crossOp_false rd hg⟩
  have hl : Lanes (st.first / 64 * 64) (participants st h.g srcs) := lanes_participants rd.wf os
  have hcols := columns_congr_acting (st := st) (g := h.g) (d := d) (n := n)
    (f := crossValue ((participants st h.g srcs).map (f (st.first / 64 * 64) (participants st h.g srcs))) (participants st h.g srcs))
    (f' := g (st.first / 64 * 64) (participants st h.g srcs)) fun j hj => by
      rw [← fst_participants (srcs := srcs)] at hj
      obtain ⟨e, he, rfl⟩ := List.mem_map.mp hj
      exact (hl.nth_map_findIdx _ he).trans (hfg st _ hl e he)
  obtain ⟨u, hu, hw⟩ := writeResult_guardedWrite (len := len) rd.toIssuing (by rw [List.length_map, length_present]) (hcols ▸ wr) un
  refine ⟨u, ?_, wrote_congr hcols hw⟩
  rw [hi, crossOp_ready rd os hg, hu]
  exact finish_next rd.addr

/-! ### The instructions (R137 to R140) -/

/-- The values of entry q, 0 or 1, as a mask over the positions (R138). -/
theorem ballotMask_eq_sum {base : ℕ} {parts : List (ℕ × List ℕ)} (hl : Lanes base parts) (hbit : ∀ e ∈ parts, arg e.2 0 = 0 ∨ arg e.2 0 = 1) :
    ballotMask base parts = ((List.range 64).map (fun p => if (rowOfPos base parts p).any (fun r => arg r 0 == 1) then 2 ^ p else 0)).sum := by
  have hpos : ∀ p ∈ List.range 64, (if (rowOfPos base parts p).any (fun r => arg r 0 == 1) then 2 ^ p else 0) =
      (rowAt parts (base + p)).elim 0 (fun r => arg r 0 * 2 ^ p) := fun p hp => by
    rw [rowOfPos, if_pos (List.mem_range.mp hp)]
    cases hr : rowAt parts (base + p) with
    | none => rfl
    | some r => rcases hbit _ (mem_of_rowAt hr) with h | h <;> simp [h]
  rw [List.map_congr_left hpos, hl.sum_positions (fun p r => arg r 0 * 2 ^ p), List.filter_eq_self.mpr fun e he => by simpa using (hl.within e he).2]
  exact foldl_add_eq_sum parts (fun e => arg e.2 0 * 2 ^ (e.1 - base))

/-- The source row of SHFL, at position p with operand b = k (R137). -/
def shflSource (m : ShflMode) (base : ℕ) (parts : List (ℕ × List ℕ)) (p k : ℕ) : Option (List ℕ) := match m with
  | .up => if k ≤ p then rowOfPos base parts (p - k) else none
  | .down => rowOfPos base parts (p + k)
  | .xor => rowOfPos base parts (p ^^^ k)
  | .idx => rowOfPos base parts k

theorem atPos_shflSrc (m : ShflMode) (base : ℕ) (parts : List (ℕ × List ℕ)) (e : ℕ × List ℕ) :
    atPos base parts (shflSrc m base e) = shflSource m base parts (e.1 - base) (arg e.2 1) := by
  cases m with
  | up =>
    unfold shflSrc shflSource
    dsimp only
    split
    · next hle => rw [← Nat.cast_sub hle, atPos_natCast]
    · next hlt => exact atPos_neg base parts (by omega)
  | down | xor | idx => exact atPos_natCast base parts _

/-- What SHFL gives index i. -/
def shflValue (m : ShflMode) (base : ℕ) (parts : List (ℕ × List ℕ)) (i : ℕ) : ℕ :=
  arg ((shflSource m base parts (i - base) (arg ((rowAt parts i).getD []) 1)).getD ((rowAt parts i).getD [])) 0

theorem shfl_eq_shflValue (m : ShflMode) {base : ℕ} {parts : List (ℕ × List ℕ)} (hl : Lanes base parts) {e : ℕ × List ℕ} (he : e ∈ parts) :
    arg ((atPos base parts (shflSrc m base e)).getD e.2) 0 = shflValue m base parts e.1 := by
  rw [shflValue, hl.rowAt_eq he, atPos_shflSrc]
  rfl

/-- What BCAST gives every participant (R140). -/
def bcastValue (base : ℕ) (parts : List (ℕ × List ℕ)) : ℕ :=
  arg ((rowOfPos base parts (arg (((parts.head?).map (fun e => e.2)).getD []) 1)).getD (((parts.head?).map (fun e => e.2)).getD [])) 0

theorem bcastAt_eq_map_bcastValue (base : ℕ) (parts : List (ℕ × List ℕ)) : bcastAt base parts = parts.map (fun _ => bcastValue base parts) := by
  unfold bcastAt bcastValue
  simp only [atPos_natCast]
  cases rowOfPos base parts (arg (((parts.head?).map (fun e => e.2)).getD []) 1) <;> rfl

section
variable {h : Hdr} {d a : R11} {b : Src}

theorem ballot_givesAcross {q : BitVec 3} : GivesAcross (.ballot h d q) h.g 8 d.toNat 2 [.q q.toNat false] (fun base parts _ =>
    ((List.range 64).map (fun p => if (rowOfPos base parts p).any (fun r => arg r 0 == 1) then 2 ^ p else 0)).sum) :=
  crossOp_givesAcross (f := fun base parts _ => ballotMask base parts) (fun _ => rfl)
    fun _ _ hl _ _ => ballotMask_eq_sum hl fun _ he => arg_q (row_of_participant he) (j := 0) rfl

theorem shfl_givesAcross {m : ShflMode} : GivesAcross (.shfl h d a b m) h.g (srcLen b) d.toNat 1 [.v a.toNat 1, srcOpnd b 1 false] (shflValue m) :=
  crossOp_givesAcross (f := fun base parts e => arg ((atPos base parts (shflSrc m base e)).getD e.2) 0) (fun _ => rfl)
    fun _ _ hl _ he => shfl_eq_shflValue m hl he

theorem bcast_givesAcross : GivesAcross (.bcast h d a b) h.g (srcLen b) d.toNat 1 [.v a.toNat 1, srcOpnd b 1 false] (fun base parts _ => bcastValue base parts) := by
  have hi : ∀ s, exec (.bcast h d a b) s = crossOp h (srcLen b) d.toNat 1 [.v a.toNat 1, srcOpnd b 1 false] bcastUses
      (fun base parts => parts.map (fun _ => bcastValue base parts)) s := fun s => by
    simp only [← bcastAt_eq_map_bcastValue]
    rfl
  exact crossOp_givesAcross (f := fun base parts _ => bcastValue base parts) hi fun _ _ _ _ _ => rfl

theorem red_givesAcross {o : RedOp} :
    GivesAcross (.red h d a o) h.g 8 d.toNat 1 [.v a.toNat 1] (fun base parts _ => nth (redSteps o (redStart o base parts)) 0 0) :=
  crossOp_givesAcross (f := fun base parts _ => nth (redSteps o (redStart o base parts)) 0 0) (fun _ => rfl) fun _ _ _ _ _ => rfl

theorem scan_givesAcross {o : RedOp} :
    GivesAcross (.scan h d a o) h.g 8 d.toNat 1 [.v a.toNat 1] (fun base parts i => nth (scanSteps o (redStart o base parts)) (i - base) 0) :=
  crossOp_givesAcross (f := fun base parts e => nth (scanSteps o (redStart o base parts)) (e.1 - base) 0) (fun _ => rfl) fun _ _ _ _ _ => rfl

end

/-! ### FORM (R141) -/

/-- A column is what its indices find in it. -/
theorem map_alookup_zip {α : Type} {is : List ℕ} (nd : is.Nodup) {xs : List α} (hl : xs.length = is.length) (x : α) :
    is.map (fun i => (alookup (is.zip xs) i).getD x) = xs := by
  induction is generalizing xs with
  | nil => exact (List.length_eq_zero_iff.mp hl).symm
  | cons i is ih =>
    cases xs with
    | nil => simp at hl
    | cons y ys =>
      obtain ⟨hni, nd⟩ := List.nodup_cons.mp nd
      rw [List.map_cons, List.zip_cons_cons, alookup, if_pos rfl, Option.getD_some]
      have htail : is.map (fun j => (alookup ((i, y) :: is.zip ys) j).getD x) = is.map (fun j => (alookup (is.zip ys) j).getD x) :=
        List.map_congr_left fun j hj => by rw [alookup, if_neg (fun hij : i = j => hni (hij ▸ hj))]
      rw [htail, ih nd (by simpa using hl)]

/-- The values of a register at the indices that act. -/
theorem selectAt_acting {st : Strand} (wf : StrandWf st) (g : Guard) (r : ℕ) :
    selectAt (present st) (regVals st r) (acting st g) = (acting st g).map (fun i => (valueAt st r i).getD 0) := by
  have hl : (regVals st r).length = (present st).length := by rw [length_valsV_regVals st wf, length_present]
  conv_lhs => rw [← map_alookup_zip (nodup_present st) hl 0]
  rw [selectAt_map, filter_contains_of_sublist (acting_sublist st g) (nodup_present st)]
  rfl

/-- Where a destination can be written, no placement cut comes first. -/
theorem no_cut_of_writable {s : State} {st : Strand} {cols : List (ℕ × List Word)} (h : writable s st cols) :
    (st.mask.isNone && st.team.isNone && cols.any (fun e => isXV (classifyV (present st) e.2))) = false := by
  rcases h with hform | ⟨hmask | ⟨hteam, -⟩, -⟩
  · rw [List.any_eq_false.mpr fun c hc => by rw [hform c hc]; exact Bool.false_ne_true, Bool.and_false]
  · rw [Option.isNone_eq_false_iff.mpr hmask]
    rfl
  · rw [Option.isNone_eq_false_iff.mpr hteam, Bool.and_false]
    rfl

/-- The code of the form that register r has over the indices that act, at every present index. -/
def formCodes (st : Strand) (g : Guard) (r : ℕ) : List ℕ :=
  (present st).map (fun _ => formCode (classifyV (acting st g) ((acting st g).map (fun i => (valueAt st r i).getD 0))))

section
variable {h : Hdr} {d a : R11} {s : State} {st : Strand} (rd : Ready s st h.g [.v a.toNat 1] [d.toNat] false) (hr : st.replay = none)
  (wr : writable s st (columns st h.g d.toNat 1 (formCodes st h.g a.toNat)))
include rd hr wr

theorem exec_form : exec (.form h d a) s = finish (commit s st (guardedWrite st h.g d.toNat 1 (formCodes st h.g a.toNat)) 8) := by
  change execForm h d a s = _
  have hst : { st with replay := none } = st := by rw [← hr]
  have hcut := no_cut_of_writable wr
  rw [execForm, regFrame_ready rd]
  unfold formCodes at hcut ⊢
  simp only [hr, selectAt_acting rd.wf, guardedWrite_regs rd.wf, hcut, Bool.false_eq_true, if_false, hst]

theorem form_wrote (un : unwatched s st [d.toNat]) :
    ∃ u, exec (.form h d a) s = .next (putStrand s u) ∧ Wrote st u h.g 8 d.toNat 1 (formCodes st h.g a.toNat) := by
  obtain ⟨u, hu, hw⟩ := commit_guardedWrite (len := 8) rd.toIssuing (by rw [formCodes, List.length_map, length_present]) wr un
  refine ⟨u, ?_, hw⟩
  rw [exec_form rd hr wr, hu]
  exact finish_next rd.addr

end

/-- Settles O26: each cross-lane instruction is the frame of R135 around its value, which is that of the positions; FORM is its code, with no cut where the destination can be written. -/
theorem crossLane : Obligations.CrossLane := by
  intro h d a b q m o
  have shfl := shfl_givesAcross (h := h) (d := d) (a := a) (b := b) (m := m)
  exact ⟨ballot_givesAcross, shfl, bcast_givesAcross, red_givesAcross, scan_givesAcross, fun s st rd hr wr un => form_wrote rd hr wr un⟩

end Sys2Proof.Machine
end

section
/-! PROOFS. Transfers that every index takes, or none (O28): the flags alone say what becomes of the strand, and an instruction that no index takes does not look at
the call stack. -/

namespace Sys2Proof.Machine

/-! ### Transfers that all indices take, or none (R43, R144) -/

theorem flagged_of_all {is : List ℕ} {flags : List Bool} (hl : flags.length = is.length) (h : ∀ b ∈ flags, b = true) :
    (is.zip flags).filterMap (fun e => if e.2 then some e.1 else none) = is := by
  induction is generalizing flags with
  | nil => rfl
  | cons i is ih =>
    cases flags with
    | nil => cases hl
    | cons b flags =>
      obtain ⟨rfl, hrest⟩ := List.forall_mem_cons.mp h
      exact congrArg (i :: ·) (ih (Nat.succ.inj hl) hrest)

theorem flagged_of_none {is : List ℕ} {flags : List Bool} (h : ∀ b ∈ flags, b = false) : (is.zip flags).filterMap (fun e => if e.2 then some e.1 else none) = [] :=
  List.filterMap_eq_nil_iff.mpr fun e he => by rw [h e.2 (List.of_mem_zip he).2]; rfl

section
variable {s : State} {st : Strand} {taken : List Bool} {target : DWord} {len : ℕ} {onTake : Strand → Strand}

theorem transfer_all (wf : StrandWf st) (hl : taken.length = presentCount st) (h : ∀ b ∈ taken, b = true) :
    transfer s st taken target len onTake = putStrand s { onTake st with pc := target } := by
  unfold transfer
  simp only [flagged_of_all (hl.trans (length_present st).symm) h]
  rw [if_neg (by simpa using wf.held), if_pos trivial]

theorem transfer_none (h : ∀ b ∈ taken, b = false) : transfer s st taken target len onTake = advance s st.sid len := by
  unfold transfer
  simp only [flagged_of_none h]
  rfl

end

section
variable {i : Instr} {h : Hdr} {off : Word} {w : BitVec 4} {level : R11} {s : State} {st : Strand} {taken : List Bool} {target : DWord} {len : ℕ} {onTake : Strand → Strand}

theorem exec_transfer_all (fr : Free s st h.g) (hi : exec i s = finish (transfer s st (guardFlags st h.g) target len onTake)) (all : ∀ b ∈ guardFlags st h.g, b = true) :
    exec i s = .next (putStrand s { onTake st with pc := target }) := by
  rw [hi, transfer_all fr.wf (length_guardFlags st fr.wf h.g) all]
  exact finish_next fr.addr

theorem exec_transfer_none (fr : Free s st h.g) (hi : exec i s = finish (transfer s st taken target len onTake)) (no : ∀ b ∈ taken, b = false) :
    exec i s = .next (advance s st.sid len) := by
  rw [hi, transfer_none no]
  exact finish_next fr.addr

/-- BRW is taken where its guard and its own condition hold (R149). -/
theorem exec_brw (fr : Free s st h.g) : exec (.brw h w level off) s =
    finish (transfer s st ((guardFlags st h.g).map (fun b => b && ((walkOf st w.toNat).bound && !(nth (walkOf st w.toNat).e level.toNat true)))) (relTarget st off) 12 id) := by
  show execBrw h w level off s = _
  unfold execBrw
  exact transferFrame_free fr

/-- Where no index acts, a full or an empty call stack stops none (R146). -/
theorem callTrap_none {info : ℕ} (no : ∀ b ∈ guardFlags st h.g, b = false) : callTrap s st h len info = advance s st.sid len := by
  unfold callTrap acting
  rw [flagged_of_none no]
  rfl

theorem exec_call_full (fr : Free s st h.g) (hdepth : 8 ≤ st.calls.length) : exec (.call h off) s = finish (callTrap s st h 12 1) := by
  show execCall h off s = _
  unfold execCall
  rw [transferFrame_free fr, if_pos hdepth]

theorem exec_ret_empty (fr : Free s st h.g) (hcalls : st.calls = []) : exec (.ret h) s = finish (callTrap s st h 8 2) := by
  show execRet h s = _
  unfold execRet
  rw [transferFrame_free fr, hcalls]

/-- A CALL that no index takes goes on behind itself, whatever is on the call stack. -/
theorem exec_call_none (fr : Free s st h.g) (no : ∀ b ∈ guardFlags st h.g, b = false) : exec (.call h off) s = .next (advance s st.sid 12) := by
  rcases Nat.lt_or_ge st.calls.length 8 with hroom | hfull
  · exact exec_transfer_none fr (exec_call_free fr hroom) no
  · rw [exec_call_full fr hfull, callTrap_none no]
    exact finish_next fr.addr

/-- So does a RET. -/
theorem exec_ret_none (fr : Free s st h.g) (no : ∀ b ∈ guardFlags st h.g, b = false) : exec (.ret h) s = .next (advance s st.sid 8) := by
  cases hcalls : st.calls with
  | nil =>
    rw [exec_ret_empty fr hcalls, callTrap_none no]
    exact finish_next fr.addr
  | cons ra rest => exact exec_transfer_none fr (exec_ret_free fr hcalls) no

end

/-- Settles O28: the guard alone says what BR, CALL and RET do; what BRW does, the guard and its own condition. -/
theorem transfers : Obligations.Transfers := by
  intro h off w level s st fr target all no stay own
  refine ⟨exec_transfer_all fr (exec_br_free fr), exec_transfer_none fr (exec_br_free fr), fun hall ⟨hbound, hflag⟩ => exec_transfer_all fr (exec_brw_free fr hbound hflag) hall,
    fun hnot => exec_transfer_none fr (exec_brw fr) ?_, fun hall hroom => exec_transfer_all fr (exec_call_free fr hroom) hall, exec_call_none fr,
    fun ra rest hcalls hall => ?_, exec_ret_none fr⟩
  · refine List.forall_mem_map.mpr fun b hb => ?_
    rcases hnot with hno | hown
    · rw [hno b hb, Bool.false_and]
    · have hfalse : ((walkOf st w.toNat).bound && !(nth (walkOf st w.toNat).e level.toNat true)) = false := by simpa [own] using hown
      rw [hfalse, Bool.and_false]
  · rw [exec_transfer_all fr (exec_ret_free fr hcalls) hall, hcalls]
    rfl

end Sys2Proof.Machine
end

section
/-! PROOFS. Reports in the fault queue: what a stop writes for the context of its launch, where the queue has room and where it has not. -/

namespace Sys2Proof.Machine

/-! ### Reports in the fault queue (R376, R377) -/

/-- The bytes of report n of a fault queue, with the phase of its lap (R376, R377). -/
@[irreducible] def filedBytes (n : ℕ) (r : Report) : List Byte := toBytes 256 (reportBits r ((n / 4096 + 1) % 2))

theorem filedBytes_eq (n : ℕ) (r : Report) : filedBytes n r = toBytes 256 (reportBits r ((n / 4096 + 1) % 2)) := by
  unfold filedBytes
  rfl

@[simp] theorem length_filedBytes (n : ℕ) (r : Report) : (filedBytes n r).length = 256 := by rw [filedBytes_eq, length_toBytes]

/-- Device memory once reports stand in the slots of a fault queue from number n on (R377). -/
def filed (queue : ℕ) : ℕ → List Report → List Host.Cell → List Host.Cell
  | _, [], m => m
  | n, r :: rs, m => filed queue (n + 1) rs (memPuts m (queue + 256 * (n % 4096)) (filedBytes n r))

/-- Bytes outside the slots read as before. -/
theorem memGet_filed_other {queue n : ℕ} {rs : List Report} {m : List Host.Cell} (w : Memory.wf m = true) {b : ℕ}
    (h : ∀ k < rs.length, ¬(queue + 256 * ((n + k) % 4096) ≤ b ∧ b < queue + 256 * ((n + k) % 4096) + 256)) : memGet (filed queue n rs m) b = memGet m b := by
  induction rs generalizing n m with
  | nil => rfl
  | cons r rs ih =>
    have hrest : ∀ k < rs.length, ¬(queue + 256 * ((n + 1 + k) % 4096) ≤ b ∧ b < queue + 256 * ((n + 1 + k) % 4096) + 256) := fun k hk => by
      have := h (k + 1) (Nat.succ_lt_succ hk)
      rwa [show n + (k + 1) = n + 1 + k by omega] at this
    have hfirst := h 0 (Nat.succ_pos _)
    rw [filed, ih (memPuts_wf w _ _) hrest, memGet_memPuts_other w]
    rw [length_filedBytes]
    omega

theorem memGets_congr {m m' : List Host.Cell} {a n : ℕ} (h : ∀ j < n, memGet m (a + j) = memGet m' (a + j)) : memGets m a n = memGets m' a n :=
  List.map_congr_left fun j hj => h j (List.mem_range.mp hj)

/-- Each report is read back from its slot, where the queue holds all of them. -/
theorem memGets_filed_at {queue n k : ℕ} {r : Report} {rs : List Report} {m : List Host.Cell} (w : Memory.wf m = true) (hl : rs.length ≤ 4096) (hk : rs[k]? = some r) :
    memGets (filed queue n rs m) (queue + 256 * ((n + k) % 4096)) 256 = filedBytes (n + k) r := by
  induction rs generalizing n k m with
  | nil => cases hk
  | cons x rs ih =>
    have hw := memPuts_wf w (queue + 256 * (n % 4096)) (filedBytes n x)
    rw [List.length_cons] at hl
    cases k with
    | zero =>
      obtain rfl : x = r := by simpa using hk
      have hslot := memGets_memPuts w (queue + 256 * (n % 4096)) (filedBytes n x)
      rw [length_filedBytes] at hslot
      rw [filed, Nat.add_zero]
      refine (memGets_congr fun j hj => memGet_filed_other hw fun k hk => ?_).trans hslot
      omega
    | succ k =>
      have := ih (n := n + 1) hw (by omega) (by simpa using hk)
      rwa [show n + 1 + k = n + (k + 1) by omega] at this

theorem ctxOf_updCtx {s : State} {c : ℕ} {x : Ctx} {f : Ctx → Ctx} (hx : ctxOf s c = some x) (hf : (f x).num = x.num) : ctxOf (updCtx s c f) c = some (f x) :=
  find?_updWhere (fun y : Ctx => y.num) c f s.ctxs x hx (hf.trans (by simpa using List.find?_some hx))

/-- What the reports of a stop, and the tables of strands, do not touch: the teams and their scratchpads, and the memory of the host. -/
structure SameHomes (s t : State) : Prop where
  host : t.hostMem = s.hostMem
  teams : t.teams = s.teams

theorem SameHomes.trans {s t u : State} (h : SameHomes s t) (h' : SameHomes t u) : SameHomes s u := ⟨h'.host.trans h.host, h'.teams.trans h.teams⟩

/-- With the memory of the device too, every byte reads as before. -/
theorem SameHomes.sameBytes {s t : State} (h : SameHomes s t) (hm : t.mem = s.mem) : sameBytes s t := by
  intro sp a n
  cases sp with
  | dev => exact congrArg (memGets · a n) hm
  | host c => simp only [homeBytes, h.host]
  | scr lk t => simp only [homeBytes, teamOf, h.teams]

/-- Where none waits and the queue has room for all of them, the reports are filed. -/
theorem enqueueReports_filed {s : State} {c : ℕ} {x : Ctx} {rs : List Report} (hx : ctxOf s c = some x) (hw : x.waiting = [])
    (hroom : (x.faultN + 2 ^ 32 - x.consumed % 2 ^ 32) % 2 ^ 32 + rs.length ≤ 4096) :
    let t := rs.foldl (fun a r => enqueueReport a c r) s
    SameHomes s t ∧ t.mem = filed x.faultq x.faultN rs s.mem ∧ ctxOf t c = some { x with faultN := x.faultN + rs.length } := by
  induction rs generalizing s x with
  | nil => exact ⟨⟨rfl, rfl⟩, rfl, hx⟩
  | cons r rs ih =>
    rw [List.length_cons] at hroom
    have hring : ringRoom x = true := decide_eq_true (by omega)
    have hwrite : enqueueReport s c r = updCtx { s with mem := memPuts s.mem (x.faultq + 256 * (x.faultN % 4096)) (filedBytes x.faultN r) } c
        (fun y => { y with faultN := x.faultN + 1 }) := by
      simp only [enqueueReport, writeReport, hx, hring, hw, List.isEmpty_nil, Bool.and_self, if_true, filedBytes_eq]
    have hx' : ctxOf (enqueueReport s c r) c = some { x with faultN := x.faultN + 1 } := by
      rw [hwrite]
      exact ctxOf_updCtx hx rfl
    obtain ⟨homes, hmem, hctx⟩ := ih hx' hw (show (x.faultN + 1 + 2 ^ 32 - x.consumed % 2 ^ 32) % 2 ^ 32 + rs.length ≤ 4096 by omega)
    refine ⟨SameHomes.trans (by rw [hwrite]; exact ⟨rfl, rfl⟩) homes, hmem.trans ?_, hctx.trans ?_⟩
    · rw [hwrite]
      rfl
    · rw [List.length_cons, Nat.add_comm rs.length 1, ← Nat.add_assoc]

/-- Where the queue is full, or others wait already, they wait in their order. -/
theorem enqueueReports_wait {s : State} {c : ℕ} {x : Ctx} {rs : List Report} (hx : ctxOf s c = some x) (hfull : ringRoom x = false ∨ x.waiting ≠ []) :
    let t := rs.foldl (fun a r => enqueueReport a c r) s
    SameHomes s t ∧ t.mem = s.mem ∧ ctxOf t c = some { x with waiting := x.waiting ++ rs } := by
  induction rs generalizing s x with
  | nil => exact ⟨⟨rfl, rfl⟩, rfl, by rw [List.append_nil]; exact hx⟩
  | cons r rs ih =>
    have hno : (ringRoom x && x.waiting.isEmpty) = false := by rcases hfull with h | h <;> simp [h]
    have hkept : enqueueReport s c r = updCtx s c (fun y => { y with waiting := y.waiting ++ [r] }) := by
      simp only [enqueueReport, hx, hno, Bool.false_eq_true, if_false]
    have hx' : ctxOf (enqueueReport s c r) c = some { x with waiting := x.waiting ++ [r] } := by
      rw [hkept]
      exact ctxOf_updCtx hx rfl
    obtain ⟨homes, hmem, hctx⟩ := ih hx' (.inr (by simp))
    refine ⟨SameHomes.trans (by rw [hkept]; exact ⟨rfl, rfl⟩) homes, hmem.trans (by rw [hkept]; rfl), hctx.trans ?_⟩
    rw [List.append_assoc, List.singleton_append]

/-- The stores of the machine and its contexts are the same: what `Reported` speaks of. -/
structure SameStores (s t : State) : Prop extends SameHomes s t where
  mem : t.mem = s.mem
  ctxs : t.ctxs = s.ctxs

theorem SameStores.trans {s t u : State} (h : SameStores s t) (h' : SameStores t u) : SameStores s u :=
  ⟨h.toSameHomes.trans h'.toSameHomes, h'.mem.trans h.mem, h'.ctxs.trans h.ctxs⟩

/-- Reports that enter the fault queue of a context have been raised for it, whatever else has changed before and after. -/
theorem reported_of_enqueued {s a t : State} {c : ℕ} {rs : List Report} (before : SameStores s a) (after : SameStores (rs.foldl (fun a r => enqueueReport a c r) a) t) :
    Reported s t c rs := by
  have hctx : ctxOf t c = ctxOf (rs.foldl (fun a r => enqueueReport a c r) a) c := congrArg (List.find? (fun x : Ctx => x.num == c)) after.ctxs
  have hctx' : ctxOf a c = ctxOf s c := congrArg (List.find? (fun x : Ctx => x.num == c)) before.ctxs
  constructor
  · intro x hx hcanon hw hroom slot
    obtain ⟨homes, hmem, hx'⟩ := enqueueReports_filed (hctx'.trans hx) hw hroom
    have hfiled : t.mem = filed x.faultq x.faultN rs s.mem := after.mem.trans (hmem.trans (by rw [before.mem]))
    have same : SameHomes s t := before.toSameHomes.trans (homes.trans after.toSameHomes)
    refine ⟨fun k r hk => ?_, fun sp b hb => ?_, hctx.trans hx'⟩
    · rw [homeBytes, hfiled, ← filedBytes_eq]
      exact memGets_filed_at hcanon.device (by omega) hk
    · cases sp with
      | dev =>
        have : memGet t.mem b = memGet s.mem b := hfiled ▸ memGet_filed_other hcanon.device fun k hk hin => hb k hk ⟨rfl, hin⟩
        simp [homeBytes, memGets, this]
      | host c => simp only [homeBytes, same.host]
      | scr lk t => simp only [homeBytes, teamOf, same.teams]
  · intro x hx hfull
    obtain ⟨homes, hmem, hx'⟩ := enqueueReports_wait (rs := rs) (hctx'.trans hx) hfull
    exact ⟨(before.toSameHomes.trans (homes.trans after.toSameHomes)).sameBytes (after.mem.trans (hmem.trans before.mem)), hctx.trans hx'⟩

/-- The reports of a stop enter the fault queue of the launch's context, stamped with its ticket (R373, R376). -/
theorem raiseStop_enqueues (s : State) (lk : ℕ) (sids : List ℕ) (kind cause len : ℕ) (after : After) (rs : List Report) : ∃ a,
    SameStores ((stamped s rs).foldl (fun a r => enqueueReport a (ctxOfLaunch s lk) r) a) (raiseStop s lk sids kind cause 1 len after rs) ∧ SameStores s a := by
  simp only [stamped, List.foldl_map]
  exact ⟨_, ⟨⟨rfl, rfl⟩, rfl, rfl⟩, ⟨⟨rfl, rfl⟩, rfl, rfl⟩⟩

end Sys2Proof.Machine
end

section
/-! PROOFS. CALL and RET that trap (O30): the strands put in the place of one have identities of their own, so that those that park are told from those that move on. -/

namespace Sys2Proof.Machine

/-! ### Identities of the strands put in the place of one (R100) -/

theorem assignIds_fst (s : State) (xs : List Strand) : (assignIds s xs).1 = (xs.zipIdx s.nextId).map (fun e => { e.1 with sid := e.2 }) := by
  induction xs generalizing s with
  | nil => rfl
  | cons x xs ih => exact congrArg ({ x with sid := s.nextId } :: ·) (ih (fresh s).2)

theorem assignIds_snd (s : State) (xs : List Strand) : (assignIds s xs).2 = { s with nextId := s.nextId + xs.length } := by
  induction xs generalizing s with
  | nil => rfl
  | cons x xs ih =>
    refine (ih (fresh s).2).trans ?_
    simp only [fresh, List.length_cons, Nat.add_assoc, Nat.add_comm xs.length 1]

theorem sids_assignIds (s : State) (xs : List Strand) : (assignIds s xs).1.map (fun x => x.sid) = List.range' s.nextId xs.length := by
  rw [assignIds_fst, List.map_map, ← List.zipIdx_map_snd]
  rfl

/-- Strands as they enter the table: each under the identity and in the partition that it is given. -/
def entered (s : State) (xs : List Strand) : List Strand := (assignIds s xs).1.map (fun x => { x with part := homePart s x })

theorem sids_entered (s : State) (xs : List Strand) : (entered s xs).map (fun x => x.sid) = List.range' s.nextId xs.length := by
  rw [entered, List.map_map]
  exact sids_assignIds s xs

/-- Several strands in the place of one: each under an identity given out now. -/
theorem replaceStrand_several {s : State} {sid : ℕ} {new : List Strand} (h : new.length ≠ 1) : replaceStrand s sid new =
    (List.range' s.nextId new.length, { s with
      nextId := s.nextId + new.length
      strands := s.strands.flatMap (fun t => if t.sid == sid then entered s new else [t]) }) := by
  unfold replaceStrand
  split
  · exact absurd rfl h
  · rw [← sids_entered]
    simp only [entered, assignIds_snd]

/-- The tables beside that of the strands stay as they are. -/
theorem replaceStrand_tables (s : State) (sid : ℕ) (new : List Strand) : ∃ xs n, (replaceStrand s sid new).2 = { s with strands := xs, nextId := n } := by
  by_cases h : new.length = 1
  · obtain ⟨x, rfl⟩ := List.length_eq_one_iff.mp h
    exact ⟨_, _, rfl⟩
  · rw [replaceStrand_several h]
    exact ⟨_, _, rfl⟩

section
variable (s : State) (sid : ℕ) (new : List Strand)

@[simp] theorem replaceStrand_stops : (replaceStrand s sid new).2.stops = s.stops := by
  obtain ⟨xs, n, h⟩ := replaceStrand_tables s sid new
  rw [h]

@[simp] theorem replaceStrand_nextTicket : (replaceStrand s sid new).2.nextTicket = s.nextTicket := by
  obtain ⟨xs, n, h⟩ := replaceStrand_tables s sid new
  rw [h]

@[simp] theorem replaceStrand_launches : (replaceStrand s sid new).2.launches = s.launches := by
  obtain ⟨xs, n, h⟩ := replaceStrand_tables s sid new
  rw [h]

theorem sameStores_replaceStrand : SameStores s (replaceStrand s sid new).2 := by
  obtain ⟨xs, n, h⟩ := replaceStrand_tables s sid new
  rw [h]
  exact ⟨⟨rfl, rfl⟩, rfl, rfl⟩

end

section
variable {s : State} {sid : ℕ} {new : List Strand}

theorem length_replaceStrand : (replaceStrand s sid new).1.length = new.length := by
  by_cases h : new.length = 1
  · obtain ⟨x, rfl⟩ := List.length_eq_one_iff.mp h
    rfl
  · rw [replaceStrand_several h]
    exact List.length_range'

theorem nodup_replaceStrand : (replaceStrand s sid new).1.Nodup := by
  by_cases h : new.length = 1
  · obtain ⟨x, rfl⟩ := List.length_eq_one_iff.mp h
    exact List.nodup_singleton sid
  · rw [replaceStrand_several h]
    exact List.nodup_range'

/-- Each strand put in the place of one stands in the table under the identity at its place in the list. -/
theorem getElem_replaceStrand {st : Strand} (hs : strandOf s sid = some st) {k : ℕ} (hk : k < new.length) :
    ∃ p, { new[k] with sid := (replaceStrand s sid new).1[k]'(length_replaceStrand ▸ hk), part := p } ∈ (replaceStrand s sid new).2.strands := by
  have hmem := mem_of_strandOf hs
  have hsid := strandOf_sid hs
  by_cases h : new.length = 1
  · obtain ⟨x, rfl⟩ := List.length_eq_one_iff.mp h
    obtain rfl : k = 0 := Nat.lt_one_iff.mp hk
    exact ⟨homePart s x, List.mem_map.mpr ⟨st, hmem, if_pos (by simpa using hsid)⟩⟩
  · simp only [replaceStrand_several h, List.getElem_range', Nat.one_mul]
    refine ⟨homePart s { new[k] with sid := s.nextId + k }, List.mem_flatMap.mpr ⟨st, hmem, ?_⟩⟩
    rw [if_pos (by simp [hsid]), entered, assignIds_fst, List.map_map]
    exact List.mem_map.mpr ⟨(new[k], s.nextId + k), List.mem_iff_getElem.mpr ⟨k, by simpa using hk, List.getElem_zipIdx _⟩, rfl⟩

theorem mem_replaceStrand_zip {st : Strand} (hs : strandOf s sid = some st) {e : ℕ × Strand} (he : e ∈ (replaceStrand s sid new).1.zip new) :
    ∃ p, { e.2 with sid := e.1, part := p } ∈ (replaceStrand s sid new).2.strands := by
  obtain ⟨k, hk, rfl⟩ := List.mem_iff_getElem.mp he
  rw [List.getElem_zip]
  exact getElem_replaceStrand hs _

/-- Identities are given out in order still, and none twice. -/
theorem freshIds_replaceStrand (fresh : FreshIds s) : FreshIds (replaceStrand s sid new).2 := by
  by_cases h : new.length = 1
  · obtain ⟨x, rfl⟩ := List.length_eq_one_iff.mp h
    have hsids : (s.strands.map (fun t => if t.sid == sid then { x with sid := sid, part := homePart s x } else t)).map (fun t => t.sid) = s.strands.map (fun t => t.sid) := by
      rw [List.map_map]
      refine List.map_congr_left fun t _ => ?_
      by_cases ht : t.sid = sid <;> simp [ht]
    refine ⟨fun u hu => ?_, hsids ▸ fresh.distinct⟩
    have hu' := List.mem_map_of_mem (f := fun t : Strand => t.sid) hu
    obtain ⟨t, ht, he⟩ := List.mem_map.mp (hsids ▸ hu')
    exact he ▸ fresh.given t ht
  · rw [replaceStrand_several h]
    have hsids : ∀ t : Strand, (if t.sid == sid then entered s new else [t]).map (fun t => t.sid) =
        if t.sid == sid then List.range' s.nextId new.length else [t.sid] := fun t => by split <;> [exact sids_entered s new; rfl]
    constructor
    · intro u hu
      obtain ⟨t, ht, hut⟩ := List.mem_flatMap.mp hu
      have hu' := List.mem_map_of_mem (f := fun t : Strand => t.sid) hut
      rw [hsids] at hu'
      have := fresh.given t ht
      split at hu' <;> simp at hu' ⊢ <;> omega
    · rw [List.map_flatMap, List.nodup_flatMap]
      simp only [hsids]
      constructor
      · intro t _
        split
        · exact List.nodup_range'
        · exact List.nodup_singleton _
      · refine (List.pairwise_map.mp fresh.distinct).imp_of_mem fun {a b} ha hb hab => ?_
        have := fresh.given a ha
        have := fresh.given b hb
        intro n hna hnb
        dsimp only at hna hnb
        split at hna <;> split at hnb <;> simp_all <;> omega

end

/-- A strand of the table is found by its identity, where no other one has it. -/
theorem strandOf_of_mem {s : State} (distinct : (s.strands.map (fun x => x.sid)).Nodup) {u : Strand} (hu : u ∈ s.strands) : strandOf s u.sid = some u := by
  cases hfind : strandOf s u.sid with
  | none => exact absurd (beq_self_eq_true u.sid) (List.find?_eq_none.mp hfind u hu)
  | some v => rw [List.inj_on_of_nodup_map distinct (mem_of_strandOf hfind) hu (strandOf_sid hfind)]

/-! ### Some indices park and the others go on (R166, R373) -/

/-- A strand len bytes on, if it is one of those named. -/
def movedOn (ids : List ℕ) (len : ℕ) (u : Strand) : Strand := if u.sid ∈ ids then { u with pc := u.pc + BitVec.ofNat 64 len } else u

/-- A strand parked under a ticket, if it is one of those named. -/
def parkedUnder (ids : List ℕ) (ticket : ℕ) (u : Strand) : Strand := if ids.contains u.sid then { u with status := .parked ticket } else u

@[simp] theorem movedOn_sid (ids : List ℕ) (len : ℕ) (u : Strand) : (movedOn ids len u).sid = u.sid := by unfold movedOn; split <;> rfl

@[simp] theorem movedOn_status (ids : List ℕ) (len : ℕ) (u : Strand) : (movedOn ids len u).status = u.status := by unfold movedOn; split <;> rfl

@[simp] theorem parkedUnder_sid (ids : List ℕ) (ticket : ℕ) (u : Strand) : (parkedUnder ids ticket u).sid = u.sid := by unfold parkedUnder; split <;> rfl

theorem movedOn_of_mem {ids : List ℕ} {u : Strand} (h : u.sid ∈ ids) (len : ℕ) : movedOn ids len u = { u with pc := u.pc + BitVec.ofNat 64 len } := if_pos h

theorem movedOn_of_not_mem {ids : List ℕ} {u : Strand} (h : u.sid ∉ ids) (len : ℕ) : movedOn ids len u = u := if_neg h

theorem parkedUnder_of_mem {ids : List ℕ} {u : Strand} (h : u.sid ∈ ids) (ticket : ℕ) : parkedUnder ids ticket u = { u with status := .parked ticket } :=
  if_pos (List.contains_iff_mem.mpr h)

theorem parkedUnder_of_not_mem {ids : List ℕ} {u : Strand} (h : u.sid ∉ ids) (ticket : ℕ) : parkedUnder ids ticket u = u :=
  if_neg (mt List.contains_iff_mem.mp h)

theorem advance_of_absent {s : State} {sid : ℕ} (h : strandOf s sid = none) (len : ℕ) : advance s sid len = s := by
  have hids : ∀ t ∈ s.strands, (if t.sid == sid then { t with pc := t.pc + BitVec.ofNat 64 len } else t) = t := fun t ht => if_neg (List.find?_eq_none.mp h t ht)
  unfold advance updStrand updWhere
  rw [List.map_congr_left hids, List.map_id']

/-- Strands that each move on, in turn. -/
theorem eachStrand_advance {ids : List ℕ} (nd : ids.Nodup) (s : State) (len : ℕ) :
    eachStrand s ids (fun a p => advance a p.sid len) = { s with strands := s.strands.map (movedOn ids len) } := by
  induction ids generalizing s with
  | nil =>
    have hnil : ∀ t ∈ s.strands, movedOn [] len t = t := fun t _ => movedOn_of_not_mem List.not_mem_nil len
    rw [List.map_congr_left hnil, List.map_id']
    rfl
  | cons id ids ih =>
    obtain ⟨hid, hrest⟩ := List.nodup_cons.mp nd
    have hstep : eachStrand s (id :: ids) (fun a p => advance a p.sid len) = eachStrand (advance s id len) ids (fun a p => advance a p.sid len) := by
      unfold eachStrand
      rw [List.foldl_cons]
      congr 1
      cases h : strandOf s id with
      | none => exact (advance_of_absent h len).symm
      | some p => exact congrArg (advance s · len) (strandOf_sid h)
    have hstrands : (advance s id len).strands.map (movedOn ids len) = s.strands.map (movedOn (id :: ids) len) := by
      show (s.strands.map _).map _ = _
      rw [List.map_map]
      refine List.map_congr_left fun t _ => ?_
      by_cases ht : t.sid = id
      · simp [movedOn, ht, hid]
      · simp [movedOn, ht]
    rw [hstep, ih hrest, hstrands]
    rfl

theorem restrict_of_mem_pieces {B : ℕ} {st : Strand} {keep : List ℕ} {x : Strand} (hx : x ∈ pieces B st keep) : ∃ ks, restrict st ks = x := by
  have ofRuns : x ∈ (runsOf keep).map (restrict st) → ∃ ks, restrict st ks = x := fun h => by
    obtain ⟨ks, -, hks⟩ := List.mem_map.mp h
    exact ⟨ks, hks⟩
  unfold pieces at hx
  dsimp only at hx
  split_ifs at hx
  · cases hx
  · exact ofRuns hx
  · exact ofRuns hx
  · exact ⟨keep, (List.mem_singleton.mp hx).symm⟩

/-- Indices stand where the pieces that hold them stand. -/
theorem standing_of_pieces {t : State} {st : Strand} (wf : StrandWf st) {keep : List ℕ} (hk : keep.Sublist (present st)) {B : ℕ} {named : ℕ → Prop} {pc : DWord}
    (h : ∀ x ∈ pieces B st keep, ∃ n p status, named n ∧ { x with sid := n, part := p, status := status, pc := pc } ∈ t.strands) : Standing t st keep named pc := by
  intro i hi
  obtain ⟨ks, hpiece, hshard, -, hin⟩ := mem_pieces B hk hi
  obtain ⟨n, p, status, hn, hmem⟩ := h _ hpiece
  refine ⟨_, hmem, hn, ?_, rfl, rfl, rfl, rfl, fun r => hshard.valueAt_restrict wf hin r, fun k _ => hshard.entryAt_restrict wf hin k⟩
  show i ∈ present (restrict st ks)
  rw [hshard.present_restrict wf]
  exact hin

/-- The pieces of a strand at which some indices park: first those of these indices, then those of the others. -/
def faultPieces (s : State) (st : Strand) (F : List ℕ) : List Strand :=
  pieces (budgetOf s st) st F ++ pieces (budgetOf s st) st ((present st).filter (fun i => !F.contains i))

section
variable {s : State} {st : Strand} {F : List ℕ} {len : ℕ} {r : Report}

/-- The identities of the strands that hold the indices F, which park. -/
def faultIds (s : State) (st : Strand) (F : List ℕ) : List ℕ := (replaceStrand s st.sid (faultPieces s st F)).1.take (pieces (budgetOf s st) st F).length

/-- The identities of those that hold the others. -/
def otherIds (s : State) (st : Strand) (F : List ℕ) : List ℕ := (replaceStrand s st.sid (faultPieces s st F)).1.drop (pieces (budgetOf s st) st F).length

theorem length_faultIds : (faultIds s st F).length = (pieces (budgetOf s st) st F).length := by
  rw [faultIds, List.length_take, length_replaceStrand, faultPieces, List.length_append, Nat.min_eq_left (Nat.le_add_right _ _)]

theorem length_otherIds : (otherIds s st F).length = (pieces (budgetOf s st) st ((present st).filter (fun i => !F.contains i))).length := by
  rw [otherIds, List.length_drop, length_replaceStrand, faultPieces, List.length_append, Nat.add_sub_cancel_left]

/-- The stop that the indices F raise, with the strands that hold them parked under it. -/
def parking (s : State) (st : Strand) (F : List ℕ) (len : ℕ) (r : Report) : State :=
  raiseStop (replaceStrand s st.sid (faultPieces s st F)).2 st.lk (faultIds s st F) r.kind r.cause 1 len (.advance len) (withNames r F)

/-- The machine once the strands that hold the others have moved on as well. -/
def faulted (s : State) (st : Strand) (F : List ℕ) (len : ℕ) (r : Report) : State :=
  { parking s st F len r with strands := (parking s st F len r).strands.map (movedOn (otherIds s st F) len) }

/-- So splitting off F, with the others moving on, leaves just that machine (R166). -/
theorem withoutFaulting_advance (hF : F.Sublist (present st)) (hne : F ≠ []) : withoutFaulting s st F len r (fun a p => advance a p.sid len) = faulted s st F len r := by
  have hsel : (present st).filter (fun i => F.contains i) = F := filter_contains_of_sublist hF (nodup_present st)
  unfold withoutFaulting partialFault
  rw [if_neg (by simpa using hne)]
  simp only [hsel]
  exact eachStrand_advance (nodup_replaceStrand.sublist (List.drop_sublist _ _)) _ len

theorem parking_strands : (parking s st F len r).strands =
    (replaceStrand s st.sid (faultPieces s st F)).2.strands.map (parkedUnder (faultIds s st F) (ticketFrom s.stops (s.stops.length + 1) s.nextTicket)) := by
  rw [parking, raiseStop_strands, replaceStrand_stops, replaceStrand_nextTicket]
  rfl

theorem not_mem_otherIds {n : ℕ} (h : n ∈ faultIds s st F) : n ∉ otherIds s st F := fun h' =>
  List.disjoint_take_drop nodup_replaceStrand (Nat.le_refl _) h h'

theorem mem_zip_faultPieces {e : ℕ × Strand} (he : e ∈ (faultIds s st F).zip (pieces (budgetOf s st) st F) ∨
    e ∈ (otherIds s st F).zip (pieces (budgetOf s st) st ((present st).filter (fun i => !F.contains i)))) :
    e ∈ (replaceStrand s st.sid (faultPieces s st F)).1.zip (faultPieces s st F) := by
  rw [← List.mem_append, ← List.zip_append length_faultIds] at he
  rwa [faultIds, otherIds, List.take_append_drop] at he

/-- Each piece of the faulting indices stands under an identity of its own, and so does each of the others. -/
theorem exists_faultId (hs : strandOf s st.sid = some st) {x : Strand} (hx : x ∈ pieces (budgetOf s st) st F) :
    ∃ n p, n ∈ faultIds s st F ∧ { x with sid := n, part := p } ∈ (replaceStrand s st.sid (faultPieces s st F)).2.strands := by
  rw [← List.map_snd_zip (l₁ := faultIds s st F) length_faultIds.ge] at hx
  obtain ⟨e, he, rfl⟩ := List.mem_map.mp hx
  obtain ⟨p, hp⟩ := mem_replaceStrand_zip hs (mem_zip_faultPieces (.inl he))
  exact ⟨e.1, p, (List.of_mem_zip he).1, hp⟩

theorem exists_otherId (hs : strandOf s st.sid = some st) {x : Strand} (hx : x ∈ pieces (budgetOf s st) st ((present st).filter (fun i => !F.contains i))) :
    ∃ n p, n ∈ otherIds s st F ∧ { x with sid := n, part := p } ∈ (replaceStrand s st.sid (faultPieces s st F)).2.strands := by
  rw [← List.map_snd_zip (l₁ := otherIds s st F) length_otherIds.ge] at hx
  obtain ⟨e, he, rfl⟩ := List.mem_map.mp hx
  obtain ⟨p, hp⟩ := mem_replaceStrand_zip hs (mem_zip_faultPieces (.inr he))
  exact ⟨e.1, p, (List.of_mem_zip he).1, hp⟩

/-- Under each identity that parks stands a piece of the strand, at its PC. -/
theorem exists_parking (hs : strandOf s st.sid = some st) {n : ℕ} (hn : n ∈ faultIds s st F) :
    ∃ u ∈ (replaceStrand s st.sid (faultPieces s st F)).2.strands, u.sid = n ∧ u.pc = st.pc := by
  rw [← List.map_fst_zip (l₂ := pieces (budgetOf s st) st F) length_faultIds.le] at hn
  obtain ⟨e, he, rfl⟩ := List.mem_map.mp hn
  obtain ⟨p, hp⟩ := mem_replaceStrand_zip hs (mem_zip_faultPieces (.inl he))
  obtain ⟨ks, hks⟩ := restrict_of_mem_pieces (List.of_mem_zip he).2
  exact ⟨_, hp, rfl, by rw [← hks]; rfl⟩

theorem faulted_strands : (faulted s st F len r).strands = (replaceStrand s st.sid (faultPieces s st F)).2.strands.map
    (movedOn (otherIds s st F) len ∘ parkedUnder (faultIds s st F) (ticketFrom s.stops (s.stops.length + 1) s.nextTicket)) := by
  rw [← List.map_map, ← parking_strands (len := len) (r := r)]
  rfl

theorem mem_of_parked {u : Strand} (hu : u ∈ (replaceStrand s st.sid (faultPieces s st F)).2.strands) (hid : u.sid ∈ faultIds s st F) :
    { u with status := .parked (ticketFrom s.stops (s.stops.length + 1) s.nextTicket) } ∈ (faulted s st F len r).strands := by
  rw [faulted_strands]
  refine List.mem_map.mpr ⟨u, hu, ?_⟩
  rw [Function.comp_apply, movedOn_of_not_mem (by rw [parkedUnder_sid]; exact not_mem_otherIds hid), parkedUnder_of_mem hid]

theorem mem_of_other {u : Strand} (hu : u ∈ (replaceStrand s st.sid (faultPieces s st F)).2.strands) (hid : u.sid ∈ otherIds s st F) :
    { u with pc := u.pc + BitVec.ofNat 64 len } ∈ (faulted s st F len r).strands := by
  rw [faulted_strands]
  refine List.mem_map.mpr ⟨u, hu, ?_⟩
  rw [Function.comp_apply, parkedUnder_of_not_mem fun h => not_mem_otherIds h hid, movedOn_of_mem hid]

/-- The faulting indices stand parked at the PC. -/
theorem parked_standing (hs : strandOf s st.sid = some st) (wf : StrandWf st) (hF : F.Sublist (present st)) : Standing (faulted s st F len r) st F (· ∈ faultIds s st F) st.pc := by
  refine standing_of_pieces (B := budgetOf s st) wf hF fun x hx => ?_
  obtain ⟨n, p, hn, hmem⟩ := exists_faultId hs hx
  obtain ⟨ks, rfl⟩ := restrict_of_mem_pieces hx
  exact ⟨n, p, _, hn, mem_of_parked hmem hn⟩

/-- The others stand behind the instruction, under other identities. -/
theorem others_standing (hs : strandOf s st.sid = some st) (wf : StrandWf st) :
    Standing (faulted s st F len r) st ((present st).filter (fun i => !F.contains i)) (· ∉ faultIds s st F) (st.pc + BitVec.ofNat 64 len) := by
  refine standing_of_pieces (B := budgetOf s st) wf List.filter_sublist fun x hx => ?_
  obtain ⟨n, p, hn, hmem⟩ := exists_otherId hs hx
  obtain ⟨ks, rfl⟩ := restrict_of_mem_pieces hx
  exact ⟨n, p, _, fun h => not_mem_otherIds h hn, mem_of_other hmem hn⟩

/-- One stop has been taken for the faulting indices. -/
theorem parked_stopped (hs : strandOf s st.sid = some st) (fresh : FreshIds s) : Stopped s (faulted s st F len r) st.lk (faultIds s st F) st.pc r.kind r.cause := by
  obtain ⟨x, hx, hlk, hkind, hcause, hticket⟩ :=
    raiseStop_stops (replaceStrand s st.sid (faultPieces s st F)).2 st.lk (faultIds s st F) r.kind r.cause 1 len (.advance len) (withNames r F)
  rw [replaceStrand_stops] at hx hticket
  rw [replaceStrand_nextTicket] at hticket
  have hdistinct : ((faulted s st F len r).strands.map (fun u => u.sid)).Nodup := by
    rw [faulted_strands, List.map_map]
    simpa [Function.comp_def] using (freshIds_replaceStrand fresh).distinct
  refine ⟨x, hx, hlk, hkind, hcause, hticket, rfl, fun u hu hid => ?_, fun id hid => ?_⟩
  · rw [faulted_strands] at hu
    obtain ⟨y, -, rfl⟩ := List.mem_map.mp hu
    rw [Function.comp_apply, movedOn_sid, parkedUnder_sid] at hid
    rw [Function.comp_apply, movedOn_status, parkedUnder_of_mem hid, hticket]
  · obtain ⟨u, hu, rfl, hpc⟩ := exists_parking hs hid
    have hfound := strandOf_of_mem hdistinct (mem_of_parked hu hid)
    exact ⟨_, hfound, hpc⟩

/-- Its reports have been raised. -/
theorem parked_reported : Reported s (faulted s st F len r) (ctxOfLaunch s st.lk) (stamped s (withNames r F)) := by
  obtain ⟨a, hafter, hbefore⟩ := raiseStop_enqueues (replaceStrand s st.sid (faultPieces s st F)).2 st.lk (faultIds s st F) r.kind r.cause len (.advance len) (withNames r F)
  have hctx : ctxOfLaunch (replaceStrand s st.sid (faultPieces s st F)).2 st.lk = ctxOfLaunch s st.lk := by rw [ctxOfLaunch, launchOf, replaceStrand_launches]; rfl
  have hstamp : stamped (replaceStrand s st.sid (faultPieces s st F)).2 (withNames r F) = stamped s (withNames r F) := by
    rw [stamped, replaceStrand_stops, replaceStrand_nextTicket]
    rfl
  rw [hctx, hstamp] at hafter
  exact reported_of_enqueued ((sameStores_replaceStrand _ _ _).trans hbefore) (hafter.trans ⟨⟨rfl, rfl⟩, rfl, rfl⟩)

end

/-- The trap of a call stack at the indices that take the transfer (R146). -/
theorem callTrap_traps {i : Instr} {h : Hdr} {len info : ℕ} {s : State} {st : Strand} (fr : Free s st h.g) (fresh : FreshIds s) (hne : acting st h.g ≠ [])
    (hi : exec i s = finish (callTrap s st h len info)) :
    ∃ t sids, exec i s = .next t ∧ Stopped s t st.lk sids st.pc 8 0 ∧ Standing t st (acting st h.g) (· ∈ sids) st.pc ∧
      Standing t st ((present st).filter (fun j => !(acting st h.g).contains j)) (· ∉ sids) (st.pc + BitVec.ofNat 64 len) ∧
      Reported s t (ctxOfLaunch s st.lk) (stamped s (withNames { reportOf s st 8 0 with info := info } (acting st h.g))) := by
  have hF := acting_sublist st h.g
  have htrap : callTrap s st h len info = faulted s st (acting st h.g) len { reportOf s st 8 0 with info := info } := withoutFaulting_advance hF hne
  refine ⟨faulted s st (acting st h.g) len { reportOf s st 8 0 with info := info }, faultIds s st (acting st h.g), ?_, parked_stopped fr.here fresh,
    parked_standing fr.here fr.wf hF, others_standing fr.here fr.wf, parked_reported⟩
  rw [hi, ← htrap]
  exact finish_next (by simpa [callTrap] using fr.addr)

/-- Settles O30: a CALL on a full stack and a RET on an empty one park the indices that act, and move the others on. -/
theorem callTraps : Obligations.CallTraps := by
  intro h off s st fr fresh hne act trap
  exact ⟨fun hfull => callTrap_traps fr fresh hne (exec_call_full fr hfull), fun hcalls => callTrap_traps fr fresh hne (exec_ret_empty fr hcalls)⟩

end Sys2Proof.Machine
end

section
/-! PROOFS. BRX (O31) fails as it is written: its clause on diverging targets lacks a hypothesis, and a concrete state shows it. -/

namespace Sys2Proof.Machine

/-! ### A BRX over two windows whose pieces take an identity in use (R37, R145) -/

/-- The strand of indices 63 and 64, which lie in different windows, with the words 0 and 4 in v0. -/
def twoWindows : Strand := { newStrand 2 1 (some 0) .gn placeVa 63 2 0 0 0 [] with regs := [(0, .a 0 4)] }

/-- A strand of another launch, of index 0. -/
def bystander : Strand := newStrand 3 9 none .gn placeVa 0 1 0 0 0 []

/-- The machine in which the strand issues, while the identity that comes next is that of the other strand. -/
def idInUse : State := { State.reset with cur := some 2, nextId := 3, teams := [placeTeam 1], launches := [placeLaunch 1 0], strands := [bystander, twoWindows] }

theorem twoWindows_wf : StrandWf twoWindows where
  held := by decide
  first := by decide
  last := by decide
  attached := by decide
  cols := by simp [twoWindows, newStrand]
  qcols := by simp [twoWindows, newStrand]
  depth := by decide

theorem idInUse_ready : Ready idInUse twoWindows .none [.v 0 1] [] false where
  cur := rfl
  here := rfl
  addr := rfl
  wf := twoWindows_wf
  results := rfl
  clean := rfl

/-- The indices that the strands hold after an instruction that completes. -/
def presentAfter (r : Res) : Option (List (List ℕ)) := match r with | .next t => some (t.strands.map present) | _ => none

/-- The piece of index 63 takes the identity 3, under which the machine finds the other strand; what BRX makes of that one stands in the place of both. -/
theorem idInUse_after : presentAfter (exec (.brx ⟨false, .none⟩ 0) idInUse) = some [[0], [0], [64]] := by
  decide +kernel

/-- Refutes O31: where the targets differ, the third clause has each index of the strand stand in some strand afterwards, at its target. A compact strand of a team is cut at the windows first,
and the pieces issue in turn, each under an identity that it is given. Nothing in the clause says that no other strand has that identity (`FreshIds`, as O30 asks for); in `idInUse`, which no step
reaches, one has, and index 63 stands nowhere afterwards. -/
theorem not_branchIndirect : ¬Obligations.BranchIndirect := by
  unfold Obligations.BranchIndirect
  intro holds
  obtain ⟨-, -, differing, -⟩ := holds ⟨false, .none⟩ 0 idInUse twoWindows idInUse_ready
  obtain ⟨t, ht, -, carried⟩ := differing (by decide) (by decide) (fun ⟨_, p, hp⟩ => absurd ((hp 63 (by decide)).trans (hp 64 (by decide)).symm) (by decide)) (.inr rfl)
  obtain ⟨u, hu, h63, -⟩ := carried 63 (by decide)
  have hafter := idInUse_after
  rw [ht] at hafter
  have hheld : t.strands.map present = [[0], [0], [64]] := Option.some.inj hafter
  have hpresent := List.mem_map_of_mem (f := present) hu
  rw [hheld] at hpresent
  simp only [List.mem_cons, List.not_mem_nil, or_false] at hpresent
  rcases hpresent with h | h | h <;> rw [h] at h63 <;> exact absurd h63 (by decide)

end Sys2Proof.Machine
end

section
/-! PROOFS. What uses of the caches leave (R265): everything but the caches themselves, their packets and the B-dies behind them. -/

namespace Sys2Proof.Machine

/-- The machine without its caches: what no use of a cache changes (R265). -/
def cacheless (s : State) : State := { s with cores := [], l2lines := [], packets := [], bdies := [], nfree := 0 }

theorem cacheless_foldl {α : Type} {f : State → α → State} (h : ∀ a x, cacheless (f a x) = cacheless a) (xs : List α) (s : State) :
    cacheless (xs.foldl f s) = cacheless s := by
  induction xs generalizing s with
  | nil => rfl
  | cons x xs ih => exact (ih (f s x)).trans (h s x)

@[simp] theorem cacheless_putCore (s : State) (c : Core) : cacheless (putCore s c) = cacheless s := by unfold putCore; split <;> rfl

@[simp] theorem cacheless_putBdie (s : State) (b : BDie) : cacheless (putBdie s b) = cacheless s := by unfold putBdie; split <;> rfl

@[simp] theorem cacheless_freeBool (s : State) : cacheless (freeBool s).2 = cacheless s := rfl

theorem cacheless_foldl_snd {α β : Type} {f : β × State → α → β × State} (h : ∀ a x, cacheless (f a x).2 = cacheless a.2) (xs : List α) (s : β × State) :
    cacheless (xs.foldl f s).2 = cacheless s.2 := by
  induction xs generalizing s with
  | nil => rfl
  | cons x xs ih => exact (ih (f s x)).trans (h s x)

@[simp] theorem cacheless_evict (s : State) (b : BDie) : cacheless (evict s b).2 = cacheless s := by
  unfold evict
  refine cacheless_foldl_snd (fun acc l => ?_) b.lines (b, s)
  rfl

@[simp] theorem cacheless_touchLine (s : State) (line : ℕ) (write whole : Bool) : cacheless (touchLine s line write whole) = cacheless s := by
  simp [touchLine]

@[simp] theorem cacheless_sendPacket (s : State) (slice line : ℕ) (kind : PacketKind) : cacheless (sendPacket s slice line kind) = cacheless s := by
  unfold sendPacket; split <;> rfl

@[simp] theorem cacheless_closePacket (s : State) (p : Packet) : cacheless (closePacket s p) = cacheless s := rfl

@[simp] theorem cacheless_servePacket (s : State) (p : Packet) : cacheless (servePacket s p) = cacheless s := by
  unfold servePacket
  split
  · exact (cacheless_foldl (fun _ _ => cacheless_touchLine _ _ _ _) _ _).trans (cacheless_closePacket s p)
  · simp
  · simp
  · rfl

/-- The lines of L2 are part of the caches, whatever is written into them. -/
@[simp] theorem cacheless_l2lines (s : State) (ls : List L2Line) : cacheless { s with l2lines := ls } = cacheless s := rfl

@[simp] theorem cacheless_l2UseAt (sl : ℕ) (mask : DWord) (s : State) (line : ℕ) : cacheless (l2UseAt sl mask s line) = cacheless s := by
  unfold l2UseAt
  split
  · split <;> rfl
  · dsimp only
    rw [cacheless_l2lines, cacheless_sendPacket]
    split
    · rfl
    · split
      · rfl
      · rw [cacheless_sendPacket, cacheless_l2lines]

@[simp] theorem cacheless_l2Use (part : ℕ) (mask : DWord) (s : State) (line : ℕ) : cacheless (l2Use part mask s line) = cacheless s := cacheless_l2UseAt _ _ _ _

@[simp] theorem cacheless_l2HomeAt (sl oid : ℕ) (s : State) (line : ℕ) : cacheless (l2HomeAt sl oid s line) = cacheless s := by
  unfold l2HomeAt
  split
  · split
    · rfl
    · rw [cacheless_sendPacket, cacheless_l2lines]
  · rw [cacheless_sendPacket, cacheless_l2lines]

@[simp] theorem cacheless_l2Home (part oid : ℕ) (s : State) (line : ℕ) : cacheless (l2Home part oid s line) = cacheless s := cacheless_l2HomeAt _ _ _ _

@[simp] theorem cacheless_l2Back (sl : ℕ) (s : State) (line : ℕ) : cacheless (l2Back sl s line) = cacheless s := by
  have hline : cacheless (if line < hostTag then touchLine s line true false else s) = cacheless s := by split <;> simp
  unfold l2Back
  dsimp only
  split
  · exact hline
  · refine (cacheless_foldl (fun a q => ?_) _ _).trans ((cacheless_l2lines _ _).trans hline)
    cases q <;> simp

@[simp] theorem cacheless_writeBackL1 (core : ℕ) (p : ℕ → Bool) (s : State) : cacheless (writeBackL1 core p s) = cacheless s := by
  unfold writeBackL1
  dsimp only
  split
  · rfl
  · exact (cacheless_foldl (fun _ _ => cacheless_l2Use _ _ _ _) _ _).trans (cacheless_putCore _ _)

@[simp] theorem cacheless_cleanL1 (core : ℕ) (s : State) : cacheless (cleanL1 core s) = cacheless s := cacheless_putCore _ _

@[simp] theorem cacheless_noteMiss (core line : ℕ) (s : State) : cacheless (noteMiss core line s) = cacheless s := cacheless_putCore _ _

@[simp] theorem cacheless_l1Use (core : ℕ) (mask : DWord) (s : State) (line : ℕ) : cacheless (l1Use core mask s line) = cacheless s := by
  unfold l1Use
  dsimp only
  split
  · exact cacheless_putCore _ _
  · rw [cacheless_noteMiss, cacheless_l2Use]
    exact (cacheless_foldl (fun _ _ => cacheless_l2Use _ _ _ _) _ _).trans (cacheless_putCore _ _)

@[simp] theorem cacheless_cacheUse (core : ℕ) (nt : Bool) (n : ℕ) (s : State) (locs : List (ℕ × Space × ℕ)) : cacheless (cacheUse core nt n s locs) = cacheless s :=
  cacheless_foldl (fun a e => by split <;> simp) _ _

@[simp] theorem cacheless_bulkUse (core n : ℕ) (s : State) (locs : List (ℕ × Space × ℕ)) : cacheless (bulkUse core n s locs) = cacheless s := by
  have hfetch : ∀ (sbs : List ℕ) (s : State), cacheless (sbs.foldl (fun a sb => (List.range 4).foldl (fun b k => l1Use core 0 b (4 * sb + k)) a) s) = cacheless s := fun sbs s =>
    cacheless_foldl (fun _ _ => cacheless_foldl (fun _ _ => cacheless_l1Use _ _ _ _) _ _) sbs s
  unfold bulkUse
  dsimp only
  split
  · exact hfetch _ _
  · exact (cacheless_foldl (fun _ _ => cacheless_l1Use _ _ _ _) _ _).trans (hfetch _ _)

@[simp] theorem cacheless_touch (st : Strand) (a : ℕ) (nt : Bool) (n : ℕ) (s : State) (locs : List (ℕ × Space × ℕ)) : cacheless (touch st a nt n s locs) = cacheless s := by
  unfold touch; split <;> simp

@[simp] theorem cacheless_prefetchLine (core : ℕ) (s : State) (line : ℕ) : cacheless (prefetchLine core s line) = cacheless s := by
  unfold prefetchLine
  dsimp only
  split <;> simp

@[simp] theorem cacheless_atomicUse (core : ℕ) (s : State) (e : ℕ × DWord) : cacheless (atomicUse core s e) = cacheless s := by simp [atomicUse]

@[simp] theorem cacheless_homeUse (core oid : ℕ) (s : State) (e : ℕ × DWord) : cacheless (homeUse core oid s e) = cacheless s := by simp [homeUse]

@[simp] theorem cacheless_releaseL1 (core : ℕ) (sc : ScopeSet) (s : State) : cacheless (releaseL1 core sc s) = cacheless s := by
  unfold releaseL1
  dsimp only
  split
  · rfl
  · split <;> exact cacheless_writeBackL1 core _ s

@[simp] theorem cacheless_acquireL1 (core : ℕ) (sc : ScopeSet) (s : State) : cacheless (acquireL1 core sc s) = cacheless s := by
  unfold acquireL1
  dsimp only
  split
  · rfl
  · split <;> exact cacheless_cleanL1 core s

@[simp] theorem cacheless_tlbInsert (s : State) (core c va : ℕ) (t : Trans) : cacheless (tlbInsert s core c va t) = cacheless s := cacheless_putCore _ _

end Sys2Proof.Machine
end

section
/-! PROOFS. What the performing of accesses leaves (R247 to R257): the machine around its memories and its ordering. -/

namespace Sys2Proof.Machine

/-- An operation without what its performing changes. -/
def Op.bare (o : Op) : Op := { o with body := .stores [], faults := [], sets := [] }

/-- A team without what stands in its scratchpad. -/
def Team.bare (t : Team) : Team := { t with scratch := [], scratchPois := [], dirtyBlocks := [], full := [] }

/-- The machine around its memories, its ordering and its caches: what no performing of an access changes. -/
def around (s : State) : State :=
  { cacheless s with
    nextId := 0, drainSeq := 0, choices := [], ops := s.ops.map Op.bare, teams := s.teams.map Team.bare, mem := [], memPois := [], hostMem := [], hostPois := []
    stores := [], obs := [], rels := [], reads := [], fences := [], gsets := [] }

/-- What the performing of accesses keeps: the machine around the memories, and that identities are given out in ascending order. -/
structure Kept (s t : State) : Prop where
  around : around t = around s
  ids : s.nextId ≤ t.nextId

namespace Kept

theorem refl (s : State) : Kept s s := ⟨rfl, Nat.le_refl _⟩

theorem trans {s t u : State} (h : Kept s t) (h' : Kept t u) : Kept s u := ⟨h'.around.trans h.around, h.ids.trans h'.ids⟩

theorem of_cacheless {s t : State} (h : cacheless t = cacheless s) : Kept s t :=
  ⟨(congrArg Machine.around h :), (congrArg State.nextId h).ge⟩

theorem foldl_of {α β : Type} (state : β → State) {f : β → α → β} (h : ∀ a x, Kept (state a) (state (f a x))) (xs : List α) (a : β) : Kept (state a) (state (xs.foldl f a)) := by
  induction xs generalizing a with
  | nil => exact refl (state a)
  | cons x xs ih => exact (h a x).trans (ih (f a x))

theorem foldl {α : Type} {f : State → α → State} (h : ∀ a x, Kept a (f a x)) (xs : List α) (s : State) : Kept s (xs.foldl f s) := foldl_of id h xs s

theorem updOp {f : Op → Op} (h : ∀ o, (f o).bare = o.bare) (s : State) (oid : ℕ) : Kept s (updOp s oid f) := by
  refine ⟨?_, Nat.le_refl _⟩
  have hops : (Machine.updOp s oid f).ops.map Op.bare = s.ops.map Op.bare := by
    unfold Machine.updOp updWhere
    rw [List.map_map]
    refine List.map_congr_left fun o _ => ?_
    rw [Function.comp_apply]
    split <;> simp [h]
  unfold Machine.around
  rw [hops]
  rfl

theorem updTeam {f : Team → Team} (h : ∀ t, (f t).bare = t.bare) (s : State) (lk num : ℕ) : Kept s (updTeam s lk num f) := by
  refine ⟨?_, Nat.le_refl _⟩
  have hteams : (Machine.updTeam s lk num f).teams.map Team.bare = s.teams.map Team.bare := by
    unfold Machine.updTeam updWhere
    rw [List.map_map]
    refine List.map_congr_left fun t _ => ?_
    rw [Function.comp_apply]
    split <;> simp [h]
  unfold Machine.around
  rw [hteams]
  rfl

end Kept

/-! ### The ordering machine (R247 to R257) -/

theorem kept_setHome (s : State) (sp : Space) (a : ℕ) (bs : List Byte) : Kept s (setHome s sp a bs) := by
  cases sp with
  | dev => exact ⟨rfl, Nat.le_refl _⟩
  | host c => exact ⟨rfl, Nat.le_refl _⟩
  | scr lk t => exact Kept.updTeam (fun _ => by rfl) s lk t

theorem kept_setHomePoison (s : State) (sp : Space) (a n : ℕ) (p : Bool) : Kept s (setHomePoison s sp a n p) := by
  cases sp with
  | dev => cases p <;> exact ⟨rfl, Nat.le_refl _⟩
  | host c => cases p <;> exact ⟨rfl, Nat.le_refl _⟩
  | scr lk t =>
    refine Kept.updTeam (fun x => ?_) s lk t
    split
    · rfl
    · split <;> rfl

theorem kept_appendHome (s : State) (sp : Space) (a : ℕ) (bs : List Byte) (pois : Bool) (w : Writer) (rel : Option RelRec) : Kept s (appendHome s sp a bs pois w rel).2 := by
  unfold appendHome
  refine Kept.trans ?_ ((kept_setHome _ sp a bs).trans (kept_setHomePoison _ sp a bs.length pois))
  exact ⟨rfl, Nat.le_succ _⟩

theorem kept_addObs (s : State) (lk : ℕ) (is ids : List ℕ) : Kept s (addObs s lk is ids) := ⟨rfl, Nat.le_refl _⟩

theorem kept_setRel (s : State) (lk i : ℕ) (r : RelRec) : Kept s (setRel s lk i r) := ⟨rfl, Nat.le_refl _⟩

theorem kept_drainOne (s : State) (id : ℕ) : Kept s (drainOne s id) := by
  unfold drainOne
  split
  · exact Kept.refl s
  · refine Kept.trans ?_ ((kept_setHome _ _ _ _).trans (kept_setHomePoison _ _ _ _ _))
    exact ⟨rfl, Nat.le_refl _⟩

theorem kept_drainThese (s : State) (core : ℕ) (ids : List ℕ) : Kept s (drainThese s core ids) := Kept.foldl kept_drainOne _ _

theorem kept_drainWhere (s : State) (core : ℕ) (p : Store → Bool) : Kept s (drainWhere s core p) := kept_drainThese _ _ _

theorem kept_enterAt (s : State) (lk core : ℕ) (is : List ℕ) (sp : Space) (a : ℕ) (bs : List Byte) (pois : Bool) (rel : Option RelRec) :
    Kept s (enterAt s lk core is sp a bs pois rel) := ⟨rfl, Nat.le_succ _⟩

theorem kept_performLoad (s : State) (lk core : ℕ) (is : List ℕ) (sp : Space) (a n : ℕ) : Kept s (performLoad s lk core is sp a n).2 := by
  unfold performLoad
  dsimp only
  split <;> exact ⟨rfl, Nat.le_refl _⟩

theorem kept_acquire (s : State) (lk i : ℕ) (sc : ScopeSet) (id : ℕ) : Kept s (acquire s lk i sc id) := by
  unfold acquire
  split
  · exact Kept.refl s
  · split
    · exact Kept.refl s
    · split
      · exact kept_addObs _ _ _ _
      · exact Kept.refl s

theorem kept_acquireAll (s : State) (lk : ℕ) (is : List ℕ) (sc : ScopeSet) (ids : List ℕ) : Kept s (acquireAll s lk is sc ids) :=
  Kept.foldl (fun _ i => Kept.foldl (fun _ id => kept_acquire _ lk i sc id) _ _) _ _

theorem kept_acquireRecord (s : State) (lk : ℕ) (is : List ℕ) (sc : ScopeSet) (w : Writer) (r : RelRec) : Kept s (acquireRecord s lk is sc w r) := by
  unfold acquireRecord
  split
  · exact kept_addObs _ _ _ _
  · exact Kept.refl s

theorem kept_passBy (s : State) (lk i : ℕ) (sc : ScopeSet) (sp : Space) (a n : ℕ) : Kept s (passBy s lk i sc sp a n) := by
  unfold passBy
  dsimp only
  split <;> exact ⟨rfl, Nat.le_refl _⟩

theorem kept_atomicStep (s : State) (lk core i : ℕ) (sp : Space) (a : ℕ) (f : Word → Option Word) : Kept s (atomicStep s lk core i sp a f).2.2 := by
  have hread := (kept_drainWhere s core (meets sp a 4)).trans (kept_addObs _ lk [i] ((List.range 4).filterMap (fun k => newestHome (drainWhere s core (meets sp a 4)) sp (a + k))))
  unfold atomicStep
  dsimp only
  split
  · exact hread
  · exact hread.trans ((kept_appendHome _ _ _ _ _ _ _).trans (kept_addObs _ _ _ _))

theorem kept_publish (s : State) (core : ℕ) (r : RelRec) : Kept s (publish s core r) := by
  unfold publish
  split
  · exact (kept_drainThese s core r.set).trans (Kept.of_cacheless (cacheless_releaseL1 _ _ _))
  · exact Kept.refl s

/-! ### The performing of what is outstanding (R249 to R251) -/

theorem kept_acquireTodo (s : State) (o : Op) (t : LoadTodo) (from_ : List ℕ) : Kept s (acquireTodo s o t from_) := by
  unfold acquireTodo
  split
  · exact Kept.refl s
  · exact Kept.foldl (fun a i => (kept_passBy _ _ _ _ _ _ _).trans ((kept_acquireAll _ _ _ _ _).trans (Kept.of_cacheless (cacheless_acquireL1 _ _ _)))) _ _

theorem kept_performTodo (s : State) (o : Op) (t : LoadTodo) : Kept s (performTodo s o t) := by
  unfold performTodo
  refine (kept_performLoad _ _ _ _ _ _ _).trans ((kept_acquireTodo _ o t _).trans (Kept.updOp (fun x => ?_) _ _))
  split <;> rfl

theorem kept_performPiece (s : State) (o : Op) (t : LoadTodo) : Kept s (performPiece s o t) := by
  unfold performPiece
  refine (kept_performLoad _ _ _ _ _ _ _).trans (Kept.updOp (fun x => ?_) _ _)
  split <;> rfl

theorem kept_performLoadsOf (s : State) (p : LoadTodo → Bool) (oid : ℕ) : Kept s (performLoadsOf s p oid) := by
  unfold performLoadsOf
  split
  · exact Kept.refl s
  · split
    · exact Kept.foldl (fun a t => kept_performTodo a _ t) _ _
    · exact Kept.foldl (fun a t => kept_performPiece a _ t) _ _
    · exact Kept.refl s

theorem kept_performAts (s : State) (lk core : ℕ) (k : AtKind) (ts : List AtTodo) : Kept s (performAts s lk core k ts).2.2 := by
  unfold performAts
  refine Kept.foldl_of (fun acc : List (ℕ × List Word) × List ℕ × State => acc.2.2) (fun acc t => ?_) ts ([], [], s)
  exact kept_atomicStep acc.2.2 lk core t.idx t.space t.addr (atWrite k t.b t.c)

theorem kept_atcAtHome (s : State) (o : Op) (t : AtTodo) : Kept s (atcAtHome s o t).2 := by
  have hstep := (kept_publish s o.core ⟨obsOf s o.lk t.idx, scopeAt s o.lk o.team o.core .dev⟩).trans
    (kept_atomicStep _ o.lk o.core t.idx t.space t.addr (fun v => some (v + t.c)))
  unfold atcAtHome
  dsimp only
  split
  · exact Kept.refl s
  · split
    · exact hstep.trans (Kept.updOp (fun _ => by rfl) _ _)
    · split
      · exact hstep.trans (Kept.of_cacheless (cacheless_putBdie _ _))
      · exact hstep

theorem kept_performAtoms (s : State) (oid : ℕ) (p : AtTodo → Bool) : Kept s (performAtoms s oid p) := by
  unfold performAtoms
  split
  · exact Kept.refl s
  · split
    · dsimp only
      split
      · refine Kept.trans (Kept.foldl_of Prod.snd (fun acc t => ?_) _ (_, s)) (Kept.updOp (fun _ => by rfl) _ _)
        exact kept_atcAtHome acc.2 _ t
      · exact (kept_performAts _ _ _ _ _).trans (Kept.updOp (fun _ => by rfl) _ _)
    · exact Kept.refl s

theorem kept_serve (s : State) (p : Packet) : Kept s (serve s p) := by
  unfold serve
  split
  · exact (kept_performAtoms _ _ _).trans (Kept.of_cacheless ((cacheless_l2Back _ _ _).trans (cacheless_closePacket _ _)))
  · exact Kept.of_cacheless (cacheless_servePacket s p)

theorem kept_settleLine (pa n : ℕ) (s : State) : Kept s (settleLine pa n s) := by
  induction n generalizing s with
  | zero => exact Kept.refl s
  | succ n ih =>
    unfold settleLine
    split
    · exact Kept.refl s
    · exact (kept_serve _ _).trans (ih _)

theorem kept_settleAt (s : State) (sp : Space) (a : ℕ) : Kept s (settleAt s sp a) := by
  unfold settleAt
  split
  · exact kept_settleLine _ _ s
  · exact Kept.refl s

theorem kept_forceAtoms (s : State) (oid : ℕ) : Kept s (forceAtoms s oid) := by
  unfold forceAtoms
  split
  · split
    · exact (Kept.foldl (fun a t => kept_settleAt a _ _) _ s).trans (kept_performAtoms _ _ _)
    · exact Kept.refl s
  · exact Kept.refl s

theorem kept_performOwn (s : State) (oid : ℕ) : Kept s (performOwn s oid) := by
  unfold performOwn
  split
  · split
    · split
      · exact Kept.refl s
      · exact (Kept.foldl (fun a t => kept_settleAt a _ _) _ s).trans (kept_performAtoms _ _ _)
    · exact Kept.refl s
  · exact Kept.refl s

theorem kept_enterTodo (s : State) (o : Op) (t : StoreTodo) : Kept s (enterTodo s o t) := by
  unfold enterTodo
  refine Kept.trans ?_ (Kept.updOp (fun x => by split <;> rfl) _ _)
  cases t.release with
  | none => exact kept_enterAt _ _ _ _ _ _ _ _ _
  | some sc =>
    exact (Kept.of_cacheless (cacheless_releaseL1 _ _ _)).trans ((kept_enterAt _ _ _ _ _ _ _ _ _).trans (Kept.foldl (fun a i => kept_setRel a _ _ _) _ _))

theorem kept_fillGranule (s : State) (lk team g : ℕ) (w : Writer) (r : RelRec) : Kept s (fillGranule s lk team g w r) := by
  refine (Kept.updTeam (fun x => ?_) s lk team).trans ⟨rfl, Nat.le_refl _⟩
  rfl

theorem kept_performSet (s : State) (o : Op) (t : SetTodo) : Kept s (performSet s o t) :=
  (kept_publish _ _ _).trans ((kept_fillGranule _ _ _ _ _ _).trans (Kept.updOp (fun _ => by rfl) _ _))

theorem kept_performOp (is : List ℕ) (s : State) (oid : ℕ) : Kept s (performOp is s oid) := by
  unfold performOp
  split
  · exact Kept.refl s
  · split
    · exact (Kept.foldl (fun a t => kept_enterTodo a _ t) _ s).trans (Kept.foldl (fun a t => kept_performSet a _ t) _ _)
    · split
      · exact kept_forceAtoms s oid
      · exact Kept.refl s
    · exact kept_performLoadsOf _ _ _

theorem kept_performFor (s : State) (lk : ℕ) (is : List ℕ) (bound : ℕ) : Kept s (performFor s lk is bound) := Kept.foldl (kept_performOp _) _ _

theorem kept_performLoads (s : State) (st : Strand) : Kept s (performLoads s st) := by
  unfold performLoads
  split
  · exact Kept.refl s
  · exact kept_performFor _ _ _ _

theorem kept_performSame (s : State) (lk : ℕ) (sp : Space) (a n : ℕ) (is : List ℕ) : Kept s (performSame s lk sp a n is) := by
  unfold performSame
  dsimp only
  split
  · exact kept_performFor _ _ _ _
  · exact Kept.foldl (fun a oid => kept_performLoadsOf a _ oid) _ _

end Sys2Proof.Machine
end

section
/-! PROOFS. Accesses that are issued where every one of them is permitted (R155, R163 to R167): the operation, and what a strand with nothing outstanding performs first. -/

namespace Sys2Proof

open Sys2Proof.Machine

/-! ### Strands and operations in their tables -/

theorem strandOf_updStrand_same {s : State} {sid : ℕ} {st : Strand} {f : Strand → Strand} (h : strandOf s sid = some st) (hf : (f st).sid = st.sid) :
    strandOf (updStrand s sid f) sid = some (f st) :=
  find?_updWhere (fun t : Strand => t.sid) sid f s.strands st h (hf.trans (strandOf_sid h))

theorem strandOf_updStrand_other {s : State} {sid id : ℕ} {f : Strand → Strand} (hf : ∀ x, (f x).sid = x.sid) (hid : id ≠ sid) :
    strandOf (updStrand s sid f) id = strandOf s id := by
  unfold strandOf updStrand updWhere
  rw [find?_map_sid fun x => by split <;> simp [hf]]
  cases hfind : s.strands.find? (fun t => t.sid == id) with
  | none => rfl
  | some x =>
    have hx : x.sid = id := by simpa using List.find?_some hfind
    simp [hx, hid]

/-- An operation that has just been issued, as `addOp` enters it. -/
def issuedOp (s : State) (st : Strand) (cl : OpClass) (is : List ℕ) (body : OpBody) : Op :=
  ⟨s.nextId, cl, st.pc, st.lk, st.team, st.core, st.part, is, body, false, [], [], []⟩

theorem addOp_ops (s : State) (st : Strand) (cl : OpClass) (is : List ℕ) (body : OpBody) : (addOp s st cl is body false).2.ops = s.ops ++ [issuedOp s st cl is body] := rfl

theorem strandOf_addOp {s : State} {st : Strand} (hs : strandOf s st.sid = some st) (cl : OpClass) (is : List ℕ) (body : OpBody) :
    strandOf (addOp s st cl is body false).2 st.sid = some { st with ops := st.ops ++ [s.nextId] } :=
  strandOf_updStrand_same (s := { s with nextId := s.nextId + 1, ops := s.ops ++ [issuedOp s st cl is body] }) hs rfl

theorem strandOf_addOp_other (s : State) (st : Strand) (cl : OpClass) (is : List ℕ) (body : OpBody) {id : ℕ} (hid : id ≠ st.sid) :
    strandOf (addOp s st cl is body false).2 id = strandOf s id :=
  strandOf_updStrand_other (s := { s with nextId := s.nextId + 1, ops := s.ops ++ [issuedOp s st cl is body] }) (fun _ => rfl) hid

theorem strandOf_advance {s : State} {sid : ℕ} {st : Strand} (hs : strandOf s sid = some st) (len : ℕ) :
    strandOf (advance s sid len) sid = some { st with pc := st.pc + BitVec.ofNat 64 len } := strandOf_updStrand_same hs rfl

theorem strandOf_advance_other (s : State) {sid id : ℕ} (len : ℕ) (hid : id ≠ sid) : strandOf (advance s sid len) id = strandOf s id :=
  strandOf_updStrand_other (fun _ => rfl) hid

/-- The new operation is the only one with its identity, where identities have been given out in order. -/
theorem opOf_of_last {s : State} {os : List Op} {o : Op} (hops : s.ops = os ++ [o]) (hnew : ∀ x ∈ os, x.oid ≠ o.oid) : opOf s o.oid = some o := by
  have hold : os.find? (fun x => x.oid == o.oid) = none := List.find?_eq_none.mpr fun x hx => by simpa using hnew x hx
  rw [opOf, hops, List.find?_append, hold]
  simp

/-! ### What uses of the caches leave (R265) -/

theorem sameBytes_of_cacheless {s t : State} (h : cacheless t = cacheless s) : sameBytes s t :=
  SameHomes.sameBytes ⟨(congrArg State.hostMem h :), (congrArg State.teams h :)⟩ (congrArg State.mem h :)

theorem sameBytes_refl (s : State) : sameBytes s s := fun _ _ _ => rfl

theorem sameBytes_trans {s t u : State} (h : sameBytes s t) (h' : sameBytes t u) : sameBytes s u := fun sp a n => (h' sp a n).trans (h sp a n)

/-- The machine once what walks have answered for the strand is forgotten, but for its caches: where an access begins (R165). -/
def Begun (s s1 : State) (st : Strand) : Prop := cacheless s1 = cacheless (dropRes s st.sid)

namespace Begun
variable {s s1 : State} {st : Strand} (h : Begun s s1 st)
include h

theorem ops : s1.ops = s.ops := (congrArg State.ops h :)
theorem nextId : s1.nextId = s.nextId := (congrArg State.nextId h :)
theorem strands : s1.strands = s.strands := (congrArg State.strands h :)
theorem stores : s1.stores = s.stores := (congrArg State.stores h :)
theorem strandOf (id : ℕ) : strandOf s1 id = Machine.strandOf s id := by rw [Machine.strandOf, h.strands]; rfl

end Begun

theorem begun_dropRes (s : State) (st : Strand) : Begun s (dropRes s st.sid) st := rfl

theorem begun_touch (s : State) (st : Strand) (a : ℕ) (nt : Bool) (n : ℕ) (locs : List (ℕ × Space × ℕ)) : Begun s (touch st a nt n (dropRes s st.sid) locs) st :=
  cacheless_touch st a nt n _ locs

theorem Quiet.of_begun {s s1 : State} {st : Strand} (q : Quiet s st) (h : Begun s s1 st) : Quiet s1 st := by
  refine ⟨?_, ?_, ?_, ?_⟩ <;> rw [h.ops]
  · rw [h.nextId]; exact q.given
  · exact q.idle
  · exact q.entered
  · exact q.settled

/-- What an access has issued where it began, it has issued. -/
theorem Issued.of_begun {s s1 t : State} {st : Strand} (h : Begun s s1 st) {len : ℕ} {cl : OpClass} {act : List ℕ} {body : OpBody}
    (i : Issued s1 t st len cl act body) : Issued s t st len cl act body := by
  obtain ⟨bytes, ⟨hstrand, hteams, hgangs, hlaunches, hctxs, hstops⟩, op⟩ := i
  refine ⟨sameBytes_trans (s := s) (t := s1) (sameBytes_of_cacheless (s := dropRes s st.sid) h) bytes, ⟨fun id hid => (hstrand id hid).trans (h.strandOf id), ?_⟩, op⟩
  exact ⟨hteams.trans (congrArg State.teams h :), hgangs.trans (congrArg State.gangs h :), hlaunches.trans (congrArg State.launches h :), hctxs.trans (congrArg State.ctxs h :),
    hstops.trans (congrArg State.stops h :)⟩

/-! ### A quiet strand has nothing to perform first (R249, R251) -/

theorem meet_of_subset {is js ks : List ℕ} (hjs : js ⊆ ks) (h : meet is ks = false) : meet is js = false := by
  simp only [meet, List.any_eq_false, List.contains_iff_mem] at h ⊢
  exact fun i hi hj => h i hi (hjs hj)

theorem Quiet.opsBefore_nil {s : State} {st : Strand} (q : Quiet s st) {is : List ℕ} (his : is ⊆ present st) (bound : ℕ) : opsBefore s st.lk bound is = [] := by
  rw [opsBefore, List.filter_eq_nil_iff]
  intro o ho hc
  simp only [Bool.and_eq_true, beq_iff_eq, decide_eq_true_eq, Bool.not_eq_true'] at hc
  rcases q.idle o ho hc.1.1.1 with hdone | hmeet
  · simp [hdone] at hc
  · simp [meet_of_subset his hmeet] at hc

/-- With no store or setting left that they share, the indices share none. -/
theorem Quiet.sharers_eq {s : State} {st : Strand} (q : Quiet s st) {os : List Op} (hos : os ⊆ s.ops) {is : List ℕ} (his : is ⊆ present st) : sharers os is = is := by
  have hnone : ∀ (xs : List (List ℕ)), (∀ x ∈ xs, meet x (present st) = false) → xs.foldl (fun a x => if meet x a then x.foldl insertNat a else a) is = is := by
    intro xs hxs
    induction xs with
    | nil => rfl
    | cons x xs ih =>
      rw [List.foldl_cons, if_neg (by simp [meet_of_subset his (hxs x List.mem_cons_self)])]
      exact ih fun y hy => hxs y (List.mem_cons_of_mem _ hy)
  unfold sharers
  induction os with
  | nil => rfl
  | cons o os ih =>
    rw [List.foldr_cons, ih fun x hx => hos (List.mem_cons_of_mem _ hx)]
    have ho : o ∈ s.ops := hos List.mem_cons_self
    split
    · rename_i left hbody
      refine hnone _ fun x hx => ?_
      rcases List.mem_append.mp hx with hx | hx
      · obtain ⟨t, ht, rfl⟩ := List.mem_map.mp hx
        exact q.entered o ho left hbody t ht
      · obtain ⟨t, ht, rfl⟩ := List.mem_map.mp hx
        exact q.settled o ho t ht
    · rfl

theorem Quiet.performFor_eq {s : State} {st : Strand} (q : Quiet s st) {is : List ℕ} (his : is ⊆ present st) (bound : ℕ) : performFor s st.lk is bound = s := by
  unfold performFor
  dsimp only
  rw [q.sharers_eq (fun _ ho => (List.mem_filter.mp ho).1) his, q.opsBefore_nil his]
  rfl

theorem Quiet.performLoads_eq {s : State} {st : Strand} (q : Quiet s st) : performLoads s st = s := by
  unfold performLoads
  split
  · rfl
  · exact q.performFor_eq (List.Subset.refl _) _

theorem Quiet.performSame_eq {s : State} {st : Strand} (q : Quiet s st) (sp : Space) (a n : ℕ) {is : List ℕ} (his : is ⊆ present st) : performSame s st.lk sp a n is = s := by
  have hnone : s.ops.filter (fun o => o.lk == st.lk && !o.done && meet o.idxs is) = [] := by
    rw [List.filter_eq_nil_iff]
    intro o ho hc
    simp only [Bool.and_eq_true, beq_iff_eq, Bool.not_eq_true'] at hc
    rcases q.idle o ho hc.1.1 with hdone | hmeet
    · simp [hdone] at hc
    · simp [meet_of_subset his hmeet] at hc
  unfold performSame
  rw [hnone]
  rfl

/-! ### Issuing an operation (R155) -/

/-- An operation added and the strand moved on: nothing else has changed. -/
theorem issued_addOp {s : State} {st : Strand} (hs : strandOf s st.sid = some st) (len : ℕ) (cl : OpClass) (act : List ℕ) (body : OpBody) :
    Issued s (advance (addOp s st cl act body false).2 st.sid len) st len cl act body where
  bytes := SameHomes.sameBytes ⟨rfl, rfl⟩ rfl
  rest := ⟨fun id hid => (strandOf_advance_other _ len hid).trans (strandOf_addOp_other s st cl act body hid), rfl, rfl, rfl, rfl, rfl⟩
  op := by
    refine ⟨issuedOp s st cl act body, ?_, rfl, rfl, rfl, rfl, strandOf_advance (strandOf_addOp hs cl act body) len⟩
    rw [advance_ops, addOp_ops]
    simp

/-! ### The frame of a memory instruction (R116, R163 to R167) -/

section
variable {s : State} {st : Strand} {h : Hdr} {rs dests : List ℕ} {stack : Bool}

theorem memFrame_clear (c : Clear s st h.g rs dests stack) (f : State → Strand → State) : memFrame h rs dests stack f s = finish (f s st) := by
  unfold memFrame
  rw [onCur_issuing c.toIssuing]
  simp [c.results]

/-- The indices that consume a poisoned word: none of them. -/
theorem poisoned_nil (clean : consumed st h.g rs = []) : (if st.poison.isEmpty then [] else (acting st h.g).filter (fun i => rs.any (fun r => poisonedAt st r i))) = [] := clean

/-- Where every access is permitted, the instruction goes on at its locations, and what walks have answered is used up (R165). -/
theorem withAccesses_permitted (c : Clear s st h.g rs dests stack) {va : ℕ → ℕ} {res : State → Strand → ℕ → AccRes} {locs : List (ℕ × Space × ℕ)}
    (p : Permitted (res s st) (acting st h.g) va locs) (len access : ℕ) (f : State → Strand → List (ℕ × Space × ℕ) → State) :
    withAccesses s st rs (acting st h.g) va res len access f = f (dropRes s st.sid) st locs := by
  obtain ⟨hact, hok⟩ := p
  have has : (acting st h.g).map (fun i => (i, va i, res s st (va i))) = locs.map (fun l => (l.1, va l.1, AccRes.ok l.2.1 l.2.2)) := by
    rw [hact, List.map_map]
    exact List.map_congr_left fun l hl => by rw [Function.comp_apply, hok l hl]
  have hgather : gatherFaults (locs.map (fun l => (l.1, va l.1, AccRes.ok l.2.1 l.2.2))) = [] := by
    clear has hok hact
    induction locs with
    | nil => rfl
    | cons l ls ih => exact ih
  have hpresent : locs.filter (fun l => (present st).contains l.1) = locs := by
    refine List.filter_eq_self.mpr fun l hl => ?_
    rw [List.contains_iff_mem]
    exact (acting_sublist st h.g).subset (hact ▸ List.mem_map_of_mem hl)
  have hhere : strandOf (dropRes s st.sid) st.sid = some st := c.here
  have hlocs : locs.filterMap (fun l => some (l.1, l.2.1, l.2.2)) = locs := List.filterMap_some
  unfold withAccesses
  rw [poisoned_nil c.clean]
  simp only [List.contains_nil, Bool.false_eq_true, if_false, has, hgather]
  rw [List.find?_eq_none.mpr fun r hr => by obtain ⟨l, -, rfl⟩ := List.mem_map.mp hr; exact Bool.false_ne_true]
  simp only [parkFaults, parkGroups, List.map_nil, List.isEmpty_nil, if_true, List.foldl_nil, List.foldl_cons, hhere, List.filterMap_map, Function.comp_def, hlocs, hpresent]

end

/-! ### Loads (R163, R168, R171) -/

theorem idxs_groupLocs {u : Bool} {locs : List (ℕ × Space × ℕ)} {g : List ℕ × Space × ℕ} (hg : g ∈ groupLocs u locs) : g.1 ⊆ locs.map (fun l => l.1) := by
  cases locs with
  | nil => cases hg
  | cons l ls =>
    obtain ⟨i, sp, a⟩ := l
    unfold groupLocs at hg
    cases u with
    | true =>
      obtain rfl := List.mem_singleton.mp hg
      exact List.Subset.refl _
    | false =>
      obtain ⟨l, hl, rfl⟩ := List.mem_map.mp hg
      exact List.cons_subset.mpr ⟨List.mem_map_of_mem hl, List.nil_subset _⟩

theorem idxs_loadTodos {n : ℕ} {sx u : Bool} {acq : Option Scope} {locs : List (ℕ × Space × ℕ)} {t : LoadTodo} (ht : t ∈ loadTodos n sx u acq locs) :
    t.idxs ⊆ locs.map (fun l => l.1) := by
  obtain ⟨g, hg, ht⟩ := List.mem_flatMap.mp ht
  have hidx : t.idxs = g.1 := by
    split at ht
    · rcases List.mem_cons.mp ht with rfl | ht
      · rfl
      · rw [List.mem_singleton.mp ht]
    · rw [List.mem_singleton.mp ht]
  exact hidx ▸ idxs_groupLocs hg

/-- A load of a quiet strand: one operation of class l holds its loads (R155). -/
theorem issueLoad_issued {s s1 : State} {st : Strand} (hs : strandOf s st.sid = some st) (q : Quiet s st) (b : Begun s s1 st) {g : Guard} {locs : List (ℕ × Space × ℕ)}
    (hact : acting st g = locs.map (fun l => l.1)) (hne : acting st g ≠ []) (d : Option ℕ) (n : ℕ) (sx u : Bool) (acq : Option Scope) (len : ℕ) :
    (issueLoad d n sx u acq len s1 st locs).stores = s.stores ∧
    Issued s (issueLoad d n sx u acq len s1 st locs) st len .l (acting st g) (.result d (bytesRegs n) [] [] (loadTodos n sx u acq locs) none [] false) := by
  have hpresent : locs.map (fun l => l.1) ⊆ present st := hact ▸ (acting_sublist st g).subset
  have hsame : ∀ todo : List LoadTodo, (∀ t ∈ todo, t.idxs ⊆ present st) → todo.foldl (fun a t => performSame a st.lk t.space t.addr t.size t.idxs) s1 = s1 := by
    intro todo htodo
    induction todo with
    | nil => rfl
    | cons t ts ih =>
      rw [List.foldl_cons, (q.of_begun b).performSame_eq _ _ _ (htodo t List.mem_cons_self)]
      exact ih fun x hx => htodo x (List.mem_cons_of_mem _ hx)
  have hlocs : locs.isEmpty = false := by
    cases locs with
    | nil => exact absurd hact hne
    | cons l ls => rfl
  have heq : issueLoad d n sx u acq len s1 st locs =
      advance (addOp s1 st .l (acting st g) (.result d (bytesRegs n) [] [] (loadTodos n sx u acq locs) none [] false) false).2 st.sid len := by
    unfold issueLoad
    dsimp only
    rw [hsame _ fun t ht => List.Subset.trans (idxs_loadTodos ht) hpresent, hlocs, hact]
    rfl
  rw [heq]
  exact ⟨b.stores, (issued_addOp (by rw [b.strandOf]; exact hs) len .l _ _).of_begun b⟩

/-- A load whose check of R193 comes before its access passes it, and needs no other. -/
theorem checkLoad_eq {before : State} {st : Strand} {g : Guard} {u : Bool} {d n : ℕ}
    (hfit : d + n ≤ budgetOf before st ∨ presentCount st = 1 ∨ (u = true ∧ (acting st g).length = presentCount st)) (hne : acting st g ≠ []) (len : ℕ) (t : State) :
    checkLoad before st g u d n len t = t := by
  have hfull : capable before st d n = true ∨ (acting st g).length = presentCount st := by
    rcases hfit with hcap | hone | hall
    · exact .inl (by simpa [capable] using hcap)
    · have hle := (acting_sublist st g).length_le
      rw [length_present, hone] at hle
      have hpos := List.length_pos_iff.mpr hne
      exact .inr (by omega)
    · exact .inr hall.2
  unfold checkLoad
  rw [if_pos]
  rcases hfull with h | h <;> simp [h]

theorem not_formOnly {s : State} {st : Strand} {g : Guard} {u : Bool} {d n : ℕ}
    (hfit : d + n ≤ budgetOf s st ∨ presentCount st = 1 ∨ (u = true ∧ (acting st g).length = presentCount st)) : (!capable s st d n && !Machine.passes st u) = false := by
  rcases hfit with hcap | hone | hall
  · simp [capable, hcap]
  · simp [Machine.passes, hone]
  · simp [Machine.passes, hall.1]

end Sys2Proof
end

section
/-! PROOFS. Strands that go on in turn beside others that have parked (R166): each adds its accesses and moves on. -/

namespace Sys2Proof

open Sys2Proof.Machine

/-! ### What goes on with an operation of its own (R155, R166) -/

/-- A strand without its set of operations. -/
def forgetOps (u : Strand) : Strand := { u with ops := [] }

/-- From a to b accesses have been performed, and operations added in which each of the indices has a part; nothing but their sets has changed in the strands. -/
structure Joins (a b : State) (is : List ℕ) : Prop where
  strands : b.strands.map forgetOps = a.strands.map forgetOps
  stops : b.stops = a.stops
  cur : b.cur = a.cur
  addr : b.badAddr = a.badAddr
  budgets : ∀ q, budgetOf b q = budgetOf a q
  ids : a.nextId ≤ b.nextId
  ops : ∀ o ∈ a.ops, ∃ o' ∈ b.ops, o'.oid = o.oid ∧ o'.idxs = o.idxs
  issued : ∀ i ∈ is, ∃ o ∈ b.ops, i ∈ o.idxs ∧ a.nextId ≤ o.oid

theorem Machine.Kept.teamOf {s t : State} (h : Kept s t) (lk n : ℕ) : (teamOf t lk n).map Team.bare = (teamOf s lk n).map Team.bare := by
  have hfind : ∀ x : State, (Machine.teamOf x lk n).map Team.bare = (Machine.around x).teams.find? (fun y => y.lk == lk && y.num == n) := fun x => by
    show _ = (x.teams.map Team.bare).find? _
    rw [List.find?_map]
    rfl
  rw [hfind, hfind, h.around]

theorem Machine.Kept.budgetOf {s t : State} (h : Kept s t) (q : Strand) : budgetOf t q = budgetOf s q := by
  have hlaunches : t.launches = s.launches := (congrArg State.launches h.around :)
  have hkernel : kernelOf t q.lk q.team = kernelOf s q.lk q.team := by
    unfold kernelOf launchOf
    rw [hlaunches]
    cases q.team with
    | none => rfl
    | some n =>
      have hteam := h.teamOf q.lk n
      simp only [Option.bind_some]
      cases ht : Machine.teamOf t q.lk n <;> cases hs : Machine.teamOf s q.lk n <;> simp only [ht, hs, Option.map_none, Option.map_some, reduceCtorEq, Option.some.injEq] at hteam ⊢
      exact (congrArg Team.kernel hteam :)
  unfold Machine.budgetOf launchOf
  rw [hkernel, hlaunches]

namespace Joins

theorem of_kept {a b : State} (h : Kept a b) : Joins a b [] where
  strands := (congrArg (fun x : State => x.strands.map forgetOps) h.around :)
  stops := (congrArg State.stops h.around :)
  cur := (congrArg State.cur h.around :)
  addr := (congrArg State.badAddr h.around :)
  budgets := h.budgetOf
  ids := h.ids
  ops := fun o ho => by
    have hops : b.ops.map Op.bare = a.ops.map Op.bare := (congrArg State.ops h.around :)
    obtain ⟨o', ho', he⟩ := List.mem_map.mp (hops ▸ List.mem_map_of_mem (f := Op.bare) ho)
    exact ⟨o', ho', (congrArg Op.oid he :), (congrArg Op.idxs he :)⟩
  issued := fun _ hi => absurd hi List.not_mem_nil

/-- What comes after what has been added changes no part in it. -/
theorem andThen {a b c : State} {is js : List ℕ} (h : Joins a b is) (h' : Joins b c js) : Joins a c (is ++ js) where
  strands := h'.strands.trans h.strands
  stops := h'.stops.trans h.stops
  cur := h'.cur.trans h.cur
  addr := h'.addr.trans h.addr
  budgets := fun q => (h'.budgets q).trans (h.budgets q)
  ids := h.ids.trans h'.ids
  ops := fun o ho => by
    obtain ⟨o1, ho1, hoid1, hidxs1⟩ := h.ops o ho
    obtain ⟨o2, ho2, hoid2, hidxs2⟩ := h'.ops o1 ho1
    exact ⟨o2, ho2, hoid2.trans hoid1, hidxs2.trans hidxs1⟩
  issued := fun i hi => by
    rcases List.mem_append.mp hi with hi | hi
    · obtain ⟨o1, ho1, hio, hid⟩ := h.issued i hi
      obtain ⟨o2, ho2, hoid, hidxs⟩ := h'.ops o1 ho1
      exact ⟨o2, ho2, hidxs ▸ hio, hoid ▸ hid⟩
    · obtain ⟨o, ho, hio, hid⟩ := h'.issued i hi
      exact ⟨o, ho, hio, h.ids.trans hid⟩

theorem before {a b c : State} {is : List ℕ} (h : Kept a b) (h' : Joins b c is) : Joins a c is := (of_kept h).andThen h'

theorem after {a b c : State} {is : List ℕ} (h : Joins a b is) (h' : Kept b c) : Joins a c is := List.append_nil is ▸ h.andThen (of_kept h')

theorem addOp (a : State) (p : Strand) (cl : OpClass) (is : List ℕ) (body : OpBody) : Joins a (addOp a p cl is body false).2 is where
  strands := by
    show (a.strands.map _).map forgetOps = _
    rw [List.map_map]
    refine List.map_congr_left fun u _ => ?_
    rw [Function.comp_apply]
    split <;> rfl
  stops := rfl
  cur := rfl
  addr := rfl
  budgets := fun _ => rfl
  ids := Nat.le_succ _
  ops := fun o ho => ⟨o, List.mem_append_left _ ho, rfl, rfl⟩
  issued := fun i hi => ⟨issuedOp a p cl is body, List.mem_append_right _ (List.mem_singleton.mpr rfl), hi, Nat.le_refl _⟩

end Joins

/-- The strand p goes on behind a memory instruction: its accesses are added, for the indices that make one, and it moves on. -/
def Proceeds (a b : State) (p : Strand) (len : ℕ) (is : List ℕ) : Prop := ∃ x, Joins a x is ∧ b = advance x p.sid len

/-- A piece of a strand runs the role and the team of the strand. -/
def SameRole (p st : Strand) : Prop := p.lk = st.lk ∧ p.team = st.team ∧ p.role = st.role

theorem SameRole.budgetOf {p st : Strand} (h : SameRole p st) (s : State) : budgetOf s p = budgetOf s st := by
  obtain ⟨hlk, hteam, hrole⟩ := h
  unfold Machine.budgetOf
  rw [hlk, hteam, hrole]

/-! ### Strands up to their sets of operations -/

theorem forgetOps_movedOn (ids : List ℕ) (len : ℕ) (u : Strand) : forgetOps (movedOn ids len u) = movedOn ids len (forgetOps u) := by
  unfold movedOn
  by_cases hu : u.sid ∈ ids
  · rw [if_pos hu, if_pos (show (forgetOps u).sid ∈ ids from hu)]
    rfl
  · rw [if_neg hu, if_neg (show (forgetOps u).sid ∉ ids from hu)]

theorem map_forgetOps_movedOn (ids : List ℕ) (len : ℕ) (us : List Strand) : (us.map (movedOn ids len)).map forgetOps = (us.map forgetOps).map (movedOn ids len) := by
  rw [List.map_map, List.map_map]
  exact List.map_congr_left fun u _ => forgetOps_movedOn ids len u

theorem movedOn_cons {id : ℕ} {ids : List ℕ} (hid : id ∉ ids) (len : ℕ) (u : Strand) : movedOn ids len (movedOn [id] len u) = movedOn (id :: ids) len u := by
  by_cases hu : u.sid = id
  · simp [movedOn, hu, hid]
  · simp [movedOn, hu]

theorem advance_strands (s : State) (id len : ℕ) : (advance s id len).strands = s.strands.map (movedOn [id] len) :=
  List.map_congr_left fun u _ => by simp [movedOn]

theorem strandOf_forgetOps {a b : State} (h : b.strands.map forgetOps = a.strands.map forgetOps) (id : ℕ) : (strandOf b id).map forgetOps = (strandOf a id).map forgetOps := by
  unfold strandOf
  rw [← find?_map_sid (f := forgetOps) (fun _ => rfl), ← find?_map_sid (f := forgetOps) (fun _ => rfl), h]

theorem mem_forgetOps {a b : State} (h : b.strands.map forgetOps = a.strands.map forgetOps) {u : Strand} (hu : u ∈ a.strands) : ∃ v ∈ b.strands, forgetOps v = forgetOps u :=
  List.mem_map.mp (h ▸ List.mem_map_of_mem (f := forgetOps) hu)

/-- What stands in a table stands where only the sets of operations are others. -/
theorem Standing.of_forgetOps {t t' : State} {st : Strand} {is : List ℕ} {named : ℕ → Prop} {pc : DWord} (h : t'.strands.map forgetOps = t.strands.map forgetOps)
    (hst : Standing t st is named pc) : Standing t' st is named pc := by
  intro i hi
  obtain ⟨u, hu, hnamed, hin, hlk, hteam, hpc, hcalls, hvals, hents⟩ := hst i hi
  obtain ⟨v, hv, he⟩ := mem_forgetOps h hu
  exact ⟨v, hv, (congrArg Strand.sid he :) ▸ hnamed, (congrArg present he :) ▸ hin, (congrArg Strand.lk he :).trans hlk, (congrArg Strand.team he :).trans hteam,
    (congrArg Strand.pc he :).trans hpc, (congrArg Strand.calls he :).trans hcalls, fun r => (congrArg (valueAt · r i) he :).trans (hvals r),
    fun k hk => (congrArg (entryAt · k i) he :).trans (hents k hk)⟩

theorem Stopped.of_forgetOps {s t t' : State} {lk kind cause : ℕ} {sids : List ℕ} {pc : DWord} (h : t'.strands.map forgetOps = t.strands.map forgetOps)
    (hstops : t'.stops = t.stops) (hcur : t'.cur = t.cur) (hst : Stopped s t lk sids pc kind cause) : Stopped s t' lk sids pc kind cause := by
  obtain ⟨x, hx, hlk, hkind, hcause, hticket, hend, hparked, hat⟩ := hst
  refine ⟨x, hstops.trans hx, hlk, hkind, hcause, hticket, hcur.trans hend, fun u hu hid => ?_, fun id hid => ?_⟩
  · obtain ⟨v, hv, he⟩ := mem_forgetOps h.symm hu
    exact (congrArg Strand.status he.symm :).trans (hparked v hv ((congrArg Strand.sid he :) ▸ hid))
  · obtain ⟨u, hu, hpc⟩ := hat id hid
    have hfound := strandOf_forgetOps h id
    rw [hu, Option.map_some] at hfound
    obtain ⟨v, hv, he⟩ := Option.map_eq_some_iff.mp hfound
    exact ⟨v, hv, (congrArg Strand.pc he :).trans hpc⟩

/-! ### The strands that go on, in turn -/

/-- The locations that a strand has to access among some. -/
def locsOf (locs : List (ℕ × Space × ℕ)) (p : Strand) : List (ℕ × Space × ℕ) := locs.filter (fun l => (present p).contains l.1)

/-- Each of the strands goes on, in turn: they move on, and each acting index of theirs has a part in an operation that is new. -/
theorem eachStrand_proceeds {s : State} {st : Strand} {f : State → Strand → List (ℕ × Space × ℕ) → State} {len : ℕ} {locs : List (ℕ × Space × ℕ)}
    (hf : ∀ a p ls, SameRole p st → budgetOf a p = budgetOf s st → Proceeds a (f a p ls) p len (ls.map (fun l => l.1))) {ids : List ℕ} (nd : ids.Nodup)
    (a : State) (hbudget : ∀ q, budgetOf a q = budgetOf s q) (hids : ∀ id ∈ ids, ∃ p, strandOf a id = some p ∧ SameRole p st) :
    let t := eachStrand a ids (fun a p => f a p (locsOf locs p))
    t.strands.map forgetOps = (a.strands.map (movedOn ids len)).map forgetOps ∧ t.stops = a.stops ∧ t.cur = a.cur ∧ t.badAddr = a.badAddr ∧
    (∀ o ∈ a.ops, ∃ o' ∈ t.ops, o'.oid = o.oid ∧ o'.idxs = o.idxs) ∧
    ∀ id ∈ ids, ∀ p, strandOf a id = some p → ∀ l ∈ locs, l.1 ∈ present p → ∃ o ∈ t.ops, l.1 ∈ o.idxs ∧ a.nextId ≤ o.oid := by
  induction ids generalizing a with
  | nil =>
    refine ⟨?_, rfl, rfl, rfl, fun o ho => ⟨o, ho, rfl, rfl⟩, fun id hid => absurd hid List.not_mem_nil⟩
    rw [List.map_congr_left fun u _ => movedOn_of_not_mem List.not_mem_nil len, List.map_id']
    rfl
  | cons id ids ih =>
    obtain ⟨hid, hrest⟩ := List.nodup_cons.mp nd
    obtain ⟨p, hp, hrole⟩ := hids id List.mem_cons_self
    obtain ⟨x, hx, hb⟩ := hf a p (locsOf locs p) hrole ((hbudget p).trans (hrole.budgetOf s))
    rw [strandOf_sid hp] at hb
    have hstep : eachStrand a (id :: ids) (fun a p => f a p (locsOf locs p)) = eachStrand (advance x id len) ids (fun a p => f a p (locsOf locs p)) := by
      unfold eachStrand
      rw [List.foldl_cons, hp]
      exact congrArg (List.foldl _ · ids) hb
    have hmoved : (advance x id len).strands.map forgetOps = (a.strands.map (movedOn [id] len)).map forgetOps := by
      rw [advance_strands, map_forgetOps_movedOn, hx.strands, map_forgetOps_movedOn]
    have hothers : ∀ n ∈ ids, (strandOf (advance x id len) n).map forgetOps = (strandOf a n).map forgetOps := fun n hn => by
      rw [strandOf_advance_other x len (show n ≠ id from fun h => hid (h ▸ hn))]
      exact strandOf_forgetOps hx.strands n
    have hnext : ∀ n ∈ ids, ∃ p, strandOf (advance x id len) n = some p ∧ SameRole p st := fun n hn => by
      obtain ⟨q, hq, hsame⟩ := hids n (List.mem_cons_of_mem _ hn)
      have h := hothers n hn
      rw [hq, Option.map_some] at h
      obtain ⟨v, hv, he⟩ := Option.map_eq_some_iff.mp h
      exact ⟨v, hv, (congrArg Strand.lk he :).trans hsame.1, (congrArg Strand.team he :).trans hsame.2.1, (congrArg Strand.role he :).trans hsame.2.2⟩
    obtain ⟨hstrands, hstops, hcur, haddr, hops, hissued⟩ := ih hrest (advance x id len) (fun q => (hx.budgets q).trans (hbudget q)) hnext
    dsimp only
    rw [hstep]
    refine ⟨?_, hstops.trans hx.stops, hcur.trans hx.cur, haddr.trans hx.addr, fun o ho => ?_, fun n hn q hq l hl hlq => ?_⟩
    · rw [hstrands, map_forgetOps_movedOn, hmoved, ← map_forgetOps_movedOn, List.map_map (f := movedOn [id] len)]
      exact congrArg (List.map forgetOps) (List.map_congr_left fun u _ => movedOn_cons hid len u)
    · obtain ⟨o1, ho1, hoid1, hidxs1⟩ := hx.ops o ho
      obtain ⟨o2, ho2, hoid2, hidxs2⟩ := hops o1 ho1
      exact ⟨o2, ho2, hoid2.trans hoid1, hidxs2.trans hidxs1⟩
    · rcases List.mem_cons.mp hn with rfl | hn
      · obtain rfl := Option.some.inj (hp.symm.trans hq)
        have hmem : l ∈ locsOf locs p := List.mem_filter.mpr ⟨hl, List.contains_iff_mem.mpr hlq⟩
        obtain ⟨o1, ho1, hin, hfresh⟩ := hx.issued l.1 (List.mem_map_of_mem hmem)
        obtain ⟨o2, ho2, hoid, hidxs⟩ := hops o1 ho1
        exact ⟨o2, ho2, hidxs ▸ hin, hoid ▸ hfresh⟩
      · have h := hothers n hn
        rw [hq, Option.map_some] at h
        obtain ⟨v, hv, he⟩ := Option.map_eq_some_iff.mp h
        obtain ⟨o, ho, hin, hfresh⟩ := hissued n hn v hv l hl ((congrArg present he :) ▸ hlq)
        exact ⟨o, ho, hin, hx.ids.trans hfresh⟩

/-! ### The indices whose accesses fault park (R166, R167, R394) -/

/-- An access is answered with a fault. -/
def faulty : AccRes → Bool
  | .fault _ _ _ => true
  | _ => false

/-- Faults of one kind and cause are one group, of the indices that raise them. -/
theorem gatherFaults_eq {kind cause : ℕ} (rs : List (ℕ × ℕ × AccRes))
    (h : ∀ e ∈ rs, (∃ sp a, e.2.2 = .ok sp a) ∨ ∃ info, e.2.2 = .fault kind cause info) :
    (rs.filter (fun e => faulty e.2.2) = [] ∧ gatherFaults rs = []) ∨
    ∃ info addr pages, gatherFaults rs = [⟨kind, cause, info, addr, (rs.filter (fun e => faulty e.2.2)).map (fun e => e.1), pages⟩] := by
  induction rs with
  | nil => exact .inl ⟨rfl, rfl⟩
  | cons e rs ih =>
    obtain ⟨i, va, r⟩ := e
    have hrest := ih fun x hx => h x (List.mem_cons_of_mem _ hx)
    rcases h (i, va, r) List.mem_cons_self with ⟨sp, a, hr⟩ | ⟨info, hr⟩
    · obtain rfl : r = .ok sp a := hr
      exact hrest
    · obtain rfl : r = .fault kind cause info := hr
      refine .inr ?_
      rcases hrest with ⟨hnone, hgather⟩ | ⟨info', addr, pages, hgather⟩
      · refine ⟨info, va, [va], ?_⟩
        rw [List.filter_cons_of_pos (by rfl), hnone]
        simp [gatherFaults, hgather]
      · refine ⟨info, va, va :: pages, ?_⟩
        simp [gatherFaults, hgather, faulty]

/-- Asking the host for pages changes nothing but its requests (R333). -/
theorem foldl_askFor_eq (pages : List ℕ) (s : State) (st : Strand) (kind cause access : ℕ) :
    ∃ q, pages.foldl (fun a va => askFor a st kind cause va access) s = { s with priReqs := q } := by
  have hone : ∀ (q : List PriReq) (va : ℕ), ∃ q', askFor { s with priReqs := q } st kind cause va access = { s with priReqs := q' } := by
    intro q va
    unfold askFor askHost
    dsimp only
    split
    · split <;> exact ⟨_, rfl⟩
    · exact ⟨_, rfl⟩
  suffices h : ∀ q, ∃ q', pages.foldl (fun a va => askFor a st kind cause va access) { s with priReqs := q } = { s with priReqs := q' } from h s.priReqs
  induction pages with
  | nil => exact fun q => ⟨q, rfl⟩
  | cons va vas ih =>
    intro q
    obtain ⟨q', hq'⟩ := hone q va
    rw [List.foldl_cons, hq']
    exact ih q'

theorem parkGroups_single {s : State} {st : Strand} {F : List ℕ} (hF : F.Sublist (present st)) (r : Report) (len : ℕ) :
    parkGroups s st [(F, r)] len = (otherIds s st F, parking s st F len r) := by
  have hsel : (present st).filter (fun i => F.contains i) = F := filter_contains_of_sublist hF (nodup_present st)
  unfold parkGroups
  simp only [List.isEmpty_cons, Bool.false_eq_true, if_false, List.flatMap_cons, List.flatMap_nil, List.append_nil, List.any_cons, List.any_nil, Bool.or_false, hsel,
    List.foldl_cons, List.foldl_nil]
  rfl

section
variable {s : State} {st : Strand} {F : List ℕ} {len : ℕ} {r : Report}

theorem parking_cur : (parking s st F len r).cur = none := rfl

end

end Sys2Proof
end

section
/-! PROOFS. Memory instructions at some of whose indices the access faults (R166, R167, R394): those park, and each strand of the others goes on. -/

namespace Sys2Proof

open Sys2Proof.Machine

/-! ### What a stop leaves of the strands' operations and budgets (R373) -/

/-- The machine as a stop leaves it but for the strands, the launches' counts of faults, and what it tells of itself. -/
structure Untold (s t : State) : Prop where
  ops : t.ops = s.ops
  nextId : t.nextId = s.nextId
  teams : t.teams = s.teams
  launches : t.launches = s.launches

theorem Untold.trans {s t u : State} (h : Untold s t) (h' : Untold t u) : Untold s u :=
  ⟨h'.ops.trans h.ops, h'.nextId.trans h.nextId, h'.teams.trans h.teams, h'.launches.trans h.launches⟩

theorem untold_writeReport (s : State) (c : ℕ) (r : Report) : Untold s (writeReport s c r) := by
  unfold writeReport
  split
  · exact ⟨rfl, rfl, rfl, rfl⟩
  · constructor <;> simp only [updCtx_ops, updCtx_nextId, updCtx_teams, updCtx_launches]

theorem untold_enqueueReport (s : State) (c : ℕ) (r : Report) : Untold s (enqueueReport s c r) := by
  unfold enqueueReport
  split
  · exact ⟨rfl, rfl, rfl, rfl⟩
  · split
    · exact untold_writeReport s c r
    · exact ⟨rfl, rfl, rfl, rfl⟩

theorem untold_enqueueReports (s : State) (c : ℕ) (f : Report → Report) (rs : List Report) : Untold s (rs.foldl (fun a r => enqueueReport a c (f r)) s) := by
  induction rs generalizing s with
  | nil => exact ⟨rfl, rfl, rfl, rfl⟩
  | cons r rs ih => exact (untold_enqueueReport s c (f r)).trans (ih _)

/-- A count of faults is no part of a budget. -/
theorem budgetOf_updLaunch (s : State) (lk n : ℕ) (q : Strand) : budgetOf (updLaunch s lk (fun l => { l with faults := l.faults + n })) q = budgetOf s q := by
  have hlaunch : ∀ j, ∃ f : Launch → Launch, (∀ l, (f l).kernel = l.kernel ∧ (f l).slots = l.slots) ∧
      launchOf (updLaunch s lk (fun l => { l with faults := l.faults + n })) j = (launchOf s j).map f := fun j => by
    refine ⟨fun l => if l.lk == lk then { l with faults := l.faults + n } else l, fun l => ?_, ?_⟩
    · dsimp only
      split <;> exact ⟨rfl, rfl⟩
    · unfold launchOf updLaunch updWhere
      rw [List.find?_map]
      congr 2
      funext l
      rw [Function.comp_apply]
      split <;> rfl
  obtain ⟨f, hf, hl⟩ := hlaunch q.lk
  have hkernel : kernelOf (updLaunch s lk (fun l => { l with faults := l.faults + n })) q.lk q.team = kernelOf s q.lk q.team := by
    unfold kernelOf
    rw [hl]
    have hteam : teamOf (updLaunch s lk (fun l => { l with faults := l.faults + n })) q.lk = teamOf s q.lk := rfl
    rw [hteam]
    cases q.team.bind (teamOf s q.lk) with
    | some t => rfl
    | none =>
      rw [Option.map_map]
      exact congrFun (congrArg Option.map (funext fun l => (hf l).1)) _
  unfold budgetOf
  rw [hkernel, hl]
  cases launchOf s q.lk with
  | none => rfl
  | some l => simp only [Option.map_some, Option.any_some, hf]

theorem Untold.budgetOf {s t : State} (h : Untold s t) (q : Strand) : budgetOf t q = budgetOf s q := by
  have hteam : teamOf t = teamOf s := by
    unfold teamOf
    rw [h.teams]
  have hlaunch : launchOf t = launchOf s := by
    unfold launchOf
    rw [h.launches]
  unfold Machine.budgetOf kernelOf
  rw [hteam, hlaunch]

section
variable {s : State} {lk kind cause cls len : ℕ} {sids : List ℕ} {after : After} {rs : List Report}

theorem raiseStop_ops : (raiseStop s lk sids kind cause cls len after rs).ops = s.ops := by
  unfold raiseStop
  exact (untold_enqueueReports _ _ (fun r => { r with cls := cls, ticket := ticketFrom s.stops (s.stops.length + 1) s.nextTicket }) rs).ops

theorem raiseStop_nextId : (raiseStop s lk sids kind cause cls len after rs).nextId = s.nextId := by
  unfold raiseStop
  exact (untold_enqueueReports _ _ (fun r => { r with cls := cls, ticket := ticketFrom s.stops (s.stops.length + 1) s.nextTicket }) rs).nextId

theorem budgetOf_raiseStop (q : Strand) : budgetOf (raiseStop s lk sids kind cause cls len after rs) q = budgetOf s q := by
  unfold raiseStop
  refine ((untold_enqueueReports _ _ (fun r => { r with cls := cls, ticket := ticketFrom s.stops (s.stops.length + 1) s.nextTicket }) rs).budgetOf q).trans ?_
  exact budgetOf_updLaunch { s with
    stops := _
    nextTicket := _
    strands := _ } lk rs.length q

end

section
variable {s : State} {st : Strand} {F : List ℕ} {len : ℕ} {r : Report}

theorem parking_ops : (parking s st F len r).ops = s.ops := by
  obtain ⟨xs, n, h⟩ := replaceStrand_tables s st.sid (faultPieces s st F)
  rw [parking, raiseStop_ops, h]

theorem budgetOf_parking (q : Strand) : budgetOf (parking s st F len r) q = budgetOf s q := by
  obtain ⟨xs, n, h⟩ := replaceStrand_tables s st.sid (faultPieces s st F)
  rw [parking, budgetOf_raiseStop, h]
  rfl

theorem le_nextId_replaceStrand (sid : ℕ) (new : List Strand) : s.nextId ≤ (replaceStrand s sid new).2.nextId := by
  by_cases h : new.length = 1
  · obtain ⟨x, rfl⟩ := List.length_eq_one_iff.mp h
    exact Nat.le_refl _
  · rw [replaceStrand_several h]
    exact Nat.le_add_right _ _

theorem parking_nextId : s.nextId ≤ (parking s st F len r).nextId := by
  rw [parking, raiseStop_nextId]
  exact le_nextId_replaceStrand _ _

/-- The identities of a split are those of the strands found. -/
theorem strandOf_parking_other (fresh : FreshIds s) {u : Strand} (hu : u ∈ (replaceStrand s st.sid (faultPieces s st F)).2.strands) (hid : u.sid ∉ faultIds s st F) :
    strandOf (parking s st F len r) u.sid = some u := by
  have hmem : u ∈ (parking s st F len r).strands := by
    rw [parking_strands]
    exact List.mem_map.mpr ⟨u, hu, parkedUnder_of_not_mem hid _⟩
  refine strandOf_of_mem ?_ hmem
  rw [parking_strands, List.map_map]
  simpa [Function.comp_def] using (freshIds_replaceStrand fresh).distinct

/-- Each of those that go on is a piece of the strand, where the acting indices that do not fault are. -/
theorem other_piece (hs : strandOf s st.sid = some st) (fresh : FreshIds s) {n : ℕ} (hn : n ∈ otherIds s st F) :
    ∃ p, strandOf (parking s st F len r) n = some p ∧ SameRole p st := by
  have hnot : n ∉ faultIds s st F := fun h => not_mem_otherIds h hn
  rw [← List.map_fst_zip (l₂ := pieces (budgetOf s st) st ((present st).filter (fun i => !F.contains i))) length_otherIds.le] at hn
  obtain ⟨e, he, rfl⟩ := List.mem_map.mp hn
  obtain ⟨p, hp⟩ := mem_replaceStrand_zip hs (mem_zip_faultPieces (.inr he))
  obtain ⟨ks, hks⟩ := restrict_of_mem_pieces (List.of_mem_zip he).2
  exact ⟨_, strandOf_parking_other fresh hp hnot, by rw [← hks]; exact ⟨rfl, rfl, rfl⟩⟩

theorem other_holds (hs : strandOf s st.sid = some st) (wf : StrandWf st) (fresh : FreshIds s) {i : ℕ} (hi : i ∈ present st) (hF : i ∉ F) :
    ∃ n ∈ otherIds s st F, ∃ p, strandOf (parking s st F len r) n = some p ∧ i ∈ present p := by
  have hkeep : i ∈ (present st).filter (fun i => !F.contains i) := List.mem_filter.mpr ⟨hi, by simpa using hF⟩
  obtain ⟨ks, hpiece, hshard, -, hin⟩ := mem_pieces (budgetOf s st) List.filter_sublist hkeep
  obtain ⟨n, p, hn, hmem⟩ := exists_otherId hs hpiece
  refine ⟨n, hn, _, strandOf_parking_other fresh hmem fun h => not_mem_otherIds h hn, ?_⟩
  show i ∈ present (restrict st ks)
  rw [hshard.present_restrict wf]
  exact hin

end

/-- The report of an access that faults. -/
def accReport (s : State) (st : Strand) (kind cause info addr access : ℕ) : Report :=
  { reportOf s st kind cause with addr := addr, info := info, access := if kind = 15 then poisonAccess else access }

/-- The host asked for the pages of some faults, once their indices have parked. -/
def askedFor (st : Strand) (kind cause access : ℕ) (pages : List ℕ) (p : List ℕ × State) : List ℕ × State :=
  (p.1, pages.foldl (fun a va => askFor a st kind cause va access) p.2)

/-- The faulting indices of one kind and cause park under one stop; but for the host that is asked for pages, that is all (R166, R333). -/
theorem parkFaults_single {s : State} {st : Strand} {F : List ℕ} (hF : F.Sublist (present st)) (kind cause info addr : ℕ) (pages : List ℕ) (len access : ℕ) :
    ∃ (r : Report) (q : List PriReq), r.kind = kind ∧ r.cause = cause ∧
      parkFaults s st [⟨kind, cause, info, addr, F, pages⟩] len access = (otherIds s st F, { parking s st F len r with priReqs := q }) := by
  have hparked := parkGroups_single (s := s) hF (accReport s st kind cause info addr access) len
  obtain ⟨q, hq⟩ := foldl_askFor_eq pages (parking s st F len (accReport s st kind cause info addr access)) st kind cause access
  refine ⟨accReport s st kind cause info addr access, q, rfl, rfl, ?_⟩
  have hasked : askedFor st kind cause access pages (otherIds s st F, parking s st F len (accReport s st kind cause info addr access)) =
      (otherIds s st F, { parking s st F len (accReport s st kind cause info addr access) with priReqs := q }) := congrArg (Prod.mk _) hq
  exact (congrArg (askedFor st kind cause access pages) hparked).trans hasked

/-! ### A memory instruction at some of whose indices the access faults (R166, R167) -/

/-- The location of an access that is permitted. -/
def okLoc (e : ℕ × ℕ × AccRes) : Option (ℕ × Space × ℕ) :=
  match e.2.2 with
  | .ok sp a => some (e.1, sp, a)
  | _ => none

/-- What the accesses of the indices are answered with. -/
def answers (is : List ℕ) (va : ℕ → ℕ) (res : ℕ → AccRes) : List (ℕ × ℕ × AccRes) := is.map (fun i => (i, va i, res (va i)))

section
variable {s : State} {st : Strand} {h : Hdr} {rs dests : List ℕ} {stack : Bool} {va : ℕ → ℕ} {res : State → Strand → ℕ → AccRes} {kind cause : ℕ}

theorem faulty_answers (is : List ℕ) (r : ℕ → AccRes) : ((answers is va r).filter (fun e => faulty e.2.2)).map (fun e => e.1) = is.filter (fun i => faulty (r (va i))) := by
  unfold answers
  rw [List.filter_map, List.map_map]
  exact List.map_id' _

/-- Where each access is permitted or faults, those whose accesses fault are parked, and each strand of the others goes on with its locations. -/
theorem withAccesses_eq (c : Clear s st h.g rs dests stack)
    (hres : ∀ j ∈ acting st h.g, (∃ sp a, res s st (va j) = .ok sp a) ∨ ∃ info, res s st (va j) = .fault kind cause info) (len access : ℕ) (f : State → Strand → List (ℕ × Space × ℕ) → State) :
    withAccesses s st rs (acting st h.g) va res len access f =
      let as := answers (acting st h.g) va (res s st)
      let p := parkFaults (dropRes s st.sid) st (gatherFaults as) len access
      eachStrand p.2 p.1 (fun a p => f a p (locsOf (as.filterMap okLoc) p)) := by
  unfold withAccesses
  rw [poisoned_nil c.clean]
  simp only [List.contains_nil, Bool.false_eq_true, if_false]
  rw [List.find?_eq_none.mpr fun e he => ?_]
  · rfl
  · obtain ⟨j, hj, rfl⟩ := List.mem_map.mp he
    rcases hres j hj with ⟨sp, a, hj⟩ | ⟨info, hj⟩ <;> simp only [hj] <;> exact Bool.false_ne_true

theorem mem_locs {r : ℕ → AccRes} {is : List ℕ} {j : ℕ} (hj : j ∈ is) {sp : Space} {a : ℕ} (h : r (va j) = .ok sp a) :
    (j, sp, a) ∈ (answers is va r).filterMap okLoc :=
  List.mem_filterMap.mpr ⟨(j, va j, r (va j)), List.mem_map.mpr ⟨j, hj, rfl⟩, by rw [h]; rfl⟩

/-- A memory instruction at some of whose indices the access faults: these park at their PC, and each strand of the others goes on. -/
theorem faultsPark_of {i : Instr} {len access : ℕ} {f : State → Strand → List (ℕ × Space × ℕ) → State} (c : Clear s st h.g rs dests stack) (fresh : FreshIds s)
    (given : ∀ o ∈ s.ops, o.oid < s.nextId) (hexec : exec i s = finish (withAccesses s st rs (acting st h.g) va res len access f))
    (hf : ∀ a p ls, SameRole p st → budgetOf a p = budgetOf s st → Proceeds a (f a p ls) p len (ls.map (fun l => l.1))) :
    FaultsPark i s st (acting st h.g) (fun j => res s st (va j)) len := by
  intro kind cause hres bad hbad
  have hanswers : ∀ e ∈ answers (acting st h.g) va (res s st), (∃ sp a, e.2.2 = .ok sp a) ∨ ∃ info, e.2.2 = .fault kind cause info := fun e he => by
    obtain ⟨j, hj, rfl⟩ := List.mem_map.mp he
    exact hres j hj
  have hsub : bad.Sublist (present st) := List.filter_sublist.trans (acting_sublist st h.g)
  have hidxs : ((answers (acting st h.g) va (res s st)).filter (fun e => faulty e.2.2)).map (fun e => e.1) = bad := faulty_answers _ _
  have hs : strandOf (dropRes s st.sid) st.sid = some st := c.here
  have hfresh : FreshIds (dropRes s st.sid) := ⟨fresh.given, fresh.distinct⟩
  rcases gatherFaults_eq (answers (acting st h.g) va (res s st)) hanswers with ⟨hnone, -⟩ | ⟨info, addr, pages, hgather⟩
  · exact absurd (by rw [← hidxs, hnone]; rfl) hbad
  rw [hidxs] at hgather
  obtain ⟨r, q, hkind, hcause, hpark⟩ := parkFaults_single (s := dropRes s st.sid) hsub kind cause info addr pages len access
  rw [← hgather] at hpark
  have heq := withAccesses_eq c hres len access f
  dsimp only at heq
  rw [hpark] at heq
  obtain ⟨hstrands, hstops, hcur, haddr, hops, hissued⟩ := eachStrand_proceeds (locs := (answers (acting st h.g) va (res s st)).filterMap okLoc) hf
    (nodup_replaceStrand.sublist (List.drop_sublist _ _)) { parking (dropRes s st.sid) st bad len r with priReqs := q } budgetOf_parking
    (fun n hn => other_piece (len := len) (r := r) hs hfresh hn)
  have hjoin : (withAccesses s st rs (acting st h.g) va res len access f).strands.map forgetOps = (faulted (dropRes s st.sid) st bad len r).strands.map forgetOps := by
    rw [heq]
    exact hstrands
  refine ⟨_, faultIds (dropRes s st.sid) st bad, hexec.trans (finish_next ?_), ?_, ?_, ?_, fun j hj hgood => ?_⟩
  · rw [heq]
    exact haddr.trans (by simpa [parking] using c.addr)
  · rw [← hkind, ← hcause]
    exact (parked_stopped hs hfresh).of_forgetOps hjoin (by rw [heq]; exact hstops) (by rw [heq]; exact hcur)
  · exact (parked_standing hs c.wf hsub).of_forgetOps hjoin
  · exact (others_standing hs c.wf).of_forgetOps hjoin
  · obtain ⟨sp, a, hok⟩ : ∃ sp a, res s st (va j) = .ok sp a := by
      rcases hres j hj with h | ⟨info, h⟩
      · exact h
      · exact absurd (List.mem_filter.mpr ⟨hj, by rw [h]⟩) hgood
    obtain ⟨n, hn, p, hp, hin⟩ := other_holds (len := len) (r := r) hs c.wf hfresh ((acting_sublist st h.g).subset hj) hgood
    obtain ⟨o, ho, hjo, hnew⟩ := hissued n hn p hp _ (mem_locs hj hok) hin
    refine ⟨o, by rw [heq]; exact ho, hjo, fun hold => ?_⟩
    obtain ⟨x, hx, hid⟩ := List.mem_map.mp hold
    have hlt := given x hx
    have hle : s.nextId ≤ o.oid := (parking_nextId (s := dropRes s st.sid)).trans hnew
    omega

end

end Sys2Proof
end

section
/-! PROOFS. LD and LDS (O36). -/

namespace Sys2Proof

open Sys2Proof.Machine

/-! ### Loads that go on beside faults -/

theorem checkLoad_of_capable {s : State} {st : Strand} {d n : ℕ} (hcap : d + n ≤ budgetOf s st) (g : Guard) (u : Bool) (len : ℕ) (t : State) : checkLoad s st g u d n len t = t := by
  unfold checkLoad
  rw [if_pos]
  simp [capable, hcap]

theorem issueLoad_proceeds {a b : State} (hab : Kept a b) (p : Strand) (d : Option ℕ) (n : ℕ) (sx u : Bool) (acq : Option Scope) (len : ℕ) (ls : List (ℕ × Space × ℕ)) :
    Proceeds a (issueLoad d n sx u acq len b p ls) p len (ls.map (fun l => l.1)) := by
  have hsame : Kept a ((loadTodos n sx u acq ls).foldl (fun x t => performSame x p.lk t.space t.addr t.size t.idxs) b) :=
    hab.trans (Kept.foldl (fun _ _ => kept_performSame _ _ _ _ _ _) _ _)
  unfold issueLoad
  cases ls with
  | nil => exact ⟨_, Joins.of_kept hsame, rfl⟩
  | cons l ls => exact ⟨_, Joins.before hsame (Joins.addOp _ p .l _ _), rfl⟩

section
variable {s : State} {st : Strand} {h : Hdr} {d a k : R11} {wide nt : Bool} {z : MemSz} {zs : ScrSz} {f : LdsQual} {sc : Scope} {locs : List (ℕ × Space × ℕ)}

/-- A load of n bytes to w registers, if any index acts: past the check of its form (R193), and with room (R155). -/
def loading (s : State) (st : Strand) (act : List ℕ) (u : Bool) (d w : ℕ) (X : State) : State :=
  if act.isEmpty then advance s st.sid 8
  else if !capable s st d w && !Machine.passes st u then formOnlyTrap s st 8 d w
  else if !roomFor s st .l false then waitRoom s st.sid .l false
  else X

theorem loading_none {act : List ℕ} {u : Bool} {d w : ℕ} {X : State} (hact : act = []) : loading s st act u d w X = advance s st.sid 8 := by
  simp [loading, hact]

theorem loading_some {u : Bool} {d w : ℕ} {X : State} {g : Guard} (hne : acting st g ≠ [])
    (hfit : d + w ≤ budgetOf s st ∨ presentCount st = 1 ∨ (u = true ∧ (acting st g).length = presentCount st)) (hroom : roomFor s st .l false = true) :
    loading s st (acting st g) u d w X = X := by
  simp [loading, hne, not_formOnly hfit, hroom]

theorem finish_advance (c : Issuing s st) (len : ℕ) : finish (advance s st.sid len) = .next (advance s st.sid len) := finish_next c.addr

/-- LD, where its registers have arrived and are not poisoned. -/
theorem exec_ld (c : Clear s st h.g [a.toNat, a.toNat + 1] (List.range' d.toNat (bytesRegs (szBytes z))) false) :
    exec (.ld h d a k z nt) s = finish (loading s st (acting st h.g) (addrU st a.toNat) d.toNat (bytesRegs (szBytes z))
      (withAccesses s st [a.toNat, a.toNat + 1] (acting st h.g) (atIdx (present st) (addresses st a.toNat (immS k))) (fun s st x => accessOf s st x (szBytes z) false) 8
        (accessCode 1 (szBytes z)) (fun s' st' locs => checkLoad s' st' h.g (addrU st a.toNat) d.toNat (bytesRegs (szBytes z)) 8
          (issueLoad (some d.toNat) (szBytes z) (szSigned z) (addrU st a.toNat) none 8 (touch st' a.toNat nt 0 s' locs) st' locs)))) := by
  show execLd h d a k z nt s = _
  unfold execLd
  exact (memFrame_clear c _).trans rfl

/-- LDA, likewise. -/
theorem exec_lda (c : Clear s st h.g [a.toNat, a.toNat + 1] (List.range' d.toNat ((if wide then 8 else 4) / 4)) false) :
    exec (.lda h d a k wide sc) s = finish (loading s st (acting st h.g) (addrU st a.toNat) d.toNat ((if wide then 8 else 4) / 4)
      (withAccesses s st [a.toNat, a.toNat + 1] (acting st h.g) (atIdx (present st) (addresses st a.toNat (immS k))) (fun s st x => accessOf s st x (if wide then 8 else 4) false) 8
        (accessCode 1 (if wide then 8 else 4)) (fun s' st' locs => checkLoad s' st' h.g (addrU st a.toNat) d.toNat ((if wide then 8 else 4) / 4) 8
          (issueLoad (some d.toNat) (if wide then 8 else 4) false (addrU st a.toNat) (some sc) 8 (touch st' a.toNat false 0 s' locs) st' locs)))) := by
  show execLda h d a k wide sc s = _
  unfold execLda
  exact (memFrame_clear c _).trans rfl

/-- What LDS does at its locations: a load, or the beginning of a wait for granules (R176, R177). -/
def ldsAt (h : Hdr) (d : R11) (zs : ScrSz) (f : LdsQual) (u : Bool) (s : State) (st : Strand) (locs : List (ℕ × Space × ℕ)) : State :=
  match f with
  | .plain => checkLoad s st h.g u d.toNat (scrBytes zs / 4) 8 (issueLoad (some d.toNat) (scrBytes zs) false u none 8 s st locs)
  | q =>
    if locs.isEmpty then advance s st.sid 8
    else beginGranule (performLoads s st) st ⟨if q = .take then .take else .wait, d.toNat, scrBytes zs / 4, 8, 0, 0,
      (groupLocs u locs).map (fun g => ⟨g.1, (spaceTeam g.2.1).1, (spaceTeam g.2.1).2, g.2.2, scrBytes zs, [], false⟩), [], []⟩

/-- LDS of a placed strand, likewise. -/
theorem exec_lds (c : Clear s st h.g [a.toNat] (List.range' d.toNat (scrBytes zs / 4)) false) (hteam : st.team.isSome = true) :
    exec (.lds h d a k zs f) s = finish (loading s st (acting st h.g) (uReg st a.toNat).isSome d.toNat (scrBytes zs / 4)
      (withAccesses s st [a.toNat] (acting st h.g) (atIdx (present st) (scratchAddrs st a.toNat (immS k))) (fun s st x => scratchAt s st x (scrBytes zs)) 8
        (accessCode 1 (scrBytes zs)) (ldsAt h d zs f (uReg st a.toNat).isSome))) := by
  have hplaced : st.team.isNone = false := by simpa using hteam
  show execLds h d a k zs f s = _
  unfold execLds
  refine (memFrame_clear c _).trans (congrArg finish ?_)
  dsimp only
  rw [hplaced]
  rfl

theorem nonempty_of_acting {g : Guard} (hact : acting st g = locs.map (fun l => l.1)) (hne : acting st g ≠ []) : locs.isEmpty = false := by
  cases locs with
  | nil => exact absurd hact hne
  | cons l ls => rfl

/-- Settles O36: where every access is permitted, the operation is issued at the locations, and where some fault, the strands of the others each issue one. -/
theorem loads : Obligations.Loads := by
  intro h d a k z zs f nt s st locs act issues
  refine ⟨fun c => ⟨fun hact => ?_, fun hne hcap hroom fresh given => ?_, fun hne hfit hroom perm => ?_⟩,
    fun c hteam => ⟨fun hact => ?_, fun hne hcap hroom fresh given hplain => ?_, fun hne hfit hroom perm => ⟨fun hplain => ?_, fun hgran => ?_⟩⟩⟩
  · rw [exec_ld c, loading_none hact]
    exact finish_advance c.toIssuing 8
  · refine faultsPark_of (res := fun s st x => accessOf s st x (szBytes z) false) c fresh given
      ((exec_ld c).trans (congrArg finish (loading_some hne (.inl hcap) hroom))) fun x p ls _ hbudget => ?_
    rw [checkLoad_of_capable (hbudget.symm ▸ hcap)]
    exact issueLoad_proceeds (Kept.of_cacheless (cacheless_touch _ _ _ _ _ _)) _ _ _ _ _ _ _ _
  · have heq : exec (.ld h d a k z nt) s = finish (issueLoad (some d.toNat) (szBytes z) (szSigned z) (addrU st a.toNat) none 8 (touch st a.toNat nt 0 (dropRes s st.sid) locs) st locs) := by
      rw [exec_ld c, loading_some hne hfit hroom, withAccesses_permitted c perm, checkLoad_eq (before := dropRes s st.sid) hfit hne]
    exact ⟨heq.trans (finish_next (by simpa using c.addr)), fun q => issueLoad_issued c.here q (begun_touch s st _ _ _ _) perm.1 hne _ _ _ _ _ _⟩
  · rw [exec_lds c hteam, loading_none hact]
    exact finish_advance c.toIssuing 8
  · subst hplain
    refine faultsPark_of (res := fun s st x => scratchAt s st x (scrBytes zs)) c fresh given
      ((exec_lds c hteam).trans (congrArg finish (loading_some hne (.inl hcap) hroom))) fun x p ls _ hbudget => ?_
    unfold ldsAt
    rw [checkLoad_of_capable (hbudget.symm ▸ hcap)]
    exact issueLoad_proceeds (Kept.refl x) _ _ _ _ _ _ _ _
  · subst hplain
    have heq : exec (.lds h d a k zs .plain) s = finish (issueLoad (some d.toNat) (scrBytes zs) false (uReg st a.toNat).isSome none 8 (dropRes s st.sid) st locs) := by
      rw [exec_lds c hteam, loading_some hne hfit hroom, withAccesses_permitted c perm]
      exact congrArg finish (checkLoad_eq (before := dropRes s st.sid) hfit hne _ _)
    exact ⟨heq.trans (finish_next (by simpa using c.addr)), fun q => issueLoad_issued c.here q (begun_dropRes s st) perm.1 hne _ _ _ _ _ _⟩
  · rw [exec_lds c hteam, loading_some hne hfit hroom, withAccesses_permitted c perm]
    have hgo := nonempty_of_acting perm.1 hne
    cases f with
    | plain => exact absurd rfl hgran
    | wait =>
      simp only [ldsAt, hgo, Bool.false_eq_true, if_false]
      exact finish_next (by simpa using c.addr)
    | take =>
      simp only [ldsAt, hgo, Bool.false_eq_true, if_false]
      exact finish_next (by simpa using c.addr)

end

end Sys2Proof
end

section
/-! PROOFS. What acquires change (R252, R254): what the indices observe, and how often releases have been passed by. -/

namespace Sys2Proof.Machine

/-! ### What an acquire changes (R252, R254) -/

/-- A store however often an acquire has passed it by. -/
def Store.unpassed (e : Store) : Store := { e with passes := 0 }

/-- The machine but for its caches, for what the indices observe, and for how often its releases have been passed by. -/
def unseen (s : State) : State := { cacheless s with obs := [], stores := s.stores.map Store.unpassed }

/-- From s to t nothing has happened but acquires: what an index observes it observes still. -/
structure Acquires (s t : State) : Prop where
  unseen : unseen t = unseen s
  observes : ∀ lk i id, observes s lk i id = true → observes t lk i id = true

namespace Acquires

theorem refl (s : State) : Acquires s s := ⟨rfl, fun _ _ _ h => h⟩

theorem trans {s t u : State} (h : Acquires s t) (h' : Acquires t u) : Acquires s u :=
  ⟨h'.unseen.trans h.unseen, fun lk i id hid => h'.observes lk i id (h.observes lk i id hid)⟩

theorem of_cacheless {s t : State} (h : cacheless t = cacheless s) : Acquires s t where
  unseen := (congrArg Machine.unseen h :)
  observes := fun lk i id hid => by
    have hobs : t.obs = s.obs := (congrArg State.obs h :)
    rw [Machine.observes, hobs]
    exact hid

theorem foldl {α : Type} {f : State → α → State} (h : ∀ a x, Acquires a (f a x)) (xs : List α) (s : State) : Acquires s (xs.foldl f s) := by
  induction xs generalizing s with
  | nil => exact refl s
  | cons x xs ih => exact (h s x).trans (ih (f s x))

/-- What one step of a series of acquires brings about, and none undoes, holds at its end. -/
theorem foldl_of_mem {α : Type} {f : State → α → State} (h : ∀ a x, Acquires a (f a x)) {P : State → Prop} (hkept : ∀ a b, Acquires a b → P a → P b) {xs : List α} {x : α}
    (hx : x ∈ xs) {s : State} (hstep : ∀ a, Acquires s a → P (f a x)) : P (xs.foldl f s) := by
  induction xs generalizing s with
  | nil => cases hx
  | cons y ys ih =>
    rw [List.foldl_cons]
    rcases List.mem_cons.mp hx with rfl | hx
    · exact hkept _ _ (foldl h ys _) (hstep s (refl s))
    · exact ih hx fun a ha => hstep a ((h s y).trans ha)

section
variable {s t : State} (h : Acquires s t)
include h

theorem scopeAt (lk : ℕ) (team : Option ℕ) (core : ℕ) (sc : Scope) : scopeAt t lk team core sc = scopeAt s lk team core sc :=
  (congrArg (Machine.scopeAt · lk team core sc) h.unseen :)

theorem scopeNow (o : Op) (i : ℕ) (sc : Scope) : scopeNow t o i sc = scopeNow s o i sc := (congrArg (Machine.scopeNow · o i sc) h.unseen :)

theorem writerIn (sc : ScopeSet) (w : Writer) : writerIn t sc w = writerIn s sc w := (congrArg (Machine.writerIn · sc w) h.unseen :)

theorem readsOf (lk i : ℕ) : readsOf t lk i = readsOf s lk i := (congrArg (Machine.readsOf · lk i) h.unseen :)

theorem sameBytes : sameBytes s t :=
  SameHomes.sameBytes ⟨(congrArg State.hostMem h.unseen :), (congrArg State.teams h.unseen :)⟩ (congrArg State.mem h.unseen :)

/-- A store keeps its writer and what it releases. -/
theorem find_store {id : ℕ} {w : Store} (hw : s.stores.find? (fun e => e.id == id) = some w) :
    ∃ w', t.stores.find? (fun e => e.id == id) = some w' ∧ w'.rel = w.rel ∧ w'.writer = w.writer := by
  have hfind : ∀ x : State, (x.stores.find? (fun e => e.id == id)).map Store.unpassed = (Machine.unseen x).stores.find? (fun e => e.id == id) := fun x => by
    show _ = (x.stores.map Store.unpassed).find? _
    rw [List.find?_map]
    rfl
  have hsame := hfind t
  rw [h.unseen, ← hfind s, hw, Option.map_some] at hsame
  obtain ⟨w', hw', he⟩ := Option.map_eq_some_iff.mp hsame
  exact ⟨w', hw', (congrArg Store.rel he :), (congrArg Store.writer he :)⟩

end

end Acquires

/-! ### Acquires (R252, R254) -/

/-- Ranges of observed stores only become more. -/
theorem mem_addObs {s : State} {e : _} (he : e ∈ s.obs) (lk : ℕ) (is ids : List ℕ) : e ∈ (addObs s lk is ids).obs := by
  have hinner : ∀ (rs : List (ℕ × ℕ)) (id : ℕ) (acc : List _), e ∈ acc → e ∈ rs.foldl (fun acc r =>
      if acc.any (fun e => e.lk == lk && e.store == id && decide (e.lo ≤ r.1) && decide (r.2 ≤ e.hi)) then acc else acc ++ [⟨lk, r.1, r.2, id⟩]) acc := by
    intro rs id
    induction rs with
    | nil => exact fun acc h => h
    | cons r rs ih =>
      intro acc h
      rw [List.foldl_cons]
      refine ih _ ?_
      split
      · exact h
      · exact List.mem_append_left _ h
  unfold addObs
  dsimp only
  generalize s.obs = obs at he
  induction ids generalizing obs with
  | nil => exact he
  | cons id ids ih => exact ih _ (hinner _ id _ he)

theorem acquires_addObs (s : State) (lk : ℕ) (is ids : List ℕ) : Acquires s (addObs s lk is ids) where
  unseen := rfl
  observes := fun lk' i id h => by
    obtain ⟨e, he, hold⟩ := List.any_eq_true.mp h
    exact List.any_eq_true.mpr ⟨e, mem_addObs he lk is ids, hold⟩

/-- An index observes the stores that it is given. -/
theorem observes_addObs (s : State) (lk i : ℕ) {ids : List ℕ} {id : ℕ} (hid : id ∈ ids) : observes (addObs s lk [i] ids) lk i id = true := by
  have hcons : ∀ (s : State) x xs, addObs s lk [i] (x :: xs) = addObs (addObs s lk [i] [x]) lk [i] xs := fun _ _ _ => rfl
  induction ids generalizing s with
  | nil => cases hid
  | cons x xs ih =>
    rw [hcons]
    rcases List.mem_cons.mp hid with rfl | hid
    · refine (acquires_addObs _ lk [i] xs).observes lk i id ?_
      have hobs : (addObs s lk [i] [id]).obs =
          if s.obs.any (fun e => e.lk == lk && e.store == id && decide (e.lo ≤ i) && decide (i ≤ e.hi)) then s.obs else s.obs ++ [⟨lk, i, i, id⟩] := rfl
      rw [observes, hobs]
      split
      · assumption
      · simp
    · exact ih _ hid

theorem acquires_acquire (s : State) (lk i : ℕ) (sc : ScopeSet) (id : ℕ) : Acquires s (acquire s lk i sc id) := by
  unfold acquire
  split
  · exact Acquires.refl s
  · split
    · exact Acquires.refl s
    · split
      · exact acquires_addObs _ _ _ _
      · exact Acquires.refl s

theorem acquires_acquireAll (s : State) (lk : ℕ) (is : List ℕ) (sc : ScopeSet) (ids : List ℕ) : Acquires s (acquireAll s lk is sc ids) :=
  Acquires.foldl (fun _ i => Acquires.foldl (fun _ id => acquires_acquire _ lk i sc id) _ _) _ _

theorem acquires_passBy (s : State) (lk i : ℕ) (sc : ScopeSet) (sp : Space) (a n : ℕ) : Acquires s (passBy s lk i sc sp a n) := by
  unfold passBy
  dsimp only
  split
  · exact Acquires.refl s
  · refine ⟨?_, fun _ _ _ h => h⟩
    unfold unseen updWhere
    dsimp only
    rw [List.map_map]
    have hsame : ∀ e ∈ s.stores, (Store.unpassed ∘ fun x => if ((passedBy s lk i sc sp a n).map (fun e => e.id)).contains x.id then { x with passes := x.passes + 1 } else x) e = e.unpassed :=
      fun e _ => by
        rw [Function.comp_apply]
        split <;> rfl
    rw [List.map_congr_left hsame]
    rfl

/-- The acquire of a store that carries a release, where the scopes hold each other: the index observes what it carries. -/
theorem observes_acquireAll {s : State} {lk i id x : ℕ} {sc : ScopeSet} {ids : List ℕ} {w : Store} {r : RelRec} (hid : id ∈ ids)
    (hw : s.stores.find? (fun e => e.id == id) = some w) (hr : w.rel = some r) (hin : inScope r.scope lk i = true) (hwriter : writerIn s sc w.writer = true) (hx : x ∈ r.set) :
    observes (acquireAll s lk [i] sc ids) lk i x = true := by
  refine Acquires.foldl_of_mem (P := fun a => observes a lk i x = true) (fun _ id => acquires_acquire _ lk i sc id) (fun a b h => h.observes lk i x) hid fun a ha => ?_
  obtain ⟨w', hw', hrel, hwr⟩ := ha.find_store hw
  unfold acquire
  simp only [hw', hrel.trans hr, hin, hwr, ha.writerIn, hwriter, Bool.and_self, if_true]
  exact observes_addObs a lk i hx

end Sys2Proof.Machine
end

section
/-! PROOFS. LDA and PREF (O37). -/

namespace Sys2Proof

open Sys2Proof.Machine

/-! ### LDA (R171, R252) -/

theorem stores_performLoad (s : State) (lk core : ℕ) (is : List ℕ) (sp : Space) (a n : ℕ) : (performLoad s lk core is sp a n).2.stores = s.stores := by
  unfold performLoad
  dsimp only
  split <;> rfl

theorem acquires_acquireTodo (s : State) (o : Op) (t : LoadTodo) (from_ : List ℕ) (sc : Scope) (i : ℕ) :
    Acquires s (acquireL1 o.core (scopeNow s o i sc) (acquireAll (passBy s o.lk i (scopeNow s o i sc) t.space t.addr t.size) o.lk [i] (scopeNow s o i sc) from_)) :=
  (acquires_passBy _ _ _ _ _ _ _).trans ((acquires_acquireAll _ _ _ _ _).trans (Acquires.of_cacheless (cacheless_acquireL1 _ _ _)))

/-- Each index of a load with an acquire observes what the stores that it reads carry. -/
theorem observes_acquireTodo {s : State} {o : Op} {t : LoadTodo} {from_ : List ℕ} {sc : Scope} (hacq : t.acq = some sc) {id i x : ℕ} {w : Store} {r : RelRec} (hid : id ∈ from_)
    (hw : s.stores.find? (fun e => e.id == id) = some w) (hr : w.rel = some r) (hi : i ∈ t.idxs) (hin : inScope r.scope o.lk i = true)
    (hwriter : writerIn s (scopeNow s o i sc) w.writer = true) (hx : x ∈ r.set) : observes (acquireTodo s o t from_) o.lk i x = true := by
  unfold acquireTodo
  rw [hacq]
  refine Acquires.foldl_of_mem (P := fun a => observes a o.lk i x = true) (fun a j => acquires_acquireTodo a o t from_ sc j) (fun a b h => h.observes _ _ _) hi fun a ha => ?_
  have hpast := ha.trans (acquires_passBy a o.lk i (scopeNow a o i sc) t.space t.addr t.size)
  obtain ⟨w', hw', hrel, hwr⟩ := hpast.find_store hw
  refine (Acquires.of_cacheless (cacheless_acquireL1 _ _ _)).observes _ _ _ (observes_acquireAll hid hw' (hrel.trans hr) hin ?_ hx)
  rw [hpast.writerIn, ha.scopeNow, hwr]
  exact hwriter

/-! ### PREF (R165, R170) -/

section
variable {s : State} {st : Strand} {h : Hdr} {a k : R11}

/-- The indices that PREF acts on: those that act and whose address is not poisoned. -/
def prefActs (st : Strand) (h : Hdr) (a : R11) : List ℕ := (acting st h.g).filter (fun i => !(poisonedAt st a.toNat i || poisonedAt st (a.toNat + 1) i))

/-- What PREF finds at the addresses of these indices. -/
def prefAccesses (s : State) (st : Strand) (h : Hdr) (a k : R11) : List (ℕ × AccRes) :=
  (prefActs st h a).map (fun i => (i, accessOf s st (atIdx (present st) (addresses st a.toNat (immS k)) i) 1 false))

/-- The translation that an access misses. -/
def missed (x : ℕ × AccRes) : Option ℕ := match x.2 with | .miss p => some p | _ => none

/-- The location that a prefetch reaches. -/
def reached (x : ℕ × AccRes) : Option (ℕ × Space × ℕ) := match x.2 with | .ok sp y => some (x.1, sp, y) | _ => none

/-- The machine once the fills of the lines that PREF reaches have begun. -/
def prefetched (s : State) (st : Strand) (h : Hdr) (a k : R11) : State :=
  (linesOf 0 ((prefAccesses s st h a k).filterMap reached)).foldl (fun x l => prefetchLine st.core x l.1) (dropRes s st.sid)

/-- PREF once its address has arrived: the walk for the first translation that is missing, or the fills. -/
theorem exec_pref (c : Issuing s st) (hready : mustWait s st [a.toNat, a.toNat + 1] (guardReads h.g) = false) :
    exec (.pref h a k) s = finish (match (prefAccesses s st h a k).findSome? missed with
      | some p => startWalk s st p
      | none => advance (prefetched s st h a k) st.sid 8) := by
  have hacts : (acting st h.g).filter (fun i => !([a.toNat, a.toNat + 1].any (fun r => poisonedAt st r i))) = prefActs st h a := by
    simp only [prefActs, List.any_cons, List.any_nil, Bool.or_false]
  show execPref h a k s = _
  unfold execPref
  rw [onCur_issuing c]
  dsimp only
  rw [hready, hacts]
  simp only [Bool.false_eq_true, if_false]
  rfl

/-- A PREF that misses no translation starts its fills and moves on. -/
theorem pref_moves_on (c : Issuing s st) (hready : mustWait s st [a.toNat, a.toNat + 1] (guardReads h.g) = false)
    (hhit : ∀ i ∈ prefActs st h a, ∀ p, accessOf s st (atIdx (present st) (addresses st a.toNat (immS k)) i) 1 false ≠ .miss p) :
    ∃ t, exec (.pref h a k) s = .next t ∧ sameBytes s t ∧ t.strands = (advance s st.sid 8).strands ∧ t.ops = s.ops ∧ t.stores = s.stores ∧ t.stops = s.stops := by
  have hnone : (prefAccesses s st h a k).findSome? missed = none := by
    refine List.findSome?_eq_none_iff.mpr fun x hx => ?_
    obtain ⟨i, hi, rfl⟩ := List.mem_map.mp hx
    unfold missed
    dsimp only
    split
    · rename_i p hp
      exact absurd hp (hhit i hi p)
    · rfl
  have hfills : Begun s (prefetched s st h a k) st :=
    cacheless_foldl (fun _ _ => cacheless_prefetchLine _ _ _) _ _
  have haddr : (prefetched s st h a k).badAddr = none := (congrArg State.badAddr hfills :).trans c.addr
  refine ⟨advance (prefetched s st h a k) st.sid 8, ?_, sameBytes_of_cacheless (s := dropRes s st.sid) (t := prefetched s st h a k) hfills, congrArg (updWhere _ _) hfills.strands, hfills.ops, hfills.stores, (congrArg State.stops hfills :)⟩
  rw [exec_pref c hready, hnone]
  exact finish_next haddr

/-- A PREF whose first translation is missing waits for its walk. -/
theorem pref_waits (c : Issuing s st) (hready : mustWait s st [a.toNat, a.toNat + 1] (guardReads h.g) = false) {i p : ℕ} {rest : List ℕ} (hacts : prefActs st h a = i :: rest)
    (hmiss : accessOf s st (atIdx (present st) (addresses st a.toNat (immS k)) i) 1 false = .miss p) : exec (.pref h a k) s = .next (startWalk s st p) := by
  have hfirst : (prefAccesses s st h a k).findSome? missed = some p := by
    unfold prefAccesses
    rw [hacts, List.map_cons, List.findSome?_cons]
    simp only [missed, hmiss]
  rw [exec_pref c hready, hfirst]
  exact finish_next (by simpa using c.addr)

end

/-- LDA issues its loads, each with its acquire. -/
theorem lda_issues {s : State} {st : Strand} {h : Hdr} {d a k : R11} {wide : Bool} {sc : Scope} {locs : List (ℕ × Space × ℕ)} {n : ℕ} (hn : n = if wide then 8 else 4)
    (c : Clear s st h.g [a.toNat, a.toNat + 1] (List.range' d.toNat (n / 4)) false) (hne : acting st h.g ≠ [])
    (hfit : d.toNat + n / 4 ≤ budgetOf s st ∨ presentCount st = 1 ∨ (addrU st a.toNat = true ∧ (acting st h.g).length = presentCount st)) (hroom : roomFor s st .l false = true)
    (perm : Permitted (fun x => accessOf s st x n false) (acting st h.g) (atIdx (present st) (addresses st a.toNat (immS k))) locs) :
    exec (.lda h d a k wide sc) s =
      .next (issueLoad (some d.toNat) n false (addrU st a.toNat) (some sc) 8 (touch st a.toNat false 0 (dropRes s st.sid) locs) st locs) := by
  subst hn
  have heq := exec_lda (k := k) (sc := sc) c
  rw [loading_some hne hfit hroom, withAccesses_permitted c perm, checkLoad_eq (before := dropRes s st.sid) hfit hne] at heq
  exact heq.trans (finish_next (by simpa using c.addr))

/-- Settles O37: LDA issues its loads as LD does; the acquires of a load change what the indices observe and nothing that the scopes rest on. -/
theorem acquireAndPrefetch : Obligations.AcquireAndPrefetch := by
  refine ⟨?_, ?_, ?_⟩
  · intro h d a k wide sc s st act n u c
    refine ⟨fun hact => ?_, fun locs hne hfit hroom perm => ⟨_, lda_issues rfl c hne hfit hroom perm, rfl, fun q => ?_⟩⟩
    · rw [exec_lda c, loading_none hact]
      exact finish_advance c.toIssuing 8
    · exact issueLoad_issued c.here q (begun_touch s st _ _ _ _) perm.1 hne _ _ _ _ _ _
  · intro s o t sc hacq r id hid w rec hw hrel i hi hin hwriter x hx
    exact observes_acquireTodo hacq hid hw hrel hi hin hwriter hx
  · intro h a k s st c hready va act
    exact ⟨pref_moves_on c hready, fun i rest p => pref_waits c hready⟩

end Sys2Proof
end

section
/-! PROOFS. FENCE (O44). -/

namespace Sys2Proof

open Sys2Proof.Machine

/-! ### FENCE `.rel` (R253, R255) -/

theorem relOf_setRel_same (s : State) (lk i : ℕ) (r : RelRec) : relOf (setRel s lk i r) lk i = some r := by
  simp [relOf, setRel]

theorem relOf_setRel_other (s : State) (lk : ℕ) {i j : ℕ} (hij : i ≠ j) (r : RelRec) : relOf (setRel s lk j r) lk i = relOf s lk i := by
  unfold relOf setRel
  rw [List.find?_cons_of_neg (by simp; omega), List.find?_filter]
  congr 2
  funext e
  rw [Bool.eq_iff_iff]
  simp only [Bool.and_eq_true, Bool.not_eq_true', Bool.and_eq_false_iff, beq_iff_eq, beq_eq_false_iff_ne, decide_eq_true_eq]
  omega

/-- Releases of some indices: each has the record that it would have alone, and nothing but the records has changed. -/
theorem foldl_fenceRel (st : Strand) (sc : Scope) {is : List ℕ} (nd : is.Nodup) (s : State) :
    let t := is.foldl (fenceRel st sc) s
    { t with rels := s.rels } = s ∧ (∀ i ∈ is, relOf t st.lk i = some (releaseRec s st i sc)) ∧ ∀ i ∉ is, relOf t st.lk i = relOf s st.lk i := by
  induction is generalizing s with
  | nil => exact ⟨rfl, fun i hi => absurd hi List.not_mem_nil, fun _ _ => rfl⟩
  | cons j js ih =>
    obtain ⟨hj, hjs⟩ := List.nodup_cons.mp nd
    obtain ⟨hrest, hrels, hothers⟩ := ih hjs (fenceRel st sc s j)
    dsimp only
    rw [List.foldl_cons]
    refine ⟨(congrArg (fun x : State => { x with rels := s.rels }) hrest :), fun i hi => ?_, fun i hi => ?_⟩
    · rcases List.mem_cons.mp hi with rfl | hi
      · rw [hothers i hj]
        exact relOf_setRel_same s st.lk i _
      · exact hrels i hi
    · obtain ⟨hij, hi⟩ := List.ne_and_not_mem_of_not_mem_cons hi
      rw [hothers i hi]
      exact relOf_setRel_other s st.lk hij _

/-! ### FENCE `.acq` (R252, R255) -/

theorem acquires_passByAll (s : State) (st : Strand) (sc : ScopeSet) (i : ℕ) :
    Acquires s ((s.reads.filter (fun e => e.lk == st.lk && decide (e.lo ≤ i) && decide (i ≤ e.hi))).foldl (fun a e => passBy a st.lk i sc e.space e.addr e.size) s) :=
  Acquires.foldl (fun _ _ => acquires_passBy _ _ _ _ _ _ _) _ _

theorem acquires_fenceAcq (st : Strand) (sc : Scope) (s : State) (i : ℕ) : Acquires s (fenceAcq st sc s i) :=
  (acquires_passByAll s st _ i).trans (acquires_acquireAll _ _ _ _ _)

/-- A fence of index i acquires what the stores carry that it has read. -/
theorem observes_fenceAcq {st : Strand} {sc : Scope} {s : State} {i id x : ℕ} {w : Store} {r : RelRec} (hid : id ∈ readsOf s st.lk i) (hw : s.stores.find? (fun e => e.id == id) = some w)
    (hr : w.rel = some r) (hin : inScope r.scope st.lk i = true) (hwriter : writerIn s (scopeOf s st sc) w.writer = true) (hx : x ∈ r.set) :
    observes (fenceAcq st sc s i) st.lk i x = true := by
  have hpast := acquires_passByAll s st (scopeOf s st sc) i
  obtain ⟨w', hw', hrel, hwr⟩ := hpast.find_store hw
  refine observes_acquireAll hid hw' (hrel.trans hr) hin ?_ hx
  rw [hpast.writerIn, hwr]
  exact hwriter

/-- Settles O44: the releases change the records alone, and the acquires what the indices observe. -/
theorem fences : Obligations.Fences := by
  intro h k sc s st c S s0 s1
  refine ⟨?_, ?_, ?_⟩
  · show execFence h k sc s = _
    unfold execFence
    rw [strandFrame_collective c]
    refine finish_next ?_
    have hs1 : s1.badAddr = none := by
      refine (foldl_badAddr _ _ _ fun a i => badAddr_fenceStep k st sc a i).trans ?_
      show (if k = .acq then performLoads s st else releaseL1 st.core S (performLoads s st)).badAddr = none
      split <;> simpa using c.addr
    show (advance (if k = .rel then s1 else acquireL1 st.core S s1) st.sid 8).badAddr = none
    split <;> simpa using hs1
  · rintro rfl
    obtain ⟨hrest, hrels, -⟩ := foldl_fenceRel st sc (nodup_present st) s0
    exact ⟨SameHomes.sameBytes ⟨(congrArg State.hostMem hrest :), (congrArg State.teams hrest :)⟩ (congrArg State.mem hrest :), fun i hi => ⟨_, hrels i hi, rfl, rfl⟩⟩
  · rintro rfl
    have hall : Acquires s0 s1 := Acquires.foldl (fun a i => acquires_fenceAcq st sc a i) _ _
    refine ⟨hall.sameBytes, fun i hi => ⟨hall.observes st.lk i, fun id hid w r hw hr hin hwriter x hx => ?_⟩⟩
    refine Acquires.foldl_of_mem (P := fun a => observes a st.lk i x = true) (fun a i => acquires_fenceAcq st sc a i) (fun a b hab => hab.observes _ _ _) hi fun a ha => ?_
    obtain ⟨w', hw', hrel, hwr⟩ := ha.find_store hw
    refine observes_fenceAcq (ha.readsOf st.lk i ▸ hid) hw' (hrel.trans hr) hin ?_ hx
    have hscope : scopeOf a st sc = scopeOf s0 st sc := ha.scopeAt _ _ _ _
    rw [ha.writerIn, hscope, hwr]
    exact hwriter

end Sys2Proof
end

section
/-! PROOFS. Stores as they are issued (R155, R169, R249): what is left of them, and how they enter where nothing of their indices is outstanding. -/

namespace Sys2Proof

open Sys2Proof.Machine

/-! ### The newest operation -/

/-- What is changed of the newest operation is changed there alone, where no other has its identity. -/
theorem updOp_last {s : State} {os : List Op} {o : Op} (hops : s.ops = os ++ [o]) (hnew : ∀ x ∈ os, x.oid ≠ o.oid) (f : Op → Op) : (updOp s o.oid f).ops = os ++ [f o] := by
  have hold : ∀ x ∈ os, (if x.oid == o.oid then f x else x) = x := fun x hx => if_neg (by simpa using hnew x hx)
  unfold updOp updWhere
  dsimp only
  rw [hops, List.map_append, List.map_congr_left hold, List.map_id']
  simp

/-! ### Stores as they are issued (R155, R169, R249) -/

/-- The operation of a store, with what it has left to enter and to set. -/
def storesOp (s : State) (st : Strand) (is : List ℕ) (todo : List StoreTodo) (sets : List SetTodo) : Op := { issuedOp s st .s is (.stores todo) with sets := sets }

/-- The machine with the operation of a store that is left to enter. -/
def leftStores (s : State) (st : Strand) (is : List ℕ) (todo : List StoreTodo) (sets : List SetTodo) : State :=
  { (addOp s st .s is (.stores todo) false).2 with ops := s.ops ++ [storesOp s st is todo sets], choices := s.choices.drop 1 }

theorem issueStores_eq {s : State} (given : ∀ o ∈ s.ops, o.oid < s.nextId) (st : Strand) (is : List ℕ) (todo : List StoreTodo) (sets : List SetTodo) :
    issueStores s st is todo sets =
      if s.choices.headD 0 % 2 = 0 then performFor (leftStores s st is todo sets) st.lk is (s.nextId + 1) else leftStores s st is todo sets := by
  have hops : (updOp (addOp s st .s is (.stores todo) false).2 s.nextId (fun o => { o with sets := sets })).ops = s.ops ++ [storesOp s st is todo sets] :=
    updOp_last (o := issuedOp s st .s is (.stores todo)) (addOp_ops s st .s is _) (fun x hx => Nat.ne_of_lt (given x hx)) _
  have hleft : { updOp (addOp s st .s is (.stores todo) false).2 s.nextId (fun o => { o with sets := sets }) with choices := s.choices.drop 1 } = leftStores s st is todo sets := by
    unfold leftStores
    rw [← hops]
    rfl
  rw [← hleft]
  rfl

section
variable {s : State} {st : Strand} {is : List ℕ} {todo : List StoreTodo} {sets : List SetTodo}

theorem foldl_insertNat_of_subset {xs ys : List ℕ} (h : xs ⊆ ys) : xs.foldl insertNat ys = ys := by
  induction xs with
  | nil => rfl
  | cons x xs ih =>
    obtain ⟨hx, hxs⟩ := List.cons_subset.mp h
    rw [List.foldl_cons, insertNat, if_pos (List.contains_iff_mem.mpr hx)]
    exact ih hxs

theorem meet_self_of_subset {xs ys : List ℕ} (h : xs ⊆ ys) (hne : xs ≠ []) : meet xs ys = true := by
  obtain ⟨x, hx⟩ := List.exists_mem_of_ne_nil xs hne
  exact List.any_eq_true.mpr ⟨x, hx, List.contains_iff_mem.mpr (h hx)⟩

/-- What shares its parts with no index beside is shared by none. -/
theorem sharers_own {o : Op} {left : List StoreTodo} (hbody : o.body = .stores left) (hleft : ∀ t ∈ left, t.idxs ⊆ is) (hsets : ∀ t ∈ o.sets, t.idxs ⊆ is) (os : List Op) :
    sharers (os ++ [o]) is = sharers os is := by
  have hsame : ∀ xs : List (List ℕ), (∀ x ∈ xs, x ⊆ is) → xs.foldl (fun a x => if meet x a then x.foldl insertNat a else a) is = is := by
    intro xs hxs
    induction xs with
    | nil => rfl
    | cons x xs ih =>
      rw [List.foldl_cons, foldl_insertNat_of_subset (hxs x List.mem_cons_self), ite_self]
      exact ih fun y hy => hxs y (List.mem_cons_of_mem _ hy)
  have hmine : (left.map (fun t => t.idxs) ++ o.sets.map (fun t => t.idxs)).foldl (fun a x => if meet x a then x.foldl insertNat a else a) is = is := by
    refine hsame _ fun x hx => ?_
    rcases List.mem_append.mp hx with hx | hx
    · obtain ⟨t, ht, rfl⟩ := List.mem_map.mp hx
      exact hleft t ht
    · obtain ⟨t, ht, rfl⟩ := List.mem_map.mp hx
      exact hsets t ht
  unfold sharers
  rw [List.foldr_append, List.foldr_cons, List.foldr_nil]
  simp only [hbody, hmine]

/-- The stores of a quiet strand that enter at once: just they are performed, and then their settings. -/
theorem performFor_leftStores (q : Quiet s st) (his : is ⊆ present st) (hne : is ≠ []) (htodo : ∀ t ∈ todo, t.idxs ⊆ is ∧ t.idxs ≠ []) (hsets : ∀ t ∈ sets, t.idxs ⊆ is ∧ t.idxs ≠ []) :
    performFor (leftStores s st is todo sets) st.lk is (s.nextId + 1) =
      sets.foldl (fun a t => performSet a (storesOp s st is todo sets) t) (todo.foldl (fun a t => enterTodo a (storesOp s st is todo sets) t) (leftStores s st is todo sets)) := by
  have hlast : opOf (leftStores s st is todo sets) s.nextId = some (storesOp s st is todo sets) :=
    opOf_of_last (o := storesOp s st is todo sets) rfl fun x hx => Nat.ne_of_lt (q.given x hx)
  have hshare : sharers ((s.ops ++ [storesOp s st is todo sets]).filter (fun o => o.lk == st.lk && decide (o.oid < s.nextId + 1))) is = is := by
    rw [List.filter_append, List.filter_cons_of_pos (by simp [storesOp, issuedOp])]
    refine (sharers_own rfl (fun t ht => (htodo t ht).1) (fun t ht => (hsets t ht).1) _).trans ?_
    exact q.sharers_eq (fun _ ho => (List.mem_filter.mp ho).1) his
  have hown : (s.ops ++ [storesOp s st is todo sets]).filter (fun o => o.lk == st.lk && decide (o.oid < s.nextId + 1) && !o.done && meet o.idxs is) = [storesOp s st is todo sets] := by
    rw [List.filter_append, show s.ops.filter _ = [] from q.opsBefore_nil his (s.nextId + 1), List.filter_cons_of_pos]
    · rfl
    · simp [storesOp, issuedOp, meet_self_of_subset (List.Subset.refl is) hne]
  have htodos : todo.filter (fun t => meet t.idxs is) = todo := List.filter_eq_self.mpr fun t ht => meet_self_of_subset (htodo t ht).1 (htodo t ht).2
  have hsettings : sets.filter (fun t => meet t.idxs is) = sets := List.filter_eq_self.mpr fun t ht => meet_self_of_subset (hsets t ht).1 (hsets t ht).2
  have hperform : performFor (leftStores s st is todo sets) st.lk is (s.nextId + 1) = performOp is (leftStores s st is todo sets) s.nextId := by
    unfold performFor opsBefore
    dsimp only [leftStores]
    rw [hshare, hown]
    rfl
  rw [hperform, performOp, hlast]
  show (sets.filter _).foldl _ ((todo.filter _).foldl _ _) = _
  rw [htodos, hsettings]

/-! ### Stores that enter (R249) -/

/-- The machine but for what the entering of a store changes. -/
def beforeEntry (s x : State) : State := { x with nextId := s.nextId, obs := s.obs, stores := s.stores, ops := s.ops }

/-- Some stores of the newest operation have entered, in order, and have nothing left to it. -/
structure Entered (s x : State) (os : List Op) (o : Op) (left ts : List StoreTodo) : Prop where
  rest : beforeEntry s x = s
  stores : x.stores.map entryOf = s.stores.map entryOf ++ ts.map (fun t => (t.space, t.addr, t.bytes, some o.core))
  ops : x.ops = os ++ [{ o with body := .stores (left.filter (fun y => !ts.contains y)) }]

theorem entered_enterTodo {s x : State} {os : List Op} {o : Op} {left ts : List StoreTodo} (hnew : ∀ y ∈ os, y.oid ≠ o.oid) (e : Entered s x os o left ts) {t : StoreTodo}
    (hrel : t.release = none) : Entered s (enterTodo x o t) os o left (ts ++ [t]) := by
  have hstep : ∃ n obs w, entryOf w = (t.space, t.addr, t.bytes, some o.core) ∧ enterTodo x o t =
      updOp { x with nextId := n, obs := obs, stores := x.stores ++ [w] } o.oid
        (fun o => match o.body with | .stores left => { o with body := .stores (left.filter (fun x => x != t)) } | _ => o) := by
    unfold enterTodo
    rw [hrel]
    exact ⟨_, _, ⟨x.nextId, t.space, t.addr, t.bytes, false, .index o.lk (t.idxs.getLastD 0), some o.core, 0, [], relOf x o.lk (t.idxs.getLastD 0), 0⟩, rfl, rfl⟩
  obtain ⟨n, obs, w, hw, heq⟩ := hstep
  rw [heq]
  refine ⟨e.rest, ?_, ?_⟩
  · show (x.stores ++ [w]).map entryOf = _
    rw [List.map_append, e.stores, List.map_append, List.append_assoc]
    simp [hw]
  · have hleft : (left.filter (fun y => !ts.contains y)).filter (fun y => y != t) = left.filter (fun y => !(ts ++ [t]).contains y) := by
      rw [List.filter_filter]
      refine List.filter_congr fun y _ => ?_
      rw [Bool.eq_iff_iff]
      simp
      tauto
    rw [← hleft]
    exact updOp_last (s := { x with nextId := n, obs := obs, stores := x.stores ++ [w] }) e.ops hnew _

theorem entered_all {s x : State} {os : List Op} {o : Op} {left ts rest : List StoreTodo} (hnew : ∀ y ∈ os, y.oid ≠ o.oid) (e : Entered s x os o left ts)
    (hrel : ∀ t ∈ rest, t.release = none) : Entered s (rest.foldl (fun a t => enterTodo a o t) x) os o left (ts ++ rest) := by
  induction rest generalizing x ts with
  | nil =>
    rw [List.append_nil]
    exact e
  | cons t rest ih =>
    have h := ih (entered_enterTodo hnew e (hrel t List.mem_cons_self)) fun y hy => hrel y (List.mem_cons_of_mem _ hy)
    rwa [List.append_assoc] at h

end

/-! ### What storeLocs leaves -/

section
variable {s s1 : State} {st : Strand} {g : Guard} {u : Bool} {locs : List (ℕ × Space × ℕ)} {len : ℕ} {data : ℕ → List Byte} {rel : Option Scope} {sets : List SetTodo}

theorem flatMap_groupLocs (u : Bool) (locs : List (ℕ × Space × ℕ)) : (groupLocs u locs).flatMap (fun g => g.1) = locs.map (fun l => l.1) := by
  cases locs with
  | nil => rfl
  | cons l ls =>
    unfold groupLocs
    cases u with
    | true => simp
    | false =>
      simp only [Bool.false_eq_true, if_false]
      rw [List.flatMap_map]
      exact List.flatMap_pure_eq_map (fun l : ℕ × Space × ℕ => l.1) (l :: ls)

theorem groupLocs_ne_nil {g : List ℕ × Space × ℕ} (hg : g ∈ groupLocs u locs) : g.1 ≠ [] := by
  cases locs with
  | nil => cases hg
  | cons l ls =>
    unfold groupLocs at hg
    cases u with
    | true =>
      obtain rfl := List.mem_singleton.mp hg
      exact List.cons_ne_nil _ _
    | false =>
      obtain ⟨l, hl, rfl⟩ := List.mem_map.mp hg
      exact List.cons_ne_nil _ _

/-- Each store is of one group of accesses. -/
theorem mem_storeTodos {gs : List (List ℕ × Space × ℕ)} {t : StoreTodo} (ht : t ∈ storeTodos gs data rel) : ∃ g ∈ gs, t.idxs = g.1 ∧ t.release = rel := by
  obtain ⟨g, hg, ht⟩ := List.mem_flatMap.mp ht
  refine ⟨g, hg, ?_⟩
  dsimp only at ht
  split at ht
  · rcases List.mem_cons.mp ht with rfl | ht
    · exact ⟨rfl, rfl⟩
    · rw [List.mem_singleton.mp ht]
      exact ⟨rfl, rfl⟩
  · rw [List.mem_singleton.mp ht]
    exact ⟨rfl, rfl⟩

theorem mem_setTodos {gs : List (List ℕ × Space × ℕ)} {t : SetTodo} (ht : t ∈ setTodos gs) : (∃ g ∈ gs, g.1 ⊆ t.idxs) ∧ ∀ i ∈ t.idxs, ∃ g ∈ gs, i ∈ g.1 := by
  obtain ⟨n, hn, rfl⟩ := List.mem_map.mp ht
  obtain ⟨g, hg, he⟩ := List.mem_map.mp (List.mem_eraseDups.mp hn)
  refine ⟨⟨g, hg, fun i hi => ?_⟩, fun i hi => ?_⟩
  · exact List.mem_flatMap.mpr ⟨g, List.mem_filter.mpr ⟨hg, by simpa using he⟩, hi⟩
  · obtain ⟨g', hg', hi'⟩ := List.mem_flatMap.mp hi
    exact ⟨g', (List.mem_filter.mp hg').1, hi'⟩

end

end Sys2Proof
end

section
/-! PROOFS. Stores of a quiet strand (R155, R249), granules that stay full (R177, R258), and U addresses (R164). -/

namespace Sys2Proof

open Sys2Proof.Machine

/-! ### A store of a quiet strand (R155, R249) -/

section
variable {s s1 : State} {st : Strand} {g : Guard} {u : Bool} {locs : List (ℕ × Space × ℕ)} {len : ℕ} {data : ℕ → List Byte} {rel : Option Scope} {sets : List SetTodo}

/-- The operation of a store and what has entered of it are all that has changed. -/
theorem issued_leftStores (hs : strandOf s st.sid = some st) {is : List ℕ} {todo : List StoreTodo} {x : State} {body : OpBody}
    (hrest : beforeEntry (leftStores s st is todo sets) x = leftStores s st is todo sets) (hops : x.ops = s.ops ++ [{ storesOp s st is todo sets with body := body }]) (len : ℕ) :
    Issued s (advance x st.sid len) st len .s is body := by
  have hstrands : x.strands = (addOp s st .s is (.stores todo) false).2.strands := (congrArg State.strands hrest :)
  have hfind : ∀ id, strandOf x id = strandOf (addOp s st .s is (.stores todo) false).2 id := fun id => by rw [strandOf, hstrands]; rfl
  refine ⟨SameHomes.sameBytes (t := advance x st.sid len) ⟨(congrArg State.hostMem hrest :), (congrArg State.teams hrest :)⟩ (congrArg State.mem hrest :), ⟨fun id hid => ?_, ?_⟩, ?_⟩
  · rw [strandOf_advance_other x len hid, hfind, strandOf_addOp_other _ _ _ _ _ hid]
  · exact ⟨(congrArg State.teams hrest :), (congrArg State.gangs hrest :), (congrArg State.launches hrest :), (congrArg State.ctxs hrest :), (congrArg State.stops hrest :)⟩
  · refine ⟨{ storesOp s st is todo sets with body := body }, ?_, rfl, rfl, rfl, rfl, strandOf_advance ((hfind st.sid).trans (strandOf_addOp hs .s is _)) len⟩
    rw [advance_ops, hops]
    simp

theorem filter_not_contains_self (todo : List StoreTodo) : todo.filter (fun y => !todo.contains y) = [] :=
  List.filter_eq_nil_iff.mpr fun y hy => by simp [hy]

theorem storeLocs_eq (hact : acting st g = locs.map (fun l => l.1)) (hne : acting st g ≠ []) :
    storeLocs st len (groupLocs u locs) data rel sets s1 = advance (issueStores s1 st (acting st g) (storeTodos (groupLocs u locs) data rel) sets) st.sid len := by
  have hgs : (groupLocs u locs).isEmpty = false := by
    cases hg : groupLocs u locs with
    | nil => exact absurd (by rw [hact, ← flatMap_groupLocs u locs, hg]; rfl) hne
    | cons g gs => rfl
  unfold storeLocs
  rw [hgs, flatMap_groupLocs, hact]
  rfl

/-- What is left of the stores is of acting indices. -/
theorem storeTodos_idxs (hact : acting st g = locs.map (fun l => l.1)) {t : StoreTodo} (ht : t ∈ storeTodos (groupLocs u locs) data rel) : t.idxs ⊆ acting st g ∧ t.idxs ≠ [] := by
  obtain ⟨x, hx, hidxs, -⟩ := mem_storeTodos ht
  rw [hidxs, hact]
  exact ⟨idxs_groupLocs hx, groupLocs_ne_nil hx⟩

theorem setTodos_idxs (hact : acting st g = locs.map (fun l => l.1)) {t : SetTodo} (ht : t ∈ setTodos (groupLocs u locs)) : t.idxs ⊆ acting st g ∧ t.idxs ≠ [] := by
  obtain ⟨⟨x, hx, hin⟩, hall⟩ := mem_setTodos ht
  refine ⟨fun i hi => ?_, fun hnil => groupLocs_ne_nil hx (List.subset_nil.mp (hnil ▸ hin))⟩
  obtain ⟨y, hy, hiy⟩ := hall i hi
  rw [hact]
  exact idxs_groupLocs hy hiy

/-- Stores without a release that enter at once. -/
theorem entered_leftStores (q : Quiet s1 st) (is : List ℕ) {todo : List StoreTodo} (hrel : ∀ t ∈ todo, t.release = none) :
    Entered (leftStores s1 st is todo sets) (todo.foldl (fun a t => enterTodo a (storesOp s1 st is todo sets) t) (leftStores s1 st is todo sets)) s1.ops (storesOp s1 st is todo sets) todo todo := by
  have hnew : ∀ y ∈ s1.ops, y.oid ≠ (storesOp s1 st is todo sets).oid := fun y hy => Nat.ne_of_lt (q.given y hy)
  have hnone : todo.filter (fun y => !([] : List StoreTodo).contains y) = todo := List.filter_eq_self.mpr fun _ _ => rfl
  have hbase : Entered (leftStores s1 st is todo sets) (leftStores s1 st is todo sets) s1.ops (storesOp s1 st is todo sets) todo [] := ⟨rfl, by simp, by rw [hnone]; rfl⟩
  exact entered_all hnew hbase hrel

theorem stored_storeLocs (hs : strandOf s st.sid = some st) (q : Quiet s st) (b : Begun s s1 st) (hact : acting st g = locs.map (fun l => l.1)) (hne : acting st g ≠ []) :
    Stored s (storeLocs st len (groupLocs u locs) data none [] s1) st len (acting st g) (storeTodos (groupLocs u locs) data none) := by
  have q1 := q.of_begun b
  have hs1 : strandOf s1 st.sid = some st := (b.strandOf st.sid).trans hs
  rw [storeLocs_eq hact hne, issueStores_eq q1.given]
  split
  · rw [performFor_leftStores q1 (acting_sublist st g).subset hne (fun t ht => storeTodos_idxs hact ht) (fun t ht => absurd ht List.not_mem_nil), List.foldl_nil]
    obtain ⟨hrest, hstores, hops⟩ := entered_leftStores (sets := []) q1 (acting st g) (todo := storeTodos (groupLocs u locs) data none) fun t ht => by
      obtain ⟨x, -, -, hr⟩ := mem_storeTodos ht
      exact hr
    rw [filter_not_contains_self] at hops
    refine .inr ⟨(issued_leftStores hs1 hrest hops len).of_begun b, ?_⟩
    show (State.stores _).map entryOf = _
    rw [← b.stores]
    exact hstores
  · exact .inl ⟨(issued_leftStores hs1 rfl rfl len).of_begun b, b.stores⟩

end

/-! ### Granules that are full (R177, R258) -/

theorem teamOf_updTeam {f : Team → Team} (hf : ∀ t, (f t).lk = t.lk ∧ (f t).num = t.num) (s : State) (lk n j m : ℕ) :
    teamOf (updTeam s lk n f) j m = (teamOf s j m).map (fun t => if t.lk == lk && t.num == n then f t else t) := by
  unfold teamOf updTeam updWhere
  rw [List.find?_map]
  congr 2
  funext t
  rw [Function.comp_apply]
  split
  · rw [(hf t).1, (hf t).2]
  · rfl

/-- Every granule that is full stays full. -/
def Fuller (s t : State) : Prop := ∀ lk u g, granFull s lk u g = true → granFull t lk u g = true

namespace Fuller

theorem of_teams {s t : State} (h : t.teams = s.teams) : Fuller s t := fun lk u g hg => by
  rw [granFull, teamOf, h]
  exact hg

theorem trans {s t u : State} (h : Fuller s t) (h' : Fuller t u) : Fuller s u := fun lk n g hg => h' lk n g (h lk n g hg)

theorem foldl {α : Type} {f : State → α → State} (h : ∀ a x, Fuller a (f a x)) (xs : List α) (s : State) : Fuller s (xs.foldl f s) := by
  induction xs generalizing s with
  | nil => exact of_teams rfl
  | cons x xs ih => exact (h s x).trans (ih (f s x))

theorem of_cacheless {s t : State} (h : cacheless t = cacheless s) : Fuller s t := of_teams (congrArg State.teams h :)

theorem updTeam {f : Team → Team} (hf : ∀ t, (f t).lk = t.lk ∧ (f t).num = t.num) (hfull : ∀ t, t.full ⊆ (f t).full) (s : State) (lk n : ℕ) : Fuller s (updTeam s lk n f) := by
  intro j m g hg
  unfold granFull at hg ⊢
  rw [teamOf_updTeam hf]
  cases ht : teamOf s j m with
  | none =>
    rw [ht] at hg
    cases hg
  | some t =>
    simp only [ht, Option.map_some, Option.getD_some, List.contains_iff_mem] at hg ⊢
    split
    · exact hfull t hg
    · exact hg

end Fuller

theorem fuller_setHome (s : State) (sp : Space) (a : ℕ) (bs : List Byte) : Fuller s (setHome s sp a bs) := by
  cases sp with
  | dev => exact Fuller.of_teams rfl
  | host c => exact Fuller.of_teams rfl
  | scr lk t => exact Fuller.updTeam (fun _ => by exact ⟨rfl, rfl⟩) (fun _ => by exact List.Subset.refl _) s lk t

theorem fuller_setHomePoison (s : State) (sp : Space) (a n : ℕ) (p : Bool) : Fuller s (setHomePoison s sp a n p) := by
  cases sp with
  | dev => cases p <;> exact Fuller.of_teams rfl
  | host c => cases p <;> exact Fuller.of_teams rfl
  | scr lk t =>
    refine Fuller.updTeam (fun x => ?_) (fun x => ?_) s lk t
    · split
      · exact ⟨rfl, rfl⟩
      · split <;> exact ⟨rfl, rfl⟩
    · split
      · exact List.Subset.refl _
      · split <;> exact List.Subset.refl _

theorem fuller_drainOne (s : State) (id : ℕ) : Fuller s (drainOne s id) := by
  unfold drainOne
  split
  · exact Fuller.of_teams rfl
  · refine Fuller.trans ?_ ((fuller_setHome _ _ _ _).trans (fuller_setHomePoison _ _ _ _ _))
    exact Fuller.of_teams rfl

theorem fuller_publish (s : State) (core : ℕ) (r : RelRec) : Fuller s (publish s core r) := by
  unfold publish
  split
  · exact (Fuller.foldl fuller_drainOne _ _).trans (Fuller.of_cacheless (cacheless_releaseL1 _ _ _))
  · exact Fuller.of_teams rfl

theorem mem_insertNat_self (xs : List ℕ) (x : ℕ) : x ∈ insertNat xs x := by
  unfold insertNat
  split
  · exact List.contains_iff_mem.mp ‹_›
  · simp

theorem subset_insertNat (xs : List ℕ) (x : ℕ) : xs ⊆ insertNat xs x := by
  unfold insertNat
  split
  · exact List.Subset.refl _
  · exact List.subset_append_left _ _

theorem fuller_fillGranule (s : State) (lk u g : ℕ) (w : Writer) (r : RelRec) : Fuller s (fillGranule s lk u g w r) :=
  Fuller.trans (t := setFull s lk u g true) (Fuller.updTeam (f := fun t => { t with full := if true then insertNat t.full g else t.full.filter (fun x => x != g) })
    (fun _ => ⟨rfl, rfl⟩) (fun t => subset_insertNat t.full g) s lk u) (Fuller.of_teams rfl)

theorem granFull_fillGranule {s : State} {lk u : ℕ} (hteam : (teamOf s lk u).isSome = true) (g : ℕ) (w : Writer) (r : RelRec) : granFull (fillGranule s lk u g w r) lk u g = true := by
  obtain ⟨t, ht⟩ := Option.isSome_iff_exists.mp hteam
  have hkey : t.lk = lk ∧ t.num = u := by simpa using List.find?_some ht
  have hfilled : teamOf (fillGranule s lk u g w r) lk u = some { t with full := insertNat t.full g } := by
    refine (teamOf_updTeam (f := fun t => { t with full := if true then insertNat t.full g else t.full.filter (fun x => x != g) }) (fun _ => ⟨rfl, rfl⟩) s lk u lk u).trans ?_
    rw [ht]
    simp [hkey]
  rw [granFull, hfilled]
  simpa using mem_insertNat_self t.full g

theorem fuller_performSet (s : State) (o : Op) (t : SetTodo) : Fuller s (performSet s o t) := by
  have hfill : Fuller s (fillBy s o.lk o.core o.team t.idxs t.team t.gran) := by
    unfold fillBy
    exact (fuller_publish _ _ _).trans (fuller_fillGranule _ _ _ _ _ _)
  exact hfill.trans (Fuller.of_teams rfl)

theorem isSome_teamOf_of_kept {s t : State} (h : Kept s t) {lk n : ℕ} (hs : (teamOf s lk n).isSome = true) : (teamOf t lk n).isSome = true := by
  have hteam := congrArg Option.isSome (h.teamOf lk n)
  rw [Option.isSome_map, Option.isSome_map] at hteam
  exact hteam.trans hs

/-- A setting fills its granule, where the team has one. -/
theorem granFull_performSet {s : State} {o : Op} {t : SetTodo} (hteam : (teamOf s o.lk t.team).isSome = true) : granFull (performSet s o t) o.lk t.team t.gran = true := by
  have hfill : granFull (fillBy s o.lk o.core o.team t.idxs t.team t.gran) o.lk t.team t.gran = true := by
    unfold fillBy
    exact granFull_fillGranule (isSome_teamOf_of_kept (kept_publish _ _ _) hteam) _ _ _
  exact hfill

/-- Settings that are made one after another: each has filled its granule. -/
theorem granFull_performSets {s : State} {o : Op} {sets : List SetTodo} {t : SetTodo} (ht : t ∈ sets) (hteam : (teamOf s o.lk t.team).isSome = true) :
    granFull (sets.foldl (fun a t => performSet a o t) s) o.lk t.team t.gran = true := by
  induction sets generalizing s with
  | nil => cases ht
  | cons x xs ih =>
    rw [List.foldl_cons]
    rcases List.mem_cons.mp ht with rfl | ht
    · exact Fuller.foldl (fun a y => fuller_performSet a o y) xs _ _ _ _ (granFull_performSet hteam)
    · exact ih ht (isSome_teamOf_of_kept (kept_performSet s o x) hteam)

/-! ### U addresses (R164, R174) -/

theorem alookup_zip_map {α β : Type} [DecidableEq α] (f : α → β) {is : List α} {i : α} (hi : i ∈ is) : alookup (is.zip (is.map f)) i = some (f i) := by
  induction is with
  | nil => cases hi
  | cons j js ih =>
    rw [List.map_cons, List.zip_cons_cons, alookup]
    by_cases hji : j = i
    · rw [if_pos hji, hji]
    · rw [if_neg hji]
      exact ih ((List.mem_cons.mp hi).resolve_left fun h => hji h.symm)

/-- A register of U form has one value at every present index. -/
theorem opndVals_uReg {st : Strand} {r : ℕ} {w : Word} (hu : uReg st r = some w) : opndVals st (.v r 1) = (present st).map (fun _ => joinWords [w]) := by
  have hvals : regVals st r = (present st).map (fun _ => w) := by
    have hform : vform st r = .u w := by
      unfold uReg at hu
      split at hu
      · rename_i x hx
        rw [hx, Option.some.inj hu]
      · cases hu
    rw [regVals, hform]
    rfl
  have hrow : ∀ k ∈ List.range (presentCount st), [nth (regVals st r) k 0] = [w] := fun k hk => by
    have hlt : k < (present st).length := by
      rw [length_present]
      exact List.mem_range.mp hk
    rw [hvals, nth, List.getD_eq_getElem _ _ (by simpa using hlt), List.getElem_map]
  show ((List.range (presentCount st)).map (fun k => [nth (regVals st r) k 0])).map joinWords = _
  rw [List.map_congr_left hrow, List.map_const', List.map_replicate, List.map_const', List.length_range, length_present]

theorem scratchAddrs_uReg {st : Strand} {r : ℕ} (hu : (uReg st r).isSome = true) (k : ℤ) : ∃ x, ∀ i ∈ present st, atIdx (present st) (scratchAddrs st r k) i = x := by
  obtain ⟨w, hw⟩ := Option.isSome_iff_exists.mp hu
  refine ⟨wrapTo 32 ((joinWords [w] : ℕ) + k), fun i hi => ?_⟩
  have hmap : scratchAddrs st r k = (present st).map (fun _ => wrapTo 32 ((joinWords [w] : ℕ) + k)) := by
    unfold scratchAddrs
    rw [opndVals_uReg hw, List.map_map]
    rfl
  rw [atIdx, hmap, alookup_zip_map _ hi]
  rfl

end Sys2Proof
end

section
/-! PROOFS. ST and STS (O39). -/

namespace Sys2Proof

open Sys2Proof.Machine

/-! ### The locations of STS (R174, R177) -/

/-- A scratch location that is permitted is of a team of the launch that there is. -/
theorem scratchAt_ok {s : State} {st : Strand} {x n a : ℕ} {sp : Space} (hn : 0 < n) (h : scratchAt s st x n = .ok sp a) :
    ∃ m, sp = .scr st.lk m ∧ (teamOf s st.lk m).isSome = true := by
  have hsize : ∀ m k, 0 < k → k ≤ ((teamOf s st.lk m).map (fun y => y.kernel.scratch)).getD 0 → (teamOf s st.lk m).isSome = true := fun m k hk hle => by
    cases ht : teamOf s st.lk m with
    | none =>
      rw [ht] at hle
      exact absurd hle (by simpa using hk.ne')
    | some t => rfl
  unfold scratchAt at h
  split at h
  · cases h
  · split at h
    · cases h
    · rename_i m hm
      dsimp only at h
      split at h
      · rename_i hle
        obtain ⟨rfl, rfl⟩ := AccRes.ok.inj h
        exact ⟨m, rfl, hsize m _ (by omega) hle⟩
      · split at h
        · rename_i u hu
          split at h
          · rename_i hle
            obtain ⟨rfl, rfl⟩ := AccRes.ok.inj h
            simp only [Bool.and_eq_true, decide_eq_true_eq] at hle
            exact ⟨u, rfl, hsize u _ (by omega) hle.2⟩
          · cases h
        · cases h

/-- Accesses at one address are at one location. -/
theorem same_locs {res : ℕ → AccRes} {act : List ℕ} {va : ℕ → ℕ} {locs : List (ℕ × Space × ℕ)} (perm : Permitted res act va locs) {x : ℕ} (hx : ∀ i ∈ act, va i = x)
    {l l' : ℕ × Space × ℕ} (hl : l ∈ locs) (hl' : l' ∈ locs) : l.2 = l'.2 := by
  obtain ⟨hact, hok⟩ := perm
  have hva : ∀ y ∈ locs, va y.1 = x := fun y hy => hx y.1 (hact ▸ List.mem_map_of_mem hy)
  have h := (hok l hl).symm.trans ((congrArg res ((hva l hl).trans (hva l' hl').symm)).trans (hok l' hl'))
  obtain ⟨hsp, ha⟩ := AccRes.ok.inj h
  exact Prod.ext hsp ha

/-- Each location is that of a group of accesses, where one group holds none but accesses at one location. -/
theorem exists_group {u : Bool} {locs : List (ℕ × Space × ℕ)} (hsame : u = true → ∀ l ∈ locs, ∀ l' ∈ locs, l.2 = l'.2) {l : ℕ × Space × ℕ} (hl : l ∈ locs) :
    ∃ g ∈ groupLocs u locs, g.2 = l.2 := by
  cases locs with
  | nil => cases hl
  | cons x xs =>
    unfold groupLocs
    cases u with
    | true => exact ⟨_, List.mem_singleton.mpr rfl, hsame rfl x List.mem_cons_self l hl⟩
    | false => exact ⟨_, List.mem_map.mpr ⟨l, hl, rfl⟩, rfl⟩

theorem exists_setTodo {gs : List (List ℕ × Space × ℕ)} {g : List ℕ × Space × ℕ} (hg : g ∈ gs) : ∃ t ∈ setTodos gs, t.team = (spaceTeam g.2.1).2 ∧ t.gran = g.2.2 / 16 :=
  ⟨_, List.mem_map.mpr ⟨((spaceTeam g.2.1).2, g.2.2 / 16), List.mem_eraseDups.mpr (List.mem_map.mpr ⟨g, hg, rfl⟩), rfl⟩, rfl, rfl⟩

section
variable {s s1 : State} {st : Strand} {h : Hdr} {a k : R11} {b : Src} {z : MemSz} {zs : ScrSz} {f : StsQual} {nt u : Bool} {locs : List (ℕ × Space × ℕ)} {len : ℕ} {data : ℕ → List Byte}

/-- Settings behind stores that enter at once: each granule is full. -/
theorem granFull_settings (q : Quiet s1 st) (is : List ℕ) {todo : List StoreTodo} {sets : List SetTodo} (hrel : ∀ t ∈ todo, t.release = none) {t : SetTodo} (ht : t ∈ sets)
    (hteam : (teamOf s1 st.lk t.team).isSome = true) :
    granFull (sets.foldl (fun a t => performSet a (storesOp s1 st is todo sets) t)
      (todo.foldl (fun a t => enterTodo a (storesOp s1 st is todo sets) t) (leftStores s1 st is todo sets))) st.lk t.team t.gran = true := by
  obtain ⟨hrest, -, -⟩ := entered_leftStores (sets := sets) q is hrel
  have hteams : (todo.foldl (fun a t => enterTodo a (storesOp s1 st is todo sets) t) (leftStores s1 st is todo sets)).teams = s1.teams := (congrArg State.teams hrest :)
  refine granFull_performSets (o := storesOp s1 st is todo sets) ht ?_
  rw [teamOf, hteams]
  exact hteam

/-- Stores with settings behind them: both are left, or the granules are full (R177, R258). -/
theorem setting_storeLocs {g : Guard} (hs : strandOf s st.sid = some st) (q : Quiet s st) (hb : Begun s s1 st) (hact : acting st g = locs.map (fun l => l.1)) (hne : acting st g ≠ [])
    (hteams : ∀ l ∈ locs, ∃ m, l.2.1 = .scr st.lk m ∧ (teamOf s1 st.lk m).isSome = true) (hsame : u = true → ∀ l ∈ locs, ∀ l' ∈ locs, l.2 = l'.2) :
    let gs := groupLocs u locs
    let t := storeLocs st len gs data none (setTodos gs) s1
    (t.stores = s.stores ∧ Issued s t st len .s (acting st g) (.stores (storeTodos gs data none)) ∧ ∃ o, t.ops.getLast? = some o ∧ o.sets = setTodos gs) ∨
      ∀ l ∈ locs, granFull t (spaceTeam l.2.1).1 (spaceTeam l.2.1).2 (l.2.2 / 16) = true := by
  have q1 := q.of_begun hb
  have hs1 : strandOf s1 st.sid = some st := (hb.strandOf st.sid).trans hs
  dsimp only
  rw [storeLocs_eq hact hne, issueStores_eq q1.given]
  split
  · refine .inr fun l hl => ?_
    rw [performFor_leftStores q1 (acting_sublist st g).subset hne (fun t ht => storeTodos_idxs hact ht) (fun t ht => setTodos_idxs hact ht)]
    obtain ⟨x, hx, he⟩ := exists_group hsame hl
    obtain ⟨t, ht, hteam, hgran⟩ := exists_setTodo hx
    obtain ⟨m, hsp, hm⟩ := hteams l hl
    have hteam' : t.team = m := hteam.trans (by rw [he, hsp]; rfl)
    have hfull := granFull_settings q1 (acting st g) (todo := storeTodos (groupLocs u locs) data none) (fun t ht => by
      obtain ⟨x, -, -, hr⟩ := mem_storeTodos ht
      exact hr) ht (hteam' ▸ hm)
    rw [hsp, ← he, ← hgran]
    exact hteam' ▸ hfull
  · refine .inl ⟨hb.stores, (issued_leftStores (sets := setTodos (groupLocs u locs)) hs1 rfl rfl len).of_begun hb, storesOp s1 st (acting st g) (storeTodos (groupLocs u locs) data none) (setTodos (groupLocs u locs)), ?_, rfl⟩
    rw [advance_ops]
    simp [leftStores]

/-! ### ST and STS -/

/-- A store, if any index acts, and with room (R155). -/
def storing (s : State) (st : Strand) (act : List ℕ) (len : ℕ) (X : State) : State :=
  if act.isEmpty then advance s st.sid len else if !roomFor s st .s false then waitRoom s st.sid .s false else X

theorem storing_none {act : List ℕ} {X : State} (hact : act = []) : storing s st act len X = advance s st.sid len := by
  simp [storing, hact]

theorem storing_some {act : List ℕ} {X : State} (hne : act ≠ []) (hroom : roomFor s st .s false = true) : storing s st act len X = X := by
  simp [storing, hne, hroom]

/-- ST, where its registers have arrived and are not poisoned. -/
theorem exec_st (c : Clear s st h.g ([a.toNat, a.toNat + 1] ++ storeRegs b (szBytes z)) [] false) :
    exec (.st h a b k z nt) s = finish (storing s st (acting st h.g) (srcLen b)
      (withAccesses s st ([a.toNat, a.toNat + 1] ++ storeRegs b (szBytes z)) (acting st h.g) (atIdx (present st) (addresses st a.toNat (immS k)))
        (fun s st x => accessOf s st x (szBytes z) true) (srcLen b) (accessCode 2 (szBytes z)) (fun s' st' locs =>
          storeLocs st' (srcLen b) (groupLocs (addrU st' a.toNat) locs) (storeData st' b (szBytes z)) none [] (touch st' a.toNat nt (szBytes z) s' locs)))) := by
  show execSt h a b k z nt s = _
  unfold execSt
  exact (memFrame_clear c _).trans rfl

/-- What STS does at its locations: its stores, with or without settings, or the beginning of a wait for granules (R176, R177). -/
def stsAt (b : Src) (zs : ScrSz) (f : StsQual) (u : Bool) (s : State) (st : Strand) (locs : List (ℕ × Space × ℕ)) : State :=
  match f with
  | .plain => storeLocs st (srcLen b) (groupLocs u locs) (storeData st b (scrBytes zs)) none [] s
  | .set => storeLocs st (srcLen b) (groupLocs u locs) (storeData st b (scrBytes zs)) none (setTodos (groupLocs u locs)) s
  | .fill =>
    if locs.isEmpty then advance s st.sid (srcLen b)
    else beginGranule (performLoads s st) st ⟨.fill, 0, 0, srcLen b, 0, 0,
      (groupLocs u locs).map (fun g => ⟨g.1, (spaceTeam g.2.1).1, (spaceTeam g.2.1).2, g.2.2, scrBytes zs, storeData st b (scrBytes zs) (g.1.getLastD 0), false⟩), [], []⟩

/-- STS, likewise; the strand is placed, if any index acts. -/
theorem exec_sts (c : Clear s st h.g ([a.toNat] ++ storeRegs b (scrBytes zs)) [] false) (hteam : acting st h.g ≠ [] → st.team.isSome = true) :
    exec (.sts h a b k zs f) s = finish (storing s st (acting st h.g) (srcLen b)
      (withAccesses s st ([a.toNat] ++ storeRegs b (scrBytes zs)) (acting st h.g) (atIdx (present st) (scratchAddrs st a.toNat (immS k)))
        (fun s st x => scratchAt s st x (scrBytes zs)) (srcLen b) (accessCode 2 (scrBytes zs)) (stsAt b zs f (uReg st a.toNat).isSome))) := by
  show execSts h a b k zs f s = _
  unfold execSts
  refine (memFrame_clear c _).trans (congrArg finish ?_)
  unfold storing
  by_cases hne : acting st h.g = []
  · simp only [hne, List.isEmpty_nil, if_true]
  · have hplaced : st.team.isNone = false := by simpa using hteam hne
    dsimp only
    rw [hplaced]
    rfl

theorem proceeds_storeLocs {x y : State} (hxy : Kept x y) (p : Strand) (len : ℕ) (u : Bool) (ls : List (ℕ × Space × ℕ)) (data : ℕ → List Byte) (rel : Option Scope) (sets : List SetTodo) :
    Proceeds x (storeLocs p len (groupLocs u ls) data rel sets y) p len (ls.map (fun l => l.1)) := by
  unfold storeLocs
  rw [flatMap_groupLocs]
  split
  · have hls : ls.map (fun l => l.1) = [] := by
      rw [← flatMap_groupLocs u ls, List.isEmpty_iff.mp ‹(groupLocs u ls).isEmpty = true›]
      rfl
    rw [hls]
    exact ⟨_, Joins.of_kept hxy, rfl⟩
  · refine ⟨_, Joins.before hxy ((Joins.addOp y p .s (ls.map (fun l => l.1)) (.stores (storeTodos (groupLocs u ls) data rel))).after ?_), rfl⟩
    have hsets : Kept (addOp y p .s (ls.map (fun l => l.1)) (.stores (storeTodos (groupLocs u ls) data rel)) false).2
        (choose (updOp (addOp y p .s (ls.map (fun l => l.1)) (.stores (storeTodos (groupLocs u ls) data rel)) false).2 y.nextId (fun o => { o with sets := sets })) 2).2 :=
      (Kept.updOp (fun _ => by rfl) _ _).trans ⟨rfl, Nat.le_refl _⟩
    unfold issueStores
    dsimp only
    split
    · exact hsets.trans (kept_performFor _ _ _ _)
    · exact hsets

/-- Settles O39: the stores of a quiet strand are left, or all of them enter at once, with their settings behind them. -/
theorem stores : Obligations.Stores := by
  intro h a k b z zs f nt s st locs act len issues
  refine ⟨fun c => ⟨fun hact => ?_, fun hne hroom fresh given => ?_, fun hne hroom perm => ?_⟩,
    fun c => ⟨fun hact => ?_, fun hne hteam hroom fresh given hplain => ?_, fun hne hteam hroom perm => ?_⟩⟩
  · rw [exec_st c, storing_none hact]
    exact finish_advance c.toIssuing _
  · exact faultsPark_of (res := fun s st x => accessOf s st x (szBytes z) true) c fresh given ((exec_st c).trans (congrArg finish (storing_some hne hroom))) fun x p ls _ _ =>
      proceeds_storeLocs (Kept.of_cacheless (cacheless_touch _ _ _ _ _ _)) _ _ _ _ _ _ _
  · have heq : exec (.st h a b k z nt) s = finish (storeLocs st (srcLen b) (groupLocs (addrU st a.toNat) locs) (storeData st b (szBytes z)) none []
        (touch st a.toNat nt (szBytes z) (dropRes s st.sid) locs)) := by
      rw [exec_st c, storing_some hne hroom, withAccesses_permitted c perm]
    exact ⟨heq.trans (finish_next (by simpa using c.addr)), fun q => stored_storeLocs c.here q (begun_touch s st _ _ _ _) perm.1 hne⟩
  · rw [exec_sts c fun hne => absurd hact hne, storing_none hact]
    exact finish_advance c.toIssuing _
  · subst hplain
    exact faultsPark_of (res := fun s st x => scratchAt s st x (scrBytes zs)) c fresh given ((exec_sts c fun _ => hteam).trans (congrArg finish (storing_some hne hroom))) fun x p ls _ _ =>
      proceeds_storeLocs (Kept.refl x) _ _ _ _ _ _ _
  · intro n u gs s1
    have haddr : s1.badAddr = none := c.addr
    have heq : exec (.sts h a b k zs f) s = finish (stsAt b zs f u s1 st locs) := by
      rw [exec_sts c fun _ => hteam, storing_some hne hroom, withAccesses_permitted c perm]
    refine ⟨fun hplain => ?_, fun hfill => ?_, fun hset => ?_⟩
    · subst hplain
      exact ⟨heq.trans (finish_next (by simpa [stsAt] using haddr)), fun q => stored_storeLocs c.here q (begun_dropRes s st) perm.1 hne⟩
    · subst hfill
      have hgo := nonempty_of_acting perm.1 hne
      rw [heq]
      simp only [stsAt, hgo, Bool.false_eq_true, if_false]
      exact finish_next (by simpa using haddr)
    · subst hset
      have hpos : 0 < scrBytes zs := by cases zs <;> decide
      have hplaces : ∀ l ∈ locs, ∃ m, l.2.1 = .scr st.lk m ∧ (teamOf s1 st.lk m).isSome = true := fun l hl => scratchAt_ok hpos (perm.2 l hl)
      have hsame : u = true → ∀ l ∈ locs, ∀ l' ∈ locs, l.2 = l'.2 := fun hu l hl l' hl' => by
        obtain ⟨x, hx⟩ := scratchAddrs_uReg hu (immS k)
        exact same_locs perm (fun i hi => hx i ((acting_sublist st h.g).subset hi)) hl hl'
      exact ⟨heq.trans (finish_next (by simpa [stsAt] using haddr)), fun q => setting_storeLocs c.here q (begun_dropRes s st) perm.1 hne hplaces hsame⟩

end

end Sys2Proof
end

section
/-! PROOFS. The memory behind a space, and atomics at their homes (R247, R257; O41). -/

namespace Sys2Proof

open Sys2Proof.Machine

/-! ### The memory behind a space (R247) -/

/-- The cells behind the locations of a space. -/
def homeMem (s : State) : Space → List Host.Cell
  | .dev => s.mem
  | .host c => (alookup s.hostMem c).getD []
  | .scr lk t => ((teamOf s lk t).map (fun x => x.scratch)).getD []

theorem homeMem_host (s : State) (c : ℕ) : homeMem s (.host c) = (alookup s.hostMem c).getD [] := rfl

theorem homeMem_scr (s : State) (lk t : ℕ) : homeMem s (.scr lk t) = ((teamOf s lk t).map (fun x => x.scratch)).getD [] := rfl

theorem homeBytes_eq (s : State) (sp : Space) (a n : ℕ) : homeBytes s sp a n = memGets (homeMem s sp) a n := by cases sp <;> rfl

theorem sameBytes_of_homeMem {s t : State} (h : ∀ sp, homeMem t sp = homeMem s sp) : sameBytes s t := fun sp a n => by rw [homeBytes_eq, homeBytes_eq, h]

theorem homeMem_wf {s : State} (canon : memoriesCanonical s) (sp : Space) : Memory.wf (homeMem s sp) = true := by
  cases sp with
  | dev => exact canon.device
  | host c =>
    rw [homeMem_host]
    cases hm : alookup s.hostMem c with
    | none => rfl
    | some m =>
      obtain ⟨x, hx, he⟩ := alookup_mem hm
      exact he ▸ canon.host x hx
  | scr lk t =>
    rw [homeMem_scr]
    cases ht : teamOf s lk t with
    | none => rfl
    | some x => exact (canon_teamOf canon ht).1

/-- The team of a scratch space is there. -/
def Housed (s : State) (sp : Space) : Prop := ∀ lk t, sp = .scr lk t → (teamOf s lk t).isSome = true

theorem homeMem_updTeam {f : Team → Team} (hf : ∀ t, (f t).lk = t.lk ∧ (f t).num = t.num) (hscratch : ∀ t, (f t).scratch = t.scratch) (s : State) (lk n : ℕ) (sp : Space) :
    homeMem (updTeam s lk n f) sp = homeMem s sp := by
  cases sp with
  | dev => rfl
  | host c => rfl
  | scr j m =>
    rw [homeMem_scr, homeMem_scr, teamOf_updTeam hf, Option.map_map]
    congr 2
    funext t
    rw [Function.comp_apply]
    split
    · exact hscratch t
    · rfl

theorem homeMem_setHomePoison (s : State) (sp : Space) (a n : ℕ) (p : Bool) (sp' : Space) : homeMem (setHomePoison s sp a n p) sp' = homeMem s sp' := by
  cases sp with
  | dev => cases p <;> rfl
  | host c => cases p <;> rfl
  | scr lk t =>
    refine homeMem_updTeam (fun x => ?_) (fun x => ?_) s lk t sp'
    · split
      · exact ⟨rfl, rfl⟩
      · split <;> exact ⟨rfl, rfl⟩
    · split
      · rfl
      · split <;> rfl

theorem homeMem_setHome_same {s : State} {sp : Space} (housed : Housed s sp) (a : ℕ) (bs : List Byte) : homeMem (setHome s sp a bs) sp = memPuts (homeMem s sp) a bs := by
  cases sp with
  | dev => rfl
  | host c =>
    rw [homeMem_host]
    exact congrArg (Option.getD · []) (alookup_ainsert_same _ _ _)
  | scr lk t =>
    obtain ⟨x, hx⟩ := Option.isSome_iff_exists.mp (housed lk t rfl)
    have hkey : x.lk = lk ∧ x.num = t := by simpa using List.find?_some hx
    have hteam : teamOf (setHome s (.scr lk t) a bs) lk t = _ := teamOf_updTeam (fun _ => by exact ⟨rfl, rfl⟩) s lk t lk t
    rw [homeMem_scr, homeMem_scr, hteam, hx]
    simp [hkey]

theorem homeMem_setHome_other {s : State} {sp sp' : Space} (hsp : sp' ≠ sp) (a : ℕ) (bs : List Byte) : homeMem (setHome s sp a bs) sp' = homeMem s sp' := by
  cases sp with
  | dev => cases sp' <;> first | exact absurd rfl hsp | rfl
  | host c =>
    cases sp' with
    | dev => rfl
    | scr lk t => rfl
    | host c' =>
      rw [homeMem_host, homeMem_host]
      exact congrArg (Option.getD · []) (alookup_ainsert_other _ _ _ _ fun h => hsp (congrArg Space.host h))
  | scr lk t =>
    cases sp' with
    | dev => rfl
    | host c => rfl
    | scr j m =>
      have hteam : teamOf (setHome s (.scr lk t) a bs) j m = _ := teamOf_updTeam (fun _ => by exact ⟨rfl, rfl⟩) s lk t j m
      rw [homeMem_scr, homeMem_scr, hteam]
      cases hx : teamOf s j m with
      | none => rfl
      | some x =>
        have hkey : x.lk = j ∧ x.num = m := by simpa using List.find?_some hx
        have hother : ¬(j = lk ∧ m = t) := fun h => hsp (by rw [h.1, h.2])
        simp [hkey, hother]

/-- Bytes written to a home are read there. -/
theorem homeBytes_setHome {s : State} {sp : Space} (canon : memoriesCanonical s) (housed : Housed s sp) (a : ℕ) (bs : List Byte) :
    homeBytes (setHome s sp a bs) sp a bs.length = bs := by
  rw [homeBytes_eq, homeMem_setHome_same housed, memGets_memPuts (homeMem_wf canon sp)]

/-- And every other byte reads as before. -/
theorem sameBytesBut_setHome {s : State} {sp : Space} (canon : memoriesCanonical s) (housed : Housed s sp) (a : ℕ) (bs : List Byte) :
    sameBytesBut s (setHome s sp a bs) sp a bs.length := by
  intro sp' b hb
  rw [homeBytes_eq, homeBytes_eq]
  by_cases hsp : sp' = sp
  · subst hsp
    rw [homeMem_setHome_same housed]
    refine memGets_congr fun j hj => memGet_memPuts_other (homeMem_wf canon sp') a (b + j) bs ?_
    simp only [true_and, not_and, not_lt] at hb
    omega
  · rw [homeMem_setHome_other hsp]

/-- The machine with one more store at the end of the order of stores at the homes. -/
def withStore (s : State) (e : Store) : State := { s with nextId := s.nextId + 1, drainSeq := s.drainSeq + 1, stores := s.stores ++ [e] }

/-- Writing at a home at once: the bytes are there, and every other byte reads as before (R247). -/
theorem homeBytes_appendHome {s : State} {sp : Space} (canon : memoriesCanonical s) (housed : Housed s sp) (a : ℕ) (bs : List Byte) (pois : Bool) (w : Writer) (rel : Option RelRec) :
    homeBytes (appendHome s sp a bs pois w rel).2 sp a bs.length = bs ∧ sameBytesBut s (appendHome s sp a bs pois w rel).2 sp a bs.length := by
  obtain ⟨e, he⟩ : ∃ e, (appendHome s sp a bs pois w rel).2 = setHomePoison (setHome (withStore s e) sp a bs) sp a bs.length pois := ⟨_, rfl⟩
  have hpois : sameBytes (setHome (withStore s e) sp a bs) (appendHome s sp a bs pois w rel).2 := he ▸ sameBytes_of_homeMem (homeMem_setHomePoison _ sp a bs.length pois)
  have hcanon : memoriesCanonical (withStore s e) := ⟨canon.device, canon.host, canon.teams, canon.cores⟩
  have hhoused : Housed (withStore s e) sp := housed
  exact ⟨(hpois _ _ _).trans (homeBytes_setHome hcanon hhoused a bs), fun sp' b hb => (hpois _ _ _).trans (sameBytesBut_setHome hcanon hhoused a bs sp' b hb)⟩

/-! ### An atomic (R179, R180, R257) -/

theorem sameBytes_addObs (s : State) (lk : ℕ) (is ids : List ℕ) : sameBytes s (addObs s lk is ids) := sameBytes_of_homeMem fun sp => by cases sp <;> rfl

theorem Housed.of_kept {s t : State} (h : Kept s t) {sp : Space} (housed : Housed s sp) : Housed t sp := fun lk n hsp => isSome_teamOf_of_kept h (housed lk n hsp)

section
variable {s : State} {lk core i : ℕ} {sp : Space} {a : ℕ} {f : Word → Option Word}

/-- The machine at the moment of an atomic: the entries for its word have drained, and the index observes the stores that stand there. -/
def atomicRead (s : State) (lk core i : ℕ) (sp : Space) (a : ℕ) : State :=
  addObs (drainWhere s core (meets sp a 4)) lk [i] ((List.range 4).filterMap (fun k => newestHome (drainWhere s core (meets sp a 4)) sp (a + k)))

/-- The old value of an atomic. -/
def atomicOld (s : State) (core : ℕ) (sp : Space) (a : ℕ) : Word := BitVec.ofNat 32 (ofBytes (homeBytes (drainWhere s core (meets sp a 4)) sp a 4))

theorem atomicStep_none (h : f (atomicOld s core sp a) = none) : (atomicStep s lk core i sp a f).2.2 = atomicRead s lk core i sp a := by
  unfold atomicStep
  dsimp only
  rw [show f (BitVec.ofNat 32 _) = none from h]
  rfl

theorem atomicStep_some {v : Word} (h : f (atomicOld s core sp a) = some v) :
    let x := appendHome (atomicRead s lk core i sp a) sp a (toBytes 4 v.toNat) (homePoison (drainWhere s core (meets sp a 4)) sp a 4) (.index lk i) none
    (atomicStep s lk core i sp a f).2.2 = addObs x.2 lk [i] [x.1] := by
  unfold atomicStep
  dsimp only
  rw [show f (BitVec.ofNat 32 _) = some v from h]
  rfl

theorem atomicStep_old : (atomicStep s lk core i sp a f).1 = atomicOld s core sp a := by
  unfold atomicStep
  dsimp only
  split <;> rfl

end

/-- Settles O41: what an atomic writes stands at its home once the entries for the word have drained. -/
theorem atomicStep : Obligations.AtomicStep := by
  refine ⟨?_, fun o b c old => ⟨by cases o <;> rfl, rfl, rfl⟩⟩
  intro s lk core i sp a f canon housed s1 r
  have hread : sameBytes s1 (atomicRead s lk core i sp a) := sameBytes_addObs _ _ _ _
  have hcanon : memoriesCanonical (atomicRead s lk core i sp a) := canon_addObs _ _ _ _ (canon_drainWhere s core (meets sp a 4) canon)
  have hhoused : Housed (atomicRead s lk core i sp a) sp := Housed.of_kept ((kept_drainWhere s core (meets sp a 4)).trans (kept_addObs _ _ _ _)) housed
  have hold : r.1 = atomicOld s core sp a := atomicStep_old
  cases hf : f (atomicOld s core sp a) with
  | none =>
    have hsame : sameBytes s1 r.2.2 := (atomicStep_none (lk := lk) (i := i) hf).symm ▸ hread
    exact ⟨hold, fun sp' b _ => hsame sp' b 1, fun v hv => absurd (hold ▸ hv) (by rw [hf]; exact nofun), fun _ => hsame⟩
  | some v =>
    obtain ⟨hwrite, hothers⟩ := homeBytes_appendHome hcanon hhoused a (toBytes 4 v.toNat) (homePoison (drainWhere s core (meets sp a 4)) sp a 4) (.index lk i) none
    have hobs := sameBytes_addObs (appendHome (atomicRead s lk core i sp a) sp a (toBytes 4 v.toNat) (homePoison (drainWhere s core (meets sp a 4)) sp a 4) (.index lk i) none).2 lk [i]
      [(appendHome (atomicRead s lk core i sp a) sp a (toBytes 4 v.toNat) (homePoison (drainWhere s core (meets sp a 4)) sp a 4) (.index lk i) none).1]
    rw [← atomicStep_some hf] at hobs
    have hlen : (toBytes 4 v.toNat).length = 4 := by simp [toBytes]
    rw [hlen] at hwrite hothers
    refine ⟨hold, fun sp' b hb => (hobs sp' b 1).trans ((hothers sp' b hb).trans (hread sp' b 1)), fun w hw => ?_, fun hnone => ?_⟩
    · obtain rfl : v = w := Option.some.inj (hf.symm.trans (hold ▸ hw))
      exact (hobs sp a 4).trans hwrite
    · exact absurd (hold ▸ hnone) (by rw [hf]; exact nofun)

end Sys2Proof
end

section
/-! PROOFS. QPOP and QPUSH (O43). -/

namespace Sys2Proof

open Sys2Proof.Machine

/-! ### Pushing a truth value at every present index (R119) -/

section
variable {s : State} {st : Strand} {flags : List Bool} {len : ℕ}

/-- The stack of each present index with its flag pushed. -/
def pushedRows (st : Strand) (flags : List Bool) : List (List Bool) := (flags.zip (stackRows st)).map (fun e => pushAt e.2 e.1)

theorem length_pushedRows (hl : flags.length = presentCount st) : (pushedRows st flags).length = presentCount st := by
  simp [pushedRows, length_stackRows, hl]

theorem pushResult_all (hl : flags.length = presentCount st) : pushResult st ((present st).map (fun _ => true)) flags =
    { regs := [], stack := some ((List.range 8).map (fun k => (pushedRows st flags).map (fun r => nth r k false))), pois := [], acted := [] } := by
  have hrows : guarded ((present st).map (fun _ => true)) (((List.range (presentCount st)).zip (stackRows st)).map (fun e => pushAt e.2 (nth flags e.1 false))) (stackRows st) =
      pushedRows st flags := by
    apply List.ext_getElem
    · simp [guarded, pushedRows, length_stackRows, length_present, hl]
    · intro k h1 h2
      have hk : k < flags.length := by simp [pushedRows] at h2; omega
      simp only [guarded, pushedRows, List.getElem_map, List.getElem_zip, List.getElem_range, if_true, nth]
      rw [List.getD_eq_getElem _ _ hk]
  unfold pushResult
  rw [stackWrite_eq, hrows]

/-- The pushed entry is the flag. -/
theorem pushedRows_zero (hl : flags.length = presentCount st) : (pushedRows st flags).map (fun r => nth r 0 false) = flags := by
  have hfst : (fun e : Bool × List Bool => nth (pushAt e.2 e.1) 0 false) = Prod.fst := rfl
  unfold pushedRows
  rw [List.map_map, Function.comp_def, hfst, List.map_fst_zip]
  rw [length_stackRows, hl]

/-- And each entry above is the one below it before. -/
theorem pushedRows_succ (wf : StrandWf st) (hl : flags.length = presentCount st) {k : ℕ} (hk : k < 7) : (pushedRows st flags).map (fun r => nth r (k + 1) false) = qVals st k := by
  have hsnd : (fun e : Bool × List Bool => nth (pushAt e.2 e.1) (k + 1) false) = (fun r => nth r k false) ∘ Prod.snd := by
    funext e
    simp [pushAt, nth, hk]
  have hcol := rows_column (presentCount st) false ((List.range 8).map (qVals st)) k (by simp; omega) (by simpa using length_qVals st wf k)
  unfold pushedRows
  rw [List.map_map, Function.comp_def, hsnd, ← List.map_map, List.map_snd_zip (by rw [length_stackRows, hl])]
  exact hcol.trans (by simp)

theorem commit_pushAll (hs : strandOf s st.sid = some st) (wf : StrandWf st) (hl : flags.length = presentCount st) (sb : stackable st (flags :: (List.range 7).map (qVals st))) :
    ∃ v, commit s st (pushResult st ((present st).map (fun _ => true)) flags) len = putStrand s v ∧ WroteStack st v len (pushedRows st flags) := by
  have hcols : (List.range 8).map (fun k => (pushedRows st flags).map (fun r => nth r k false)) = flags :: (List.range 7).map (qVals st) := by
    rw [List.range_succ_eq_map, List.map_cons, List.map_map, pushedRows_zero hl]
    exact congrArg (flags :: ·) (List.map_congr_left fun k hk => pushedRows_succ wf hl (List.mem_range.mp hk))
  rw [pushResult_all hl]
  refine ⟨written st _ len, ?_, written_wroteStack wf (length_pushedRows hl) rfl (hcols ▸ sb)⟩
  rw [commit_eq_writeResult, writeResult_eq hs]
  · simp
  · simp [Result.wrote]
  · rw [hcols]
    rcases sb with hform | hsheaf
    · exact .inr ⟨by simp, by simpa using hform⟩
    · exact .inl hsheaf

end

/-! ### The queues of a context (R187) -/

theorem hqOf_of_ctxs {s t : State} (h : t.ctxs = s.ctxs) (c : ℕ) (hd : Word) : hqOf t c hd = hqOf s c hd := by
  unfold hqOf ctxOf
  rw [h]

/-- The queue that a handle names has its number. -/
theorem hqOf_num {s : State} {c : ℕ} {hd : Word} {q : HwQueue} (h : hqOf s c hd = some q) : q.num = hd.toNat := by
  unfold hqOf at h
  split at h
  · cases h
  · obtain ⟨x, -, hq⟩ := Option.bind_eq_some_iff.mp h
    simpa using List.find?_some hq

theorem hqOf_putHq {s : State} {c : ℕ} {hd : Word} {q q' : HwQueue} (h : hqOf s c hd = some q) (hnum : q'.num = q.num) : hqOf (putHq s c q') c hd = some q' := by
  have hq := hnum.trans (hqOf_num h)
  unfold hqOf at h ⊢
  split at h
  · cases h
  · obtain ⟨x, hx, hfind⟩ := Option.bind_eq_some_iff.mp h
    rw [if_neg ‹_›, putHq, ctxOf_updCtx hx rfl, Option.bind_some, hq]
    exact find?_updWhere (fun y : HwQueue => y.num) hd.toNat (fun _ => q') x.hqs q hfind hq

section
variable {s : State} {st : Strand} {h : Hdr} {a : R11} {hd : Word} {q : HwQueue} {rs dests : List ℕ} {len : ℕ}

/-- A queue instruction whose U handle names a queue of the context, once its results have arrived. -/
theorem queueFrame_named (c : Collective s st h.g (a.toNat :: rs) false true) (hready : mustWait s st dests false = false) (hu : uReg st a.toNat = some hd)
    (hq : hqOf s (ctxOfLaunch s st.lk) hd = some q) (f : State → Strand → HwQueue → State) : queueFrame h len a rs dests f s = finish (f s st q) := by
  unfold queueFrame
  rw [strandFrame_collective c]
  dsimp only
  rw [hready, hu]
  simp only [Bool.false_eq_true, if_false, hq]

end

/-! ### QPOP (R188, R190) -/

theorem acquires_acquireRecord (s : State) (lk : ℕ) (is : List ℕ) (sc : ScopeSet) (w : Writer) (r : RelRec) : Acquires s (acquireRecord s lk is sc w r) := by
  unfold acquireRecord
  split
  · exact acquires_addObs _ _ _ _
  · exact Acquires.refl s

theorem Machine.Kept.ctxs {s t : State} (h : Kept s t) : t.ctxs = s.ctxs := (congrArg State.ctxs h.around :)

theorem Machine.Kept.strandOf {s t : State} (h : Kept s t) (id : ℕ) : strandOf t id = strandOf s id := (congrArg (fun x : State => x.strands.find? (fun t => t.sid == id)) h.around :)

section
variable {s : State} {st : Strand} {q : HwQueue}

/-- What the oldest entries of a queue give to the present indices in ascending order. -/
def popped (st : Strand) (q : HwQueue) : List (ℕ × Word × RelRec) := (present st).zip q.entries

/-- The machine once they have been taken, and what they carry has been acquired. -/
def taken (s : State) (st : Strand) (q : HwQueue) : State :=
  (popped st q).foldl (fun a e => acquireRecord a st.lk [e.1] (scopeOf a st .dev) (.index st.lk e.1) e.2.2)
    (putHq (performLoads s st) (ctxOfLaunch s st.lk) { q with entries := q.entries.drop (popped st q).length })

theorem acquires_taken : Acquires (putHq (performLoads s st) (ctxOfLaunch s st.lk) { q with entries := q.entries.drop (popped st q).length }) (taken s st q) :=
  Acquires.foldl (fun _ _ => acquires_acquireRecord _ _ _ _ _ _) _ _

/-- The results of a QPOP. -/
def popBody (st : Strand) (d : ℕ) (q : HwQueue) : OpBody :=
  .result (some d) 1 ((popped st q).map (fun e => (e.1, [e.2.1]))) [] [] none ((present st).map (fun i => (i, (popped st q).any (fun e => e.1 == i)))) true

theorem popBatch_eq {d : ℕ} (hq : hqOf s (ctxOfLaunch s st.lk) (BitVec.ofNat 32 q.num) = some q) (hfit : d + 1 ≤ budgetOf s st ∨ presentCount st = 1) (hroom : roomFor s st .l false = true) :
    popBatch d q.num s st = advance (addOp (acquireL1 st.core (scopeOf (taken s st q) st .dev) (taken s st q)) st .l (present st) (popBody st d q) false).2 st.sid 8 := by
  have hform : (!capable s st d 1 && presentCount st != 1) = false := by
    rcases hfit with hcap | hone
    · simp [capable, hcap]
    · simp [hone]
  unfold popBatch
  rw [hq]
  simp only [hform, hroom, Bool.not_true, Bool.false_eq_true, if_false]
  rfl

end

/-! ### QPUSH (R189, R190) -/

/-- The release of each entry that is appended, before it. -/
def releasing (st : Strand) (acc : List (Word × RelRec) × State) (e : ℕ × Word) : List (Word × RelRec) × State :=
  (acc.1 ++ [(e.2, releaseRec acc.2 st e.1 .dev)], publish acc.2 st.core (releaseRec acc.2 st e.1 .dev))

theorem words_releasing (st : Strand) (es : List (ℕ × Word)) (acc : List (Word × RelRec) × State) :
    (es.foldl (releasing st) acc).1.map (fun e => e.1) = acc.1.map (fun e => e.1) ++ es.map (fun e => e.2) := by
  induction es generalizing acc with
  | nil => simp
  | cons e es ih => rw [List.foldl_cons, ih, releasing, List.map_append, List.map_cons, List.append_assoc]; rfl

theorem kept_releasing (st : Strand) (es : List (ℕ × Word)) (acc : List (Word × RelRec) × State) : Kept acc.2 (es.foldl (releasing st) acc).2 :=
  Kept.foldl_of (fun acc : List (Word × RelRec) × State => acc.2) (fun x e => kept_publish x.2 st.core (releaseRec x.2 st e.1 .dev)) es acc

theorem length_opndVals_word (st : Strand) (b : Src) : (opndVals st (srcOpnd b 1 false)).length = presentCount st := by
  cases b with
  | lit w => simp [srcOpnd, opndVals, length_present]
  | reg r => simp [srcOpnd, opndVals, length_rows]

section
variable {s : State} {st : Strand} {q : HwQueue}

/-- The values that the present indices push, in ascending order. -/
def pushed (st : Strand) (b : Src) : List Word := (opndVals st (srcOpnd b 1 false)).map (BitVec.ofNat 32)

/-- The entries that a QPUSH appends, and the machine once each has been released. -/
def appending (s : State) (st : Strand) (b : Src) (q : HwQueue) : List (Word × RelRec) × State :=
  (((present st).zip (pushed st b)).take (2 ^ q.k - q.entries.length)).foldl (releasing st) ([], performLoads s st)

/-- The queue once they have been appended. -/
def appended (s : State) (st : Strand) (b : Src) (q : HwQueue) : State :=
  putHq (appending s st b q).2 (ctxOfLaunch s st.lk) { q with entries := q.entries ++ (appending s st b q).1 }

theorem words_appending (s : State) (st : Strand) (b : Src) (q : HwQueue) : (appending s st b q).1.map (fun e => e.1) = (pushed st b).take (2 ^ q.k - q.entries.length) := by
  have hlen : (pushed st b).length ≤ (present st).length := by rw [pushed, List.length_map, length_opndVals_word, length_present]
  rw [appending, words_releasing, List.map_take, List.map_snd_zip hlen]
  rfl

theorem kept_appending (s : State) (st : Strand) (b : Src) (q : HwQueue) : Kept s (appending s st b q).2 :=
  (kept_performLoads s st).trans (kept_releasing st _ ([], performLoads s st))

theorem hqOf_appended {b : Src} {hd : Word} (hq : hqOf s (ctxOfLaunch s st.lk) hd = some q) :
    hqOf (appended s st b q) (ctxOfLaunch s st.lk) hd = some { q with entries := q.entries ++ (appending s st b q).1 } := by
  refine hqOf_putHq (q := q) ?_ rfl
  rw [hqOf_of_ctxs (kept_appending s st b q).ctxs]
  exact hq

theorem strandOf_appended (hs : strandOf s st.sid = some st) (b : Src) : strandOf (appended s st b q) st.sid = some st :=
  ((kept_appending s st b q).strandOf st.sid).trans hs

/-- Which indices are taken: as many of the lowest as the queue has room for. -/
def takenFlags (st : Strand) (q : HwQueue) : List Bool := (List.range (presentCount st)).map (fun k => decide (k < 2 ^ q.k - q.entries.length))

/-- QPUSH with room for its operation (R155). -/
theorem exec_qpush {h : Hdr} {a : R11} {b : Src} {hd : Word} (c : Collective s st h.g (a.toNat :: srcRegs b) false true) (hu : uReg st a.toNat = some hd)
    (hq : hqOf s (ctxOfLaunch s st.lk) hd = some q) (hroom : roomFor s st .s false = true) :
    let x := { st with ops := st.ops ++ [(appended s st b q).nextId] }
    exec (.qpush h a b) s = finish (commit (addOp (appended s st b q) st .s (present st) (.stores []) false).2 x
      (pushResult x ((present x).map (fun _ => true)) (takenFlags x q)) (srcLen b)) := by
  have hadded := strandOf_addOp (strandOf_appended c.here b (q := q)) .s (present st) (.stores [])
  show execQpush h a b s = _
  unfold execQpush
  dsimp only
  rw [queueFrame_named c rfl hu hq]
  rw [hroom]
  refine congrArg finish ?_
  show (match strandOf (addOp (appended s st b q) st .s (present st) (.stores []) false).2 st.sid with
    | some x => commit (addOp (appended s st b q) st .s (present st) (.stores []) false).2 x (pushResult x ((present st).map (fun _ => true))
        ((List.range (present st).length).map (fun k => decide (k < 2 ^ q.k - q.entries.length)))) (srcLen b)
    | none => (addOp (appended s st b q) st .s (present st) (.stores []) false).2) = _
  rw [hadded, length_present]
  rfl

end

/-- Settles O43: the entries that leave or enter the queue, and the flags, are those of the present indices in ascending order. -/
theorem queues : Obligations.Queues := by
  intro h d a b s st hd q c hu hq
  constructor
  · intro col hready hcount hfit hroom got
    have hname : hqOf s (ctxOfLaunch s st.lk) (BitVec.ofNat 32 q.num) = some q := by rw [hqOf_num hq, BitVec.ofNat_toNat, BitVec.setWidth_eq]; exact hq
    have hexec : exec (.qpop h d a) s =
        finish (advance (addOp (acquireL1 st.core (scopeOf (taken s st q) st .dev) (taken s st q)) st .l (present st) (popBody st d.toNat q) false).2 st.sid 8) := by
      show execQpop h d a s = _
      unfold execQpop
      rw [queueFrame_named col hready hu hq, if_neg (by omega), popBatch_eq hname hfit hroom]
    have hperformed : Kept s (performLoads s st) := kept_performLoads s st
    have hall : Acquires (putHq (performLoads s st) c { q with entries := q.entries.drop (popped st q).length }) (acquireL1 st.core (scopeOf (taken s st q) st .dev) (taken s st q)) :=
      acquires_taken.trans (Acquires.of_cacheless (cacheless_acquireL1 _ _ _))
    have hstrand : strandOf (acquireL1 st.core (scopeOf (taken s st q) st .dev) (taken s st q)) st.sid = some st :=
      (congrArg (fun x : State => x.strands.find? (fun t => t.sid == st.sid)) hall.unseen :).trans ((hperformed.strandOf st.sid).trans col.here)
    refine ⟨_, issuedOp (acquireL1 st.core (scopeOf (taken s st q) st .dev) (taken s st q)) st .l (present st) (popBody st d.toNat q), hexec.trans (finish_next ?_), fun quiet => ?_, ?_, ?_,
      rfl, rfl, rfl, fun v hv => ?_⟩
    · exact (congrArg State.badAddr hall.unseen :).trans ((congrArg State.badAddr hperformed.around :).trans col.addr)
    · refine sameBytes_trans (t := putHq (performLoads s st) c { q with entries := q.entries.drop (popped st q).length }) ?_ hall.sameBytes
      rw [quiet.performLoads_eq]
      exact sameBytes_of_homeMem fun sp => by cases sp <;> rfl
    · refine (hqOf_of_ctxs (congrArg State.ctxs hall.unseen :) c hd).trans (hqOf_putHq (q := q) ?_ rfl)
      rw [hqOf_of_ctxs hperformed.ctxs]
      exact hq
    · rw [advance_ops, addOp_ops]
      simp
    · rw [strandOf_advance (strandOf_addOp hstrand .l _ _)] at hv
      obtain rfl := Option.some.inj hv
      exact ⟨rfl, rfl, rfl⟩
  · intro col hroom vals flags sb
    have hadded := strandOf_addOp (strandOf_appended col.here b (q := q)) .s (present st) (.stores [])
    have hflags : (takenFlags st q).length = presentCount st := by simp [takenFlags]
    have wf : StrandWf { st with ops := st.ops ++ [(appended s st b q).nextId] } := ⟨col.wf.held, col.wf.first, col.wf.last, col.wf.attached, col.wf.cols, col.wf.qcols, col.wf.depth⟩
    obtain ⟨v, hcommit, wrote⟩ := commit_pushAll (len := srcLen b) (st := { st with ops := st.ops ++ [(appended s st b q).nextId] }) hadded wf hflags sb
    have hexec : exec (.qpush h a b) s = finish (putStrand (addOp (appended s st b q) st .s (present st) (.stores []) false).2 v) :=
      (exec_qpush col hu hq hroom).trans (congrArg finish hcommit)
    have haddr : (appended s st b q).badAddr = none := (congrArg State.badAddr (kept_appending s st b q).around :).trans col.addr
    refine ⟨_, hexec.trans (finish_next (by simpa using haddr)), ?_, fun u hv => ?_⟩
    · have hctxs : (putStrand (addOp (appended s st b q) st .s (present st) (.stores []) false).2 v).ctxs = (appended s st b q).ctxs := rfl
      have hqueue := (hqOf_of_ctxs hctxs c hd).trans (hqOf_appended hq)
      rw [hqueue, Option.map_some, List.map_append, words_appending]
      rfl
    · have hsid : v.sid = st.sid := by rw [wrote.same]
      rw [strandOf_putStrand hadded hsid] at hv
      obtain rfl := Option.some.inj hv
      refine ⟨wrote.pc, by rw [wrote.same], ?_, fun k hk => ?_⟩
      · rw [wrote.value 0 (by decide)]
        exact pushedRows_zero hflags
      · rw [wrote.value (k + 1) (by omega)]
        exact pushedRows_succ wf hflags hk

end Sys2Proof
end

section
/-! PROOFS. STL and CST (O40), and the atomics at issue (O42): their statements fail as they are written, and concrete states show it. -/

namespace Sys2Proof

open Sys2Proof.Machine

/-- The page of 0x10000 as a walk has answered for strand 2: writable, at 0x20000 of the device. -/
def answeredPage : WalkRes := ⟨2, 16, .ok ⟨false, 0x20000, 4096, true, true, 0, 1, false⟩⟩

/-! ### An index that two strands hold (R171, R408) -/

/-- The strand of index 0 of a team, with an address in v4:v5. -/
def releasingStrand : Strand := { newStrand 2 1 (some 0) .gn placeVa 0 1 0 0 0 [] with regs := [(4, .u 0x10000)] }

/-- A strand of the same launch that has no team, and holds the same index. -/
def secondHolder : Strand := newStrand 3 1 none .gn placeVa 0 1 0 0 0 []

/-- The machine in which the first of them issues, and the other stands before it in the table. -/
def twoHolders : State :=
  { State.reset with
    cur := some 2, nextId := 4, teams := [placeTeam 1], launches := [placeLaunch 1 0], strands := [secondHolder, releasingStrand], walkRes := [answeredPage] }

theorem releasingStrand_wf : StrandWf releasingStrand where
  held := by decide
  first := by decide
  last := by decide
  attached := by decide
  cols := by simp [releasingStrand, newStrand]
  qcols := by simp [releasingStrand, newStrand]
  depth := by decide

theorem twoHolders_clear : Clear twoHolders releasingStrand .none [4, 5] [] false where
  cur := rfl
  here := rfl
  addr := rfl
  wf := releasingStrand_wf
  results := rfl
  clean := rfl

theorem twoHolders_quiet : Quiet twoHolders releasingStrand where
  given := fun _ h => absurd h List.not_mem_nil
  idle := fun _ h => absurd h List.not_mem_nil
  entered := fun _ h => absurd h List.not_mem_nil
  settled := fun _ h => absurd h List.not_mem_nil

theorem twoHolders_permitted : Permitted (fun x => accessOf twoHolders releasingStrand x 4 true) (acting releasingStrand .none)
    (atIdx (present releasingStrand) (addresses releasingStrand 4 0)) [(0, .dev, 0x20000)] := by
  unfold Permitted
  decide

/-- The members of the scope of the release that each store carries after an instruction that completes. -/
def releasesAfter (r : Res) : Option (List (Option (List (ℕ × ℕ × ℕ)))) :=
  match r with
  | .next t => some (t.stores.map (fun e : Store => e.rel.map (fun r => r.scope.members)))
  | _ => none

/-- The release is at the scope that index 0 has in the other strand. -/
theorem twoHolders_after : releasesAfter (exec (.stl ⟨false, .none⟩ 4 (.lit 1) 0 false .team) twoHolders) = some [some [(1, 0, 0)]] := by
  decide +kernel

/-- Refutes O40: the first clause gives the release of each store the scope of the strand that issues it. An STL releases at the scope that its index has when the store enters (R408), which is
that of the first strand in the table that holds the index. Nothing in the clause says that the index stands in no other strand; in `twoHolders`, which no step reaches, it stands in one of the
same launch without a team, whose team scope is another. -/
theorem not_releaseAndCompress : ¬Obligations.ReleaseAndCompress := by
  unfold Obligations.ReleaseAndCompress
  intro holds
  obtain ⟨stl, -⟩ := holds ⟨false, .none⟩ 0 4 0 (.lit 1) false 0 .team twoHolders releasingStrand [(0, .dev, 0x20000)]
  obtain ⟨-, issued⟩ := stl twoHolders_clear
  obtain ⟨hexec, quiet⟩ := issued (by decide) (by decide) twoHolders_permitted
  obtain ⟨-, hscopes⟩ := quiet twoHolders_quiet
  have hafter := twoHolders_after
  rw [hexec] at hafter
  have hreleases := Option.some.inj hafter
  obtain ⟨e, he, hrel⟩ := List.map_eq_singleton_iff.mp hreleases
  obtain ⟨r, hr, hscope⟩ := hscopes e (by rw [he]; exact List.mem_singleton.mpr rfl)
  rw [hr, Option.map_some, hscope] at hrel
  exact absurd (Option.some.inj hrel) (by decide)

/-! ### A packet of an operation that has not been issued (R180, R275) -/

/-- The strand of indices 0 and 1, with addresses in two lines in v4:v5. -/
def twoLines : Strand := { newStrand 2 1 (some 0) .gn placeVa 0 2 0 0 0 [] with regs := [(4, .a 0x10000 64)] }

/-- The machine in which it issues, where both lines are in L2, and a packet for the line of index 1 names the operation that comes next. -/
def earlyPacket : State :=
  { State.reset with
    cur := some 2, nextId := 3, teams := [placeTeam 1], launches := [placeLaunch 1 0], strands := [twoLines], walkRes := [answeredPage]
    l2lines := [⟨1, 0x800, 0, false, []⟩, ⟨0, 0x801, 0, false, []⟩], packets := [⟨0, some 0, 0x20040, .atom 3 0⟩] }

theorem twoLines_wf : StrandWf twoLines where
  held := by decide
  first := by decide
  last := by decide
  attached := by decide
  cols := by simp [twoLines, newStrand]
  qcols := by simp [twoLines, newStrand]
  depth := by decide

theorem earlyPacket_clear : Clear earlyPacket twoLines .none [4, 5] [8] false where
  cur := rfl
  here := rfl
  addr := rfl
  wf := twoLines_wf
  results := rfl
  clean := rfl

theorem earlyPacket_quiet : Quiet earlyPacket twoLines where
  given := fun _ h => absurd h List.not_mem_nil
  idle := fun _ h => absurd h List.not_mem_nil
  entered := fun _ h => absurd h List.not_mem_nil
  settled := fun _ h => absurd h List.not_mem_nil

theorem earlyPacket_permitted : Permitted (atAccess true earlyPacket twoLines) (acting twoLines .none) (atIdx (present twoLines) (addresses twoLines 4 0))
    [(0, .dev, 0x20000), (1, .dev, 0x20040)] := by
  unfold Permitted
  decide

/-- The indices whose old values an operation holds, in their order, where none of its atomics is left. -/
def oldValues (o : Op) : Option (List ℕ) :=
  match o.body with
  | .result _ _ vals _ _ none _ _ => some (vals.map (fun e => e.1))
  | _ => none

/-- Those of the newest operation after an instruction that completes. -/
def oldValuesAfter (r : Res) : Option (List ℕ) :=
  match r with
  | .next t => t.ops.getLast?.bind oldValues
  | _ => none

/-- The packet is served first, which performs the atomic of index 1. -/
theorem earlyPacket_after : oldValuesAfter (exec (.atGlobal ⟨false, .none⟩ 8 4 (.lit 1) .add false) earlyPacket) = some [1, 0] := by
  decide +kernel

/-- Refutes O42: the old values of atomics that are performed as they are issued are said to stand in the order of the indices. Before them the packets for their lines are served (R275). Nothing
in the clause says that no packet names the operation that is about to be issued; in `earlyPacket`, which no step reaches, one does, and the atomic of index 1 is performed for it before that of
index 0. -/
theorem not_atomicInstructions : ¬Obligations.AtomicInstructions := by
  unfold Obligations.AtomicInstructions
  intro holds
  obtain ⟨-, at', -⟩ := holds ⟨false, .none⟩ 8 4 0 (.lit 1) .add false earlyPacket twoLines [(0, .dev, 0x20000), (1, .dev, 0x20040)]
  obtain ⟨-, gives, -⟩ := at' earlyPacket_clear
  obtain ⟨hexec, -, performed⟩ := gives (by decide) (.inl (by decide)) (by decide) earlyPacket_permitted
  obtain ⟨p, hlast, -, -, -, hbody⟩ := performed earlyPacket_quiet (by decide)
  have hafter := earlyPacket_after
  rw [hexec] at hafter
  have hvalues : oldValues p = some [1, 0] := (congrArg (Option.bind · oldValues) hlast).symm.trans hafter
  unfold oldValues at hvalues
  rcases hbody with hleft | hdone
  · rw [hleft] at hvalues
    cases hvalues
  · obtain ⟨vals, ps, hp, horder⟩ := hdone (by decide)
    rw [hp] at hvalues
    exact absurd (horder.symm.trans (Option.some.inj hvalues)) (by decide)

end Sys2Proof
end

section
/-! PROOFS. Remap entries, swaps and epochs of a B-die (R277, R282 to R285). -/

namespace Sys2Proof

open Sys2Proof.Machine

/-! ### B-dies and their remap entries (R277, R282) -/

theorem bdieOf_num (s : State) (b : ℕ) : (bdieOf s b).num = b := by
  unfold bdieOf
  cases h : s.bdies.find? (fun x => x.num == b) with
  | none => rfl
  | some x => simpa using List.find?_some h

theorem bdieOf_putBdie_num (s : State) (x : BDie) : bdieOf (putBdie s x) x.num = x := by
  unfold bdieOf putBdie
  split
  · next h =>
    have hsome : (s.bdies.find? (fun y => y.num == x.num)).isSome = true := by simpa using h
    obtain ⟨y, hy⟩ := Option.isSome_iff_exists.mp hsome
    rw [find?_updWhere BDie.num x.num (fun _ => x) s.bdies y hy rfl]
    rfl
  · next h =>
    have hnone : s.bdies.find? (fun y => y.num == x.num) = none := by simpa using h
    simp [List.find?_append, hnone]

theorem bdieOf_putBdie {x : BDie} {b : ℕ} (h : x.num = b) (s : State) : bdieOf (putBdie s x) b = x := h ▸ bdieOf_putBdie_num s x

theorem remapOf_group (b : BDie) (g : ℕ) : (remapOf b g).group = g := by
  unfold remapOf
  cases h : b.remap.find? (fun r => r.group == g) with
  | none => rfl
  | some r => simpa using List.find?_some h

theorem putRemap_num (b : BDie) (r : Remap) : (putRemap b r).num = b.num := rfl

theorem putRemap_swaps (b : BDie) (r : Remap) : (putRemap b r).swaps = b.swaps := rfl

/-- A remap entry that is put is read; one as at reset needs no place in the list. -/
theorem remapOf_putRemap_same (b : BDie) (r : Remap) : remapOf (putRemap b r) r.group = r := by
  have hrest : (b.remap.filter (fun x => x.group != r.group)).find? (fun x => x.group == r.group) = none := by simp
  unfold remapOf putRemap
  dsimp only
  split
  · next h => exact hrest ▸ h.symm
  · rw [List.find?_append, hrest]
    simp

theorem remapOf_putRemap_other (b : BDie) (r : Remap) {g : ℕ} (hg : g ≠ r.group) : remapOf (putRemap b r) g = remapOf b g := by
  have hrest : (b.remap.filter (fun x => x.group != r.group)).find? (fun x => x.group == g) = b.remap.find? (fun x => x.group == g) := by
    rw [List.find?_filter]
    congr 1
    funext x
    by_cases hx : x.group = g <;> simp [hx, hg]
  have hr : (r.group == g) = false := by simpa using Ne.symm hg
  unfold remapOf putRemap
  dsimp only
  split <;> simp [List.find?_append, hrest, hr]

/-! ### What the counting of DRAM requests keeps (R278, R282) -/

/-- The counts of a B-die may differ, and no remap entry but for its counts. -/
structure Counted (b c : BDie) : Prop where
  num : c.num = b.num
  swaps : c.swaps = b.swaps
  entry : ∀ g, ∃ n, remapOf c g = { remapOf b g with cnt := n }

namespace Counted

theorem refl (b : BDie) : Counted b b := ⟨rfl, rfl, fun g => ⟨(remapOf b g).cnt, rfl⟩⟩

theorem trans {b c d : BDie} (h : Counted b c) (h' : Counted c d) : Counted b d := by
  refine ⟨h'.num.trans h.num, h'.swaps.trans h.swaps, fun g => ?_⟩
  obtain ⟨n, hn⟩ := h.entry g
  obtain ⟨m, hm⟩ := h'.entry g
  exact ⟨m, by rw [hm, hn]⟩

theorem foldl {α : Type} {f : BDie → α → BDie} (h : ∀ b x, Counted b (f b x)) (xs : List α) (b : BDie) : Counted b (xs.foldl f b) := by
  induction xs generalizing b with
  | nil => exact refl b
  | cons x xs ih => exact (h b x).trans (ih (f b x))

theorem countPch (b : BDie) (p n : ℕ) : Counted b (countPch b p n) := ⟨rfl, rfl, fun g => ⟨(remapOf b g).cnt, rfl⟩⟩

theorem putRemap (b : BDie) (g : ℕ) (n : List ℕ) : Counted b (putRemap b { remapOf b g with cnt := n }) := by
  refine ⟨rfl, rfl, fun j => ?_⟩
  by_cases hj : j = g
  · subst hj
    have hsame := remapOf_putRemap_same b { remapOf b j with cnt := n }
    rw [show ({ remapOf b j with cnt := n } : Remap).group = j from remapOf_group b j] at hsame
    exact ⟨n, hsame⟩
  · exact ⟨(remapOf b j).cnt, remapOf_putRemap_other b _ (by rwa [show ({ remapOf b g with cnt := n } : Remap).group = g from remapOf_group b g])⟩

theorem countRequest (b : BDie) (pa : ℕ) : Counted b (countRequest b pa) := by
  unfold Machine.countRequest
  dsimp only
  split
  · exact (putRemap b _ _).trans (countPch _ _ _)
  · exact putRemap b _ _

end Counted

/-- A swap that starts leaves its group busy, with the place and the pin as they were, and waits to complete (R283, R284). -/
theorem startSwap_spec (b : BDie) (g slot : ℕ) (reply : Option ℕ) :
    (startSwap b g slot reply).num = b.num ∧ (remapOf (startSwap b g slot reply) g).busy = true ∧ (remapOf (startSwap b g slot reply) g).pin = (remapOf b g).pin ∧
    (⟨g, slot, reply⟩ ∈ (startSwap b g slot reply).swaps) := by
  obtain ⟨c, hc, lines, hs⟩ : ∃ c, Counted b c ∧ ∃ lines,
      startSwap b g slot reply = { putRemap c { remapOf c g with busy := true } with lines := lines, swaps := c.swaps ++ [⟨g, slot, reply⟩] } :=
    ⟨_, (Counted.foldl (fun a l => Counted.countRequest a _) _ b).trans (Counted.foldl (fun a u => Counted.countPch a _ 8) _ _), _, rfl⟩
  have hentry : remapOf (startSwap b g slot reply) g = { remapOf c g with busy := true } := by
    have hput := remapOf_putRemap_same c { remapOf c g with busy := true }
    rw [show ({ remapOf c g with busy := true } : Remap).group = g from remapOf_group c g] at hput
    rw [hs]
    exact hput
  obtain ⟨n, hn⟩ := hc.entry g
  refine ⟨?_, ?_, ?_, ?_⟩
  · rw [hs]
    exact hc.num
  · rw [hentry]
  · rw [hentry, hn]
  · rw [hs]
    exact List.mem_append_right _ (List.mem_singleton_self _)

/-- The halving of the counts of some entries (R283). -/
theorem remapOf_halved (xs : List Remap) (hnodup : (xs.map (fun r => r.group)).Nodup) (b : BDie) (g : ℕ) :
    remapOf (xs.foldl (fun a r => putRemap a { r with cnt := r.cnt.map (fun n => n / 2) }) b) g =
      ((xs.find? (fun r => r.group == g)).map (fun r => { r with cnt := r.cnt.map (fun n => n / 2) })).getD (remapOf b g) := by
  induction xs generalizing b with
  | nil => rfl
  | cons x xs ih =>
    rw [List.map_cons, List.nodup_cons] at hnodup
    rw [List.foldl_cons, ih hnodup.2]
    by_cases hx : x.group = g
    · have hnone : xs.find? (fun r => r.group == g) = none := by
        refine List.find?_eq_none.mpr fun r hr hg => hnodup.1 ?_
        exact List.mem_map.mpr ⟨r, hr, (by simpa using hg : r.group = g).trans hx.symm⟩
      rw [hnone, List.find?_cons_of_pos (by simpa using hx)]
      subst hx
      exact remapOf_putRemap_same b { x with cnt := x.cnt.map (fun n => n / 2) }
    · rw [List.find?_cons_of_neg (by simpa using hx), remapOf_putRemap_other b { x with cnt := x.cnt.map (fun n => n / 2) } (Ne.symm hx)]

theorem foldl_putRemap_num {α : Type} (f : α → Remap) (xs : List α) (b : BDie) : (xs.foldl (fun a r => putRemap a (f r)) b).num = b.num := by
  induction xs generalizing b with
  | nil => rfl
  | cons x xs ih => exact ih (putRemap b (f x))

theorem sameBytes_said (s : State) (out : List Out) : sameBytes s { s with out := out } := sameBytes_of_homeMem fun sp => by cases sp <;> rfl

theorem sameBytes_putBdie (s : State) (x : BDie) : sameBytes s (putBdie s x) := sameBytes_of_cacheless (cacheless_putBdie s x)

/-- The B-die at the end of an epoch (R283). -/
def epochPast (b : BDie) (time : ℕ) : BDie :=
  { b.remap.foldl (fun a r => putRemap a { r with cnt := r.cnt.map (fun n => n / 2) }) b with epochEnd := time + 1000 * max 1 (field b.swpctl 16 16) }

theorem epochPast_num (b : BDie) (time : ℕ) : (epochPast b time).num = b.num := foldl_putRemap_num _ _ _

theorem remapOf_epochPast_cnt (b : BDie) (time g : ℕ) (hnodup : (b.remap.map (fun r => r.group)).Nodup) :
    (remapOf (epochPast b time) g).cnt = (remapOf b g).cnt.map (· / 2) := by
  refine (congrArg Remap.cnt (remapOf_halved b.remap hnodup b g)).trans ?_
  unfold remapOf
  cases b.remap.find? (fun r => r.group == g) <;> rfl

/-! ### SWP, the end of a swap, and the end of an epoch (R283 to R285) -/

section
variable {s : State} (ok : s.badAddr = none)
include ok

theorem swpPacket_busy {b g slot : ℕ} (tag : BitVec 10) (pin : Bool)
    (h : (remapOf (bdieOf s b) g).busy = true ∨ 2 < slot ∨ (s.sec.boot = .seedling ∧ (remapOf (bdieOf s b) g).fast ≠ slot)) :
    exec (.swpPacket b tag g slot pin) s = .next { s with out := s.out ++ [.text "SWP busy" [tag.toNat]] } := by
  have hbusy : ((remapOf (bdieOf s b) g).busy || 2 < slot || (s.sec.boot == .seedling && (remapOf (bdieOf s b) g).fast ≠ slot)) = true := by
    simpa [or_assoc] using h
  show execSwpPacket b tag g slot pin s = _
  unfold execSwpPacket
  dsimp only
  rw [if_pos hbusy]
  exact finish_next ok

theorem swpPacket_takes {b g slot : ℕ} (tag : BitVec 10) (pin : Bool) (hfree : (remapOf (bdieOf s b) g).busy = false) (hslot : slot ≤ 2)
    (hboot : s.sec.boot ≠ .seedling ∨ (remapOf (bdieOf s b) g).fast = slot) :
    ∃ t, exec (.swpPacket b tag g slot pin) s = .next t ∧ sameBytes s t ∧ (remapOf (bdieOf t b) g).pin = pin ∧
      ((remapOf (bdieOf s b) g).fast = slot → t.out = s.out ++ [.text "SWP done" [tag.toNat]] ∧ (remapOf (bdieOf t b) g).busy = false) ∧
      ((remapOf (bdieOf s b) g).fast ≠ slot → t.out = s.out ∧ (remapOf (bdieOf t b) g).busy = true ∧ ⟨g, slot, some tag.toNat⟩ ∈ (bdieOf t b).swaps) := by
  have hbusy : ((remapOf (bdieOf s b) g).busy || 2 < slot || (s.sec.boot == .seedling && (remapOf (bdieOf s b) g).fast ≠ slot)) = false := by
    rcases hboot with h | h <;> simp [hfree, hslot, h]
  have hput := remapOf_putRemap_same (bdieOf s b) { remapOf (bdieOf s b) g with pin := pin }
  rw [show ({ remapOf (bdieOf s b) g with pin := pin } : Remap).group = g from remapOf_group _ g] at hput
  have hexec : exec (.swpPacket b tag g slot pin) s = execSwpPacket b tag g slot pin s := rfl
  unfold execSwpPacket at hexec
  dsimp only at hexec
  rw [hbusy, if_neg Bool.false_ne_true] at hexec
  have hdie : ∀ s', bdieOf (putBdie s' (putRemap (bdieOf s b) { remapOf (bdieOf s b) g with pin := pin })) b = putRemap (bdieOf s b) { remapOf (bdieOf s b) g with pin := pin } :=
    bdieOf_putBdie (bdieOf_num s b)
  by_cases hfast : (remapOf (bdieOf s b) g).fast = slot
  · rw [if_pos hfast, finish_next (by simpa using ok)] at hexec
    refine ⟨_, hexec, sameBytes_trans (sameBytes_said s _) (sameBytes_putBdie _ _), ?_, fun _ => ⟨putBdie_out _ _, ?_⟩, fun h => absurd hfast h⟩
    · rw [hdie, hput]
    · rw [hdie, hput]
      exact hfree
  · rw [if_neg hfast, finish_next (by simpa using ok)] at hexec
    obtain ⟨hnum, hb, hp, hs⟩ := startSwap_spec (putRemap (bdieOf s b) { remapOf (bdieOf s b) g with pin := pin }) g slot (some tag.toNat)
    have hnum' := hnum.trans (bdieOf_num s b)
    refine ⟨_, hexec, sameBytes_putBdie _ _, ?_, fun h => absurd h hfast, fun _ => ⟨putBdie_out _ _, ?_, ?_⟩⟩ <;> rw [bdieOf_putBdie hnum']
    · rw [hp, hput]
    · exact hb
    · exact hs

theorem swapComplete_spec {b g : ℕ} {w : Swap} (hw : (bdieOf s b).swaps.find? (fun w => w.group == g) = some w) :
    ∃ t, exec (.swapComplete b g) s = .next t ∧ sameBytes s t ∧ (remapOf (bdieOf t b) g).fast = w.slot ∧ (remapOf (bdieOf t b) g).busy = false ∧
      t.out = s.out ++ w.reply.toList.map (fun n => .text "SWP done" [n]) ∧ ∀ w ∈ (bdieOf t b).swaps, w.group ≠ g := by
  let base : BDie := { bdieOf s b with swaps := (bdieOf s b).swaps.filter (fun w => w.group != g) }
  let entry : Remap := { remapOf (bdieOf s b) g with fast := w.slot, busy := false }
  have hexec : exec (.swapComplete b g) s = .next (putBdie { s with out := s.out ++ w.reply.toList.map (fun n => .text "SWP done" [n]) } (putRemap base entry)) := by
    show execSwapComplete b g s = _
    unfold execSwapComplete
    dsimp only
    rw [hw]
    exact finish_next (by simpa using ok)
  have hput := remapOf_putRemap_same base entry
  rw [show entry.group = g from remapOf_group _ g] at hput
  refine ⟨_, hexec, sameBytes_trans (sameBytes_said s _) (sameBytes_putBdie _ _), ?_, ?_, putBdie_out _ _, ?_⟩ <;> rw [bdieOf_putBdie (show (putRemap base entry).num = b from bdieOf_num s b)]
  · rw [hput]
  · rw [hput]
  · intro w hw
    simpa using (List.mem_filter.mp hw).2

theorem swapEpoch_spec {b : ℕ} (hend : (bdieOf s b).epochEnd ≤ s.time) (hnodup : ((bdieOf s b).remap.map (fun r => r.group)).Nodup) :
    ∃ t, exec (.swapEpoch b) s = .next t ∧ sameBytes s t ∧ (bdieOf t b).epochEnd = s.time + 1000 * max 1 (field (bdieOf s b).swpctl 16 16) ∧
      ∀ g, (remapOf (bdieOf t b) g).cnt = (remapOf (bdieOf s b) g).cnt.map (· / 2) := by
  have hexec : exec (.swapEpoch b) s = .next (putBdie s (epochPast (bdieOf s b) s.time)) := by
    show execSwapEpoch b s = _
    unfold execSwapEpoch
    dsimp only
    rw [if_neg (Nat.not_lt.mpr hend)]
    exact finish_next (by simpa using ok)
  have hdie : bdieOf (putBdie s (epochPast (bdieOf s b) s.time)) b = epochPast (bdieOf s b) s.time := bdieOf_putBdie ((epochPast_num _ _).trans (bdieOf_num s b)) s
  refine ⟨_, hexec, sameBytes_putBdie _ _, ?_, fun g => ?_⟩
  · rw [hdie]
    rfl
  · rw [hdie, remapOf_epochPast_cnt _ _ _ hnodup]

end

end Sys2Proof
end

section
/-! PROOFS. RD packets, and packets that a slice has sent (R274, R275). -/

namespace Sys2Proof

open Sys2Proof.Machine

/-! ### Requests at lines that no packet names (R274, R275) -/

/-- A read that a slice has sent, of a line or of an engine's unit. -/
def readsKind : PacketKind → Bool
  | .rd => true
  | .engine _ _ w => !w
  | _ => false

/-- A write that a slice has sent, of a line or of an engine's unit. -/
def writesKind : PacketKind → Bool
  | .wr _ => true
  | .engine _ _ w => w
  | _ => false

/-- The packet carries the atomics of an operation. -/
def carries (oid : ℕ) (p : Packet) : Bool :=
  match p.kind with
  | .atom o _ => o == oid
  | _ => false

@[simp] theorem touchLine_packets (s : State) (line : ℕ) (write whole : Bool) : (touchLine s line write whole).packets = s.packets := by
  have hevict : ∀ (ls : List (ℕ × Bool)) (acc : BDie × State), (ls.foldl (fun (acc : BDie × State) l =>
      let (leave, s1) := freeBool acc.2
      (if leave then dropLine acc.1 l else acc.1, s1)) acc).2.packets = acc.2.packets := by
    intro ls
    induction ls with
    | nil => exact fun _ => rfl
    | cons l ls ih => exact fun acc => ih _
  exact (putBdie_packets _ _).trans (hevict _ _)

theorem settleLine_of_none {s : State} {pa : ℕ} (h : s.packets.find? (fun p => p.lines.contains (pa / 64)) = none) (n : ℕ) : settleLine pa n s = s := by
  cases n with
  | zero => rfl
  | succ n =>
    rw [settleLine, h]

/-- Where no packet names the lines of a request, none has to be served before it. -/
theorem settleLines_of_none {s : State} {ls : List ℕ} (h : ∀ l ∈ ls, ∀ p ∈ s.packets, l ∉ p.lines) : settleLines s ls = s := by
  unfold settleLines
  induction ls with
  | nil => rfl
  | cons l ls ih =>
    have hnone : s.packets.find? (fun p => p.lines.contains (l * 64 / 64)) = none := by
      rw [Nat.mul_div_cancel l (by decide)]
      refine List.find?_eq_none.mpr fun p hp hl => h l List.mem_cons_self p hp (List.contains_iff_mem.mp hl)
    rw [List.foldl_cons, settleLine_of_none hnone]
    exact ih fun x hx => h x (List.mem_cons_of_mem l hx)

/-- The machine when the lines of a request have been touched in the memory-side cache (R275). -/
def touchLines (s : State) (ls : List ℕ) (write whole : Bool) : State := ls.foldl (fun a l => touchLine a l write whole) s

theorem cacheless_touchLines (s : State) (ls : List ℕ) (write whole : Bool) : cacheless (touchLines s ls write whole) = cacheless s :=
  cacheless_foldl (fun _ _ => cacheless_touchLine _ _ _ _) ls s

theorem canon_touchLines {s : State} (canon : memoriesCanonical s) (ls : List ℕ) (write whole : Bool) : memoriesCanonical (touchLines s ls write whole) :=
  canon_foldl _ ls s (fun a l h => canon_touchLine a l write whole h) canon

/-- An RD that no slice of the machine has sent: the machine with its reply (R274, R388). -/
def rdAnswered (s : State) (tag : BitVec 10) (pa : ℕ) (wide : Bool) (key : BitVec 10) : State :=
  let ls := packetLines pa wide
  let s1 := touchLines (settleLines s ls) ls false false
  let bs := if key = 0 then ls.flatMap (fun l => memGets s1.mem (l * 64) 64) else plainUnit s1 key.toNat (pa / 256)
  let bad := ls.any (fun l => s1.memPois.contains l)
  { s1 with out := s1.out ++ [if bad then .text "RD reply: poison" [tag.toNat] else .text "RD reply: data" (tag.toNat :: bs.map (fun b => b.toNat))] }

/-- The bytes that a WR names, each at its address: those of the mask, or the whole of an enciphered unit (R274, R287). -/
def wrNamed (base : ℕ) (mask : List Bool) (bytes : List Byte) (sealed : Bool) : List (ℕ × List Byte) :=
  ((List.range bytes.length).zip (mask.zip bytes)).filterMap (fun e => if e.2.1 || sealed then some (base + e.1, [e.2.2]) else none)

/-- Runs of bytes written at the homes of device memory, one after another. -/
def writeRuns (s : State) (rs : List (ℕ × List Byte)) : State := rs.foldl (fun a r => (appendHome a .dev r.1 r.2 false (.system 0) none).2) s

/-- A WR that no slice of the machine has sent: the machine with its bytes at their homes (R274, R275). -/
def wrAnswered (s : State) (tag : BitVec 10) (pa : ℕ) (mask : List Bool) (data : List Byte) (key : BitVec 10) : State :=
  let wide := decide (64 < data.length)
  let base := if wide then pa / 256 * 256 else pa / 64 * 64
  let ls := packetLines pa wide
  let s1 := touchLines (settleLines s ls) ls true (mask.all id)
  let bytes := if key = 0 then data else Config.encipher (keyUnder s key.toNat) (pa / 256) data
  let s2 := writeRuns s1 (byteRuns ((wrNamed base mask bytes (key != 0)).filter (fun e => [memGet s1.mem e.1] != e.2)))
  { s2 with out := s2.out ++ [.text "WR acknowledged" [tag.toNat]] }

section
variable {s : State} {slice pa : ℕ} {tag : BitVec 10} (hpa : pa < Config.deviceBytes)
include hpa

theorem exec_rdPacket (wide : Bool) (key : BitVec 10) :
    exec (.rdPacket slice tag pa wide key) s = finish (match packetOf s slice tag pa readsKind with
      | some p => if servable s p then servePacket s p else s
      | none => rdAnswered s tag pa wide key) := by
  have hexec : exec (.rdPacket slice tag pa wide key) s = finish (if Config.deviceBytes ≤ pa then { s with badAddr := some pa } else
      match packetOf s slice tag pa readsKind with
      | some p => if servable s p then servePacket s p else s
      | none => rdAnswered s tag pa wide key) := rfl
  rw [hexec, if_neg (Nat.not_le.mpr hpa)]

theorem exec_wrPacket (mask : List Bool) (data : List Byte) (key : BitVec 10) :
    exec (.wrPacket slice tag pa mask data key) s = finish (match packetOf s slice tag pa writesKind with
      | some p => if servable s p then servePacket s p else s
      | none => wrAnswered s tag pa mask data key) := by
  have hexec : exec (.wrPacket slice tag pa mask data key) s = finish (if Config.deviceBytes ≤ pa then { s with badAddr := some pa } else
      match packetOf s slice tag pa writesKind with
      | some p => if servable s p then servePacket s p else s
      | none => wrAnswered s tag pa mask data key) := rfl
  rw [hexec, if_neg (Nat.not_le.mpr hpa)]

theorem rdPacket_answers {wide : Bool} (ok : s.badAddr = none) (hnone : packetOf s slice tag pa readsKind = none)
    (hclear : ∀ l ∈ packetLines pa wide, l ∉ s.memPois ∧ ∀ p ∈ s.packets, l ∉ p.lines) :
    ∃ t, exec (.rdPacket slice tag pa wide 0) s = .next t ∧ sameBytes s t ∧
      t.out = s.out ++ [.text "RD reply: data" (tag.toNat :: ((packetLines pa wide).flatMap (fun l => memGets s.mem (l * 64) 64)).map (fun b => b.toNat))] := by
  have htouch : cacheless (touchLines (settleLines s (packetLines pa wide)) (packetLines pa wide) false false) = cacheless s := by
    rw [settleLines_of_none fun l hl => (hclear l hl).2, cacheless_touchLines]
  have hmem : (touchLines (settleLines s (packetLines pa wide)) (packetLines pa wide) false false).mem = s.mem := (congrArg State.mem htouch :)
  have hpois : (touchLines (settleLines s (packetLines pa wide)) (packetLines pa wide) false false).memPois = s.memPois := (congrArg State.memPois htouch :)
  have hout : (touchLines (settleLines s (packetLines pa wide)) (packetLines pa wide) false false).out = s.out := (congrArg State.out htouch :)
  have hclean : (packetLines pa wide).any (fun l => s.memPois.contains l) = false :=
    List.any_eq_false.mpr fun l hl hc => (hclear l hl).1 (List.contains_iff_mem.mp hc)
  refine ⟨rdAnswered s tag pa wide 0, ?_, sameBytes_trans (sameBytes_of_cacheless htouch) (sameBytes_said _ _), ?_⟩
  · rw [exec_rdPacket hpa, hnone]
    exact finish_next ((congrArg State.badAddr htouch : _).trans ok)
  · unfold rdAnswered
    dsimp only
    rw [if_pos rfl, hpois, hclean, hmem, hout]
    rfl

end

/-! ### A packet that a slice has sent (R274) -/

theorem servePacket_packets {s : State} {p : Packet} (hkind : ∀ o m, p.kind ≠ .atom o m) : (servePacket s p).packets = (closePacket s p).packets := by
  have hunit : ∀ (ks : List ℕ) (w : Bool) (a : State), (ks.foldl (fun a k => touchLine a (p.pa / 64 + k) w true) a).packets = a.packets := by
    intro ks w
    induction ks with
    | nil => exact fun _ => rfl
    | cons k ks ih => exact fun a => (ih _).trans (touchLine_packets _ _ _ _)
  unfold servePacket
  split
  · exact hunit _ _ _
  · exact touchLine_packets _ _ _ _
  · exact touchLine_packets _ _ _ _
  · next o m h => exact absurd h (hkind o m)

/-- A packet in its turn is served: it leaves, and no byte changes. -/
theorem served_spec {s : State} {p : Packet} (ok : s.badAddr = none) (turn : servable s p = true) (hkind : ∀ o m, p.kind ≠ .atom o m) :
    ∃ t, finish (if servable s p then servePacket s p else s) = .next t ∧ sameBytes s t ∧ t.packets = (closePacket s p).packets ∧ t.out = s.out := by
  refine ⟨servePacket s p, ?_, sameBytes_of_cacheless (cacheless_servePacket s p), servePacket_packets hkind, (congrArg State.out (cacheless_servePacket s p) :)⟩
  rw [if_pos turn]
  exact finish_next (by simpa using ok)

theorem packetOf_kind {s : State} {slice pa : ℕ} {tag : BitVec 10} {k : PacketKind → Bool} {p : Packet} (h : packetOf s slice tag pa k = some p) : k p.kind = true := by
  have hp := List.find?_some h
  simp only [Bool.and_eq_true] at hp
  exact hp.2

theorem rdPacket_served {s : State} {slice pa : ℕ} {tag : BitVec 10} {p : Packet} (ok : s.badAddr = none) (hpa : pa < Config.deviceBytes) (turn : servable s p = true)
    (hp : packetOf s slice tag pa readsKind = some p) (wide : Bool) (key : BitVec 10) :
    ∃ t, exec (.rdPacket slice tag pa wide key) s = .next t ∧ sameBytes s t ∧ t.packets = (closePacket s p).packets ∧ t.out = s.out := by
  have hkind : ∀ o m, p.kind ≠ .atom o m := fun o m h => by simpa [h, readsKind] using packetOf_kind hp
  rw [exec_rdPacket hpa, hp]
  exact served_spec ok turn hkind

theorem wrPacket_served {s : State} {slice pa : ℕ} {tag : BitVec 10} {p : Packet} (ok : s.badAddr = none) (hpa : pa < Config.deviceBytes) (turn : servable s p = true)
    (hp : packetOf s slice tag pa writesKind = some p) (mask : List Bool) (data : List Byte) (key : BitVec 10) :
    ∃ t, exec (.wrPacket slice tag pa mask data key) s = .next t ∧ sameBytes s t ∧ t.packets = (closePacket s p).packets ∧ t.out = s.out := by
  have hkind : ∀ o m, p.kind ≠ .atom o m := fun o m h => by simpa [h, writesKind] using packetOf_kind hp
  rw [exec_wrPacket hpa, hp]
  exact served_spec ok turn hkind

end Sys2Proof
end

section
/-! PROOFS. WR packets: runs of bytes at the homes of device memory (R274). -/

namespace Sys2Proof

open Sys2Proof.Machine

/-! ### Runs of bytes (R274) -/

/-- Some piece holds this byte at this address. -/
def Holds (rs : List (ℕ × List Byte)) (x : ℕ) (v : Byte) : Prop := ∃ r ∈ rs, ∃ j, x = r.1 + j ∧ r.2[j]? = some v

theorem holds_cons (r : ℕ × List Byte) (rs : List (ℕ × List Byte)) (x : ℕ) (v : Byte) : Holds (r :: rs) x v ↔ (∃ j, x = r.1 + j ∧ r.2[j]? = some v) ∨ Holds rs x v := by
  simp [Holds]

/-- Two pieces that meet hold what the joined piece holds. -/
theorem holds_join (a : ℕ) (bs bs' : List Byte) (x : ℕ) (v : Byte) :
    (∃ j, x = a + j ∧ (bs ++ bs')[j]? = some v) ↔ (∃ j, x = a + j ∧ bs[j]? = some v) ∨ ∃ j, x = a + bs.length + j ∧ bs'[j]? = some v := by
  constructor
  · rintro ⟨j, hx, hj⟩
    by_cases hlt : j < bs.length
    · exact .inl ⟨j, hx, by rwa [List.getElem?_append_left hlt] at hj⟩
    · exact .inr ⟨j - bs.length, by omega, by rwa [List.getElem?_append_right (by omega)] at hj⟩
  · rintro (⟨j, hx, hj⟩ | ⟨j, hx, hj⟩)
    · obtain ⟨hlt, _⟩ := List.getElem?_eq_some_iff.mp hj
      exact ⟨j, hx, by rwa [List.getElem?_append_left hlt]⟩
    · exact ⟨bs.length + j, by omega, by rwa [List.getElem?_append_right (by omega), Nat.add_sub_cancel_left]⟩

/-- The joining of adjacent pieces loses no byte and adds none. -/
theorem holds_byteRuns (ps : List (ℕ × List Byte)) (x : ℕ) (v : Byte) : Holds (byteRuns ps) x v ↔ Holds ps x v := by
  induction ps with
  | nil => rfl
  | cons p ps ih =>
    obtain ⟨a, bs⟩ := p
    rw [byteRuns, holds_cons, ← ih]
    cases hr : byteRuns ps with
    | nil => rw [holds_cons]
    | cons q t =>
      obtain ⟨a', bs'⟩ := q
      dsimp only
      split
      · next h => rw [holds_cons, holds_cons, holds_join, h, or_assoc]
      · rw [holds_cons]

theorem homeBytes_one (s : State) (x : ℕ) : homeBytes s .dev x 1 = [memGet s.mem x] := by simp [homeBytes, memGets]

section
variable {s : State} (canon : memoriesCanonical s)
include canon

/-- One run that is written (R247). -/
theorem homeBytes_writeRun (r : ℕ × List Byte) {x : ℕ} {v : Byte} (hone : ∀ j, x = r.1 + j → ∀ w, r.2[j]? = some w → w = v)
    (hv : homeBytes s .dev x 1 = [v] ∨ ∃ j, x = r.1 + j ∧ r.2[j]? = some v) :
    homeBytes (appendHome s .dev r.1 r.2 false (.system 0) none).2 .dev x 1 = [v] := by
  obtain ⟨hwritten, hothers⟩ := homeBytes_appendHome (sp := .dev) canon nofun r.1 r.2 false (.system 0) none
  by_cases hin : r.1 ≤ x ∧ x < r.1 + r.2.length
  · have hread := congrArg (·[x - r.1]?) hwritten
    have hlt : x - r.1 < r.2.length := by omega
    have hat : r.1 + (x - r.1) = x := by omega
    simp only [homeBytes, memGets, List.getElem?_map, List.getElem?_range hlt, Option.map_some, hat] at hread
    rw [homeBytes_one, hone (x - r.1) hat.symm _ hread.symm]
  · rw [hothers .dev x fun h => hin h.2]
    refine hv.resolve_right ?_
    rintro ⟨j, hx, hj⟩
    obtain ⟨hlt, _⟩ := List.getElem?_eq_some_iff.mp hj
    omega

end

/-- Runs that agree at an address, with what stands there where none names it: the byte is there when they are written. -/
theorem homeBytes_writeRuns {s : State} (canon : memoriesCanonical s) {rs : List (ℕ × List Byte)} {x : ℕ} {v : Byte} (hone : ∀ w, Holds rs x w → w = v)
    (hv : homeBytes s .dev x 1 = [v] ∨ Holds rs x v) : homeBytes (writeRuns s rs) .dev x 1 = [v] := by
  induction rs generalizing s with
  | nil => exact hv.resolve_right fun ⟨_, h, _⟩ => absurd h List.not_mem_nil
  | cons r rs ih =>
    have hhead : ∀ j, x = r.1 + j → ∀ w, r.2[j]? = some w → w = v := fun j hx w hw => hone w ((holds_cons r rs x w).mpr (.inl ⟨j, hx, hw⟩))
    refine ih (canon_appendHome s .dev r.1 r.2 false (.system 0) none canon) (fun w hw => hone w ((holds_cons r rs x w).mpr (.inr hw))) ?_
    rw [holds_cons] at hv
    rcases hv with hv | hv | hv
    · exact .inl (homeBytes_writeRun canon r hhead (.inl hv))
    · exact .inl (homeBytes_writeRun canon r hhead (.inr hv))
    · exact .inr hv

theorem homeBytes_writeRuns_space {s : State} (canon : memoriesCanonical s) (rs : List (ℕ × List Byte)) {sp : Space} (hsp : sp ≠ .dev) (a : ℕ) :
    homeBytes (writeRuns s rs) sp a 1 = homeBytes s sp a 1 := by
  induction rs generalizing s with
  | nil => rfl
  | cons r rs ih =>
    have hothers := (homeBytes_appendHome (sp := .dev) canon nofun r.1 r.2 false (.system 0) none).2
    exact (ih (canon_appendHome s .dev r.1 r.2 false (.system 0) none canon)).trans (hothers sp a fun h => hsp h.1)

theorem kept_writeRuns (s : State) (rs : List (ℕ × List Byte)) : Kept s (writeRuns s rs) := Kept.foldl (fun a _ => kept_appendHome a _ _ _ _ _ _) rs s

/-! ### A WR changes the bytes that its mask names (R274, R275) -/

theorem mem_range_zip {α : Type} {xs : List α} {e : ℕ × α} : e ∈ (List.range xs.length).zip xs ↔ xs[e.1]? = some e.2 := by
  constructor
  · intro h
    obtain ⟨k, hk⟩ := List.mem_iff_getElem?.mp h
    obtain ⟨hrange, hxs⟩ := List.getElem?_zip_eq_some.mp hk
    obtain ⟨hlt, hk⟩ := List.getElem?_eq_some_iff.mp hrange
    rw [List.getElem_range] at hk
    rwa [← hk]
  · intro h
    obtain ⟨hlt, _⟩ := List.getElem?_eq_some_iff.mp h
    exact List.mem_iff_getElem?.mpr ⟨e.1, List.getElem?_zip_eq_some.mpr ⟨List.getElem?_range hlt, h⟩⟩

/-- What a WR under no key writes: the bytes of its mask that do not stand there already. -/
theorem holds_wrNamed {base : ℕ} {mask : List Bool} {data : List Byte} (hlen : mask.length = data.length) (m : List Host.Cell) (x : ℕ) (v : Byte) :
    Holds ((wrNamed base mask data false).filter (fun e => [memGet m e.1] != e.2)) x v ↔
      ∃ k, x = base + k ∧ mask[k]? = some true ∧ data[k]? = some v ∧ memGet m x ≠ v := by
  have hzip : data.length = (mask.zip data).length := by simp [hlen]
  unfold Holds wrNamed
  simp only [hzip, List.mem_filter, List.mem_filterMap, mem_range_zip, Bool.or_false]
  constructor
  · rintro ⟨r, ⟨⟨⟨k, mk, b⟩, hk, hr⟩, hnew⟩, j, hx, hj⟩
    obtain ⟨hmask, hdata⟩ := List.getElem?_zip_eq_some.mp hk
    dsimp only at hmask hdata hr
    split at hr
    · next hmk =>
      obtain rfl := Option.some.inj hr
      obtain ⟨rfl, rfl⟩ : j = 0 ∧ b = v := by
        cases j with
        | zero => exact ⟨rfl, Option.some.inj hj⟩
        | succ j => cases hj
      exact ⟨k, hx, hmk ▸ hmask, hdata, by simpa [hx] using hnew⟩
    · cases hr
  · rintro ⟨k, hx, hmask, hdata, hnew⟩
    exact ⟨(base + k, [v]), ⟨⟨(k, true, v), List.getElem?_zip_eq_some.mpr ⟨hmask, hdata⟩, rfl⟩, by simpa [← hx] using hnew⟩, 0, hx, rfl⟩

/-- The runs of bytes of a WR under no key: what its mask names and the memory does not hold already. -/
def wrRuns (base : ℕ) (mask : List Bool) (data : List Byte) (m : List Host.Cell) : List (ℕ × List Byte) :=
  byteRuns ((wrNamed base mask data false).filter (fun e => [memGet m e.1] != e.2))

section
variable {s : State} {base : ℕ} {mask : List Bool} {data : List Byte} (canon : memoriesCanonical s) (hlen : mask.length = data.length)
include canon hlen

theorem homeBytes_wrRuns_named {k : ℕ} (hk : k < data.length) (hmask : nth mask k false = true) :
    homeBytes (writeRuns s (wrRuns base mask data s.mem)) .dev (base + k) 1 = [nth data k 0] := by
  have hdata : data[k]? = some (nth data k 0) := by simp [nth, hk]
  have hnamed : mask[k]? = some true := by
    have hk' : k < mask.length := hlen ▸ hk
    have hmask' : mask[k] = true := by simpa [nth, hk'] using hmask
    rw [List.getElem?_eq_getElem hk', hmask']
  have hholds := fun w => (holds_byteRuns _ (base + k) w).trans (holds_wrNamed (base := base) hlen s.mem (base + k) w)
  refine homeBytes_writeRuns canon (fun w hw => ?_) ?_
  · obtain ⟨j, hj, -, hw, -⟩ := (hholds w).mp hw
    obtain rfl : k = j := by omega
    exact Option.some.inj (hw.symm.trans hdata)
  · by_cases hthere : memGet s.mem (base + k) = nth data k 0
    · exact .inl (by rw [homeBytes_one, hthere])
    · exact .inr ((hholds _).mpr ⟨k, rfl, hnamed, hdata, hthere⟩)

theorem homeBytes_wrRuns_other {sp : Space} {a : ℕ} (hother : ∀ k < data.length, nth mask k false = true → ¬(sp = .dev ∧ a = base + k)) :
    homeBytes (writeRuns s (wrRuns base mask data s.mem)) sp a 1 = homeBytes s sp a 1 := by
  by_cases hsp : sp = .dev
  · subst hsp
    rw [homeBytes_one s]
    refine homeBytes_writeRuns canon (fun w hw => ?_) (.inl (homeBytes_one s a))
    obtain ⟨k, hx, hmask, hdata, -⟩ := (holds_wrNamed hlen s.mem a w).mp ((holds_byteRuns _ a w).mp hw)
    obtain ⟨hk, _⟩ := List.getElem?_eq_some_iff.mp hdata
    exact absurd ⟨rfl, hx⟩ (hother k hk (by simp [nth, hmask]))
  · exact homeBytes_writeRuns_space canon _ hsp a

end

theorem wrPacket_writes {s : State} {slice pa : ℕ} {tag : BitVec 10} {mask : List Bool} {data : List Byte} (ok : s.badAddr = none) (canon : memoriesCanonical s)
    (hpa : pa < Config.deviceBytes) (hnone : packetOf s slice tag pa writesKind = none)
    (hclear : ∀ l ∈ packetLines pa (decide (64 < data.length)), ∀ p ∈ s.packets, l ∉ p.lines) (hlen : mask.length = data.length) :
    let base := if 64 < data.length then pa / 256 * 256 else pa / 64 * 64
    ∃ t, exec (.wrPacket slice tag pa mask data 0) s = .next t ∧ t.out = s.out ++ [.text "WR acknowledged" [tag.toNat]] ∧
      (∀ k < data.length, nth mask k false = true → homeBytes t .dev (base + k) 1 = [nth data k 0]) ∧
      ∀ sp a, (∀ k < data.length, nth mask k false = true → ¬(sp = .dev ∧ a = base + k)) → homeBytes t sp a 1 = homeBytes s sp a 1 := by
  intro base
  obtain ⟨u, hu⟩ : ∃ u, u = touchLines s (packetLines pa (decide (64 < data.length))) true (mask.all id) := ⟨_, rfl⟩
  have hsame : sameBytes s u := hu ▸ sameBytes_of_cacheless (cacheless_touchLines _ _ _ _)
  have hcanon : memoriesCanonical u := hu ▸ canon_touchLines canon _ _ _
  have hkept : Kept s (writeRuns u (wrRuns base mask data u.mem)) := (hu ▸ Kept.of_cacheless (cacheless_touchLines _ _ _ _) : Kept s u).trans (kept_writeRuns u _)
  have hanswer : wrAnswered s tag pa mask data 0 =
      { writeRuns u (wrRuns base mask data u.mem) with out := (writeRuns u (wrRuns base mask data u.mem)).out ++ [.text "WR acknowledged" [tag.toNat]] } := by
    unfold wrAnswered
    dsimp only
    rw [settleLines_of_none hclear, ← hu, if_pos rfl, bne_self_eq_false, if_congr (decide_eq_true_iff (p := 64 < data.length)) rfl rfl]
    rfl
  have hsaid := sameBytes_said (writeRuns u (wrRuns base mask data u.mem)) ((writeRuns u (wrRuns base mask data u.mem)).out ++ [.text "WR acknowledged" [tag.toNat]])
  have hexec : exec (.wrPacket slice tag pa mask data 0) s =
      .next { writeRuns u (wrRuns base mask data u.mem) with out := (writeRuns u (wrRuns base mask data u.mem)).out ++ [.text "WR acknowledged" [tag.toNat]] } := by
    rw [exec_wrPacket hpa, hnone, hanswer]
    exact finish_next ((congrArg State.badAddr hkept.around :).trans ok)
  refine ⟨_, hexec, congrArg (· ++ [Out.text "WR acknowledged" [tag.toNat]]) (congrArg State.out hkept.around :), fun k hk hmask => ?_, fun sp a hother => ?_⟩
  · exact (hsaid _ _ _).trans (homeBytes_wrRuns_named hcanon hlen hk hmask)
  · exact (hsaid _ _ _).trans ((homeBytes_wrRuns_other hcanon hlen hother).trans (hsame _ _ _))

end Sys2Proof
end

section
/-! PROOFS. Packets with atomics (R180 to R182, R274). -/

namespace Sys2Proof

open Sys2Proof.Machine

/-! ### Packets with atomics (R180 to R182, R274) -/

theorem opOf_updOp {s : State} {oid : ℕ} {f : Op → Op} {o : Op} (hf : (f o).oid = o.oid) (ho : opOf s oid = some o) : opOf (updOp s oid f) oid = some (f o) := by
  have hid : o.oid = oid := by simpa using List.find?_some ho
  exact find?_updWhere Op.oid oid f s.ops o ho (hf.trans hid)

/-- What is performed takes no operation away. -/
theorem isSome_opOf_of_kept {s t : State} (h : Kept s t) {oid : ℕ} (hs : (opOf s oid).isSome = true) : (opOf t oid).isSome = true := by
  have hops : t.ops.map Op.bare = s.ops.map Op.bare := (congrArg State.ops h.around :)
  have hfind : ∀ u : State, (opOf u oid).isSome = ((u.ops.map Op.bare).find? (fun o => o.oid == oid)).isSome := fun u => by
    rw [List.find?_map, Option.isSome_map]
    rfl
  rw [hfind, hops, ← hfind, hs]

/-- The atomics of an operation on one line of device memory. -/
def onLine (line : ℕ) (t : AtTodo) : Bool := t.space == .dev && t.addr / 64 == line

/-- One atomic of an ATC at its home, with whether its task was refused (R182). -/
def atcNext (o : Op) (acc : List (ℕ × Bool) × State) (t : AtTodo) : List (ℕ × Bool) × State :=
  (acc.1 ++ [(t.idx, (atcAtHome acc.2 o t).1)], (atcAtHome acc.2 o t).2)

theorem kept_atcNexts (o : Op) (ts : List AtTodo) (acc : List (ℕ × Bool) × State) : Kept acc.2 (ts.foldl (atcNext o) acc).2 :=
  Kept.foldl_of (fun a : List (ℕ × Bool) × State => a.2) (fun a t => kept_atcAtHome a.2 o t) ts acc

theorem atcNexts_idxs (o : Op) (ts : List AtTodo) (acc : List (ℕ × Bool) × State) :
    (ts.foldl (atcNext o) acc).1.map (fun e => e.1) = acc.1.map (fun e => e.1) ++ ts.map (fun x => x.idx) := by
  induction ts generalizing acc with
  | nil => simp
  | cons t ts ih => simp [ih, atcNext]

section
variable {s : State} {op : ℕ} {p : Packet} {m : DWord} {o : Op} {d : Option ℕ} {n : ℕ} {vals : List (ℕ × List Word)} {ps : List ℕ} {ls : List LoadTodo} {k : AtKind} {ts : List AtTodo}
  {pu : List (ℕ × Bool)} {q : Bool} (ok : s.badAddr = none) (hp : s.packets.find? (carries op) = some p) (hkind : p.kind = .atom op m) (turn : servable s p = true)
  (ho : opOf s op = some o) (hbody : o.body = .result d n vals ps ls (some (k, ts)) pu q) (hline : ∀ x ∈ ts, x.space = .dev ∧ x.addr / 64 = p.pa / 64)

omit ok hp hkind turn ho hbody in
include hline in
theorem filter_onLine : ts.filter (onLine (p.pa / 64)) = ts ∧ ts.filter (fun t => !onLine (p.pa / 64) t) = [] := by
  have hon : ∀ x ∈ ts, onLine (p.pa / 64) x = true := fun x hx => by simp [onLine, hline x hx]
  exact ⟨List.filter_eq_self.mpr hon, List.filter_eq_nil_iff.mpr fun x hx => by simp [hon x hx]⟩

omit ho hbody hline in
include ok hp hkind turn in
/-- The packet of an operation in its turn: its atomics are performed, and its reply brings the line back. -/
theorem servePackets_spec : finish (servePackets op s) = .next (l2Back p.slice (closePacket (performAtoms s op (onLine (p.pa / 64))) p) (p.pa / 64)) := by
  have hserve : servePackets op s = match s.packets.find? (carries op) with
    | some p => if servable s p then serve s p else s
    | none => s := rfl
  have hline : serve s p = l2Back p.slice (closePacket (performAtoms s op (onLine (p.pa / 64))) p) (p.pa / 64) := by
    unfold serve
    rw [hkind]
    rfl
  rw [hserve, hp]
  dsimp only
  rw [if_pos turn, hline]
  exact finish_next (by simpa using ok)

include ok hp hkind turn ho hbody hline

theorem atPacket_spec (hk : k ≠ .atc) :
    let r := performAts s o.lk o.core k ts
    exec (.atPacket op) s = .next (l2Back p.slice (closePacket (updOp r.2.2 op (fun o => { o with body := .result d n (vals ++ r.1) (ps ++ r.2.1) ls none pu q })) p) (p.pa / 64)) := by
  intro r
  obtain ⟨hall, hleft⟩ := filter_onLine hline
  have hatoms : performAtoms s op (onLine (p.pa / 64)) = updOp r.2.2 op (fun o => { o with body := .result d n (vals ++ r.1) (ps ++ r.2.1) ls none pu q }) := by
    unfold performAtoms
    rw [ho]
    dsimp only
    rw [hbody]
    dsimp only
    rw [if_neg hk, hall, hleft]
    rfl
  rw [← hatoms]
  exact servePackets_spec ok hp hkind turn

theorem atcPacket_spec (hk : k = .atc) :
    ∃ t o' rs, exec (.atcPacket op) s = .next t ∧ opOf t op = some o' ∧ o'.body = .cont (some rs) ∧ rs.map (fun e => e.1) = pu.map (fun e => e.1) ++ ts.map (fun x => x.idx) := by
  obtain ⟨hall, hleft⟩ := filter_onLine hline
  obtain ⟨rs, u, hr⟩ : ∃ rs u, ts.foldl (atcNext o) (pu, s) = (rs, u) := ⟨_, _, rfl⟩
  have hatoms : performAtoms s op (onLine (p.pa / 64)) = updOp u op (fun o => { o with body := .cont (some rs) }) := by
    have hfold : ts.foldl (fun (acc : List (ℕ × Bool) × State) t =>
        let (refused, a) := atcAtHome acc.2 o t
        (acc.1 ++ [(t.idx, refused)], a)) (pu, s) = (rs, u) := hr
    unfold performAtoms
    rw [ho]
    dsimp only
    rw [hbody]
    dsimp only
    rw [if_pos hk, hall, hleft, hfold]
    rfl
  have hkept : Kept s u := by
    have h := kept_atcNexts o ts (pu, s)
    rwa [hr] at h
  obtain ⟨o1, ho1⟩ := Option.isSome_iff_exists.mp (isSome_opOf_of_kept hkept (Option.isSome_iff_exists.mpr ⟨o, ho⟩))
  have hfound := opOf_updOp (f := fun o => { o with body := .cont (some rs) }) rfl ho1
  have hback := (cacheless_l2Back p.slice (closePacket (performAtoms s op (onLine (p.pa / 64))) p) (p.pa / 64)).trans (cacheless_closePacket _ p)
  rw [hatoms] at hback
  refine ⟨_, { o1 with body := .cont (some rs) }, rs, servePackets_spec ok hp hkind turn, ?_, rfl, ?_⟩
  · rw [hatoms]
    exact (congrArg (fun x : State => opOf x op) hback).trans hfound
  · have h := atcNexts_idxs o ts (pu, s)
    rwa [hr] at h

end

end Sys2Proof
end

section
/-! PROOFS. Drains, walks and invalidations (R250, R261, R327 to R333). -/

namespace Sys2Proof

open Sys2Proof.Machine

/-! ### Drains (R250, R261) -/

@[simp] theorem setHome_stores (s : State) (sp : Space) (a : ℕ) (bs : List Byte) : (setHome s sp a bs).stores = s.stores := by cases sp <;> rfl

@[simp] theorem setHomePoison_stores (s : State) (sp : Space) (a n : ℕ) (p : Bool) : (setHomePoison s sp a n p).stores = s.stores := by
  cases sp <;> cases p <;> rfl

/-- The machine when an entry has left its buffer, before its bytes stand at their home. -/
def leftBuffer (s : State) (e : Store) (id : ℕ) : State :=
  { s with
    drainSeq := s.drainSeq + 1
    stores := updWhere (fun x => x.id == id) (fun x => { x with buf := none, seq := s.drainSeq + 1, old := homeBytes s e.space e.addr e.bytes.length }) s.stores }

/-- What an entry that drains leaves (R250). -/
theorem drainOne_spec {s : State} {id : ℕ} {e : Store} (canon : memoriesCanonical s) (he : s.stores.find? (fun x => x.id == id) = some e) (hbuf : e.buf.isSome = true) (housed : Housed s e.space) :
    homeBytes (drainOne s id) e.space e.addr e.bytes.length = e.bytes ∧ sameBytesBut s (drainOne s id) e.space e.addr e.bytes.length ∧
      ∀ x ∈ (drainOne s id).stores, x.id = id → x.buf = none := by
  have hfind : s.stores.find? (fun e => e.id == id && e.buf.isSome) = some e := by
    obtain ⟨hid, as, bs, hsplit, hbefore⟩ := List.find?_eq_some_iff_append.mp he
    refine List.find?_eq_some_iff_append.mpr ⟨by rw [hid, hbuf]; rfl, as, bs, hsplit, fun x hx => ?_⟩
    have hx := hbefore x hx
    simp only [Bool.not_eq_true'] at hx
    rw [hx]
    rfl
  have hdrain : drainOne s id = setHomePoison (setHome (leftBuffer s e id) e.space e.addr e.bytes) e.space e.addr e.bytes.length e.pois := by
    unfold drainOne
    rw [hfind]
    rfl
  have hpois : sameBytes (setHome (leftBuffer s e id) e.space e.addr e.bytes) (drainOne s id) := hdrain ▸ sameBytes_of_homeMem (homeMem_setHomePoison _ _ _ _ _)
  have hcanon : memoriesCanonical (leftBuffer s e id) := ⟨canon.device, canon.host, canon.teams, canon.cores⟩
  have hhoused : Housed (leftBuffer s e id) e.space := housed
  refine ⟨(hpois _ _ _).trans (homeBytes_setHome hcanon hhoused _ _), fun sp' b hb => (hpois _ _ _).trans (sameBytesBut_setHome hcanon hhoused _ _ sp' b hb), fun x hx hid => ?_⟩
  rw [hdrain, setHomePoison_stores, setHome_stores] at hx
  obtain ⟨y, _, hy⟩ := List.mem_map.mp hx
  split at hy
  · rw [← hy]
  · next hne =>
    rw [← hy] at hid
    exact absurd (beq_iff_eq.mpr hid) hne

section
variable {s : State} (ok : s.badAddr = none) {id : ℕ}
include ok

theorem bufferDrain_host {h : HostStore} (hh : s.hostStores.find? (fun h => h.id == id) = some h) :
    (s.hostStores.find? (fun x => x.ctx == h.ctx && x.agent == h.agent) = some h → exec (.bufferDrain id) s = .next (enterHostStore s h)) ∧
    (s.hostStores.find? (fun x => x.ctx == h.ctx && x.agent == h.agent) ≠ some h → exec (.bufferDrain id) s = .next s) := by
  have hexec : exec (.bufferDrain id) s = finish (if hostNext s h then enterHostStore s h else s) := by
    show execBufferDrain id s = _
    unfold execBufferDrain
    rw [hh]
  rw [hexec]
  unfold hostNext
  constructor <;> intro hnext
  · rw [if_pos (beq_iff_eq.mpr hnext)]
    exact finish_next ok
  · rw [if_neg fun h => hnext (beq_iff_eq.mp h)]
    exact finish_next ok

theorem bufferDrain_entry {e : Store} (canon : memoriesCanonical s) (hhost : s.hostStores.find? (fun h => h.id == id) = none)
    (he : s.stores.find? (fun x => x.id == id) = some e) (hcan : canDrain s e = true) (housed : ∀ l u, e.space = .scr l u → (teamOf s l u).isSome = true) :
    ∃ t, exec (.bufferDrain id) s = .next t ∧ homeBytes t e.space e.addr e.bytes.length = e.bytes ∧ sameBytesBut s t e.space e.addr e.bytes.length ∧
      t.strands = s.strands ∧ ∀ x ∈ t.stores, x.id = id → x.buf = none := by
  have hbuf : e.buf.isSome = true := by
    cases hb : e.buf with
    | none => simp [canDrain, hb] at hcan
    | some c => rfl
  have hexec : exec (.bufferDrain id) s = .next (drainOne s id) := by
    show execBufferDrain id s = _
    unfold execBufferDrain
    rw [hhost]
    dsimp only
    rw [he]
    dsimp only
    rw [if_pos hcan]
    exact finish_next (by simpa using ok)
  obtain ⟨hwritten, hothers, hstores⟩ := drainOne_spec canon he hbuf housed
  exact ⟨_, hexec, hwritten, hothers, (congrArg State.strands (kept_drainOne s id).around :), hstores⟩

end

/-! ### Walks (R327 to R329) -/

/-- Where the walk cache of the die holds nothing of the context, the walk starts at the root. -/
theorem walkStart_root {s : State} {die c : ℕ} (h : ∀ e ∈ s.walkCache, ¬(e.die = die ∧ e.ctx = c)) (va root : ℕ) : walkStart s die c va root = (5, root) := by
  have hnone : ∀ l, s.walkCache.find? (fun e => e.die == die && e.ctx == c && e.level == l && e.block == blockAt l va) = none := fun l => by
    refine List.find?_eq_none.mpr fun e he hm => h e he ?_
    simp only [Bool.and_eq_true, beq_iff_eq] at hm
    exact hm.1.1
  simp [walkStart, hnone]

theorem engineWalk_fst {s : State} {die c : ℕ} (h : ∀ e ∈ s.walkCache, ¬(e.die = die ∧ e.ctx = c)) (va : ℕ) : (engineWalk s die c va).1 = walk s c va := by
  unfold engineWalk walk
  split
  · rfl
  · cases ctxOf s c with
    | none => rfl
    | some x =>
      dsimp only
      rw [walkStart_root h]
      rfl

section
variable {s : State} (ok : s.badAddr = none)
include ok

theorem tableWalkDone_ok {die c page : ℕ} {q : WalkReq} {t : Trans} {s1 : State} (hq : s.walkReqs.find? (fun r => r.die == die && r.ctx == c && r.page == page) = some q)
    (hwalk : engineWalk { s with walkReqs := s.walkReqs.filter (fun r => !(r.die == die && r.ctx == c && r.page == page)) } die c (page * 4096) = (.ok t, s1)) (ht : t.host = false) :
    exec (.tableWalkDone die c page) s =
      .next (answerEngines (answerWalk (q.cores.foldl (fun a k => tlbInsert a k c (page * 4096) t) s1) q.sids page (.ok t)) c page (atWalk die page) (.ok t)) := by
  have hbad : s1.badAddr = none := by
    have h := badAddr_engineWalk { s with walkReqs := s.walkReqs.filter (fun r => !(r.die == die && r.ctx == c && r.page == page)) } die c (page * 4096)
    rw [hwalk] at h
    exact h.trans ok
  show execTableWalkDone die c page s = _
  unfold execTableWalkDone
  rw [hq]
  dsimp only
  rw [hwalk]
  dsimp only
  rw [if_neg (by rw [ht]; exact Bool.false_ne_true)]
  exact finish_next (by simp [hbad])

end

/-! ### Invalidations (R330, R333) -/

theorem kept_settleAccesses (s : State) (die c lo hi : ℕ) : Kept s (settleAccesses s die c lo hi) :=
  (Kept.foldl (fun a _ => kept_performFor a _ _ _) _ s).trans (Kept.foldl (fun a core => kept_drainWhere a core _) _ _)

/-- What an invalidation leaves of the rest, and of the translations of its range (R330). -/
theorem invalidateDie_spec (s : State) (die c lo hi : ℕ) :
    (invalidateDie s die c lo hi).invals = s.invals ∧ (invalidateDie s die c lo hi).out = s.out ∧
      ∀ k ∈ (invalidateDie s die c lo hi).cores, dieOfCore k.num = die → ∀ e ∈ k.tlb, entryMeets c lo hi e = false := by
  obtain ⟨u, hkept, hu⟩ : ∃ u, Kept s u ∧ invalidateDie s die c lo hi = dropRange u die c lo hi :=
    ⟨_, (kept_settleAccesses s die c lo hi).trans (Kept.of_cacheless (cacheless_foldl (fun a n => cacheless_writeBackL1 n _ a) _ _)), rfl⟩
  rw [hu]
  refine ⟨(congrArg State.invals hkept.around :), (congrArg State.out hkept.around :), fun k hk hdie e he => ?_⟩
  obtain ⟨x, _, hx⟩ := List.mem_map.mp hk
  split at hx
  · rw [← hx] at he
    simpa using (List.mem_filter.mp he).2
  · next hother =>
    rw [← hx] at hdie
    exact absurd (beq_iff_eq.mpr hdie) hother

section
variable {s : State} (ok : s.badAddr = none)
include ok

theorem invalidateComplete_spec {die : ℕ} {i : Inval} (hi : s.invals.find? (fun i => i.die == die) = some i) :
    ∃ t, exec (.invalidateComplete die) s = .next t ∧ t.invals = s.invals.erase i ∧
      (i.req = none → t.out = s.out ++ [.text "invalidate complete" [die, i.ctx, i.lo, i.hi]]) ∧
      (i.req ≠ none → ∀ q ∈ t.atsInvals, ∃ x ∈ t.invals, x.req = some q.id) ∧
      ∀ k ∈ t.cores, dieOfCore k.num = die → ∀ e ∈ k.tlb, entryMeets i.ctx i.lo i.hi e = false := by
  obtain ⟨hinvals, hout, htlb⟩ := invalidateDie_spec s die i.ctx i.lo i.hi
  have hexec : exec (.invalidateComplete die) s = execInvalidateComplete die s := rfl
  unfold execInvalidateComplete at hexec
  rw [hi] at hexec
  dsimp only at hexec
  rw [hinvals, hout] at hexec
  cases hreq : i.req with
  | none =>
    rw [hreq, Option.isNone_none, if_pos rfl] at hexec
    refine ⟨_, hexec.trans (finish_next ?_), rfl, fun _ => rfl, fun h => absurd rfl h, htlb⟩
    simpa using ok
  | some n =>
    rw [hreq, Option.isNone_some, if_neg Bool.false_ne_true] at hexec
    refine ⟨_, hexec.trans (finish_next ?_), rfl, nofun, fun _ q hq => ?_, htlb⟩
    · simpa using ok
    · obtain ⟨x, hx, hreq⟩ := List.any_eq_true.mp (List.mem_filter.mp hq).2
      exact ⟨x, hx, by simpa using hreq⟩

theorem atsInvalidateRequest_spec (pasid va size : ℕ) (hroom : s.atsInvals.length < 32) :
    ∃ t, exec (.atsInvalidateRequest pasid va size) s = .next t ∧ sameBytes s t ∧ t.invals = s.invals ++
      ((s.ctxs.filter (fun c => c.valid && c.pasid == pasid)).map (fun c => c.num)).flatMap (fun c => (List.range Config.dies).map (fun d =>
        ⟨d, c, va, va + size - 1, some s.nextId⟩)) := by
  have hexec : exec (.atsInvalidateRequest pasid va size) s = execAtsInvalidateRequest pasid va size s := rfl
  unfold execAtsInvalidateRequest at hexec
  rw [if_neg (Nat.not_le.mpr hroom)] at hexec
  refine ⟨_, hexec.trans (finish_next ?_), sameBytes_of_homeMem fun sp => ?_, rfl⟩
  · simpa using ok
  · cases sp <;> rfl

end

end Sys2Proof
end

section
/-! PROOFS. Answers of the host to translation and page requests (R332, R333), and the memory-side events (O54). -/

namespace Sys2Proof

open Sys2Proof.Machine

/-! ### What an answer to a translation leaves (R327, R331, R332) -/

/-- The machine without what an answer to a translation changes: strands, what is kept of answers, engines and TLBs, and the requests to the host that follow. -/
def aroundAnswers (s : State) : State := { s with cores := [], priReqs := [], strands := [], walkRes := [], ctxs := [] }

theorem aroundAnswers_foldl {α : Type} {f : State → α → State} (h : ∀ a x, aroundAnswers (f a x) = aroundAnswers a) (xs : List α) (s : State) :
    aroundAnswers (xs.foldl f s) = aroundAnswers s := by
  induction xs generalizing s with
  | nil => rfl
  | cons x xs ih => exact (ih (f s x)).trans (h s x)

theorem aroundAnswers_tlbInsert (s : State) (core c va : ℕ) (t : Trans) : aroundAnswers (tlbInsert s core c va t) = aroundAnswers s := by
  unfold tlbInsert putCore
  dsimp only
  split <;> rfl

/-- One strand that waits for a page translates again. -/
def retryOne (s : State) (sid : ℕ) : State :=
  match strandOf s sid with
  | some st => (match st.status with | .blocked (.walk _) | .blocked (.ats _) => unblockSid s sid | _ => s)
  | none => s

theorem retryWalk_eq (s : State) (sids : List ℕ) : retryWalk s sids = sids.foldl retryOne s := rfl

theorem aroundAnswers_retryOne (s : State) (sid : ℕ) : aroundAnswers (retryOne s sid) = aroundAnswers s := by
  unfold retryOne
  split
  · split <;> rfl
  · rfl

theorem aroundAnswers_retryWalk (s : State) (sids : List ℕ) : aroundAnswers (retryWalk s sids) = aroundAnswers s := aroundAnswers_foldl aroundAnswers_retryOne sids s

theorem aroundAnswers_answerWalk (s : State) (sids : List ℕ) (page : ℕ) (r : TransRes) : aroundAnswers (answerWalk s sids page r) = aroundAnswers s :=
  (aroundAnswers_retryWalk { s with walkRes := s.walkRes ++ sids.map (fun sid => ⟨sid, page, r⟩) } sids :)

theorem answerEngines_frame (s : State) (c page : ℕ) (p : Core → SeCmd → Bool) (r : TransRes) :
    aroundAnswers (answerEngines s c page p r) = aroundAnswers s ∧ (answerEngines s c page p r).strands = s.strands := by
  have hask : ∀ (a : State) (w : Bool), aroundAnswers (askHost a c page w) = aroundAnswers a ∧ (askHost a c page w).strands = a.strands := fun a w => by
    unfold askHost
    split <;> exact ⟨rfl, rfl⟩
  unfold answerEngines
  dsimp only
  split
  · split
    · exact ⟨rfl, rfl⟩
    · exact hask _ _
  · split
    · exact ⟨rfl, rfl⟩
    · exact hask _ _
  · exact ⟨rfl, rfl⟩

theorem sameBytes_of_aroundAnswers {s t : State} (h : aroundAnswers t = aroundAnswers s) : sameBytes s t := by
  have hmem : t.mem = s.mem := (congrArg State.mem h :)
  have hhost : t.hostMem = s.hostMem := (congrArg State.hostMem h :)
  have hteams : t.teams = s.teams := (congrArg State.teams h :)
  refine sameBytes_of_homeMem fun sp => ?_
  cases sp with
  | dev => exact hmem
  | host c => exact congrArg (fun m => (alookup m c).getD []) hhost
  | scr lk n => exact congrArg (fun ts : List Team => ((ts.find? (fun t => t.lk == lk && t.num == n)).map (fun x => x.scratch)).getD []) hteams

/-! ### The strands that waited go on (R332) -/

/-- The strand is ready, at this PC. -/
def ReadyAt (s : State) (sid : ℕ) (pc : DWord) : Prop := ∃ u, strandOf s sid = some u ∧ u.status = .ready ∧ u.pc = pc

theorem readyAt_of_strands {s t : State} (h : t.strands = s.strands) {sid : ℕ} {pc : DWord} (hr : ReadyAt s sid pc) : ReadyAt t sid pc := by
  unfold ReadyAt strandOf
  rw [h]
  exact hr

theorem strandOf_retryOne_other (s : State) {sid x : ℕ} (hx : sid ≠ x) : strandOf (retryOne s x) sid = strandOf s sid := by
  unfold retryOne
  split
  · split
    · exact strandOf_updStrand_other (fun _ => by rfl) hx
    · exact strandOf_updStrand_other (fun _ => by rfl) hx
    · rfl
  · rfl

/-- A strand that is ready stays so while others translate again. -/
theorem readyAt_retryOne {s : State} {sid : ℕ} {pc : DWord} (hr : ReadyAt s sid pc) (x : ℕ) : ReadyAt (retryOne s x) sid pc := by
  obtain ⟨u, hu, hready, hpc⟩ := hr
  by_cases hx : sid = x
  · subst hx
    have hsame : retryOne s sid = s := by
      unfold retryOne
      rw [hu]
      dsimp only
      rw [hready]
    rw [hsame]
    exact ⟨u, hu, hready, hpc⟩
  · exact ⟨u, (strandOf_retryOne_other s hx).trans hu, hready, hpc⟩

theorem readyAt_retryWalk_of_ready {s : State} {sid : ℕ} {pc : DWord} (hr : ReadyAt s sid pc) (sids : List ℕ) : ReadyAt (retryWalk s sids) sid pc := by
  rw [retryWalk_eq]
  induction sids generalizing s with
  | nil => exact hr
  | cons x xs ih => exact ih (readyAt_retryOne hr x)

/-- A strand that waits for an answer of the host, among those that translate again, is ready at its PC. -/
theorem readyAt_retryWalk {s : State} {sids : List ℕ} {st : Strand} {page : ℕ} (hs : strandOf s st.sid = some st) (hin : st.sid ∈ sids)
    (hwait : st.status = .blocked (.ats page)) : ReadyAt (retryWalk s sids) st.sid st.pc := by
  induction sids generalizing s with
  | nil => cases hin
  | cons x xs ih =>
    by_cases hx : st.sid = x
    · subst hx
      have hone : retryOne s st.sid = unblockSid s st.sid := by
        unfold retryOne
        rw [hs]
        dsimp only
        rw [hwait]
      have hready : ReadyAt (retryOne s st.sid) st.sid st.pc := by
        rw [hone]
        exact ⟨unblock s st, strandOf_updStrand_same hs rfl, rfl, rfl⟩
      exact readyAt_retryWalk_of_ready hready xs
    · exact ih ((strandOf_retryOne_other s hx).trans hs) ((List.mem_cons.mp hin).resolve_left hx)

/-- A strand when the needs that have cleared are looked at (R310). -/
def wakeOne (s : State) (st : Strand) : Strand :=
  match st.status with
  | .blocked (.stall n) => if needMet s st n then unblock s st else st
  | _ => st

theorem wakeOne_sid (s : State) (st : Strand) : (wakeOne s st).sid = st.sid := by
  unfold wakeOne
  split
  · split <;> rfl
  · rfl

theorem strandOf_wakeStalls (s : State) (sid : ℕ) : strandOf (wakeStalls s) sid = (strandOf s sid).map (wakeOne s) := find?_map_sid (wakeOne_sid s) s.strands sid

theorem readyAt_wakeStalls {s : State} {sid : ℕ} {pc : DWord} (hr : ReadyAt s sid pc) : ReadyAt (wakeStalls s) sid pc := by
  obtain ⟨u, hu, hready, hpc⟩ := hr
  have hsame : wakeOne s u = u := by
    unfold wakeOne
    rw [hready]
  exact ⟨u, by rw [strandOf_wakeStalls, hu, Option.map_some, hsame], hready, hpc⟩

/-! ### The answer of the host (R332) -/

/-- What the answer of the host for a page leaves: the rest of the machine, and the strands that waited for it ready at their PCs. -/
structure Answered (s t : State) (sids : List ℕ) (page : ℕ) : Prop where
  around : aroundAnswers t = aroundAnswers s
  ready : ∀ st, strandOf s st.sid = some st → st.sid ∈ sids → st.status = .blocked (.ats page) → ReadyAt t st.sid st.pc

/-- The strands and the engines translate again (R330). -/
theorem answered_retry (s : State) (sids : List ℕ) (page : ℕ) (p : Core → SeCmd → Bool) (f : SeCmd → SeCmd) : Answered s (mapCmds (retryWalk s sids) p f) sids page :=
  ⟨(aroundAnswers_retryWalk s sids :), fun _ hs hin hwait => readyAt_of_strands (s := retryWalk s sids) rfl (readyAt_retryWalk hs hin hwait)⟩

/-- They go on with the answer (R332). -/
theorem answered_answer {s u : State} (haround : aroundAnswers u = aroundAnswers s) (hstrands : u.strands = s.strands) (sids : List ℕ) (page c : ℕ) (p : Core → SeCmd → Bool)
    (r : TransRes) : Answered s (answerEngines (answerWalk u sids page r) c page p r) sids page := by
  obtain ⟨hframe, hsame⟩ := answerEngines_frame (answerWalk u sids page r) c page p r
  refine ⟨hframe.trans ((aroundAnswers_answerWalk u sids page r).trans haround), fun st hs hin hwait => readyAt_of_strands hsame (readyAt_wakeStalls (readyAt_retryWalk ?_ hin hwait))⟩
  rw [← hs]
  exact congrArg (fun ss : List Strand => ss.find? (fun t => t.sid == st.sid)) hstrands

/-- The answer for a page is kept, and remembered in the TLBs of the cores that asked (R330, R332). -/
theorem keptAnswer_frame (s : State) (c page frame : ℕ) (write : Bool) (cores : List ℕ) (va : ℕ) (t : Trans) :
    let u := cores.foldl (fun a k => tlbInsert a k c va t) (keepHostPage s c page frame write)
    aroundAnswers u = aroundAnswers s ∧ u.strands = s.strands :=
  ⟨(aroundAnswers_foldl (fun a k => aroundAnswers_tlbInsert a k c va t) cores _).trans rfl,
    (congrArg State.strands (cacheless_foldl (fun a k => cacheless_tlbInsert a k c va t) cores (keepHostPage s c page frame write)) :)⟩

section
variable {s : State} (ok : s.badAddr = none)
include ok

theorem atsCompletion_answered {c page : ℕ} {q : AtsReq} (ans : AtsAnswer) (hq : s.atsReqs.find? (fun r => r.ctx == c && r.page == page) = some q) :
    ∃ t, exec (.atsCompletion c page ans) s = .next t ∧ Answered { s with atsReqs := s.atsReqs.filter (fun r => !(r.ctx == c && r.page == page)) } t q.sids page := by
  have hexec : exec (.atsCompletion c page ans) s = execAtsCompletion c page ans s := rfl
  unfold execAtsCompletion at hexec
  rw [hq] at hexec
  dsimp only at hexec
  split at hexec
  · next leaf hleaf =>
    split at hexec
    · exact ⟨_, hexec.trans (finish_next (by simpa using ok)), answered_retry _ _ _ _ _⟩
    · by_cases hread : ans.read = true
      · rw [if_pos hread] at hexec
        dsimp only at hexec
        obtain ⟨haround, hstrands⟩ := keptAnswer_frame { s with atsReqs := s.atsReqs.filter (fun r => !(r.ctx == c && r.page == page)) } c page
          (((hostTrans leaf (page * 4096) ans).base + page * 4096 % (hostTrans leaf (page * 4096) ans).size) / 4096) ans.write q.cores (page * 4096) (hostTrans leaf (page * 4096) ans)
        exact ⟨_, hexec.trans (finish_next (by simpa using ok)), answered_answer haround hstrands _ _ _ _ _⟩
      · rw [if_neg hread] at hexec
        exact ⟨_, hexec.trans (finish_next (by simpa using ok)), answered_answer rfl rfl _ _ _ _ _⟩
  · exact ⟨_, hexec.trans (finish_next (by simpa using ok)), answered_retry _ _ _ _ _⟩

theorem atsCompletion_spec {c page : ℕ} {q : AtsReq} (ans : AtsAnswer) (hq : s.atsReqs.find? (fun r => r.ctx == c && r.page == page) = some q) :
    ∃ t, exec (.atsCompletion c page ans) s = .next t ∧ sameBytes s t ∧ (∀ r ∈ t.atsReqs, ¬(r.ctx = c ∧ r.page = page)) ∧
      ∀ st, strandOf s st.sid = some st → st.sid ∈ q.sids → st.status = .blocked (.ats page) → ∃ u, strandOf t st.sid = some u ∧ u.status = .ready ∧ u.pc = st.pc := by
  obtain ⟨t, hexec, haround, hready⟩ := atsCompletion_answered ok ans hq
  have hasked : sameBytes s { s with atsReqs := s.atsReqs.filter (fun r => !(r.ctx == c && r.page == page)) } := sameBytes_of_homeMem fun sp => by cases sp <;> rfl
  refine ⟨t, hexec, sameBytes_trans hasked (sameBytes_of_aroundAnswers haround), fun r hr => ?_, hready⟩
  have hreqs : t.atsReqs = s.atsReqs.filter (fun r => !(r.ctx == c && r.page == page)) := (congrArg State.atsReqs haround :)
  rw [hreqs] at hr
  exact fun h => by simpa [h.1, h.2] using (List.mem_filter.mp hr).2

end

/-! ### The answer to a page request (R289, R332, R333) -/

/-- The host has answered for a page: engines that wait for it go on, or meet the fault (R207). -/
def pageServed (c page : ℕ) (ok : Bool) (a : State) : State := mapCmds a (fun _ cmd => cmd.ctx == c && cmd.waiting == some (page, .service)) (servedCmd page ok)

/-- Some strand or engine waits for the page to migrate (R289). -/
def pageMoves (s : State) (c page : ℕ) : Bool :=
  (stopsAt s c page).any (fun t => t.cause == 5) ||
    s.cores.any (fun k => k.engines.any (fun q => q.any (fun cmd => cmd.ctx == c && cmd.waiting == some (page, .service) && (match alookup cmd.answers page with
      | some (.fault 5 _) => true | _ => false))))

/-- The page request is no more before the host. -/
def pageAnswered (s : State) (c page : ℕ) : State := { s with priReqs := s.priReqs.filter (fun r => !(r.ctx == c && r.page == page)) }

@[simp] theorem badAddr_pageServed (c page : ℕ) (ok : Bool) (a : State) : (pageServed c page ok a).badAddr = a.badAddr := rfl

theorem priResponse_spec {s : State} (ok : s.badAddr = none) {c page : ℕ} (code : PriCode) (hsent : (sentPages s).any (fun r => r.ctx == c && r.page == page) = true) :
    let s1 := pageAnswered s c page
    let r := freeBool (pageServed c page false s1)
    exec (.priResponse c page code) s = .next (
      if code = .success then (stopsAt s1 c page).foldl (serveStop .resume) (pageServed c page true (if pageMoves s1 c page then migratePage s1 c page else s1))
      else if r.1 then (stopsAt r.2 c page).foldl (serveStop .kill) r.2 else r.2) := by
  intro s1 r
  have hexec : exec (.priResponse c page code) s = finish (if !(sentPages s).any (fun r => r.ctx == c && r.page == page) then s else
      match code with
      | .success => (stopsAt s1 c page).foldl (serveStop .resume) (pageServed c page true (if pageMoves s1 c page then migratePage s1 c page else s1))
      | _ => if r.1 then (stopsAt r.2 c page).foldl (serveStop .kill) r.2 else r.2) := by cases code <;> rfl
  have hs1 : s1.badAddr = none := ok
  have hr : r.2.badAddr = none := ok
  rw [hexec, hsent, if_neg (by simp)]
  have hmoved : (if pageMoves s1 c page then migratePage s1 c page else s1).badAddr = none := by split <;> simp [hs1]
  have hkill : (if r.1 then (stopsAt r.2 c page).foldl (serveStop .kill) r.2 else r.2).badAddr = none := by split <;> simp [hr]
  cases code with
  | success =>
    rw [if_pos rfl]
    exact finish_next (by simp [hmoved])
  | invalidRequest =>
    rw [if_neg (show PriCode.invalidRequest ≠ .success by decide)]
    exact finish_next hkill
  | responseFailure =>
    rw [if_neg (show PriCode.responseFailure ≠ .success by decide)]
    exact finish_next hkill

/-- Settles O54: each event by its own lemma. -/
theorem memorySideEvents : Obligations.MemorySideEvents := by
  intro s ok
  refine ⟨?_, ?_, ?_, ?_, ?_, ?_, ?_, ?_, ?_, ?_, ?_, ?_, ?_, ?_, ?_, ?_⟩
  · exact fun slice tag pa wide hpa hnone hclear => rdPacket_answers hpa ok hnone hclear
  · exact fun slice tag pa mask data canon hpa hnone hclear hlen => wrPacket_writes ok canon hpa hnone hclear hlen
  · exact fun slice tag pa p hpa _ turn _ _ _ => ⟨fun hp wide key => rdPacket_served ok hpa turn hp wide key, fun hp mask data key => wrPacket_served ok hpa turn hp mask data key⟩
  · exact fun op p m o d n vals ps ls k ts pu q hp hkind turn ho hbody hline =>
      ⟨fun hk => atPacket_spec ok hp hkind turn ho hbody hline hk, fun hk => atcPacket_spec ok hp hkind turn ho hbody hline hk⟩
  · exact fun b tag g slot pin => ⟨fun h => swpPacket_busy ok tag pin h, fun hfree hslot hboot => swpPacket_takes ok tag pin hfree hslot hboot⟩
  · exact fun b g w hw => swapComplete_spec ok hw
  · exact fun b hend hnodup => swapEpoch_spec ok hend hnodup
  · exact fun id h hh => bufferDrain_host ok hh
  · exact fun id e canon hhost he hcan housed => bufferDrain_entry ok canon hhost he hcan housed
  · exact fun die c page q t s1 hq hwalk ht => tableWalkDone_ok ok hq hwalk ht
  · exact fun die c va h => engineWalk_fst h va
  · exact fun die c lo hi => finish_next ok
  · exact fun die i hi => invalidateComplete_spec ok hi
  · exact fun c page ans q hq => atsCompletion_spec ok ans hq
  · exact fun pasid va size hroom => atsInvalidateRequest_spec ok pasid va size hroom
  · exact fun c page code hsent => priResponse_spec ok code hsent

end Sys2Proof
end

section
/-! PROOFS. Records and walks (O46): one field of a record changes and the bits around it stay; a walk counts up with carry. -/

namespace Sys2Proof

open Sys2Proof.Machine

/-! ### One field of a record (R195) -/

/-- A value for a field, with what stands below the field, does not reach the bits above it. -/
theorem field_and_below_lt (r : LayoutBits) {lo n : ℕ} (v : ℕ) : v % 2 ^ n * 2 ^ lo + r.toNat % 2 ^ lo < 2 ^ (lo + n) := by
  have hbelow : r.toNat % 2 ^ lo < 2 ^ lo := Nat.mod_lt _ (Nat.two_pow_pos lo)
  calc v % 2 ^ n * 2 ^ lo + r.toNat % 2 ^ lo < (v % 2 ^ n + 1) * 2 ^ lo := by rw [Nat.add_mul, Nat.one_mul]; exact Nat.add_lt_add_left hbelow _
    _ ≤ 2 ^ n * 2 ^ lo := Nat.mul_le_mul_right _ (Nat.mod_lt v (Nat.two_pow_pos n))
    _ = 2 ^ (lo + n) := by rw [← Nat.pow_add, Nat.add_comm]

/-- A record in which a field has been replaced, as a number: what stands above the field, the new value, and what stands below it. -/
theorem toNat_recSet (r : LayoutBits) {lo n : ℕ} (h : lo + n ≤ 512) (v : ℕ) :
    (recSet r lo n v).toNat = r.toNat / 2 ^ (lo + n) * 2 ^ (lo + n) + v % 2 ^ n * 2 ^ lo + r.toNat % 2 ^ lo := by
  have hfield : r.toNat = r.toNat / 2 ^ (lo + n) * 2 ^ (lo + n) + field r.toNat lo n * 2 ^ lo + r.toNat % 2 ^ lo := by
    have hlow := Nat.div_add_mod r.toNat (2 ^ lo)
    have hmid := Nat.div_add_mod (r.toNat / 2 ^ lo) (2 ^ n)
    rw [Nat.div_div_eq_div_mul, ← Nat.pow_add] at hmid
    calc r.toNat = 2 ^ lo * (2 ^ n * (r.toNat / 2 ^ (lo + n)) + field r.toNat lo n) + r.toNat % 2 ^ lo := by rw [field, hmid, hlow]
      _ = _ := by rw [Nat.pow_add]; ring
  have hhigh : (r.toNat / 2 ^ (lo + n) + 1) * 2 ^ (lo + n) ≤ 2 ^ 512 := by
    have hlt : r.toNat / 2 ^ (lo + n) < 2 ^ (512 - (lo + n)) := by
      rw [Nat.div_lt_iff_lt_mul (Nat.two_pow_pos _), ← Nat.pow_add, Nat.sub_add_cancel h]
      exact r.isLt
    calc _ ≤ 2 ^ (512 - (lo + n)) * 2 ^ (lo + n) := Nat.mul_le_mul_right _ hlt
      _ = 2 ^ 512 := (Nat.pow_add 2 _ _).symm.trans (congrArg (2 ^ ·) (Nat.sub_add_cancel h))
  have hsum : r.toNat - field r.toNat lo n * 2 ^ lo + v % 2 ^ n * 2 ^ lo = r.toNat / 2 ^ (lo + n) * 2 ^ (lo + n) + v % 2 ^ n * 2 ^ lo + r.toNat % 2 ^ lo := by omega
  unfold recSet
  rw [BitVec.toNat_ofNat, hsum, Nat.mod_eq_of_lt]
  refine lt_of_lt_of_le ?_ hhigh
  rw [Nat.add_mul, Nat.one_mul, Nat.add_assoc]
  exact Nat.add_lt_add_left (field_and_below_lt r v) _

section
variable (r : LayoutBits) {lo n : ℕ} (h : lo + n ≤ 512) (v : ℕ)
include h

theorem recSet_mod : (recSet r lo n v).toNat % 2 ^ lo = r.toNat % 2 ^ lo := by
  rw [toNat_recSet r h, Nat.pow_add, show r.toNat / (2 ^ lo * 2 ^ n) * (2 ^ lo * 2 ^ n) + v % 2 ^ n * 2 ^ lo + r.toNat % 2 ^ lo =
    r.toNat % 2 ^ lo + 2 ^ lo * (r.toNat / (2 ^ lo * 2 ^ n) * 2 ^ n + v % 2 ^ n) by ring, Nat.add_mul_mod_self_left, Nat.mod_mod]

theorem recF_recSet_same : recF (recSet r lo n v) lo n = v % 2 ^ n := by
  unfold recF
  refine field_eq _ lo n (r.toNat / 2 ^ (lo + n)) _ ?_ (Nat.mod_lt v (Nat.two_pow_pos n))
  rw [recSet_mod r h, toNat_recSet r h]

theorem recSet_div : (recSet r lo n v).toNat / 2 ^ (lo + n) = r.toNat / 2 ^ (lo + n) := by
  rw [toNat_recSet r h, Nat.add_assoc, Nat.mul_comm, Nat.mul_add_div (Nat.two_pow_pos _), Nat.div_eq_of_lt (field_and_below_lt r v), Nat.add_zero]

/-- Every bit outside the field stays. -/
theorem getLsbD_recSet_other {k : ℕ} (hk : k < lo ∨ lo + n ≤ k) : (recSet r lo n v).getLsbD k = r.getLsbD k := by
  rw [BitVec.getLsbD, BitVec.getLsbD]
  rcases hk with hk | hk
  · have hmod : ∀ x : ℕ, x.testBit k = (x % 2 ^ lo).testBit k := fun x => by simp [Nat.testBit_mod_two_pow, hk]
    rw [hmod, recSet_mod r h, ← hmod]
  · have hdiv : ∀ x : ℕ, x.testBit k = (x / 2 ^ (lo + n)).testBit (k - (lo + n)) := fun x => by rw [Nat.testBit_div_two_pow, Nat.sub_add_cancel hk]
    rw [hdiv, recSet_div r h, ← hdiv]

end

/-! ### The counters of a record (R201, R205) -/

theorem field_lt (w lo n : ℕ) : field w lo n < 2 ^ n := Nat.mod_lt _ (Nat.two_pow_pos n)

theorem recRnext_stepRing (r : LayoutBits) : recRnext (stepRing r) = (recRnext r + 1) % (recRcntm1 r + 1) := by
  have hcount : recRcntm1 r < 2 ^ 3 := field_lt _ _ _
  have hnext : (recRnext r + 1) % (recRcntm1 r + 1) < recRcntm1 r + 1 := Nat.mod_lt _ (Nat.succ_pos _)
  exact (recF_recSet_same r (by decide) _).trans (Nat.mod_eq_of_lt (by omega))

@[simp] theorem advRec_zero (r : LayoutBits) : advRec r 0 = r := rfl

/-- The sum of a counter and a signed step, modulo 2^16. -/
theorem wrapTo_add_signed (a x : ℕ) : wrapTo 16 ((a : ℤ) + signed 16 x) = (a + x) % 2 ^ 16 := by
  unfold wrapTo signed
  split <;> omega

/-- An advance word that passes the check of R205 names one of the five counters. -/
theorem dim_of_advCheck {b : Word} (hne : b ≠ 0) (h : advCheck b = 0) : field b.toNat 0 3 ≤ 4 := by
  unfold advCheck at h
  rw [if_neg hne] at h
  split at h
  · exact absurd h (by decide)
  · omega

theorem advRec_eq (r : LayoutBits) {b : Word} (hne : b ≠ 0) :
    advRec r b = recSet r (368 + 16 * (b.toNat % 8)) 16 ((recBc r (b.toNat % 8) + b.toNat / 2 ^ 16) % 2 ^ 16) := by
  have hdim : field b.toNat 0 3 = b.toNat % 8 := by simp [field]
  have hstep : field b.toNat 16 16 = b.toNat / 2 ^ 16 := Nat.mod_eq_of_lt (by have := b.isLt; omega)
  unfold advRec
  rw [if_neg hne, hdim, hstep]
  exact congrArg (recSet r _ 16) (wrapTo_add_signed _ _)

/-! ### The step of a walk (R149) -/

/-- The coordinates of a walk that counts up with carry, when those of the n lowest levels have come round; `old` are the coordinates before. -/
def CameRound (old : List ℕ) (n : ℕ) (c : List ℕ) (e : List Bool) : Prop :=
  ∀ i < 5, nth c i 0 = (if i < n then 0 else nth old i 0) ∧ nth e i false = decide (i < n)

theorem nth_set {α : Type} (xs : List α) {k : ℕ} (hk : k < xs.length) (i : ℕ) (v d : α) : nth (xs.set k v) i d = if i = k then v else nth xs i d := by
  unfold nth
  rw [List.getD_eq_getElem?_getD, List.getD_eq_getElem?_getD, List.getElem?_set]
  split
  · next h => subst h; rw [if_pos rfl]; rfl
  · next h => rw [if_neg (fun h' => h h'.symm)]

section
variable {ext old : List ℕ} (inside : ∀ k < 5, nth ext k 1 < 2 ^ 32 ∧ nth old k 0 < nth ext k 1)
include inside

/-- From level k on, with the levels below come round, the carry goes up to some level n: the levels below it have come round, it has counted, and the others stay. -/
theorem walkCarry_spec {j k : ℕ} (hjk : k + j = 5) (hj : j ≠ 0) {c : List ℕ} {e : List Bool} (hc : c.length = 5) (he : e.length = 5) (h : CameRound old k c e)
    (hbelow : ∀ i < k, nth old i 0 + 1 = nth ext i 1) :
    ∃ n ≤ 5, (∀ i < 5, nth (walkCarry ext j k c e).1 i 0 = if i < n then 0 else nth old i 0 + if i = n then 1 else 0) ∧
      (∀ i < 5, nth (walkCarry ext j k c e).2 i false = decide (i < n)) ∧ (∀ i < n, nth old i 0 + 1 = nth ext i 1) ∧ (n < 5 → nth old n 0 + 1 < nth ext n 1) := by
  induction j generalizing k c e with
  | zero => exact absurd rfl hj
  | succ j ih =>
    have hk : k < 5 := by omega
    obtain ⟨hext, hin⟩ := inside k hk
    have hv : (nth c k 0 + 1) % 2 ^ 32 = nth old k 0 + 1 := by
      rw [(h k hk).1, if_neg (Nat.lt_irrefl k), Nat.mod_eq_of_lt (by omega)]
    have hround : nth old k 0 + 1 = nth ext k 1 → CameRound old (k + 1) (c.set k 0) (e.set k true) := fun _ i hi => by
      rw [nth_set c (by omega), nth_set e (by omega), (h i hi).1, (h i hi).2]
      rcases Nat.lt_trichotomy i k with hik | hik | hik
      · simp [hik, Nat.ne_of_lt hik, Nat.lt_succ_of_lt hik]
      · simp [hik]
      · simp [Nat.ne_of_gt hik, Nat.not_lt.mpr hik.le, Nat.not_lt.mpr (Nat.succ_le_of_lt hik)]
    have hbelow' : nth old k 0 + 1 = nth ext k 1 → ∀ i < k + 1, nth old i 0 + 1 = nth ext i 1 := fun heq i hi => by
      rcases Nat.lt_succ_iff_lt_or_eq.mp hi with hik | hik
      · exact hbelow i hik
      · exact hik ▸ heq
    unfold walkCarry
    dsimp only
    rw [hv]
    split
    · next hcounts =>
      -- the level counts, and the carry ends
      refine ⟨k, hk.le, fun i hi => ?_, fun i hi => (h i hi).2, hbelow, fun _ => hcounts⟩
      rw [nth_set c (by omega), (h i hi).1]
      by_cases hik : i = k
      · simp [hik]
      · simp [hik]
    · next hcarry =>
      have heq : nth old k 0 + 1 = nth ext k 1 := by omega
      split
      · next h4 =>
        -- the highest level comes round
        subst h4
        rw [if_pos heq]
        have hlast := hround heq
        refine ⟨5, Nat.le_refl 5, fun i hi => ?_, fun i hi => (hlast i hi).2, hbelow' heq, fun h5 => absurd h5 (Nat.lt_irrefl 5)⟩
        rw [(hlast i hi).1, if_pos hi, if_pos hi]
      · exact ih (by omega) (by omega) (by simpa using hc) (by simpa using he) (hround heq) (hbelow' heq)

end

/-- The entries of a list of naturals read as integers. -/
theorem nth_castAll (xs : List ℕ) (k : ℕ) : nth (do let a ← xs; pure (a : ℤ)) k 0 = ((nth xs k 0 : ℕ) : ℤ) := by
  have hmap : (do let a ← xs; pure (a : ℤ)) = xs.map (Nat.cast : ℕ → ℤ) := by simp [List.map_eq_flatMap]
  unfold nth
  rw [hmap, List.getD_eq_getElem?_getD, List.getElem?_map, List.getD_eq_getElem?_getD]
  cases xs[k]? <;> rfl

/-- Settles O46: the records by their fields (`recF_recSet_same`, `getLsbD_recSet_other`), the walks by the level at which the carry ends (`walkCarry_spec`). -/
theorem recordsAndWalks : Obligations.RecordsAndWalks := by
  refine ⟨fun r b => ⟨?_, recRnext_stepRing r, advRec_zero r, fun hne hcheck => ?_⟩, fun w hext hstr hc => ⟨fun hb => ?_, fun hb inside => ?_⟩⟩
  · exact fun k _ hk => getLsbD_recSet_other r (by decide) _ hk
  · have hdim : b.toNat % 8 ≤ 4 := by simpa [field] using dim_of_advCheck hne hcheck
    intro n
    rw [advRec_eq r hne]
    refine ⟨fun k _ hk => getLsbD_recSet_other r (by omega) _ ?_, ?_⟩
    · omega
    · exact (recF_recSet_same r (by omega) _).trans (Nat.mod_mod _ _)
  · unfold walkOff
    rw [hb]
    rfl
  · have hstart : CameRound w.c 0 w.c (List.replicate 5 false) := fun i hi => ⟨rfl, by rw [nth, List.getD_replicate _ hi]; rfl⟩
    obtain ⟨n, hn, hcs, hes, hround, hcounts⟩ := walkCarry_spec (ext := w.ext) (fun k hk => ⟨(inside k hk).2.1, (inside k hk).2.2⟩) (j := 5) (k := 0) rfl (by decide) hc
      List.length_replicate hstart (fun i hi => absurd hi (Nat.not_lt_zero i))
    intro o sum
    have hsum : (List.range 5).foldl (fun a k => a + ((nth w.c k 0 : ℕ) : ℤ) * (nth w.str k 0).toInt) 0 = sum := by
      simp only [sum, nth_castAll]
    have ho : o = (BitVec.ofNat 32 (wrapTo 32 sum), { w with c := (walkCarry w.ext 5 0 w.c (List.replicate 5 false)).1, e := (walkCarry w.ext 5 0 w.c (List.replicate 5 false)).2 }) := by
      show walkOff w = _
      unfold walkOff
      rw [hb, hsum]
      rfl
    rw [ho]
    dsimp only
    refine ⟨?_, rfl, rfl, fun k hk => ?_, n, hn, fun k hk => ⟨?_, ?_⟩, fun k hk hnk => ⟨?_, ?_⟩, hround⟩
    · refine BitVec.eq_of_toNat_eq ?_
      rw [BitVec.toNat_ofNat, BitVec.toNat_ofInt, wrapTo]
      omega
    · rw [hcs k hk]
      have hin := (inside k hk).2.2
      split
      · omega
      · split
        · next hkn =>
          exact hkn ▸ hcounts (hkn ▸ hk)
        · omega
    · rw [hcs k (by omega), if_pos hk]
    · rw [hes k (by omega)]
      exact decide_eq_true hk
    · rw [hes k hk]
      exact decide_eq_false (by omega)
    · rw [hcs k hk, if_neg (by omega)]

end Sys2Proof
end

section
/-! PROOFS. Stream instructions (O45): the frame of a layout slot, and what SE, DLD and DST do with a sound record. -/

namespace Sys2Proof

open Sys2Proof.Machine

/-! ### The frame of a layout slot (R195, R198) -/

section
variable {h : Hdr} {s s1 : State} {st : Strand} {rs : List ℕ} {d : ℕ} {r : LayoutBits}

/-- Where nothing stands in the way and no DLD of the strand loads the slot, the frame of a layout slot reads the record and goes on. -/
theorem slotFrame_collective (c : Collective s st h.g rs true false) (hread : readSlot s st d = (r, s1)) (hloaded : (pendingSlots s st).contains d = false) (len : ℕ)
    (f : State → Strand → LayoutBits → State) : slotFrame h len rs d f s = finish (f s1 st r) := by
  unfold slotFrame
  rw [strandFrame_collective c, if_neg (by simpa using hloaded), hread]

theorem readSlot_badAddr (hread : readSlot s st d = (r, s1)) : s1.badAddr = s.badAddr := by
  have h := badAddr_readSlot s st d
  rwa [hread] at h

end

/-! ### SE (R200 to R205) -/

section
variable {h : Hdr} {d : BitVec 5} {b : Src} {e : BitVec 2} {s s1 : State} {st : Strand} {r : LayoutBits} {v : Word}

/-- The machine with an SE command of this kind issued and queued. -/
def queuedSe (s1 : State) (st : Strand) (k : SeKind) (r : LayoutBits) (d : BitVec 5) (v : Word) (e : BitVec 2) : State :=
  queueCmd (addOp s1 st .c (present st) (.engine e.toNat) false).2 st s1.nextId k r d.toNat v.toNat e.toNat

variable (c : Collective s st h.g (srcRegs b) true false) (hread : readSlot s st d.toNat = (r, s1)) (hloaded : (pendingSlots s st).contains d.toNat = false)
  (hv : uSrc st b = some v)
include c hread hloaded hv

/-- SE with a record that passes its checks, with room for its command. -/
theorem seIssue_queues {k : SeKind} (hrecord : recordCheck r (scratchOf s1 st) (some k == some .fill || some k == some .drain) (some k == some .drain) = 0)
    (hadv : k ≠ .fillw → advCheck v = 0) (hplace : k = .fillw → v.toNat % 16 = 0 ∧ v.toNat + imageSize r ≤ 524288)
    (hroom : roomFor s1 st .c true = true) (hqueue : (engineQ (coreOf s1 st.core) e.toNat).length < 32) :
    seIssue h (some k) d b e s = .next (advance (if k = .fillw then queuedSe s1 st k r d v e
      else setSlot (queuedSe s1 st k r d v e) st d.toNat (advRec (stepRing r) v)) st.sid (srcLen b)) := by
  have ok : s1.badAddr = none := (readSlot_badAddr hread).trans c.addr
  have hadv' : ¬(if some k == some SeKind.fillw then 0 else advCheck v) ≠ 0 := by
    cases k with
    | fillw => simp
    | fill => simpa using hadv nofun
    | drain => simpa using hadv nofun
  have hplace' : ¬(some k == some SeKind.fillw && (v.toNat % 16 != 0 || decide (524288 < v.toNat + imageSize r))) = true := by
    cases k with
    | fillw =>
      obtain ⟨halign, hfits⟩ := hplace rfl
      simp [halign, hfits]
    | fill => simp
    | drain => simp
  have hroom' : ¬(!roomFor s1 st .c true || !engineRoom s1 st.core e.toNat) = true := by
    have hengine : engineRoom s1 st.core e.toNat = true := decide_eq_true hqueue
    rw [hroom, hengine]
    decide
  unfold seIssue
  dsimp only
  rw [slotFrame_collective c hread hloaded, hv]
  dsimp only
  rw [if_neg (not_not.mpr hrecord), if_neg hadv', if_neg hplace', if_neg hroom', finish_next]
  · cases k <;> rfl
  · rw [badAddr_advance]
    split
    · rw [badAddr_setSlot, badAddr_queueCmd, badAddr_addOp, ok]
    · rw [badAddr_queueCmd, badAddr_addOp, ok]

/-- SE.ADV with a sound record. -/
theorem seIssue_advances (hrecord : recordCheck r (scratchOf s1 st) false false = 0) (hadv : advCheck v = 0) (hroom : roomFor s1 st .c false = true) :
    seIssue h none d b e s = .next (advance (setSlot s1 st d.toNat (advRec r v)) st.sid (srcLen b)) := by
  have ok : s1.badAddr = none := (readSlot_badAddr hread).trans c.addr
  unfold seIssue
  dsimp only
  rw [slotFrame_collective c hread hloaded, hv]
  dsimp only
  have hadv' : ¬(if none == some SeKind.fillw then 0 else advCheck v) ≠ 0 := not_not.mpr hadv
  rw [if_neg (show ¬recordCheck r (scratchOf s1 st) (none == some SeKind.fill || none == some SeKind.drain) (none == some SeKind.drain) ≠ 0 from not_not.mpr hrecord),
    if_neg hadv', if_neg (by simp), if_neg (by rw [hroom]; decide), finish_next]
  rw [badAddr_advance, badAddr_setSlot, ok]

end

/-! ### DLD and DST (R198) -/

theorem toNat_pair (lo hi : Word) : (pair lo hi).toNat = lo.toNat + 2 ^ 32 * hi.toNat := by
  unfold pair
  rw [BitVec.toNat_append, Nat.shiftLeft_eq, Nat.add_comm, ← Nat.mul_comm, Nat.two_pow_add_eq_or_of_lt lo.isLt]

section
variable {h : Hdr} {d : BitVec 5} {a k : R11} {s s1 : State} {st : Strand} {r : LayoutBits} {lo hi : Word} {sp : Space} {pa : ℕ}

/-- The address of a DLD or a DST (R164). -/
def slotAddr (lo hi : Word) (k : R11) : ℕ := (((lo.toNat + 2 ^ 32 * hi.toNat : ℤ) + k.toInt) % 2 ^ 64).toNat

theorem wrapTo_pair (lo hi : Word) (k : R11) : wrapTo 64 (((pair lo hi).toNat : ℤ) + immS k) = slotAddr lo hi k := by
  unfold wrapTo slotAddr immS
  rw [toNat_pair]
  push_cast
  rfl

variable (c : Collective s st h.g [a.toNat, a.toNat + 1] true false) (hread : readSlot s st d.toNat = (r, s1)) (hloaded : (pendingSlots s st).contains d.toNat = false)
  (hlo : uReg st a.toNat = some lo) (hhi : uReg st (a.toNat + 1) = some hi)
include c hread hloaded hlo hhi

/-- Where the access is permitted, what answers it is forgotten, and the instruction goes on at the location. -/
theorem slotAccess_permitted {store : Bool} (hacc : accessOf s1 st (slotAddr lo hi k) 64 store = .ok sp pa) (f : State → Strand → LayoutBits → Space → ℕ → ℕ → State) :
    slotAccess h d a k store f s = finish (f (dropRes s1 st.sid) st r sp pa (slotAddr lo hi k)) := by
  unfold slotAccess
  rw [slotFrame_collective c hread hloaded, hlo, hhi]
  dsimp only
  rw [wrapTo_pair, hacc]

theorem exec_dld (hacc : accessOf s1 st (slotAddr lo hi k) 64 false = .ok sp pa) (hroom : roomFor (dropRes s1 st.sid) st .l true = true) :
    exec (.dld h d a k) s = .next (advance (addOp (performSame (cacheUse st.core false 0 (dropRes s1 st.sid) [(0, sp, pa)]) st.lk sp pa 64 (present st)) st .l (present st)
      (.dld d.toNat sp pa (slotAddr lo hi k) []) false).2 st.sid 8) := by
  have ok : s1.badAddr = none := (readSlot_badAddr hread).trans c.addr
  show execDld h d a k s = _
  unfold execDld
  rw [slotAccess_permitted c hread hloaded hlo hhi hacc, if_neg (by rw [hroom]; decide), finish_next]
  simpa using ok

theorem exec_dst (hacc : accessOf s1 st (slotAddr lo hi k) 64 true = .ok sp pa) (hroom : roomFor (dropRes s1 st.sid) st .s false = true) :
    exec (.dst h d a k) s = .next (advance (issueStores (cacheUse st.core false 64 (dropRes s1 st.sid) [(0, sp, pa)]) st (present st) (dstTodos (present st) sp pa r) []) st.sid 8) := by
  have ok : s1.badAddr = none := (readSlot_badAddr hread).trans c.addr
  show execDst h d a k s = _
  unfold execDst
  rw [slotAccess_permitted c hread hloaded hlo hhi hacc, if_neg (by rw [hroom]; decide), finish_next]
  simpa using ok

end

/-- Settles O45: SE through the frame of its slot, and DLD and DST through that of their access. -/
theorem streamInstructions : Obligations.StreamInstructions := by
  intro h d b e a k s st r s1 hread hloaded sc len queued room
  constructor
  · intro c v hv
    refine ⟨fun hrecord hadv hroom => ?_, fun hrecord hadv hroom => ?_, fun hrecord halign hfits hroom => ?_, fun hrecord hadv hroom => ?_⟩
    · exact seIssue_queues c hread hloaded hv (k := .fill) hrecord (fun _ => hadv) nofun hroom.1 hroom.2
    · exact seIssue_queues c hread hloaded hv (k := .drain) hrecord (fun _ => hadv) nofun hroom.1 hroom.2
    · exact seIssue_queues c hread hloaded hv (k := .fillw) hrecord (fun hk => absurd rfl hk) (fun _ => ⟨halign, hfits⟩) hroom.1 hroom.2
    · exact seIssue_advances c hread hloaded hv hrecord hadv hroom
  · intro c lo hi sp pa hlo hhi va s2
    exact ⟨exec_dld c hread hloaded hlo hhi, exec_dst c hread hloaded hlo hhi⟩

end Sys2Proof
end

section
/-! PROOFS. Cores in the table (R14), and what the marking and tagging of tiles leaves (R210, R215). -/

namespace Sys2Proof

open Sys2Proof.Machine

/-! ### Cores in the table (R14) -/

theorem coreOf_num (s : State) (n : ℕ) : (coreOf s n).num = n := by
  unfold coreOf
  cases h : s.cores.find? (fun c => c.num == n) with
  | none => rfl
  | some c => simpa using List.find?_some h

theorem coreOf_of_cores {s t : State} (h : t.cores = s.cores) (n : ℕ) : coreOf t n = coreOf s n := by rw [coreOf, h]; rfl

/-- A core that has been put is there. -/
theorem coreOf_putCore {c : Machine.Core} {n : ℕ} (h : c.num = n) (s : State) : coreOf (putCore s c) n = c := by
  subst h
  unfold putCore coreOf
  split
  · next hany =>
    obtain ⟨x, hx, hnum⟩ := List.any_eq_true.mp hany
    obtain ⟨y, hy⟩ := Option.isSome_iff_exists.mp (List.find?_isSome (p := fun x : Machine.Core => x.num == c.num) |>.mpr ⟨x, hx, hnum⟩)
    dsimp only
    rw [find?_updWhere (fun x : Machine.Core => x.num) c.num (fun _ => c) s.cores y hy rfl]
    rfl
  · next hany =>
    have hnone : s.cores.find? (fun x => x.num == c.num) = none := by
      refine List.find?_eq_none.mpr fun x hx hnum => hany (List.any_eq_true.mpr ⟨x, hx, hnum⟩)
    dsimp only
    rw [List.find?_append, hnone]
    simp

/-- And the others are as they were. -/
theorem coreOf_putCore_other {c : Machine.Core} {n : ℕ} (h : n ≠ c.num) (s : State) : coreOf (putCore s c) n = coreOf s n := by
  have hother : (c.num == n) = false := beq_eq_false_iff_ne.mpr (Ne.symm h)
  unfold putCore coreOf
  split
  · dsimp only
    congr 1
    unfold updWhere
    rw [List.find?_map]
    have hkey : (fun x : Machine.Core => x.num == n) ∘ (fun x => if x.num == c.num then c else x) = fun x => x.num == n := by
      funext x
      rw [Function.comp_apply]
      split
      · next hx => rw [hother, beq_iff_eq.mp hx, hother]
      · rfl
    rw [hkey]
    cases hx : s.cores.find? (fun x => x.num == n) with
    | none => rfl
    | some x =>
      have hnum : x.num = n := by simpa using List.find?_some hx
      rw [Option.map_some, if_neg (show ¬(x.num == c.num) = true by rw [hnum]; simpa using h)]
  · dsimp only
    rw [List.find?_append]
    cases s.cores.find? (fun x => x.num == n) <;> simp [hother]

/-! ### The memory behind a space, and the teams -/

/-- Every byte reads as before where device and host memory are the same, and each team has its scratchpad. -/
theorem sameBytes_of_scratch {s t : State} (hmem : t.mem = s.mem) (hhost : t.hostMem = s.hostMem)
    (hteams : ∀ lk n, (teamOf t lk n).map (fun x => x.scratch) = (teamOf s lk n).map (fun x => x.scratch)) : sameBytes s t := by
  refine sameBytes_of_homeMem fun sp => ?_
  cases sp with
  | dev => exact hmem
  | host c => rw [homeMem_host, homeMem_host, hhost]
  | scr lk n => rw [homeMem_scr, homeMem_scr, hteams]

/-! ### Tiles (R210, R215) -/

/-- A team with the tile in slot m changed. -/
def Machine.Team.retile (m : ℕ) (f : Tile → Tile) (t : Team) : Team :=
  { t with tiles := (List.range t.tiles.length).map (fun k => if k = m then { f (nth t.tiles k Tile.clear) with dirty := true } else nth t.tiles k Tile.clear) }

theorem updTile_eq (s : State) (lk n m : ℕ) (f : Tile → Tile) : updTile s lk n m f = updTeam s lk n (Team.retile m f) := rfl

@[simp] theorem length_retile (m : ℕ) (f : Tile → Tile) (t : Team) : (t.retile m f).tiles.length = t.tiles.length := by simp [Team.retile]

theorem tileOf_retile_same {m : ℕ} {t : Team} (hm : m < t.tiles.length) (f : Tile → Tile) : tileOf (t.retile m f) m = { f (tileOf t m) with dirty := true } := by
  simp [tileOf, Team.retile, nth, List.getD_eq_getElem?_getD, hm]

theorem tileOf_retile_other {m k : ℕ} (hk : k ≠ m) (t : Team) (f : Tile → Tile) : tileOf (t.retile m f) k = tileOf t k := by
  unfold tileOf Team.retile nth
  rw [List.getD_eq_getElem?_getD, List.getD_eq_getElem?_getD, List.getElem?_map]
  by_cases hlt : k < t.tiles.length
  · simp [hlt, hk]
  · simp [hlt]

/-- A team whose tiles and layouts are cleared: what changes of its tiles and layouts leave. -/
def Machine.Team.untiled (t : Team) : Team :=
  { t with tiles := List.replicate t.tiles.length Tile.clear, layout := List.replicate t.layout.length 0 }

theorem untiled_retile (m : ℕ) (f : Tile → Tile) (t : Team) : (t.retile m f).untiled = t.untiled := by
  unfold Team.untiled
  rw [length_retile]
  rfl

theorem teamOf_some_key {s : State} {lk n : ℕ} {t : Team} (h : teamOf s lk n = some t) : t.lk = lk ∧ t.num = n := by simpa using List.find?_some h

/-- The team itself, after it has been changed. -/
theorem teamOf_updTeam_same {f : Team → Team} (hf : ∀ t, (f t).lk = t.lk ∧ (f t).num = t.num) {s : State} {lk n : ℕ} {t : Team} (h : teamOf s lk n = some t) :
    teamOf (updTeam s lk n f) lk n = some (f t) := by
  obtain ⟨hlk, hnum⟩ := teamOf_some_key h
  rw [teamOf_updTeam hf, h, Option.map_some, if_pos (by simp [hlk, hnum])]

theorem teamOf_updTile {s : State} {lk n : ℕ} {t : Team} (h : teamOf s lk n = some t) (m : ℕ) (f : Tile → Tile) : teamOf (updTile s lk n m f) lk n = some (t.retile m f) := by
  rw [updTile_eq]
  exact teamOf_updTeam_same (f := Team.retile m f) (fun _ => ⟨rfl, rfl⟩) h

/-- Only tiles, layouts, the commands of matrix units and the free values have changed from s to t. -/
structure Retiled (s t : State) : Prop where
  rest : t = { s with teams := t.teams, cores := t.cores, nfree := t.nfree }
  teams : ∀ lk n, (teamOf t lk n).map Team.untiled = (teamOf s lk n).map Team.untiled

namespace Retiled

theorem refl (s : State) : Retiled s s := ⟨rfl, fun _ _ => rfl⟩

theorem trans {s t u : State} (h : Retiled s t) (h' : Retiled t u) : Retiled s u := by
  refine ⟨?_, fun lk n => (h'.teams lk n).trans (h.teams lk n)⟩
  rw [h'.rest, h.rest]

theorem foldl {α : Type} {f : State → α → State} (h : ∀ a x, Retiled a (f a x)) (xs : List α) (s : State) : Retiled s (xs.foldl f s) := by
  induction xs generalizing s with
  | nil => exact refl s
  | cons x xs ih => exact (h s x).trans (ih (f s x))

theorem putCore (s : State) (c : Machine.Core) : Retiled s (putCore s c) := by
  refine ⟨?_, fun lk n => by rw [teamOf, putCore_teams]; rfl⟩
  unfold Machine.putCore
  split <;> rfl

theorem updTeam {f : Team → Team} (hf : ∀ t, (f t).lk = t.lk ∧ (f t).num = t.num) (hrest : ∀ t, (f t).untiled = t.untiled) (s : State) (lk n : ℕ) :
    Retiled s (updTeam s lk n f) := by
  refine ⟨rfl, fun j k => ?_⟩
  rw [teamOf_updTeam hf, Option.map_map]
  congr 1
  funext t
  rw [Function.comp_apply]
  split
  · exact hrest t
  · rfl

theorem updTile (s : State) (lk n m : ℕ) (f : Tile → Tile) : Retiled s (updTile s lk n m f) :=
  updTeam (f := Team.retile m f) (fun _ => ⟨rfl, rfl⟩) (untiled_retile m f) s lk n

theorem setSlot (s : State) (st : Strand) (d : ℕ) (r : LayoutBits) : Retiled s (setSlot s st d r) := by
  unfold Machine.setSlot
  split
  · refine updTeam (f := fun x => { x with layout := x.layout.set d r }) (fun _ => ⟨rfl, rfl⟩) (fun t => ?_) s _ _
    unfold Team.untiled
    rw [List.length_set]
  · exact refl s

theorem undefTile (s : State) (lk n m : ℕ) : Retiled s (undefTile s lk n m) := by
  have hfree : Retiled s (freeBool s).2 := ⟨rfl, fun _ _ => rfl⟩
  exact hfree.trans (updTile (freeBool s).2 lk n m (fun t => { t with undef := true, nar := if t.tag = 0 || t.tag = 4 then t.nar else (freeBool s).1 }))

theorem markClash (s : State) (st : Strand) (ms : List ℕ) (clash : Bool) : Retiled s (markClash s st ms clash) := by
  unfold Machine.markClash
  split
  · exact refl s
  · exact (putCore s _).trans (foldl (fun a m => undefTile a _ _ m) ms _)

section
variable {s t : State} (h : Retiled s t)
include h

theorem strands : t.strands = s.strands := (congrArg State.strands h.rest :)

theorem strandOf (id : ℕ) : strandOf t id = Machine.strandOf s id := by rw [Machine.strandOf, h.strands]; rfl

/-- What a team keeps whose tiles change. -/
theorem team_of {lk n : ℕ} {x : Team} (hx : teamOf s lk n = some x) : ∃ y, teamOf t lk n = some y ∧ y.untiled = x.untiled := by
  have hteam := h.teams lk n
  rw [hx] at hteam
  obtain ⟨y, hy, heq⟩ := Option.map_eq_some_iff.mp hteam
  exact ⟨y, hy, heq⟩

/-- What every change of tiles and layouts leaves of a team, its teams have as before. -/
theorem map_teamOf {α : Type} {g : Team → α} (hg : ∀ x, g x.untiled = g x) (lk n : ℕ) : (teamOf t lk n).map g = (teamOf s lk n).map g := by
  have hteam := congrArg (Option.map g) (h.teams lk n)
  rwa [Option.map_map, Option.map_map, show g ∘ Team.untiled = g from funext hg] at hteam

theorem sameBytes : sameBytes s t := by
  refine sameBytes_of_scratch (congrArg State.mem h.rest :) (congrArg State.hostMem h.rest :) fun lk n => ?_
  exact h.map_teamOf (g := fun x => x.scratch) (fun _ => rfl) lk n

end

end Retiled

/-- The marking of a clash changes what commands leave, not how many there are. -/
theorem length_mq_markClash (s : State) (st : Strand) (ms : List ℕ) (clash : Bool) (n : ℕ) :
    (coreOf (markClash s st ms clash) n).mq.length = (coreOf s n).mq.length := by
  have hmarks : ∀ (xs : List ℕ) (a : State), (xs.foldl (fun a m => undefTile a st.lk (st.team.getD 0) m) a).cores = a.cores := fun xs => by
    induction xs with
    | nil => exact fun _ => rfl
    | cons x xs ih => exact fun a => (ih _).trans rfl
  unfold markClash
  split
  · rfl
  · dsimp only
    rw [coreOf_of_cores (hmarks ms _)]
    by_cases hn : n = st.core
    · subst hn
      rw [coreOf_putCore (by exact coreOf_num s st.core), List.length_map]
    · rw [coreOf_putCore_other (by rw [coreOf_num]; exact hn)]

end Sys2Proof
end

section
/-! PROOFS. The matrix instructions at issue (O47). -/

namespace Sys2Proof

open Sys2Proof.Machine

/-! ### What reading a slot keeps (R198) -/

theorem kept_readSlot {s s1 : State} {st : Strand} {d : ℕ} {r : LayoutBits} (h : readSlot s st d = (r, s1)) : Kept s s1 := by
  unfold readSlot at h
  dsimp only at h
  split at h
  · obtain ⟨-, rfl⟩ := Prod.mk.inj h
    exact Kept.refl s
  · split at h
    · obtain ⟨-, rfl⟩ := Prod.mk.inj h
      exact (kept_performLoadsOf s _ _).trans ⟨rfl, Nat.le_refl _⟩
    · obtain ⟨-, rfl⟩ := Prod.mk.inj h
      exact kept_performLoadsOf s _ _

/-- No comparator watches the registers, where the team's comparators are the same. -/
theorem unwatched_of_cmps {s t : State} {st x : Strand} {regs : List ℕ} (h : unwatched s st regs) (hlk : x.lk = st.lk) (hteam : x.team = st.team)
    (hcmps : ∀ n, (teamOf t st.lk n).map (fun u => u.cmps) = (teamOf s st.lk n).map (fun u => u.cmps)) : unwatched t x regs := by
  intro u hu
  rw [hlk, hteam] at hu
  obtain ⟨n, hn, hun⟩ := Option.bind_eq_some_iff.mp hu
  have hmap := hcmps n
  rw [hun, Option.map_some] at hmap
  obtain ⟨v, hv, hcmp⟩ := Option.map_eq_some_iff.mp hmap.symm
  exact hcmp ▸ h v (by rw [hn]; exact hv)

theorem classifyV_same (is : List ℕ) (hne : is ≠ []) (w : Word) : classifyV is (is.map (fun _ => w)) = .u w := by
  cases is with
  | nil => exact absurd rfl hne
  | cons i is => simp [classifyV, allEq]

/-! ### Tile operations as they are queued (R208, R211) -/

section
variable {s : State} {st : Strand}

/-- A strand that has issued a tile operation. -/
def tiled (s : State) (st : Strand) (body : OpBody) : Strand := { st with ops := st.ops ++ [s.nextId], tileIssued := (tileSlots body).foldl insertNat st.tileIssued }

theorem strandOf_queueTile (hs : strandOf s st.sid = some st) (body : OpBody) (cmd : ℕ → MxCmd) : strandOf (queueTile s st body cmd) st.sid = some (tiled s st body) := by
  unfold queueTile
  have hput : ∀ c, strandOf (putCore (addOp s st .t (present st) body false).2 c) st.sid = some { st with ops := st.ops ++ [s.nextId] } := fun c => by
    rw [strandOf, putCore_strands]
    exact strandOf_addOp hs .t (present st) body
  exact strandOf_updStrand_same (f := fun t => { t with tileIssued := (tileSlots body).foldl insertNat t.tileIssued }) (hput _) rfl

theorem teamOf_queueTile (s : State) (st : Strand) (body : OpBody) (cmd : ℕ → MxCmd) (lk n : ℕ) : teamOf (queueTile s st body cmd) lk n = teamOf s lk n := by
  have hteams : (queueTile s st body cmd).teams = s.teams := putCore_teams _ _
  rw [teamOf, hteams]
  rfl

theorem mq_queueTile (s : State) (st : Strand) (body : OpBody) (cmd : ℕ → MxCmd) :
    (coreOf (queueTile s st body cmd) st.core).mq = (coreOf s st.core).mq ++ [cmd s.nextId] := by
  have hput : coreOf (queueTile s st body cmd) st.core = { coreOf s st.core with mq := (coreOf s st.core).mq ++ [cmd s.nextId] } :=
    coreOf_putCore (c := { coreOf s st.core with mq := (coreOf s st.core).mq ++ [cmd s.nextId] }) (coreOf_num s st.core) (addOp s st .t (present st) body false).2
  rw [hput]

theorem sameBytes_queueTile (s : State) (st : Strand) (body : OpBody) (cmd : ℕ → MxCmd) : sameBytes s (queueTile s st body cmd) :=
  sameBytes_of_scratch (putCore_mem _ _) (putCore_hostMem _ _) fun lk n => by rw [teamOf_queueTile]

end

/-! ### MLOOP (R211, R213) -/

section
variable (s : State) (st : Strand) (m : BitVec 3) (fv wv : Word) (r : LayoutBits) (slot : BitVec 5) (k : ℕ) (incA : Bool)

/-- The tiles of an MLOOP that issues: marked where it meets a busy one, and tagged; the ring has stepped where it is asked to. -/
def loopTagged : State :=
  let ms := inSlots (fmtIn fv) m.toNat
  let s1 := markClash s st ms (clashAt s st ms (some (inTag (fmtIn fv))))
  let s2 := if incA then setSlot s1 st slot.toNat (stepRing r) else s1
  let s3 := updTile s2 st.lk (st.team.getD 0) m.toNat (fun t => { t with tag := inTag (fmtIn fv) })
  if fmtIn fv = 1 then updTile s3 st.lk (st.team.getD 0) (m.toNat + 1) (fun t => { t with tag := 3 }) else s3

/-- The team that issues an MLOOP, with its tiles tagged and its ring stepped. -/
def loopTeam (y : Team) : Team :=
  let y1 := if incA then { y with layout := y.layout.set slot.toNat (stepRing r) } else y
  let y2 := y1.retile m.toNat (fun t => { t with tag := inTag (fmtIn fv) })
  if fmtIn fv = 1 then y2.retile (m.toNat + 1) (fun t => { t with tag := 3 }) else y2

/-- The machine with an MLOOP queued. -/
def loopQueued : State :=
  queueTile (loopTagged s st m fv r slot incA) st (.tile m.toNat (fmtIn fv = 1) none 0) (fun oid =>
    .mloop oid st.lk (st.team.getD 0) m.toNat fv wv r slot.toNat k (((teamOf s st.lk (st.team.getD 0)).map (fun t => t.fenced)).getD [])
      (clashAt s st (inSlots (fmtIn fv) m.toNat) (some (inTag (fmtIn fv)))))

/-- The strand moves on; where it is asked to, the address in w steps over the weights of the MLOOP. -/
def loopMoved (s : State) (st : Strand) (w : Src) (incB : Bool) (step : Word) : State :=
  match incB, w with
  | true, .reg v =>
    (match strandOf s st.sid with
    | some x => writeResult s x { regs := [(v.toNat, (present x).map (fun _ => step))], stack := none, pois := [], acted := present x } (srcLen w)
    | none => s)
  | _, _ => advance s st.sid (srcLen w)

end

section
variable {s : State} {st : Strand} {m : BitVec 3} {fv wv : Word} {r : LayoutBits} {slot : BitVec 5} {k : ℕ} {incA : Bool}

theorem retiled_loopTagged : Retiled s (loopTagged s st m fv r slot incA) := by
  unfold loopTagged
  dsimp only
  have hmark := Retiled.markClash s st (inSlots (fmtIn fv) m.toNat) (clashAt s st (inSlots (fmtIn fv) m.toNat) (some (inTag (fmtIn fv))))
  generalize markClash s st (inSlots (fmtIn fv) m.toNat) (clashAt s st (inSlots (fmtIn fv) m.toNat) (some (inTag (fmtIn fv)))) = s1 at hmark
  have hring : Retiled s (if incA then setSlot s1 st slot.toNat (stepRing r) else s1) := by
    split
    · exact hmark.trans (Retiled.setSlot _ _ _ _)
    · exact hmark
  split
  · exact (hring.trans (Retiled.updTile _ _ _ _ _)).trans (Retiled.updTile _ _ _ _ _)
  · exact hring.trans (Retiled.updTile _ _ _ _ _)

theorem teamOf_setSlot {n d : ℕ} {y : Team} (hteam : st.team = some n) (h : teamOf s st.lk n = some y) :
    teamOf (setSlot s st d r) st.lk n = some { y with layout := y.layout.set d r } := by
  unfold setSlot
  rw [hteam]
  exact teamOf_updTeam_same (f := fun x => { x with layout := x.layout.set d r }) (fun _ => ⟨rfl, rfl⟩) h

theorem teamOf_loopTagged {n : ℕ} {tm : Team} (hteam : st.team = some n) (h : teamOf s st.lk n = some tm) :
    ∃ y, y.untiled = tm.untiled ∧ teamOf (loopTagged s st m fv r slot incA) st.lk n = some (loopTeam m fv r slot incA y) := by
  obtain ⟨y, hy, heq⟩ := (Retiled.markClash s st (inSlots (fmtIn fv) m.toNat) (clashAt s st (inSlots (fmtIn fv) m.toNat) (some (inTag (fmtIn fv))))).team_of h
  refine ⟨y, heq, ?_⟩
  unfold loopTagged loopTeam
  rw [hteam, Option.getD_some]
  dsimp only
  generalize markClash s st (inSlots (fmtIn fv) m.toNat) (clashAt s st (inSlots (fmtIn fv) m.toNat) (some (inTag (fmtIn fv)))) = s1 at hy
  have hring : teamOf (if incA then setSlot s1 st slot.toNat (stepRing r) else s1) st.lk n =
      some (if incA then { y with layout := y.layout.set slot.toNat (stepRing r) } else y) := by
    cases incA with
    | true => exact teamOf_setSlot hteam hy
    | false => exact hy
  split
  · exact teamOf_updTile (teamOf_updTile hring _ _) _ _
  · exact teamOf_updTile hring _ _

/-- The tags and the ring that an MLOOP leaves. -/
theorem loopTeam_spec {y : Team} (htiles : y.tiles.length = 8) (hlayout : y.layout.length = 32) (heven : fmtIn fv = 1 → m.toNat + 1 < 8) :
    (tileOf (loopTeam m fv r slot incA y) m.toNat).tag = inTag (fmtIn fv) ∧
    (fmtIn fv = 1 → (tileOf (loopTeam m fv r slot incA y) (m.toNat + 1)).tag = 3) ∧
    (incA = true → nth (loopTeam m fv r slot incA y).layout slot.toNat 0 = stepRing r) := by
  unfold loopTeam
  dsimp only
  have htiles1 : (if incA then { y with layout := y.layout.set slot.toNat (stepRing r) } else y).tiles.length = 8 := by split <;> exact htiles
  have hring : incA = true → nth (if incA then { y with layout := y.layout.set slot.toNat (stepRing r) } else y).layout slot.toNat 0 = stepRing r := fun hA => by
    rw [if_pos hA]
    have hlt : slot.toNat < y.layout.length := by rw [hlayout]; exact slot.isLt
    simp [nth, hlt]
  generalize (if incA then { y with layout := y.layout.set slot.toNat (stepRing r) } else y) = y1 at htiles1 hring
  split
  · next hfmt =>
    refine ⟨?_, fun _ => ?_, hring⟩
    · rw [tileOf_retile_other (Nat.ne_of_lt (Nat.lt_succ_self _)), tileOf_retile_same (by rw [htiles1]; exact m.isLt)]
    · rw [tileOf_retile_same (by rw [length_retile, htiles1]; exact heven hfmt)]
  · next hfmt => exact ⟨by rw [tileOf_retile_same (by rw [htiles1]; exact m.isLt)], fun h => absurd h hfmt, hring⟩

theorem coreOf_loopTagged (n : ℕ) : (coreOf (loopTagged s st m fv r slot incA) n).mq.length = (coreOf s n).mq.length := by
  rw [← length_mq_markClash s st (inSlots (fmtIn fv) m.toNat) (clashAt s st (inSlots (fmtIn fv) m.toNat) (some (inTag (fmtIn fv)))) n]
  unfold loopTagged
  dsimp only
  generalize markClash s st (inSlots (fmtIn fv) m.toNat) (clashAt s st (inSlots (fmtIn fv) m.toNat) (some (inTag (fmtIn fv)))) = s1
  have hcores : (setSlot s1 st slot.toNat (stepRing r)).cores = s1.cores := by unfold setSlot; split <;> rfl
  have hring : coreOf (if incA then setSlot s1 st slot.toNat (stepRing r) else s1) n = coreOf s1 n := by
    split
    · exact coreOf_of_cores hcores n
    · rfl
  rw [← hring]
  split <;> rfl

/-- A pair of slots starts at an even one (R213). -/
theorem mloopCheck_pair {fv wv : Word} {j : ℕ} {ks : ℕ} (h : mloopCheck s st j fv wv r ks = 0) (hfmt : fmtIn fv = 1) : j % 2 = 0 := by
  by_contra hodd
  have hpair : ((decide (fmtIn fv = 1) && decide (j % 2 = 1)) || (inSlots (fmtIn fv) j).any (fun k => !inAcc s st k)) = true := by
    rw [hfmt, show j % 2 = 1 by omega]
    rfl
  unfold mloopCheck at h
  dsimp only at h
  rw [if_pos hpair] at h
  split at h <;> exact absurd h (by decide)

end

/-! ### The strand of an MLOOP moves on (R211) -/

section
variable {t : State} {st x : Strand} {w : Src} {incB : Bool} {step : Word}

/-- The strand that a U value in v leaves. -/
theorem stepped_strand (x : Strand) (v len : ℕ) (step : Word) (hne : present x ≠ []) (y : Strand)
    (hy : y = written x { regs := [(v, (present x).map (fun _ => step))], stack := none, pois := [], acted := present x } len) :
    y.pc = x.pc + BitVec.ofNat 64 len ∧ uReg y v = some step ∧ ∀ k, k ≠ v → vform y k = vform x k := by
  have hregs : y.regs = ainsert x.regs v (.u step) := by
    rw [hy, ← classifyV_same (present x) hne step]
    rfl
  have hundef : y.undef = x.undef := by rw [hy]; rfl
  refine ⟨by rw [hy]; rfl, ?_, fun k hk => ?_⟩
  · rw [uReg, vform, hregs, alookup_ainsert_same]
  · rw [vform, vform, hregs, alookup_ainsert_other _ _ _ _ hk, hundef]

theorem loopMoved_spec (hs : strandOf t st.sid = some x) (hsid : x.sid = st.sid) (hne : present x ≠ []) (hquiet : ∀ v, w = .reg v → unwatched t x [v.toNat]) :
    loopMoved t st w incB step = { t with strands := (loopMoved t st w incB step).strands } ∧
    ∃ v, strandOf (loopMoved t st w incB step) st.sid = some v ∧ v.pc = x.pc + BitVec.ofNat 64 (srcLen w) ∧
      (∀ y, incB = true → w = .reg y → uReg v y.toNat = some step) ∧
      ∀ y : R11, (incB = false ∨ w ≠ .reg y) → vform v y.toNat = vform x y.toNat := by
  have hmoves (hadv : loopMoved t st w incB step = advance t st.sid (srcLen w)) (hno : ∀ y, incB = true → w ≠ .reg y) :
      loopMoved t st w incB step = { t with strands := (loopMoved t st w incB step).strands } ∧
      ∃ v, strandOf (loopMoved t st w incB step) st.sid = some v ∧ v.pc = x.pc + BitVec.ofNat 64 (srcLen w) ∧
        (∀ y, incB = true → w = .reg y → uReg v y.toNat = some step) ∧
        ∀ y : R11, (incB = false ∨ w ≠ .reg y) → vform v y.toNat = vform x y.toNat := by
    rw [hadv]
    exact ⟨rfl, _, strandOf_advance hs (srcLen w), rfl, fun y hB hw => absurd hw (hno y hB), fun _ _ => rfl⟩
  cases incB with
  | false => exact hmoves (by cases w <;> rfl) nofun
  | true =>
    cases w with
    | lit a => exact hmoves rfl nofun
    | reg v =>
      have hput : loopMoved t st (.reg v) true step =
          putStrand t (written x { regs := [(v.toNat, (present x).map (fun _ => step))], stack := none, pois := [], acted := present x } (srcLen (.reg v))) := by
        unfold loopMoved
        dsimp only
        rw [hs]
        refine writeResult_eq (by rw [hsid]; exact hs) (.inl fun c hc => ?_) fun _ => hquiet v rfl
        rw [List.mem_singleton.mp hc, classifyV_same _ hne]
        rfl
      rw [hput]
      obtain ⟨hpc, hreg, hothers⟩ := stepped_strand x v.toNat (srcLen (.reg v)) step hne _ rfl
      refine ⟨rfl, _, strandOf_putStrand hs hsid, hpc, fun y _ hw => ?_, fun y hy => hothers y.toNat fun heq => ?_⟩
      · rw [← Src.reg.inj hw]
        exact hreg
      · rcases hy with hB | hw
        · exact absurd hB (by decide)
        · exact hw (by rw [BitVec.eq_of_toNat_eq heq])

end

section
variable {h : Hdr} {m : BitVec 3} {f : R11} {w : Src} {slot : BitVec 5} {ks : BitVec 6} {incA incB : Bool} {s s1 : State} {st : Strand} {fv wv : Word} {r : LayoutBits}

theorem exec_mloop (c : Collective s st h.g (f.toNat :: srcRegs w) true false) (hread : readSlot s st slot.toNat = (r, s1))
    (hloaded : (pendingSlots s st).contains slot.toNat = false) (hf : uReg st f.toNat = some fv) (hw : uSrc st w = some wv)
    (hrecord : recordCheck r (scratchOf s1 st) true false = 0) (hown : mloopCheck s1 st m.toNat fv wv r ks.toNat = 0) (hroom : roomFor s1 st .t true = true)
    (hqueue : matrixRoom s1 st.core = true) :
    exec (.mloop h m f w slot ks incA incB) s = finish (loopMoved (loopQueued s1 st m fv wv r slot ks.toNat incA) st w incB (wv + BitVec.ofNat 32 (ks.toNat * bytesB fv))) := by
  show execMloop h m f w slot ks incA incB s = _
  unfold execMloop
  dsimp only
  rw [slotFrame_collective c hread hloaded, hf, hw]
  dsimp only
  rw [if_neg (not_not.mpr hrecord), if_neg (not_not.mpr hown), if_neg (by rw [hroom, hqueue]; decide)]
  cases w <;> cases incB <;> rfl

/-- The strand and the teams once an MLOOP is queued. -/
theorem loopQueued_strand (hs : strandOf s1 st.sid = some st) (k : ℕ) :
    strandOf (loopQueued s1 st m fv wv r slot k incA) st.sid = some (tiled (loopTagged s1 st m fv r slot incA) st (.tile m.toNat (fmtIn fv = 1) none 0)) :=
  strandOf_queueTile ((retiled_loopTagged.strandOf st.sid).trans hs) _ _

theorem loopQueued_teams (k lk n : ℕ) : teamOf (loopQueued s1 st m fv wv r slot k incA) lk n = teamOf (loopTagged s1 st m fv r slot incA) lk n := teamOf_queueTile _ _ _ _ _ _

theorem loopQueued_sameBytes (k : ℕ) : sameBytes s1 (loopQueued s1 st m fv wv r slot k incA) :=
  sameBytes_trans (retiled_loopTagged (s := s1) (st := st) (m := m) (fv := fv) (r := r) (slot := slot) (incA := incA)).sameBytes (sameBytes_queueTile _ _ _ _)

theorem loopQueued_badAddr (ok : s1.badAddr = none) (k : ℕ) : (loopQueued s1 st m fv wv r slot k incA).badAddr = none :=
  (badAddr_queueTile _ _ _ _).trans ((congrArg State.badAddr (retiled_loopTagged (s := s1) (st := st) (m := m) (fv := fv) (r := r) (slot := slot) (incA := incA)).rest :).trans ok)

theorem loopQueued_length_mq (k : ℕ) : (coreOf (loopQueued s1 st m fv wv r slot k incA) st.core).mq.length = (coreOf s1 st.core).mq.length + 1 := by
  unfold loopQueued
  rw [mq_queueTile, List.length_append, coreOf_loopTagged]
  rfl

/-- No comparator that did not watch a register when the MLOOP issued does so now. -/
theorem loopQueued_unwatched (hkept : Kept s s1) (k : ℕ) {regs : List ℕ} (hquiet : unwatched s st regs) :
    unwatched (loopQueued s1 st m fv wv r slot k incA) (tiled (loopTagged s1 st m fv r slot incA) st (.tile m.toNat (fmtIn fv = 1) none 0)) regs := by
  refine unwatched_of_cmps hquiet rfl rfl fun n => ?_
  rw [loopQueued_teams, retiled_loopTagged.map_teamOf (fun _ => rfl)]
  have hbare := congrArg (Option.map (fun u : Team => u.cmps)) (hkept.teamOf st.lk n)
  rwa [Option.map_map, Option.map_map] at hbare

theorem exec_mloop_issues (c : Collective s st h.g (f.toNat :: srcRegs w) true false) (hread : readSlot s st slot.toNat = (r, s1))
    (hloaded : (pendingSlots s st).contains slot.toNat = false) (hf : uReg st f.toNat = some fv) (hw : uSrc st w = some wv)
    (hrecord : recordCheck r (scratchOf s1 st) true false = 0) (hown : mloopCheck s1 st m.toNat fv wv r ks.toNat = 0) (hroom : roomFor s1 st .t true = true)
    (hqueue : matrixRoom s1 st.core = true) {tm : Team} (htm : teamOf s1 st.lk (st.team.getD 0) = some tm) (htiles : tm.tiles.length = 8) (hlayout : tm.layout.length = 32)
    (hquiet : ∀ v, w = .reg v → unwatched s st [v.toNat]) :
    ∃ t tm' v, exec (.mloop h m f w slot ks incA incB) s = .next t ∧ sameBytes s1 t ∧ teamOf t st.lk (st.team.getD 0) = some tm' ∧
      (tileOf tm' m.toNat).tag = inTag (fmtIn fv) ∧ (fmtIn fv = 1 → (tileOf tm' (m.toNat + 1)).tag = 3) ∧ (incA = true → nth tm'.layout slot.toNat 0 = stepRing r) ∧
      (coreOf t st.core).mq.length = (coreOf s1 st.core).mq.length + 1 ∧ strandOf t st.sid = some v ∧ v.pc = st.pc + BitVec.ofNat 64 (srcLen w) ∧
      (∀ x, incB = true → w = .reg x → uReg v x.toNat = some (wv + BitVec.ofNat 32 (ks.toNat * bytesB fv))) ∧
      ∀ x, (incB = false ∨ w ≠ .reg x) → vform v x.toNat = vform st x.toNat := by
  have hkept := kept_readSlot hread
  have ok : s1.badAddr = none := (readSlot_badAddr hread).trans c.addr
  have hs1 : strandOf s1 st.sid = some st := (hkept.strandOf st.sid).trans c.here
  obtain ⟨n, hteam⟩ := Option.isSome_iff_exists.mp (c.placed rfl)
  rw [hteam, Option.getD_some] at htm ⊢
  obtain ⟨y, hy, hty⟩ := teamOf_loopTagged (m := m) (fv := fv) (r := r) (slot := slot) (incA := incA) hteam htm
  have hlens : y.tiles.length = 8 ∧ y.layout.length = 32 := by
    have htl := congrArg (fun u : Team => u.tiles.length) hy
    have hll := congrArg (fun u : Team => u.layout.length) hy
    simp only [Team.untiled, List.length_replicate] at htl hll
    exact ⟨htl.trans htiles, hll.trans hlayout⟩
  have heven : fmtIn fv = 1 → m.toNat + 1 < 8 := fun hfmt => by
    have hpair := mloopCheck_pair hown hfmt
    have := m.isLt
    omega
  obtain ⟨htag, htag3, hring⟩ := loopTeam_spec (m := m) (fv := fv) (r := r) (slot := slot) (incA := incA) hlens.1 hlens.2 heven
  obtain ⟨hrest, v, hv, hpc, hstep, hothers⟩ := loopMoved_spec (incB := incB) (step := wv + BitVec.ofNat 32 (ks.toNat * bytesB fv))
    (loopQueued_strand (m := m) (fv := fv) (wv := wv) (r := r) (slot := slot) (incA := incA) hs1 ks.toNat) rfl c.wf.held
    fun v hv => loopQueued_unwatched hkept ks.toNat (hquiet v hv)
  generalize ht : loopMoved (loopQueued s1 st m fv wv r slot ks.toNat incA) st w incB (wv + BitVec.ofNat 32 (ks.toNat * bytesB fv)) = t at hrest hv
  refine ⟨t, loopTeam m fv r slot incA y, v, ?_, ?_, ?_, htag, htag3, hring, ?_, hv, hpc, hstep, hothers⟩
  · rw [exec_mloop c hread hloaded hf hw hrecord hown hroom hqueue, ht]
    refine finish_next ?_
    rw [hrest]
    exact loopQueued_badAddr ok ks.toNat
  · rw [hrest]
    exact loopQueued_sameBytes ks.toNat
  · rw [hrest]
    exact (loopQueued_teams ks.toNat st.lk n).trans hty
  · rw [hrest]
    exact loopQueued_length_mq ks.toNat

end

/-! ### MFENCE, MWAIT, MCLR and SAFEPT (R214, R216, R217, R220) -/

section
variable {h : Hdr} {s : State} {st : Strand} (c : Collective s st h.g [] true false)
include c

theorem exec_mfence : exec (.mfence h) s =
    .next (advance (updTeam (drainWhere (performStores s st) st.core
        (fun e => e.space == .scr st.lk (st.team.getD 0) && (obsUnion (performStores s st) st.lk (present st)).contains e.id)) st.lk (st.team.getD 0)
      (fun t => { t with fenced := (obsUnion (performStores s st) st.lk (present st)).foldl insertNat t.fenced })) st.sid 8) := by
  show execMfence h s = _
  unfold execMfence
  rw [strandFrame_collective c]
  exact finish_next (by rw [badAddr_advance, badAddr_updTeam, badAddr_drainWhere, badAddr_performStores, c.addr])

variable {m : BitVec 3} (hacc : inAcc s st m.toNat = true)

section
include hacc

theorem exec_mwait_completes (hops : mwaitOps s st m.toNat = []) : exec (.mwait h m) s = .next (endRun (mwaitComplete s st m.toNat)) := by
  show execMwait h m s = _
  unfold execMwait
  rw [strandFrame_collective c, hacc, hops, finish_next]
  · rfl
  · simp [c.addr]

theorem exec_mwait_blocks (hops : mwaitOps s st m.toNat ≠ []) : exec (.mwait h m) s = .next (endRun (blockOn s st.sid (.mwait m.toNat))) := by
  have hsome : (mwaitOps s st m.toNat).isEmpty = false := by simpa using hops
  show execMwait h m s = _
  unfold execMwait
  rw [strandFrame_collective c, hacc, hsome, finish_next]
  · rfl
  · simp [c.addr]

theorem exec_mclr (hroom : roomFor s st .t true = true) : exec (.mclr h m) s =
    .next (advance (queueTile (markClash s st [m.toNat] (clashAt s st [m.toNat] none)) st (.tile m.toNat false none 0)
      (fun oid => .mclr oid st.lk (st.team.getD 0) m.toNat (clashAt s st [m.toNat] none))) st.sid 8) := by
  show execMclr h m s = _
  unfold execMclr
  rw [strandFrame_collective c, hacc, hroom, finish_next]
  · rfl
  · simp [c.addr]

end

theorem exec_safept_goes_on (mask : BitVec 8) (hnone : ∀ t, teamOf s st.lk (st.team.getD 0) = some t → t.preempt = false) :
    exec (.safept h mask) s = .next (advance s st.sid 8) := by
  show execSafept h mask s = _
  unfold execSafept
  rw [strandFrame_collective c]
  have hteam : teamOf (advance s st.sid 8) st.lk (st.team.getD 0) = teamOf s st.lk (st.team.getD 0) := rfl
  dsimp only
  rw [hteam]
  cases ht : teamOf s st.lk (st.team.getD 0) with
  | none => exact finish_next (by rw [badAddr_advance, c.addr])
  | some t =>
    dsimp only
    rw [hnone t ht, Bool.false_and, if_neg Bool.false_ne_true]
    exact finish_next (by rw [badAddr_advance, c.addr])

end

/-! ### MRD (R218, R219) -/

/-- The registers of a block hold its eight rows of eight elements (R218). -/
theorem mrdRegs_eq (fm : MrdFmt) : mrdRegs fm = 8 * mrdBits fm / 32 := by cases fm <;> rfl

section
variable {h : Hdr} {d : R11} {m : BitVec 3} {b : Src} {r : Rnd} {blk : BitVec 6} {fm : MrdFmt} {sat : Bool} {s : State} {st : Strand} {v : Word}
  (c : Collective s st h.g (srcRegs b) true false) (hv : uSrc st b = some v) (hown : mrdCheck s st m.toNat = 0) (hroom : roomFor s st .t true = true)
include c hv hown hroom

theorem exec_mrd_registers (hmode : v = 0x80000000) (hfile : d.toNat + mrdRegs fm ≤ 2048) (hbudget : d.toNat + mrdRegs fm ≤ budgetOf s st)
    (hfree : mustWait s st (List.range' d.toNat (mrdRegs fm)) false = false) :
    exec (.mrd h d m b r blk fm sat) s = .next (mrdIssue s st m.toNat d.toNat r blk.toNat fm sat true 0 (srcLen b)) := by
  have hcapable : capable s st d.toNat (mrdRegs fm) = true := decide_eq_true hbudget
  show execMrd h d m b r blk fm sat s = _
  unfold execMrd
  dsimp only
  rw [strandFrame_collective c, hv]
  dsimp only
  rw [if_neg (not_not.mpr hown), if_pos hmode, if_neg (Nat.not_lt.mpr hfile), hcapable, hfree, hroom, finish_next]
  · rfl
  · simp [c.addr]

theorem exec_mrd_scratch (hlow : v.toNat < 2 ^ 31) (halign : v.toNat % 16 = 0) {sp : Space} {a a' : ℕ} (hfirst : scratchAt s st v.toNat 1 = .ok sp a)
    (hlast : scratchAt s st (v.toNat + 64 * mrdBits fm - 1) 1 = .ok sp a') :
    exec (.mrd h d m b r blk fm sat) s = .next (mrdIssue s st m.toNat d.toNat r blk.toNat fm sat false v.toNat (srcLen b)) := by
  have hmode : v ≠ 0x80000000 := by
    rintro rfl
    exact absurd hlow (by decide)
  show execMrd h d m b r blk fm sat s = _
  unfold execMrd
  dsimp only
  rw [strandFrame_collective c, hv]
  dsimp only
  rw [if_neg (not_not.mpr hown), if_neg hmode, if_neg (Nat.not_le.mpr hlow), if_neg (not_not.mpr halign), hfirst, hlast]
  dsimp only
  rw [if_neg (not_not.mpr rfl), hroom, finish_next]
  · rfl
  · simp [c.addr]

end

/-- Settles O47: MLOOP, MFENCE, MWAIT, MCLR, MRD and SAFEPT at issue. -/
theorem matrixInstructions : Obligations.MatrixInstructions := by
  unfold Obligations.MatrixInstructions
  intro h m f d w slot ks incA incB r blk fm sat mask s st
  refine ⟨?_, fun c => ?_, fun c v hv hown hroom => ?_⟩
  · intro c fv wv rec s1 tm hread hloaded hf hw hrecord hown hroom hqueue htm htiles hlayout hquiet
    exact exec_mloop_issues c hread hloaded hf hw hrecord hown hroom (decide_eq_true hqueue) htm htiles hlayout hquiet
  · exact ⟨exec_mfence c, fun hacc => ⟨exec_mwait_completes c hacc, exec_mwait_blocks c hacc, exec_mclr c hacc⟩, exec_safept_goes_on c mask⟩
  · refine ⟨fun hmode hfile hbudget hfree => ?_, fun sp a a' hlow halign hfirst hlast => exec_mrd_scratch c hv hown hroom hlow halign hfirst hlast⟩
    rw [← mrdRegs_eq] at hfile hbudget hfree
    exact exec_mrd_registers c hv hown hroom hmode hfile hbudget hfree

end Sys2Proof
end

section
/-! PROOFS. Stream engines (R200 to R207): the queue of an engine, and what the move of an element leaves. -/

namespace Sys2Proof

open Sys2Proof.Machine

/-! ### The queue of an engine (R200) -/

/-- A queue that is not empty is one of the core's four. -/
theorem engine_lt {c : Machine.Core} {e : ℕ} {cmd : SeCmd} {rest : List SeCmd} (h : engineQ c e = cmd :: rest) : e < c.engines.length := by
  by_contra hle
  rw [engineQ, nth, List.getD_eq_getElem?_getD, List.getElem?_eq_none (Nat.le_of_not_lt hle)] at h
  exact absurd h (List.cons_ne_nil cmd rest).symm

theorem coreOf_setEngineQ (s : State) (core e : ℕ) (q : List SeCmd) :
    coreOf (setEngineQ s core e q) core = { coreOf s core with engines := (coreOf s core).engines.set e q } :=
  coreOf_putCore (c := { coreOf s core with engines := (coreOf s core).engines.set e q }) (coreOf_num s core) s

section
variable {s : State} {core e : ℕ} {cmd : SeCmd} {rest : List SeCmd} (h : engineQ (coreOf s core) e = cmd :: rest)
include h

theorem engineQ_setEngineQ (q : List SeCmd) : engineQ (coreOf (setEngineQ s core e q) core) e = q := by
  rw [coreOf_setEngineQ]
  simp [engineQ, nth, engine_lt h]

theorem setHead_eq (f : SeCmd → SeCmd) : setHead s core e f = setEngineQ s core e (f cmd :: rest) := by
  unfold setHead
  rw [h]

theorem engineQ_setHead (f : SeCmd → SeCmd) : engineQ (coreOf (setHead s core e f) core) e = f cmd :: rest := by
  rw [setHead_eq h, engineQ_setEngineQ h]

end

theorem choose_nil {s : State} (h : s.choices = []) (n : ℕ) : choose s n = (0, s) := by
  unfold choose
  rw [h]
  refine Prod.ext (Nat.zero_mod _) ?_
  rw [List.drop_nil, ← h]

/-! ### What stays beside an engine's move -/

/-- From s to t stays what the moves of a core's engines go by: translations, permissions to migrate, the replies that are awaited, and the choices. -/
structure Beside (core : ℕ) (s t : State) : Prop where
  tlb : (coreOf t core).tlb = (coreOf s core).tlb
  launches : t.launches = s.launches
  badAddr : t.badAddr = s.badAddr
  choices : t.choices = s.choices
  away : ∀ e n, unitAway t core e n = unitAway s core e n

/-- And the queues of the core's engines stay. -/
structure Untouched (core : ℕ) (s t : State) : Prop extends Beside core s t where
  engines : (coreOf t core).engines = (coreOf s core).engines

namespace Beside
variable {core : ℕ}

theorem refl (s : State) : Beside core s s := ⟨rfl, rfl, rfl, rfl, fun _ _ => rfl⟩

theorem trans {s t u : State} (h : Beside core s t) (h' : Beside core t u) : Beside core s u :=
  ⟨h'.tlb.trans h.tlb, h'.launches.trans h.launches, h'.badAddr.trans h.badAddr, h'.choices.trans h.choices, fun e n => (h'.away e n).trans (h.away e n)⟩

theorem setHead (s : State) (e : ℕ) (f : SeCmd → SeCmd) : Beside core s (setHead s core e f) := by
  unfold Machine.setHead
  split
  · exact refl s
  · exact ⟨by rw [coreOf_setEngineQ], putCore_launches _ _, putCore_badAddr _ _, putCore_choices _ _, fun e n => by rw [unitAway, setEngineQ, putCore_packets]; rfl⟩

end Beside

namespace Untouched
variable {core : ℕ}

theorem refl (s : State) : Untouched core s s := ⟨Beside.refl s, rfl⟩

theorem trans {s t u : State} (h : Untouched core s t) (h' : Untouched core t u) : Untouched core s u :=
  ⟨h.toBeside.trans h'.toBeside, h'.engines.trans h.engines⟩

theorem foldl {α : Type} {f : State → α → State} (h : ∀ a x, Untouched core a (f a x)) (xs : List α) (s : State) : Untouched core s (xs.foldl f s) := by
  induction xs generalizing s with
  | nil => exact refl s
  | cons x xs ih => exact (h s x).trans (ih (f s x))

theorem engineQ {s t : State} (h : Untouched core s t) (e : ℕ) : engineQ (coreOf t core) e = Machine.engineQ (coreOf s core) e := congrArg (fun q => nth q e []) h.engines

theorem of_cores {s t : State} (hcores : t.cores = s.cores) (hlaunches : t.launches = s.launches) (hbad : t.badAddr = s.badAddr) (hchoices : t.choices = s.choices)
    (hpackets : t.packets = s.packets) : Untouched core s t := by
  refine ⟨⟨by rw [coreOf_of_cores hcores], hlaunches, hbad, hchoices, fun e n => ?_⟩, by rw [coreOf_of_cores hcores]⟩
  rw [unitAway, hpackets]
  rfl

/-- Of its core, caches, buffers and logs may change. -/
theorem putCore {s : State} {c : Machine.Core} (hnum : c.num = core) (htlb : c.tlb = (coreOf s core).tlb) (hengines : c.engines = (coreOf s core).engines) :
    Untouched core s (putCore s c) := by
  refine ⟨⟨by rw [coreOf_putCore hnum, htlb], putCore_launches _ _, putCore_badAddr _ _, putCore_choices _ _, fun e n => ?_⟩, by rw [coreOf_putCore hnum, hengines]⟩
  rw [unitAway, putCore_packets]
  rfl

/-- A request of a slice is none of an engine. -/
theorem sendPacket (s : State) (sl line : ℕ) {k : PacketKind} (hk : k = .rd ∨ ∃ m, k = .wr m) : Untouched core s (sendPacket s sl line k) := by
  unfold Machine.sendPacket
  split
  · refine ⟨⟨rfl, rfl, rfl, rfl, fun e n => ?_⟩, rfl⟩
    unfold unitAway
    rw [List.any_append]
    rcases hk with rfl | ⟨m, rfl⟩ <;> simp
  · exact refl s

theorem l2lines (s : State) (ls : List L2Line) : Untouched core s { s with l2lines := ls } := of_cores rfl rfl rfl rfl rfl

theorem l2Use (part : ℕ) (mask : DWord) (s : State) (line : ℕ) : Untouched core s (l2Use part mask s line) := by
  unfold Machine.l2Use l2UseAt
  dsimp only
  split
  · split <;> exact l2lines _ _
  · refine Untouched.trans (Untouched.trans ?_ (sendPacket _ _ _ (.inl rfl))) (l2lines _ _)
    split
    · exact refl s
    · split
      · exact l2lines _ _
      · exact (l2lines _ _).trans (sendPacket _ _ _ (.inr ⟨_, rfl⟩))

theorem noteMiss (line : ℕ) (s : State) : Untouched core s (noteMiss core line s) := putCore (by exact coreOf_num s core) rfl rfl

theorem l1Use (mask : DWord) (s : State) (line : ℕ) : Untouched core s (l1Use core mask s line) := by
  unfold Machine.l1Use
  dsimp only
  split
  · exact putCore (by exact coreOf_num s core) rfl rfl
  · refine Untouched.trans (Untouched.trans (Untouched.trans ?_ (foldl (fun a x => l2Use _ _ a _) _ _)) (l2Use _ _ _ _)) (noteMiss _ _)
    exact putCore (by exact coreOf_num s core) rfl rfl

theorem bulkUse (n : ℕ) (s : State) (locs : List (ℕ × Space × ℕ)) : Untouched core s (bulkUse core n s locs) := by
  unfold Machine.bulkUse
  have hfetch : ∀ (sbs : List ℕ), Untouched core s (sbs.foldl (fun a sb => (List.range 4).foldl (fun b k => Machine.l1Use core 0 b (4 * sb + k)) a) s) := fun sbs =>
    foldl (fun _ _ => foldl (fun _ _ => l1Use _ _ _) _ _) sbs s
  dsimp only
  split
  · exact hfetch _
  · exact (hfetch _).trans (foldl (fun _ _ => l1Use _ _ _) _ _)

theorem engTouch (s : State) (x : Elem) (store : Bool) (n : ℕ) : Untouched core s (engTouch s core x store n) := by
  unfold Machine.engTouch
  split
  · split
    · exact bulkUse _ _ _
    · exact refl s
  · exact refl s

theorem setHome (s : State) (sp : Space) (a : ℕ) (bs : List Byte) : Untouched core s (setHome s sp a bs) := by
  cases sp <;> exact of_cores rfl rfl rfl rfl rfl

theorem setHomePoison (s : State) (sp : Space) (a n : ℕ) (p : Bool) : Untouched core s (setHomePoison s sp a n p) := by
  cases sp with
  | scr lk t => exact of_cores rfl rfl rfl rfl rfl
  | _ => cases p <;> exact of_cores rfl rfl rfl rfl rfl

theorem appendHome (s : State) (sp : Space) (a : ℕ) (bs : List Byte) (pois : Bool) (w : Writer) (rel : Option RelRec) : Untouched core s (appendHome s sp a bs pois w rel).2 := by
  unfold Machine.appendHome
  refine Untouched.trans ?_ ((setHome _ sp a bs).trans (setHomePoison _ sp a bs.length pois))
  exact of_cores rfl rfl rfl rfl rfl

theorem engWrite (s : State) (w : Writer) (sp : Space) (a : ℕ) (bs : List Byte) (k : ℕ) : Untouched core s (engWrite s w sp a bs k).2 := by
  unfold Machine.engWrite
  split
  · exact appendHome _ _ _ _ _ _ _
  · exact appendHome _ _ _ _ _ _ _

theorem writeWeights (a : ℕ) (bs : List Byte) (s : State) : Untouched core s (writeWeights core a bs s).2 := by
  have hfresh : Untouched core s (fresh s).2 := of_cores rfl rfl rfl rfl rfl
  exact hfresh.trans (putCore (by exact coreOf_num (fresh s).2 core) rfl rfl)

theorem freeBool (s : State) : Untouched core s (freeBool s).2 := of_cores rfl rfl rfl rfl rfl

theorem updTeam (s : State) (lk n : ℕ) (f : Team → Team) : Untouched core s (updTeam s lk n f) := of_cores rfl rfl rfl rfl rfl

theorem fillGranule (s : State) (lk n g : ℕ) (w : Writer) (r : RelRec) : Untouched core s (fillGranule s lk n g w r) := of_cores rfl rfl rfl rfl rfl

theorem drainOne (s : State) (id : ℕ) : Untouched core s (drainOne s id) := by
  unfold Machine.drainOne
  split
  · exact refl s
  · refine Untouched.trans ?_ ((setHome _ _ _ _).trans (setHomePoison _ _ _ _ _))
    exact of_cores rfl rfl rfl rfl rfl

theorem drainThese (s : State) (n : ℕ) (ids : List ℕ) : Untouched core s (drainThese s n ids) := foldl drainOne _ s

end Untouched

end Sys2Proof
end

section
/-! PROOFS. Elements that an engine moves (R201 to R203, R207). -/

namespace Sys2Proof

open Sys2Proof.Machine

/-! ### One element (R207) -/

/-- An element's access goes by the command, not by how far it has come. -/
theorem elemOf_of_beside {core : ℕ} {s t : State} (h : Beside core s t) (cmd : SeCmd) (p : Option SeProg) (store : Bool) (n : ℕ) :
    elemOf t core { cmd with prog := p } store n = elemOf s core cmd store n := by
  have hlook : ∀ c va, tlbLookup t core c va = tlbLookup s core c va := fun c va => by rw [tlbLookup, h.tlb]; rfl
  have hgrant : ∀ lk, migGrant t lk = migGrant s lk := fun lk => by rw [migGrant, launchOf, h.launches]; rfl
  have hacc : ∀ va m, engAccess t core { cmd with prog := p } va m store = engAccess s core cmd va m store := fun va m => by
    unfold engAccess
    dsimp only
    rw [hlook, hgrant]
    rfl
  unfold elemOf
  dsimp only
  rw [hacc]

/-- Nothing holds an element back: its page is at hand, and of an encrypted unit the reply has come. -/
def AtHand (s : State) (core e : ℕ) (cmd : SeCmd) (store : Bool) (n : ℕ) : Prop :=
  (∀ q, (elemOf s core cmd store n).acc ≠ some (.miss q) ∧ (elemOf s core cmd store n).acc ≠ some (.bad q)) ∧
  ∀ sp a k, (elemOf s core cmd store n).acc = some (.ok sp a k) → k ≠ 0 → n ∈ (progOf cmd).sent ∧ unitAway s core e n = false

section
variable {core e : ℕ} {store : Bool} {f : State → SeCmd → Elem → State} {s : State} {cmd : SeCmd} {rest : List SeCmd}

theorem withElem_atHand {n : ℕ} (hq : engineQ (coreOf s core) e = cmd :: rest) (hwait : cmd.waiting = none) (ok : s.badAddr = none) (hhand : AtHand s core e cmd store n) :
    withElem core e store f s n = f s cmd (elemOf s core cmd store n) := by
  obtain ⟨hpage, hunit⟩ := hhand
  unfold withElem
  rw [hq]
  dsimp only
  rw [hwait, ok, if_neg (by decide)]
  split
  · next p hacc => exact absurd hacc (hpage p).1
  · next pa hacc => exact absurd hacc (hpage pa).2
  · next sp a k hacc =>
    split
    · rfl
    · next hk =>
      obtain ⟨hsent, haway⟩ := hunit sp a k hacc hk
      rw [List.contains_iff_mem.mpr hsent, haway]
      rfl
  · rfl

/-- f does an element of the head command: the element leaves those that are to be moved, and nothing else of the command changes but what it has written and its fault. -/
def Moves (core e : ℕ) (f : State → SeCmd → Elem → State) : Prop :=
  ∀ s cmd rest x, engineQ (coreOf s core) e = cmd :: rest → ∃ p, engineQ (coreOf (f s cmd x) core) e = { cmd with prog := some p } :: rest ∧
    p.left = (progOf cmd).left.filter (fun k => k != x.n) ∧ p.writing = (progOf cmd).writing ∧ p.sent = (progOf cmd).sent ∧ Beside core s (f s cmd x)

theorem foldl_withElem (hf : Moves core e f) (ns : List ℕ) (hq : engineQ (coreOf s core) e = cmd :: rest) (hwait : cmd.waiting = none) (ok : s.badAddr = none)
    (hhand : ∀ n ∈ ns, AtHand s core e cmd store n) {p : SeProg} (hp : cmd.prog = some p) :
    ∃ q, engineQ (coreOf (ns.foldl (withElem core e store f) s) core) e = { cmd with prog := some q } :: rest ∧ q.left = p.left.filter (fun k => !ns.contains k) ∧
      q.writing = p.writing ∧ Beside core s (ns.foldl (withElem core e store f) s) := by
  induction ns generalizing s cmd p with
  | nil => exact ⟨p, by rw [← hp]; exact hq, by simp, rfl, Beside.refl s⟩
  | cons n ns ih =>
    have hprog : progOf cmd = p := by rw [progOf, hp]; rfl
    obtain ⟨p1, hq1, hleft1, hwriting1, hsent1, hbeside1⟩ := hf s cmd rest (elemOf s core cmd store n) hq
    rw [hprog] at hleft1 hwriting1 hsent1
    rw [List.foldl_cons, withElem_atHand hq hwait ok (hhand n List.mem_cons_self)]
    have hhand1 : ∀ m ∈ ns, AtHand (f s cmd (elemOf s core cmd store n)) core e { cmd with prog := some p1 } store m := fun m hm => by
      obtain ⟨hpage, hunit⟩ := hhand m (List.mem_cons_of_mem _ hm)
      rw [hprog] at hunit
      rw [AtHand, elemOf_of_beside hbeside1, hbeside1.away]
      exact ⟨hpage, fun sp a k hacc hk => by
        obtain ⟨hsent, haway⟩ := hunit sp a k hacc hk
        exact ⟨by rw [progOf]; exact hsent1 ▸ hsent, haway⟩⟩
    obtain ⟨q, hqq, hleft, hwriting, hbeside⟩ := ih hq1 hwait (hbeside1.badAddr.trans ok) hhand1 rfl
    refine ⟨q, hqq, ?_, hwriting.trans hwriting1, hbeside1.trans hbeside⟩
    rw [hleft, hleft1, List.filter_filter]
    refine List.filter_congr fun k _ => ?_
    show (!ns.contains k && k != n) = !(n :: ns).contains k
    rw [List.contains_cons, Bool.not_or, Bool.and_comm]
    rfl

/-- A step of all that is left, with nothing held back, leaves none. -/
theorem moveElems_all (hf : Moves core e f) (hq : engineQ (coreOf s core) e = cmd :: rest) (hwait : cmd.waiting = none) (ok : s.badAddr = none)
    (hchoice : s.choices = []) {p : SeProg} (hp : cmd.prog = some p) (hhand : ∀ n ∈ p.left, AtHand s core e cmd store n) :
    ∃ q, engineQ (coreOf (moveElems core e store f s) core) e = { cmd with prog := some q } :: rest ∧ q.left = [] ∧
      q.writing = p.writing ∧ Beside core s (moveElems core e store f s) := by
  have hmove : moveElems core e store f s = p.left.foldl (withElem core e store f) s := by
    unfold moveElems
    rw [hq]
    dsimp only
    rw [choose_nil hchoice, progOf, hp]
    rfl
  rw [hmove]
  obtain ⟨q, hqq, hleft, hwriting, hbeside⟩ := foldl_withElem hf p.left hq hwait ok hhand hp
  refine ⟨q, hqq, ?_, hwriting, hbeside⟩
  rw [hleft, List.filter_eq_nil_iff]
  intro k hk
  rw [List.contains_iff_mem.mpr hk]
  decide

/-- A step that moves the one element that is left. -/
theorem moveElems_one {n : ℕ} (hq : engineQ (coreOf s core) e = cmd :: rest) (hwait : cmd.waiting = none) (ok : s.badAddr = none) (hchoice : s.choices = [])
    (hleft : (progOf cmd).left = [n]) (hhand : AtHand s core e cmd store n) : moveElems core e store f s = f s cmd (elemOf s core cmd store n) := by
  unfold moveElems
  rw [hq]
  dsimp only
  rw [choose_nil hchoice, hleft]
  exact withElem_atHand hq hwait ok hhand

theorem whenMoved_empty {g : SeCmd → State → State} (hq : engineQ (coreOf s core) e = cmd :: rest) (hleft : (progOf cmd).left = []) : whenMoved core e g s = g cmd s := by
  unfold whenMoved
  rw [hq]
  dsimp only
  rw [hleft]
  rfl

end

/-! ### The elements of FILL, FILLW and DRAIN (R201 to R203) -/

section
variable {core e : ℕ}

theorem beside_elemDone (s : State) (n : ℕ) (ids : List ℕ) (fault : Option Report) : Beside core s (elemDone s core e n ids fault) := Beside.setHead s e _

/-- Doing an element, after what leaves the engines as they are. -/
theorem moves_elemDone {s t : State} (h : Untouched core s t) {cmd : SeCmd} {rest : List SeCmd} (hq : engineQ (coreOf s core) e = cmd :: rest) (n : ℕ) (ids : List ℕ)
    (fault : Option Report) : ∃ p, engineQ (coreOf (elemDone t core e n ids fault) core) e = { cmd with prog := some p } :: rest ∧
      p.left = (progOf cmd).left.filter (fun k => k != n) ∧ p.writing = (progOf cmd).writing ∧ p.sent = (progOf cmd).sent ∧ Beside core s (elemDone t core e n ids fault) :=
  ⟨_, engineQ_setHead ((h.engineQ e).trans hq) _, rfl, rfl, rfl, h.toBeside.trans (beside_elemDone t n ids fault)⟩

theorem moves_fillElem {write : SeCmd → ℕ → List Byte → State → ℕ × State} (hw : ∀ cmd n bs a, Untouched core a (write cmd n bs a).2) : Moves core e (fillElem core e write) := by
  intro s cmd rest x hq
  have htouch := Untouched.engTouch (core := core) s x false 0
  unfold fillElem
  dsimp only
  split
  · exact moves_elemDone (htouch.trans (hw cmd x.n _ _)) hq x.n _ none
  · exact moves_elemDone htouch hq x.n [] _

theorem moves_drainElem : Moves core e (drainElem core e) := by
  intro s cmd rest x hq
  unfold drainElem
  dsimp only
  split
  · split
    · exact moves_elemDone (Untouched.refl s) hq x.n [] _
    · exact moves_elemDone ((Untouched.engTouch s x true _).trans (Untouched.engWrite _ _ _ _ _ _)) hq x.n _ none
  · exact moves_elemDone (Untouched.refl s) hq x.n [] _
  · exact moves_elemDone (Untouched.refl s) hq x.n [] none

end

end Sys2Proof
end

section
/-! PROOFS. The steps of a stream engine (R201 to R203): the start of a command, its end, and the image of a DRAIN. -/

namespace Sys2Proof

open Sys2Proof.Machine

/-! ### Start and end of a command (R259, R335) -/

section
variable {s : State} {core e : ℕ} {cmd : SeCmd} {rest : List SeCmd} {store : Bool} {ready : State → SeCmd → Bool} {run : State → State}
  (hq : engineQ (coreOf s core) e = cmd :: rest) (hwait : cmd.waiting = none)
include hq hwait

/-- A command that has started, and that has begun or need not wait, runs. -/
theorem engineStep_runs {kind : SeKind} (hkind : cmd.kind = kind) {p : SeProg} (hp : cmd.prog = some p)
    (hgo : p.writing = true ∨ p.left.length < boxCount cmd.record ∨ ready s cmd = true) : engineStep s core e kind store ready run = run s := by
  unfold engineStep
  rw [hq]
  dsimp only
  rw [hp, hkind, hwait, if_neg (by simp), if_neg]
  · rfl
  · rcases hgo with hwriting | hleft | hready
    · simp [hwriting]
    · simp [hleft]
    · simp [hready]

/-- A command that waits for its granules has started all the same. -/
theorem engineStep_starts {kind : SeKind} (hkind : cmd.kind = kind) (hp : cmd.prog = none) (hready : ready (startCmd s core e cmd store) cmd = false) :
    engineStep s core e kind store ready run = startCmd s core e cmd store := by
  unfold engineStep
  rw [hq]
  dsimp only
  rw [hp, hkind, hwait, if_neg (by simp)]
  simp [hready]

end

theorem endOp_frame (s : State) (oid : ℕ) : endOp s oid = { s with ops := (endOp s oid).ops, strands := (endOp s oid).strands } := by
  unfold endOp
  split
  · rfl
  · split <;> rfl

theorem finishCmd_frame (s : State) (core e : ℕ) (cmd : SeCmd) (ids : List ℕ) (fault : Option Report) :
    finishCmd s core e cmd ids fault =
      { setEngineQ s core e ((engineQ (coreOf s core) e).drop 1) with ops := (finishCmd s core e cmd ids fault).ops, strands := (finishCmd s core e cmd ids fault).strands } := by
  unfold finishCmd
  dsimp only
  rw [endOp_frame]
  rfl

theorem putCore_frame (s : State) (c : Machine.Core) : putCore s c = { s with cores := (putCore s c).cores } := by unfold putCore; split <;> rfl

/-- The end of a command leaves memories and teams. -/
theorem finishCmd_rest (s : State) (core e : ℕ) (cmd : SeCmd) (ids : List ℕ) (fault : Option Report) :
    finishCmd s core e cmd ids fault =
      { s with cores := (finishCmd s core e cmd ids fault).cores, ops := (finishCmd s core e cmd ids fault).ops, strands := (finishCmd s core e cmd ids fault).strands } := by
  rw [finishCmd_frame, setEngineQ, putCore_frame]

theorem setHead_frame (s : State) (core e : ℕ) (f : SeCmd → SeCmd) : setHead s core e f = { s with cores := (setHead s core e f).cores } := by
  unfold setHead
  split
  · rfl
  · exact putCore_frame _ _

/-- A command that ends leaves the queue. -/
theorem engineQ_finishCmd {s : State} {core e : ℕ} {cmd head : SeCmd} {rest : List SeCmd} (hq : engineQ (coreOf s core) e = head :: rest) (ids : List ℕ)
    (fault : Option Report) : engineQ (coreOf (finishCmd s core e cmd ids fault) core) e = rest := by
  rw [finishCmd_frame, hq]
  exact engineQ_setEngineQ hq rest

theorem coreOf_finishCmd (s : State) (core e : ℕ) (cmd : SeCmd) (ids : List ℕ) (fault : Option Report) :
    (coreOf (finishCmd s core e cmd ids fault) core).wbuf = (coreOf s core).wbuf := by
  rw [finishCmd_frame]
  show (coreOf (setEngineQ s core e _) core).wbuf = _
  rw [coreOf_setEngineQ]

/-! ### What drains at a start (R259) -/

/-- Draining an entry puts none into a buffer, and takes out those with its identity. -/
theorem buffered_of_drainOne {s : State} {id : ℕ} {x : Store} (hx : x ∈ (drainOne s id).stores) (hbuf : x.buf.isSome = true) : x ∈ s.stores ∧ x.id ≠ id := by
  unfold drainOne at hx
  split at hx
  · next hnone =>
    refine ⟨hx, fun hid => ?_⟩
    have hno := List.find?_eq_none.mp hnone x hx
    simp [hid, hbuf] at hno
  · next old _ =>
    rw [setHomePoison_stores, setHome_stores] at hx
    obtain ⟨y, hy, hyx⟩ := List.mem_map.mp hx
    by_cases hid : (y.id == id) = true
    · rw [if_pos hid] at hyx
      rw [← hyx] at hbuf
      exact absurd hbuf (by simp)
    · rw [if_neg hid] at hyx
      subst hyx
      exact ⟨hy, by simpa using hid⟩

theorem buffered_of_foldl_drainOne {ids : List ℕ} {s : State} {x : Store} (hx : x ∈ (ids.foldl drainOne s).stores) (hbuf : x.buf.isSome = true) : x ∈ s.stores ∧ x.id ∉ ids := by
  induction ids generalizing s with
  | nil => exact ⟨hx, List.not_mem_nil⟩
  | cons id ids ih =>
    obtain ⟨hmem, hids⟩ := ih hx
    obtain ⟨hs, hid⟩ := buffered_of_drainOne hmem hbuf
    exact ⟨hs, by simp [hid, hids]⟩

theorem subset_foldl_insertNat (ns xs : List ℕ) : xs ⊆ ns.foldl insertNat xs := by
  induction ns generalizing xs with
  | nil => exact List.Subset.refl xs
  | cons n ns ih => exact List.Subset.trans (subset_insertNat xs n) (ih _)

theorem subset_drainClosure (buf : List Store) (k : ℕ) (ids : List ℕ) : ids ⊆ drainClosure buf k ids := by
  have hround : ∀ (es : List Store) (a : List ℕ), a ⊆ es.foldl (fun a e => (drainsFirst buf e).foldl insertNat a) a := fun es => by
    induction es with
    | nil => exact fun a => List.Subset.refl a
    | cons e es ih => exact fun a => List.Subset.trans (subset_foldl_insertNat _ a) (ih _)
  induction k generalizing ids with
  | zero => exact List.Subset.refl ids
  | succ k ih => exact List.Subset.trans (hround _ ids) (ih _)

/-- None of the entries that were to drain is in the core's buffer. -/
theorem drained_drainThese {s : State} {core : ℕ} {ids : List ℕ} {x : Store} (hx : x ∈ (drainThese s core ids).stores) (hid : x.id ∈ ids) : x.buf ≠ some core := by
  intro hbuf
  unfold drainThese at hx
  dsimp only at hx
  obtain ⟨hs, hout⟩ := buffered_of_foldl_drainOne hx (by rw [hbuf]; rfl)
  have hbuffered : x ∈ bufferOf s core := List.mem_filter.mpr ⟨hs, by simp [hbuf]⟩
  refine hout (List.mem_map.mpr ⟨x, List.mem_filter.mpr ⟨hbuffered, List.contains_iff_mem.mpr (subset_drainClosure _ _ _ ?_)⟩, rfl⟩)
  exact List.mem_filter.mpr ⟨hid, List.any_eq_true.mpr ⟨x, hbuffered, beq_self_eq_true _⟩⟩

/-! ### Granules where memories change (R177) -/

theorem map_teamOf_updTeam {α : Type} {g : Team → α} {f : Team → Team} (hf : ∀ t, (f t).lk = t.lk ∧ (f t).num = t.num) (hg : ∀ t, g (f t) = g t) (s : State) (lk n j m : ℕ) :
    (teamOf (updTeam s lk n f) j m).map g = (teamOf s j m).map g := by
  rw [teamOf_updTeam hf, Option.map_map]
  congr 1
  funext t
  rw [Function.comp_apply]
  split
  · exact hg t
  · rfl

/-- The full granules of every team are the same. -/
def SameFull (s t : State) : Prop := ∀ lk n, (teamOf t lk n).map (fun x => x.full) = (teamOf s lk n).map (fun x => x.full)

theorem SameFull.granFull {s t : State} (h : SameFull s t) (lk n g : ℕ) : granFull t lk n g = Machine.granFull s lk n g := by
  have hteam := congrArg (fun o : Option (List ℕ) => (o.map (fun f => f.contains g)).getD false) (h lk n)
  simp only [Option.map_map] at hteam
  exact hteam

theorem SameFull.allGranules {s t : State} (h : SameFull s t) (lk n : ℕ) (gs : List ℕ) (full : Bool) : allGranules t lk n gs full = Machine.allGranules s lk n gs full := by
  unfold Machine.allGranules
  simp only [h.granFull]

theorem SameFull.trans {s t u : State} (h : SameFull s t) (h' : SameFull t u) : SameFull s u := fun lk n => (h' lk n).trans (h lk n)

theorem sameFull_setHome (s : State) (sp : Space) (a : ℕ) (bs : List Byte) : SameFull s (setHome s sp a bs) := by
  cases sp with
  | scr lk t => exact fun j m => map_teamOf_updTeam (fun _ => by exact ⟨rfl, rfl⟩) (fun _ => by rfl) s lk t j m
  | _ => exact fun _ _ => rfl

theorem sameFull_setHomePoison (s : State) (sp : Space) (a n : ℕ) (p : Bool) : SameFull s (setHomePoison s sp a n p) := by
  cases sp with
  | dev => cases p <;> exact fun _ _ => rfl
  | host c => cases p <;> exact fun _ _ => rfl
  | scr lk t =>
    intro j m
    refine map_teamOf_updTeam (fun x => ?_) (fun x => ?_) s lk t j m
    · split
      · exact ⟨rfl, rfl⟩
      · split <;> exact ⟨rfl, rfl⟩
    · split
      · rfl
      · split <;> rfl

theorem sameFull_drainOne (s : State) (id : ℕ) : SameFull s (drainOne s id) := by
  unfold drainOne
  split
  · exact fun _ _ => rfl
  · refine SameFull.trans ?_ ((sameFull_setHome _ _ _ _).trans (sameFull_setHomePoison _ _ _ _ _))
    exact fun _ _ => rfl

theorem sameFull_foldl_drainOne (ids : List ℕ) (s : State) : SameFull s (ids.foldl drainOne s) := by
  induction ids generalizing s with
  | nil => exact fun _ _ => rfl
  | cons id ids ih => exact (sameFull_drainOne s id).trans (ih _)

/-! ### The start of FILL and DRAIN -/

theorem startCmd_frame (s : State) (core e : ℕ) (cmd : SeCmd) (store : Bool) :
    startCmd s core e cmd store = { drainThese s core cmd.rels with cores := (startCmd s core e cmd store).cores } := setHead_frame _ _ _ _

theorem sameFull_startCmd (s : State) (core e : ℕ) (cmd : SeCmd) (store : Bool) : SameFull s (startCmd s core e cmd store) := by
  rw [startCmd_frame]
  exact sameFull_foldl_drainOne _ s

/-- What a command's start leaves (R259, R335). -/
theorem startCmd_starts {s : State} {core e : ℕ} {cmd : SeCmd} {rest : List SeCmd} (hq : engineQ (coreOf s core) e = cmd :: rest) (store : Bool) :
    (∀ x ∈ (startCmd s core e cmd store).stores, x.id ∈ cmd.rels → x.buf ≠ some core) ∧
    ((engineQ (coreOf (startCmd s core e cmd store) core) e).head?).any (fun c => c.prog.isSome && c.key == readKey s cmd.ctx (recKey cmd.record) store) = true := by
  refine ⟨fun x hx hid => ?_, ?_⟩
  · rw [startCmd_frame] at hx
    exact drained_drainThese hx hid
  · have hdrained : engineQ (coreOf (drainThese s core cmd.rels) core) e = cmd :: rest := ((Untouched.drainThese (core := core) s core cmd.rels).engineQ e).trans hq
    unfold startCmd
    rw [engineQ_setHead hdrained]
    simp

end Sys2Proof
end

section
/-! PROOFS. FILL, FILLW and DRAIN move their elements and end (R201 to R203). -/

namespace Sys2Proof

open Sys2Proof.Machine

/-! ### The steps as the machine takes them -/

/-- The command has started, and goes on: it is past its first element, or its granules stand as it needs them. -/
def Goes (s : State) (cmd : SeCmd) (kind : SeKind) (full : Bool) (p : SeProg) : Prop :=
  cmd.kind = kind ∧ cmd.prog = some p ∧
    (p.writing = true ∨ p.left.length < boxCount cmd.record ∨ recFeu cmd.record = false ∨ kind = .fillw ∨ allGranules s cmd.lk cmd.team (imageGranules cmd) full = true)

/-- The write of an element of a FILL to scratch. -/
def toImage (core : ℕ) (cmd : SeCmd) (n : ℕ) (bs : List Byte) (a : State) : ℕ × State :=
  appendHome a (.scr cmd.lk cmd.team) ((imageAt cmd).1 + recEszOut cmd.record * n) bs false (.engine core cmd.lk cmd.team) none

/-- The write of an element of a FILLW to the weight buffer. -/
def toWeights (core : ℕ) (cmd : SeCmd) (n : ℕ) (bs : List Byte) (a : State) : ℕ × State := writeWeights core (cmd.woff + recEszOut cmd.record * n) bs a

/-- The head command of a DRAIN writes. -/
def isWriting (core e : ℕ) (a : State) : Bool := (engineQ (coreOf a core) e).head?.any (fun c => (progOf c).writing)

/-- The reading step of a DRAIN. -/
def drainReads (core e : ℕ) (s : State) : State := if isWriting core e s then s else whenMoved core e (imageRead core e) (readImage core e s)

/-- The writing step of a DRAIN. -/
def drainWrites (core e : ℕ) (s : State) : State :=
  if isWriting core e s then
    whenMoved core e (fun cmd a => finishCmd a core e cmd (progOf cmd).ids ((progOf cmd).fault.map (fun f => f.2))) (moveElems core e true (drainElem core e) s)
  else s

section
variable {s : State} {core e : ℕ} {cmd : SeCmd} {rest : List SeCmd} (hq : engineQ (coreOf s core) e = cmd :: rest) (hwait : cmd.waiting = none) {p : SeProg}
include hq hwait

theorem exec_engineFill (hgo : Goes s cmd .fill false p) :
    exec (.engineFill core e) s = finish (whenMoved core e (endFill core e) (moveElems core e false (fillElem core e (toImage core)) s)) := by
  obtain ⟨hkind, hp, hgo⟩ := hgo
  refine congrArg finish (engineStep_runs hq hwait hkind hp ?_)
  rcases hgo with hwriting | hleft | hfeu | hfillw | hfull
  · exact .inl hwriting
  · exact .inr (.inl hleft)
  · exact .inr (.inr (by rw [hfeu]; rfl))
  · exact absurd hfillw (by decide)
  · exact .inr (.inr (by rw [hfull, Bool.or_true]))

theorem exec_engineFillw (hgo : Goes s cmd .fillw false p) :
    exec (.engineFillw core e) s = finish (whenMoved core e (endFillw core e) (moveElems core e false (fillElem core e (toWeights core)) s)) := by
  obtain ⟨hkind, hp, -⟩ := hgo
  exact congrArg finish (engineStep_runs hq hwait hkind hp (.inr (.inr rfl)))

theorem exec_engineDrain (hgo : Goes s cmd .drain true p) : exec (.engineDrain core e) s = finish (drainWrites core e (drainReads core e s)) := by
  obtain ⟨hkind, hp, hgo⟩ := hgo
  refine congrArg finish (engineStep_runs hq hwait hkind hp ?_)
  rcases hgo with hwriting | hleft | hfeu | hfillw | hfull
  · exact .inl hwriting
  · exact .inr (.inl hleft)
  · exact .inr (.inr (by rw [hfeu]; rfl))
  · exact absurd hfillw (by decide)
  · exact .inr (.inr (by rw [hfull, Bool.or_true]))

end

theorem isWriting_eq {s : State} {core e : ℕ} {cmd : SeCmd} {rest : List SeCmd} (hq : engineQ (coreOf s core) e = cmd :: rest) : isWriting core e s = (progOf cmd).writing := by
  unfold isWriting
  rw [hq]
  rfl

/-! ### FILL and FILLW end (R201, R203) -/

/-- The machine before a FILL's command ends: no poison where it wrote whole words, and its granules full unless an element faulted. -/
def fillEnded (core : ℕ) (cmd : SeCmd) (s : State) : State :=
  let p := progOf cmd
  let r : RelRec := ⟨p.ids, ⟨.team, cmd.ctx, [teamRange s cmd.lk cmd.team]⟩⟩
  let ws := (s.stores.filter (fun e => p.ids.contains e.id)).map (fun e => (e.addr, e.bytes.length))
  let s0 := updTeam s cmd.lk cmd.team (fun t => { t with scratchPois := t.scratchPois.filter (fun w => !coveredBy ws (4 * w) 4) })
  if recFeu cmd.record && p.fault.isNone then (imageGranules cmd).foldl (fun a g => fillGranule a cmd.lk cmd.team g (.engine core cmd.lk cmd.team) r) s0 else s0

theorem endFill_eq (core e : ℕ) (cmd : SeCmd) (s : State) :
    endFill core e cmd s = finishCmd (fillEnded core cmd s) core e cmd (progOf cmd).ids ((progOf cmd).fault.map (fun f => f.2)) := rfl

theorem untouched_fillEnded (core : ℕ) (cmd : SeCmd) (s : State) : Untouched core s (fillEnded core cmd s) := by
  unfold fillEnded
  dsimp only
  split
  · exact (Untouched.updTeam _ _ _ _).trans (Untouched.foldl (fun _ _ => Untouched.fillGranule _ _ _ _ _ _) _ _)
  · exact Untouched.updTeam _ _ _ _

/-- The machine before a FILLW's command ends: no poison where it wrote whole entries. -/
def fillwEnded (core : ℕ) (cmd : SeCmd) (s : State) : State :=
  let c := coreOf s core
  putCore s { c with wbufPois := c.wbufPois.filter (fun w => !coveredBy ((c.wlog.filter (fun w => (progOf cmd).ids.contains w.1)).map (fun w => w.2)) (8 * w) 8) }

theorem endFillw_eq (core e : ℕ) (cmd : SeCmd) (s : State) :
    endFillw core e cmd s = finishCmd (fillwEnded core cmd s) core e cmd (progOf cmd).ids ((progOf cmd).fault.map (fun f => f.2)) := rfl

theorem untouched_fillwEnded (core : ℕ) (cmd : SeCmd) (s : State) : Untouched core s (fillwEnded core cmd s) := Untouched.putCore (by exact coreOf_num s core) rfl rfl

theorem untouched_toImage (core : ℕ) (cmd : SeCmd) (n : ℕ) (bs : List Byte) (a : State) : Untouched core a (toImage core cmd n bs a).2 := Untouched.appendHome _ _ _ _ _ _ _

theorem untouched_toWeights (core : ℕ) (cmd : SeCmd) (n : ℕ) (bs : List Byte) (a : State) : Untouched core a (toWeights core cmd n bs a).2 := Untouched.writeWeights _ _ _

/-- What a command is like before its end, its end takes from the queue, and nothing is amiss. -/
theorem finishCmd_ends {s t : State} {core e : ℕ} {head : SeCmd} {rest : List SeCmd} (hq : engineQ (coreOf s core) e = head :: rest) (ok : s.badAddr = none)
    (h : Untouched core s t) (cmd : SeCmd) (ids : List ℕ) (fault : Option Report) :
    finish (finishCmd t core e cmd ids fault) = .next (finishCmd t core e cmd ids fault) ∧ engineQ (coreOf (finishCmd t core e cmd ids fault) core) e = rest :=
  ⟨finish_next (by rw [badAddr_finishCmd, h.badAddr, ok]), engineQ_finishCmd ((h.engineQ e).trans hq) ids fault⟩

section
variable {s : State} {core e : ℕ} {cmd : SeCmd} {rest : List SeCmd} {p : SeProg}
  (hq : engineQ (coreOf s core) e = cmd :: rest) (hwait : cmd.waiting = none) (ok : s.badAddr = none) (hchoice : s.choices = [])
include hq hwait ok hchoice

theorem engineFill_ends (hgo : Goes s cmd .fill false p) (hhand : ∀ n ∈ p.left, AtHand s core e cmd false n) :
    ∃ t, exec (.engineFill core e) s = .next t ∧ engineQ (coreOf t core) e = rest := by
  obtain ⟨q, hqq, hleft, -, hbeside⟩ := moveElems_all (moves_fillElem (untouched_toImage core)) hq hwait ok hchoice hgo.2.1 hhand
  rw [exec_engineFill hq hwait hgo, whenMoved_empty hqq hleft, endFill_eq]
  exact ⟨_, finishCmd_ends hqq (hbeside.badAddr.trans ok) (untouched_fillEnded core _ _) _ _ _⟩

theorem engineFillw_ends (hgo : Goes s cmd .fillw false p) (hhand : ∀ n ∈ p.left, AtHand s core e cmd false n) :
    ∃ t, exec (.engineFillw core e) s = .next t ∧ engineQ (coreOf t core) e = rest := by
  obtain ⟨q, hqq, hleft, -, hbeside⟩ := moveElems_all (moves_fillElem (untouched_toWeights core)) hq hwait ok hchoice hgo.2.1 hhand
  rw [exec_engineFillw hq hwait hgo, whenMoved_empty hqq hleft, endFillw_eq]
  exact ⟨_, finishCmd_ends hqq (hbeside.badAddr.trans ok) (untouched_fillwEnded core _ _) _ _ _⟩

end

/-! ### DRAIN reads and writes (R202) -/

section
variable {s : State} {core e : ℕ} {cmd : SeCmd} {rest : List SeCmd}

/-- Reading one element of the image. -/
theorem drainRead_reads (cmd0 : SeCmd) (n : ℕ) (hq : engineQ (coreOf s core) e = cmd :: rest) :
    ∃ p, engineQ (coreOf (drainRead core e s cmd0 n) core) e = { cmd with prog := some p } :: rest ∧ p.left = (progOf cmd).left.filter (fun k => k != n) ∧
      p.writing = (progOf cmd).writing ∧ p.fault = (progOf cmd).fault ∧ p.ids = (progOf cmd).ids ∧ Beside core s (drainRead core e s cmd0 n) := by
  have hchosen : ∀ (c b : Bool), Untouched core s (if c then (b, s) else freeBool s).2 := fun c b => by
    cases c
    · exact Untouched.freeBool s
    · exact Untouched.refl s
  exact ⟨_, engineQ_setHead (((hchosen _ _).engineQ e).trans hq) _, rfl, rfl, rfl, rfl, (hchosen _ _).toBeside.trans (Beside.setHead _ e _)⟩

theorem foldl_drainRead (cmd0 : SeCmd) (ns : List ℕ) (hq : engineQ (coreOf s core) e = cmd :: rest) {p : SeProg} (hp : cmd.prog = some p) :
    ∃ q, engineQ (coreOf (ns.foldl (fun a n => drainRead core e a cmd0 n) s) core) e = { cmd with prog := some q } :: rest ∧ q.left = p.left.filter (fun k => !ns.contains k) ∧
      Beside core s (ns.foldl (fun a n => drainRead core e a cmd0 n) s) := by
  induction ns generalizing s cmd p with
  | nil => exact ⟨p, by rw [← hp]; exact hq, by simp, Beside.refl s⟩
  | cons n ns ih =>
    obtain ⟨p1, hq1, hleft1, -, -, -, hbeside1⟩ := drainRead_reads cmd0 n hq
    obtain ⟨q, hqq, hleft, hbeside⟩ := ih hq1 rfl
    refine ⟨q, hqq, ?_, hbeside1.trans hbeside⟩
    rw [hleft, hleft1, progOf, hp, List.filter_filter]
    refine List.filter_congr fun k _ => ?_
    show (!ns.contains k && k != n) = !(n :: ns).contains k
    rw [List.contains_cons, Bool.not_or, Bool.and_comm]
    rfl

/-- The granules of a DRAIN's image are empty once it has been read, and its elements in range are to be written. -/
theorem imageRead_writes (hq : engineQ (coreOf s core) e = cmd :: rest) :
    ∃ p, engineQ (coreOf (imageRead core e cmd s) core) e = { cmd with prog := some p } :: rest ∧ p.writing = true ∧ (∀ n ∈ p.left, n < boxCount cmd.record) ∧
      Beside core s (imageRead core e cmd s) := by
  have hempty : Untouched core s (if recFeu cmd.record then (imageGranules cmd).foldl (fun a g => setFull a cmd.lk cmd.team g false) s else s) := by
    split
    · exact Untouched.foldl (fun _ _ => Untouched.updTeam _ _ _ _) _ _
    · exact Untouched.refl s
  exact ⟨_, engineQ_setHead ((hempty.engineQ e).trans hq) _, rfl, fun n hn => List.mem_range.mp (List.mem_filter.mp hn).1, hempty.toBeside.trans (Beside.setHead _ e _)⟩

/-- A step that reads all that is left of the image. -/
theorem drainReads_all (hq : engineQ (coreOf s core) e = cmd :: rest) (hchoice : s.choices = []) {p : SeProg} (hp : cmd.prog = some p) (hreading : p.writing = false) :
    ∃ q, engineQ (coreOf (drainReads core e s) core) e = { cmd with prog := some q } :: rest ∧ q.writing = true ∧ (∀ n ∈ q.left, n < boxCount cmd.record) ∧
      Beside core s (drainReads core e s) := by
  have hread : readImage core e s = p.left.foldl (fun a n => drainRead core e a cmd n) s := by
    unfold readImage
    rw [hq]
    dsimp only
    rw [choose_nil hchoice, progOf, hp]
    rfl
  obtain ⟨q, hqq, hleft, hbeside⟩ := foldl_drainRead cmd p.left hq hp
  have hnone : q.left = [] := by
    rw [hleft, List.filter_eq_nil_iff]
    intro k hk
    rw [List.contains_iff_mem.mpr hk]
    decide
  unfold drainReads
  rw [isWriting_eq hq, progOf, hp, Option.getD_some, hreading, if_neg Bool.false_ne_true, hread, whenMoved_empty hqq hnone]
  obtain ⟨q', hq', hwriting, hbox, hbeside'⟩ := imageRead_writes hqq
  exact ⟨q', hq', hwriting, hbox, hbeside.trans hbeside'⟩

/-- A step that writes all that is left ends the DRAIN. -/
theorem drainWrites_all (hq : engineQ (coreOf s core) e = cmd :: rest) (hwait : cmd.waiting = none) (ok : s.badAddr = none) (hchoice : s.choices = []) {p : SeProg}
    (hp : cmd.prog = some p) (hwriting : p.writing = true) (hhand : ∀ n ∈ p.left, AtHand s core e cmd true n) :
    finish (drainWrites core e s) = .next (drainWrites core e s) ∧ engineQ (coreOf (drainWrites core e s) core) e = rest := by
  obtain ⟨q, hqq, hleft, -, hbeside⟩ := moveElems_all moves_drainElem hq hwait ok hchoice hp hhand
  unfold drainWrites
  rw [isWriting_eq hq, progOf, hp, Option.getD_some, hwriting, if_pos rfl, whenMoved_empty hqq hleft]
  exact finishCmd_ends hqq (hbeside.badAddr.trans ok) (Untouched.refl _) _ _ _

theorem drainReads_writing (hq : engineQ (coreOf s core) e = cmd :: rest) {p : SeProg} (hp : cmd.prog = some p) (hwriting : p.writing = true) : drainReads core e s = s := by
  unfold drainReads
  rw [isWriting_eq hq, progOf, hp, Option.getD_some, hwriting, if_pos rfl]

theorem engineDrain_ends (hq : engineQ (coreOf s core) e = cmd :: rest) (hwait : cmd.waiting = none) (ok : s.badAddr = none) (hchoice : s.choices = []) {p : SeProg}
    (hgo : Goes s cmd .drain true p) (hleft : ∀ n ∈ p.left, n < boxCount cmd.record)
    (hpages : ∀ n < boxCount cmd.record, ∀ q, (elemOf s core cmd true n).acc ≠ some (.miss q) ∧ (elemOf s core cmd true n).acc ≠ some (.bad q))
    (hunits : ∀ n < boxCount cmd.record, ∀ sp a k, (elemOf s core cmd true n).acc = some (.ok sp a k) → k ≠ 0 → p.writing = true ∧ n ∈ p.sent ∧ unitAway s core e n = false) :
    ∃ t, exec (.engineDrain core e) s = .next t ∧ engineQ (coreOf t core) e = rest := by
  obtain ⟨-, hp, -⟩ := id hgo
  rw [exec_engineDrain hq hwait hgo]
  cases hwriting : p.writing with
  | true =>
    rw [drainReads_writing hq hp hwriting]
    refine ⟨_, drainWrites_all hq hwait ok hchoice hp hwriting fun n hn => ⟨hpages n (hleft n hn), fun sp a k hacc hk => ?_⟩⟩
    rw [progOf, hp]
    exact (hunits n (hleft n hn) sp a k hacc hk).2
  | false =>
    obtain ⟨q, hqq, hqw, hbox, hbeside⟩ := drainReads_all hq hchoice hp hwriting
    refine ⟨_, drainWrites_all hqq hwait (hbeside.badAddr.trans ok) (hbeside.choices.trans hchoice) rfl hqw fun n hn => ?_⟩
    rw [AtHand, elemOf_of_beside hbeside]
    refine ⟨hpages n (hbox n hn), fun sp a k hacc hk => ?_⟩
    have hw := (hunits n (hbox n hn) sp a k hacc hk).1
    rw [hwriting] at hw
    exact absurd hw Bool.false_ne_true

end

end Sys2Proof
end

section
/-! PROOFS. The bytes that FILL, FILLW and DRAIN move (R201 to R203, R206), and the steps of the stream engines (O52). -/

namespace Sys2Proof

open Sys2Proof.Machine

/-! ### Memories where only caches and queues change -/

theorem cacheless_setHead (s : State) (core e : ℕ) (f : SeCmd → SeCmd) : cacheless (setHead s core e f) = cacheless s := by
  rw [setHead_frame]
  rfl

theorem cacheless_elemDone (s : State) (core e n : ℕ) (ids : List ℕ) (fault : Option Report) : cacheless (elemDone s core e n ids fault) = cacheless s := cacheless_setHead _ _ _ _

@[simp] theorem cacheless_engTouch (s : State) (core : ℕ) (x : Elem) (store : Bool) (n : ℕ) : cacheless (engTouch s core x store n) = cacheless s := by
  unfold engTouch
  split
  · split
    · exact cacheless_bulkUse _ _ _ _
    · rfl
  · rfl

theorem homePoison_of_cacheless {s t : State} (h : cacheless t = cacheless s) (sp : Space) (a n : ℕ) : homePoison t sp a n = homePoison s sp a n := by
  have hpois := congrArg (fun u : State => homePoison u sp a n) h
  cases sp <;> exact hpois

theorem sameBytes_finishCmd (s : State) (core e : ℕ) (cmd : SeCmd) (ids : List ℕ) (fault : Option Report) : sameBytes s (finishCmd s core e cmd ids fault) := by
  rw [finishCmd_rest]
  exact sameBytes_refl s

/-- What has been written, where nothing else changes before and after. -/
theorem wrote_of_sameBytes {s s1 t1 t : State} {sp : Space} {a n : ℕ} {bs : List Byte} (hbefore : sameBytes s s1) (hafter : sameBytes t1 t)
    (hwrote : homeBytes t1 sp a n = bs ∧ sameBytesBut s1 t1 sp a n) : homeBytes t sp a n = bs ∧ sameBytesBut s t sp a n :=
  ⟨(hafter sp a n).trans hwrote.1, fun sp' b hb => ((hafter sp' b 1).trans (hwrote.2 sp' b hb)).trans (hbefore sp' b 1)⟩

theorem wbuf_setHead (s : State) (core e : ℕ) (f : SeCmd → SeCmd) : (coreOf (setHead s core e f) core).wbuf = (coreOf s core).wbuf := by
  unfold setHead
  split
  · rfl
  · rw [coreOf_setEngineQ]

theorem wbuf_elemDone (s : State) (core e n : ℕ) (ids : List ℕ) (fault : Option Report) : (coreOf (elemDone s core e n ids fault) core).wbuf = (coreOf s core).wbuf :=
  wbuf_setHead s core e _

theorem wbuf_fillwEnded (core : ℕ) (cmd : SeCmd) (s : State) : (coreOf (fillwEnded core cmd s) core).wbuf = (coreOf s core).wbuf := by
  unfold fillwEnded
  dsimp only
  rw [coreOf_putCore (by exact coreOf_num s core)]

/-! ### The last element of a FILL, or of a FILLW (R201, R203) -/

/-- What a FILL or FILLW finds for an element that is not in an encrypted unit: 0 where it is out of range, the converted bytes where they are not poisoned. -/
def foundAt (s : State) (core : ℕ) (cmd : SeCmd) (n : ℕ) : Option (List Byte) :=
  match (elemOf s core cmd false n).acc with
  | none => some (List.replicate (recEszOut cmd.record) 0)
  | some (.ok sp a 0) => if homePoison s sp a (recEsz cmd.record) then none else some (convertIn (recConv cmd.record) (homeBytes s sp a (recEsz cmd.record)))
  | _ => none

section
variable {s : State} {core e : ℕ} {cmd : SeCmd} {n : ℕ} {bs : List Byte}

/-- What is found is out of range or at a home that is at hand. -/
theorem foundAt_cases (h : foundAt s core cmd n = some bs) :
    ((elemOf s core cmd false n).acc = none ∧ bs = List.replicate (recEszOut cmd.record) 0) ∨
    ∃ sp a, (elemOf s core cmd false n).acc = some (.ok sp a 0) ∧ homePoison s sp a (recEsz cmd.record) = false ∧
      bs = convertIn (recConv cmd.record) (homeBytes s sp a (recEsz cmd.record)) := by
  unfold foundAt at h
  split at h
  · next hacc => exact .inl ⟨hacc, (Option.some.inj h).symm⟩
  · next sp a hacc =>
    split at h
    · exact absurd h nofun
    · next hclean => exact .inr ⟨sp, a, hacc, by simpa using hclean, (Option.some.inj h).symm⟩
  · exact absurd h nofun

theorem atHand_of_foundAt (h : foundAt s core cmd n = some bs) : AtHand s core e cmd false n := by
  rcases foundAt_cases h with ⟨hacc, -⟩ | ⟨sp, a, hacc, -, -⟩
  · rw [AtHand, hacc]
    exact ⟨fun q => ⟨nofun, nofun⟩, nofun⟩
  · rw [AtHand, hacc]
    refine ⟨fun q => ⟨nofun, nofun⟩, fun sp' a' k hk hne => ?_⟩
    obtain ⟨-, -, rfl⟩ := EngAcc.ok.inj (Option.some.inj hk)
    exact absurd rfl hne

theorem fillValue_of_foundAt (h : foundAt s core cmd n = some bs) {t : State} (ht : cacheless t = cacheless s) :
    fillValue t cmd.record (elemOf s core cmd false n) = .inl bs := by
  unfold fillValue
  rcases foundAt_cases h with ⟨hacc, rfl⟩ | ⟨sp, a, hacc, hclean, rfl⟩
  · rw [hacc]
  · rw [hacc]
    have hread : engRead t sp a (recEsz cmd.record) 0 = (homeBytes s sp a (recEsz cmd.record), false) :=
      Prod.ext (sameBytes_of_cacheless ht sp a _) ((homePoison_of_cacheless ht sp a _).trans hclean)
    dsimp only
    rw [hread]
    rfl

/-- An element that is done without a fault leaves those that are left, and no fault is noted. -/
theorem elemDone_queue {rest : List SeCmd} (hq : engineQ (coreOf s core) e = cmd :: rest) (n : ℕ) (ids : List ℕ) :
    ∃ q, engineQ (coreOf (elemDone s core e n ids none) core) e = { cmd with prog := some q } :: rest ∧ q.left = (progOf cmd).left.filter (fun k => k != n) ∧
      q.ids = (progOf cmd).ids ++ ids ∧ q.fault = (progOf cmd).fault := by
  refine ⟨_, engineQ_setHead hq _, rfl, rfl, ?_⟩
  cases (progOf cmd).fault <;> rfl

/-- An element that is found is written. -/
theorem fillElem_of_foundAt (h : foundAt s core cmd n = some bs) (write : SeCmd → ℕ → List Byte → State → ℕ × State) :
    fillElem core e write s cmd (elemOf s core cmd false n) =
      elemDone (write cmd n bs (engTouch s core (elemOf s core cmd false n) false 0)).2 core e n [(write cmd n bs (engTouch s core (elemOf s core cmd false n) false 0)).1] none := by
  unfold fillElem
  dsimp only
  rw [fillValue_of_foundAt h (cacheless_engTouch _ _ _ _ _)]
  rfl

end

theorem sameBytes_fillwEnded (core : ℕ) (cmd : SeCmd) (s : State) : sameBytes s (fillwEnded core cmd s) := sameBytes_of_cacheless (cacheless_putCore _ _)

theorem sameBytes_fillEnded (core : ℕ) (cmd : SeCmd) (s : State) : sameBytes s (fillEnded core cmd s) := by
  have hteam : ∀ (a : State) (f : Team → Team), (∀ t, (f t).lk = t.lk ∧ (f t).num = t.num) → (∀ t, (f t).scratch = t.scratch) → sameBytes a (updTeam a cmd.lk cmd.team f) :=
    fun a f hf hscratch => sameBytes_of_homeMem (homeMem_updTeam hf hscratch a cmd.lk cmd.team)
  have hfill : ∀ (gs : List ℕ) (w : Writer) (r : RelRec) (a : State), sameBytes a (gs.foldl (fun a g => fillGranule a cmd.lk cmd.team g w r) a) := fun gs w r => by
    induction gs with
    | nil => exact sameBytes_refl
    | cons g gs ih =>
      intro a
      refine sameBytes_trans ?_ (ih (fillGranule a cmd.lk cmd.team g w r))
      exact hteam a (fun t => { t with full := insertNat t.full g }) (fun _ => ⟨rfl, rfl⟩) (fun _ => rfl)
  unfold fillEnded
  dsimp only
  split
  · refine sameBytes_trans ?_ (hfill _ _ _ _)
    exact hteam s _ (fun _ => by exact ⟨rfl, rfl⟩) (fun _ => by rfl)
  · exact hteam s _ (fun _ => by exact ⟨rfl, rfl⟩) (fun _ => by rfl)

/-- Filling granules fills them all. -/
theorem granFull_foldl_fillGranule {lk u : ℕ} {w : Writer} {r : RelRec} (gs : List ℕ) {s : State} (hteam : (teamOf s lk u).isSome = true) {g : ℕ} (hg : g ∈ gs) :
    granFull (gs.foldl (fun a g => fillGranule a lk u g w r) s) lk u g = true := by
  induction gs generalizing s with
  | nil => exact absurd hg List.not_mem_nil
  | cons x gs ih =>
    rw [List.foldl_cons]
    by_cases hmem : g ∈ gs
    · exact ih (isSome_teamOf_of_kept (kept_fillGranule s lk u x w r) hteam) hmem
    · obtain rfl : g = x := (List.mem_cons.mp hg).resolve_right hmem
      exact Fuller.foldl (fun a y => fuller_fillGranule a lk u y w r) gs _ lk u g (granFull_fillGranule hteam g w r)

theorem granFull_fillEnded {core : ℕ} {cmd : SeCmd} {s : State} (hteam : (teamOf s cmd.lk cmd.team).isSome = true) (hfeu : recFeu cmd.record = true)
    (hfault : (progOf cmd).fault = none) {g : ℕ} (hg : g ∈ imageGranules cmd) : granFull (fillEnded core cmd s) cmd.lk cmd.team g = true := by
  unfold fillEnded
  dsimp only
  rw [hfeu, hfault, if_pos (by rfl)]
  refine granFull_foldl_fillGranule _ (isSome_teamOf_of_kept (Kept.updTeam (fun _ => ?_) s cmd.lk cmd.team) hteam) hg
  rfl

section
variable {s : State} {core e : ℕ} {cmd : SeCmd} {rest : List SeCmd} {p : SeProg} {n : ℕ} {bs : List Byte}
  (hq : engineQ (coreOf s core) e = cmd :: rest) (hwait : cmd.waiting = none) (ok : s.badAddr = none) (hchoice : s.choices = []) (canon : memoriesCanonical s)
  (hleft : p.left = [n]) (hfound : foundAt s core cmd n = some bs)
include hq hwait ok hchoice canon hleft hfound

theorem engineFill_last (hteam : (teamOf s cmd.lk cmd.team).isSome = true) (hgo : Goes s cmd .fill false p) :
    ∃ t, exec (.engineFill core e) s = .next t ∧
      homeBytes t (.scr cmd.lk cmd.team) (ringStart cmd.record (recRnext cmd.record) + recEszOut cmd.record * n) bs.length = bs ∧
      sameBytesBut s t (.scr cmd.lk cmd.team) (ringStart cmd.record (recRnext cmd.record) + recEszOut cmd.record * n) bs.length ∧
      (recFeu cmd.record = true → p.fault = none → ∀ g ∈ imageGranules cmd, granFull t cmd.lk cmd.team g = true) := by
  have hprog : progOf cmd = p := by rw [progOf, hgo.2.1]; rfl
  have hmove := moveElems_one (f := fillElem core e (toImage core)) hq hwait ok hchoice (hprog ▸ hleft) (atHand_of_foundAt hfound)
  rw [fillElem_of_foundAt hfound] at hmove
  generalize htouch : engTouch s core (elemOf s core cmd false n) false 0 = s1 at hmove
  have hs1 : cacheless s1 = cacheless s := htouch ▸ cacheless_engTouch _ _ _ _ _
  have hcanon1 : memoriesCanonical s1 := htouch ▸ canon_engTouch _ _ _ _ _ canon
  have hun1 : Untouched core s s1 := htouch ▸ Untouched.engTouch _ _ _ _
  have hun2 := hun1.trans (untouched_toImage core cmd n bs s1)
  have hhoused : Housed s1 (.scr cmd.lk cmd.team) := Housed.of_kept (Kept.of_cacheless hs1) fun lk u hsp => by
    obtain ⟨rfl, rfl⟩ := Space.scr.inj hsp
    exact hteam
  have hwrote : homeBytes (toImage core cmd n bs s1).2 (.scr cmd.lk cmd.team) (ringStart cmd.record (recRnext cmd.record) + recEszOut cmd.record * n) bs.length = bs ∧
      sameBytesBut s1 (toImage core cmd n bs s1).2 (.scr cmd.lk cmd.team) (ringStart cmd.record (recRnext cmd.record) + recEszOut cmd.record * n) bs.length :=
    homeBytes_appendHome hcanon1 hhoused _ bs false (.engine core cmd.lk cmd.team) none
  have hkept2 : Kept s (toImage core cmd n bs s1).2 := (Kept.of_cacheless hs1).trans (kept_appendHome _ _ _ _ _ _ _)
  generalize toImage core cmd n bs s1 = w2 at hmove hun2 hkept2 hwrote
  obtain ⟨q, hq3, hqleft, -, hqfault⟩ := elemDone_queue ((hun2.engineQ e).trans hq) n [w2.1]
  have hdone : cacheless (elemDone w2.2 core e n [w2.1] none) = cacheless w2.2 := cacheless_elemDone _ _ _ _ _ _
  have hempty : (progOf { cmd with prog := some q }).left = [] := by
    show q.left = []
    rw [hqleft, hprog, hleft]
    simp
  have hends := finishCmd_ends hq3 ((hun2.toBeside.trans (beside_elemDone _ _ _ _)).badAddr.trans ok) (untouched_fillEnded core { cmd with prog := some q } _)
    { cmd with prog := some q } q.ids (q.fault.map (fun f => f.2))
  obtain ⟨hbytes, hothers⟩ := wrote_of_sameBytes (sameBytes_of_cacheless hs1)
    (sameBytes_trans (sameBytes_trans (sameBytes_of_cacheless hdone) (sameBytes_fillEnded core { cmd with prog := some q } _))
      (sameBytes_finishCmd _ core e { cmd with prog := some q } q.ids (q.fault.map (fun f => f.2)))) hwrote
  refine ⟨_, ?_, hbytes, hothers, fun hfeu hfault g hg => ?_⟩
  · rw [exec_engineFill hq hwait hgo, hmove, whenMoved_empty hq3 hempty, endFill_eq]
    exact hends.1
  · rw [finishCmd_rest]
    exact granFull_fillEnded (cmd := { cmd with prog := some q }) (isSome_teamOf_of_kept (hkept2.trans (Kept.of_cacheless hdone)) hteam) hfeu
      (hqfault.trans (by rw [hprog, hfault])) hg

theorem engineFillw_last (hgo : Goes s cmd .fillw false p) :
    ∃ t, exec (.engineFillw core e) s = .next t ∧ sameBytes s t ∧ memGets (coreOf t core).wbuf (cmd.woff + recEszOut cmd.record * n) bs.length = bs := by
  have hprog : progOf cmd = p := by rw [progOf, hgo.2.1]; rfl
  have hmove := moveElems_one (f := fillElem core e (toWeights core)) hq hwait ok hchoice (hprog ▸ hleft) (atHand_of_foundAt hfound)
  rw [fillElem_of_foundAt hfound] at hmove
  generalize htouch : engTouch s core (elemOf s core cmd false n) false 0 = s1 at hmove
  have hs1 : cacheless s1 = cacheless s := htouch ▸ cacheless_engTouch _ _ _ _ _
  have hcanon1 : memoriesCanonical s1 := htouch ▸ canon_engTouch _ _ _ _ _ canon
  have hun2 := (htouch ▸ Untouched.engTouch _ _ _ _ : Untouched core s s1).trans (untouched_toWeights core cmd n bs s1)
  have hbuf : (coreOf (toWeights core cmd n bs s1).2 core).wbuf = memPuts (coreOf s1 core).wbuf (cmd.woff + recEszOut cmd.record * n) bs := by
    unfold toWeights writeWeights
    dsimp only
    rw [coreOf_putCore (by exact coreOf_num _ core)]
    rfl
  have hsame2 : sameBytes s1 (toWeights core cmd n bs s1).2 := by
    unfold toWeights writeWeights
    dsimp only
    exact sameBytes_trans (t := (fresh s1).2) (sameBytes_refl s1) (sameBytes_of_cacheless (cacheless_putCore _ _))
  have hwbuf : Memory.wf (coreOf s1 core).wbuf = true := canon_coreOf hcanon1 core
  generalize toWeights core cmd n bs s1 = w2 at hmove hun2 hbuf hsame2
  obtain ⟨q, hq3, hqleft, -, -⟩ := elemDone_queue ((hun2.engineQ e).trans hq) n [w2.1]
  have hdone : cacheless (elemDone w2.2 core e n [w2.1] none) = cacheless w2.2 := cacheless_elemDone _ _ _ _ _ _
  have hempty : (progOf { cmd with prog := some q }).left = [] := by
    show q.left = []
    rw [hqleft, hprog, hleft]
    simp
  have hends := finishCmd_ends hq3 ((hun2.toBeside.trans (beside_elemDone _ _ _ _)).badAddr.trans ok) (untouched_fillwEnded core { cmd with prog := some q } _)
    { cmd with prog := some q } q.ids (q.fault.map (fun f => f.2))
  have hstep : exec (.engineFillw core e) s = finish (finishCmd (fillwEnded core { cmd with prog := some q } (elemDone w2.2 core e n [w2.1] none)) core e
      { cmd with prog := some q } q.ids (q.fault.map (fun f => f.2))) := by
    rw [exec_engineFillw hq hwait hgo, hmove, whenMoved_empty hq3 hempty, endFillw_eq]
    rfl
  refine ⟨_, hstep.trans hends.1, ?_, ?_⟩
  · have hafter : sameBytes w2.2 (fillwEnded core { cmd with prog := some q } (elemDone w2.2 core e n [w2.1] none)) :=
      sameBytes_trans (sameBytes_of_cacheless hdone) (sameBytes_fillwEnded core { cmd with prog := some q } _)
    exact sameBytes_trans (sameBytes_trans (sameBytes_trans (sameBytes_of_cacheless hs1) hsame2) hafter) (sameBytes_finishCmd _ _ _ _ _ _)
  · rw [coreOf_finishCmd, wbuf_fillwEnded, wbuf_elemDone, hbuf]
    exact memGets_memPuts hwbuf (cmd.woff + recEszOut cmd.record * n) bs

end

/-! ### DRAIN reads one element, and writes its last (R202) -/

/-- Where no entry of the buffer stands in the way, a load reads the home. -/
theorem loadWith_home (s : State) (core : ℕ) (sp : Space) (a n : ℕ) : (loadWith s core false sp a n).bytes = homeBytes s sp a n := by
  have hlen : (homeBytes s sp a n).length = n := by rw [homeBytes_eq, memGets, List.length_map, List.length_range]
  unfold loadWith
  dsimp only
  rw [List.map_map]
  refine List.ext_getElem (by simp [hlen]) fun k hk hk' => ?_
  have hnone : newestEntry [] (a + k) = none := rfl
  simp [hnone, nth, List.getD_eq_getElem?_getD, List.getElem?_eq_getElem hk']

/-- The command with one more element of its image, as it reads from the home. -/
def readInto (core : ℕ) (cmd : SeCmd) (n : ℕ) (s : State) (c : SeCmd) : SeCmd :=
  let r := loadWith s core false (.scr cmd.lk cmd.team) (ringStart cmd.record (recRnext cmd.record) + recEsz cmd.record * n) (recEsz cmd.record)
  { c with prog := some { progOf c with left := (progOf c).left.filter (fun k => k != n), image := (progOf c).image ++ [(n, r.bytes, r.pois)] } }

theorem drainRead_home {s : State} {core e : ℕ} {cmd : SeCmd} {n : ℕ}
    (hbuf : (bufferOf s core).filter (meets (.scr cmd.lk cmd.team) (ringStart cmd.record (recRnext cmd.record) + recEsz cmd.record * n) (recEsz cmd.record)) = []) :
    drainRead core e s cmd n = setHead s core e (readInto core cmd n s) := by
  unfold drainRead
  dsimp only
  rw [show (imageAt cmd).1 = ringStart cmd.record (recRnext cmd.record) from rfl, hbuf]
  rfl

/-- No engine's element lies in a scratchpad (R199). -/
theorem engCheck_home {cmd : SeCmd} {va m : ℕ} {store : Bool} {t : Trans} {sp : Space} {a k : ℕ} (h : engCheck cmd va m store t = .ok sp a k) (lk u : ℕ) : sp ≠ .scr lk u := by
  unfold engCheck at h
  dsimp only at h
  split at h
  · exact absurd h nofun
  · split at h
    · exact absurd h nofun
    · split at h
      · exact absurd h nofun
      · split at h
        · rw [← (EngAcc.ok.inj h).1]
          exact nofun
        · split at h
          · exact absurd h nofun
          · rw [← (EngAcc.ok.inj h).1]
            exact nofun

theorem engine_home {s : State} {core : ℕ} {cmd : SeCmd} {store : Bool} {n : ℕ} {sp : Space} {a k : ℕ} (hacc : (elemOf s core cmd store n).acc = some (.ok sp a k))
    (lk u : ℕ) : sp ≠ .scr lk u := by
  unfold elemOf at hacc
  dsimp only at hacc
  split at hacc
  · have h := Option.some.inj hacc
    unfold engAccess at h
    split at h
    iterate 4 exact absurd h nofun
    split at h
    · exact engCheck_home h lk u
    · exact absurd h nofun
  · exact absurd hacc nofun

section
variable {s : State} {core e : ℕ} {cmd : SeCmd} {rest : List SeCmd} {p : SeProg} {n : ℕ}
  (hq : engineQ (coreOf s core) e = cmd :: rest) (hwait : cmd.waiting = none) (ok : s.badAddr = none) (hgo : Goes s cmd .drain true p)
include hq hwait ok hgo

theorem engineDrain_reads {m : ℕ} {left : List ℕ} (hreading : p.writing = false) (hleft : p.left = n :: m :: left) (hne : m ≠ n) (hchoice : s.choices = [1])
    (hbuf : (bufferOf s core).filter (meets (.scr cmd.lk cmd.team) (ringStart cmd.record (recRnext cmd.record) + recEsz cmd.record * n) (recEsz cmd.record)) = []) :
    ∃ t c q, exec (.engineDrain core e) s = .next t ∧ sameBytes s t ∧ engineQ (coreOf t core) e = c :: rest ∧ c.prog = some q ∧ q.writing = false ∧
      q.left = p.left.filter (fun k => k != n) ∧
      (q.image.getLast?).map (fun x => (x.1, x.2.1)) = some (n, homeBytes s (.scr cmd.lk cmd.team) (ringStart cmd.record (recRnext cmd.record) + recEsz cmd.record * n) (recEsz cmd.record)) := by
  have hp := hgo.2.1
  have hprog : progOf cmd = p := by rw [progOf, hp]; rfl
  have hread : readImage core e s = drainRead core e { s with choices := [] } cmd n := by
    have hone : choose s (p.left.length + 1) = (1, { s with choices := [] }) := by
      unfold choose
      rw [hchoice, hleft]
      refine Prod.ext ?_ rfl
      exact Nat.mod_eq_of_lt (lt_max_of_lt_right (show 1 < left.length + 1 + 1 + 1 by omega))
    unfold readImage
    rw [hq]
    dsimp only
    rw [hprog, hone, hleft]
    rfl
  have hhome : drainRead core e { s with choices := [] } cmd n = setHead { s with choices := [] } core e (readInto core cmd n { s with choices := [] }) := drainRead_home hbuf
  have hq1 : engineQ (coreOf (setHead { s with choices := [] } core e (readInto core cmd n { s with choices := [] })) core) e =
      readInto core cmd n { s with choices := [] } cmd :: rest := engineQ_setHead (s := { s with choices := [] }) hq _
  have hstep : drainWrites core e (drainReads core e s) = setHead { s with choices := [] } core e (readInto core cmd n { s with choices := [] }) := by
    have hstill : whenMoved core e (imageRead core e) (setHead { s with choices := [] } core e (readInto core cmd n { s with choices := [] })) =
        setHead { s with choices := [] } core e (readInto core cmd n { s with choices := [] }) := by
      have hsome : (progOf (readInto core cmd n { s with choices := [] } cmd)).left.isEmpty = false := by
        show ((progOf cmd).left.filter (fun k => k != n)).isEmpty = false
        rw [hprog, hleft]
        simp [hne]
      unfold whenMoved
      rw [hq1]
      dsimp only
      rw [hsome, if_neg Bool.false_ne_true]
    unfold drainReads
    rw [isWriting_eq hq, hprog, hreading, if_neg Bool.false_ne_true, hread, hhome, hstill]
    unfold drainWrites
    rw [isWriting_eq hq1, show (progOf (readInto core cmd n { s with choices := [] } cmd)).writing = (progOf cmd).writing from rfl, hprog, hreading, if_neg Bool.false_ne_true]
  refine ⟨_, _, _, ?_, ?_, hq1, rfl, ?_, ?_, ?_⟩
  · rw [exec_engineDrain hq hwait hgo, hstep]
    exact finish_next (by rw [badAddr_setHead]; exact ok)
  · exact sameBytes_trans (t := { s with choices := [] }) (sameBytes_refl s) (sameBytes_of_cacheless (cacheless_setHead _ _ _ _))
  · exact (congrArg SeProg.writing hprog).trans hreading
  · exact congrArg (fun x : SeProg => x.left.filter (fun k => k != n)) hprog
  · rw [List.getLast?_concat]
    exact congrArg some (Prod.ext rfl (loadWith_home { s with choices := [] } core _ _ _))

theorem engineDrain_last {bs : List Byte} {dest : Space} {a : ℕ} (canon : memoriesCanonical s) (hchoice : s.choices = []) (hwriting : p.writing = true) (hleft : p.left = [n])
    (himage : alookup p.image n = some (bs, false)) (hacc : (elemOf s core cmd true n).acc = some (.ok dest a 0)) :
    ∃ t, exec (.engineDrain core e) s = .next t ∧ homeBytes t dest a bs.length = bs ∧ sameBytesBut s t dest a bs.length ∧ engineQ (coreOf t core) e = rest := by
  have hp := hgo.2.1
  have hprog : progOf cmd = p := by rw [progOf, hp]; rfl
  have hhand : AtHand s core e cmd true n := by
    rw [AtHand, hacc]
    refine ⟨fun q => ⟨nofun, nofun⟩, fun sp' a' k hk hne => ?_⟩
    obtain ⟨-, -, rfl⟩ := EngAcc.ok.inj (Option.some.inj hk)
    exact absurd rfl hne
  have hmove := moveElems_one (f := drainElem core e) hq hwait ok hchoice (hprog ▸ hleft) hhand
  have hlook : (alookup (progOf cmd).image (elemOf s core cmd true n).n).getD ([], false) = (bs, false) := by
    rw [hprog]
    exact congrArg (Option.getD · ([], false)) himage
  have helem : drainElem core e s cmd (elemOf s core cmd true n) =
      elemDone (appendHome (engTouch s core (elemOf s core cmd true n) true bs.length) dest a bs false (.engine core cmd.lk cmd.team) none).2 core e n
        [(appendHome (engTouch s core (elemOf s core cmd true n) true bs.length) dest a bs false (.engine core cmd.lk cmd.team) none).1] none := by
    unfold drainElem
    dsimp only
    rw [hlook, hacc]
    rfl
  rw [helem] at hmove
  generalize htouch : engTouch s core (elemOf s core cmd true n) true bs.length = s1 at hmove
  have hs1 : cacheless s1 = cacheless s := htouch ▸ cacheless_engTouch _ _ _ _ _
  have hun2 := (htouch ▸ Untouched.engTouch _ _ _ _ : Untouched core s s1).trans (Untouched.appendHome s1 dest a bs false (.engine core cmd.lk cmd.team) none)
  have hwrote := homeBytes_appendHome (s := s1) (sp := dest) (htouch ▸ canon_engTouch _ _ _ _ _ canon) (fun lk u hsp => absurd hsp (engine_home hacc lk u)) a bs false
    (.engine core cmd.lk cmd.team) none
  generalize appendHome s1 dest a bs false (.engine core cmd.lk cmd.team) none = w2 at hmove hun2 hwrote
  obtain ⟨q, hq3, hqleft, -, -⟩ := elemDone_queue ((hun2.engineQ e).trans hq) n [w2.1]
  have hdone : cacheless (elemDone w2.2 core e n [w2.1] none) = cacheless w2.2 := cacheless_elemDone _ _ _ _ _ _
  have hempty : (progOf { cmd with prog := some q }).left = [] := by
    show q.left = []
    rw [hqleft, hprog, hleft]
    simp
  have hends := finishCmd_ends hq3 ((hun2.toBeside.trans (beside_elemDone _ _ _ _)).badAddr.trans ok) (Untouched.refl _) { cmd with prog := some q } q.ids
    (q.fault.map (fun f => f.2))
  have hstep : exec (.engineDrain core e) s = finish (finishCmd (elemDone w2.2 core e n [w2.1] none) core e { cmd with prog := some q } q.ids (q.fault.map (fun f => f.2))) := by
    rw [exec_engineDrain hq hwait hgo, drainReads_writing hq hp hwriting]
    unfold drainWrites
    rw [isWriting_eq hq, hprog, hwriting, if_pos rfl, hmove, whenMoved_empty hq3 hempty]
    rfl
  obtain ⟨hbytes, hothers⟩ := wrote_of_sameBytes (sameBytes_of_cacheless hs1) (sameBytes_trans (sameBytes_of_cacheless hdone) (sameBytes_finishCmd _ _ _ _ _ _)) hwrote
  exact ⟨_, hstep.trans hends.1, hbytes, hothers, hends.2⟩

end

/-! ### The steps of the engines together -/

section
variable {s : State} {core e : ℕ} {cmd : SeCmd} {rest : List SeCmd}
  (hq : engineQ (coreOf s core) e = cmd :: rest) (hwait : cmd.waiting = none) (ok : s.badAddr = none)
include hq hwait ok

/-- A FILL or DRAIN that starts where the granules stand in its way has drained, and has its key (R201, R202, R259, R335). -/
theorem engine_starts {kind : SeKind} {store full : Bool} {ready : State → SeCmd → Bool} {run : State → State}
    (hready : ∀ a c, ready a c = (!recFeu c.record || allGranules a c.lk c.team (imageGranules c) full)) (hkind : cmd.kind = kind) (hp : cmd.prog = none)
    (hfeu : recFeu cmd.record = true) (hgran : allGranules s cmd.lk cmd.team (imageGranules cmd) full = false) :
    ∃ t, finish (engineStep s core e kind store ready run) = .next t ∧ (∀ x ∈ t.stores, x.id ∈ cmd.rels → x.buf ≠ some core) ∧
      ((engineQ (coreOf t core) e).head?).any (fun c => c.prog.isSome && c.key == readKey s cmd.ctx (recKey cmd.record) store) = true := by
  have hnot : ready (startCmd s core e cmd store) cmd = false := by
    rw [hready, hfeu, (sameFull_startCmd s core e cmd store).allGranules, hgran]
    rfl
  rw [engineStep_starts hq hwait hkind hp hnot]
  exact ⟨_, finish_next (by rw [badAddr_startCmd, ok]), startCmd_starts hq store⟩

end

/-- Nothing holds back an element of a FILL or FILLW. -/
theorem fill_atHand {s : State} {core e : ℕ} {cmd : SeCmd} {p : SeProg} (hp : cmd.prog = some p)
    (hpages : ∀ n < boxCount cmd.record, ∀ q, (elemOf s core cmd false n).acc ≠ some (.miss q) ∧ (elemOf s core cmd false n).acc ≠ some (.bad q))
    (hleft : ∀ n ∈ p.left, n < boxCount cmd.record) {P : Prop}
    (hunits : ∀ n < boxCount cmd.record, ∀ sp a k, (elemOf s core cmd false n).acc = some (.ok sp a k) → k ≠ 0 → P ∧ n ∈ p.sent ∧ unitAway s core e n = false) :
    ∀ n ∈ p.left, AtHand s core e cmd false n := fun n hn =>
  ⟨hpages n (hleft n hn), fun sp a k hacc hk => by
    rw [progOf, hp]
    exact (hunits n (hleft n hn) sp a k hacc hk).2⟩

/-- A page request that has been answered holds its command back no more (R207, R289). -/
theorem exec_enginePageServiced {s : State} {core e : ℕ} {ok : Bool} {cmd : SeCmd} {rest : List SeCmd} {page : ℕ} (hok : s.badAddr = none)
    (hq : engineQ (coreOf s core) e = cmd :: rest) (hwait : cmd.waiting = some (page, .service)) (hasked : ∀ r ∈ s.priReqs, ¬(r.ctx = cmd.ctx ∧ r.page = page)) :
    exec (.enginePageServiced core e ok) s = .next (setHead (if ok then makeResident s cmd.ctx page else s) core e (servedCmd page ok)) := by
  have hnone : askedHost s cmd.ctx page = false := by
    refine List.any_eq_false.mpr fun r hr => ?_
    simpa using hasked r hr
  show execEnginePageServiced core e ok s = _
  unfold execEnginePageServiced
  rw [hq]
  dsimp only
  rw [hwait]
  dsimp only
  rw [hnone, if_neg Bool.false_ne_true]
  refine finish_next ?_
  rw [badAddr_setHead]
  split
  · rw [badAddr_makeResident, hok]
  · exact hok

end Sys2Proof
end

section
/-! PROOFS. Products and elements of an MLOOP (R75, R77, R78, R210, R211). -/

namespace Sys2Proof

open Sys2Proof.Machine

/-! ### The products of a row and a column (R77) -/

/-- The product of a pair of operands, 0 where one is NaR. -/
def product (p : MxRead × MxRead) : ℤ := p.1.val.getD 0 * p.2.val.getD 0

/-- The pairs of operands of an element, in the order in which they are multiplied. -/
def loopPairs (s : State) (c : Machine.Core) (lk team : ℕ) (seen : List ℕ) (f w : Word) (a0 k r n : ℕ) : List (MxRead × MxRead) :=
  (List.range k).flatMap (fun j => (List.range (inK (fmtIn f))).map (fun i =>
    (readA s lk team seen (fmtIn f) (a0 + r * 48 * k + (j * inK (fmtIn f) + i) * inSize (fmtIn f)), readB c seen f w j i n)))

def Machine.Dot.zero : Dot := ⟨0, 0, false, false, false, false⟩

theorem dotOf_eq (s : State) (c : Machine.Core) (lk team : ℕ) (seen : List ℕ) (f w : Word) (a0 k r n : ℕ) :
    dotOf s c lk team seen f w a0 k r n = (loopPairs s c lk team seen f w a0 k r n).foldl (fun d p => d.step p.1 p.2) Dot.zero := by
  unfold dotOf loopPairs
  rw [List.foldl_flatMap]
  simp only [List.foldl_map]
  rfl

theorem step_undef (d : Dot) (a b : MxRead) : (d.step a b).undef = (d.undef || !a.seen || !b.seen) := by
  unfold Dot.step
  dsimp only
  split
  · split <;> rfl
  · rfl

theorem step_sure (d : Dot) (a b : MxRead) : (d.step a b).sure = (d.sure || (a.seen && a.val.isNone) || (b.seen && b.val.isNone)) := by
  unfold Dot.step
  dsimp only
  split
  · split <;> rfl
  · rfl

/-- Operands that are numbers: their product joins the sum of its sign. -/
theorem step_numbers (d : Dot) {p : MxRead × MxRead} (h : p.1.val ≠ none ∧ p.2.val ≠ none) :
    (d.step p.1 p.2).nar = d.nar ∧ (d.step p.1 p.2).pos = d.pos + (if 0 ≤ product p then product p else 0) ∧
      (d.step p.1 p.2).neg = d.neg + (if product p < 0 then product p else 0) := by
  obtain ⟨x, hx⟩ := Option.ne_none_iff_exists'.mp h.1
  obtain ⟨y, hy⟩ := Option.ne_none_iff_exists'.mp h.2
  have hproduct : product p = x * y := by rw [product, hx, hy]; rfl
  unfold Dot.step
  dsimp only
  rw [hx, hy, hproduct]
  dsimp only
  split
  · next hpos => exact ⟨rfl, rfl, by rw [if_neg (by omega), add_zero]⟩
  · next hneg => exact ⟨rfl, by rw [add_zero], by rw [if_pos (by omega)]⟩

section
variable (ps : List (MxRead × MxRead))

theorem foldl_step_undef (hseen : ∀ p ∈ ps, p.1.seen = true ∧ p.2.seen = true) (d : Dot) : (ps.foldl (fun d p => d.step p.1 p.2) d).undef = d.undef := by
  induction ps generalizing d with
  | nil => rfl
  | cons p ps ih =>
    obtain ⟨ha, hb⟩ := hseen p List.mem_cons_self
    rw [List.foldl_cons, ih fun q hq => hseen q (List.mem_cons_of_mem _ hq), step_undef, ha, hb]
    simp

theorem foldl_step_sure (hseen : ∀ p ∈ ps, p.1.seen = true ∧ p.2.seen = true) (d : Dot) :
    (ps.foldl (fun d p => d.step p.1 p.2) d).sure = (d.sure || ps.any (fun p => p.1.val.isNone || p.2.val.isNone)) := by
  induction ps generalizing d with
  | nil => simp
  | cons p ps ih =>
    obtain ⟨ha, hb⟩ := hseen p List.mem_cons_self
    rw [List.foldl_cons, ih fun q hq => hseen q (List.mem_cons_of_mem _ hq), step_sure, ha, hb, List.any_cons, Bool.true_and, Bool.true_and]
    simp only [Bool.or_assoc]

theorem foldl_step_numbers (h : ∀ p ∈ ps, p.1.val ≠ none ∧ p.2.val ≠ none) (d : Dot) :
    (ps.foldl (fun d p => d.step p.1 p.2) d).nar = d.nar ∧
    (ps.foldl (fun d p => d.step p.1 p.2) d).pos = d.pos + ((ps.map product).filter (fun x => decide (0 ≤ x))).sum ∧
    (ps.foldl (fun d p => d.step p.1 p.2) d).neg = d.neg + ((ps.map product).filter (fun x => decide (x < 0))).sum := by
  induction ps generalizing d with
  | nil => simp
  | cons p ps ih =>
    obtain ⟨hnar, hpos, hneg⟩ := step_numbers d (h p List.mem_cons_self)
    obtain ⟨hnar', hpos', hneg'⟩ := ih (fun q hq => h q (List.mem_cons_of_mem _ hq)) (d.step p.1 p.2)
    rw [List.foldl_cons, List.map_cons, List.filter_cons, List.filter_cons]
    refine ⟨hnar'.trans hnar, ?_, ?_⟩
    · rw [hpos', hpos]
      by_cases hsign : 0 ≤ product p <;> simp [hsign, add_assoc]
    · rw [hneg', hneg]
      by_cases hsign : product p < 0 <;> simp [hsign, add_assoc]

end

theorem sum_filter_signs (xs : List ℤ) : (xs.filter (fun x => decide (0 ≤ x))).sum + (xs.filter (fun x => decide (x < 0))).sum = xs.sum := by
  induction xs with
  | nil => rfl
  | cons x xs ih =>
    rw [List.filter_cons, List.filter_cons, List.sum_cons, ← ih]
    by_cases hsign : 0 ≤ x
    · rw [if_pos (decide_eq_true hsign), if_neg (by simpa using hsign), List.sum_cons]
      omega
    · rw [if_neg (by simpa using hsign), if_pos (decide_eq_true (by omega)), List.sum_cons]
      omega

/-! ### The elements of a tile (R75, R210) -/

theorem alookup_aerase_same {β : Type} (xs : List (ℕ × β)) (k : ℕ) : alookup (aerase xs k) k = none := by
  induction xs with
  | nil => rfl
  | cons e xs ih =>
    obtain ⟨j, v⟩ := e
    unfold aerase at ih ⊢
    rw [List.filter_cons]
    split
    · next hne => rw [alookup, if_neg (by simpa using hne), ih]
    · exact ih

theorem alookup_aerase_other {β : Type} (xs : List (ℕ × β)) {k j : ℕ} (h : j ≠ k) : alookup (aerase xs k) j = alookup xs j :=
  alookup_filter_key xs (fun i => i != k) (by simpa using h)

/-- The pattern that a tile's list holds for an element, 0 where it has none. -/
def patternAt (es : List (ℕ × BitVec 128)) (e : ℕ) : ℕ := ((alookup es e).getD 0).toNat

theorem patternAt_setElem_same (es : List (ℕ × BitVec 128)) (e x : ℕ) : patternAt (setElem es e x) e = x % 2 ^ 128 := by
  unfold patternAt setElem
  split
  · next h => rw [alookup_aerase_same, h]; rfl
  · rw [alookup_ainsert_same]; exact BitVec.toNat_ofNat _ _

theorem patternAt_setElem_other (es : List (ℕ × BitVec 128)) {e j : ℕ} (h : j ≠ e) (x : ℕ) : patternAt (setElem es e x) j = patternAt es j := by
  unfold patternAt setElem
  split
  · rw [alookup_aerase_other _ h]
  · rw [alookup_ainsert_other _ _ _ _ h]

/-- Each element that is set once holds what it was set to. -/
theorem patternAt_foldl_setElem {ι : Type} (key val : ι → ℕ) (xs : List ι) (hkeys : (xs.map key).Nodup) {i : ι} (hi : i ∈ xs) (es : List (ℕ × BitVec 128)) :
    patternAt (xs.foldl (fun a x => setElem a (key x) (val x)) es) (key i) = val i % 2 ^ 128 := by
  have hother : ∀ (ys : List ι) (a : List (ℕ × BitVec 128)), (∀ y ∈ ys, key y ≠ key i) →
      patternAt (ys.foldl (fun a x => setElem a (key x) (val x)) a) (key i) = patternAt a (key i) := fun ys => by
    induction ys with
    | nil => exact fun a _ => rfl
    | cons y ys ih =>
      intro a hne
      rw [List.foldl_cons, ih _ fun z hz => hne z (List.mem_cons_of_mem _ hz), patternAt_setElem_other _ (Ne.symm (hne y List.mem_cons_self))]
  induction xs generalizing es with
  | nil => exact absurd hi List.not_mem_nil
  | cons x xs ih =>
    obtain ⟨hx, hxs⟩ := List.nodup_cons.mp hkeys
    rw [List.foldl_cons]
    by_cases hmem : i ∈ xs
    · exact ih hxs hmem _
    · obtain rfl : i = x := (List.mem_cons.mp hi).resolve_right hmem
      rw [hother xs _ fun y hy heq => hx (heq ▸ List.mem_map_of_mem hy), patternAt_setElem_same]

theorem accBits_eq (lo hi : Tile) (wide : Bool) (e : ℕ) : accBits lo hi wide e = patternAt lo.elems e + if wide then patternAt hi.elems e * 2 ^ 128 else 0 := rfl

end Sys2Proof
end

section
/-! PROOFS. MLOOP as the matrix unit performs it (R77, R78, R211). -/

namespace Sys2Proof

open Sys2Proof.Machine

/-! ### Elements after an MLOOP (R77, R78) -/

theorem wrapTo_lt (n : ℕ) (z : ℤ) : wrapTo n z < 2 ^ n := by
  rw [wrapTo_eq_toNat_ofInt]
  exact BitVec.isLt _

/-- The width of an accumulator's elements (R75). -/
def accWidth (wide : Bool) : ℕ := if wide then 256 else 128

/-- The products as they are added: NaR for certain where an operand that is observed is NaR. -/
def Machine.Dot.settled (d : Dot) : Dot := if d.sure then { d with nar := true } else d

theorem accumulate_nar {wide : Bool} {old : ℕ} {d : Dot} (h : old = 2 ^ (accWidth wide - 1) ∨ d.nar = true) : accumulate true wide old d = (2 ^ (accWidth wide - 1), false) := by
  unfold accumulate
  dsimp only
  rw [if_pos rfl, if_pos]
  · rfl
  · rcases h with hold | hnar
    · rw [hold, Bool.or_eq_true]
      exact .inl (decide_eq_true rfl)
    · rw [hnar, Bool.or_true]

theorem accumulate_number {wide : Bool} {old : ℕ} {d : Dot} (hold : old ≠ 2 ^ (accWidth wide - 1)) (hnar : d.nar = false) :
    accumulate true wide old d = (wrapTo (accWidth wide) (signed (accWidth wide) old + d.pos + d.neg),
      decide ((2 ^ (accWidth wide - 1) : ℤ) ≤ signed (accWidth wide) old + d.pos) || decide (signed (accWidth wide) old + d.neg ≤ -(2 ^ (accWidth wide - 1) : ℤ))) := by
  have hno : ¬(decide (old = 2 ^ (accWidth wide - 1)) || d.nar) = true := by
    rw [hnar, Bool.or_false, decide_eq_true_eq]
    exact hold
  unfold accumulate
  dsimp only
  rw [if_pos rfl]
  exact if_neg hno

theorem accumulate_lt (q wide : Bool) (hq : wide = true → q = true) (old : ℕ) (d : Dot) : (accumulate q wide old d).1 < 2 ^ accWidth wide := by
  cases q with
  | true =>
    by_cases hnar : old = 2 ^ (accWidth wide - 1) ∨ d.nar = true
    · rw [accumulate_nar hnar]
      exact Nat.pow_lt_pow_right Nat.one_lt_two (by cases wide <;> decide)
    · obtain ⟨hold, hd⟩ := not_or.mp hnar
      rw [accumulate_number hold (by simpa using hd)]
      exact wrapTo_lt _ _
  | false =>
    cases wide with
    | true => exact absurd (hq rfl) Bool.false_ne_true
    | false => exact wrapTo_lt _ _

/-- A pattern is put together of its two halves. -/
theorem halves_eq (wide : Bool) {x : ℕ} (h : x < 2 ^ accWidth wide) : x % 2 ^ 128 + (if wide then x / 2 ^ 128 % 2 ^ 128 * 2 ^ 128 else 0) = x := by
  cases wide with
  | true =>
    simp only [accWidth, if_pos] at h ⊢
    omega
  | false => exact Nat.mod_eq_of_lt h

section
variable {q wide : Bool} {lo hi : Tile} {ns : List ℕ} {dots : ℕ → Dot} {rw nar : Bool}

/-- The products of some elements of a tile. -/
def dotsOf (ns : List ℕ) (dots : ℕ → Dot) : List (ℕ × Dot) := ns.map (fun e => (e, dots e))

theorem elems_loopTiles (hq : wide = true → q = true) (hns : ns.Nodup) {e : ℕ} (he : e ∈ ns) :
    accBits (loopTiles q wide lo hi (dotsOf ns dots) rw nar).1 (loopTiles q wide lo hi (dotsOf ns dots) rw nar).2 wide e =
      (accumulate q wide (accBits lo hi wide e) (dots e).settled).1 := by
  have hset : ∀ (es : List (ℕ × BitVec 128)) (sh : ℕ), patternAt (((dotsOf ns dots).map (fun e => (e.1, (accumulate q wide (accBits lo hi wide e.1)
      (if e.2.sure then { e.2 with nar := true } else e.2)).1))).foldl (fun a e => setElem a e.1 (e.2 / 2 ^ sh)) es) e =
      (accumulate q wide (accBits lo hi wide e) (dots e).settled).1 / 2 ^ sh % 2 ^ 128 := fun es sh => by
    rw [List.foldl_map, dotsOf, List.foldl_map]
    exact patternAt_foldl_setElem (fun e => e) (fun e => (accumulate q wide (accBits lo hi wide e) (dots e).settled).1 / 2 ^ sh) ns
      (by rw [List.map_id']; exact hns) he es
  rw [accBits_eq]
  unfold loopTiles
  dsimp only
  rw [hset lo.elems 0, show (2 : ℕ) ^ 0 = 1 from rfl, Nat.div_one]
  have hhalves := halves_eq wide (accumulate_lt q wide hq (accBits lo hi wide e) (dots e).settled)
  cases wide with
  | false =>
    rw [if_neg Bool.false_ne_true] at hhalves ⊢
    exact hhalves
  | true =>
    rw [if_pos rfl] at hhalves ⊢
    rw [if_pos rfl, hset hi.elems 128]
    exact hhalves

theorem passed_loopTiles : (loopTiles q wide lo hi (dotsOf ns dots) rw nar).1.passed = openAfter q wide lo hi (dotsOf ns dots) := rfl

/-- An element is defined after an MLOOP where its products are, or where it is NaR for certain. -/
theorem not_mem_openAfter {e : ℕ} (h : ((dots e).undef = false ∧ (accumulate q wide (accBits lo hi wide e) (dots e)).2 = false ∧
      e ∉ undefElems lo ∧ (wide = true → e ∉ undefElems hi)) ∨ (q && (dots e).sure) = true ∨ holdsNar q wide lo hi e = true) :
    e ∉ openAfter q wide lo hi (dotsOf ns dots) := by
  intro hmem
  obtain ⟨x, hx, rfl⟩ := List.mem_map.mp hmem
  obtain ⟨hds, hopen⟩ := List.mem_filter.mp hx
  obtain ⟨j, -, rfl⟩ := List.mem_map.mp hds
  simp only [Bool.and_eq_true, Bool.or_eq_true, Bool.not_eq_true'] at hopen
  obtain ⟨⟨hpossible, hsure⟩, hnar⟩ := hopen
  rcases h with ⟨hundef, hbound, hlo, hhi⟩ | hcertain | hholds
  · rw [hundef, hbound] at hpossible
    have hold : j ∉ undefElems lo ++ (if wide then undefElems hi else []) := by
      rw [List.mem_append, not_or]
      refine ⟨hlo, ?_⟩
      split
      · next hw => exact hhi hw
      · exact List.not_mem_nil
    simp [hold] at hpossible
  · rw [hsure] at hcertain
    exact absurd hcertain Bool.false_ne_true
  · rw [hnar] at hholds
    exact absurd hholds Bool.false_ne_true

theorem holdsNar_of_accBits {e : ℕ} (hlo : undefElems lo = []) (hhi : wide = true → undefElems hi = []) (hbits : accBits lo hi wide e = 2 ^ (accWidth wide - 1)) :
    holdsNar true wide lo hi e = true := by
  have hdecide : decide (accBits lo hi wide e = 2 ^ ((if wide then 256 else 128) - 1)) = true := decide_eq_true hbits
  unfold holdsNar
  rw [hlo, hdecide]
  cases wide with
  | true => rw [hhi rfl]; rfl
  | false => rfl

end

end Sys2Proof
end

section
/-! PROOFS. The matrix unit's step for an MLOOP (R211, R214). -/

namespace Sys2Proof

open Sys2Proof.Machine

/-! ### An element by its products -/

section
variable {wide : Bool} {lo hi : Tile} {ns : List ℕ} {dots : ℕ → Dot} {e : ℕ} {ps : List (MxRead × MxRead)}
  (hdot : dots e = ps.foldl (fun d p => d.step p.1 p.2) Dot.zero) (hseen : ∀ p ∈ ps, p.1.seen = true ∧ p.2.seen = true)
  (hlo : undefElems lo = []) (hhi : wide = true → undefElems hi = [])
include hdot hseen hlo hhi

/-- An element that holds NaR, or has a NaR operand, is NaR. -/
theorem loop_nar (h : accBits lo hi wide e = 2 ^ (accWidth wide - 1) ∨ ∃ p ∈ ps, p.1.val = none ∨ p.2.val = none) :
    (accumulate true wide (accBits lo hi wide e) (dots e).settled).1 = 2 ^ (accWidth wide - 1) ∧ e ∉ openAfter true wide lo hi (dotsOf ns dots) := by
  rcases h with hold | ⟨p, hp, hnone⟩
  · exact ⟨by rw [accumulate_nar (.inl hold)], not_mem_openAfter (.inr (.inr (holdsNar_of_accBits hlo hhi hold)))⟩
  · have hsure : (dots e).sure = true := by
      rw [hdot, foldl_step_sure ps hseen, Bool.or_eq_true]
      refine .inr (List.any_eq_true.mpr ⟨p, hp, ?_⟩)
      rcases hnone with h | h <;> simp [h]
    have hnar : (dots e).settled.nar = true := by rw [Dot.settled, if_pos hsure]
    exact ⟨by rw [accumulate_nar (.inr hnar)], not_mem_openAfter (.inr (.inl (by rw [hsure]; rfl)))⟩

/-- An element whose operands are numbers has their products added, while the sums stay within the bound. -/
theorem loop_number {q : Bool} (hq : q = false → wide = false) (hnumbers : ∀ p ∈ ps, p.1.val ≠ none ∧ p.2.val ≠ none)
    (hbound : q = true → accBits lo hi wide e ≠ 2 ^ (accWidth wide - 1) ∧
      signed (accWidth wide) (accBits lo hi wide e) + ((ps.map product).filter (fun x => decide (0 ≤ x))).sum < (2 ^ (accWidth wide - 1) : ℤ) ∧
      -(2 ^ (accWidth wide - 1) : ℤ) < signed (accWidth wide) (accBits lo hi wide e) + ((ps.map product).filter (fun x => decide (x < 0))).sum) :
    (accumulate q wide (accBits lo hi wide e) (dots e).settled).1 = wrapTo (accWidth wide) (signed (accWidth wide) (accBits lo hi wide e) + (ps.map product).sum) ∧
      e ∉ openAfter q wide lo hi (dotsOf ns dots) := by
  obtain ⟨hnar, hpos, hneg⟩ := foldl_step_numbers ps hnumbers Dot.zero
  rw [← hdot] at hnar hpos hneg
  rw [show Dot.zero.pos = 0 from rfl, zero_add] at hpos
  rw [show Dot.zero.neg = 0 from rfl, zero_add] at hneg
  have hundef : (dots e).undef = false := by rw [hdot, foldl_step_undef ps hseen]; rfl
  have hsure : (dots e).sure = false := by
    rw [hdot, foldl_step_sure ps hseen, Bool.or_eq_false_iff]
    refine ⟨rfl, List.any_eq_false.mpr fun p hp => ?_⟩
    obtain ⟨ha, hb⟩ := hnumbers p hp
    simp [Option.isNone_iff_eq_none, ha, hb]
  have hsettled : (dots e).settled = dots e := by rw [Dot.settled, hsure, if_neg Bool.false_ne_true]
  have hsum : signed (accWidth wide) (accBits lo hi wide e) + (dots e).pos + (dots e).neg =
      signed (accWidth wide) (accBits lo hi wide e) + (ps.map product).sum := by
    rw [hpos, hneg, ← sum_filter_signs (ps.map product)]
    exact add_assoc _ _ _
  have hdefined : (accumulate q wide (accBits lo hi wide e) (dots e)).1 = wrapTo (accWidth wide) (signed (accWidth wide) (accBits lo hi wide e) + (ps.map product).sum) ∧
      (accumulate q wide (accBits lo hi wide e) (dots e)).2 = false := by
    cases q with
    | false =>
      obtain rfl := hq rfl
      exact ⟨congrArg (wrapTo 128) hsum, rfl⟩
    | true =>
      obtain ⟨hold, hupper, hlower⟩ := hbound rfl
      rw [accumulate_number hold hnar, hsum]
      refine ⟨rfl, ?_⟩
      rw [hpos, hneg, Bool.or_eq_false_iff]
      exact ⟨decide_eq_false (not_le.mpr hupper), decide_eq_false (not_le.mpr hlower)⟩
  rw [hsettled]
  refine ⟨hdefined.1, not_mem_openAfter (.inl ⟨hundef, hdefined.2, ?_, fun hw => ?_⟩)⟩
  · rw [hlo]; exact List.not_mem_nil
  · rw [hhi hw]; exact List.not_mem_nil

end

/-! ### The end of a command of the unit -/

theorem finishMx_frame (s : State) (core oid : ℕ) (fault : Option Report) :
    finishMx s core oid fault =
      { s with cores := (finishMx s core oid fault).cores, ops := (finishMx s core oid fault).ops, strands := (finishMx s core oid fault).strands } := by
  unfold finishMx
  dsimp only
  rw [endOp_frame, putCore_frame]
  rfl

/-- The operation of a command of the unit. -/
def Machine.MxCmd.oid : MxCmd → ℕ
  | .mloop o .. => o
  | .mrd o .. => o
  | .mclr o .. => o

theorem mq_finishMx (s : State) (core oid : ℕ) (fault : Option Report) :
    (coreOf (finishMx s core oid fault) core).mq = (coreOf s core).mq.filter (fun c => c.oid != oid) := by
  unfold finishMx
  dsimp only
  rw [endOp_frame]
  show (coreOf (putCore s _) core).mq = _
  rw [coreOf_putCore (by exact coreOf_num s core)]
  refine List.filter_congr fun c _ => ?_
  cases c <;> rfl

/-! ### The tiles and granules that an MLOOP leaves -/

/-- The machine with the tiles of an MLOOP, its granules emptied where it takes them. -/
def loopLeft (s : State) (lk team m : ℕ) (wide take clash : Bool) (gs : List ℕ) (tiles : Tile × Tile) : State :=
  let s2 := updTile (draw (draw s)) lk team m (fun _ => { tiles.1 with undef := clash })
  let s3 := if wide then updTile s2 lk team (m + 1) (fun _ => { tiles.2 with undef := clash }) else s2
  if take then gs.foldl (fun a g => setFull a lk team g false) s3 else s3

/-- The team with the tiles of an MLOOP. -/
def loopLeftTeam (m : ℕ) (wide clash : Bool) (tiles : Tile × Tile) (t : Team) : Team :=
  let y := t.retile m (fun _ => { tiles.1 with undef := clash })
  if wide then y.retile (m + 1) (fun _ => { tiles.2 with undef := clash }) else y

theorem teamOf_loopLeft {s : State} {lk team : ℕ} {t : Team} (h : teamOf s lk team = some t) (m : ℕ) (wide take clash : Bool) (gs : List ℕ) (tiles : Tile × Tile) :
    ∃ t', teamOf (loopLeft s lk team m wide take clash gs tiles) lk team = some t' ∧ t'.tiles = (loopLeftTeam m wide clash tiles t).tiles := by
  have hempty : ∀ (xs : List ℕ) (a : State), (teamOf (xs.foldl (fun a g => setFull a lk team g false) a) lk team).map (fun x => x.tiles) = (teamOf a lk team).map (fun x => x.tiles) :=
    fun xs => by
      induction xs with
      | nil => exact fun _ => rfl
      | cons x xs ih => exact fun a => (ih _).trans (map_teamOf_updTeam (fun _ => by exact ⟨rfl, rfl⟩) (fun _ => by rfl) a lk team lk team)
  have htiles : teamOf (if wide then updTile (updTile (draw (draw s)) lk team m (fun _ => { tiles.1 with undef := clash })) lk team (m + 1) (fun _ => { tiles.2 with undef := clash })
      else updTile (draw (draw s)) lk team m (fun _ => { tiles.1 with undef := clash })) lk team = some (loopLeftTeam m wide clash tiles t) := by
    have hfirst : teamOf (updTile (draw (draw s)) lk team m (fun _ => { tiles.1 with undef := clash })) lk team = some (t.retile m (fun _ => { tiles.1 with undef := clash })) :=
      teamOf_updTile (s := draw (draw s)) h m _
    cases wide with
    | false => exact hfirst
    | true => exact teamOf_updTile hfirst (m + 1) (fun _ => { tiles.2 with undef := clash })
  unfold loopLeft
  dsimp only
  split
  · have hmap := hempty gs (if wide then updTile (updTile (draw (draw s)) lk team m (fun _ => { tiles.1 with undef := clash })) lk team (m + 1) (fun _ => { tiles.2 with undef := clash })
      else updTile (draw (draw s)) lk team m (fun _ => { tiles.1 with undef := clash }))
    rw [htiles] at hmap
    exact Option.map_eq_some_iff.mp hmap
  · exact ⟨_, htiles, rfl⟩

theorem tiles_loopLeftTeam {m : ℕ} {wide clash : Bool} {tiles : Tile × Tile} {t : Team} (hlen : t.tiles.length = 8) (hm : m + (if wide then 1 else 0) < 8) :
    tileOf (loopLeftTeam m wide clash tiles t) m = { tiles.1 with undef := clash, dirty := true } ∧
    (wide = true → tileOf (loopLeftTeam m wide clash tiles t) (m + 1) = { tiles.2 with undef := clash, dirty := true }) := by
  unfold loopLeftTeam
  dsimp only
  cases wide with
  | false => exact ⟨tileOf_retile_same (by rw [hlen]; exact hm) (fun _ => { tiles.1 with undef := clash }), nofun⟩
  | true =>
    rw [if_pos rfl] at hm ⊢
    refine ⟨?_, fun _ => tileOf_retile_same (by rw [length_retile, hlen]; exact hm) (fun _ => { tiles.2 with undef := clash })⟩
    rw [tileOf_retile_other (Nat.ne_of_lt (Nat.lt_succ_self m)), tileOf_retile_same (by rw [hlen]; omega)]

theorem badAddr_loopLeft (s : State) (lk team m : ℕ) (wide take clash : Bool) (gs : List ℕ) (tiles : Tile × Tile) :
    (loopLeft s lk team m wide take clash gs tiles).badAddr = s.badAddr := by
  unfold loopLeft
  dsimp only
  split
  · rw [foldl_badAddr _ _ _ fun a x => badAddr_setFull a lk team x false]
    split <;> simp
  · split <;> simp

end Sys2Proof
end

section
/-! PROOFS. MATRIX_MLOOP_EXEC and MCLR_DONE (R211, R214, R217). -/

namespace Sys2Proof

open Sys2Proof.Machine

/-! ### MLOOP -/

/-- The writes that what an MLOOP takes has released (R258). -/
def loopTaken (s : State) (lk team : ℕ) (f : Word) (r : LayoutBits) (k : ℕ) : List ℕ :=
  if fmtTake f then (s.gsets.filter (fun g => g.lk == lk && g.team == team && (regionA r k).contains g.gran)).flatMap (fun g => g.rel.set) else []

/-- The machine as an MLOOP reads it: what it has been handed has drained. -/
def loopDrained (s : State) (core lk team : ℕ) (f : Word) (r : LayoutBits) (k : ℕ) : State :=
  drainWhere s core (fun x => x.space == .scr lk team && (loopTaken s lk team f r k).contains x.id)

/-- The products of an element of an MLOOP. -/
def loopDot (s : State) (core lk team : ℕ) (seen : List ℕ) (f w : Word) (r : LayoutBits) (k e : ℕ) : Dot :=
  dotOf s (coreOf s core) lk team seen f w (ringStart r (recRnext r)) k (e / 64) (e % 64)

section
variable {s : State} {core oid lk team m : ℕ} {f w : Word} {r : LayoutBits} {d k : ℕ} {seen : List ℕ} {clash : Bool} {rest : List MxCmd}
  (ok : s.badAddr = none) (hunit : s.sec.boot ≠ .seedling) (hmq : (coreOf s core).mq = .mloop oid lk team m f w r d k seen clash :: rest)
  (htake : fmtTake f = true → allGranules s lk team (regionA r k) true = true)
include hunit hmq htake

theorem exec_mloopExec_gone (hteam : teamOf (loopDrained s core lk team f r k) lk team = none) :
    exec (.matrixMloopExec core) s = finish (finishMx (loopDrained s core lk team f r k) core oid none) := by
  have hthere : matrixUnit s = true := bne_iff_ne.mpr hunit
  have hgran : ¬(fmtTake f && !allGranules s lk team (regionA r k) true) = true := by
    cases h : fmtTake f with
    | false => simp
    | true => simp [htake h]
  show execMatrixMloopExec core s = _
  unfold execMatrixMloopExec
  rw [hthere, hmq, if_neg (by decide), List.findSome?_cons]
  dsimp only
  rw [if_neg hgran]
  unfold loopDrained loopTaken at hteam ⊢
  rw [hteam]

theorem exec_mloopExec {tm : Team} (hteam : teamOf (loopDrained s core lk team f r k) lk team = some tm) :
    ∃ rw nar fault, exec (.matrixMloopExec core) s = finish (finishMx (loopLeft (loopDrained s core lk team f r k) lk team m (decide (fmtIn f = 1)) (fmtTake f) clash (regionA r k)
      (loopTiles (decide (fmtIn f ≤ 1)) (decide (fmtIn f = 1)) (tileOf tm m) (tileOf tm (m + 1))
        (dotsOf (List.range 4096) (loopDot (loopDrained s core lk team f r k) core lk team ((loopTaken s lk team f r k).foldl insertNat seen) f w r k)) rw nar)) core oid fault) := by
  have hthere : matrixUnit s = true := bne_iff_ne.mpr hunit
  have hgran : ¬(fmtTake f && !allGranules s lk team (regionA r k) true) = true := by
    cases h : fmtTake f with
    | false => simp
    | true => simp [htake h]
  have hexec : exec (.matrixMloopExec core) s = execMatrixMloopExec core s := rfl
  rw [hexec]
  unfold execMatrixMloopExec
  rw [hthere, hmq, if_neg (by decide), List.findSome?_cons]
  dsimp only
  rw [if_neg hgran]
  unfold loopDrained loopTaken at hteam ⊢
  rw [hteam]
  exact ⟨_, _, _, rfl⟩

end

/-- The pairs of operands of an element of an MLOOP. -/
def loopOperands (s : State) (core lk team : ℕ) (seen : List ℕ) (f w : Word) (r : LayoutBits) (k e : ℕ) : List (MxRead × MxRead) :=
  loopPairs s (coreOf s core) lk team seen f w (ringStart r (recRnext r)) k (e / 64) (e % 64)

/-- An element of an MLOOP after it: NaR where it was or where an operand is, else the sum with its products. -/
def LoopElement (f : Word) (old new : ℕ) (kept : Prop) (ps : List (MxRead × MxRead)) : Prop :=
  (∀ p ∈ ps, p.1.seen = true ∧ p.2.seen = true) →
  (decide (fmtIn f ≤ 1) = true → (old = 2 ^ (accWidth (decide (fmtIn f = 1)) - 1) ∨ ∃ p ∈ ps, p.1.val = none ∨ p.2.val = none) →
    new = 2 ^ (accWidth (decide (fmtIn f = 1)) - 1) ∧ kept) ∧
  ((∀ p ∈ ps, p.1.val ≠ none ∧ p.2.val ≠ none) →
    (decide (fmtIn f ≤ 1) = true → old ≠ 2 ^ (accWidth (decide (fmtIn f = 1)) - 1) ∧
      signed (accWidth (decide (fmtIn f = 1))) old + ((ps.map product).filter (fun x => decide (0 ≤ x))).sum < ((2 ^ (accWidth (decide (fmtIn f = 1)) - 1) : ℕ) : ℤ) ∧
      -((2 ^ (accWidth (decide (fmtIn f = 1)) - 1) : ℕ) : ℤ) < signed (accWidth (decide (fmtIn f = 1))) old + ((ps.map product).filter (fun x => decide (x < 0))).sum) →
    new = wrapTo (accWidth (decide (fmtIn f = 1))) (signed (accWidth (decide (fmtIn f = 1))) old + (ps.map product).sum) ∧ kept)

/-- What the tiles of an MLOOP hold. -/
theorem loopElement_of_tiles {f : Word} {lo hi lo' hi' : Tile} {dots : ℕ → Dot} {rw nar : Bool} {ns : List ℕ} (hns : ns.Nodup) {e : ℕ} (he : e ∈ ns) {ps : List (MxRead × MxRead)}
    (hdot : dots e = ps.foldl (fun d p => d.step p.1 p.2) Dot.zero) (hlo : undefElems lo = []) (hhi : decide (fmtIn f = 1) = true → undefElems hi = [])
    (hlo' : lo' = { (loopTiles (decide (fmtIn f ≤ 1)) (decide (fmtIn f = 1)) lo hi (dotsOf ns dots) rw nar).1 with undef := false, dirty := true })
    (hhi' : decide (fmtIn f = 1) = true →
      hi' = { (loopTiles (decide (fmtIn f ≤ 1)) (decide (fmtIn f = 1)) lo hi (dotsOf ns dots) rw nar).2 with undef := false, dirty := true }) :
    LoopElement f (accBits lo hi (decide (fmtIn f = 1)) e) (accBits lo' hi' (decide (fmtIn f = 1)) e) (e ∉ undefElems lo') ps := by
  have hq : decide (fmtIn f = 1) = true → decide (fmtIn f ≤ 1) = true := fun h => by
    rw [decide_eq_true_eq] at h ⊢
    omega
  have hopen : undefElems lo' = openAfter (decide (fmtIn f ≤ 1)) (decide (fmtIn f = 1)) lo hi (dotsOf ns dots) := by
    have hundef : lo'.undef = false := by rw [hlo']
    have hpassed := congrArg Tile.passed hlo'
    rw [undefElems, hundef, if_neg Bool.false_ne_true]
    exact hpassed.trans (passed_loopTiles (rw := rw) (nar := nar))
  have hbits : accBits lo' hi' (decide (fmtIn f = 1)) e =
      (accumulate (decide (fmtIn f ≤ 1)) (decide (fmtIn f = 1)) (accBits lo hi (decide (fmtIn f = 1)) e) (dots e).settled).1 := by
    have hloElems := congrArg Tile.elems hlo'
    have hhiElems := fun hw => congrArg Tile.elems (hhi' hw)
    rw [← elems_loopTiles (rw := rw) (nar := nar) hq hns he, accBits_eq, accBits_eq, hloElems]
    generalize decide (fmtIn f = 1) = wide at hhiElems ⊢
    cases wide with
    | false => rw [if_neg Bool.false_ne_true, if_neg Bool.false_ne_true]
    | true => rw [if_pos rfl, if_pos rfl, hhiElems rfl]
  intro hseen
  rw [hbits, hopen]
  refine ⟨fun hQ hnar => ?_, fun hnumbers hbound => ?_⟩
  · rw [hQ]
    exact loop_nar hdot hseen hlo hhi hnar
  · refine loop_number hdot hseen hlo hhi (fun hQ => ?_) hnumbers fun hQ => ?_
    · cases hw : decide (fmtIn f = 1) with
      | false => rfl
      | true => exact absurd (hq hw) (by rw [hQ]; exact Bool.false_ne_true)
    · have hpow : ((2 ^ (accWidth (decide (fmtIn f = 1)) - 1) : ℕ) : ℤ) = (2 : ℤ) ^ (accWidth (decide (fmtIn f = 1)) - 1) := Nat.cast_pow 2 _
      rw [← hpow]
      exact hbound hQ

section
variable {s : State} {core oid lk team m : ℕ} {f w : Word} {r : LayoutBits} {d k : ℕ} {seen : List ℕ} {clash : Bool} {rest : List MxCmd}
  (ok : s.badAddr = none) (hunit : s.sec.boot ≠ .seedling) (hmq : (coreOf s core).mq = .mloop oid lk team m f w r d k seen clash :: rest)
  (htake : fmtTake f = true → allGranules s lk team (regionA r k) true = true)
include ok hunit hmq htake

/-- The first MLOOP of a core forms its products and leaves the queue (R211). -/
theorem mloopExec_forms : ∃ t, exec (.matrixMloopExec core) s = .next t ∧
    (∀ c ∈ (coreOf t core).mq, ∀ l u m f w r d k seen clash, c ≠ .mloop oid l u m f w r d k seen clash) ∧
    ∀ tm, teamOf (loopDrained s core lk team f r k) lk team = some tm → tm.tiles.length = 8 → m + (if decide (fmtIn f = 1) then 1 else 0) < 8 → clash = false →
      undefElems (tileOf tm m) = [] → (decide (fmtIn f = 1) = true → undefElems (tileOf tm (m + 1)) = []) →
      ∃ tm', teamOf t lk team = some tm' ∧ ∀ e < 4096,
        LoopElement f (accBits (tileOf tm m) (tileOf tm (m + 1)) (decide (fmtIn f = 1)) e) (accBits (tileOf tm' m) (tileOf tm' (m + 1)) (decide (fmtIn f = 1)) e)
          (e ∉ undefElems (tileOf tm' m)) (loopOperands (loopDrained s core lk team f r k) core lk team ((loopTaken s lk team f r k).foldl insertNat seen) f w r k e) := by
  have hgone : ∀ (u : State) (fault : Option Report), ∀ c ∈ (coreOf (finishMx u core oid fault) core).mq, ∀ l n m f w r d k seen clash, c ≠ .mloop oid l n m f w r d k seen clash :=
    fun u fault c hc l n m f w r d k seen clash heq => by
      rw [mq_finishMx] at hc
      have hne := (List.mem_filter.mp hc).2
      rw [heq] at hne
      simp [MxCmd.oid] at hne
  have hok : (loopDrained s core lk team f r k).badAddr = none := (badAddr_drainWhere s core _).trans ok
  cases hteam : teamOf (loopDrained s core lk team f r k) lk team with
  | none =>
    refine ⟨_, (exec_mloopExec_gone hunit hmq htake hteam).trans (finish_next ((badAddr_finishMx _ _ _ _).trans hok)), hgone _ _, fun tm htm => ?_⟩
    exact absurd htm nofun
  | some tm =>
    obtain ⟨rw', nar, fault, hexec⟩ := exec_mloopExec hunit hmq htake hteam
    generalize hdots : loopDot (loopDrained s core lk team f r k) core lk team ((loopTaken s lk team f r k).foldl insertNat seen) f w r k = dots at hexec
    generalize htiles : loopTiles (decide (fmtIn f ≤ 1)) (decide (fmtIn f = 1)) (tileOf tm m) (tileOf tm (m + 1)) (dotsOf (List.range 4096) dots) rw' nar = tiles at hexec
    refine ⟨_, hexec.trans (finish_next ((badAddr_finishMx _ _ _ _).trans ((badAddr_loopLeft _ _ _ _ _ _ _ _ _).trans hok))), hgone _ _, fun tm1 htm hlen hm hclash hlo hhi => ?_⟩
    obtain rfl := Option.some.inj htm
    obtain ⟨tm', hleft, hleftTiles⟩ := teamOf_loopLeft hteam m (decide (fmtIn f = 1)) (fmtTake f) clash (regionA r k) tiles
    obtain ⟨hlo', hhi'⟩ := tiles_loopLeftTeam (clash := clash) (tiles := tiles) hlen hm
    have htile : ∀ j, tileOf tm' j = tileOf (loopLeftTeam m (decide (fmtIn f = 1)) clash tiles tm) j := fun j => congrArg (fun l => nth l j Tile.clear) hleftTiles
    rw [← htile, hclash, ← htiles] at hlo'
    refine ⟨tm', by rw [finishMx_frame]; exact hleft, fun e he => ?_⟩
    refine loopElement_of_tiles List.nodup_range (List.mem_range.mpr he) ?_ hlo hhi hlo' fun hw => ?_
    · rw [← hdots]
      exact dotOf_eq _ _ _ _ _ _ _ _ _ _ _
    · have hhi' := hhi' hw
      rwa [← htile, hclash, ← htiles] at hhi'

end

/-! ### MCLR (R217) -/

theorem findSome?_of_singleton {α β : Type} {xs : List α} {x : α} (h : xs = [x]) (g : α → Option β) : xs.findSome? g = g x := by
  rw [h, List.findSome?_singleton]

theorem exec_mclrDone {s : State} {c : Machine.Core} {core oid lk team m : ℕ} {clash : Bool} (ok : s.badAddr = none) (hunit : s.sec.boot ≠ .seedling) (hcores : s.cores = [c])
    (hnum : c.num = core) (hmq : c.mq = [.mclr oid lk team m clash]) :
    exec (.mclrDone oid) s = .next (finishMx (updTile s lk team m (fun _ => { Tile.clear with undef := clash })) core oid none) := by
  have hthere : matrixUnit s = true := bne_iff_ne.mpr hunit
  show execMclrDone oid s = _
  unfold execMclrDone
  rw [hthere, if_neg (by decide), findSome?_of_singleton hcores, findSome?_of_singleton hmq]
  dsimp only
  rw [if_pos rfl, hnum]
  exact finish_next (by rw [badAddr_finishMx, badAddr_updTile, ok])

end Sys2Proof
end

section
/-! PROOFS. MRD_READOUT_DONE (R79, R219). -/

namespace Sys2Proof

open Sys2Proof.Machine

/-! ### The value of an element (R79) -/

/-- The binary digits of an accumulator's element after the point, by the tag of its tile (R75). -/
def tagFrac (tag : ℕ) : ℤ := match tag with | 1 => 48 | 2 => 112 | _ => 0

/-- An element rounded once to its target (R79): 0 from an empty tile, NaN, or 0 as an integer, from NaR. -/
def readOut (fm : MrdFmt) (r : Rnd) (sat : Bool) (tag x : ℕ) : ℕ :=
  let width := accWidth (tag == 2)
  let nar := tag ≠ 4 ∧ x = 2 ^ (width - 1)
  let v : RVal := if nar then .nan else .fin (decide (signed width x < 0)) (signed width x).natAbs (-tagFrac tag)
  let int := fun (n : ℕ) =>
    let z := roundInt r (decide (signed width x < 0)) (signed width x).natAbs (-tagFrac tag)
    if nar then 0 else ((if sat then max (intMin true n) (min (intMax true n) z) else z) % 2 ^ n).toNat
  if tag = 0 then 0
  else match fm with
    | .t8 => roundTapered 8 v | .t16 => roundTapered 16 v | .t32 => roundTapered 32 v
    | .f32 => roundBin 23 r v | .bf16 => roundBin 7 r v
    | .i32 => int 32 | .i8 => int 8

theorem mrdElem_eq (fm : MrdFmt) (r : Rnd) (sat : Bool) (tag : ℕ) {x : ℕ} (hx : x < 2 ^ accWidth (tag == 2)) : mrdElem fm r sat tag x = readOut fm r sat tag x := by
  have hwidth : (if tag = 2 then 256 else 128) = accWidth (tag == 2) := by
    unfold accWidth
    by_cases h : tag = 2 <;> simp [h]
  have hnar : ((decide (tag ≠ 4) && decide (x % 2 ^ accWidth (tag == 2) = 2 ^ (accWidth (tag == 2) - 1))) = true) = (tag ≠ 4 ∧ x = 2 ^ (accWidth (tag == 2) - 1)) := by
    rw [Nat.mod_eq_of_lt hx, Bool.and_eq_true, decide_eq_true_eq, decide_eq_true_eq]
  unfold mrdElem readOut
  dsimp only
  rw [hwidth]
  simp only [hnar, narrow_eq]
  split
  · rfl
  · cases fm <;> rfl

theorem accBits_lt (lo hi : Tile) (wide : Bool) (e : ℕ) : accBits lo hi wide e < 2 ^ accWidth wide := by
  have hlo : patternAt lo.elems e < 2 ^ 128 := BitVec.isLt _
  have hhi : patternAt hi.elems e < 2 ^ 128 := BitVec.isLt _
  rw [accBits_eq]
  cases wide with
  | false => exact hlo
  | true =>
    rw [if_pos rfl]
    show _ < 2 ^ 256
    omega

/-! ### What a read-out finds (R214, R215, R219) -/

/-- An element of the block that a read-out finds; a free value where the tile is undefined. -/
def blockElem (s : State) (fm : MrdFmt) (r : Rnd) (sat : Bool) (blk : ℕ) (clash : Bool) (lo hi : Tile) (row n : ℕ) : ℕ :=
  if clash || lo.undef || (lo.tag == 2 && hi.undef) then (Config.freeAcc (s.nfree + 2 * ((8 * blk + row) * 64 + n))).toNat % 2 ^ mrdBits fm
  else mrdElem fm r sat lo.tag (mrdPattern s.nfree lo hi (lo.tag == 2) ((8 * blk + row) * 64 + n))

/-- An element of the block of a tile that is defined. -/
def definedElem (fm : MrdFmt) (r : Rnd) (sat : Bool) (blk : ℕ) (lo hi : Tile) (row n : ℕ) : ℕ :=
  readOut fm r sat lo.tag (accBits lo hi (lo.tag == 2) ((8 * blk + row) * 64 + n))

/-- An element of the block that is poisoned. -/
def blockPois (blk : ℕ) (lo hi : Tile) (row n : ℕ) : Bool :=
  lo.pois.contains ((8 * blk + row) * 64 + n) || (lo.tag == 2 && hi.pois.contains ((8 * blk + row) * 64 + n))

/-- The tile is defined, and no element of it is poisoned. -/
structure Sound (lo hi : Tile) : Prop where
  first : undefElems lo = [] ∧ lo.pois = []
  second : (lo.tag == 2) = true → undefElems hi = [] ∧ hi.pois = []

theorem undef_of_undefElems {t : Tile} (h : undefElems t = []) : t.undef = false := by
  unfold undefElems at h
  split at h
  · exact absurd (congrArg List.length h) (by rw [List.length_range]; decide)
  · next hno => simpa using hno

section
variable {s : State} {fm : MrdFmt} {r : Rnd} {sat : Bool} {blk : ℕ} {lo hi : Tile} (sound : Sound lo hi)
include sound

theorem blockElem_sound : blockElem s fm r sat blk false lo hi = definedElem fm r sat blk lo hi := by
  funext row n
  obtain ⟨⟨hlo, -⟩, hhi⟩ := sound
  have hdefined : (false || lo.undef || (lo.tag == 2 && hi.undef)) = false := by
    rw [undef_of_undefElems hlo, Bool.false_or, Bool.false_or]
    cases hw : lo.tag == 2 with
    | false => rfl
    | true => exact undef_of_undefElems (hhi hw).1
  have hfound : mrdPattern s.nfree lo hi (lo.tag == 2) ((8 * blk + row) * 64 + n) = accBits lo hi (lo.tag == 2) ((8 * blk + row) * 64 + n) := by
    unfold mrdPattern
    refine if_neg ?_
    dsimp only
    rw [hlo]
    cases hw : lo.tag == 2 with
    | false => simp
    | true => rw [(hhi hw).1]; simp
  unfold blockElem
  rw [hdefined, if_neg Bool.false_ne_true, hfound, mrdElem_eq fm r sat lo.tag (accBits_lt lo hi _ _)]
  rfl

theorem blockPois_sound : blockPois blk lo hi = fun _ _ => false := by
  funext row n
  obtain ⟨⟨-, hlo⟩, hhi⟩ := sound
  unfold blockPois
  rw [hlo]
  cases hw : lo.tag == 2 with
  | false => rfl
  | true => rw [(hhi hw).2]; rfl

end

/-! ### Registers and scratch (R219) -/

/-- The words of a block at the indices of its operation, and their poison, have arrived. -/
def blockLanded (s : State) (o : Op) (d : ℕ) (fm : MrdFmt) (el : ℕ → ℕ → ℕ) (bad : ℕ → ℕ → Bool) : State :=
  landAll { s with nfree := s.nfree + 8192 } o (some d) (mrdRegs fm)
    (o.idxs.map (fun i => (i, (List.range (mrdRegs fm)).map (fun j => BitVec.ofNat 32 (joinElems (mrdBits fm) (mrdRows fm) (fun e => el (mrdRows fm * j + e) (i % 64)))))))
    ((List.range (mrdRegs fm)).flatMap (fun j => (o.idxs.filter (fun i => (List.range (mrdRows fm)).any (fun e => bad (mrdRows fm * j + e) (i % 64)))).map (fun i => (j, i)))) none

/-- A read-out to registers has ended in u, or ends there where no strand still waits for its words. -/
def readOutEnded (u : State) (core oid : ℕ) : State := if (opOf u oid).isSome then u else finishMx u core oid none

/-- The bytes of a block in scratch. -/
def blockBytes (fm : MrdFmt) (el : ℕ → ℕ → ℕ) : List Byte := (List.range 512).flatMap (fun k => toBytes (mrdBits fm / 8) (el (k / 64) (k % 64)))

/-- The block has been written to scratch. -/
def blockWritten (s : State) (core lk team : ℕ) (fm : MrdFmt) (el : ℕ → ℕ → ℕ) (owner off : ℕ) : ℕ × State :=
  appendHome { s with nfree := s.nfree + 8192 } (.scr lk owner) off (blockBytes fm el) false (.engine core lk team) none

/-- And its granules are full, its poisoned elements poisoned. -/
def blockStored (s : State) (core lk team : ℕ) (fm : MrdFmt) (el : ℕ → ℕ → ℕ) (bad : ℕ → ℕ → Bool) (owner off : ℕ) : State :=
  (granules off (512 * (mrdBits fm / 8))).foldl
    (fun a g => fillGranule a lk owner g (.engine core lk team) ⟨[(blockWritten s core lk team fm el owner off).1], ⟨.team, ctxOfLaunch s lk, [teamRange s lk team]⟩⟩)
    ((List.range 512).foldl (fun a k => if bad (k / 64) (k % 64) then setHomePoison a (.scr lk owner) (off + k * (mrdBits fm / 8)) (mrdBits fm / 8) true else a)
      (blockWritten s core lk team fm el owner off).2)

section
variable {s : State} {c : Machine.Core} {core oid lk team m b : ℕ} {r : Rnd} {f : MrdFmt} {sat : Bool} {reg : Option ℕ} {a : ℕ} {clash : Bool} {o : Op}
  (hunit : s.sec.boot ≠ .seedling) (hcores : s.cores = [c]) (hnum : c.num = core)
  (hmq : c.mq = [.mrd oid lk team m r b f sat reg a clash]) (hop : opOf s oid = some o)
include hunit hcores hnum hmq hop

theorem exec_mrdDone_gone (hteam : teamOf s lk team = none) : exec (.mrdReadoutDone oid) s = finish (finishMx s core oid none) := by
  have hthere : matrixUnit s = true := bne_iff_ne.mpr hunit
  show execMrdReadoutDone oid s = _
  unfold execMrdReadoutDone
  rw [hthere, if_neg (by decide), findSome?_of_singleton hcores, findSome?_of_singleton hmq, hop]
  dsimp only
  rw [if_pos rfl, hnum]
  dsimp only
  rw [hteam]

theorem exec_mrdDone_registers {tm : Team} (hteam : teamOf s lk team = some tm) {d : ℕ} (hreg : reg = some d) :
    exec (.mrdReadoutDone oid) s = finish (readOutEnded (blockLanded s o d f (blockElem s f r sat b clash (tileOf tm m) (tileOf tm (m + 1)))
      (blockPois b (tileOf tm m) (tileOf tm (m + 1)))) core oid) := by
  have hthere : matrixUnit s = true := bne_iff_ne.mpr hunit
  show execMrdReadoutDone oid s = _
  unfold execMrdReadoutDone
  rw [hthere, if_neg (by decide), findSome?_of_singleton hcores, findSome?_of_singleton hmq, hop]
  dsimp only
  rw [if_pos rfl, hnum]
  dsimp only
  rw [hteam, hreg]
  rfl

theorem exec_mrdDone_scratch {tm : Team} (hteam : teamOf s lk team = some tm) (hreg : reg = none) :
    exec (.mrdReadoutDone oid) s = finish (finishMx (blockStored s core lk team f (blockElem s f r sat b clash (tileOf tm m) (tileOf tm (m + 1)))
      (blockPois b (tileOf tm m) (tileOf tm (m + 1)))
      (if decide (a + 512 * (mrdBits f / 8) ≤ tm.kernel.scratch) then team else nth (gangTeams s lk team) ((a - 0x1000000) / 0x40000) team)
      (if decide (a + 512 * (mrdBits f / 8) ≤ tm.kernel.scratch) then a else (a - 0x1000000) % 0x40000)) core oid none) := by
  have hthere : matrixUnit s = true := bne_iff_ne.mpr hunit
  show execMrdReadoutDone oid s = _
  unfold execMrdReadoutDone
  rw [hthere, if_neg (by decide), findSome?_of_singleton hcores, findSome?_of_singleton hmq, hop]
  dsimp only
  rw [if_pos rfl, hnum]
  dsimp only
  rw [hteam, hreg]
  rfl

end

end Sys2Proof
end

section
/-! PROOFS. What MRD leaves in registers and scratch (R219), and the steps of the units (O52). -/

namespace Sys2Proof

open Sys2Proof.Machine

/-! ### Writing a block -/

theorem cores_setHome (s : State) (sp : Space) (a : ℕ) (bs : List Byte) : (setHome s sp a bs).cores = s.cores := by cases sp <;> rfl

theorem cores_setHomePoison (s : State) (sp : Space) (a n : ℕ) (p : Bool) : (setHomePoison s sp a n p).cores = s.cores := by
  cases sp with
  | scr lk t => rfl
  | _ => cases p <;> rfl

theorem cores_appendHome (s : State) (sp : Space) (a : ℕ) (bs : List Byte) (pois : Bool) (w : Writer) (rel : Option RelRec) : (appendHome s sp a bs pois w rel).2.cores = s.cores := by
  unfold appendHome
  exact (cores_setHomePoison _ _ _ _ _).trans (cores_setHome _ _ _ _)

theorem foldl_cores {α : Type} {f : State → α → State} (h : ∀ a x, (f a x).cores = a.cores) (xs : List α) (s : State) : (xs.foldl f s).cores = s.cores := by
  induction xs generalizing s with
  | nil => rfl
  | cons x xs ih => exact (ih (f s x)).trans (h s x)

theorem cores_blockStored (s : State) (core lk team : ℕ) (fm : MrdFmt) (el : ℕ → ℕ → ℕ) (bad : ℕ → ℕ → Bool) (owner off : ℕ) :
    (blockStored s core lk team fm el bad owner off).cores = s.cores := by
  unfold blockStored
  generalize List.range 512 = ks
  refine (foldl_cores (fun _ _ => by rfl) _ _).trans ((foldl_cores (fun a k => ?_) ks _).trans (cores_appendHome _ _ _ _ _ _ _))
  split
  · exact cores_setHomePoison _ _ _ _ _
  · rfl

theorem badAddr_blockStored (s : State) (core lk team : ℕ) (fm : MrdFmt) (el : ℕ → ℕ → ℕ) (bad : ℕ → ℕ → Bool) (owner off : ℕ) :
    (blockStored s core lk team fm el bad owner off).badAddr = s.badAddr := by
  unfold blockStored
  refine (foldl_badAddr _ _ _ fun _ _ => badAddr_fillGranule _ _ _ _ _ _).trans ((foldl_badAddr _ _ _ fun a k => ?_).trans (badAddr_appendHome _ _ _ _ _ _ _))
  split
  · exact badAddr_setHomePoison _ _ _ _ _
  · rfl

/-- A block has eight rows of 64 elements. -/
theorem length_blockBytes (fm : MrdFmt) (el : ℕ → ℕ → ℕ) : (blockBytes fm el).length = 512 * (mrdBits fm / 8) := by
  unfold blockBytes
  rw [List.length_flatMap]
  simp only [length_toBytes, List.map_const', List.sum_replicate, List.length_range, smul_eq_mul]

theorem block_size (fm : MrdFmt) : 512 * (mrdBits fm / 8) = 64 * mrdBits fm := by cases fm <;> rfl

theorem sameBytes_foldl_fillGranule (gs : List ℕ) (lk n : ℕ) (w : Writer) (r : RelRec) (s : State) : sameBytes s (gs.foldl (fun a g => fillGranule a lk n g w r) s) := by
  induction gs generalizing s with
  | nil => exact sameBytes_refl s
  | cons g gs ih =>
    refine sameBytes_trans ?_ (ih (fillGranule s lk n g w r))
    exact sameBytes_of_homeMem (homeMem_updTeam (f := fun t => { t with full := insertNat t.full g }) (fun _ => ⟨rfl, rfl⟩) (fun _ => rfl) s lk n)

/-- A block that is stored without poison stands in scratch, and its granules are full. -/
theorem blockStored_stands {s : State} {core lk team : ℕ} {fm : MrdFmt} {el : ℕ → ℕ → ℕ} {owner off : ℕ} (canon : memoriesCanonical s)
    (howner : (teamOf s lk owner).isSome = true) :
    homeBytes (blockStored s core lk team fm el (fun _ _ => false) owner off) (.scr lk owner) off (64 * mrdBits fm) = blockBytes fm el ∧
    ∀ g ∈ granules off (64 * mrdBits fm), granFull (blockStored s core lk team fm el (fun _ _ => false) owner off) lk owner g = true := by
  have hclean : ∀ (ks : List ℕ) (u : State), ks.foldl (fun a k => if (fun _ _ => false : ℕ → ℕ → Bool) (k / 64) (k % 64) then
      setHomePoison a (.scr lk owner) (off + k * (mrdBits fm / 8)) (mrdBits fm / 8) true else a) u = u := fun ks => by
    induction ks with
    | nil => exact fun _ => rfl
    | cons k ks ih => exact fun u => ih u
  have hcanon : memoriesCanonical { s with nfree := s.nfree + 8192 } := ⟨canon.device, canon.host, canon.teams, canon.cores⟩
  have hhoused : Housed { s with nfree := s.nfree + 8192 } (.scr lk owner) := fun j u hsp => by
    obtain ⟨rfl, rfl⟩ := Space.scr.inj hsp
    exact howner
  obtain ⟨hwrote, -⟩ := homeBytes_appendHome hcanon hhoused off (blockBytes fm el) false (.engine core lk team) none
  rw [length_blockBytes, block_size] at hwrote
  have hteam : (teamOf (blockWritten s core lk team fm el owner off).2 lk owner).isSome = true :=
    isSome_teamOf_of_kept (s := { s with nfree := s.nfree + 8192 }) (kept_appendHome _ _ _ _ _ _ _) howner
  unfold blockStored
  rw [hclean, block_size]
  exact ⟨(sameBytes_foldl_fillGranule _ _ _ _ _ _ _ _ _).trans hwrote, fun g hg => granFull_foldl_fillGranule _ hteam hg⟩

/-! ### MRD's read-out (R219) -/

section
variable {s : State} {c : Machine.Core} {core oid lk team m b : ℕ} {r : Rnd} {f : MrdFmt} {sat : Bool} {reg : Option ℕ} {a : ℕ} {clash : Bool} {o : Op}

/-- What a read-out is asked for: its operation's words, where no value is poisoned. -/
theorem blockLanded_clean (s : State) (o : Op) (d : ℕ) (fm : MrdFmt) (el : ℕ → ℕ → ℕ) :
    blockLanded s o d fm el (fun _ _ => false) = landAll { s with nfree := s.nfree + 8192 } o (some d) (mrdBits fm / 4)
      (o.idxs.map (fun i => (i, (List.range (mrdBits fm / 4)).map (fun j =>
        BitVec.ofNat 32 (joinElems (mrdBits fm) (32 / mrdBits fm) (fun e => el (32 / mrdBits fm * j + e) (i % 64))))))) [] none := by
  have hnone : (List.range (mrdRegs fm)).flatMap (fun j => (o.idxs.filter (fun i => (List.range (mrdRows fm)).any (fun e =>
      (fun _ _ => false : ℕ → ℕ → Bool) (mrdRows fm * j + e) (i % 64)))).map (fun i => (j, i))) = [] := by simp
  unfold blockLanded
  rw [hnone]
  rfl

variable (ok : s.badAddr = none) (hunit : s.sec.boot ≠ .seedling) (hcores : s.cores = [c]) (hnum : c.num = core)
  (hmq : c.mq = [.mrd oid lk team m r b f sat reg a clash]) (hop : opOf s oid = some o)
include ok hunit hcores hnum hmq hop

theorem mrdReadoutDone_reads : ∃ t, exec (.mrdReadoutDone oid) s = .next t ∧ (reg = none → (coreOf t core).mq = []) ∧
    ∀ tm, teamOf s lk team = some tm → clash = false → Sound (tileOf tm m) (tileOf tm (m + 1)) →
      (∀ d, reg = some d → t = readOutEnded (blockLanded s o d f (definedElem f r sat b (tileOf tm m) (tileOf tm (m + 1))) (fun _ _ => false)) core oid) ∧
      (reg = none → memoriesCanonical s →
        ∀ owner off, owner = (if decide (a + 512 * (mrdBits f / 8) ≤ tm.kernel.scratch) then team else nth (gangTeams s lk team) ((a - 0x1000000) / 0x40000) team) →
          off = (if decide (a + 512 * (mrdBits f / 8) ≤ tm.kernel.scratch) then a else (a - 0x1000000) % 0x40000) → (teamOf s lk owner).isSome = true →
          homeBytes t (.scr lk owner) off (64 * mrdBits f) = blockBytes f (definedElem f r sat b (tileOf tm m) (tileOf tm (m + 1))) ∧
          ∀ g ∈ granules off (64 * mrdBits f), granFull t lk owner g = true) := by
  have hcore : coreOf s core = c := by
    rw [coreOf, hcores, List.find?_cons, hnum, beq_self_eq_true]
    rfl
  have hempty : ∀ (u : State), u.cores = s.cores → (coreOf (finishMx u core oid none) core).mq = [] := fun u hu => by
    rw [mq_finishMx, coreOf_of_cores hu, hcore, hmq]
    simp [MxCmd.oid]
  cases hteam : teamOf s lk team with
  | none =>
    refine ⟨_, (exec_mrdDone_gone hunit hcores hnum hmq hop hteam).trans (finish_next ((badAddr_finishMx _ _ _ _).trans ok)), fun _ => hempty s rfl, fun tm htm => ?_⟩
    exact absurd htm nofun
  | some tm =>
    cases hreg : reg with
    | some d =>
      have hexec := exec_mrdDone_registers hunit hcores hnum hmq hop hteam hreg
      have hlanded : ∀ el bad, (blockLanded s o d f el bad).badAddr = none := fun el bad => (badAddr_landAll _ _ _ _ _ _ _).trans ok
      refine ⟨_, hexec.trans (finish_next ?_), nofun, fun tm' htm hclash sound => ⟨fun d' hd => ?_, nofun⟩⟩
      · unfold readOutEnded
        split
        · exact hlanded _ _
        · exact (badAddr_finishMx _ _ _ _).trans (hlanded _ _)
      · obtain rfl := Option.some.inj htm
        obtain rfl := Option.some.inj hd
        rw [hclash, blockElem_sound sound, blockPois_sound sound]
    | none =>
      have hexec := exec_mrdDone_scratch hunit hcores hnum hmq hop hteam hreg
      refine ⟨_, hexec.trans (finish_next ((badAddr_finishMx _ _ _ _).trans ((badAddr_blockStored _ _ _ _ _ _ _ _ _).trans ok))), fun _ => hempty _ (cores_blockStored _ _ _ _ _ _ _ _ _),
        fun tm' htm hclash sound => ⟨nofun, fun _ canon owner off howner hoff hsome => ?_⟩⟩
      obtain rfl := Option.some.inj htm
      rw [finishMx_frame, ← howner, ← hoff, hclash, blockElem_sound sound, blockPois_sound sound]
      exact blockStored_stands canon hsome

end

/-- Settles O52: each step of the stream engines and of the matrix unit completes, and leaves what the statement says. -/
theorem unitEvents : Obligations.UnitEvents := by
  unfold Obligations.UnitEvents
  refine ⟨?_, ?_, ?_, ?_, ?_⟩
  · intro s core e cmd rest ok hq hwait
    dsimp only
    refine ⟨?_, ?_, ?_, ?_, ?_, ?_, ?_, ?_⟩
    · exact fun hkind hp hfeu hgran => engine_starts hq hwait ok (fun _ _ => rfl) hkind hp hfeu hgran
    · exact fun hkind hp hfeu hgran => engine_starts hq hwait ok (fun _ _ => rfl) hkind hp hfeu hgran
    · intro p hgo hchoice hpages hleft hunits
      exact engineFill_ends hq hwait ok hchoice hgo (fill_atHand hgo.2.1 hpages hleft hunits)
    · intro p hgo hchoice hpages hleft hunits
      exact engineDrain_ends hq hwait ok hchoice hgo hleft hpages fun n hn sp a k hacc hk =>
        ⟨(hunits n hn sp a k hacc hk).1 rfl, (hunits n hn sp a k hacc hk).2⟩
    · intro p hgo hchoice hpages hleft hunits
      exact engineFillw_ends hq hwait ok hchoice hgo (fill_atHand hgo.2.1 hpages hleft hunits)
    · intro canon hteam hchoice p n bs hleft hfound
      exact ⟨engineFill_last hq hwait ok hchoice canon hleft hfound hteam, engineFillw_last hq hwait ok hchoice canon hleft hfound⟩
    · intro p n m left hgo hreading hleft hne hchoice hbuf
      exact engineDrain_reads hq hwait ok hgo hreading hleft hne hchoice hbuf
    · intro canon hchoice p n bs dest a hgo hwriting hleft himage hacc
      exact engineDrain_last hq hwait ok hgo canon hchoice hwriting hleft himage hacc
  · intro s core e ok cmd rest page hok hq hwait hasked
    exact exec_enginePageServiced hok hq hwait hasked
  · intro s core oid lk team m f w r d k seen clash rest ok hunit hmq htake
    exact mloopExec_forms ok hunit hmq htake
  · intro s c core oid lk team m clash ok hunit hcores hnum hmq
    exact exec_mclrDone ok hunit hcores hnum hmq
  · intro s c core oid lk team m r b f sat reg a clash o ok hunit hcores hnum hmq hop
    obtain ⟨t, hexec, hqueue, hreads⟩ := mrdReadoutDone_reads ok hunit hcores hnum hmq hop
    refine ⟨t, hexec, hqueue, fun tm htm hclash => ?_⟩
    intro lo hi wide hlo hlopois hhi
    obtain ⟨hregisters, hscratch⟩ := hreads tm htm hclash ⟨⟨hlo, hlopois⟩, hhi⟩
    refine ⟨fun d hd => ?_, fun hreg canon => ?_⟩
    · have ht := hregisters d hd
      rw [blockLanded_clean] at ht
      exact ht
    · rw [block_size] at hscratch
      exact hscratch hreg canon _ _ rfl rfl

end Sys2Proof
end
